-- ==== Sys2Proof/Word.lean ====
section
/-! DEFINITION. The plain word types of the K2 and nothing more (R9, R16, R63). -/

namespace Sys2Proof

/-- One byte of memory. -/
abbrev Byte := BitVec 8

/-- One register, one lane, or one mask of 32 lanes (R16). -/
abbrev Word := BitVec 32

/-- A register pair, an address or a special register (R17, R29). -/
abbrev DWord := BitVec 64

/-- A register quad: a long name (R17, R237). -/
abbrev QWord := BitVec 128

/-- A sparse table in one canonical form: keys strictly rising, and no entry that equals what an
unlisted key reads as. Memory is `Sparse Byte`. -/
abbrev Sparse (α : Type) := List (Nat × α)

end Sys2Proof
end

