-- ==== Sys2Proof/Config.lean ====
section
/-! DEFINITION. What an implementation fixes and what the manual leaves open: every constant here has no
body, so no proof can rest on a value of it. Each names its entry of the assumption log. -/

namespace Sys2Proof.Config

/-- Free choice among agents that are due, drawn at the given count (log 3). -/
opaque pick : Nat → Nat

/-- The core's free-running generator of stochastic rounding without DET (R48, log 11). -/
opaque freeRunning : Nat → Word

/-- Arithmetic cycles a core counts over the step at the given count: cycle counts are not modelled (R31, R33, log 5). -/
opaque stepCycles : (core count : Nat) → Nat

/-- Measured energy of an instruction or command, in nJ (R407, log 5). -/
opaque measuredEnergy : Nat → Nat

/-- Cycles spent waiting for a permit (R171, log 5). -/
opaque permitWait : Nat → Nat

/-- Whether an access uses a cached translation that the tables no longer hold (R374, log 7). -/
opaque staleTlb : Nat → Bool

/-- Whether a fetch of a launch sees an aligned word as it stood at the start of the launch (R80, log 8). -/
opaque staleText : Nat → Nat → Bool

/-- The order in which lanes that name one address are applied by an atomic: a free rank per lane (R146, log 10). -/
opaque laneRank : Nat → Nat → Nat

/-- A bit of a race: whether a copy reads a byte before (true) or after its own overlapping write (R195, log 4). -/
opaque copyReadsOld : Nat → Bool

/-- Field `i` of the payload of an RPC frame whose layout the manual does not give (R380, R401, log 12). -/
opaque rpcField : (op : Nat) → (i : Nat) → List Byte → Nat

/-- The bytes of a record's payload that has no layout in the manual, from what it holds (R379, R380, log 12). -/
opaque rpcBytes : (op : Nat) → List Nat → List Byte

/-- SM3 digest (R408, R414, log 13). -/
opaque sm3 : List Byte → List Byte

/-- Bytes of the payload of a frame whose layout the manual does not give (R377, log 12). -/
opaque payloadBytes : (op : Nat) → List Byte → Nat

/-- What a scall's service asks of a host agent, at the given count: 0 nothing, 1 a file, 2 a connection, otherwise something on one of the
handles that are open (R380, log 12). -/
opaque agentAsk : (count svc : Nat) → Nat

/-- SM2 verification under the vendor's key: digest, then r and s (R408, log 13). -/
opaque sm2Verify : List Byte → List Byte → Bool

/-- SM2 signature by the module's identity key: the user identifier, then the digest (R414, log 13). -/
opaque sm2Sign : List Byte → List Byte → List Byte

/-- The certificates of the module's identity chain, DER-encoded (R414, log 13). -/
opaque certChain : List (List Byte)

/-- Where the image of a bank starts a supervisor group, and the root of its address space (R355, R411, R412, log 15). -/
opaque supervisorEntry : (image : List Byte) → DWord
opaque supervisorRoot : (image : List Byte) → DWord

/-- Vector grant of the supervisor group of an image, in blocks of 16 registers (log 15). -/
opaque supervisorBlocks : (image : List Byte) → Nat

/-- The 4 KiB block of HBM from which the firmware publishes capability lists (R41, R411, log 15). -/
opaque capabilityBlock : Nat

/-- Eye margin of an optical port as it measures it at the given count (R403, R405, log 5). -/
opaque eyeMargin : (count port : Nat) → Nat

/-- Cycles that an emergency stretches in the step at the given count (R407, log 5). -/
opaque stretchedCycles : Nat → Nat

/-- Stepping of the part (R43, log 15). -/
opaque stepping : BitVec 16

/-- The energy COMPAT saves in an interval, as the governor estimates it (R235, R407, log 5). -/
opaque compatSaving : Nat → Nat

/-- Whether the host completes PCI Express AtomicOps (R147, log 20). -/
opaque hostAtomics : Bool

/-- Bytes that a fabric message takes beside its data (R389, log 29). -/
opaque messageHeader : Nat

/-- Whether the switch refuses an access to a 64-byte line of the pool under its own table, and whether the line comes poisoned, at the
given count (R386, log 20). -/
opaque switchRefuses : (count line : Nat) → Bool
opaque poolPoisoned : (count line : Nat) → Bool

/-- Whether a halt that is on its way meets a tst.all between its two version writes, at the given count (R157, log 69). -/
opaque cutTile : (count : Nat) → Bool

/-- Which of the engines that have room a copy-class command goes to (R283, log 3). -/
opaque engineChoice : Nat → Nat

/-- The group that issued a command which is known from its saved record alone, by its agent (R371, log 73). -/
opaque recordGroup : Nat → Nat

/-- The result of a permitted operation on an aperture read's poisoned or absent bytes (R381, R395, log 21). -/
opaque poisonByte : Nat → Byte

end Sys2Proof.Config
end

