-- ==== Sys2Proof/Syntax.lean ====
section
/-! DEFINITION. The instructions and the steps of the K2: one constructor of `Instr` for each row of the opcode
table. An instruction word keeps its operand fields typed (R65 to R75); a step of another agent keeps its parameters. -/

namespace Sys2Proof

/-- Type codes of families A, M and G (R70). -/
inductive Ty
  | b32 | i32 | n32 | f32 | f16 | bf16 | dx8 | dx4 | b64 | i64 | n64 | f64 | n8 | i8 | n16 | i16
  deriving DecidableEq, Repr

/-- Rounding codes (R47). -/
inductive Rm
  | rn | rz | rd | ru
  deriving DecidableEq, Repr

/-- Format tags (R26). -/
inductive Tag
  | raw | i32 | f32 | h2 | b2 | dx8 | dx4 | i64 | f64 | ptr | name | tri
  deriving DecidableEq, Repr

/-- The specials of R21, as a specifier names them. -/
inductive Special
  | z | lane | quarter | gid | ngrp | tid | uidxLo | uidxHi | nunitLo | nunitHi | vbase | vsize | prio
  deriving DecidableEq, Repr

/-- An operand specifier (R65); `res` keeps a reserved code, which no well-formed word holds. -/
inductive Opd
  | v (n : Nat) | s (n : Nat) | m (n : Nat) | p (n : Nat) | sp (x : Special) | res (code : Nat)
  deriving DecidableEq, Repr

/-- The fields every instruction word has beside its MOD field (R63). -/
structure Op where
  /-- FN: the function within the opcode. -/
  fn   : Nat
  /-- GRD: guard, negate in bit 3 (R67). -/
  grd  : Nat
  /-- HINT: timing hints (R69). -/
  hint : Nat
  d    : Opd
  a    : Opd
  b    : Opd
  /-- IMM as an unsigned 32-bit number. -/
  imm  : Nat
  deriving DecidableEq, Repr

/-- MOD of family A (R71). -/
structure ModA where
  ty   : Ty
  rm   : Rm
  rs   : Bool
  opnd : Nat
  sub  : Nat
  deriving DecidableEq, Repr

/-- MOD of family M (R73). -/
structure ModM where
  ty    : Ty
  ord   : Nat
  scope : Nat
  space : Nat
  deriving DecidableEq, Repr

/-- MOD of family G (R74). -/
structure ModG where
  ty    : Ty
  iw    : Nat
  isgn  : Bool
  sc    : Nat
  space : Nat
  deriving DecidableEq, Repr

/-- MOD of family B (R75): the block priority and the three zero bits. -/
structure ModB where
  prio : Nat
  zero : Nat
  deriving DecidableEq, Repr

/-- MOD of family X: the eleven bits [44:34]; each layout reads its own fields from them (R81). -/
structure ModX where
  bits : Nat
  deriving DecidableEq, Repr

/-- The bits `hi` to `lo` of a MOD field, numbered as in the word (MOD is [44:34]). -/
def ModX.f (x : ModX) (hi lo : Nat) : Nat := x.bits / 2 ^ (lo - 34) % 2 ^ (hi - lo + 1)

/-- A unit: its function, its launch identifier and its unit index (R219, R340). -/
structure UKey where
  fn  : Nat
  lid : Nat
  idx : Nat
  deriving DecidableEq, Repr

/-- A store-fault record (R365). -/
structure StoreFault where
  va   : DWord
  pc   : DWord
  code : Nat
  data : DWord
  mask : Word
  gid  : Nat
  lg   : Nat
  estat : Nat
  deriving DecidableEq, Repr

/-- A late reply of an atomic (R370). -/
structure LateReply where
  gid  : Nat
  d    : Nat
  mask : Word
  ty   : Ty
  vals : List DWord
  deriving DecidableEq, Repr

/-- What a copy engine moves: a command of a unit, the fetch of an admission, or the write-back of a
departure (R283, R247, R251). -/
inductive CopyRef
  | cmd (u : UKey) (agent : Nat)
  | fetch (ctx slot : Nat)
  | writeBack (ctx slot : Nat)
  deriving DecidableEq, Repr

/-- Who raised a vector, and where the decision is reported (R297, R298). -/
structure RaiseReq where
  /-- context whose translation finds the endpoint block -/
  ctx : Nat
  va : DWord
  vec : Nat
  pay : DWord
  /-- CLASS of the sender: 1 host channel, 2 device kernel. -/
  cls : Nat
  func : Nat
  modid : Nat
  sctx : Nat
  launch : Nat
  /-- a group waiting in uiraise.trap: its unit, gid and the mark of the wait -/
  waiter : Option (UKey × Nat × Nat)
  /-- a host request waiting for its reply: function, tag and channel -/
  reply : Option (Nat × Nat × Nat)
  /-- a fabric request waiting for its reply: source module, source function and identifier -/
  fab : Option (Nat × Nat × Nat)
  /-- what the raiser knew, for race detection: a vector of clocks for each unit (R314) -/
  know : List (UKey × List Nat) := []
  /-- the group that raised it, whose raises are decided in the order of its program (R299) -/
  src : Option (UKey × Nat) := none
  deriving DecidableEq, Repr

/-- A whole RPC frame of a function (R377). -/
structure Rpc where
  fn    : Nat
  tag   : Nat
  chan  : Nat
  frame : List Byte
  /-- what the fields hold whose layout the manual does not give, read when the frame is consumed (log 12) -/
  vals  : List Nat := []
  deriving DecidableEq, Repr

/-- One inbound posted write (R376, R382). -/
structure Inbound where
  fn   : Nat
  /-- true: the message aperture (BAR0); false: the data aperture (BAR2) -/
  msg  : Bool
  off  : Nat
  ro   : Bool
  data : List Byte
  deriving DecidableEq, Repr

/-- A PCI Express AtomicOp that the module completes: 0 FetchAdd, 1 Swap, 2 CAS, its operand, and the value that CAS compares (R375, log 20). -/
structure HostAtomic where
  op : Nat
  x  : Nat
  y  : Nat
  deriving DecidableEq, Repr

/-- A read as its requester tells it apart, and whether it is an AtomicOp (R375, R381). -/
structure ReadReq where
  label : Nat
  rmw   : Option HostAtomic := none
  deriving DecidableEq, Repr

/-- The kinds of fabric request (R390, R392). -/
inductive FabKind
  | read | write | reduce (fn typ : Nat) | atomic (fn : Nat) (ty : Ty) | raise | depart (key : Nat)
  deriving DecidableEq, Repr

/-- A fabric request as it arrives at its target (R387, R392). -/
structure FabReq where
  srcMod  : Nat
  srcFn   : Nat
  srcCtx  : Nat
  srcLid  : Nat
  id      : Nat
  attempt : Nat
  lowack  : Nat
  kind    : FabKind
  handle  : DWord
  off     : Nat
  len     : Nat
  data    : List Byte
  /-- the module it goes to, and the hops it may still be passed on (R388) -/
  dst     : Nat := 0xFFFF
  hops    : Nat := 0
  /-- the optical port it came through; none within the module (R389) -/
  port    : Option Nat := none
  /-- where whole blocks of its data begin whose check values at the sender did not match (R395) -/
  crcBad  : List Nat := []
  /-- bytes of its command's range that come after it (R402) -/
  rest    : Nat := 0
  deriving DecidableEq, Repr

/-- A reply to a fabric request of this module (R393). -/
structure FabReply where
  /-- the function whose request it answers -/
  fn   : Nat
  dst  : Nat
  id   : Nat
  code : Nat
  data : List Byte
  /-- the module it goes to, and the optical port it came through (R388, R389) -/
  dest : Nat := 0xFFFF
  port : Option Nat := none
  /-- where whole blocks of its data begin whose check values at the sender did not match (R395) -/
  crcBad : List Nat := []
  /-- refused by race detection: detail bit 47 of PERM, within the module (R174) -/
  race : Bool := false
  deriving DecidableEq, Repr

/-- One constructor for each row of the opcode table. -/
inductive Instr
  /-- IADD: Adds A and B modulo 2^W per lane, with pointer rules for PTR operands (R96) -/
  | iadd (o : Op) (a : ModA)
  /-- ISUB: Subtracts B from A modulo 2^W per lane, with pointer-difference rules (R96) -/
  | isub (o : Op) (a : ModA)
  /-- IMUL: Integer multiply returning the low or high half of the product (R96) -/
  | imul (o : Op) (a : ModA)
  /-- IMAD: Integer multiply-add, low or high product half plus C (R96) -/
  | imad (o : Op) (a : ModA)
  /-- IDIV: Integer division truncated towards zero, with defined saturating results for zero divisors (R98) -/
  | idiv (o : Op) (a : ModA)
  /-- IREM: Integer remainder taking the sign of A, with defined boundary cases (R98) -/
  | irem (o : Op) (a : ModA)
  /-- IABS: Absolute value of a signed integer, saturating at the minimum value (R96) -/
  | iabs (o : Op) (a : ModA)
  /-- IMIN: Lesser of A and B per lane (R96) -/
  | imin (o : Op) (a : ModA)
  /-- IMAX: Greater of A and B per lane (R96) -/
  | imax (o : Op) (a : ModA)
  /-- AND: Bitwise AND, result tagged RAW (R99) -/
  | andB (o : Op) (a : ModA)
  /-- OR: Bitwise OR, result tagged RAW (R99) -/
  | orB (o : Op) (a : ModA)
  /-- XOR: Bitwise exclusive OR, result tagged RAW (R99) -/
  | xorB (o : Op) (a : ModA)
  /-- SHL: Shift left by an unsigned count, zero when the count reaches the width (R99) -/
  | shl (o : Op) (a : ModA)
  /-- SHR: Arithmetic or logical right shift by type (R99) -/
  | shr (o : Op) (a : ModA)
  /-- ROT: Rotate left or right by B modulo W (R99) -/
  | rot (o : Op) (a : ModA)
  /-- BFX: Extracts a bit field selected by a control word, sign- or zero-extended (R100) -/
  | bfx (o : Op) (a : ModA)
  /-- BFI: Inserts the low bits of A into a field of base C (R100) -/
  | bfi (o : Op) (a : ModA)
  /-- POPC: Counts the one bits of A (R99) -/
  | popc (o : Op) (a : ModA)
  /-- CLZ: Counts leading zero bits of A (R99) -/
  | clz (o : Op) (a : ModA)
  /-- BREV: Reverses the bit order of A (R99) -/
  | brev (o : Op) (a : ModA)
  /-- ICMP: Compares integers or bits and writes a predicate per lane (R101) -/
  | icmp (o : Op) (a : ModA)
  /-- SEL: Selects A or B per lane by a predicate (R102) -/
  | sel (o : Op) (a : ModA)
  /-- MOV: Copies A to D with the source tags (R103) -/
  | mov (o : Op) (a : ModA)
  /-- MOV_RETAG: Copies A to D and gives D a new format tag (R104) -/
  | movRetag (o : Op) (a : ModA)
  /-- MOVI: Writes an immediate to D, optionally into the odd half of a pair (R105) -/
  | movi (o : Op) (a : ModA)
  /-- FADD: Floating-point addition rounded once (R107) -/
  | fadd (o : Op) (a : ModA)
  /-- FSUB: Floating-point subtraction rounded once (R107) -/
  | fsub (o : Op) (a : ModA)
  /-- FMUL: Floating-point multiplication rounded once (R107) -/
  | fmul (o : Op) (a : ModA)
  /-- FFMA: Fused multiply-add with one rounding (R107) -/
  | ffma (o : Op) (a : ModA)
  /-- FMIN: Floating-point minimum with defined NaN and signed-zero rules (R108) -/
  | fmin (o : Op) (a : ModA)
  /-- FMAX: Floating-point maximum with defined NaN and signed-zero rules (R108) -/
  | fmax (o : Op) (a : ModA)
  /-- FCMP: Floating-point comparison writing a predicate (R109) -/
  | fcmp (o : Op) (a : ModA)
  /-- FCLASS: Classifies A into one of ten classes as a one-hot I32 (R110) -/
  | fclass (o : Op) (a : ModA)
  /-- FDIV: Correctly rounded division under math revision 1 (R111) -/
  | fdiv (o : Op) (a : ModA)
  /-- FSQRT: Correctly rounded square root (R111) -/
  | fsqrt (o : Op) (a : ModA)
  /-- FRSQRT: Correctly rounded reciprocal square root in FP32 (R111) -/
  | frsqrt (o : Op) (a : ModA)
  /-- FRCP: Correctly rounded reciprocal in FP32 (R111) -/
  | frcp (o : Op) (a : ModA)
  /-- FEXP2: Correctly rounded base-2 exponential in FP32 (R111) -/
  | fexp2 (o : Op) (a : ModA)
  /-- FLOG2: Correctly rounded base-2 logarithm in FP32 (R111) -/
  | flog2 (o : Op) (a : ModA)
  /-- FSINPI: Correctly rounded sin(pi x) in FP32 (R111) -/
  | fsinpi (o : Op) (a : ModA)
  /-- FCOSPI: Correctly rounded cos(pi x) in FP32 (R111) -/
  | fcospi (o : Op) (a : ModA)
  /-- FRND: Rounds A to an integral value in its own format (R112) -/
  | frnd (o : Op) (a : ModA)
  /-- FSCALE: Multiplies A by 2^n with one rounding (R113) -/
  | fscale (o : Op) (a : ModA)
  /-- FGETEXP: Returns floor(log2 |A|) as an I32 (R114) -/
  | fgetexp (o : Op) (a : ModA)
  /-- CVT: Converts between integer and floating types under R53 (R116) -/
  | cvt (o : Op) (a : ModA)
  /-- DXPACK: Packs 16 FP32 values per lane into a dual-exponent block (R119) -/
  | dxpack (o : Op) (a : ModA)
  /-- DXUNPACK: Decodes a dual-exponent block into 16 FP32 registers (R120) -/
  | dxunpack (o : Op) (a : ModA)
  /-- FGSUM: Sums A over executing lanes in a fixed binary tree (R125) -/
  | fgsum (o : Op) (a : ModA)
  /-- FDOT2: Two-element FP16 or BF16 dot product with optional addend, rounded once to FP32 (R115) -/
  | fdot2 (o : Op) (a : ModA)
  /-- SHFL: Gives each lane the value of A from a computed source lane (R121) -/
  | shfl (o : Op) (a : ModA)
  /-- BALLOT: Collects a predicate of executing lanes into a mask (R122) -/
  | ballot (o : Op) (a : ModA)
  /-- VOTE: Writes the all, any or uniform vote of a predicate (R123) -/
  | vote (o : Op) (a : ModA)
  /-- GRED: Reduces A over executing lanes in ascending lane order (R124) -/
  | gred (o : Op) (a : ModA)
  /-- GSCAN: Inclusive or exclusive scan of A over executing lanes (R124) -/
  | gscan (o : Op) (a : ModA)
  /-- PLOP: Combines predicates per lane (R126) -/
  | plop (o : Op) (a : ModA)
  /-- P2M: Moves a predicate of all 32 lanes into a mask (R122) -/
  | p2m (o : Op) (a : ModA)
  /-- M2P: Sets a predicate in each executing lane from a mask bit (R122) -/
  | m2p (o : Op) (a : ModA)
  /-- NOP: Changes no state (R127) -/
  | nop (o : Op) (a : ModA)
  /-- BRA: Sends executing lanes to a relative target with a block priority (R131) -/
  | bra (o : Op) (b : ModB)
  /-- BRX: Branches executing lanes to a computed target (R131) -/
  | brx (o : Op) (b : ModB)
  /-- CALL: Writes the return address and branches as bra (R131) -/
  | call (o : Op) (b : ModB)
  /-- RET: Branches to the return address in A, optionally setting priority (R131) -/
  | ret (o : Op) (x : ModX)
  /-- EXIT: Ends the executing lanes, draining first when the last lane would end (R132) -/
  | exitL (o : Op) (x : ModX)
  /-- RGRP: Cuts off executing lanes into the offcut store for the joiner (R135) -/
  | rgrp (o : Op) (x : ModX)
  /-- RGRP_SET: Sets the group's live count LIVEN (R134) -/
  | rgrpSet (o : Op) (x : ModX)
  /-- REJOIN: Makes masked lanes wait for one another at one PC (R136) -/
  | rejoin (o : Op) (x : ModX)
  /-- SETPRIO: Gives executing lanes a new block priority (R131) -/
  | setprio (o : Op) (b : ModB)
  /-- LD: Loads memory into registers per lane (R143) -/
  | ld (o : Op) (m : ModM)
  /-- ST: Stores registers to memory per lane, faults queued for rows 9 to 11 (R143) -/
  | st (o : Op) (m : ModM)
  /-- GLD: Gathers elements from indexed addresses (R144) -/
  | gld (o : Op) (g : ModG)
  /-- GST: Scatters elements to indexed addresses (R144) -/
  | gst (o : Op) (g : ModG)
  /-- CST: Compress-stores the values of executing lanes contiguously (R145) -/
  | cst (o : Op) (m : ModM)
  /-- XLD: Expand-loads contiguous elements into executing lanes (R145) -/
  | xld (o : Op) (m : ModM)
  /-- ATOM: Atomic read-modify-write per lane returning the old value (R146) -/
  | atom (o : Op) (m : ModM)
  /-- RED: Atomic reduction per lane without a returned value (R149) -/
  | red (o : Op) (m : ModM)
  /-- WAITV: Waits until memory satisfies a comparison in every executing lane (R150) -/
  | waitv (o : Op) (m : ModM)
  /-- FENCE: Acquire, release or two-way fence at a scope, and a drain point (R151) -/
  | fence (o : Op) (x : ModX)
  /-- SDRAIN: Drain point that reports the group's recorded store faults (R152) -/
  | sdrain (o : Op) (x : ModX)
  /-- PF: Prefetches a line into L1 without visible effect (R153) -/
  | pf (o : Op) (m : ModM)
  /-- TLD: Loads a 1,024-byte tile into eight vector registers (R156) -/
  | tld (o : Op) (m : ModM)
  /-- TLD_VER: Loads a tile consistently against its version word, up to eight attempts (R157) -/
  | tldVer (o : Op) (m : ModM)
  /-- TST: Stores eight vector registers as a tile (R156) -/
  | tst (o : Op) (m : ModM)
  /-- TST_ALL: Stores a tile atomically with its version word (R157) -/
  | tstAll (o : Op) (m : ModM)
  /-- LDN: Loads a long name and turns it into a short pointer, admitting the object if needed (R160) -/
  | ldn (o : Op) (x : ModX)
  /-- STN: Stores a short pointer as a long name (R163) -/
  | stn (o : Op) (x : ModX)
  /-- PEQ: Compares two pointers by name and offset (R164) -/
  | peq (o : Op) (x : ModX)
  /-- PNAME: Writes the long name of a pointer to a quad (R165) -/
  | pname (o : Op) (x : ModX)
  /-- NPIN: Adds one to the pin count of the named object per lane (R166) -/
  | npin (o : Op) (x : ModX)
  /-- NUNPIN: Takes one from the pin count of the named object per lane (R166) -/
  | nunpin (o : Op) (x : ModX)
  /-- LDPL: Loads a plane's shadow buffer from memory, completing on a tag (R183) -/
  | ldpl (o : Op) (x : ModX)
  /-- PLSWAP: Queues the exchange of a plane's active and shadow buffers (R184) -/
  | plswap (o : Op) (x : ModX)
  /-- MMQ: Queues one matrix quarter operation per quarter with an executing lane (R185) -/
  | mmq (o : Op) (x : ModX)
  /-- ACCRD: Reads an accumulator slot into vector registers (R187) -/
  | accrd (o : Op) (x : ModX)
  /-- ACCWR: Writes vector registers into an accumulator slot (R187) -/
  | accwr (o : Op) (x : ModX)
  /-- ACCZERO: Zeroes a range of accumulator slots with tag RAW (R188) -/
  | acczero (o : Op) (x : ModX)
  /-- ACCLD: Loads an accumulator slot from memory, completing on a tag (R189) -/
  | accld (o : Op) (x : ModX)
  /-- ACCST: Stores an accumulator slot to memory, completing on a tag (R189) -/
  | accst (o : Op) (x : ModX)
  /-- TRCHOL: Factors a Gram matrix into a factor tile (R192) -/
  | trchol (o : Op) (x : ModX)
  /-- TRUPD: Absorbs a vector into a factor tile by rotations (R192) -/
  | trupd (o : Op) (x : ModX)
  /-- TRUPD8: Absorbs eight rows of a slot into a factor tile (R192) -/
  | trupd8 (o : Op) (x : ModX)
  /-- TRDWD: Removes a vector from a factor tile with a definiteness margin (R192) -/
  | trdwd (o : Op) (x : ModX)
  /-- TRSOLVE: Solves against a factor tile in place in registers (R192) -/
  | trsolve (o : Op) (x : ModX)
  /-- TRSCALE: Multiplies every element of a factor tile by a scalar (R192) -/
  | trscale (o : Op) (x : ModX)
  /-- CPY: Copies bytes, linear, 2-D, gather or transpose form, completing on a tag (R195) -/
  | cpy (o : Op) (x : ModX)
  /-- CPYG: Gathers indexed rows into the vault (R286) -/
  | cpyg (o : Op) (x : ModX)
  /-- CPYT: Copies a 2-D array transposed into the vault (R287) -/
  | cpyt (o : Op) (x : ModX)
  /-- CPYR: Reads or writes remote memory through a remote handle (R196) -/
  | cpyr (o : Op) (x : ModX)
  /-- CRED: Combines a source array into a destination element by element, optionally ordered (R197) -/
  | cred (o : Op) (x : ModX)
  /-- CPYZ: Error-bounded compression or decompression (R199) -/
  | cpyz (o : Op) (x : ModX)
  /-- RATOM: One remote atomic with the old value written to the vault (R201) -/
  | ratom (o : Op) (x : ModX)
  /-- SFILL: Takes the next free stream slot and starts its fill copy (R289) -/
  | sfill (o : Op) (x : ModX)
  /-- SPOP: Waits for and pops the oldest stream slot in ring order (R289) -/
  | spop (o : Op) (x : ModX)
  /-- SFREE: Frees the oldest popped stream slot (R289) -/
  | sfree (o : Op) (x : ModX)
  /-- SFREE_INIT: Binds a stream register to a ring in the vault (R202) -/
  | sfreeInit (o : Op) (x : ModX)
  /-- TAGW: Waits until any or all masked tags are ready or not pending (R203) -/
  | tagw (o : Op) (x : ModX)
  /-- TAGFF: Returns the lowest ready tag of a mask (R203) -/
  | tagff (o : Op) (x : ModX)
  /-- TAGST: Returns a tag's status word, waiting while it is pending (R203) -/
  | tagst (o : Op) (x : ModX)
  /-- BINI: Reinitialises a barrier object's EXPECT and MEMB (R179) -/
  | bini (o : Op) (x : ModX)
  /-- BARV: Arrives once on a barrier without waiting (R179) -/
  | barv (o : Op) (x : ModX)
  /-- BARW: Drains, optionally arrives, then waits for a barrier phase (R179) -/
  | barw (o : Op) (x : ModX)
  /-- SIGDEC: Atomically decrements a signal object as a release (R181) -/
  | sigdec (o : Op) (x : ModX)
  /-- UIRAISE: Raises a vector at an endpoint, the trap form waiting for the decision (R204) -/
  | uiraise (o : Op) (x : ModX)
  /-- UIWAIT: Handler group waits until a vector is deliverable (R304) -/
  | uiwait (o : Op) (x : ModX)
  /-- UITAKE: Removes the highest deliverable vector with its count and payload (R302) -/
  | uitake (o : Op) (x : ModX)
  /-- UIMASK: Opens or closes a section in which entry never happens (R205) -/
  | uimask (o : Op) (x : ModX)
  /-- UIRET: Ends an entry-mode handler and restores the parked frontier (R307) -/
  | uiret (o : Op) (x : ModX)
  /-- SCALL: Posts a request to the supervisor mailbox and waits for sret (R360) -/
  | scall (o : Op) (x : ModX)
  /-- TRAP: Takes trap SWTRAP with an immediate detail (R206) -/
  | trapSw (o : Op) (x : ModX)
  /-- SPRD: Reads a special register into an x pair (R29) -/
  | sprd (o : Op) (x : ModX)
  /-- SPWR: Writes a special register from an x pair (R29) -/
  | spwr (o : Op) (x : ModX)
  /-- BRK: Takes trap BRK at the instruction (R206) -/
  | brk (o : Op) (x : ModX)
  /-- SRET: Supervisor answers a fault or scall entry by resuming, terminating the group or ending the unit (R359) -/
  | sret (o : Op) (x : ModX)
  /-- CANCEL: Cancels the issuer's launch, graph, phase or job (R338) -/
  | cancel (o : Op) (x : ModX)
  /-- HVY: Reserves or releases permits for heavy commands (R206) -/
  | hvy (o : Op) (x : ModX)
  /-- UIMASK_WRITE: A write to UIMASK that in anchor mode also updates the launch copy and the endpoint MASK (R301) -/
  | uimaskWrite (u : UKey) (v : DWord)
  /-- REGISTER_WRITE: A write to a register or window field that has no row of its own (R361) -/
  | registerWrite (core slot off size : Nat) (v : DWord)
  /-- STORE_FAULT_RECORD: A store meeting a page fault is recorded in the store-fault queue, halting the unit if the queue is full (R142) -/
  | storeFaultRecord (u : UKey) (r : StoreFault)
  /-- SIBHALT: A sibling group stops within the skid bound after a halt broadcast (R353) -/
  | sibhalt (u : UKey) (gid : Nat)
  /-- REJOIN_WAIT_COMPLETE: Waiting entries whose masked lanes have all arrived merge and continue (R136) -/
  | rejoinWaitComplete (u : UKey) (gid : Nat)
  /-- OFFCUT_STALL_RELEASE: An instruction in an offcut stall issues once the store has room (R229) -/
  | offcutStallRelease (u : UKey) (gid : Nat)
  /-- JOINER_BUILD: The joiner builds a group from a ready key's offcut records (R230) -/
  | joinerBuild (u : UKey)
  /-- WAITV_REREAD: The core re-reads a waitv address on a granule write or after 1,024 cycles (R150) -/
  | waitvReread (u : UKey) (gid : Nat)
  /-- FILL_WAIT_END: An object page fills and accesses waiting on it proceed (R248) -/
  | fillWaitEnd (ctx slot : Nat)
  /-- GROUP_END: A group ends once its owed register writes land, leaving its barriers and slot (R132) -/
  | groupEnd (u : UKey) (gid : Nat)
  /-- UNIT_END: A unit ends when all groups and engine operations are done, and the launch counter falls (R132) -/
  | unitEnd (u : UKey)
  /-- ENGINE_COMMAND_START: A command waiting on its wait barrier starts once the phase completes (R180) -/
  | engineCommandStart (u : UKey) (agent : Nat)
  /-- MATRIX_PASS_OPEN: The array opens a pass fusing queued quarter operations within the fusion window (R267) -/
  | matrixPassOpen (core : Nat)
  /-- QUARTER_OPERATION_COMMIT: A quarter operation commits its rows or fails with SQUARE, arriving when the mmq is done (R185) -/
  | quarterOperationCommit (core : Nat) (mismatch : Option (Nat × Nat))
  /-- PLSWAP_EXCHANGE: A queued plswap takes effect once earlier operations on the plane have finished (R182) -/
  | plswapExchange (core plane : Nat)
  /-- FACTOR_COMMAND_COMMIT: A factor command finishes, flipping the current half or failing, and arrives on its barrier (R190) -/
  | factorCommandCommit (u : UKey) (agent : Nat)
  /-- PERMIT_GRANT: The governor grants a waiting permit and debits its estimate (R407) -/
  | permitGrant (die : Nat)
  /-- ENERGY_INTERVAL_CREDIT: Every 80 cycles each die's energy account is credited with its share (R406) -/
  | energyIntervalCredit (die : Nat)
  /-- COPY_PIECE: An engine moves one piece of at most 4 KiB of a queued command (R283) -/
  | copyPiece (c : CopyRef)
  /-- COMMAND_COMPLETE: A tag command writes its last byte or fails; status is written and the tag becomes ready (R280) -/
  | commandComplete (u : UKey) (agent : Nat)
  /-- FILL_END: A stream fill ends and its slot becomes filled or failed (R289) -/
  | fillEnd (u : UKey) (agent : Nat)
  /-- ORDERED_REDUCTION_APPLY: The sequencer applies the next unit's ordered contribution (R291) -/
  | orderedReductionApply (fn lid stream : Nat)
  /-- LATE_REPLY: An atomic reply arriving after the save is written to the late-reply area (R148) -/
  | lateReply (u : UKey) (r : LateReply)
  /-- PAGE_WALK: A TLB miss walks the page tables, joining a walk in progress (R374) -/
  | pageWalk (core ctx : Nat) (va : DWord)
  /-- ADMISSION: The residency unit looks up a key, chooses a slot, takes ownership and starts the fetch (R247) -/
  | admission (ctx key : Nat)
  /-- DIRECTORY_BUSY_REREAD: A busy directory entry is re-read after 1 µs (R246) -/
  | directoryBusyReread (ctx key : Nat)
  /-- OWNERSHIP_REREAD: OWNER is re-read every 1 µs and the CAS retried when free (R250) -/
  | ownershipReread (ctx slot : Nat)
  /-- ADMISSION_RESIDENT: The first 64 KiB is mapped; the slot becomes resident and waiting lanes complete (R242) -/
  | admissionResident (ctx slot : Nat)
  /-- DEPART_REQUEST: An owner receives a depart request and departs the object (R250) -/
  | departRequest (ctx key : Nat)
  /-- DEPARTURE: A slot becomes departing and its window is unmapped (R251) -/
  | departure (ctx slot : Nat) (forced : Bool)
  /-- DEPARTURE_COMPLETE: After accesses and pins drain, write-back ends and the slot becomes departed (R251) -/
  | departureComplete (ctx slot : Nat)
  /-- RAISE_DECISION: The interrupt unit accepts or denies a raise and updates the target state (R299) -/
  | raiseDecision (r : RaiseReq)
  /-- USER_INTERRUPT_ENTRY: The handler group is diverted to HPC at an instruction boundary (R305) -/
  | userInterruptEntry (u : UKey)
  /-- WATCHDOG: A launch's budget expires and the launch is cancelled (R234) -/
  | watchdog (fn lid : Nat)
  /-- YIELD: After 65,536 all-waiting cycles a core vacates the waiting units (R233) -/
  | yieldCore (core : Nat)
  /-- WORK_REQUEST: A core with room is served a vacated unit or a fresh ticket (R343) -/
  | workRequest (core : Nat)
  /-- FIRST_TICKET: A launch's first ticket binds its endpoint, reads its arguments and starts its watchdog (R339) -/
  | firstTicket (fn lid : Nat)
  /-- SPATIAL_PREEMPTION: A higher-class launch vacates eligible cores (R344) -/
  | spatialPreemption (fn lid : Nat)
  /-- UNIT_VACATE: A unit stops issuing, deals with its commands and is saved to its image (R345) -/
  | unitVacate (u : UKey)
  /-- UNIT_RESTORE: A vacated unit is restored, its names admitted and its records re-queued (R346) -/
  | unitRestore (u : UKey) (core : Nat)
  /-- SLICE_END: At a quantum boundary the bench ends or continues a tenant slice (R348) -/
  | sliceEnd
  /-- MACHINE_CHECK: A core machine check halts, saves or ends units and restarts the supervisor (R366) -/
  | machineCheck (core : Nat) (lost : List UKey)
  /-- CORE_REPORT_ACK: The supervisor answers a core report by storing zero to its first word (R357) -/
  | coreReportAck (core idx : Nat)
  /-- QFREE: A write to QFREE frees the named store-fault records (R361) -/
  | qfree (u : UKey) (mask : Nat)
  /-- ADMISSION_PORT_GO: A store to GO starts an admission in the serviced group's context (R362) -/
  | admissionPortGo (core : Nat)
  /-- SUPERVISOR_REPLACE: A core's supervisor is replaced once its mailbox is empty during a switch (R411) -/
  | supervisorReplace (core : Nat)
  /-- OPEN: Opens the function's reply ring (R379) -/
  | openRpc (r : Rpc)
  /-- RACK: Reports reply-ring consumption (R379) -/
  | rackRpc (r : Rpc)
  /-- CAPS: Returns CAPBASE of a context (R380) -/
  | capsRpc (r : Rpc)
  /-- CONTEXT: Creates a context from its descriptor (R368) -/
  | contextRpc (r : Rpc)
  /-- CONTEXT_TEARDOWN: Tears down a context, cancelling its launches and departing its objects (R418) -/
  | contextTeardown (r : Rpc)
  /-- LAUNCH: Checks and queues a launch packet (R334) -/
  | launchRpc (r : Rpc)
  /-- LEVEL: Opens a graph, phase or job level (R336) -/
  | levelRpc (r : Rpc)
  /-- CANCEL_RPC: Cancels a launch or level from the host (R338) -/
  | cancelRpc (r : Rpc)
  /-- QTABLE: Writes the quantum table (R347) -/
  | qtableRpc (r : Rpc)
  /-- TLBI: Invalidates cached translations of a range (R374) -/
  | tlbiRpc (r : Rpc)
  /-- DEPART: Departs a key of a context on request (R362) -/
  | departRpc (r : Rpc)
  /-- RAISE: The host raises a vector at an endpoint handle (R298) -/
  | raiseRpc (r : Rpc)
  /-- WINDOW: Grants or withdraws a data aperture window (R381) -/
  | windowRpc (r : Rpc)
  /-- HANDLE: Creates an endpoint or remote-memory handle (R390) -/
  | handleRpc (r : Rpc)
  /-- REVOKE: Revokes a handle by advancing its generation (R391) -/
  | revokeRpc (r : Rpc)
  /-- POOLRANGE: Writes a pool range table entry (R386) -/
  | poolrangeRpc (r : Rpc)
  /-- PHASE: Quiesces remote requests and installs a new fabric routing table (R388) -/
  | phaseRpc (r : Rpc)
  /-- AGENTREPLY: Answers an AGENT request (R380) -/
  | agentReplyRpc (r : Rpc)
  /-- TELEMETRY: Returns a page of telemetry counters (R403) -/
  | telemetryRpc (r : Rpc)
  /-- POWER: Sets the module power limit (R406) -/
  | powerRpc (r : Rpc)
  /-- FWLOAD: Writes a piece of a firmware image into the inactive bank (R411) -/
  | fwloadRpc (r : Rpc)
  /-- FWSWITCH: Verifies and changes over to the inactive firmware bank (R411) -/
  | fwswitchRpc (r : Rpc)
  /-- FWCOMMIT: Raises the rollback counter to the active image's SVN (R409) -/
  | fwcommitRpc (r : Rpc)
  /-- QUOTE: Returns a signed attestation quote (R414) -/
  | quoteRpc (r : Rpc)
  /-- CORESET: Fences or unfences a core (R404) -/
  | coresetRpc (r : Rpc)
  /-- QUIESCE: Stops a launch and returns its migration record (R415) -/
  | quiesceRpc (r : Rpc)
  /-- ADOPT: Resumes a quiesced launch from its migration record (R416) -/
  | adoptRpc (r : Rpc)
  /-- RESYNC: A write to the resync slot restarts the stopped message stream (R378) -/
  | resync (fn off : Nat)
  /-- INBOUND_WRITE: An inbound posted write is cut into route pieces, held or released (R382) -/
  | inboundWrite (w : Inbound)
  /-- INBOUND_READ: A data aperture read completes after earlier writes are acknowledged (R381); so does an AtomicOp (R375) -/
  | inboundRead (fn : Nat) (msg : Bool) (off size : Nat) (r : ReadReq)
  /-- ROUTE_ACK: A route acknowledges a piece performed at .sys (R382) -/
  | routeAck (fn seq route : Nat)
  /-- HELD_WRITE_RELEASE: A held strict write or frame is released once earlier writes are acknowledged (R383) -/
  | heldWriteRelease (fn seq : Nat)
  /-- FUNCTION_RESET: A virtual function reset cancels launches, advances handles and tears down fabric state (R367) -/
  | functionReset (fn : Nat)
  /-- FABRIC_REQUEST: A fabric request arrives and is filtered, performed once or answered from the cache (R392) -/
  | fabricRequest (r : FabReq)
  /-- FABRIC_REPLY: A reply arrives; the first is taken and later ones absorbed (R393) -/
  | fabricReply (r : FabReply)
  /-- RESEND_TIMEOUT: No reply in 200 µs resends the request or ends it with TIMEOUT (R393) -/
  | resendTimeout (fn dst id : Nat)
  /-- CREDIT_REPORT: A port reports its SENT and FREED totals every 1 µs or after 256 freed flits (R389) -/
  | creditReport (port chan : Nat)
  /-- CREDIT_REPORT_RECEIVED: A peer's credit report updates the sending allowance (R389) -/
  | creditReportReceived (port chan sent freed : Nat)
  /-- RATE_STEP_DOWN: A port with too little eye margin steps down one rate or goes down (R405) -/
  | rateStepDown (port : Nat)
  /-- POOL_LINK_DOWN: A pool port's link goes down and its accesses fail (R386) -/
  | poolLinkDown (port : Nat)
  /-- EMERGENCY_EVENT: An over-temperature or droop stretches the arithmetic clock (R407) -/
  | emergencyEvent
  /-- EMERGENCY_CLEAR: The cause clears and the clock returns to 800 MHz (R407) -/
  | emergencyClear
  /-- PATROL_SCRUB: The patrol scrubber reads and corrects HBM locations (R402) -/
  | patrolScrub (addr size : Nat) (bad : List Nat) (corrected : Nat)
  /-- POWER_ON: The management processor boots a valid bank or enables no function (R410) -/
  | powerOn
  /-- POOL_LINK_UP: A pool port's link comes back up and accesses to its ranges are performed again (R386) -/
  | poolLinkUp (port : Nat)
  /-- POWER_LOSS: The module loses power, and nothing on it runs until the next power-on (R412) -/
  | powerLoss
  /-- POOL_BACK_INVALIDATE: The pool's hardware directory back-invalidates a line held in the I/O die's pool line cache before another host's write completes (R385) -/
  | poolBackInvalidate (line : Nat)
  deriving DecidableEq, Repr

end Sys2Proof
end

