-- ==== Sys2Proof/Machine/Legal.lean ====
section
/-! DEFINITION. Operand specifiers as codes (R65), type codes (R70), and the illegal encodings of R78: for each
instruction the list of all its faults, each a field number and a reason number of R78. -/

namespace Sys2Proof

/-- The 9-bit code of a specifier (R65, R21). -/
def Special.code : Special → Nat
  | .z => 0 | .lane => 1 | .quarter => 2 | .gid => 3 | .ngrp => 4 | .tid => 5 | .uidxLo => 6 | .uidxHi => 7
  | .nunitLo => 8 | .nunitHi => 9 | .vbase => 10 | .vsize => 11 | .prio => 12

def specialOf : Nat → Option Special
  | 0 => some .z | 1 => some .lane | 2 => some .quarter | 3 => some .gid | 4 => some .ngrp | 5 => some .tid
  | 6 => some .uidxLo | 7 => some .uidxHi | 8 => some .nunitLo | 9 => some .nunitHi | 10 => some .vbase
  | 11 => some .vsize | 12 => some .prio | _ => none

def Opd.code : Opd → Nat
  | .v n => n
  | .s n => 0x100 + n
  | .m n => 0x180 + n
  | .p n => 0x1A0 + n
  | .sp x => 0x1C0 + x.code
  | .res c => c

/-- Reads a 9-bit specifier (R65). -/
def opdOf (c : Nat) : Opd :=
  if c < 0x100 then .v c
  else if c < 0x180 then .s (c - 0x100)
  else if c < 0x1A0 then .m (c - 0x180)
  else if c < 0x1A8 then .p (c - 0x1A0)
  else if c < 0x1C0 then .res c
  else match specialOf (c - 0x1C0) with
    | some x => .sp x
    | none => .res c

/-- The specifier z (R20, R21). -/
abbrev Opd.z : Opd := .sp .z

def Ty.code : Ty → Nat
  | .b32 => 0 | .i32 => 1 | .n32 => 2 | .f32 => 3 | .f16 => 4 | .bf16 => 5 | .dx8 => 6 | .dx4 => 7 | .b64 => 8
  | .i64 => 9 | .n64 => 10 | .f64 => 11 | .n8 => 12 | .i8 => 13 | .n16 => 14 | .i16 => 15

def tyOf : Nat → Ty
  | 0 => .b32 | 1 => .i32 | 2 => .n32 | 3 => .f32 | 4 => .f16 | 5 => .bf16 | 6 => .dx8 | 7 => .dx4 | 8 => .b64
  | 9 => .i64 | 10 => .n64 | 11 => .f64 | 12 => .n8 | 13 => .i8 | 14 => .n16 | _ => .i16

/-- Element size in bytes (R70). -/
def Ty.size : Ty → Nat
  | .b64 | .i64 | .n64 | .f64 => 8
  | .n8 | .i8 => 1
  | .n16 | .i16 => 2
  | _ => 4

/-- Whether the type takes a register pair. -/
def Ty.is64 (t : Ty) : Bool := t.size == 8

/-- Registers a value of the type takes. -/
def Ty.regs (t : Ty) : Nat := if t.is64 then 2 else 1

def Ty.isInt : Ty → Bool
  | .i32 | .n32 | .i64 | .n64 => true
  | _ => false

def Ty.isBits : Ty → Bool
  | .b32 | .b64 => true
  | _ => false

def Ty.isSigned : Ty → Bool
  | .i32 | .i64 | .i8 | .i16 => true
  | _ => false

def Rm.code : Rm → Nat
  | .rn => 0 | .rz => 1 | .rd => 2 | .ru => 3

def rmOf : Nat → Rm
  | 0 => .rn | 1 => .rz | 2 => .rd | _ => .ru

/-- The tag values of R26; 12 to 15 are reserved. -/
def tagOf : Nat → Option Tag
  | 0 => some .raw | 1 => some .i32 | 2 => some .f32 | 3 => some .h2 | 4 => some .b2 | 5 => some .dx8
  | 6 => some .dx4 | 7 => some .i64 | 8 => some .f64 | 9 => some .ptr | 10 => some .name | 11 => some .tri
  | _ => none

def Tag.code : Tag → Nat
  | .raw => 0 | .i32 => 1 | .f32 => 2 | .h2 => 3 | .b2 => 4 | .dx8 => 5 | .dx4 => 6 | .i64 => 7 | .f64 => 8
  | .ptr => 9 | .name => 10 | .tri => 11

/-- A fault of an encoding: field and reason (R78). -/
abbrev EncFault := Nat × Nat

def faultIf (b : Bool) (field reason : Nat) : List EncFault := if b then [(field, reason)] else []

/-- What a position accepts: alignment and number of registers for v and s (alignment 0: class refused),
and whether it accepts m, p0 to p6, p7, z and the other specials (1: as 32-bit, 2: the 64-bit ones). -/
structure Want where
  used : Bool := true
  v    : Nat := 0
  s    : Nat := 0
  n    : Nat := 1
  m    : Bool := false
  p    : Bool := false
  p7   : Bool := false
  z    : Bool := false
  spec : Nat := 0
  deriving DecidableEq, Repr

namespace Want
def unused : Want := { used := false }
/-- A data source of `n` registers (R66, R92). z is taken as zeros of any width, as the 128 bits of mov.retag.name too, of which
R21 does not speak (DESIGN CHOICE, log 71). -/
def src (n : Nat) : Want :=
  if n = 1 then { v := 1, s := 1, m := true, z := true, spec := 1 } else { v := n, s := n, n := n, z := true, spec := if n = 2 then 2 else 0 }
/-- A data destination of `n` registers: v, s/x or z. -/
def dst (n : Nat) : Want := { v := n, s := n, n := n, z := true }
/-- A data destination that may also be m. -/
def dstM (n : Nat) : Want := { v := n, s := n, n := n, z := true, m := n == 1 }
def dstV (n : Nat) : Want := { v := n, n := n, z := true }
def dstP : Want := { p := true, z := true }
def srcP : Want := { p := true, p7 := true }
def pair : Want := { v := 2, s := 2, n := 2 }
def x : Want := { s := 2, n := 2 }
def xz : Want := { s := 2, n := 2, z := true }
def s1 : Want := { s := 1 }
def vz : Want := { v := 1, z := true }
def quad : Want := { s := 4, n := 4 }
end Want

/-- Faults of one position (R17, R20, R66, R78). `grant` is the group's vector grant. -/
def Want.check (w : Want) (field grant : Nat) (o : Opd) : List EncFault :=
  if !w.used then faultIf (o.code != 0) field 3 else
  match o with
  | .v n => if w.v = 0 then [(field, 5)] else faultIf (n % w.v != 0) field 6 ++ faultIf (grant < n + w.n) field 7
  | .s n => if w.s = 0 then [(field, 5)] else faultIf (n % w.s != 0) field 6
  | .m _ => faultIf (!w.m) field 5
  | .p n => faultIf (!(if n = 7 then w.p7 else w.p)) field 5
  | .sp .z => faultIf (!(w.z || w.spec != 0)) field 5
  | .sp x => faultIf (!(w.spec == 1 || (w.spec == 2 && (x == .uidxLo || x == .nunitLo)))) field 5
  | .res _ => [(field, 5)]

/-- A per-lane source (R66). -/
def Opd.perLane : Opd → Bool
  | .v _ => true
  | .p n => n != 7
  | .sp x => x == .lane || x == .quarter || x == .tid || x == .prio
  | _ => false

/-- A uniform destination (R66). -/
def Opd.uniformDst : Opd → Bool
  | .s _ | .m _ => true
  | _ => false

/-- Faults every word can have (R67, R69). Bits [33:32] are checked by the decoder. -/
def Op.common (o : Op) : List EncFault := faultIf (o.grd == 15) 2 8 ++ faultIf (o.hint % 4 != 0) 6 3

/-- How an instruction of family A uses its fields (R71). -/
structure RuleA where
  ty     : Bool
  opnd   : List Nat
  d      : Want
  a      : Want := .unused
  b      : Want := .unused
  c      : Want := .unused
  rounds : Bool := false
  rs     : Bool := false
  comb   : Bool := false
  subOk  : List Nat := [0]
  /-- reason of a SUB value outside `subOk` -/
  subWhy : Nat := 3
  extra  : List EncFault := []

/-- The faults of a word of family A. A B that is not 0x000 under OPND 0b01 counts as unused also where the instruction refuses that OPND,
so it is reported rather than MOD, the lower field being B's (DEDUCED from R71 and R78, log 68). -/
def RuleA.check (r : RuleA) (grant : Nat) (o : Op) (a : ModA) : List EncFault :=
  let c := opdOf (o.imm % 512)
  let useC := a.opnd == 2 && r.opnd.contains 2
  let uni := o.d.uniformDst && !r.comb
  o.common
  ++ faultIf (!r.ty) 7 4
  ++ faultIf (!r.opnd.contains a.opnd) 7 4
  ++ faultIf (a.rm != .rn && !r.rounds) 7 4
  ++ faultIf (a.rs && (!r.rs || a.rm != .rn)) 7 4
  ++ faultIf (!r.subOk.contains a.sub) 7 r.subWhy
  ++ r.d.check 3 grant o.d
  ++ r.a.check 4 grant o.a
  ++ (if a.opnd == 1 then faultIf (o.b.code != 0) 5 3 else r.b.check 5 grant o.b)
  ++ (if useC then faultIf (512 ≤ o.imm) 9 3 ++ r.c.check 9 grant c else [])
  ++ faultIf (a.opnd == 0 && o.imm != 0) 9 3
  ++ (if uni then faultIf (r.a.used && o.a.perLane) 4 5
        ++ faultIf (r.b.used && a.opnd != 1 && o.b.perLane) 5 5
        ++ faultIf (useC && c.perLane) 9 5 else [])
  ++ r.extra

namespace Legal
/-- Registers of a value of a type, also where the instruction refuses the type (R66, R78). -/
def w (t : Ty) : Nat := if t.is64 then 2 else 1
def isF (t : Ty) : Bool := t == .f32 || t == .f64
def isH (t : Ty) : Bool := t == .f16 || t == .bf16
def isF4 (t : Ty) : Bool := isF t || isH t
def six (t : Ty) : Bool := t.isInt || t.isBits

/-- Integer arithmetic (R96). -/
def arith (m : Bool) (opnd : List Nat) (a : ModA) : RuleA :=
  let ok := a.ty.isInt
  let n := w a.ty
  { ty := ok, opnd := opnd, d := if m then .dstM n else .dst n, a := .src n, b := .src n, c := .src n }

def unaryInt (a : ModA) : RuleA :=
  let ok := a.ty.isSigned && a.ty.isInt
  { ty := ok, opnd := [0], d := .dst (w a.ty), a := .src (w a.ty) }

/-- and, or, xor (R99). -/
def logic (a : ModA) : RuleA :=
  let ok := a.ty.isBits
  let n := w a.ty
  { ty := ok, opnd := [0, 1], d := .dstM n, a := .src n, b := .src n }

/-- Shifts, rotates and bfx: B is always a single 32-bit source (R99). -/
def shift (m : Bool) (ok : Bool) (a : ModA) : RuleA :=
  let n := w a.ty
  { ty := ok, opnd := [0, 1], d := if m then .dstM n else .dst n, a := .src n, b := .src 1 }

/-- popc, clz (R99), fclass, fgetexp (R110, R114): a single 32-bit destination. -/
def count (ok : Bool) (a : ModA) : RuleA :=
  { ty := ok, opnd := [0], d := .dst 1, a := .src (w a.ty) }

/-- Floating point (R106, R107). -/
def fl (ok rounds : Bool) (opnd : List Nat) (a : ModA) : RuleA :=
  let n := w a.ty
  { ty := ok, opnd := opnd, rounds := rounds, d := .dst n, a := .src n, b := .src n, c := .src n }

def flUnary (ok rounds : Bool) (a : ModA) : RuleA :=
  let n := w a.ty
  { ty := ok, opnd := [0], rounds := rounds, d := .dst n, a := .src n }

/-- The functions whose MOD.TY is 0 (R111). -/
def flFun (a : ModA) : RuleA :=
  { ty := a.ty == .b32, opnd := [0], rounds := true, d := .dst 1, a := .src 1 }

/-- cvt (R116 to R118). -/
def cvt (o : Op) (a : ModA) : RuleA :=
  let src := tyOf (o.fn % 16)
  let dst := a.ty
  let ok := (dst.isInt || isF4 dst) && dst != src
  let two := ok && isH dst && !isH src
  let sw := w src
  let exact := (isH src && isF dst) || (src == .f32 && dst == .f64)
    || ((src == .i32 || src == .n32) && dst == .f64) || (src.isInt && dst.isInt && !src.is64 && dst.is64)
  let sub1 := isH src && !isH dst
  { ty := ok, opnd := [0], rounds := !exact, rs := isH dst, d := .dst (w dst), a := .src sw,
    b := if two then .src sw else .unused,
    subOk := if a.sub % 2 = 1 then (if sub1 then [0, 1] else [0]) else [0, 1],
    subWhy := if 2 ≤ a.sub then 3 else 4 }

/-- dxpack and dxunpack (R119, R120): register ranges. -/
def dxRange (dx8 : Bool) (block : Bool) : Want :=
  if block then (if dx8 then { v := 8, s := 8, n := 5 } else { v := 4, s := 4, n := 3 }) else { v := 16, s := 16, n := 16 }

def overlap : Opd → Nat → Opd → Nat → Bool
  | .v a, n, .v b, k => a < b + k && b < a + n
  | .s a, n, .s b, k => a < b + k && b < a + n
  | _, _, _, _ => false

def sameClass : Opd → Opd → Bool
  | .v _, .v _ | .s _, .s _ => true
  | _, _ => false

def dx (pack : Bool) (o : Op) (a : ModA) : RuleA :=
  let ok := a.ty == .dx8 || a.ty == .dx4
  let free : Want := { v := 1, s := 1 }
  let wd := if ok then dxRange (a.ty == .dx8) pack else free
  let wa := if ok then dxRange (a.ty == .dx8) (!pack) else free
  { ty := ok, opnd := [0], rs := pack, d := wd, a := wa,
    extra := faultIf (ok && !sameClass o.d o.a) 4 5 ++ faultIf (ok && overlap o.d wd.n o.a wa.n) 4 5 }

/-- The base of a memory operand by its space bit or field (R66, R73). -/
def base (vault : Bool) : Want := if vault then .s1 else .x

/-- Checks shared by family M (R73): type accepted, orders accepted, whether the access is an atomic. DESIGN CHOICE: under a reserved SPACE
the base is accepted as the s register of a vault, so that any other A is reported before MOD (R78, log 77). -/
def famM (grant : Nat) (o : Op) (m : ModM) (ty : Bool) (ords : List Nat) (atomic : Bool) (d b : Want) : List EncFault :=
  o.common
  ++ faultIf (!ty) 7 4
  ++ faultIf (!ords.contains m.ord || 5 ≤ m.scope || 2 ≤ m.space) 7 4
  ++ faultIf (!(atomic || m.ord != 0) && m.scope != 0) 7 4
  ++ d.check 3 grant o.d
  ++ (if 2 ≤ m.space then ({ s := 1 } : Want) else base (m.space == 1)).check 4 grant o.a
  ++ b.check 5 grant o.b

/-- The third source of atom in IMM (R146). -/
def immC (grant : Nat) (o : Op) (c : Want) : List EncFault :=
  faultIf (512 ≤ o.imm) 9 3 ++ c.check 9 grant (opdOf (o.imm % 512))

/-- The types each operation of atom takes (R146). -/
def atomTy (fn : Nat) (t : Ty) : Bool :=
  if fn ≤ 2 then t.isInt || isF t
  else if fn ≤ 5 then t.isBits
  else if fn = 6 then six t || isF t
  else t.isBits

/-- Family G (R74, R144). -/
def famG (grant : Nat) (o : Op) (g : ModG) : List EncFault :=
  let n := g.ty.regs
  o.common ++ faultIf (5 ≤ g.sc) 7 4
  ++ (Want.dstV n).check 3 grant o.d
  ++ (base (g.space == 1)).check 4 grant o.a
  ++ ({ v := if g.iw = 3 then 2 else 1, n := if g.iw = 3 then 2 else 1, z := true } : Want).check 5 grant o.b

/-- Family X: the mask of MOD bits the layout defines, and the three positions. -/
def famX (grant : Nat) (o : Op) (x : ModX) (defined : Nat) (d a b : Want) : List EncFault :=
  o.common ++ faultIf ((x.bits &&& (0x7FF - defined)) != 0) 7 3
  ++ d.check 3 grant o.d ++ a.check 4 grant o.a ++ b.check 5 grant o.b

/-- IMM at or above `2 ^ k` (R66). -/
def immBits (o : Op) (k : Nat) : List EncFault := faultIf (2 ^ k ≤ o.imm) 9 3

/-- A word whose description makes every other field zero, HINT too (R78, R152, R184). -/
def noHint (o : Op) : List EncFault := faultIf (o.hint != 0) 6 3

/-- A barrier number 0 to 15, or 16 for none (R185). -/
def barNo (n : Nat) : List EncFault := faultIf (16 < n) 9 4

/-- S, the slots of half a factor tile (R190). -/
def tileHalf (nc : Nat) (f64 : Bool) : Nat :=
  if nc ≤ 1 then 1 else if nc = 2 then (if f64 then 3 else 2) else (if f64 then 9 else 5)

/-- Registers of a vector operand of a factor command (R191). -/
def vecRegs (nc : Nat) (f64 : Bool) : Nat := (if nc = 3 then 2 else 1) * (if f64 then 2 else 1)

/-- Factor commands (R191): whether MARG and the second slot are used, and the A and B positions. -/
def factor (grant : Nat) (o : Op) (x : ModX) (marg second vec scal : Bool) : List EncFault :=
  let nc := x.f 44 43
  let f64 := x.f 42 42 == 1
  let k := vecRegs nc f64
  famX grant o x (if marg then 0x7FC else 0x700) .unused
    (if vec then { v := if f64 then 2 else 1, n := k } else .unused)
    (if scal then (if f64 then .x else .s1) else .unused)
  ++ faultIf (o.imm / 2 ^ 15 % 256 != 0 || o.imm / 128 % 2 != 0) 9 3
  ++ faultIf (!second && o.imm / 256 % 128 != 0) 9 3
  ++ faultIf (second && f64 && o.imm / 256 % 2 != 0) 9 6
  ++ barNo (o.imm / 2 ^ 27)

/-- A base of a copy by its space bit, and a length register or z with IMM (R194). -/
def lenOrImm (grant : Nat) (o : Op) : List EncFault :=
  ({ s := 1, z := true } : Want).check 5 grant o.b ++ faultIf (o.b != .z && o.imm != 0) 9 3

/-- The special-register numbers of R29, and those that are read-only for users and for the supervisor. -/
def sprKnown (n : Nat) : Bool := n ≤ 0x10
def sprReadOnly (n : Nat) : Bool := n == 1 || n == 2 || (10 ≤ n && n ≤ 16)

end Legal

open Legal in
/-- Every fault of an instruction's encoding (R78). `grant` is V of the issuing group; `det` is the launch flag
DET, which refuses an unordered floating cred (R198). Steps of other agents have no encoding and no fault. DESIGN CHOICE: ES = 1 outside
cpyt is reported with reason 3, as a bit that the word defines as zero (log 77). -/
def Instr.faults (grant : Nat) (det : Bool) : Instr → List EncFault
  | .iadd o a | .isub o a => (arith true [0, 1] a).check grant o a
  | .imul o a | .idiv o a | .irem o a | .imin o a | .imax o a => (arith false [0, 1] a).check grant o a
  | .imad o a => (arith false [2] a).check grant o a
  | .iabs o a => (unaryInt a).check grant o a
  | .andB o a | .orB o a | .xorB o a => (logic a).check grant o a
  | .shl o a | .shr o a => (shift true (six a.ty) a).check grant o a
  | .rot o a => (shift true a.ty.isBits a).check grant o a
  | .bfx o a => (shift false (six a.ty) a).check grant o a
  | .bfi o a =>
    let n := w a.ty
    ({ ty := a.ty.isBits, opnd := [2], d := .dst n, a := .src n, b := .src 1, c := .src n } : RuleA).check grant o a
  | .popc o a | .clz o a => (count a.ty.isBits a).check grant o a
  | .brev o a =>
    let n := w a.ty
    ({ ty := a.ty.isBits, opnd := [0], d := .dstM n, a := .src n } : RuleA).check grant o a
  | .icmp o a =>
    let ok := a.ty.isInt || (a.ty.isBits && o.fn ≤ 1)
    let n := w a.ty
    ({ ty := ok, opnd := [0, 1], d := .dstP, a := .src n, b := .src n } : RuleA).check grant o a
  | .sel o a =>
    let n := w a.ty
    ({ ty := a.ty.isBits, opnd := [2], d := .dst n, a := .src n, b := .src n, c := .srcP } : RuleA).check grant o a
  | .mov o a =>
    let n := w a.ty
    ({ ty := a.ty.isBits, opnd := [0], d := .dstM n, a := .src n } : RuleA).check grant o a
  | .movRetag o a =>
    let n := if a.ty.code = 7 ∨ a.ty.code = 8 ∨ a.ty.code = 9 then 2 else if a.ty.code = 10 then 4 else 1
    ({ ty := a.ty.code ≤ 10, opnd := [0], d := .dst n, a := .src n } : RuleA).check grant o a
  | .movi o a =>
    let ok := a.ty.code ≤ 11
    let n := w a.ty
    ({ ty := ok, opnd := [1], d := { v := n, s := n, n := n, z := true, m := a.ty == .b32 },
       subOk := if n = 2 then [0, 1] else [0], subWhy := 4 } : RuleA).check grant o a
  | .fadd o a | .fsub o a | .fmul o a => (fl (isF4 a.ty) true [0, 1] a).check grant o a
  | .ffma o a => (fl (isF4 a.ty) true [2] a).check grant o a
  | .fmin o a | .fmax o a => (fl (isF4 a.ty) false [0, 1] a).check grant o a
  | .fcmp o a =>
    let n := w a.ty
    ({ ty := isF a.ty, opnd := [0, 1], d := .dstP, a := .src n, b := .src n } : RuleA).check grant o a
  | .fclass o a | .fgetexp o a => (count (isF a.ty) a).check grant o a
  | .fdiv o a => (fl (isF a.ty) true [0, 1] a).check grant o a
  | .fsqrt o a => (flUnary (isF a.ty) true a).check grant o a
  | .frsqrt o a | .frcp o a | .fexp2 o a | .flog2 o a | .fsinpi o a | .fcospi o a => (flFun a).check grant o a
  | .frnd o a => (flUnary (isF4 a.ty) true a).check grant o a
  | .fscale o a =>
    let n := w a.ty
    ({ ty := isF4 a.ty, opnd := [0, 1], rounds := true, d := .dst n, a := .src n, b := .src 1 } : RuleA).check grant o a
  | .cvt o a => (Legal.cvt o a).check grant o a
  | .dxpack o a => (dx true o a).check grant o a
  | .dxunpack o a => (dx false o a).check grant o a
  | .fgsum o a => { flUnary (isF a.ty) true a with comb := true }.check grant o a
  | .fdot2 o a =>
    ({ ty := isH a.ty, opnd := [0, 2], rounds := true, d := .dst 1, a := .src 1, b := .src 1, c := .src 1 } : RuleA).check grant o a
  | .shfl o a =>
    let n := w a.ty
    ({ ty := a.ty.isBits, opnd := [0, 1], d := .dstV n, a := .src n, b := .src 1 } : RuleA).check grant o a
  | .ballot o a =>
    ({ ty := a.ty == .b32, opnd := [0], d := { s := 1, m := true, z := true }, a := .srcP, comb := true } : RuleA).check grant o a
  | .vote o a => ({ ty := a.ty == .b32, opnd := [0], d := .dstP, a := .srcP } : RuleA).check grant o a
  | .gred o a =>
    let ok := if o.fn ≤ 2 then a.ty.isInt else a.ty.isBits
    let n := w a.ty
    ({ ty := ok, opnd := [0], d := .dst n, a := .src n, comb := true } : RuleA).check grant o a
  | .gscan o a =>
    let ok := if o.fn ≤ 2 then a.ty.isInt else a.ty.isBits
    let n := w a.ty
    ({ ty := ok, opnd := [0], d := .dstV n, a := .src n, subOk := [0, 1], subWhy := 4 } : RuleA).check grant o a
  | .plop o a =>
    ({ ty := a.ty == .b32, opnd := [0], d := .dstP, a := .srcP, b := if o.fn = 5 then .unused else .srcP } : RuleA).check grant o a
  | .p2m o a =>
    ({ ty := a.ty == .b32, opnd := [0], d := { s := 1, m := true, z := true }, a := .srcP, comb := true } : RuleA).check grant o a
  | .m2p o a => ({ ty := a.ty == .b32, opnd := [0], d := .dstP, a := { s := 1, m := true } } : RuleA).check grant o a
  | .nop o a =>
    o.common ++ faultIf (a.ty != .b32 || a.rm != .rn || a.rs || a.opnd != 0 || a.sub != 0) 7 3
    ++ Want.unused.check 3 grant o.d ++ Want.unused.check 4 grant o.a ++ Want.unused.check 5 grant o.b ++ immBits o 0
  | .bra o b =>
    o.common ++ faultIf (b.zero != 0) 7 3 ++ Want.unused.check 3 grant o.d ++ Want.unused.check 4 grant o.a
    ++ Want.unused.check 5 grant o.b
  | .brx o b =>
    o.common ++ faultIf (b.zero != 0) 7 3 ++ Want.unused.check 3 grant o.d ++ Want.pair.check 4 grant o.a
    ++ Want.unused.check 5 grant o.b ++ immBits o 0
  | .call o b =>
    o.common ++ faultIf (b.zero != 0) 7 3 ++ (Want.dst 2).check 3 grant o.d ++ Want.unused.check 4 grant o.a
    ++ Want.unused.check 5 grant o.b
  | .setprio o b =>
    o.common ++ faultIf (b.zero != 0) 7 3 ++ Want.unused.check 3 grant o.d ++ Want.unused.check 4 grant o.a
    ++ Want.unused.check 5 grant o.b ++ immBits o 0
  | .ret o x =>
    famX grant o x 0x7FC .unused .pair .unused ++ faultIf (x.f 36 36 == 0 && x.f 44 37 != 0) 7 4 ++ immBits o 0
  | .exitL o x => famX grant o x 0 .unused .unused .unused ++ immBits o 0
  | .rgrp o x | .rgrpSet o x =>
    famX grant o x 1 .unused .unused .unused ++ immBits o 9 ++ faultIf (grant < o.imm % 512) 9 7
  | .rejoin o x => famX grant o x 0 .unused { m := true } .unused ++ immBits o 0
  | .ld o m =>
    famM grant o m true [0, 1] false (.dst m.ty.regs) .vz
    ++ faultIf ((o.d.uniformDst || o.d == .z) && o.b != .z) 5 5
  | .st o m => famM grant o m true [0, 2] false (.dst m.ty.regs) .vz
  | .cst o m => famM grant o m (m.ty.code ≤ 11) [0] false (.dst (w m.ty)) { z := true }
  | .xld o m => famM grant o m (m.ty.code ≤ 11) [0] false (.dstV (w m.ty)) { z := true }
  | .gld o g | .gst o g => famG grant o g
  | .atom o m =>
    let ok := atomTy o.fn m.ty
    let n := w m.ty
    famM grant o m ok [0, 1, 2, 3] true (.dstV n) .vz
    ++ immC grant o (if o.fn = 7 then { v := 2 * n, s := 2 * n, n := 2 * n } else .dst n)
  | .red o m =>
    let ok := atomTy o.fn m.ty
    famM grant o m ok [0, 2] true (.dst (w m.ty)) .vz
  | .waitv o m =>
    let ok := m.ty.isInt || (m.ty.isBits && o.fn ≤ 1)
    famM grant o m ok [0, 1] false { v := w m.ty, s := w m.ty, n := w m.ty } .vz
  | .fence o x =>
    famX grant o x 0x07C .unused .unused .unused ++ faultIf (x.f 40 39 == 0 || 5 ≤ x.f 38 36) 7 4 ++ immBits o 0
  | .sdrain o x => famX grant o x 0 .unused .unused .unused ++ noHint o ++ immBits o 0
  | .pf o m => famM grant o m true [0] false .unused .vz ++ faultIf (m.space == 1) 7 4
  | .tld o m => famM grant o m (m.ty.code ≤ 7) [0, 1] false { v := 8, n := 8 } { z := true }
  | .tldVer o m =>
    famM grant o m (m.ty.code ≤ 7) [1] false { v := 8, n := 8 } (base (m.space == 1)) ++ immC grant o .dstP
  | .tst o m => famM grant o m (m.ty.code ≤ 7) [0, 2] false { v := 8, n := 8 } { z := true }
  | .tstAll o m =>
    famM grant o m (m.ty.code ≤ 7) [2] false { v := 8, n := 8 } (base (m.space == 1)) ++ immBits o 0
  | .ldn o x =>
    famX grant o x 0x07F (.dst 2) (base (x.f 35 34 == 1)) .vz
    ++ faultIf (2 ≤ x.f 40 39 || 5 ≤ x.f 38 36 || 2 ≤ x.f 35 34 || (x.f 40 39 == 0 && x.f 38 36 != 0)) 7 4
    ++ faultIf ((o.d.uniformDst || o.d == .z) && o.b != .z) 5 5
  | .stn o x =>
    famX grant o x 0x07F (.dst 2) (base (x.f 35 34 == 1)) .vz
    ++ faultIf (x.f 40 39 % 2 == 1 || 5 ≤ x.f 38 36 || 2 ≤ x.f 35 34 || (x.f 40 39 == 0 && x.f 38 36 != 0)) 7 4
  | .peq o x => famX grant o x 0 .dstP .pair .pair ++ immBits o 0
  | .pname o x =>
    famX grant o x 0 (.dst 4) .pair .unused ++ faultIf (o.d.uniformDst && o.a.perLane) 4 5 ++ immBits o 0
  | .npin o x | .nunpin o x => famX grant o x 0 .unused .pair .unused ++ immBits o 0
  | .ldpl o x => famX grant o x 0x7FF .unused (base (x.f 40 40 == 1)) .unused ++ faultIf (6 ≤ x.f 43 41) 7 4
  | .plswap o x => famX grant o x 0x400 .unused .unused .unused ++ noHint o ++ immBits o 0
  | .mmq o x =>
    o.common ++ faultIf (x.f 39 34 != 0) 7 3 ++ faultIf (6 ≤ x.f 44 42) 7 4
    ++ faultIf (128 ≤ o.d.code) 3 3 ++ faultIf (x.f 44 42 == 5 && o.d.code % 2 == 1) 3 6
    ++ Want.s1.check 4 grant o.a ++ Want.vz.check 5 grant o.b
    ++ barNo (o.imm / 2 ^ 27) ++ barNo (o.imm / 2 ^ 22 % 32)
  | .accrd o x =>
    let k := if x.f 44 44 = 1 then 32 else 16
    famX grant o x 0x400 { v := k, n := k } .unused .unused ++ immBits o 7 ++ faultIf (k == 32 && o.imm % 2 == 1) 9 6
  | .accwr o x =>
    let k := if x.f 44 44 = 1 then 32 else 16
    famX grant o x 0x400 .unused { v := k, n := k } .unused ++ immBits o 7 ++ faultIf (k == 32 && o.imm % 2 == 1) 9 6
  | .acczero o x =>
    famX grant o x 0 .unused .unused .unused ++ immBits o 16 ++ faultIf (o.imm / 128 % 2 != 0) 9 3
    ++ faultIf (o.imm / 256 % 256 == 0 || 128 < o.imm / 256 % 256) 9 4
  | .accld o x =>
    famX grant o x 0x7FC .unused (base (x.f 38 38 == 1)) .unused ++ immBits o 7
    ++ faultIf (x.f 37 36 == 3 && o.imm % 2 == 1) 9 6
  | .accst o x =>
    famX grant o x 0x7FC .unused (base (x.f 38 38 == 1)) .unused ++ immBits o 7
    ++ faultIf (x.f 37 36 == 1 || x.f 37 36 == 2) 7 4 ++ faultIf (x.f 37 36 == 3 && o.imm % 2 == 1) 9 6
  | .trchol o x => factor grant o x true true false false
  | .trupd o x => factor grant o x false false true false
  | .trupd8 o x => factor grant o x false true false false
  | .trdwd o x => factor grant o x true false true false
  | .trsolve o x => factor grant o x false false true false
  | .trscale o x => factor grant o x false false false true
  | .cpy o x =>
    famX grant o x 0x7F8 (base (x.f 38 38 == 1)) (base (x.f 37 37 == 1)) (if o.fn = 0 then { s := 1, z := true } else .quad)
    ++ faultIf (x.f 36 36 == 1) 7 3 ++ (if o.fn = 0 then lenOrImm grant o else immBits o 0)
  | .cpyg o x =>
    famX grant o x 0x7F8 .s1 (base (x.f 37 37 == 1)) .quad ++ faultIf (x.f 38 38 == 0) 7 4
    ++ faultIf (x.f 36 36 == 1) 7 3 ++ immBits o 0
  | .cpyt o x =>
    famX grant o x 0x7FC .s1 (base (x.f 37 37 == 1)) .quad ++ faultIf (x.f 38 38 == 0) 7 4 ++ immBits o 0
  | .cpyr o x =>
    famX grant o x 0x7F0 .quad (base (x.f 38 38 == 1)) { s := 1, z := true } ++ lenOrImm grant o
  | .cred o x =>
    famX grant o x 0x7FC
      (if x.f 38 37 = 2 then .quad else if x.f 38 37 = 3 then { s := 1 } else base (x.f 38 37 == 1))
      (base (x.f 36 36 == 1)) { s := 1 }
    ++ faultIf (x.f 38 37 == 3) 7 4 ++ immBits o 8 ++ faultIf (o.imm / 8 % 2 != 0) 9 3
    ++ faultIf (det && o.imm % 4 ≤ 1 && o.imm / 4 % 2 == 0) 9 4
  | .cpyz o x =>
    famX grant o x 0x7FC (base (x.f 38 38 == 1)) (base (x.f 37 37 == 1)) .quad ++ immBits o 0
  | .ratom o x =>
    let ty := tyOf (x.f 38 35)
    let ok := atomTy o.fn ty
    let n := w ty * (if o.fn = 7 then 2 else 1)
    famX grant o x 0x7FE .quad .s1 { s := n, n := n } ++ faultIf (!ok) 7 4 ++ immBits o 0
  | .sfill o x => famX grant o x 0x780 .unused (base (x.f 41 41 == 1)) .unused
  | .spop o x => famX grant o x 0x700 { s := 1, z := true } .unused .unused ++ immC grant o .dstP
  | .sfree o x => famX grant o x 0x700 .unused .unused .unused ++ immBits o 0
  | .sfreeInit o x => famX grant o x 0x780 .unused .s1 .s1 ++ immBits o 13
  | .tagw o x => famX grant o x 0 .unused .x .unused ++ immBits o 0
  | .tagff o x => famX grant o x 0 { s := 1, z := true } .x .unused ++ immBits o 0
  | .tagst o x =>
    famX grant o x 0 .xz { s := 1, z := true } .unused ++ (if o.a = .z then immBits o 6 else immBits o 0)
  | .bini o x =>
    famX grant o x 0x780 .unused { s := 1, z := true } { s := 1, m := true } ++ (if o.a = .z then immBits o 16 else immBits o 0)
  | .barv o x => famX grant o x 0x780 .unused .unused .unused ++ immBits o 0
  | .barw o x => famX grant o x 0x7C0 .xz .unused .unused ++ immBits o 0
  | .sigdec o x =>
    famX grant o x 0x07C .unused .x (if x.f 39 39 = 1 then .x else { s := 1, z := true })
    ++ faultIf (!(x.f 38 36 == 3 || x.f 38 36 == 4)) 7 4 ++ (if o.b = .z then [] else immBits o 0)
  | .uiraise o x => famX grant o x 0 .xz .x { s := 1, z := true } ++ (if o.b = .z then immBits o 6 else immBits o 0)
  | .uiwait o x | .uimask o x | .uiret o x | .cancel o x => famX grant o x 0 .unused .unused .unused ++ immBits o 0
  | .uitake o x => famX grant o x 0 { s := 4, n := 4, z := true } .unused .unused ++ immBits o 0
  | .scall o x => famX grant o x 0 .unused .x .unused ++ immBits o 16
  | .trapSw o x | .brk o x => famX grant o x 0 .unused .unused .unused ++ immBits o 16
  | .sprd o x => famX grant o x 0 .xz .unused .unused ++ immBits o 8 ++ faultIf (!sprKnown (o.imm % 256)) 9 4
  | .spwr o x =>
    famX grant o x 0 .unused .x .unused ++ immBits o 8 ++ faultIf (!sprKnown (o.imm % 256) || sprReadOnly (o.imm % 256)) 9 4
  | .sret o x => famX grant o x 0 .unused .unused .unused ++ immBits o 6
  | .hvy o x => famX grant o x 0 .unused .unused .unused ++ (if o.fn = 0 then immBits o 8 else immBits o 0)
  | _ => []

/-- The fault R78 reports: the lowest field, then the lowest reason. -/
def firstFault : List EncFault → Option EncFault
  | [] => none
  | f :: fs => match firstFault fs with
    | none => some f
    | some g => some (if f.1 < g.1 ∨ (f.1 = g.1 ∧ f.2 ≤ g.2) then f else g)

end Sys2Proof
end

