-- ==== Sys2Proof/WellFormed.lean ====
section
/-! DEFINITION. Well-formed instructions: every field in the range its place in the word has, an FN that the opcode
map assigns (R81), and none of the faults of R78. -/

namespace Sys2Proof

/-- A specifier in the form the decoder gives it (R65). -/
def Opd.ok : Opd → Bool
  | .v n => n < 0x100
  | .s n => n < 0x80
  | .m n => n < 0x20
  | .p n => n < 8
  | .sp _ => true
  | .res c => (0x1A8 ≤ c && c < 0x1C0) || (0x1CD ≤ c && c < 0x200)

def Op.ok (o : Op) : Bool :=
  o.fn < 32 && o.grd < 16 && o.hint < 256 && o.d.ok && o.a.ok && o.b.ok && o.imm < 2 ^ 32

def ModA.ok (a : ModA) : Bool := a.opnd < 4 && a.sub < 4
def ModM.ok (m : ModM) : Bool := m.ord < 4 && m.scope < 8 && m.space < 4
def ModG.ok (g : ModG) : Bool := g.iw < 4 && g.sc < 8 && g.space < 2
def ModB.ok (b : ModB) : Bool := b.prio < 256 && b.zero < 8
def ModX.ok (x : ModX) : Bool := x.bits < 2048

/-- The eleven MOD bits of each family (R71 to R75). -/
def ModA.bits (a : ModA) : Nat := a.ty.code * 128 + a.rm.code * 32 + a.rs.toNat * 16 + a.opnd * 4 + a.sub
def ModM.bits (m : ModM) : Nat := m.ty.code * 128 + m.ord * 32 + m.scope * 4 + m.space
def ModG.bits (g : ModG) : Nat := g.ty.code * 128 + g.iw * 32 + g.isgn.toNat * 16 + g.sc * 2 + g.space
def ModB.bits (b : ModB) : Nat := b.prio * 8 + b.zero

/-- The source types cvt takes in FN (R116). -/
def cvtSrc (fn : Nat) : Bool := fn == 1 || fn == 2 || fn == 3 || fn == 4 || fn == 5 || fn == 9 || fn == 10 || fn == 11

/-- The FN values of dxpack: AUTO with k 0, or k 1 to 7 (R81, R119). -/
def dxpackFn (fn : Nat) : Bool := fn % 2 == 0 && (if fn / 2 % 2 = 1 then fn / 4 == 0 else fn / 4 != 0)

/-- Fields in range and FN assigned. -/
def Instr.inRange : Instr → Bool
  | .iadd o a => o.ok && a.ok && decide (o.fn = 0)
  | .isub o a => o.ok && a.ok && decide (o.fn = 0)
  | .imul o a => o.ok && a.ok && decide (o.fn ≤ 1)
  | .imad o a => o.ok && a.ok && decide (o.fn ≤ 1)
  | .idiv o a => o.ok && a.ok && decide (o.fn = 0)
  | .irem o a => o.ok && a.ok && decide (o.fn = 0)
  | .iabs o a => o.ok && a.ok && decide (o.fn = 0)
  | .imin o a => o.ok && a.ok && decide (o.fn = 0)
  | .imax o a => o.ok && a.ok && decide (o.fn = 1)
  | .andB o a => o.ok && a.ok && decide (o.fn = 0)
  | .orB o a => o.ok && a.ok && decide (o.fn = 0)
  | .xorB o a => o.ok && a.ok && decide (o.fn = 0)
  | .shl o a => o.ok && a.ok && decide (o.fn = 0)
  | .shr o a => o.ok && a.ok && decide (o.fn = 0)
  | .rot o a => o.ok && a.ok && decide (o.fn ≤ 1)
  | .bfx o a => o.ok && a.ok && decide (o.fn = 0)
  | .bfi o a => o.ok && a.ok && decide (o.fn = 0)
  | .popc o a => o.ok && a.ok && decide (o.fn = 0)
  | .clz o a => o.ok && a.ok && decide (o.fn = 0)
  | .brev o a => o.ok && a.ok && decide (o.fn = 0)
  | .icmp o a => o.ok && a.ok && decide (o.fn ≤ 5)
  | .sel o a => o.ok && a.ok && decide (o.fn = 0)
  | .mov o a => o.ok && a.ok && decide (o.fn = 0)
  | .movRetag o a => o.ok && a.ok && decide (o.fn = 1)
  | .movi o a => o.ok && a.ok && decide (o.fn = 0)
  | .fadd o a => o.ok && a.ok && decide (o.fn = 0)
  | .fsub o a => o.ok && a.ok && decide (o.fn = 0)
  | .fmul o a => o.ok && a.ok && decide (o.fn = 0)
  | .ffma o a => o.ok && a.ok && decide (o.fn = 0)
  | .fmin o a => o.ok && a.ok && decide (o.fn = 0)
  | .fmax o a => o.ok && a.ok && decide (o.fn = 1)
  | .fcmp o a => o.ok && a.ok && decide (o.fn ≤ 7)
  | .fclass o a => o.ok && a.ok && decide (o.fn = 0)
  | .fdiv o a => o.ok && a.ok && decide (o.fn = 0)
  | .fsqrt o a => o.ok && a.ok && decide (o.fn = 0)
  | .frsqrt o a => o.ok && a.ok && decide (o.fn = 0)
  | .frcp o a => o.ok && a.ok && decide (o.fn = 1)
  | .fexp2 o a => o.ok && a.ok && decide (o.fn = 0)
  | .flog2 o a => o.ok && a.ok && decide (o.fn = 1)
  | .fsinpi o a => o.ok && a.ok && decide (o.fn = 0)
  | .fcospi o a => o.ok && a.ok && decide (o.fn = 1)
  | .frnd o a => o.ok && a.ok && decide (o.fn = 0)
  | .fscale o a => o.ok && a.ok && decide (o.fn = 0)
  | .fgetexp o a => o.ok && a.ok && decide (o.fn = 0)
  | .cvt o a => o.ok && a.ok && decide (cvtSrc o.fn)
  | .dxpack o a => o.ok && a.ok && decide (dxpackFn o.fn)
  | .dxunpack o a => o.ok && a.ok && decide (o.fn = 1)
  | .fgsum o a => o.ok && a.ok && decide (o.fn = 0)
  | .fdot2 o a => o.ok && a.ok && decide (o.fn = 0)
  | .shfl o a => o.ok && a.ok && decide (o.fn ≤ 3)
  | .ballot o a => o.ok && a.ok && decide (o.fn = 0)
  | .vote o a => o.ok && a.ok && decide (o.fn ≤ 2)
  | .gred o a => o.ok && a.ok && decide (o.fn ≤ 5)
  | .gscan o a => o.ok && a.ok && decide (o.fn ≤ 5)
  | .plop o a => o.ok && a.ok && decide (o.fn ≤ 5)
  | .p2m o a => o.ok && a.ok && decide (o.fn = 0)
  | .m2p o a => o.ok && a.ok && decide (o.fn = 1)
  | .nop o a => o.ok && a.ok && decide (o.fn = 0)
  | .bra o b => o.ok && b.ok && decide (o.fn = 0)
  | .brx o b => o.ok && b.ok && decide (o.fn = 0)
  | .call o b => o.ok && b.ok && decide (o.fn = 0)
  | .ret o x => o.ok && x.ok && decide (o.fn = 0)
  | .exitL o x => o.ok && x.ok && decide (o.fn = 0)
  | .rgrp o x => o.ok && x.ok && decide (o.fn = 0 ∧ x.bits % 2 = 0)
  | .rgrpSet o x => o.ok && x.ok && decide (o.fn = 0 ∧ x.bits % 2 = 1)
  | .rejoin o x => o.ok && x.ok && decide (o.fn = 0)
  | .setprio o b => o.ok && b.ok && decide (o.fn = 0)
  | .ld o m => o.ok && m.ok && decide (o.fn = 0)
  | .st o m => o.ok && m.ok && decide (o.fn = 0)
  | .gld o g => o.ok && g.ok && decide (o.fn = 0)
  | .gst o g => o.ok && g.ok && decide (o.fn = 0)
  | .cst o m => o.ok && m.ok && decide (o.fn = 0)
  | .xld o m => o.ok && m.ok && decide (o.fn = 0)
  | .atom o m => o.ok && m.ok && decide (o.fn ≤ 7)
  | .red o m => o.ok && m.ok && decide (o.fn ≤ 5)
  | .waitv o m => o.ok && m.ok && decide (o.fn ≤ 5)
  | .fence o x => o.ok && x.ok && decide (o.fn = 0)
  | .sdrain o x => o.ok && x.ok && decide (o.fn = 0)
  | .pf o m => o.ok && m.ok && decide (o.fn = 0)
  | .tld o m => o.ok && m.ok && decide (o.fn = 0)
  | .tldVer o m => o.ok && m.ok && decide (o.fn = 1)
  | .tst o m => o.ok && m.ok && decide (o.fn = 0)
  | .tstAll o m => o.ok && m.ok && decide (o.fn = 1)
  | .ldn o x => o.ok && x.ok && decide (o.fn = 0)
  | .stn o x => o.ok && x.ok && decide (o.fn = 0)
  | .peq o x => o.ok && x.ok && decide (o.fn = 0)
  | .pname o x => o.ok && x.ok && decide (o.fn = 0)
  | .npin o x => o.ok && x.ok && decide (o.fn = 0)
  | .nunpin o x => o.ok && x.ok && decide (o.fn = 1)
  | .ldpl o x => o.ok && x.ok && decide (o.fn = 0)
  | .plswap o x => o.ok && x.ok && decide (o.fn = 0)
  | .mmq o x => o.ok && x.ok && decide (o.fn = 0)
  | .accrd o x => o.ok && x.ok && decide (o.fn = 0)
  | .accwr o x => o.ok && x.ok && decide (o.fn = 1)
  | .acczero o x => o.ok && x.ok && decide (o.fn = 0)
  | .accld o x => o.ok && x.ok && decide (o.fn = 0)
  | .accst o x => o.ok && x.ok && decide (o.fn = 1)
  | .trchol o x => o.ok && x.ok && decide (o.fn ≤ 1)
  | .trupd o x => o.ok && x.ok && decide (o.fn = 0)
  | .trupd8 o x => o.ok && x.ok && decide (o.fn = 1)
  | .trdwd o x => o.ok && x.ok && decide (o.fn ≤ 1)
  | .trsolve o x => o.ok && x.ok && decide (o.fn ≤ 1)
  | .trscale o x => o.ok && x.ok && decide (o.fn = 0)
  | .cpy o x => o.ok && x.ok && decide (o.fn ≤ 1)
  | .cpyg o x => o.ok && x.ok && decide (o.fn = 2)
  | .cpyt o x => o.ok && x.ok && decide (o.fn = 3)
  | .cpyr o x => o.ok && x.ok && decide (o.fn ≤ 1)
  | .cred o x => o.ok && x.ok && decide (o.fn ≤ 2)
  | .cpyz o x => o.ok && x.ok && decide (o.fn ≤ 1)
  | .ratom o x => o.ok && x.ok && decide (o.fn ≤ 7)
  | .sfill o x => o.ok && x.ok && decide (o.fn = 0)
  | .spop o x => o.ok && x.ok && decide (o.fn = 0)
  | .sfree o x => o.ok && x.ok && decide (o.fn = 1 ∧ x.bits / 128 % 2 = 0)
  | .sfreeInit o x => o.ok && x.ok && decide (o.fn = 1 ∧ x.bits / 128 % 2 = 1)
  | .tagw o x => o.ok && x.ok && decide (o.fn ≤ 1)
  | .tagff o x => o.ok && x.ok && decide (o.fn = 2)
  | .tagst o x => o.ok && x.ok && decide (o.fn = 3)
  | .bini o x => o.ok && x.ok && decide (o.fn = 0)
  | .barv o x => o.ok && x.ok && decide (o.fn = 0)
  | .barw o x => o.ok && x.ok && decide (o.fn = 0)
  | .sigdec o x => o.ok && x.ok && decide (o.fn = 0)
  | .uiraise o x => o.ok && x.ok && decide (o.fn ≤ 1)
  | .uiwait o x => o.ok && x.ok && decide (o.fn = 0)
  | .uitake o x => o.ok && x.ok && decide (o.fn = 1)
  | .uimask o x => o.ok && x.ok && decide (o.fn ≤ 1)
  | .uiret o x => o.ok && x.ok && decide (o.fn = 0)
  | .scall o x => o.ok && x.ok && decide (o.fn = 0)
  | .trapSw o x => o.ok && x.ok && decide (o.fn = 0)
  | .sprd o x => o.ok && x.ok && decide (o.fn = 0)
  | .spwr o x => o.ok && x.ok && decide (o.fn = 0)
  | .brk o x => o.ok && x.ok && decide (o.fn = 0)
  | .sret o x => o.ok && x.ok && decide (o.fn ≤ 2)
  | .cancel o x => o.ok && x.ok && decide (o.fn ≤ 3)
  | .hvy o x => o.ok && x.ok && decide (o.fn ≤ 1)
  | _ => false

/-- A well-formed instruction word for a group with this grant under this value of DET. -/
def Instr.wf (grant : Nat) (det : Bool) (i : Instr) : Bool := i.inRange && (i.faults grant det).isEmpty

end Sys2Proof
end

