-- ==== Sys2Proof/Decode.lean ====
section
/-! DEFINITION. Decoding of the 96-bit instruction word (R63 to R81), total on any word, and the encoder written
from the same tables. A word that is no instruction is rejected by its field and reason (R78). -/

namespace Sys2Proof

/-- The fields of a word (R63). -/
structure Fields where
  opc  : Nat
  fn   : Nat
  grd  : Nat
  d    : Nat
  a    : Nat
  b    : Nat
  hint : Nat
  mod  : Nat
  zero : Nat
  imm  : Nat
  deriving DecidableEq, Repr

/-- Takes the fields out of a word (R63). -/
def parse (w : Nat) : Fields where
  opc  := w / 2 ^ 89 % 2 ^ 7
  fn   := w / 2 ^ 84 % 2 ^ 5
  grd  := w / 2 ^ 80 % 2 ^ 4
  d    := w / 2 ^ 71 % 2 ^ 9
  a    := w / 2 ^ 62 % 2 ^ 9
  b    := w / 2 ^ 53 % 2 ^ 9
  hint := w / 2 ^ 45 % 2 ^ 8
  mod  := w / 2 ^ 34 % 2 ^ 11
  zero := w / 2 ^ 32 % 2 ^ 2
  imm  := w % 2 ^ 32

/-- The word of fields in range (R63). -/
def Fields.pack (f : Fields) : Nat :=
  f.opc * 2 ^ 89 + f.fn * 2 ^ 84 + f.grd * 2 ^ 80 + f.d * 2 ^ 71 + f.a * 2 ^ 62 + f.b * 2 ^ 53 + f.hint * 2 ^ 45
    + f.mod * 2 ^ 34 + f.zero * 2 ^ 32 + f.imm

def Fields.op (f : Fields) : Op :=
  { fn := f.fn, grd := f.grd, hint := f.hint, d := opdOf f.d, a := opdOf f.a, b := opdOf f.b, imm := f.imm }

/-- MOD of family A (R71). -/
def Fields.modA (f : Fields) : ModA :=
  { ty := tyOf (f.mod / 128 % 16), rm := rmOf (f.mod / 32 % 4), rs := f.mod / 16 % 2 == 1, opnd := f.mod / 4 % 4,
    sub := f.mod % 4 }

/-- MOD of family M (R73). -/
def Fields.modM (f : Fields) : ModM :=
  { ty := tyOf (f.mod / 128 % 16), ord := f.mod / 32 % 4, scope := f.mod / 4 % 8, space := f.mod % 4 }

/-- MOD of family G (R74). -/
def Fields.modG (f : Fields) : ModG :=
  { ty := tyOf (f.mod / 128 % 16), iw := f.mod / 32 % 4, isgn := f.mod / 16 % 2 == 1, sc := f.mod / 2 % 8,
    space := f.mod % 2 }

/-- MOD of family B (R75). -/
def Fields.modB (f : Fields) : ModB := { prio := f.mod / 8 % 256, zero := f.mod % 8 }

def Fields.modX (f : Fields) : ModX := { bits := f.mod }

/-- Reserved opcode: field 0, reason 1 (R78). -/
def badOpc : EncFault := (0, 1)
/-- Unassigned FN: field 1, reason 2 (R78). -/
def badFn : EncFault := (1, 2)

/-- The instructions of opcodes 0x00 to 0x17 (R81). -/
def assembleInt (f : Fields) : Except EncFault Instr :=
  let o := f.op
  let fn := f.fn
  if f.opc = 0x00 then (if fn = 0 then .ok (.iadd o f.modA) else .error badFn) else
  if f.opc = 0x01 then (if fn = 0 then .ok (.isub o f.modA) else .error badFn) else
  if f.opc = 0x02 then (if fn ≤ 1 then .ok (.imul o f.modA) else .error badFn) else
  if f.opc = 0x03 then (if fn ≤ 1 then .ok (.imad o f.modA) else .error badFn) else
  if f.opc = 0x04 then (if fn = 0 then .ok (.idiv o f.modA) else .error badFn) else
  if f.opc = 0x05 then (if fn = 0 then .ok (.irem o f.modA) else .error badFn) else
  if f.opc = 0x06 then (if fn = 0 then .ok (.iabs o f.modA) else .error badFn) else
  if f.opc = 0x07 then (if fn = 0 then .ok (.imin o f.modA) else if fn = 1 then .ok (.imax o f.modA) else .error badFn) else
  if f.opc = 0x08 then (if fn = 0 then .ok (.andB o f.modA) else .error badFn) else
  if f.opc = 0x09 then (if fn = 0 then .ok (.orB o f.modA) else .error badFn) else
  if f.opc = 0x0A then (if fn = 0 then .ok (.xorB o f.modA) else .error badFn) else
  if f.opc = 0x0B then (if fn = 0 then .ok (.shl o f.modA) else .error badFn) else
  if f.opc = 0x0C then (if fn = 0 then .ok (.shr o f.modA) else .error badFn) else
  if f.opc = 0x0D then (if fn ≤ 1 then .ok (.rot o f.modA) else .error badFn) else
  if f.opc = 0x0E then (if fn = 0 then .ok (.bfx o f.modA) else .error badFn) else
  if f.opc = 0x0F then (if fn = 0 then .ok (.bfi o f.modA) else .error badFn) else
  if f.opc = 0x10 then (if fn = 0 then .ok (.popc o f.modA) else .error badFn) else
  if f.opc = 0x11 then (if fn = 0 then .ok (.clz o f.modA) else .error badFn) else
  if f.opc = 0x12 then (if fn = 0 then .ok (.brev o f.modA) else .error badFn) else
  if f.opc = 0x13 then (if fn ≤ 5 then .ok (.icmp o f.modA) else .error badFn) else
  if f.opc = 0x14 then (if fn = 0 then .ok (.sel o f.modA) else .error badFn) else
  if f.opc = 0x15 then (if fn = 0 then .ok (.mov o f.modA) else if fn = 1 then .ok (.movRetag o f.modA) else .error badFn) else
  if f.opc = 0x16 then (if fn = 0 then .ok (.movi o f.modA) else .error badFn) else
  .error badOpc

/-- The instructions of opcodes 0x18 to 0x2F (R81). -/
def assembleFloat (f : Fields) : Except EncFault Instr :=
  let o := f.op
  let fn := f.fn
  if f.opc = 0x18 then (if fn = 0 then .ok (.fadd o f.modA) else .error badFn) else
  if f.opc = 0x19 then (if fn = 0 then .ok (.fsub o f.modA) else .error badFn) else
  if f.opc = 0x1A then (if fn = 0 then .ok (.fmul o f.modA) else .error badFn) else
  if f.opc = 0x1B then (if fn = 0 then .ok (.ffma o f.modA) else .error badFn) else
  if f.opc = 0x1C then (if fn = 0 then .ok (.fmin o f.modA) else if fn = 1 then .ok (.fmax o f.modA) else .error badFn) else
  if f.opc = 0x1D then (if fn ≤ 7 then .ok (.fcmp o f.modA) else .error badFn) else
  if f.opc = 0x1E then (if fn = 0 then .ok (.fclass o f.modA) else .error badFn) else
  if f.opc = 0x1F then (if fn = 0 then .ok (.fdiv o f.modA) else .error badFn) else
  if f.opc = 0x20 then (if fn = 0 then .ok (.fsqrt o f.modA) else .error badFn) else
  if f.opc = 0x21 then (if fn = 0 then .ok (.frsqrt o f.modA) else if fn = 1 then .ok (.frcp o f.modA) else .error badFn) else
  if f.opc = 0x22 then (if fn = 0 then .ok (.fexp2 o f.modA) else if fn = 1 then .ok (.flog2 o f.modA) else .error badFn) else
  if f.opc = 0x23 then (if fn = 0 then .ok (.fsinpi o f.modA) else if fn = 1 then .ok (.fcospi o f.modA) else .error badFn) else
  if f.opc = 0x24 then (if fn = 0 then .ok (.frnd o f.modA) else .error badFn) else
  if f.opc = 0x25 then (if fn = 0 then .ok (.fscale o f.modA) else .error badFn) else
  if f.opc = 0x26 then (if fn = 0 then .ok (.fgetexp o f.modA) else .error badFn) else
  if f.opc = 0x27 then (if cvtSrc fn then .ok (.cvt o f.modA) else .error badFn) else
  if f.opc = 0x28 then (if fn = 1 then .ok (.dxunpack o f.modA) else if dxpackFn fn then .ok (.dxpack o f.modA) else .error badFn) else
  if f.opc = 0x29 then (if fn = 0 then .ok (.fgsum o f.modA) else .error badFn) else
  if f.opc = 0x2A then (if fn = 0 then .ok (.fdot2 o f.modA) else .error badFn) else
  .error badOpc

/-- The instructions of opcodes 0x30 to 0x3F (R81). -/
def assembleCtl (f : Fields) : Except EncFault Instr :=
  let o := f.op
  let fn := f.fn
  if f.opc = 0x30 then (if fn ≤ 3 then .ok (.shfl o f.modA) else .error badFn) else
  if f.opc = 0x31 then (if fn = 0 then .ok (.ballot o f.modA) else .error badFn) else
  if f.opc = 0x32 then (if fn ≤ 2 then .ok (.vote o f.modA) else .error badFn) else
  if f.opc = 0x33 then (if fn ≤ 5 then .ok (.gred o f.modA) else .error badFn) else
  if f.opc = 0x34 then (if fn ≤ 5 then .ok (.gscan o f.modA) else .error badFn) else
  if f.opc = 0x35 then (if fn ≤ 5 then .ok (.plop o f.modA) else .error badFn) else
  if f.opc = 0x36 then (if fn = 0 then .ok (.p2m o f.modA) else if fn = 1 then .ok (.m2p o f.modA) else .error badFn) else
  if f.opc = 0x37 then (if fn = 0 then .ok (.nop o f.modA) else .error badFn) else
  if f.opc = 0x38 then (if fn = 0 then .ok (.bra o f.modB) else .error badFn) else
  if f.opc = 0x39 then (if fn = 0 then .ok (.brx o f.modB) else .error badFn) else
  if f.opc = 0x3A then (if fn = 0 then .ok (.call o f.modB) else .error badFn) else
  if f.opc = 0x3B then (if fn = 0 then .ok (.ret o f.modX) else .error badFn) else
  if f.opc = 0x3C then (if fn = 0 then .ok (.exitL o f.modX) else .error badFn) else
  if f.opc = 0x3D then (if fn = 0 ∧ f.mod % 2 = 0 then .ok (.rgrp o f.modX) else if fn = 0 ∧ f.mod % 2 = 1 then .ok (.rgrpSet o f.modX) else .error badFn) else
  if f.opc = 0x3E then (if fn = 0 then .ok (.rejoin o f.modX) else .error badFn) else
  if f.opc = 0x3F then (if fn = 0 then .ok (.setprio o f.modB) else .error badFn) else
  .error badOpc

/-- The instructions of opcodes 0x40 to 0x57 (R81). -/
def assembleMem (f : Fields) : Except EncFault Instr :=
  let o := f.op
  let fn := f.fn
  if f.opc = 0x40 then (if fn = 0 then .ok (.ld o f.modM) else .error badFn) else
  if f.opc = 0x41 then (if fn = 0 then .ok (.st o f.modM) else .error badFn) else
  if f.opc = 0x42 then (if fn = 0 then .ok (.gld o f.modG) else .error badFn) else
  if f.opc = 0x43 then (if fn = 0 then .ok (.gst o f.modG) else .error badFn) else
  if f.opc = 0x44 then (if fn = 0 then .ok (.cst o f.modM) else .error badFn) else
  if f.opc = 0x45 then (if fn = 0 then .ok (.xld o f.modM) else .error badFn) else
  if f.opc = 0x46 then (if fn ≤ 7 then .ok (.atom o f.modM) else .error badFn) else
  if f.opc = 0x47 then (if fn ≤ 5 then .ok (.red o f.modM) else .error badFn) else
  if f.opc = 0x48 then (if fn ≤ 5 then .ok (.waitv o f.modM) else .error badFn) else
  if f.opc = 0x49 then (if fn = 0 then .ok (.fence o f.modX) else .error badFn) else
  if f.opc = 0x4A then (if fn = 0 then .ok (.sdrain o f.modX) else .error badFn) else
  if f.opc = 0x4B then (if fn = 0 then .ok (.pf o f.modM) else .error badFn) else
  if f.opc = 0x4C then (if fn = 0 then .ok (.tld o f.modM) else if fn = 1 then .ok (.tldVer o f.modM) else .error badFn) else
  if f.opc = 0x4D then (if fn = 0 then .ok (.tst o f.modM) else if fn = 1 then .ok (.tstAll o f.modM) else .error badFn) else
  if f.opc = 0x4E then (if fn = 0 then .ok (.ldn o f.modX) else .error badFn) else
  if f.opc = 0x4F then (if fn = 0 then .ok (.stn o f.modX) else .error badFn) else
  if f.opc = 0x50 then (if fn = 0 then .ok (.peq o f.modX) else .error badFn) else
  if f.opc = 0x51 then (if fn = 0 then .ok (.pname o f.modX) else .error badFn) else
  if f.opc = 0x52 then (if fn = 0 then .ok (.npin o f.modX) else if fn = 1 then .ok (.nunpin o f.modX) else .error badFn) else
  .error badOpc

/-- The instructions of opcodes 0x58 to 0x6F (R81). -/
def assembleEng (f : Fields) : Except EncFault Instr :=
  let o := f.op
  let fn := f.fn
  if f.opc = 0x58 then (if fn = 0 then .ok (.ldpl o f.modX) else .error badFn) else
  if f.opc = 0x59 then (if fn = 0 then .ok (.plswap o f.modX) else .error badFn) else
  if f.opc = 0x5A then (if fn = 0 then .ok (.mmq o f.modX) else .error badFn) else
  if f.opc = 0x5B then (if fn = 0 then .ok (.accrd o f.modX) else if fn = 1 then .ok (.accwr o f.modX) else .error badFn) else
  if f.opc = 0x5C then (if fn = 0 then .ok (.acczero o f.modX) else .error badFn) else
  if f.opc = 0x5D then (if fn = 0 then .ok (.accld o f.modX) else if fn = 1 then .ok (.accst o f.modX) else .error badFn) else
  if f.opc = 0x5E then (if fn ≤ 1 then .ok (.trchol o f.modX) else .error badFn) else
  if f.opc = 0x5F then (if fn = 0 then .ok (.trupd o f.modX) else if fn = 1 then .ok (.trupd8 o f.modX) else .error badFn) else
  if f.opc = 0x60 then (if fn ≤ 1 then .ok (.trdwd o f.modX) else .error badFn) else
  if f.opc = 0x61 then (if fn ≤ 1 then .ok (.trsolve o f.modX) else .error badFn) else
  if f.opc = 0x62 then (if fn = 0 then .ok (.trscale o f.modX) else .error badFn) else
  if f.opc = 0x68 then (if fn ≤ 1 then .ok (.cpy o f.modX) else if fn = 2 then .ok (.cpyg o f.modX) else if fn = 3 then .ok (.cpyt o f.modX) else .error badFn) else
  if f.opc = 0x69 then (if fn ≤ 1 then .ok (.cpyr o f.modX) else .error badFn) else
  if f.opc = 0x6A then (if fn ≤ 2 then .ok (.cred o f.modX) else .error badFn) else
  if f.opc = 0x6B then (if fn ≤ 1 then .ok (.cpyz o f.modX) else .error badFn) else
  if f.opc = 0x6C then (if fn ≤ 7 then .ok (.ratom o f.modX) else .error badFn) else
  if f.opc = 0x6D then (if fn = 0 then .ok (.sfill o f.modX) else .error badFn) else
  if f.opc = 0x6E then (if fn = 0 then .ok (.spop o f.modX) else if fn = 1 ∧ f.mod / 128 % 2 = 0 then .ok (.sfree o f.modX) else if fn = 1 ∧ f.mod / 128 % 2 = 1 then .ok (.sfreeInit o f.modX) else .error badFn) else
  if f.opc = 0x6F then (if fn ≤ 1 then .ok (.tagw o f.modX) else if fn = 2 then .ok (.tagff o f.modX) else if fn = 3 then .ok (.tagst o f.modX) else .error badFn) else
  .error badOpc

/-- The instructions of opcodes 0x70 to 0x7F (R81). -/
def assembleSys (f : Fields) : Except EncFault Instr :=
  let o := f.op
  let fn := f.fn
  if f.opc = 0x70 then (if fn = 0 then .ok (.bini o f.modX) else .error badFn) else
  if f.opc = 0x71 then (if fn = 0 then .ok (.barv o f.modX) else .error badFn) else
  if f.opc = 0x72 then (if fn = 0 then .ok (.barw o f.modX) else .error badFn) else
  if f.opc = 0x73 then (if fn = 0 then .ok (.sigdec o f.modX) else .error badFn) else
  if f.opc = 0x74 then (if fn ≤ 1 then .ok (.uiraise o f.modX) else .error badFn) else
  if f.opc = 0x75 then (if fn = 0 then .ok (.uiwait o f.modX) else if fn = 1 then .ok (.uitake o f.modX) else .error badFn) else
  if f.opc = 0x76 then (if fn ≤ 1 then .ok (.uimask o f.modX) else .error badFn) else
  if f.opc = 0x77 then (if fn = 0 then .ok (.uiret o f.modX) else .error badFn) else
  if f.opc = 0x78 then (if fn = 0 then .ok (.scall o f.modX) else .error badFn) else
  if f.opc = 0x79 then (if fn = 0 then .ok (.trapSw o f.modX) else .error badFn) else
  if f.opc = 0x7A then (if fn = 0 then .ok (.sprd o f.modX) else .error badFn) else
  if f.opc = 0x7B then (if fn = 0 then .ok (.spwr o f.modX) else .error badFn) else
  if f.opc = 0x7C then (if fn = 0 then .ok (.brk o f.modX) else .error badFn) else
  if f.opc = 0x7D then (if fn ≤ 2 then .ok (.sret o f.modX) else .error badFn) else
  if f.opc = 0x7E then (if fn ≤ 3 then .ok (.cancel o f.modX) else .error badFn) else
  if f.opc = 0x7F then (if fn ≤ 1 then .ok (.hvy o f.modX) else .error badFn) else
  .error badOpc


/-- The instruction of a word whose OPC and FN are assigned (R81). -/
def assemble (f : Fields) : Except EncFault Instr :=
  if f.opc < 0x18 then assembleInt f
  else if f.opc < 0x30 then assembleFloat f
  else if f.opc < 0x40 then assembleCtl f
  else if f.opc < 0x58 then assembleMem f
  else if f.opc < 0x70 then assembleEng f
  else assembleSys f

/-- Decodes a word for a group with vector grant `grant` in a launch whose flag DET is `det` (R78). -/
def decode (grant : Nat) (det : Bool) (w : Nat) : Except EncFault Instr :=
  let f := parse w
  match assemble f with
  | .error e => .error e
  | .ok i =>
    match firstFault (i.faults grant det ++ faultIf (f.zero != 0) 8 3) with
    | none => .ok i
    | some e => .error e

/-- The name of a reason of R78. -/
def reasonName : Nat → String
  | 1 => "reserved opcode" | 2 => "unassigned FN" | 3 => "non-zero zero-field" | 4 => "reserved or refused MOD value"
  | 5 => "specifier not allowed" | 6 => "misaligned pair or quad" | 7 => "register beyond grant" | 8 => "GRD 0b1111"
  | _ => "none"

/-- The number that little-endian bytes hold (R9). -/
def natOfBytes : List Byte → Nat
  | [] => 0
  | b :: bs => b.toNat + 256 * natOfBytes bs

/-- The low `n` bytes of a number, the least significant first (R9). -/
def bytesOfNat : Nat → Nat → List Byte
  | 0, _ => []
  | n + 1, v => BitVec.ofNat 8 v :: bytesOfNat n (v / 256)

/-- Decodes the instruction at the head of a list of bytes and gives the bytes that follow it (R63). -/
def decodeBytes (grant : Nat) (det : Bool) (bs : List Byte) : Except EncFault (Instr × List Byte) :=
  match decode grant det (natOfBytes (bs.take 12)) with
  | .error e => .error e
  | .ok i => .ok (i, bs.drop 12)

def fieldsOf (opc : Nat) (o : Op) (mod : Nat) : Fields :=
  { opc := opc, fn := o.fn, grd := o.grd, d := o.d.code, a := o.a.code, b := o.b.code, hint := o.hint, mod := mod,
    zero := 0, imm := o.imm }

/-- The fields of an instruction; a step of another agent has none. -/
def Instr.fields : Instr → Option Fields
  | .iadd o a => some (fieldsOf 0x00 o a.bits)
  | .isub o a => some (fieldsOf 0x01 o a.bits)
  | .imul o a => some (fieldsOf 0x02 o a.bits)
  | .imad o a => some (fieldsOf 0x03 o a.bits)
  | .idiv o a => some (fieldsOf 0x04 o a.bits)
  | .irem o a => some (fieldsOf 0x05 o a.bits)
  | .iabs o a => some (fieldsOf 0x06 o a.bits)
  | .imin o a => some (fieldsOf 0x07 o a.bits)
  | .imax o a => some (fieldsOf 0x07 o a.bits)
  | .andB o a => some (fieldsOf 0x08 o a.bits)
  | .orB o a => some (fieldsOf 0x09 o a.bits)
  | .xorB o a => some (fieldsOf 0x0A o a.bits)
  | .shl o a => some (fieldsOf 0x0B o a.bits)
  | .shr o a => some (fieldsOf 0x0C o a.bits)
  | .rot o a => some (fieldsOf 0x0D o a.bits)
  | .bfx o a => some (fieldsOf 0x0E o a.bits)
  | .bfi o a => some (fieldsOf 0x0F o a.bits)
  | .popc o a => some (fieldsOf 0x10 o a.bits)
  | .clz o a => some (fieldsOf 0x11 o a.bits)
  | .brev o a => some (fieldsOf 0x12 o a.bits)
  | .icmp o a => some (fieldsOf 0x13 o a.bits)
  | .sel o a => some (fieldsOf 0x14 o a.bits)
  | .mov o a => some (fieldsOf 0x15 o a.bits)
  | .movRetag o a => some (fieldsOf 0x15 o a.bits)
  | .movi o a => some (fieldsOf 0x16 o a.bits)
  | .fadd o a => some (fieldsOf 0x18 o a.bits)
  | .fsub o a => some (fieldsOf 0x19 o a.bits)
  | .fmul o a => some (fieldsOf 0x1A o a.bits)
  | .ffma o a => some (fieldsOf 0x1B o a.bits)
  | .fmin o a => some (fieldsOf 0x1C o a.bits)
  | .fmax o a => some (fieldsOf 0x1C o a.bits)
  | .fcmp o a => some (fieldsOf 0x1D o a.bits)
  | .fclass o a => some (fieldsOf 0x1E o a.bits)
  | .fdiv o a => some (fieldsOf 0x1F o a.bits)
  | .fsqrt o a => some (fieldsOf 0x20 o a.bits)
  | .frsqrt o a => some (fieldsOf 0x21 o a.bits)
  | .frcp o a => some (fieldsOf 0x21 o a.bits)
  | .fexp2 o a => some (fieldsOf 0x22 o a.bits)
  | .flog2 o a => some (fieldsOf 0x22 o a.bits)
  | .fsinpi o a => some (fieldsOf 0x23 o a.bits)
  | .fcospi o a => some (fieldsOf 0x23 o a.bits)
  | .frnd o a => some (fieldsOf 0x24 o a.bits)
  | .fscale o a => some (fieldsOf 0x25 o a.bits)
  | .fgetexp o a => some (fieldsOf 0x26 o a.bits)
  | .cvt o a => some (fieldsOf 0x27 o a.bits)
  | .dxpack o a => some (fieldsOf 0x28 o a.bits)
  | .dxunpack o a => some (fieldsOf 0x28 o a.bits)
  | .fgsum o a => some (fieldsOf 0x29 o a.bits)
  | .fdot2 o a => some (fieldsOf 0x2A o a.bits)
  | .shfl o a => some (fieldsOf 0x30 o a.bits)
  | .ballot o a => some (fieldsOf 0x31 o a.bits)
  | .vote o a => some (fieldsOf 0x32 o a.bits)
  | .gred o a => some (fieldsOf 0x33 o a.bits)
  | .gscan o a => some (fieldsOf 0x34 o a.bits)
  | .plop o a => some (fieldsOf 0x35 o a.bits)
  | .p2m o a => some (fieldsOf 0x36 o a.bits)
  | .m2p o a => some (fieldsOf 0x36 o a.bits)
  | .nop o a => some (fieldsOf 0x37 o a.bits)
  | .bra o b => some (fieldsOf 0x38 o b.bits)
  | .brx o b => some (fieldsOf 0x39 o b.bits)
  | .call o b => some (fieldsOf 0x3A o b.bits)
  | .ret o x => some (fieldsOf 0x3B o x.bits)
  | .exitL o x => some (fieldsOf 0x3C o x.bits)
  | .rgrp o x => some (fieldsOf 0x3D o x.bits)
  | .rgrpSet o x => some (fieldsOf 0x3D o x.bits)
  | .rejoin o x => some (fieldsOf 0x3E o x.bits)
  | .setprio o b => some (fieldsOf 0x3F o b.bits)
  | .ld o m => some (fieldsOf 0x40 o m.bits)
  | .st o m => some (fieldsOf 0x41 o m.bits)
  | .gld o g => some (fieldsOf 0x42 o g.bits)
  | .gst o g => some (fieldsOf 0x43 o g.bits)
  | .cst o m => some (fieldsOf 0x44 o m.bits)
  | .xld o m => some (fieldsOf 0x45 o m.bits)
  | .atom o m => some (fieldsOf 0x46 o m.bits)
  | .red o m => some (fieldsOf 0x47 o m.bits)
  | .waitv o m => some (fieldsOf 0x48 o m.bits)
  | .fence o x => some (fieldsOf 0x49 o x.bits)
  | .sdrain o x => some (fieldsOf 0x4A o x.bits)
  | .pf o m => some (fieldsOf 0x4B o m.bits)
  | .tld o m => some (fieldsOf 0x4C o m.bits)
  | .tldVer o m => some (fieldsOf 0x4C o m.bits)
  | .tst o m => some (fieldsOf 0x4D o m.bits)
  | .tstAll o m => some (fieldsOf 0x4D o m.bits)
  | .ldn o x => some (fieldsOf 0x4E o x.bits)
  | .stn o x => some (fieldsOf 0x4F o x.bits)
  | .peq o x => some (fieldsOf 0x50 o x.bits)
  | .pname o x => some (fieldsOf 0x51 o x.bits)
  | .npin o x => some (fieldsOf 0x52 o x.bits)
  | .nunpin o x => some (fieldsOf 0x52 o x.bits)
  | .ldpl o x => some (fieldsOf 0x58 o x.bits)
  | .plswap o x => some (fieldsOf 0x59 o x.bits)
  | .mmq o x => some (fieldsOf 0x5A o x.bits)
  | .accrd o x => some (fieldsOf 0x5B o x.bits)
  | .accwr o x => some (fieldsOf 0x5B o x.bits)
  | .acczero o x => some (fieldsOf 0x5C o x.bits)
  | .accld o x => some (fieldsOf 0x5D o x.bits)
  | .accst o x => some (fieldsOf 0x5D o x.bits)
  | .trchol o x => some (fieldsOf 0x5E o x.bits)
  | .trupd o x => some (fieldsOf 0x5F o x.bits)
  | .trupd8 o x => some (fieldsOf 0x5F o x.bits)
  | .trdwd o x => some (fieldsOf 0x60 o x.bits)
  | .trsolve o x => some (fieldsOf 0x61 o x.bits)
  | .trscale o x => some (fieldsOf 0x62 o x.bits)
  | .cpy o x => some (fieldsOf 0x68 o x.bits)
  | .cpyg o x => some (fieldsOf 0x68 o x.bits)
  | .cpyt o x => some (fieldsOf 0x68 o x.bits)
  | .cpyr o x => some (fieldsOf 0x69 o x.bits)
  | .cred o x => some (fieldsOf 0x6A o x.bits)
  | .cpyz o x => some (fieldsOf 0x6B o x.bits)
  | .ratom o x => some (fieldsOf 0x6C o x.bits)
  | .sfill o x => some (fieldsOf 0x6D o x.bits)
  | .spop o x => some (fieldsOf 0x6E o x.bits)
  | .sfree o x => some (fieldsOf 0x6E o x.bits)
  | .sfreeInit o x => some (fieldsOf 0x6E o x.bits)
  | .tagw o x => some (fieldsOf 0x6F o x.bits)
  | .tagff o x => some (fieldsOf 0x6F o x.bits)
  | .tagst o x => some (fieldsOf 0x6F o x.bits)
  | .bini o x => some (fieldsOf 0x70 o x.bits)
  | .barv o x => some (fieldsOf 0x71 o x.bits)
  | .barw o x => some (fieldsOf 0x72 o x.bits)
  | .sigdec o x => some (fieldsOf 0x73 o x.bits)
  | .uiraise o x => some (fieldsOf 0x74 o x.bits)
  | .uiwait o x => some (fieldsOf 0x75 o x.bits)
  | .uitake o x => some (fieldsOf 0x75 o x.bits)
  | .uimask o x => some (fieldsOf 0x76 o x.bits)
  | .uiret o x => some (fieldsOf 0x77 o x.bits)
  | .scall o x => some (fieldsOf 0x78 o x.bits)
  | .trapSw o x => some (fieldsOf 0x79 o x.bits)
  | .sprd o x => some (fieldsOf 0x7A o x.bits)
  | .spwr o x => some (fieldsOf 0x7B o x.bits)
  | .brk o x => some (fieldsOf 0x7C o x.bits)
  | .sret o x => some (fieldsOf 0x7D o x.bits)
  | .cancel o x => some (fieldsOf 0x7E o x.bits)
  | .hvy o x => some (fieldsOf 0x7F o x.bits)
  | _ => none

/-- The word of an instruction (R63). -/
def encode (i : Instr) : Option Nat := i.fields.map Fields.pack

/-- The instruction the decoder reads from a word of the opcode table, with the widest grant and DET clear. -/
def decodeTableWord (nbits w : Nat) : Option Instr :=
  match decodeBytes 256 false (bytesOfNat 12 (w % 2 ^ nbits)) with
  | .ok (i, _) => some i
  | .error _ => none

end Sys2Proof
end

