-- ==== Sys2Proof/Machine/Sparse.lean ====
section
/-! DEFINITION. Sparse tables: lists of keys and values with rising keys and no value equal to what an unlisted key
reads as. Memory, register files and engine storage are held so. -/

namespace Sys2Proof.Sparse

/-- Reads key `k`; an unlisted key reads as `d`. -/
def get (d : α) : Sparse α → Nat → α
  | [], _ => d
  | (j, v) :: m, k => if k = j then v else get d m k

/-- Forgets key `k`. -/
def erase (m : Sparse α) (k : Nat) : Sparse α := m.filter fun e => e.1 != k

/-- Puts key `k` before the first key above it. -/
def insert : Sparse α → Nat → α → Sparse α
  | [], k, v => [(k, v)]
  | (j, u) :: m, k, v => if k < j then (k, v) :: (j, u) :: m else (j, u) :: insert m k v

/-- Writes key `k`, keeping the form; writing `d` removes the entry. -/
def set [DecidableEq α] (d : α) (m : Sparse α) (k : Nat) (v : α) : Sparse α :=
  if v = d then erase m k else insert (erase m k) k v

/-- Forgets the keys `lo` to `hi - 1`. -/
def clear (m : Sparse α) (lo hi : Nat) : Sparse α := m.filter fun e => !(lo ≤ e.1 && e.1 < hi)

/-- Writes consecutive keys from `k`. -/
def setList [DecidableEq α] (d : α) (m : Sparse α) (k : Nat) : List α → Sparse α
  | [] => m
  | v :: vs => setList d (set d m k v) (k + 1) vs

/-- Reads `n` consecutive keys from `k`. -/
def getList (d : α) (m : Sparse α) (k n : Nat) : List α := (List.range n).map fun i => get d m (k + i)

/-- Every key above `k`, keys rising, no value `d`. -/
def wfFrom [DecidableEq α] (d : α) (k : Nat) : Sparse α → Bool
  | [] => true
  | (j, v) :: m => decide (k ≤ j) && decide (v ≠ d) && wfFrom d (j + 1) m

/-- The canonical form. -/
def wf [DecidableEq α] (d : α) (m : Sparse α) : Bool := wfFrom d 0 m

end Sys2Proof.Sparse
end

