-- ==== Sys2Proof/Machine/State.lean ====
section
/-! DEFINITION. The state of the K2: everything the manual gives the machine, as plain data, and the state right
after reset. -/

namespace Sys2Proof.Machine

/-- Why the machine stops. Every one is safe: the model stops where the manual gives no behaviour. -/
inductive Fault
  /-- raised by the memory operations: the manual gives no memory at this physical address (R4, R382). Safe. -/
  | noSuchAddress (space addr : Nat)
  deriving DecidableEq, Repr

/-- Why an instruction has no meaning. -/
inductive Refusal
  /-- raised by `exec` only: the instruction of this mnemonic is not modelled. Safe. -/
  | notModelled (mnemonic : String)
  deriving DecidableEq, Repr

/-- What an entry of a frontier waits for (R221). -/
inductive Wait
  | none
  | waitv
  /-- `target`: the phase waited past (R179) -/
  | barw (bo target : Nat)
  /-- the mask, and whether all are waited for (R203) -/
  | tagw (mask : Nat) (all : Bool)
  | tagst (t : Nat)
  /-- the stream register (R202) -/
  | spop (q : Nat)
  | sfill (q : Nat)
  | uiwait
  | scall
  /-- a fill wait at a residency slot, with the lowest lane that waits and its address (R141, R248) -/
  | fill (slot lane va : Nat)
  /-- an ldn waiting on the admission of a key (R249) -/
  | key (k : Nat)
  /-- the version word of tst.all (R157) -/
  | version
  | offcut
  /-- a free engine agent (R316), or an earlier command on the same slots or registers (R168) -/
  | engine
  /-- a uiraise.trap that waits for its decision, under the mark its raise bears (R299) -/
  | raise (mark : Nat)
  /-- uiret waiting for every present lane (R307) -/
  | uiret
  /-- an exit or rgrp waiting at its drain, or any instruction waiting for an earlier one to finish -/
  | retry
  /-- chosen by the second decoder: it issues next, in the same cycle (R95, R226) -/
  | second
  deriving DecidableEq, Repr

/-- A frontier entry (R223). `agedAt` is the model's: when the entry became aged, 0 while it is not (R225). -/
structure Entry where
  pc     : DWord
  prio   : Nat
  mask   : Word
  rjw    : Bool
  rjmask : Word
  age    : Nat
  bwa    : Bool
  agedAt : Nat
  wait   : Wait
  deriving DecidableEq, Repr

/-- The frontier parked at the entry of a handler, and the place of the diverted entry in it (R305, R307). -/
structure Park where
  ents  : List Entry
  liven : Nat
  d     : Nat
  deriving DecidableEq, Repr

/-- Whether a group runs, runs on after a halt broadcast, or is stopped (R352, R353). -/
inductive Run
  | running
  /-- `n` issue cycles left of the skid, after a broadcast by slot `src` -/
  | skid (n src : Nat)
  | stopped
  deriving DecidableEq, Repr

/-- A group (R16, R30 to R32, R177, R223, R364). -/
structure Group where
  gid   : Nat
  slot  : Nat
  live  : Bool
  /-- vector grant V -/
  grant : Nat
  v     : Sparse Word
  vt    : Sparse Tag
  s     : Sparse Word
  st    : Sparse Tag
  m     : Sparse Word
  /-- predicates p0 to p6 as lane masks -/
  p     : Sparse Word
  tid   : Sparse Word
  ents  : List Entry
  liven : Nat
  gstat : DWord
  uiepc : DWord
  cause : DWord
  epc   : DWord
  frcnt : DWord
  skidN : Nat
  inh   : Bool
  sect  : Bool
  park  : Option Park
  /-- the boundary is the one directly after a uiret (R305) -/
  after : Bool
  run   : Run
  /-- waits on the answer of its scall; EPC is the continuation, which is kept here while a halt shows the scall in EPC (R360, R363) -/
  scall : Bool
  cont  : Option DWord
  /-- holds an unanswered primary fault (R352) -/
  fault : Bool
  /-- has taken a primary fault since it last ran (R359) -/
  trapped : Bool
  /-- the entry that trapped, whose PC EPC replaces (R359) -/
  trapPc : DWord
  /-- fault record, 256 bytes (R364) -/
  frec  : Sparse Byte
  tph   : Sparse Nat
  arrv  : BitVec 16
  /-- the frontier block as the supervisor has edited it, until the restart reads it (R359, R361) -/
  fblk  : Option (Sparse Byte)
  deriving DecidableEq, Repr

/-- A barrier object (R177). -/
structure Bar where
  stat   : DWord
  lstat  : DWord
  memb   : Word
  ph     : Nat
  expect : Nat
  count  : Nat
  ltrap  : Bool
  trapf  : Bool
  deriving DecidableEq, Repr

/-- A stream register (R288). -/
structure Stream where
  failed : DWord
  filled : DWord
  base   : Nat
  slotb  : Nat
  nm1    : Nat
  head   : Nat
  nfill  : Nat
  npop   : Nat
  bound  : Bool
  deriving DecidableEq, Repr

/-- What an agent knows of the agents of units: a vector of 64 clocks for each unit (R315, R321). -/
abbrev Know := List (UKey × List Nat)

/-- A release that a location holds: by whom, at what scope, which units stood on its die at that moment, whether by a release write
or by a write behind a release fence, and what its agent knew (R312 to R314). -/
structure Released where
  key   : UKey
  scope : Nat
  near  : List UKey
  fence : Bool
  know  : Know
  deriving DecidableEq, Repr

/-- A record of the offcut store (R228); `age` is CLK when it was written (R230). -/
structure OffRec where
  pc   : DWord
  prio : Nat
  tid  : Word
  preds : Nat
  n    : Nat
  vals : List Word
  tags : List Tag
  age  : Nat
  /-- what the thread's group knew when it was cut off (R314) -/
  clock : Know
  deriving DecidableEq, Repr

/-- How far an engine command is (R173, R371). -/
inductive CmdState
  | queued
  | started
  | done
  deriving DecidableEq, Repr

/-- An engine command in flight, with what it read at issue (R167, R371). -/
structure Cmd where
  ins    : Instr
  word   : Nat
  gid    : Nat
  /-- the issuing group's program counter -/
  pc     : DWord
  state  : CmdState
  dv     : QWord
  av     : QWord
  bv     : QWord
  /-- which of D, A, B held a PTR base: bits 0, 2, 4 (R371) -/
  pmap   : Nat
  tag    : Option Nat
  wb     : Option (Nat × Nat)
  ab     : Option Nat
  trapf  : Bool
  stream : Option Nat
  /-- stream register and slot of an sfill -/
  fill   : Option (Nat × Nat)
  /-- bytes moved, or the next piece -/
  prog   : Nat
  /-- permit granted, or not needed (R171) -/
  permit : Bool
  /-- first status reported -/
  status : DWord
  /-- executing lanes at issue -/
  exec   : Word
  /-- lane row offsets of an mmq, or the vector of a factor command -/
  vec    : List DWord
  /-- quarters of an mmq still to commit -/
  quarters : List Nat
  /-- residency slots pinned by the command (R172) -/
  pins   : List Nat
  remote : Bool
  /-- remote pieces sent and not yet answered, by identifier and byte offset -/
  sent   : List (Nat × Nat)
  /-- replies to a cpyr.rd, by byte offset, that wait for an earlier one: its destination is written in ascending order (R285) -/
  got    : List (Nat × FabReply)
  /-- bytes of the source read already, from the next byte on: the rest of a 4-byte unit that was read whole (R174) -/
  ahead  : List Byte
  /-- bytes of the destination held back until the rest of their 4-byte unit can be written with them (R174) -/
  back   : List Byte
  /-- step count at which the command asked for its permit -/
  asked  : Nat
  /-- brought back from an image with pieces of its own still unanswered (R173) -/
  resumed : Bool
  /-- what a factor command read when it started: words, tags and records of the accumulator (R277) -/
  snap   : Option (Sparse Word × Sparse Tag × Sparse Nat)
  /-- its contribution has been counted in its ordered stream (R198, R291) -/
  counted : Bool
  deriving DecidableEq, Repr

/-- Interrupt state of a unit in broadcast mode (R300). -/
structure IntState where
  pend  : DWord
  count : Sparse Nat
  pay   : Sparse DWord
  deriving DecidableEq, Repr

/-- An access remembered by race detection (R321). -/
structure RaceAcc where
  /-- granule: space number times 2^60 plus address div 64 -/
  gran   : Nat
  agent  : Nat
  clock  : Nat
  write  : Bool
  strong : Bool
  scope  : Nat
  /-- an access of tld.ver or tst.all -/
  tile   : Bool
  deriving DecidableEq, Repr

/-- Race detection of a unit: clock of agent a about agent b at 64·a + b, what an agent knows of other units, what the unit's own
objects hold, the releases of an agent's fences and those its strong reads have met, and the history. -/
structure Race where
  clk  : Sparse Nat
  far  : Sparse Know
  rel  : Sparse Know
  fRel : Sparse (List Released)
  fAcq : Sparse (List Released)
  hist : List RaceAcc
  deriving DecidableEq, Repr

/-- A unit on a core (R23, R31, R219, R345). The resident supervisor group of a core is held as a unit of its own. -/
structure Unit where
  key    : UKey
  ctx    : Nat
  core   : Nat
  vault  : Nat
  vsize  : Nat
  offcut : Nat
  /-- offset of its save slot in the arena (R368) -/
  save   : Nat
  grps   : List Group
  /-- accumulator words, slot k word w at 512·k + w -/
  acc    : Sparse Word
  acct   : Sparse Tag
  /-- factor record byte of a slot (R275) -/
  accr   : Sparse Nat
  aslots : Nat
  bars   : Sparse Bar
  ready  : DWord
  pend   : DWord
  tstat  : Sparse DWord
  sq     : Sparse Stream
  /-- store-fault queue, records 0 to 7 (R365) -/
  sfq    : List (Nat × StoreFault)
  off    : List OffRec
  cmds   : List (Nat × Cmd)
  energy : DWord
  pwait  : DWord
  hvy    : Nat
  uimask : DWord
  ui     : IntState
  race   : Race
  /-- a fault has halted the unit (R352) -/
  halted : Bool
  /-- issue has stopped for vacating (R345) -/
  vacating : Bool
  /-- ends as failed (R337) -/
  failed : Bool
  /-- placed, and not yet restored (R371) -/
  unrestored : Bool
  /-- the launch is cancelled or its budget is spent: the CAUSE each group takes where it stops (R234, R338) -/
  ending : Option DWord
  deriving DecidableEq, Repr

/-- An entry of a core's matrix queue (R182). -/
inductive MqItem
  | quarter (u : UKey) (agent q : Nat)
  | load (u : UKey) (agent : Nat)
  | swap (plane : Nat)
  deriving DecidableEq, Repr

/-- A pass of the array: its plane, format and quarter operations still to end (R266, R267), and the quarter operations its permit
covers, by unit (R272). -/
structure Pass where
  plane : Nat
  fmt   : Nat
  ops   : List (UKey × Nat × Nat)
  permit : Bool
  shares : List (UKey × Nat)
  deriving DecidableEq, Repr

/-- A TLB entry: context, virtual page, page size and page-table entry, and the part of the page that the walked replica of
the entry serves (R37, R374). -/
structure TlbEnt where
  ctx  : Nat
  va   : Nat
  size : Nat
  pte  : DWord
  part : Nat
  span : Nat
  deriving DecidableEq, Repr

/-- A core (R25, R182, R222, R233, R270, R277, R355 to R362, R374, R412). -/
structure Core where
  lastSel : Sparse Nat
  /-- the second group a drawer has selected in its cycle: drawer, unit and gid (R222) -/
  picked  : List (Nat × UKey × Nat)
  /-- plane buffers: pl0 active, pl0 shadow, pl1 active, pl1 shadow; word w of buffer b at 16,384·b + w -/
  plane   : Sparse Word
  planet  : Sparse Tag
  /-- tags in queue order at issue (R182) -/
  planeq  : Sparse Tag
  holder  : Option (Nat × Nat)
  mq      : List MqItem
  pass    : Option Pass
  prevPl  : Option Nat
  passn   : Nat
  squares : Nat
  fq      : List (UKey × Nat)
  /-- mailbox bytes (R356) and the next entry of the ring -/
  mbox    : Sparse Byte
  mpos    : Nat
  /-- mailbox entries in the order in which they were posted -/
  morder  : List Nat
  /-- faults and scalls that wait for a free entry: slot -/
  mwait   : List Nat
  /-- faults taken by the first of the two groups of a drawer's cycle, posted when the second has issued: slots (R353) -/
  hold    : List Nat
  /-- core reports that wait for a free entry: context, key and status -/
  reports : List (Nat × Nat × DWord)
  port    : Sparse Byte
  portBusy : Bool
  tlb     : List TlbEnt
  bank    : Nat
  /-- what callers knew whose scall stands in a mailbox place, and the issuers of exchanges of each plane (R169, R314) -/
  mknow   : Sparse Know
  plknow  : Sparse Know
  deriving DecidableEq, Repr

/-- The state of a residency slot (R242). -/
inductive ResState
  | free | admitting | resident | departing | departed
  deriving DecidableEq, Repr

/-- What an entry of the table held before an admission took its slot (R242). -/
structure ResWas where
  state  : ResState
  inc    : Nat
  kind   : Nat
  w      : Bool
  gen    : Nat
  domain : Nat
  serial : Nat
  backva : Nat
  extent : Nat
  deriving DecidableEq, Repr

/-- A residency entry (R241), with the pages filled so far, its admission time and what it was before an admission. -/
structure Res where
  state  : ResState
  inc    : Nat
  kind   : Nat
  dirty  : Bool
  w      : Bool
  pin    : Nat
  gen    : Nat
  domain : Nat
  serial : Nat
  backva : Nat
  extent : Nat
  /-- bytes fetched so far (R248) -/
  filled : Nat
  /-- 64 KiB pages written since admission -/
  dirtyPg : List Nat
  time   : Nat
  /-- copy pins (R241) -/
  cpin   : Nat
  /-- the entry before this admission (R242) -/
  was    : Option ResWas
  /-- home of the object, from the directory (R245) -/
  hsp    : Nat
  homemod : Nat
  home   : Nat
  /-- address of the directory entry -/
  dirva  : Nat
  /-- a forced departure: pins are ignored (R166) -/
  forced : Bool
  /-- departure step reached (R251) -/
  dstep  : Nat
  /-- bytes written back -/
  wb     : Nat
  deriving DecidableEq, Repr

/-- Who waits on an admission: a lane's KIND and GEN decide for itself (R247). -/
structure AdmWait where
  u    : UKey
  gid  : Nat
  /-- the program counter of the waiting entry -/
  pc   : DWord
  lane : Nat
  kind : Nat
  gen  : Nat
  /-- 0 waits; 1 resident, with the pointer part (INC, SLOT); else the trap code -/
  res  : Nat
  inc  : Nat
  slot : Nat
  extent : Nat
  estat : Nat
  detail : Nat
  deriving DecidableEq, Repr

/-- An admission in progress or just ended (R247, R249). -/
structure Adm where
  key    : Nat
  slot   : Option Nat
  /-- waiting for ownership (R250), and the OWNER value that has been asked to depart -/
  owning : Bool
  asked  : Option Nat
  /-- where the lookup stands: the `i` of R246 that it repeats -/
  probe  : Nat
  /-- still in progress; an ended one keeps its results until its lanes have taken them -/
  active : Bool
  waits  : List AdmWait
  deriving DecidableEq, Repr

/-- A directory record of a context (R240). -/
structure Dir where
  va : Nat
  lo : Nat
  hi : Nat
  log2n : Nat
  deriving DecidableEq, Repr

/-- A context (R240, R368). -/
structure Ctx where
  id      : Nat
  fn      : Nat
  root    : Nat
  capbase : DWord
  arena   : Nat
  arenaN  : Nat
  tenant  : Bool
  table   : Nat
  slots   : Nat
  histva  : Nat
  admva   : Nat
  admN    : Nat
  dirs    : List Dir
  res     : Sparse Res
  /-- history: incarnation i of slot k at 16·k + i, the long name with VALID in bit 127 (R243) -/
  hist    : Sparse QWord
  adms    : List Adm
  /-- key and slot of every resident, admitting or departing object -/
  index   : List (Nat × Nat)
  /-- the arena granules taken: slot, first granule, count -/
  runs    : List (Nat × Nat × Nat)
  time    : Nat
  /-- a launch with LOCALPTR has run (R243) -/
  localptr : Bool
  /-- a supervisor context (R355) -/
  super   : Bool
  /-- torn down (R418) -/
  dead    : Bool
  deriving DecidableEq, Repr

/-- An entry of a die's name cache (R244). -/
structure NcEnt where
  ctx : Nat
  key : Nat
  slot : Nat
  inc : Nat
  gen : Nat
  kind : Nat
  extent : Nat
  deriving DecidableEq, Repr

/-- Launch states (R339). -/
inductive LState
  | pending | ready | active | completed | cancelled
  deriving DecidableEq, Repr

/-- An ordered stream of a launch (R198, R291, R415). -/
structure OStream where
  used : Bool
  op   : Nat
  typ  : Nat
  dst  : Nat
  next : Nat
  len  : Nat
  addr : DWord
  off  : DWord
  /-- indices already counted and units that contributed -/
  seen : List Nat
  deriving DecidableEq, Repr

/-- A vacated unit on a resume list: index, context image offset and image bytes (R345, R369), with the unit as it stood
for what the image has no place for (log 25); none for a unit that came with a migration record. -/
structure Vac where
  idx  : Nat
  save : Nat
  size : Nat
  unit : Option Unit
  deriving DecidableEq, Repr

/-- Groups of a vacated unit: those that were live, or the `n` of a unit known from its image alone. -/
def Vac.count (v : Vac) (n : Nat) : Nat := match v.unit with | some u => (u.grps.filter (·.live)).length | none => n

/-- A launch (R333 to R345). -/
structure Launch where
  fn      : Nat
  lid     : Nat
  ctx     : Nat
  entry   : Nat
  n       : Nat
  g       : Nat
  vblk    : Nat
  a       : Nat
  cls     : Nat
  producer : Nat
  handler : Nat
  det     : Bool
  compat  : Bool
  localptr : Bool
  racechk : Bool
  strict  : Bool
  b       : Nat
  c       : Nat
  endpoint : Nat
  args    : Nat
  pred0   : Nat
  pred1   : Nat
  signal  : Nat
  budget  : Nat
  pcores  : Nat
  graph   : Nat
  phase   : Nat
  job     : Nat
  state   : LState
  failed  : Bool
  counter : Nat
  /-- next and end of each die's range (R342) -/
  ranges  : List (Nat × Nat)
  resume  : List Vac
  pre     : List Word
  spent   : Nat
  readyAt : Nat
  taken   : List Nat
  streams : Sparse OStream
  /-- indices ended (R291) -/
  ended   : List Nat
  /-- the endpoint as bound: CTL, HPC, MASK copy, MODEW, PERMVA, PAYVA (R296, R301) -/
  bound   : Bool
  ctl     : DWord
  hpc     : DWord
  mask    : DWord
  modew   : DWord
  permva  : DWord
  payva   : DWord
  held    : Bool
  /-- arena offset and bytes of the migration record of a held launch (R415) -/
  record  : Option (Nat × Nat)
  /-- indices of fresh tickets put first by a wake, and those taken so before their range came to them (R309) -/
  wake    : List Nat
  early   : List Nat
  /-- its signal and its level are still to learn of its end, once its last unit has stopped (R337, R338) -/
  owes    : Bool := false
  /-- what its ended units and commands knew, and what the raises of each vector knew (R314) -/
  know    : Know
  raised  : Sparse Know
  /-- HBM, pool and host as they stood when the launch packet came: changes of text since are told from these copies (R80) -/
  text    : Sparse Byte
  textPool : Sparse Byte
  textHost : Sparse Byte
  deriving DecidableEq, Repr

/-- A level: kind 1 graph, 2 phase, 3 job (R336). -/
structure Level where
  fn      : Nat
  kind    : Nat
  id      : Nat
  m       : Nat
  got     : Nat
  counter : Nat
  signal  : Nat
  ctx     : Nat
  parent  : Nat
  failed  : Bool
  cancelled : Bool
  deriving DecidableEq, Repr

/-- A data window (R381). -/
structure Window where
  off : Nat
  size : Nat
  ctx : Nat
  va : Nat
  rd : Bool
  wr : Bool
  /-- records still to be written until a withdrawal takes effect -/
  left : Option Nat
  deriving DecidableEq, Repr

/-- A route piece of an inbound write: its route, the page it lies in, and its bytes with space, address and virtual address (R382, R399). -/
structure RoutePiece where
  route : Nat
  page  : Nat
  cells : List (Nat × Nat × Nat × Byte)
  deriving DecidableEq, Repr

/-- An inbound posted write held or released at the ordering point, the window in which it came, and its pieces not yet acknowledged
(R381, R382). -/
structure InFlight where
  seq    : Nat
  w      : Inbound
  held   : Bool
  win    : Option Window
  pieces : List RoutePiece
  deriving DecidableEq, Repr

/-- A read of the data aperture that waits for earlier writes: its label, and the window in which it came (R381, R383). -/
structure InRead where
  label : Nat
  seq   : Nat
  win   : Option Window
  deriving DecidableEq, Repr

/-- A handle (R367, R390). -/
structure Handle where
  kind : Nat
  gen : Nat
  hid : Nat
  cookie : DWord
  ctx : Nat
  va : Nat
  len : Nat
  /-- bits: 0 read, 1 write, 2 atomic, 3 reduce -/
  rights : Nat
  deriving DecidableEq, Repr

/-- A completion of a read of an aperture: 0 successful, 1 Unsupported Request, 2 poisoned (R376, R381, R395). -/
structure Completion where
  fn : Nat
  label : Nat
  status : Nat
  data : List Byte
  deriving DecidableEq, Repr

/-- A PCI Express function of a tenant (R375 to R381, R392). -/
structure Func where
  enabled : Bool
  opened  : Bool
  ringVa  : Nat
  ringSz  : Nat
  /-- bytes written to the reply ring and bytes reported by RACK -/
  written : Nat
  racked  : Nat
  consumed : Nat
  stopped : Bool
  /-- bytes of the frame being received -/
  frame   : List Byte
  /-- records that wait for room in the ring -/
  replies : List (List Byte)
  windows : Sparse Window
  handles : List Handle
  /-- HGEN of the entries that are free and have not been used (R367) -/
  hgen    : Nat
  /-- outstanding AGENT requests: tag and handle; and those that have completed, with their status (R380) -/
  agent   : List (Nat × DWord)
  agentDone : List (Nat × DWord × Nat)
  inflight : List InFlight
  reads   : List InRead
  seq     : Nat
  /-- completion history: launch identifier and whether it failed, newest first (R339) -/
  history : List (Nat × Bool)
  /-- completions sent to the host -/
  completions : List Completion
  deriving DecidableEq, Repr

/-- A pool range entry (R386). -/
structure PoolRange where
  valid : Bool
  port : Nat
  w : Bool
  fnmask : Word
  hpa : Nat
  size : Nat
  base : Nat
  deriving DecidableEq, Repr

/-- One virtual channel of an optical port (R389). -/
structure Chan where
  sent : Nat
  freed : Nat
  peerFreed : Nat
  peerSent : Nat
  reported : Nat
  deriving DecidableEq, Repr

/-- An optical port (R389, R405): rate in Gb/s, 0 when down. -/
structure Port where
  rate : Nat
  req : Chan
  rep : Chan
  downs : Nat
  deriving DecidableEq, Repr

/-- What a request of this module is for (R392, R393). -/
inductive ReqFor
  | cmd (u : UKey) (agent off : Nat)
  | fetch (ctx slot : Nat)
  | writeBack (ctx slot : Nat)
  | depart
  deriving DecidableEq, Repr

/-- A request of this module that has no reply yet (R392). -/
structure OutReq where
  fn : Nat
  dst : Nat
  req : FabReq
  what : ReqFor
  /-- orphaned by a function reset (R394) -/
  orphan : Bool
  sent : Bool
  deriving DecidableEq, Repr

/-- A message that waits for credit on the port it leaves through: a request passed on, or a reply (R388, R389). -/
inductive FabMsg
  | req (r : FabReq)
  | rep (r : FabReply)
  deriving DecidableEq, Repr

/-- An entry of the duplicate filter and reply cache of a source (R392). -/
structure Seen where
  srcMod : Nat
  srcFn : Nat
  id : Nat
  done : Bool
  code : Nat
  data : List Byte
  deriving DecidableEq, Repr

/-- A quantum table entry (R347). -/
structure Quantum where
  valid : Bool
  fn : Nat
  weight : Nat
  quant : Nat
  deriving DecidableEq, Repr

/-- A firmware bank (R408): header and body bytes. -/
structure Bank where
  image : List Byte
  deriving DecidableEq, Repr

/-- A compute die (R404, R406, R407). -/
structure Die where
  account : Int
  /-- permits asked and not granted, in order: the command, or a core's pass (agent 32) -/
  permits : List (UKey × Nat × Nat)
  ncache  : List NcEnt
  fence   : DWord
  energy  : DWord
  pwait   : DWord
  sramC   : Nat
  sramU   : Nat
  mchecks : Nat
  deriving DecidableEq, Repr

/-- Who issues: a group of a unit, and the entry's place in its frontier. -/
structure Issuer where
  u    : UKey
  gid  : Nat
  ent  : Nat
  /-- the word issued -/
  word : Nat
  deriving DecidableEq, Repr

/-- Everything the manual gives the machine. -/
structure State where
  /-- HBM, pool, host and vault bytes; a pool byte by its port, in bit 64, and its host physical address (R386); vault byte o of
  vault v at v·2^22 + o (R4, R38) -/
  hbm     : Sparse Byte
  pool    : Sparse Byte
  host    : Sparse Byte
  vaults  : Sparse Byte
  /-- uncorrectable bytes: space 0 HBM, 1 pool, 2 host, 3 vault, at space·2^66 + address (R402) -/
  marks   : Sparse Bool
  /-- check values known not to match: block of 256 bytes (R395) -/
  badCrc  : Sparse Bool
  units   : List Unit
  /-- cores that differ from a core at rest (R2: 512 of them) -/
  cores   : Sparse Core
  dies    : Sparse Die
  ctxs    : List Ctx
  /-- the vault sections that the runtime has loaded, by context and entry; a kernel that is not among them has none (R23, R89, log 35) -/
  sections : List ((Nat × Nat) × List Byte)
  launches : List Launch
  levels  : List Level
  funcs   : Sparse Func
  quanta  : List Quantum
  /-- a table written while an entry is in force (R347) -/
  quantaNext : Option (List Quantum)
  /-- entry in force and quanta run, and the tenant (R348) -/
  slice   : Nat
  quantaRun : Nat
  tenant  : Option Nat
  /-- vacated units that a wake has put at the front of their class: function, launch and index (R309) -/
  front   : List (Nat × Nat × Nat)
  pools   : List PoolRange
  poolUp  : List Bool
  /-- commands queued on the copy engines in the order of their turns: engines 4d to 4d + 3 of die d, and 32 to 39 of the I/O die (R283) -/
  engines : Sparse (List (UKey × Nat))
  /-- pool lines held in the line cache, by line number (R385) -/
  poolCache : List Nat
  ports   : List Port
  routes  : Sparse Nat
  ident   : Nat
  /-- reconfiguration in progress (R388) -/
  phasing : Bool
  outReqs : List OutReq
  nextId  : Sparse Nat
  /-- requests that have timed out and have had no reply: function, destination and identifier (R392, R393) -/
  unack   : List (Nat × Nat × Nat)
  /-- messages that wait for credit (R389) -/
  transit : List FabMsg
  seen    : List Seen
  lowack  : Sparse Nat
  absorbed : Nat
  /-- granules owned by units, and whether by an access of the versioned tile forms (R158, R322) -/
  owned   : List (Nat × UKey × Bool)
  /-- releases that bytes hold, keyed as the marks are (R314) -/
  relMem  : Sparse (List Released)
  limit   : Nat
  emergency : Bool
  stretched : Nat
  /-- the counter of free values at the start of the emergency in progress (R407) -/
  emergencyAt : Nat
  emergencies : Nat
  energy  : DWord
  hbmC    : Nat
  hbmU    : Nat
  banks   : List Bank
  active  : Nat
  rollback : Nat
  loading : List (Nat × List Byte)
  loadNew : Bool
  /-- a switch in progress: function, tag and channel of its reply (R411) -/
  switching : Option (Nat × Nat × Nat)
  capGen  : Nat
  powered : Bool
  /-- counter of free values at the last power-on, from which CLK counts (R31) -/
  onTick  : Nat
  booted  : Bool
  /-- the group that issues in this step -/
  cur     : Option Issuer
  /-- the group whose second decoder has still to issue its entry, which waits as `Wait.second` (R226) -/
  second  : Option (UKey × Nat)
  /-- the group in whose cycle two entries issue, and the group as it stood before the word that has grown its frontier past eight
  entries in that cycle (R229) -/
  pair    : Option (UKey × Nat)
  grown   : Option Group
  /-- steps that are due, in no order (log 3) -/
  agenda  : List Instr
  /-- counter of free values (log 16) -/
  tick    : Nat
  deriving DecidableEq, Repr

/-- A barrier object at the start of a unit of `n` groups (R177). -/
def Bar.start (n : Nat) : Bar :=
  { stat := 0, lstat := 0, memb := BitVec.ofNat 32 (2 ^ n - 1), ph := 0, expect := n, count := 0, ltrap := false, trapf := false }

/-- An unbound stream (R202). -/
def Stream.start : Stream :=
  { failed := 0, filled := 0, base := 0, slotb := 0, nm1 := 0, head := 0, nfill := 0, npop := 0, bound := false }

def IntState.start : IntState := { pend := 0, count := [], pay := [] }
def Race.start : Race := { clk := [], far := [], rel := [], fRel := [], fAcq := [], hist := [] }

/-- A core at rest: nothing placed, planes zero and RAW, mailbox and TLB empty (R25, R270, R356). -/
def Core.start : Core :=
  { lastSel := [], picked := [], plane := [], planet := [], planeq := [], holder := none, mq := [], pass := none, prevPl := none,
    passn := 0, squares := 0, fq := [], mbox := [], mpos := 0, morder := [], mwait := [], hold := [], reports := [], port := [],
    portBusy := false, tlb := [], bank := 0, mknow := [], plknow := [] }

def Die.start : Die :=
  { account := 0, permits := [], ncache := [], fence := 0, energy := 0, pwait := 0, sramC := 0, sramU := 0, mchecks := 0 }

/-- A free residency slot (R241). -/
def Res.start : Res :=
  { state := .free, inc := 0, kind := 0, dirty := false, w := false, pin := 0, gen := 0, domain := 0, serial := 0,
    backva := 0, extent := 0, filled := 0, dirtyPg := [], time := 0, cpin := 0, was := none, hsp := 0, homemod := 0,
    home := 0, dirva := 0, forced := false, dstep := 0, wb := 0 }

def Func.start : Func :=
  { enabled := false, opened := false, ringVa := 0, ringSz := 0, written := 0, racked := 0, consumed := 0,
    stopped := false, frame := [], replies := [], windows := [], handles := [], hgen := 0, agent := [], agentDone := [], inflight := [], reads := [], seq := 0,
    history := [], completions := [] }

def Chan.start : Chan := { sent := 0, freed := 0, peerFreed := 0, peerSent := 0, reported := 0 }

/-- A port at full rate (R5, R405). -/
def Port.start : Port := { rate := 112, req := .start, rep := .start, downs := 0 }

def OStream.start : OStream :=
  { used := false, op := 0, typ := 0, dst := 0, next := 0, len := 0, addr := 0, off := 0, seen := [] }

/-- A frontier entry that has just been formed (R223, R227). -/
def Entry.new (pc : DWord) (prio : Nat) (mask : Word) : Entry :=
  { pc := pc, prio := prio, mask := mask, rjw := false, rjmask := 0, age := 0, bwa := false, agedAt := 0, wait := .none }

/-- A group with every register at the value it has at the start of a group (R19), without entries. -/
def Group.start (gid slot grant : Nat) : Group :=
  { gid := gid, slot := slot, live := true, grant := grant, v := [], vt := [], s := [], st := [], m := [], p := [],
    tid := [], ents := [], liven := grant, gstat := 0, uiepc := 0, cause := 0, epc := 0, frcnt := 0, skidN := 0,
    inh := false, sect := false, park := none, after := false, run := .running, scall := false, cont := none, fault := false,
    trapped := false, trapPc := 0, frec := [], tph := [], arrv := 0, fblk := none }

/-- The machine right after reset: unpowered, before POWER_ON, nothing placed, no step due (R410; logs 1, 2, 18). -/
def State.reset : State :=
  { hbm := [], pool := [], host := [], vaults := [], marks := [], badCrc := [], units := [], cores := [], dies := [],
    ctxs := [], sections := [], launches := [], levels := [], funcs := [], quanta := [], quantaNext := none, slice := 0, quantaRun := 0,
    tenant := none, front := [], pools := [], poolUp := [true, true], engines := [], poolCache := [], ports := List.replicate 32 .start,
    routes := [], ident := 0, phasing := false, outReqs := [], nextId := [], unack := [], transit := [], seen := [], lowack := [], absorbed := 0,
    owned := [], relMem := [], limit := 3200, emergency := false, stretched := 0, emergencyAt := 0, emergencies := 0, energy := 0, hbmC := 0, hbmU := 0,
    banks := [{ image := [] }, { image := [] }], active := 0, rollback := 0, loading := [], loadNew := true,
    switching := none, capGen := 0, powered := false, onTick := 0, booted := false, cur := none, second := none, pair := none, grown := none, agenda := [], tick := 0 }

end Sys2Proof.Machine
end

