-- ==== Sys2Proof/Machine/Mem.lean ====
section
/-! DEFINITION. Memory and translation: bytes of the four spaces, page walks, the object aperture and vault
addresses, and the causes of R141 in their order. -/

namespace Sys2Proof.Machine

/-- A trap about to be taken: cause code, DETAIL, ESTAT, FADDR, and EPC where it is not the instruction (R363). -/
structure Trap where
  code   : Nat
  detail : Nat := 0
  estat  : Nat := 0
  faddr  : DWord := 0
  epc    : Option DWord := none
  deriving DecidableEq, Repr

/-- Why an instruction does not complete in this step. -/
inductive Stop
  | trap (t : Trap)
  /-- the word has completed with this effect and then traps with EPC at the next word (R363) -/
  | doneTrap (s : State) (t : Trap)
  | wait (w : Wait)
  /-- the trap of a word, with a change it has made to what another unit of the machine remembers of it -/
  | trapWith (s : State) (t : Trap)
  /-- the word waits, with a change it has made to the state of another unit of the machine -/
  | waitWith (s : State) (w : Wait)
  | fault (f : Fault)
  deriving DecidableEq, Repr

namespace C
/-- Trap cause codes (R363). -/
def ILLOP := 0x01
def PRIV := 0x02
def FORMAT := 0x03
def ALIGN := 0x04
def XLATE := 0x05
def PERM := 0x06
def BOUNDS := 0x07
def STALEPTR := 0x08
def STALENAME := 0x09
def NAMEFMT := 0x0A
def PTRWRAP := 0x0B
def MMX := 0x0C
def STOREFLT := 0x0D
def COPYISSUE := 0x0E
def LOSTDEF := 0x0F
def SATARM := 0x10
def REJOINDL := 0x11
def SCOPE := 0x12
def WATCHDOG := 0x13
def ECC := 0x14
def BRK := 0x15
def SWTRAP := 0x16
def SIBHALT := 0x17
def UIDENY := 0x18
def SECOND := 0x19
def CANCEL := 0x1A
def TAGBUSY := 0x1B
end C

namespace St
/-- Engine status codes (R175). -/
def OK := 0x0
def ECC := 0x1
def SQUARE := 0x2
def STALEHANDLE := 0x3
def PARTIAL := 0x4
def DEPARTED := 0x5
def REMOTEDOWN := 0x6
def TIMEOUT := 0x7
def NOATOMIC := 0x8
def PERM := 0x9
def BOUNDS := 0xA
def CANCELLED := 0xB
def RESET := 0xC
def CHECKVAL := 0xD
def LOSTDEF := 0xE
def XLATE := 0xF
end St

/-- A trap with the lane of the lowest lane at fault in its detail. -/
def Trap.lane (code l : Nat) (faddr : Nat) (more : Nat := 0) : Trap :=
  { code := code, detail := l + more, faddr := BitVec.ofNat 64 faddr }

abbrev Exc := Except Stop

def stop (t : Trap) : Exc α := .error (.trap t)

/-- Sign extension of the low `w` bits of a number. -/
def sext (w v : Nat) : Int := if v % 2 ^ w < 2 ^ (w - 1) then (v % 2 ^ w : Int) else (v % 2 ^ w : Int) - 2 ^ w

/-- The residue of an integer modulo `2 ^ w`, as a number. -/
def wrap (w : Nat) (i : Int) : Nat := (i % (2 ^ w : Int)).toNat

/-- Lanes of a mask, ascending. -/
def lanesOf (m : Word) : List Nat := (List.range 32).filter fun i => m.getLsbD i

/-- Bits `hi` to `lo` of a number. -/
def bits (v hi lo : Nat) : Nat := v / 2 ^ lo % 2 ^ (hi + 1 - lo)

/-! ## Bytes -/

/-- What a byte reads as that nothing has written (log 1). -/
def unwritten : Byte := 0

/-- Key of a byte in the tables of marks: space 0 HBM, 1 pool, 2 host, 3 vault. -/
def markKey (sp a : Nat) : Nat := sp * 2 ^ 66 + a

/-- The table of a space. -/
def State.space (s : State) (sp : Nat) : Sparse Byte :=
  if sp = 0 then s.hbm else if sp = 1 then s.pool else if sp = 2 then s.host else s.vaults

def State.setSpace (s : State) (sp : Nat) (t : Sparse Byte) : State :=
  if sp = 0 then { s with hbm := t } else if sp = 1 then { s with pool := t }
  else if sp = 2 then { s with host := t } else { s with vaults := t }

/-- Reads one byte. -/
def State.rd (s : State) (sp a : Nat) : Byte := Sparse.get unwritten (s.space sp) a

/-- Key of the block of 256 bytes a byte lies in (R395). -/
def crcKey (sp a : Nat) : Nat := sp * 2 ^ 66 + a / 256

/-- Writes one byte; a byte written is no longer marked uncorrectable (R402), the check value of its block is computed afresh (R395),
and it holds none of the releases of the value that it replaces (R314). -/
def State.wr (s : State) (sp a : Nat) (b : Byte) : State :=
  let s := s.setSpace sp (Sparse.set unwritten (s.space sp) a b)
  { s with marks := Sparse.set false s.marks (markKey sp a) false, badCrc := Sparse.set false s.badCrc (crcKey sp a) false,
           relMem := Sparse.set [] s.relMem (markKey sp a) [] }

/-- Reads `n` bytes, the least significant first (R9). -/
def State.rdN (s : State) (sp a : Nat) : Nat → Nat
  | 0 => 0
  | n + 1 => (s.rd sp a).toNat + 256 * s.rdN sp (a + 1) n

/-- Writes the low `n` bytes of a number (R9). -/
def State.wrN (s : State) (sp a : Nat) : Nat → Nat → State
  | 0, _ => s
  | n + 1, v => (s.wr sp a (BitVec.ofNat 8 v)).wrN sp (a + 1) n (v / 256)

def State.rdBytes (s : State) (sp a n : Nat) : List Byte := (List.range n).map fun i => s.rd sp (a + i)

def State.wrBytes (s : State) (sp a : Nat) : List Byte → State
  | [] => s
  | b :: bs => (s.wr sp a b).wrBytes sp (a + 1) bs

/-- Whether some byte of a range holds uncorrectable data (R402). -/
def State.marked (s : State) (sp a n : Nat) : Bool :=
  s.marks.any fun e => markKey sp a ≤ e.1 && e.1 < markKey sp a + n && e.2

/-- The 64-byte lines that `n` bytes lie in. -/
def linesAt (a n : Nat) : List Nat := (List.range ((a + n - 1) / 64 + 1 - a / 64)).map (a / 64 + ·)

/-- Whether the switch refuses one of the pool lines of an access (R386). -/
def State.poolRefuses (s : State) (a n : Nat) : Bool := (linesAt a n).any (Config.switchRefuses s.tick)

/-- Whether data read from a range is uncorrectable, or comes poisoned from the pool (R386, R402). -/
def State.spoilt (s : State) (sp a n : Nat) : Bool :=
  s.marked sp a n || (sp == 1 && (linesAt a n).any (Config.poolPoisoned s.tick))

/-- Whether the space has this address: HBM has 48 GiB on each of eight stacks; the pool has what its two ports reach (R4, R382,
R386). -/
def physExists (sp a : Nat) : Bool :=
  if sp = 0 then a < 2 ^ 39 && a % 2 ^ 36 < 48 * 2 ^ 30
  else if sp = 1 then a < 2 ^ 65
  else if sp = 3 then a / 2 ^ 22 < 512 && a % 2 ^ 22 < 3 * 2 ^ 20
  else a < 2 ^ 64

/-! ## Finding agents -/

def superFn : Nat := 32

/-- The unit that stands for the supervisor group of a core (R2, R220). -/
def superKey (core : Nat) : UKey := { fn := superFn, lid := core, idx := 0 }

def isSuper (k : UKey) : Bool := k.fn == superFn

def State.unit? (s : State) (k : UKey) : Option Unit := s.units.find? fun u => u.key == k

def State.modUnit (s : State) (k : UKey) (f : Unit → Unit) : State :=
  { s with units := s.units.map fun u => if u.key == k then f u else u }

def State.setUnit (s : State) (u : Unit) : State := s.modUnit u.key fun _ => u

def Unit.grp? (u : Unit) (gid : Nat) : Option Group := u.grps.find? fun g => g.live && g.gid == gid

def Unit.modGrp (u : Unit) (gid : Nat) (f : Group → Group) : Unit :=
  { u with grps := u.grps.map fun g => if g.live && g.gid == gid then f g else g }

def State.modGrp (s : State) (k : UKey) (gid : Nat) (f : Group → Group) : State := s.modUnit k fun u => u.modGrp gid f

def State.core (s : State) (c : Nat) : Core := Sparse.get .start s.cores c
def State.setCore (s : State) (c : Nat) (v : Core) : State := { s with cores := Sparse.set .start s.cores c v }
def State.modCore (s : State) (c : Nat) (f : Core → Core) : State := s.setCore c (f (s.core c))

def State.die (s : State) (d : Nat) : Die := Sparse.get .start s.dies d
def State.modDie (s : State) (d : Nat) (f : Die → Die) : State := { s with dies := Sparse.set .start s.dies d (f (s.die d)) }

def State.func (s : State) (f : Nat) : Func := Sparse.get .start s.funcs f
def State.modFunc (s : State) (f : Nat) (g : Func → Func) : State :=
  { s with funcs := Sparse.set .start s.funcs f (g (s.func f)) }

def State.ctx? (s : State) (c : Nat) : Option Ctx := s.ctxs.find? fun x => x.id == c && !x.dead
def State.modCtx (s : State) (c : Nat) (f : Ctx → Ctx) : State :=
  { s with ctxs := s.ctxs.map fun x => if x.id == c && !x.dead then f x else x }

def State.launch? (s : State) (fn lid : Nat) : Option Launch := s.launches.find? fun l => l.fn == fn && l.lid == lid
def State.modLaunch (s : State) (fn lid : Nat) (f : Launch → Launch) : State :=
  { s with launches := s.launches.map fun l => if l.fn == fn && l.lid == lid then f l else l }

/-- A vacated unit as it stood, where the machine still knows it (R345). -/
def State.vacUnit? (s : State) (k : UKey) : Option Unit :=
  ((s.launch? k.fn k.lid).bind fun l => l.resume.find? fun v => v.idx == k.idx).bind (·.unit)

def State.modVac (s : State) (k : UKey) (f : Unit → Unit) : State :=
  s.modLaunch k.fn k.lid fun l => { l with resume := l.resume.map fun v => if v.idx == k.idx then { v with unit := v.unit.map f } else v }

/-- Adds a step to those that are due, once. -/
def State.due (s : State) (i : Instr) : State := if s.agenda.contains i then s else { s with agenda := s.agenda ++ [i] }

/-- Adds a step even where the same step is due already. -/
def State.dueAgain (s : State) (i : Instr) : State := { s with agenda := s.agenda ++ [i] }

/-! ## Translation (R35, R37, R373, R374) -/

/-- A page-table entry's fields (R373). -/
structure Pte where
  mem : Nat
  addr : Nat
  size : Nat
  dx : Bool
  chk : Bool
  x : Bool
  w : Bool
  rd : Bool
  leaf : Bool
  v : Bool
  deriving DecidableEq, Repr

def pteOf (e : Nat) : Pte :=
  { mem := bits e 55 52, addr := bits e 51 12 * 4096, size := bits e 11 8, dx := e.testBit 6, chk := e.testBit 5,
    x := e.testBit 4, w := e.testBit 3, rd := e.testBit 2, leaf := e.testBit 1, v := e.testBit 0 }

/-- A page size code's level and log2 of its bytes (R37). -/
def sizeInfo : Nat → Option (Nat × Nat)
  | 0 => some (1, 12) | 1 => some (1, 14) | 2 => some (1, 16) | 3 => some (1, 18) | 4 => some (1, 20)
  | 5 => some (2, 21) | 6 => some (2, 22) | 7 => some (2, 24) | 8 => some (2, 26) | 9 => some (2, 28)
  | 10 => some (3, 30) | 11 => some (3, 32) | _ => none

/-- The index of a level in an address (R37). -/
def levelIndex (va level : Nat) : Nat := if level = 5 then bits va 55 48 else va / 2 ^ (12 + 9 * (level - 1)) % 512

/-- Walks from a table of a level: the leaf, or the level at which the walk fails (R373). -/
def walkFrom (s : State) (va : Nat) : Nat → Nat → Except Nat Pte
  | 0, _ => .error 1
  | level + 1, table =>
    let e := s.rdN 0 (table + 8 * levelIndex va (level + 1)) 8
    let p := pteOf e
    if !p.v || e / 2 ^ 56 != 0 || e.testBit 7 then .error (level + 1)
    else if p.leaf then
      match sizeInfo p.size with
      | none => .error (level + 1)
      | some (l, k) => if l = level + 1 && p.addr % 2 ^ k = 0 && p.mem ≤ 2 then .ok p else .error (level + 1)
    else if level = 0 || p.size != 0 then .error (level + 1)
    else walkFrom s va level p.addr

/-- The leaf of an ordinary address in a context; the first 64 KiB are never mapped, and an address that has a bit above bit 55 is
no ordinary one (R35). DESIGN CHOICE: an access to those 64 KiB reports level 1 in DETAIL, for the manual names no level there
(R141, log 74). -/
def walk (s : State) (c : Ctx) (va : Nat) : Except Nat Pte :=
  if 2 ^ 56 ≤ va then .error 0 else if va < 0x10000 then .error 1 else walkFrom s va 5 c.root

/-- The physical place of an address in a leaf. -/
def Pte.phys (p : Pte) (va : Nat) : Nat × Nat :=
  match sizeInfo p.size with
  | some (_, k) => (p.mem, p.addr + va % 2 ^ k)
  | none => (p.mem, p.addr)

/-- Whether a TLB entry serves an address: it lies in the part of the page whose replica was walked, and above the addresses
that are never mapped (R35, R37, R374). -/
def TlbEnt.serves (t : TlbEnt) (ctx va : Nat) : Bool := t.ctx == ctx && 0x10000 ≤ va && t.part ≤ va && va < t.part + t.span

/-- The leaf an access by a core uses: a translation the TLB still holds may be used in place of the walk's (log 7). -/
def leafFor (s : State) (core : Nat) (c : Ctx) (va : Nat) : Except Nat Pte :=
  let fresh := walk s c va
  match (s.core core).tlb.find? fun t => t.serves c.id va with
  | none => fresh
  | some t =>
    let old := pteOf t.pte.toNat
    if fresh = .ok old then fresh else if Config.staleTlb (s.tick * 2 ^ 64 + va) then .ok old else fresh

/-- Base of the supervisor's regions (R355). -/
def svbase : Nat := 0x00F0000000000000

/-- The slot whose window block an offset from SVBASE lies in, and the offset within it (R355). -/
def windowSlot (off : Nat) : Option (Nat × Nat) :=
  if 0x100000 ≤ off && off < 0x100000 + 63 * 0x10000 then some ((off - 0x100000) / 0x10000, off % 0x10000) else none

/-- Whether an address lies in a region that supervisor contexts map (R355). -/
def inWindow (va : Nat) : Bool :=
  svbase ≤ va && (va - svbase < 0x800 || (0x1000 ≤ va - svbase && va - svbase < 0x1040) || (windowSlot (va - svbase)).isSome)

/-- How an access uses memory (R373). -/
inductive Use
  | read | write | fetch
  deriving DecidableEq, Repr

/-- Where an access lands once its precise causes are passed: an ordinary address with the window rights that
replace the page's, or a vault byte. -/
inductive Loc
  | ord (va : Nat) (win : Option Bool)
  /-- a pool-direct window: pool address and whether it is writable -/
  | poolWin (a : Nat) (w : Bool)
  | vault (key : Nat)
  deriving DecidableEq, Repr

/-- The valid pool range that covers an access (R386). -/
def poolRange? (s : State) (fn a n : Nat) (write : Bool) : Option PoolRange :=
  s.pools.find? fun r => r.valid && r.base ≤ a && a + n ≤ r.base + r.size && r.fnmask.getLsbD fn && (!write || r.w)

/-- Where a pool address of a range lies: host physical memory at the range's port, the port in bit 64, so that ranges onto one host
physical address are one memory (R386). -/
def PoolRange.place (r : PoolRange) (a : Nat) : Nat := r.port * 2 ^ 64 + (r.hpa + (a - r.base)) % 2 ^ 64

/-- The port through which a place of the pool is reached. -/
def portAt (a : Nat) : Nat := a / 2 ^ 64

/-- A short pointer's parts (R36). -/
def ptrInc (va : Nat) : Nat := bits va 61 58
def ptrSlot (va : Nat) : Nat := bits va 57 40
def ptrOff (va : Nat) : Nat := va % 2 ^ 40
def isPtr (va : Nat) : Bool := va / 2 ^ 62 % 4 == 2

def mkPtr (inc slot off : Nat) : Nat := 2 ^ 63 + inc * 2 ^ 58 + slot * 2 ^ 40 + off

def Ctx.slotRes (c : Ctx) (k : Nat) : Res := Sparse.get .start c.res k
def Ctx.histEnt (c : Ctx) (slot inc : Nat) : QWord := Sparse.get 0 c.hist (16 * slot + inc)

/-- Whether an incarnation of a slot is current: the slot admits, is resident or departs at that INC. -/
def Res.current (r : Res) (inc : Nat) : Bool :=
  r.inc == inc && (r.state == .resident || r.state == .admitting || r.state == .departing)

/-- The rows 4 to 6 of R141 for an ordinary or aperture access of `n` bytes at `va` (R35, R36, R253). `spec` is the
specifier of the operand that carries the pointer; `l` the lane. -/
def resolveOrd (c : Ctx) (spec l va n : Nat) : Exc Loc :=
  if va / 2 ^ 56 = 0 then .ok (.ord va none)
  else if !isPtr va then stop (.lane C.XLATE l va)
  else
    let slot := ptrSlot va
    let inc := ptrInc va
    let r := c.slotRes slot
    if slot < c.slots && r.current inc then
      if r.state = .departing then .error (.wait (.fill slot l va))
      else if r.extent < ptrOff va + n then stop (.lane C.BOUNDS (l * 256) va)
      else if r.state = .admitting then .error (.wait (.fill slot l va))
      else if r.kind = 2 then .ok (.poolWin (r.backva + ptrOff va) r.w)
      else if r.filled < ptrOff va / 65536 * 65536 + 65536 && r.filled < r.extent then .error (.wait (.fill slot l va))
      else .ok (.ord (r.backva + ptrOff va) (some r.w))
    else if slot < c.slots && (c.histEnt slot inc).getLsbD 127 then
      stop { code := C.STALEPTR, detail := spec + (if spec < 0x100 then l * 2 ^ 9 else 0) + inc * 2 ^ 14 + slot * 2 ^ 18, faddr := BitVec.ofNat 64 va }
    else stop (.lane C.XLATE l va)

/-- Rows 9 to 11 of R141: translation, permission and uncorrectable data; the physical place and its leaf. -/
def landOrd (s : State) (core : Nat) (c : Ctx) (l : Nat) (loc : Loc) (n : Nat) (use : Use) : Except Trap (Nat × Nat × Option Pte) :=
  let perm (va : Nat) (e : Nat := 0) : Trap :=
    { code := C.PERM, detail := l + (if use = .write then 256 else 0) + (if use = .fetch then 512 else 0), estat := e,
      faddr := BitVec.ofNat 64 va }
  let pool (a va : Nat) (w : Bool) (p : Option Pte) : Except Trap (Nat × Nat × Option Pte) :=
    if use = .write && !w then .error (perm va)
    else match poolRange? s c.fn a n (use = .write) with
    | none => .error (perm va)
    | some r =>
      if !(s.poolUp.getD r.port true) then .error { Trap.lane C.XLATE l va with estat := 6 }
      else if s.poolRefuses (r.place a) n then .error (perm va 9)
      else if use != .write && s.spoilt 1 (r.place a) n then .error (.lane C.ECC l va)
      else .ok (1, r.place a, p)
  match loc with
  | .vault key => if use != .write && s.marked 3 key n then .error (.lane C.ECC l key) else .ok (3, key, none)
  | .poolWin a w => pool a a w none
  | .ord va win =>
    if inWindow va then if c.super && use != .fetch then .ok (4, va - svbase, none) else .error (perm va)
    else match leafFor s core c va with
    | .error lv => .error (.lane C.XLATE l va (lv * 256))
    | .ok p =>
      let ok := match use with
        | .fetch => p.x && win.isNone
        | .write => win.getD p.w
        | .read => win.isSome || p.rd
      if !ok then .error (perm va)
      else
        let (m, a) := p.phys va
        if m = 1 then pool a va true (some p)
        else if use != .write && s.marked m a n then .error (.lane C.ECC l va)
        else .ok (m, a, some p)

/-- The number of a core's physical vault (R38). -/
def vaultNo (core : Nat) : Nat := core

/-- The key of byte `off` of vault `v`. -/
def vaultKey (v off : Nat) : Nat := v * 2 ^ 22 + off

/-- Whether a physical vault byte lies in an allocation of a unit of the context (R39). -/
def vaultOwned (s : State) (ctx v off : Nat) : Bool :=
  s.units.any fun u => !isSuper u.key && u.ctx == ctx && vaultNo u.core == v && u.vault ≤ off && off < u.vault + u.vsize

/-- Rows 1, 6 and 7 of R141 for a vault access: `base` 32 bits, `disp` the sum of offset and displacement (R38, R39,
R76, R363). -/
def resolveVault (s : State) (u : Unit) (l base : Nat) (disp : Int) (n align : Nat) (write : Bool) : Exc Loc :=
  let off : Int := (base % 2 ^ 22 : Nat) + disp
  if off < 0 || off + n > 2 ^ 22 then stop (.lane C.BOUNDS (l * 256) base)
  else
    let o := off.toNat
    let va := base / 2 ^ 22 * 2 ^ 22 + o
    if va % align != 0 then stop (.lane C.ALIGN l va)
    else if base / 2 ^ 31 = 0 && base / 2 ^ 22 % 512 = 0x1FF then
      if u.vsize < o + n then stop (.lane C.BOUNDS (l * 256) va)
      else .ok (.vault (vaultKey (vaultNo u.core) (u.vault + o)))
    else
      let v := base / 2 ^ 22 % 512
      if 0x300000 < o + n then stop (.lane C.BOUNDS (l * 256) va)
      else if (List.range n).all fun i => vaultOwned s u.ctx v (o + i) then .ok (.vault (vaultKey v o))
      else stop (.lane C.PERM l va (if write then 256 else 0))

/-- The place of pool bytes that can be reached for a function: a valid range covers them, its link is up, and the switch does not
refuse them (R386); or the status code of what refuses them. -/
def poolPlace (s : State) (fn a n : Nat) (write : Bool) : Except Nat Nat :=
  match poolRange? s fn a n write with
  | none => .error St.PERM
  | some r =>
    if !s.poolUp.getD r.port true then .error St.REMOTEDOWN
    else if s.poolRefuses (r.place a) n then .error St.PERM
    else .ok (r.place a)

/-- The physical place of an address the residency unit, the bench or the interrupt unit reaches in a context, without
a core's TLB and without user permission (R240, R296); pool memory as its ranges and links allow, and a poisoned line gives a
read nothing (R386). -/
def sysPhys (s : State) (c : Ctx) (va : Nat) (write : Bool := false) : Option (Nat × Nat × Pte) :=
  match walk s c va with
  | .ok p =>
    let (m, a) := p.phys va
    if m = 1 then
      match poolPlace s c.fn a 1 write with
      | .ok x => if !write && s.spoilt 1 x 1 then none else some (1, x, p)
      | .error _ => none
    else some (m, a, p)
  | .error _ => none

/-- Reads `n` bytes one at a time through a context; none where one does not translate. -/
def sysRead (s : State) (c : Ctx) (va : Nat) : Nat → Option Nat
  | 0 => some 0
  | n + 1 => do
    let (m, a, _) ← sysPhys s c va
    let r ← sysRead s c (va + 1) n
    return (s.rd m a).toNat + 256 * r

/-- Writes `n` bytes through a context; a byte that does not translate is left. -/
def sysWrite (s : State) (c : Ctx) (va : Nat) : Nat → Nat → State
  | 0, _ => s
  | n + 1, v =>
    let s := match sysPhys s c va true with
      | some (m, a, _) => s.wr m a (BitVec.ofNat 8 v)
      | none => s
    sysWrite s c (va + 1) n (v / 256)

def sysWriteBytes (s : State) (c : Ctx) (va : Nat) : List Byte → State
  | [] => s
  | b :: bs => sysWriteBytes (sysWrite s c va 1 b.toNat) c (va + 1) bs

end Sys2Proof.Machine
end

