-- ==== Sys2Proof/Machine/Frontier.lean ====
section
/-! DEFINITION. The frontier of a group: rank, merging, growth beyond eight entries, offcut records (R128, R223 to
R229), and waits at a rejoin (R136, R137). -/

namespace Sys2Proof.Machine

/-- The lowest lane of a mask; 32 when it is empty. -/
def lowLane (m : Word) : Nat := ((List.range 32).find? fun i => m.getLsbD i).getD 32

/-- Rules 2 to 4 of R225. -/
def Entry.above (a b : Entry) : Bool :=
  if a.prio != b.prio then b.prio < a.prio
  else if a.pc != b.pc then a.pc < b.pc
  else lowLane a.mask < lowLane b.mask

/-- The whole of R225. -/
def Entry.ranks (a b : Entry) : Bool :=
  let aa := 4088 ≤ a.age
  let bb := 4088 ≤ b.age
  if aa && !bb then true
  else if !aa && bb then false
  else if aa && bb && a.agedAt != b.agedAt then a.agedAt < b.agedAt
  else a.above b

/-- Inserts by a rank. -/
def insertBy (r : Entry → Entry → Bool) (e : Entry) : List Entry → List Entry
  | [] => [e]
  | f :: fs => if r e f then e :: f :: fs else f :: insertBy r e fs

def sortBy (r : Entry → Entry → Bool) : List Entry → List Entry
  | [] => []
  | e :: es => insertBy r e (sortBy r es)

/-- The entries in rank order (R225). -/
def ranked (es : List Entry) : List Entry := sortBy Entry.ranks es

/-- The lanes still present (R223). -/
def presentLanes (es : List Entry) : Word := es.foldl (fun m e => m ||| e.mask) 0

/-- Two entries that merge: equal PC and priority, neither waiting at a rejoin (R128); the second decoder's entry stays apart until its
cycle is over (R95). -/
def Entry.joins (a b : Entry) : Bool :=
  a.pc == b.pc && a.prio == b.prio && !a.rjw && !b.rjw && a.wait != .second && b.wait != .second

/-- The entry two merging entries form (R128, R227); a barw whose arrival is taken stays taken (R179), and a
raise made stays made. -/
def Entry.join (a b : Entry) : Entry :=
  let w := match a.wait, b.wait with
    | .barw x t, _ => Wait.barw x t
    | _, .barw x t => Wait.barw x t
    | .raise n, _ => Wait.raise n
    | _, .raise n => Wait.raise n
    | _, _ => Wait.none
  { Entry.new a.pc a.prio (a.mask ||| b.mask) with bwa := a.bwa || b.bwa, wait := w }

/-- Puts an entry into a frontier, merging it (R128). -/
def addEntry (e : Entry) : List Entry → List Entry
  | [] => if e.mask = 0 then [] else [e]
  | f :: fs => if e.mask = 0 then f :: fs else if e.joins f then f.join e :: fs else f :: addEntry e fs

def addAll (es fs : List Entry) : List Entry := es.foldl (fun acc e => addEntry e acc) fs

/-- Removes the entry at a place. -/
def dropAt (n : Nat) (es : List Entry) : List Entry := es.eraseIdx n

/-- Bytes of an offcut record (R228). -/
def recBytes (n : Nat) : Nat := (16 + 4 * n + (n + 1) / 2 + 15) / 16 * 16

/-- Bytes the records of a unit take. -/
def offUsed (u : Unit) : Nat := u.off.foldl (fun t r => t + recBytes r.n) 0

/-- The predicates of a lane, p0 in bit 0 (R228). -/
def lanePreds (g : Group) (l : Nat) : Nat :=
  (List.range 7).foldl (fun t k => t + (if (Sparse.get 0 g.p k).getLsbD l then 2 ^ k else 0)) 0

/-- The record of a thread cut off (R228). -/
def offRec (g : Group) (n : Nat) (pc : DWord) (prio l : Nat) : OffRec :=
  { pc := pc, prio := prio, tid := Sparse.get 0 g.tid l, preds := lanePreds g l, n := n,
    vals := (List.range n).map fun r => Sparse.get 0 g.v (32 * r + l),
    tags := (List.range n).map fun r => Sparse.get .raw g.vt r, age := 0, clock := [] }

/-- The records of entries cut off (R229). -/
def cutRecs (g : Group) (n : Nat) (es : List Entry) : List OffRec :=
  es.flatMap fun e => (lanesOf e.mask).map fun l => offRec g n e.pc e.prio l

/-- Order and format of a factor command (R191). -/
def facNc (x : ModX) : Nat := x.f 44 43
def facF64 (x : ModX) : Bool := x.f 42 42 == 1

def rangeFrom (a n : Nat) : List Nat := (List.range n).map (a + ·)

def meets (xs ys : List Nat) : Bool := xs.any fun x => ys.contains x

/-- The vector registers a command holds until it completes (R168). -/
def Cmd.vregs (m : Cmd) : List Nat :=
  match m.ins with
  | .trsolve o x => rangeFrom (match o.a with | .v r => r | _ => 0) (Legal.vecRegs (facNc x) (facF64 x))
  | _ => []

/-- The vector registers that the commands of a group hold (R168). -/
def Unit.vregsHeld (u : Unit) (gid : Nat) : List Nat := u.cmds.flatMap fun m => if m.2.gid = gid then m.2.vregs else []

/-- What a frontier would become: kept entries and records, or a stop (R128, R229, R306). A cut reads v0 to v(LIVEN − 1) of its threads,
so that it waits for a command of the group that still writes one of them (R22, R168). While the second decoder's entry is still to
issue, the frontier is judged at the end of the cycle. -/
def growFrontier (u : Unit) (g : Group) (es : List Entry) : Exc (List Entry × List OffRec) :=
  if es.length ≤ 8 || es.any (·.wait == .second) then .ok (es, [])
  else if g.inh then stop { code := C.BOUNDS, detail := 2 }
  else
    let rs := sortBy Entry.above es
    let cut := rs.drop 8
    let need := (cut.map fun e => (lanesOf e.mask).length).sum * recBytes g.liven
    if u.offcut < need then stop { code := C.BOUNDS, detail := 1 }
    else if u.offcut < offUsed u + need then .error (.wait .offcut)
    else if meets (u.vregsHeld g.gid) (rangeFrom 0 g.liven) then .error (.wait .engine)
    else .ok (rs.take 8, cutRecs g g.liven cut)

/-! ## Rejoin waits -/

/-- Lanes of a group that wait at a rejoin at a PC (R136). -/
def waitingAt (es : List Entry) (pc : DWord) : Word :=
  es.foldl (fun m e => if e.rjw && e.pc == pc then m ||| e.mask else m) 0

/-- An entry's rejoin wait is complete (R136). -/
def Entry.rejoinDone (es : List Entry) (e : Entry) : Bool :=
  e.rjw && (e.rjmask &&& presentLanes es &&& ~~~(waitingAt es e.pc)) == 0

/-- Merges the waiting entries at `pc` whose condition holds and sends them on (R136). -/
def completeRejoin (es : List Entry) (pc : DWord) : List Entry :=
  let hit := es.filter fun e => e.pc == pc && e.rejoinDone es
  let rest := es.filter fun e => !(e.pc == pc && e.rejoinDone es)
  match hit with
  | [] => es
  | _ =>
    let mask := hit.foldl (fun m e => m ||| e.mask) 0
    let prio := hit.foldl (fun m e => max m e.prio) 0
    addEntry (.new (pc + 12) prio mask) rest

/-- Every entry waits at a rejoin and none can complete (R137). -/
def rejoinDead (es : List Entry) : Bool :=
  !es.isEmpty && es.all (fun e => e.rjw) && es.all (fun e => !e.rejoinDone es)

/-! ## The frontier block (R223, R224) -/

/-- A frontier entry as one 256-bit value (R223). -/
def entryNat (e : Entry) : Nat :=
  e.rjmask.toNat * 2 ^ 224 + e.bwa.toNat * 2 ^ 109 + min e.age 4088 * 2 ^ 97 + e.rjw.toNat * 2 ^ 96 + e.mask.toNat * 2 ^ 64
  + e.prio * 2 ^ 56 + e.pc.toNat % 2 ^ 56 / 4 * 4

/-- The entry a value says; aged entries keep the order of the block (R224, R225). -/
def entryOf (x place : Nat) : Entry :=
  { pc := BitVec.ofNat 64 (x % 2 ^ 56), prio := bits x 63 56, mask := BitVec.ofNat 32 (bits x 95 64), rjw := x.testBit 96,
    rjmask := BitVec.ofNat 32 (bits x 255 224), age := bits x 108 97, bwa := x.testBit 109,
    agedAt := if 4088 ≤ bits x 108 97 then place + 1 else 0, wait := .none }

/-- An entry as R223 has it: its reserved bits are zero, and AGE is at most 4,088. -/
def entryClean (x : Nat) : Bool := x % 4 == 0 && bits x 223 110 == 0 && bits x 108 97 ≤ 4088

/-- The block of 264 bytes: header, then entries in rank order (R224). -/
def frontierNat (es : List Entry) (liven : Nat) : Nat :=
  let rs := ranked es
  (rs.zipIdx.foldl (fun t (e, i) => t + entryNat e * 2 ^ (64 + 256 * i)) 0) + liven * 2 ^ 32 + rs.length

def frontierBlock (es : List Entry) (liven : Nat) : Sparse Byte := Sparse.setList 0 [] 0 (bytesOfNat 264 (frontierNat es liven))

/-- The frontier a block says, or the offset of the first field at fault (R224, R372). -/
def parseFrontier (x v : Nat) (full : Word) : Except Nat (List Entry × Nat) :=
  let n := x % 16
  let liven := bits x 40 32
  if x / 2 ^ 4 % 2 ^ 28 != 0 || n = 0 || 8 < n then .error 0
  else if bits x 63 41 != 0 || v < liven then .error 4
  else
    let raw := (List.range 8).map fun i => bits x (64 + 256 * i + 255) (64 + 256 * i)
    match (List.range 8).find? fun i => if i < n then !entryClean (raw.getD i 0) else raw.getD i 0 != 0 with
    | some i => .error (8 + 32 * i)
    | none =>
      let es := (raw.take n).zipIdx.map fun (r, i) => entryOf r i
      match (List.range n).find? fun i =>
        match es[i]? with
        | none => true
        | some e => e.mask == 0 || e.mask &&& ~~~full != 0 || (es.take i).any fun f => f.mask &&& e.mask != 0 || f.joins e || !f.ranks e with
      | some i => .error (8 + 32 * i)
      | none => .ok (es, liven)


end Sys2Proof.Machine
end

