-- ==== Sys2Proof/Machine/Ops.lean ====
section
/-! DEFINITION. The shared operations of every meaning: the issuing group's view, registers, barriers, the mailbox,
taking a trap (R352 to R357) and the return from one (R359, R360), and the ways a word ends. -/

namespace Sys2Proof.Machine

/-- The view of an issuing word: its unit, group and frontier entry, and the executing lanes (R67). -/
structure Cx where
  s   : State
  iss : Issuer
  u   : Unit
  g   : Group
  e   : Entry
  ex  : Word
  deriving DecidableEq, Repr

def Cx.pc (c : Cx) : DWord := c.e.pc
def Cx.lanes (c : Cx) : List Nat := lanesOf c.ex
/-- The lowest executing lane. -/
def Cx.l0 (c : Cx) : Nat := lowLane c.ex

/-- The predicate mask of a specifier number; p7 reads true (R20). -/
def Group.pmask (g : Group) (n : Nat) : Word := if n = 7 then BitVec.allOnes 32 else Sparse.get 0 g.p n

/-- Lanes of a mask that a guard lets execute (R67). -/
def guardLanes (g : Group) (grd : Nat) (act : Word) : Word :=
  let p := g.pmask (grd % 8)
  act &&& (if 8 ≤ grd then ~~~p else p)

/-- The view of the current issuer. -/
def view? (s : State) (grd : Nat) : Option Cx := do
  let iss ← s.cur
  let u ← s.unit? iss.u
  let g ← u.grp? iss.gid
  let e ← g.ents[iss.ent]?
  return { s := s, iss := iss, u := u, g := g, e := e, ex := guardLanes g grd e.mask }

/-- The launch of the issuer, if it has one. -/
def Cx.launch? (c : Cx) : Option Launch := c.s.launch? c.u.key.fn c.u.key.lid

def Cx.flag (c : Cx) (f : Launch → Bool) : Bool := match c.launch? with | some l => f l | none => false

/-- The context of a unit; a unit without one sees an empty address space. -/
def State.ctxOf (s : State) (u : Unit) : Ctx :=
  (s.ctx? u.ctx).getD
    { id := u.ctx, fn := 0, root := 0, capbase := 0, arena := 0, arenaN := 0, tenant := false, table := 0, slots := 0,
      histva := 0, admva := 0, admN := 0, dirs := [], res := [], hist := [], adms := [], index := [], runs := [],
      time := 0, localptr := false, super := false, dead := false }

def Cx.ctx (c : Cx) : Ctx := c.s.ctxOf c.u

/-- Groups of the unit as launched (R21). -/
def Cx.ngrp (c : Cx) : Nat := match c.launch? with | some l => l.g | none => 1

/-! ## Registers -/

def Group.setV (g : Group) (r l : Nat) (w : Word) : Group := { g with v := Sparse.set 0 g.v (32 * r + l) w }
def Group.getV (g : Group) (r l : Nat) : Word := Sparse.get 0 g.v (32 * r + l)
def Group.getS (g : Group) (r : Nat) : Word := Sparse.get 0 g.s r
def Group.setS (g : Group) (r : Nat) (w : Word) : Group := { g with s := Sparse.set 0 g.s r w }
def Group.getM (g : Group) (r : Nat) : Word := Sparse.get 0 g.m r
def Group.setM (g : Group) (r : Nat) (w : Word) : Group := { g with m := Sparse.set 0 g.m r w }
def Group.vtag (g : Group) (r : Nat) : Tag := Sparse.get .raw g.vt r
def Group.stag (g : Group) (r : Nat) : Tag := Sparse.get .raw g.st r
def Group.setVtag (g : Group) (r : Nat) (t : Tag) : Group := { g with vt := Sparse.set .raw g.vt r t }
def Group.setStag (g : Group) (r : Nat) (t : Tag) : Group := { g with st := Sparse.set .raw g.st r t }
/-- Sets a predicate in the executing lanes; p7 is hard-wired (R20). -/
def Group.setP (g : Group) (n : Nat) (ex val : Word) : Group :=
  if 7 ≤ n then g else { g with p := Sparse.set 0 g.p n ((Sparse.get 0 g.p n &&& ~~~ex) ||| (val &&& ex)) }

/-- Writes register `r` in the executing lanes from a value per lane. -/
def Group.setVLanes (g : Group) (r : Nat) (f : Nat → Word) : List Nat → Group
  | [] => g
  | l :: ls => (g.setV r l (f l)).setVLanes r f ls

/-- The writes of `n` registers from `v r` upward: lane `l` takes the 32-bit pieces of `f l`. -/
def Group.setVRange (g : Group) (r : Nat) (tag : Tag) (f : Nat → Nat) (ls : List Nat) : Nat → Nat → Group
  | 0, _ => g
  | n + 1, k => ((g.setVLanes (r + k) (fun l => BitVec.ofNat 32 (f l / 2 ^ (32 * k))) ls).setVtag (r + k) tag).setVRange r tag f ls n (k + 1)

def Group.setSRange (g : Group) (r : Nat) (tag : Tag) (x : Nat) : Nat → Nat → Group
  | 0, _ => g
  | n + 1, k => ((g.setS (r + k) (BitVec.ofNat 32 (x / 2 ^ (32 * k)))).setStag (r + k) tag).setSRange r tag x n (k + 1)

/-- A mask of lanes from a test per lane. -/
def maskOf (f : Nat → Bool) (ls : List Nat) : Word := ls.foldl (fun m l => if f l then m ||| BitVec.ofNat 32 (2 ^ l) else m) 0

/-- Writes a destination of `n` registers: per-lane registers in the executing lanes, uniform ones once, from the
lowest executing lane; z discards (R20, R27, R67). -/
def Group.write (g : Group) (d : Opd) (n : Nat) (tag : Tag) (f : Nat → Nat) (ex : Word) : Group :=
  match d with
  | .v r => g.setVRange r tag f (lanesOf ex) n 0
  | .s r => g.setSRange r tag (f (lowLane ex)) n 0
  | .m r => g.setM r (BitVec.ofNat 32 (f (lowLane ex)))
  | .p r => g.setP r ex (maskOf (fun l => f l % 2 == 1) (lanesOf ex))
  | .sp _ | .res _ => g

/-- ORs flags into GSTAT (R30). -/
def Group.orFlags (g : Group) (fl : Nat) : Group := { g with gstat := g.gstat ||| BitVec.ofNat 64 fl }

/-- Flag bits of GSTAT (R30). -/
def fINV := 1
def fDZ := 2
def fOVF := 4
def fUNF := 8
def fINX := 16
def fSAT := 32
def fSCOPEDEM := 64

/-- Puts an edited group back. -/
def Cx.put (c : Cx) (g : Group) : State := c.s.modGrp c.u.key c.g.gid fun _ => g

/-- Puts an edited unit back. -/
def Cx.putU (c : Cx) (u : Unit) : State := c.s.setUnit u

/-! ## The fault record and the mailbox -/

/-- The bytes of a number into a byte table. -/
def putBytes (t : Sparse Byte) (off n v : Nat) : Sparse Byte := Sparse.setList 0 t off (bytesOfNat n v)

def getBytes (t : Sparse Byte) (off n : Nat) : Nat := natOfBytes (Sparse.getList 0 t off n)

/-- The word at an address as the group would fetch it; 0 where it cannot (R364). -/
def peekWord (s : State) (u : Unit) (pc : DWord) : Nat := (sysRead s (s.ctxOf u) pc.toNat 12).getD 0

/-- FREC of a group: its fault record in the save slot of its unit (R31, R368, R369). -/
def frecVA (s : State) (u : Unit) (gid : Nat) : DWord :=
  BitVec.ofNat 64 ((s.ctxOf u).arena + u.save + 0x100 + gid * 0x9000 + 0x8A00)

/-- The head of a fault record (R364). -/
def faultRec (u : Unit) (g : Group) (cause epc : DWord) (word faddr : Nat) : Sparse Byte :=
  let t := putBytes [] 0 8 cause.toNat
  let t := putBytes t 8 8 epc.toNat
  let t := putBytes t 16 12 word
  let t := putBytes t 28 1 g.skidN
  let t := putBytes t 29 1 g.slot
  let t := putBytes t 30 1 g.gid
  let t := putBytes t 32 8 faddr
  let t := putBytes t 40 8 u.key.idx
  putBytes t 48 8 g.frcnt.toNat

/-- The frontier entries as REJOINDL and WATCHDOG list them (R364). -/
def listEntries (t : Sparse Byte) (es : List Entry) : Sparse Byte :=
  (es.take 8).zipIdx.foldl (fun t (e, i) =>
    let o := 128 + 16 * i
    let t := putBytes t o 8 (e.pc.toNat % 2 ^ 56 / 4 * 4)
    let t := putBytes t (o + 8) 4 e.mask.toNat
    let t := putBytes t (o + 12) 1 e.prio
    putBytes t (o + 13) 1 e.rjw.toNat) t

/-- Writes a group's fault record into its save slot (R364). -/
def mirrorRec (s : State) (k : UKey) (gid : Nat) : State :=
  match s.unit? k with
  | none => s
  | some u => match u.grp? gid with
    | none => s
    | some g => sysWriteBytes s (s.ctxOf u) (frecVA s u gid).toNat (Sparse.getList 0 g.frec 0 256)

/-- CAUSE from its fields (R32). -/
def causeWord (t : Trap) : DWord := BitVec.ofNat 64 (t.code + t.estat % 256 * 2 ^ 8 + t.detail % 2 ^ 48 * 2 ^ 16)

/-- The entry of a mailbox that is free next in ring order, if any of the sixteen is (R357). -/
def mailFree? (c : Core) : Option Nat :=
  (List.range 16).map (fun i => (c.mpos + i) % 16) |>.find? fun i => getBytes c.mbox (128 * i) 4 == 0

/-- The bytes of a posted entry (R356). -/
def mailBytes (kind slot gid svc ctx fn idx cause epc frec key : Nat) (rec : List Byte) : List Byte :=
  bytesOfNat 4 (1 + kind * 2 ^ 8 + slot * 2 ^ 16 + gid * 2 ^ 24) ++ bytesOfNat 4 svc ++ bytesOfNat 4 ctx ++ bytesOfNat 4 fn
  ++ bytesOfNat 8 idx ++ bytesOfNat 8 cause ++ bytesOfNat 8 epc ++ bytesOfNat 8 frec ++ bytesOfNat 8 key ++ bytesOfNat 8 0
  ++ (rec ++ List.replicate 64 0).take 64

/-- Posts an entry into a core's mailbox; the caller has seen that one is free (R357). -/
def mailPost (c : Core) (bs : List Byte) : Core :=
  match mailFree? c with
  | none => c
  | some i => { c with mbox := Sparse.setList 0 c.mbox (128 * i) bs, mpos := (i + 1) % 16, morder := c.morder ++ [i] }

/-- Posts a group's fault now, or leaves its slot waiting for a free entry (R357). -/
def postNow (s : State) (u : Unit) (g : Group) : State :=
  let c := s.core u.core
  if (mailFree? c).isSome then
    s.setCore u.core (mailPost c
      (mailBytes 1 g.slot g.gid 0 u.ctx u.key.fn u.key.idx g.cause.toNat g.epc.toNat (frecVA s u g.gid).toNat 0 []))
  else s.setCore u.core { c with mwait := c.mwait ++ [g.slot] }

/-- The group in a slot of a core. -/
def slotGroup? (s : State) (core slot : Nat) : Option (Unit × Group) :=
  (s.units.filter fun u => u.core == core).findSome? fun u => (u.grps.find? fun g => g.live && g.slot == slot).map (u, ·)

/-- The entry kind, slot of a mailbox place. -/
def mailKind (c : Core) (i : Nat) : Nat := getBytes c.mbox (128 * i + 1) 1
def mailSlot (c : Core) (i : Nat) : Nat := getBytes c.mbox (128 * i + 2) 1

/-- Frees a mailbox entry: writes zero to bytes 0 to 3 (R357). -/
def mailClear (c : Core) (i : Nat) : Core :=
  { c with mbox := Sparse.setList 0 c.mbox (128 * i) (bytesOfNat 4 0), morder := c.morder.filter (· != i) }

/-- Posts what waited for a free entry: faults by slot, then core reports (R357). -/
def mailPump (s : State) (core : Nat) : State :=
  let c := s.core core
  match c.mwait with
  | slot :: rest =>
    if (mailFree? c).isNone then s
    else
      let s := s.setCore core { c with mwait := rest }
      match slotGroup? s core slot with
      | some (u, g) => if g.fault then postNow s u g else s
      | none => s
  | [] =>
    match c.reports with
    | (ctx, key, st) :: rest =>
      if (mailFree? c).isNone then s
      else
        let fn := match s.ctx? ctx with | some x => x.fn | none => 0
        s.setCore core (mailPost { c with reports := rest } (mailBytes 3 0 0 0 ctx fn 0 0 st.toNat 0 key []))
    | [] => s

/-- Posts the faults of some slots in turn (R353). -/
def postSlots (s : State) (core : Nat) (slots : List Nat) : State :=
  slots.foldl (fun s _ => mailPump s core) (s.modCore core fun c => { c with mwait := c.mwait ++ slots })

/-- Whether the second group of a cycle has still to issue in the drawer of a slot (R222). -/
def Core.midCycle (c : Core) (slot : Nat) : Bool := c.picked.any fun x => x.1 == slot / 16

/-- Posts a group's fault. Faults of one cycle are posted in ascending slot order: the first group's is held while the second group of
its drawer's cycle has still to issue (R353, R357). -/
def postFault (s : State) (u : Unit) (g : Group) : State :=
  let c := s.core u.core
  match c.hold.find? fun x => x / 16 == g.slot / 16 with
  | some x =>
    postSlots (s.setCore u.core { c with hold := c.hold.filter (· != x) }) u.core [min x g.slot, max x g.slot]
  | none => if c.midCycle g.slot then s.setCore u.core { c with hold := c.hold ++ [g.slot] } else postNow s u g

/-- Sends a core report of a failed write-back (R251). -/
def coreReport (s : State) (core ctx key : Nat) (st : DWord) : State :=
  let c := s.core core
  mailPump (s.setCore core { c with reports := c.reports ++ [(ctx, key, st)] }) core

/-- The slot of the group serviced on a core: the oldest valid entry of kind 1 or 2 (R358). -/
def servicedSlot? (s : State) (core : Nat) : Option Nat :=
  let c := s.core core
  (c.morder.find? fun i => mailKind c i == 1 || mailKind c i == 2).map (mailSlot c)

/-! ## Taking a trap -/

/-- Whether every entry of a group waits (R221, R353). -/
def Group.allWait (g : Group) : Bool := g.ents.all fun e => e.rjw || e.wait != .none

/-- The PC of the highest-ranked entry (R225); 0 for an empty frontier. -/
def Group.topPc (g : Group) : DWord := match ranked g.ents with | e :: _ => e.pc | [] => 0

/-- Secondary errors that FRCNT still counts stay in the record (R354, R364). -/
def keepSeconds (g : Group) (t : Sparse Byte) : Sparse Byte :=
  if g.frcnt.toNat % 16 = 0 then t else Sparse.setList 0 t 64 (Sparse.getList 0 g.frec 64 64)

/-- Stops a group under a broadcast cause: SIBHALT, which writes no fault record, or the cause with which the unit's launch ends, which does
(R353, R234, R338, R364). EPC names the highest-ranked entry; the continuation of an scall is kept beside it (R360, R363). -/
def stopSibling (s : State) (k : UKey) (gid src : Nat) : State :=
  match s.unit? k with
  | none => s
  | some u => match u.grp? gid with
    | none => s
    | some g =>
      let n := match g.run with | .skid left _ => 16 - left | .stopped => g.skidN | .running => 0
      let cause := u.ending.getD (causeWord { code := C.SIBHALT, detail := src })
      let epc := g.topPc
      let g := { g with run := .stopped, skidN := n, after := false, cause := cause, epc := epc,
                        cont := if g.scall then some (g.cont.getD g.epc) else none }
      if u.ending.isNone then s.modGrp k gid fun _ => g
      else
        let rec0 := keepSeconds g (faultRec u g cause epc (peekWord s u epc) 0)
        let rec1 := if cause.toNat % 256 = C.WATCHDOG then listEntries rec0 (ranked g.ents) else rec0
        mirrorRec (s.modGrp k gid fun _ => { g with frec := rec1 }) k gid

/-- Tells one sibling to stop: a waiting group stops at once, another runs on within the skid bound (R353). -/
def haltSibling (s : State) (k : UKey) (src : Nat) (g : Group) : State :=
  if g.run != .running || !g.live then s
  else
    let s := s.modGrp k g.gid fun g => { g with run := .skid 16 src }
    if g.allWait then stopSibling s k g.gid src else s.due (.sibhalt k g.gid)

/-- The broadcast of a halt to every other group of the unit (R352). -/
def broadcastHalt (s : State) (u : Unit) (src gid : Nat) : State :=
  (u.grps.filter fun g => g.live && g.gid != gid).foldl (fun s g => haltSibling s u.key src g) s

/-- Takes a primary fault: the group stops at the trapping word, CAUSE, EPC and the fault record are written, the
halt is broadcast and the fault is posted (R352 to R357, R363, R364). `pc` is the PC of the entry. A word that traps in the cycle in
which it issues (`issuing`) does not count that cycle in SKID.N. A restart begins at a boundary that is not the one behind a uiret (R305). -/
def takeFault (s : State) (k : UKey) (gid : Nat) (word : Nat) (pc : DWord) (t : Trap) (extra : Sparse Byte → Sparse Byte := id)
    (issuing : Bool := false) : State :=
  match s.unit? k with
  | none => s
  | some u => match u.grp? gid with
    | none => s
    | some g =>
      let epc := t.epc.getD pc &&& 0x00FFFFFFFFFFFFFC
      let cause := causeWord t
      let skid := match g.run with | .skid left _ => 16 - left - issuing.toNat | .stopped => g.skidN | .running => 0
      let g := { g with cause := cause, epc := epc, run := .stopped, fault := true, trapped := true, skidN := skid, trapPc := t.epc.getD pc,
                        after := false }
      let w := if t.epc.isNone then word else peekWord s u epc
      let g := { g with frec := extra (keepSeconds g (faultRec u g cause epc w t.faddr.toNat)) }
      let s := s.modUnit k fun u => { u.modGrp gid (fun _ => g) with halted := true }
      let s := mirrorRec s k gid
      if isSuper k then s.due (.machineCheck u.core [])
      else postFault (broadcastHalt s u g.slot gid) { u with halted := true } g

/-- A trap of the issuing word (R352). An answered trap restarts the entry at EPC, which for a cause whose EPC is the
next instruction lies behind the word (R359). -/
def takeTrap (c : Cx) (s : State) (t : Trap) (extra : Sparse Byte → Sparse Byte := id) : State :=
  takeFault (s.modGrp c.u.key c.g.gid fun g => { g with ents := g.ents.map fun e => if e == c.e then { e with age := 0, agedAt := 0 } else e })
    c.u.key c.g.gid c.iss.word c.pc t extra true

/-- A secondary error, or a primary imprecise fault, of a group at its boundary (R354, R185). -/
def impreciseFault (s : State) (k : UKey) (gid : Nat) (t : Trap) (status : DWord) : State :=
  match s.unit? k with
  | none => s
  | some u => match u.grp? gid with
    | none => s
    | some g =>
      if g.fault then
        let n := g.frcnt.toNat % 8
        let frcnt := if n < 4 then BitVec.ofNat 64 (g.frcnt.toNat / 8 * 8 + n + 1) else g.frcnt ||| 8
        let rec1 := if n < 4 then putBytes (putBytes g.frec (64 + 16 * n) 8 (causeWord t).toNat) (72 + 16 * n) 8 status.toNat else g.frec
        mirrorRec (s.modGrp k gid fun g => { g with frcnt := frcnt, frec := putBytes rec1 48 8 frcnt.toNat }) k gid
      else takeFault s k gid (peekWord s u g.topPc) g.topPc t

/-! ## The return from a trap -/

/-- Puts EPC in the place of the PC of the entry that trapped (R359). -/
def resumeEntries (g : Group) (es : List Entry) : List Entry :=
  let here (e : Entry) : Bool := e.pc == g.trapPc
  let i? := match es.findIdx? fun e => here e && !e.rjw with | some i => some i | none => es.findIdx? here
  if !g.trapped then es
  else match i? with
    | none => es
    | some i =>
      match es[i]? with
      | some e => if e.pc = g.epc then es else addEntry (Entry.new g.epc e.prio e.mask) (dropAt i es)
      | none => es

/-- A wait is issued again when a group restarts; only a raise that has been made goes on waiting (R299, R353). -/
def Entry.rewait (e : Entry) : Entry := { e with wait := match e.wait with | .raise n => .raise n | _ => .none }

/-- The frontier of a stopped group as the supervisor has left it: none when an edited block breaks R223 or R224 (R361). -/
def editedFrontier (g : Group) : Option (List Entry × Nat) :=
  match g.fblk with
  | none => some (g.ents.map Entry.rewait, g.liven)
  | some b =>
    match parseFrontier (getBytes b 0 264) g.grant (BitVec.allOnes 32) with
    | .ok r => some r
    | .error _ => none

/-- The continuation of an scall stands in EPC again, as the supervisor may have edited it (R360). -/
def Group.uncovered (g : Group) : Group := { g with epc := g.cont.getD g.epc, cont := none }

/-- Restarts one stopped group (R359, R360). A group that waits on an unanswered scall goes on waiting. -/
def restartGroup (g : Group) : Option Group :=
  if g.run = .running then some g
  else if g.scall then some { g.uncovered with run := .running }
  else match editedFrontier g with
    | none => none
    | some (es, liven) =>
      some { g with ents := resumeEntries g es, liven := liven, run := .running, fault := false, trapped := false, fblk := none }

/-- Takes SECOND at the first boundary of each restarted group that kept secondary errors (R354). -/
def takeSeconds (s : State) (k : UKey) : State :=
  match s.unit? k with
  | none => s
  | some u => (u.grps.filter fun g => g.live && g.run == .running && g.frcnt.toNat % 16 != 0).foldl (fun s g =>
      takeFault s k g.gid (peekWord s u g.topPc) g.topPc { code := C.SECOND, detail := g.frcnt.toNat % 16 }) s

/-- Restarts a halted unit whose faults are all answered; none when a frontier as edited is refused (R359, R361). A unit whose launch ends
does not restart (R354). -/
def restartUnit (s : State) (k : UKey) : Option State :=
  match s.unit? k with
  | none => some s
  | some u =>
    if u.halted && u.ending.isNone && u.grps.all (fun g => !g.live || !g.fault) then
      match u.grps.mapM fun g => if g.live then restartGroup g else some g with
      | none => none
      | some gs => some (takeSeconds (s.modUnit k fun u => { u with halted := false, grps := gs }) k)
    else some s

/-! ## How a word ends -/

/-- The lanes of an entry after a word that does not transfer control: PC + 12, priority unchanged (R128). -/
def advanceEnts (g : Group) (i : Nat) (e : Entry) : List Entry :=
  addEntry (.new (e.pc + 12) e.prio e.mask) (dropAt i g.ents)

/-- Moves the issuing entry to the next word. The word's own effect is in `s`. -/
def advance (c : Cx) (s : State) : State :=
  s.modGrp c.u.key c.g.gid fun g =>
    { g with ents := advanceEnts g c.iss.ent { c.e with wait := .none, bwa := false }, after := false }

/-- Whether a word has not issued that waits so: it stalls before (R221, R229, R316). -/
def Wait.stalls (w : Wait) : Bool := w == .engine || w == .offcut

/-- Marks the issuing entry as waiting. One that has issued has no AGE (R227); a stall is no issue cycle of the skid (R353). -/
def enterWait (c : Cx) (s : State) (w : Wait) : State :=
  let alone := w.stalls && c.s.second.isNone && c.e.wait != .second
  let e := if w.stalls then { c.e with wait := w } else { c.e with wait := w, age := 0, agedAt := 0 }
  s.modGrp c.u.key c.g.gid fun g =>
    { g with ents := g.ents.set c.iss.ent e, after := g.after && w.stalls,
             run := match g.run with | .skid n src => if alone then .skid (n + 1) src else .skid n src | r => r }

/-- Ends a word: its effect, then PC + 12; or its trap, wait or stop. -/
def finish (c : Cx) (r : Exc State) : Host.Outcome State Fault Refusal :=
  match r with
  | .ok s => .next (advance c s)
  | .error (.trap t) => .next (takeTrap c c.s t)
  | .error (.doneTrap s t) => .next (takeTrap c (advance c s) { t with epc := some (c.pc + 12) })
  | .error (.trapWith s t) => .next (takeTrap c s t)
  | .error (.wait w) => .next (enterWait c c.s w)
  | .error (.waitWith s w) => .next (enterWait c s w)
  | .error (.fault f) => .fault f

/-- Ends a word whose effect has placed the lanes itself. -/
def finishCtl (c : Cx) (r : Exc State) : Host.Outcome State Fault Refusal :=
  match r with
  | .ok s => .next s
  | .error (.trap t) => .next (takeTrap c c.s t)
  | .error (.doneTrap s t) => .next (takeTrap c (advance c s) { t with epc := some (c.pc + 12) })
  | .error (.trapWith s t) => .next (takeTrap c s t)
  | .error (.wait w) => .next (enterWait c c.s w)
  | .error (.waitWith s w) => .next (enterWait c s w)
  | .error (.fault f) => .fault f

/-- Runs a word of a group. With no issuer nothing happens. A word whose guard leaves no lane changes nothing but the
PC (R68). -/
def word (s : State) (o : Op) (body : Cx → Exc State) : Host.Outcome State Fault Refusal :=
  match view? s o.grd with
  | none => .next s
  | some c => if c.ex = 0 then .next (advance c s) else finish c (body c)

/-- The same for a word that places the lanes itself. -/
def wordCtl (s : State) (o : Op) (body : Cx → Exc State) : Host.Outcome State Fault Refusal :=
  match view? s o.grd with
  | none => .next s
  | some c => if c.ex = 0 then .next (advance c s) else finishCtl c (body c)

/-- Cycles a core has counted over so many steps. -/
def cyclesUpTo (core : Nat) : Nat → Nat
  | 0 => 0
  | n + 1 => cyclesUpTo core n + Config.stepCycles core n

/-- CLK of a core (R31, R33, log 5). -/
def State.clk (s : State) (core : Nat) : Nat := (cyclesUpTo core s.tick - cyclesUpTo core s.onTick) % 2 ^ 64

/-! ## Energy (R31, R406, R407) -/

/-- The die of a core. -/
def dieOf (core : Nat) : Nat := core / 64

/-- The share of a die in an interval, in nJ (R406). -/
def State.intervalShare (s : State) : Nat := (s.limit - 560) * 100 / 8

/-- An account after a credit: a credit does not lift it above 1,000 intervals' share; what was credited under a higher limit stays
(R406, log 5). -/
def State.credited (s : State) (account : Int) (n : Nat) : Int := max account (min (account + n) (1000 * s.intervalShare))

/-- A die has spent `e` nJ, of which `est` were debited when a permit was granted (R407). -/
def spend (s : State) (die e est : Nat) : State :=
  { s with energy := s.energy + BitVec.ofNat 64 e }.modDie die fun d =>
    { d with account := s.credited (d.account - ((e - est : Nat) : Int)) (est - e), energy := d.energy + BitVec.ofNat 64 e }

/-- Adds to ENERGY of a unit (R31). -/
def addEnergy (s : State) (k : UKey) (n : Nat) : State := s.modUnit k fun u => { u with energy := u.energy + BitVec.ofNat 64 n }

/-- The measured energy of an instruction or command: charged to its unit and to its die (R406, R407, log 5). -/
def chargeEnd (s : State) (k : UKey) (die est : Nat) : State :=
  spend (addEnergy s k (Config.measuredEnergy s.tick)) die (Config.measuredEnergy s.tick) est

/-! ## Vector clocks (R321) -/

/-- What agent `a` knows of agent `b`. -/
def Race.knows (r : Race) (a b : Nat) : Nat := Sparse.get 0 r.clk (64 * a + b)

/-- The clock of an agent as its accesses bear it. -/
def Race.now (r : Race) (a : Nat) : Nat := r.knows a a + 1

/-- The vector an agent releases. -/
def Race.vector (r : Race) (a : Nat) : List Nat := (List.range 64).map fun b => if b = a then r.now a else r.knows a b

/-- An agent's own time passes. -/
def Race.advance (r : Race) (a : Nat) : Race := { r with clk := Sparse.set 0 r.clk (64 * a + a) (r.knows a a + 1) }

/-- What agent `a` of unit `me` knows, its own time included. -/
def Race.know (r : Race) (me : UKey) (a : Nat) : Know := (me, r.vector a) :: Sparse.get [] r.far a

/-- Whether a launch checks for races on the machine: clocks are kept while one does (R321). -/
def State.tracks (s : State) : Bool := s.launches.any fun l => l.racechk

/-- Records that enter the offcut store now, with what their group knows (R230, R314). -/
def Cx.stamp (c : Cx) (rs : List OffRec) : List OffRec :=
  let clock := if c.s.tracks then c.u.race.know c.u.key c.g.gid else []
  rs.map fun r => { r with age := c.s.clk c.u.core, clock := clock }

/-- Puts records of the issuing group into the offcut store. -/
def Cx.cutOff (c : Cx) (u : Unit) (rs : List OffRec) : Unit :=
  let race := if rs.isEmpty || !c.s.tracks then u.race else u.race.advance c.g.gid
  { u with off := u.off ++ c.stamp rs, race := race }


/-- The store-fault records of a group (R142, R365). -/
def Unit.recordsOf (u : Unit) (gid : Nat) : List (Nat × StoreFault) := u.sfq.filter fun r => r.2.gid == gid

/-- Whether a store of the group has faulted and its record is still on its way (R142). -/
def recordsDue (s : State) (k : UKey) (gid : Nat) : Bool :=
  s.agenda.any fun i => match i with | .storeFaultRecord u r => u == k && r.gid == gid | _ => false

/-- A drain point: it waits for records on their way, and takes STOREFLT where the group has records (R142). -/
def Cx.drain (c : Cx) : Exc PUnit :=
  if recordsDue c.s c.u.key c.g.gid then .error (.wait .retry)
  else
    let n := (c.u.recordsOf c.g.gid).length
    if n = 0 then .ok () else stop { code := C.STOREFLT, detail := n }

/-- Sets the frontier a control transfer leaves, cutting threads off where it has grown too far (R128, R229); the group as it stood is
kept where the cycle's second issue decides about it. -/
def setFrontier (c : Cx) (g : Group) (es : List Entry) : Exc State := do
  let (keep, recs) ← growFrontier c.u g es
  let s := if keep.length ≤ 8 then c.s else { c.s with grown := some c.g }
  return s.modUnit c.u.key fun u => c.cutOff (u.modGrp g.gid fun _ => { g with ents := keep, after := false }) recs

/-- The frontier after the executing lanes go to `(pc, prio)` and the others fall through (R128). -/
def branchEnts (c : Cx) (targets : List (DWord × Nat × Word)) : List Entry :=
  let rest := dropAt c.iss.ent c.g.ents
  let fall := Entry.new (c.pc + 12) c.e.prio (c.e.mask &&& ~~~c.ex)
  addAll (targets.map fun (pc, prio, m) => Entry.new pc prio m) (addEntry fall rest)

end Sys2Proof.Machine
end

