-- ==== Sys2Proof/Machine/Operands.lean ====
section
/-! DEFINITION. Every operand form: reading registers, pairs, quads, specials and immediates, the tag checks of R27,
and memory operands (R65, R66, R72, R76). -/

namespace Sys2Proof

/-- The tag of a special (R21). -/
def Special.tag : Special → Tag
  | .z => .raw
  | .uidxLo | .uidxHi | .nunitLo | .nunitHi => .i64
  | _ => .i32

/-- The tag of a type (R72, R140). -/
def Ty.tag : Ty → Tag
  | .b32 | .b64 => .raw
  | .f32 => .f32 | .f16 => .h2 | .bf16 => .b2 | .dx8 => .dx8 | .dx4 => .dx4
  | .i64 | .n64 => .i64
  | .f64 => .f64
  | _ => .i32

/-- FP32 bits widened exactly to FP64; a signalling NaN stays signalling for the operation that reads it (R46, R72). -/
def widenBits (x : Nat) : Nat :=
  let sg := x / 2 ^ 31 % 2
  let e := x / 2 ^ 23 % 256
  let f := x % 2 ^ 23
  if e = 255 then sg * 2 ^ 63 + 2047 * 2 ^ 52 + f * 2 ^ 29
  else if e = 0 then
    if f = 0 then sg * 2 ^ 63
    else let k := Nat.log2 f; sg * 2 ^ 63 + (k + 874) * 2 ^ 52 + (f * 2 ^ (52 - k)) % 2 ^ 52
  else sg * 2 ^ 63 + (e + 896) * 2 ^ 52 + f * 2 ^ 29

/-- The value of an immediate of a type (R72). -/
def immVal (t : Ty) (imm : Nat) : Nat :=
  match t with
  | .i64 | .n64 | .b64 => if imm < 2 ^ 31 then imm else imm + (2 ^ 64 - 2 ^ 32)
  | .f64 => widenBits imm
  | _ => imm

/-- The third source of a word (R65). -/
def Op.c (o : Op) : Opd := opdOf (o.imm % 512)

/-- IMM as a signed displacement (R76). -/
def Op.disp (o : Op) : Int := Machine.sext 32 o.imm

end Sys2Proof

namespace Sys2Proof.Machine

/-- The unit index and unit count of the issuer (R21). -/
def Cx.uidx (c : Cx) : DWord := BitVec.ofNat 64 c.u.key.idx
def Cx.nunit (c : Cx) : DWord := BitVec.ofNat 64 (match c.launch? with | some l => l.n | none => 1)

/-- The absolute vault address of the start of the unit's allocation (R21, R38, R40). -/
def Cx.vbase (c : Cx) : Word := BitVec.ofNat 32 (2 ^ 31 + vaultNo c.u.core * 2 ^ 22 + c.u.vault)

/-- A special in a lane (R21). -/
def Cx.special (c : Cx) (x : Special) (l : Nat) : Word :=
  match x with
  | .z => 0
  | .lane => BitVec.ofNat 32 l
  | .quarter => BitVec.ofNat 32 (l / 8)
  | .gid => BitVec.ofNat 32 c.g.gid
  | .ngrp => BitVec.ofNat 32 c.ngrp
  | .tid => Sparse.get 0 c.g.tid l
  | .uidxLo => c.uidx.truncate 32
  | .uidxHi => (c.uidx >>> 32).truncate 32
  | .nunitLo => c.nunit.truncate 32
  | .nunitHi => (c.nunit >>> 32).truncate 32
  | .vbase => c.vbase
  | .vsize => BitVec.ofNat 32 c.u.vsize
  | .prio => BitVec.ofNat 32 c.e.prio

/-- Register `k` of an operand in a lane, as 32 bits. -/
def Cx.reg (c : Cx) (o : Opd) (k l : Nat) : Word :=
  match o with
  | .v r => c.g.getV (r + k) l
  | .s r => c.g.getS (r + k)
  | .m r => c.g.getM (r + k)
  | .p r => if (c.g.pmask r).getLsbD l then 1 else 0
  | .sp .uidxLo => if k = 0 then c.special .uidxLo l else c.special .uidxHi l
  | .sp .nunitLo => if k = 0 then c.special .nunitLo l else c.special .nunitHi l
  | .sp x => if k = 0 then c.special x l else 0
  | .res _ => 0

/-- The tag of register `k` of an operand; masks count as RAW (R92). -/
def Cx.regTag (c : Cx) (o : Opd) (k : Nat) : Tag :=
  match o with
  | .v r => c.g.vtag (r + k)
  | .s r => c.g.stag (r + k)
  | .sp x => x.tag
  | .m _ | .p _ | .res _ => .raw

/-- An operand of `n` registers in a lane, as a number. -/
def Cx.val (c : Cx) (o : Opd) : Nat → Nat → Nat
  | 0, _ => 0
  | n + 1, l => c.val o n l + (c.reg o n l).toNat * 2 ^ (32 * n)

/-- A predicate operand in a lane. -/
def Cx.pval (c : Cx) (o : Opd) (l : Nat) : Bool := match o with | .p r => (c.g.pmask r).getLsbD l | _ => false

/-- FORMAT for an operand (R363). -/
def Cx.format (c : Cx) (o : Opd) (l : Nat) (k : Nat := 0) : Exc α :=
  stop { code := C.FORMAT, detail := o.code + (c.regTag o k).code * 2 ^ 9 + l * 2 ^ 13 }

/-- The tag of an operand of `n` registers, which must agree (R27). -/
def Cx.tag (c : Cx) (o : Opd) (n : Nat) : Exc Tag :=
  let t := c.regTag o 0
  if (List.range n).all fun k => c.regTag o k == t then .ok t else c.format o c.l0

/-- Checks that an operand bears RAW or one of the tags, and gives it (R27). -/
def Cx.need (c : Cx) (o : Opd) (n : Nat) (ok : List Tag) : Exc Tag := do
  let t ← c.tag o n
  if t = .raw || ok.contains t then return t else c.format o c.l0

/-- A 32-bit operand that accepts every tag but whose check is vacuous. -/
def Cx.any (c : Cx) (o : Opd) (n : Nat) : Exc Tag := c.tag o n

/-- The second operand of a family A word: the register or the immediate (R71, R72). -/
def Cx.bval (c : Cx) (o : Op) (a : ModA) (n l : Nat) : Nat := if a.opnd = 1 then immVal a.ty o.imm else c.val o.b n l

/-- A second operand that is always a single 32-bit source (R99, R113, R121). -/
def Cx.bval32 (c : Cx) (o : Op) (a : ModA) (l : Nat) : Nat := if a.opnd = 1 then o.imm else c.val o.b 1 l

/-- Whether a result is a wait. -/
def isWait : Exc α → Bool
  | .error (.wait _) => true
  | .error (.waitWith _ _) => true
  | _ => false

/-- Collects lane results that all are values. -/
def collect : List (Nat × Exc α) → Exc (List (Nat × α))
  | [] => .ok []
  | (_, .error e) :: _ => .error e
  | (l, .ok v) :: rest => do
    let r ← collect rest
    return (l, v) :: r

/-- Lane-wise results of a word: the stop of the lowest lane that traps wins, and a wait counts only when no lane
traps (R92, R141). -/
def mapLanes (f : Nat → Exc α) (ls : List Nat) : Exc (List (Nat × α)) :=
  let rs := ls.map fun l => (l, f l)
  do
    let _ ← collect (rs.filter fun r => !isWait r.2)
    collect rs

/-- The value of a lane in a list of lane results. -/
def laneVal (d : α) (r : List (Nat × α)) (l : Nat) : α := match r.find? fun x => x.1 == l with | some x => x.2 | none => d

/-- The lanes over which a destination is computed: every executing lane, or the lowest one for a uniform one. -/
def Cx.dlanes (c : Cx) (d : Opd) : List Nat := if d.uniformDst then [c.l0] else c.lanes

/-- Writes results and flags of a family A word (R92): `f` gives a lane's value and flags. -/
def Cx.emit (c : Cx) (d : Opd) (n : Nat) (tag : Tag) (r : List (Nat × Nat × Nat)) : State :=
  let g := c.g.write d n tag (fun l => (laneVal (0, 0) r l).1) c.ex
  c.put (g.orFlags (r.foldl (fun m x => m ||| x.2.2) 0))

/-- A pure lane-wise word: value and flags per lane. -/
def Cx.pure (c : Cx) (d : Opd) (n : Nat) (tag : Tag) (f : Nat → Nat × Nat) : State :=
  c.emit d n tag ((c.dlanes d).map fun l => (l, f l))

/-! ## Memory operands (R76, R141) -/

/-- A PTR base whose address leaves its window (R76). -/
def ptrWrap (o : Opd) (l : Nat) : Exc α := stop { code := C.PTRWRAP, detail := o.code + l * 2 ^ 9 }

/-- Rows 1 to 7 of R141 for one lane: base operand, offset in bytes, size, alignment, whether the space is a vault, and whether
the access writes. `scale` bytes have been applied to the offset already. -/
def Cx.locate (c : Cx) (base : Opd) (vault : Bool) (l : Nat) (off : Int) (n align : Nat) (write : Bool) : Exc Loc :=
  if vault then resolveVault c.s c.u l (c.val base 1 l) off n align write
  else
    let b := c.val base 2 l
    let ea := wrap 64 ((b : Int) + off)
    if c.regTag base 0 == .ptr && ea / 2 ^ 40 != b / 2 ^ 40 then ptrWrap base l
    else if ea % align != 0 then stop (.lane C.ALIGN l ea)
    else resolveOrd c.ctx base.code l ea n

/-- The virtual address of a lane's access, as the fault records hold it. -/
def Cx.addrOf (c : Cx) (base : Opd) (vault : Bool) (l : Nat) (off : Int) : Nat :=
  if vault then
    let b := c.val base 1 l
    b / 2 ^ 22 * 2 ^ 22 + wrap 22 ((b % 2 ^ 22 : Nat) + off)
  else wrap 64 ((c.val base 2 l : Int) + off)

/-- The tags a base accepts (R76). -/
def Cx.needBase (c : Cx) (base : Opd) (vault : Bool) : Exc Tag :=
  if vault then c.need base 1 [.i32] else c.need base 2 [.i64, .ptr]

/-- The offset of a family M operand in bytes: sign-extended register times size, plus the displacement (R76). -/
def Cx.offM (c : Cx) (o : Op) (size : Nat) (disp : Int) (l : Nat) : Int :=
  sext 32 (c.val o.b 1 l) * size + disp

end Sys2Proof.Machine
end

