-- ==== Sys2Proof/Machine/Flags.lean ====
section
/-! DEFINITION. Number formats, rounding, and every flag of GSTAT that arithmetic sets (R45 to R62). Exact values are
integers times powers of two; a value that is not such carries a lowest bit that only says it lies above (log 9). -/

namespace Sys2Proof.Machine

/-- A format: exponent bits and fraction bits (R45). -/
structure Fmt where
  ew : Nat
  fw : Nat
  deriving DecidableEq, Repr

def F32 : Fmt := { ew := 8, fw := 23 }
def F64 : Fmt := { ew := 11, fw := 52 }
def F16 : Fmt := { ew := 5, fw := 10 }
def BF16 : Fmt := { ew := 8, fw := 7 }

def fmtOf : Ty → Fmt
  | .f64 => F64 | .f16 => F16 | .bf16 => BF16 | _ => F32

namespace Fmt
def bias (f : Fmt) : Nat := 2 ^ (f.ew - 1) - 1
/-- Exponent of the last place of the subnormals. -/
def emin (f : Fmt) : Int := 1 - (f.bias : Int) - f.fw
/-- Exponent of the last place of the largest finite value. -/
def emax (f : Fmt) : Int := (f.bias : Int) - f.fw
def signBit (f : Fmt) : Nat := 2 ^ (f.ew + f.fw)
def infBits (f : Fmt) : Nat := (2 ^ f.ew - 1) * 2 ^ f.fw
def maxBits (f : Fmt) : Nat := f.infBits - 1
/-- The default NaN (R45, R46). -/
def nanBits (f : Fmt) : Nat := f.infBits + 2 ^ (f.fw - 1)
def width (f : Fmt) : Nat := 1 + f.ew + f.fw
end Fmt

/-- A value: NaN (signalling or not), infinity, or `m · 2 ^ e` with a sign. -/
inductive Fl
  | nan (sig : Bool)
  | inf (neg : Bool)
  | fin (neg : Bool) (m : Nat) (e : Int)
  deriving DecidableEq, Repr

/-- Reads bits of a format (R45, R46). -/
def Fmt.read (f : Fmt) (b : Nat) : Fl :=
  let neg := b / f.signBit % 2 == 1
  let e := b / 2 ^ f.fw % 2 ^ f.ew
  let fr := b % 2 ^ f.fw
  if e = 2 ^ f.ew - 1 then (if fr = 0 then .inf neg else .nan (fr < 2 ^ (f.fw - 1)))
  else if e = 0 then .fin neg fr f.emin
  else .fin neg (fr + 2 ^ f.fw) ((e : Int) - f.bias - f.fw)

def Fl.isNan : Fl → Bool | .nan _ => true | _ => false
def Fl.sig : Fl → Bool | .nan s => s | _ => false
def Fl.isZero : Fl → Bool | .fin _ 0 _ => true | _ => false
def Fl.isInf : Fl → Bool | .inf _ => true | _ => false
def Fl.neg : Fl → Bool | .nan _ => false | .inf n => n | .fin n _ _ => n
def Fl.negate : Fl → Fl | .nan s => .nan s | .inf n => .inf (!n) | .fin n m e => .fin (!n) m e
def Fl.abs : Fl → Fl | .nan s => .nan s | .inf _ => .inf false | .fin _ m e => .fin false m e
def Fl.zero (neg : Bool) : Fl := .fin neg 0 0

/-- The integer `m` scaled from exponent `e` to a lower exponent. -/
def scaleTo (m : Nat) (e lo : Int) : Nat := m * 2 ^ (e - lo).toNat

def sgn (neg : Bool) (m : Nat) : Int := if neg then -(m : Int) else m

/-- Exact sum of finite values at their lowest exponent. -/
def sumFin (xs : List (Bool × Nat × Int)) : Int × Int :=
  let lo := xs.foldl (fun a x => min a x.2.2) (match xs with | x :: _ => x.2.2 | [] => 0)
  (xs.foldl (fun a x => a + sgn x.1 (scaleTo x.2.1 x.2.2 lo)) 0, lo)

/-! ## Rounding (R47, R48) -/

/-- Number of bits of a number. -/
def nbits (n : Nat) : Nat := if n = 0 then 0 else Nat.log2 n + 1

/-- A way to round a magnitude: a mode, or stochastic with 32 random bits. -/
inductive Rnd
  | mode (r : Rm)
  | stoch (u : Nat)
  deriving DecidableEq, Repr

/-- Whether the magnitude rounds up: `q` the integer part, `r / 2 ^ sh` the fraction. -/
def roundUp (rnd : Rnd) (neg : Bool) (q r sh : Nat) : Bool :=
  match rnd with
  | .mode .rn => let h := 2 ^ sh; h < 2 * r || (2 * r == h && q % 2 == 1)
  | .mode .rz => false
  | .mode .rd => neg && r != 0
  | .mode .ru => !neg && r != 0
  | .stoch u => u < r * 2 ^ 32 / 2 ^ sh

/-- Rounds `m · 2 ^ e` to a multiple of `2 ^ te`: the multiple and whether it is inexact. -/
def roundTo (rnd : Rnd) (neg : Bool) (m : Nat) (e te : Int) : Nat × Bool :=
  if te ≤ e then (scaleTo m e te, false)
  else
    let sh := (te - e).toNat
    let q := m / 2 ^ sh
    let r := m % 2 ^ sh
    (if roundUp rnd neg q r sh then q + 1 else q, r != 0)

/-- Rounds to the precision of a format with the exponent range unbounded above: multiple, its exponent, inexact. -/
def Fmt.round (f : Fmt) (rnd : Rnd) (neg : Bool) (m : Nat) (e : Int) : Nat × Int × Bool :=
  let te := max (e + nbits m - (f.fw + 1)) f.emin
  let (q, ix) := roundTo rnd neg m e te
  if q = 2 ^ (f.fw + 1) then (2 ^ f.fw, te + 1, ix) else (q, te, ix)

/-- Whether a rounded magnitude passes the largest finite value. -/
def Fmt.over (f : Fmt) (q : Nat) (te : Int) : Bool := q != 0 && f.emax < te

/-- The bits of a rounded magnitude within range. -/
def Fmt.bits (f : Fmt) (neg : Bool) (q : Nat) (te : Int) : Nat :=
  (if neg then f.signBit else 0) +
  (if q < 2 ^ f.fw then q else q - 2 ^ f.fw + ((te - f.emin).toNat + 1) * 2 ^ f.fw)

/-- Whether a result is tiny after rounding (R51). -/
def Fmt.tiny (f : Fmt) (rnd : Rnd) (neg : Bool) (m : Nat) (e : Int) : Bool :=
  let te := e + nbits m - (f.fw + 1)
  let (q, _) := roundTo rnd neg m e te
  te + nbits q ≤ f.emin + f.fw

/-- An FP32 or FP64 result of arithmetic, with its flags (R51). -/
def Fmt.arith (f : Fmt) (rm : Rm) : Fl → Nat × Nat
  | .nan _ => (f.nanBits, 0)
  | .inf n => ((if n then f.signBit else 0) + f.infBits, 0)
  | .fin n m e =>
    if m = 0 then ((if n then f.signBit else 0), 0)
    else
      let (q, te, ix) := f.round (.mode rm) n m e
      if f.over q te then
        let toInf := match rm with | .rn => true | .rz => false | .rd => n | .ru => !n
        ((if n then f.signBit else 0) + (if toInf then f.infBits else f.maxBits), fOVF ||| fINX)
      else
        (f.bits n q te, if ix then (if f.tiny (.mode rm) n m e then fUNF ||| fINX else fINX) else 0)

/-- A result that saturates: FP16 and BF16 arithmetic and conversions (R50, R52). -/
def Fmt.sat (f : Fmt) (rnd : Rnd) : Fl → Nat × Nat
  | .nan _ => (f.nanBits, 0)
  | .inf n => ((if n then f.signBit else 0) + f.maxBits, fSAT)
  | .fin n m e =>
    if m = 0 then ((if n then f.signBit else 0), 0)
    else
      let (q, te, _) := f.round rnd n m e
      if f.over q te then ((if n then f.signBit else 0) + f.maxBits, fSAT) else (f.bits n q te, 0)

/-- A conversion into FP32 or FP64: saturates a finite value out of range (R53). -/
def Fmt.conv (f : Fmt) (rm : Rm) : Fl → Nat × Nat
  | .nan _ => (f.nanBits, 0)
  | .inf n => ((if n then f.signBit else 0) + f.infBits, 0)
  | .fin n m e =>
    if m = 0 then ((if n then f.signBit else 0), 0)
    else
      let (q, te, ix) := f.round (.mode rm) n m e
      if f.over q te then ((if n then f.signBit else 0) + f.maxBits, fSAT ||| fINX)
      else (f.bits n q te, if ix then (if f.tiny (.mode rm) n m e then fUNF ||| fINX else fINX) else 0)

def Fmt.wide (f : Fmt) : Bool := f == F32 || f == F64

/-- Delivers a result of arithmetic: IEEE for FP32 and FP64, saturating with SAT alone for FP16 and BF16. -/
def Fmt.result (f : Fmt) (rm : Rm) (r : Fl × Nat) : Nat × Nat :=
  if f.wide then let (b, fl) := f.arith rm r.1; (b, fl ||| r.2) else f.sat (.mode rm) r.1

/-! ## Exact arithmetic -/

def invIf (b : Bool) : Nat := if b then fINV else 0

/-- The sign of an exact zero sum (R46). -/
def zeroSign (rm : Rm) (allNeg allPos : Bool) : Bool := if allNeg then true else if allPos then false else rm == .rd

/-- A + B exactly. -/
def flAdd (rm : Rm) (a b : Fl) : Fl × Nat :=
  match a, b with
  | .nan s, y => (.nan false, invIf (s || y.sig))
  | .inf _, .nan s => (.nan false, invIf s)
  | .fin _ _ _, .nan s => (.nan false, invIf s)
  | .inf n, .inf k => if n = k then (.inf n, 0) else (.nan false, fINV)
  | .inf n, .fin _ _ _ => (.inf n, 0)
  | .fin _ _ _, .inf k => (.inf k, 0)
  | .fin n m e, .fin k j d =>
    let (t, lo) := sumFin [(n, m, e), (k, j, d)]
    if t = 0 then (.zero (zeroSign rm (n && k && m == 0 && j == 0) (!n && !k && m == 0 && j == 0)), 0)
    else (.fin (t < 0) t.natAbs lo, 0)

/-- A · B exactly. -/
def flMul (a b : Fl) : Fl × Nat :=
  let n := a.neg != b.neg
  match a, b with
  | .nan s, y => (.nan false, invIf (s || y.sig))
  | .inf _, .nan s => (.nan false, invIf s)
  | .fin _ _ _, .nan s => (.nan false, invIf s)
  | .inf _, .inf _ => (.inf n, 0)
  | .inf _, .fin _ m _ => if m = 0 then (.nan false, fINV) else (.inf n, 0)
  | .fin _ m _, .inf _ => if m = 0 then (.nan false, fINV) else (.inf n, 0)
  | .fin _ m e, .fin _ j d => (.fin n (m * j) (e + d), 0)

/-- A · B + C exactly (R107). -/
def flFma (rm : Rm) (a b c : Fl) : Fl × Nat :=
  if a.isNan || b.isNan then (.nan false, invIf (a.sig || b.sig || c.sig))
  else
    let (p, f) := flMul a b
    if p.isNan then (.nan false, f)
    else flAdd rm p c

/-- a·b + c·d exactly (R60); the flag says whether an invalid operation made the NaN. -/
def flFused2 (a b c d : Fl) : Fl × Nat :=
  let (p, f) := flMul a b
  let (q, g) := flMul c d
  if p.isNan || q.isNan then (.nan false, f ||| g)
  else
    let (r, h) := flAdd .rn p q
    (r, h)

/-- `n` over `d` rounded down with a lowest bit that marks a remainder. -/
def stickyDiv (n d : Nat) : Nat := 2 * (n / d) + (if n % d = 0 then 0 else 1)

/-- Quotient of finite non-zero values. -/
def divFin (m : Nat) (e : Int) (j : Nat) (d : Int) : Nat × Int :=
  let k := 70 + nbits j - min (nbits m) (nbits j)
  (stickyDiv (m * 2 ^ k) j, e - d - k - 1)

/-- A / B (R61). -/
def flDiv (a b : Fl) : Fl × Nat :=
  let n := a.neg != b.neg
  match a, b with
  | .nan s, y => (.nan false, invIf (s || y.sig))
  | .inf _, .nan s => (.nan false, invIf s)
  | .fin _ _ _, .nan s => (.nan false, invIf s)
  | .inf _, .inf _ => (.nan false, fINV)
  | .inf _, .fin _ _ _ => (.inf n, 0)
  | .fin _ _ _, .inf _ => (.zero n, 0)
  | .fin _ m e, .fin _ j d =>
    if m = 0 && j = 0 then (.nan false, fINV)
    else if j = 0 then (.inf n, fDZ)
    else if m = 0 then (.zero n, 0)
    else let (q, x) := divFin m e j d; (.fin n q x, 0)

/-- One Newton step after another from above. -/
def isqrtGo : Nat → Nat → Nat → Nat
  | 0, _, x => x
  | k + 1, n, x => let y := (x + n / x) / 2; if y < x then isqrtGo k n y else x

/-- The integer square root. -/
def isqrt (n : Nat) : Nat := if n = 0 then 0 else isqrtGo (nbits n + 2) n (2 ^ (nbits n / 2 + 1))

/-- The root of a finite positive value. -/
def sqrtFin (m : Nat) (e : Int) : Nat × Int :=
  let k : Nat := 140 + (if (e % 2 : Int) = 0 then 0 else 1)
  let v := m * 2 ^ k
  let r := isqrt v
  (2 * r + (if r * r = v then 0 else 1), (e - k) / 2 - 1)

def flSqrt (a : Fl) : Fl × Nat :=
  match a with
  | .nan s => (.nan false, invIf s)
  | .inf n => if n then (.nan false, fINV) else (.inf false, 0)
  | .fin n m e =>
    if m = 0 then (.zero n, 0) else if n then (.nan false, fINV) else let (q, x) := sqrtFin m e; (.fin false q x, 0)

def flRcp (a : Fl) : Fl × Nat :=
  match a with
  | .nan s => (.nan false, invIf s)
  | .inf n => (.zero n, 0)
  | .fin n m e => if m = 0 then (.inf n, fDZ) else let (q, x) := divFin 1 0 m e; (.fin n q x, 0)

def flRsqrt (a : Fl) : Fl × Nat :=
  match a with
  | .nan s => (.nan false, invIf s)
  | .inf n => if n then (.nan false, fINV) else (.zero false, 0)
  | .fin n m e =>
    if m = 0 then (.inf n, fDZ)
    else if n then (.nan false, fINV)
    else
      let odd := (e % 2 : Int) != 0
      let m := if odd then 2 * m else m
      let e := if odd then e - 1 else e
      let k := 100 + nbits m
      let r := isqrt (2 ^ (2 * k) / m)
      (.fin false (2 * r + (if r * r * m = 2 ^ (2 * k) then 0 else 1)) (-(e / 2) - k - 1), 0)

/-! ## Transcendental functions, at 448 bits (log 9) -/

def PREC : Nat := 448
/-- π and ln 2 times 2 ^ 448, rounded down. -/
def piBits : Nat := 2283431196591655772568293192637813162989505182201807620455461503647463674352091780948082810000813750461678719846639713479115845689692381
def ln2Bits : Nat := 503806212467287336944962318911413164331589999686332526750892113008874715004345470044877937781258350830018788825857087812047298226561348

/-- The Taylor sum of exp from term `t` and counter `k`. -/
def expGo : Nat → Nat → Nat → Nat → Nat
  | 0, _, _, _ => 0
  | n + 1, y, k, t => t + expGo n y (k + 1) (t * y / 2 ^ PREC / k)

/-- The alternating Taylor sum of sin (from y) or cos (from 1): `y2` the square, `k` the next factor. -/
def trigGo : Nat → Nat → Nat → Nat → Int
  | 0, _, _, _ => 0
  | n + 1, y2, k, t => (t : Int) - trigGo n y2 (k + 2) (t * y2 / 2 ^ PREC / (k * (k + 1)))

/-- A number `m · 2 ^ e` in fixed point. -/
def fixed (m : Nat) (e : Int) : Nat :=
  let s := e + PREC
  if 0 ≤ s then m * 2 ^ s.toNat else m / 2 ^ (-s).toNat

/-- 2 ^ x for FP32 (R61). -/
def flExp2 (a : Fl) : Fl × Nat :=
  match a with
  | .nan s => (.nan false, invIf s)
  | .inf n => (if n then .zero false else .inf false, 0)
  | .fin n m e =>
    if m = 0 then (.fin false 1 0, 0)
    else if 10 ≤ e + nbits m then (.fin false 1 (if n then -1000 else 1000), 0)
    else
      let v : Int := sgn n (scaleTo m (max e (-200)) (-200))
      let ip := v / 2 ^ 200
      let fr := (v % 2 ^ 200).toNat
      if fr = 0 then (.fin false 1 ip, 0)
      else (.fin false (2 * expGo 90 (fixed (fr * ln2Bits) (-200 - PREC)) 1 (2 ^ PREC) + 1) (ip - PREC - 1), 0)

/-- Binary digits of log2 of `y / 2 ^ PREC`, y in one octave. -/
def logGo : Nat → Nat → Nat → Nat
  | 0, _, acc => acc
  | n + 1, y, acc =>
    let z := y * y / 2 ^ PREC
    if 2 ^ (PREC + 1) ≤ z then logGo n (z / 2) (2 * acc + 1) else logGo n z (2 * acc)

/-- log2 x for FP32 (R61). -/
def flLog2 (a : Fl) : Fl × Nat :=
  match a with
  | .nan s => (.nan false, invIf s)
  | .inf n => if n then (.nan false, fINV) else (.inf false, 0)
  | .fin n m e =>
    if m = 0 then (.inf true, fDZ)
    else if n then (.nan false, fINV)
    else
      let k := nbits m - 1
      let ip : Int := e + k
      if m = 2 ^ k then (if ip = 0 then (.zero false, 0) else (.fin (ip < 0) ip.natAbs 0, 0))
      else
        let d := logGo 160 (m * 2 ^ (PREC - k)) 0
        let v : Int := ip * 2 ^ 160 + d
        if 0 ≤ v then (.fin false (2 * v.natAbs + 1) (-161), 0) else (.fin true (2 * (v.natAbs - 1) + 1) (-161), 0)

/-- sin (π r) and cos (π r) of `r = k / 2 ^ j` with 0 < r < 1/2. -/
def sinPi (k j : Nat) : Nat :=
  let y := k * piBits / 2 ^ j
  (trigGo 60 (y * y / 2 ^ PREC) 2 y).toNat
def cosPi (k j : Nat) : Nat :=
  let y := k * piBits / 2 ^ j
  (trigGo 60 (y * y / 2 ^ PREC) 1 (2 ^ PREC)).toNat

/-- A magnitude strictly between 0 and 1 known to `PREC` bits, as sin or cos. -/
def nearBits (v : Nat) : Nat × Int := (2 * v + 1, -(PREC : Int) - 1)

/-- sin (π · x) for x = k / 2 ^ j, 0 ≤ k < 2 · 2 ^ j; `none` for a zero. -/
def sinTurn (k j : Nat) : Option (Bool × Nat × Int) :=
  let one := 2 ^ j
  let neg := one ≤ k
  let r := k % one
  if r = 0 then none
  else
    let r := if one < 2 * r then one - r else r
    if 2 * r = one then some (neg, 1, 0)
    else
      let (m, e) := nearBits (if 4 * r ≤ one then sinPi r j else cosPi (one - 2 * r) (j + 1))
      some (neg, m, e)

/-- x reduced modulo 2 to `k / 2 ^ j`. -/
def turn (n : Bool) (m : Nat) (e : Int) : Nat × Nat :=
  let j := (max (-e) 1).toNat
  let v := scaleTo m e (-(j : Int)) % 2 ^ (j + 1)
  (if n && v != 0 then 2 ^ (j + 1) - v else v, j)

def flSinPi (a : Fl) : Fl × Nat :=
  match a with
  | .nan s => (.nan false, invIf s)
  | .inf _ => (.nan false, fINV)
  | .fin n m e =>
    let (k, j) := turn n m e
    match sinTurn k j with
    | none => (.zero n, 0)
    | some (g, q, x) => (.fin g q x, 0)

def flCosPi (a : Fl) : Fl × Nat :=
  match a with
  | .nan s => (.nan false, invIf s)
  | .inf _ => (.nan false, fINV)
  | .fin n m e =>
    let (k, j) := turn n m e
    match sinTurn ((k + 2 ^ (j - 1)) % 2 ^ (j + 1)) j with
    | none => (.zero false, 0)
    | some (g, q, x) => (.fin g q x, 0)

/-! ## Comparison and the other element functions -/

/-- A as an order key against B: the sign of A − B for numbers. -/
def flCmp (a b : Fl) : Int :=
  match a, b with
  | .inf n, .inf k => if n = k then 0 else if n then -1 else 1
  | .inf n, _ => if n then -1 else 1
  | _, .inf k => if k then 1 else -1
  | .fin n m e, .fin k j d => (sumFin [(n, m, e), (!k, j, d)]).1
  | _, _ => 0

/-- Whether A is less, −0 below +0 (R108). -/
def flLess (a b : Fl) : Bool :=
  let c := flCmp a b
  c < 0 || (c == 0 && a.isZero && b.isZero && a.neg && !b.neg)

/-- An operand delivered as a result: an infinity of FP16 or BF16 becomes SAT(fmt) and sets SAT (R52). -/
def Fmt.deliver (f : Fmt) (x : Nat) : Nat × Nat :=
  match f.read x with
  | .inf n => if f.wide then (x, 0) else f.sat (.mode .rn) (.inf n)
  | _ => (x, 0)

/-- The operand that fmin or fmax delivers, none where both are NaNs (R108). -/
def Fmt.pick (f : Fmt) (isMax : Bool) (x y : Nat) : Option Nat :=
  let a := f.read x
  let b := f.read y
  if a.isNan && b.isNan then none
  else if a.isNan then some y
  else if b.isNan then some x
  else some (if isMax then (if flLess a b then y else x) else (if flLess b a then y else x))

/-- fmin and fmax on bits (R52, R108). -/
def Fmt.minMax (f : Fmt) (isMax : Bool) (x y : Nat) : Nat × Nat :=
  let fl := if f.wide then invIf ((f.read x).sig || (f.read y).sig) else 0
  match f.pick isMax x y with
  | none => (f.nanBits, fl)
  | some r => let (v, sat) := f.deliver r; (v, fl ||| sat)

/-- fcmp: outcome and flags by FN (R109). -/
def flCompare (fn : Nat) (a b : Fl) : Bool × Nat :=
  let un := a.isNan || b.isNan
  let c := flCmp a b
  let r := if un then fn == 1 || fn == 6
    else match fn with
      | 0 => c == 0 | 1 => c != 0 | 2 => c < 0 | 3 => c ≤ 0 | 4 => 0 < c | 5 => 0 ≤ c | 6 => false | _ => true
  (r, invIf (if 2 ≤ fn && fn ≤ 5 then un else a.sig || b.sig))

/-- fclass (R110). -/
def Fmt.classify (f : Fmt) (x : Nat) : Nat :=
  match f.read x with
  | .nan s => if s then 2 ^ 8 else 2 ^ 9
  | .inf n => if n then 1 else 2 ^ 7
  | .fin n m _ =>
    if m = 0 then (if n then 2 ^ 3 else 2 ^ 4)
    else if m < 2 ^ f.fw then (if n then 2 ^ 2 else 2 ^ 5)
    else if n then 2 else 2 ^ 6

/-- frnd: a value rounded to an integral one in its own format (R112). DEDUCED: an FP16 or BF16 infinity is returned unchanged, as R112
says of ±∞, though R52 saturates the infinite results of those formats (log 79). -/
def Fmt.rint (f : Fmt) (rm : Rm) (x : Nat) : Nat × Nat :=
  match f.read x with
  | .nan s => (f.nanBits, if f.wide then invIf s else 0)
  | .inf _ => (x, 0)
  | .fin n m e => if 0 ≤ e then (x, 0) else let (q, _) := roundTo (.mode rm) n m e 0; ((f.sat (.mode .rn) (.fin n q 0)).1, 0)

/-- fscale: A · 2 ^ n rounded once (R113). -/
def flScale (a : Fl) (k : Int) : Fl × Nat :=
  match a with
  | .nan s => (.nan false, invIf s)
  | .inf n => (.inf n, 0)
  | .fin n m e => (.fin n m (e + k), 0)

/-- Keeps an exponent that is far out of range from building huge numbers: the rounded result is the same (R113). -/
def clampExp (k : Int) : Int := max (-6000) (min 6000 k)

/-- fgetexp (R114). -/
def flGetExp (a : Fl) : Nat × Nat :=
  match a with
  | .nan s => (0x80000000, invIf s)
  | .inf _ => (0x7FFFFFFF, 0)
  | .fin _ m e => if m = 0 then (0x80000000, 0) else (wrap 32 (e + nbits m - 1), 0)

/-! ## Integers and conversions (R53, R116) -/

/-- SAT of an integer type of `w` bits (R50). -/
def satInt (w : Nat) (sgnd neg : Bool) : Nat :=
  if sgnd then (if neg then 2 ^ (w - 1) else 2 ^ (w - 1) - 1) else (if neg then 0 else 2 ^ w - 1)

/-- An integer limited to a type, with SAT when it did not fit (R116). -/
def limitInt (w : Nat) (sgnd : Bool) (v : Int) : Nat × Nat :=
  let lo : Int := if sgnd then -(2 ^ (w - 1) : Int) else 0
  let hi : Int := if sgnd then 2 ^ (w - 1) - 1 else 2 ^ w - 1
  if v < lo then (satInt w sgnd true, fSAT) else if hi < v then (satInt w sgnd false, fSAT) else (wrap w v, 0)

/-- Float to integer; a signalling NaN sets INV where the source is FP32 or FP64 (R53). -/
def flToInt (w : Nat) (sgnd : Bool) (srcWide : Bool) (rm : Rm) (a : Fl) : Nat × Nat :=
  match a with
  | .nan sig => (0, fSAT ||| invIf (sig && srcWide))
  | .inf n => (satInt w sgnd n, fSAT)
  | .fin n m e =>
    if m = 0 then (0, 0)
    else if 200 ≤ e + nbits m then (satInt w sgnd n, fSAT)
    else let (q, _) := roundTo (.mode rm) n m e 0; limitInt w sgnd (sgn n q)

/-- Integer as an exact value. -/
def intFl (w : Nat) (sgnd : Bool) (v : Nat) : Fl :=
  let i : Int := if sgnd then sext w v else (v : Int)
  .fin (i < 0) i.natAbs 0

/-- A value converted to a floating destination, and the INV of a signalling source where either side is FP32 or FP64
(R46, R53). -/
def convFl (dst : Fmt) (srcWide : Bool) (rnd : Rnd) (a : Fl) : Nat × Nat :=
  let inv := if srcWide || dst.wide then invIf a.sig else 0
  match rnd with
  | .mode rm => let (b, f) := if dst.wide then dst.conv rm a else dst.sat rnd a; (b, f ||| inv)
  | .stoch _ => let (b, f) := dst.sat rnd a; (b, f ||| inv)

/-! ## Random bits (R49) -/

def mix64 (h : Nat) : Nat :=
  let h := h ^^^ (h / 2 ^ 31)
  let h := h * 0xD6E8FEB86659FD93 % 2 ^ 64
  let h := h ^^^ (h / 2 ^ 29)
  let h := h * 0xA5CB92431DB21F55 % 2 ^ 64
  h ^^^ (h / 2 ^ 32)

/-- SRBITS (R49). -/
def srbits (seed unit thread pc element : Nat) : Nat :=
  let h := mix64 ((seed + 0x6C8E9CF570932BD5) % 2 ^ 64)
  let h := mix64 (h ^^^ unit)
  let h := mix64 (h ^^^ ((thread * 2 ^ 16) ||| element))
  mix64 (h ^^^ pc)

/-- The 32 random bits of an element of a lane: SRBITS under DET, else the free-running generator (R48, log 11). A word with a uniform
destination draws with the lowest executing lane's thread: R118 and R119 name no thread for it (DESIGN CHOICE, log 71). -/
def Cx.random (c : Cx) (l element : Nat) : Nat :=
  match c.launch? with
  | some la =>
    if la.det then
      srbits la.lid c.u.key.idx (Sparse.get 0 c.g.tid l).toNat (wrap 64 ((c.pc.toNat : Int) - la.entry)) element / 2 ^ 32
    else (Config.freeRunning (c.s.tick * 4096 + l * 64 + element)).toNat
  | none => (Config.freeRunning (c.s.tick * 4096 + l * 64 + element)).toNat

/-! ## Dual-exponent blocks (R54 to R57) -/

/-- Element width, bits of M, and QSCALE of a DX format. -/
structure DxFmt where
  ew : Nat
  mw : Nat
  qs : Nat
  deriving DecidableEq, Repr
def DX8F : DxFmt := { ew := 8, mw := 6, qs := 5 }
def DX4F : DxFmt := { ew := 4, mw := 2, qs := 1 }
def DxFmt.qmax (d : DxFmt) : Nat := 2 ^ d.mw - 1

/-- Decodes an element (R54, R55). -/
def DxFmt.elem (d : DxFmt) (e0 e1 x : Nat) : Fl :=
  let sel := x / 2 ^ (d.ew - 1) % 2
  let neg := x / 2 ^ (d.ew - 2) % 2 == 1
  if e0 = 255 || (sel = 1 && e1 = 255) then .nan false
  else .fin neg (x % 2 ^ d.mw) ((if sel = 1 then e1 else e0 : Nat) - 127 - d.qs)

/-- Whether `m · 2 ^ e` is at most MMAX · 2 ^ k. -/
def DxFmt.fits (d : DxFmt) (m : Nat) (e k : Int) : Bool := (sumFin [(false, m, e), (true, d.qmax, k - d.qs)]).1 ≤ 0

/-- The least E in 0 to 254 with M within it. -/
def DxFmt.leastE (d : DxFmt) (m : Nat) (e : Int) : Nat :=
  ((List.range 255).find? fun (k : Nat) => d.fits m e ((k : Int) - 127)).getD 254

/-- ROUNDQ of a magnitude at scale E (R56). -/
def DxFmt.trial (d : DxFmt) (rnd : Rnd) (m : Nat) (e : Int) (sc : Nat) : Nat :=
  (roundTo rnd false m (e + d.qs + 127 - sc) 0).1

/-- Selector and magnitude of one element (R56). -/
def DxFmt.code (d : DxFmt) (rnd : Rnd) (e0 e1 m : Nat) (e : Int) : Nat × Nat :=
  let q := d.trial rnd m e e1
  if q ≤ d.qmax then (1, q) else (0, d.trial rnd m e e0)

/-- The squared error of a block under RNE for one k, as an exact sum at a fixed exponent (R57). -/
def DxFmt.err (d : DxFmt) (e0 : Nat) (xs : List (Nat × Int)) (k : Nat) : Nat :=
  let e1 := e0 - k
  (xs.map fun (m, e) =>
    let (sel, q) := d.code (.mode .rn) e0 e1 m e
    let v := (sumFin [(false, m, e), (true, q, ((if sel = 1 then e1 else e0 : Nat) : Int) - 127 - d.qs), (false, 0, -160)]).1.natAbs
    v * v).sum

/-- AUTOK (R57). -/
def DxFmt.autoK (d : DxFmt) (e0 : Nat) (xs : List (Nat × Int)) : Nat :=
  ((List.range 7).foldl (fun (b : Nat × Option Nat) i =>
    let v := d.err e0 xs (i + 1)
    match b.2 with
    | none => (i + 1, some v)
    | some w => if v < w then (i + 1, some v) else b) (1, none)).1

/-- dxpack of 16 FP32 values: elements, E0, E1 and flags; a signalling NaN among the operands sets INV (R46, R56). -/
def DxFmt.pack (d : DxFmt) (k : Option Nat) (rnd : Nat → Rnd) (xs : List Nat) : List Nat × Nat × Nat × Nat :=
  let fs := xs.map F32.read
  if fs.any Fl.isNan then (fs.map fun _ => 0, 255, 0, invIf (fs.any Fl.sig))
  else
    let lim : Nat × Int := (d.qmax, 127 - d.qs)
    let as := fs.map fun f => match f with
      | .fin _ m e => if d.fits m e 127 then ((m, e), false) else (lim, true)
      | _ => (lim, true)
    let mags := as.map (·.1)
    let (bm, be) := mags.foldl (fun (b : Nat × Int) x => if flLess (.fin false b.1 b.2) (.fin false x.1 x.2) then x else b) (0, 0)
    let e0 := d.leastE bm be
    let e1 := e0 - (match k with | some k => k | none => d.autoK e0 mags)
    let es := (mags.zip fs).zipIdx.map fun (((m, e), f), i) =>
      let (sel, q) := d.code (rnd i) e0 e1 m e
      sel * 2 ^ (d.ew - 1) + (if f.neg then 2 ^ (d.ew - 2) else 0) + q
    (es, e0, e1, if as.any (·.2) then fSAT else 0)

/-! ## Sums -/

/-- One block of the matrix sum: products of finite values, their window and rounding (R59). -/
def blockSum (acc : Fmt) (w : Nat) (ps : List (Fl × Nat)) : Nat :=
  let fs := ps.map (·.1)
  if fs.any Fl.isNan || (fs.any (· == .inf true) && fs.any (· == .inf false)) then acc.nanBits
  else if fs.any (· == .inf false) then acc.infBits
  else if fs.any (· == .inf true) then acc.signBit + acc.infBits
  else
    let nz := fs.filterMap fun f => match f with | .fin n m e => if m = 0 then none else some (n, m, e) | _ => none
    match nz with
    | [] => 0
    | x :: _ =>
      let top (y : Bool × Nat × Int) : Int := y.2.2 + nbits y.2.1 - 1
      let emax := nz.foldl (fun a y => max a (top y)) (top x)
      let lo := emax - w + 1
      let t : Int := nz.foldl (fun a (n, m, e) =>
        a + sgn n (if lo ≤ e then scaleTo m e lo else m / 2 ^ (lo - e).toNat)) 0
      if t = 0 then 0 else (acc.arith .rn (.fin (t < 0) t.natAbs lo)).1

/-- The list cut into blocks of sixteen. -/
def chunks16 : Nat → List α → List (List α)
  | 0, _ => []
  | n + 1, xs => xs.take 16 :: chunks16 n (xs.drop 16)

/-- One output cell of the array: 128 products added block by block (R59). -/
def cellSum (acc : Fmt) (w a0 : Nat) (ps : List (Fl × Nat)) : Nat :=
  (chunks16 8 ps).foldl (fun a b =>
    (acc.arith .rn (flAdd .rn (acc.read a) (acc.read (blockSum acc w b))).1).1) a0

/-- fdot2 (R115): exact sum of terms, one rounding. -/
def flDot (rm : Rm) (ts : List (Fl × Nat)) : Fl × Nat :=
  let fs := ts.map (·.1)
  let fl := ts.foldl (fun a t => a ||| t.2) 0
  let both := fs.any (· == .inf true) && fs.any (· == .inf false)
  if fs.any Fl.isNan then (.nan false, fl ||| invIf both)
  else if fs.any (· == .inf true) && fs.any (· == .inf false) then (.nan false, fINV)
  else if fs.any Fl.isInf then (.inf (fs.any (· == .inf true)), 0)
  else
    let xs := fs.filterMap fun f => match f with | .fin n m e => some (n, m, e) | _ => none
    let (t, lo) := sumFin xs
    if t = 0 then (.zero (xs.all (fun x => x.1 && x.2.1 == 0) || rm == .rd), 0) else (.fin (t < 0) t.natAbs lo, 0)

end Sys2Proof.Machine
end

