-- ==== Sys2Proof/Machine/Integer.lean ====
section
/-! DEFINITION. Integer arithmetic, bits and fields, compare, select and move (R96 to R105). -/

namespace Sys2Proof

/-- The width W of a type (R92). -/
def Ty.width (t : Ty) : Nat := if t.is64 then 64 else 32

/-- An operand as the integer its type makes of it (R96). -/
def Ty.int (t : Ty) (v : Nat) : Int := if t.isSigned then Machine.sext t.width v else (v % 2 ^ t.width : Nat)

/-- The tag an integer type accepts beside RAW and sets (R96). -/
def Ty.intTag (t : Ty) : Tag := if t.is64 then .i64 else .i32

/-- The tag a shift sets: RAW for .b types (R99). -/
def Ty.bitTag (t : Ty) : Tag := if t.isBits then .raw else t.intTag

end Sys2Proof

namespace Sys2Proof.Machine

/-- The second operand's tag check; an immediate needs none (R92). -/
def Cx.needB (c : Cx) (o : Op) (a : ModA) (n : Nat) (ok : List Tag) : Exc PUnit := do
  if a.opnd != 1 then
    let _ ← c.need o.b n ok

/-- A two-operand integer word of R96: value and flags from A and B. -/
def intBin (o : Op) (a : ModA) (f : Nat → Nat → Nat × Nat) (s : State) : Host.Outcome State Fault Refusal :=
  word s o fun c => do
    let n := a.ty.regs
    let _ ← c.need o.a n [a.ty.intTag]
    c.needB o a n [a.ty.intTag]
    return c.pure o.d n a.ty.intTag fun l => f (c.val o.a n l) (c.bval o a n l)

/-- FORMAT at a given operand and lane, naming its tag (R363). -/
def Cx.formatPtr (c : Cx) (o : Opd) (l : Nat) : Exc α := c.format o l

/-- The rows of R97: whether the sum or difference of the tags is a pointer, and whose window it stays in. DESIGN CHOICE: where A and B
are at fault only together, FORMAT names B, here and in `Cx.addPtr` (log 80). -/
def Cx.ptrCase (c : Cx) (o : Op) (sub : Bool) (ta tb : Tag) : Exc (Option Opd) :=
  if ta = .ptr && tb = .ptr then if sub then .ok none else c.format o.b c.l0
  else if ta = .ptr then .ok (some o.a)
  else if tb = .ptr then if sub then c.format o.b c.l0 else .ok (some o.b)
  else .ok none

/-- The 64-bit form of iadd and isub, with the pointer rules (R97). -/
def Cx.addPtr (c : Cx) (o : Op) (a : ModA) (sub : Bool) : Exc State := do
  let ta ← c.need o.a 2 [.i64, .ptr]
  let tb ← if a.opnd = 1 then .ok Tag.raw else c.need o.b 2 [.i64, .ptr]
  let keep ← c.ptrCase o sub ta tb
  let f (l : Nat) : Nat :=
    let x := c.val o.a 2 l
    let y := c.bval o a 2 l
    if sub then (x + (2 ^ 64 - y)) % 2 ^ 64 else (x + y) % 2 ^ 64
  let both := ta = .ptr && tb = .ptr
  let check (l : Nat) : Exc Nat :=
    match keep with
    | some w => if f l / 2 ^ 40 = c.val w 2 l / 2 ^ 40 then .ok (f l) else ptrWrap w l
    | none => if both && c.val o.a 2 l / 2 ^ 40 != c.val o.b 2 l / 2 ^ 40 then c.format o.b l else .ok (f l)
  let r ← mapLanes check (c.dlanes o.d)
  return c.emit o.d 2 (if keep.isSome then .ptr else .i64) (r.map fun (l, v) => (l, v, 0))

/-- iadd and isub (R96, R97): .i64 takes pointers. -/
def addSub (o : Op) (a : ModA) (sub : Bool) (s : State) : Host.Outcome State Fault Refusal :=
  if a.ty = .i64 then word s o fun c => c.addPtr o a sub
  else intBin o a (fun x y => ((if sub then x + (2 ^ a.ty.width - y) else x + y) % 2 ^ a.ty.width, 0)) s

def execIadd (o : Op) (a : ModA) (s : State) : Host.Outcome State Fault Refusal := addSub o a false s

def execIsub (o : Op) (a : ModA) (s : State) : Host.Outcome State Fault Refusal := addSub o a true s

/-- The low or high half of the exact product (R96). -/
def mulHalf (t : Ty) (hi : Bool) (x y : Nat) : Nat :=
  let p := t.int x * t.int y
  wrap t.width (if hi then p / (2 ^ t.width : Nat) else p)

def execImul (o : Op) (a : ModA) (s : State) : Host.Outcome State Fault Refusal :=
  intBin o a (fun x y => (mulHalf a.ty (o.fn == 1) x y, 0)) s

def execImad (o : Op) (a : ModA) (s : State) : Host.Outcome State Fault Refusal :=
  word s o fun c => do
    let n := a.ty.regs
    let _ ← c.need o.a n [a.ty.intTag]
    let _ ← c.need o.b n [a.ty.intTag]
    let _ ← c.need o.c n [a.ty.intTag]
    return c.pure o.d n a.ty.intTag fun l =>
      ((mulHalf a.ty (o.fn == 1) (c.val o.a n l) (c.val o.b n l) + c.val o.c n l) % 2 ^ a.ty.width, 0)

/-- Division with the cases of R98: value and flags. -/
def divide (t : Ty) (x y : Nat) : Nat × Nat :=
  let i := t.int x
  let j := t.int y
  if j = 0 then (satInt t.width t.isSigned (t.isSigned && decide (i < 0)), fSAT)
  else if t.isSigned && i = -(2 ^ (t.width - 1) : Nat) && j = -1 then (satInt t.width true false, fSAT)
  else (wrap t.width (i.tdiv j), 0)

/-- Remainder with the cases of R98: value and flags. -/
def remain (t : Ty) (x y : Nat) : Nat × Nat :=
  let i := t.int x
  let j := t.int y
  if j = 0 then (x, fSAT)
  else if t.isSigned && i = -(2 ^ (t.width - 1) : Nat) && j = -1 then (0, fSAT)
  else (wrap t.width (i.tmod j), 0)

def execIdiv (o : Op) (a : ModA) (s : State) : Host.Outcome State Fault Refusal := intBin o a (divide a.ty) s

def execIrem (o : Op) (a : ModA) (s : State) : Host.Outcome State Fault Refusal := intBin o a (remain a.ty) s

/-- Absolute value; the minimum saturates (R96). -/
def absInt (t : Ty) (x : Nat) : Nat × Nat :=
  if x = 2 ^ (t.width - 1) then (2 ^ (t.width - 1) - 1, fSAT) else ((t.int x).natAbs, 0)

def execIabs (o : Op) (a : ModA) (s : State) : Host.Outcome State Fault Refusal :=
  word s o fun c => do
    let n := a.ty.regs
    let _ ← c.need o.a n [a.ty.intTag]
    return c.pure o.d n a.ty.intTag fun l => absInt a.ty (c.val o.a n l)

def execImin (o : Op) (a : ModA) (s : State) : Host.Outcome State Fault Refusal :=
  intBin o a (fun x y => (if a.ty.int y < a.ty.int x then y else x, 0)) s

def execImax (o : Op) (a : ModA) (s : State) : Host.Outcome State Fault Refusal :=
  intBin o a (fun x y => (if a.ty.int x < a.ty.int y then y else x, 0)) s

/-! ## Bits and fields (R99, R100) -/

/-- A word over the bits of A and a second operand of the same width; every tag is accepted. -/
def bitBin (o : Op) (a : ModA) (f : Nat → Nat → Nat) (s : State) : Host.Outcome State Fault Refusal :=
  word s o fun c => do
    let n := a.ty.regs
    let _ ← c.any o.a n
    if a.opnd != 1 then
      let _ ← c.any o.b n
    return c.pure o.d n .raw fun l => (f (c.val o.a n l) (c.bval o a n l), 0)

def execAndB (o : Op) (a : ModA) (s : State) : Host.Outcome State Fault Refusal := bitBin o a (fun x y => x &&& y) s

def execOrB (o : Op) (a : ModA) (s : State) : Host.Outcome State Fault Refusal := bitBin o a (fun x y => x ||| y) s

def execXorB (o : Op) (a : ModA) (s : State) : Host.Outcome State Fault Refusal := bitBin o a (fun x y => x ^^^ y) s

/-- A word over the bits of A and a 32-bit count or control (R99). -/
def bitCtl (o : Op) (a : ModA) (tag : Tag) (f : Nat → Nat → Nat) (s : State) : Host.Outcome State Fault Refusal :=
  word s o fun c => do
    let n := a.ty.regs
    let _ ← c.any o.a n
    return c.pure o.d n tag fun l => (f (c.val o.a n l) (c.bval32 o a l), 0)

/-- Left shift; zero from the width on (R99). -/
def shiftLeft (w x n : Nat) : Nat := if w ≤ n then 0 else x * 2 ^ n % 2 ^ w

/-- Right shift, arithmetic for .i types (R99). -/
def shiftRight (t : Ty) (x n : Nat) : Nat :=
  if t.isSigned then wrap t.width (t.int x / (2 ^ min n t.width : Nat)) else if t.width ≤ n then 0 else x / 2 ^ n

/-- Rotation to the left (R99). -/
def rotLeft (w x n : Nat) : Nat := x * 2 ^ (n % w) % 2 ^ w + x / 2 ^ (w - n % w)

def execShl (o : Op) (a : ModA) (s : State) : Host.Outcome State Fault Refusal := bitCtl o a a.ty.bitTag (shiftLeft a.ty.width) s

def execShr (o : Op) (a : ModA) (s : State) : Host.Outcome State Fault Refusal := bitCtl o a a.ty.bitTag (shiftRight a.ty) s

def execRot (o : Op) (a : ModA) (s : State) : Host.Outcome State Fault Refusal :=
  bitCtl o a .raw (fun x n => rotLeft a.ty.width x (if o.fn = 1 then a.ty.width - n % a.ty.width else n)) s

/-- The length of a field inside the width (R100). -/
def fieldLen (w ctl : Nat) : Nat := if ctl % 256 < w then min (ctl / 256 % 256) (w - ctl % 256) else 0

/-- Bit field extraction (R100). -/
def extract (t : Ty) (x ctl : Nat) : Nat :=
  let n := fieldLen t.width ctl
  if n = 0 then 0
  else
    let v := x / 2 ^ (ctl % 256) % 2 ^ n
    if t.isSigned then wrap t.width (sext n v) else v

/-- Bit field insertion into a base (R100). -/
def insertField (w x ctl base : Nat) : Nat :=
  let n := fieldLen w ctl
  let p := ctl % 256
  if n = 0 then base else base % 2 ^ p + x % 2 ^ n * 2 ^ p + base / 2 ^ (p + n) * 2 ^ (p + n)

def execBfx (o : Op) (a : ModA) (s : State) : Host.Outcome State Fault Refusal := bitCtl o a a.ty.bitTag (extract a.ty) s

def execBfi (o : Op) (a : ModA) (s : State) : Host.Outcome State Fault Refusal :=
  word s o fun c => do
    let n := a.ty.regs
    let _ ← c.any o.a n
    let _ ← c.any o.c n
    return c.pure o.d n .raw fun l => (insertField a.ty.width (c.val o.a n l) (c.val o.b 1 l) (c.val o.c n l), 0)

/-- One bits of the low `w` bits. -/
def popCount (w x : Nat) : Nat := ((List.range w).filter fun i => x.testBit i).length

/-- Bit order reversed in `w` bits (R99). -/
def reverseBits (w x : Nat) : Nat := (List.range w).foldl (fun r i => if x.testBit i then r + 2 ^ (w - 1 - i) else r) 0

/-- A 32-bit count of the bits of A (R99). -/
def countBits (o : Op) (a : ModA) (f : Nat → Nat) (s : State) : Host.Outcome State Fault Refusal :=
  word s o fun c => do
    let n := a.ty.regs
    let _ ← c.any o.a n
    return c.pure o.d 1 .i32 fun l => (f (c.val o.a n l), 0)

def execPopc (o : Op) (a : ModA) (s : State) : Host.Outcome State Fault Refusal := countBits o a (popCount a.ty.width) s

def execClz (o : Op) (a : ModA) (s : State) : Host.Outcome State Fault Refusal :=
  countBits o a (fun x => a.ty.width - nbits x) s

def execBrev (o : Op) (a : ModA) (s : State) : Host.Outcome State Fault Refusal :=
  word s o fun c => do
    let n := a.ty.regs
    let _ ← c.any o.a n
    return c.pure o.d n .raw fun l => (reverseBits a.ty.width (c.val o.a n l), 0)

/-! ## Compare, select and move (R101 to R105) -/

/-- The comparison FN names (R101). -/
def compareInt (fn : Nat) (x y : Int) : Bool :=
  match fn with
  | 0 => x == y | 1 => x != y | 2 => decide (x < y) | 3 => decide (x ≤ y) | 4 => decide (y < x) | _ => decide (y ≤ x)

def execIcmp (o : Op) (a : ModA) (s : State) : Host.Outcome State Fault Refusal :=
  word s o fun c => do
    let n := a.ty.regs
    if a.ty.isBits then
      let _ ← c.any o.a n
      if a.opnd != 1 then
        let _ ← c.any o.b n
    else
      let ok := if a.ty.is64 then [Tag.i64, .ptr] else [Tag.i32]
      let _ ← c.need o.a n ok
      c.needB o a n ok
    return c.pure o.d 1 .raw fun l =>
      (if compareInt o.fn (a.ty.int (c.val o.a n l)) (a.ty.int (c.bval o a n l)) then 1 else 0, 0)

/-- sel (R102). DESIGN CHOICE: FORMAT for unequal tags of A and B names B (log 80). -/
def execSel (o : Op) (a : ModA) (s : State) : Host.Outcome State Fault Refusal :=
  word s o fun c => do
    let n := a.ty.regs
    let ta ← c.any o.a n
    let tb ← c.any o.b n
    if ta != tb && ta != .raw && tb != .raw then c.format o.b c.l0
    else return c.pure o.d n (if ta = .raw then tb else ta) fun l =>
      (if c.pval o.c l then c.val o.a n l else c.val o.b n l, 0)

/-- Sets the tags of a destination register by register. -/
def Group.retag (g : Group) (d : Opd) (t : Nat → Tag) : Nat → Group
  | 0 => g
  | n + 1 => match d with
    | .v r => (g.setVtag (r + n) (t n)).retag d t n
    | .s r => (g.setStag (r + n) (t n)).retag d t n
    | _ => g

/-- mov (R103). The halves of a 64-bit source must bear one tag, as R27 asks of every 64-bit operand; that R103 accepts every tag is
read as a statement about that one tag (DEDUCED, log 68). -/
def execMov (o : Op) (a : ModA) (s : State) : Host.Outcome State Fault Refusal :=
  word s o fun c => do
    let n := a.ty.regs
    let _ ← c.any o.a n
    return (c.put ((c.g.write o.d n .raw (c.val o.a n) c.ex).retag o.d (c.regTag o.a) n))

/-- Registers a tag spans (R104). -/
def retagRegs : Tag → Nat
  | .i64 | .f64 | .ptr => 2
  | .name => 4
  | _ => 1

def execMovRetag (o : Op) (a : ModA) (s : State) : Host.Outcome State Fault Refusal :=
  word s o fun c => do
    let t := (tagOf a.ty.code).getD .raw
    let n := retagRegs t
    let _ ← c.tag o.a n
    return c.put (c.g.write o.d n t (c.val o.a n) c.ex)

/-- The odd half of a pair written from an immediate (R105). -/
def Group.writeHi (g : Group) (d : Opd) (t : Tag) (x : Nat) (ex : Word) : Group :=
  match d with
  | .v r => ((g.write (.v (r + 1)) 1 t (fun _ => x) ex).retag d (fun _ => t) 2)
  | .s r => ((g.write (.s (r + 1)) 1 t (fun _ => x) ex).retag d (fun _ => t) 2)
  | _ => g

def execMovi (o : Op) (a : ModA) (s : State) : Host.Outcome State Fault Refusal :=
  word s o fun c =>
    .ok (c.put (if a.sub = 1 then c.g.writeHi o.d a.ty.tag o.imm c.ex
      else c.g.write o.d a.ty.regs a.ty.tag (fun _ => immVal a.ty o.imm) c.ex))

end Sys2Proof.Machine
end

