-- ==== Sys2Proof/Machine/Float.lean ====
section
/-! DEFINITION. Floating-point arithmetic, conversions and dual-exponent packing (R106 to R120, R125). -/

namespace Sys2Proof

/-- Packed types hold two elements in a register (R106). -/
def Ty.packed : Ty → Bool
  | .f16 | .bf16 => true
  | _ => false

/-- Register `k` of an operand range, as an operand of its own. -/
def Opd.plus (o : Opd) (k : Nat) : Opd :=
  match o with
  | .v r => .v (r + k)
  | .s r => .s (r + k)
  | x => x

end Sys2Proof

namespace Sys2Proof.Machine

/-- Applies an element function to operands, element by element for packed types (R106). -/
def perElem (t : Ty) (f : List Nat → Nat × Nat) (xs : List Nat) : Nat × Nat :=
  if t.packed then
    let lo := f (xs.map (· % 2 ^ 16))
    let hi := f (xs.map (· / 2 ^ 16 % 2 ^ 16))
    (lo.1 + hi.1 * 2 ^ 16, lo.2 ||| hi.2)
  else f xs

/-- A floating-point word of two operands (R106). -/
def flBin (o : Op) (a : ModA) (f : Nat → Nat → Nat × Nat) (s : State) : Host.Outcome State Fault Refusal :=
  word s o fun c => do
    let n := a.ty.regs
    let _ ← c.need o.a n [a.ty.tag]
    c.needB o a n [a.ty.tag]
    return c.pure o.d n a.ty.tag fun l =>
      perElem a.ty (fun xs => f (xs.getD 0 0) (xs.getD 1 0)) [c.val o.a n l, c.bval o a n l]

/-- A floating-point word of one operand, with a result of `n` registers of a tag. -/
def flUn (o : Op) (t : Ty) (n : Nat) (tag : Tag) (f : Nat → Nat × Nat) (s : State) : Host.Outcome State Fault Refusal :=
  word s o fun c => do
    let _ ← c.need o.a t.regs [t.tag]
    return c.pure o.d n tag fun l => perElem t (fun xs => f (xs.getD 0 0)) [c.val o.a t.regs l]

/-- An exact operation on the values of two operands, rounded once (R107). -/
def flArith2 (o : Op) (a : ModA) (f : Fl → Fl → Fl × Nat) (s : State) : Host.Outcome State Fault Refusal :=
  let m := fmtOf a.ty
  flBin o a (fun x y => m.result a.rm (f (m.read x) (m.read y))) s

def execFadd (o : Op) (a : ModA) (s : State) : Host.Outcome State Fault Refusal := flArith2 o a (flAdd a.rm) s

def execFsub (o : Op) (a : ModA) (s : State) : Host.Outcome State Fault Refusal :=
  flArith2 o a (fun x y => flAdd a.rm x y.negate) s

def execFmul (o : Op) (a : ModA) (s : State) : Host.Outcome State Fault Refusal := flArith2 o a flMul s

def execFfma (o : Op) (a : ModA) (s : State) : Host.Outcome State Fault Refusal :=
  word s o fun c => do
    let n := a.ty.regs
    let m := fmtOf a.ty
    let _ ← c.need o.a n [a.ty.tag]
    let _ ← c.need o.b n [a.ty.tag]
    let _ ← c.need o.c n [a.ty.tag]
    return c.pure o.d n a.ty.tag fun l =>
      perElem a.ty (fun xs => m.result a.rm (flFma a.rm (m.read (xs.getD 0 0)) (m.read (xs.getD 1 0)) (m.read (xs.getD 2 0))))
        [c.val o.a n l, c.val o.b n l, c.val o.c n l]

def execFmin (o : Op) (a : ModA) (s : State) : Host.Outcome State Fault Refusal := flBin o a ((fmtOf a.ty).minMax false) s

def execFmax (o : Op) (a : ModA) (s : State) : Host.Outcome State Fault Refusal := flBin o a ((fmtOf a.ty).minMax true) s

def execFcmp (o : Op) (a : ModA) (s : State) : Host.Outcome State Fault Refusal :=
  word s o fun c => do
    let n := a.ty.regs
    let m := fmtOf a.ty
    let _ ← c.need o.a n [a.ty.tag]
    c.needB o a n [a.ty.tag]
    return c.pure o.d 1 .raw fun l =>
      let r := flCompare o.fn (m.read (c.val o.a n l)) (m.read (c.bval o a n l))
      (if r.1 then 1 else 0, r.2)

def execFclass (o : Op) (a : ModA) (s : State) : Host.Outcome State Fault Refusal :=
  flUn o a.ty 1 .i32 (fun x => ((fmtOf a.ty).classify x, 0)) s

def execFdiv (o : Op) (a : ModA) (s : State) : Host.Outcome State Fault Refusal := flArith2 o a flDiv s

/-- A function of R61 in a type. -/
def flFunc (o : Op) (a : ModA) (t : Ty) (f : Fl → Fl × Nat) (s : State) : Host.Outcome State Fault Refusal :=
  flUn o t t.regs t.tag (fun x => (fmtOf t).result a.rm (f ((fmtOf t).read x))) s

def execFsqrt (o : Op) (a : ModA) (s : State) : Host.Outcome State Fault Refusal := flFunc o a a.ty flSqrt s

def execFrsqrt (o : Op) (a : ModA) (s : State) : Host.Outcome State Fault Refusal := flFunc o a .f32 flRsqrt s

def execFrcp (o : Op) (a : ModA) (s : State) : Host.Outcome State Fault Refusal := flFunc o a .f32 flRcp s

def execFexp2 (o : Op) (a : ModA) (s : State) : Host.Outcome State Fault Refusal := flFunc o a .f32 flExp2 s

def execFlog2 (o : Op) (a : ModA) (s : State) : Host.Outcome State Fault Refusal := flFunc o a .f32 flLog2 s

def execFsinpi (o : Op) (a : ModA) (s : State) : Host.Outcome State Fault Refusal := flFunc o a .f32 flSinPi s

def execFcospi (o : Op) (a : ModA) (s : State) : Host.Outcome State Fault Refusal := flFunc o a .f32 flCosPi s

def execFrnd (o : Op) (a : ModA) (s : State) : Host.Outcome State Fault Refusal :=
  flUn o a.ty a.ty.regs a.ty.tag ((fmtOf a.ty).rint a.rm) s

def execFscale (o : Op) (a : ModA) (s : State) : Host.Outcome State Fault Refusal :=
  word s o fun c => do
    let n := a.ty.regs
    let m := fmtOf a.ty
    let _ ← c.need o.a n [a.ty.tag]
    c.needB o a 1 [.i32]
    return c.pure o.d n a.ty.tag fun l =>
      perElem a.ty (fun xs => m.result a.rm (flScale (m.read (xs.getD 0 0)) (clampExp (sext 32 (c.bval32 o a l))))) [c.val o.a n l]

def execFgetexp (o : Op) (a : ModA) (s : State) : Host.Outcome State Fault Refusal :=
  flUn o a.ty 1 .i32 (fun x => flGetExp ((fmtOf a.ty).read x)) s

/-- fdot2: the products of the two elements, and C where it is given (R115). -/
def execFdot2 (o : Op) (a : ModA) (s : State) : Host.Outcome State Fault Refusal :=
  word s o fun c => do
    let m := fmtOf a.ty
    let _ ← c.need o.a 1 [a.ty.tag]
    let _ ← c.need o.b 1 [a.ty.tag]
    if a.opnd = 2 then
      let _ ← c.need o.c 1 [.f32]
    return c.pure o.d 1 .f32 fun l =>
      let x := c.val o.a 1 l
      let y := c.val o.b 1 l
      let ps := [flMul (m.read (x % 2 ^ 16)) (m.read (y % 2 ^ 16)), flMul (m.read (x / 2 ^ 16)) (m.read (y / 2 ^ 16))]
      let z := F32.read (c.val o.c 1 l)
      F32.result a.rm (flDot a.rm (if a.opnd = 2 then ps ++ [(z, invIf z.sig)] else ps))

/-! ## Conversions (R116 to R118) -/

/-- One value converted from one type to another (R53, R116). -/
def convert (src dst : Ty) (rm : Rm) (rnd : Rnd) (x : Nat) : Nat × Nat :=
  if src.isInt then
    if dst.isInt then limitInt dst.width dst.isSigned (src.int x)
    else convFl (fmtOf dst) false rnd (intFl src.width src.isSigned x)
  else
    let a := (fmtOf src).read x
    if dst.isInt then flToInt dst.width dst.isSigned (fmtOf src).wide rm a else convFl (fmtOf dst) (fmtOf src).wide rnd a

/-- The two elements of a packed result. -/
def pack2 (lo hi : Nat × Nat) : Nat × Nat := (lo.1 + hi.1 * 2 ^ 16, lo.2 ||| hi.2)

def execCvt (o : Op) (a : ModA) (s : State) : Host.Outcome State Fault Refusal :=
  word s o fun c => do
    let src := tyOf (o.fn % 16)
    let dst := a.ty
    let n := src.regs
    let rnd (l e : Nat) : Rnd := if a.rs then .stoch (c.random l e) else .mode a.rm
    let cv (l e x : Nat) := convert src dst a.rm (rnd l e) x
    let _ ← c.need o.a n [src.tag]
    if dst.packed && !src.packed then
      let _ ← c.need o.b n [src.tag]
      return c.pure o.d 1 dst.tag fun l => pack2 (cv l 0 (c.val o.a n l)) (cv l 1 (c.val o.b n l))
    else if dst.packed then
      return c.pure o.d 1 dst.tag fun l =>
        pack2 (cv l 0 (c.val o.a 1 l % 2 ^ 16)) (cv l 1 (c.val o.a 1 l / 2 ^ 16))
    else
      return c.pure o.d dst.regs dst.tag fun l =>
        cv l 0 (if src.packed then c.val o.a 1 l / 2 ^ (16 * (a.sub % 2)) % 2 ^ 16 else c.val o.a n l)

/-! ## Dual-exponent packing (R119, R120) -/

/-- Checks every register of a range. -/
def Cx.needRange (c : Cx) (o : Opd) (ok : List Tag) : Nat → Exc PUnit
  | 0 => .ok ()
  | n + 1 => do
    c.needRange o ok n
    let _ ← c.need (o.plus n) 1 ok

/-- Element registers and element bits of a block: DX8 or DX4. -/
def dxShape (t : Ty) : DxFmt × Nat × Tag := if t = .dx8 then (DX8F, 4, .dx8) else (DX4F, 2, .dx4)

/-- The values of a block, register by register: packed elements, then the scale pair (R119). -/
def dxRegs (f : DxFmt) (nreg : Nat) (r : List Nat × Nat × Nat × Nat) (k : Nat) : Nat :=
  if k = nreg then r.2.1 + r.2.2.1 * 256
  else natOfDigits f.ew ((r.1.drop (32 / f.ew * k)).take (32 / f.ew))
where
  natOfDigits (w : Nat) : List Nat → Nat
    | [] => 0
    | x :: xs => x + 2 ^ w * natOfDigits w xs

/-- Writes register after register of a range, each from a value per lane. -/
def Group.writeRange (g : Group) (d : Opd) (tag : Nat → Tag) (f : Nat → Nat → Nat) (ex : Word) : Nat → Group
  | 0 => g
  | n + 1 => (g.writeRange d tag f ex n).write (d.plus n) 1 (tag n) (f n) ex

def execDxpack (o : Op) (a : ModA) (s : State) : Host.Outcome State Fault Refusal :=
  word s o fun c => do
    let (f, nreg, tag) := dxShape a.ty
    c.needRange o.a [.f32] 16
    let k := if o.fn / 2 % 2 = 1 then none else some (o.fn / 4 % 8)
    let block (l : Nat) :=
      f.pack k (fun e => if a.rs then .stoch (c.random l e) else .mode .rn) ((List.range 16).map fun i => (c.reg o.a i l).toNat)
    let rs := (c.dlanes o.d).map fun l => (l, block l)
    let g := c.g.writeRange o.d (fun k => if k = nreg then .raw else tag)
      (fun k l => dxRegs f nreg (laneVal ([], 0, 0, 0) rs l) k) c.ex (nreg + 1)
    return c.put (g.orFlags (rs.foldl (fun m r => m ||| r.2.2.2.2) 0))

/-- One element of a block as FP32 bits (R54, R55). -/
def dxElem (f : DxFmt) (x e0 e1 : Nat) : Nat := (F32.arith .rn (f.elem e0 e1 x)).1

def execDxunpack (o : Op) (a : ModA) (s : State) : Host.Outcome State Fault Refusal :=
  word s o fun c => do
    let (f, nreg, tag) := dxShape a.ty
    c.needRange o.a [tag] nreg
    let per := 32 / f.ew
    let value (i l : Nat) : Nat :=
      let sc := (c.reg o.a nreg l).toNat
      dxElem f ((c.reg o.a (i / per) l).toNat / 2 ^ (f.ew * (i % per)) % 2 ^ f.ew) (sc % 256) (sc / 256 % 256)
    return c.put (c.g.writeRange o.d (fun _ => .f32) value c.ex 16)

/-! ## The tree sum (R125) -/

/-- One level of the tree: pairs of nodes. -/
def sumLevel (f : Fmt) (rm : Rm) : List (Option Nat) → List (Option Nat) × Nat
  | x :: y :: rest =>
    let (more, fl) := sumLevel f rm rest
    match x, y with
    | some p, some q => let (v, e) := f.arith rm (flAdd rm (f.read p) (f.read q)).1
                        (some v :: more, fl ||| e ||| (flAdd rm (f.read p) (f.read q)).2)
    | some p, none => (some p :: more, fl)
    | none, y => (y :: more, fl)
  | rest => (rest, 0)

/-- All five levels. A NaN that met no other operand becomes the default NaN, and sets INV if it is signalling (R46). -/
def sumTree (f : Fmt) (rm : Rm) : Nat → List (Option Nat) → Option Nat × Nat
  | 0, xs => match xs.getD 0 none with
    | none => (none, 0)
    | some x => match f.read x with | .nan sig => (some f.nanBits, invIf sig) | _ => (some x, 0)
  | n + 1, xs =>
    let (ys, fl) := sumLevel f rm xs
    let (r, more) := sumTree f rm n ys
    (r, fl ||| more)

def execFgsum (o : Op) (a : ModA) (s : State) : Host.Outcome State Fault Refusal :=
  word s o fun c => do
    let n := a.ty.regs
    let _ ← c.need o.a n [a.ty.tag]
    let nodes := (List.range 32).map fun l => if c.ex.getLsbD l then some (c.val o.a n l) else none
    let (r, fl) := sumTree (fmtOf a.ty) a.rm 5 nodes
    return c.put ((c.g.write o.d n a.ty.tag (fun _ => r.getD 0) c.ex).orFlags fl)

end Sys2Proof.Machine
end

