-- ==== Sys2Proof/Machine/Lanes.lean ====
section
/-! DEFINITION. Instructions across the lanes of a group and on predicates (R121 to R127). -/

namespace Sys2Proof.Machine

/-- The source lane of a shuffle; none outside 0 to 31 (R121). -/
def shflLane (fn l b : Nat) : Option Nat :=
  match fn with
  | 0 => some (b % 32)
  | 1 => if b ≤ l then some (l - b) else none
  | 2 => if l + b < 32 then some (l + b) else none
  | _ => some (l ^^^ b % 32)

def execShfl (o : Op) (a : ModA) (s : State) : Host.Outcome State Fault Refusal :=
  word s o fun c => do
    let n := a.ty.regs
    let t ← c.any o.a n
    return c.pure o.d n t fun l =>
      let k := match shflLane o.fn l (c.bval32 o a l) with
        | some k => if c.ex.getLsbD k then k else l
        | none => l
      (c.val o.a n k, 0)

/-- Lanes in which a predicate operand is true. -/
def Cx.trueLanes (c : Cx) (o : Opd) : Word := match o with | .p r => c.g.pmask r | _ => 0

def execBallot (o : Op) (_a : ModA) (s : State) : Host.Outcome State Fault Refusal :=
  word s o fun c => .ok (c.put (c.g.write o.d 1 .raw (fun _ => (c.trueLanes o.a &&& c.ex).toNat) c.ex))

/-- The outcome of a vote (R123). -/
def voteOf (fn : Nat) (t ex : Word) : Bool :=
  match fn with
  | 0 => t &&& ex == ex
  | 1 => t &&& ex != 0
  | _ => t &&& ex == ex || t &&& ex == 0

def execVote (o : Op) (_a : ModA) (s : State) : Host.Outcome State Fault Refusal :=
  word s o fun c =>
    let r := voteOf o.fn (c.trueLanes o.a) c.ex
    .ok (c.put (c.g.write o.d 1 .raw (fun _ => if r then 1 else 0) c.ex))

/-- The operation of a reduction (R124). -/
def reduceOp (fn : Nat) (t : Ty) (x y : Nat) : Nat :=
  match fn with
  | 0 => (x + y) % 2 ^ t.width
  | 1 => if t.int y < t.int x then y else x
  | 2 => if t.int x < t.int y then y else x
  | 3 => x &&& y
  | 4 => x ||| y
  | _ => x ^^^ y

/-- Its identity (R124). -/
def reduceId (fn : Nat) (t : Ty) : Nat :=
  match fn with
  | 1 => satInt t.width t.isSigned false
  | 2 => satInt t.width t.isSigned true
  | 3 => 2 ^ t.width - 1
  | _ => 0

/-- The tag check and result tag of a reduction (R124). -/
def Cx.reduceTag (c : Cx) (o : Op) (a : ModA) : Exc Tag := do
  if a.ty.isBits then
    let _ ← c.any o.a a.ty.regs
    return .raw
  else
    let _ ← c.need o.a a.ty.regs [a.ty.intTag]
    return a.ty.intTag

def execGred (o : Op) (a : ModA) (s : State) : Host.Outcome State Fault Refusal :=
  word s o fun c => do
    let n := a.ty.regs
    let t ← c.reduceTag o a
    let r := c.lanes.foldl (fun x l => reduceOp o.fn a.ty x (c.val o.a n l)) (reduceId o.fn a.ty)
    return c.put (c.g.write o.d n t (fun _ => r) c.ex)

def execGscan (o : Op) (a : ModA) (s : State) : Host.Outcome State Fault Refusal :=
  word s o fun c => do
    let n := a.ty.regs
    let t ← c.reduceTag o a
    let upTo (l : Nat) : List Nat := c.lanes.filter fun k => if a.sub = 1 then k < l else k ≤ l
    return c.pure o.d n t fun l =>
      ((upTo l).foldl (fun x k => reduceOp o.fn a.ty x (c.val o.a n k)) (reduceId o.fn a.ty), 0)

/-- The predicate operations of plop (R126). -/
def plopOf (fn : Nat) (p q : Word) : Word :=
  match fn with
  | 0 => p &&& q
  | 1 => p ||| q
  | 2 => p ^^^ q
  | 3 => p &&& ~~~q
  | 4 => p ||| ~~~q
  | _ => ~~~p

def execPlop (o : Op) (_a : ModA) (s : State) : Host.Outcome State Fault Refusal :=
  word s o fun c =>
    let r := plopOf o.fn (c.trueLanes o.a) (c.trueLanes o.b)
    .ok (c.put (c.g.write o.d 1 .raw (fun l => if r.getLsbD l then 1 else 0) c.ex))

def execP2m (o : Op) (_a : ModA) (s : State) : Host.Outcome State Fault Refusal :=
  word s o fun c => .ok (c.put (c.g.write o.d 1 .raw (fun _ => (c.trueLanes o.a).toNat) c.ex))

/-- m2p (R122). The rule lists no tags for an s source; every tag is accepted (DESIGN CHOICE, log 71). -/
def execM2p (o : Op) (_a : ModA) (s : State) : Host.Outcome State Fault Refusal :=
  word s o fun c =>
    let m := c.reg o.a 0 c.l0
    .ok (c.put (c.g.write o.d 1 .raw (fun l => if m.getLsbD l then 1 else 0) c.ex))

def execNop (o : Op) (_a : ModA) (s : State) : Host.Outcome State Fault Refusal := word s o fun c => .ok c.s

end Sys2Proof.Machine
end

