-- ==== Sys2Proof/Machine/Intr.lean ====
section
/-! DEFINITION. The target state of a raise, delivery and the handler group (R295 to R308). -/

namespace Sys2Proof.Machine

/-- Reads a field of a bound endpoint through its launch's context (R295). -/
def epRead (s : State) (l : Launch) (off n : Nat) : Nat :=
  match s.ctx? l.ctx with
  | some c => (sysRead s c (l.endpoint + off) n).getD 0
  | none => 0

def epWrite (s : State) (l : Launch) (off n v : Nat) : State :=
  match s.ctx? l.ctx with
  | some c => sysWrite s c (l.endpoint + off) n v
  | none => s

/-- Payload `v` of the endpoint block (R295). -/
def payRead (s : State) (l : Launch) (v : Nat) : Nat :=
  match s.ctx? l.ctx with
  | some c => (sysRead s c (l.payva.toNat + 8 * v) 8).getD 0
  | none => 0

def payWrite (s : State) (l : Launch) (v x : Nat) : State :=
  match s.ctx? l.ctx with
  | some c => sysWrite s c (l.payva.toNat + 8 * v) 8 x
  | none => s

/-- CTL fields of a bound endpoint (R295). -/
def Launch.dmode (l : Launch) : Bool := l.ctl.getLsbD 62
def Launch.bcast (l : Launch) : Bool := l.ctl.getLsbD 61
def Launch.wakes (l : Launch) : Bool := l.ctl.getLsbD 60
def Launch.permn (l : Launch) : Nat := bits l.ctl.toNat 46 40
def Launch.anchor (l : Launch) : Nat := l.ctl.toNat % 2 ^ 40

/-- The launch of a unit. -/
def launchOf (s : State) (u : Unit) : Option Launch := s.launch? u.key.fn u.key.lid

/-- Whether a unit is the anchor unit of its launch's bound endpoint (R300). -/
def isAnchor (l : Launch) (u : Unit) : Bool := l.bound && !l.bcast && l.anchor == u.key.idx

/-- UIPEND: the pending vectors of a unit's target state (R301). -/
def pendOf (s : State) (u : Unit) : DWord :=
  match launchOf s u with
  | none => 0
  | some l =>
    if !l.bound then 0
    else if l.bcast then u.ui.pend
    else if isAnchor l u then BitVec.ofNat 64 (epRead s l 32 8) else 0

/-- The highest bit that is set. -/
def highBit? (w : DWord) : Option Nat := if w = 0 then none else some (Nat.log2 w.toNat)

/-- The highest deliverable vector of a unit (R301). -/
def deliverable (s : State) (u : Unit) : Option Nat := highBit? (pendOf s u &&& ~~~u.uimask)

/-- Whether a group waits for the decision of a raise: the instruction has been issued and completes first (R305). -/
def Group.raising (g : Group) : Bool := g.ents.any fun e => match e.wait with | .raise _ => true | _ => false

/-- Whether the handler group of a unit is diverted at its next boundary (R305). -/
def entryDue (s : State) (u : Unit) (g : Group) : Bool :=
  match launchOf s u with
  | none => false
  | some l =>
    l.bound && l.dmode && l.handler == g.gid && g.live && g.run == .running && !u.halted && !u.vacating && !g.sect
    && !g.inh && !g.scall && !g.after && !g.raising && !g.ents.isEmpty && (deliverable s u).isSome

/-- Updates one target state by one raise (R299): pending, count and payload. -/
def combine (l : Launch) (v : Nat) (old : Nat) (p : Nat) : Nat := if l.modew.getLsbD v then old ||| p else p

/-- The update of R299 in a unit's own state. -/
def IntState.raise (i : IntState) (l : Launch) (v n p : Nat) : IntState :=
  { pend := i.pend ||| BitVec.ofNat 64 (2 ^ v),
    count := Sparse.set 0 i.count v (min (Sparse.get 0 i.count v + n) 65535),
    pay := Sparse.set 0 i.pay v (BitVec.ofNat 64 (combine l v (Sparse.get 0 i.pay v).toNat p)) }

/-- The update of R299 in the endpoint block. -/
def blockRaise (s : State) (l : Launch) (v p : Nat) : State :=
  let s := epWrite s l 32 8 (epRead s l 32 8 ||| 2 ^ v)
  let s := epWrite s l (128 + 2 * v) 2 (min (epRead s l (128 + 2 * v) 2 + 1) 65535)
  payWrite s l v (combine l v (payRead s l v) p)

/-- Whether a unit has been placed and not been restored yet (R346). -/
def restoring (s : State) (k : UKey) : Bool := match s.unit? k with | some u => u.unrestored | none => false

/-- Units of a launch that are resident. -/
def unitsOf (s : State) (l : Launch) : List Unit := s.units.filter fun u => u.key.fn == l.fn && u.key.lid == l.lid

/-- Adds to a unit's interrupt state what another one holds (R300). -/
def IntState.merge (i j : IntState) (l : Launch) : IntState :=
  ((List.range 64).filter fun v => j.pend.getLsbD v).foldl
    (fun i v => i.raise l v (Sparse.get 0 j.count v) (Sparse.get 0 j.pay v).toNat) i

/-- The flush of R300: the block is merged into every resident unit and cleared. -/
def flushBlock (s : State) (l : Launch) : State :=
  let pend := epRead s l 32 8
  if !l.bound || !l.bcast || pend = 0 then s
  else
    let vs := (List.range 64).filter fun v => pend.testBit v
    let items := vs.map fun v => (v, epRead s l (128 + 2 * v) 2, payRead s l v)
    let s := (unitsOf s l).foldl (fun s u =>
      s.modUnit u.key fun u => { u with ui := items.foldl (fun i (v, n, p) => i.raise l v n p) u.ui }) s
    let s := epWrite s l 32 8 0
    (List.range 64).foldl (fun s v => payWrite (epWrite s l (128 + 2 * v) 2 0) l v 0) s

/-- Takes the highest deliverable vector of a unit (R302). -/
def takeVector (s : State) (u : Unit) : State × Nat × Nat × Nat :=
  match deliverable s u, launchOf s u with
  | some v, some l =>
    if l.bcast then
      let i := u.ui
      let i' : IntState :=
        { pend := i.pend &&& ~~~BitVec.ofNat 64 (2 ^ v), count := Sparse.set 0 i.count v 0, pay := Sparse.set 0 i.pay v 0 }
      (s.modUnit u.key fun u => { u with ui := i' }, v, Sparse.get 0 i.count v, (Sparse.get 0 i.pay v).toNat)
    else
      let n := epRead s l (128 + 2 * v) 2
      let p := payRead s l v
      let s := epWrite s l 32 8 (wrap 64 (epRead s l 32 8 &&& (2 ^ 64 - 1 - 2 ^ v) : Nat))
      let s := epWrite s l (128 + 2 * v) 2 0
      (payWrite s l v 0, v, n, p)
  | _, _ => (s, 64, 0, 0)

/-- Writes UIMASK (R31, R301). -/
def writeUimask (s : State) (k : UKey) (v : DWord) : State :=
  let s := s.modUnit k fun u => { u with uimask := v }
  match s.unit? k with
  | none => s
  | some u =>
    match launchOf s u with
    | some l => if isAnchor l u then epWrite (s.modLaunch l.fn l.lid fun l => { l with mask := v }) l 40 8 v.toNat else s
    | none => s

/-- Diverts the handler group (R305). -/
def divert (s : State) (u : Unit) (g : Group) (hpc : DWord) : State :=
  match ranked g.ents with
  | [] => s
  | d :: _ =>
    let grd := bits (peekWord s u d.pc) 83 80
    let i := (g.ents.findIdx? fun e => e == d).getD 0
    let parked := g.ents.map fun e => { e with wait := .none }
    s.modGrp u.key g.gid fun g =>
      { g with park := some { ents := parked, liven := g.liven, d := i },
               uiepc := BitVec.ofNat 64 (d.pc.toNat % 2 ^ 56 / 4 * 4 + grd * 2 ^ 60), inh := true,
               ents := [.new hpc 255 (presentLanes g.ents)] }

end Sys2Proof.Machine
end

