-- ==== Sys2Proof/Machine/Image.lean ====
section
/-! DEFINITION. The halt window and the context image: the group block of R361, the frontier block of R224, store-fault
records (R365), and the bytes in which they are read and written. -/

namespace Sys2Proof.Machine

/-- Byte `i` of a number. -/
def byteOf (x i : Nat) : Byte := BitVec.ofNat 8 (x / 256 ^ i)

/-- A number with byte `i` replaced. -/
def setByte (x i : Nat) (b : Byte) : Nat := x % 256 ^ i + b.toNat * 256 ^ i + x / 256 ^ (i + 1) * 256 ^ (i + 1)

/-! ## Sections of a context image (R369, log 34) -/

def up256 (n : Nat) : Nat := (n + 255) / 256 * 256

/-- Offset of the block of a group. -/
def imgGroup (gid : Nat) : Nat := 0x100 + gid * 0x9000
def Launch.imgUnit (l : Launch) : Nat := 0x100 + l.g * 0x9000
def Launch.imgAcc (l : Launch) : Nat := l.imgUnit + 0x2000
def Launch.imgPlanes (l : Launch) : Nat := l.imgAcc + up256 (2050 * l.a)
def Launch.imgVault (l : Launch) : Nat := l.imgPlanes + (if l.a = 0 then 0 else 262400)
def Launch.imgOffcut (l : Launch) : Nat := l.imgVault + up256 l.b
def Launch.imgLate (l : Launch) : Nat := l.imgOffcut + up256 (l.c + l.c / 32)
def Launch.imgCmds (l : Launch) : Nat := l.imgLate + up256 (4 * l.g * 272)
def Launch.imgNames (l : Launch) : Nat := l.imgCmds + 32 * 1024

/-- Bytes of the image of a unit with `n` entries in its name table. -/
def Launch.imgTotal (l : Launch) (n : Nat) : Nat := l.imgNames + up256 (16 * n)

/-- Bytes of the save slot a unit takes when it is placed (R368). -/
def Launch.image (l : Launch) : Nat := l.imgTotal 1

/-- A list of fields, each its offset, its bytes and its value, as bytes. -/
def fields (n : Nat) (fs : List (Nat × Nat × Nat)) : List Byte :=
  Sparse.getList 0 (fs.foldl (fun t (off, k, v) => putBytes t off k v) []) 0 n

/-- Reads of an image: an offset and a number of bytes. -/
abbrev Rd := Nat → Nat → Nat

/-- Reads the image in a save slot. -/
def imageRd (s : State) (c : Ctx) (save : Nat) : Rd := fun off n => (sysRead s c (c.arena + save + off) n).getD 0

/-- Words of an image as a table. -/
def Rd.words (rd : Rd) (off n : Nat) : Sparse Word := Sparse.setList 0 [] 0 ((List.range n).map fun i => BitVec.ofNat 32 (rd (off + 4 * i) 4))

/-- The interrupt state of a unit in broadcast mode, as an image holds it from an offset on (R300, R369). -/
def uiFields (x : Nat) (i : IntState) : List (Nat × Nat × Nat) :=
  [(x, 8, i.pend.toNat)] ++ ((List.range 64).map fun v => (x + 0x80 + 2 * v, 2, Sparse.get 0 i.count v))
  ++ (List.range 64).map fun v => (x + 0x100 + 8 * v, 8, (Sparse.get 0 i.pay v).toNat)

/-- That state of an image whose unit section begins at an offset. -/
def savedUi (rd : Rd) (x : Nat) : IntState :=
  { pend := BitVec.ofNat 64 (rd (x + 0x1000) 8),
    count := Sparse.setList 0 [] 0 ((List.range 64).map fun v => rd (x + 0x1080 + 2 * v) 2),
    pay := Sparse.setList 0 [] 0 ((List.range 64).map fun v => BitVec.ofNat 64 (rd (x + 0x1100 + 8 * v) 8)) }

/-- The block in which an image keeps a group: that of its gid, or, for a gid of G or more, the one that bears its number. DESIGN CHOICE: R369
has blocks for the gids below G alone (log 25). -/
def Rd.blockOf (rd : Rd) (g gid : Nat) : Nat :=
  if gid < g then gid else ((List.range g).find? fun n => rd (imgGroup n + 0x8E40) 1 == gid + 1).getD gid

/-- The gid of the group that a block keeps, of the blocks of `g` gids. -/
def Rd.gidOf (rd : Rd) (g n : Nat) : Nat := let x := rd (imgGroup n + 0x8E40) 1; if x ≤ g then n else (x - 1) % 32

/-! ## Store-fault records (R365) -/

/-- The 32 bytes of a record as one value. -/
def sfNat (r : StoreFault) : Nat :=
  r.va.toNat + (r.pc.toNat % 2 ^ 56 / 4 * 4) * 2 ^ 64 + r.code * 2 ^ 120 + r.data.toNat * 2 ^ 128 + r.mask.toNat * 2 ^ 192
  + r.gid * 2 ^ 224 + r.lg * 2 ^ 232 + r.estat * 2 ^ 240

def sfOf (x : Nat) : StoreFault :=
  { va := BitVec.ofNat 64 x, pc := BitVec.ofNat 64 (bits x 119 64), code := bits x 127 120, data := BitVec.ofNat 64 (bits x 191 128),
    mask := BitVec.ofNat 32 (bits x 223 192), gid := bits x 228 224, lg := bits x 239 232, estat := bits x 247 240 }

/-- QMASK (R361). -/
def qmask (u : Unit) : Nat := u.sfq.foldl (fun m r => m ||| 2 ^ r.1) 0

/-- The queue as one value of 256 bytes. -/
def queueByte (u : Unit) (off : Nat) : Byte :=
  match u.sfq.find? fun r => r.1 == off / 32 with
  | some r => byteOf (sfNat r.2) (off % 32)
  | none => 0

/-! ## The group block (R361) -/

/-- Whether a register is the lower half of a pair tagged NAME that starts there, for the pointer map of an image. -/
def nibbles (a b : Tag) : Byte := BitVec.ofNat 8 (a.code + 16 * b.code)

/-- SKID as a special register (R32). -/
def skidWord (g : Group) : Nat := g.skidN

/-- The six special registers at 0x8600 (R361). -/
def blockSpr (g : Group) : Nat → Nat
  | 0 => g.gstat.toNat | 1 => g.uiepc.toNat | 2 => g.cause.toNat | 3 => g.epc.toNat | 4 => g.frcnt.toNat | _ => skidWord g

/-- The frontier block as the window shows it. -/
def Group.block (g : Group) : Sparse Byte := match g.fblk with | some b => b | none => frontierBlock g.ents g.liven

/-- A byte of the group block. -/
def groupByte (u : Unit) (g : Group) (off : Nat) : Byte :=
  if off < 0x8000 then
    if off / 128 < g.grant then byteOf (g.getV (off / 128) (off % 128 / 4)).toNat (off % 4) else 0
  else if off < 0x8200 then byteOf (g.getS ((off - 0x8000) / 4)).toNat (off % 4)
  else if off < 0x8280 then byteOf (g.getM ((off - 0x8200) / 4)).toNat (off % 4)
  else if off < 0x829C then byteOf (Sparse.get 0 g.p ((off - 0x8280) / 4)).toNat (off % 4)
  else if 0x8300 ≤ off && off < 0x8380 then nibbles (g.vtag (2 * (off - 0x8300))) (g.vtag (2 * (off - 0x8300) + 1))
  else if 0x8380 ≤ off && off < 0x83C0 then nibbles (g.stag (2 * (off - 0x8380))) (g.stag (2 * (off - 0x8380) + 1))
  else if 0x8400 ≤ off && off < 0x8508 then Sparse.get 0 g.block (off - 0x8400)
  else if 0x8600 ≤ off && off < 0x8630 then byteOf (blockSpr g ((off - 0x8600) / 8)) (off % 8)
  else if off = 0x8630 then BitVec.ofNat 8 (g.inh.toNat + 2 * g.sect.toNat)
  else if 0x8800 ≤ off && off < 0x8808 then byteOf (qmask u) (off - 0x8800)
  else if 0x8900 ≤ off && off < 0x8A00 then queueByte u (off - 0x8900)
  else if 0x8A00 ≤ off && off < 0x8B00 then Sparse.get 0 g.frec (off - 0x8A00)
  else 0

/-- A byte of the halt window block; PARK and the pointer map stand in the image alone. -/
def windowByte (u : Unit) (g : Group) (off : Nat) : Byte := if off < 0x8B00 then groupByte u g off else 0

/-- Writes a tag nibble; reserved values and TRI are ignored (R361). -/
def tagNibble (old : Tag) (x : Nat) : Tag := match tagOf x with | some .tri => old | some t => t | none => old

/-- Writes one special register of the block: SKID is read only, reserved fields stay zero (R30 to R32). -/
def setBlockSpr (g : Group) (k : Nat) (x : Nat) : Group :=
  match k with
  | 0 => { g with gstat := BitVec.ofNat 64 x &&& 0x1007F }
  | 1 => { g with uiepc := BitVec.ofNat 64 x &&& 0xF0FFFFFFFFFFFFFC }
  | 2 => { g with cause := BitVec.ofNat 64 x }
  | 3 => { g with epc := BitVec.ofNat 64 x &&& 0x00FFFFFFFFFFFFFC, cont := none }
  | 4 => { g with frcnt := BitVec.ofNat 64 x &&& 0xF }
  | _ => g

/-- A byte written into a group's part of the block. -/
def setGroupByte (g : Group) (off : Nat) (b : Byte) : Group :=
  let w (x : Word) : Word := BitVec.ofNat 32 (setByte x.toNat (off % 4) b)
  if off < 0x8000 then
    let k := off / 128
    let l := off % 128 / 4
    if k < g.grant then g.setV k l (w (g.getV k l)) else g
  else if off < 0x8200 then let k := (off - 0x8000) / 4; g.setS k (w (g.getS k))
  else if off < 0x8280 then let k := (off - 0x8200) / 4; g.setM k (w (g.getM k))
  else if off < 0x829C then
    let k := (off - 0x8280) / 4
    { g with p := Sparse.set 0 g.p k (w (Sparse.get 0 g.p k)) }
  else if 0x8300 ≤ off && off < 0x8380 then
    let k := 2 * (off - 0x8300)
    let g := if k < g.grant then g.setVtag k (tagNibble (g.vtag k) (b.toNat % 16)) else g
    if k + 1 < g.grant then g.setVtag (k + 1) (tagNibble (g.vtag (k + 1)) (b.toNat / 16)) else g
  else if 0x8380 ≤ off && off < 0x83C0 then
    let k := 2 * (off - 0x8380)
    let g := g.setStag k (tagNibble (g.stag k) (b.toNat % 16))
    g.setStag (k + 1) (tagNibble (g.stag (k + 1)) (b.toNat / 16))
  else if 0x8400 ≤ off && off < 0x8508 then { g with fblk := some (Sparse.set 0 g.block (off - 0x8400) b) }
  else if 0x8600 ≤ off && off < 0x8630 then
    let k := (off - 0x8600) / 8
    setBlockSpr g k (setByte (blockSpr g k) (off % 8) b)
  else if off = 0x8630 then { g with inh := b.toNat.testBit 0, sect := b.toNat.testBit 1 }
  else if 0x8A00 ≤ off && off < 0x8B00 then { g with frec := Sparse.set 0 g.frec (off - 0x8A00) b }
  else g

/-- Frees store-fault records by a mask (R361). -/
def freeRecords (u : Unit) (mask : Nat) : Unit := { u with sfq := u.sfq.filter fun r => !mask.testBit r.1 }

/-- A byte written into the queue: the record it belongs to, where that is valid. -/
def setQueueByte (u : Unit) (off : Nat) (b : Byte) : Unit :=
  { u with sfq := u.sfq.map fun r => if r.1 = off / 32 then (r.1, sfOf (setByte (sfNat r.2) (off % 32) b)) else r }

/-- Whether a group's window block is open: stopped in a halted unit, or waiting in an unanswered scall (R361). -/
def windowOpen (u : Unit) (g : Group) : Bool := (u.halted && g.run == .stopped) || g.scall

/-! ## Supervisor accesses (R355 to R362) -/

/-- A byte as the supervisor of a core reads it at an offset from SVBASE. -/
def superByte (s : State) (core off : Nat) : Byte :=
  if off < 0x800 then Sparse.get 0 (s.core core).mbox off
  else if 0x1000 ≤ off && off < 0x1040 then Sparse.get 0 (s.core core).port (off - 0x1000)
  else match windowSlot off with
    | some (slot, o) =>
      match slotGroup? s core slot with
      | some (u, g) => if windowOpen u g then windowByte u g o else 0
      | none => 0
    | none => 0

/-- A read of `n` bytes by the supervisor. -/
def superRead (s : State) (core off : Nat) : Nat → Nat
  | 0 => 0
  | n + 1 => (superByte s core off).toNat + 256 * superRead s core (off + 1) n

/-- A byte written into a halt window block. -/
def windowWriteByte (s : State) (core slot o : Nat) (b : Byte) : State :=
  match slotGroup? s core slot with
  | some (u, g) =>
    if !windowOpen u g then s
    else if 0x8900 ≤ o && o < 0x8A00 then s.modUnit u.key fun u => setQueueByte u (o - 0x8900) b
    else s.modGrp u.key g.gid fun g => setGroupByte g o b
  | none => s

/-- QFREE of a slot's block: frees the records a mask names (R361). -/
def windowQfree (s : State) (core slot mask : Nat) : State :=
  match slotGroup? s core slot with
  | some (u, g) => if windowOpen u g then s.modUnit u.key fun u => freeRecords u mask else s
  | none => s

/-- A write of bytes into a halt window block. -/
def windowWrite (s : State) (core slot o : Nat) : List Byte → State
  | [] => s
  | b :: bs => windowWrite (windowWriteByte s core slot o b) core slot (o + 1) bs

/-- A supervisor's 4-byte store of zero to the first word of a posted core report answers it; every other store to the
mailbox is ignored (R357). -/
def ackReport (s : State) (core idx : Nat) : State :=
  let c := s.core core
  if mailKind c idx = 3 then mailPump (s.setCore core (mailClear c idx)) core else s

/-- Offset of GO of the admission port (R362). -/
def portGo : Nat := 0x1018

/-- A write of `n` bytes by the supervisor at an offset from SVBASE (R357, R361, R362). A store to GO starts an admission through
`goStored`, for it depends on the store's order. -/
def superWrite (s : State) (core off n v : Nat) : State :=
  if off < 0x800 then if off % 128 = 0 && n = 4 && v = 0 then ackReport s core (off / 128) else s
  else if 0x1000 ≤ off && off < 0x1010 then
    s.modCore core fun c => { c with port := Sparse.setList 0 c.port (off - 0x1000) (bytesOfNat n v) }
  else match windowSlot off with
    | some (slot, o) => if o = 0x8808 then windowQfree s core slot v else windowWrite s core slot o (bytesOfNat n v)
    | none => s

end Sys2Proof.Machine
end

