-- ==== Sys2Proof/Machine/Race.lean ====
section
/-! DEFINITION. Race detection under RACECHK: vector clocks of the 64 agents of a unit, ownership across units, and the
edges of R314 that advance the clocks (R321 to R323). -/

namespace Sys2Proof.Machine

/-- Agent of a group, and of an engine agent (R321). -/
def engineAgent (n : Nat) : Nat := 32 + n

/-- The larger of two vectors, entry by entry; an empty one knows nothing. -/
def joinVec (x y : List Nat) : List Nat :=
  if x.isEmpty then y else if y.isEmpty then x else (x.zip y).map fun (a, b) => max a b

/-- The vector of a unit in what an agent knows. -/
def Know.of (k : Know) (u : UKey) : List Nat := match k.find? fun e => e.1 == u with | some e => e.2 | none => []

/-- What two agents know together. -/
def joinKnow (x y : Know) : Know :=
  y.foldl (fun x (u, v) => if x.any fun e => e.1 == u then x.map fun e => if e.1 == u then (u, joinVec e.2 v) else e else x ++ [(u, v)]) x

/-- Agent `a` of unit `me` learns what another knew. -/
def Race.learn (r : Race) (me : UKey) (a : Nat) (k : Know) : Race :=
  let far := k.filter fun e => e.1 != me
  { r with clk := (Know.of k me).zipIdx.foldl (fun c (n, b) => if b != a && r.knows a b < n then Sparse.set 0 c (64 * a + b) n else c) r.clk,
           far := if far.isEmpty then r.far else Sparse.set [] r.far a (joinKnow (Sparse.get [] r.far a) far) }

/-- Keys of the objects of a unit through which clocks pass: a phase of a barrier, a tag, a filled and a freed slot of a stream, and a
register that a trsolve has written (R169, R314). -/
def keyBar (bo ph : Nat) : Nat := 16 * (bo + 16 * ph) + 1
def keyTag (t : Nat) : Nat := 16 * t + 3
def keyFill (q slot : Nat) : Nat := 16 * (q * 8192 + slot) + 4
def keyFree (q : Nat) : Nat := 16 * q + 5
def keyReg (gid r : Nat) : Nat := 16 * (256 * gid + r) + 6

def Race.at (r : Race) (k : Nat) : Know := Sparse.get [] r.rel k

/-- Agent `a` releases into an object, adding to what it holds, and its time passes. -/
def Race.release (r : Race) (me : UKey) (a k : Nat) : Race :=
  { r with rel := Sparse.set [] r.rel k (joinKnow (r.at k) (r.know me a)) }.advance a

/-- Agent `a` acquires from an object. -/
def Race.acquire (r : Race) (me : UKey) (a k : Nat) : Race := r.learn me a (r.at k)

/-- A phase of a barrier begins: no arrival of it has released anything (R314). -/
def Race.phase (r : Race) (bo ph : Nat) : Race := { r with rel := Sparse.set [] r.rel (keyBar bo ph) [] }

/-- What all agents of a unit know together. -/
def Race.all (r : Race) (me : UKey) : Know := (List.range 64).foldl (fun k a => joinKnow k (r.know me a)) []

/-- A unit resumes: every agent knows what every agent did before the unit was vacated, so that no earlier access of the unit can
conflict with a later one (R314, R325). -/
def Race.resume (r : Race) (me : UKey) : Race :=
  let k := r.all me
  { (List.range 64).foldl (fun r a => r.learn me a k) r with hist := [] }

/-- One access of an agent to checked memory. -/
structure Access where
  sp : Nat
  addr : Nat
  n : Nat
  write : Bool
  strong : Bool
  scope : Nat
  tile : Bool
  deriving DecidableEq, Repr

/-- The granules an access touches. -/
def Access.grans (a : Access) : List Nat :=
  let lo := markKey a.sp a.addr / 64
  let hi := markKey a.sp (a.addr + a.n - 1) / 64
  (List.range (hi + 1 - lo)).map (lo + ·)

/-- Whether two accesses of one unit conflict: one writes, and they are not both strong and mutually in scope, nor both of
the versioned tile forms (R158, R317, R321). -/
def conflicts (x : RaceAcc) (a : Access) : Bool :=
  (x.write || a.write) && !(x.strong && a.strong && 1 ≤ x.scope && 1 ≤ a.scope) && !(x.tile && a.tile)

/-- Why an access is refused: the granule, and ownership, write and agent of the earlier access (R323). -/
structure Refused where
  gran : Nat
  owner : Bool
  wrote : Bool
  agent : Nat
  deriving DecidableEq, Repr

/-- Whether a unit other than `k` owns a granule against an access: a versioned tile access does not meet an ownership that another one
took (R158, R322). -/
def ownedAgainst (s : State) (k : UKey) (g : Nat) (tile : Bool) : Bool := s.owned.any fun o => o.1 == g && o.2.1 != k && !(o.2.2 && tile)

/-- The earlier access of a unit that an access of an agent conflicts with at a granule, neither being ordered (R321). -/
def Race.earlier (r : Race) (agent : Nat) (a : Access) (g : Nat) : Option RaceAcc :=
  r.hist.find? fun x => x.gran == g && x.agent != agent && conflicts x a && r.knows agent x.agent < x.clock

/-- Checks an access of an agent (R321, R322). -/
def refusal (s : State) (u : Unit) (agent : Nat) (a : Access) : Option Refused :=
  a.grans.findSome? fun g =>
    match u.race.earlier agent a g with
    | some x => some { gran := g, owner := false, wrote := x.write, agent := x.agent }
    | none => if ownedAgainst s u.key g a.tile then some { gran := g, owner := true, wrote := true, agent := 0 } else none

/-- CAUSE.DETAIL of MMX: bits [45:6] of the granule's address, as the access formed it, then the fields (R323). -/
def Refused.detail (r : Refused) (a : Access) (va : Nat) : Nat :=
  (if r.owner then 0 else r.agent) + r.wrote.toNat * 2 ^ 6 + r.owner.toNat * 2 ^ 7
  + (va / 64 + (r.gran - markKey a.sp a.addr / 64)) % 2 ^ 40 * 2 ^ 8

/-- The ownership a write takes (R322). -/
def takeOwnership (s : State) (k : UKey) (a : Access) : State :=
  if a.write && !(a.strong && 3 ≤ a.scope) then
    { s with owned := a.grans.foldl (fun o g => if o.contains (g, k, a.tile) then o else o ++ [(g, k, a.tile)]) s.owned }
  else s

/-- What a unit remembers of an access (R321). -/
def Race.remember (r : Race) (agent : Nat) (a : Access) : Race :=
  let new := a.grans.map fun g =>
    ({ gran := g, agent := agent, clock := r.now agent, write := a.write, strong := a.strong, scope := a.scope, tile := a.tile } : RaceAcc)
  let same (x : RaceAcc) : Bool := new.any fun y => { x with clock := y.clock } == y
  { r with hist := r.hist.filter (fun x => !same x) ++ new }

/-- Remembers an access that is performed, of a unit that is resident or vacated, and the ownership it takes (R321, R322). -/
def noteAccess (s : State) (k : UKey) (agent : Nat) (a : Access) : State :=
  let f (u : Unit) : Unit := { u with race := u.race.remember agent a }
  takeOwnership (if (s.unit? k).isSome then s.modUnit k f else s.modVac k f) k a

/-- A release at .dev or wider ends a unit's ownership (R322). -/
def endOwnership (s : State) (k : UKey) : State := { s with owned := s.owned.filter fun o => o.2.1 != k }

/-- Whether a unit's launch checks for races (R141). -/
def checks (s : State) (u : Unit) : Bool := match launchOf s u with | some l => l.racechk | none => false

/-- Whether a place is checked memory: a vault, or a page with CHK (R321). -/
def checkedPlace (sp : Nat) (p : Option Pte) : Bool := sp == 3 || (match p with | some p => p.chk | none => false)

/-- Applies a change of clocks while a launch checks for races: happens-before passes through every unit (R315). -/
def withRace (s : State) (k : UKey) (f : Race → Race) : State := if s.tracks then s.modUnit k fun u => { u with race := f u.race } else s

/-- What an agent of a unit knows, while clocks are kept. -/
def knowOf (s : State) (k : UKey) (agent : Nat) : Know :=
  match s.unit? k with | some u => if s.tracks then u.race.know k agent else [] | none => []

/-- A table of what agents knew, with one more entry's knowledge. -/
def notedKnow (t : Sparse Know) (i : Nat) (k : Know) : Sparse Know := Sparse.set [] t i (joinKnow (Sparse.get [] t i) k)

/-! ## Edges through memory (R313, R314) -/

/-- The scope at which a .sys access acts that R154 confines to its tenant (R312); the other scopes have their codes. -/
def tenantScope : Nat := 5

/-- Whether an agent of another unit lies in a scope, seen from a unit, with the units that share its die at that moment (R312). -/
def inScope (me : UKey) (scope : Nat) (near : List UKey) (k : UKey) : Bool :=
  if scope = tenantScope then k.fn == me.fn else 3 ≤ scope || (scope == 2 && near.contains k)

/-- Whether a release and an acquire by a unit at a scope, with the units that share its die now, are mutually in scope (R312, R313). -/
def Released.mutual (e : Released) (k : UKey) (near : List UKey) (scope : Nat) : Bool :=
  if e.key == k then 1 ≤ e.scope && 1 ≤ scope
  else inScope e.key e.scope e.near k && inScope k scope near e.key

/-- The units on the die of a unit, as far as an access at a scope asks for them (R312). -/
def dieMates (s : State) (u : Unit) (scope : Nat) : List UKey :=
  if scope = 2 then (s.units.filter fun v => dieOf v.core == dieOf u.core).map (·.key) else []

/-- The acquire side of a strong read that meets these releases: an acquire takes what release writes released, and an acquire fence
to come takes what stood behind release fences. -/
def Race.readAt (r : Race) (me : UKey) (agent : Nat) (near : List UKey) (held : List Released) (acq : Bool) (scope : Nat) : Race :=
  let r := { r with fAcq := Sparse.set [] r.fAcq agent ((held.filter (·.fence)).foldl (fun l e => if l.contains e then l else l ++ [e]) (Sparse.get [] r.fAcq agent)) }
  if acq then (held.filter fun e => !e.fence && e.mutual me near scope).foldl (fun r e => r.learn me agent e.know) r else r

/-- A fence: what it acquires, what it releases for the strong writes behind it. -/
def Race.fence (r : Race) (me : UKey) (agent : Nat) (near : List UKey) (acq rel : Bool) (scope : Nat) : Race :=
  let r := if acq then ((Sparse.get [] r.fAcq agent).filter fun e => e.mutual me near scope).foldl (fun r e => r.learn me agent e.know) r else r
  if rel then
    let e : Released := { key := me, scope := scope, near := near, fence := true, know := r.know me agent }
    { r with fRel := Sparse.set [] r.fRel agent (e :: (Sparse.get [] r.fRel agent).filter fun x => scope < x.scope) }.advance agent
  else r

/-- The releases that some bytes hold. -/
def heldAt (s : State) (sp a n : Nat) : List Released :=
  (List.range n).foldl (fun held i =>
    (Sparse.get [] s.relMem (markKey sp (a + i))).foldl (fun h e => if h.contains e then h else h ++ [e]) held) []

/-- Some bytes hold these releases. -/
def setHeld (s : State) (sp a n : Nat) (rs : List Released) : State :=
  { s with relMem := (List.range n).foldl (fun t i => Sparse.set [] t (markKey sp (a + i)) rs) s.relMem }

/-- The bytes of a read-modify-write hold what they held before it until its own releases join (R314). -/
def keepHeld (s0 s : State) (sp a n : Nat) : State := if s0.relMem.isEmpty then s else setHeld s sp a n (heldAt s0 sp a n)

/-- What a write leaves at its location: its own release, those of the fences before it, and, for a read-modify-write, what stood there. -/
def leftAt (r : Race) (me : UKey) (agent : Nat) (near : List UKey) (held : List Released) (rel strong rmw : Bool) (scope : Nat) : List Released :=
  (if rmw then held else [])
  ++ (if rel then [{ key := me, scope := scope, near := near, fence := false, know := r.know me agent }] else [])
  ++ (if strong then Sparse.get [] r.fRel agent else [])

end Sys2Proof.Machine
end

