-- ==== Sys2Proof/Machine/Memory.lean ====
section
/-! DEFINITION. Memory instructions (R138 to R158). Accesses are performed in the order of the steps (log 24). -/

namespace Sys2Proof.Machine

/-! ## Access to a place -/

/-- Reads at a place; space 4 is the supervisor's regions (R355). -/
def State.load (s : State) (core sp a n : Nat) : Nat := if sp = 4 then superRead s core a n else s.rdN sp a n

/-- Writes at a place. -/
def State.store (s : State) (core sp a n v : Nat) : State := if sp = 4 then superWrite s core a n v else s.wrN sp a n v

/-! ## The table in memory (R241, R243, log 6) -/

def ResState.code : ResState → Nat
  | .free => 0 | .admitting => 1 | .resident => 2 | .departing => 3 | .departed => 4

/-- A residency entry as one 256-bit value. -/
def Res.nat (r : Res) : Nat :=
  r.state.code * 2 ^ 253 + r.inc * 2 ^ 249 + r.kind * 2 ^ 247 + r.dirty.toNat * 2 ^ 246 + r.w.toNat * 2 ^ 245 + r.pin * 2 ^ 224
  + r.gen * 2 ^ 208 + r.domain * 2 ^ 192 + r.serial * 2 ^ 147 + r.backva * 2 ^ 64 + r.extent * 2 ^ 24

/-- Writes a slot's entry to the table in memory. -/
def mirrorSlot (s : State) (ctx slot : Nat) : State :=
  match s.ctx? ctx with
  | some c => sysWrite s c (c.table + 32 * slot) 32 (c.slotRes slot).nat
  | none => s

/-- Changes a slot. -/
def modRes (s : State) (ctx slot : Nat) (f : Res → Res) : State :=
  mirrorSlot (s.modCtx ctx fun c => { c with res := Sparse.set .start c.res slot (f (c.slotRes slot)) }) ctx slot

/-- Marks the page of an exclusive object that a write through its window touches (R241, R251). -/
def markDirty (s : State) (ctx va : Nat) : State :=
  if !isPtr va then s
  else match s.ctx? ctx with
    | none => s
    | some c =>
      let r := c.slotRes (ptrSlot va)
      let pg := ptrOff va / 65536
      if r.kind != 1 || r.dirtyPg.contains pg then s
      else modRes s ctx (ptrSlot va) fun r => { r with dirty := true, dirtyPg := r.dirtyPg ++ [pg] }

/-- Where a lane's access lands after rows 1 to 7 of R141, and its virtual address. -/
structure Spot where
  loc : Loc
  va : Nat
  deriving DecidableEq, Repr

/-- Where it is performed after rows 9 to 11. -/
structure Place where
  sp : Nat
  a : Nat
  pte : Option Pte
  va : Nat
  deriving DecidableEq, Repr

/-- How an access takes part in ordering and race detection (R313, R317, R321). -/
structure Att where
  write : Bool := false
  strong : Bool := false
  acq : Bool := false
  rel : Bool := false
  rmw : Bool := false
  tile : Bool := false
  scope : Nat := 0
  deriving DecidableEq, Repr

/-- ORD and SCOPE of a family M word: .acq, .rel and .ar (R73). -/
def ordAtt (ord scope : Nat) (write rmw : Bool) : Att :=
  { write := write, strong := ord != 0 || rmw, acq := ord % 2 == 1, rel := 2 ≤ ord, rmw := rmw, scope := scope }

/-- Rows 1 to 7 for one lane. -/
def Cx.spot (c : Cx) (base : Opd) (vault : Bool) (l : Nat) (off : Int) (n align : Nat) (write : Bool) : Exc Spot := do
  let loc ← c.locate base vault l off n align write
  return { loc := loc, va := c.addrOf base vault l off }

/-- An atomic the host cannot perform (R147, log 20). -/
def noAtomic (p : Place) : Bool :=
  p.sp == 2 && !Config.hostAtomics && !(match p.pte with | some e => e.dx | none => false)

/-- The trap of such an atomic (R147). -/
def noAtomicTrap (l : Nat) (p : Place) : Trap := { Trap.lane C.PERM l p.va 256 with estat := 8 }

/-- Rows 9 to 11 for one lane. An atomic or reduction writes and consumes: in row 10 it needs a place that performs atomics. DESIGN
CHOICE: on an ordinary page it needs W alone, for R373 asks RD of an access that is no write (log 75). -/
def Cx.land (c : Cx) (l : Nat) (sp : Spot) (n : Nat) (write reads : Bool) : Except Trap Place :=
  match landOrd c.s c.u.core c.ctx l sp.loc n (if write then .write else .read) with
  | .error t => .error { t with faddr := BitVec.ofNat 64 sp.va }
  | .ok (m, a, pte) =>
    let p : Place := { sp := m, a := a, pte := pte, va := sp.va }
    if write && reads && noAtomic p then .error (noAtomicTrap l p)
    else if write && reads && c.s.spoilt m a n then .error (.lane C.ECC l sp.va)
    else .ok p

def Place.access (p : Place) (n : Nat) (t : Att) : Access :=
  { sp := p.sp, addr := p.a, n := n, write := t.write, strong := t.strong, scope := t.scope, tile := t.tile }

/-- The place of an access that translates, whatever its permissions and its data (R141, R321). -/
def placeOf? (s : State) (core : Nat) (c : Ctx) (loc : Loc) (va : Nat) : Option Place :=
  let pool (a : Nat) (pte : Option Pte) : Option Place :=
    (poolRange? s c.fn a 1 false).map fun r => { sp := 1, a := r.place a, pte := pte, va := va }
  match loc with
  | .vault key => some { sp := 3, a := key, pte := none, va := va }
  | .poolWin a _ => pool a none
  | .ord w _ =>
    if inWindow w then none
    else match leafFor s core c w with
      | .error _ => none
      | .ok p => if (p.phys w).1 = 1 then pool (p.phys w).2 (some p) else some { sp := (p.phys w).1, a := (p.phys w).2, pte := some p, va := va }

/-- Row 8: race detection, before permissions and uncorrectable data (R141, R321). -/
def Cx.raceRow (c : Cx) (_lane : Nat) (sp : Spot) (n : Nat) (t : Att) : Exc PUnit :=
  if !checks c.s c.u then .ok ()
  else match placeOf? c.s c.u.core c.ctx sp.loc sp.va with
    | none => .ok ()
    | some p =>
      if !checkedPlace p.sp p.pte then .ok ()
      else match refusal c.s c.u c.g.gid (p.access n t) with
        | none => .ok ()
        | some r => stop { code := C.MMX, detail := r.detail (p.access n t) sp.va, faddr := BitVec.ofNat 64 sp.va }

/-- Rows 1 to 8 for one lane. -/
def Cx.check (c : Cx) (base : Opd) (vault : Bool) (l : Nat) (off : Int) (n align : Nat) (t : Att) : Exc Spot := do
  let sp ← c.spot base vault l off n align t.write
  c.raceRow l sp n t
  return sp

/-- Lanes that pass rows 9 to 11, and those that do not. -/
def Cx.landAll (c : Cx) (sps : List (Nat × Spot)) (n : Nat) (write reads : Bool) : List (Nat × Place) × List (Nat × Trap) :=
  let rs := sps.map fun (l, sp) => (l, c.land l sp n write reads)
  (rs.filterMap fun (l, r) => match r with | .ok p => some (l, p) | .error _ => none,
   rs.filterMap fun (l, r) => match r with | .ok _ => none | .error t => some (l, t))

/-- A place the machine does not have (R4). -/
def Place.missing (p : Place) : Bool := p.sp < 4 && !physExists p.sp p.a

/-- Stops at the first place the machine does not have. -/
def noHole (ps : List (Nat × Place)) : Exc PUnit :=
  match ps.find? fun p => p.2.missing with
  | some p => .error (.fault (.noSuchAddress p.2.sp p.2.a))
  | none => .ok ()

/-- Every lane's place, where every cause is precise (R141). -/
def Cx.placesPrecise (c : Cx) (sps : List (Nat × Spot)) (n : Nat) (write reads : Bool) : Exc (List (Nat × Place)) := do
  let (ok, bad) := c.landAll sps n write reads
  match bad with
  | (_, t) :: _ => stop t
  | [] =>
    noHole ok
    return ok

/-- What a strong read by an agent acquires from the bytes it reads (R314). -/
def Race.reads (s : State) (u : Unit) (agent : Nat) (p : Place) (n : Nat) (t : Att) : Race :=
  u.race.readAt u.key agent (dieMates s u t.scope) (heldAt s p.sp p.a n) t.acq t.scope

/-- The clock edges of an access (R314). The write itself has stood in for what its bytes held; the supervisor's regions hold no
releases. -/
def passClocks (s : State) (u : Unit) (agent : Nat) (p : Place) (n : Nat) (t : Att) : State :=
  if p.sp = 4 then s
  else
    let held := heldAt s p.sp p.a n
    let near := dieMates s u t.scope
    let s := if (!t.write || t.rmw) && t.strong then withRace s u.key fun _ => Race.reads s u agent p n t else s
    if !t.write then s
    else match s.unit? u.key with
      | none => s
      | some u =>
        let left := leftAt u.race u.key agent near held t.rel t.strong t.rmw t.scope
        let s := if left.isEmpty then s else setHeld s p.sp p.a n left
        if t.rel then withRace s u.key fun r => r.advance agent else s

/-- What a performed access leaves to race detection and ordering (R314, R321, R322); the supervisor's reading of a request record
follows the scall that wrote it. -/
def notePlace (s : State) (k : UKey) (agent : Nat) (p : Place) (n : Nat) (t : Att) : State :=
  match s.unit? k with
  | none => s
  | some u =>
    if !s.tracks then s
    else
      let s := if checks s u && checkedPlace p.sp p.pte then noteAccess s k agent (p.access n t) else s
      let s := passClocks s u agent p n t
      let s := if isSuper k && p.sp = 4 && p.a < 0x800 then
          withRace s k fun r => r.learn k agent (Sparse.get [] (s.core u.core).mknow (p.a / 128))
        else s
      if t.rel && 3 ≤ t.scope then endOwnership s k else s

/-- An access to pool memory leaves its line in the I/O die's line cache (R385). -/
def poolLine (s : State) (p : Place) : State :=
  if p.sp != 1 || s.poolCache.contains (p.a / 64) then s else { s with poolCache := s.poolCache ++ [p.a / 64] }

/-- The virtual address that an access walks: that of the window's backing store for an access through the object aperture (R36, R37). -/
def walkedVa (s : State) (ctx va : Nat) : Nat :=
  if !isPtr va then va else match s.ctx? ctx with | some c => (c.slotRes (ptrSlot va)).backva + ptrOff va | none => va

/-- A core's access to a page that its TLB does not hold has missed: a walk is due, one for a 4 KiB span (R374). -/
def missAt (s : State) (core ctx va : Nat) : State :=
  if (s.core core).tlb.any (fun t => t.serves ctx va) then s else s.due (.pageWalk core ctx (BitVec.ofNat 64 (va / 4096 * 4096)))

/-- The same for the place of a data access. -/
def missWalk (s : State) (core ctx : Nat) (p : Place) : State :=
  if p.pte.isNone then s else missAt s core ctx (walkedVa s ctx p.va)

/-- Notes the accesses of all lanes. -/
def Cx.noteAll (c : Cx) (s : State) (ps : List (Nat × Place)) (n : Nat) (t : Att) : State :=
  let s := if t.rmw then ps.foldl (fun s p => keepHeld c.s s p.2.sp p.2.a n) s else s
  ps.foldl (fun s p => notePlace (missWalk (poolLine s p.2) c.u.core c.u.ctx p.2) c.u.key c.g.gid p.2 n t) s

/-- A .sys scope under tenant-scope policy: the flag, or the trap of a STRICT launch (R154). -/
def Cx.sysScope (c : Cx) (ordered : Bool) (scope : Nat) : Exc Nat :=
  if ordered && scope = 4 && c.ctx.tenant then
    if c.flag (·.strict) then stop { code := C.SCOPE } else .ok fSCOPEDEM
  else .ok 0

/-- The scope an access acts at (R154). -/
def Cx.actScope (c : Cx) (scope : Nat) : Nat := if scope = 4 && c.ctx.tenant then tenantScope else scope

/-! ## Data -/

/-- The tag check of a data source (R140). -/
def Cx.dataTag (c : Cx) (d : Opd) (t : Ty) : Exc PUnit := do
  let g ← c.tag d t.regs
  if g = .ptr then (if c.flag (·.localptr) then .ok () else c.format d c.l0)
  else if t.isBits || g = .raw || g = t.tag then .ok ()
  else c.format d c.l0

/-- A loaded value as its registers hold it: sub-word types are extended (R143). -/
def extendTy (t : Ty) (v : Nat) : Nat :=
  match t with
  | .i8 => wrap 32 (sext 8 v)
  | .i16 => wrap 32 (sext 16 v)
  | _ => v

/-- The lanes that access memory in a load: one for a uniform destination (R138). -/
def Cx.loadLanes (c : Cx) (d : Opd) : List Nat := match d with | .v _ => c.lanes | _ => [c.l0]

/-- Reads the places of a load. -/
def Cx.loadAll (c : Cx) (t : Ty) (ps : List (Nat × Place)) : List (Nat × Nat) :=
  ps.map fun (l, p) => (l, extendTy t (c.s.load c.u.core p.sp p.a t.size))

/-- Ends a load: registers, then what the accesses leave (R140). -/
def Cx.endLoad (c : Cx) (d : Opd) (t : Ty) (ps : List (Nat × Place)) (fl : Nat) (att : Att) : State :=
  let vs := c.loadAll t ps
  let g := (c.g.write d t.regs t.tag (laneVal 0 vs) c.ex).orFlags fl
  c.noteAll (c.put g) ps t.size att

/-- Whether two lanes access one place. -/
def clash : List (Nat × Place) → Bool
  | [] => false
  | p :: ps => ps.any (fun q => q.2.sp == p.2.sp && q.2.a == p.2.a) || clash ps

/-- The order in which lanes are applied where it is open: any order when two lanes name one place, for then it matters
(R146, R311, log 10). -/
def openOrder (s : State) (ps : List (Nat × Place)) : List (Nat × Place) :=
  if clash ps then insertAll (fun p q => Config.laneRank s.tick p.1 ≤ Config.laneRank s.tick q.1) ps else ps
where
  insertAll (r : Nat × Place → Nat × Place → Bool) : List (Nat × Place) → List (Nat × Place)
    | [] => []
    | p :: ps => put r p (insertAll r ps)
  put (r : Nat × Place → Nat × Place → Bool) (p : Nat × Place) : List (Nat × Place) → List (Nat × Place)
    | [] => [p]
    | q :: qs => if r p q then p :: q :: qs else q :: put r p qs

/-- Performs stores in a given order. -/
def storeAll (s : State) (core ctx n : Nat) (val : Nat → Nat) : List (Nat × Place) → State
  | [] => s
  | (l, p) :: ps => storeAll (markDirty (s.store core p.sp p.a n (val l)) ctx p.va) core ctx n val ps

/-- The record of the lanes of a store that met rows 9 to 11 (R142, R365). -/
def Cx.faultRecord (c : Cx) (bad : List (Nat × Trap)) (n : Nat) (val : Nat → Nat) : Option StoreFault :=
  match bad with
  | [] => none
  | (l, t) :: _ =>
    some { va := t.faddr, pc := c.pc, code := t.code, data := BitVec.ofNat 64 (val l % 2 ^ (8 * min n 8)),
           mask := bad.foldl (fun m b => m ||| BitVec.ofNat 32 (2 ^ b.1)) 0, gid := c.g.gid, lg := Nat.log2 n, estat := t.estat }

/-- Sends the record on its way to the queue. -/
def Cx.queue (c : Cx) (s : State) (r : Option StoreFault) : State :=
  match r with
  | some r => s.dueAgain (.storeFaultRecord c.u.key r)
  | none => s

/-- Whether a store of 1 with .rel goes to GO of the admission port (R362). -/
def goStored (ps : List (Nat × Place)) (val : Nat → Nat) (att : Att) : Bool :=
  att.rel && ps.any fun (l, p) => p.sp == 4 && p.a == portGo && val l == 1

/-- Ends a store form: stores, the record, what the accesses leave (R142). -/
def Cx.endStore (c : Cx) (sps : List (Nat × Spot)) (n : Nat) (val : Nat → Nat) (ordered : Bool) (fl : Nat) (att : Att) : Exc State := do
  let (ok, bad) := c.landAll sps n true false
  noHole ok
  let s := c.put (c.g.orFlags fl)
  let s := storeAll s c.u.core c.u.ctx n val (if ordered then ok else openOrder c.s ok)
  let s := if goStored ok val att then s.due (.admissionPortGo c.u.core) else s
  return c.noteAll (c.queue s (c.faultRecord bad n val)) ok n att

/-! ## ld, st, gld, gst, cst, xld (R143 to R145) -/

def execLd (o : Op) (m : ModM) (s : State) : Host.Outcome State Fault Refusal :=
  word s o fun c => do
    let vault := m.space = 1
    let n := m.ty.size
    let att := ordAtt m.ord (c.actScope m.scope) false false
    let _ ← c.needBase o.a vault
    let _ ← c.need o.b 1 [.i32]
    let fl ← c.sysScope (m.ord != 0) m.scope
    let sps ← mapLanes (fun l => c.check o.a vault l (c.offM o n o.disp l) n n att) (c.loadLanes o.d)
    let ps ← c.placesPrecise sps n false true
    return c.endLoad o.d m.ty ps fl att

def execSt (o : Op) (m : ModM) (s : State) : Host.Outcome State Fault Refusal :=
  word s o fun c => do
    let vault := m.space = 1
    let n := m.ty.size
    let att := ordAtt m.ord (c.actScope m.scope) true false
    if 2 ≤ m.ord then c.drain
    let _ ← c.needBase o.a vault
    let _ ← c.need o.b 1 [.i32]
    c.dataTag o.d m.ty
    let fl ← c.sysScope (m.ord != 0) m.scope
    let sps ← mapLanes (fun l => c.check o.a vault l (c.offM o n o.disp l) n n att) c.lanes
    c.endStore sps n (fun l => c.val o.d m.ty.regs l % 2 ^ (8 * n)) false fl att

/-- The index of a gather or scatter in a lane, scaled (R74, R144). -/
def Cx.offG (c : Cx) (o : Op) (g : ModG) (l : Nat) : Int :=
  let w := 8 * 2 ^ g.iw
  let x := c.val o.b (if g.iw = 3 then 2 else 1) l % 2 ^ w
  (if g.isgn then sext w x else (x : Int)) * 2 ^ g.sc + o.disp

/-- The tag check of an index. R76 lists I32 and RAW for V[B]; an index of 64 bits is a pair, whose tag is I64 or RAW
(DEDUCED, log 68). -/
def Cx.needIndex (c : Cx) (o : Op) (g : ModG) : Exc PUnit := do
  if g.iw = 3 then
    let _ ← c.need o.b 2 [.i64]
  else
    let _ ← c.need o.b 1 [.i32]

def execGld (o : Op) (g : ModG) (s : State) : Host.Outcome State Fault Refusal :=
  word s o fun c => do
    let vault := g.space = 1
    let n := g.ty.size
    let _ ← c.needBase o.a vault
    c.needIndex o g
    let sps ← mapLanes (fun l => c.check o.a vault l (c.offG o g l) n n {}) c.lanes
    let ps ← c.placesPrecise sps n false true
    return c.endLoad o.d g.ty ps 0 {}

def execGst (o : Op) (g : ModG) (s : State) : Host.Outcome State Fault Refusal :=
  word s o fun c => do
    let vault := g.space = 1
    let n := g.ty.size
    let att : Att := { write := true }
    let _ ← c.needBase o.a vault
    c.needIndex o g
    c.dataTag o.d g.ty
    let sps ← mapLanes (fun l => c.check o.a vault l (c.offG o g l) n n att) c.lanes
    c.endStore sps n (fun l => c.val o.d g.ty.regs l % 2 ^ (8 * n)) true 0 att

/-- The place of a lane among the executing lanes (R145). -/
def Cx.laneIndex (c : Cx) (l : Nat) : Nat := (c.lanes.filter (· < l)).length

def execCst (o : Op) (m : ModM) (s : State) : Host.Outcome State Fault Refusal :=
  word s o fun c => do
    let vault := m.space = 1
    let n := m.ty.size
    let att : Att := { write := true }
    let _ ← c.needBase o.a vault
    c.dataTag o.d m.ty
    let sps ← mapLanes (fun l => c.check o.a vault l (o.disp + c.laneIndex l * n) n n att) c.lanes
    c.endStore sps n (fun l => c.val o.d m.ty.regs l % 2 ^ (8 * n)) true 0 att

def execXld (o : Op) (m : ModM) (s : State) : Host.Outcome State Fault Refusal :=
  word s o fun c => do
    let vault := m.space = 1
    let n := m.ty.size
    let _ ← c.needBase o.a vault
    let sps ← mapLanes (fun l => c.check o.a vault l (o.disp + c.laneIndex l * n) n n {}) c.lanes
    let ps ← c.placesPrecise sps n false true
    return c.endLoad o.d m.ty ps 0 {}

/-! ## Atomics (R146 to R149) -/

/-- The new value of a read-modify-write (R146). -/
def atomicNew (fn : Nat) (t : Ty) (old x y : Nat) : Nat :=
  let f := fmtOf t
  let isF := t == .f32 || t == .f64
  match fn with
  | 0 => if isF then (f.arith .rn (flAdd .rn (f.read old) (f.read x)).1).1 else (old + x) % 2 ^ t.width
  | 1 => if isF then (f.minMax false old x).1 else if t.int x < t.int old then x else old
  | 2 => if isF then (f.minMax true old x).1 else if t.int old < t.int x then x else old
  | 3 => old &&& x
  | 4 => old ||| x
  | 5 => old ^^^ x
  | 6 => x
  | _ => if old = x then y else old

/-- Applies read-modify-writes in a given order; the old values by lane. -/
def rmwAll (s : State) (core ctx fn : Nat) (t : Ty) (x y : Nat → Nat) : List (Nat × Place) → State × List (Nat × Nat)
  | [] => (s, [])
  | (l, p) :: ps =>
    let old := s.load core p.sp p.a t.size
    let s := markDirty (s.store core p.sp p.a t.size (atomicNew fn t old (x l) (y l))) ctx p.va
    let (s, more) := rmwAll s core ctx fn t x y ps
    (s, (l, old) :: more)

/-- The register offset of the new value of a .cas. -/
def Cx.casNew (c : Cx) (o : Opd) (n l : Nat) : Nat := c.val o (2 * n) l / 2 ^ (32 * n)

def execAtom (o : Op) (m : ModM) (s : State) : Host.Outcome State Fault Refusal :=
  word s o fun c => do
    let vault := m.space = 1
    let n := m.ty.size
    let k := m.ty.regs
    let att := ordAtt m.ord (c.actScope m.scope) true true
    if 2 ≤ m.ord then c.drain
    let _ ← c.needBase o.a vault
    let _ ← c.need o.b 1 [.i32]
    c.dataTag o.c m.ty
    if o.fn = 7 then c.dataTag (o.c.plus k) m.ty
    let fl ← c.sysScope true m.scope
    let sps ← mapLanes (fun l => c.check o.a vault l (c.offM o n 0 l) n n att) c.lanes
    let ps ← c.placesPrecise sps n true true
    let (s, olds) := rmwAll c.s c.u.core c.u.ctx o.fn m.ty (c.val o.c k) (c.casNew o.c k) (openOrder c.s ps)
    let s := s.modGrp c.u.key c.g.gid fun g => (g.write o.d k m.ty.tag (laneVal 0 olds) c.ex).orFlags fl
    return c.noteAll s ps n att

def execRed (o : Op) (m : ModM) (s : State) : Host.Outcome State Fault Refusal :=
  word s o fun c => do
    let vault := m.space = 1
    let n := m.ty.size
    let k := m.ty.regs
    let att := ordAtt m.ord (c.actScope m.scope) true true
    if 2 ≤ m.ord then c.drain
    let _ ← c.needBase o.a vault
    let _ ← c.need o.b 1 [.i32]
    c.dataTag o.d m.ty
    let fl ← c.sysScope true m.scope
    let sps ← mapLanes (fun l => c.check o.a vault l (c.offM o n o.disp l) n n att) c.lanes
    let (ok, bad) := c.landAll sps n true true
    noHole ok
    let s := c.put (c.g.orFlags fl)
    let (s, _) := rmwAll s c.u.core c.u.ctx o.fn m.ty (c.val o.d k) (fun _ => 0) (openOrder c.s ok)
    return c.noteAll (c.queue s (c.faultRecord bad n (c.val o.d k))) ok n att

/-! ## waitv, fence, sdrain, pf (R150 to R153) -/

/-- The waitv of a group at its entry: every executing lane's comparison holds at once, or the entry waits (R150). -/
def Cx.waitvBody (c : Cx) (o : Op) (m : ModM) : Exc State := do
  let vault := m.space = 1
  let n := m.ty.size
  let k := m.ty.regs
  let att : Att := { strong := true, acq := m.ord % 2 == 1, scope := c.actScope m.scope }
  let _ ← c.needBase o.a vault
  let _ ← c.need o.b 1 [.i32]
  if m.ty.isBits then
    let _ ← c.any o.d k
  else
    let _ ← c.need o.d k [m.ty.intTag]
  let fl ← c.sysScope (m.ord != 0) m.scope
  let sps ← mapLanes (fun l => c.check o.a vault l (c.offM o n o.disp l) n n att) c.lanes
  let ps ← c.placesPrecise sps n false true
  if ps.all fun (l, p) => compareInt o.fn (m.ty.int (c.s.load c.u.core p.sp p.a n)) (m.ty.int (c.val o.d k l)) then
    return c.noteAll (c.put (c.g.orFlags fl)) ps n att
  else .error (.wait .waitv)

def execWaitv (o : Op) (m : ModM) (s : State) : Host.Outcome State Fault Refusal := word s o fun c => c.waitvBody o m

def execFence (o : Op) (x : ModX) (s : State) : Host.Outcome State Fault Refusal :=
  word s o fun c => do
    let ord := x.f 40 39
    let scope := c.actScope (x.f 38 36)
    c.drain
    let fl ← c.sysScope true (x.f 38 36)
    let s := withRace (c.put (c.g.orFlags fl)) c.u.key fun r => r.fence c.u.key c.g.gid (dieMates c.s c.u scope) (ord % 2 == 1) (2 ≤ ord) scope
    return if 2 ≤ ord && 3 ≤ scope then endOwnership s c.u.key else s

def execSdrain (o : Op) (_x : ModX) (s : State) : Host.Outcome State Fault Refusal :=
  word s o fun c => do
    c.drain
    return c.s

def execPf (o : Op) (_m : ModM) (s : State) : Host.Outcome State Fault Refusal :=
  word s o fun c => do
    let _ ← c.needBase o.a false
    let _ ← c.need o.b 1 [.i32]
    return c.s

/-! ## Tiles (R155 to R158) -/

/-- The eight registers of a tile as 256 words in the order of its bytes (R155). -/
def tileWords (g : Group) (r : Nat) : List Nat := (List.range 256).map fun i => (g.getV (r + i / 32) (i % 32)).toNat

/-- Writes a tile into its registers, with one tag (R155). -/
def setTile (g : Group) (r : Nat) (tag : Tag) (ws : List Nat) : Group :=
  let g := ws.zipIdx.foldl (fun g (w, i) => g.setV (r + i / 32) (i % 32) (BitVec.ofNat 32 w)) g
  (List.range 8).foldl (fun g i => g.setVtag (r + i) tag) g

/-- The register number of a v operand. -/
def vnum (o : Opd) : Nat := match o with | .v r => r | _ => 0

/-- Reads `n` words at a place. -/
def loadWords (s : State) (core sp a n : Nat) : List Nat := (List.range n).map fun i => s.load core sp (a + 4 * i) 4

/-- Writes words at a place. -/
def storeWords (s : State) (core sp a : Nat) : List Nat → State
  | [] => s
  | w :: ws => storeWords (s.store core sp a 4 w) core sp (a + 4) ws

def execTld (o : Op) (m : ModM) (s : State) : Host.Outcome State Fault Refusal :=
  word s o fun c => do
    let vault := m.space = 1
    let att := ordAtt m.ord (c.actScope m.scope) false false
    let _ ← c.needBase o.a vault
    let fl ← c.sysScope (m.ord != 0) m.scope
    let sps ← mapLanes (fun l => c.check o.a vault l o.disp 1024 1024 att) [c.l0]
    let ps ← c.placesPrecise sps 1024 false true
    match ps with
    | [] => return c.s
    | (_, p) :: _ =>
      let g := setTile c.g (vnum o.d) m.ty.tag (loadWords c.s c.u.core p.sp p.a 256)
      return c.noteAll (c.put (g.orFlags fl)) ps 1024 att

/-- Plain tst (R156). The record of its 256 writes names all 32 lanes and 1,024 bytes: R142 and R365 give no lane mask and no size
for a uniform store (DESIGN CHOICE, log 71). -/
def execTst (o : Op) (m : ModM) (s : State) : Host.Outcome State Fault Refusal :=
  word s o fun c => do
    let vault := m.space = 1
    let att := ordAtt m.ord (c.actScope m.scope) true false
    if 2 ≤ m.ord then c.drain
    let _ ← c.needBase o.a vault
    c.needRange o.d [m.ty.tag] 8
    let fl ← c.sysScope (m.ord != 0) m.scope
    let sps ← mapLanes (fun l => c.check o.a vault l o.disp 1024 1024 att) [c.l0]
    let (ok, bad) := c.landAll sps 1024 true false
    noHole ok
    let ws := tileWords c.g (vnum o.d)
    let s := c.put (c.g.orFlags fl)
    let s := ok.foldl (fun s p => markDirty (storeWords s c.u.core p.2.sp p.2.a ws) c.u.ctx p.2.va) s
    let rec? := (c.faultRecord bad 4 (fun _ => ws.getD 0 0)).map fun r => { r with lg := 10, mask := BitVec.allOnes 32 }
    return c.noteAll (c.queue s rec?) ok 1024 att

/-- The row of R141 that a cause stands in; a BOUNDS of a vault access is of row 1 where the access leaves the vault. -/
def causeRow (leaves : Bool) (t : Trap) : Nat :=
  if t.code = C.BOUNDS then (if leaves then 1 else 6)
  else if t.code = C.PTRWRAP then 2
  else if t.code = C.ALIGN then 3
  else if t.code = C.XLATE then 4
  else if t.code = C.STALEPTR then 5
  else if t.code = C.PERM then 7
  else if t.code = C.MMX then 8
  else 9

/-- Two accesses of one lane: the cause of the lower row first, the first access's where both stand in one; a wait of the one hides no
cause of the other (R141). -/
def inRowOrder {α β : Type} (ra rb : Trap → Nat) (a : Exc α) (b : Exc β) : Exc (α × β) :=
  match a, b with
  | .error (.trap t), .error (.trap u) => if rb u < ra t then stop u else stop t
  | .error (.wait _), .error (.trap u) => stop u
  | _, _ => do
    let x ← a
    let y ← b
    return (x, y)

/-- Whether an access of `n` bytes at a vault base leaves the vault (R76). -/
def Cx.leavesVault (c : Cx) (base : Opd) (vault : Bool) (n : Nat) : Bool := vault && 2 ^ 22 < c.val base 1 c.l0 % 2 ^ 22 + n

/-- The view in which the body of a tile is checked for races: its accesses stand behind what reading the version acquires (R157, R314). -/
def Cx.behind (c : Cx) (v : Exc Spot) (ver : Att) : Cx :=
  match v with
  | .ok sp =>
    match placeOf? c.s c.u.core c.ctx sp.loc sp.va with
    | some p => if c.s.tracks then { c with u := { c.u with race := Race.reads c.s c.u c.g.gid p 8 ver } } else c
    | none => c
  | .error _ => c

/-- Rows 1 to 8 of a versioned tile and its version word, in row order (R141, R157). -/
def Cx.tilePair (c : Cx) (o : Op) (vault : Bool) (body ver : Att) : Exc (Spot × Spot) :=
  let v := c.check o.b vault c.l0 0 8 8 ver
  inRowOrder (causeRow (c.leavesVault o.a vault 1024)) (causeRow (c.leavesVault o.b vault 8))
    ((c.behind v ver).check o.a vault c.l0 0 1024 1024 body) v

/-- Rows 9 to 11: XLATE, PERM, ECC (R141). -/
def lateRow (t : Trap) : Nat := if t.code = C.XLATE then 9 else if t.code = C.PERM then 10 else 11

/-- Rows 9 to 11 of a version word: tst.all loads it before it writes it, so that it needs both rights (R157, R373). -/
def Cx.versionPlaces (c : Cx) (v : Spot) (write : Bool) : Exc (List (Nat × Place)) :=
  let read := c.placesPrecise [(c.l0, v)] 8 false true
  if write then (inRowOrder lateRow lateRow read (c.placesPrecise [(c.l0, v)] 8 true true)).map (·.2) else read

/-- Rows 9 to 11 of a versioned tile and its version word, in row order (R141, R157). -/
def Cx.pairPlaces (c : Cx) (t v : Spot) (write : Bool) : Exc (List (Nat × Place) × List (Nat × Place)) :=
  inRowOrder lateRow lateRow (c.placesPrecise [(c.l0, t)] 1024 write (!write)) (c.versionPlaces v write)

/-- One reading of a tile and its version by tld.ver: steps are whole, so both readings of the version agree (R157). -/
def Cx.readTile (c : Cx) (p v : Place) : List Nat × Bool :=
  (loadWords c.s c.u.core p.sp p.a 256, c.s.load c.u.core v.sp v.a 8 % 2 == 0)

def execTldVer (o : Op) (m : ModM) (s : State) : Host.Outcome State Fault Refusal :=
  word s o fun c => do
    let vault := m.space = 1
    let body : Att := { tile := true }
    let ver : Att := { strong := true, acq := true, tile := true, scope := c.actScope m.scope }
    let _ ← c.needBase o.a vault
    let _ ← c.needBase o.b vault
    let fl ← c.sysScope true m.scope
    let (t, v) ← c.tilePair o vault body ver
    let (pt, pv) ← c.pairPlaces t v false
    match pt, pv with
    | (_, p) :: _, (_, q) :: _ =>
      let (ws, good) := c.readTile p q
      let g := (setTile c.g (vnum o.d) m.ty.tag ws).write o.c 1 .raw (fun _ => if good then 1 else 0) (BitVec.allOnes 32)
      return c.noteAll (c.noteAll (c.put (g.orFlags fl)) pt 1024 body) pv 8 ver
    | _, _ => return c.s

/-- Whether the halt of the unit stops this writer between its two version writes: only a group in its skid can be (R157, R353). -/
def Cx.cutShort (c : Cx) : Bool := match c.g.run with | .skid _ _ => Config.cutTile c.s.tick | _ => false

/-- tst.all: the store of a tile with its version in one step, or a wait for the version to become even. A writer halted between its two
version writes leaves the word odd, and waits like any other from then on (R157). -/
def Cx.tstAllBody (c : Cx) (o : Op) (m : ModM) : Exc State := do
  let vault := m.space = 1
  let body : Att := { write := true, tile := true }
  let ver : Att := { write := true, strong := true, acq := true, rel := true, rmw := true, tile := true, scope := c.actScope m.scope }
  c.drain
  let _ ← c.needBase o.a vault
  let _ ← c.needBase o.b vault
  c.needRange o.d [m.ty.tag] 8
  let fl ← c.sysScope true m.scope
  let (t, v) ← c.tilePair o vault body ver
  let (pt, pv) ← c.pairPlaces t v true
  match pt, pv with
  | (_, p) :: _, (_, q) :: _ =>
    let old := c.s.load c.u.core q.sp q.a 8
    if old % 2 = 1 then .error (.wait .version)
    else if c.cutShort then
      .error (.waitWith (c.noteAll (markDirty (c.s.store c.u.core q.sp q.a 8 (old + 1)) c.u.ctx q.va) pv 8 { ver with rel := false }) .version)
    else
      let s := c.put (c.g.orFlags fl)
      let s := markDirty (storeWords s c.u.core p.sp p.a (tileWords c.g (vnum o.d))) c.u.ctx p.va
      let s := markDirty (s.store c.u.core q.sp q.a 8 ((old + 2) % 2 ^ 64)) c.u.ctx q.va
      return c.noteAll (c.noteAll s pt 1024 body) pv 8 ver
  | _, _ => return c.s

def execTstAll (o : Op) (m : ModM) (s : State) : Host.Outcome State Fault Refusal := word s o fun c => c.tstAllBody o m

end Sys2Proof.Machine
end

