-- ==== Sys2Proof/Machine/Slots.lean ====
section
/-! DEFINITION. Accumulator slots and what the scoreboard of R22 and R168 holds: the registers of a trsolve, the slots a command
writes, the tags it may change, and the engine agents (R23, R24, R265, R274 to R276, R316). -/

namespace Sys2Proof.Machine

/-! ## Registers held by a trsolve (R168) -/

/-- The vector registers that a position of a word names: up to the grant with which R78 would accept it. -/
def spanAt (i : Instr) (field n : Nat) : List Nat :=
  if 256 ≤ n then [] else rangeFrom n (((List.range 33).find? fun k => !(i.faults (n + k) false).contains (field, 7)).getD 33)

/-- The vector registers a word reads or writes; rgrp n reads v0 to v(n − 1) (R135). -/
def touched (w : Nat) (i : Instr) : List Nat :=
  let f := parse w
  spanAt i 3 f.d ++ spanAt i 4 f.a ++ spanAt i 5 f.b ++ spanAt i 9 (f.imm % 512)
  ++ (match i with | .rgrp o _ => rangeFrom 0 (o.imm % 512) | _ => [])

/-- Whether a word waits for registers that a command of its group holds. -/
def vregHeld (u : Unit) (g : Group) (w : Nat) (i : Instr) : Bool :=
  let held := u.vregsHeld g.gid
  !held.isEmpty && meets held (touched w i)

/-! ## Accumulator slots (R23, R24, R265, R274 to R276) -/

def Unit.accWord (u : Unit) (slot w : Nat) : Nat := (Sparse.get 0 u.acc (512 * slot + w)).toNat
def Unit.accTag (u : Unit) (slot : Nat) : Tag := Sparse.get .raw u.acct slot

def Unit.setAccWord (u : Unit) (slot w v : Nat) : Unit :=
  { u with acc := Sparse.set 0 u.acc (512 * slot + w) (BitVec.ofNat 32 v) }

def Unit.setAccTag (u : Unit) (slot : Nat) (t : Tag) : Unit := { u with acct := Sparse.set .raw u.acct slot t }

/-- Replaces the words of a slot from word `w` on. -/
def Unit.setAccWords (u : Unit) (slot w : Nat) : List Nat → Unit
  | [] => u
  | v :: vs => (u.setAccWord slot w v).setAccWords slot (w + 1) vs

/-- The words of a slot. -/
def Unit.accSlot (u : Unit) (slot : Nat) : List Nat := (List.range 512).map (u.accWord slot)

/-- The mark by which the model knows the base slot of a factor tile, beside the record of R275 (log 28). -/
def tileBase : Nat := 256

/-- The factor record of a slot (R275). -/
def Unit.record (u : Unit) (slot : Nat) : Nat := Sparse.get 0 u.accr slot

def recNc (r : Nat) : Nat := r / 64 % 4
def recF64 (r : Nat) : Bool := r.testBit 5
def recCur (r : Nat) : Nat := r / 16 % 2

/-- A record (R275). -/
def recOf (nc : Nat) (f64 : Bool) (cur : Nat) : Nat := tileBase + nc * 64 + f64.toNat * 32 + cur * 16

/-- The base of the factor tile a slot belongs to. -/
def Unit.tileOf (u : Unit) (slot : Nat) : Option Nat :=
  if u.accTag slot != .tri then none
  else (List.range (slot + 1)).reverse.find? fun b =>
    tileBase ≤ u.record b && slot < b + 2 * Legal.tileHalf (recNc (u.record b)) (recF64 (u.record b))

/-- The slot that a read of a slot reaches: the same place of the current half of a tile (R276). -/
def Unit.curSlot (u : Unit) (slot : Nat) : Nat :=
  match u.tileOf slot with
  | none => slot
  | some b =>
    let n := Legal.tileHalf (recNc (u.record b)) (recF64 (u.record b))
    b + recCur (u.record b) * n + (slot - b) % n

/-- Whether a slot belongs to a tile of FP64 elements. -/
def Unit.triF64 (u : Unit) (slot : Nat) : Bool := match u.tileOf slot with | some b => recF64 (u.record b) | none => false

/-- FORMAT for an accumulator slot (R363). -/
def slotFormat (u : Unit) (slot : Nat) : Exc α :=
  stop { code := C.FORMAT, detail := slot + (u.accTag slot).code * 2 ^ 9 + 2 ^ 18 }

/-- FORMAT at the first of the slots that the unit has whose tag is refused (R185, R191). -/
def needSlots (u : Unit) (ok : Tag → Bool) (slots : List Nat) : Exc PUnit :=
  match slots.find? fun k => k < u.aslots && !ok (u.accTag k) with
  | some k => slotFormat u k
  | none => .ok ()

/-- BOUNDS with the lowest executing lane (R363). -/
def Cx.bounds (c : Cx) : Exc α := stop { code := C.BOUNDS, detail := c.l0 * 256 }

/-- BOUNDS for a slot the unit does not have (R23). -/
def Cx.haveSlots (c : Cx) (slots : List Nat) : Exc PUnit := if slots.any fun k => c.u.aslots ≤ k then c.bounds else .ok ()

/-! ## What a command holds and waits for (R168, R180) -/

/-- FMT of an mmq, and whether its tile is FP64 (R185). -/
def mmqFmt (x : ModX) : Nat := x.f 44 42

/-- The slots of a quarter of an mmq. -/
def mmqSlots (o : Op) (x : ModX) (q : Nat) : List Nat :=
  if mmqFmt x = 5 then [o.d.code + 2 * q, o.d.code + 2 * q + 1] else [o.d.code + q]

/-- The slots of an accumulator move. -/
def moveSlots (o : Op) (pair : Bool) : List Nat := let k := o.imm % 128; if pair then [k, k + 1] else [k]

/-- Size, half, base and slots of a factor tile (R190, R191). -/
def facN (x : ModX) : Nat := 8 * 2 ^ facNc x
def facHalf (x : ModX) : Nat := Legal.tileHalf (facNc x) (facF64 x)
def facT (o : Op) : Nat := o.imm % 128
def facSecond (o : Op) : Nat := o.imm / 256 % 128
def facTile (o : Op) (x : ModX) : List Nat := rangeFrom (facT o) (2 * facHalf x)

/-- The Gram slots of trchol and the source slots of trupd8 (R191, R192). -/
def gramSlots (o : Op) (x : ModX) : List Nat := rangeFrom (facSecond o) (if facF64 x then facN x / 4 else facN x / 8)
def sourceSlots (o : Op) (x : ModX) : List Nat := rangeFrom (facSecond o) (if facF64 x then 2 else 1)

/-- The slots a command still writes (R168). -/
def Cmd.writes (m : Cmd) : List Nat :=
  match m.ins with
  | .mmq o x => m.quarters.flatMap (mmqSlots o x)
  | .accld o x => moveSlots o (x.f 37 36 == 3)
  | .trchol o x | .trupd o x | .trupd8 o x | .trdwd o x | .trscale o x => facTile o x
  | _ => []

/-- The slots a command has still to read: a factor command reads its tile, Gram and source slots when it starts, an accst its slots in
its piece (R168, R277). -/
def Cmd.reads (m : Cmd) : List Nat :=
  match m.ins with
  | .accst o x => moveSlots o (x.f 37 36 == 3)
  | .trchol o x => if m.snap.isNone then gramSlots o x else []
  | .trupd8 o x => if m.snap.isNone then sourceSlots o x else []
  | .trsolve o x => if m.snap.isNone then facTile o x else []
  | _ => []

/-- Whether a command stands in the way of a later use of slots by its group: it still writes one of them (R168), or has still to read
one that the use writes, so that its read sees the last write before it in program order (R22, R188, R277). -/
def Cmd.blocks (m : Cmd) (rd wr : List Nat) : Bool := meets m.writes (rd ++ wr) || meets m.reads wr

/-- Whether commands of a group stand in the way of a word that reads and writes these slots. -/
def Unit.slotsHeld (u : Unit) (gid : Nat) (rd wr : List Nat) : Bool := u.cmds.any fun m => m.2.gid == gid && m.2.blocks rd wr

/-- A use of slots stalls until the group's own commands that stand in its way have ended, or have read (R22, R168). -/
def Cx.slotsFree (c : Cx) (rd wr : List Nat) : Exc PUnit := if c.u.slotsHeld c.g.gid rd wr then .error (.wait .engine) else .ok ()

/-- The commands issued before one of an agent. -/
def Unit.before (u : Unit) (agent : Nat) : List (Nat × Cmd) := u.cmds.takeWhile fun m => m.1 != agent

/-- No earlier command of the group stands in the way of a command's slots (R168). -/
def Unit.depsDone (u : Unit) (agent : Nat) (m : Cmd) : Bool :=
  (u.before agent).all fun e => e.2.gid != m.gid || !e.2.blocks m.reads m.writes

def Unit.cmd? (u : Unit) (agent : Nat) : Option Cmd := (u.cmds.find? fun m => m.1 == agent).map (·.2)

/-- The tag an accld names (R189). -/
def accKind (k : Nat) : Tag := match k with | 0 => .raw | 1 => .i32 | 2 => .f32 | _ => .f64

/-- Whether a range holds a tile of the command's order and format: every slot is TRI and the record of the first agrees (R191, R275). -/
def Unit.hasTile (u : Unit) (o : Op) (x : ModX) : Bool :=
  let r := u.record (facT o)
  (facTile o x).all (fun k => u.accTag k == .tri) && recNc r == facNc x && recF64 r == facF64 x

/-- The slots whose tags or record a command may still change (R168, R185, R189, R191). -/
def Cmd.retags (u : Unit) (m : Cmd) : List Nat :=
  match m.ins with
  | .mmq o x => (m.quarters.flatMap (mmqSlots o x)).filter fun k => u.accTag k != (if mmqFmt x = 5 then .f64 else .f32)
  | .accld o x => (moveSlots o (x.f 37 36 == 3)).filter fun k => u.accTag k != accKind (x.f 37 36)
  | .trchol o x => if u.hasTile o x then [] else facTile o x
  | _ => []

/-- Whether commands of a group may still change the tags of some of these slots. -/
def Unit.tagsHeld (u : Unit) (gid : Nat) (slots : List Nat) : Bool := u.cmds.any fun m => m.2.gid == gid && meets (m.2.retags u) slots

/-- An engine command issues behind earlier ones on its slots and starts after them; its tags are judged at issue, so that it waits
for a command that may still change them (R22, R168, log 47). -/
def Cx.tagsSettled (c : Cx) (slots : List Nat) : Exc PUnit := if c.u.tagsHeld c.g.gid slots then .error (.wait .engine) else .ok ()

/-- The lowest engine agent without a command (R316). -/
def Unit.freeAgent (u : Unit) : Option Nat := (List.range 32).find? fun n => u.cmds.all fun m => m.1 != n

/-! ## What a word finds busy (R22, R221) -/

/-- The quarters with an executing lane (R185). -/
def quartersOf (ex : Word) : List Nat := (List.range 4).filter fun q => ex.toNat / 256 ^ q % 256 != 0

/-- Whether an instruction takes an engine agent (R316). -/
def takesAgent : Instr → Bool
  | .ldpl _ _ | .mmq _ _ | .accld _ _ | .accst _ _ | .trchol _ _ | .trupd _ _ | .trupd8 _ _ | .trdwd _ _ | .trsolve _ _ | .trscale _ _
  | .cpy _ _ | .cpyg _ _ | .cpyt _ _ | .cpyr _ _ | .cred _ _ | .cpyz _ _ | .ratom _ _ | .sfill _ _ => true
  | _ => false

/-- Whether a word of a group with these lanes finds a slot busy. -/
def slotBusy (u : Unit) (g : Group) (ex : Word) : Instr → Bool
  | .accrd o x => u.slotsHeld g.gid (moveSlots o (x.f 44 44 == 1)) []
  | .accwr o x => u.slotsHeld g.gid [] (moveSlots o (x.f 44 44 == 1))
  | .acczero o _ => u.slotsHeld g.gid [] (rangeFrom (o.imm % 128) (o.imm / 256 % 256))
  | .mmq o x => u.tagsHeld g.gid ((quartersOf (guardLanes g o.grd ex)).flatMap (mmqSlots o x))
  | .accld o x => u.tagsHeld g.gid (moveSlots o (x.f 37 36 == 3))
  | .trchol o x => u.tagsHeld g.gid (facTile o x ++ gramSlots o x)
  | .trupd8 o x => u.tagsHeld g.gid (facTile o x ++ sourceSlots o x)
  | .trupd o x | .trdwd o x | .trsolve o x | .trscale o x => u.tagsHeld g.gid (facTile o x)
  | _ => false

/-- Whether the scoreboard holds an operand, a destination or a resource of a decoded word busy (R221). -/
def wordBusy (u : Unit) (g : Group) (ex : Word) (w : Nat) (i : Instr) : Bool :=
  vregHeld u g w i || slotBusy u g ex i || (takesAgent i && u.freeAgent.isNone)

end Sys2Proof.Machine
end

