-- ==== Sys2Proof/Machine/Sched.lean ====
section
/-! DEFINITION. What issues next: the fetch of a word (R64, R80), readiness (R221), selection in a drawer (R222), the two decoders
and aging (R225 to R227). Which of the agents that can act does so is a free choice (log 3). -/

namespace Sys2Proof.Machine

/-- A barrier object of a unit (R177). -/
def Unit.bar (u : Unit) (n : Nat) : Bar := Sparse.get (Bar.start 0) u.bars n

/-- A stream register of a unit (R202). -/
def Unit.stream (u : Unit) (q : Nat) : Stream := Sparse.get .start u.sq q

/-- Whether a fill finds a free slot (R289). -/
def Stream.room (q : Stream) : Bool := q.nfill + q.npop < q.nm1 + 1 && q.nfill < 64

/-! ## Fetch (R64, R80) -/

/-- The text of a launch in a space, as it stood when its packet came. -/
def Launch.textOf (l : Launch) (sp : Nat) : Sparse Byte := if sp = 0 then l.text else if sp = 1 then l.textPool else l.textHost

/-- A fetch of one aligned 32-bit piece, old or new where a running launch's text has changed (R80, log 8). -/
def fetchPiece (s : State) (u : Unit) (sp a i : Nat) : Nat :=
  let new := s.rdN sp a 4
  match launchOf s u with
  | none => new
  | some l =>
    let old := natOfBytes (Sparse.getList unwritten (l.textOf sp) a 4)
    if old = new then new else if Config.staleText s.tick i then old else new

/-- Fetches the word at a PC as three pieces (R64); the supervisor's rights and the user's are those of its context. DESIGN CHOICE: where
two pages refuse it with different causes, the cause of the lowest piece is reported (log 76). -/
def fetchWord (s : State) (u : Unit) (pc : DWord) : Nat → Except Trap Nat
  | 0 => .ok 0
  | n + 1 => do
    let low ← fetchWord s u pc n
    let va := wrap 64 (pc.toNat + 4 * n : Nat)
    if va / 2 ^ 56 != 0 then .error (.lane C.XLATE 0 va)
    else
      let (sp, a, _) ← landOrd s u.core (s.ctxOf u) 0 (.ord va none) 4 .fetch
      return low + fetchPiece s u sp a n * 2 ^ (32 * n)

/-- ILLOP of an encoding fault (R78). -/
def illop (f : EncFault) : Trap := { code := C.ILLOP, detail := f.2 + f.1 * 2 ^ 8 }

/-- Whether a launch's flag DET is set for a unit. -/
def isDet (s : State) (u : Unit) : Bool := match launchOf s u with | some l => l.det | none => false

/-- The instruction at an entry, as the decoders see it, with its word. -/
def instrAt (s : State) (u : Unit) (g : Group) (e : Entry) : Option (Nat × Instr) :=
  match fetchWord s u e.pc 3 with
  | .error _ => none
  | .ok w => match decode g.grant (isDet s u) w with | .ok i => some (w, i) | .error _ => none

/-! ## Readiness (R221) -/

/-- Whether a wait that no step of its own ends is over (R179, R202, R203, R304). -/
def waitOver (s : State) (u : Unit) (g : Group) : Wait → Bool
  | .none | .second => true
  | .barw bo target => (u.bar bo).ph != target
  | .tagw mask all =>
    let p := u.pend.toNat &&& mask
    if all then p == 0 else u.ready.toNat &&& mask != 0 || p == 0
  | .tagst t => !u.pend.getLsbD t
  | .spop q => (u.stream q).filled.getLsbD 0
  | .sfill q => (u.stream q).room
  | .uiwait => (deliverable s u).isSome
  | .retry => !recordsDue s u.key g.gid
  | _ => false

/-- Whether the scoreboard holds something that an entry's next word needs (R22, R221). A unit without commands holds nothing. -/
def boardBusy (s : State) (u : Unit) (g : Group) (e : Entry) : Bool :=
  !u.cmds.isEmpty && (match instrAt s u g e with | some (w, i) => wordBusy u g e.mask w i | none => false)

/-- Whether an entry is ready (R221). -/
def entryReady (s : State) (u : Unit) (g : Group) (e : Entry) : Bool := !e.rjw && waitOver s u g e.wait && !boardBusy s u g e

/-- Whether a group may issue: it runs, no user-interrupt entry stands before it, and an entry is ready. -/
def groupReady (s : State) (u : Unit) (g : Group) : Bool :=
  g.live && !u.vacating && !g.scall
  && (match g.run with | .running => true | .skid n _ => n != 0 | .stopped => false)
  && !entryDue s u g && g.ents.any (entryReady s u g)

/-! ## Selection (R222) -/

/-- The groups of a drawer that may issue. -/
def drawerReady (s : State) (core d : Nat) : List (Unit × Group) :=
  (s.units.filter fun u => u.core == core).flatMap fun u =>
    (u.grps.filter fun g => g.slot / 16 == d && groupReady s u g).map (u, ·)

/-- The order of R222: the supervisor group first, then slots from the one after the last selected. -/
def slotRank (c : Core) (d slot : Nat) : Nat := if slot = 63 then 0 else 1 + (slot + 16 - Sparse.get 0 c.lastSel d % 16) % 16

/-- The group that stands first in that order. -/
def firstRanked (c : Core) (d : Nat) (xs : List (Unit × Group)) : Option (Unit × Group) :=
  xs.foldl (fun best x =>
    match best with
    | none => some x
    | some b => if slotRank c d x.2.slot < slotRank c d b.2.slot then some x else best) none

/-- The group a drawer selects: the second one of its cycle where that is still to come and ready, or the first of a new cycle (R222). -/
def selectGroup (s : State) (core d : Nat) : Option (Unit × Group) :=
  let ready := drawerReady s core d
  let second := (s.core core).picked.findSome? fun x => if x.1 = d then ready.find? fun y => y.1.key == x.2.1 && y.2.gid == x.2.2 else none
  match second with
  | some x => some x
  | none => firstRanked (s.core core) d ready

/-- The group a drawer selects beside a first one in the same cycle. -/
def selectBeside (s : State) (core d : Nat) (u : Unit) (g : Group) : Option (Unit × Group) :=
  firstRanked (s.core core) d ((drawerReady s core d).filter fun y => !(y.1.key == u.key && y.2.gid == g.gid))

/-- Accounts a drawer's selection: the second group of a cycle is taken, or a new cycle begins with this group and another (R222). -/
def noteSelected (s : State) (u : Unit) (g : Group) : State :=
  let d := g.slot / 16
  let mine (x : Nat × UKey × Nat) : Bool := x.1 == d
  if (s.core u.core).picked.contains (d, u.key, g.gid) then s.modCore u.core fun c => { c with picked := c.picked.filter fun x => !mine x }
  else
    let two := selectBeside s u.core d u g
    let last := match two with | some y => y.2.slot + 1 | none => g.slot + 1
    s.modCore u.core fun c =>
      { c with picked := c.picked.filter (fun x => !mine x) ++ (match two with | some y => [(d, y.1.key, y.2.gid)] | none => []),
               lastSel := if g.slot = 63 && two.isNone then c.lastSel else Sparse.set 0 c.lastSel d last }

/-- The place of an entry in its frontier. -/
def placeOf (g : Group) (e : Entry) : Nat := (g.ents.findIdx? fun f => f == e).getD 0

/-- Ready entries in rank order (R226). -/
def readyEnts (s : State) (u : Unit) (g : Group) : List Entry := (ranked g.ents).filter (entryReady s u g)

/-- What can act next: a step that is due, or a drawer's group. -/
inductive Choice
  | event (n : Nat)
  | issue (u : UKey) (gid : Nat)
  deriving DecidableEq, Repr

/-- The drawers on which units stand. -/
def drawers (s : State) : List (Nat × Nat) :=
  (s.units.flatMap fun u => u.grps.map fun g => (u.core, g.slot / 16)).foldl (fun l x => if l.contains x then l else l ++ [x]) []

/-- Whether a step that is due stands behind another that must come first: the raises of one group are decided in the order of its
program (R299). -/
def behind (s : State) (n : Nat) : Bool :=
  match s.agenda[n]? with
  | some (.raiseDecision r) =>
    r.src.isSome && (s.agenda.take n).any fun i => match i with | .raiseDecision q => q.src == r.src | _ => false
  | _ => false

/-- Everything that can act. -/
def choices (s : State) : List Choice :=
  ((List.range s.agenda.length).filter fun n => !behind s n).map .event
  ++ (drawers s).filterMap fun (c, d) => (selectGroup s c d).map fun (u, g) => .issue u.key g.gid

/-! ## The two decoders (R225 to R227, R235) -/

/-- The opcode of the word at an entry, as the second decoder sees it. -/
def opcodeAt (s : State) (u : Unit) (pc : DWord) : Nat := bits (peekWord s u pc) 95 89

/-- Opcodes of the special-function pipe (R62, R94). -/
def specialFn (o : Nat) : Bool := 0x1F ≤ o && o ≤ 0x23

/-- Opcodes of engine commands (R167). -/
def engineOp (o : Nat) : Bool := (0x58 ≤ o && o ≤ 0x5A) || (0x5D ≤ o && o ≤ 0x62) || (0x68 ≤ o && o ≤ 0x6D)

/-- Whether two words may not issue in one cycle (R226). -/
def pairBarred (a b : Nat) : Bool :=
  (specialFn a && specialFn b) || (0x40 ≤ a && a ≤ 0x52 && 0x40 ≤ b && b ≤ 0x52) || (engineOp a && engineOp b)
  || (0x70 ≤ a && a ≤ 0x7F) || (0x70 ≤ b && b ≤ 0x7F)

/-- The second entry of an opportunity, where the second decoder issues it (R226, R235). -/
def secondEntry (s : State) (u : Unit) (first : Entry) : List Entry → Option Entry
  | e :: _ =>
    let compat := match launchOf s u with | some l => l.compat | none => false
    if compat || pairBarred (opcodeAt s u first.pc) (opcodeAt s u e.pc) then none else some e
  | [] => none

/-- One opportunity passed over by an entry that was ready (R227). -/
def Entry.older (e : Entry) (now : Nat) : Entry :=
  if 4088 ≤ e.age then e else if e.age + 1 = 4088 then { e with age := 4088, agedAt := now + 1 } else { e with age := e.age + 1 }

/-- The frontier at an opportunity: ready entries grow older, for an entry that issues loses its AGE as it does (R227), and the second
decoder's entry is told from the others. -/
def ageEnts (s : State) (u : Unit) (g : Group) (b : Option Entry) : List Entry :=
  g.ents.map fun e =>
    let e' := if entryReady s u g e then e.older s.tick else e
    if some e == b then { e' with wait := .second } else e'

/-! ## The plan of a step -/

/-- What a step does: nothing, a trap taken in place of a word, or an instruction run at a state. -/
inductive Plan
  | idle
  | trap (s : State)
  | run (i : Instr) (s : State)
  deriving DecidableEq, Repr

/-- A read of registers that a trsolve has written observes its completion (R169). -/
def joinRegs (s : State) (k : UKey) (g : Group) (w : Nat) (i : Instr) : State :=
  if !s.tracks then s
  else withRace s k fun r => (touched w i).foldl (fun r n => r.acquire k g.gid (keyReg g.gid n)) r

/-- A fault met in place of a word that would issue now: the entry has no AGE any more (R227, R352). -/
def fetchFault (s : State) (k : UKey) (gid ent word : Nat) (e : Entry) (t : Trap) : State :=
  takeFault (s.modGrp k gid fun g => { g with ents := g.ents.set ent { e with age := 0, agedAt := 0 } }) k gid word e.pc t id true

/-- A word has been fetched: a page of it that the core's TLB does not hold has missed (R374). -/
def wordFetched (s : State) (u : Unit) (pc : DWord) : State := missAt (missAt s u.core u.ctx pc.toNat) u.core u.ctx (pc.toNat + 8)

/-- Fetches and decodes for an issuer whose opportunity is already accounted (R64, R78, R79). -/
def issueWord (s : State) (k : UKey) (gid ent : Nat) : Plan :=
  match s.unit? k with
  | none => .idle
  | some u => match u.grp? gid with
    | none => .idle
    | some g => match g.ents[ent]? with
      | none => .idle
      | some e =>
        match fetchWord s u e.pc 3 with
        | .error t => .trap (fetchFault s k gid ent 0 e t)
        | .ok w =>
          match decode g.grant (isDet s u) w with
          | .error f => .trap (fetchFault s k gid ent w e (illop f))
          | .ok i =>
            if vregHeld u g w i then
              .trap (s.modGrp k gid fun g => { g with ents := g.ents.set ent { e with wait := .engine } })
            else
            let s := chargeEnd (joinRegs (wordFetched s u e.pc) k g w i) k (dieOf u.core) 0
            .run i { s with cur := some { u := k, gid := gid, ent := ent, word := w } }

/-- Accounts one opportunity of a group: its drawer's selection, skid, AGE, and the second decoder's entry. -/
def opportunity (s : State) (u : Unit) (g : Group) (b : Option Entry) : State :=
  let run := match g.run with | .skid n src => Run.skid (n - 1) src | r => r
  let ents := ageEnts s u g b
  let s := (noteSelected s u g).modGrp u.key g.gid fun g => { g with ents := ents, run := run }
  let pair := b.map fun _ => (u.key, g.gid)
  { s with second := pair, pair := pair }

/-- Lets a group issue its highest-ranked ready entry. -/
def issueGroup (s : State) (k : UKey) (gid : Nat) : Plan :=
  match s.unit? k with
  | none => .idle
  | some u => match u.grp? gid with
    | none => .idle
    | some g => match readyEnts s u g with
      | [] => .idle
      | a :: rest => issueWord (opportunity s u g (secondEntry s u a rest)) k gid (placeOf g a)

/-- The second decoder's entry, if it still stands and may issue (R95, R226). -/
def pendingSecond (s : State) : Option (UKey × Nat × Nat) :=
  match s.second with
  | none => none
  | some (k, gid) =>
    match s.unit? k with
    | none => none
    | some u => match u.grp? gid with
      | none => none
      | some g =>
        if !g.live || u.vacating || g.run == .stopped || g.scall then none
        else (g.ents.findIdx? fun e => e.wait == .second && entryReady s u g e).map (k, gid, ·)

/-- Carries out a choice. -/
def carry (s : State) : Choice → Plan
  | .event n =>
    match s.agenda[n]? with
    | some i => .run i { s with agenda := s.agenda.eraseIdx n }
    | none => .idle
  | .issue k gid => issueGroup s k gid

/-- What the next step does. With one thing that can act there is no choice (log 3). -/
def plan (s : State) : Plan :=
  match pendingSecond s with
  | some (k, gid, i) => issueWord { s with second := none } k gid i
  | none =>
    let s := { s with second := none }
    match choices s with
    | [] => .idle
    | [c] => carry s c
    | cs => carry s (cs.getD (Config.pick s.tick % cs.length) (.event 0))

/-- The end of a step: nothing issues, and the counter of free values moves on (log 16). -/
def tock (s : State) : State := { s with cur := none, tick := s.tick + 1 }

end Sys2Proof.Machine
end

