-- ==== Sys2Proof/Machine/Boot.lean ====
section
/-! DEFINITION. A program placed from outside the machine: one unit of one launch whose first word is given (log 2). -/

namespace Sys2Proof.Machine

/-- The context of the placed program: its root table at 0x10000 of HBM. -/
def bootCtx : Ctx :=
  { id := 1, fn := 1, root := 0x10000, capbase := 0, arena := 0x200000, arenaN := 0x100000, tenant := false, table := 0,
    slots := 0, histva := 0, admva := 0, admN := 0, dirs := [], res := [], hist := [], adms := [], index := [], runs := [],
    time := 0, localptr := false, super := false, dead := false }

/-- Where the program stands, in virtual memory and in HBM. -/
def bootPc : Nat := 0x100000

/-- The launch: one unit of one group that is its producer and its handler. -/
def bootLaunch (text : Sparse Byte) : Launch :=
  { fn := 1, lid := 1, ctx := 1, entry := bootPc, n := 1, g := 1, vblk := 16, a := 128, cls := 1, producer := 0, handler := 0,
    det := false, compat := false, localptr := false, racechk := false, strict := false, b := 0x10000, c := 0x1000,
    endpoint := 0, args := 0, pred0 := 0, pred1 := 0, signal := 0, budget := 0, pcores := 0, graph := 0, phase := 0, job := 0,
    state := .active, failed := false, counter := 1, ranges := [], resume := [], pre := [], spent := 0, readyAt := 0,
    taken := [], streams := [], ended := [], bound := false, ctl := 0, hpc := 0, mask := 0, modew := 0, permva := 0,
    payva := 0, held := false, record := none, wake := [], early := [], know := [], raised := [], text := text, textPool := [], textHost := [] }

/-- The group: one entry of every lane at the program. -/
def bootGroup : Group :=
  { Group.start 0 0 256 with ents := [.new (BitVec.ofNat 64 bootPc) 128 (BitVec.allOnes 32)], tid := (List.range 32).filterMap fun l =>
      if l = 0 then none else some (l, BitVec.ofNat 32 l) }

/-- The unit. -/
def bootUnit : Unit :=
  { key := { fn := 1, lid := 1, idx := 0 }, ctx := 1, core := 0, vault := 0, vsize := 0x10000, offcut := 0x1000, save := 0,
    grps := [bootGroup], acc := [], acct := [], accr := [], aslots := 128,
    bars := (List.range 16).map fun n => (n, Bar.start 1), ready := 0, pend := 0, tstat := [], sq := [], sfq := [], off := [],
    cmds := [], energy := 0, pwait := 0, hvy := 0, uimask := 0, ui := .start, race := .start, halted := false, vacating := false, failed := false,
    unrestored := false, ending := none }

/-- Page-table entries of the program's page: levels 5 to 3 are tables, level 2 is a leaf of 2 MiB at physical 0 with read,
write and execute. -/
def bootTables (t : Sparse Byte) : Sparse Byte :=
  let put (t : Sparse Byte) (a v : Nat) := Sparse.setList unwritten t a (bytesOfNat 8 v)
  put (put (put (put t 0x10000 (0x11000 + 1)) 0x11000 (0x12000 + 1)) 0x12000 (0x13000 + 1)) 0x13000 (5 * 2 ^ 8 + 0x1F)

end Sys2Proof.Machine
end

