-- ==== Sys2Proof/Machine/Resid.lean ====
section
/-! DEFINITION. Long names, the residency table, the departure history and the name directory (R237 to R252): what the
name instructions, the copy engines and the residency unit share. -/

namespace Sys2Proof.Machine

/-! ## Names (R237, R238) -/

/-- A long name's fields. -/
def nameKind (n : Nat) : Nat := bits n 126 125
def nameKey (n : Nat) : Nat := bits n 124 64
def nameGen (n : Nat) : Nat := bits n 63 48
def nameOff (n : Nat) : Nat := n % 2 ^ 40

/-- A key from its parts, and the parts (R245). -/
def keyOf (domain serial : Nat) : Nat := domain * 2 ^ 45 + serial
def keyDomain (k : Nat) : Nat := k / 2 ^ 45

/-- A long name. -/
def longName (kind key gen off : Nat) : Nat := 2 ^ 127 + kind * 2 ^ 125 + key * 2 ^ 64 + gen * 2 ^ 48 + off

def Res.key (r : Res) : Nat := keyOf r.domain r.serial

/-- The name of an offset in an entry (R163). -/
def Res.name (r : Res) (off : Nat) : Nat := longName r.kind r.key r.gen off

/-- What a loaded slot holds (R160). -/
inductive SlotKind
  | null
  | loc (v : Nat)
  | name (n : Nat)
  | bad
  deriving DecidableEq, Repr

def slotKind (localptr : Bool) (x : Nat) : SlotKind :=
  if x = 0 then .null
  else if x / 2 ^ 127 = 0 then if localptr && x / 2 ^ 64 = 0 then .loc x else .bad
  else if nameKind x = 3 || bits x 47 40 != 0 then .bad
  else .name x

/-- The name of a pointer: from the current entry, or from the departure history; none when it names no incarnation
(R164). The null pointer's name is zero. -/
def pointerName (c : Ctx) (p : Nat) : Option Nat :=
  if p = 0 then some 0
  else if !isPtr p then none
  else
    let slot := ptrSlot p
    let r := c.slotRes slot
    let h := c.histEnt slot (ptrInc p)
    if c.slots ≤ slot then none
    else if r.current (ptrInc p) then some (r.name (ptrOff p))
    else if h.getLsbD 127 then some (longName (nameKind h.toNat) (nameKey h.toNat) (nameGen h.toNat) (ptrOff p))
    else none

/-- Writes a history entry to memory. -/
def mirrorHist (s : State) (ctx slot inc : Nat) : State :=
  match s.ctx? ctx with
  | some c => sysWrite s c (c.histva + 256 * slot + 16 * inc) 16 (c.histEnt slot inc).toNat
  | none => s

/-- The slot that holds a key as resident, admitting or departing. -/
def Ctx.find (c : Ctx) (key : Nat) : Option Nat := (c.index.find? fun e => e.1 == key).map (·.2)

/-- Ends the waits of a context's groups that a test picks. -/
def wakeCtx (s : State) (ctx : Nat) (p : Wait → Bool) : State :=
  let ent (e : Entry) : Entry := if p e.wait then { e with wait := .none } else e
  let grp (g : Group) : Group := { g with ents := g.ents.map ent }
  { s with units := s.units.map fun u => if u.ctx == ctx then { u with grps := u.grps.map grp } else u }

/-- Ends the waits of one unit that a test picks. -/
def wakeUnit (s : State) (k : UKey) (p : Wait → Bool) : State :=
  let ent (e : Entry) : Entry := if p e.wait then { e with wait := .none } else e
  s.modUnit k fun u => { u with grps := u.grps.map fun g => { g with ents := g.ents.map ent } }

/-- Whether a history entry is valid. -/
def Ctx.histValid (c : Ctx) (slot inc : Nat) : Bool := (c.histEnt slot inc).getLsbD 127

/-- A departed slot withheld from allocation (R243). -/
def Ctx.withheld (c : Ctx) (slot : Nat) : Bool := c.histValid slot (((c.slotRes slot).inc + 1) % 16)

/-- The lowest slot from `k` on that a test accepts. -/
def lowestFrom (p : Nat → Bool) : Nat → Nat → Option Nat
  | 0, _ => none
  | n + 1, k => if p k then some k else lowestFrom p n (k + 1)

/-- The key in a slot's latest history entry. -/
def Ctx.lastKey (c : Ctx) (slot : Nat) : Nat := nameKey (c.histEnt slot (c.slotRes slot).inc).toNat

/-- The slot an admission takes (R247). -/
def Ctx.pickSlot (c : Ctx) (key : Nat) : Option Nat :=
  let departed (k : Nat) : Bool := (c.slotRes k).state == .departed && !c.withheld k
  match c.res.find? fun e => e.2.state == .departed && c.lastKey e.1 == key && e.1 < c.slots && !c.withheld e.1 with
  | some e => some e.1
  | none =>
    match lowestFrom (fun k => (c.slotRes k).state == .free) c.slots 0 with
    | some k => some k
    | none => lowestFrom departed c.slots 0

/-- Whether every history entry of a context may retire: no unit of it on a core (R243). -/
def retireHistory (s : State) (ctx : Nat) : State :=
  match s.ctx? ctx with
  | none => s
  | some c =>
    if c.localptr || s.units.any (fun u => u.ctx == ctx && !isSuper u.key) then s
    else
      let retire (e : Nat × QWord) : Option (Nat × QWord) :=
        let v := e.2 &&& BitVec.ofNat 128 (2 ^ 127 - 1)
        if v = 0 then none else some (e.1, v)
      let s' := s.modCtx ctx fun c => { c with hist := c.hist.filterMap retire }
      (c.hist.filter fun e => e.2.getLsbD 127).foldl (fun s e => mirrorHist s ctx (e.1 / 16) (e.1 % 16)) s'

/-! ## The name cache (R244, log 19) -/

def cacheAdd (s : State) (core ctx key : Nat) (slot : Nat) (r : Res) : State :=
  let e : NcEnt := { ctx := ctx, key := key, slot := slot, inc := r.inc, gen := r.gen, kind := r.kind, extent := r.extent }
  s.modDie (dieOf core) fun d => { d with ncache := (e :: d.ncache.filter (· != e)).take 4096 }

/-- A departure removes a slot from every die's cache (R244). -/
def cacheDrop (s : State) (ctx slot : Nat) : State :=
  let drop (x : Nat × Die) : Option (Nat × Die) :=
    let d := { x.2 with ncache := x.2.ncache.filter fun e => !(e.ctx == ctx && e.slot == slot) }
    if d = Die.start then none else some (x.1, d)
  { s with dies := s.dies.filterMap drop }

/-! ## The directory (R245, R246) -/

/-- A directory entry's fields. -/
structure DirEnt where
  va : Nat
  w : Bool
  fnmask : Nat
  hsp : Nat
  homemod : Nat
  ownseq : Nat
  owner : Nat
  home : Nat
  size : Nat
  kind : Nat
  gen : Nat
  state : Nat
  key : Nat
  /-- a zero field is set -/
  dirt : Bool
  deriving DecidableEq, Repr

def dirEnt (va x : Nat) : DirEnt :=
  { va := va, w := x.testBit 480, fnmask := bits x 479 448, hsp := bits x 403 400, homemod := bits x 399 384,
    ownseq := bits x 383 320, owner := bits x 319 256, home := bits x 255 192, size := bits x 167 128, kind := bits x 81 80,
    gen := bits x 79 64, state := bits x 63 62, key := x % 2 ^ 61,
    dirt := bits x 511 481 != 0 || bits x 447 404 != 0 || bits x 191 168 != 0 || bits x 127 82 != 0 || x.testBit 61 }

/-- An entry that is not valid under R239, R245 and R387: OWNER names a configured identity, HOMEMOD one or this module. -/
def DirEnt.invalid (e : DirEnt) : Bool :=
  e.dirt || e.kind = 3 || 2 < e.hsp || (e.kind = 2 && e.hsp != 1) || e.size = 0 || (e.kind != 1 && e.owner != 0)
  || bits e.owner 42 32 != 0 || 0xFFFE ≤ bits e.owner 63 48 || e.homemod = 0xFFFE

/-- The outcome of a lookup; a busy entry is read again at the same probe. -/
inductive Found
  | absent
  | busy (i : Nat)
  | entry (e : DirEnt)
  deriving DecidableEq, Repr

/-- Probes a directory; one that cannot be read holds nothing (R246, log 27). -/
def probe (s : State) (c : Ctx) (d : Dir) (key h : Nat) : Nat → Nat → Found
  | 0, _ => .absent
  | n + 1, i =>
    let va := d.va + 64 * ((h + i) % 2 ^ d.log2n)
    match sysRead s c va 64 with
    | none => .absent
    | some x =>
      let e := dirEnt va x
      if e.state = 0 then .absent
      else if e.key = key && e.state = 3 then .busy i
      else if e.key = key && e.state = 1 then .entry e
      else probe s c d key h n (i + 1)

/-- Looks a key up, from probe `i` on (R246). -/
def lookup (s : State) (c : Ctx) (key : Nat) (i : Nat := 0) : Found :=
  match c.dirs.find? fun d => d.log2n != 0 && d.lo ≤ keyDomain key && keyDomain key ≤ d.hi with
  | none => .absent
  | some d => probe s c d key (mix64 key) (64 - i) i

/-- OWNER of a context of this module (R245). -/
def ownerOf (s : State) (c : Ctx) : Nat := s.ident * 2 ^ 48 + c.fn * 2 ^ 43 + c.id

/-! ## Pins of copies (R172, R241) -/

/-- Adds to or takes from a slot's copy pins. -/
def copyPin (s : State) (ctx slot : Nat) (up : Bool) : State :=
  s.modCtx ctx fun c =>
    let r := c.slotRes slot
    { c with res := Sparse.set .start c.res slot { r with cpin := if up then r.cpin + 1 else r.cpin - 1 } }

/-! ## Waiting lanes of admissions (R247 to R249) -/

/-- The lane's wait in an admission of a key. -/
def Ctx.laneWait (c : Ctx) (key : Nat) (u : UKey) (gid : Nat) (pc : DWord) (lane : Nat) : Option AdmWait :=
  (c.adms.filter fun a => a.key == key).findSome? fun a =>
    a.waits.find? fun w => w.u == u && w.gid == gid && w.pc == pc && w.lane == lane

/-- Removes the waits of one ldn; an admission that has ended and that nobody waits on is forgotten. -/
def dropWaits (s : State) (ctx : Nat) (u : UKey) (gid : Nat) (pc : DWord) : State :=
  s.modCtx ctx fun c =>
    { c with adms := (c.adms.map fun a => { a with waits := a.waits.filter fun w => !(w.u == u && w.gid == gid && w.pc == pc) }) }

/-- Removes the waits of a group that goes away. -/
def dropGroupWaits (s : State) (ctx : Nat) (u : UKey) (gid : Nat) : State :=
  s.modCtx ctx fun c =>
    { c with adms := (c.adms.map fun a => { a with waits := a.waits.filter fun w => !(w.u == u && w.gid == gid) }) }

/-- The gid under which a unit that is being restored waits for its names. -/
def restoreGid : Nat := 99

/-- Joins the admission of a key under way, or starts one (R247, R249). -/
def joinAdmission (s : State) (ctx key : Nat) (w : AdmWait) : State :=
  match s.ctx? ctx with
  | none => s
  | some c =>
    match c.adms.find? fun a => a.key == key && a.active with
    | some _ =>
      s.modCtx ctx fun c => { c with adms := c.adms.map fun a => if a.key == key && a.active then { a with waits := a.waits ++ [w] } else a }
    | none =>
      (s.modCtx ctx fun c =>
        { c with adms := c.adms ++ [{ key := key, slot := none, owning := false, asked := none, probe := 0, active := true, waits := [w] }] }).due (.admission ctx key)

end Sys2Proof.Machine
end

