-- ==== Sys2Proof/Machine/Engine.lean ====
section
/-! DEFINITION. Engine commands (R167 to R176, R285, R316): issue, status words, barrier arrivals (R177, R178), what
holds a command back (R168, R180), access by engines, and how a command ends. -/

namespace Sys2Proof.Machine

/-- A status word (R170). -/
def statusWord (code detail : Nat) : DWord := BitVec.ofNat 64 (code * 2 ^ 48 + detail % 2 ^ 48)

def statusCode (w : DWord) : Nat := w.toNat / 2 ^ 48

/-! ## Barriers (R177, R178) -/

/-- A phase completes. -/
def Bar.complete (b : Bar) : Bar :=
  { b with lstat := b.stat, ltrap := b.trapf, stat := 0, trapf := false, count := 0, ph := (b.ph + 1) % 2 ^ 32 }

/-- One arrival (R178). -/
def Bar.arrive (b : Bar) (status : DWord) (trapf : Bool) : Bar :=
  let b := if statusCode status != 0 && statusCode b.stat == 0 then { b with stat := status, trapf := trapf } else b
  let b := { b with count := b.count + 1 }
  if b.count = b.expect then b.complete else b

/-- A member leaves; `arrived` says whether it had arrived in the current phase (R178). -/
def Bar.leave (b : Bar) (gid : Nat) (arrived : Bool) : Bar :=
  if !b.memb.getLsbD gid then b
  else
    let b := { b with memb := b.memb &&& ~~~BitVec.ofNat 32 (2 ^ gid), expect := b.expect - 1,
                      count := if arrived then b.count - 1 else b.count }
    if b.expect = 0 then { b with expect := 1, count := 0 }.complete
    else if b.count = b.expect then b.complete else b

/-- An arrival of an agent at a barrier object of a unit: `agent` is its number for race detection (R314). -/
def arrive (s : State) (k : UKey) (bo agent : Nat) (status : DWord) (trapf : Bool) : State :=
  match s.unit? k with
  | none => s
  | some u =>
    let b := (u.bar bo).arrive status trapf
    let s := s.modUnit k fun u => { u with bars := Sparse.set (Bar.start 0) u.bars bo b }
    withRace s k fun r =>
      let r := r.release k agent (keyBar bo (u.bar bo).ph)
      if b.ph != (u.bar bo).ph then r.phase bo b.ph else r

/-! ## What a command waits for (R180) -/

/-- Whether a command's wait barrier has completed its phase (R180). -/
def Unit.wbDone (u : Unit) (m : Cmd) : Bool := match m.wb with | none => true | some (bo, t) => (u.bar bo).ph != t

def Unit.modCmd (u : Unit) (agent : Nat) (f : Cmd → Cmd) : Unit :=
  { u with cmds := u.cmds.map fun m => if m.1 == agent then (m.1, f m.2) else m }

def State.modCmd (s : State) (k : UKey) (agent : Nat) (f : Cmd → Cmd) : State := s.modUnit k fun u => u.modCmd agent f

/-! ## Issue -/

/-- The agent a command takes; with none free the word waits before it issues (R316). -/
def Cx.agent (c : Cx) : Exc Nat := match c.u.freeAgent with | some n => .ok n | none => .error (.wait .engine)

/-- COPYISSUE: only the producer issues copy-class commands (R194, R279). -/
def Cx.producer (c : Cx) : Exc PUnit :=
  match c.launch? with
  | some l => if l.producer = c.g.gid then .ok () else stop { code := C.COPYISSUE }
  | none => stop { code := C.COPYISSUE }

/-- TAGBUSY (R194). -/
def Cx.tagFree (c : Cx) (t : Nat) : Exc PUnit := if c.u.pend.getLsbD t then stop { code := C.TAGBUSY, detail := t } else .ok ()

/-- A tag becomes pending (R280). -/
def Unit.tagPending (u : Unit) (t : Nat) : Unit :=
  { u with ready := u.ready &&& ~~~BitVec.ofNat 64 (2 ^ t), pend := u.pend ||| BitVec.ofNat 64 (2 ^ t), tstat := Sparse.set 0 u.tstat t 0 }

/-- A tag becomes ready: the status word first (R280). -/
def Unit.tagReady (u : Unit) (t : Nat) (st : DWord) : Unit :=
  { u with tstat := Sparse.set 0 u.tstat t st, ready := u.ready ||| BitVec.ofNat 64 (2 ^ t),
           pend := u.pend &&& ~~~BitVec.ofNat 64 (2 ^ t) }

/-- A command as issue makes it, with nothing read yet. -/
def Cx.newCmd (c : Cx) (i : Instr) : Cmd :=
  { ins := i, word := c.iss.word, gid := c.g.gid, pc := c.pc, state := .queued, dv := 0, av := 0, bv := 0, pmap := 0, tag := none,
    wb := none, ab := none, trapf := false, stream := none, fill := none, prog := 0, permit := false, status := 0, exec := c.ex,
    vec := [], quarters := [], pins := [], remote := false, sent := [], got := [], ahead := [], back := [], asked := 0, resumed := false, snap := none, counted := false }

/-- A wait barrier with the phase it stands at (R180). -/
def Cx.waitBar (c : Cx) (n : Nat) : Option (Nat × Nat) := if n < 16 then some (n, (c.u.bar n).ph) else none

def arriveBar (n : Nat) : Option Nat := if n < 16 then some n else none

/-- An operand of `n` registers as issue reads it, from the lowest executing lane. -/
def Cx.opVal (c : Cx) (o : Opd) (n : Nat) : QWord := BitVec.ofNat 128 (c.val o n c.l0)

/-- Registers of a base (R194). -/
def baseRegs (vault : Bool) : Nat := if vault then 1 else 2

/-- The object a PTR base names (R172). -/
def Cx.pinOf (c : Cx) (o : Opd) (vault : Bool) : List Nat :=
  if !vault && c.regTag o 0 == .ptr && isPtr (c.val o 2 c.l0) then [ptrSlot (c.val o 2 c.l0)] else []

/-- The PMAP bit of a base (R371). -/
def Cx.pmapOf (c : Cx) (o : Opd) (vault : Bool) (bit : Nat) : Nat := if (c.pinOf o vault).isEmpty then 0 else 2 ^ bit

/-- Forks a command on an agent: its tag is pending, its objects are pinned, and what the group did is before it (R167, R172,
R285, R314). -/
def Cx.fork (c : Cx) (agent : Nat) (m : Cmd) : State :=
  let s := m.pins.foldl (fun s k => copyPin s c.u.ctx k true) c.s
  let s := s.modUnit c.u.key fun u =>
    let u := match m.tag with | some t => u.tagPending t | none => u
    { u with cmds := u.cmds ++ [(agent, m)] }
  withRace s c.u.key fun r => (r.learn c.u.key (engineAgent agent) (r.know c.u.key c.g.gid)).advance c.g.gid

/-- Rows 1 to 7 of R141 for the first and the last byte of a range (R285); of an empty range the base is checked alone (R172). -/
def Cx.checkRange (c : Cx) (base : Opd) (vault : Bool) (off : Int) (n align : Nat) (write : Bool) : Exc PUnit := do
  let _ ← c.locate base vault c.l0 off (min n 1) align write
  if 1 < n then
    let _ ← c.locate base vault c.l0 (off + (n - 1)) 1 1 write

/-! ## How a command ends -/

/-- The quarter operations of a pass, counted by unit (R272). -/
def sharesOf (ops : List (UKey × Nat × Nat)) : List (UKey × Nat) :=
  ops.foldl (fun ks o => if ks.any (·.1 == o.1) then ks.map (fun x => if x.1 == o.1 then (x.1, x.2 + 1) else x) else ks ++ [(o.1, 1)]) []

/-- Estimate of a quarter operation in nJ (R407). -/
def quarterEstimate (fmt : Nat) : Nat := match fmt with | 0 => 40 | 1 => 40 | 2 => 24 | 3 => 14 | 4 => 120 | _ => 300

/-- The measured energy of a pass that ran under a permit: charged to the units in proportion to the quarter operations that the permit
covered, each share rounded down, and settled against the estimate (R272, R407, log 5). -/
def chargePass (s : State) (core : Nat) (p : Pass) : State :=
  if !p.permit then s
  else
    let e := Config.measuredEnergy s.tick
    let n := (p.shares.map (·.2)).sum
    spend (p.shares.foldl (fun s x => addEnergy s x.1 (e * x.2 / n)) s) (dieOf core) e (n * quarterEstimate p.fmt)

/-- The end of a pass, whatever its outcome (R270). -/
def passEnd (s : State) (core : Nat) : State :=
  let s := match (s.core core).pass with | some p => chargePass s core p | none => s
  let s := s.modCore core fun c => { c with pass := none, passn := c.passn + 1 }
  s.modDie (dieOf core) fun d => { d with permits := d.permits.filter fun p => p != (superKey core, 32, core) }

/-- Takes the quarter operations of a command out of its core's pass, which ends when it holds no other (R270). -/
def leavePass (s : State) (core : Nat) (k : UKey) (agent : Nat) : State :=
  match (s.core core).pass with
  | none => s
  | some p =>
    let ops := p.ops.filter fun o => !(o.1 == k && o.2.1 == agent)
    if ops == p.ops then s
    else
      let s := s.modCore core fun c => { c with pass := some { p with ops := ops } }
      if ops.isEmpty then passEnd s core else s

/-- How far a command has come: a remote one counts a piece once it is answered, in order (R293, R371). -/
def Cmd.reached (m : Cmd) : Nat := m.sent.foldl (fun n x => min n x.2) m.prog

/-- Takes a command off the queue of its copy engine. -/
def leaveEngine (s : State) (k : UKey) (agent : Nat) : State :=
  let off (e : Nat × List (UKey × Nat)) : Nat × List (UKey × Nat) := (e.1, e.2.filter (· != (k, agent)))
  { s with engines := s.engines.map off }

/-- Takes a command away: its pins end, its places in queues too, and words that waited for it look again. -/
def dropCmd (s : State) (k : UKey) (agent : Nat) : State :=
  match s.unit? k with
  | none => s
  | some u => match u.cmd? agent with
    | none => s
    | some m =>
      let s := m.pins.foldl (fun s p => copyPin s u.ctx p false) s
      let s := s.modUnit k fun u => { u with cmds := u.cmds.filter fun x => x.1 != agent }
      let mine (i : MqItem) : Bool := match i with
        | .quarter v a _ => v == k && a == agent
        | .load v a => v == k && a == agent
        | .swap _ => false
      let s := leaveEngine (leavePass s u.core k agent) k agent
      let s := s.modCore u.core fun c => { c with mq := c.mq.filter (!mine ·), fq := c.fq.filter (· != (k, agent)) }
      let s := s.modDie (dieOf u.core) fun d => { d with permits := d.permits.filter fun p => !(p.1 == k && p.2.1 == agent) }
      wakeUnit s k (· == .engine)

/-- A command has come to its end with a status; its tag, stream or barrier learns of it in a step of its own. -/
def cmdEnd (s : State) (k : UKey) (agent : Nat) (st : DWord) : State :=
  s.modCmd k agent fun m => { m with state := .done, status := st }

/-- A command that names an arrive barrier ends: one arrival, then it is gone (R180). -/
def cmdArrive (s : State) (k : UKey) (agent : Nat) (st : DWord) : State :=
  match s.unit? k with
  | none => s
  | some u => match u.cmd? agent with
    | none => s
    | some m =>
      let s := match m.ab with
        | some bo => arrive s k bo (engineAgent agent) st (m.trapf && statusCode st != 0)
        | none => s
      dropCmd s k agent

/-! ## Permits (R171, R272, R407) -/

/-- A copy-class command of more than 64 KiB, and every factor command, asks for a permit. -/
def isFactor : Instr → Bool
  | .trchol _ _ | .trupd _ _ | .trupd8 _ _ | .trdwd _ _ | .trsolve _ _ | .trscale _ _ => true
  | _ => false

/-- Estimate of a factor command in nJ (R407). -/
def factorEstimate : Instr → Nat
  | .trchol _ x | .trupd _ x | .trupd8 _ x | .trdwd _ x | .trsolve _ x | .trscale _ x =>
    if facF64 x then facN x * facN x else facN x * facN x / 2
  | _ => 0

/-- Heavy commands of a unit that run under a granted permit: those that asked, and the mmqs of a pass. -/
def Unit.heavy (u : Unit) : Nat :=
  (u.cmds.filter fun m => m.2.permit && m.2.state == .started && (m.2.asked != 0 || (match m.2.ins with | .mmq _ _ => true | _ => false))).length

/-- Whether a hvy reservation has room (R206, R272). -/
def Unit.reserved (u : Unit) : Bool := u.heavy < u.hvy

/-- Debits a permit's estimate from a die's account (R407). -/
def debit (s : State) (die est : Nat) : State := s.modDie die fun d => { d with account := d.account - (est : Int) }

/-- A command whose permit is granted begins; a factor command reads its tile, Gram and source slots as they stand (R277). -/
def begin (s : State) (k : UKey) (agent : Nat) : State :=
  s.modUnit k fun u => u.modCmd agent fun m =>
    { m with permit := true, snap := if isFactor m.ins then some (u.acc, u.acct, u.accr) else none }

/-- Asks for a permit: from the unit's reservation, or from the die (R272, R407). -/
def askPermit (s : State) (k : UKey) (agent est : Nat) : State :=
  match s.unit? k with
  | none => s
  | some u =>
    if u.reserved then debit (begin (s.modCmd k agent fun m => { m with asked := s.tick + 1 }) k agent) (dieOf u.core) est
    else
      let s := s.modCmd k agent fun m => { m with asked := s.tick + 1 }
      s.modDie (dieOf u.core) fun d => { d with permits := d.permits ++ [(k, agent, u.core)] }

/-! ## Access by engines (R173 to R176, R285) -/

/-- Why an engine does not go on. -/
inductive EStop
  /-- the page of an object is still being fetched -/
  | wait
  | status (code : Nat) (race : Bool)
  | fault (f : Fault)
  deriving DecidableEq, Repr

/-- The status of a cause met after issue (R175, R386). -/
def trapStatus (t : Trap) : Nat :=
  if t.code = C.ECC then St.ECC
  else if t.code = C.PERM && t.estat = 8 then St.NOATOMIC
  else if t.code = C.PERM then St.PERM
  else if t.code = C.BOUNDS then St.BOUNDS
  else if t.code = C.STALEPTR then St.DEPARTED
  else if t.code = C.XLATE && t.estat = 6 then St.REMOTEDOWN
  else St.XLATE

def liftStop (r : Exc α) : Except EStop α :=
  match r with
  | .ok a => .ok a
  | .error (.trap t) => .error (.status (trapStatus t) false)
  | .error (.wait _) => .error .wait
  | .error (.fault f) => .error (.fault f)
  | .error (.doneTrap _ t) => .error (.status (trapStatus t) false)
  | .error (.trapWith _ t) => .error (.status (trapStatus t) false)
  | .error (.waitWith _ _) => .error .wait

/-- A context as a command sees it that pins these slots: an object whose departure waits for the pin is still there (R172, R251). -/
def Ctx.pinned (c : Ctx) (pins : List Nat) : Ctx :=
  let hold (c : Ctx) (k : Nat) : Ctx :=
    let r := c.slotRes k
    if r.state = .departing && !r.forced && r.dstep = 1 then { c with res := Sparse.set .start c.res k { r with state := .resident } } else c
  pins.foldl hold c

/-- Where an engine's access of `n` bytes lands, after race detection (R174). -/
def engPlace (s : State) (u : Unit) (agent : Nat) (vault : Bool) (base : Nat) (off : Int) (n : Nat) (att : Att) (reads : Bool) :
    Except EStop Place := do
  let c := (s.ctxOf u).pinned (match u.cmd? agent with | some m => m.pins | none => [])
  let va := if vault then base / 2 ^ 22 * 2 ^ 22 + wrap 22 ((base % 2 ^ 22 : Nat) + off) else wrap 64 ((base : Int) + off)
  let loc ← liftStop (if vault then resolveVault s u 0 base off n 1 att.write else resolveOrd c 0 0 va n)
  let raced := checks s u && (match placeOf? s u.core c loc va with
    | some p => checkedPlace p.sp p.pte && (refusal s u (engineAgent agent) (p.access n att)).isSome
    | none => false)
  if raced then .error (.status St.PERM true)
  else match landOrd s u.core c 0 loc n (if att.write then .write else .read) with
    | .error t => .error (.status (trapStatus t) false)
    | .ok (m, a, pte) =>
      let p : Place := { sp := m, a := a, pte := pte, va := va }
      if att.write && reads && s.spoilt m a n then .error (.status St.ECC false)
      else if p.missing then .error (.fault (.noSuchAddress m a))
      else .ok p

/-- Whether an access of a command of a unit, resident or vacated, is refused by race detection (R316, R321, R322). -/
def cmdRefused (s : State) (k : UKey) (agent : Nat) (p : Place) (n : Nat) (att : Att) : Bool :=
  checkedPlace p.sp p.pte &&
  (match (s.unit? k).or (s.vacUnit? k) with
   | some u => checks s u && (refusal s u (engineAgent agent) (p.access n att)).isSome
   | none => (match s.launch? k.fn k.lid with | some l => l.racechk | none => false)
             && (p.access n att).grans.any fun g => ownedAgainst s k g att.tile)

/-- What such an access leaves to race detection (R316). -/
def cmdNote (s : State) (k : UKey) (agent : Nat) (p : Place) (n : Nat) (att : Att) : State :=
  match s.unit? k with
  | some _ => notePlace s k (engineAgent agent) p n att
  | none =>
    match s.launch? k.fn k.lid with
    | some l => if l.racechk && checkedPlace p.sp p.pte then noteAccess s k (engineAgent agent) (p.access n att) else s
    | none => s

/-- What an engine's access leaves to race detection. -/
def engNote (s : State) (k : UKey) (agent : Nat) (p : Place) (n : Nat) (att : Att) : State :=
  notePlace s k (engineAgent agent) p n att

/-- The status word of a stop at a byte offset (R174, R175). -/
def EStop.word (off : Nat) : EStop → DWord
  | .status code race => if race then statusWord code (2 ^ 47 + off % 2 ^ 47) else statusWord code off
  | _ => 0

end Sys2Proof.Machine
end

