-- ==== Sys2Proof/Machine/Matrix.lean ====
section
/-! DEFINITION. Planes, the matrix array and accumulator moves (R182 to R189, R261 to R273). -/

namespace Sys2Proof.Machine

/-! ## Formats (R183, R185, R261, R262) -/

/-- Tag of a plane buffer in a format. -/
def planeTag (fmt : Nat) : Tag := match fmt with | 0 => .b2 | 1 => .h2 | 2 => .dx8 | 3 => .dx4 | 4 => .f32 | _ => .f64

/-- Bytes of a plane image. -/
def imageBytes (fmt : Nat) : Nat := match fmt with | 0 => 16384 | 1 => 16384 | 2 => 9216 | 3 => 5120 | 4 => 32768 | _ => 65536

/-- Bytes of an A row. -/
def rowBytes (fmt : Nat) : Nat := match fmt with | 0 => 256 | 1 => 256 | 2 => 144 | 3 => 80 | 4 => 512 | _ => 1024

/-- Element `k` of an A row, from a reader of its bytes: offset and count (R262). -/
def rowElem (fmt : Nat) (rd : Nat → Nat → Nat) (k : Nat) : Fl :=
  match fmt with
  | 0 => BF16.read (rd (2 * k) 2)
  | 1 => F16.read (rd (2 * k) 2)
  | 2 => DX8F.elem (rd (128 + 2 * (k / 16)) 1) (rd (129 + 2 * (k / 16)) 1) (rd k 1)
  | 3 => DX4F.elem (rd (64 + 2 * (k / 16)) 1) (rd (65 + 2 * (k / 16)) 1) (rd (k / 2) 1 / 16 ^ (k % 2) % 16)
  | 4 => F32.read (rd (4 * k) 4)
  | _ => F64.read (rd (8 * k) 8)

/-- Element (k, c) of a plane image (R261). -/
def planeElem (fmt : Nat) (rd : Nat → Nat → Nat) (k c : Nat) : Fl :=
  match fmt with
  | 0 => BF16.read (rd (2 * (128 * c + k)) 2)
  | 1 => F16.read (rd (2 * (128 * c + k)) 2)
  | 2 => DX8F.elem (rd (8192 + 2 * (8 * c + k / 16)) 1) (rd (8193 + 2 * (8 * c + k / 16)) 1) (rd (128 * c + k) 1)
  | 3 => DX4F.elem (rd (4096 + 2 * (8 * c + k / 16)) 1) (rd (4097 + 2 * (8 * c + k / 16)) 1)
           (rd (64 * c + k / 2) 1 / 16 ^ (k % 2) % 16)
  | 4 => F32.read (rd (4 * (128 * c + k)) 4)
  | _ => F64.read (rd (8 * (128 * c + k)) 8)

/-- Words of a plane buffer (R25, R183). -/
def planeWords : Nat := 16384

/-- Reads bytes of a plane buffer; a read does not cross two words, but for the eight bytes of an FP64 element. -/
def Core.planeRd (c : Core) (buf off n : Nat) : Nat :=
  let w (i : Nat) : Nat := (Sparse.get 0 c.plane (planeWords * buf + i)).toNat
  (w (off / 4) + 2 ^ 32 * w (off / 4 + 1)) / 256 ^ (off % 4) % 256 ^ n

/-- Exchanges the active and the shadow buffer of a plane (R182). -/
def Core.exchange (c : Core) (plane : Nat) : Core :=
  let lo := 2 * planeWords * plane
  let mid := lo + planeWords
  let hi := mid + planeWords
  let low := c.plane.filter fun e => e.1 < lo
  let act := (c.plane.filter fun e => lo ≤ e.1 && e.1 < mid).map fun e => (e.1 + planeWords, e.2)
  let sha := (c.plane.filter fun e => mid ≤ e.1 && e.1 < hi).map fun e => (e.1 - planeWords, e.2)
  let high := c.plane.filter fun e => hi ≤ e.1
  let t (k : Nat) : Tag := Sparse.get .raw c.planet k
  { c with plane := low ++ sha ++ act ++ high,
           planet := Sparse.set .raw (Sparse.set .raw c.planet (2 * plane) (t (2 * plane + 1))) (2 * plane + 1) (t (2 * plane)) }

/-- The tags in queue order after a plswap has entered (R182). -/
def Core.queueSwap (c : Core) (plane : Nat) : Core :=
  let t (k : Nat) : Tag := Sparse.get .raw c.planeq k
  { c with planeq := Sparse.set .raw (Sparse.set .raw c.planeq (2 * plane) (t (2 * plane + 1))) (2 * plane + 1) (t (2 * plane)),
           mq := c.mq ++ [.swap plane] }

/-! ## ldpl, plswap, mmq (R183 to R185) -/

def execLdpl (o : Op) (x : ModX) (s : State) : Host.Outcome State Fault Refusal :=
  word s o fun c => do
    let agent ← c.agent
    let vault := x.f 40 40 = 1
    let fmt := x.f 43 41
    let tag := x.f 39 34
    let _ ← c.needBase o.a vault
    c.tagFree tag
    if c.u.aslots = 0 then c.bounds
    c.checkRange o.a vault o.disp (imageBytes fmt) 256 false
    let m := { c.newCmd (.ldpl o x) with av := c.opVal o.a (baseRegs vault), pmap := c.pmapOf o.a vault 2, pins := c.pinOf o.a vault,
                                         tag := some tag, permit := true }
    return (c.fork agent m).modCore c.u.core fun k =>
      { k with planeq := Sparse.set .raw k.planeq (2 * x.f 44 44 + 1) (planeTag fmt), mq := k.mq ++ [.load c.u.key agent] }

def execPlswap (o : Op) (x : ModX) (s : State) : Host.Outcome State Fault Refusal :=
  word s o fun c => do
    if c.u.aslots = 0 then c.bounds
    let know := knowOf c.s c.u.key c.g.gid
    let s := withRace c.s c.u.key fun r => r.advance c.g.gid
    return s.modCore c.u.core fun k => { k.queueSwap (x.f 44 44) with plknow := notedKnow k.plknow (x.f 44 44) know }

/-- The offset of a lane's row from its vault base (R185). -/
def Cx.rowOff (c : Cx) (o : Op) (l : Nat) : Int := sext 32 (c.val o.b 1 l) + sext 22 o.imm

def execMmq (o : Op) (x : ModX) (s : State) : Host.Outcome State Fault Refusal :=
  word s o fun c => do
    let agent ← c.agent
    let fmt := mmqFmt x
    let pl := x.f 41 41
    let qs := quartersOf c.ex
    let slots := qs.flatMap (mmqSlots o x)
    c.tagsSettled slots
    let _ ← c.need o.a 1 [.i32]
    let _ ← c.need o.b 1 [.i32]
    let pt := Sparse.get .raw (c.s.core c.u.core).planeq (2 * pl)
    if pt != planeTag fmt then stop { code := C.FORMAT, detail := pl + pt.code * 2 ^ 9 + 2 ^ 19 }
    needSlots c.u (fun t => t == .raw || t == (if fmt = 5 then .f64 else .f32)) slots
    c.haveSlots slots
    let _ ← mapLanes (fun l => resolveVault c.s c.u l (c.val o.a 1 l) (c.rowOff o l) (rowBytes fmt) 16 false) c.lanes
    let offs := (List.range 32).map fun l => if c.ex.getLsbD l then BitVec.ofNat 64 (wrap 32 (c.rowOff o l)) else 0
    let m := { c.newCmd (.mmq o x) with av := c.opVal o.a 1, wb := c.waitBar (o.imm / 2 ^ 27), ab := arriveBar (o.imm / 2 ^ 22 % 32),
                                        vec := offs, quarters := qs }
    let s := withRace (c.fork agent m) c.u.key fun r =>
      r.learn c.u.key (engineAgent agent) (Sparse.get [] (c.s.core c.u.core).plknow pl)
    return s.modCore c.u.core fun k => { k with mq := k.mq ++ qs.map fun q => .quarter c.u.key agent q }

/-! ## Passes (R266 to R269) -/

/-- A quarter operation of a pass: its unit, its agent, its quarter. -/
abbrev QOp := UKey × Nat × Nat

/-- Plane and format of a command of the matrix queue. -/
def State.qShape (s : State) (k : UKey) (agent : Nat) : Option (Nat × Nat) :=
  match (s.unit? k).bind fun u => u.cmd? agent with
  | some m => match m.ins with
    | .mmq _ x => some (x.f 41 41, mmqFmt x)
    | .ldpl _ x => some (x.f 44 44, x.f 43 41)
    | _ => none
  | none => none

/-- Whether a plswap of its plane stands behind a command in the matrix queue: the command then runs before its unit is saved, for
the image has no place for the plswap (R184, R369, log 38). -/
def swapBehind (s : State) (core : Nat) (k : UKey) (agent : Nat) : Bool :=
  let mine (i : MqItem) : Bool := match i with | .quarter v a _ => v == k && a == agent | .load v a => v == k && a == agent | .swap _ => false
  match s.qShape k agent with
  | some (p, _) => ((s.core core).mq.dropWhile fun i => !mine i).contains (.swap p)
  | none => false

/-- The slots of a quarter operation, and its group. -/
def State.qSlots (s : State) (x : QOp) : List Nat × Nat :=
  match (s.unit? x.1).bind fun u => u.cmd? x.2.1 with
  | some m => match m.ins with
    | .mmq o mx => (mmqSlots o mx x.2.2, m.gid)
    | _ => ([], 0)
  | none => ([], 0)

/-- Whether an earlier quarter operation keeps its place in the queue: its wait is over, so that it does not step aside (R182), and its
unit is not on its way out of the core (R173). -/
def State.qStands (s : State) (x : QOp) : Bool :=
  match (s.unit? x.1).bind fun u => (u.cmd? x.2.1).map fun m => (u, m) with
  | none => false
  | some (u, m) => (m.state == .started || u.wbDone m) && (!u.vacating || m.permit || swapBehind s u.core x.1 x.2.1)

/-- Whether an operation of the queue, not yet taken into the pass, comes before another and updates one of its slots (R269). -/
def State.qBehind (s : State) (core : Nat) (taken : List QOp) (x : QOp) : Bool :=
  ((s.core core).mq.takeWhile (· != .quarter x.1 x.2.1 x.2.2)).any fun i => match i with
    | .quarter k a q =>
      k == x.1 && !taken.contains (k, a, q) && s.qStands (k, a, q) && meets (s.qSlots (k, a, q)).1 (s.qSlots x).1
    | _ => false

/-- Whether a quarter operation may join after those taken: its wait is over, no earlier work of its group on its slots is outstanding
but what the pass holds before it, and no earlier operation of the queue on its slots stands before it (R168, R267, R269). -/
def State.qStartable (s : State) (taken : List QOp) (x : QOp) : Bool :=
  match s.unit? x.1 with
  | none => false
  | some u => match u.cmd? x.2.1 with
    | none => false
    | some m =>
      let (slots, gid) := s.qSlots x
      m.state == .started && (!u.vacating || m.permit || swapBehind s u.core x.1 x.2.1) && !s.qBehind u.core taken x
      && (u.before x.2.1).all (fun e =>
            e.2.gid != gid ||
            match e.2.ins with
            | .mmq o mx => e.2.quarters.all fun q => !meets (mmqSlots o mx q) slots || taken.contains (x.1, e.1, q)
            | _ => !e.2.blocks [] slots)

/-- Takes quarter operations from the matrix queue into a pass (R267): `swaps` are planes with a plswap before the place reached,
`shape` the pass's plane and format once its first operation is passed, `cut` whether a plane operation of it stands after. -/
def gather (s : State) (start : Bool) : List MqItem → List Nat → Option (Nat × Nat) → Bool → List QOp → List QOp
  | [], _, _, _, acc => acc
  | .swap p :: r, swaps, shape, cut, acc => gather s start r (p :: swaps) shape (cut || shape.map (·.1) == some p) acc
  | .load u a :: r, swaps, shape, cut, acc =>
    gather s start r swaps shape (cut || (shape.isSome && shape.map (·.1) == (s.qShape u a).map (·.1))) acc
  | .quarter u a q :: r, swaps, shape, cut, acc =>
    match s.qShape u a with
    | none => gather s start r swaps shape cut acc
    | some ps =>
      if acc.contains (u, a, q) then gather s start r swaps (some ps) cut acc
      else if 16 ≤ acc.length || cut || swaps.contains ps.1 || !s.qStartable acc (u, a, q)
          || (match shape with | none => start | some t => t != ps) then gather s start r swaps shape cut acc
      else gather s start r swaps (some ps) cut (acc ++ [(u, a, q)])

/-- The operations a pass that opens now takes. -/
def newPass (s : State) (core : Nat) : List QOp := gather s false (s.core core).mq [] none false []

/-- Marks the commands of a pass as running under a permit. -/
def permitOps (s : State) (ops : List QOp) : State := ops.foldl (fun s o => s.modCmd o.1 o.2.1 fun m => { m with permit := true }) s

/-- Whether a unit with an operation has room in its reservation (R272). -/
def opsReserved (s : State) (ops : List QOp) : Bool := ops.any fun o => match s.unit? o.1 with | some u => u.reserved | none => false

def execMatrixPassOpen (core : Nat) (s : State) : Host.Outcome State Fault Refusal :=
  match (s.core core).pass, newPass s core with
  | none, (u, a, q) :: ops =>
    match s.qShape u a with
    | none => .next s
    | some (plane, fmt) =>
      let all := (u, a, q) :: ops
      let free := opsReserved s all
      let s := s.modCore core fun c => { c with pass := some { plane := plane, fmt := fmt, ops := all, permit := free, shares := sharesOf all }, prevPl := some plane }
      if free then .next (debit (permitOps s all) (dieOf core) (all.length * quarterEstimate fmt))
      else .next (s.modDie (dieOf core) fun d => { d with permits := d.permits ++ [(superKey core, 32, core)] })
  | _, _ => .next s

/-- A lane's A row as one value (R185). -/
def readRow (s : State) (u : Unit) (agent : Nat) (m : Cmd) (fmt l : Nat) : Except EStop (Nat × Place) := do
  let p ← engPlace s u agent true m.av.toNat (sext 32 (m.vec.getD l 0).toNat) (rowBytes fmt) {} true
  return (s.load u.core p.sp p.a (rowBytes fmt), p)

/-- The rows of a quarter: lanes with their values, or the first stop and its offset in the command's source. DESIGN CHOICE: the 32 rows
in lane order are taken as that source, so that the row of lane l begins at l times the bytes of a row (R175, log 72). -/
def readRows (s : State) (u : Unit) (agent : Nat) (m : Cmd) (fmt : Nat) : List Nat → Except (EStop × Nat) (List (Nat × Nat × Place))
  | [] => .ok []
  | l :: ls =>
    match readRow s u agent m fmt l with
    | .error e => .error (e, l * rowBytes fmt)
    | .ok (v, p) => do
      let r ← readRows s u agent m fmt ls
      return (l, v, p) :: r

/-- A cell of a tile whose first slot is given (R265). -/
def Unit.cell (u : Unit) (f64 : Bool) (slot e : Nat) : Nat :=
  if f64 then u.accWord slot (2 * e) + 2 ^ 32 * u.accWord slot (2 * e + 1) else u.accWord slot e

def Unit.setCell (u : Unit) (f64 : Bool) (slot e v : Nat) : Unit :=
  if f64 then (u.setAccWord slot (2 * e) v).setAccWord slot (2 * e + 1) (v / 2 ^ 32) else u.setAccWord slot e v

/-- One output cell: the row's products with a plane column, added to the cell or to +0 (R59, R263). -/
def matrixCell (u : Unit) (c : Core) (fmt buf : Nat) (clr : Bool) (slot r col row : Nat) : Nat :=
  let f64 := fmt == 5
  let acc := if clr then 0 else u.cell f64 slot (64 * r + col)
  let rd (off n : Nat) : Nat := row / 256 ^ off % 256 ^ n
  cellSum (if f64 then F64 else F32) (if f64 then 192 else 96) acc
    ((List.range 128).map fun k => flMul (rowElem fmt rd k) (planeElem fmt (c.planeRd buf) k col))

/-- The rows of a quarter committed into its slot (R185). -/
def commitRows (u : Unit) (c : Core) (o : Op) (x : ModX) (q : Nat) (rows : List (Nat × Nat × Place)) : Unit :=
  let fmt := mmqFmt x
  let slots := mmqSlots o x q
  let slot := slots.headD 0
  let news := rows.flatMap fun (l, v, _) =>
    (List.range 64).map fun col => (64 * (l - 8 * q) + col, matrixCell u c fmt (2 * x.f 41 41) (x.f 40 40 == 1) slot (l - 8 * q) col v)
  let u := news.foldl (fun u (e, v) => u.setCell (fmt == 5) slot e v) u
  slots.foldl (fun u k => u.setAccTag k (if fmt = 5 then .f64 else .f32)) u

/-- The status of a quarter operation: a read that fails, a mismatch that the square row sees in this pass, or none (R270,
R271). -/
def quarterStatus (c : Core) (rows : Except (EStop × Nat) (List (Nat × Nat × Place))) (mismatch : Option (Nat × Nat)) : DWord :=
  match rows with
  | .error (e, off) => e.word off
  | .ok _ => match mismatch with
    | some (k, col) => if k = c.passn % 128 then statusWord St.SQUARE (k * 64 + col % 64) else 0
    | none => 0

/-- The end of an mmq: its arrival, or the trap of a failure that has nowhere to arrive (R185). -/
def mmqEnd (s : State) (k : UKey) (agent : Nat) (m : Cmd) : State :=
  let s := cmdArrive s k agent m.status
  if m.ab.isNone && statusCode m.status != 0 then
    impreciseFault s k m.gid { code := C.ECC, detail := m.status.toNat % 2 ^ 48, estat := statusCode m.status } m.status
  else s

/-- A quarter operation has committed or failed with a status. -/
def quarterDone (s : State) (core : Nat) (x : QOp) (st : DWord) : State :=
  let s := s.modCmd x.1 x.2.1 fun m =>
    { m with quarters := m.quarters.erase x.2.2, status := if statusCode m.status = 0 then st else m.status }
  let item : MqItem := .quarter x.1 x.2.1 x.2.2
  let s := s.modCore core fun c =>
    { c with mq := c.mq.filter (· != item), pass := c.pass.map fun p => { p with ops := p.ops.filter (· != x) },
             squares := if statusCode st = St.SQUARE then c.squares + 1 else c.squares }
  let s := wakeUnit s x.1 (· == .engine)
  let s := match (s.unit? x.1).bind fun u => u.cmd? x.2.1 with
    | some m => if m.quarters.isEmpty then mmqEnd s x.1 x.2.1 m else s
    | none => s
  match (s.core core).pass with
  | some p => if p.ops.isEmpty then passEnd s core else s
  | none => s

/-- A failing mmq without an arrive barrier whose group waits in an scall is held until that is answered: its trap is taken at
the group's next boundary (R185). -/
def quarterHeld (u : Unit) (m : Cmd) (st : DWord) : Bool :=
  !u.vacating && m.ab.isNone && (statusCode st != 0 || statusCode m.status != 0) && m.quarters.length = 1
  && (match u.grp? m.gid with | some g => g.scall | none => false)

def execQuarterOperationCommit (core : Nat) (mismatch : Option (Nat × Nat)) (s : State) : Host.Outcome State Fault Refusal :=
  let c := s.core core
  match c.pass with
  | none => .next s
  | some p =>
    if !p.permit && !p.ops.isEmpty then .next s
    else match p.ops with
      | [] => .next (passEnd s core)
      | (k, agent, q) :: _ =>
        match s.unit? k with
        | none => .next (quarterDone s core (k, agent, q) 0)
        | some u => match u.cmd? agent with
          | none => .next (quarterDone s core (k, agent, q) 0)
          | some m => match m.ins with
            | .mmq o x =>
              let rows := readRows s u agent m (mmqFmt x) ((lanesOf m.exec).filter fun l => l / 8 == q)
              match rows with
              | .error (.fault f, _) => .fault f
              | _ =>
                let st := quarterStatus c rows mismatch
                if quarterHeld u m st then .next (s.dueAgain (.quarterOperationCommit core mismatch))
                else
                  let s := match rows with
                    | .ok rs =>
                      let s := rs.foldl (fun s r => engNote s k agent r.2.2 (rowBytes (mmqFmt x)) {}) s
                      if st = 0 then s.modUnit k fun u => commitRows u c o x q rs else s
                    | .error _ => s
                  .next (quarterDone s core (k, agent, q) st)
            | _ => .next (quarterDone s core (k, agent, q) 0)

/-- Whether a queue item keeps a plswap of a plane from taking effect (R182). -/
def State.holdsSwap (s : State) (plane : Nat) : MqItem → Bool
  | .swap _ => false
  | .load u a => (s.qShape u a).map (·.1) == some plane
  | .quarter u a _ => (s.qShape u a).map (·.1) == some plane

/-- Whether the oldest plswap of a plane may take effect. -/
def swapReady (s : State) (core plane : Nat) : Bool :=
  let mq := (s.core core).mq
  mq.contains (.swap plane) && !(mq.takeWhile (· != .swap plane)).any (s.holdsSwap plane)

def execPlswapExchange (core plane : Nat) (s : State) : Host.Outcome State Fault Refusal :=
  if swapReady s core plane then .next (s.modCore core fun c => { c.exchange plane with mq := c.mq.erase (.swap plane) })
  else .next s

/-! ## Accumulator moves (R187 to R189) -/

/-- The words of an accumulator range as a list. -/
def Unit.slotWords (u : Unit) (slots : List Nat) : List Nat := slots.flatMap fun k => u.accSlot (u.curSlot k)

/-- Where word `32 · i + l` of sixteen or thirty-two registers lies in the slot or pair (R187). -/
def moveWord (w64 : Bool) (i l : Nat) : Nat := if w64 then i / 2 * 64 + 2 * l + i % 2 else 32 * i + l

/-- The tag accrd gives its registers (R187). -/
def Unit.readTag (u : Unit) (w64 : Bool) (slot : Nat) : Tag :=
  if w64 then .f64
  else match u.accTag slot with
    | .f32 => .f32
    | .i32 => .i32
    | .tri => if u.triF64 slot then .raw else .f32
    | _ => .raw

def execAccrd (o : Op) (x : ModX) (s : State) : Host.Outcome State Fault Refusal :=
  word s o fun c => do
    let w64 := x.f 44 44 == 1
    let slots := moveSlots o w64
    c.slotsFree slots []
    c.haveSlots slots
    let ws := c.u.slotWords slots
    let tag := c.u.readTag w64 (o.imm % 128)
    let n := if w64 then 32 else 16
    let r := vnum o.d
    let g := (List.range n).foldl (fun g i =>
      ((List.range 32).foldl (fun g l => g.setV (r + i) l (BitVec.ofNat 32 (ws.getD (moveWord w64 i l) 0))) g).setVtag (r + i) tag) c.g
    return c.put g

/-- The tags accwr needs: one among those its width takes, the same in every register (R187). -/
def Cx.moveTag (c : Cx) (a : Opd) (n : Nat) (ok : List Tag) : Exc Tag :=
  let t := c.regTag a 0
  match (List.range n).find? fun i => !(ok.contains (c.regTag a i)) || c.regTag a i != t with
  | some i => stop { code := C.FORMAT, detail := a.code + i + (c.regTag a i).code * 2 ^ 9 + c.l0 * 2 ^ 13 }
  | none => .ok t

def execAccwr (o : Op) (x : ModX) (s : State) : Host.Outcome State Fault Refusal :=
  word s o fun c => do
    let w64 := x.f 44 44 == 1
    let slots := moveSlots o w64
    c.slotsFree [] slots
    let n := if w64 then 32 else 16
    let t ← c.moveTag o.a n (if w64 then [.f64, .raw] else [.f32, .i32, .raw])
    needSlots c.u (· != .tri) slots
    c.haveSlots slots
    let r := vnum o.a
    let u := (List.range n).foldl (fun u i =>
      (List.range 32).foldl (fun u l => u.setAccWord (o.imm % 128) (moveWord w64 i l) (c.g.getV (r + i) l).toNat) u) c.u
    return c.putU (slots.foldl (fun u k => u.setAccTag k (if w64 then .f64 else t)) u)

def execAcczero (o : Op) (_x : ModX) (s : State) : Host.Outcome State Fault Refusal :=
  word s o fun c => do
    let a := o.imm % 128
    let n := o.imm / 256 % 256
    c.slotsFree [] (rangeFrom a n)
    c.haveSlots (rangeFrom a n)
    return c.putU
      { c.u with acc := Sparse.clear c.u.acc (512 * a) (512 * (a + n)), acct := Sparse.clear c.u.acct a (a + n),
                 accr := Sparse.clear c.u.accr a (a + n) }

/-- The issue of accld and accst (R189). -/
def Cx.accMove (c : Cx) (i : Instr) (o : Op) (x : ModX) (load : Bool) : Exc State := do
  let agent ← c.agent
  let vault := x.f 38 38 == 1
  let pair := x.f 37 36 == 3
  let slots := moveSlots o pair
  if load then c.tagsSettled slots
  let _ ← c.needBase o.a vault
  if load then needSlots c.u (· != .tri) slots
  c.tagFree (x.f 44 39)
  c.haveSlots slots
  c.checkRange o.a vault 0 (2048 * slots.length) 256 (!load)
  return c.fork agent
    { c.newCmd i with av := c.opVal o.a (baseRegs vault), pmap := c.pmapOf o.a vault 2, pins := c.pinOf o.a vault,
                      tag := some (x.f 44 39), permit := true }

def execAccld (o : Op) (x : ModX) (s : State) : Host.Outcome State Fault Refusal := word s o fun c => c.accMove (.accld o x) o x true

def execAccst (o : Op) (x : ModX) (s : State) : Host.Outcome State Fault Refusal := word s o fun c => c.accMove (.accst o x) o x false

/-! ## Their pieces (R283) -/

/-- What one piece of a command has done: the state, the bytes moved, and a stop after them. -/
structure Piece where
  s : State
  n : Nat
  stop : Option EStop

/-- Reads words at a base from an offset on: the words read, and a stop after them. -/
def engReadWords (s : State) (u : Unit) (agent : Nat) (vault : Bool) (base : Nat) (off : Int) : Nat → State × List Nat × Option EStop
  | 0 => (s, [], none)
  | n + 1 =>
    match engPlace s u agent vault base off 4 {} true with
    | .error e => (s, [], some e)
    | .ok p =>
      let (s', ws, e) := engReadWords (engNote s u.key agent p 4 {}) u agent vault base (off + 4) n
      (s', s.load u.core p.sp p.a 4 :: ws, e)

/-- Writes words at a base from an offset on. -/
def engWriteWords (s : State) (u : Unit) (agent : Nat) (vault : Bool) (base : Nat) (off : Int) : List Nat → Piece
  | [] => { s := s, n := 0, stop := none }
  | w :: ws =>
    match engPlace s u agent vault base off 4 { write := true } false with
    | .error e => { s := s, n := 0, stop := some e }
    | .ok p =>
      let s := engNote (markDirty (s.store u.core p.sp p.a 4 w) u.ctx p.va) u.key agent p 4 { write := true }
      let r := engWriteWords s u agent vault base (off + 4) ws
      { r with n := r.n + 4 }

/-- A piece of an ldpl: up to 4 KiB of its image into the shadow buffer (R183); nothing of a 256-byte block with uncorrectable data goes
on (R402). -/
def pieceLdpl (s : State) (u : Unit) (agent : Nat) (m : Cmd) (o : Op) (x : ModX) : Piece :=
  let fmt := x.f 43 41
  let n := min 4096 (imageBytes fmt - m.prog)
  let (s, ws, e) := engReadWords s u agent (x.f 40 40 == 1) m.av.toNat (o.disp + m.prog) (n / 4)
  let ws := if e == some (.status St.ECC false) then ws.take (ws.length / 64 * 64) else ws
  let buf := 2 * x.f 44 44 + 1
  let s := s.modCore u.core fun c =>
    { c with plane := Sparse.setList 0 c.plane (planeWords * buf + m.prog / 4) (ws.map (BitVec.ofNat 32 ·)),
             planet := Sparse.set .raw c.planet buf (planeTag fmt) }
  { s := s, n := 4 * ws.length, stop := e }

/-- The one piece of an accld: the whole slot or pair, or nothing (R189). -/
def pieceAccld (s : State) (u : Unit) (agent : Nat) (m : Cmd) (o : Op) (x : ModX) : Piece :=
  let slots := moveSlots o (x.f 37 36 == 3)
  let (s, ws, e) := engReadWords s u agent (x.f 38 38 == 1) m.av.toNat 0 (512 * slots.length)
  match e with
  | some e => { s := s, n := 4 * ws.length, stop := some e }
  | none =>
    let s := s.modUnit u.key fun u =>
      slots.foldl (fun u k => u.setAccTag k (accKind (x.f 37 36))) (u.setAccWords (o.imm % 128) 0 ws)
    { s := s, n := 4 * ws.length, stop := none }

/-- The one piece of an accst (R189, R276). -/
def pieceAccst (s : State) (u : Unit) (agent : Nat) (m : Cmd) (o : Op) (x : ModX) : Piece :=
  let slots := moveSlots o (x.f 37 36 == 3)
  engWriteWords s u agent (x.f 38 38 == 1) m.av.toNat m.prog ((u.slotWords slots).drop (m.prog / 4))

end Sys2Proof.Machine
end

