-- ==== Sys2Proof/Machine/Factor.lean ====
section
/-! DEFINITION. Factor commands (R190 to R193, R274 to R278). -/

namespace Sys2Proof.Machine

/-! ## Arithmetic of the factor engine: every rounding RNE, no flags (R192, R193) -/

/-- The value RNE delivers. -/
def Fmt.rne (f : Fmt) (x : Fl) : Nat := (f.arith .rn x).1

def Fmt.neg (f : Fmt) (a : Nat) : Nat := if a / f.signBit % 2 = 1 then a - f.signBit else a + f.signBit

def Fmt.fma (f : Fmt) (a b c : Nat) : Nat := f.rne (flFma .rn (f.read a) (f.read b) (f.read c)).1

def Fmt.fused2 (f : Fmt) (a b c d : Nat) : Nat := f.rne (flFused2 (f.read a) (f.read b) (f.read c) (f.read d)).1

def Fmt.quot (f : Fmt) (a b : Nat) : Nat := f.rne (flDiv (f.read a) (f.read b)).1

def Fmt.root (f : Fmt) (a : Nat) : Nat := f.rne (flSqrt (f.read a)).1

def Fl.finite : Fl → Bool | .fin _ _ _ => true | _ => false

def Fmt.isFin (f : Fmt) (a : Nat) : Bool := (f.read a).finite

/-- The exponent floor(log2 |x|) of a finite non-zero value. -/
def Fl.exp : Fl → Int | .fin _ m e => e + nbits m - 1 | _ => 0

/-- How a factor command fails (R193). -/
structure FacFail where
  k : Nat
  reason : Nat
  t : Nat
  deriving DecidableEq, Repr

abbrev Fac := Except FacFail

/-- The status word of a failure: t rounded to FP32 (R175). -/
def FacFail.word (f : Fmt) (x : FacFail) : DWord :=
  statusWord St.LOSTDEF (x.k * 2 ^ 40 + x.reason * 2 ^ 32 + F32.rne (f.read x.t))

/-! ## Tiles (R274) -/

/-- The packed index of element (i, j). -/
def triIdx (n i j : Nat) : Nat := i * n - i * (i - 1) / 2 + (j - i)

def triGet (n : Nat) (r : List Nat) (i j : Nat) : Nat := r.getD (triIdx n i j) 0
def triSet (n : Nat) (r : List Nat) (i j v : Nat) : List Nat := r.set (triIdx n i j) v

/-- Columns after `k`. -/
def after (n k : Nat) : List Nat := (List.range n).filter (k < ·)

/-- trchol, row `k` (R192). DESIGN CHOICE: a d of minus infinity meets both of R192's conditions and is reported as not finite, reason 1
(log 72). -/
def cholRow (f : Fmt) (n marg : Nat) (g : Nat → Nat → Nat) (r : List Nat) (k : Nat) : Fac (List Nat) :=
  let d := (List.range k).foldl (fun d j => f.fma (f.neg (triGet n r j k)) (triGet n r j k) d) (g k k)
  if !f.isFin d then .error { k := k, reason := 1, t := d }
  else if flCmp (f.read d) (flScale (f.read (g k k)) (-(marg : Int))).1 ≤ 0 then .error { k := k, reason := 0, t := d }
  else
    let p := f.root d
    let r := triSet n r k k p
    .ok ((after n k).foldl (fun r j =>
      let s := (List.range k).foldl (fun s i => f.fma (f.neg (triGet n r i k)) (triGet n r i j) s) (g k j)
      triSet n r k j (f.quot s p)) r)

def chol (f : Fmt) (n marg : Nat) (g : Nat → Nat → Nat) : Fac (List Nat) :=
  (List.range n).foldlM (cholRow f n marg g) (List.replicate (n * (n + 1) / 2) 0)

/-- One rotation of a row with a vector: the new elements of a column by a rule. -/
def rotate (n k : Nat) (rule : Nat → Nat → Nat × Nat) (r x : List Nat) : List Nat × List Nat :=
  (after n k).foldl (fun (r, x) j =>
    let (a, b) := rule (triGet n r k j) (x.getD j 0)
    (triSet n r k j a, x.set j b)) (r, x)

/-- trupd, step `k` (R192). -/
def updRow (f : Fmt) (n : Nat) (rx : List Nat × List Nat) (k : Nat) : Fac (List Nat × List Nat) :=
  let (rs, xs) := rx
  let r := triGet n rs k k
  let x := xs.getD k 0
  if (f.read x).isZero then .ok rx
  else if !f.isFin x || !f.isFin r then .error { k := k, reason := 1, t := 0 }
  else
    let e := if (f.read r).isZero then (f.read x).exp else max (f.read r).exp (f.read x).exp
    let r' := (flScale (f.read r) (-e)).1
    let x' := (flScale (f.read x) (-e)).1
    let p := f.rne (flScale (f.read (f.root (f.rne (flFused2 r' r' x' x').1))) e).1
    if !f.isFin p then .error { k := k, reason := 1, t := p }
    else
      let c := f.quot r p
      let s := f.quot x p
      .ok (rotate n k (fun a b => (f.fused2 c a s b, f.fused2 c b (f.neg s) a)) (triSet n rs k k p) xs)

/-- Absorbs one vector. -/
def absorb (f : Fmt) (n : Nat) (r x : List Nat) : Fac (List Nat) := do
  let rx ← (List.range n).foldlM (updRow f n) (r, x)
  return rx.1

/-- trdwd, step `k` (R192). DEDUCED: MARG 0 refuses every step, as R278 says, also where the rounding of `t` lifts it above the exact r·r,
which R192's comparison alone would let pass (log 60). -/
def dwdRow (f : Fmt) (n marg : Nat) (rx : List Nat × List Nat) (k : Nat) : Fac (List Nat × List Nat) :=
  let (rs, xs) := rx
  let r := triGet n rs k k
  let x := xs.getD k 0
  let t := f.fused2 r r (f.neg x) x
  if !f.isFin r || !f.isFin x || !f.isFin t then .error { k := k, reason := 1, t := t }
  else if marg = 0 || flCmp (f.read t) (flScale (flMul (f.read r) (f.read r)).1 (-(marg : Int))).1 ≤ 0 then .error { k := k, reason := 0, t := t }
  else
    let p := f.root t
    let c := f.quot p r
    let s := f.quot x r
    let rule (a b : Nat) : Nat × Nat :=
      let new := f.quot (f.fma (f.neg s) b a) c
      (new, f.fused2 c b (f.neg s) new)
    .ok (rotate n k rule (triSet n rs k k p) xs)

def remove (f : Fmt) (n marg : Nat) (r x : List Nat) : Fac (List Nat) := do
  let rx ← (List.range n).foldlM (dwdRow f n marg) (r, x)
  return rx.1

/-- trsolve (R192): `.t` forwards with the transpose, `.n` backwards. -/
def solve (f : Fmt) (n : Nat) (trans : Bool) (r b : List Nat) : List Nat :=
  let order := if trans then List.range n else (List.range n).reverse
  order.foldl (fun y i =>
    let ks := if trans then List.range i else after n i
    let s := ks.foldl (fun s k => f.fma (f.neg (if trans then triGet n r k i else triGet n r i k)) (y.getD k 0) s) (y.getD i 0)
    y.set i (f.quot s (triGet n r i i))) b

/-- The places of a tile in packed order. -/
def triPlaces (n : Nat) : List (Nat × Nat) := (List.range n).flatMap fun i => ((List.range n).filter (i ≤ ·)).map fun j => (i, j)

/-- trscale (R192). DESIGN CHOICE: with reason 0 or 1, where R192 names no t, the rounded product is reported (log 72). -/
def scaleTile (f : Fmt) (n b : Nat) (r : List Nat) : Fac (List Nat) :=
  if !f.isFin b || (f.read b).neg || (f.read b).isZero then .error { k := 0, reason := 2, t := b }
  else (triPlaces n).foldlM (fun r (i, j) =>
    let p := f.rne (flMul (f.read (triGet n r i j)) (f.read b)).1
    if !f.isFin p then .error { k := i, reason := 1, t := p }
    else if i = j && (f.read p).isZero then .error { k := i, reason := 0, t := p }
    else .ok (triSet n r i j p)) r

/-! ## Reading and committing (R274, R275) -/

/-- An element of a half by its packed index: `first` is the half's first slot. -/
def Unit.triElem (u : Unit) (f64 : Bool) (first i : Nat) : Nat := u.cell f64 first i

/-- The elements of a tile in a half. -/
def Unit.readTile (u : Unit) (o : Op) (x : ModX) (half : Nat) : List Nat :=
  let n := facN x
  (List.range (n * (n + 1) / 2)).map fun i => u.triElem (facF64 x) (facT o + half * facHalf x) i

/-- An element of the Gram matrix (R274). -/
def Unit.gram (u : Unit) (o : Op) (x : ModX) (i j : Nat) : Nat :=
  u.cell (facF64 x) (facSecond o + (if facF64 x then 2 * (i / 8) else i / 8)) (64 * (i % 8) + j)

/-- A row of the source slot of trupd8. -/
def Unit.sourceRow (u : Unit) (o : Op) (x : ModX) (r : Nat) : List Nat :=
  (List.range (facN x)).map fun j => u.cell (facF64 x) (facSecond o) (64 * r + j)

/-- The current half of the command's tile. -/
def Unit.curHalf (u : Unit) (o : Op) : Nat := recCur (u.record (facT o))

/-- Writes a half whole; bytes past the last element are zero (R274). -/
def Unit.writeHalf (u : Unit) (o : Op) (x : ModX) (half : Nat) (r : List Nat) : Unit :=
  let first := facT o + half * facHalf x
  let u := { u with acc := Sparse.clear u.acc (512 * first) (512 * (first + facHalf x)) }
  r.zipIdx.foldl (fun u (v, i) => u.setCell (facF64 x) first i v) u

/-- The commit of a factor command: a trchol on a fresh range makes its tile in half 0; every other writes the half that is not current and
inverts CUR, in one step (R275). -/
def Unit.commitTile (u : Unit) (i : Instr) (o : Op) (x : ModX) (r : List Nat) : Unit :=
  if (match i with | .trchol _ _ => !u.hasTile o x | _ => false) then
    let u := u.writeHalf o x 0 r
    let u := (facTile o x).foldl (fun u k => { u.setAccTag k .tri with accr := Sparse.set 0 u.accr k 0 }) u
    { u with accr := Sparse.set 0 u.accr (facT o) (recOf (facNc x) (facF64 x) 0) }
  else
    { u.writeHalf o x (1 - u.curHalf o) r with accr := Sparse.set 0 u.accr (facT o) (u.record (facT o) + 16 - 32 * u.curHalf o) }

/-! ## Issue (R191) -/

def facFmt (x : ModX) : Fmt := if facF64 x then F64 else F32
def facTag (x : ModX) : Tag := if facF64 x then .f64 else .f32

/-- Registers of one lane-wide piece of a vector operand. -/
def facStep (x : ModX) : Nat := if facF64 x then 2 else 1

/-- The tags of a vector operand (R191). -/
def Cx.needVec (c : Cx) (a : Opd) (x : ModX) : Nat → Exc PUnit
  | 0 => .ok ()
  | n + 1 => do
    c.needVec a x n
    let _ ← c.need (a.plus (facStep x * n)) (facStep x) [facTag x]

/-- The elements of a vector operand (R191). -/
def Cx.vector (c : Cx) (a : Opd) (x : ModX) : List DWord :=
  (List.range (facN x)).map fun i => BitVec.ofNat 64 (c.val (a.plus (facStep x * (i / 32))) (facStep x) (i % 32))

/-- The tile a command names must stand as it says (R191). -/
def Cx.needTile (c : Cx) (o : Op) (x : ModX) : Exc PUnit := do
  needSlots c.u (· == .tri) (facTile o x)
  if facT o < c.u.aslots && !c.u.hasTile o x then slotFormat c.u (facT o) else return ()

/-- The last checks of a factor command and its fork: `others` are its Gram or source slots (R191). -/
def Cx.facFork (c : Cx) (i : Instr) (o : Op) (x : ModX) (agent : Nat) (others : List Nat) (f : Cmd → Cmd) : Exc State := do
  c.haveSlots (facTile o x ++ others)
  if meets (facTile o x) others then c.bounds
  let m := f { c.newCmd i with wb := c.waitBar (o.imm / 2 ^ 27), ab := some (o.imm / 2 ^ 23 % 16) }
  return (c.fork agent m).modCore c.u.core fun k => { k with fq := k.fq ++ [(c.u.key, agent)] }

def execTrchol (o : Op) (x : ModX) (s : State) : Host.Outcome State Fault Refusal :=
  word s o fun c => do
    let agent ← c.agent
    c.tagsSettled (facTile o x ++ gramSlots o x)
    needSlots c.u (fun t => t == .raw || t == .f32 || t == .f64 || t == .tri) (facTile o x)
    c.facFork (.trchol o x) o x agent (gramSlots o x) fun m => { m with trapf := o.fn == 0 }

def execTrupd (o : Op) (x : ModX) (s : State) : Host.Outcome State Fault Refusal :=
  word s o fun c => do
    let agent ← c.agent
    c.tagsSettled (facTile o x)
    c.needTile o x
    c.needVec o.a x (if facNc x = 3 then 2 else 1)
    c.facFork (.trupd o x) o x agent [] fun m => { m with vec := c.vector o.a x }

def execTrupd8 (o : Op) (x : ModX) (s : State) : Host.Outcome State Fault Refusal :=
  word s o fun c => do
    let agent ← c.agent
    c.tagsSettled (facTile o x ++ sourceSlots o x)
    c.needTile o x
    needSlots c.u (fun t => t == .raw || t == facTag x) (sourceSlots o x)
    c.facFork (.trupd8 o x) o x agent (sourceSlots o x) id

def execTrdwd (o : Op) (x : ModX) (s : State) : Host.Outcome State Fault Refusal :=
  word s o fun c => do
    let agent ← c.agent
    c.tagsSettled (facTile o x)
    c.needTile o x
    c.needVec o.a x (if facNc x = 3 then 2 else 1)
    c.facFork (.trdwd o x) o x agent [] fun m => { m with vec := c.vector o.a x, trapf := o.fn == 0 }

def execTrsolve (o : Op) (x : ModX) (s : State) : Host.Outcome State Fault Refusal :=
  word s o fun c => do
    let agent ← c.agent
    c.tagsSettled (facTile o x)
    c.needTile o x
    c.needVec o.a x (if facNc x = 3 then 2 else 1)
    c.facFork (.trsolve o x) o x agent [] fun m => { m with vec := c.vector o.a x }

def execTrscale (o : Op) (x : ModX) (s : State) : Host.Outcome State Fault Refusal :=
  word s o fun c => do
    let agent ← c.agent
    c.tagsSettled (facTile o x)
    c.needTile o x
    let _ ← c.need o.b (facStep x) [facTag x]
    c.facFork (.trscale o x) o x agent [] fun m => { m with bv := c.opVal o.b (facStep x) }

/-! ## The factor queue and its commits (R277) -/

/-- Whether the engine may start a command: it is the first whose wait is over, nothing runs, and its group's earlier work on its
slots has ended (R168, R277). -/
def factorReady (s : State) (core : Nat) (k : UKey) (agent : Nat) : Bool :=
  let q := (s.core core).fq.filterMap fun (v, a) => do
    let u ← s.unit? v
    let m ← u.cmd? a
    return (v, a, u, m)
  q.all (fun e => e.2.2.2.state == .queued)
  && (match q.find? fun e => e.2.2.1.wbDone e.2.2.2 with
      | some (v, a, u, m) => v == k && a == agent && u.depsDone a m
      | none => false)

/-- Writes the registers of a trsolve in lanes 0 to n − 1 (R192). -/
def writeVec (g : Group) (a : Opd) (x : ModX) (y : List Nat) : Group :=
  let step := facStep x
  let r := vnum a
  let g := y.zipIdx.foldl (fun g (v, i) =>
    (List.range step).foldl (fun g j => g.setV (r + step * (i / 32) + j) (i % 32) (BitVec.ofNat 32 (v / 2 ^ (32 * j)))) g) g
  (List.range (Legal.vecRegs (facNc x) (facF64 x))).foldl (fun g j => g.setVtag (r + j) (facTag x)) g

/-- The unit as a factor command read it when it started (R277). -/
def Unit.seenBy (u : Unit) (m : Cmd) : Unit :=
  match m.snap with | some (acc, acct, accr) => { u with acc := acc, acct := acct, accr := accr } | none => u

/-- The result of a factor command that changes its tile, from what it read (R192). -/
def facResult (u : Unit) (m : Cmd) : Option (Op × ModX × Fac (List Nat)) :=
  let vec := m.vec.map (·.toNat)
  match m.ins with
  | .trchol o x => some (o, x, chol (facFmt x) (facN x) (x.f 41 36) (u.gram o x))
  | .trupd o x => some (o, x, absorb (facFmt x) (facN x) (u.readTile o x (u.curHalf o)) vec)
  | .trupd8 o x =>
    some (o, x, (List.range 8).foldlM (fun r i => absorb (facFmt x) (facN x) r (u.sourceRow o x i)) (u.readTile o x (u.curHalf o)))
  | .trdwd o x => some (o, x, remove (facFmt x) (facN x) (x.f 41 36) (u.readTile o x (u.curHalf o)) vec)
  | .trscale o x => some (o, x, scaleTile (facFmt x) (facN x) m.bv.toNat (u.readTile o x (u.curHalf o)))
  | _ => none

def execFactorCommandCommit (k : UKey) (agent : Nat) (s : State) : Host.Outcome State Fault Refusal :=
  match s.unit? k with
  | none => .next s
  | some u => match u.cmd? agent with
    | none => .next s
    | some m =>
      if m.state != .started || !m.permit || !isFactor m.ins then .next s
      else
        let s := chargeEnd s k (dieOf u.core) (factorEstimate m.ins)
        match m.ins, facResult (u.seenBy m) m with
        | .trsolve o x, _ =>
          let v := u.seenBy m
          let y := solve (facFmt x) (facN x) (o.fn == 0) (v.readTile o x (v.curHalf o)) (m.vec.map (·.toNat))
          let s := withRace s k fun r => m.vregs.foldl (fun r n => r.release k (engineAgent agent) (keyReg m.gid n)) r
          .next (cmdArrive (s.modGrp k m.gid fun g => writeVec g o.a x y) k agent 0)
        | _, some (o, x, .ok r) => .next (cmdArrive (s.modUnit k fun u => u.commitTile m.ins o x r) k agent 0)
        | _, some (_, x, .error e) => .next (cmdArrive s k agent (e.word (facFmt x)))
        | _, none => .next s

end Sys2Proof.Machine
end

