-- ==== Sys2Proof/Machine/Copies.lean ====
section
/-! DEFINITION. Copies, reductions, the compressor, streams and tags (R194 to R203, R279 to R293). -/

namespace Sys2Proof.Machine

/-! ## Operands (R194) -/

/-- A length register; IMM with z. DESIGN CHOICE: the specifier of x k is that of s(2k), so that an even register is read as the pair
where it is tagged I64, or where both registers of the pair are tagged RAW, and as one register otherwise (R65, R194, log 22). -/
def Cx.length (c : Cx) (o : Op) : Exc Nat :=
  if o.b = .z then .ok o.imm
  else if o.b.code % 2 = 0 && (c.regTag o.b 0 = .i64 || (c.regTag o.b 0 = .raw && c.regTag o.b 1 = .raw)) then do
    let _ ← c.need o.b 2 [.i64]
    return c.val o.b 2 c.l0
  else do
    let _ ← c.need o.b 1 [.i32]
    return c.val o.b 1 c.l0

/-- A descriptor: four words, each tagged I32 or RAW. -/
def Cx.needDesc (c : Cx) (o : Opd) : Exc PUnit := c.needRange o [.i32] 4

/-- Word `i` of a descriptor or of a remote descriptor. -/
def descWord (q : QWord) (i : Nat) : Nat := q.toNat / 2 ^ (32 * i) % 2 ^ 32

/-- Handle and offset of a remote descriptor. -/
def remHandle (q : QWord) : Nat := q.toNat % 2 ^ 64
def remOff (q : QWord) : Nat := q.toNat / 2 ^ 64

/-- The offset of a vault address in the unit's own allocation (R38, R286). -/
def Unit.ownOffset (u : Unit) (a : Nat) : Option Nat :=
  if a / 2 ^ 31 = 0 && a / 2 ^ 22 % 512 = 0x1FF then some (a % 2 ^ 22)
  else if a / 2 ^ 22 % 512 = vaultNo u.core && u.vault ≤ a % 2 ^ 22 then some (a % 2 ^ 22 - u.vault)
  else none

/-- The own-form address of an offset (R38). -/
def ownForm (off : Nat) : Nat := 0x7FC00000 + off

/-! ## Shapes (R195, R286, R287) -/

/-- Spaces of a cpy family command. -/
def cpyDst (x : ModX) : Bool := x.f 38 38 == 1
def cpySrc (x : ModX) : Bool := x.f 37 37 == 1

/-- Element bytes of cpyt. -/
def cpytEs (x : ModX) : Nat := if x.f 36 36 = 1 then 2 else 1

/-- Element bytes of cred by TYP (R197). -/
def credEs (o : Op) : Nat := match o.imm % 4 with | 0 => 4 | 1 => 2 | 2 => 4 | _ => 8

def credOrd (o : Op) : Bool := o.imm.testBit 2
def credStr (o : Op) : Nat := o.imm / 16 % 16

/-- Bytes of a value of cpyz. -/
def cpyzEs (x : ModX) : Nat := if x.f 36 36 = 1 then 8 else 4

/-- Bytes a command moves, as its progress counts them. -/
def Cmd.total (m : Cmd) : Nat :=
  let w := descWord m.bv
  match m.ins with
  | .ldpl _ x => imageBytes (x.f 43 41)
  | .accld o x | .accst o x => 2048 * (moveSlots o (x.f 37 36 == 3)).length
  | .cpy o _ => if o.fn = 0 then m.bv.toNat % 2 ^ 64 else w 0 * w 1
  | .cpyg _ _ => w 0 * w 1
  | .cpyt _ x => w 0 * w 1 * cpytEs x
  | .cpyr _ _ | .cred _ _ | .sfill _ _ => m.bv.toNat % 2 ^ 64
  | .cpyz _ x => w 0 * w 1 * cpyzEs x
  | _ => 0

/-- Whether a copy-class command is heavy (R171). -/
def Cmd.bigCopy (m : Cmd) : Bool :=
  65536 < m.total && (match m.ins with | .ldpl _ _ | .accld _ _ | .accst _ _ => false | _ => true)

/-- The estimate of a command in nJ (R407). -/
def Cmd.estimate (m : Cmd) : Nat := if isFactor m.ins then factorEstimate m.ins else if m.bigCopy then (m.total + 1023) / 1024 * 10 else 0

/-! ## Issue -/

/-- What every copy-class issue does first: an agent, and the right to issue (R194, R316). -/
def Cx.copyAgent (c : Cx) : Exc Nat := do
  let agent ← c.agent
  c.producer
  return agent

/-- The command of a copy with local bases at D and A. -/
def Cx.copyCmd (c : Cx) (i : Instr) (o : Op) (dv sv : Bool) (b : QWord) (tag : Nat) : Cmd :=
  { c.newCmd i with dv := c.opVal o.d (baseRegs dv), av := c.opVal o.a (baseRegs sv), bv := b,
                    pmap := c.pmapOf o.d dv 0 + c.pmapOf o.a sv 2, pins := c.pinOf o.d dv ++ c.pinOf o.a sv, tag := some tag }

/-- Bytes from the first to the last byte of rows of a stride. -/
def span (rows stride n : Nat) : Nat := if n = 0 then 0 else (rows - 1) * stride + n

def execCpy (o : Op) (x : ModX) (s : State) : Host.Outcome State Fault Refusal :=
  word s o fun c => do
    let agent ← c.copyAgent
    let dv := cpyDst x
    let sv := cpySrc x
    let _ ← c.needBase o.d dv
    let _ ← c.needBase o.a sv
    if o.fn = 0 then
      let n ← c.length o
      c.tagFree (x.f 44 39)
      c.checkRange o.a sv 0 n 1 false
      c.checkRange o.d dv 0 n 1 true
      return c.fork agent (c.copyCmd (.cpy o x) o dv sv (BitVec.ofNat 128 n) (x.f 44 39))
    else
      c.needDesc o.b
      c.tagFree (x.f 44 39)
      let b := c.opVal o.b 4
      let w := descWord b
      if w 1 = 0 || 65536 < w 1 then c.bounds
      c.checkRange o.a sv 0 (span (w 1) (w 2) (w 0)) 1 false
      c.checkRange o.d dv 0 (span (w 1) (w 3) (w 0)) 1 true
      return c.fork agent (c.copyCmd (.cpy o x) o dv sv b (x.f 44 39))

def execCpyg (o : Op) (x : ModX) (s : State) : Host.Outcome State Fault Refusal :=
  word s o fun c => do
    let agent ← c.copyAgent
    let sv := cpySrc x
    let _ ← c.needBase o.d true
    let _ ← c.needBase o.a sv
    c.needDesc o.b
    c.tagFree (x.f 44 39)
    let b := c.opVal o.b 4
    let w := descWord b
    if w 0 % 4 != 0 || 65536 < w 0 || w 1 = 0 || 65536 < w 1 || w 3 != 0 then c.bounds
    match c.u.ownOffset (w 2) with
    | none => c.bounds
    | some off =>
      if off % 4 != 0 || c.u.vsize < off + 4 * w 1 then c.bounds
      c.checkRange o.a sv 0 1 1 false
      c.checkRange o.d true 0 (w 0 * w 1) 1 true
      return c.fork agent (c.copyCmd (.cpyg o x) o true sv b (x.f 44 39))

def execCpyt (o : Op) (x : ModX) (s : State) : Host.Outcome State Fault Refusal :=
  word s o fun c => do
    let agent ← c.copyAgent
    let sv := cpySrc x
    let es := cpytEs x
    let _ ← c.needBase o.d true
    let _ ← c.needBase o.a sv
    c.needDesc o.b
    c.tagFree (x.f 44 39)
    let b := c.opVal o.b 4
    let w := descWord b
    if w 0 = 0 || 4096 < w 0 || w 1 = 0 || 4096 < w 1 || w 2 < w 0 * es || w 3 < w 1 * es then c.bounds
    let a := c.val o.a (baseRegs sv) c.l0
    if w 2 % es != 0 || w 3 % es != 0 then stop (.lane C.ALIGN c.l0 a)
    c.checkRange o.a sv 0 (span (w 1) (w 2) (w 0 * es)) es false
    c.checkRange o.d true 0 (span (w 0) (w 3) (w 1 * es)) es true
    return c.fork agent (c.copyCmd (.cpyt o x) o true sv b (x.f 44 39))

/-- The command of a copy with a remote descriptor at D. -/
def Cx.remoteCmd (c : Cx) (i : Instr) (o : Op) (lv : Bool) (b : QWord) (tag : Nat) : Cmd :=
  { c.newCmd i with dv := c.opVal o.d 4, av := c.opVal o.a (baseRegs lv), bv := b, pmap := c.pmapOf o.a lv 2, pins := c.pinOf o.a lv,
                    tag := some tag, remote := true }

def execCpyr (o : Op) (x : ModX) (s : State) : Host.Outcome State Fault Refusal :=
  word s o fun c => do
    let agent ← c.copyAgent
    let lv := x.f 38 38 == 1
    let _ ← c.needBase o.a lv
    let n ← c.length o
    c.tagFree (x.f 44 39)
    c.checkRange o.a lv 0 n 1 (o.fn == 0)
    return c.fork agent (c.remoteCmd (.cpyr o x) o lv (BitVec.ofNat 128 n) (x.f 44 39))

def execCred (o : Op) (x : ModX) (s : State) : Host.Outcome State Fault Refusal :=
  word s o fun c => do
    let agent ← c.copyAgent
    let sv := x.f 36 36 == 1
    let es := credEs o
    let rem := x.f 38 37 == 2
    let dv := x.f 38 37 == 1
    if !rem then
      let _ ← c.needBase o.d dv
    let _ ← c.needBase o.a sv
    let n ← c.length o
    c.tagFree (x.f 44 39)
    if n % es != 0 then stop (.lane C.ALIGN c.l0 (c.val o.a (baseRegs sv) c.l0))
    c.checkRange o.a sv 0 n es false
    let b := BitVec.ofNat 128 n
    let str := if credOrd o then some (credStr o) else none
    if rem then
      if remOff (c.opVal o.d 4) % es != 0 then stop (.lane C.ALIGN c.l0 (remOff (c.opVal o.d 4)))
      return c.fork agent { c.remoteCmd (.cred o x) o sv b (x.f 44 39) with stream := str }
    else
      c.checkRange o.d dv 0 n es true
      return c.fork agent { c.copyCmd (.cred o x) o dv sv b (x.f 44 39) with stream := str }

/-- k of a cpyz descriptor, signed (R199). -/
def cpyzK (b : QWord) : Int := sext 32 (descWord b 2)

def execCpyz (o : Op) (x : ModX) (s : State) : Host.Outcome State Fault Refusal :=
  word s o fun c => do
    let agent ← c.copyAgent
    let dv := cpyDst x
    let sv := cpySrc x
    let _ ← c.needBase o.d dv
    let _ ← c.needBase o.a sv
    c.needDesc o.b
    c.tagFree (x.f 44 39)
    let b := c.opVal o.b 4
    let w := descWord b
    let k := cpyzK b
    let lo : Int := if x.f 36 36 = 1 then -1075 else -150
    let hi : Int := if x.f 36 36 = 1 then 1023 else 127
    if w 0 = 0 || w 1 = 0 || 2 ^ 40 < w 0 * w 1 || k < lo || hi < k then c.bounds
    c.checkRange o.a sv 0 (if o.fn = 0 then w 0 * w 1 * cpyzEs x else 16) 1 false
    c.checkRange o.d dv 0 (w 3) 1 true
    return c.fork agent (c.copyCmd (.cpyz o x) o dv sv b (x.f 44 39))

/-- The type of a ratom (R201). -/
def ratomTy (x : ModX) : Ty := tyOf (x.f 38 35)

def execRatom (o : Op) (x : ModX) (s : State) : Host.Outcome State Fault Refusal :=
  word s o fun c => do
    let agent ← c.copyAgent
    let t := ratomTy x
    let k := t.regs
    let _ ← c.needBase o.a true
    c.dataTag o.b t
    if o.fn = 7 then c.dataTag (o.b.plus k) t
    c.tagFree (x.f 44 39)
    c.checkRange o.a true 0 t.size t.size true
    let m := c.remoteCmd (.ratom o x) o true (c.opVal o.b (if o.fn = 7 then 2 * k else k)) (x.f 44 39)
    return c.fork agent { m with permit := true }

/-! ## Streams (R202, R288 to R290) -/

def Unit.setStream (u : Unit) (q : Nat) (st : Stream) : Unit := { u with sq := Sparse.set .start u.sq q st }

/-- Slots of a ring, and the slot next popped (R288). -/
def Stream.n (q : Stream) : Nat := q.nm1 + 1
def Stream.popi (q : Stream) : Nat := (q.head + q.n - q.nfill % q.n) % q.n

/-- The slot next freed. -/
def Stream.freei (q : Stream) : Nat := (q.popi + q.n - q.npop % q.n) % q.n

/-- The own-form address of a slot. -/
def Stream.slotAddr (q : Stream) (slot : Nat) : Nat := ownForm (q.base + slot * q.slotb * 64)

/-- The bound stream an instruction names, or BOUNDS (R202). -/
def Cx.bound (c : Cx) (q : Nat) : Exc Stream := if (c.u.stream q).bound then .ok (c.u.stream q) else c.bounds

def execSfill (o : Op) (x : ModX) (s : State) : Host.Outcome State Fault Refusal :=
  word s o fun c => do
    let agent ← c.copyAgent
    let q := x.f 44 42
    let sv := x.f 41 41 == 1
    let _ ← c.needBase o.a sv
    let st ← c.bound q
    if !st.room then .error (.wait (.sfill q))
    let n := st.slotb * 64
    c.checkRange o.a sv o.disp n 1 false
    let m := { c.newCmd (.sfill o x) with dv := BitVec.ofNat 128 (st.slotAddr st.head), av := c.opVal o.a (baseRegs sv),
                                          bv := BitVec.ofNat 128 n, pmap := c.pmapOf o.a sv 2, pins := c.pinOf o.a sv,
                                          fill := some (q, st.head) }
    let s := (c.fork agent m).modUnit c.u.key fun u => u.setStream q { st with head := (st.head + 1) % st.n, nfill := st.nfill + 1 }
    return withRace s c.u.key fun r => r.acquire c.u.key (engineAgent agent) (keyFree (q * 8192 + st.head))

/-- spop at a stream whose oldest slot is filled (R289). -/
def Stream.pop (st : Stream) : Stream :=
  { st with filled := st.filled >>> 1, failed := st.failed >>> 1, nfill := st.nfill - 1, npop := st.npop + 1 }

/-- spop (R202). DESIGN CHOICE: its predicate is set in the executing lanes, and the other lanes of it are left (log 82). -/
def execSpop (o : Op) (x : ModX) (s : State) : Host.Outcome State Fault Refusal :=
  word s o fun c => do
    let q := x.f 44 42
    let st ← c.bound q
    if !st.filled.getLsbD 0 then .error (.wait (.spop q))
    let good := !st.failed.getLsbD 0
    let g := (c.g.write o.d 1 .i32 (fun _ => st.slotAddr st.popi) c.ex).write o.c 1 .raw (fun _ => good.toNat) c.ex
    let s := (c.put g).modUnit c.u.key fun u => u.setStream q st.pop
    return withRace s c.u.key fun r => r.acquire c.u.key c.g.gid (keyFill q st.popi)

def execSfree (o : Op) (x : ModX) (s : State) : Host.Outcome State Fault Refusal :=
  word s o fun c => do
    let q := x.f 44 42
    let st ← c.bound q
    if st.npop = 0 then c.bounds
    let s := c.putU (c.u.setStream q { st with npop := st.npop - 1 })
    return withRace s c.u.key fun r => r.release c.u.key c.g.gid (keyFree (q * 8192 + st.freei))

def execSfreeInit (o : Op) (x : ModX) (s : State) : Host.Outcome State Fault Refusal :=
  word s o fun c => do
    let q := x.f 44 42
    let _ ← c.need o.a 1 [.i32]
    let _ ← c.need o.b 1 [.i32]
    let a := c.val o.a 1 c.l0
    let n := c.val o.b 1 c.l0
    let slots := o.imm % 8192
    let st := c.u.stream q
    let own := a / 2 ^ 22 = 0x1FF
    let bad := slots = 0 || 4096 < slots || n = 0 || n % 64 != 0 || !own || c.u.vsize < a % 2 ^ 22 + slots * n
      || (st.bound && (st.nfill != 0 || st.npop != 0))
    if bad then c.bounds
    return c.putU (c.u.setStream q { Stream.start with base := a % 2 ^ 22, slotb := n / 64, nm1 := slots - 1, bound := true })

/-! ## Tags (R203, R280) -/

/-- Tags of a mask. -/
def tagsOf (m : Nat) : List Nat := (List.range 64).filter m.testBit

/-- The join edge of tags returned as ready (R169). -/
def Cx.join (c : Cx) (s : State) (ts : List Nat) : State :=
  withRace s c.u.key fun r => ts.foldl (fun r t => r.acquire c.u.key c.g.gid (keyTag t)) r

def execTagw (o : Op) (_x : ModX) (s : State) : Host.Outcome State Fault Refusal :=
  word s o fun c => do
    let _ ← c.need o.a 2 [.i64]
    let mask := c.val o.a 2 c.l0
    let w : Wait := .tagw mask (o.fn == 1)
    if waitOver c.s c.u c.g w then return c.join c.s (tagsOf (c.u.ready.toNat &&& mask)) else .error (.wait w)

def execTagff (o : Op) (_x : ModX) (s : State) : Host.Outcome State Fault Refusal :=
  word s o fun c => do
    let _ ← c.need o.a 2 [.i64]
    let r := tagsOf (c.u.ready.toNat &&& c.val o.a 2 c.l0)
    return c.join (c.put (c.g.write o.d 1 .i32 (fun _ => r.headD 64) c.ex)) (r.take 1)

def execTagst (o : Op) (_x : ModX) (s : State) : Host.Outcome State Fault Refusal :=
  word s o fun c => do
    let _ ← c.need o.a 1 [.i32]
    let t := if o.a = .z then o.imm % 64 else c.val o.a 1 c.l0
    if 64 ≤ t then c.bounds
    if c.u.pend.getLsbD t then .error (.wait (.tagst t))
    let s := c.put (c.g.write o.d 2 .i64 (fun _ => (Sparse.get 0 c.u.tstat t).toNat) c.ex)
    return c.join s (if c.u.ready.getLsbD t then [t] else [])

/-! ## Pieces of local copies (R195, R283 to R287) -/

/-- The most an engine moves at a time. -/
def pieceBytes : Nat := 4096

/-- Offsets of byte `i` of a copy from its source and destination bases; `idx` is the index of the row of a cpyg. -/
def Cmd.byteAt (m : Cmd) (idx i : Nat) : Int × Int :=
  let w := descWord m.bv
  match m.ins with
  | .cpy o _ => if o.fn = 0 then (i, i) else ((i / w 0 * w 2 + i % w 0 : Nat), (i / w 0 * w 3 + i % w 0 : Nat))
  | .cpyg _ _ => ((idx * w 0 + i % w 0 : Nat), (i : Nat))
  | .cpyt _ x =>
    let es := cpytEs x
    let c := i / (w 1 * es)
    let r := i % (w 1 * es) / es
    ((r * w 2 + c * es + i % es : Nat), (c * w 3 + r * es + i % es : Nat))
  | .sfill o _ => (o.disp + i, (i : Nat))
  | _ => ((i : Nat), (i : Nat))

/-- The spaces of a copy's source and destination. -/
def Cmd.spaces (m : Cmd) : Bool × Bool :=
  match m.ins with
  | .cpy _ x | .cpyz _ x => (cpySrc x, cpyDst x)
  | .cpyg _ x | .cpyt _ x => (cpySrc x, true)
  | .sfill _ x => (x.f 41 41 == 1, true)
  | .cred _ x => (x.f 36 36 == 1, x.f 38 37 == 1)
  | .cpyr _ x => (x.f 38 38 == 1, x.f 38 38 == 1)
  | .ratom _ _ => (true, true)
  | _ => (false, false)

/-- The index of row `j` of a cpyg, read from the vault (R286). -/
def gatherIndex (s : State) (u : Unit) (agent : Nat) (m : Cmd) (j : Nat) : Except EStop (Nat × Place) := do
  let p ← engPlace s u agent true (descWord m.bv 2) (4 * j) 4 {} true
  return (s.load u.core p.sp p.a 4, p)

/-- The row index in use at byte `i`: read where a row begins, and where a restored command goes on within a row, for its record has no
place for it (R286, R371). -/
def rowIndex (s : State) (u : Unit) (agent : Nat) (m : Cmd) (idx : Option Nat) (i : Nat) : Except EStop (State × Nat) :=
  match m.ins, idx with
  | .cpyg _ _, none => do
    let (v, p) ← gatherIndex s u agent m (i / descWord m.bv 0)
    return (engNote s u.key agent p 4 {}, v)
  | .cpyg _ _, some v =>
    if i % descWord m.bv 0 = 0 then do
      let (v, p) ← gatherIndex s u agent m (i / descWord m.bv 0)
      return (engNote s u.key agent p 4 {}, v)
    else .ok (s, v)
  | _, _ => .ok (s, 0)

/-- Whether rows of `n` bytes, `rows` of them `stride` apart, hold an offset. -/
def inRows (rows stride n : Nat) (off : Int) : Bool :=
  let i := if stride = 0 then 0 else min (off.toNat / stride) (rows - 1)
  0 ≤ off && off.toNat - i * stride < n

/-- Whether a command reads the byte at an offset of its source; `idx` is the index of the row of a cpyg. -/
def Cmd.hasSource (m : Cmd) (idx : Nat) (off : Int) : Bool :=
  let w := descWord m.bv
  match m.ins with
  | .cpy o _ => if o.fn = 0 then inRows 1 0 m.total off else inRows (w 1) (w 2) (w 0) off
  | .cpyg _ _ => inRows 1 0 (w 0) (off - (idx * w 0 : Nat))
  | .cpyt _ x => inRows (w 1) (w 2) (w 0 * cpytEs x) off
  | .sfill o _ => inRows 1 0 m.total (off - o.disp)
  | .cpyz o _ => if o.fn = 0 then inRows 1 0 m.total off else 0 ≤ off
  | _ => inRows 1 0 m.total off

/-- Whether the 256-byte block of a source byte holds uncorrectable data that the command reads: it stops before the block (R402).
`a` is the offset of the byte at `p`. -/
def blockBad (s : State) (m : Cmd) (idx : Nat) (p : Place) (a : Int) : Bool :=
  (s.marks.any fun e =>
    e.2 && e.1 / 256 == markKey p.sp p.a / 256 && m.hasSource idx (a + ((e.1 : Int) - (markKey p.sp p.a : Int))))
  || (p.sp == 1 && (List.range 4).any fun j =>
    Config.poolPoisoned s.tick (p.a / 256 * 4 + j)
      && (List.range 64).any fun i => m.hasSource idx (a + (((p.a / 256 * 4 + j) * 64 + i : Nat) - (p.a : Int))))

/-- Whether byte `q` of a command begins a 4-byte unit: of a copy's destination, or a row of it; of a reduction's source, whose destination
is written element by element (R174, R197). -/
def Cmd.unitStart (m : Cmd) (q : Nat) : Bool :=
  match m.ins with
  | .cred _ _ => (m.av.toNat + q) % 4 == 0
  | _ =>
    let b := (m.byteAt 0 q).2
    ((m.dv.toNat : Int) + b) % 4 == 0 || (q != 0 && b != (m.byteAt 0 (q - 1)).2 + 1)

/-- The first 4-byte unit that begins at byte `q` or after it. -/
def Cmd.edge (m : Cmd) (q : Nat) : Nat := min m.total (([q, q + 1, q + 2].find? m.unitStart).getD (q + 3))

/-- Where the piece that begins at byte `i` ends: at most 4 KiB on, and where a 4-byte unit begins, so that every unit is accessed whole; at
the first unit from the next multiple of 4,096 bytes on where that is near enough (R174, R283, R319). -/
def Cmd.cut (m : Cmd) (i : Nat) : Nat :=
  let top := min m.total (i + pieceBytes)
  let e := m.edge (pieceBytes * (i / pieceBytes + 1))
  if top = m.total then top
  else if e ≤ top then e
  else ([top, top - 1, top - 2, top - 3].find? fun q => i < q && m.unitStart q).getD top

/-- Whether a command stands where a record can say that it stopped: at its start, or at the unit that begins a piece of 4 KiB (R173,
R371). -/
def Cmd.atPiece (m : Cmd) : Bool :=
  match m.ins with
  | .cpy _ _ | .cpyg _ _ | .cpyt _ _ | .sfill _ _ => m.prog = 0 || m.prog = m.edge (pieceBytes * (m.prog / pieceBytes))
  | .cred _ _ => m.remote || m.prog = 0 || m.prog = m.edge (pieceBytes * (m.prog / pieceBytes))
  | _ => true

/-- A block whose check value fails on its way out of the package (R395). -/
def crcFails (s : State) (src dst : Place) : Bool :=
  (dst.sp == 1 || dst.sp == 2) && (src.sp == 0 || src.sp == 3) && Sparse.get false s.badCrc (crcKey src.sp src.a)

/-- A whole aligned block carries its check value with it (R395). -/
def carryCrc (s0 s : State) (m : Cmd) (idx i : Nat) (src dst : Place) : State :=
  let (a, b) := m.byteAt idx i
  let (a0, b0) := m.byteAt idx (i - 255)
  if 255 ≤ i && src.a % 256 = 255 && dst.a % 256 = 255 && a - a0 = 255 && b - b0 = 255 && src.sp % 3 = 0 && dst.sp % 3 = 0
      && Sparse.get false s0.badCrc (crcKey src.sp src.a) then
    { s with badCrc := Sparse.set false s.badCrc (crcKey dst.sp dst.a) true }
  else s

/-- A byte of a copy's source as it is read: `s0` is the state in which the piece began, from which a 4-byte unit that the piece has itself
overwritten may still be read (R195). -/
def copyByte (s0 s : State) (core : Nat) (p : Place) : Nat :=
  if Config.copyReadsOld (s.tick * 4096 + p.a / 4 % 4096) then s0.load core p.sp p.a 1 else s.load core p.sp p.a 1

/-- Where a command's source ends, as its bytes are counted; a stream that is decoded ends where its last block does. -/
def Cmd.sourceEnd (m : Cmd) : Nat := match m.ins with | .cpyz o _ => if o.fn = 0 then m.total else 2 ^ 64 | _ => m.total

/-- Reads on from byte `i`, which the piece does not move, to the end of the 4-byte unit of the source that the byte before it lies in: the
unit is read whole, and its last bytes wait for the next piece (R174, R319). -/
def aheadGo (s0 : State) (u : Unit) (agent : Nat) (m : Cmd) (idx : Nat) : Nat → Nat → State → State × List Byte
  | 0, _, s => (s, [])
  | n + 1, i, s =>
    let a := (m.byteAt idx i).1
    if m.sourceEnd ≤ i || i = 0 || a != (m.byteAt idx (i - 1)).1 + 1 || ((m.av.toNat : Int) + a) % 4 == 0 then (s, [])
    else match engPlace s u agent m.spaces.1 m.av.toNat a 1 {} true with
      | .error _ => (s, [])
      | .ok p =>
        if blockBad s m idx p a then (s, [])
        else
          let (t, bs) := aheadGo s0 u agent m idx n (i + 1) (engNote s u.key agent p 1 {})
          (t, BitVec.ofNat 8 (copyByte s0 s u.core p) :: bs)

/-- Moves bytes from `i` on, of which the first have been read already. -/
def moveGo (s0 : State) (u : Unit) (agent : Nat) (m : Cmd) : Nat → Nat → Option Nat → List Byte → State → Piece × Option Nat
  | 0, _, idx, _, s => ({ s := s, n := 0, stop := none }, idx)
  | n + 1, i, idx, held, s =>
    let step : Except EStop (State × Nat) := do
      let (s, idx) ← rowIndex s u agent m idx i
      let (a, b) := m.byteAt idx i
      let p ← engPlace s u agent m.spaces.1 m.av.toNat a 1 {} true
      if blockBad s m idx p a then .error (.status St.ECC false)
      let q ← engPlace s u agent m.spaces.2 m.dv.toNat b 1 { write := true } false
      if crcFails s p q then .error (.status St.CHECKVAL false)
      let v := match held with | x :: _ => x.toNat | [] => copyByte s0 s u.core p
      let s := markDirty (s.store u.core q.sp q.a 1 v) u.ctx q.va
      let s := carryCrc s0 s m idx i p q
      return (engNote (engNote s u.key agent p 1 {}) u.key agent q 1 { write := true }, idx)
    match step with
    | .error e => ({ s := s, n := 0, stop := some e }, idx)
    | .ok (s, idx) =>
      let (r, idx) := moveGo s0 u agent m n (i + 1) (some idx) held.tail s
      ({ r with n := r.n + 1 }, idx)

/-- What a copy keeps between pieces: the index of the row under way of a cpyg. -/
def Cmd.kept (m : Cmd) (idx : Option Nat) : List DWord :=
  match m.ins, idx with | .cpyg _ _, some v => [BitVec.ofNat 64 v] | _, _ => m.vec

/-- A piece of a cpy, cpyg, cpyt or sfill. -/
def pieceCopy (s : State) (u : Unit) (agent : Nat) (m : Cmd) : Piece :=
  let (r, idx) := moveGo s u agent m (m.cut m.prog - m.prog) m.prog (m.vec.head?.map (·.toNat)) m.ahead s
  let (t, more) := if r.stop.isNone then aheadGo s u agent m (idx.getD 0) 3 (m.cut m.prog) r.s else (r.s, [])
  { r with s := t.modCmd u.key agent fun m => { m with vec := m.kept idx, ahead := more } }

/-! ## Reductions (R197) -/

/-- One element combined (R197). -/
def credNew (o : Op) (old x : Nat) : Nat :=
  match o.imm % 4, o.fn with
  | 0, 0 => F32.rne (flAdd .rn (F32.read old) (F32.read x)).1
  | 0, n => (F32.minMax (n == 2) old x).1
  | 1, 0 => (BF16.sat (.mode .rn) (flAdd .rn (BF16.read old) (BF16.read x)).1).1
  | 1, n => (BF16.minMax (n == 2) old x).1
  | t, n =>
    let w := if t = 2 then 32 else 64
    match n with
    | 0 => (old + x) % 2 ^ w
    | 1 => if sext w x < sext w old then x else old
    | _ => if sext w old < sext w x then x else old

/-- How the update of an element takes part in ordering (R317). -/
def credAtt : Att := { write := true, strong := true, rmw := true, scope := 3 }

/-- Whether the 256-byte block of a destination byte holds uncorrectable data that the command combines with what comes: it stops before the
block (R402). `i` is the offset of the byte at `q`. -/
def targetBad (s : State) (n : Nat) (q : Place) (i : Nat) : Bool :=
  s.spoilt q.sp (max (q.a / 256 * 256) (q.a - i)) (min (q.a / 256 * 256 + 256) (q.a - i + n) - max (q.a / 256 * 256) (q.a - i))

/-- Reduces elements from byte `i` on. -/
def reduceGo (u : Unit) (agent : Nat) (m : Cmd) (o : Op) : Nat → Nat → State → Piece
  | 0, _, s => { s := s, n := 0, stop := none }
  | n + 1, i, s =>
    let es := credEs o
    let step : Except EStop State := do
      let p ← engPlace s u agent m.spaces.1 m.av.toNat i es {} true
      if blockBad s m 0 p i then .error (.status St.ECC false)
      let q ← engPlace s u agent m.spaces.2 m.dv.toNat i es credAtt true
      if noAtomic q then .error (.status St.NOATOMIC false)
      if targetBad s m.total q i then .error (.status St.ECC false)
      if crcFails s p q then .error (.status St.CHECKVAL false)
      let v := credNew o (s.load u.core q.sp q.a es) (s.load u.core p.sp p.a es)
      let s := keepHeld s (markDirty (s.store u.core q.sp q.a es v) u.ctx q.va) q.sp q.a es
      return engNote (engNote s u.key agent p es {}) u.key agent q es credAtt
    match step with
    | .error e => { s := s, n := 0, stop := some e }
    | .ok s =>
      let r := reduceGo u agent m o n (i + es) s
      { r with n := r.n + es }

/-- A piece of a local cred. -/
def pieceCred (s : State) (u : Unit) (agent : Nat) (m : Cmd) (o : Op) : Piece :=
  reduceGo u agent m o ((m.cut m.prog - m.prog) / credEs o) m.prog s

/-! ## The compressor (R199, R200) -/

/-- The integer quotient of a value, or none where it is escaped (R199). -/
def cpyzQuot (f : Fmt) (k : Int) (x : Nat) : Option Int :=
  match f.read x with
  | .fin n m e =>
    if m = 0 then some 0
    else if 40 < e - (k + 1) + nbits m then none
    else
      let q := (roundTo (.mode .rn) n m e (k + 1)).1
      if 2 ^ 30 ≤ q || 0 < flCmp (.fin false q (k + 1)) (f.read f.maxBits) then none else some (sgn n q)
  | _ => none

/-- Zig-zag of a difference, and back. -/
def zigzag (d : Int) : Nat := if d < 0 then (-(2 * d) - 1).toNat else (2 * d).toNat
def unzigzag (z : Nat) : Int := if z % 2 = 0 then (z / 2 : Nat) else -((z / 2 + 1 : Nat) : Int)

/-- The codes of a run of values: `pos` counts values, and each row starts afresh. -/
def cpyzCodes (f : Fmt) (k : Int) (cols : Nat) : Nat → Int → List Nat → List (Option Nat × Nat) × Int
  | _, prev, [] => ([], prev)
  | pos, prev, x :: xs =>
    let prev := if pos % cols = 0 then 0 else prev
    match cpyzQuot f k x with
    | none => let (r, p) := cpyzCodes f k cols (pos + 1) 0 xs; ((none, x) :: r, p)
    | some q => let (r, p) := cpyzCodes f k cols (pos + 1) q xs; ((some (zigzag (q - prev)), x) :: r, p)

/-- Values of `es` bytes each. -/
def valuesOf (es n : Nat) (bs : List Byte) : List Nat := (List.range n).map fun i => natOfBytes ((bs.drop (i * es)).take es)

/-- Bits of a packed code. -/
def codeWidth (wc : Nat) : Nat := if wc = 31 then 32 else wc

/-- Numbers packed from bit 0 on, each of `w` bits. -/
def packBits (w : Nat) : List Nat → Nat
  | [] => 0
  | z :: zs => z + 2 ^ w * packBits w zs

/-- A block of at most 32 codes as bytes (R200). -/
def cpyzBlock (es : Nat) (cs : List (Option Nat × Nat)) : List Byte :=
  let zs := cs.filterMap (·.1)
  let nb := zs.foldl (fun m z => max m (nbits z)) 0
  let wc := if nb ≤ 30 then nb else 31
  let esc := cs.filter (·.1.isNone)
  let e := !esc.isEmpty
  let mask := cs.zipIdx.foldl (fun m (c, j) => if c.1.isNone then m + 2 ^ j else m) 0
  let head := 6 + (if e then 32 else 0)
  let v := wc + (if e then 32 + 64 * mask else 0) + 2 ^ head * packBits (codeWidth wc) zs
  let n := (head + zs.length * codeWidth wc + 31) / 32 * 4
  bytesOfNat n v ++ esc.flatMap fun c => bytesOfNat es c.2

/-- The header of a stream (R200). -/
def cpyzHeader (f64 : Bool) (b : QWord) : List Byte :=
  bytesOfNat 4 (1 + f64.toNat * 256) ++ bytesOfNat 4 (descWord b 2) ++ bytesOfNat 4 (descWord b 0) ++ bytesOfNat 4 (descWord b 1)

/-- Reads bytes at offsets of a command's source or local range, of which the first may have been read already: those read, and a stop after
them. Nothing of a block that holds uncorrectable data goes on (R402). -/
def engBytes (s : State) (u : Unit) (agent : Nat) (m : Cmd) : Nat → Nat → List Byte → State × List Byte × Option EStop
  | _, 0, _ => (s, [], none)
  | off, n + 1, x :: held =>
    let (t, bs, e) := engBytes s u agent m (off + 1) n held
    (t, x :: bs, e)
  | off, n + 1, [] =>
    match engPlace s u agent m.spaces.1 m.av.toNat off 1 {} true with
    | .error e => (s, [], some e)
    | .ok p =>
      if blockBad s m 0 p off then (s, [], some (.status St.ECC false))
      else
        let (t, bs, e) := engBytes (engNote s u.key agent p 1 {}) u agent m (off + 1) n []
        (t, BitVec.ofNat 8 (s.load u.core p.sp p.a 1) :: bs, e)

/-- The first offset of a stretch of a command's source whose block leaves the package with a check value that fails, on its way to
a place (R395). -/
def leavesBad (s : State) (u : Unit) (agent : Nat) (m : Cmd) (off n : Nat) (q : Place) : Option Nat :=
  (List.range n).findSome? fun i =>
    match engPlace s u agent m.spaces.1 m.av.toNat (off + i : Nat) 1 {} true with
    | .ok p => if crcFails s p q then some (off + i) else none
    | .error _ => none

/-- The same for a stretch that goes to an offset of the command's destination. -/
def copiesBad (s : State) (u : Unit) (agent : Nat) (m : Cmd) (off n to_ : Nat) : Option Nat :=
  match engPlace s u agent m.spaces.2 m.dv.toNat to_ 1 { write := true } false with
  | .ok q => leavesBad s u agent m off n q
  | .error _ => none

/-- Writes bytes at an offset of a base. -/
def engPutBytes (s : State) (u : Unit) (agent : Nat) (vault : Bool) (base off : Nat) : List Byte → Piece
  | [] => { s := s, n := 0, stop := none }
  | b :: bs =>
    match engPlace s u agent vault base off 1 { write := true } false with
    | .error e => { s := s, n := 0, stop := some e }
    | .ok p =>
      let s := engNote (markDirty (s.store u.core p.sp p.a 1 b.toNat) u.ctx p.va) u.key agent p 1 { write := true }
      let r := engPutBytes s u agent vault base (off + 1) bs
      { r with n := r.n + 1 }

/-- Bytes of a command that have been moved for certain: of a remote one those of the pieces answered, in order; of a compression what it has
written of its stream; never what is held back (R175, R176, R285, R293). -/
def Cmd.moved (m : Cmd) : Nat :=
  let n := match m.ins, m.vec with
    | .cpyz o _, [_, out] => if o.fn = 0 then min out.toNat (descWord m.bv 3) else m.reached
    | .cpyz o _, _ => if o.fn = 0 then 0 else m.reached
    | _, _ => m.reached
  n - m.back.length

/-- The last bytes of a stretch of a destination that ends at an address: they wait for the rest of their 4-byte unit, which is written whole,
unless nothing comes after them, or their unit leaves (R174, R319). -/
def backOf (last : Bool) (end_ n : Nat) : Nat := if last then 0 else min n (end_ % 4)

/-- What a piece of a compression or decompression comes to: the status word, bytes of values done with what the next piece needs, or a
wait or fault. -/
inductive ZEnd
  | word (s : State) (st : DWord)
  | more (s : State) (prog : Nat) (vec : List DWord) (ahead back : List Byte)
  | wait
  | fault (f : Fault)

def ZEnd.of (s : State) (e : EStop) (off : Nat) : ZEnd :=
  match e with
  | .wait => .wait
  | .fault f => .fault f
  | e => .word s (e.word off)

/-- Values of a cpyz, and the bytes of one. -/
def Cmd.zCount (m : Cmd) : Nat := descWord m.bv 0 * descWord m.bv 1
def zBytes (f64 : Bool) : Nat := if f64 then 8 else 4

/-- What the next piece of a cpyz needs: the code before, and the bytes of the stream so far. -/
def zKeep (prev : Int) (n : Nat) : List DWord := [BitVec.ofInt 64 prev, BitVec.ofNat 64 n]

/-- Writes bytes of a cpyz's destination from an offset on, with those held back before it; what is held back now goes on. -/
def zPut (s : State) (u : Unit) (agent : Nat) (m : Cmd) (off : Nat) (back bs : List Byte) (last : Bool)
    (next : State → List Byte → ZEnd) : ZEnd :=
  let all := back ++ bs
  let n := all.length - backOf (last || u.vacating) (m.dv.toNat + off + bs.length) all.length
  let r := engPutBytes s u agent m.spaces.2 m.dv.toNat (off - back.length) (all.take n)
  match r.stop with
  | some e => .of r.s e (off - back.length + r.n)
  | none => next r.s (all.drop n)

/-- A cpyz ends at a source byte, after what has been held back (R176). -/
def zStop (s : State) (u : Unit) (agent : Nat) (m : Cmd) (off : Nat) (back : List Byte) (e : ZEnd) : ZEnd :=
  match e with
  | .word _ st => zPut s u agent m off back [] true fun s _ => .word s st
  | e => e

/-- Encodes at most `n` blocks: `pos` values done, `out` stream bytes so far, of which the last are held back; `held` are source bytes read
already (R199, R200). A dry run only finds where the stream stands. -/
def encGo (u : Unit) (agent : Nat) (m : Cmd) (f64 dry : Bool) : Nat → Nat → Int → Nat → List Byte → List Byte → State → ZEnd
  | fuel, pos, prev, out, held, back, s =>
    let cap := descWord m.bv 3
    let es := zBytes f64
    if m.zCount ≤ pos then .word s (if cap < out then statusWord St.BOUNDS out else statusWord St.OK out)
    else match fuel with
    | 0 =>
      let (s, more) := aheadGo s u agent m 0 3 (pos * es) s
      .more s (pos * es) (zKeep prev out) more back
    | n + 1 =>
      let cnt := min 32 (m.zCount - pos)
      let (s, bs, e) := engBytes s u agent m (pos * es) (cnt * es) held
      match e with
      | some e => zStop s u agent m out back (.of s e (pos * es + bs.length))
      | none =>
        let (cs, prev) := cpyzCodes (if f64 then F64 else F32) (cpyzK m.bv) (descWord m.bv 0) pos prev (valuesOf es cnt bs)
        let new := cpyzBlock es cs
        if dry then encGo u agent m f64 dry n (pos + cnt) prev (out + new.length) [] [] s
        else match copiesBad s u agent m (pos * es) (cnt * es) out with
          | some off => zStop s u agent m out back (.word s (statusWord St.CHECKVAL off))
          | none =>
            zPut s u agent m out back (new.take (cap - out)) (m.zCount ≤ pos + cnt || cap ≤ out + new.length) fun s back =>
              encGo u agent m f64 dry n (pos + cnt) prev (out + new.length) [] back s

/-- Blocks of a piece: 4 KiB of values (R283). -/
def zPiece (f64 : Bool) : Nat := 128 / zBytes f64

/-- A piece of a compression (R199). One that comes back from an image, whose record has no place for what `zKeep` holds, first finds where
its stream stands, and writes nothing again (R173, R371). -/
def cpyzEncode (s : State) (u : Unit) (agent : Nat) (m : Cmd) (f64 : Bool) : ZEnd :=
  match m.vec with
  | [prev, out] => encGo u agent m f64 false (zPiece f64) (m.prog / zBytes f64) prev.toInt out.toNat m.ahead m.back s
  | _ =>
    if m.prog != 0 then encGo u agent m f64 true (m.prog / (32 * zBytes f64)) 0 0 16 [] [] s
    else zPut s u agent m 0 [] ((cpyzHeader f64 m.bv).take (descWord m.bv 3)) (descWord m.bv 3 ≤ 16) fun s back =>
      encGo u agent m f64 false (zPiece f64) 0 0 16 [] back s

/-- A stop while a stream is read: the end of the range inside a block is BOUNDS with detail 0 (R200). -/
def ZEnd.short (s : State) (e : EStop) (off : Nat) : ZEnd :=
  match e with
  | .status code false => if code = St.BOUNDS then .word s (statusWord St.BOUNDS 0) else .of s e off
  | e => .of s e off

/-- The values of a block from its fields (R199, R200). -/
def decValues (f : Fmt) (k : Int) (cols mask w z : Nat) : Nat → Nat → Nat → Nat → Int → List Nat → List Nat × Int
  | 0, _, _, _, prev, _ => ([], prev)
  | n + 1, j, used, pos, prev, esc =>
    let prev := if pos % cols = 0 then 0 else prev
    if mask.testBit j then
      let (r, p) := decValues f k cols mask w z n (j + 1) used (pos + 1) 0 esc.tail
      (esc.headD 0 :: r, p)
    else
      let q := prev + unzigzag (z / 2 ^ (w * used) % 2 ^ w)
      let (r, p) := decValues f k cols mask w z n (j + 1) (used + 1) (pos + 1) q esc
      (f.rne (.fin (q < 0) q.natAbs (k + 1)) :: r, p)

/-- The escape mask of a block's first words, the escapes of `cnt` values, and the bytes of its packed part and of all of it (R200). -/
def zMask (w : Nat) : Nat := if w.testBit 5 then w / 64 % 2 ^ 32 else 0
def zEsc (cnt w : Nat) : Nat := (List.range cnt).countP (zMask w).testBit
def zHead (w : Nat) : Nat := if w.testBit 5 then 38 else 6
def zPacked (cnt w : Nat) : Nat := (zHead w + (cnt - zEsc cnt w) * codeWidth (w % 32) + 31) / 32 * 4
def zLen (es cnt w : Nat) : Nat := zPacked cnt w + zEsc cnt w * es

/-- Reads a block of a stream: its bytes, as far as they can be read, and a stop after them; of one whose mask has bits beyond its count
only the first words. -/
def engBlock (s : State) (u : Unit) (agent : Nat) (m : Cmd) (es cnt inp : Nat) (held : List Byte) : State × List Byte × Option EStop :=
  let (s, a, e) := engBytes s u agent m inp 4 held
  if e.isSome then (s, a, e)
  else
    let (s, b, e) := engBytes s u agent m (inp + 4) (if (natOfBytes a).testBit 5 then 4 else 0) []
    let a := a ++ b
    if e.isSome || 2 ^ cnt ≤ zMask (natOfBytes a) then (s, a, e)
    else
      let (s, b, e) := engBytes s u agent m (inp + a.length) (zLen es cnt (natOfBytes a) - a.length) []
      (s, a ++ b, e)

/-- Decodes at most `n` blocks: `pos` values done, `inp` stream bytes read. A dry run only finds where the stream stands. -/
def decGo (u : Unit) (agent : Nat) (m : Cmd) (f64 dry : Bool) : Nat → Nat → Int → Nat → List Byte → List Byte → State → ZEnd
  | fuel, pos, prev, inp, held, back, s =>
    let cap := descWord m.bv 3
    let es := zBytes f64
    if m.zCount ≤ pos then .word s (statusWord St.OK pos)
    else match fuel with
    | 0 =>
      let (s, more) := aheadGo s u agent m 0 3 inp s
      .more s (pos * es) (zKeep prev inp) more back
    | n + 1 =>
      let cnt := min 32 (m.zCount - pos)
      let bad : ZEnd := .word s (statusWord St.BOUNDS 0)
      let (s, bs, e) := engBlock s u agent m es cnt inp held
      let v := natOfBytes bs
      match e with
      | some e => zStop s u agent m (pos * es) back (.short s e (inp + bs.length))
      | none =>
        if 2 ^ cnt ≤ zMask v then zStop s u agent m (pos * es) back bad
        else
          let esc := (List.range (zEsc cnt v)).map fun i => v / 2 ^ (8 * (zPacked cnt v + i * es)) % 2 ^ (8 * es)
          let z := v % 2 ^ (8 * zPacked cnt v) / 2 ^ zHead v
          let (xs, prev) := decValues (if f64 then F64 else F32) (cpyzK m.bv) (descWord m.bv 0) (zMask v) (codeWidth (v % 32)) z cnt 0 0 pos prev esc
          if dry then decGo u agent m f64 dry n (pos + cnt) prev (inp + bs.length) [] [] s
          else match copiesBad s u agent m inp bs.length (pos * es) with
            | some off => zStop s u agent m (pos * es) back (.word s (statusWord St.CHECKVAL off))
            | none =>
              let new := xs.flatMap fun x => bytesOfNat es x
              zPut s u agent m (pos * es) back (new.take (cap - pos * es)) (m.zCount ≤ pos + cnt || cap < (pos + cnt) * es) fun s back =>
                if cap < (pos + cnt) * es then .word s (statusWord St.BOUNDS 0)
                else decGo u agent m f64 dry n (pos + cnt) prev (inp + bs.length) [] back s

/-- A piece of a decompression (R199); one that comes back from an image first finds where its stream stands (R173, R371). -/
def cpyzDecode (s : State) (u : Unit) (agent : Nat) (m : Cmd) (f64 : Bool) : ZEnd :=
  match m.vec with
  | [prev, inp] => decGo u agent m f64 false (zPiece f64) (m.prog / zBytes f64) prev.toInt inp.toNat m.ahead m.back s
  | _ =>
    if m.prog != 0 then decGo u agent m f64 true (m.prog / (32 * zBytes f64)) 0 0 16 [] [] s
    else match engBytes s u agent m 0 16 [] with
      | (s, h, some e) => .short s e h.length
      | (s, h, none) =>
        if natOfBytes h != natOfBytes (cpyzHeader f64 m.bv) then .word s (statusWord St.BOUNDS 0)
        else decGo u agent m f64 false (zPiece f64) 0 0 16 [] [] s

end Sys2Proof.Machine
end

