-- ==== Sys2Proof/Machine/Fabric.lean ====
section
/-! DEFINITION. The optical fabric: requests, routes, credits, handles and exactly-once execution (R387 to R394). -/

namespace Sys2Proof.Machine

/-- A core number that no core has: what reaches memory through it uses no TLB. -/
def noCore : Nat := 512

/-- Where an access of `n` bytes in a context lands, made by no core (R374). -/
def sysPlace (s : State) (c : Ctx) (va n : Nat) (write : Bool) : Except Trap Place :=
  match resolveOrd c 0 0 va n with
  | .error (.trap t) => .error t
  | .error _ => .error (.lane C.XLATE 0 va)
  | .ok loc =>
    match landOrd s noCore c 0 loc n (if write then .write else .read) with
    | .error t => .error t
    | .ok (m, a, pte) => if physExists m a then .ok { sp := m, a := a, pte := pte, va := va } else .error (.lane C.XLATE 0 va)

/-- Space and address of such an access. -/
def sysLand (s : State) (c : Ctx) (va n : Nat) (write : Bool) : Except Trap (Nat × Nat) :=
  match sysPlace s c va n write with
  | .ok p => .ok (p.sp, p.a)
  | .error t => .error t

/-! ## Handles (R367, R390) -/

/-- Bits of the rights of a remote-memory handle. -/
def rRead := 0
def rWrite := 1
def rAtomic := 2
def rReduce := 3

/-- The remote handle of an entry (R390). -/
def remoteHandle (s : State) (fn : Nat) (h : Handle) : DWord :=
  BitVec.ofNat 64 (s.ident * 2 ^ 48 + fn * 2 ^ 43 + h.gen * 2 ^ 27 + h.hid)

def hModule (h : DWord) : Nat := bits h.toNat 63 48
def hFunc (h : DWord) : Nat := bits h.toNat 47 43
def hGen (h : DWord) : Nat := bits h.toNat 42 27
def hId (h : DWord) : Nat := h.toNat % 2 ^ 27

/-- The entry a remote handle names, or STALEHANDLE (R390). -/
def State.handle? (s : State) (h : DWord) : Option Handle :=
  (s.func (hFunc h)).handles.find? fun e => e.hid == hId h && e.gen == hGen h && e.kind != 0

/-! ## Sending (R387 to R389, R392) -/

/-- Key of a source function and a destination. -/
def seqKey (fn dst : Nat) : Nat := fn * 2 ^ 16 + dst

/-- Requests of a function to a destination that have no reply yet. -/
def State.outstanding (s : State) (fn dst : Nat) : List OutReq := s.outReqs.filter fun r => r.fn == fn && r.dst == dst

/-- How far an identifier lies behind another, modulo 2^32. -/
def idBehind (id next : Nat) : Nat := (next + 2 ^ 32 - id % 2 ^ 32) % 2 ^ 32

/-- Identifiers of a function at a destination that have had no reply, those that timed out among them (R392). -/
def State.unanswered (s : State) (fn dst : Nat) : List Nat :=
  (s.outstanding fn dst).map (·.req.id) ++ (s.unack.filter fun x => x.1 == fn && x.2.1 == dst).map (·.2.2)

/-- LOWACK: the lowest identifier without a reply, in the order of issue; the next one where all are answered (R392). -/
def State.lowAck (s : State) (fn dst : Nat) : Nat :=
  let next := Sparse.get 0 s.nextId (seqKey fn dst)
  (s.unanswered fn dst).foldl (fun low id => if idBehind low next < idBehind id next then id else low) next

/-- A port that a routing entry names and that is up: the first, or the second when the first is down (R388). -/
def State.routePort (s : State) (dst : Nat) : Option Nat :=
  let e := Sparse.get 0 s.routes dst
  let up (p : Nat) : Bool := match s.ports[p]? with | some q => q.rate != 0 | none => false
  if up (bits e 20 16) then some (bits e 20 16) else if up (bits e 12 8) then some (bits e 12 8) else none

/-- The hop limit of a destination's routing entry; 0 for one that is not valid (R388). -/
def State.hopLimit (s : State) (dst : Nat) : Nat :=
  let e := Sparse.get 0 s.routes dst
  if e.testBit 31 then e % 256 else 0

/-- What 0xFFFF names (R387). -/
def State.moduleOf (s : State) (m : Nat) : Nat := if m = 0xFFFF then s.ident else m

def State.modPort (s : State) (p : Nat) (f : Port → Port) : State :=
  { s with ports := s.ports.zipIdx.map fun (q, i) => if i = p then f q else q }

/-- The channel of requests, or of replies, of a port (R389). -/
def Port.chan (q : Port) (rep : Bool) : Chan := if rep then q.rep else q.req
def Port.modChan (q : Port) (rep : Bool) (f : Chan → Chan) : Port := if rep then { q with rep := f q.rep } else { q with req := f q.req }

/-- Flits of a message with so many bytes of data: 64 bytes each (R5, R389, log 29). -/
def flits (n : Nat) : Nat := max 1 ((Config.messageHeader + n + 63) / 64)

/-- Flits a sender may still transmit (R389). -/
def Chan.allowance (c : Chan) : Nat := 1024 - (c.sent + 2 ^ 32 - c.peerFreed % 2 ^ 32) % 2 ^ 32

/-- Transmits `n` flits through a port, if its channel has the allowance (R389). -/
def cross (s : State) (p : Nat) (rep : Bool) (n : Nat) : Option State :=
  if ((s.ports.getD p .start).chan rep).allowance < n then none
  else some (s.modPort p fun q => q.modChan rep fun c => { c with sent := (c.sent + n) % 2 ^ 32 })

/-- The flits of a message that came through a port are freed (R389). -/
def freed (s : State) (port : Option Nat) (rep : Bool) (n : Nat) : State :=
  match port with
  | none => s
  | some p => s.modPort p fun q => q.modChan rep fun c => { c with freed := (c.freed + flits n) % 2 ^ 32 }

/-- A message goes out through the port of the module it goes to; without a port that is up, or without credit, it waits. The buffer of
one that came through another port is freed as it leaves (R388, R389). -/
def leave (s : State) (m : FabMsg) : State :=
  let (dst, port, rep, n) : Nat × Option Nat × Bool × Nat := match m with
    | .req r => (r.dst, r.port, false, r.data.length)
    | .rep r => (r.dest, r.port, true, r.data.length)
  match (s.routePort dst).bind fun p => cross s p rep (flits n) with
  | some s => freed s port rep n
  | none => { s with transit := s.transit ++ [m] }

/-- Sends again what waits for credit or for a port. -/
def leaveAll (s : State) : State := s.transit.foldl leave { s with transit := [] }

/-- A request of this module is transmitted: to this module at once, to another through a port that has credit; a request without a
route is answered with REMOTEDOWN (R388, R389). The answer answers the request as it was sent. -/
def transmit (s : State) (r : OutReq) : State :=
  let mark (b : Bool) (s : State) : State :=
    { s with outReqs := s.outReqs.map fun x => if x.fn == r.fn && x.dst == r.dst && x.req.id == r.req.id then { r with sent := b } else x }
  if r.dst = s.ident then (mark true s).due (.fabricRequest r.req)
  else if s.hopLimit r.dst = 0 then
    (mark true s).due (.fabricReply { fn := r.fn, dst := r.dst, id := r.req.id, code := St.REMOTEDOWN, data := [], dest := s.ident })
  else match s.routePort r.dst with
    | none => (mark true s).due (.resendTimeout r.fn r.dst r.req.id)
    | some p => match cross s p false (flits r.req.data.length) with
      | none => mark false s
      | some s => (mark true s).due (.resendTimeout r.fn r.dst r.req.id)

/-- Sends a new request. -/
def sendReq (s : State) (dst : Nat) (r : FabReq) (what : ReqFor) : State :=
  let k := seqKey r.srcFn dst
  let id := Sparse.get 0 s.nextId k
  let req := { r with srcMod := s.ident, id := id, attempt := 0, lowack := s.lowAck r.srcFn dst, dst := dst, hops := s.hopLimit dst }
  let o : OutReq := { fn := r.srcFn, dst := dst, req := req, what := what, orphan := false, sent := false }
  transmit { s with outReqs := s.outReqs ++ [o], nextId := Sparse.set 0 s.nextId k ((id + 1) % 2 ^ 32) } o

/-- Whether another request may be sent: no reconfiguration, and fewer than 4,096 outstanding (R388, R392). -/
def State.maySend (s : State) (fn dst : Nat) : Bool := !s.phasing && (s.outstanding fn dst).length < 4096

/-! ## Performing a request (R390 to R392) -/

/-- The cached answer of a request. -/
def State.setSeen (s : State) (x : Seen) : State :=
  { s with seen := s.seen.filter (fun y => !(y.srcMod == x.srcMod && y.srcFn == x.srcFn && y.id == x.id)) ++ [x] }

/-- Sends the reply of module `by` to a request (R389, R392). -/
def sendReply (s : State) (from_ srcMod srcFn id code : Nat) (data : List Byte) (race : Bool := false) (bad : List Nat := []) : State :=
  let r : FabReply := { fn := srcFn, dst := from_, id := id, code := code, data := data, dest := srcMod, crcBad := bad, race := race }
  if srcMod = s.ident then s.due (.fabricReply r) else leave s (.rep r)

/-- Completes a request that is executing: the cache keeps the answer, and it is sent (R392). -/
def fabAnswer (s : State) (srcMod srcFn id code : Nat) (data : List Byte) (race : Bool := false) (bad : List Nat := []) : State :=
  sendReply (s.setSeen { srcMod := srcMod, srcFn := srcFn, id := id, done := true, code := code, data := data }) s.ident srcMod srcFn id code
    data race bad

/-- Reads, one byte after another, a range of a context. -/
def sysBytes (s : State) (c : Ctx) (va : Nat) : Nat → Except Trap (List Byte)
  | 0 => .ok []
  | n + 1 => do
    let (m, a) ← sysLand s c va 1 false
    let r ← sysBytes s c (va + 1) n
    return s.rd m a :: r

/-- Writes bytes into a range of a context. -/
def sysPut (s : State) (c : Ctx) (va : Nat) : List Byte → Except Trap State
  | [] => .ok s
  | b :: bs => do
    let (m, a) ← sysLand s c va 1 true
    sysPut (markDirty (s.wr m a b) c.id va) c (va + 1) bs

/-- The elements of a list of bytes. -/
def elements (es : Nat) : Nat → List Byte → List Nat
  | 0, _ => []
  | n + 1, bs => natOfBytes (bs.take es) :: elements es n (bs.drop es)

/-- Why a request is not performed to its end: a cause, a refusal by race detection of a command of this module, or a check value that
fails on its way out (R174, R175, R395). -/
inductive ServeStop
  | trap (t : Trap)
  | race
  | crc
  deriving DecidableEq, Repr

/-- Its status code. -/
def ServeStop.code : ServeStop → Nat
  | .trap t => trapStatus t
  | .race => St.PERM
  | .crc => St.CHECKVAL

/-- The command of this module that makes an access at a target, if one does: its accesses belong to its agent (R316). -/
abbrev Who := Option (UKey × Nat)

def State.who (s : State) (r : FabReq) : Who :=
  if r.srcMod != s.ident then none
  else match s.outReqs.find? fun q => q.fn == r.srcFn && q.dst == s.ident && q.req.id == r.id with
    | some q => match q.what with | .cmd k agent _ => some (k, agent) | _ => none
    | none => none

/-- What the agent of a command of this module knew when it raised an interrupt, and the state in which its time has passed (R303, R314). -/
def Who.raises (w : Who) (s : State) : Know × State :=
  match w with
  | none => ([], s)
  | some (k, agent) => match (s.unit? k).or (s.vacUnit? k) with
    | some u => if s.tracks then (u.race.know k (engineAgent agent), withRace s k fun r => r.advance (engineAgent agent)) else ([], s)
    | none => ([], s)

def Who.note (w : Who) (s : State) (p : Place) (n : Nat) (att : Att) : State :=
  match w with | some (k, agent) => cmdNote s k agent p n att | none => s

/-- Where an access of a request lands: race detection, then rows 9 to 11 of R141, and data that it would read (R174, R390). -/
def servePlace (s : State) (w : Who) (c : Ctx) (va n : Nat) (att : Att) (reads : Bool) : Except ServeStop Place :=
  let raced := match w, resolveOrd c 0 0 va n with
    | some (k, agent), .ok loc => (match placeOf? s noCore c loc va with | some p => cmdRefused s k agent p n att | none => false)
    | _, _ => false
  if raced then .error .race
  else match sysPlace s c va n att.write with
    | .error t => .error (.trap t)
    | .ok p => if reads && s.spoilt p.sp p.a n then .error (.trap (.lane C.ECC 0 va)) else .ok p

/-- The answer of a request, with the state it leaves; one that fails while it reads gives what it has read before. `bad` are the blocks of
its data whose check values do not match (R395). -/
structure Done where
  s : State
  code : Nat
  data : List Byte
  race : Bool := false
  bad : List Nat := []

def Done.of (s : State) (e : ServeStop) (data : List Byte := []) : Done := { s := s, code := e.code, data := data, race := e == .race }

/-- Bytes of a block of 256 that a read of `n` bytes at `a` takes. -/
def inBlock (a n : Nat) : Nat := min n (256 - a % 256)

/-- Reads bytes for a reply, `rest` more of its command coming after them: the places read. It stops before a block that holds uncorrectable
data or, on its way out of the package, one whose check value fails (R390, R395, R402). -/
def serveRead (w : Who) (out : Bool) (c : Ctx) (rest : Nat) : Nat → Nat → State → State × List (Nat × Nat) × Option ServeStop
  | _, 0, s => (s, [], none)
  | va, n + 1, s =>
    match servePlace s w c va 1 {} true with
    | .error e => (s, [], some e)
    | .ok p =>
      if s.spoilt p.sp p.a (inBlock p.a (n + 1 + rest)) then (s, [], some (.trap (.lane C.ECC 0 va)))
      else if out && p.sp % 3 = 0 && Sparse.get false s.badCrc (crcKey p.sp p.a) then (s, [], some .crc)
      else
        let (t, ps, e) := serveRead w out c rest (va + 1) n (w.note s p 1 {})
        (t, (p.sp, p.a) :: ps, e)

/-- Writes bytes into a range: the places written, and a stop after them. -/
def serveWrite (w : Who) (c : Ctx) : Nat → List Byte → State → State × List (Nat × Nat) × Option ServeStop
  | _, [], s => (s, [], none)
  | va, b :: bs, s =>
    match servePlace s w c va 1 { write := true } false with
    | .error e => (s, [], some e)
    | .ok p =>
      let (t, ps, e) := serveWrite w c (va + 1) bs (w.note (markDirty (s.wr p.sp p.a b) c.id va) p 1 { write := true })
      (t, (p.sp, p.a) :: ps, e)

/-- Bytes of a range, by space and address. -/
def placesFrom (sp a n : Nat) : List (Nat × Nat) := (List.range n).map fun i => (sp, a + i)

/-- Whether a whole aligned block of the package begins at byte `i` of some places. -/
def blockAt (ps : List (Nat × Nat)) (i : Nat) : Bool :=
  match ps[i]? with
  | some x => x.1 % 3 = 0 && x.2 % 256 = 0 && ps[i + 255]? == some (x.1, x.2 + 255)
  | none => false

/-- The bytes at which whole aligned blocks begin whose check values do not match, and go with them (R395). -/
def badBlocks (s : State) (ps : List (Nat × Nat)) : List Nat :=
  if s.badCrc.isEmpty then []
  else (List.range ps.length).filter fun i => blockAt ps i && (match ps[i]? with | some x => Sparse.get false s.badCrc (crcKey x.1 x.2) | none => false)

/-- Whole aligned blocks take the check values that came with them, which do not match (R395). -/
def spoil (s : State) (bad : List Nat) (ps : List (Nat × Nat)) : State :=
  bad.foldl (fun s i =>
    match ps[i]? with
    | some x => if blockAt ps i then { s with badCrc := Sparse.set false s.badCrc (crcKey x.1 x.2) true } else s
    | none => s) s

/-- Combines elements of `es` bytes into a range, `rest` bytes of its command coming after them: `f` gives an element's new value; it stops
before a block that holds uncorrectable data (R147, R197, R402). -/
def serveReduce (w : Who) (c : Ctx) (rest es : Nat) (f : Nat → Nat → Nat) : Nat → List Nat → State → Except ServeStop State
  | _, [], s => .ok s
  | va, x :: xs, s => do
    let p ← servePlace s w c va es credAtt true
    if noAtomic p then .error (.trap (noAtomicTrap 0 p))
    if s.spoilt p.sp p.a (inBlock p.a (es * (xs.length + 1) + rest)) then .error (.trap (.lane C.ECC 0 va))
    let t := keepHeld s (markDirty (s.wrN p.sp p.a es (f (s.rdN p.sp p.a es) x)) c.id va) p.sp p.a es
    serveReduce w c rest es f (va + es) xs (w.note t p es credAtt)

/-- Replaces a value by what an atomic makes of it; the old value (R146, R147, R201). -/
def serveAtomic (w : Who) (c : Ctx) (fn : Nat) (ty : Ty) (va x y : Nat) (s : State) : Except ServeStop (State × Nat) := do
  let p ← servePlace s w c va ty.size credAtt true
  if noAtomic p then .error (.trap (noAtomicTrap 0 p))
  let old := s.rdN p.sp p.a ty.size
  let t := keepHeld s (markDirty (s.wrN p.sp p.a ty.size (atomicNew fn ty old x y)) c.id va) p.sp p.a ty.size
  return (w.note t p ty.size credAtt, old)

/-- A word of IMM that selects a reduction (R197). -/
def credOp (fn typ : Nat) : Op := { fn := fn, grd := 7, hint := 0, d := .z, a := .z, b := .z, imm := typ }

/-- Performs a request on remote memory (R390). -/
def performMem (s : State) (h : Handle) (r : FabReq) : Done :=
  let refuse (code : Nat) : Done := { s := s, code := code, data := [] }
  let right := match r.kind with | .read => rRead | .write => rWrite | .reduce _ _ => rReduce | _ => rAtomic
  let len := match r.kind with | .write | .reduce _ _ => r.data.length | .atomic _ ty => ty.size | _ => r.len
  if h.kind != 4 || r.kind == .raise then refuse St.STALEHANDLE
  else if !h.rights.testBit right then refuse St.PERM
  else if h.len < r.off + len then refuse St.BOUNDS
  else match s.ctx? h.ctx with
    | none => refuse St.STALEHANDLE
    | some c =>
      let va := h.va + r.off
      let w := s.who r
      match r.kind with
      | .read =>
        let (t, ps, e) := serveRead w (r.srcMod != s.ident) c r.rest va len s
        let bs := ps.map fun p => s.rd p.1 p.2
        let d : Done := match e with | none => { s := t, code := 0, data := bs } | some e => .of t e bs
        { d with bad := badBlocks s ps }
      | .write => match serveWrite w c va r.data s with
        | (t, ps, none) => { s := spoil t r.crcBad ps, code := 0, data := [] }
        | (_, _, some e) => .of s e
      | .reduce fn typ =>
        let o := credOp fn typ
        let es := credEs o
        match serveReduce w c r.rest es (credNew o) va (elements es (len / es) r.data) s with
        | .ok t => { s := t, code := 0, data := [] }
        | .error e => .of s e
      | .atomic fn ty =>
        let n := ty.size
        if va % n != 0 then refuse St.BOUNDS
        else match serveAtomic w c fn ty va (natOfBytes (r.data.take n)) (natOfBytes (r.data.drop n)) s with
          | .ok (t, old) => { s := t, code := 0, data := bytesOfNat n old }
          | .error e => .of s e
      | .raise | .depart _ => refuse St.STALEHANDLE

/-- The raise a request asks for: `ratom.exch.b64` at offset 8v of an endpoint handle (R298). -/
def raiseOf (h : Handle) (r : FabReq) : Option RaiseReq :=
  let ok := match r.kind with | .raise => true | .atomic 6 .b64 => true | _ => false
  if h.kind = 3 && ok && r.off % 8 = 0 && r.off / 8 < 64 then
    some { ctx := h.ctx, va := BitVec.ofNat 64 h.va, vec := r.off / 8, pay := BitVec.ofNat 64 (natOfBytes (r.data.take 8)), cls := 2,
           func := r.srcFn, modid := r.srcMod, sctx := r.srcCtx, launch := r.srcLid, waiter := none, reply := none,
           fab := some (r.srcMod, r.srcFn, r.id) }
  else none

/-- Performs a request that the filter lets through (R250, R298, R390, R392): a handle of another kind than the request needs is stale, and
an endpoint takes no atomic but the raise. -/
def performReq (s : State) (r : FabReq) : State :=
  let answer (d : Done) : State := fabAnswer d.s r.srcMod r.srcFn r.id d.code d.data d.race d.bad
  match r.kind with
  | .depart key => answer { s := s.due (.departRequest (r.handle.toNat % 2 ^ 43) key), code := 0, data := [] }
  | _ =>
    match s.handle? r.handle with
    | none => answer { s := s, code := St.STALEHANDLE, data := [] }
    | some h =>
      if h.kind = 3 then
        match raiseOf h r, r.kind with
        | some q, _ =>
          let (know, s) := (s.who r).raises s
          (s.setSeen { srcMod := r.srcMod, srcFn := r.srcFn, id := r.id, done := false, code := 0, data := [] }).dueAgain
            (.raiseDecision { q with know := know })
        | none, .atomic _ _ | none, .raise => answer { s := s, code := St.PERM, data := [] }
        | none, _ => answer { s := s, code := St.STALEHANDLE, data := [] }
      else answer (performMem s h r)

/-- Whether an identifier lies below LOWACK, modulo 2^32 (R392). -/
def belowAck (id low : Nat) : Bool := 2 ^ 31 ≤ (id + 2 ^ 32 - low % 2 ^ 32) % 2 ^ 32

/-- Key of a source in the table of LOWACKs. -/
def srcKey (m f : Nat) : Nat := m * 64 + f

/-- Passes on a request for another module: one whose hops are used up, or for which the table holds no valid entry, is answered with
REMOTEDOWN (R388). -/
def passOn (s : State) (r : FabReq) : State :=
  if r.hops ≤ 1 || s.hopLimit r.dst = 0 then
    sendReply (freed s r.port false r.data.length) r.dst r.srcMod r.srcFn r.id St.REMOTEDOWN []
  else leave s (.req { r with hops := r.hops - 1 })

/-- A request that has reached its target is filtered, and performed once or answered again (R392). -/
def serveReq (s : State) (r : FabReq) : State :=
  let k := srcKey r.srcMod r.srcFn
  let low0 := Sparse.get 0 s.lowack k
  let low := if belowAck r.lowack low0 then low0 else r.lowack
  let mine (x : Seen) : Bool := x.srcMod == r.srcMod && x.srcFn == r.srcFn
  let s := { s with lowack := Sparse.set 0 s.lowack k low, seen := s.seen.filter fun x => !(mine x && belowAck x.id low) }
  if belowAck r.id low then s
  else match s.seen.find? fun x => mine x && x.id == r.id with
    | none => performReq s r
    | some x =>
      if !x.done then s
      else match r.kind with
        | .read => performReq s r
        | _ => sendReply s s.ident r.srcMod r.srcFn r.id x.code x.data

def execFabricRequest (r : FabReq) (s : State) : Host.Outcome State Fault Refusal :=
  if s.moduleOf r.dst = s.ident then .next (serveReq (freed s r.port false r.data.length) r) else .next (passOn s r)

/-! ## Pieces of remote commands (R196, R391) -/

/-- Bytes of a local range of a command from an offset on, of which some may have been read already: those read, and a stop after them. -/
def readLocal (s : State) (u : Unit) (agent : Nat) (m : Cmd) (off n : Nat) : State × List Byte × Option EStop :=
  engBytes s u agent m off n m.ahead

/-- The places of some bytes of a local range. -/
def localPlaces (s : State) (u : Unit) (agent : Nat) (m : Cmd) (off n : Nat) (att : Att) : List (Nat × Nat) :=
  (List.range n).filterMap fun i =>
    match engPlace s u agent m.spaces.1 m.av.toNat (off + i : Nat) 1 att (!att.write) with | .ok p => some (p.sp, p.a) | .error _ => none

/-- The first of some bytes of a local range whose block has a check value that fails; it is verified on its way out of the package, and
within the module it is carried (R395). -/
def localCrc (s : State) (ps : List (Nat × Nat)) : Option Nat :=
  ps.findIdx? fun p => p.1 % 3 == 0 && Sparse.get false s.badCrc (crcKey p.1 p.2)

/-- What a remote command asks of its target. -/
def Cmd.fabKind (m : Cmd) : FabKind :=
  match m.ins with
  | .cpyr o _ => if o.fn = 0 then .read else .write
  | .cred o _ => .reduce o.fn (o.imm % 4)
  | .ratom o x => .atomic o.fn (ratomTy x)
  | _ => .read

/-- A failure of a remote command at an offset: the one lowest in the range is reported (R391). -/
def Cmd.failAt (m : Cmd) (st : DWord) : Cmd :=
  if statusCode m.status = 0 || st.toNat % 2 ^ 48 < m.status.toNat % 2 ^ 48 then { m with status := st } else m

/-- Whether a remote command sends no more and waits for nothing. -/
def Cmd.remoteOver (m : Cmd) : Bool := m.sent.isEmpty && (statusCode m.status != 0 || m.total ≤ m.prog)

/-- Bytes of a ratom's operand, and of every other remote command. -/
def Cmd.size (m : Cmd) : Nat := match m.ins with | .ratom _ x => (ratomTy x).size | _ => m.total

/-- Ends a remote command that has nothing more to send or to wait for. -/
def remoteEnd (s : State) (k : UKey) (agent : Nat) : State :=
  match (s.unit? k).bind fun u => u.cmd? agent with
  | none => s
  | some m =>
    if m.state == .started && m.sent.isEmpty && (statusCode m.status != 0 || m.size ≤ m.prog) then
      cmdEnd s k agent (if statusCode m.status != 0 then m.status else statusWord St.OK m.total)
    else s

/-- Sends `n` bytes of a remote command, from those that follow what it has sent (R391). -/
def sendPiece (s : State) (u : Unit) (agent : Nat) (m : Cmd) (dst n : Nat) (data : List Byte) (bad : List Nat := []) : State :=
  let id := Sparse.get 0 s.nextId (seqKey u.key.fn dst)
  let s := s.modCmd u.key agent fun m => { m with sent := m.sent ++ [(id, m.prog)], prog := m.prog + n }
  sendReq s dst { srcMod := s.ident, srcFn := u.key.fn, srcCtx := u.ctx, srcLid := u.key.lid, id := 0, attempt := 0, lowack := 0,
                  kind := m.fabKind, handle := BitVec.ofNat 64 (remHandle m.dv), off := remOff m.dv + m.prog, len := n, data := data,
                  crcBad := bad, rest := m.size - m.prog - n }
    (.cmd u.key agent m.prog)

/-- The next piece of a remote command that takes its bytes from here. One that meets a stop sends what comes before it, so that the bytes
below its detail are performed at the target (R293, R391). -/
def pieceOut (s : State) (u : Unit) (agent : Nat) (m : Cmd) (dst n : Nat) : State :=
  let fail (s : State) (st : DWord) : State := remoteEnd (s.modCmd u.key agent fun m => m.failAt st) u.key agent
  let (t, bs, e) := readLocal s u agent m m.prog n
  let ps := localPlaces s u agent m m.prog bs.length {}
  let bad := if dst = s.ident then none else localCrc s ps
  let k := bad.getD bs.length
  let stop : Option DWord := match bad, e with
    | some i, _ => some (statusWord St.CHECKVAL (m.prog + i))
    | none, some e => some (e.word (m.prog + bs.length))
    | none, none => none
  match stop, e with
  | _, some .wait => s
  | some st, _ => fail (if k = 0 then t else sendPiece t u agent m dst k (bs.take k) (badBlocks s (ps.take k))) st
  | none, _ =>
    let (t, more) := aheadGo s u agent m 0 3 (m.prog + n) t
    sendPiece (t.modCmd u.key agent fun m => { m with ahead := more }) u agent m dst n bs (badBlocks s ps)

/-- Sends the next piece of a remote command (R391); one of no bytes asks its target all the same (R196). -/
def pieceRemote (s : State) (u : Unit) (agent : Nat) (m : Cmd) : State :=
  let dst := s.moduleOf (hModule (BitVec.ofNat 64 (remHandle m.dv)))
  let n := min pieceBytes (m.size - m.prog)
  if statusCode m.status != 0 then remoteEnd s u.key agent
  else if !s.maySend u.key.fn dst then s
  else if n = 0 && (m.size != 0 || !m.sent.isEmpty) then remoteEnd s u.key agent
  else match m.fabKind with
    | .read => sendPiece s u agent m dst n []
    | .atomic fn _ =>
      let regs := n / 4 + (if n < 4 then 1 else 0)
      sendPiece s u agent m dst n
        (bytesOfNat n (m.bv.toNat % 2 ^ (8 * n)) ++ (if fn = 7 then bytesOfNat n (m.bv.toNat / 2 ^ (32 * regs)) else []))
    | _ => pieceOut s u agent m dst n

/-- The status of a piece that has been answered with a code other than OK (R174, R175, R391). -/
def pieceStatus (r : FabReply) (off : Nat) : DWord :=
  if r.code = St.STALEHANDLE then (if off = 0 then statusWord r.code 0 else statusWord St.PARTIAL off)
  else if r.race then statusWord r.code (2 ^ 47 + off % 2 ^ 47)
  else if r.code = St.NOATOMIC then statusWord r.code 0
  else statusWord r.code off

/-- A piece of a cpyr.rd is taken home after those before it, so that its destination is written in ascending order (R285); the answer of
any other piece takes effect at once. -/
def Cmd.inOrder (m : Cmd) : Bool := match m.ins with | .cpyr o _ => o.fn = 0 | _ => false

/-- The piece to be taken home next, where its reply has come: its offset and the reply. -/
def Cmd.nextGot (m : Cmd) : Option (Nat × FabReply) := m.sent.head?.bind fun x => m.got.find? fun g => g.1 == x.2 && g.2.id == x.1

/-- A command with the answer of a piece taken: one that fails is reported with the bytes before it; a piece that waits its turn is kept
(R174, R175, R391). -/
def Cmd.replied (m : Cmd) (off : Nat) (r : FabReply) : Cmd :=
  let m := if r.code != 0 then m.failAt (pieceStatus r (off + r.data.length)) else m
  if m.inOrder then { m with got := m.got ++ [(off, r)] } else { m with sent := m.sent.filter fun x => x != (r.id, off) }

/-- A command whose piece has been taken home. -/
def Cmd.took (m : Cmd) (g : Nat × FabReply) (back : List Byte) : Cmd := { m with sent := m.sent.tail, got := m.got.filter (· != g), back := back }

/-- Writes bytes of a command whose unit is vacated, as its agent, into memory or into the vault of its image: a stop at an offset
(R316, R321, R322). -/
def vacatedPut (s : State) (k : UKey) (agent : Nat) (c : Ctx) (l : Launch) (v : Vac) (u : Unit) (m : Cmd) (off : Nat) (bs : List Byte) :
    State × Option DWord :=
  if m.spaces.1 then
    let o := m.av.toNat % 2 ^ 22 + off
    let at_ (i : Nat) : Place := { sp := 3, a := vaultKey (vaultNo u.core) (u.vault + o + i), pte := none, va := 0 }
    let n := ((List.range bs.length).find? fun i => l.b ≤ o + i || cmdRefused s k agent (at_ i) 1 { write := true }).getD bs.length
    let s := (List.range n).foldl (fun s i => cmdNote s k agent (at_ i) 1 { write := true }) s
    let s := sysWriteBytes s c (c.arena + v.save + l.imgVault + o) (bs.take n)
    (s, if n = bs.length then none
        else if l.b ≤ o + n then some (statusWord St.BOUNDS (off + n)) else some (statusWord St.PERM (2 ^ 47 + (off + n) % 2 ^ 47)))
  else
    let (s, ps, e) := serveWrite (some (k, agent)) c (m.av.toNat + off) bs s
    let at_ := off + ps.length
    (s, e.map fun e => if e == .race then statusWord St.PERM (2 ^ 47 + at_ % 2 ^ 47) else statusWord e.code at_)

/-- The saved record of a command whose pieces are answered while its unit is vacated (R371). -/
def vacatedRecord (s : State) (c : Ctx) (l : Launch) (v : Vac) (agent : Nat) (m : Cmd) : State :=
  let a := c.arena + v.save + l.imgCmds + 1024 * agent
  let s := sysWrite s c (a + 24) 8 m.reached
  let s := if m.sent.isEmpty then sysWrite s c (a + 15) 1 0 else s
  if statusCode m.status != 0 && m.sent.isEmpty then sysWrite (sysWrite s c (a + 12) 1 3) c (a + 88) 8 m.status.toNat else s

/-- Takes home the pieces of a vacated unit's command whose turn has come. -/
def vacatedTake (k : UKey) (agent : Nat) (c : Ctx) (l : Launch) (v : Vac) (u : Unit) : Nat → State × Cmd → State × Cmd
  | 0, x => x
  | n + 1, (s, m) =>
    match m.nextGot with
    | none => (s, m)
    | some g =>
      let (s, st) := vacatedPut s k agent c l v u m g.1 g.2.data
      let m := m.took g []
      vacatedTake k agent c l v u n (s, match st with | some st => m.failAt st | none => m)

/-- A piece is answered while its unit is vacated (R173, R371). -/
def vacatedAnswer (s : State) (k : UKey) (agent off : Nat) (r : FabReply) : State :=
  match s.launch? k.fn k.lid with
  | none => s
  | some l => match l.resume.find? fun v => v.idx == k.idx with
    | none => s
    | some v => match s.ctx? l.ctx, v.unit.bind fun u => (u.cmd? agent).map fun m => (u, m) with
      | some c, some (u, m) =>
        let m := m.replied off r
        let (s, st) := match m.ins with
          | .ratom _ _ => if r.data.isEmpty then (s, none) else vacatedPut s k agent c l v u m off r.data
          | _ => (s, none)
        let (s, m) := vacatedTake k agent c l v u m.got.length (s, match st with | some st => m.failAt st | none => m)
        vacatedRecord (s.modVac k fun u => u.modCmd agent fun _ => m) c l v agent m
      | _, _ => s

/-- Bytes that have come for a command, at an offset of its local range: what they leave, and whole blocks with the check values that came
with them (R395). -/
def pieceData (s : State) (u : Unit) (agent : Nat) (m : Cmd) (off : Nat) (bs : List Byte) (bad : List Nat) : Piece :=
  let r := engPutBytes s u agent m.spaces.1 m.av.toNat off bs
  if bad.isEmpty then r else { r with s := spoil r.s bad (localPlaces s u agent m off r.n { write := true }) }

/-- Takes home the piece of a cpyr.rd whose turn has come, with the bytes held back before it; one that finds a page still being fetched waits
(R174, R285). -/
def takeGot (k : UKey) (agent : Nat) : Nat → State → State
  | 0, s => s
  | n + 1, s =>
    match (s.unit? k).bind fun u => (u.cmd? agent).bind fun m => m.nextGot.map fun g => (u, m, g) with
    | none => s
    | some (u, m, g) =>
      let last := g.2.code != 0 || u.vacating || (m.sent.length = 1 && (statusCode m.status != 0 || m.size ≤ m.prog))
      let all := m.back ++ g.2.data
      let off := g.1 - m.back.length
      let put := all.length - backOf last (m.av.toNat + g.1 + g.2.data.length) all.length
      let p := pieceData s u agent m off (all.take put) (g.2.crcBad.map (· + m.back.length))
      match p.stop with
      | some .wait => s
      | some e => takeGot k agent n (p.s.modCmd k agent fun m => (m.took g []).failAt (e.word (off + p.n)))
      | none => takeGot k agent n (p.s.modCmd k agent fun m => m.took g (all.drop put))

/-- A piece's answer is taken at home: a read's data, an old value, or a failure with what was read before it (R293, R391). -/
def pieceAnswered (s : State) (k : UKey) (agent off : Nat) (r : FabReply) : State :=
  match s.unit? k with
  | none => vacatedAnswer s k agent off r
  | some u => match u.cmd? agent with
    | none => s
    | some m =>
      let s := s.modCmd k agent fun m => m.replied off r
      let s := match m.ins with
        | .ratom _ _ =>
          let p := pieceData s u agent m off r.data []
          (match p.stop with
          | some e => p.s.modCmd k agent fun m => m.failAt (e.word (off + p.n))
          | none => p.s)
        | .cpyr _ _ => takeGot k agent (m.got.length + 1) s
        | _ => s
      remoteEnd s k agent

/-! ## Replies, resends and credits (R389, R393) -/

/-- Takes the request away that an answer answers. -/
def dropReq (s : State) (fn dst id : Nat) : State :=
  { s with outReqs := s.outReqs.filter fun r => !(r.fn == fn && r.dst == dst && r.req.id == id) }

def State.outReq? (s : State) (fn dst id : Nat) : Option OutReq :=
  s.outReqs.find? fun r => r.fn == fn && r.dst == dst && r.req.id == id

end Sys2Proof.Machine
end

