-- ==== Sys2Proof/Machine/Admission.lean ====
section
/-! DEFINITION. The residency unit at work: admissions, ownership, the fetch of an object, departures and evictions (R161,
R242 to R252, R256), and the admission port (R362). -/

namespace Sys2Proof.Machine

/-! ## Who waits -/

/-- What a name comes to at once in a context (R247, R249). -/
inductive Ask
  | fail (code detail : Nat)
  | have (slot : Nat) (r : Res)
  /-- waits on an admission of the key -/
  | join
  deriving DecidableEq, Repr

def askName (c : Ctx) (n : Nat) : Ask :=
  match c.find (nameKey n) with
  | none => .join
  | some slot =>
    let r := c.slotRes slot
    if r.state = .departing then .join
    else if r.state = .admitting && nameKind n != r.kind then .fail C.STALENAME (2 + r.gen * 2 ^ 16)
    else if nameGen n != r.gen then .fail C.STALENAME (1 + r.gen * 2 ^ 16)
    else if r.state = .admitting then .join else .have slot r

/-- Writes the result and the status of an admission port (R362). -/
def portResult (s : State) (core res code estat detail : Nat) : State :=
  s.modCore core fun c =>
    { c with portBusy := false,
             port := putBytes (putBytes c.port 32 8 res) 40 8 (2 ^ 63 + detail % 2 ^ 32 * 2 ^ 16 + estat * 2 ^ 8 + code) }

/-- Answers a port whose name has been admitted or refused; the wait keeps the name's offset in its `pc`. -/
def portAnswer (s : State) (core : Nat) (w : AdmWait) : State :=
  if w.res = 1 then
    if w.extent < w.pc.toNat then portResult s core 0 C.BOUNDS 0 0 else portResult s core (mkPtr w.inc w.slot w.pc.toNat) 0 0 0
  else portResult s core 0 w.res w.estat w.detail

/-- Changes the waits of an admission that are undecided. -/
def decideWaits (s : State) (ctx key : Nat) (f : AdmWait → AdmWait) : State :=
  let g (w : AdmWait) : AdmWait := if w.res = 0 then f w else w
  s.modCtx ctx fun c =>
    { c with adms := c.adms.map fun a => if a.key == key && a.active then { a with waits := a.waits.map g } else a }

/-- Lets those whose wait is decided go on: ports are answered, groups look again. -/
def wakeDecided (s : State) (ctx key : Nat) : State :=
  match (s.ctx? ctx).bind fun c => c.adms.find? fun a => a.key == key && a.waits.any (fun w => w.res != 0 && isSuper w.u) with
  | none => wakeCtx s ctx (· == .key key)
  | some a =>
    let ports := a.waits.filter fun w => w.res != 0 && isSuper w.u
    let s := ports.foldl (fun s w => portAnswer s w.u.lid w) s
    let s := s.modCtx ctx fun c =>
      { c with adms := c.adms.map fun b => if b.key == key then { b with waits := b.waits.filter fun w => !ports.contains w } else b }
    wakeCtx s ctx (· == .key key)

/-- Ends the admission of a key: it keeps its results until they are taken. -/
def endAdmission (s : State) (ctx key : Nat) : State :=
  let s := s.modCtx ctx fun c => { c with adms := c.adms.map fun a => if a.key == key then { a with active := false } else a }
  let s := wakeDecided s ctx key
  s.modCtx ctx fun c => { c with adms := c.adms.filter fun a => a.active || !a.waits.isEmpty }

/-- Lets every admission of a context that has not got on look again. -/
def readmit (s : State) (ctx : Nat) : State :=
  match s.ctx? ctx with
  | none => s
  | some c => (c.adms.filter fun a => a.active && !a.owning).foldl (fun s a => s.due (.admission ctx a.key)) s

/-- Whether a due step is one of an incarnation of a slot, and falls with it. -/
def ofSlot (ctx slot : Nat) : Instr → Bool
  | .copyPiece (.fetch c k) | .copyPiece (.writeBack c k) | .departure c k _ | .departureComplete c k | .admissionResident c k
  | .ownershipReread c k => c == ctx && k == slot
  | _ => false

/-- An incarnation of a slot, or its admission, is over: pieces of its fetch that are still on their way are nobody's any more, their replies
being absorbed, and no step of it is due (R242, R247). -/
def dropFetch (s : State) (ctx slot : Nat) : State :=
  { s with outReqs := s.outReqs.map (fun q => if q.what == .fetch ctx slot then { q with orphan := true } else q),
           agenda := s.agenda.filter fun i => !ofSlot ctx slot i }

/-- What an entry keeps of itself while an admission has its slot (R242). -/
def Res.kept (r : Res) : ResWas :=
  { state := r.state, inc := r.inc, kind := r.kind, w := r.w, gen := r.gen, domain := r.domain, serial := r.serial, backva := r.backva,
    extent := r.extent }

/-- The entry as it was before an admission that has failed (R242). -/
def Res.undone (r : Res) : Res :=
  match r.was with
  | some x => { Res.start with state := x.state, inc := x.inc, kind := x.kind, w := x.w, gen := x.gen, domain := x.domain, serial := x.serial,
                               backva := x.backva, extent := x.extent, cpin := r.cpin }
  | none => { Res.start with cpin := r.cpin }

/-- An admission fails with a cause in every lane still waiting; its slot is as it was (R161, R242). -/
def failAdmission (s : State) (ctx key code estat : Nat) (detail : AdmWait → Nat) : State :=
  match (s.ctx? ctx).bind fun c => c.adms.find? fun a => a.key == key && a.active with
  | none => s
  | some a =>
    let s := match a.slot with
      | none => s
      | some k =>
        let s := modRes (dropFetch s ctx k) ctx k Res.undone
        s.modCtx ctx fun c => { c with index := c.index.filter (·.1 != key), runs := c.runs.filter (·.1 != k) }
    let s := decideWaits s ctx key fun w => { w with res := code, estat := estat, detail := detail w }
    readmit (endAdmission s ctx key) ctx

/-! ## The arena (R240, R247, R252) -/

/-- Granules of 64 KiB an extent takes. -/
def granules (extent : Nat) : Nat := (extent + 65535) / 65536

/-- The lowest run of free granules. -/
def Ctx.findRun (c : Ctx) (need : Nat) : Option Nat :=
  let fits (g : Nat) : Bool := g + need ≤ c.admN / 65536 && c.runs.all fun r => g + need ≤ r.2.1 || r.2.1 + r.2.2 ≤ g
  (0 :: c.runs.map fun r => r.2.1 + r.2.2).foldl (fun b g => if fits g && (match b with | some x => g < x | none => true) then some g else b) none

/-- The resident object that is evicted next (R252). -/
def Ctx.victim (c : Ctx) : Option Nat :=
  let ok (r : Res) : Bool := r.state == .resident && r.pin == 0 && r.cpin == 0 && r.kind != 2
  (c.res.foldl (fun (b : Option (Nat × Nat)) e =>
    if ok e.2 && (match b with | some x => e.2.time < x.2 | none => true) then some (e.1, e.2.time) else b) none).map (·.1)

/-- Finds room for an admitting object, evicting where there is none, and starts its fetch. -/
def placeObject (s : State) (c : Ctx) (key slot : Nat) : State :=
  let need := granules (c.slotRes slot).extent
  match c.findRun need with
  | some g =>
    let s := s.modCtx c.id fun c => { c with runs := c.runs ++ [(slot, g, need)] }
    (modRes s c.id slot fun r => { r with backva := c.admva + g * 65536 }).due (.copyPiece (.fetch c.id slot))
  | none =>
    if c.runs.any fun r => (c.slotRes r.1).state == .departing then s
    else match c.victim with
      | some v => s.due (.departure c.id v false)
      | none => failAdmission s c.id key C.XLATE 0 fun _ => 1

/-! ## Ownership (R245, R250) -/

/-- Takes ownership of an admitting object: none when another context holds it, with that owner. -/
def takeOwner (s : State) (c : Ctx) (r : Res) : Except Nat State :=
  match sysRead s c (r.dirva + 32) 16 with
  | none => .ok s
  | some x =>
    let owner := x % 2 ^ 64
    if owner = ownerOf s c then .ok s
    else if owner = 0 then .ok (sysWrite s c (r.dirva + 32) 16 (ownerOf s c + (x / 2 ^ 64 + 1) % 2 ^ 64 * 2 ^ 64))
    else .error owner

/-- Gives ownership back, with a release at .sys. -/
def freeOwner (s : State) (c : Ctx) (r : Res) : State :=
  match sysRead s c (r.dirva + 32) 8 with
  | some x => if x = ownerOf s c then sysWrite s c (r.dirva + 32) 8 0 else s
  | none => s

/-- Asks an owner to depart an object, once; a request that may not be sent yet is sent at a later rereading (R250, R388,
R392). -/
def askDepart (s : State) (c : Ctx) (key owner : Nat) : State :=
  let m := owner / 2 ^ 48
  let asked (s : State) : State :=
    s.modCtx c.id fun c => { c with adms := c.adms.map fun a => if a.key == key && a.active then { a with asked := some owner } else a }
  if c.adms.any fun a => a.key == key && a.active && a.asked == some owner then s
  else if m = s.ident then (asked s).due (.departRequest (owner % 2 ^ 32) key)
  else if !s.maySend c.fn m then s
  else
    sendReq (asked s) m { srcMod := s.ident, srcFn := c.fn, srcCtx := c.id, srcLid := 0, id := 0, attempt := 0, lowack := 0,
                          kind := .depart key, handle := BitVec.ofNat 64 owner, off := 0, len := 0, data := [] } .depart

/-- Goes on with an admission once its object is owned. -/
def owned (s : State) (ctx key slot : Nat) : State :=
  let s := s.modCtx ctx fun c => { c with adms := c.adms.map fun a => if a.key == key && a.active then { a with owning := false } else a }
  match s.ctx? ctx with | some c => placeObject s c key slot | none => s

/-! ## Admission (R247) -/

/-- An admission goes on with a slot and a valid entry. -/
def admitSlot (s : State) (c : Ctx) (key slot : Nat) (e : DirEnt) : State :=
  let old := c.slotRes slot
  let s := modRes s c.id slot fun r =>
    { Res.start with state := .admitting, inc := if r.state = .departed then (r.inc + 1) % 16 else 0, kind := e.kind,
                     w := e.w && e.kind != 0, cpin := r.cpin, gen := e.gen, domain := keyDomain key, serial := key % 2 ^ 45,
                     backva := if e.kind = 2 then e.home else 0, extent := e.size, was := some old.kept, hsp := e.hsp,
                     homemod := e.homemod, home := e.home, dirva := e.va }
  let s := s.modCtx c.id fun c =>
    { c with index := c.index ++ [(key, slot)],
             adms := c.adms.map fun a => if a.key == key && a.active then { a with slot := some slot, owning := e.kind == 1 } else a }
  match s.ctx? c.id with
  | none => s
  | some c =>
    if e.kind = 2 then
      match poolRange? s c.fn e.home e.size false with
      | some _ => s.due (.admissionResident c.id slot)
      | none => failAdmission s c.id key C.PERM 0 (·.lane)
    else if e.kind = 1 then
      match takeOwner s c (c.slotRes slot) with
      | .ok s => owned s c.id key slot
      | .error o => (askDepart s c key o).due (.ownershipReread c.id slot)
    else placeObject s c key slot

/-- The lanes whose own name the entry does not bear out are refused (R247). -/
def compareLanes (s : State) (ctx key : Nat) (e : DirEnt) : State :=
  wakeDecided (decideWaits s ctx key fun w =>
    if e.kind != w.kind then { w with res := C.STALENAME, detail := 2 + e.gen * 2 ^ 16 }
    else if e.gen != w.gen then { w with res := C.STALENAME, detail := 1 + e.gen * 2 ^ 16 } else w) ctx key

/-- One step of the admission of a key: nothing while its old incarnation departs. -/
def admitKey (s : State) (ctx key : Nat) : State :=
  match s.ctx? ctx with
  | none => s
  | some c =>
    match c.adms.find? fun a => a.key == key && a.active with
    | none => s
    | some a =>
      match a.slot with
      | some k => if a.owning || c.runs.any (fun r => r.1 == k) || (c.slotRes k).kind = 2 then s else placeObject s c key k
      | none =>
        if (c.find key).isSome then s
        else match lookup s c key a.probe with
          | .absent => failAdmission s ctx key C.STALENAME 0 fun _ => 0
          | .busy i =>
            (s.modCtx ctx fun c => { c with adms := c.adms.map fun a => if a.key == key && a.active then { a with probe := i } else a }).due
              (.directoryBusyReread ctx key)
          | .entry e =>
            if e.invalid then failAdmission s ctx key C.STALENAME 0 fun _ => 3 + e.gen * 2 ^ 16
            else
              let s := compareLanes s ctx key e
              match s.ctx? ctx with
              | none => s
              | some c =>
                let left := c.adms.any fun a => a.key == key && a.active && a.waits.any fun w => w.res == 0
                if !left then endAdmission s ctx key
                else if !(e.fnmask.testBit c.fn) then failAdmission s ctx key C.PERM 0 (·.lane)
                else match c.pickSlot key with
                  | none => failAdmission s ctx key C.XLATE 0 fun _ => 0
                  | some k => admitSlot s c key k e

def execAdmission (ctx key : Nat) (s : State) : Host.Outcome State Fault Refusal := .next (admitKey s ctx key)

def execDirectoryBusyReread (ctx key : Nat) (s : State) : Host.Outcome State Fault Refusal := .next (admitKey s ctx key)

def execOwnershipReread (ctx slot : Nat) (s : State) : Host.Outcome State Fault Refusal :=
  match s.ctx? ctx with
  | none => .next s
  | some c =>
    let r := c.slotRes slot
    if r.state != .admitting || !(c.adms.any fun a => a.slot == some slot && a.owning) then .next s
    else match takeOwner s c r with
      | .ok s => .next (owned s ctx r.key slot)
      | .error o => .next ((askDepart s c r.key o).due (.ownershipReread ctx slot))

def execAdmissionResident (ctx slot : Nat) (s : State) : Host.Outcome State Fault Refusal :=
  match s.ctx? ctx with
  | none => .next s
  | some c =>
    let r := c.slotRes slot
    if r.state != .admitting || (r.kind != 2 && r.filled < min 65536 r.extent) then .next s
    else
      let s := modRes s ctx slot fun r => { r with state := .resident, was := none, time := c.time }
      let s := s.modCtx ctx fun c => { c with time := c.time + 1 }
      let s := decideWaits s ctx r.key fun w => { w with res := 1, inc := r.inc, slot := slot, extent := r.extent }
      let cores := (c.adms.filter fun a => a.key == r.key && a.active).flatMap fun a => a.waits.filterMap fun w => (s.unit? w.u).map (·.core)
      let s := cores.foldl (fun s k => cacheAdd s k ctx r.key slot r) s
      .next ((endAdmission s ctx r.key).due (.fillWaitEnd ctx slot))

/-! ## Departure (R251) -/

def execDeparture (ctx slot : Nat) (forced : Bool) (s : State) : Host.Outcome State Fault Refusal :=
  match s.ctx? ctx with
  | none => .next s
  | some c =>
    let r := c.slotRes slot
    if forced && r.state = .admitting then .next (s.due (.departure ctx slot forced))
    else if (r.state != .resident || (!forced && r.pin != 0)) && !(forced && r.state == .departing) then .next (readmit s ctx)
    else
      let s := if r.state = .departing then modRes s ctx slot fun r => { r with forced := true }
        else cacheDrop (modRes s ctx slot fun r => { r with state := .departing, forced := forced, dstep := 1, wb := 0 }) ctx slot
      if !forced then .next s
      else .next ((s.units.filter fun u => u.ctx == ctx).foldl (fun s u =>
        (u.cmds.filter fun m => m.2.pins.contains slot && m.2.state != .done).foldl (fun s m =>
          cmdEnd s u.key m.1 (statusWord St.DEPARTED m.2.moved)) s) s)

/-- The last steps of a departure: granules, history, ownership, the slot; those that waited for it look again. -/
def departed (s : State) (c : Ctx) (slot : Nat) : State :=
  let r := c.slotRes slot
  let h := BitVec.ofNat 128 (longName r.kind r.key r.gen r.extent)
  let s := s.modCtx c.id fun c =>
    { c with hist := Sparse.set 0 c.hist (16 * slot + r.inc) h, runs := c.runs.filter (·.1 != slot), index := c.index.filter (·.1 != r.key) }
  let s := mirrorHist (dropFetch s c.id slot) c.id slot r.inc
  let s := if r.kind = 1 && r.dstep != 4 then freeOwner s c r else s
  let s := modRes s c.id slot fun r =>
    { r with state := .departed, dirty := false, pin := 0, dirtyPg := [], filled := 0, dstep := 0, wb := 0, forced := false }
  let s := wakeCtx s c.id fun w => match w with | .fill k _ _ => k == slot | .key k => k == r.key | _ => false
  readmit (retireHistory s c.id) c.id

def execDepartureComplete (ctx slot : Nat) (s : State) : Host.Outcome State Fault Refusal :=
  match s.ctx? ctx with
  | none => .next s
  | some c =>
    let r := c.slotRes slot
    if r.state != .departing || (r.cpin != 0 && !r.forced) || r.dstep = 2 then .next s
    else if r.dstep = 1 && r.kind = 1 && !r.dirtyPg.isEmpty then
      .next ((modRes s ctx slot fun r => { r with dstep := 2 }).due (.copyPiece (.writeBack ctx slot)))
    else .next (departed s c slot)

/-- A request to depart stays until the departure has begun: a pin that comes first only delays it (R250). -/
def execDepartRequest (ctx key : Nat) (s : State) : Host.Outcome State Fault Refusal :=
  match (s.ctx? ctx).bind fun c => (c.find key).map fun k => (k, c.slotRes k) with
  | none => .next s
  | some (k, r) =>
    if r.state = .departing then .next s
    else .next ((if r.state = .resident && r.pin = 0 then s.due (.departure ctx k false) else s).due (.departRequest ctx key))

/-! ## What copy engines move for the residency unit (R247, R251) -/

/-- Whether an object's home is in another module. -/
def Res.remoteHome (s : State) (r : Res) : Bool := r.hsp == 0 && s.moduleOf r.homemod != s.ident

/-- The place of a range at home, or the status of its failure. -/
def homePlace (s : State) (c : Ctx) (r : Res) (off n : Nat) (write : Bool) : Except Nat (Nat × Nat) :=
  let a := r.home + off
  if r.hsp = 1 then
    (poolPlace s c.fn a n write).map fun p => (1, p)
  else if r.hsp = 2 then .ok (2, a)
  else if physExists 0 a && physExists 0 (a + n - 1) then .ok (0, a) else .error St.XLATE

/-- The groups of a context that wait for a page of a slot that is not filled: each with its unit, highest-ranked entry that waits so,
lane and address, in ascending slot order (R353). -/
def fillWaiters (s : State) (c : Ctx) (slot : Nat) : List (Unit × Group × Entry × Nat × Nat) :=
  let filled := (c.slotRes slot).filled
  let waits (u : Unit) (g : Group) : Option (Unit × Group × Entry × Nat × Nat) :=
    if !g.live || g.run = .stopped then none
    else (ranked g.ents).findSome? fun e => match e.wait with
      | .fill k l va => if k = slot && filled ≤ ptrOff va / 65536 * 65536 + 65535 then some (u, g, e, l, va) else none
      | _ => none
  let all := (s.units.filter fun u => u.ctx == c.id).flatMap fun u => u.grps.filterMap (waits u)
  (List.range 64).flatMap fun k => all.filter fun x => x.2.1.slot == k

/-- A fetch fails: before the object is resident its admission does, afterwards every group that waits for a page takes XLATE, and the
slot departs (R161, R248). -/
def fetchFail (s : State) (c : Ctx) (slot code : Nat) : State :=
  let r := c.slotRes slot
  if r.state = .admitting then failAdmission s c.id r.key C.XLATE code (·.lane)
  else
    let s := (fillWaiters s c slot).foldl (fun s (u, g, e, l, va) =>
      takeFault s u.key g.gid (peekWord s u e.pc) e.pc { code := C.XLATE, detail := l, estat := code, faddr := BitVec.ofNat 64 va }) s
    s.due (.departure c.id slot true)

/-- Whether an object's pages go on filling: it is admitting or resident, or a copy's pin still holds its departure up (R248, R251). -/
def Res.filling (r : Res) : Bool :=
  r.state == .admitting || r.state == .resident || (r.state == .departing && !r.forced && r.dstep == 1 && r.cpin != 0)

/-- Bytes that have come from home are written, and what they end is due. -/
def fetched (s : State) (c : Ctx) (slot : Nat) (bs : List Byte) : State :=
  let r := c.slotRes slot
  if !r.filling then s
  else if (sysRead s c (r.backva + r.filled) bs.length).isNone then fetchFail s c slot St.XLATE
  else
    let s := sysWriteBytes s c (r.backva + r.filled) bs
    let n := r.filled + bs.length
    let s := modRes s c.id slot fun r => { r with filled := n }
    let s := if r.state = .admitting && min 65536 r.extent ≤ n then s.due (.admissionResident c.id slot) else s
    let s := if r.state != .admitting && (n % 65536 = 0 || n = r.extent) then s.due (.fillWaitEnd c.id slot) else s
    if n < r.extent then s.due (.copyPiece (.fetch c.id slot)) else s

/-- The same, with the blocks that came with check values which do not match (R395). -/
def fetchedWith (s : State) (c : Ctx) (slot : Nat) (bs : List Byte) (bad : List Nat) : State :=
  let r := c.slotRes slot
  let at_ (i : Nat) : Option (Nat × Nat) := (sysPhys s c (r.backva + r.filled + i)).map fun p => (p.1, p.2.1)
  let t := fetched s c slot bs
  if bad.isEmpty then t else spoil t bad ((List.range bs.length).filterMap at_)

/-- Whether a piece of a transfer of the residency unit is on its way. -/
def onItsWay (s : State) (w : ReqFor) : Bool := s.outReqs.any fun r => r.what == w && !r.orphan

/-- Fetches the next piece of an object. -/
def fetchNext (s : State) (ctx slot : Nat) : State :=
  match s.ctx? ctx with
  | none => s
  | some c =>
    let r := c.slotRes slot
    let n := min pieceBytes (r.extent - r.filled)
    if !r.filling || n = 0 || r.kind = 2 || onItsWay s (.fetch ctx slot) then s
    else if r.remoteHome s then
      if !s.maySend c.fn r.homemod then s.due (.copyPiece (.fetch ctx slot))
      else
        sendReq s r.homemod { srcMod := s.ident, srcFn := c.fn, srcCtx := ctx, srcLid := 0, id := 0, attempt := 0, lowack := 0,
                              kind := .read, handle := BitVec.ofNat 64 r.home, off := r.filled, len := n, data := [] } (.fetch ctx slot)
    else match homePlace s c r r.filled n false with
      | .error code => fetchFail s c slot code
      | .ok (m, a) =>
        if s.spoilt m a n then fetchFail s c slot St.ECC else fetchedWith s c slot (s.rdBytes m a n) (badBlocks s (placesFrom m a n))

/-- The reply to a fetch from another module. -/
def fetchAnswered (s : State) (ctx slot code : Nat) (data : List Byte) (crcBad : List Nat) : State :=
  match s.ctx? ctx with
  | none => s
  | some c => if code != 0 then fetchFail s c slot code else fetchedWith s c slot data crcBad

/-- A write-back fails: the supervisor is told, and the directory entry stays owned (R251). -/
def backFail (s : State) (c : Ctx) (slot code off : Nat) : State :=
  let core := match s.units.find? fun u => u.ctx == c.id with | some u => u.core | none => 0
  let s := modRes s c.id slot fun r => { r with dstep := 4 }
  coreReport s core c.id (c.slotRes slot).key (statusWord code off)

/-- The offset and length of the next piece written back. -/
def Res.backPiece (r : Res) : Option (Nat × Nat) :=
  match r.dirtyPg[r.wb / 65536]? with
  | none => none
  | some pg => some (pg * 65536 + r.wb % 65536, min pieceBytes (r.extent - (pg * 65536 + r.wb % 65536)))

/-- A piece has been written back; a short page ends early. -/
def backDone (s : State) (ctx slot : Nat) : State :=
  (modRes s ctx slot fun r =>
    let wb := r.wb + pieceBytes
    let wb := match r.dirtyPg[wb / 65536]? with
      | some pg => if wb % 65536 != 0 && r.extent ≤ pg * 65536 + wb % 65536 then (wb / 65536 + 1) * 65536 else wb
      | none => wb
    { r with wb := wb }).due (.copyPiece (.writeBack ctx slot))

/-- Writes back the next piece of a departing object (R251). -/
def backNext (s : State) (ctx slot : Nat) : State :=
  match s.ctx? ctx with
  | none => s
  | some c =>
    let r := c.slotRes slot
    if r.state != .departing || r.dstep != 2 || onItsWay s (.writeBack ctx slot) then s
    else match r.backPiece with
      | none => modRes s ctx slot fun r => { r with dstep := 3 }
      | some (off, n) =>
        match sysPhys s c (r.backva + off) with
        | none => backFail s c slot St.XLATE off
        | some (m, a, _) =>
          if s.spoilt m a n then backFail s c slot St.ECC off
          else if (r.hsp != 0 || r.remoteHome s) && (List.range n).any (fun i => Sparse.get false s.badCrc (crcKey m (a + i))) then
            backFail s c slot St.CHECKVAL off
          else if r.remoteHome s then
            if !s.maySend c.fn r.homemod then s.due (.copyPiece (.writeBack ctx slot))
            else
              sendReq s r.homemod { srcMod := s.ident, srcFn := c.fn, srcCtx := ctx, srcLid := 0, id := 0, attempt := 0, lowack := 0,
                                    kind := .write, handle := BitVec.ofNat 64 r.home, off := off, len := n, data := s.rdBytes m a n }
                (.writeBack ctx slot)
          else match homePlace s c r off n true with
            | .error code => backFail s c slot code off
            | .ok (hm, ha) =>
              backDone (spoil (s.wrBytes hm ha (s.rdBytes m a n)) (badBlocks s (placesFrom m a n)) (placesFrom hm ha n)) ctx slot

/-- The reply to a piece written back to another module. -/
def backAnswered (s : State) (ctx slot code : Nat) : State :=
  match s.ctx? ctx with
  | none => s
  | some c => if code = 0 then backDone s ctx slot else backFail s c slot code ((c.slotRes slot).backPiece.getD (0, 0)).1

def execFillWaitEnd (ctx slot : Nat) (s : State) : Host.Outcome State Fault Refusal :=
  .next (wakeCtx s ctx fun w => match w with | .fill k _ _ => k == slot | _ => false)

/-! ## The admission port (R254, R362) -/

/-- The context of the serviced group of a core, or the supervisor's own. -/
def servicedCtx (s : State) (core : Nat) : Option Ctx :=
  match servicedSlot? s core with
  | some slot => (slotGroup? s core slot).bind fun x => s.ctx? x.1.ctx
  | none => (s.unit? (superKey core)).bind fun u => s.ctx? u.ctx

def execAdmissionPortGo (core : Nat) (s : State) : Host.Outcome State Fault Refusal :=
  if (s.core core).portBusy then .next s
  else match servicedCtx s core with
    | none => .next s
    | some c =>
      let n := getBytes (s.core core).port 0 16
      let s := s.modCore core fun k => { k with portBusy := true, port := putBytes (putBytes k.port 32 8 0) 40 8 0 }
      match slotKind false n with
      | .null => .next (portResult s core 0 0 0 0)
      | .loc _ | .bad => .next (portResult s core 0 C.NAMEFMT 0 0)
      | .name n =>
        let w : AdmWait := { u := superKey core, gid := 0, pc := BitVec.ofNat 64 (nameOff n), lane := 0, kind := nameKind n, gen := nameGen n,
                             res := 0, inc := 0, slot := 0, extent := 0, estat := 0, detail := 0 }
        match askName c n with
        | .fail code detail => .next (portResult s core 0 code 0 detail)
        | .have slot r => .next (portAnswer s core { w with res := 1, inc := r.inc, slot := slot, extent := r.extent })
        | .join => .next (joinAdmission s c.id (nameKey n) w)

end Sys2Proof.Machine
end

