-- ==== Sys2Proof/Machine/Commands.lean ====
section
/-! DEFINITION. The life of engine commands after issue: start, pieces, completion (R168 to R176, R180, R198, R280 to R291),
permits and the energy accounts (R406, R407), and the replies of the fabric (R389, R393). -/

namespace Sys2Proof.Machine

/-! ## Start (R168, R180, R182, R198) -/

/-- Whether a load stands behind a plswap of its plane in the matrix queue (R182). -/
def behindSwap (s : State) (core : Nat) (k : UKey) (agent plane : Nat) : Bool :=
  ((s.core core).mq.takeWhile (· != .load k agent)).contains (.swap plane)

/-- The ordered stream of a launch. -/
def Launch.ostream (l : Launch) (n : Nat) : OStream := Sparse.get .start l.streams n

/-- The contribution of a unit to a stream that has not ended. -/
def holder (s : State) (l : Launch) (stream idx : Nat) : Option (Unit × Nat × Cmd) :=
  (unitsOf s l).findSome? fun u =>
    if u.key.idx = idx then (u.cmds.find? fun m => m.2.stream == some stream && m.2.state != .done).map fun m => (u, m.1, m.2) else none

/-- Whether an index has nothing more to bring to a stream: its contribution has ended, or its unit has, before the stream's first
contribution or after it (R291). -/
def spentAt (s : State) (l : Launch) (stream idx : Nat) : Bool :=
  (holder s l stream idx).isNone && l.resume.all (fun v => v.idx != idx) && ((l.ostream stream).seen.contains idx || l.ended.contains idx)

/-- The lowest index that has still to be applied (R198). -/
def nextOpen (s : State) (l : Launch) (stream : Nat) : Nat :=
  let st := l.ostream stream
  let n := l.ended.length + st.seen.length + 1
  match (List.range n).find? fun i => !spentAt s l stream (st.next + i) with | some i => st.next + i | none => st.next + n

/-- Whether a contribution lies in the window of its stream (R198). -/
def inOrderWindow (s : State) (k : UKey) (n : Nat) : Bool :=
  match s.launch? k.fn k.lid with | some l => k.idx ≤ nextOpen s l n + 255 | none => true

/-! ## Copy engines (R283) -/

/-- The engines that a command may run on: those of its die, or those of the I/O die. -/
def Cmd.engineSet (m : Cmd) (core : Nat) : List Nat := if m.remote || m.stream.isSome then rangeFrom 32 8 else rangeFrom (4 * dieOf core) 4

def State.engineQ (s : State) (e : Nat) : List (UKey × Nat) := Sparse.get [] s.engines e

/-- Engines with room for a command. DEDUCED: an engine's queue holds 64 commands, so that each advances at least once in 64 pieces; a
command beyond them waits for its engine (R173, R283, log 70). -/
def engineRoom (s : State) (core : Nat) (m : Cmd) : List Nat := (m.engineSet core).filter fun e => (s.engineQ e).length < 64

/-- Queues a command on an engine that has room. -/
def queueOn (s : State) (core : Nat) (k : UKey) (agent : Nat) (m : Cmd) : State :=
  match engineRoom s core m with
  | [] => s
  | es =>
    let e := es.getD (Config.engineChoice s.tick % es.length) 0
    { s with engines := Sparse.set [] s.engines e (s.engineQ e ++ [(k, agent)]) }

/-- The engine of a command has moved a piece of it: its next turn is after the others'. -/
def nextTurn (s : State) (k : UKey) (agent : Nat) : State :=
  { s with engines := s.engines.map fun e => if e.2.contains (k, agent) then (e.1, e.2.filter (· != (k, agent)) ++ [(k, agent)]) else e }

/-- Whether a queued command may start. A contribution to an ordered stream is held by the sequencer, and queued on an engine when its turn
comes (R198, R291). -/
def startable (s : State) (u : Unit) (agent : Nat) (m : Cmd) : Bool :=
  m.state == .queued && (!u.vacating || swapBehind s u.core u.key agent) && u.wbDone m && !(m.resumed && !m.sent.isEmpty)
  && (match m.ins with | .mmq _ _ => true | i => isFactor i || m.stream.isSome || !(engineRoom s u.core m).isEmpty)
  && (match m.ins with
      | .mmq _ _ => true
      | .ldpl _ x => !behindSwap s u.core u.key agent (x.f 44 44)
      | .accld _ _ | .accst _ _ => u.depsDone agent m
      | i => if isFactor i then factorReady s u.core u.key agent
             else (!m.remote || !s.phasing) && (match m.stream with | some n => inOrderWindow s u.key n | none => true))

/-- The destination that a contribution names, in one form for every way to name it: an absolute place of the vaults, the ordinary address
that a pointer comes to, or a remote handle (R36, R38, R291). -/
def Cmd.target (s : State) (u : Unit) (m : Cmd) : Nat :=
  if m.remote then remHandle m.dv
  else if m.spaces.2 then
    let a := m.dv.toNat % 2 ^ 64
    (match u.ownOffset a with | some o => vaultKey (vaultNo u.core) (u.vault + o) | none => a)
  else walkedVa s u.ctx (m.dv.toNat % 2 ^ 64)

/-- The shape of a contribution: operation, type, destination, length, address and offset (R291). -/
def Cmd.contribution (s : State) (u : Unit) (m : Cmd) : OStream :=
  match m.ins with
  | .cred o x =>
    { used := true, op := o.fn, typ := o.imm % 4, dst := x.f 38 37, next := 0, len := m.total, addr := BitVec.ofNat 64 (m.target s u),
      off := BitVec.ofNat 64 (if m.remote then remOff m.dv else 0), seen := [] }
  | _ => .start

/-- Counts a contribution in its stream; one that differs or comes twice fails (R198, R291). -/
def contribute (s : State) (u : Unit) (agent : Nat) (m : Cmd) (n : Nat) : State :=
  let k := u.key
  match s.launch? k.fn k.lid with
  | none => s
  | some l =>
    let st := l.ostream n
    let c := m.contribution s u
    let put (st : OStream) : State :=
      (s.modLaunch l.fn l.lid fun l => { l with streams := Sparse.set .start l.streams n st }).modCmd k agent fun m => { m with counted := true }
    if !st.used then put { c with next := st.next, seen := [k.idx] }
    else if st.seen.contains k.idx then cmdEnd s k agent (statusWord St.BOUNDS 0)
    else
      let s := put { st with seen := st.seen ++ [k.idx] }
      if { c with next := st.next, seen := st.seen } = st then s else cmdEnd s k agent (statusWord St.BOUNDS 0)

def execEngineCommandStart (k : UKey) (agent : Nat) (s : State) : Host.Outcome State Fault Refusal :=
  match s.unit? k with
  | none => .next s
  | some u => match u.cmd? agent with
    | none => .next s
    | some m =>
      if !startable s u agent m then .next s
      else
        let s := s.modCmd k agent fun m => { m with state := .started }
        match m.ins with
        | .mmq _ _ => .next s
        | i =>
          let s := if isFactor i || m.stream.isSome then s else queueOn s u.core k agent m
          let s := if isFactor i || m.bigCopy then askPermit s k agent m.estimate else s.modCmd k agent fun m => { m with permit := true }
          .next (match m.stream with | some n => if m.counted then s else contribute s u agent m n | none => s)

/-! ## Pieces (R283) -/

/-- One piece of a local command. -/
def localPiece (s : State) (u : Unit) (agent : Nat) (m : Cmd) : Piece :=
  match m.ins with
  | .ldpl o x => pieceLdpl s u agent m o x
  | .accld o x => pieceAccld s u agent m o x
  | .accst o x => pieceAccst s u agent m o x
  | .cred o _ => pieceCred s u agent m o
  | _ => pieceCopy s u agent m

/-- The offset at which a command that fails at byte `i` reports it (R175, R286, R287). -/
def Cmd.failOff (m : Cmd) (i : Nat) : Nat :=
  let w := descWord m.bv
  match m.ins with
  | .cpyg _ _ => i / w 0 * w 0
  | .cpyt _ x => i / (w 1 * cpytEs x) * w 3
  | _ => i

/-- Detail of OK: copies say the bytes they moved (R175). -/
def Cmd.okDetail (m : Cmd) : Nat := match m.ins with | .ldpl _ _ | .accld _ _ | .accst _ _ | .ratom _ _ => 0 | _ => m.total

/-- What a piece has come to. One that finds a page still being fetched has not begun (R141, R248). -/
def pieceDone (s0 : State) (m : Cmd) (k : UKey) (agent : Nat) (p : Piece) : Host.Outcome State Fault Refusal :=
  let at' := m.prog + p.n
  match p.stop with
  | none =>
    let s := p.s.modCmd k agent fun m => { m with prog := at' }
    .next (if m.total ≤ at' then cmdEnd s k agent (statusWord St.OK m.okDetail) else s)
  | some .wait => .next s0
  | some (.fault f) => .fault f
  | some (.status code race) =>
    let off := if code = St.NOATOMIC then 0 else m.failOff at'
    .next (cmdEnd p.s k agent (EStop.word off (.status code race)))

/-- A fault that the local side of a remote command's next piece meets. -/
def remoteFault (s : State) (u : Unit) (agent : Nat) (m : Cmd) : Option Fault :=
  match m.fabKind with
  | .read | .atomic _ _ => none
  | _ => match (readLocal s u agent m m.prog (min pieceBytes (m.size - m.prog))).2.2 with | some (.fault f) => some f | _ => none

/-- A unit that leaves its core writes what a command of it holds back of its destination, for no record has a place for it; so a 4-byte unit
there is written in two parts (R173, R371). -/
def flushBack (s : State) (u : Unit) (agent : Nat) (m : Cmd) : Host.Outcome State Fault Refusal :=
  let (vault, base) := if m.remote then (m.spaces.1, m.av.toNat) else (m.spaces.2, m.dv.toNat)
  let r := engPutBytes s u agent vault base m.moved m.back
  match r.stop with
  | none => .next (r.s.modCmd u.key agent fun m => { m with back := [] })
  | some .wait => .next s
  | some (.fault f) => .fault f
  | some e =>
    let st := e.word (m.moved + r.n)
    .next (if m.remote then remoteEnd (r.s.modCmd u.key agent fun m => { m.failAt st with back := [] }) u.key agent else cmdEnd r.s u.key agent st)

/-- One piece of a command. -/
def cmdPiece (s : State) (u : Unit) (agent : Nat) (m : Cmd) : Host.Outcome State Fault Refusal :=
  if u.vacating && !m.back.isEmpty then flushBack s u agent m
  else if m.nextGot.isSome then .next (remoteEnd (takeGot u.key agent (m.got.length + 1) s) u.key agent)
  else if m.remote then
    match remoteFault s u agent m with
    | some f => .fault f
    | none => .next (pieceRemote s u agent m)
  else match m.ins with
    | .cpyz o x =>
      match (if o.fn = 0 then cpyzEncode s u agent m (x.f 36 36 == 1) else cpyzDecode s u agent m (x.f 36 36 == 1)) with
      | .word s st => .next (cmdEnd s u.key agent st)
      | .more s prog vec ahead back => .next (s.modCmd u.key agent fun m => { m with prog := prog, vec := vec, ahead := ahead, back := back })
      | .wait => .next s
      | .fault f => .fault f
    | _ => pieceDone s m u.key agent (localPiece s u agent m)

/-- Whether a remote command has something to send, or nothing more to wait for. -/
def remoteMovable (s : State) (u : Unit) (m : Cmd) : Bool :=
  let ended := statusCode m.status != 0 || (m.size ≤ m.prog && m.size != 0)
  if m.nextGot.isSome then true
  else if ended then m.sent.isEmpty
  else (m.size != 0 || m.sent.isEmpty) && !(m.resumed && !m.sent.isEmpty)
    && s.maySend u.key.fn (s.moduleOf (hModule (BitVec.ofNat 64 (remHandle m.dv))))

/-- Whether the sequencer has come to a contribution (R198). -/
def inTurn (s : State) (k : UKey) (m : Cmd) : Bool :=
  match m.stream, s.launch? k.fn k.lid with | some n, some l => (l.ostream n).next == k.idx | _, _ => true

/-- Whether an engine may move a piece of a command now: one whose unit leaves comes to the next boundary at which its record can say that it
stopped, and no further (R173). -/
def movable (s : State) (u : Unit) (agent : Nat) (m : Cmd) : Bool :=
  m.state == .started && m.permit && (!u.vacating || swapBehind s u.core u.key agent || !m.atPiece || !m.back.isEmpty || m.nextGot.isSome)
  && !isFactor m.ins && (match m.ins with | .mmq _ _ => false | _ => true)
  && (!m.remote || !m.back.isEmpty && u.vacating || remoteMovable s u m) && inTurn s u.key m

/-- Whether the next piece of an engine is a command's: it is the first in its queue that can move (R283). -/
def engineTurn (s : State) (k : UKey) (agent : Nat) : Bool :=
  let can (x : UKey × Nat) : Bool := match (s.unit? x.1).bind fun u => (u.cmd? x.2).map fun m => (u, m) with
    | some (u, m) => movable s u x.2 m
    | none => false
  s.engines.any fun e => (e.2.find? can) == some (k, agent)

/-- The engine of a command moves its next piece. -/
def enginePiece (s : State) (u : Unit) (agent : Nat) (m : Cmd) : Host.Outcome State Fault Refusal :=
  cmdPiece (nextTurn s u.key agent) u agent m

def execCopyPiece (r : CopyRef) (s : State) : Host.Outcome State Fault Refusal :=
  match r with
  | .fetch ctx slot => .next (fetchNext s ctx slot)
  | .writeBack ctx slot => .next (backNext s ctx slot)
  | .cmd k agent =>
    match s.unit? k with
    | none => .next s
    | some u => match u.cmd? agent with
      | none => .next s
      | some m => if movable s u agent m && m.stream.isNone && engineTurn s k agent then enginePiece s u agent m else .next s

/-! ## Completion (R280, R289) -/

/-- A command that ran under a permit it asked for is taken away before its end: what it has spent is settled (R407). -/
def settlePermit (s : State) (k : UKey) (core : Nat) (m : Cmd) : State :=
  if m.permit && m.asked != 0 && m.state != .queued then chargeEnd s k (dieOf core) m.estimate else s

/-- A tag learns of the end of its command. -/
def tagEnd (s : State) (k : UKey) (agent : Nat) : State :=
  match (s.unit? k).bind fun u => (u.cmd? agent).map fun m => (u, m) with
  | none => s
  | some (u, m) => match m.tag with
    | none => s
    | some t =>
      if m.state != .done then s
      else
        let s := chargeEnd s k (dieOf u.core) (if m.asked = 0 then 0 else m.estimate)
        let s := s.modUnit k fun u => u.tagReady t m.status
        let s := withRace s k fun r => r.release k (engineAgent agent) (keyTag t)
        dropCmd s k agent

def execCommandComplete (k : UKey) (agent : Nat) (s : State) : Host.Outcome State Fault Refusal := .next (tagEnd s k agent)

/-- A fill of a slot of a ring ends (R289). -/
def Stream.fillDone (q : Stream) (slot : Nat) (failed : Bool) : Stream :=
  let bit := BitVec.ofNat 64 (2 ^ ((slot + q.n - q.popi) % q.n))
  { q with filled := q.filled ||| bit, failed := if failed then q.failed ||| bit else q.failed }

/-- A stream slot learns of the end of its fill; the status of one that failed is written as an access of its agent (R290, R316, R321). -/
def slotEnd (s : State) (k : UKey) (agent : Nat) : State :=
  match (s.unit? k).bind fun u => (u.cmd? agent).map fun m => (u, m) with
  | none => s
  | some (u, m) => match m.fill with
    | none => s
    | some (q, slot) =>
      if m.state != .done then s
      else
        let failed := statusCode m.status != 0
        let s := chargeEnd s k (dieOf u.core) (if m.asked = 0 then 0 else m.estimate)
        let a := vaultKey (vaultNo u.core) (u.vault + (u.stream q).base + slot * (u.stream q).slotb * 64)
        let p : Place := { sp := 3, a := a, pte := none, va := 0 }
        let s := if failed && !cmdRefused s k agent p 8 { write := true } then
            cmdNote (s.wrN 3 a 8 m.status.toNat) k agent p 8 { write := true }
          else s
        let s := s.modUnit k fun u => u.setStream q ((u.stream q).fillDone slot failed)
        let s := withRace s k fun r => r.release k (engineAgent agent) (keyFill q slot)
        dropCmd s k agent

def execFillEnd (k : UKey) (agent : Nat) (s : State) : Host.Outcome State Fault Refusal := .next (slotEnd s k agent)

/-! ## Ordered reductions (R198, R291) -/

/-- Whether the sequencer passes an index over: its unit has ended, or its contribution has. -/
def passable (s : State) (l : Launch) (stream : Nat) : Bool :=
  let st := l.ostream stream
  st.used && st.next < l.n && spentAt s l stream st.next

/-- Whether a command has its place in the queue of an engine. -/
def onEngine (s : State) (k : UKey) (agent : Nat) : Bool := s.engines.any fun e => e.2.contains (k, agent)

/-- Whether the sequencer has something to do on a stream. -/
def sequencerReady (s : State) (l : Launch) (stream : Nat) : Bool :=
  passable s l stream
  || (match holder s l stream (l.ostream stream).next with
      | some (u, agent, m) =>
        movable s u agent m && (if onEngine s u.key agent then engineTurn s u.key agent else !(engineRoom s u.core m).isEmpty)
      | none => false)

def execOrderedReductionApply (fn lid stream : Nat) (s : State) : Host.Outcome State Fault Refusal :=
  match s.launch? fn lid with
  | none => .next s
  | some l =>
    let st := l.ostream stream
    match holder s l stream st.next with
    | some (u, agent, m) =>
      if !movable s u agent m then .next s
      else if !onEngine s u.key agent then .next (queueOn s u.core u.key agent m)
      else if engineTurn s u.key agent then enginePiece s u agent m else .next s
    | none =>
      if passable s l stream then
        .next (s.modLaunch fn lid fun l => { l with streams := Sparse.set .start l.streams stream { st with next := st.next + 1 } })
      else .next s

/-! ## Permits and energy (R171, R272, R406, R407) -/

/-- Adds cycles to PWAIT of a unit (R31). -/
def addWait (s : State) (k : UKey) : State :=
  let n := BitVec.ofNat 64 (Config.permitWait s.tick)
  let s := match s.unit? k with
    | some u => s.modDie (dieOf u.core) fun d => { d with pwait := d.pwait + n }
    | none => s
  s.modUnit k fun u => { u with pwait := u.pwait + n }

/-- The estimate of a pass (R407). -/
def Pass.estimate (p : Pass) : Nat := p.ops.length * quarterEstimate p.fmt

/-- The operations of the pass of a core that waits for its permit, with those that have joined it meanwhile (R267, R272). -/
def passOps (s : State) (core : Nat) (p : Pass) : List (UKey × Nat × Nat) := gather s true (s.core core).mq [] none false p.ops

/-- Whether a request at a die's governor may be granted from a reservation (R272). -/
def requestReserved (s : State) (r : UKey × Nat × Nat) : Bool :=
  if r.2.1 = 32 then match (s.core r.2.2).pass with | some p => opsReserved s (passOps s r.2.2 p) | none => true
  else match s.unit? r.1 with | some u => u.reserved | none => true

/-- The estimate of a request; an operation that joins a pass while it waits enlarges it (R267, R272). -/
def requestEstimate (s : State) (r : UKey × Nat × Nat) : Nat :=
  if r.2.1 = 32 then match (s.core r.2.2).pass with
    | some p => (passOps s r.2.2 p).length * quarterEstimate p.fmt
    | none => 0
  else match (s.unit? r.1).bind fun u => u.cmd? r.2.1 with | some m => m.estimate | none => 0

/-- Grants a request: its estimate is debited, and its units have waited for it. -/
def grant (s : State) (die : Nat) (r : UKey × Nat × Nat) : State :=
  let est := requestEstimate s r
  let s := s.modDie die fun d => { d with permits := d.permits.filter (· != r) }
  let s := debit s die est
  if r.2.1 = 32 then
    match (s.core r.2.2).pass with
    | none => s
    | some p =>
      let ops := passOps s r.2.2 p
      let s := s.modCore r.2.2 fun c => { c with pass := some { p with ops := ops, permit := true, shares := sharesOf ops } }
      let keys := ops.foldl (fun ks o => if ks.contains o.1 then ks else ks ++ [o.1]) []
      keys.foldl addWait (permitOps s ops)
  else addWait (begin s r.1 r.2.1) r.1

/-- The request that is granted next: one with a reservation, or the first when the account holds its estimate. -/
def nextGrant (s : State) (die : Nat) : Option (UKey × Nat × Nat) :=
  let d := s.die die
  match d.permits.find? (requestReserved s) with
  | some r => some r
  | none => match d.permits with
    | r :: _ => if (requestEstimate s r : Int) ≤ d.account then some r else none
    | [] => none

def execPermitGrant (die : Nat) (s : State) : Host.Outcome State Fault Refusal :=
  match nextGrant s die with
  | some r => .next (grant s die r)
  | none => .next s

/-- Whether a die runs a unit under COMPAT (R235). -/
def dieCompat (s : State) (die : Nat) : Bool :=
  s.units.any fun u => dieOf u.core == die && (match launchOf s u with | some l => l.compat | none => false)

/-- One interval: the share, and what COMPAT has saved, up to 1,000 intervals' credit (R406, R407). -/
def execEnergyIntervalCredit (die : Nat) (s : State) : Host.Outcome State Fault Refusal :=
  if !s.powered then .next s
  else
    let save := if dieCompat s die then Config.compatSaving s.tick else 0
    .next ((s.modDie die fun d => { d with account := s.credited d.account (s.intervalShare + save) }).due (.energyIntervalCredit die))

/-! ## Replies, resends and credit reports (R389, R393) -/

/-- What a request's answer does. -/
def answered (s : State) (q : OutReq) (r : FabReply) : State :=
  match q.what with
  | .cmd k agent off => pieceAnswered s k agent off r
  | .fetch ctx slot => fetchAnswered s ctx slot r.code r.data r.crcBad
  | .writeBack ctx slot => backAnswered s ctx slot r.code
  | .depart => s

/-- Whether a request's answer waits until its unit has been restored. -/
def answerWaits (s : State) (q : OutReq) : Bool := match q.what with | .cmd k _ _ => restoring s k | _ => false

/-- A reply that comes after its request has timed out is absorbed; the request has now had one (R392, R393). -/
def lateAnswer (s : State) (r : FabReply) : State :=
  { s with absorbed := s.absorbed + 1, unack := s.unack.filter (· != (r.fn, r.dst, r.id)) }

def execFabricReply (r : FabReply) (s : State) : Host.Outcome State Fault Refusal :=
  if s.moduleOf r.dest != s.ident then .next (leave s (.rep r))
  else match s.outReq? r.fn r.dst r.id with
  | none => .next (lateAnswer (freed s r.port true r.data.length) r)
  | some q =>
    if answerWaits s q then .next (s.due (.fabricReply r))
    else
    let s := dropReq (freed s r.port true r.data.length) r.fn r.dst r.id
    if q.orphan then .next { s with absorbed := s.absorbed + 1 } else .next (answered s q r)

def execResendTimeout (fn dst id : Nat) (s : State) : Host.Outcome State Fault Refusal :=
  match s.outReq? fn dst id with
  | none => .next s
  | some q =>
    if !q.sent || dst = s.ident then .next s
    else if answerWaits s q then .next (s.due (.resendTimeout fn dst id))
    else if 7 ≤ q.req.attempt then
      let s := dropReq s fn dst id
      let s := { s with unack := s.unack ++ [(fn, dst, id)] }
      if q.orphan then .next s else .next (answered s q { fn := fn, dst := dst, id := id, code := St.TIMEOUT, data := [] })
    else
      let q := { q with req := { q.req with attempt := q.req.attempt + 1, lowack := s.lowAck fn dst } }
      .next (transmit s q)

/-- Sends what waits for credit on a port. -/
def sendWaiting (s : State) (port : Nat) : State :=
  (s.outReqs.filter fun r => !r.sent && s.routePort r.dst == some port).foldl transmit (leaveAll s)

def execCreditReport (port chan : Nat) (s : State) : Host.Outcome State Fault Refusal :=
  .next (s.modPort port fun q => q.modChan (chan != 0) fun c => { c with reported := c.freed })

/-- A peer's report taken into a channel, unless it lies ahead of what was sent (R389). -/
def Chan.report (c : Chan) (sent freed : Nat) : Chan :=
  if 2 ^ 31 ≤ (c.sent + 2 ^ 32 - freed % 2 ^ 32) % 2 ^ 32 then c else { c with peerFreed := freed % 2 ^ 32, peerSent := sent % 2 ^ 32 }

def execCreditReportReceived (port chan sent freed : Nat) (s : State) : Host.Outcome State Fault Refusal :=
  .next (sendWaiting (s.modPort port fun q => q.modChan (chan != 0) fun c => c.report sent freed) port)

end Sys2Proof.Machine
end

