-- ==== Sys2Proof/Machine/Sync.lean ====
section
/-! DEFINITION. Barriers and signals (R177 to R181). -/

namespace Sys2Proof.Machine

/-- BO of a barrier instruction (R179). -/
def barNo (x : ModX) : Nat := x.f 44 41

/-- A 32-bit scalar source, or IMM where it is z (R179, R181, R204). -/
def Cx.scalarOrImm (c : Cx) (o : Opd) (imm : Nat) : Exc Nat := do
  let _ ← c.need o 1 [.i32]
  return if o = .z then imm else c.val o 1 c.l0

/-- A barrier object as bini leaves it (R179). -/
def Bar.init (b : Bar) (expect : Nat) (memb : Word) : Bar :=
  { b with expect := expect, memb := memb, count := 0, stat := 0, trapf := false, lstat := 0, ltrap := false }

def Unit.setBar (u : Unit) (bo : Nat) (b : Bar) : Unit := { u with bars := Sparse.set (Bar.start 0) u.bars bo b }

def execBini (o : Op) (x : ModX) (s : State) : Host.Outcome State Fault Refusal :=
  word s o fun c => do
    let n ← c.scalarOrImm o.a (o.imm % 65536)
    let _ ← c.need o.b 1 [.i32]
    let b := c.u.bar (barNo x)
    if n = 0 || 65535 < n || b.count != 0 then c.bounds
    return s.modUnit c.u.key fun u => u.setBar (barNo x) (b.init n (c.reg o.b 0 c.l0))

/-- A group records that it has arrived, with the phase as it stood before (R179). -/
def Group.arrived (g : Group) (bo ph : Nat) : Group :=
  { g with arrv := g.arrv ||| BitVec.ofNat 16 (2 ^ bo), tph := Sparse.set 0 g.tph bo ph }

/-- The arrival of a group with status OK (R178, R179). -/
def groupArrives (s : State) (c : Cx) (bo : Nat) : State :=
  let ph := (c.u.bar bo).ph
  arrive (s.modGrp c.u.key c.g.gid fun g => g.arrived bo ph) c.u.key bo c.g.gid 0 false

def execBarv (o : Op) (x : ModX) (s : State) : Host.Outcome State Fault Refusal :=
  word s o fun c => .ok (groupArrives c.s c (barNo x))

/-- What a barw meets before it waits (R179). -/
def Cx.barwStart (c : Cx) : Exc PUnit := do
  c.drain
  if c.g.gstat.getLsbD 16 && c.g.gstat.getLsbD 5 then stop { code := C.SATARM }

/-- A barw whose phase, the one it has waited past, has completed (R179). -/
def Cx.barwDone (c : Cx) (o : Op) (bo target : Nat) (s : State) : Exc State :=
  match s.unit? c.u.key with
  | none => .ok s
  | some u =>
    let b := u.bar bo
    let s := s.modGrp c.u.key c.g.gid fun g =>
      { g.write o.d 2 .i64 (fun _ => b.lstat.toNat) c.ex with arrv := g.arrv &&& ~~~BitVec.ofNat 16 (2 ^ bo) }
    let s := withRace s c.u.key fun r => r.acquire c.u.key c.g.gid (keyBar bo target)
    if b.ltrap then .error (.doneTrap s { code := C.LOSTDEF, estat := 0xE, detail := b.lstat.toNat % 2 ^ 48 }) else .ok s

/-- The wait of a barw, from its arrival on: over at once, or entered (R179). -/
def Cx.barwWait (c : Cx) (o : Op) (bo : Nat) (s : State) : Host.Outcome State Fault Refusal :=
  match (s.unit? c.u.key).bind fun u => (u.grp? c.g.gid).map fun g => (u, g) with
  | none => .next s
  | some (u, g) =>
    let target := if g.arrv.getLsbD bo then Sparse.get 0 g.tph bo else (u.bar bo).ph
    if (u.bar bo).ph != target then finish c (c.barwDone o bo target s) else .next (enterWait c s (.barw bo target))

def execBarw (o : Op) (x : ModX) (s : State) : Host.Outcome State Fault Refusal :=
  match view? s o.grd with
  | none => .next s
  | some c =>
    let bo := barNo x
    if c.ex = 0 then .next (advance c s)
    else match c.e.wait with
      | .barw _ target => if (c.u.bar bo).ph != target then finish c (c.barwDone o bo target s) else .next s
      | _ =>
        match c.barwStart with
        | .error e => finish c (.error e)
        | .ok _ =>
          if x.f 40 40 = 1 && !c.e.bwa then
            Cx.barwWait { c with e := { c.e with bwa := true } } o bo (groupArrives s c bo)
          else c.barwWait o bo s

/-- A signal object after a decrement (R181). -/
def signalDown (old amount : Nat) (fail : Bool) : Nat :=
  let n := old % 2 ^ 63
  let bad := n < amount || fail || old.testBit 63
  (if n < amount then 0 else n - amount) + (if bad then 2 ^ 63 else 0)

/-- The amount of a sigdec (R181). -/
def Cx.amount (c : Cx) (o : Op) (x : ModX) : Exc Nat := do
  if x.f 39 39 = 1 then
    let _ ← c.need o.b 2 [.i64]
    return c.val o.b 2 c.l0
  else c.scalarOrImm o.b o.imm

def execSigdec (o : Op) (x : ModX) (s : State) : Host.Outcome State Fault Refusal :=
  word s o fun c => do
    let att : Att := { write := true, strong := true, rel := true, rmw := true, scope := c.actScope (x.f 38 36) }
    c.drain
    let _ ← c.needBase o.a false
    let n ← c.amount o x
    let fl ← c.sysScope true (x.f 38 36)
    let sp ← c.check o.a false c.l0 0 8 8 att
    let ps ← c.placesPrecise [(c.l0, sp)] 8 true true
    match ps with
    | [] => return c.s
    | (l, p) :: _ =>
      if noAtomic p then stop (noAtomicTrap l p)
      let s := c.put (c.g.orFlags fl)
      let old := s.load c.u.core p.sp p.a 8
      let s := markDirty (s.store c.u.core p.sp p.a 8 (signalDown old n (x.f 40 40 == 1))) c.u.ctx p.va
      return c.noteAll s ps 8 att

end Sys2Proof.Machine
end

