-- ==== Sys2Proof/Machine/Ring.lean ====
section
/-! DEFINITION. Records of the K2 in a function's reply ring: replies and notices (R377 to R379). -/

namespace Sys2Proof.Machine

/-- One step of CRC-32C over a bit (R377, log 14). -/
def crcBit (c : Nat) : Nat := if c % 2 = 1 then c / 2 ^^^ 0x82F63B78 else c / 2

/-- CRC-32C of bytes (R377, R395, log 14). -/
def crc32c (bs : List Byte) : Nat :=
  (bs.foldl (fun c b =>
    let c := c ^^^ b.toNat
    crcBit (crcBit (crcBit (crcBit (crcBit (crcBit (crcBit (crcBit c)))))))) 0xFFFFFFFF) ^^^ 0xFFFFFFFF

/-- Operation codes of the K2's own records (R380). -/
def opCompletionError := 0x80
def opMcheck := 0x81
def opImageError := 0x82
def opResetNotice := 0x83
def opFrameErr := 0x84
def opAperFault := 0x85
def opAgent := 0x86

/-- Status codes of replies (R379). -/
def rOK := 0
def rREFUSED := 1
def rPRIV := 2
def rFRAMEERR := 3
def rSTALEHANDLE := 4
def rRESET := 5
def rBUSY := 6

/-- A frame: header, payload, zero padding and check value (R377). -/
def mkFrame (tag chan op : Nat) (payload : List Byte) : List Byte :=
  let payload := payload.take 4076
  let len := max 32 ((payload.length + 35) / 16 * 16)
  let head := bytesOfNat 16 (1 + len * 2 ^ 16 + op * 2 ^ 40 + chan * 2 ^ 48 + tag * 2 ^ 64)
  let body := head ++ payload ++ List.replicate (len - 20 - payload.length) 0
  body ++ bytesOfNat 4 (crc32c body)

/-- Writes bytes into a ring in host memory. -/
def ringWrite (s : State) (va size pos : Nat) : List Byte → State
  | [] => s
  | b :: bs => ringWrite (s.wr 2 (va + pos % size) b) va size (pos + 1) bs

/-- A record has been written: a withdrawal of a window counts the records down to its own reply, and takes effect with it (R381). -/
def Window.written (w : Nat × Window) : Option (Nat × Window) :=
  match w.2.left with
  | none => some w
  | some n => if n ≤ 1 then none else some (w.1, { w.2 with left := some (n - 1) })

/-- Writes the records that have room, in completion order (R379). -/
def ringPump (s : State) (fn : Nat) : Nat → State
  | 0 => s
  | n + 1 =>
    let f := s.func fn
    match f.replies with
    | [] => s
    | r :: rest =>
      if !f.opened || f.racked + f.ringSz < f.written + r.length then s
      else
        let s := ringWrite s f.ringVa f.ringSz f.written r
        ringPump (s.modFunc fn fun f => { f with replies := rest, written := f.written + r.length, windows := f.windows.filterMap Window.written }) fn n

/-- Sends a record: it waits for room where there is none (R379). -/
def sendRecord (s : State) (fn : Nat) (r : List Byte) : State :=
  let s := s.modFunc fn fun f => { f with replies := f.replies ++ [r] }
  ringPump s fn (s.func fn).replies.length

/-- A notice or a report of the K2 (R380, log 12). -/
def notice (s : State) (fn op : Nat) (fields : List Nat) : State := sendRecord s fn (mkFrame 0 0 op (Config.rpcBytes op fields))

/-- A reply: status, the offset of the refused field, CONSUMED, then the result (R379). -/
def reply (s : State) (r : Rpc) (code off : Nat) (result : List Byte := []) : State :=
  let op := natOfBytes ((r.frame.drop 5).take 1)
  sendRecord s r.fn (mkFrame r.tag r.chan op
    (bytesOfNat 8 (code + off % 65536 * 2 ^ 16) ++ bytesOfNat 8 ((s.func r.fn).consumed % 2 ^ 64) ++ result))

/-- A reply without a result. -/
def replyOk (s : State) (r : Rpc) : State := reply s r rOK 0

/-- A refused frame with the offset of its lowest field at fault. -/
def refuse (s : State) (r : Rpc) (off : Nat) : State := reply s r rREFUSED off

end Sys2Proof.Machine
end

