-- ==== Sys2Proof/Machine/Bench.lean ====
section
/-! DEFINITION. The bench: how launches and levels complete and are cancelled (R336 to R340), and where a unit finds
room (R18, R25, R220, R342, R343, R368). -/

namespace Sys2Proof.Machine

/-! ## Signals and levels (R336, R337) -/

/-- Whether a leaf lies in a device-exclusive range (R147). -/
def deviceOnly (s : State) (c : Ctx) (va : Nat) : Bool := match walk s c va with | .ok p => p.dx | .error _ => false

/-- One signal step: the decrement, a release at .sys of what its launch's units knew, or the report that it could not be made, as for a
context that is gone (R314, R337). -/
def signalStep (s : State) (fn ctx va lid : Nat) (failed : Bool) (know : Know) : State :=
  if va = 0 then s
  else match s.ctx? ctx with
    | none => notice s fn opCompletionError [lid, va, C.XLATE, 0]
    | some c =>
      match sysLand s c va 8 true with
      | .error t => notice s c.fn opCompletionError [lid, va, t.code, t.estat]
      | .ok (m, a) =>
        if s.spoilt m a 8 then notice s c.fn opCompletionError [lid, va, C.ECC, 0]
        else if m = 2 && !Config.hostAtomics && !deviceOnly s c va then notice s c.fn opCompletionError [lid, va, C.PERM, 8]
        else
          let e : Released := { key := { fn := fn, lid := lid, idx := 2 ^ 40 }, scope := 4, near := [], fence := false, know := know }
          let t := s.wrN m a 8 (signalDown (s.rdN m a 8) 1 failed)
          if s.tracks then setHeld t m a 8 (heldAt s m a 8 ++ [e]) else t

def State.level? (s : State) (fn kind id : Nat) : Option Level := s.levels.find? fun l => l.fn == fn && l.kind == kind && l.id == id

def State.modLevel (s : State) (fn kind id : Nat) (f : Level → Level) : State :=
  { s with levels := s.levels.map fun l => if l.fn == fn && l.kind == kind && l.id == id then f l else l }

/-- The lowest non-zero level of a launch, as kind and identifier (R336). -/
def Launch.lowest (l : Launch) : Nat × Nat :=
  if l.graph != 0 then (1, l.graph) else if l.phase != 0 then (2, l.phase) else (3, l.job)

/-- A member of a level has completed: the counter falls, and at zero the level completes and is closed (R337). -/
def levelDown (s : State) (fn : Nat) (failed : Bool) : Nat → Nat → Nat → State
  | 0, _, _ => s
  | n + 1, kind, id =>
    match s.level? fn kind id with
    | none => s
    | some p =>
      let p := { p with failed := p.failed || failed, counter := p.counter - 1 }
      if p.counter != 0 then s.modLevel fn kind id fun _ => p
      else
        let s := signalStep s p.fn p.ctx p.signal id p.failed []
        let s := { s with levels := s.levels.filter fun l => !(l.fn == fn && l.kind == kind && l.id == id) }
        levelDown s fn p.failed n (kind + 1) p.parent

/-- A level whose counter is zero already completes (R338). -/
def levelClose (s : State) (l : Level) : State :=
  match s.level? l.fn l.kind l.id with
  | some p =>
    if p.counter = 0 then levelDown (s.modLevel p.fn p.kind p.id fun p => { p with counter := 1 }) p.fn p.failed 3 p.kind p.id else s
  | none => s

/-! ## The end of a launch (R337 to R339) -/

/-- Whether a launch is still in the bench. -/
def Launch.live (l : Launch) : Bool := match l.state with | .pending | .ready | .active => true | _ => false

/-- Forgets a launch that has ended and has no unit left on a core: now its signal, and then its level, learn of its end (R337, R338). -/
def forgetLaunch (s : State) (fn lid : Nat) : State :=
  match s.launch? fn lid with
  | none => s
  | some l => if l.live || !(unitsOf s l).isEmpty then s
    else
      let s := { s with launches := s.launches.filter fun x => !(x.fn == fn && x.lid == lid) }
      if !l.owes then s
      else levelDown (signalStep s fn l.ctx l.signal lid l.failed l.know) fn l.failed 3 l.lowest.1 l.lowest.2

/-- Whether a command is one that a cancel ends with CANCELLED; matrix and factor commands are abandoned (R173). -/
def cancelEnds : Instr → Bool
  | .mmq _ _ => false
  | i => !isFactor i

def Cmd.copies (m : Cmd) : Bool := cancelEnds m.ins

/-- Requests of a unit's commands lose their command: those not sent yet are dropped, and replies that arrive later are absorbed (R393). -/
def orphan (s : State) (p : OutReq → Bool) : State :=
  { s with outReqs := s.outReqs.filterMap fun r => if !p r then some r else if r.sent then some { r with orphan := true } else none }

def OutReq.ofUnit (k : UKey) (r : OutReq) : Bool := match r.what with | .cmd u _ _ => u == k | _ => false

/-- Cancel and the watchdog end the copy-class commands of a vacated unit in their saved records (R234, R282, R371). -/
def cancelSaved (s : State) (l : Launch) (v : Vac) : State :=
  match s.ctx? l.ctx with
  | none => s
  | some c =>
    let s := orphan s (OutReq.ofUnit { fn := l.fn, lid := l.lid, idx := v.idx })
    (List.range 32).foldl (fun s n =>
      let a := c.arena + v.save + l.imgCmds + 1024 * n
      let rd (off k : Nat) : Nat := (sysRead s c (a + off) k).getD 0
      match decode (16 * l.vblk) l.det (rd 0 12) with
      | .ok i =>
        if (rd 12 1 = 1 || rd 12 1 = 2) && cancelEnds i then
          sysWrite (sysWrite (sysWrite s c (a + 88) 8 (statusWord St.CANCELLED (rd 24 8)).toNat) c (a + 15) 1 0) c (a + 12) 1 3
        else s
      | .error _ => s) s

/-- A launch completes or becomes cancelled: its history at once; its signal step and its level when no unit of it runs any more, so that
every access of its units comes before the decrement (R314, R337 to R339). -/
def finishLaunch (s : State) (l : Launch) (st : LState) (failed : Bool) : State :=
  let s := if st = .cancelled then l.resume.foldl (fun s v => cancelSaved s l v) s else s
  let know := l.resume.foldl (fun k v => match v.unit with | some u => joinKnow k (u.race.all u.key) | none => k) l.know
  let s := s.modLaunch l.fn l.lid fun l =>
    { l with state := st, failed := failed, bound := false, ranges := [], resume := [], wake := [], early := [], taken := [], owes := true,
             know := know }
  let s := { s with front := s.front.filter fun x => !(x.1 == l.fn && x.2.1 == l.lid) }
  forgetLaunch (s.modFunc l.fn fun f => { f with history := ((l.lid, failed) :: f.history).take 4096 }) l.fn l.lid

/-! ## Cancel (R173, R338) -/

/-- The commands of a unit whose launch ends: a copy reports the bytes that have been moved for certain (R173, R175, R176). -/
def cancelCmds (s : State) (k : UKey) : State :=
  match s.unit? k with
  | none => s
  | some u =>
    let s := orphan s (OutReq.ofUnit k)
    u.cmds.foldl (fun s m =>
      if !m.2.copies then dropCmd (if isFactor m.2.ins then settlePermit s k u.core m.2 else s) k m.1
      else if m.2.state = .done then s
      else cmdEnd (s.modCmd k m.1 fun m => { m with sent := [] }) k m.1 (statusWord St.CANCELLED m.2.moved)) s

/-! ## Predecessors (R339, R340) -/

/-- Whether a predecessor still runs, has failed, or is done. -/
def predState (s : State) (fn p : Nat) : Option Bool :=
  if p = 0 then some true
  else match s.launch? fn p with
    | some l => if l.live then none else some (!l.failed)
    | none => match (s.func fn).history.find? (·.1 == p) with | some h => some (!h.2) | none => some true

/-- Pending launches whose predecessors have completed become ready or are cancelled (R339). -/
def readyUp (s : State) : Nat → State
  | 0 => s
  | n + 1 =>
    match s.launches.find? fun l => l.state == .pending && !l.held && ((predState s l.fn l.pred0 == some false)
        || (predState s l.fn l.pred1 == some false) || ((predState s l.fn l.pred0).isSome && (predState s l.fn l.pred1).isSome)) with
    | none => s
    | some l =>
      if predState s l.fn l.pred0 = some false || predState s l.fn l.pred1 = some false then readyUp (finishLaunch s l .cancelled true) n
      else readyUp (s.modLaunch l.fn l.lid fun l => { l with state := .ready, readyAt := s.tick }) n

/-! ## Room (R18, R25, R343, R368) -/

def userUnits (s : State) (core : Nat) : List Unit := s.units.filter fun u => u.core == core && !isSuper u.key

/-- Occupied slots of a core, slot 63 among them (R220). -/
def usedSlots (s : State) (core : Nat) : List Nat := 63 :: (userUnits s core).flatMap fun u => (u.grps.filter (·.live)).map (·.slot)

/-- Register blocks taken on a core. DESIGN CHOICE: the supervisor group's vector registers come from outside the 256 blocks that R18 bounds
units' grants by, as the rule names no grant for it (log 15). -/
def usedBlocks (s : State) (core : Nat) : Nat :=
  ((userUnits s core).map fun u => ((u.grps.filter (·.live)).map fun g => g.grant / 16).sum).sum

/-- The lowest start at which a size fits among held runs: 0, or where a run ends. -/
def lowestFit (held : List (Nat × Nat)) (size limit : Nat) : Option Nat :=
  let fits (o : Nat) : Bool := o + size ≤ limit && held.all fun h => o + size ≤ h.1 || h.1 + h.2 ≤ o
  (0 :: held.map fun h => h.1 + h.2).foldl (fun b o => if fits o && (match b with | some x => o < x | none => true) then some o else b) none

/-- The place of B + C bytes in a core's vault (R343). -/
def vaultFit (s : State) (core size : Nat) : Option Nat :=
  lowestFit ((userUnits s core).map fun u => (u.vault, u.vsize + u.offcut)) size (3 * 2 ^ 20)

/-- Save slots held in a context's arena (R368). -/
def heldSaves (s : State) (ctx : Nat) : List (Nat × Nat) :=
  (s.units.filterMap fun u =>
    if u.ctx = ctx && !isSuper u.key then some (u.save, match launchOf s u with | some l => l.image | none => 0) else none)
  ++ (s.launches.filter fun l => l.ctx == ctx).flatMap fun l => l.resume.map (fun v => (v.save, v.size)) ++ l.record.toList

/-- The save slot a new unit takes (R368). -/
def saveFit (s : State) (l : Launch) : Option Nat :=
  match s.ctx? l.ctx with | some c => lowestFit (heldSaves s l.ctx) l.image c.arenaN | none => none

/-- Whether a core's planes are free or held by a launch (R25). -/
def planesOk (s : State) (core : Nat) (l : Launch) : Bool :=
  l.a = 0 || (match (s.core core).holder with | none => true | some h => h == (l.fn, l.lid))

/-- Room for `n` groups of a launch's unit on a core, its save slot apart (R343). -/
def hasRoom (s : State) (core : Nat) (l : Launch) (n : Nat) : Bool :=
  (usedSlots s core).length + n ≤ 64 && usedBlocks s core + n * l.vblk ≤ 256 && (vaultFit s core (l.b + l.c)).isSome
  && ((userUnits s core).map (·.aslots)).sum + l.a ≤ 128 && planesOk s core l

/-- The slot of a group placed next: in the drawer with the fewest occupied slots, the lowest free one (R220). -/
def nextSlot (used : List Nat) : Option Nat :=
  let n (d : Nat) : Nat := (used.filter fun x => x / 16 == d).length
  let d := [1, 2, 3].foldl (fun b d => if n d < n b then d else b) 0
  lowestFrom (fun x => !used.contains x) 16 (16 * d)

/-- Slots of `n` groups in order. -/
def nextSlots (used : List Nat) : Nat → List Nat
  | 0 => []
  | n + 1 => match nextSlot used with | some x => x :: nextSlots (x :: used) n | none => []

/-! ## Tickets (R342, R309) -/

/-- Fresh indices of a range. -/
def Launch.inRange (l : Launch) (r : Nat × Nat) : Nat := r.2 - r.1 - (l.early.filter fun i => r.1 ≤ i && i < r.2).length

/-- Whether a launch has a fresh ticket (R342). -/
def Launch.fresh (l : Launch) : Bool :=
  match l.state with | .ready => true | .active => l.ranges.any fun r => l.inRange r != 0 | _ => false

/-- The first index from `i` on, upward or downward, that no wake has taken early. -/
def skipEarly (early : List Nat) (down : Bool) : Nat → Nat → Nat
  | 0, i => i
  | n + 1, i => if early.contains i then skipEarly early down n (if down then i - 1 else i + 1) else i

/-- Takes index `i` out of a launch's fresh tickets, with the range of a die as it becomes. -/
def Launch.took (l : Launch) (d : Nat) (r : Nat × Nat) (i : Nat) : Nat × Launch :=
  (i, { l with ranges := l.ranges.zipIdx.map (fun (q, j) => if j = d then r else q), wake := l.wake.filter (· != i),
               early := l.early.filter fun e => l.ranges.zipIdx.any fun (q, j) => let q := if j = d then r else q; q.1 ≤ e && e < q.2 })

/-- The ticket a core of a die takes (R342). -/
def Launch.ticket (l : Launch) (die : Nat) : Option (Nat × Launch) :=
  match l.wake with
  | i :: ws => some (i, { l with wake := ws, early := l.early ++ [i] })
  | [] =>
    let own := l.ranges.getD die (0, 0)
    if l.inRange own != 0 then
      let i := skipEarly l.early false l.early.length own.1
      some (l.took die (i + 1, own.2) i)
    else
      let d := (List.range 8).foldl (fun b d => if l.inRange (l.ranges.getD b (0, 0)) < l.inRange (l.ranges.getD d (0, 0)) then d else b) 0
      let r := l.ranges.getD d (0, 0)
      if l.inRange r = 0 then none
      else
        let i := skipEarly l.early true l.early.length (r.2 - 1)
        some (l.took d (r.1, i) i)

/-! ## Tenancy (R347, R348) -/

/-- Whether an entry takes part (R347). -/
def Quantum.ok (s : State) (q : Quantum) : Bool := q.valid && 1 ≤ q.weight && 50 ≤ q.quant && (s.func q.fn).enabled

/-- The tenant; a table without a valid entry gives the device to the physical function (R347). -/
def State.owner (s : State) : Option Nat := if s.quanta.any (Quantum.ok s) then s.tenant else some 0

/-- Whether a function has work (R348). -/
def hasWork (s : State) (fn : Nat) : Bool :=
  s.units.any (fun u => u.key.fn == fn) || s.launches.any fun l => l.fn == fn && (l.fresh || !l.resume.isEmpty)

/-! ## Serving a core (R341, R343, R344) -/

/-- Whether a launch has work that could be placed. -/
def Launch.placeable (l : Launch) : Bool := !l.held && (l.fresh || !l.resume.isEmpty)

/-- Launches in pool order (R341). -/
def poolOrder (ls : List Launch) : List Launch :=
  let above (a b : Launch) : Bool := b.cls < a.cls || (a.cls == b.cls && a.readyAt ≤ b.readyAt)
  ls.foldr (fun l acc => put above l acc) []
where
  put (r : Launch → Launch → Bool) (l : Launch) : List Launch → List Launch
    | [] => [l]
    | x :: xs => if r l x then l :: x :: xs else x :: put r l xs

/-- Whether a core is served to a launch: not fenced, and not reserved to a higher class (R344, R404). -/
def mayServe (s : State) (core : Nat) (l : Launch) : Bool :=
  !(s.die (dieOf core)).fence.getLsbD (core % 64)
  && s.launches.all fun x => !(x.fn == l.fn && x.taken.contains core && x.placeable) || x.cls ≤ l.cls

/-- What a core is served. -/
inductive Serve
  | restore (fn lid : Nat) (v : Vac)
  | fresh (fn lid : Nat)
  deriving DecidableEq, Repr

/-- What a core is served from one launch (R343): no fresh ticket while a vacated unit waits, which needs at least the room of a fresh one. -/
def serveFrom (s : State) (core : Nat) (l : Launch) : Option Serve :=
  if !mayServe s core l then none
  else
    let back := match l.resume with
      | v :: _ => if hasRoom s core l (max l.g (v.count l.g)) then some (Serve.restore l.fn l.lid v) else none
      | [] => none
    match back with
    | some x => some x
    | none => if l.resume.isEmpty && l.fresh && hasRoom s core l l.g && (saveFit s l).isSome then some (.fresh l.fn l.lid) else none

/-- Woken units of a class, before its launches (R309). -/
def serveFront (s : State) (core fn cls : Nat) : Option Serve :=
  s.front.findSome? fun x =>
    match s.launch? x.1 x.2.1 with
    | none => none
    | some l =>
      if x.1 != fn || l.cls != cls || l.held || !mayServe s core l then none
      else match l.resume.find? fun v => v.idx == x.2.2 with
        | some v => if hasRoom s core l (max l.g (v.count l.g)) then some (.restore l.fn l.lid v) else none
        | none => none

/-- What a core is served (R343); nothing while units of another tenant are on cores (R349). -/
def serve (s : State) (core : Nat) : Option Serve :=
  match s.owner with
  | none => none
  | some fn =>
    if s.units.any fun u => !isSuper u.key && u.key.fn != fn then none
    else
      let ls := s.launches.filter fun l => l.fn == fn && l.placeable
      let pool := poolOrder ls
      [7, 6, 5, 4, 3, 2, 1, 0].findSome? fun cls =>
        match serveFront s core fn cls with
        | some x => some x
        | none => (pool.filter (·.cls == cls)).findSome? (serveFrom s core)

/-! ## The joiner (R230) -/

/-- What records of one group share. -/
def OffRec.key (r : OffRec) : DWord × Nat × Nat × List Tag := (r.pc, r.prio, r.n, r.tags)

/-- Whether a key is ready: 32 records, an old one, or no live group. -/
def keyReady (s : State) (u : Unit) (key : DWord × Nat × Nat × List Tag) : Bool :=
  let rs := u.off.filter fun r => r.key == key
  32 ≤ rs.length || u.grps.all (fun g => !g.live)
  || (match rs with | r :: _ => 2048 ≤ (s.clk u.core + 2 ^ 64 - r.age) % 2 ^ 64 | [] => false)

/-- The gid a joined group takes. -/
def joinGid (l : Launch) (u : Unit) : Option Nat :=
  lowestFrom (fun n => n != l.producer && n != l.handler && u.grps.all fun g => !(g.live && g.gid == n)) 32 0

/-- The key the joiner builds next, with gid and slot. -/
def buildable (s : State) (u : Unit) : Option ((DWord × Nat × Nat × List Tag) × Nat × Nat) :=
  match launchOf s u with
  | none => none
  | some l =>
    if u.vacating || u.halted || (s.die (dieOf u.core)).fence.getLsbD (u.core % 64) || 256 < usedBlocks s u.core + l.vblk then none
    else match u.off.find? fun r => keyReady s u r.key with
      | none => none
      | some r => match joinGid l u, nextSlot (usedSlots s u.core) with
        | some g, some x => some (r.key, g, x)
        | _, _ => none

/-- Inserts a record by its thread. -/
def insertTid (r : OffRec) : List OffRec → List OffRec
  | [] => [r]
  | x :: xs => if r.tid ≤ x.tid then r :: x :: xs else x :: insertTid r xs

/-- The first sixteen scalar registers hold the argument words (R19). -/
def preload (l : Launch) : Sparse Word := l.pre.zipIdx.foldl (fun t (w, i) => Sparse.set 0 t i w) []

/-- The lane a record becomes. -/
def Group.joinLane (g : Group) (r : OffRec) (lane : Nat) : Group :=
  let g := r.vals.zipIdx.foldl (fun g (w, k) => g.setV k lane w) g
  let g := (List.range 7).foldl (fun g k =>
    if r.preds.testBit k then { g with p := Sparse.set 0 g.p k (Sparse.get 0 g.p k ||| BitVec.ofNat 32 (2 ^ lane)) } else g) g
  { g with tid := Sparse.set 0 g.tid lane r.tid }

/-- A group of the joiner (R230). -/
def joinGroup (l : Launch) (gid slot : Nat) (rs : List OffRec) : Group :=
  let g := { Group.start gid slot (16 * l.vblk) with s := preload l }
  let g := rs.zipIdx.foldl (fun g (r, i) => g.joinLane r i) g
  match rs with
  | [] => g
  | r :: _ =>
    let g := r.tags.zipIdx.foldl (fun g (t, k) => g.setVtag k t) g
    { g with ents := [.new r.pc r.prio (BitVec.ofNat 32 (2 ^ rs.length - 1))] }

def execJoinerBuild (k : UKey) (s : State) : Host.Outcome State Fault Refusal :=
  match s.unit? k with
  | none => .next s
  | some u => match buildable s u, launchOf s u with
    | some (key, gid, slot), some l =>
      let rs := (u.off.filter fun r => r.key == key).take 32
      let s := s.modUnit k fun u =>
        { u with grps := u.grps ++ [joinGroup l gid slot (rs.foldr insertTid [])], off := u.off.filter fun r => !rs.contains r }
      .next (withRace s k fun r => rs.foldl (fun r x => r.learn k gid x.clock) r)
    | _, _ => .next s

/-! ## A group and a unit end (R132, R178) -/

/-- Ends a group: it leaves its barriers, its slot and what it waits for (R132, R178). -/
def endGroup (s : State) (k : UKey) (gid : Nat) : State :=
  match s.unit? k with
  | none => s
  | some u => match u.grp? gid with
    | none => s
    | some g =>
      let s := (List.range 16).foldl (fun s bo =>
        match s.unit? k with
        | none => s
        | some u =>
          let b := u.bar bo
          let b' := b.leave gid (g.arrv.getLsbD bo && Sparse.get 0 g.tph bo == b.ph)
          let s := s.modUnit k fun u => u.setBar bo b'
          if b'.ph = b.ph then s else withRace s k fun r => r.phase bo b'.ph) s
      let s := dropGroupWaits s u.ctx k gid
      s.modUnit k fun u => { u with grps := u.grps.filter fun g => !(g.live && g.gid == gid) }

def execGroupEnd (k : UKey) (gid : Nat) (s : State) : Host.Outcome State Fault Refusal :=
  match (s.unit? k).bind fun u => (u.grp? gid).map fun g => (u, g) with
  | none => .next s
  | some (u, g) =>
    let owed := u.cmds.any fun m => m.2.gid == gid && !m.2.vregs.isEmpty
    .next (if g.ents.isEmpty && !owed then endGroup s k gid else s)

/-- Withdraws the mailbox entries and waiting posts of slots of a core (R359, R366). -/
def withdrawMail (s : State) (core : Nat) (slots : List Nat) : State :=
  let c := s.core core
  let mine := c.morder.filter fun i => mailKind c i != 3 && slots.contains (mailSlot c i)
  let c := mine.foldl mailClear c
  mailPump (s.setCore core { c with mwait := c.mwait.filter (fun x => !slots.contains x), hold := c.hold.filter fun x => !slots.contains x }) core

/-- The planes of a core become free where no unit of their holder is left there; whoever takes them finds zeros (R25). -/
def freePlanes (s : State) (core : Nat) : State :=
  let c := s.core core
  match c.holder with
  | none => s
  | some h =>
    if (userUnits s core).any fun u => (u.key.fn, u.key.lid) == h then s
    else s.setCore core { c with holder := none, plane := [], planet := [], planeq := [], prevPl := none }

/-- Takes a unit off its core; its launch knows what it did (R314). -/
def removeUnit (s : State) (u : Unit) : State :=
  let s := if s.tracks then s.modLaunch u.key.fn u.key.lid fun l => { l with know := joinKnow l.know (u.race.all u.key) } else s
  let s := u.cmds.foldl (fun s m => dropCmd (settlePermit s u.key u.core m.2) u.key m.1) s
  let s := orphan s (OutReq.ofUnit u.key)
  let s := (u.grps.filter (·.live)).foldl (fun s g => dropGroupWaits s u.ctx u.key g.gid) (dropGroupWaits s u.ctx u.key restoreGid)
  let s := withdrawMail s u.core ((u.grps.filter (·.live)).map (·.slot))
  let s := endOwnership s u.key
  let s := { s with units := s.units.filter fun x => x.key != u.key }
  freePlanes s u.core

/-- A unit of a launch has ended: the counter falls, and at zero the launch completes (R337). -/
def countEnd (s : State) (k : UKey) (failed : Bool) : State :=
  match s.launch? k.fn k.lid with
  | none => s
  | some l =>
    if l.state != .active then forgetLaunch s k.fn k.lid
    else
      let l := { l with counter := l.counter - 1, failed := l.failed || failed, ended := l.ended ++ [k.idx] }
      let s := s.modLaunch k.fn k.lid fun _ => l
      if l.counter = 0 then finishLaunch s l .completed l.failed else s

/-- Whether a unit whose launch ends has come to a stop. -/
def Unit.stopped (u : Unit) : Bool := u.ending.isSome && u.grps.all fun g => !g.live || g.run == .stopped

/-- Whether a unit has ended: no group, no command, no record (R132, R230). -/
def unitDone (u : Unit) : Bool := u.grps.all (fun g => !g.live) && u.cmds.isEmpty && u.off.isEmpty

def execUnitEnd (k : UKey) (s : State) : Host.Outcome State Fault Refusal :=
  match s.unit? k with
  | none => .next s
  | some u =>
    if isSuper k || u.vacating || !(unitDone u || u.stopped) then .next s
    else
      .next (retireHistory (countEnd (removeUnit s u) k u.failed) u.ctx)

/-- Ends every group of a unit, which ends as failed (R337, R359): threads cut off end with it (log 36). -/
def failUnit (s : State) (k : UKey) : State :=
  match s.unit? k with
  | none => s
  | some u =>
    let s := withdrawMail s u.core ((u.grps.filter (·.live)).map (·.slot))
    let s := (u.grps.filter (·.live)).foldl (fun s g => endGroup s k g.gid) s
    s.modUnit k fun u => { u with failed := true, halted := false, off := [] }

/-! ## A unit starts (R19, R23, R220, R343) -/

/-- The group of a gid at the start of a unit. -/
def startGroup (l : Launch) (gid slot : Nat) : Group :=
  { Group.start gid slot (16 * l.vblk) with
    s := preload l, ents := [.new (BitVec.ofNat 64 l.entry) 128 (BitVec.allOnes 32)],
    tid := (List.range 32).foldl (fun t i => Sparse.set 0 t i (BitVec.ofNat 32 (32 * gid + i))) [] }

/-- Clears a vault range of what it held (R23). -/
def clearVault (s : State) (lo hi : Nat) : State :=
  { s with vaults := Sparse.clear s.vaults lo hi, marks := Sparse.clear s.marks (markKey 3 lo) (markKey 3 hi),
           badCrc := Sparse.clear s.badCrc (crcKey 3 lo) (crcKey 3 hi), relMem := Sparse.clear s.relMem (markKey 3 lo) (markKey 3 hi) }

/-- A unit as placement makes it, without groups. -/
def newUnit (l : Launch) (idx core vault save : Nat) : Unit :=
  { key := { fn := l.fn, lid := l.lid, idx := idx }, ctx := l.ctx, core := core, vault := vault, vsize := l.b, offcut := l.c,
    save := save, grps := [], acc := [], acct := [], accr := [], aslots := l.a,
    bars := (List.range 16).map fun n => (n, Bar.start l.g), ready := 0, pend := 0, tstat := [], sq := [], sfq := [], off := [],
    cmds := [], energy := 0, pwait := 0, hvy := 0, uimask := if l.bound then l.mask else 0, ui := .start, race := .start,
    halted := false, vacating := false, failed := false, unrestored := false, ending := none }

/-- A launch takes a core's planes where it needs them (R25). -/
def takePlanes (s : State) (core : Nat) (l : Launch) : State :=
  if l.a = 0 then s else s.modCore core fun c => { c with holder := some (l.fn, l.lid) }

/-- Starts the unit of a fresh ticket on a core. -/
def startUnit (s : State) (core : Nat) (l : Launch) (idx : Nat) : State :=
  match vaultFit s core (l.b + l.c), saveFit s l with
  | some v, some sv =>
    let slots := nextSlots (usedSlots s core) l.g
    let lo := vaultKey (vaultNo core) v
    let s := clearVault s lo (lo + l.b + l.c)
    let s := s.wrBytes 3 lo (((s.sections.find? fun x => x.1 == (l.ctx, l.entry)).map (·.2.take l.b)).getD [])
    let u := { newUnit l idx core v sv with grps := slots.zipIdx.map fun (x, gid) => startGroup l gid x }
    flushBlock (takePlanes { s with units := s.units ++ [u] } core l) l
  | _, _ => s

/-- The group of a unit that is known from its image alone, before its block is read. -/
def adoptedGroup (l : Launch) (gid : Nat) : Group := { startGroup l gid 0 with s := [], ents := [], liven := 16 * l.vblk }

/-- The planes of an image, where they are free when its unit is placed (R25). -/
def loadPlanes (s : State) (rd : Rd) (l : Launch) (core : Nat) : State :=
  let tags := Sparse.setList .raw [] 0 ((List.range 4).map fun i => (tagOf (rd (l.imgPlanes + 262144 + i) 1)).getD .raw)
  s.modCore core fun c => { c with plane := rd.words l.imgPlanes (4 * planeWords), planet := tags, planeq := tags }

/-- Places a vacated unit on a core, with its planes where they are free; UNIT_RESTORE brings its state back before it issues (R25,
R346). -/
def placeVacated (s : State) (core : Nat) (l : Launch) (v : Vac) : State :=
  match vaultFit s core (l.b + l.c) with
  | none => s
  | some a =>
    let rd : Rd := match s.ctx? l.ctx with | some c => imageRd s c v.save | none => fun _ _ => 0
    let old := v.unit.getD { newUnit l v.idx core a v.save with grps := (List.range l.g).map fun n => adoptedGroup l (rd.gidOf l.g n) }
    let live := old.grps.filter (·.live)
    let gs := (live.zip (nextSlots (usedSlots s core) live.length)).map fun (g, x) => { g with slot := x }
    let lo := vaultKey (vaultNo core) a
    let s := clearVault s lo (lo + l.b + l.c)
    let cmds := old.cmds.map fun m => (m.1, { m.2 with pins := [] })
    let free := (s.core core).holder.isNone
    let u := { old with core := core, vault := a, save := v.save, grps := gs, cmds := cmds, vacating := true, unrestored := true }
    let s := takePlanes { s with units := s.units ++ [u] } core l
    let s := s.modLaunch l.fn l.lid fun l => { l with resume := l.resume.filter (·.idx != v.idx) }
    let s := { s with front := s.front.filter (· != (l.fn, l.lid, v.idx)) }
    let s := if free && l.a != 0 then loadPlanes s rd l core else s
    s.due (.unitRestore u.key core)

def execWorkRequest (core : Nat) (s : State) : Host.Outcome State Fault Refusal :=
  if (userUnits s core).any fun u => (buildable s u).isSome then .next s
  else match serve s core with
    | none => .next s
    | some (.restore fn lid v) =>
      match s.launch? fn lid with
      | none => .next s
      | some l => .next (placeVacated s core l v)
    | some (.fresh fn lid) =>
      match s.launch? fn lid with
      | none => .next s
      | some l =>
        if l.state = .ready then .next (s.due (.firstTicket fn lid))
        else match l.ticket (dieOf core) with
          | none => .next s
          | some (i, l) => .next (startUnit (s.modLaunch fn lid fun _ => l) core l i)

/-! ## The first ticket (R296, R335, R339, R342) -/

/-- Whether a leaf can be fetched from. -/
def executable (s : State) (c : Ctx) (va : Nat) : Bool := match walk s c va with | .ok p => p.x | .error _ => false

/-- Whether an address lies in this module's HBM in a context. -/
def inHbm (s : State) (c : Ctx) (va : Nat) : Bool := match walk s c va with | .ok p => p.mem == 0 | .error _ => false

/-- Binds a launch's endpoint: none when it is refused (R295, R296). -/
def bindEndpoint (s : State) (l : Launch) : Option Launch :=
  if l.endpoint = 0 then some l
  else do
    let c ← s.ctx? l.ctx
    let x ← if inHbm s c l.endpoint then sysRead s c l.endpoint 256 else none
    let f (off n : Nat) : Nat := x / 2 ^ (8 * off) % 2 ^ (8 * n)
    let ctl := f 0 8
    let hpc := f 24 8
    let ok := ctl.testBit 63 && f 8 4 == l.ctx && f 12 4 == 0 && f 16 8 == l.lid && bits ctl 59 47 == 0 && f 88 40 == 0
      && bits ctl 46 40 ≤ 64 && hpc % 4 == 0 && hpc / 2 ^ 56 == 0 && f 56 8 % 16 == 0 && f 64 8 % 64 == 0
      && (!ctl.testBit 61 || ctl % 2 ^ 40 == 0) && ctl % 2 ^ 40 < l.n && inHbm s c (f 64 8)
      && (!ctl.testBit 62 || executable s c hpc)
    if ok then
      some { l with bound := true, ctl := BitVec.ofNat 64 ctl, hpc := BitVec.ofNat 64 hpc, mask := BitVec.ofNat 64 (f 40 8),
                    modew := BitVec.ofNat 64 (f 48 8), permva := BitVec.ofNat 64 (f 56 8), payva := BitVec.ofNat 64 (f 64 8) }
    else none

/-- The first 64 bytes of the argument block as words; none when one cannot be read (R335). -/
def readArgs (s : State) (l : Launch) : Option (List Word) :=
  match s.ctx? l.ctx with
  | none => none
  | some c => match sysBytes s c l.args 64 with
    | .error _ => none
    | .ok bs => some ((elements 4 16 bs).map (BitVec.ofNat 32 ·))

/-- The ranges of the dies (R342). -/
def startRanges (n : Nat) : List (Nat × Nat) := (List.range 8).map fun d => (n * d / 8, n * (d + 1) / 8)

def execFirstTicket (fn lid : Nat) (s : State) : Host.Outcome State Fault Refusal :=
  match s.launch? fn lid with
  | none => .next s
  | some l =>
    if l.state != .ready || l.held then .next s
    else match bindEndpoint s l with
      | none => .next (finishLaunch s l .cancelled true)
      | some l =>
        match readArgs s l with
        | none => .next (finishLaunch s { l with bound := false } .cancelled true)
        | some pre =>
          let l := { l with state := .active, pre := pre, ranges := startRanges l.n }
          let s := s.modLaunch fn lid fun _ => l
          let s := if l.localptr then s.modCtx l.ctx fun c => { c with localptr := true } else s
          .next (if l.budget = 0 then s else s.due (.watchdog fn lid))

/-! ## Leaving a core (R233, R344, R345, R348, R349) -/

/-- A unit is to be vacated. -/
def vacate (s : State) (k : UKey) : State := (s.modUnit k fun u => { u with vacating := true }).due (.unitVacate k)

/-- A unit that was placed and has not been restored goes back to the tail of its launch's resume list, as its image still stands; interrupt
state that it has gathered since joins what the image holds (R300, R308, R345, R346, R404). -/
def unplace (s : State) (u : Unit) (l : Launch) : State :=
  let c := s.ctxOf u
  let rd := imageRd s c u.save
  let mine (i : Instr) : Bool := match i with | .unitRestore k _ | .unitVacate k => k == u.key | _ => false
  let s := if u.ui == .start then s
    else
      let x := l.imgUnit
      sysWriteBytes s c (c.arena + u.save + x + 0x1000) (fields 0x300 (uiFields 0 ((savedUi rd x).merge u.ui l)))
  let v : Vac := { idx := u.key.idx, save := u.save, size := rd 32 4, unit := some { u with vacating := false, unrestored := false, ui := .start } }
  let s := dropGroupWaits s u.ctx u.key restoreGid
  let s := { s with units := s.units.filter fun x => x.key != u.key, agenda := s.agenda.filter fun i => !mine i }
  retireHistory (freePlanes (s.modLaunch l.fn l.lid fun l => { l with resume := l.resume ++ [v] }) u.core) u.ctx

/-- Units that are under restore go back at once. -/
def unplaceAll (s : State) (l : Launch) : State :=
  ((unitsOf s l).filter (·.unrestored)).foldl (fun s u => unplace s u l) s

/-- A unit leaves its core: one that is under restore is not restored any more, and goes back in its turn (R345). -/
def sendAway (s : State) (u : Unit) : State :=
  if u.unrestored then
    { s with agenda := s.agenda.filter fun i => match i with | .unitRestore k _ => k != u.key | _ => true }.due (.unitVacate u.key)
  else if u.vacating then s else vacate s u.key

/-- Vacates units that can be: those that do not leave already (R345). -/
def vacateAll (s : State) (us : List Unit) : State :=
  us.foldl (fun s u => if isSuper u.key || u.ending.isSome then s else sendAway s u) s

/-! ## Cancel (R338) -/

/-- A resident unit takes a broadcast cause and halts within the skid bound, without being saved (R79, R338). -/
def doomUnit (s : State) (k : UKey) (t : Trap) : State :=
  match s.unit? k with
  | none => s
  | some u =>
    let s := s.modUnit k fun u => { u with halted := true, vacating := false, ending := some (causeWord t) }
    let s := cancelCmds s k
    (u.grps.filter (·.live)).foldl (fun s g =>
      match g.run with
      | .running => haltSibling s k 0 g
      | .skid _ _ => s.due (.sibhalt k g.gid)
      | .stopped => stopSibling s k g.gid 0) s

/-- Cancels one launch that has not completed (R338). -/
def cancelLaunch (s : State) (fn lid level : Nat) (rpc : Bool) : State :=
  match s.launch? fn lid with
  | none => s
  | some l =>
    if !l.live then s
    else
      let s := unplaceAll s l
      let l := (s.launch? fn lid).getD l
      let us := unitsOf s l
      let s := finishLaunch s l .cancelled true
      us.foldl (fun s u => doomUnit s u.key { code := C.CANCEL, detail := level + rpc.toNat * 4 }) s

/-- Whether a level is another or lies below it. -/
def isUnder (s : State) (fn : Nat) (kind id : Nat) : Nat → Nat → Nat → Bool
  | 0, _, _ => false
  | n + 1, k, i =>
    (k == kind && i == id) || (match s.level? fn k i with | some l => l.parent != 0 && isUnder s fn kind id n (k + 1) l.parent | none => false)

/-- Cancels a level: it and every level below it accept no more members, and their launches are cancelled (R338). -/
def cancelLevel (s : State) (fn kind id : Nat) (rpc : Bool) : State :=
  if (s.level? fn kind id).isNone then s
  else
    let hit (l : Level) : Bool := l.fn == fn && isUnder s fn kind id 3 l.kind l.id
    let lids := (s.launches.filter fun l => l.fn == fn && l.live && isUnder s fn kind id 3 l.lowest.1 l.lowest.2).map (·.lid)
    let marked := s.levels.filter hit
    let mark (l : Level) : Level :=
      if hit l then { l with cancelled := true, failed := true, counter := l.counter - (l.m - l.got), got := l.m } else l
    let s := { s with levels := s.levels.map mark }
    let s := lids.foldl (fun s lid => cancelLaunch s fn lid kind rpc) s
    (List.range 4).foldl (fun s k => (marked.filter (·.kind == k)).foldl levelClose s) s

/-- Cancels what a level number names in a launch's own packet; a level that is 0 there is the launch itself (R338). -/
def cancelNamed (s : State) (l : Launch) (level : Nat) : State :=
  let id := if level = 1 then l.graph else if level = 2 then l.phase else if level = 3 then l.job else 0
  if id = 0 then cancelLaunch s l.fn l.lid 0 false else cancelLevel s l.fn level id false

/-- Whether spatial pre-emption may vacate a core for a launch: one that it has not taken yet, whose units are all of lower classes of its
function (R344). -/
def eligible (s : State) (l : Launch) (core : Nat) : Bool :=
  let us := userUnits s core
  !us.isEmpty && !l.taken.contains core && us.all fun u => u.key.fn == l.fn
    && (match launchOf s u with | some x => x.cls < l.cls | none => false)

/-- Whether a core has room for the vacated unit or the fresh ticket of a launch (R343, R344). -/
def roomFor (s : State) (core : Nat) (l : Launch) : Bool :=
  mayServe s core l
  && (match l.resume with | v :: _ => hasRoom s core l (max l.g (v.count l.g)) | [] => l.fresh && hasRoom s core l l.g)

/-- The highest unit class on a core. -/
def coreClass (s : State) (core : Nat) : Nat :=
  (userUnits s core).foldl (fun m u => max m (match launchOf s u with | some x => x.cls | none => 0)) 0

/-- The core that spatial pre-emption takes next (R344). -/
def nextVictim (s : State) (l : Launch) : Option Nat :=
  if s.owner != some l.fn || l.pcores ≤ l.taken.length || !l.placeable || (List.range 512).any (fun c => roomFor s c l) then none
  else (List.range 512).foldl (fun b c =>
    if !eligible s l c then b else match b with | some x => if coreClass s c < coreClass s x then some c else b | none => some c) none

def execSpatialPreemption (fn lid : Nat) (s : State) : Host.Outcome State Fault Refusal :=
  match s.launch? fn lid with
  | none => .next s
  | some l => match nextVictim s l with
    | none => .next s
    | some c =>
      let s := s.modLaunch fn lid fun l => { l with taken := l.taken ++ [c] }
      .next (vacateAll s (userUnits s c))

/-- A group whose every entry waits in waitv, barw or tagw (R233). -/
def Group.spins (g : Group) : Bool := g.ents.all fun e => match e.wait with | .waitv | .barw _ _ | .tagw _ _ => true | _ => false

/-- Contexts with a vacated unit. -/
def resuming (s : State) (ctx : Nat) : Bool := s.launches.any fun l => l.ctx == ctx && !l.resume.isEmpty

/-- The contexts whose groups on a core all wait while a unit of theirs could return (R233). -/
def yielding (s : State) (core : Nat) : List Nat :=
  let us := userUnits s core
  (us.map (·.ctx)).eraseDups.filter fun c =>
    resuming s c && us.all fun u => u.ctx != c || (!u.vacating && u.ending.isNone && u.grps.all fun g => !g.live || (g.run == .running && g.spins))

/-- Vacates the units that wait; that 65,536 cycles have passed is free (R233, log 4). -/
def execYieldCore (core : Nat) (s : State) : Host.Outcome State Fault Refusal :=
  let cs := yielding s core
  .next (vacateAll s ((userUnits s core).filter fun u => cs.contains u.ctx && u.grps.any (·.live)))

/-- The entry after the one in force whose function has work (R348). -/
def nextSlice (s : State) (qs : List Quantum) (from_ : Nat) : Option (Nat × Quantum) :=
  (List.range qs.length).findSome? fun i =>
    let j := (from_ + 1 + i) % qs.length
    match qs[j]? with
    | some q => if q.ok s && hasWork s q.fn then some (j, q) else none
    | none => none

/-- The device goes to a function: units of every other are vacated (R349). -/
def switchTo (s : State) (fn : Nat) : State := vacateAll { s with tenant := some fn } (s.units.filter fun u => u.key.fn != fn)

/-- Ends the slice in force: a table written meanwhile takes effect, and the next entry with work follows (R347, R348). -/
def endSlice (s : State) : State :=
  let s := match s.quantaNext with | some q => { s with quanta := q, quantaNext := none } | none => s
  if !s.quanta.any (Quantum.ok s) then switchTo { s with slice := 0, quantaRun := 0 } 0
  else match nextSlice s s.quanta s.slice with
    | none => vacateAll { s with tenant := none, quantaRun := 0 } s.units
    | some (j, q) => switchTo { s with slice := j, quantaRun := 0 } q.fn

/-- Whether a tenant switch is still under way: units of another function than the tenant have not left their cores (R349). -/
def switchGoes (s : State) : Bool := match s.tenant with | some fn => s.units.any fun u => !isSuper u.key && u.key.fn != fn | none => false

def execSliceEnd (s : State) : Host.Outcome State Fault Refusal :=
  if s.quantaNext.isNone && !s.quanta.any (Quantum.ok s) || switchGoes s then .next s
  else match s.tenant, s.quanta[s.slice]? with
    | some fn, some q =>
      if q.ok s && q.fn = fn && s.quantaRun + 1 < q.weight && hasWork s fn then .next { s with quantaRun := s.quantaRun + 1 }
      else .next (endSlice s)
    | _, _ => .next (endSlice s)

/-- The frontiers of a vacated unit by the block of its image: of each group as the unit stood, or as the image holds it where no more is
known. -/
def Vac.frontiers (v : Vac) (s : State) (c : Ctx) (l : Launch) : List (Nat × List Entry) :=
  let rd := imageRd s c v.save
  let saved (n : Nat) : List Entry :=
    match parseFrontier (rd (imgGroup n + 0x8400) 264) (16 * l.vblk) (BitVec.allOnes 32) with | .ok (es, _) => es | .error _ => []
  let known (n : Nat) : List Entry :=
    match v.unit.bind fun u => u.grps.find? fun g => g.live && rd.blockOf l.g g.gid == n with | some g => g.ents | none => []
  (List.range l.g).filterMap fun n =>
    let es := if (known n).isEmpty then saved n else known n
    if es.isEmpty then none else some (n, es)

/-- The frontier entries of a vacated unit in the records of its image (R234, R364). -/
def recordVacated (s : State) (l : Launch) (v : Vac) : State :=
  match s.ctx? l.ctx with
  | none => s
  | some c => (v.frontiers s c l).foldl (fun s (n, es) =>
      sysWriteBytes s c (c.arena + v.save + imgGroup n + 0x8A00 + 128) (Sparse.getList 0 (listEntries [] (ranked es)) 128 128)) s

def execWatchdog (fn lid : Nat) (s : State) : Host.Outcome State Fault Refusal :=
  match s.launch? fn lid with
  | none => .next s
  | some l =>
    if l.state != .active then .next s
    else if l.held || s.owner != some fn then .next (s.due (.watchdog fn lid))
    else
      let s := unplaceAll s l
      let l := (s.launch? fn lid).getD l
      let us := unitsOf s l
      let s := l.resume.foldl (fun s v => recordVacated s l v) s
      let s := finishLaunch s l .cancelled true
      .next (us.foldl (fun s u => doomUnit s u.key { code := C.WATCHDOG }) s)

end Sys2Proof.Machine
end

