-- ==== Sys2Proof/Machine/Control.lean ====
section
/-! DEFINITION. Control instructions (R128 to R137). -/

namespace Sys2Proof.Machine

/-- The target of a relative branch (R77). -/
def Cx.target (c : Cx) (o : Op) : DWord := c.pc + 12 + BitVec.ofInt 64 (12 * o.disp)

/-- Sends the executing lanes to one target (R128, R131). -/
def Cx.branch (c : Cx) (g : Group) (pc : DWord) (prio : Nat) : Exc State :=
  setFrontier c g (branchEnts c [(pc, prio, c.ex)])

/-- Sends the executing lanes to the address in A (R131). -/
def Cx.branchTo (c : Cx) (o : Op) (prio : Nat) : Exc State := do
  let _ ← c.need o.a 2 [.i64]
  match c.lanes.find? fun l => c.val o.a 2 l % 4 != 0 with
  | some l => stop (.lane C.ALIGN l (c.val o.a 2 l))
  | none =>
    if o.a.perLane then
      setFrontier c c.g (branchEnts c (c.lanes.map fun l => (BitVec.ofNat 64 (c.val o.a 2 l), prio, BitVec.ofNat 32 (2 ^ l))))
    else c.branch c.g (BitVec.ofNat 64 (c.val o.a 2 c.l0)) prio

def execBra (o : Op) (b : ModB) (s : State) : Host.Outcome State Fault Refusal :=
  wordCtl s o fun c => c.branch c.g (c.target o) b.prio

def execBrx (o : Op) (b : ModB) (s : State) : Host.Outcome State Fault Refusal :=
  wordCtl s o fun c => c.branchTo o b.prio

def execCall (o : Op) (b : ModB) (s : State) : Host.Outcome State Fault Refusal :=
  wordCtl s o fun c => c.branch (c.g.write o.d 2 .i64 (fun _ => (c.pc + 12).toNat) c.ex) (c.target o) b.prio

def execRet (o : Op) (x : ModX) (s : State) : Host.Outcome State Fault Refusal :=
  wordCtl s o fun c => c.branchTo o (if x.f 36 36 = 1 then x.f 44 37 else c.e.prio)

def execSetprio (o : Op) (b : ModB) (s : State) : Host.Outcome State Fault Refusal :=
  wordCtl s o fun c => c.branch c.g (c.pc + 12) b.prio

/-- The frontier without the executing lanes; a drain point where no lane is left (R132, R135). -/
def Cx.endLanes (c : Cx) : Exc (List Entry) := do
  let es := branchEnts c []
  if es.isEmpty then c.drain
  return es

def execExitL (o : Op) (_x : ModX) (s : State) : Host.Outcome State Fault Refusal :=
  wordCtl s o fun c => do
    let es ← c.endLanes
    return c.put { c.g with ents := es, after := false }

/-- Cuts the executing lanes off, where the store has room and no handler runs (R135, R306). -/
def Cx.regroup (c : Cx) (n : Nat) : Exc State := do
  let recs := c.lanes.map fun l => offRec c.g n (c.pc + 12) c.e.prio l
  if c.g.inh || c.u.offcut < offUsed c.u + recs.length * recBytes n then return advance c c.s
  else
    let es ← c.endLanes
    return c.s.modUnit c.u.key fun u => c.cutOff (u.modGrp c.g.gid fun _ => { c.g with ents := es, after := false }) recs

def execRgrp (o : Op) (_x : ModX) (s : State) : Host.Outcome State Fault Refusal :=
  wordCtl s o fun c => c.regroup (o.imm % 512)

def execRgrpSet (o : Op) (_x : ModX) (s : State) : Host.Outcome State Fault Refusal :=
  word s o fun c => .ok (c.put { c.g with liven := o.imm % 512 })

/-- The entries a rejoin leaves: the masked executing lanes wait at its PC (R136). -/
def Cx.rejoinEnts (c : Cx) (mask : Word) : List Entry :=
  let stay := c.ex &&& mask
  let w : Entry := { Entry.new c.pc c.e.prio stay with rjw := true, rjmask := mask }
  addEntry w (addEntry (.new (c.pc + 12) c.e.prio (c.e.mask &&& ~~~stay)) (dropAt c.iss.ent c.g.ents))

def execRejoin (o : Op) (_x : ModX) (s : State) : Host.Outcome State Fault Refusal :=
  wordCtl s o fun c => setFrontier c c.g (c.rejoinEnts (c.reg o.a 0 c.l0))

end Sys2Proof.Machine
end

