-- ==== Sys2Proof/Machine/Interrupt.lean ====
section
/-! DEFINITION. User interrupts: raising, the decision of a raise, delivery, and the handler's instructions (R204, R205, R295 to
R309). -/

namespace Sys2Proof.Machine

/-! ## uiraise (R204) -/

/-- XLATE or PERM of an endpoint address, or the ordinary address it comes to (R204). -/
def Cx.endpointAt (c : Cx) (a : Opd) : Exc Nat :=
  let va := c.val a 2 c.l0
  let perm : Exc Nat := stop (.lane C.PERM c.l0 va)
  match resolveOrd c.ctx a.code c.l0 va 256 with
  | .error e => .error e
  | .ok (.ord ea win) =>
    if inWindow ea then perm
    else match leafFor c.s c.u.core c.ctx ea with
      | .error lv => stop (.lane C.XLATE c.l0 va (lv * 256))
      | .ok p => if p.mem != 0 || !(win.isSome || p.rd) then perm else .ok ea
  | .ok _ => perm

/-- The causes of uiraise in their order: the vector, the payload and the endpoint's address (R204). -/
def Cx.raiseArgs (c : Cx) (o : Op) : Exc (Nat × Nat × Nat) := do
  let _ ← c.need o.a 2 [.i64]
  let v ← c.scalarOrImm o.b (o.imm % 64)
  let t ← c.tag o.d 2
  if t = .ptr then c.format o.d c.l0
  if 64 ≤ v then c.bounds
  if c.val o.a 2 c.l0 % 256 != 0 then stop (.lane C.ALIGN c.l0 (c.val o.a 2 c.l0))
  let ea ← c.endpointAt o.a
  return (v, c.val o.d 2 c.l0, ea)

/-- The raise of an issuing group (R298). -/
def Cx.raiseReq (c : Cx) (v pay ea : Nat) (waiter : Option (UKey × Nat × Nat)) : RaiseReq :=
  { ctx := c.u.ctx, va := BitVec.ofNat 64 ea, vec := v, pay := BitVec.ofNat 64 pay, cls := 2, func := c.ctx.fn, modid := 0xFFFF,
    sctx := c.u.ctx, launch := c.u.key.lid % 2 ^ 32, waiter := waiter, reply := none, fab := none }

def execUiraise (o : Op) (_x : ModX) (s : State) : Host.Outcome State Fault Refusal :=
  word s o fun c => do
    let (v, pay, ea) ← c.raiseArgs o
    let know := knowOf s c.u.key c.g.gid
    let s := endOwnership (withRace s c.u.key fun r => r.advance c.g.gid) c.u.key
    if o.fn = 1 then
      .error (.waitWith (s.dueAgain (.raiseDecision { c.raiseReq v pay ea (some (c.u.key, c.g.gid, s.tick)) with know := know, src := some (c.u.key, c.g.gid) })) (.raise s.tick))
    else return s.dueAgain (.raiseDecision { c.raiseReq v pay ea none with know := know, src := some (c.u.key, c.g.gid) })

/-! ## The decision (R297, R299, R300, R309) -/

/-- The launch to whose bound endpoint an address comes (R296). -/
def boundAt (s : State) (ctx va : Nat) : Option Launch := do
  let c ← s.ctx? ctx
  let (m, a, _) ← sysPhys s c va
  s.launches.find? fun l =>
    l.bound && (match (s.ctx? l.ctx).bind fun c => sysPhys s c l.endpoint with | some (m', a', _) => m == m' && a == a' | none => false)

/-- Whether a permission entry grants a raise (R297). -/
def entryGrants (e : Nat) (r : RaiseReq) : Bool :=
  bits e 95 94 == r.cls && bits e 71 64 == 0 && bits e 93 93 == r.vec / 32 && e.testBit (96 + r.vec % 32) && bits e 92 88 == r.func
  && bits e 63 32 == r.sctx
  && (if r.cls = 2 then bits e 87 72 == r.modid && (e % 2 ^ 32 == 0 || e % 2 ^ 32 == r.launch % 2 ^ 32)
      else bits e 87 72 == 0 && e % 2 ^ 32 == 0)

/-- Whether some readable entry of the table grants a raise; the table is read afresh (R297, R299). -/
def granted (s : State) (l : Launch) (r : RaiseReq) : Bool :=
  match s.ctx? l.ctx with
  | none => false
  | some c => (List.range l.permn).any fun i =>
      match sysBytes s c (l.permva.toNat + 16 * i) 16 with
      | .ok bs => entryGrants (natOfBytes bs) r
      | .error _ => false

/-- The update of the target state by an accepted raise (R299, R300). -/
def raiseTarget (s : State) (l : Launch) (v p : Nat) : State :=
  let us := unitsOf s l
  if l.bcast && !us.isEmpty then us.foldl (fun s u => s.modUnit u.key fun u => { u with ui := u.ui.raise l v 1 p }) s
  else blockRaise s l v p

/-- The wake of an accepted raise: vacated targets go to the front of their class, a fresh one to the front of its launch's
tickets (R309). -/
def wakeTarget (s : State) (l : Launch) : State :=
  let hit := l.resume.filter fun v => l.bcast || v.idx == l.anchor
  let mine := hit.map fun v => (l.fn, l.lid, v.idx)
  let s := { s with front := mine ++ s.front.filter fun x => !mine.contains x }
  let isFresh := l.ranges.any (fun r => r.1 ≤ l.anchor && l.anchor < r.2) && !l.early.contains l.anchor
  if !l.bcast && isFresh && (unitsOf s l).all (fun u => u.key.idx != l.anchor) then
    s.modLaunch l.fn l.lid fun l => { l with wake := l.anchor :: l.wake.filter (· != l.anchor) }
  else s

/-- What a raise comes to: 0 accepted, 1 denied by the table, 2 not bound (R299). -/
def decideRaise (s : State) (r : RaiseReq) : State × Nat :=
  match boundAt s r.ctx r.va.toNat with
  | none => (s, 2)
  | some l =>
    if !granted s l r then (epWrite s l 72 8 ((epRead s l 72 8 + 1) % 2 ^ 64), 1)
    else
      let s := raiseTarget s l r.vec r.pay.toNat
      let s := if r.know.isEmpty then s
        else s.modLaunch l.fn l.lid fun l => { l with raised := Sparse.set [] l.raised r.vec (joinKnow (Sparse.get [] l.raised r.vec) r.know) }
      let s := epWrite s l 80 8 ((epRead s l 80 8 + 1) % 2 ^ 64)
      (if l.wakes then wakeTarget s l else s, 0)

/-- The uiraise.trap that waited goes on behind its word, or takes UIDENY there (R299). -/
def raiseReturns (s : State) (k : UKey) (gid mark res : Nat) : State :=
  match (s.unit? k).bind fun u => (u.grp? gid).map fun g => (u, g) with
  | none => s
  | some (u, g) => match g.ents.findIdx? fun e => e.wait == .raise mark with
    | none => s
    | some i => match g.ents[i]? with
      | none => s
      | some e =>
        let s := s.modGrp k gid fun g => { g with ents := advanceEnts g i e, after := false }
        if res = 0 then s
        else
          let t : Trap := { code := C.UIDENY, detail := res, epc := some (e.pc + 12) }
          if g.fault then impreciseFault s k gid t 0 else takeFault s k gid (peekWord s u e.pc) (e.pc + 12) t

def execRaiseDecision (r : RaiseReq) (s : State) : Host.Outcome State Fault Refusal :=
  let r := if r.cls = 2 && r.modid = s.ident then { r with modid := 0xFFFF } else r
  let (s, res) := decideRaise s r
  let s := match r.waiter with | some (k, gid, mark) => raiseReturns s k gid mark res | none => s
  let s := match r.reply with
    | some (fn, tag, chan) => reply s { fn := fn, tag := tag, chan := chan, frame := mkFrame tag chan 0x0B [] } (if res = 0 then rOK else rREFUSED) 0
    | none => s
  match r.fab with
  | some (m, f, id) => .next (fabAnswer s m f id St.OK (bytesOfNat 8 (if res = 0 then 0 else 1)))
  | none => .next s

/-! ## Delivery (R205, R302, R304 to R307) -/

/-- PRIV unless the group is its launch's handler (R205). -/
def Cx.handler (c : Cx) : Exc PUnit :=
  match c.launch? with
  | some l => if l.handler = c.g.gid then .ok () else stop { code := C.PRIV }
  | none => stop { code := C.PRIV }

def execUiwait (o : Op) (_x : ModX) (s : State) : Host.Outcome State Fault Refusal :=
  word s o fun c => do
    c.handler
    if (deliverable s c.u).isSome then return c.s else .error (.wait .uiwait)

/-- The quad of uitake: vector and count, then the payload (R205). -/
def Group.setTaken (g : Group) (d : Opd) (v n p : Nat) : Group :=
  match d with
  | .s r => (((g.setS r (BitVec.ofNat 32 v)).setStag r .i32).setSRange (r + 1) .i32 n 1 0).setSRange (r + 2) .i64 p 2 0
  | _ => g

def execUitake (o : Op) (_x : ModX) (s : State) : Host.Outcome State Fault Refusal :=
  word s o fun c => do
    c.handler
    let (s, v, n, p) := takeVector c.s c.u
    let s := s.modGrp c.u.key c.g.gid fun g => g.setTaken o.d v n p
    return if v = 64 then s else withRace s c.u.key fun r => r.learn c.u.key c.g.gid (match c.launch? with | some l => Sparse.get [] l.raised v | none => [])

def execUimask (o : Op) (_x : ModX) (s : State) : Host.Outcome State Fault Refusal :=
  word s o fun c => .ok (c.put { c.g with sect := o.fn == 0 })

def execUiret (o : Op) (_x : ModX) (s : State) : Host.Outcome State Fault Refusal :=
  wordCtl s o fun c => do
    c.handler
    if !c.g.inh then stop { code := C.PRIV }
    setFrontier c c.g (c.rejoinEnts (presentLanes c.g.ents))

/-- The frontier uiret restores: PARK without the lanes that have gone, its entry d at UIEPC.PC (R307). -/
def unpark (g : Group) : Group :=
  match g.park with
  | none => g
  | some p =>
    let left := presentLanes g.ents
    let pc := BitVec.ofNat 64 (g.uiepc.toNat % 2 ^ 56 / 4 * 4)
    let es := p.ents.zipIdx.map fun (e, i) =>
      let e := { e with mask := e.mask &&& left }
      if i = p.d && e.pc != pc then { e with pc := pc, rjw := false, rjmask := 0, bwa := false } else e
    { g with ents := addAll es [], liven := p.liven, inh := false, park := none, after := true }

/-- Whether a group waits at its uiret with every present lane (R307). -/
def uiretDone (s : State) (u : Unit) (g : Group) (e : Entry) : Bool :=
  g.inh && g.park.isSome && opcodeAt s u e.pc == 0x77 && (presentLanes g.ents &&& ~~~(waitingAt g.ents e.pc)) == 0

def execRejoinWaitComplete (k : UKey) (gid : Nat) (s : State) : Host.Outcome State Fault Refusal :=
  match (s.unit? k).bind fun u => (u.grp? gid).map fun g => (u, g) with
  | none => .next s
  | some (u, g) =>
    if g.run = .stopped || u.vacating then .next s
    else match g.ents.find? fun e => e.rejoinDone g.ents with
      | none => .next s
      | some e =>
        .next (s.modGrp k gid fun g =>
          if uiretDone s u g e then unpark g else { g with ents := completeRejoin g.ents e.pc, after := false })

def execUserInterruptEntry (k : UKey) (s : State) : Host.Outcome State Fault Refusal :=
  match s.unit? k with
  | none => .next s
  | some u => match launchOf s u with
    | none => .next s
    | some l => match u.grps.find? fun g => entryDue s u g with
      | some g => .next (divert s u g l.hpc)
      | none => .next s

def execUimaskWrite (k : UKey) (v : DWord) (s : State) : Host.Outcome State Fault Refusal := .next (writeUimask s k v)

end Sys2Proof.Machine
end

