-- ==== Sys2Proof/Machine/System.lean ====
section
/-! DEFINITION. System instructions and the supervisor's side of a halt (R29 to R34, R142, R206, R352 to R366), and what a core
does on its own for a waiting group. -/

namespace Sys2Proof.Machine

/-! ## trap, brk, cancel, hvy (R206) -/

def execTrapSw (o : Op) (_x : ModX) (s : State) : Host.Outcome State Fault Refusal :=
  word s o fun c => .error (.doneTrap c.s { code := C.SWTRAP, detail := o.imm % 65536 })

def execBrk (o : Op) (_x : ModX) (s : State) : Host.Outcome State Fault Refusal :=
  word s o fun _ => stop { code := C.BRK, detail := o.imm % 65536 }

def execCancel (o : Op) (_x : ModX) (s : State) : Host.Outcome State Fault Refusal :=
  word s o fun c => .ok (match c.launch? with | some l => cancelNamed c.s l o.fn | none => c.s)

/-- The reservation is granted at once (R206, log 37). -/
def execHvy (o : Op) (_x : ModX) (s : State) : Host.Outcome State Fault Refusal :=
  word s o fun c => do
    let n := o.imm % 256
    if o.fn = 0 && (n = 0 || 16 < n) then c.bounds
    return c.s.modUnit c.u.key fun u => { u with hvy := if o.fn = 0 then n else 0 }

/-! ## Special registers (R29 to R34, R358) -/

/-- The registers that the supervisor reads and writes in the serviced group. -/
def servicedSpr (n : Nat) : Bool := n = 0 || (4 ≤ n && n ≤ 9)

/-- The unit and group a special-register access acts on (R358). -/
def Cx.sprTarget (c : Cx) (n : Nat) : Unit × Group :=
  if isSuper c.u.key && servicedSpr n then
    ((servicedSlot? c.s c.u.core).bind fun slot => slotGroup? c.s c.u.core slot).getD (c.u, c.g)
  else (c.u, c.g)

/-- PRIV of a user access (R29). -/
def Cx.sprPriv (c : Cx) (n : Nat) : Exc PUnit :=
  if !isSuper c.u.key && 5 ≤ n && n ≤ 9 then stop { code := C.PRIV, detail := n } else .ok ()

/-- The value of a special register (R29 to R33). -/
def sprValue (s : State) (u : Unit) (g : Group) : Nat → Nat
  | 0x00 => g.gstat.toNat
  | 0x01 => u.ready.toNat
  | 0x02 => (pendOf s u).toNat
  | 0x03 => u.uimask.toNat
  | 0x04 => g.uiepc.toNat
  | 0x05 => g.cause.toNat
  | 0x06 => g.epc.toNat
  | 0x07 => (frecVA s u g.gid).toNat
  | 0x08 => g.frcnt.toNat
  | 0x09 => g.skidN
  | 0x0A => (s.ctxOf u).capbase.toNat
  | 0x0B => 1
  | 0x0C => u.energy.toNat
  | 0x0D => u.pwait.toNat
  | 0x0E => s.clk u.core
  | 0x0F => dieOf u.core
  | 0x10 => u.core % 64 + g.slot / 16 * 64 + g.slot * 256
  | _ => 0

def execSprd (o : Op) (_x : ModX) (s : State) : Host.Outcome State Fault Refusal :=
  word s o fun c => do
    let n := o.imm % 256
    c.sprPriv n
    let (u, g) := c.sprTarget n
    let v := sprValue c.s u g n
    let s := c.put (c.g.write o.d 2 .i64 (fun _ => v) c.ex)
    return if n = 1 then c.join s (tagsOf v) else s

/-- Writes a special register of a group or of its unit (R29 to R32). -/
def sprWrite (s : State) (u : Unit) (g : Group) (n v : Nat) : State :=
  if n = 3 then writeUimask s u.key (BitVec.ofNat 64 v)
  else
    let k := match n with | 0 => 0 | 4 => 1 | 5 => 2 | 6 => 3 | 8 => 4 | _ => 5
    s.modGrp u.key g.gid fun g => setBlockSpr g k v

def execSpwr (o : Op) (_x : ModX) (s : State) : Host.Outcome State Fault Refusal :=
  word s o fun c => do
    let n := o.imm % 256
    c.sprPriv n
    if n = 7 || n = 9 then stop (illop (9, 4))
    let t ← c.tag o.a 2
    if t = .ptr then c.format o.a c.l0
    let (u, g) := c.sprTarget n
    return sprWrite c.s u g n (c.val o.a 2 c.l0)

/-! ## scall and sret (R206, R357 to R360) -/

/-- The 64 bytes of a request record. -/
def Cx.request (c : Cx) (p : Place) : List Byte := (List.range 64).map fun i => BitVec.ofNat 8 (c.s.load c.u.core p.sp (p.a + i) 1)

/-- The handle number a new entry takes: the lowest that is free (log 41). -/
def freeHandle (f : Func) : Nat :=
  (lowestFrom (fun n => f.handles.all fun h => h.hid != n || h.kind == 0) (f.handles.length + 1) 0).getD 0

/-- The generation of a handle number (R367). -/
def Func.genOf (f : Func) (hid : Nat) : Nat := match f.handles.find? fun h => h.hid == hid with | some h => h.gen | none => f.hgen

/-- Sends an AGENT request on a handle of a function; it waits for its AGENTREPLY (R380, log 12). -/
def sendAgent (s : State) (fn svc : Nat) (h : Handle) : State :=
  let x := remoteHandle s fn h
  let tag := s.tick % 2 ^ 64
  sendRecord (s.modFunc fn fun f => { f with agent := f.agent ++ [(tag, x)] }) fn (mkFrame tag 0 opAgent (Config.rpcBytes opAgent [svc, x.toNat]))

/-- What a scall's service asks of a host agent: nothing, a new file or connection handle, or something on one that is open. Which services
ask is not the manual's to say: it is free (R367, R380, log 12). -/
def agentRequest (s : State) (u : Unit) (svc : Nat) : State :=
  let fn := u.key.fn
  let f := s.func fn
  let open_ := f.handles.filter fun h => h.kind == 1 || h.kind == 2
  match Config.agentAsk s.tick svc with
  | 0 => s
  | k + 1 =>
    if k < 2 then
      let hid := freeHandle f
      let h : Handle := { kind := k + 1, gen := f.genOf hid, hid := hid, cookie := 0, ctx := u.ctx, va := 0, len := 0, rights := 0 }
      sendAgent (s.modFunc fn fun f => { f with handles := f.handles.filter (·.hid != hid) ++ [h] }) fn svc h
    else match open_[(k - 2) % open_.length]? with
      | some h => sendAgent s fn svc h
      | none => s

/-- The reading of a request record follows what its caller knew at the scall (R314). -/
def Cx.callEdge (c : Cx) (s : State) : State :=
  match mailFree? (s.core c.u.core) with
  | none => s
  | some i =>
    let s := s.modCore c.u.core fun k => { k with mknow := Sparse.set [] k.mknow i (knowOf s c.u.key c.g.gid) }
    withRace s c.u.key fun r => r.advance c.g.gid

/-- What a resumed group does follows what the supervisor knew at the sret that answered it (R314). -/
def Cx.answerEdge (c : Cx) (s : State) (k : UKey) (gid : Nat) : State :=
  let know := knowOf s c.u.key c.g.gid
  withRace (withRace s k fun r => r.learn k gid know) c.u.key fun r => r.advance c.g.gid

def execScall (o : Op) (_x : ModX) (s : State) : Host.Outcome State Fault Refusal :=
  word s o fun c => do
    c.drain
    let _ ← c.needBase o.a false
    let sp ← c.check o.a false c.l0 0 64 64 {}
    let ps ← c.placesPrecise [(c.l0, sp)] 64 false true
    if (mailFree? (c.s.core c.u.core)).isNone then .error (.wait .retry)
    else
      let epc := (c.pc + 12) &&& 0x00FFFFFFFFFFFFFC
      let s := c.put { c.g with scall := true, epc := epc, trapPc := c.pc, trapped := true }
      let rec_ := match ps with | (_, p) :: _ => c.request p | [] => []
      let s := c.callEdge s
      let s := s.modCore c.u.core fun k => mailPost k
        (mailBytes 2 c.g.slot c.g.gid (o.imm % 65536) c.u.ctx c.u.key.fn c.u.key.idx c.g.cause.toNat epc.toNat
          (frecVA c.s c.u c.g.gid).toNat 0 rec_)
      .error (.waitWith (agentRequest (c.noteAll s ps 64 {}) c.u (o.imm % 65536)) .scall)

/-- The caller of an scall goes on at EPC, with its state as edited; none when its frontier as edited is refused (R360, R361). -/
def scallResumes (g : Group) : Option Group :=
  if g.run = .stopped then some { g.uncovered with scall := false }
  else match editedFrontier g with
    | none => none
    | some (es, liven) => some { g with ents := resumeEntries g es, liven := liven, scall := false, trapped := false, fblk := none }

/-- Restarts a unit if its faults are all answered; one whose frontier as edited is refused ends as failed (R359, R361). -/
def restartOrFail (s : State) (k : UKey) : State := (restartUnit s k).getD (failUnit s k)

/-- The answer of an entry of a fault or an scall (R359, R360). -/
def answerEntry (s : State) (u : Unit) (g : Group) (scall : Bool) (fn : Nat) : State :=
  let k := u.key
  if fn = 2 then failUnit s k
  else if fn = 1 then
    let s := endGroup s k g.gid
    if scall then s else restartOrFail s k
  else if scall then
    match scallResumes g with
    | some g' => s.modGrp k g.gid fun _ => g'
    | none => failUnit s k
  else restartOrFail (s.modGrp k g.gid fun g => { g with fault := false }) k

def execSret (o : Op) (_x : ModX) (s : State) : Host.Outcome State Fault Refusal :=
  word s o fun c => do
    if !isSuper c.u.key then stop { code := C.PRIV }
    let slot := o.imm % 64
    let m := c.s.core c.u.core
    match m.morder.find? fun i => mailKind m i != 3 && mailSlot m i == slot with
    | none => c.bounds
    | some i =>
      if slot = 63 then c.bounds
      let s := c.s.setCore c.u.core (mailClear m i)
      let s := match slotGroup? s c.u.core slot with
        | some (u, g) => answerEntry (if mailKind m i = 2 then c.answerEdge s u.key g.gid else s) u g (mailKind m i == 2) o.fn
        | none => s
      return mailPump s c.u.core

/-! ## A core's own steps -/

def execSibhalt (k : UKey) (gid : Nat) (s : State) : Host.Outcome State Fault Refusal :=
  match (s.unit? k).bind fun u => u.grp? gid with
  | none => .next s
  | some g => match g.run with
    | .skid _ src => .next (stopSibling s k gid src)
    | _ => .next s

def execOffcutStallRelease (k : UKey) (gid : Nat) (s : State) : Host.Outcome State Fault Refusal :=
  .next (s.modGrp k gid fun g => { g with ents := g.ents.map fun e => if e.wait = .offcut then { e with wait := .none } else e })

/-- Reads again for one entry that waits in waitv or for a version (R150, R157). -/
def rereadEntry (s : State) (k : UKey) (gid i : Nat) : Host.Outcome State Fault Refusal :=
  match (s.unit? k).bind fun u => (u.grp? gid).bind fun g => (g.ents[i]?).map fun e => (u, g, e) with
  | none => .next s
  | some (u, g, e) =>
    match fetchWord s u e.pc 3 with
    | .error t => .next (takeFault s k gid 0 e.pc t)
    | .ok w =>
      let s' := { s with cur := some { u := k, gid := gid, ent := i, word := w } }
      match decode g.grant (isDet s u) w with
      | .error f => .next (takeFault s k gid w e.pc (illop f))
      | .ok (.waitv o m) => word s' o fun c => c.waitvBody o m
      | .ok (.tstAll o m) => word s' o fun c => c.tstAllBody o m
      | .ok _ => .next (s.modGrp k gid fun g => { g with ents := g.ents.set i { e with wait := .none } })

/-- The entries of a group that wait on memory, by PC and priority. -/
def memoryWaits (g : Group) : List (DWord × Nat) :=
  g.ents.filterMap fun e => if e.wait == .waitv || e.wait == .version then some (e.pc, e.prio) else none

/-- Reads again for each of them. -/
def rereadAll (s : State) (k : UKey) (gid : Nat) : List (DWord × Nat) → Host.Outcome State Fault Refusal
  | [] => .next s
  | (pc, prio) :: rest =>
    match (s.unit? k).bind fun u => u.grp? gid with
    | none => .next s
    | some g =>
      if g.run = .stopped then .next s
      else match g.ents.findIdx? fun e => e.pc == pc && e.prio == prio && (e.wait == .waitv || e.wait == .version) with
        | none => rereadAll s k gid rest
        | some i => match rereadEntry s k gid i with
          | .next s => rereadAll s k gid rest
          | r => r

def execWaitvReread (k : UKey) (gid : Nat) (s : State) : Host.Outcome State Fault Refusal :=
  match (s.unit? k).bind fun u => (u.grp? gid).map fun g => (u, g) with
  | none => .next s
  | some (u, g) => if u.vacating || g.scall then .next s else rereadAll s k gid (memoryWaits g)

/-- The ninth store record halts the unit: STOREFLT of the group at its next boundary, or a secondary error (R142, R354). -/
def queueFull (s : State) (u : Unit) (g : Group) (r : StoreFault) : State :=
  let t : Trap := { code := C.STOREFLT, detail := (u.recordsOf g.gid).length % 16 + 16 }
  let pc := if g.run = .stopped then g.epc else g.topPc
  if g.fault then impreciseFault s u.key g.gid t pc
  else
    takeFault s u.key g.gid (peekWord s u pc) pc t fun b => putBytes b 128 32 (sfNat r)

def execStoreFaultRecord (k : UKey) (r : StoreFault) (s : State) : Host.Outcome State Fault Refusal :=
  match s.unit? k with
  | none => .next s
  | some u =>
    match (List.range 8).find? fun i => u.sfq.all fun x => x.1 != i with
    | some i => .next (s.modUnit k fun u => { u with sfq := u.sfq ++ [(i, r)] })
    | none => match u.grp? r.gid with
      | some g => .next (queueFull s u g r)
      | none => .next s

/-- The word of a page-table entry (R373). -/
def Pte.word (p : Pte) : Nat :=
  p.mem * 2 ^ 52 + p.addr + p.size * 2 ^ 8 + p.dx.toNat * 2 ^ 6 + p.chk.toNat * 2 ^ 5 + p.x.toNat * 2 ^ 4 + p.w.toNat * 2 ^ 3
  + p.rd.toNat * 2 ^ 2 + p.leaf.toNat * 2 + p.v.toNat

/-- A walk that succeeds fills the TLB (R374). -/
def execPageWalk (core ctx : Nat) (va : DWord) (s : State) : Host.Outcome State Fault Refusal :=
  match s.ctx? ctx with
  | none => .next s
  | some c => match walk s c va.toNat with
    | .error _ => .next s
    | .ok p => match sizeInfo p.size with
      | none => .next s
      | some (lv, k) =>
        let span := 2 ^ (3 + 9 * lv)
        let e : TlbEnt := { ctx := ctx, va := va.toNat / 2 ^ k * 2 ^ k, size := 2 ^ k, pte := BitVec.ofNat 64 p.word,
                            part := va.toNat / span * span, span := span }
        .next (s.modCore core fun m => { m with tlb := e :: m.tlb.filter fun x => !(x.ctx == ctx && x.part == e.part) })

def execCoreReportAck (core idx : Nat) (s : State) : Host.Outcome State Fault Refusal := .next (ackReport s core idx)

def execQfree (k : UKey) (mask : Nat) (s : State) : Host.Outcome State Fault Refusal := .next (s.modUnit k fun u => freeRecords u mask)

def execRegisterWrite (core slot off size : Nat) (v : DWord) (s : State) : Host.Outcome State Fault Refusal :=
  .next (windowWrite s core slot off (bytesOfNat size v.toNat))

/-! ## The supervisor group (R220, R355, R366, R411) -/

/-- The number of a core's supervisor context. -/
def superCtxId (core : Nat) : Nat := 2 ^ 32 + core

def State.bank (s : State) (n : Nat) : Bank := s.banks.getD n { image := [] }

/-- The image of the bank that a core's supervisor comes from (R412). -/
def State.superImage (s : State) (core : Nat) : List Byte := (s.bank (s.core core).bank).image

/-- The supervisor context of a core, which the firmware owns (R355, log 15). -/
def superCtx (image : List Byte) (core : Nat) : Ctx :=
  { id := superCtxId core, fn := 0, root := (Config.supervisorRoot image).toNat, capbase := 0, arena := 0, arenaN := 0, tenant := false,
    table := 0, slots := 0, histva := 0, admva := 0, admN := 0, dirs := [], res := [], hist := [], adms := [], index := [], runs := [],
    time := 0, localptr := false, super := true, dead := false }

/-- The supervisor group as the firmware of an image starts it in slot 63 (R411, log 15). -/
def superUnit (image : List Byte) (core : Nat) : Unit :=
  let g := { Group.start 0 63 (16 * Config.supervisorBlocks image) with
    ents := [.new (Config.supervisorEntry image) 128 (BitVec.allOnes 32)], tid := (List.range 32).foldl (fun t i => Sparse.set 0 t i (BitVec.ofNat 32 i)) [] }
  { key := superKey core, ctx := superCtxId core, core := core, vault := 0, vsize := 0, offcut := 0, save := 0, grps := [g], acc := [],
    acct := [], accr := [], aslots := 0, bars := (List.range 16).map fun n => (n, Bar.start 1), ready := 0, pend := 0, tstat := [],
    sq := [], sfq := [], off := [], cmds := [], energy := 0, pwait := 0, hvy := 0, uimask := 0, ui := .start, race := .start,
    halted := false, vacating := false, failed := false, unrestored := false, ending := none }

/-- Starts a core's supervisor afresh from the core's bank (R366, R412). -/
def placeSuper (s : State) (core : Nat) : State :=
  { s with units := s.units.filter (fun u => u.key != superKey core) ++ [superUnit (s.superImage core) core],
           ctxs := s.ctxs.filter (fun c => c.id != superCtxId core) ++ [superCtx (s.superImage core) core] }

/-- The bank that a switch in progress changes over to. -/
def switchBank (s : State) : Nat := 1 - s.active

/-- Whether an entry waits for a mailbox entry: in a waitv on a word of the mailbox (R356, R411). -/
def awaitsMail (s : State) (u : Unit) (g : Group) (e : Entry) : Bool :=
  e.wait == .waitv && match instrAt s u g e with
    | some (w, .waitv o m) =>
      let c : Cx := { s := s, iss := { u := u.key, gid := g.gid, ent := 0, word := w }, u := u, g := g, e := e, ex := guardLanes g o.grd e.mask }
      c.lanes.any fun l => match c.spot o.a (m.space == 1) l (c.offM o m.ty.size o.disp l) m.ty.size m.ty.size false with
        | .ok sp => match placeOf? s u.core c.ctx sp.loc sp.va with | some p => p.sp == 4 && p.a < 0x800 | none => false
        | .error _ => false
    | _ => false

/-- Whether a core's supervisor is replaced now: it is from the old bank, its mailbox is empty, and it waits for an entry (R411). -/
def replaceable (s : State) (core : Nat) : Bool :=
  let c := s.core core
  s.switching.isSome && c.morder.isEmpty && c.mwait.isEmpty && c.hold.isEmpty && c.bank != switchBank s
  && (match (s.unit? (superKey core)).bind fun u => (u.grp? 0).map fun g => (u, g) with
      | some (u, g) => g.ents.all (awaitsMail s u g)
      | none => true)

/-- The switch ends once every supervisor has been replaced: the new bank is active, and the reply is sent (R411). -/
def switchEnd (s : State) : State :=
  match s.switching with
  | none => s
  | some (fn, tag, chan) =>
    if (List.range 512).all fun c => (s.core c).bank == switchBank s then
      replyOk { s with active := switchBank s, switching := none } { fn := fn, tag := tag, chan := chan, frame := mkFrame tag chan 0x15 [] }
    else s

def execSupervisorReplace (core : Nat) (s : State) : Host.Outcome State Fault Refusal :=
  .next (if replaceable s core then switchEnd (placeSuper (s.modCore core fun c => { c with bank := switchBank s }) core) else s)

/-- A group as a machine check leaves it: an scall is issued again on restoration (R366). -/
def Group.checked (g : Group) : Group :=
  if g.scall then { g with scall := false, cont := none, trapped := false, ents := g.ents.map Entry.rewait } else g

/-- A core machine check: units are saved or end as failed, the report is sent, the supervisor restarts (R366). State that did not read back
intact is an uncorrectable error of the die's SRAM, one for each unit lost (R402, R403, log 5). -/
def machineCheck (s : State) (core : Nat) (lost : List UKey) : State :=
  let sg := (s.unit? (superKey core)).bind fun u => u.grp? 0
  let us := userUnits s core
  let s := withdrawMail s core (List.range 63)
  let s := us.foldl (fun s u =>
    if u.ending.isSome then s
    else if lost.contains u.key then retireHistory (countEnd (removeUnit s u) u.key true) u.ctx
    else if u.unrestored then sendAway s u
    else vacate (s.modUnit u.key fun u => { u with halted := true, grps := u.grps.map Group.checked }) u.key) s
  let gone := (us.filter fun u => lost.contains u.key).map fun u => u.key.idx
  let s := s.modDie (dieOf core) fun d => { d with mchecks := d.mchecks + 1, sramU := d.sramU + gone.length }
  let s := notice s 0 opMcheck ([core, (sg.map fun g => g.cause.toNat).getD 0, (sg.map fun g => g.epc.toNat).getD 0] ++ gone)
  let s := s.modCore core fun c => { c with mbox := [], mpos := 0, morder := [], mwait := [], hold := [], port := [], portBusy := false }
  placeSuper s core

def execMachineCheck (core : Nat) (lost : List UKey) (s : State) : Host.Outcome State Fault Refusal := .next (machineCheck s core lost)

end Sys2Proof.Machine
end

