-- ==== Sys2Proof/Machine/Saving.lean ====
section
/-! DEFINITION. A unit is vacated: its commands are dealt with, its pointers become names, and its context image is written
(R148, R173, R257, R345, R369 to R371). -/

namespace Sys2Proof.Machine

/-! ## Short pointers (R257) -/

/-- Whether a pair of vector registers is tagged PTR. -/
def Group.ptrV (g : Group) (k : Nat) : Bool := g.vtag (2 * k) == .ptr && g.vtag (2 * k + 1) == .ptr
def Group.ptrS (g : Group) (k : Nat) : Bool := g.stag (2 * k) == .ptr && g.stag (2 * k + 1) == .ptr

def Group.pairV (g : Group) (k l : Nat) : Nat := (g.getV (2 * k) l).toNat + 2 ^ 32 * (g.getV (2 * k + 1) l).toNat
def Group.pairS (g : Group) (k : Nat) : Nat := (g.getS (2 * k)).toNat + 2 ^ 32 * (g.getS (2 * k + 1)).toNat

def Group.setPairV (g : Group) (k l x : Nat) : Group :=
  (g.setV (2 * k) l (BitVec.ofNat 32 x)).setV (2 * k + 1) l (BitVec.ofNat 32 (x / 2 ^ 32))
def Group.setPairS (g : Group) (k x : Nat) : Group := (g.setS (2 * k) (BitVec.ofNat 32 x)).setS (2 * k + 1) (BitVec.ofNat 32 (x / 2 ^ 32))

/-- The pairs of a group that hold pointers. -/
def Group.vPairs (g : Group) : List Nat := (List.range (g.grant / 2)).filter g.ptrV
def Group.sPairs (g : Group) : List Nat := (List.range 64).filter g.ptrS

/-- The pointers of a group: by register, then by lane. -/
def Group.pointers (g : Group) : List Nat := (g.vPairs.flatMap fun k => (List.range 32).map (g.pairV k)) ++ g.sPairs.map g.pairS

/-- The pairs of an offcut record that hold pointers. -/
def OffRec.pairs (r : OffRec) : List Nat :=
  (List.range (r.n / 2)).filter fun k => r.tags.getD (2 * k) .raw == .ptr && r.tags.getD (2 * k + 1) .raw == .ptr
def OffRec.pair (r : OffRec) (k : Nat) : Nat := (r.vals.getD (2 * k) 0).toNat + 2 ^ 32 * (r.vals.getD (2 * k + 1) 0).toNat
def OffRec.setPair (r : OffRec) (k x : Nat) : OffRec :=
  { r with vals := (r.vals.set (2 * k) (BitVec.ofNat 32 x)).set (2 * k + 1) (BitVec.ofNat 32 (x / 2 ^ 32)) }

/-- The low word of a base operand of a command: D, A, B at bits 0, 2, 4 of its pointer map (R371). -/
def Cmd.base (m : Cmd) (i : Nat) : Nat := (if i = 0 then m.dv else if i = 2 then m.av else m.bv).toNat % 2 ^ 64
def Cmd.setBase (m : Cmd) (i x : Nat) : Cmd :=
  let put (v : QWord) : QWord := BitVec.ofNat 128 (v.toNat / 2 ^ 64 * 2 ^ 64 + x)
  if i = 0 then { m with dv := put m.dv } else if i = 2 then { m with av := put m.av } else { m with bv := put m.bv }
def Cmd.bases (m : Cmd) : List Nat := [0, 2, 4].filter m.pmap.testBit

/-- Commands in agent order. -/
def Unit.cmdsInOrder (u : Unit) : List (Nat × Cmd) := (List.range 32).filterMap fun n => (u.cmd? n).map (n, ·)

/-- Live groups in ascending gid. -/
def Unit.groupsInOrder (u : Unit) : List Group := (List.range 32).filterMap u.grp?

/-- The pointers of a unit in the order in which their names are entered. -/
def Unit.pointers (u : Unit) : List Nat :=
  u.groupsInOrder.flatMap Group.pointers ++ (u.off.flatMap fun r => r.pairs.map r.pair)
  ++ u.cmdsInOrder.flatMap fun m => m.2.bases.map m.2.base

/-- The long name of a pointer's object, with OFFSET 0; none for the null pointer and for one that names nothing (log 39). -/
def objectName (c : Ctx) (p : Nat) : Option Nat :=
  if p = 0 then none else (pointerName c p).map fun n => n / 2 ^ 40 * 2 ^ 40

/-- The name table, without its entry 0. -/
def Unit.nameTable (u : Unit) (c : Ctx) : List Nat := (u.pointers.filterMap (objectName c)).eraseDups

/-- A pointer as an image holds it: the index of its name, and its offset. -/
def deswizzled (c : Ctx) (table : List Nat) (p : Nat) : Nat :=
  match objectName c p with
  | none => 0
  | some n => match table.findIdx? (· == n) with | some i => (i + 1) * 2 ^ 40 + ptrOff p | none => 0

/-- A group with its pointers deswizzled; the pairs keep the tag PTR here, which the image writes as NAME and a mark. -/
def Group.deswizzle (g : Group) (f : Nat → Nat) : Group :=
  let g := g.vPairs.foldl (fun g k => (List.range 32).foldl (fun g l => g.setPairV k l (f (g.pairV k l))) g) g
  g.sPairs.foldl (fun g k => g.setPairS k (f (g.pairS k))) g

def OffRec.deswizzle (r : OffRec) (f : Nat → Nat) : OffRec := r.pairs.foldl (fun r k => r.setPair k (f (r.pair k))) r

def Cmd.deswizzle (m : Cmd) (f : Nat → Nat) : Cmd := m.bases.foldl (fun m i => m.setBase i (f (m.base i))) m

/-- A unit with every pointer deswizzled. -/
def Unit.deswizzle (u : Unit) (f : Nat → Nat) : Unit :=
  { u with grps := u.grps.map fun g => if g.live then g.deswizzle f else g,
           off := u.off.map fun r => r.deswizzle f, cmds := u.cmds.map fun m => (m.1, m.2.deswizzle f) }

/-! ## The sections of an image (R369) -/

/-- A list of bytes brought to a length. -/
def padTo (n : Nat) (bs : List Byte) : List Byte := (bs ++ List.replicate (n - bs.length) 0).take n

/-- The flags of a launch as its packet and its images hold them (R333). -/
def Launch.flags (l : Launch) : Nat := l.det.toNat + 2 * l.compat.toNat + 4 * l.localptr.toNat + 8 * l.racechk.toNat + 16 * l.strict.toNat

def imgHeader (l : Launch) (u : Unit) (names : Nat) : List Byte :=
  fields 256 [(0, 2, 1), (2, 1, l.g), (3, 1, l.vblk), (4, 1, l.a), (5, 1, l.flags), (8, 8, u.key.idx), (16, 8, u.key.lid),
    (24, 4, l.b), (28, 4, l.c), (32, 4, l.imgTotal names), (36, 4, names), (40, 8, u.energy.toNat), (48, 8, u.pwait.toNat), (56, 1, u.hvy)]

/-- A group as its block writes it: the pairs that hold pointers carry the tag NAME; every other register keeps its tag, one half of a pair
tagged PTR too (R28, R257). -/
def Group.savedTags (g : Group) : Group :=
  let g' := g.vPairs.foldl (fun t k => (t.setVtag (2 * k) .name).setVtag (2 * k + 1) .name) g
  g.sPairs.foldl (fun t k => (t.setStag (2 * k) .name).setStag (2 * k + 1) .name) g'

/-- The pointer map of a group: 256 vector bits, then 128 scalar bits. -/
def Group.pointerMap (g : Group) : Nat :=
  g.vPairs.foldl (fun t k => t + 3 * 2 ^ (2 * k)) 0 + g.sPairs.foldl (fun t k => t + 3 * 2 ^ (256 + 2 * k)) 0

/-- A group's 0x9000 bytes, in the block of gid `n`. DESIGN CHOICE: R361 and R369 have no place for the threads of a group that the joiner
built, nor a block for a group whose gid is G or more; the threads follow the pointer map, one above each, and then comes the number of such a
gid (log 25). -/
def imgGroupBytes (u : Unit) (n : Nat) (g : Group) : List Byte :=
  let t := g.savedTags
  let park := match g.park with | some p => Sparse.getList 0 (frontierBlock p.ents p.liven) 0 264 | none => []
  let tids := (List.range 32).flatMap fun l => bytesOfNat 2 ((Sparse.get 0 g.tid l).toNat + 1)
  padTo 0x9000 (padTo 0x8E00 (padTo 0x8D00 (padTo 0x8B00 ((List.range 0x8B00).map (groupByte u t)) ++ park) ++ bytesOfNat 48 g.pointerMap)
    ++ tids ++ [BitVec.ofNat 8 (if n = g.gid then 0 else g.gid + 1)])

/-- The group that an image keeps in the block of a gid: the group of that gid, or one of those whose gids are G or more, each in the next block
whose own group is not live (log 25). -/
def Unit.blockGroup (u : Unit) (g n : Nat) : Option Group :=
  match u.grp? n with
  | some x => some x
  | none => ((List.range 32).filterMap fun k => if g ≤ k then u.grp? k else none)[((List.range n).filter fun k => (u.grp? k).isNone).length]?

/-- A barrier object as saved (R177). -/
def Bar.saved (b : Bar) : Nat :=
  b.stat.toNat * 2 ^ 192 + b.lstat.toNat * 2 ^ 128 + b.memb.toNat * 2 ^ 96 + b.ph % 2 ^ 32 * 2 ^ 64 + b.expect * 2 ^ 48
  + b.count * 2 ^ 32 + 2 * b.ltrap.toNat + b.trapf.toNat

/-- A stream register as saved (R288). -/
def Stream.saved (q : Stream) : Nat :=
  q.failed.toNat * 2 ^ 192 + q.filled.toNat * 2 ^ 128 + q.base * 2 ^ 106 + q.slotb * 2 ^ 90 + q.nm1 * 2 ^ 78 + q.head * 2 ^ 66
  + q.nfill * 2 ^ 59 + q.npop * 2 ^ 46 + q.bound.toNat

/-- The unit section. -/
def imgUnitBytes (u : Unit) : List Byte :=
  fields 0x2000 (((List.range 16).map fun b => (32 * b, 32, (u.bar b).saved))
    ++ (u.groupsInOrder.flatMap fun g =>
        ((List.range 16).map fun b => (0x200 + 64 * g.gid + 4 * b, 4, Sparse.get 0 g.tph b % 2 ^ 32)) ++ [(0xA00 + 2 * g.gid, 2, g.arrv.toNat)])
    ++ ((List.range 64).map fun t => (0xA40 + 8 * t, 8, (Sparse.get 0 u.tstat t).toNat))
    ++ [(0xC40, 8, u.ready.toNat), (0xC48, 8, u.uimask.toNat)]
    ++ ((List.range 8).map fun q => (0xC80 + 32 * q, 32, (u.stream q).saved))
    ++ [(0xD80, 8, qmask u)] ++ (u.sfq.map fun r => (0xE00 + 32 * r.1, 32, sfNat r.2))
    ++ uiFields 0x1000 u.ui)

/-- The accumulator section: slots, then the tag and the factor record of each. -/
def imgAccBytes (u : Unit) (a : Nat) : List Byte :=
  padTo (up256 (2050 * a)) ((List.range a).flatMap (fun k => (u.accSlot k).flatMap (bytesOfNat 4))
    ++ (List.range a).flatMap fun k => [BitVec.ofNat 8 (u.accTag k).code, BitVec.ofNat 8 (u.record k)])

/-- The plane section. -/
def imgPlaneBytes (c : Core) : List Byte :=
  padTo 262400 ((List.range (4 * planeWords)).flatMap (fun i => bytesOfNat 4 (Sparse.get 0 c.plane i).toNat)
    ++ (List.range 4).map fun i => BitVec.ofNat 8 (Sparse.get .raw c.planet i).code)

/-- A record of the offcut store (R228). -/
def OffRec.bytes (r : OffRec) : List Byte :=
  padTo (recBytes r.n) (bytesOfNat 16 (r.prio * 2 ^ 120 + r.preds * 2 ^ 112 + r.n * 2 ^ 103 + r.tid.toNat * 2 ^ 64 + r.pc.toNat % 2 ^ 56 / 4 * 4)
    ++ r.vals.flatMap (fun w => bytesOfNat 4 w.toNat)
    ++ (List.range ((r.n + 1) / 2)).map fun i =>
        if r.pairs.contains i then nibbles .name .name else nibbles (r.tags.getD (2 * i) .raw) (r.tags.getD (2 * i + 1) .raw))

/-- The pointer map of a record that starts at word `w` of the store. -/
def OffRec.pointerMap (r : OffRec) (w : Nat) : Nat := r.pairs.foldl (fun t k => t + 3 * 2 ^ (w + 4 + 2 * k)) 0

/-- The pointer map of records from word `w` of the store on. -/
def storeMap : Nat → List OffRec → Nat
  | _, [] => 0
  | w, r :: rs => r.pointerMap w + storeMap (w + recBytes r.n / 4) rs

/-- The offcut section: the store, then its pointer map. -/
def imgOffcutBytes (u : Unit) (c : Nat) : List Byte :=
  padTo (up256 (c + c / 32)) (padTo c (u.off.flatMap OffRec.bytes) ++ bytesOfNat (c / 32) (storeMap 0 u.off))

/-- The state byte of a record: a command that waits for its engine or its permit, and a contribution of which nothing has been applied, is
withdrawn unstarted (R173, R415). -/
def Cmd.savedState (m : Cmd) : Nat :=
  if m.prog != 0 || !m.sent.isEmpty || (m.state == .started && m.permit && m.stream.isNone) then 2 else 1

/-- PROGRESS of a stopped command: whole pieces (R371). -/
def Cmd.progress (m : Cmd) : Nat := if m.savedState = 2 then m.reached / pieceBytes * pieceBytes else 0

/-- The row offset that a record gives a lane of an mmq that does not execute: one that no row can have, for its address is not aligned.
DESIGN CHOICE: the record has no other place for the lanes of an mmq (R185, R371, log 73). -/
def Cmd.idleRow (m : Cmd) : Nat := (17 - m.av.toNat % 16) % 16

/-- The lanes of an mmq that a record says to execute. -/
def Cmd.rowLanes (m : Cmd) : Word := maskOf (fun l => (m.av.toNat + (m.vec.getD l 0).toNat) % 16 == 0) (List.range 32)

/-- The operands of a record that lie behind its head: row offsets of an mmq, the vector of a factor command; a copy has none (R371). -/
def Cmd.operands (m : Cmd) : List (Nat × Nat × Nat) :=
  match m.ins with
  | .mmq _ _ => (List.range 32).map fun l => (96 + 4 * l, 4, if m.exec.getLsbD l then (m.vec.getD l 0).toNat % 2 ^ 32 else m.idleRow)
  | i => if isFactor i then m.vec.zipIdx.map fun (x, i) => (96 + 8 * i, 8, x.toNat) else []

/-- A saved command record (R371). DESIGN CHOICE: it has no place for the issuing group, whose gid, one above it, stands in the upper half of
the A operand, which no command fills (log 73). -/
def Cmd.bytes (agent : Nat) (m : Cmd) : List Byte :=
  fields 1024 ([(0, 12, m.word), (12, 1, m.savedState), (13, 1, agent), (14, 1, m.pmap), (15, 1, if m.sent.isEmpty then 0 else 1),
      (16, 4, match m.wb with | some w => w.2 % 2 ^ 32 | none => 0xFFFFFFFF), (24, 8, m.progress), (32, 16, m.dv.toNat),
      (48, 8, m.av.toNat), (56, 1, m.gid + 1), (64, 16, m.bv.toNat), (80, 4, m.word % 2 ^ 32), (84, 1, m.tag.getD 0xFF), (85, 1, m.stream.getD 0xFF)] ++ m.operands)

/-- The command section. -/
def imgCmdBytes (u : Unit) : List Byte :=
  (List.range 32).flatMap fun n => match u.cmd? n with | some m => m.bytes n | none => List.replicate 1024 0

/-- The context image of a unit whose pointers are deswizzled. -/
def imageBytesOf (s : State) (l : Launch) (u : Unit) (table : List Nat) : List Byte :=
  let groups := (List.range l.g).flatMap fun n => match u.blockGroup l.g n with | some g => imgGroupBytes u n g | none => List.replicate 0x9000 0
  let vault := padTo (up256 l.b) (s.rdBytes 3 (vaultKey (vaultNo u.core) u.vault) l.b)
  imgHeader l u (table.length + 1) ++ groups ++ imgUnitBytes u ++ imgAccBytes u l.a
  ++ (if l.a = 0 then [] else imgPlaneBytes (s.core u.core)) ++ vault ++ imgOffcutBytes u l.c
  ++ List.replicate (up256 (4 * l.g * 272)) 0 ++ imgCmdBytes u
  ++ padTo (up256 (16 * (table.length + 1))) (List.replicate 16 0 ++ table.flatMap (bytesOfNat 16))

/-! ## UNIT_VACATE (R173, R345) -/

/-- A command that is not saved: it has ended, or its work runs to completion (R173, R184). -/
def finishes (s : State) (u : Unit) (m : Nat × Cmd) : Bool :=
  m.2.state == .done
  || (match m.2.ins with
      | .mmq _ _ => m.2.permit || (swapBehind s u.core u.key m.1 && u.wbDone m.2)
      | .ldpl _ _ => swapBehind s u.core u.key m.1
      | i => isFactor i && m.2.state == .started && m.2.permit)

/-- Whether a command of a unit that leaves is still to come to a boundary at which its record can say that it stopped (R173). -/
def stops (m : Nat × Cmd) : Bool := m.2.state == .started && m.2.permit && (!m.2.atPiece || !m.2.back.isEmpty || m.2.nextGot.isSome)

/-- Whether a unit of a unit's launch with a lower index leaves before it (R345). -/
def lowerLeaves (s : State) (u : Unit) : Bool :=
  s.units.any fun x => x.key.fn == u.key.fn && x.key.lid == u.key.lid && x.key.idx < u.key.idx && x.vacating
    && (!x.unrestored || s.agenda.contains (.unitVacate x.key))

/-- Whether a unit cannot be saved yet: something that its groups have begun is still on its way, a command finishes or stops first, or a
unit of its launch with a lower index leaves before it (R345). -/
def saveWaits (s : State) (u : Unit) : Bool :=
  u.grps.any (fun g => g.live && (g.raising || g.ents.isEmpty || recordsDue s u.key g.gid))
  || u.cmds.any (fun m => finishes s u m || stops m)
  || (List.range 2).any (fun p => swapReady s u.core p)
  || lowerLeaves s u

/-- The groups of a unit as it is saved: those still in their skid have stopped, an scall is issued again, waits begin anew. -/
def stopForSave (s : State) (u : Unit) : State :=
  let s := (u.grps.filter (·.live)).foldl (fun s g => match g.run with | .skid _ src => stopSibling s u.key g.gid src | _ => s) s
  let s := withdrawMail s u.core ((u.grps.filter (·.live)).map (·.slot))
  s.modUnit u.key fun u => { u with grps := u.grps.map fun g =>
    let g := { g.checked with cont := none }
    { g with ents := g.ents.map Entry.rewait } }

/-- Saves a unit and takes it off its core. The image keeps its interrupt state; raises that come while it waits for its restoration gather
in a state of their own (R300, R308). -/
def saveUnit (s : State) (u : Unit) (l : Launch) : State :=
  let s := stopForSave s u
  match s.unit? u.key with
  | none => s
  | some u =>
    let c := s.ctxOf u
    let table := u.nameTable c
    let d := u.deswizzle (deswizzled c table)
    let s := sysWriteBytes s c (c.arena + u.save) (imageBytesOf s l d table)
    let v : Vac := { idx := u.key.idx, save := u.save, size := l.imgTotal (table.length + 1), unit := some { d with cmds := u.cmds, ui := .start } }
    let s := u.cmds.foldl (fun s m => dropCmd (settlePermit s u.key u.core m.2) u.key m.1) s
    let s := (u.grps.filter (·.live)).foldl (fun s g => dropGroupWaits s u.ctx u.key g.gid) s
    let s := endOwnership s u.key
    let s := freePlanes { s with units := s.units.filter fun x => x.key != u.key } u.core
    retireHistory (s.modLaunch l.fn l.lid fun l => { l with resume := l.resume ++ [v] }) u.ctx

def execUnitVacate (k : UKey) (s : State) : Host.Outcome State Fault Refusal :=
  match s.unit? k with
  | none => .next s
  | some u => match launchOf s u with
    | none => .next s
    | some l =>
      if isSuper k || !u.vacating then .next s
      else if u.unrestored then .next (if lowerLeaves s u then s.due (.unitVacate k) else unplace s u l)
      else if unitDone u || u.ending.isSome then .next (s.modUnit k fun u => { u with vacating := false })
      else if saveWaits s u then .next (s.due (.unitVacate k))
      else .next (saveUnit s u l)

end Sys2Proof.Machine
end

