-- ==== Sys2Proof/Machine/Restore.lean ====
section
/-! DEFINITION. A vacated unit is restored: its image is checked, its names are admitted, and its state and its commands come back
before it issues (R148, R173, R258, R308, R346, R370 to R372). -/

namespace Sys2Proof.Machine

/-! ## The checks (R372) -/

/-- Entry `i` of a table of tag nibbles. -/
def Rd.nibble (rd : Rd) (off i : Nat) : Nat := rd (off + i / 2) 1 / 16 ^ (i % 2) % 16

/-- Bit `i` of a pointer map. -/
def Rd.mark (rd : Rd) (off i : Nat) : Bool := (rd (off + i / 8) 1).testBit (i % 8)

/-- A tag a register may not carry (R28). -/
def badTag (x : Nat) : Bool := match tagOf x with | none => true | some .tri => true | _ => false

/-- The offset of the first tag, of `n` registers, that a register may not carry. -/
def badTags (rd : Rd) (off n : Nat) : Option Nat := ((List.range n).find? fun i => badTag (rd.nibble off i)).map fun i => off + i / 2

/-- Whether a mark stands at a register whose pair is not tagged NAME. -/
def badMark (rd : Rd) (tags map i : Nat) : Bool :=
  rd.mark map i && !(rd.nibble tags (i / 2 * 2) == Tag.name.code && rd.nibble tags (i / 2 * 2 + 1) == Tag.name.code)

def badMarks (rd : Rd) (tags map n : Nat) : Option Nat := ((List.range n).find? fun i => badMark rd tags map i).map fun i => map + i / 8

/-- The offset of the fault of a frontier block. -/
def badFrontier (rd : Rd) (off grant : Nat) : Option Nat :=
  match parseFrontier (rd off 264) grant (BitVec.allOnes 32) with | .ok _ => none | .error e => some (off + e)

/-- Whether an image says that a group was no longer live: an empty frontier block (log 40). -/
def Rd.gone (rd : Rd) (gid : Nat) : Bool := rd (imgGroup gid + 0x8400) 264 == 0

/-- Whether a block keeps a group of a unit: one whose entries it or the machine still knows. -/
def Unit.inBlock (u : Unit) (rd : Rd) (l : Launch) (n : Nat) : Bool :=
  u.grps.any fun g => g.live && rd.blockOf l.g g.gid = n && !(g.ents.isEmpty && rd.gone n)

/-- The first field at fault of a group's block. -/
def badGroup (rd : Rd) (grant gid : Nat) : Option Nat :=
  let b := imgGroup gid
  let inh := (rd (b + 0x8630) 1).testBit 0
  (badTags rd (b + 0x8300) grant).or <| (badTags rd (b + 0x8380) 128).or <| (badFrontier rd (b + 0x8400) grant).or <|
    ((if inh then badFrontier rd (b + 0x8B00) grant else none).or <| (badMarks rd (b + 0x8300) (b + 0x8D00) 256).or
      (badMarks rd (b + 0x8380) (b + 0x8D20) 128))

/-- A field of the header that disagrees with the launch or the unit. -/
def badHeader (rd : Rd) (l : Launch) (idx : Nat) : Option Nat :=
  ([(0, 2, 1), (2, 1, l.g), (3, 1, l.vblk), (4, 1, l.a), (5, 1, l.flags), (8, 8, idx), (16, 8, l.lid), (24, 4, l.b), (28, 4, l.c),
    (32, 4, l.imgTotal (rd 36 4))].find? fun f => rd f.1 f.2.1 != f.2.2).map (·.1)

/-- The records of an offcut store from offset `o` on, with their offsets: they end where no room is left or a header is zero. -/
def parseStore (rd : Rd) (l : Launch) (now : Nat) : Nat → Nat → List (Nat × OffRec)
  | 0, _ => []
  | fuel + 1, o =>
    let b := l.imgOffcut + o
    let h := rd b 16
    let n := bits h 111 103
    if h = 0 || l.c < o + 16 || l.c < o + recBytes n then []
    else
      let tag (i : Nat) : Tag :=
        let t := (tagOf (rd.nibble (b + 16 + 4 * n) i)).getD .raw
        if t = .name && rd.mark (l.imgOffcut + l.c) (o / 4 + 4 + i) then .ptr else t
      (o, { pc := BitVec.ofNat 64 (bits h 55 2 * 4), prio := bits h 127 120, tid := BitVec.ofNat 32 (bits h 95 64), preds := bits h 118 112,
            n := n, vals := (List.range n).map fun i => BitVec.ofNat 32 (rd (b + 16 + 4 * i) 4), tags := (List.range n).map tag, age := now,
            clock := [] }) :: parseStore rd l now fuel (o + recBytes n)

/-- The first tag at fault of the records of a store, or the first mark at a register of them whose pair is not tagged NAME. -/
def badStore (rd : Rd) (l : Launch) : Option Nat :=
  (parseStore rd l 0 (l.c / 16) 0).findSome? fun (o, r) =>
    let tags := l.imgOffcut + o + 16 + 4 * r.n
    let w := o / 4 + 4
    (badTags rd tags r.n).or (((List.range r.n).find? fun i =>
      rd.mark (l.imgOffcut + l.c) (w + i) && !(rd.nibble tags (i / 2 * 2) == Tag.name.code && rd.nibble tags (i / 2 * 2 + 1) == Tag.name.code)).map
        fun i => l.imgOffcut + l.c + (w + i) / 8)

/-- The first name at fault. -/
def badName (rd : Rd) (l : Launch) : Option Nat :=
  (List.range (rd 36 4)).findSome? fun i =>
    let n := rd (l.imgNames + 16 * i) 16
    if i = 0 then none
    else if nameOff n != 0 then some (l.imgNames + 16 * i)
    else if n / 2 ^ 127 = 0 || nameKind n = 3 then some (l.imgNames + 16 * i + 15) else none

/-- The offset of the first field at fault of an image: `live` says which groups it holds (R372). -/
def badImage (rd : Rd) (l : Launch) (idx : Nat) (live : Nat → Bool) : Option Nat :=
  let tagAt (n off step top : Nat) : Option Nat :=
    ((List.range n).find? fun i => (tagOf (rd (off + step * i) 1 % top)).isNone).map fun i => off + step * i
  (badHeader rd l idx).or <| (((List.range l.g).filter live).findSome? (badGroup rd (16 * l.vblk))).or <|
    (tagAt l.a (l.imgAcc + 2048 * l.a) 2 16).or <| (if l.a = 0 then none else tagAt 4 (l.imgPlanes + 262144) 1 256).or <|
      (badStore rd l).or (badName rd l)

/-! ## The parts of a unit (R369 to R371) -/

/-- Tags of registers: a marked NAME is a pointer still to be swizzled. -/
def Rd.tags (rd : Rd) (off map n : Nat) : Sparse Tag :=
  Sparse.setList .raw [] 0 ((List.range n).map fun i =>
    let t := (tagOf (rd.nibble off i)).getD .raw
    if t = .name && rd.mark map i then Tag.ptr else t)

/-- Whether a group that is known from its image alone holds a fault that was not answered: its CAUSE is that of a fault of its own, and EPC
is the PC of an entry that stopped there. DEDUCED: an image has no other mark of it (R366, log 25). -/
def Group.faultKept (g : Group) : Bool :=
  let code := g.cause.toNat % 256
  code != 0 && code != C.SIBHALT && code != C.WATCHDOG && code != C.CANCEL && g.ents.any fun e => e.pc == g.epc

/-- A group with the fault that its image keeps, if it keeps one: it is posted again (R366). -/
def Group.refault (g : Group) : Group := if g.faultKept then { g with fault := true, trapped := true, trapPc := g.epc } else g

/-- A group from its block and its part of the unit section, with reserved fields zero (R11); what no image holds comes from the group as it
stood, and the threads of one that is known from its image alone from its block (log 25). -/
def loadGroup (rd : Rd) (l : Launch) (g : Group) : Group :=
  let b := imgGroup (rd.blockOf l.g g.gid)
  let x := l.imgUnit
  let (es, liven) := match parseFrontier (rd (b + 0x8400) 264) g.grant (BitVec.allOnes 32) with | .ok r => r | .error _ => (g.ents, g.liven)
  let inh := (rd (b + 0x8630) 1).testBit 0
  let park := match parseFrontier (rd (b + 0x8B00) 264) g.grant (BitVec.allOnes 32) with
    | .ok (ents, n) => if inh then some { ents := ents, liven := n, d := 0 : Park } else none
    | .error _ => none
  let d (k : Nat) : Nat := rd (b + 0x8600 + 8 * k) 8
  let g' := (List.range 5).foldl (fun g k => setBlockSpr g k (d k)) g
  let g' : Group := { g' with
    v := rd.words b (32 * g.grant), s := rd.words (b + 0x8000) 128, m := rd.words (b + 0x8200) 32, p := rd.words (b + 0x8280) 7,
    vt := rd.tags (b + 0x8300) (b + 0x8D00) g.grant, st := rd.tags (b + 0x8380) (b + 0x8D20) 128, ents := es, liven := liven,
    skidN := d 5 % 32, inh := inh,
    sect := (rd (b + 0x8630) 1).testBit 1, park := park, after := false, fblk := none,
    frec := Sparse.setList 0 [] 0 (bytesOfNat 256 (rd (b + 0x8A00) 256)),
    tph := Sparse.setList 0 [] 0 ((List.range 16).map fun n => rd (x + 0x200 + 64 * g.gid + 4 * n) 4),
    arrv := BitVec.ofNat 16 (rd (x + 0xA00 + 2 * g.gid) 2) }
  let tid (ln : Nat) : Word := let t := rd (b + 0x8E00 + 2 * ln) 2; if t = 0 then Sparse.get 0 g.tid ln else BitVec.ofNat 32 (t - 1)
  if g.ents.isEmpty then { g' with tid := Sparse.setList 0 [] 0 ((List.range 32).map tid) }.refault else g'

def loadBar (x : Nat) : Bar :=
  { stat := BitVec.ofNat 64 (x / 2 ^ 192), lstat := BitVec.ofNat 64 (bits x 191 128), memb := BitVec.ofNat 32 (bits x 127 96),
    ph := bits x 95 64, expect := bits x 63 48, count := bits x 47 32, ltrap := x.testBit 1, trapf := x.testBit 0 }

def loadStream (x : Nat) : Stream :=
  { failed := BitVec.ofNat 64 (x / 2 ^ 192), filled := BitVec.ofNat 64 (bits x 191 128), base := bits x 127 106, slotb := bits x 105 90,
    nm1 := bits x 89 78, head := bits x 77 66, nfill := bits x 65 59, npop := bits x 58 46, bound := x.testBit 0 }

/-- The slots that begin a factor tile, where nothing but an image is known: runs of TRI from the lowest slot up (log 32). -/
def tileBases (rd : Rd) (l : Launch) : Nat → Nat → List Nat
  | 0, _ => []
  | n + 1, k =>
    let off := l.imgAcc + 2048 * l.a + 2 * k
    if k < l.a && rd off 1 % 16 = Tag.tri.code then
      let r := rd (off + 1) 1
      k :: tileBases rd l n (k + 2 * Legal.tileHalf (recNc r) (recF64 r))
    else tileBases rd l n (k + 1)

/-- The unit section, the accumulators and the header's counters (R369); raises accepted since the unit was placed join the interrupt state
of its image (R300, R308). -/
def loadUnit (rd : Rd) (l : Launch) (now : Nat) (u : Unit) : Unit :=
  let x := l.imgUnit
  let accT := l.imgAcc + 2048 * l.a
  let base := if u.accr.isEmpty then tileBases rd l l.a 0 else (u.accr.filter fun e => tileBase ≤ e.2).map (·.1)
  let clocks := u.off.map (·.clock)
  { u with
    bars := (List.range 16).foldl (fun t b => Sparse.set (Bar.start 0) t b (loadBar (rd (x + 32 * b) 32))) [],
    tstat := Sparse.setList 0 [] 0 ((List.range 64).map fun t => BitVec.ofNat 64 (rd (x + 0xA40 + 8 * t) 8)),
    ready := BitVec.ofNat 64 (rd (x + 0xC40) 8), pend := 0, uimask := BitVec.ofNat 64 (rd (x + 0xC48) 8),
    sq := Sparse.setList .start [] 0 ((List.range 8).map fun q => loadStream (rd (x + 0xC80 + 32 * q) 32)),
    sfq := ((List.range 8).filter fun i => (rd (x + 0xD80) 8).testBit i).map fun i => (i, sfOf (rd (x + 0xE00 + 32 * i) 32)),
    ui := (savedUi rd x).merge u.ui l,
    acc := rd.words l.imgAcc (512 * l.a),
    acct := Sparse.setList .raw [] 0 ((List.range l.a).map fun k => (tagOf (rd (accT + 2 * k) 1 % 16)).getD .raw),
    accr := Sparse.setList 0 [] 0 ((List.range l.a).map fun k => rd (accT + 2 * k + 1) 1 / 16 * 16 + (if base.contains k then tileBase else 0)),
    off := (parseStore rd l now (l.c / 16) 0).zipIdx.map fun ((_, r), i) => { r with clock := clocks.getD i [] },
    energy := BitVec.ofNat 64 (rd 40 8), pwait := BitVec.ofNat 64 (rd 48 8), hvy := rd 56 1 }

/-- A command as its word alone says it, without operands, issued by a group; which group it was is free where its record does not say
(log 73). -/
def Cmd.ofWord (u : Unit) (gid : Nat) (i : Instr) (w d : Nat) : Cmd :=
  let m : Cmd := { ins := i, word := w, gid := gid, pc := 0, state := .queued, dv := 0, av := 0, bv := 0, pmap := 0, tag := none, wb := none,
                   ab := none, trapf := false, stream := none, fill := none, prog := 0, permit := false, status := 0, exec := BitVec.allOnes 32,
                   vec := [], quarters := [], pins := [], remote := false, sent := [], got := [], ahead := [], back := [], asked := 0, resumed := false, snap := none, counted := false }
  match i with
  | .mmq o _ => { m with ab := arriveBar (o.imm / 2 ^ 22 % 32), quarters := [0, 1, 2, 3] }
  | .trchol o _ | .trdwd o _ => { m with ab := some (o.imm / 2 ^ 23 % 16), trapf := o.fn == 0 }
  | .trupd o _ | .trupd8 o _ | .trsolve o _ | .trscale o _ => { m with ab := some (o.imm / 2 ^ 23 % 16) }
  | .cpyr _ _ | .ratom _ _ => { m with remote := true }
  | .cred _ x => { m with remote := x.f 38 37 == 2 }
  | .sfill _ x =>
    let q := x.f 44 42
    let st := u.stream q
    { m with fill := some (q, (d % 2 ^ 22 - st.base) / (st.slotb * 64)) }
  | _ => m

/-- Elements of the vector of a factor command. -/
def facElems : Instr → Nat
  | .trupd _ x | .trdwd _ x | .trsolve _ x => facN x
  | _ => 0

/-- An mmq executes in the lanes whose row offsets its record gives (R371, log 73). -/
def Cmd.rowed (m : Cmd) : Cmd :=
  match m.ins with
  | .mmq _ _ => { m with exec := m.rowLanes, quarters := quartersOf m.rowLanes }
  | _ => m

/-- Where a stopped copy goes on: at the unit that begins the piece its PROGRESS names (R173, R371). -/
def Cmd.restart (m : Cmd) : Nat :=
  match m.ins with
  | .cpy _ _ | .cpyg _ _ | .cpyt _ _ | .sfill _ _ => m.edge m.prog
  | .cred _ _ => if m.remote then m.prog else m.edge m.prog
  | _ => m.prog

/-- The command of a saved record, and its state byte; none for an empty record (R371). -/
def loadCmd (rd : Rd) (l : Launch) (u : Unit) (agent : Nat) : Option (Nat × Cmd) :=
  let b := l.imgCmds + 1024 * agent
  let st := rd (b + 12) 1
  let w := rd b 12
  if st = 0 || 3 < st then none
  else match decode (16 * l.vblk) l.det w with
    | .error _ => none
    | .ok i =>
      let gid := if rd (b + 56) 1 = 0 then Config.recordGroup agent % l.g else (rd (b + 56) 1 - 1) % 32
      let new := Cmd.ofWord u gid i w (rd (b + 32) 4)
      let m := match u.cmd? agent with | some m => if m.word = w then m else new | none => new
      let wb := rd (b + 16) 4
      let sent := if rd (b + 15) 1 = 0 then [] else m.sent
      let last := match u.cmd? agent with | some m => m.prog | none => 0
      let vec := match i with
        | .mmq _ _ => (List.range 32).map fun n => BitVec.ofNat 64 (rd (b + 96 + 4 * n) 4)
        | _ => (List.range (facElems i)).map fun n => BitVec.ofNat 64 (rd (b + 96 + 8 * n) 8)
      let m : Cmd := { m with
        state := .queued, dv := BitVec.ofNat 128 (rd (b + 32) 16), av := BitVec.ofNat 128 (rd (b + 48) 8),
        bv := BitVec.ofNat 128 (rd (b + 64) 16), pmap := rd (b + 14) 1, tag := if rd (b + 84) 1 < 64 then some (rd (b + 84) 1) else none,
        wb := if wb = 0xFFFFFFFF then none else some (w % 2 ^ 32 / 2 ^ 27, wb),
        stream := if rd (b + 85) 1 < 16 then some (rd (b + 85) 1) else none, vec := vec, pins := [], sent := sent,
        prog := rd (b + 24) 8, got := if sent.isEmpty then [] else m.got, ahead := [], back := [], status := if sent.isEmpty then BitVec.ofNat 64 (rd (b + 88) 8) else m.status,
        asked := 0, resumed := !sent.isEmpty, permit := false, snap := none }
      let m := if !sent.isEmpty then { m with prog := last } else if st = 2 && m.prog != 0 then { m with prog := m.restart } else m
      some (st, m.rowed)

/-! ## Names (R258) -/

/-- The wait of a restore for entry `i` of a name table. -/
def nameWait (k : UKey) (i n : Nat) : AdmWait :=
  { u := k, gid := restoreGid, pc := BitVec.ofNat 64 i, lane := 0, kind := nameKind n, gen := nameGen n, res := 0, inc := 0, slot := 0,
    extent := 0, estat := 0, detail := 0 }

/-- A wait that is decided at once. -/
def keepWait (s : State) (ctx key : Nat) (w : AdmWait) : State :=
  s.modCtx ctx fun c => { c with adms := c.adms ++ [{ key := key, slot := none, owning := false, asked := none, probe := 0, active := false, waits := [w] }] }

/-- Asks for the admission of an entry (R247, R249). -/
def askEntry (s : State) (c : Ctx) (k : UKey) (i n : Nat) : State :=
  let w := nameWait k i n
  match askName c n with
  | .fail code detail => keepWait s c.id (nameKey n) { w with res := code, detail := detail }
  | .have slot r => keepWait s c.id (nameKey n) { w with res := 1, inc := r.inc, slot := slot, extent := r.extent }
  | .join => joinAdmission s c.id (nameKey n) w

/-- Where the admissions of a name table stand: all decided with these results, or one to ask for, or one to wait for. -/
inductive Names
  | all (ws : List AdmWait)
  | ask (i n : Nat)
  | waiting
  deriving DecidableEq, Repr

/-- Looks through the entries in ascending index. -/
def nameState (c : Ctx) (k : UKey) : Nat → List Nat → Names
  | _, [] => .all []
  | i, n :: ns =>
    match c.laneWait (nameKey n) k restoreGid (BitVec.ofNat 64 i) 0 with
    | none => .ask i n
    | some w => if w.res = 0 then .waiting
      else match nameState c k (i + 1) ns with
        | .all ws => .all (w :: ws)
        | r => r

/-- A value of a marked pair as the pointer it becomes; none where its entry has failed or is none. -/
def swizzled (ws : List AdmWait) (x : Nat) : Option Nat :=
  let i := bits x 63 40
  if i = 0 then some 0
  else match ws[i - 1]? with
    | some w => if w.res = 1 then some (mkPtr w.inc w.slot (x % 2 ^ 40)) else none
    | none => none

/-- The lowest failed entry among values. -/
def lowestFailed (ws : List AdmWait) (xs : List Nat) : Option Nat :=
  xs.foldl (fun b x =>
    let i := bits x 63 40
    if (swizzled ws x).isSome || ws.length < i then b else match b with | some j => some (min i j) | none => some i) none

/-- Swizzles the pairs of a group; one with a value that fails stays RAW with its words. -/
def Group.swizzle (g : Group) (ws : List AdmWait) : Group :=
  let g := g.vPairs.foldl (fun g k =>
    if (List.range 32).all fun l => (swizzled ws (g.pairV k l)).isSome then
      (List.range 32).foldl (fun g l => g.setPairV k l ((swizzled ws (g.pairV k l)).getD 0)) g
    else (g.setVtag (2 * k) .raw).setVtag (2 * k + 1) .raw) g
  g.sPairs.foldl (fun g k => match swizzled ws (g.pairS k) with
    | some p => g.setPairS k p
    | none => (g.setStag (2 * k) .raw).setStag (2 * k + 1) .raw) g

def OffRec.swizzle (r : OffRec) (ws : List AdmWait) : OffRec :=
  r.pairs.foldl (fun r k => match swizzled ws (r.pair k) with
    | some p => r.setPair k p
    | none => { r with tags := (r.tags.set (2 * k) .raw).set (2 * k + 1) .raw }) r

/-! ## Commands come back (R173) -/

/-- Puts a restored command into the queue of its engine. -/
def requeue (s : State) (k : UKey) (core agent : Nat) (m : Cmd) : State :=
  match m.ins with
  | .ldpl _ x => s.modCore core fun c =>
      { c with planeq := Sparse.set .raw c.planeq (2 * x.f 44 44 + 1) (planeTag (x.f 43 41)), mq := c.mq ++ [.load k agent] }
  | .mmq _ _ => s.modCore core fun c => { c with mq := c.mq ++ m.quarters.map fun q => .quarter k agent q }
  | i => if isFactor i then s.modCore core fun c => { c with fq := c.fq ++ [(k, agent)] } else s

/-- Whether an ordered contribution has been counted already. -/
def counted (s : State) (k : UKey) (m : Cmd) : Bool :=
  match m.stream, s.launch? k.fn k.lid with
  | some n, some l => (l.ostream n).seen.contains k.idx
  | _, _ => false

/-- Adds a restored command to its unit. -/
def addCmd (s : State) (k : UKey) (agent : Nat) (m : Cmd) : State :=
  s.modUnit k fun u =>
    let pend := match m.tag with | some t => u.pend ||| BitVec.ofNat 64 (2 ^ t) | none => u.pend
    { u with cmds := u.cmds ++ [(agent, m)], pend := pend }

/-- A command that has ended before its unit runs again: its tag, slot or barrier learns of it at once. -/
def endRestored (s : State) (k : UKey) (agent : Nat) (m : Cmd) (st : DWord) : State :=
  let s := addCmd s k agent { m with state := .done, status := st, pins := [] }
  if m.tag.isSome then tagEnd s k agent else if m.fill.isSome then slotEnd s k agent else cmdArrive s k agent st

/-- A saved command record takes effect: it ends, or re-takes its pins and enters its engine's queue again, from which it starts as one that
has just been issued; a contribution that has been counted is not counted twice (R173, R371). -/
def restoreCmd (s : State) (k : UKey) (core : Nat) (ws : List AdmWait) (agent st : Nat) (m : Cmd) : State :=
  if st = 3 then endRestored s k agent m m.status
  else if m.bases.any fun i => (swizzled ws (m.base i)).isNone then endRestored s k agent m (statusWord St.XLATE 0)
  else
    let m := m.bases.foldl (fun m i => m.setBase i ((swizzled ws (m.base i)).getD 0)) m
    let pins := (m.bases.map m.base).filter isPtr |>.map ptrSlot
    let s := pins.foldl (fun s p => match s.unit? k with | some u => copyPin s u.ctx p true | none => s) s
    let m := { m with pins := pins, status := if m.sent.isEmpty then 0 else m.status, counted := m.counted || counted s k m }
    requeue (addCmd s k agent m) k core agent m

/-! ## UNIT_RESTORE -/

/-- Writes the late replies of an image in ascending order (R148, R370). -/
def lateReplies (rd : Rd) (l : Launch) (u : Unit) : Unit :=
  (List.range (4 * l.g)).foldl (fun u i =>
    let b := l.imgLate + 272 * i
    let h := rd b 4
    let ty := tyOf (rd (b + 8) 1)
    if h.testBit 31 && ty.code = rd (b + 8) 1 then
      u.modGrp (bits h 28 24) fun g =>
        g.write (opdOf (bits h 8 0)) ty.regs ty.tag (fun ln => rd (b + 16 + 8 * ln) 8) (BitVec.ofNat 32 (rd (b + 4) 4))
    else u) u

/-- The trap of a group that holds a name whose admission failed (R258). -/
def nameTrap (s : State) (k : UKey) (ws : List AdmWait) (gid i : Nat) : State :=
  match (s.unit? k).bind fun u => (u.grp? gid).map fun g => (u, g), ws[i - 1]? with
  | some (u, g), some w =>
    takeFault s k gid (peekWord s u g.topPc) g.topPc { code := w.res, detail := w.detail, estat := w.estat } fun t => putBytes t 56 8 i
  | _, _ => s

/-- Faults that were not answered are posted again, in slot order (R366); a unit whose faults are all answered runs on. -/
def repost (s : State) (k : UKey) : State :=
  match s.unit? k with
  | none => s
  | some u =>
    let hit := (List.range 63).filterMap fun slot => u.grps.find? fun g => g.live && g.fault && g.slot == slot
    if !u.halted then s
    else if hit.isEmpty then restartOrFail s k
    else hit.foldl (fun s g => postFault s u g) s

/-- A unit whose image is refused ends as failed (R372). -/
def imageError (s : State) (u : Unit) (off : Nat) : State :=
  let s := notice s u.key.fn opImageError [u.key.lid, u.key.idx, off]
  retireHistory (countEnd (removeUnit s u) u.key true) u.ctx

/-- Brings a unit back from its image once its names are admitted; one whose core has been fenced, or whose function is no longer the tenant,
leaves again (R314, R349, R404). -/
def restoreUnit (s : State) (u : Unit) (l : Launch) (rd : Rd) (ws : List AdmWait) : State :=
  let k := u.key
  let known (g : Group) : Bool := rd.blockOf l.g g.gid < l.g && (g.gid < l.g || g.ents.isEmpty)
  let gs := (u.grps.filter fun g => g.live && !(known g && g.ents.isEmpty && rd.gone (rd.blockOf l.g g.gid))).map fun g =>
    if known g then loadGroup rd l g else g
  let halted := u.halted || gs.any (·.fault)
  let traps := gs.filterMap fun g => (lowestFailed ws g.pointers).map fun i => (g.gid, i)
  let u1 := loadUnit rd l (s.clk u.core) u
  let u2 := { u1 with grps := gs.map fun g => { g.swizzle ws with run := if halted then .stopped else .running }, halted := halted, unrestored := false,
                      off := u1.off.map fun r => r.swizzle ws, cmds := [], race := if s.tracks then u.race.resume k else u.race }
  let s := s.setUnit (lateReplies rd l u2)
  let s := s.wrBytes 3 (vaultKey (vaultNo u.core) u.vault) (bytesOfNat l.b (rd l.imgVault l.b))
  let s := (List.range 32).foldl (fun s n => match loadCmd rd l { u1 with cmds := u.cmds } n with
    | some (st, m) => restoreCmd s k u.core ws n st m
    | none => s) s
  let s := dropGroupWaits s u.ctx k restoreGid
  let s := flushBlock (s.modUnit k fun u => { u with vacating := false }) l
  let s := traps.foldl (fun s t => nameTrap s k ws t.1 t.2) (repost s k)
  if s.owner = some k.fn && !(s.die (dieOf u.core)).fence.getLsbD (u.core % 64) then s else vacate s k

def execUnitRestore (k : UKey) (core : Nat) (s : State) : Host.Outcome State Fault Refusal :=
  match s.unit? k with
  | none => .next s
  | some u => match launchOf s u, s.ctx? u.ctx with
    | some l, some c =>
      if !u.vacating || !u.unrestored || u.ending.isSome || u.core != core then .next s
      else
        let rd := imageRd s c u.save
        match badImage rd l k.idx (u.inBlock rd l) with
        | some off => .next (imageError s u off)
        | none =>
          let table := (List.range (rd 36 4 - 1)).map fun i => rd (l.imgNames + 16 * (i + 1)) 16
          match nameState c k 1 table with
          | .all ws => .next (restoreUnit s u l rd ws)
          | .ask i n => .next ((askEntry s c k i n).due (.unitRestore k core))
          | .waiting => .next (s.due (.unitRestore k core))
    | _, _ => .next s

/-! ## LATE_REPLY (R148, R370) -/

/-- A late reply goes into the first free entry of the area of its unit's image. -/
def execLateReply (k : UKey) (r : LateReply) (s : State) : Host.Outcome State Fault Refusal :=
  match s.launch? k.fn k.lid with
  | none => .next s
  | some l => match s.ctx? l.ctx, l.resume.find? fun v => v.idx == k.idx with
    | some c, some v =>
      let at' (i : Nat) : Nat := c.arena + v.save + l.imgLate + 272 * i
      match (List.range (4 * l.g)).find? fun i => !((sysRead s c (at' i) 4).getD 0).testBit 31 with
      | none => .next s
      | some i =>
        .next (sysWriteBytes s c (at' i)
          (fields 16 [(0, 4, 2 ^ 31 + r.gid * 2 ^ 24 + r.d), (4, 4, r.mask.toNat), (8, 1, r.ty.code)] ++ r.vals.flatMap fun v => bytesOfNat 8 v.toNat))
    | _, _ => .next s

end Sys2Proof.Machine
end

