-- ==== Sys2Proof/Machine/Host.lean ====
section
/-! DEFINITION. The host's side of a function: the ordering point, data windows, the message stream and its frames (R375 to R384). -/

namespace Sys2Proof

/-- Operation code and payload of a frame. -/
def Rpc.op (r : Rpc) : Nat := natOfBytes ((r.frame.drop 5).take 1)
def Rpc.payload (r : Rpc) : List Byte := r.frame.drop 16

/-- Field `i` of a payload without a layout in the manual, and the offset at which it stands (log 12). -/
def Rpc.field (r : Rpc) (i : Nat) : Nat := r.vals.getD i 0
def Rpc.offset (r : Rpc) (i : Nat) : Nat := Config.rpcField r.op (256 + i) []

/-- Fields from a place of the frame whose layout the manual gives. -/
def Rpc.bytes (r : Rpc) (off n : Nat) : Nat := natOfBytes (((r.frame.take (r.frame.length - 4)).drop off).take n)

end Sys2Proof

namespace Sys2Proof.Machine

/-! ## Frames (R377, R378, log 12) -/

/-- A result whose layout the manual does not give. -/
def replyVals (s : State) (r : Rpc) (vals : List Nat) : State := reply s r rOK 0 (Config.rpcBytes r.op vals)

/-- Operations for the physical function alone (R380, R401). -/
def pfOnly (op : Nat) : Bool := [0x08, 0x0F, 0x10, 0x13, 0x14, 0x15, 0x16, 0x18].contains op

/-- What stands before every operation: OPEN comes first, and some belong to the physical function (R379, R380). -/
def rpc (s : State) (r : Rpc) (op : Nat) (body : State → State) : Host.Outcome State Fault Refusal :=
  if !(s.func r.fn).opened && op != 0x01 then .next (reply s r rPRIV 0)
  else if pfOnly op && r.fn != 0 then .next (reply s r rPRIV 0)
  else .next (body s)

/-- The lowest field at fault of a request, by its offset. -/
def firstBad (cs : List (Nat × Bool)) : Option Nat :=
  cs.foldl (fun b c => if c.2 && (match b with | some x => c.1 < x | none => true) then some c.1 else b) none

/-- The step of a frame, by its operation; none for a code without one (R380, R401). -/
def rpcStep (r : Rpc) : Option Instr :=
  match r.op with
  | 0x01 => some (.openRpc r) | 0x02 => some (.rackRpc r) | 0x03 => some (.capsRpc r)
  | 0x04 => some (if r.field 0 = 1 then .contextTeardown r else .contextRpc r)
  | 0x05 => some (.launchRpc r) | 0x06 => some (.levelRpc r) | 0x07 => some (.cancelRpc r) | 0x08 => some (.qtableRpc r)
  | 0x09 => some (.tlbiRpc r) | 0x0A => some (.departRpc r) | 0x0B => some (.raiseRpc r) | 0x0C => some (.windowRpc r)
  | 0x0D => some (.handleRpc r) | 0x0E => some (.revokeRpc r) | 0x0F => some (.poolrangeRpc r) | 0x10 => some (.phaseRpc r)
  | 0x11 => some (.agentReplyRpc r) | 0x12 => some (.telemetryRpc r) | 0x13 => some (.powerRpc r) | 0x14 => some (.fwloadRpc r)
  | 0x15 => some (.fwswitchRpc r) | 0x16 => some (.fwcommitRpc r) | 0x17 => some (.quoteRpc r) | 0x18 => some (.coresetRpc r)
  | 0x19 => some (.quiesceRpc r) | 0x1A => some (.adoptRpc r)
  | _ => none

/-- The frame a step executes, if it executes one. -/
def rpcOf : Instr → Option Rpc
  | .openRpc r | .rackRpc r | .capsRpc r | .contextRpc r | .contextTeardown r | .launchRpc r | .levelRpc r | .cancelRpc r
  | .qtableRpc r | .tlbiRpc r | .departRpc r | .raiseRpc r | .windowRpc r | .handleRpc r | .revokeRpc r | .poolrangeRpc r
  | .phaseRpc r | .agentReplyRpc r | .telemetryRpc r | .powerRpc r | .fwloadRpc r | .fwswitchRpc r | .fwcommitRpc r | .quoteRpc r
  | .coresetRpc r | .quiesceRpc r | .adoptRpc r => some r
  | _ => none

/-- Whether a frame of a function is being executed: the next one starts after it (R378, log 4). -/
def rpcDue (s : State) (fn : Nat) : Bool := s.agenda.any fun i => match rpcOf i with | some r => r.fn == fn | none => false

/-- Starts the execution of a good frame; a code without an operation is refused at OP. -/
def startRpc (s : State) (r : Rpc) : State :=
  match rpcStep r with
  | some i => s.dueAgain i
  | none => if (s.func r.fn).opened then refuse s r 5 else reply s r rPRIV 0

/-- Where the payload of a frame ends: that of LAUNCH with its packet (R334, R377, log 12). -/
def payloadEnd (f : List Byte) : Nat :=
  let op := natOfBytes ((f.drop 5).take 1)
  if op = 0x05 then 160 else 16 + Config.payloadBytes op ((f.take (f.length - 4)).drop 16)

/-- A frame's check value and zero fields hold, its padding among them (R377, R378). -/
def goodFrame (f : List Byte) : Bool :=
  let h := natOfBytes (f.take 16)
  bits h 39 32 == 0 && bits h 15 8 == 0 && ((f.take (f.length - 4)).drop (payloadEnd f)).all (· == 0)
  && crc32c (f.take (f.length - 4)) == natOfBytes (f.drop (f.length - 4))

/-- Whether the bytes received make a step of the stream possible: a whole frame, or a header that stops it. -/
def frameHere (f : Func) : Bool :=
  let h := natOfBytes (f.frame.take 16)
  let len := bits h 31 16
  !f.stopped && 16 ≤ f.frame.length
  && (h % 256 != 1 || len % 16 != 0 || len < 32 || 4096 < len || len ≤ f.frame.length)

/-- Consumes the frame that has been received, or stops the stream (R376 to R378). -/
def consumeFrame (s : State) (fn : Nat) : State :=
  let f := s.func fn
  let h := natOfBytes (f.frame.take 16)
  let len := bits h 31 16
  if !frameHere f || rpcDue s fn then s
  else if h % 256 != 1 || len % 16 != 0 || len < 32 || 4096 < len then s.modFunc fn fun f => { f with stopped := true, frame := [] }
  else
    let bs := f.frame.take len
    let s := s.modFunc fn fun f => { f with frame := f.frame.drop len, consumed := f.consumed + len }
    let r : Rpc := { fn := fn, tag := bits h 127 64, chan := bits h 63 48, frame := bs }
    let r := { r with vals := (List.range 8).map fun i => Config.rpcField r.op i r.payload }
    if goodFrame bs then startRpc s r else reply s r rFRAMEERR 0

/-- Restarts a stopped stream: CONSUMED advances to the ring offset given, and a notice is sent (R378). -/
def resyncAt (s : State) (fn off : Nat) : State :=
  if !(s.func fn).stopped then s
  else
    let s := s.modFunc fn fun f =>
      { f with stopped := false, frame := [], consumed := f.consumed + (off % 65536 + 65536 - f.consumed % 65536) % 65536 }
    notice s fn opFrameErr [(s.func fn).consumed]

def execResync (fn off : Nat) (s : State) : Host.Outcome State Fault Refusal := .next (resyncAt s fn off)

/-! ## Data windows (R381) -/

def Window.none : Window := { off := 0, size := 0, ctx := 0, va := 0, rd := false, wr := false, left := .none }

/-- The window of a function that an access lies within. -/
def windowOf (f : Func) (off n : Nat) : Option Window :=
  (List.range 16).findSome? fun w =>
    let x := Sparse.get Window.none f.windows w
    if x.size != 0 && x.off ≤ off && off + n ≤ x.off + x.size then some x else .none

/-- The route of a physical place: a die, a pool port, or the I/O die (R382). -/
def routeOf (m a : Nat) : Nat := if m = 0 then a / 2 ^ 36 % 8 else if m = 1 then 8 + portAt a else 10

/-- The page that a place lies in, by its first virtual address; a pool window is no page. -/
def Place.page (p : Place) : Nat :=
  match p.pte.bind fun e => sizeInfo e.size with
  | some (_, k) => p.va / 2 ^ k * 2 ^ k
  | none => 2 ^ 64

/-- The pieces of a write's bytes, one for each page and route, or the cause code of a byte that cannot be written (R382, R399). -/
def cutPieces (s : State) (c : Ctx) : Nat → List Byte → Except Nat (List RoutePiece)
  | _, [] => .ok []
  | va, b :: bs =>
    match sysPlace s c va 1 true with
    | .error t => .error t.code
    | .ok p => match cutPieces s c (va + 1) bs with
      | .error e => .error e
      | .ok ps =>
        let x : RoutePiece := { route := routeOf p.sp p.a, page := p.page, cells := [(p.sp, p.a, va, b)] }
        match ps with
        | q :: rest => if q.route = x.route && q.page = x.page then .ok ({ q with cells := x.cells ++ q.cells } :: rest) else .ok (x :: ps)
        | [] => .ok [x]

/-- The one piece of a write to the message aperture (R382). -/
def messagePiece : RoutePiece := { route := 10, page := 0, cells := [] }

/-- Where an inbound write that came in a window goes: its pieces, or the cause for which it is dropped (R381). -/
def inboundPieces (s : State) (w : Inbound) (win : Option Window) : Except Nat (List RoutePiece) :=
  if w.msg then .ok [messagePiece]
  else match win with
    | .none => .error C.XLATE
    | .some x =>
      if !x.wr then .error C.PERM
      else match s.ctx? x.ctx with
        | .none => .error C.XLATE
        | .some c => cutPieces s c (x.va + (w.off - x.off)) w.data

/-- Performs the bytes of a piece of a context's data. -/
def performCells (s : State) (ctx : Nat) : List (Nat × Nat × Nat × Byte) → State
  | [] => s
  | (sp, a, va, b) :: cs => performCells (markDirty (s.wr sp a b) ctx va) ctx cs

/-- Takes bytes written into the message aperture: frames, the resync slot, and offsets that are dropped (R376). -/
def performMessage (s : State) (w : Inbound) : State :=
  let f := s.func w.fn
  if w.off = 0x10000 then if 8 ≤ w.data.length then resyncAt s w.fn (natOfBytes (w.data.take 2)) else s
  else if 0x10000 < w.off || f.stopped || w.off != (f.consumed + f.frame.length) % 65536 then s
  else s.modFunc w.fn fun f => { f with frame := f.frame ++ w.data.take (0x10000 - w.off) }

/-- Performs a piece of a write, where it went when it was cut (R382). -/
def performPiece (s : State) (e : InFlight) (p : RoutePiece) : State :=
  if e.w.msg then performMessage s e.w
  else match e.win with
    | .none => s
    | .some x => performCells s x.ctx p.cells

/-! ## The ordering point (R382, R383) -/

/-- Releases a write: it is cut into route pieces, or dropped with its report. -/
def releaseWrite (s : State) (fn : Nat) (e : InFlight) : State :=
  match inboundPieces s e.w e.win with
  | .error code =>
    let s := s.modFunc fn fun f => { f with inflight := f.inflight.filter fun x => x.seq != e.seq }
    notice s fn opAperFault [e.w.off, code]
  | .ok ps =>
    let cut (x : InFlight) : Option InFlight :=
      if x.seq != e.seq then some x else if ps.isEmpty then none else some { x with held := false, pieces := ps }
    let s := s.modFunc fn fun f => { f with inflight := f.inflight.filterMap cut }
    ps.foldl (fun s p => s.due (.routeAck fn e.seq p.route)) s

/-- Whether a write is held: a strict write, or a message frame, behind a write not acknowledged (R383). -/
def mustHold (f : Func) (w : Inbound) : Bool := (w.msg || !w.ro) && !f.inflight.isEmpty

/-- A write reaches the ordering point, in the window that is granted then (R381, R382). -/
def execInboundWrite (w : Inbound) (s : State) : Host.Outcome State Fault Refusal :=
  let f := s.func w.fn
  if !f.enabled || w.data.isEmpty then .next s
  else
    let win := if w.msg then none else windowOf f w.off w.data.length
    let e : InFlight := { seq := f.seq, w := w, held := mustHold f w, win := win, pieces := [] }
    let s := s.modFunc w.fn fun f => { f with seq := f.seq + 1, inflight := f.inflight ++ [e] }
    .next (if e.held then s else releaseWrite s w.fn e)

/-- Whether a write still has a piece for a route. -/
def InFlight.by (e : InFlight) (route : Nat) : Bool := !e.held && e.pieces.any fun p => p.route == route

/-- A write without the first of its pieces for a route. -/
def InFlight.less (e : InFlight) (route : Nat) : InFlight := { e with pieces := e.pieces.eraseP fun p => p.route == route }

/-- A route performs and acknowledges a piece of a write, its first that is left, once the route's earlier pieces of the function are
performed (R382, R399). -/
def execRouteAck (fn seq route : Nat) (s : State) : Host.Outcome State Fault Refusal :=
  let f := s.func fn
  match f.inflight.find? fun e => e.seq == seq && e.by route with
  | none => .next s
  | some e =>
    if f.inflight.any (fun x => x.seq < seq && x.by route) then .next (s.due (.routeAck fn seq route))
    else
      let s := match e.pieces.find? fun p => p.route == route with | some p => performPiece s e p | none => s
      let left (x : InFlight) : Option InFlight := if x.seq != seq then some x else if (x.less route).pieces.isEmpty then none else some (x.less route)
      let s := s.modFunc fn fun f => { f with inflight := f.inflight.filterMap left }
      .next (if (e.less route).by route then s.due (.routeAck fn seq route) else s)

def execHeldWriteRelease (fn seq : Nat) (s : State) : Host.Outcome State Fault Refusal :=
  match (s.func fn).inflight with
  | e :: _ => .next (if e.seq = seq && e.held then releaseWrite s fn e else s)
  | [] => .next s

/-- What a read of an aperture, in a window that it lies in, completes with (R376, R381, R395). -/
def readAperture (s : State) (msg : Bool) (win : Option Window) (off n : Nat) : Nat × List Byte :=
  if msg then (0, List.replicate n 0xFF)
  else match win with
    | .none => (1, [])
    | .some x => match s.ctx? x.ctx with
      | .none => (1, [])
      | .some c =>
        let va := x.va + (off - x.off)
        if !x.rd then (1, [])
        else match (List.range n).mapM fun i => sysLand s c (va + i) 1 false with
          | .error t => if t.code = C.ECC then (2, (List.range n).map fun i => Config.poisonByte (s.tick * 2 ^ 32 + i)) else (1, [])
          | .ok ps =>
            if ps.any (fun p => (p.1 == 0 || p.1 == 3) && Sparse.get false s.badCrc (crcKey p.1 p.2)) then
              (2, (List.range n).map fun i => Config.poisonByte (s.tick * 2 ^ 32 + i))
            else (0, ps.map fun p => s.rd p.1 p.2)

/-- The new value of an AtomicOp. -/
def hostAtomicNew (a : HostAtomic) (n old : Nat) : Nat :=
  if a.op = 0 then (old + a.x) % 256 ^ n else if a.op = 1 || old = a.y then a.x % 256 ^ n else old

/-- An AtomicOp on the data aperture: one step at .sys, in a window that grants reading and writing; its completion carries the old value
(R375, R381, log 20). -/
def atomicAperture (s : State) (win : Option Window) (off n : Nat) (a : HostAtomic) : State × Nat × List Byte :=
  match win.bind fun x => (s.ctx? x.ctx).map fun c => (x, c) with
  | .none => (s, 1, [])
  | .some (x, c) =>
    let va := x.va + (off - x.off)
    if !x.rd || !x.wr || n = 0 || va % n != 0 then (s, 1, [])
    else match sysLand s c va n true with
      | .error _ => (s, 1, [])
      | .ok (m, p) =>
        if s.spoilt m p n then (s, 2, (List.range n).map fun i => Config.poisonByte (s.tick * 2 ^ 32 + i))
        else (markDirty (s.wrN m p n (hostAtomicNew a n (s.rdN m p n))) c.id va, 0, s.rdBytes m p n)

/-- The read of a label as it reached the ordering point: the window it lies in is the one granted then, and only earlier writes hold it
(R381, R383). -/
def Func.readAt (f : Func) (off size label : Nat) : InRead :=
  (f.reads.find? fun r => r.label == label).getD { label := label, seq := f.seq, win := windowOf f off size }

/-- A read, or an AtomicOp, completes once every earlier write of its function has been acknowledged (R381, R383). -/
def execInboundRead (fn : Nat) (msg : Bool) (off size : Nat) (q : ReadReq) (s : State) : Host.Outcome State Fault Refusal :=
  let f := s.func fn
  let r := f.readAt off size q.label
  let others := f.reads.filter fun r => r.label != q.label
  if !f.enabled then .next s
  else if !msg && f.inflight.any (·.seq < r.seq) then
    .next ((s.modFunc fn fun f => { f with reads := others ++ [r] }).due (.inboundRead fn msg off size q))
  else
    let (t, st, bs) := match msg, q.rmw with
      | false, some a => atomicAperture s r.win off size a
      | _, _ => (s, readAperture s msg r.win off size)
    .next (t.modFunc fn fun f =>
      { f with completions := f.completions ++ [{ fn := fn, label := q.label, status := st, data := bs }], reads := others })

/-! ## OPEN, RACK, CAPS, AGENTREPLY, WINDOW (R379 to R381) -/

def isPow2 (n : Nat) : Bool := n != 0 && n == 2 ^ Nat.log2 n

def execOpenRpc (r : Rpc) (s : State) : Host.Outcome State Fault Refusal :=
  rpc s r 0x01 fun s =>
    let va := r.field 0
    let size := r.field 1
    match firstBad [(r.offset 0, va % 4096 != 0), (r.offset 1, !isPow2 size || size < 4096 || 2 ^ 20 < size)] with
    | some off => refuse s r off
    | none => replyOk (s.modFunc r.fn fun f => { f with opened := true, ringVa := va, ringSz := size, written := 0, racked := 0 }) r

/-- The total that a RACK reports, modulo 2^64, from the last one on (R379). -/
def Func.rackTotal (f : Func) (n : Nat) : Nat := f.racked + (n + 2 ^ 64 - f.racked % 2 ^ 64) % 2 ^ 64

/-- RACK has no reply; room it gives is used at once. -/
def execRackRpc (r : Rpc) (s : State) : Host.Outcome State Fault Refusal :=
  if !(s.func r.fn).opened then .next (reply s r rPRIV 0)
  else
    let n := r.field 0
    let s := s.modFunc r.fn fun f => if f.rackTotal n ≤ f.written then { f with racked := f.rackTotal n } else f
    .next (ringPump s r.fn (s.func r.fn).replies.length)

/-- A context of the function; the physical function has no other's either. -/
def ownCtx (s : State) (fn id : Nat) : Option Ctx :=
  match s.ctx? id with | some c => if c.fn = fn && !c.super then some c else none | none => none

def execCapsRpc (r : Rpc) (s : State) : Host.Outcome State Fault Refusal :=
  rpc s r 0x03 fun s => match ownCtx s r.fn (r.field 0) with
    | some c => replyVals s r [c.capbase.toNat]
    | none => refuse s r (r.offset 0)

/-- An AGENT request is answered, and its handle takes the cookie that the host agent has chosen; a handle that is not current fails (R367,
R380). -/
def execAgentReplyRpc (r : Rpc) (s : State) : Host.Outcome State Fault Refusal :=
  rpc s r 0x11 fun s =>
    let tag := r.field 0
    let h := BitVec.ofNat 64 (r.field 1)
    if (s.handle? h).isNone || hFunc h != r.fn then reply s r rSTALEHANDLE 0
    else if (s.func r.fn).agent.contains (tag, h) then
      let name (x : Handle) : Handle := if x.hid = hId h then { x with cookie := BitVec.ofNat 64 (r.field 2) } else x
      replyOk (s.modFunc r.fn fun f =>
        { f with agent := f.agent.filter (· != (tag, h)), agentDone := f.agentDone ++ [(tag, h, rOK)], handles := f.handles.map name }) r
    else refuse s r (r.offset 0)

/-- Bytes of a function's data aperture (R375). -/
def apertureBytes (fn : Nat) : Nat := (if fn = 0 then 64 else 4) * 2 ^ 30

def execWindowRpc (r : Rpc) (s : State) : Host.Outcome State Fault Refusal :=
  rpc s r 0x0C fun s =>
    let w := r.field 0
    let f := s.func r.fn
    if r.field 1 = 0 then
      if 16 ≤ w then refuse s r (r.offset 0)
      else
        let put (f : Func) : Func :=
          let x := Sparse.get Window.none f.windows w
          if x.size = 0 || x.left.isSome then f
          else { f with windows := Sparse.set Window.none f.windows w { x with left := some (f.replies.length + 1) } }
        replyOk (s.modFunc r.fn put) r
    else
      let off := r.field 2
      let size := r.field 3
      let laps := (List.range 16).any fun i =>
        let x := Sparse.get Window.none f.windows i
        i != w && x.size != 0 && x.off < off + size && off < x.off + x.size
      match firstBad [(r.offset 0, 16 ≤ w), (r.offset 2, size != 0 && off % size != 0 || apertureBytes r.fn < off + size || laps),
          (r.offset 3, !isPow2 size || size < 65536), (r.offset 4, (ownCtx s r.fn (r.field 4)).isNone)] with
      | some o => refuse s r o
      | none =>
        let x : Window := { off := off, size := size, ctx := r.field 4, va := r.field 5, rd := r.field 6 % 2 == 1, wr := r.field 7 % 2 == 1, left := none }
        replyOk (s.modFunc r.fn fun f => { f with windows := Sparse.set Window.none f.windows w x }) r

end Sys2Proof.Machine
end

