-- ==== Sys2Proof/Machine/Service.lean ====
section
/-! DEFINITION. Operations of the host on contexts, launches, levels, the bench, names, handles, the pool and the fabric, and a
function's reset (R240, R298, R333 to R340, R347, R362, R367, R368, R374, R386, R388, R390, R391, R394, R418). -/

namespace Sys2Proof.Machine

/-! ## Contexts (R240, R368, R418) -/

/-- A field of a descriptor given as one number. -/
def descField (x off n : Nat) : Nat := x / 2 ^ (8 * off) % 2 ^ (8 * n)

/-- Directory record `i` of a residency descriptor. -/
def descDir (x i : Nat) : Dir :=
  { va := descField x (192 + 16 * i) 8, lo := descField x (200 + 16 * i) 2, hi := descField x (202 + 16 * i) 2, log2n := descField x (204 + 16 * i) 1 }

def descDirs (x : Nat) : List Dir := (List.range 4).map (descDir x)

/-- Two used records that cover one domain. -/
def dirsOverlap (ds : List Dir) : Bool :=
  let used := ds.zipIdx.filter fun d => d.1.log2n != 0
  used.any fun a => used.any fun b => a.2 != b.2 && a.1.lo ≤ b.1.hi && b.1.lo ≤ a.1.hi

/-- Whether a directory record keeps its limits. -/
def Dir.ok (x i : Nat) (d : Dir) : Bool :=
  descField x (205 + 16 * i) 3 == 0 && (d.log2n == 0 || (10 ≤ d.log2n && d.log2n ≤ 32 && d.va % 4096 == 0 && d.lo ≤ d.hi))

/-- The checks of a context's descriptor, by its byte (R240, R368). -/
def descChecks (s : State) (fn x : Nat) : List (Nat × Bool) :=
  let slots := descField x 136 4
  [(0, descField x 0 8 % 4096 != 0 || !physExists 0 (descField x 0 8)), (16, descField x 16 8 % 65536 != 0),
   (32, (s.ctxs.any fun c => c.id == descField x 32 4 && !c.dead)), (36, descField x 36 1 != fn), (37, 1 < descField x 37 1),
   (38, descField x 38 90 != 0), (128, descField x 128 8 % 4096 != 0), (136, 262144 < slots), (140, descField x 140 4 != 0),
   (144, descField x 144 8 % 4096 != 0), (152, descField x 152 8 % 65536 != 0), (160, descField x 160 8 % 65536 != 0),
   (168, descField x 168 24 != 0), (192, dirsOverlap (descDirs x))]
  ++ (List.range 4).map fun i => (192 + 16 * i, !(descDir x i).ok x i)

/-- The context of a descriptor; what it can address is read from its page tables as they stand (R368). -/
def ctxOf (x : Nat) : Ctx :=
  { id := descField x 32 4, fn := descField x 36 1, root := descField x 0 8, capbase := BitVec.ofNat 64 (descField x 8 8), arena := descField x 16 8,
    arenaN := descField x 24 8, tenant := descField x 37 1 % 2 == 1, table := descField x 128 8,
    slots := if descField x 136 4 = 0 then 65536 else descField x 136 4, histva := descField x 144 8, admva := descField x 152 8,
    admN := descField x 160 8, dirs := descDirs x, res := [], hist := [], adms := [], index := [], runs := [], time := 0, localptr := false,
    super := false, dead := false }

/-- Every 4 KiB of the admission arena is mapped onto HBM (R240). -/
def arenaMapped (s : State) (c : Ctx) : Bool := (List.range (c.admN / 4096)).all fun g => inHbm s c (c.admva + 4096 * g)

def execContextRpc (r : Rpc) (s : State) : Host.Outcome State Fault Refusal :=
  rpc s r 0x04 fun s =>
    let x := r.field 1
    let c := ctxOf x
    match firstBad (descChecks s r.fn x ++ [(152, !arenaMapped s c)]) with
    | some b => refuse s r (r.offset 1 + b)
    | none => replyOk { s with ctxs := s.ctxs ++ [c] } r

/-- A held launch of a context that is torn down is discarded without a signal step (R418). -/
def discardHeld (s : State) (ctx : Nat) : State := { s with launches := s.launches.filter fun l => !(l.ctx == ctx && l.held) }

/-- Cancels the launches of a context, and departs its objects (R418). -/
def tearDown (s : State) (c : Ctx) : State :=
  let s := discardHeld s c.id
  let s := (s.launches.filter fun l => l.ctx == c.id && l.live).foldl (fun s l => cancelLaunch s l.fn l.lid 0 true) s
  (c.res.filter fun e => e.2.state == .resident || e.2.state == .admitting || (e.2.state == .departing && !e.2.forced)).foldl (fun s e => s.due (.departure c.id e.1 true)) s

/-- Whether a context holds nothing more. -/
def tornDown (s : State) (c : Ctx) : Bool :=
  s.units.all (fun u => u.ctx != c.id) && s.launches.all (fun l => l.ctx != c.id)
  && c.res.all fun e => e.2.state == .departed || e.2.state == .free

def execContextTeardown (r : Rpc) (s : State) : Host.Outcome State Fault Refusal :=
  rpc s r 0x04 fun s => match ownCtx s r.fn (r.field 1) with
    | none => refuse s r (r.offset 1)
    | some c =>
      if tornDown s c then
        let s := s.modCtx c.id fun c => { c with dead := true }
        let s := (List.range 512).foldl (fun s k =>
          if (s.core k).tlb.any fun t => t.ctx == c.id then s.modCore k fun m => { m with tlb := m.tlb.filter fun t => t.ctx != c.id } else s) s
        replyOk s r
      else (tearDown s c).due (.contextTeardown r)

/-! ## Launches and levels (R333 to R340) -/

/-- A field of a launch packet that stands at a byte of the frame. -/
def Launch.parse (fn ctx : Nat) (f : Nat → Nat → Nat) : Launch :=
  { fn := fn, lid := f 80 8, ctx := ctx, entry := f 0 8, n := f 8 8, g := f 16 1, vblk := f 17 1, a := f 18 1, cls := f 19 1, producer := f 20 1,
    handler := f 21 1, det := (f 22 2).testBit 0, compat := (f 22 2).testBit 1, localptr := (f 22 2).testBit 2, racechk := (f 22 2).testBit 3,
    strict := (f 22 2).testBit 4, b := f 24 4, c := f 28 4, endpoint := f 32 8, args := f 40 8, pred0 := f 48 8, pred1 := f 56 8,
    signal := f 64 8, budget := f 72 4, pcores := f 76 2, graph := f 88 8, phase := f 96 8, job := f 104 8, state := .pending, failed := false,
    counter := f 8 8, ranges := [], resume := [], pre := [], spent := 0, readyAt := 0, taken := [], streams := [], ended := [],
    bound := false, ctl := 0, hpc := 0, mask := 0, modew := 0, permva := 0, payva := 0, held := false, record := none, wake := [], early := [],
    know := [], raised := [], text := [], textPool := [], textHost := [] }

/-- A launch with the text that its frame finds in memory (R80). -/
def Launch.seen (l : Launch) (s : State) : Launch := { l with text := s.hbm, textPool := s.pool, textHost := s.host }

/-- A level identifier of a packet that names no open level, a cancelled one, or one whose parent is another (R334). -/
def levelBad (s : State) (fn kind id parent : Nat) : Bool :=
  id != 0 && (match s.level? fn kind id with | none => true | some p => p.cancelled || p.parent != parent)

/-- Whether the lowest level a launch names has received its members. -/
def levelFull (s : State) (l : Launch) : Bool :=
  match s.level? l.fn l.lowest.1 l.lowest.2 with | some p => p.m ≤ p.got | none => false

/-- The byte of a packet at which the lowest level stands. -/
def Launch.lowestAt (l : Launch) : Nat := if l.graph != 0 then 88 else if l.phase != 0 then 96 else 104

/-- The checks of a packet, by its byte (R333, R334). -/
def packetChecks (s : State) (l : Launch) (f : Nat → Nat → Nat) : List (Nat × Bool) :=
  let known := s.launches.any (fun x => x.fn == l.fn && x.lid == l.lid) || (s.func l.fn).history.any fun h => h.1 == l.lid
  [(0, l.entry % 4 != 0 || 2 ^ 56 ≤ l.entry), (8, l.n = 0 || 2 ^ 40 < l.n), (16, l.g = 0 || 32 < l.g || 256 < l.g * l.vblk),
   (17, l.vblk = 0 || 16 < l.vblk), (18, 128 < l.a), (19, 7 < l.cls), (20, l.g ≤ l.producer), (21, l.g ≤ l.handler && l.handler != 0xFF),
   (22, 32 ≤ f 22 2), (24, l.b % 64 != 0), (28, l.c % 64 != 0 || 3145728 < l.b + l.c), (32, l.endpoint % 256 != 0), (40, l.args % 16 != 0),
   (48, l.pred0 != 0 && l.pred0 = l.lid), (56, l.pred1 != 0 && l.pred1 = l.lid), (64, l.signal % 8 != 0), (76, 512 < l.pcores), (78, f 78 2 != 0),
   (80, l.lid = 0 || 2 ^ 48 ≤ l.lid || known), (88, 2 ^ 48 ≤ l.graph || levelBad s l.fn 1 l.graph l.phase),
   (96, 2 ^ 48 ≤ l.phase || levelBad s l.fn 2 l.phase l.job), (104, 2 ^ 48 ≤ l.job || levelBad s l.fn 3 l.job 0 || (l.graph != 0 && l.phase = 0 && l.job != 0)),
   (112, f 112 16 != 0), (l.lowestAt, levelFull s l)]

/-- Launches of a function in the bench. -/
def inBench (s : State) (fn : Nat) : Nat := (s.launches.filter fun l => l.fn == fn && l.live).length

/-- A level receives a member. -/
def memberIn (s : State) (fn kind id : Nat) : State := s.modLevel fn kind id fun p => { p with got := p.got + 1 }

def execLaunchRpc (r : Rpc) (s : State) : Host.Outcome State Fault Refusal :=
  rpc s r 0x05 fun s =>
    let f (off n : Nat) : Nat := r.bytes (32 + off) n
    let l := Launch.parse r.fn (r.bytes 16 4) f
    let checks := [(16, (ownCtx s r.fn l.ctx).isNone), (20, r.bytes 20 12 != 0)] ++ (packetChecks s l f).map fun c => (32 + c.1, c.2)
    match firstBad checks with
    | some off => refuse s r off
    | none =>
      if 4096 ≤ inBench s r.fn then reply s r rBUSY 0
      else replyOk (memberIn { s with launches := s.launches ++ [l.seen s] } r.fn l.lowest.1 l.lowest.2) r

def execLevelRpc (r : Rpc) (s : State) : Host.Outcome State Fault Refusal :=
  rpc s r 0x06 fun s =>
    let kind := r.field 0
    let id := r.field 1
    let m := r.field 2
    let parent := r.field 4
    let noParent := match s.level? r.fn (kind + 1) parent with
      | none => true
      | some p => p.cancelled || p.m ≤ p.got
    match firstBad [(r.offset 0, kind = 0 || 3 < kind || 4096 ≤ (s.levels.filter fun l => l.fn == r.fn).length),
        (r.offset 1, id = 0 || 2 ^ 48 ≤ id || (s.level? r.fn kind id).isSome), (r.offset 2, m = 0 || 2 ^ 32 ≤ m),
        (r.offset 3, r.field 3 % 8 != 0), (r.offset 4, parent != 0 && (kind = 3 || noParent)),
        (r.offset 5, r.field 3 != 0 && (ownCtx s r.fn (r.field 5)).isNone)] with
    | some off => refuse s r off
    | none =>
      let p : Level := { fn := r.fn, kind := kind, id := id, m := m, got := 0, counter := m, signal := r.field 3, ctx := r.field 5, parent := parent,
                         failed := false, cancelled := false }
      replyOk { memberIn s r.fn (kind + 1) parent with levels := (memberIn s r.fn (kind + 1) parent).levels ++ [p] } r

/-- CANCEL names a launch, a graph, a phase or a job; one that is not there is answered OK (R338). -/
def execCancelRpc (r : Rpc) (s : State) : Host.Outcome State Fault Refusal :=
  rpc s r 0x07 fun s =>
    let kind := r.field 0
    if 3 < kind then refuse s r (r.offset 0)
    else if kind = 0 then replyOk (cancelLaunch s r.fn (r.field 1) 0 true) r
    else replyOk (cancelLevel s r.fn kind (r.field 1) true) r

/-! ## The quantum table, TLBs, departures (R347, R362, R374) -/

/-- An entry of the quantum table; one with reserved bits is skipped (R347). -/
def quantumOf (e : Nat) : Quantum :=
  { valid := e.testBit 63 && bits e 57 56 == 0 && bits e 47 24 == 0, fn := bits e 62 58, weight := bits e 55 48, quant := e % 2 ^ 24 }

/-- A table written while an entry is in force takes effect when that entry ends; one written while none is, because no entry is valid or no
function had work, begins with its first entry (R347, R348). -/
def execQtableRpc (r : Rpc) (s : State) : Host.Outcome State Fault Refusal :=
  rpc s r 0x08 fun s =>
    let x := r.field 0
    let s' := { s with quantaNext := some ((List.range 32).map fun i => quantumOf (bits x (64 * i + 63) (64 * i))) }
    replyOk (if s.quanta.any (Quantum.ok s) && s.tenant.isSome then s' else endSlice { s' with slice := 31 }) r

/-- TLBI takes a range of a context out of every TLB (R374). -/
def execTlbiRpc (r : Rpc) (s : State) : Host.Outcome State Fault Refusal :=
  rpc s r 0x09 fun s => match ownCtx s r.fn (r.field 0) with
    | none => refuse s r (r.offset 0)
    | some c =>
      let va := r.field 1
      let n := r.field 2
      let keep (t : TlbEnt) : Bool := !(t.ctx == c.id && t.va < va + n && va < t.va + t.size)
      let s := (List.range 512).foldl (fun s k =>
        if (s.core k).tlb.all keep then s else s.modCore k fun m => { m with tlb := m.tlb.filter keep }) s
      replyOk s r

/-- DEPART departs a key as an eviction does: it waits for pins (R251, R252, R362). -/
def execDepartRpc (r : Rpc) (s : State) : Host.Outcome State Fault Refusal :=
  rpc s r 0x0A fun s => match ownCtx s r.fn (r.field 0) with
    | none => refuse s r (r.offset 0)
    | some c => replyOk (s.due (.departRequest c.id (r.field 1 % 2 ^ 61))) r

/-! ## Handles and raises (R298, R367, R390, R391) -/

/-- RAISE names an endpoint handle of the function; the reply follows the decision (R298). -/
def execRaiseRpc (r : Rpc) (s : State) : Host.Outcome State Fault Refusal :=
  rpc s r 0x0B fun s =>
    let h := BitVec.ofNat 64 (r.field 0)
    match s.handle? h with
    | none => reply s r rSTALEHANDLE 0
    | some e =>
      if hFunc h != r.fn || e.kind != 3 then reply s r rSTALEHANDLE 0
      else if 64 ≤ r.field 1 then refuse s r (r.offset 1)
      else s.dueAgain (.raiseDecision
        { ctx := e.ctx, va := BitVec.ofNat 64 e.va, vec := r.field 1, pay := BitVec.ofNat 64 (r.field 2), cls := 1, func := r.fn, modid := 0,
          sctx := r.chan, launch := 0, waiter := none, reply := some (r.fn, r.tag, r.chan), fab := none })

def execHandleRpc (r : Rpc) (s : State) : Host.Outcome State Fault Refusal :=
  rpc s r 0x0D fun s =>
    let f := s.func r.fn
    let hid := freeHandle f
    let kind := r.field 0
    match firstBad [(r.offset 0, kind != 3 && kind != 4 || 2 ^ 27 ≤ hid), (r.offset 1, (ownCtx s r.fn (r.field 1)).isNone),
        (r.offset 2, kind = 3 && r.field 2 % 256 != 0)] with
    | some off => refuse s r off
    | none =>
      let h : Handle := { kind := kind, gen := f.genOf hid, hid := hid, cookie := BitVec.ofNat 64 (r.field 5), ctx := r.field 1, va := r.field 2,
                          len := if kind = 3 then 512 else r.field 3, rights := r.field 4 % 16 }
      let s := s.modFunc r.fn fun f => { f with handles := f.handles.filter (fun x => x.hid != hid) ++ [h] }
      reply s r rOK 0 (bytesOfNat 8 (remoteHandle s r.fn h).toNat)

/-- A raise that the fabric has carried through the handle check and that is not decided. -/
def raisesUnderWay (s : State) : Bool := s.agenda.any fun i => match i with | .raiseDecision q => q.fab.isSome | _ => false

/-- REVOKE advances HGEN; it replies once what passed the check before has been performed (R391). -/
def execRevokeRpc (r : Rpc) (s : State) : Host.Outcome State Fault Refusal :=
  rpc s r 0x0E fun s =>
    let h := BitVec.ofNat 64 (r.field 0)
    if raisesUnderWay s then s.due (.revokeRpc r)
    else if (s.handle? h).isNone || hFunc h != r.fn then reply s r rSTALEHANDLE 0
    else
      let up (x : Handle) : Handle := if x.hid = hId h then { x with gen := (x.gen + 1) % 65536 } else x
      replyOk (s.modFunc r.fn fun f => { f with handles := f.handles.map up }) r

/-! ## The pool and the fabric (R386, R388) -/

/-- A pool range entry. -/
def poolRangeOf (e : Nat) : PoolRange :=
  { valid := e.testBit 255, port := (e.testBit 254).toNat, w := e.testBit 253, fnmask := BitVec.ofNat 32 (bits e 223 192), hpa := bits e 191 128,
    size := bits e 127 64, base := e % 2 ^ 64 }

def PoolRange.none : PoolRange := { valid := false, port := 0, w := false, fnmask := 0, hpa := 0, size := 0, base := 0 }

def execPoolrangeRpc (r : Rpc) (s : State) : Host.Outcome State Fault Refusal :=
  rpc s r 0x0F fun s =>
    let i := r.field 0
    let e := r.field 1
    let p := poolRangeOf e
    let g := 2 ^ 28
    let table := (List.range 64).map fun j => s.pools.getD j PoolRange.none
    let laps := table.zipIdx.any fun (q, j) => j != i && q.valid && q.base < p.base + p.size && p.base < q.base + q.size
    match firstBad [(r.offset 0, 64 ≤ i), (r.offset 1, p.valid && laps || p.base % g != 0 || p.size % g != 0 || p.hpa % g != 0 || bits e 252 224 != 0)] with
    | some off => refuse s r off
    | none => replyOk { s with pools := table.set i p } r

/-- The frame that begins a reconfiguration waits until every request to another module, an orphaned one too, has had its reply or has timed
out; the one that carries the table ends it: the ports retrain at full rate, what waited for a port leaves, and requests start again (R388,
R393, R405). -/
def execPhaseRpc (r : Rpc) (s : State) : Host.Outcome State Fault Refusal :=
  rpc s r 0x10 fun s =>
    if r.field 0 = 0 then
      let s := { s with phasing := true }
      if s.outReqs.all fun q => q.dst = s.ident then replyOk s r else s.due (.phaseRpc r)
    else
      let x := r.field 1
      let n := r.field 2
      let table := (List.range n).foldl (fun t i => Sparse.set 0 t i (bits x (32 * i + 31) (32 * i))) []
      let s : State := { s with phasing := false, routes := table, ports := s.ports.map fun p => { p with rate := 112 } }
      replyOk ((s.outReqs.filter fun q => !q.sent).foldl transmit (leaveAll s)) r

/-! ## The reset of a function (R367, R394) -/

/-- The saved records of a vacated unit's commands that still wait for replies end with RESET (R371, R394). -/
def resetSaved (s : State) (l : Launch) (v : Vac) : State :=
  match s.ctx? l.ctx with
  | none => s
  | some c => (List.range 32).foldl (fun s n =>
      let a := c.arena + v.save + l.imgCmds + 1024 * n
      if (sysRead s c (a + 15) 1).getD 0 = 1 then sysWrite (sysWrite (sysWrite s c (a + 88) 8 (statusWord St.RESET 0).toNat) c (a + 15) 1 0) c (a + 12) 1 3
      else s) s

/-- The commands of a function's units that wait on the fabric end with RESET; what was sent is orphaned, the rest dropped. -/
def resetFabric (s : State) (fn : Nat) : State :=
  let keep (q : OutReq) : Option OutReq := if q.fn != fn then some q else if q.sent then some { q with orphan := true } else none
  let other (x : Seen) : Bool := !(x.srcMod == s.ident && x.srcFn == fn)
  let s := { s with outReqs := s.outReqs.filterMap keep }
  let s := { s with seen := s.seen.filter other }
  let s := (s.launches.filter fun l => l.fn == fn).foldl (fun s l => l.resume.foldl (fun s v => resetSaved s l v) s) s
  (s.units.filter fun u => u.key.fn == fn).foldl (fun s u =>
    (u.cmds.filter fun m => m.2.remote && m.2.state != .done).foldl (fun s m =>
      cmdEnd (s.modCmd u.key m.1 fun m => { m with sent := [] }) u.key m.1 (statusWord St.RESET 0)) s) s

/-- A function's outstanding AGENT requests complete with RESET, and HGEN of every entry advances, free ones too (R367, R380). -/
def Func.advanceHandles (f : Func) : Func :=
  { f with agentDone := f.agentDone ++ f.agent.map fun x => (x.1, x.2, rRESET), agent := [], hgen := (f.hgen + 1) % 65536,
           handles := f.handles.map fun h => { h with gen := (h.gen + 1) % 65536 } }

/-- The reset of a function. Its commands that wait on the fabric end with RESET before the cancel of its launches ends the others (R367,
R394). -/
def execFunctionReset (fn : Nat) (s : State) : Host.Outcome State Fault Refusal :=
  if fn = 0 || 32 ≤ fn then .next s
  else
    let s := resetFabric s fn
    let s := (s.launches.filter fun l => l.fn == fn && l.live).foldl (fun s l => cancelLaunch s fn l.lid 0 true) s
    let mine (i : Instr) : Option Rpc := match rpcOf i with | some r => if r.fn = fn then some r else none | none => none
    let raised (i : Instr) : Bool := match i with | .raiseDecision q => (match q.reply with | some x => x.1 == fn | none => false) | _ => false
    let out := s.agenda.filterMap mine
    let raises := s.agenda.filterMap fun i => match i with | .raiseDecision q => if raised i then q.reply else none | _ => none
    let s := { s with agenda := s.agenda.filter fun i => (mine i).isNone && !raised i }
    let s := out.foldl (fun s r => reply s r rRESET 0) s
    let s := raises.foldl (fun s x => reply s { fn := fn, tag := x.2.1, chan := x.2.2, frame := mkFrame x.2.1 x.2.2 0x0B [] } rRESET 0) s
    let s := s.modFunc fn Func.advanceHandles
    let s := ((s.func fn).handles.filter fun h => h.kind != 0).foldl (fun s h => notice s fn opResetNotice [h.hid, h.cookie.toNat]) s
    .next (s.modFunc fn fun f => { f with opened := false, frame := [], stopped := false })

/-! ## Pool links (R385, R386) -/

def execPoolLinkDown (port : Nat) (s : State) : Host.Outcome State Fault Refusal := .next { s with poolUp := s.poolUp.set port false }

def execPoolLinkUp (port : Nat) (s : State) : Host.Outcome State Fault Refusal := .next { s with poolUp := s.poolUp.set port true }

def execPoolBackInvalidate (line : Nat) (s : State) : Host.Outcome State Fault Refusal :=
  .next { s with poolCache := s.poolCache.filter (· != line) }

end Sys2Proof.Machine
end

