-- ==== Sys2Proof/Machine/Fleet.lean ====
section
/-! DEFINITION. The module in a fleet: power, firmware, telemetry, fences, attestation, and moving a launch (R401 to R418, R41 to
R43). -/

namespace Sys2Proof.Machine

/-! ## Firmware images (R408 to R410) -/

/-- A field of an image's header. -/
def Bank.num (b : Bank) (off n : Nat) : Nat := natOfBytes ((b.image.drop off).take n)

def Bank.svn (b : Bank) : Nat := b.num 4 1

/-- The bytes after the header. -/
def Bank.body (b : Bank) : List Byte := (b.image.drop 256).take (b.num 8 8)

/-- The 32 bytes of an SM3 digest, and the 64 of an SM2 signature for the user identifier that is the part number (R408, R414). -/
def sm3 (bs : List Byte) : List Byte := padTo 32 (Config.sm3 bs)

/-- The part number in ASCII. -/
def partNumber : List Byte := [0x53, 0x50, 0x58, 0x2D, 0x4B, 0x32, 0x41, 0x2D, 0x33, 0x38, 0x34].map (BitVec.ofNat 8 ·)

def sm2Sign (bs : List Byte) : List Byte := padTo 64 (Config.sm2Sign partNumber (sm3 bs))

/-- The digest of a body as QUOTE and the firmware entry give it: zero for an empty bank. -/
def Bank.digest (b : Bank) : List Byte := if b.image.isEmpty then List.replicate 32 0 else sm3 b.body

/-- Whether an image is valid (R408). -/
def Bank.valid (b : Bank) (rollback : Nat) : Bool :=
  256 + b.num 8 8 ≤ b.image.length
  && sm3 b.body == (b.image.drop 16).take 32
  && Config.sm2Verify (sm3 (b.image.take 48)) ((b.image.drop 48).take 64)
  && b.num 5 3 == 0 && b.num 112 144 == 0 && b.svn < 128 && rollback ≤ b.svn

/-! ## The capability list (R41 to R43, R236, R260, R294, R351, R396, R413) -/

/-- An entry: its type, its length in 16-byte units, and the bytes after its header. -/
structure CapEntry where
  typ  : Nat
  len  : Nat
  body : List Byte
  deriving DecidableEq, Repr

/-- Fields of an entry, their offsets counted from its start. -/
def capFields (len : Nat) (fs : List (Nat × Nat × Nat)) : List Byte := (fields (16 * len) fs).drop 16

/-- The lowest rate step of the ports. -/
def lowestRate (s : State) : Nat := s.ports.foldl (fun m p => min m (p.rate / 4)) 28

/-- The entries in order; `active` is the bank they describe as active. -/
def capEntries (s : State) (active : Nat) : List CapEntry :=
  [{ typ := 1, len := 3, body := capFields 3 [(16, 1, 2), (18, 2, Config.stepping.toNat), (20, 11, natOfBytes partNumber)] },
   { typ := 2, len := 2, body := capFields 2 [(16, 1, 1), (20, 4, 0xFF), (24, 4, 3)] },
   { typ := 3, len := 4, body := capFields 4 [(16, 8, 412316860416), (24, 2, 0x0FFF), (28, 4, 262144), (32, 4, 65536), (36, 2, 4096), (38, 1, 16),
      (39, 1, 4), (40, 1, 64), (41, 1, 4), (42, 1, 64)] },
   { typ := 4, len := 3, body := capFields 3 [(16, 1, 0xFF), (17, 1, 64), (20, 2, 64), (22, 2, 63), (24, 4, 524288), (28, 1, 32), (29, 1, 8),
      (30, 1, 2), (32, 2, 4096), (34, 2, 16), (36, 4, 65536)] },
   { typ := 5, len := 3, body := capFields 3 [(16, 1, 4), (17, 1, 8), (18, 1, 64), (19, 1, 8), (20, 2, 4096), (22, 1, 64), (23, 1, 16), (24, 2, 256),
      (26, 1, 1), (27, 1, 0x0F), (28, 4, 4096)] },
   { typ := 6, len := 3, body := capFields 3 [(16, 1, 7), (17, 1, 16), (18, 1, 2), (19, 1, 16), (20, 2, 64), (22, 1, 16), (23, 1, 64), (24, 4, 64),
      (28, 4, 4)] },
   { typ := 7, len := 3, body := capFields 3 [(16, 1, 32), (17, 1, 8), (18, 1, lowestRate s), (19, 1, 64), (20, 2, s.ident), (22, 2, 1024),
      (24, 2, 4096), (26, 1, 7), (28, 4, 200)] },
   { typ := 8, len := 3, body := capFields 3 [(16, 1, 32), (17, 1, 32), (18, 1, 8), (19, 1, 2), (20, 2, 300), (24, 4, 4096), (28, 4, 4096),
      (32, 4, 4096)] },
   { typ := 9, len := 4, body := capFields 4 [(16, 1, active), (17, 1, s.rollback), (18, 2, s.ident), (20, 4, (s.bank active).num 0 4),
      (24, 4, (s.bank (1 - active)).num 0 4), (32, 32, natOfBytes (s.bank active).digest)] }]

/-- The bytes of a list of entries, the first at an offset: NEXT of the last is 0. -/
def capBytes : Nat → List CapEntry → List Byte
  | _, [] => []
  | off, e :: es =>
    let next := if es.isEmpty then 0 else off + 16 * e.len
    bytesOfNat 16 (e.typ + 2 ^ 16 + e.len * 2 ^ 24 + next * 2 ^ 32) ++ e.body ++ capBytes (off + 16 * e.len) es

/-- Where the `n`th capability list is published: in a 4 KiB block of HBM of its own (R41, R411, log 15). -/
def capabilityAddr (n : Nat) : Nat := (Config.capabilityBlock + n) % (48 * 2 ^ 18) * 4096

/-- Publishes the capability list at a new address (R41, R411). -/
def publish (s : State) (active : Nat) : State :=
  let s := { s with capGen := s.capGen + 1 }
  s.wrBytes 0 (capabilityAddr s.capGen) (capBytes 0 (capEntries s active))

/-! ## Power (R410, R412) -/

/-- The bank that boots (R410). -/
def bootBank (s : State) : Option Nat :=
  if (s.bank s.active).valid s.rollback then some s.active
  else if (s.bank (1 - s.active)).valid s.rollback then some (1 - s.active) else none

/-- Boots a bank: functions are enabled, supervisors start, the list is published, the governors run. -/
def boot (s : State) (b : Nat) : State :=
  let s := { s with powered := true, booted := true, active := b }
  let s := (List.range 32).foldl (fun s f => s.modFunc f fun f => { f with enabled := true }) s
  let s := (List.range 512).foldl (fun s c => placeSuper (s.modCore c fun k => { k with bank := b }) c) s
  let s := publish s b
  (List.range 8).foldl (fun s d => s.due (.energyIntervalCredit d)) s

def execPowerOn (s : State) : Host.Outcome State Fault Refusal :=
  if s.powered then .next s
  else match bootBank s with
    | some b => .next (boot { s with onTick := s.tick } b)
    | none => .next { s with powered := true, onTick := s.tick }

/-- What outlives the loss of power: the flash banks, the rollback counter, the identity, and memory outside the module (log 2). -/
def execPowerLoss (s : State) : Host.Outcome State Fault Refusal :=
  .next { State.reset with banks := s.banks, active := s.active, rollback := s.rollback, ident := s.ident, host := s.host, pool := s.pool,
                           tick := s.tick, agenda := s.agenda.filter fun i => i == .powerOn }

/-! ## Errors, lanes and emergencies (R402, R405, R407) -/

/-- Memory is read and corrected: bytes that cannot be are marked, and both are counted. An address from 3·2^66 on is a vault's, whose errors
are of its die's SRAM (R402, R403, log 5). -/
def execPatrolScrub (addr size : Nat) (bad : List Nat) (corrected : Nat) (s : State) : Host.Outcome State Fault Refusal :=
  let new := (bad.filter fun a => addr ≤ a && a < addr + size && !Sparse.get false s.marks a).eraseDups
  let s := { s with marks := new.foldl (fun t a => Sparse.set false t a true) s.marks }
  if addr < markKey 3 0 then .next { s with hbmC := s.hbmC + corrected, hbmU := s.hbmU + new.length }
  else .next (s.modDie (dieOf ((addr - markKey 3 0) / 2 ^ 22)) fun d => { d with sramC := d.sramC + corrected, sramU := d.sramU + new.length })

/-- The rate a step below; 0 is down. -/
def rateBelow (r : Nat) : Nat := if r = 112 then 100 else if r = 100 then 84 else if r = 84 then 56 else 0

/-- A port that would need a step below 56 Gb/s goes down, and that is no step-down. -/
def Port.stepDown (p : Port) : Port :=
  { p with rate := rateBelow p.rate, downs := if rateBelow p.rate = 0 then p.downs else min 255 (p.downs + 1) }

def execRateStepDown (port : Nat) (s : State) : Host.Outcome State Fault Refusal := .next (s.modPort port Port.stepDown)

def execEmergencyEvent (s : State) : Host.Outcome State Fault Refusal :=
  .next { s with emergency := true, emergencies := s.emergencies + 1, emergencyAt := if s.emergency then s.emergencyAt else s.tick }

/-- Cycles that emergencies have stretched so far, in so many steps. -/
def stretchUpTo : Nat → Nat
  | 0 => 0
  | n + 1 => stretchUpTo n + Config.stretchedCycles n

/-- The cycles stretched until now: the counter goes on while an emergency lasts (R403, R407, log 5). -/
def State.stretchedNow (s : State) : Nat := s.stretched + (if s.emergency then stretchUpTo s.tick - stretchUpTo s.emergencyAt else 0)

def execEmergencyClear (s : State) : Host.Outcome State Fault Refusal :=
  .next (if s.emergency then { s with emergency := false, stretched := s.stretchedNow } else s)

/-! ## TELEMETRY, POWER, CORESET (R403, R404, R406) -/

/-- Page 0: the module. -/
def modulePage (s : State) : List Byte :=
  let port (i : Nat) : Port := s.ports.getD i .start
  fields 256 ([(0, 8, s.limit), (8, 8, s.energy.toNat), (16, 8, s.stretchedNow), (24, 8, s.emergencies), (32, 8, s.hbmC), (40, 8, s.hbmU)]
    ++ ((List.range 32).map fun i => (64 + i, 1, (port i).rate / 4))
    ++ ((List.range 32).map fun i => (96 + i, 1, (port i).downs))
    ++ (List.range 32).map fun i => (128 + 4 * i, 4, Config.eyeMargin s.tick i))

/-- Pages 1 to 8: a compute die. -/
def diePage (s : State) (d : Nat) : List Byte :=
  let x := s.die d
  fields 576 ([(0, 8, x.energy.toNat), (8, 8, x.pwait.toNat), (16, 8, x.sramC), (24, 8, x.sramU), (32, 8, x.mchecks), (40, 8, x.fence.toNat)]
    ++ (List.range 64).map fun c => (64 + 8 * c, 8, (s.core (64 * d + c)).squares))

def execTelemetryRpc (r : Rpc) (s : State) : Host.Outcome State Fault Refusal :=
  rpc s r 0x12 fun s =>
    let p := r.field 0
    if 8 < p then refuse s r (r.offset 0)
    else reply s r rOK 0 (if p = 0 then modulePage s else diePage s (p - 1))

/-- The new limit is what the next interval's share is computed from (R406). -/
def execPowerRpc (r : Rpc) (s : State) : Host.Outcome State Fault Refusal :=
  rpc s r 0x13 fun s =>
    let w := r.field 0
    if w < 800 || 3200 < w then refuse s r (r.offset 0) else replyVals { s with limit := w } r [w]

def execCoresetRpc (r : Rpc) (s : State) : Host.Outcome State Fault Refusal :=
  rpc s r 0x18 fun s =>
    let d := r.field 0
    let c := r.field 1
    match firstBad [(r.offset 0, 8 ≤ d), (r.offset 1, 64 ≤ c), (r.offset 2, 2 ≤ r.field 2)] with
    | some off => refuse s r off
    | none =>
      let bit : DWord := BitVec.ofNat 64 (2 ^ c)
      let s := s.modDie d fun x => { x with fence := if r.field 2 = 0 then x.fence ||| bit else x.fence &&& ~~~bit }
      let s := if r.field 2 = 0 then vacateAll s (userUnits s (64 * d + c)) else s
      replyVals s r [(s.die d).fence.toNat]

/-! ## FWLOAD, FWSWITCH, FWCOMMIT, QUOTE (R409, R411, R414) -/

/-- The image that pieces make, in the order in which they came; bytes not given are zero. -/
def assemble (ps : List (Nat × List Byte)) : List Byte :=
  let n := ps.foldl (fun n p => max n (p.1 + p.2.length)) 0
  Sparse.getList 0 (ps.foldl (fun t p => Sparse.setList 0 t p.1 p.2) []) 0 n

/-- The bytes given so far. -/
def bytesHeld (ps : List (Nat × List Byte)) : Nat :=
  ((List.range (assemble ps).length).filter fun i => ps.any fun p => p.1 ≤ i && i < p.1 + p.2.length).length

/-- A piece of an image; the host retries where a switch is in progress (log 42). -/
def execFwloadRpc (r : Rpc) (s : State) : Host.Outcome State Fault Refusal :=
  rpc s r 0x14 fun s =>
    let n := r.field 1
    if s.switching.isSome then reply s r rBUSY 0
    else if 4032 < n then refuse s r (r.offset 1)
    else
      let ps := (if s.loadNew then [] else s.loading) ++ [(r.field 0, bytesOfNat n (r.field 2))]
      replyVals { s with loading := ps, loadNew := false, banks := s.banks.set (1 - s.active) { image := assemble ps } } r [bytesHeld ps]

/-- Verifies the inactive bank, changes over and publishes; supervisors are replaced after it, and then the reply is sent (R411). -/
def execFwswitchRpc (r : Rpc) (s : State) : Host.Outcome State Fault Refusal :=
  rpc s r 0x15 fun s =>
    if s.switching.isSome then reply s r rBUSY 0
    else if !(s.bank (1 - s.active)).valid s.rollback then refuse s r 0
    else publish { s with switching := some (r.fn, r.tag, r.chan), loadNew := true } (1 - s.active)

def execFwcommitRpc (r : Rpc) (s : State) : Host.Outcome State Fault Refusal :=
  rpc s r 0x16 fun s =>
    let n := (s.bank s.active).svn
    if n < s.rollback then refuse s r 0 else replyVals { s with rollback := n } r [n]

/-- The bytes of a quote, signature and certificates apart (R414). -/
def quoteBody (s : State) (nonce : List Byte) : List Byte :=
  (nonce ++ List.replicate 32 0).take 32 ++ (s.bank 0).digest ++ (s.bank 1).digest
  ++ fields 8 [(0, 1, s.active), (1, 1, s.rollback), (2, 2, s.ident), (4, 1, 2), (5, 1, 1)]

def execQuoteRpc (r : Rpc) (s : State) : Host.Outcome State Fault Refusal :=
  rpc s r 0x17 fun s =>
    let q := quoteBody s (bytesOfNat 32 (r.field 0))
    reply s r rOK 0 (q ++ sm2Sign q ++ Config.certChain.flatMap fun c => bytesOfNat 4 c.length ++ c)

/-! ## QUIESCE (R415) -/

/-- The maximal runs of the indices from `lo` to `hi` that no wake has taken early; `n` bounds how many of those there are. -/
def runsFrom (early : List Nat) (hi : Nat) : Nat → Nat → List (Nat × Nat)
  | 0, lo => if lo < hi then [(lo, hi)] else []
  | n + 1, lo =>
    let cut := early.foldl (fun m e => if lo ≤ e && e < m then e else m) hi
    (if lo < cut then [(lo, cut)] else []) ++ (if cut < hi then runsFrom early hi n (cut + 1) else [])

/-- The unissued index ranges of a launch. -/
def Launch.unissued (l : Launch) : List (Nat × Nat) :=
  if l.state != .active then [(0, l.n)]
  else l.ranges.flatMap fun r => runsFrom l.early r.2 l.early.length r.1

/-- An ordered stream's entry. -/
def OStream.bytes (o : OStream) : List Byte :=
  if !o.used then List.replicate 64 0
  else fields 64 [(0, 1, 1), (1, 1, o.op), (2, 1, o.typ), (3, 1, o.dst), (8, 8, o.next), (16, 8, o.len), (24, 8, o.addr.toNat), (32, 8, o.off.toNat)]

/-- The migration record of a launch whose context has its save arena at `arena`. -/
def recordBytes (l : Launch) (arena : Nat) : List Byte :=
  let rs := l.unissued
  fields 288 ([(0, 8, l.lid), (8, 8, l.n - l.counter), (16, 4, rs.length), (20, 4, l.resume.length)]
      ++ rs.zipIdx.flatMap fun (r, i) => [(32 + 16 * i, 8, r.1), (40 + 16 * i, 8, r.2)])
  ++ ((List.range 16).flatMap fun n => (l.ostream n).bytes)
  ++ l.resume.flatMap fun v => bytesOfNat 8 v.idx ++ bytesOfNat 8 (arena + v.save)

/-- Whether a quiesced launch still has a unit on a core, a record with REMOTE set, or an index its sequencer passes. -/
def quiesceWaits (s : State) (l : Launch) : Bool :=
  !(unitsOf s l).isEmpty
  || l.resume.any (fun v => match v.unit with | some u => u.cmds.any fun m => !m.2.sent.isEmpty | none => false)
  || (List.range 16).any fun n => passable s l n

/-- Writes the record into the arena and answers with its address. -/
def writeRecord (s : State) (r : Rpc) (l : Launch) (c : Ctx) : State :=
  let bs := recordBytes l c.arena
  let size := up256 bs.length
  match lowestFit (heldSaves s l.ctx) size c.arenaN with
  | none => reply (s.modLaunch l.fn l.lid fun l => { l with held := false }) r rBUSY 0
  | some o =>
    let s := sysWriteBytes s c (c.arena + o) bs
    replyVals (s.modLaunch l.fn l.lid fun l => { l with record := some (o, size) }) r [c.arena + o]

/-- A launch is held at once and its record follows once nothing of it is on its way; one that more than 16 ranges would
describe goes on (log 42). -/
def execQuiesceRpc (r : Rpc) (s : State) : Host.Outcome State Fault Refusal :=
  rpc s r 0x19 fun s =>
    match s.launch? r.fn (r.field 0) with
    | none => refuse s r (r.offset 0)
    | some l =>
      if !l.live || l.record.isSome then refuse s r (r.offset 0)
      else if 16 < l.unissued.length then reply (s.modLaunch l.fn l.lid fun l => { l with held := false }) r rBUSY 0
      else
        let s := s.modLaunch l.fn l.lid fun l => { l with held := true }
        let s := vacateAll s (unitsOf s l)
        match (s.launch? r.fn (r.field 0)).bind fun l => (s.ctx? l.ctx).map fun c => (l, c) with
        | none => refuse s r (r.offset 0)
        | some (l, c) => if quiesceWaits s l then s.due (.quiesceRpc r) else writeRecord s r l c

/-! ## ADOPT (R416) -/

/-- A field of the packet of an ADOPT frame. -/
def adoptField (r : Rpc) (off n : Nat) : Nat := r.field 1 / 2 ^ (8 * off) % 2 ^ (8 * n)

/-- What a packet and a launch must agree in. -/
def Launch.shape (l : Launch) : List Nat := [l.lid, l.n, l.g, l.vblk, l.a, l.b, l.c, l.flags]

/-- A held launch goes on where it stopped, active without a first ticket; one that was held before its first ticket takes its endpoint and
its arguments now (R416). -/
def resumeHeld (s : State) (x : Launch) : State :=
  let s := s.modLaunch x.fn x.lid fun _ => { x with held := false, record := none, state := .active }
  let s := if x.localptr then s.modCtx x.ctx fun c => { c with localptr := true } else s
  if x.budget = 0 then s else s.due (.watchdog x.fn x.lid)

/-- The images of a held launch's vacated units pass the checks (R372, R416). -/
def heldImagesOk (s : State) (c : Ctx) (l : Launch) : Bool :=
  l.resume.all fun v =>
    let rd := imageRd s c v.save
    (badImage rd l v.idx (match v.unit with | some u => u.inBlock rd l | none => fun n => !rd.gone n)).isNone

/-- The vacated units that a record names; none where an image fails its checks or lies outside the arena. -/
def adoptUnits (s : State) (c : Ctx) (l : Launch) (rd : Rd) : Option (List Vac) :=
  (List.range (rd 20 4)).mapM fun j =>
    let idx := rd (1312 + 16 * j) 8
    let va := rd (1320 + 16 * j) 8
    let save := va - c.arena
    let img := imageRd s c save
    if va < c.arena || c.arena + c.arenaN ≤ va || l.n ≤ idx || (badImage img l idx fun n => !img.gone n).isSome then none
    else some { idx := idx, save := save, size := l.imgTotal (img 36 4), unit := none }

/-- The indices of a list of ranges that lie in a die's range: where they begin and end, and those that are missing between. -/
def dieShare (rs : List (Nat × Nat)) (d : Nat × Nat) : (Nat × Nat) × List Nat :=
  let own := rs.filterMap fun r => if max r.1 d.1 < min r.2 d.2 then some (max r.1 d.1, min r.2 d.2) else none
  match own with
  | [] => ((d.1, d.1), [])
  | r :: _ =>
    let lo := own.foldl (fun m x => min m x.1) r.1
    let hi := own.foldl (fun m x => max m x.2) r.2
    ((lo, hi), (rangeFrom lo (hi - lo)).filter fun i => own.all fun x => !(x.1 ≤ i && i < x.2))

/-- An ordered stream as a record gives it; what lies below its next index is counted. -/
def readStream (rd : Rd) (n : Nat) : OStream :=
  let b := 288 + 64 * n
  if !(rd b 1).testBit 0 then .start
  else { used := true, op := rd (b + 1) 1, typ := rd (b + 2) 1, dst := rd (b + 3) 1, next := rd (b + 8) 8, len := rd (b + 16) 8,
         addr := BitVec.ofNat 64 (rd (b + 24) 8), off := BitVec.ofNat 64 (rd (b + 32) 8), seen := List.range (rd (b + 8) 8) }

/-- The launch as a record continues it (R342, R415, R416). -/
def adopted (s : State) (l : Launch) (rd : Rd) (vs : List Vac) (pre : List Word) : Launch :=
  let rs := (List.range (min 16 (rd 16 4))).map fun i => (rd (32 + 16 * i) 8, rd (40 + 16 * i) 8)
  let shares := (startRanges l.n).map (dieShare rs)
  let open_ (i : Nat) : Bool := rs.any (fun r => r.1 ≤ i && i < r.2) || vs.any fun v => v.idx == i
  { l with state := .active, readyAt := s.tick, counter := l.n - rd 8 8, ranges := shares.map (·.1), early := shares.flatMap (·.2), resume := vs,
           pre := pre, text := s.hbm, textPool := s.pool, textHost := s.host, ended := (List.range l.n).filter fun i => !open_ i,
           streams := (List.range 16).foldl (fun t n => Sparse.set .start t n (readStream rd n)) [] }

/-- Whether the indices that a record counts are those of its launch: ended, not issued, and vacated (R415, R416). -/
def countsAll (rd : Rd) (n : Nat) : Bool :=
  rd 8 8 + ((List.range (min 16 (rd 16 4))).map fun i => rd (40 + 16 * i) 8 - rd (32 + 16 * i) 8).sum + rd 20 4 == n

/-- Puts an adopted launch into the bench. -/
def adopt (s : State) (r : Rpc) (l : Launch) : State :=
  let s := memberIn { s with launches := s.launches ++ [l] } l.fn l.lowest.1 l.lowest.2
  let s := if l.localptr then s.modCtx l.ctx fun c => { c with localptr := true } else s
  let s := if l.budget = 0 then s else s.due (.watchdog l.fn l.lid)
  let s := if l.counter = 0 then finishLaunch s l .completed false else s
  replyOk s r

def execAdoptRpc (r : Rpc) (s : State) : Host.Outcome State Fault Refusal :=
  rpc s r 0x1A fun s =>
    let f := adoptField r
    let l := Launch.parse r.fn (r.field 0) f
    let va := r.field 2
    match ownCtx s r.fn l.ctx with
    | none => refuse s r (r.offset 0)
    | some c =>
      match s.launches.find? fun x => x.fn == l.fn && x.lid == l.lid && x.held && x.record.isSome with
      | some x =>
        if x.shape = l.shape && x.ctx = l.ctx && (x.record.map fun o => c.arena + o.1) = some va then
          if !heldImagesOk s c x then refuse s r (r.offset 2)
          else if x.state = .active then replyOk (resumeHeld s x) r
          else match bindEndpoint s x with
            | none => refuse s r (r.offset 1 + 32)
            | some x => match readArgs s x with
              | none => refuse s r (r.offset 1 + 40)
              | some pre => replyOk (resumeHeld s { x with pre := pre, ranges := startRanges x.n }) r
        else refuse s r (r.offset 1)
      | none =>
        let rd : Rd := fun off n => (sysRead s c (va + off) n).getD 0
        match firstBad (packetChecks s l f) with
        | some b => refuse s r (r.offset 1 + b)
        | none =>
          if 4096 ≤ inBench s r.fn then reply s r rBUSY 0
          else if rd 0 8 != l.lid || !countsAll rd l.n then refuse s r (r.offset 2)
          else match adoptUnits s c l rd, bindEndpoint s l with
            | none, _ => refuse s r (r.offset 2)
            | _, none => refuse s r (r.offset 1 + 32)
            | some vs, some l => match readArgs s l with
              | none => refuse s r (r.offset 1 + 40)
              | some pre => adopt s r (adopted s l rd vs pre)

end Sys2Proof.Machine
end

