-- ==== Sys2Proof/Machine/Names.lean ====
section
/-! DEFINITION. The name instructions (R159 to R166). -/

namespace Sys2Proof.Machine

/-- STALENAME with its reason and the generation (R247). -/
def staleName (reason gen : Nat) (va : DWord) : Trap := { code := C.STALENAME, detail := reason + gen * 2 ^ 16, faddr := va }

/-- What one lane of an ldn has come to. -/
inductive LdnLane
  | done (v : Nat)
  | trap (t : Trap)
  /-- waits on an admission or a departure of the key -/
  | pend (key : Nat)
  /-- joins the admission of the key -/
  | join (key kind gen : Nat)
  deriving DecidableEq, Repr

/-- The pointer of a name in an incarnation, or BOUNDS (R160). -/
def ldnPointer (l n inc slot extent : Nat) (va : DWord) : LdnLane :=
  if extent < nameOff n then .trap { code := C.BOUNDS, detail := l * 256, faddr := va } else .done (mkPtr inc slot (nameOff n))

/-- One lane of an ldn after its slot has been read (R160, R247, R249). -/
def Cx.ldnLane (c : Cx) (l : Nat) (va : DWord) : SlotKind → LdnLane
  | .null => .done 0
  | .loc v => .done v
  | .bad => .trap { code := C.NAMEFMT, detail := l, faddr := va }
  | .name n =>
    let x := c.ctx
    let key := nameKey n
    match x.laneWait key c.u.key c.g.gid c.pc l with
    | some w =>
      if w.res = 0 then .pend key
      else if w.res = 1 then ldnPointer l n w.inc w.slot w.extent va
      else .trap { code := w.res, detail := w.detail, estat := w.estat, faddr := va }
    | none =>
      match x.find key with
      | none => .join key (nameKind n) (nameGen n)
      | some slot =>
        let r := x.slotRes slot
        if r.state = .departing then .pend key
        else if r.state = .admitting then
          if nameKind n != r.kind then .trap (staleName 2 r.gen va)
          else if nameGen n != r.gen then .trap (staleName 1 r.gen va)
          else .join key (nameKind n) (nameGen n)
        else if nameGen n != r.gen then .trap (staleName 1 r.gen va)
        else ldnPointer l n r.inc slot r.extent va

/-- NAMEFMT among the lanes: a bad slot, or a local address beside names (R160). -/
def ldnFormat (ks : List (Nat × SlotKind)) : Option Nat :=
  let mixed := ks.any fun k => match k.2 with | .name _ => true | _ => false
  (ks.find? fun k => match k.2 with | .bad => true | .loc _ => mixed | _ => false).map (·.1)

/-- The tag of an ldn's result: I64 where a lane holds a local address (R160). -/
def ldnTag (ks : List (Nat × SlotKind)) : Tag := if ks.any fun k => match k.2 with | .loc _ => true | _ => false then .i64 else .ptr

/-- What an ldn does once every lane has been looked at: the lowest lane's trap, a wait, or the pointers. DESIGN CHOICE: a NAMEFMT of any
lane comes before other causes of lower lanes, and a trap that one lane has already met is taken while another lane's admission goes on,
for R160 orders the causes of one lane (log 81). -/
def Cx.ldnEnd (c : Cx) (o : Op) (tag : Tag) (rs : List (Nat × LdnLane)) (finish : State → State) : Exc State :=
  match rs.findSome? fun r => match r.2 with | .trap t => some t | _ => none with
  | some t => .error (.trapWith (dropWaits c.s c.u.ctx c.u.key c.g.gid c.pc) t)
  | none =>
    match rs.findSome? fun r => match r.2 with | .pend k => some k | .join k _ _ => some k | _ => none with
    | some k =>
      let s := rs.foldl (fun s r => match r.2 with
        | .join k kind gen =>
          joinAdmission s c.u.ctx k { u := c.u.key, gid := c.g.gid, pc := c.pc, lane := r.1, kind := kind, gen := gen, res := 0,
                                      inc := 0, slot := 0, extent := 0, estat := 0, detail := 0 }
        | _ => s) c.s
      .error (.waitWith s (.key k))
    | none =>
      let v (r : LdnLane) : Nat := match r with | .done v => v | _ => 0
      let s := dropWaits c.s c.u.ctx c.u.key c.g.gid c.pc
      .ok (finish (s.modGrp c.u.key c.g.gid fun g => g.write o.d 2 tag (fun l => laneVal 0 (rs.map fun r => (r.1, v r.2)) l) c.ex))

def execLdn (o : Op) (x : ModX) (s : State) : Host.Outcome State Fault Refusal :=
  word s o fun c => do
    let vault := x.f 35 34 = 1
    let att := ordAtt (x.f 40 39) (c.actScope (x.f 38 36)) false false
    let _ ← c.needBase o.a vault
    let _ ← c.need o.b 1 [.i32]
    let fl ← c.sysScope (x.f 40 39 != 0) (x.f 38 36)
    let sps ← mapLanes (fun l => c.check o.a vault l (c.offM o 16 o.disp l) 16 16 att) (c.loadLanes o.d)
    let ps ← c.placesPrecise sps 16 false true
    let ks := ps.map fun (l, p) => (l, slotKind (c.flag (·.localptr)) (c.s.load c.u.core p.sp p.a 16))
    match ldnFormat ks with
    | some l => stop { code := C.NAMEFMT, detail := l }
    | none =>
      let va (l : Nat) : DWord := BitVec.ofNat 64 (laneVal { loc := .vault 0, va := 0 } sps l).va
      c.ldnEnd o (ldnTag ks) (ks.map fun (l, k) => (l, c.ldnLane l (va l) k)) fun s =>
        c.noteAll (s.modGrp c.u.key c.g.gid fun g => g.orFlags fl) ps 16 att

/-- The tag rules of stn in a lane (R163). -/
def Cx.stnTag (c : Cx) (d : Opd) (t : Tag) (l : Nat) : Exc PUnit :=
  if d = Opd.z || (t = .ptr && (c.val d 2 l = 0 || isPtr (c.val d 2 l))) then .ok ()
  else if t = .i64 && (c.val d 2 l = 0 || c.flag (·.localptr)) then .ok ()
  else c.format d l

/-- The slot a lane of stn writes (R163). -/
def Cx.stnValue (c : Cx) (d : Opd) (t : Tag) (l : Nat) : Exc Nat :=
  let v := c.val d 2 l
  if v = 0 || t != .ptr then .ok v
  else if !isPtr v then c.format d l
  else
    let r := c.ctx.slotRes (ptrSlot v)
    if ptrSlot v < c.ctx.slots && r.current (ptrInc v) then
      if r.extent < ptrOff v then stop (.lane C.BOUNDS (l * 256) v) else .ok (r.name (ptrOff v))
    else do
      let _ ← resolveOrd c.ctx d.code l v 1
      stop (.lane C.XLATE l v)

/-- stn (R163). DESIGN CHOICE: the causes of rows 1 to 8 of every lane's slot come before the causes of the sources, STALEPTR, BOUNDS and
XLATE of D, for the manual gives them no order (R79, log 78). -/
def execStn (o : Op) (x : ModX) (s : State) : Host.Outcome State Fault Refusal :=
  word s o fun c => do
    let vault := x.f 35 34 = 1
    let ord := x.f 40 39
    let att := ordAtt ord (c.actScope (x.f 38 36)) true false
    if 2 ≤ ord then c.drain
    let _ ← c.needBase o.a vault
    let _ ← c.need o.b 1 [.i32]
    let t ← c.tag o.d 2
    let _ ← mapLanes (c.stnTag o.d t) c.lanes
    let fl ← c.sysScope (ord != 0) (x.f 38 36)
    let sps ← mapLanes (fun l => c.check o.a vault l (c.offM o 16 o.disp l) 16 16 att) c.lanes
    let vs ← mapLanes (c.stnValue o.d t) c.lanes
    c.endStore sps 16 (laneVal 0 vs) false fl att

/-- The name of a pointer operand in a lane, or XLATE (R164). -/
def Cx.nameAt (c : Cx) (o : Opd) (l : Nat) : Exc Nat :=
  match pointerName c.ctx (c.val o 2 l) with
  | some n => .ok n
  | none => stop (.lane C.XLATE l (c.val o 2 l))

/-- Checks that an operand is tagged PTR (R164). -/
def Cx.needPtr (c : Cx) (o : Opd) : Exc PUnit := do
  let t ← c.tag o 2
  if t = .ptr then return () else c.format o c.l0

/-- Two names are of one object at one offset (R164). -/
def sameName (x y : Nat) : Bool := if x = 0 || y = 0 then x == y else nameKey x == nameKey y && nameOff x == nameOff y

def execPeq (o : Op) (_x : ModX) (s : State) : Host.Outcome State Fault Refusal :=
  word s o fun c => do
    c.needPtr o.a
    c.needPtr o.b
    let lane (l : Nat) : Exc Bool := do
      let x ← c.nameAt o.a l
      let y ← c.nameAt o.b l
      return sameName x y
    let r ← mapLanes lane c.lanes
    return c.put (c.g.write o.d 1 .raw (fun l => if laneVal false r l then 1 else 0) c.ex)

def execPname (o : Op) (_x : ModX) (s : State) : Host.Outcome State Fault Refusal :=
  word s o fun c => do
    c.needPtr o.a
    let r ← mapLanes (c.nameAt o.a) (c.dlanes o.d)
    return c.put (c.g.write o.d 4 .name (laneVal 0 r) c.ex)

/-- The slot whose pin count a lane changes (R166). -/
def Cx.pinSlot (c : Cx) (o : Opd) (l : Nat) : Exc Nat := do
  let v := c.val o 2 l
  if v = 0 then stop (.lane C.XLATE l v)
  else
    let _ ← resolveOrd c.ctx o.code l (v / 2 ^ 40 * 2 ^ 40) 1
    if isPtr v then return ptrSlot v else stop (.lane C.XLATE l v)

/-- The pin counts after each lane in turn, or the lane that passes a limit (R166). -/
def pinCounts (c : Ctx) (up : Bool) : List (Nat × Nat) → List (Nat × Nat) → Exc (List (Nat × Nat))
  | acc, [] => .ok acc
  | acc, (l, slot) :: rest =>
    let n := laneVal (c.slotRes slot).pin acc slot
    if up && n = 65535 || !up && n = 0 then stop { code := C.BOUNDS, detail := l * 256 }
    else pinCounts c up ((slot, if up then n + 1 else n - 1) :: acc.filter (·.1 != slot)) rest

/-- npin and nunpin (R166). -/
def Cx.changePins (c : Cx) (o : Op) (up : Bool) : Exc State := do
  c.needPtr o.a
  let slots ← mapLanes (c.pinSlot o.a) c.lanes
  let ns ← pinCounts c.ctx up [] slots
  return ns.foldl (fun s (slot, n) => modRes s c.u.ctx slot fun r => { r with pin := n }) c.s

def execNpin (o : Op) (_x : ModX) (s : State) : Host.Outcome State Fault Refusal := word s o fun c => c.changePins o true

def execNunpin (o : Op) (_x : ModX) (s : State) : Host.Outcome State Fault Refusal := word s o fun c => c.changePins o false

end Sys2Proof.Machine
end

