-- ==== Sys2Proof/Machine/Dispatch.lean ====
section
/-! DEFINITION. One arm for each constructor of `Instr`, each one direct call of its meaning. -/

namespace Sys2Proof.Machine

/-- The meaning of every instruction and step. -/
def exec (i : Instr) (s : State) : Host.Outcome State Fault Refusal :=
  match i with
  | .iadd o a => Sys2Proof.Machine.execIadd o a s
  | .isub o a => Sys2Proof.Machine.execIsub o a s
  | .imul o a => Sys2Proof.Machine.execImul o a s
  | .imad o a => Sys2Proof.Machine.execImad o a s
  | .idiv o a => Sys2Proof.Machine.execIdiv o a s
  | .irem o a => Sys2Proof.Machine.execIrem o a s
  | .iabs o a => Sys2Proof.Machine.execIabs o a s
  | .imin o a => Sys2Proof.Machine.execImin o a s
  | .imax o a => Sys2Proof.Machine.execImax o a s
  | .andB o a => Sys2Proof.Machine.execAndB o a s
  | .orB o a => Sys2Proof.Machine.execOrB o a s
  | .xorB o a => Sys2Proof.Machine.execXorB o a s
  | .shl o a => Sys2Proof.Machine.execShl o a s
  | .shr o a => Sys2Proof.Machine.execShr o a s
  | .rot o a => Sys2Proof.Machine.execRot o a s
  | .bfx o a => Sys2Proof.Machine.execBfx o a s
  | .bfi o a => Sys2Proof.Machine.execBfi o a s
  | .popc o a => Sys2Proof.Machine.execPopc o a s
  | .clz o a => Sys2Proof.Machine.execClz o a s
  | .brev o a => Sys2Proof.Machine.execBrev o a s
  | .icmp o a => Sys2Proof.Machine.execIcmp o a s
  | .sel o a => Sys2Proof.Machine.execSel o a s
  | .mov o a => Sys2Proof.Machine.execMov o a s
  | .movRetag o a => Sys2Proof.Machine.execMovRetag o a s
  | .movi o a => Sys2Proof.Machine.execMovi o a s
  | .fadd o a => Sys2Proof.Machine.execFadd o a s
  | .fsub o a => Sys2Proof.Machine.execFsub o a s
  | .fmul o a => Sys2Proof.Machine.execFmul o a s
  | .ffma o a => Sys2Proof.Machine.execFfma o a s
  | .fmin o a => Sys2Proof.Machine.execFmin o a s
  | .fmax o a => Sys2Proof.Machine.execFmax o a s
  | .fcmp o a => Sys2Proof.Machine.execFcmp o a s
  | .fclass o a => Sys2Proof.Machine.execFclass o a s
  | .fdiv o a => Sys2Proof.Machine.execFdiv o a s
  | .fsqrt o a => Sys2Proof.Machine.execFsqrt o a s
  | .frsqrt o a => Sys2Proof.Machine.execFrsqrt o a s
  | .frcp o a => Sys2Proof.Machine.execFrcp o a s
  | .fexp2 o a => Sys2Proof.Machine.execFexp2 o a s
  | .flog2 o a => Sys2Proof.Machine.execFlog2 o a s
  | .fsinpi o a => Sys2Proof.Machine.execFsinpi o a s
  | .fcospi o a => Sys2Proof.Machine.execFcospi o a s
  | .frnd o a => Sys2Proof.Machine.execFrnd o a s
  | .fscale o a => Sys2Proof.Machine.execFscale o a s
  | .fgetexp o a => Sys2Proof.Machine.execFgetexp o a s
  | .cvt o a => Sys2Proof.Machine.execCvt o a s
  | .dxpack o a => Sys2Proof.Machine.execDxpack o a s
  | .dxunpack o a => Sys2Proof.Machine.execDxunpack o a s
  | .fgsum o a => Sys2Proof.Machine.execFgsum o a s
  | .fdot2 o a => Sys2Proof.Machine.execFdot2 o a s
  | .shfl o a => Sys2Proof.Machine.execShfl o a s
  | .ballot o a => Sys2Proof.Machine.execBallot o a s
  | .vote o a => Sys2Proof.Machine.execVote o a s
  | .gred o a => Sys2Proof.Machine.execGred o a s
  | .gscan o a => Sys2Proof.Machine.execGscan o a s
  | .plop o a => Sys2Proof.Machine.execPlop o a s
  | .p2m o a => Sys2Proof.Machine.execP2m o a s
  | .m2p o a => Sys2Proof.Machine.execM2p o a s
  | .nop o a => Sys2Proof.Machine.execNop o a s
  | .bra o b => Sys2Proof.Machine.execBra o b s
  | .brx o b => Sys2Proof.Machine.execBrx o b s
  | .call o b => Sys2Proof.Machine.execCall o b s
  | .ret o x => Sys2Proof.Machine.execRet o x s
  | .exitL o x => Sys2Proof.Machine.execExitL o x s
  | .rgrp o x => Sys2Proof.Machine.execRgrp o x s
  | .rgrpSet o x => Sys2Proof.Machine.execRgrpSet o x s
  | .rejoin o x => Sys2Proof.Machine.execRejoin o x s
  | .setprio o b => Sys2Proof.Machine.execSetprio o b s
  | .ld o m => Sys2Proof.Machine.execLd o m s
  | .st o m => Sys2Proof.Machine.execSt o m s
  | .gld o g => Sys2Proof.Machine.execGld o g s
  | .gst o g => Sys2Proof.Machine.execGst o g s
  | .cst o m => Sys2Proof.Machine.execCst o m s
  | .xld o m => Sys2Proof.Machine.execXld o m s
  | .atom o m => Sys2Proof.Machine.execAtom o m s
  | .red o m => Sys2Proof.Machine.execRed o m s
  | .waitv o m => Sys2Proof.Machine.execWaitv o m s
  | .fence o x => Sys2Proof.Machine.execFence o x s
  | .sdrain o x => Sys2Proof.Machine.execSdrain o x s
  | .pf o m => Sys2Proof.Machine.execPf o m s
  | .tld o m => Sys2Proof.Machine.execTld o m s
  | .tldVer o m => Sys2Proof.Machine.execTldVer o m s
  | .tst o m => Sys2Proof.Machine.execTst o m s
  | .tstAll o m => Sys2Proof.Machine.execTstAll o m s
  | .ldn o x => Sys2Proof.Machine.execLdn o x s
  | .stn o x => Sys2Proof.Machine.execStn o x s
  | .peq o x => Sys2Proof.Machine.execPeq o x s
  | .pname o x => Sys2Proof.Machine.execPname o x s
  | .npin o x => Sys2Proof.Machine.execNpin o x s
  | .nunpin o x => Sys2Proof.Machine.execNunpin o x s
  | .ldpl o x => Sys2Proof.Machine.execLdpl o x s
  | .plswap o x => Sys2Proof.Machine.execPlswap o x s
  | .mmq o x => Sys2Proof.Machine.execMmq o x s
  | .accrd o x => Sys2Proof.Machine.execAccrd o x s
  | .accwr o x => Sys2Proof.Machine.execAccwr o x s
  | .acczero o x => Sys2Proof.Machine.execAcczero o x s
  | .accld o x => Sys2Proof.Machine.execAccld o x s
  | .accst o x => Sys2Proof.Machine.execAccst o x s
  | .trchol o x => Sys2Proof.Machine.execTrchol o x s
  | .trupd o x => Sys2Proof.Machine.execTrupd o x s
  | .trupd8 o x => Sys2Proof.Machine.execTrupd8 o x s
  | .trdwd o x => Sys2Proof.Machine.execTrdwd o x s
  | .trsolve o x => Sys2Proof.Machine.execTrsolve o x s
  | .trscale o x => Sys2Proof.Machine.execTrscale o x s
  | .cpy o x => Sys2Proof.Machine.execCpy o x s
  | .cpyg o x => Sys2Proof.Machine.execCpyg o x s
  | .cpyt o x => Sys2Proof.Machine.execCpyt o x s
  | .cpyr o x => Sys2Proof.Machine.execCpyr o x s
  | .cred o x => Sys2Proof.Machine.execCred o x s
  | .cpyz o x => Sys2Proof.Machine.execCpyz o x s
  | .ratom o x => Sys2Proof.Machine.execRatom o x s
  | .sfill o x => Sys2Proof.Machine.execSfill o x s
  | .spop o x => Sys2Proof.Machine.execSpop o x s
  | .sfree o x => Sys2Proof.Machine.execSfree o x s
  | .sfreeInit o x => Sys2Proof.Machine.execSfreeInit o x s
  | .tagw o x => Sys2Proof.Machine.execTagw o x s
  | .tagff o x => Sys2Proof.Machine.execTagff o x s
  | .tagst o x => Sys2Proof.Machine.execTagst o x s
  | .bini o x => Sys2Proof.Machine.execBini o x s
  | .barv o x => Sys2Proof.Machine.execBarv o x s
  | .barw o x => Sys2Proof.Machine.execBarw o x s
  | .sigdec o x => Sys2Proof.Machine.execSigdec o x s
  | .uiraise o x => Sys2Proof.Machine.execUiraise o x s
  | .uiwait o x => Sys2Proof.Machine.execUiwait o x s
  | .uitake o x => Sys2Proof.Machine.execUitake o x s
  | .uimask o x => Sys2Proof.Machine.execUimask o x s
  | .uiret o x => Sys2Proof.Machine.execUiret o x s
  | .scall o x => Sys2Proof.Machine.execScall o x s
  | .trapSw o x => Sys2Proof.Machine.execTrapSw o x s
  | .sprd o x => Sys2Proof.Machine.execSprd o x s
  | .spwr o x => Sys2Proof.Machine.execSpwr o x s
  | .brk o x => Sys2Proof.Machine.execBrk o x s
  | .sret o x => Sys2Proof.Machine.execSret o x s
  | .cancel o x => Sys2Proof.Machine.execCancel o x s
  | .hvy o x => Sys2Proof.Machine.execHvy o x s
  | .uimaskWrite u v => Sys2Proof.Machine.execUimaskWrite u v s
  | .registerWrite core slot off size v => Sys2Proof.Machine.execRegisterWrite core slot off size v s
  | .storeFaultRecord u r => Sys2Proof.Machine.execStoreFaultRecord u r s
  | .sibhalt u gid => Sys2Proof.Machine.execSibhalt u gid s
  | .rejoinWaitComplete u gid => Sys2Proof.Machine.execRejoinWaitComplete u gid s
  | .offcutStallRelease u gid => Sys2Proof.Machine.execOffcutStallRelease u gid s
  | .joinerBuild u => Sys2Proof.Machine.execJoinerBuild u s
  | .waitvReread u gid => Sys2Proof.Machine.execWaitvReread u gid s
  | .fillWaitEnd ctx slot => Sys2Proof.Machine.execFillWaitEnd ctx slot s
  | .groupEnd u gid => Sys2Proof.Machine.execGroupEnd u gid s
  | .unitEnd u => Sys2Proof.Machine.execUnitEnd u s
  | .engineCommandStart u agent => Sys2Proof.Machine.execEngineCommandStart u agent s
  | .matrixPassOpen core => Sys2Proof.Machine.execMatrixPassOpen core s
  | .quarterOperationCommit core mismatch => Sys2Proof.Machine.execQuarterOperationCommit core mismatch s
  | .plswapExchange core plane => Sys2Proof.Machine.execPlswapExchange core plane s
  | .factorCommandCommit u agent => Sys2Proof.Machine.execFactorCommandCommit u agent s
  | .permitGrant die => Sys2Proof.Machine.execPermitGrant die s
  | .energyIntervalCredit die => Sys2Proof.Machine.execEnergyIntervalCredit die s
  | .copyPiece c => Sys2Proof.Machine.execCopyPiece c s
  | .commandComplete u agent => Sys2Proof.Machine.execCommandComplete u agent s
  | .fillEnd u agent => Sys2Proof.Machine.execFillEnd u agent s
  | .orderedReductionApply fn lid stream => Sys2Proof.Machine.execOrderedReductionApply fn lid stream s
  | .lateReply u r => Sys2Proof.Machine.execLateReply u r s
  | .pageWalk core ctx va => Sys2Proof.Machine.execPageWalk core ctx va s
  | .admission ctx key => Sys2Proof.Machine.execAdmission ctx key s
  | .directoryBusyReread ctx key => Sys2Proof.Machine.execDirectoryBusyReread ctx key s
  | .ownershipReread ctx slot => Sys2Proof.Machine.execOwnershipReread ctx slot s
  | .admissionResident ctx slot => Sys2Proof.Machine.execAdmissionResident ctx slot s
  | .departRequest ctx key => Sys2Proof.Machine.execDepartRequest ctx key s
  | .departure ctx slot forced => Sys2Proof.Machine.execDeparture ctx slot forced s
  | .departureComplete ctx slot => Sys2Proof.Machine.execDepartureComplete ctx slot s
  | .raiseDecision r => Sys2Proof.Machine.execRaiseDecision r s
  | .userInterruptEntry u => Sys2Proof.Machine.execUserInterruptEntry u s
  | .watchdog fn lid => Sys2Proof.Machine.execWatchdog fn lid s
  | .yieldCore core => Sys2Proof.Machine.execYieldCore core s
  | .workRequest core => Sys2Proof.Machine.execWorkRequest core s
  | .firstTicket fn lid => Sys2Proof.Machine.execFirstTicket fn lid s
  | .spatialPreemption fn lid => Sys2Proof.Machine.execSpatialPreemption fn lid s
  | .unitVacate u => Sys2Proof.Machine.execUnitVacate u s
  | .unitRestore u core => Sys2Proof.Machine.execUnitRestore u core s
  | .sliceEnd => Sys2Proof.Machine.execSliceEnd s
  | .machineCheck core lost => Sys2Proof.Machine.execMachineCheck core lost s
  | .coreReportAck core idx => Sys2Proof.Machine.execCoreReportAck core idx s
  | .qfree u mask => Sys2Proof.Machine.execQfree u mask s
  | .admissionPortGo core => Sys2Proof.Machine.execAdmissionPortGo core s
  | .supervisorReplace core => Sys2Proof.Machine.execSupervisorReplace core s
  | .openRpc r => Sys2Proof.Machine.execOpenRpc r s
  | .rackRpc r => Sys2Proof.Machine.execRackRpc r s
  | .capsRpc r => Sys2Proof.Machine.execCapsRpc r s
  | .contextRpc r => Sys2Proof.Machine.execContextRpc r s
  | .contextTeardown r => Sys2Proof.Machine.execContextTeardown r s
  | .launchRpc r => Sys2Proof.Machine.execLaunchRpc r s
  | .levelRpc r => Sys2Proof.Machine.execLevelRpc r s
  | .cancelRpc r => Sys2Proof.Machine.execCancelRpc r s
  | .qtableRpc r => Sys2Proof.Machine.execQtableRpc r s
  | .tlbiRpc r => Sys2Proof.Machine.execTlbiRpc r s
  | .departRpc r => Sys2Proof.Machine.execDepartRpc r s
  | .raiseRpc r => Sys2Proof.Machine.execRaiseRpc r s
  | .windowRpc r => Sys2Proof.Machine.execWindowRpc r s
  | .handleRpc r => Sys2Proof.Machine.execHandleRpc r s
  | .revokeRpc r => Sys2Proof.Machine.execRevokeRpc r s
  | .poolrangeRpc r => Sys2Proof.Machine.execPoolrangeRpc r s
  | .phaseRpc r => Sys2Proof.Machine.execPhaseRpc r s
  | .agentReplyRpc r => Sys2Proof.Machine.execAgentReplyRpc r s
  | .telemetryRpc r => Sys2Proof.Machine.execTelemetryRpc r s
  | .powerRpc r => Sys2Proof.Machine.execPowerRpc r s
  | .fwloadRpc r => Sys2Proof.Machine.execFwloadRpc r s
  | .fwswitchRpc r => Sys2Proof.Machine.execFwswitchRpc r s
  | .fwcommitRpc r => Sys2Proof.Machine.execFwcommitRpc r s
  | .quoteRpc r => Sys2Proof.Machine.execQuoteRpc r s
  | .coresetRpc r => Sys2Proof.Machine.execCoresetRpc r s
  | .quiesceRpc r => Sys2Proof.Machine.execQuiesceRpc r s
  | .adoptRpc r => Sys2Proof.Machine.execAdoptRpc r s
  | .resync fn off => Sys2Proof.Machine.execResync fn off s
  | .inboundWrite w => Sys2Proof.Machine.execInboundWrite w s
  | .inboundRead fn msg off size label => Sys2Proof.Machine.execInboundRead fn msg off size label s
  | .routeAck fn seq route => Sys2Proof.Machine.execRouteAck fn seq route s
  | .heldWriteRelease fn seq => Sys2Proof.Machine.execHeldWriteRelease fn seq s
  | .functionReset fn => Sys2Proof.Machine.execFunctionReset fn s
  | .fabricRequest r => Sys2Proof.Machine.execFabricRequest r s
  | .fabricReply r => Sys2Proof.Machine.execFabricReply r s
  | .resendTimeout fn dst id => Sys2Proof.Machine.execResendTimeout fn dst id s
  | .creditReport port chan => Sys2Proof.Machine.execCreditReport port chan s
  | .creditReportReceived port chan sent freed => Sys2Proof.Machine.execCreditReportReceived port chan sent freed s
  | .rateStepDown port => Sys2Proof.Machine.execRateStepDown port s
  | .poolLinkDown port => Sys2Proof.Machine.execPoolLinkDown port s
  | .emergencyEvent => Sys2Proof.Machine.execEmergencyEvent s
  | .emergencyClear => Sys2Proof.Machine.execEmergencyClear s
  | .patrolScrub addr size bad corrected => Sys2Proof.Machine.execPatrolScrub addr size bad corrected s
  | .powerOn => Sys2Proof.Machine.execPowerOn s
  | .poolLinkUp port => Sys2Proof.Machine.execPoolLinkUp port s
  | .powerLoss => Sys2Proof.Machine.execPowerLoss s
  | .poolBackInvalidate line => Sys2Proof.Machine.execPoolBackInvalidate line s

end Sys2Proof.Machine
end

