-- ==== Sys2Proof/Machine/Settle.lean ====
section
/-! DEFINITION. After every step: what has become due, and the deadlock trap (R132, R136, R137, R230, R305). -/

namespace Sys2Proof.Machine

/-- REJOINDL of a group: EPC is the waiting entry of highest priority, of lowest PC among equals (R137). -/
def rejoinTrap (s : State) (u : Unit) (g : Group) : State :=
  match sortBy Entry.above g.ents with
  | [] => s
  | e :: _ =>
    takeFault s u.key g.gid (peekWord s u e.pc) e.pc { code := C.REJOINDL, detail := g.ents.length }
      fun t => listEntries t (ranked g.ents)

/-- Adds a step that is due where a condition holds. -/
def State.dueIf (s : State) (b : Bool) (i : Instr) : State := if b then s.due i else s

/-! ## Groups and units -/

/-- What a group has made due. A group in its skid takes its own deadlock at once (R137, R353). -/
def settleGroup (s : State) (k : UKey) (gid : Nat) : State :=
  match s.unit? k with
  | none => s
  | some u => match u.grp? gid with
    | none => s
    | some g =>
      if g.ents.isEmpty then s.due (.groupEnd k gid)
      else if u.vacating || g.run == .stopped then s
      else if g.run != .running || u.halted then (if rejoinDead g.ents then rejoinTrap s u g else s)
      else
        let s := s.dueIf (g.ents.any fun e => e.rejoinDone g.ents) (.rejoinWaitComplete k gid)
        let s := s.dueIf (entryDue s u g) (.userInterruptEntry k)
        let s := s.dueIf (g.ents.any fun e => e.wait == .waitv || e.wait == .version) (.waitvReread k gid)
        let s := s.dueIf (g.ents.any fun e => e.wait == .offcut) (.offcutStallRelease k gid)
        if rejoinDead g.ents then rejoinTrap s u g else s

/-- What a command has made due: its start, its next piece, or its completion (R168, R280, R283, R289). -/
def settleCmd (s : State) (u : Unit) (agent : Nat) (m : Cmd) : State :=
  let s := s.dueIf (startable s u agent m) (.engineCommandStart u.key agent)
  let s := s.dueIf (movable s u agent m && m.stream.isNone && engineTurn s u.key agent) (.copyPiece (.cmd u.key agent))
  let s := s.dueIf (m.state == .started && m.permit && isFactor m.ins) (.factorCommandCommit u.key agent)
  let s := s.dueIf (m.state == .done && m.tag.isSome) (.commandComplete u.key agent)
  s.dueIf (m.state == .done && m.fill.isSome) (.fillEnd u.key agent)

/-- What a unit has made due; one that is being restored does nothing else. -/
def settleUnit (s : State) (k : UKey) : State :=
  if restoring s k then s
  else match s.unit? k with
  | none => s
  | some u =>
    let s := (u.grps.filter (·.live)).foldl (fun s g => settleGroup s k g.gid) s
    match s.unit? k with
    | none => s
    | some u =>
      let s := u.cmds.foldl (fun s m => settleCmd s u m.1 m.2) s
      let s := s.dueIf (!u.off.isEmpty && (buildable s u).isSome) (.joinerBuild k)
      s.dueIf (!isSuper k && (unitDone u || u.stopped)) (.unitEnd k)

/-! ## Cores and dies -/

/-- Whether the commit of a quarter operation is due on a core already. -/
def commitDue (s : State) (core : Nat) : Bool := s.agenda.any fun i => match i with | .quarterOperationCommit c _ => c == core | _ => false

/-- Faults held for the second group of a cycle are posted once it has issued, or does not issue any more (R353). -/
def releaseHeld (s : State) (core : Nat) : State :=
  let c := s.core core
  if c.hold.isEmpty || s.second.isSome then s
  else
    let ended (slot : Nat) : Bool := !(c.picked.any fun x => x.1 == slot / 16 && (drawerReady s core x.1).any fun y => y.1.key == x.2.1 && y.2.gid == x.2.2)
    postSlots (s.setCore core { c with hold := c.hold.filter fun x => !ended x }) core (c.hold.filter ended)

/-- What a core's array and planes have made due (R182, R266, R267). -/
def settleCore (s : State) (core : Nat) : State :=
  let s := releaseHeld s core
  let c := s.core core
  let s := [0, 1].foldl (fun s p => s.dueIf (!c.mq.isEmpty && swapReady s core p) (.plswapExchange core p)) s
  match c.pass with
  | none => s.dueIf (!c.mq.isEmpty && !(newPass s core).isEmpty) (.matrixPassOpen core)
  | some p => s.dueIf ((p.permit || p.ops.isEmpty) && !commitDue s core) (.quarterOperationCommit core none)

/-- Permits that may be granted (R407). -/
def settleDies (s : State) : State :=
  (s.dies.map (·.1)).foldl (fun s d => s.dueIf (nextGrant s d).isSome (.permitGrant d)) s

/-! ## The bench -/

/-- Cores taken for a launch return to service once it has no placeable work (R344). -/
def returnCores (s : State) : State :=
  if s.launches.any fun l => !l.taken.isEmpty && !l.placeable then
    { s with launches := s.launches.map fun l => if l.placeable then l else { l with taken := [] } }
  else s

/-- The lowest core that is served (R343). -/
def servedCore (s : State) : Option Nat := (List.range 512).find? fun c => (serve s c).isSome

/-- What launches have made due: their readiness, their tickets, their pre-emption, their ordered streams. -/
def settleBench (s : State) : State :=
  let s := if s.launches.any fun l => l.state == .pending then readyUp s s.launches.length else s
  let s := returnCores s
  let s := if s.launches.any Launch.placeable then
      match servedCore s with
      | some c => s.due (.workRequest c)
      | none => s.launches.foldl (fun s l => s.dueIf (nextVictim s l).isSome (.spatialPreemption l.fn l.lid)) s
    else s
  let s := s.launches.foldl (fun s l =>
    (l.streams.map (·.1)).foldl (fun s n => s.dueIf (sequencerReady s l n) (.orderedReductionApply l.fn l.lid n)) s) s
  let s := if s.launches.any fun l => !l.resume.isEmpty then
      ((s.units.map (·.core)).eraseDups).foldl (fun s c => s.dueIf (!(yielding s c).isEmpty) (.yieldCore c)) s
    else s
  s.dueIf (s.quanta.any (Quantum.ok s) && (s.tenant.isSome || s.quanta.any fun q => q.ok s && hasWork s q.fn)) .sliceEnd

/-! ## Names, ports, functions, firmware -/

/-- Departures that can end (R251). -/
def settleNames (s : State) : State :=
  s.ctxs.foldl (fun s c =>
    (c.res.filter fun e => e.2.state == .departing && (e.2.cpin == 0 || e.2.forced) && e.2.dstep != 2).foldl
      (fun s e => s.due (.departureComplete c.id e.1)) s) s

/-- Credit reports (R389). -/
def settlePorts (s : State) : State :=
  s.ports.zipIdx.foldl (fun s p =>
    let s := s.dueIf (p.1.req.reported != p.1.req.freed) (.creditReport p.2 0)
    s.dueIf (p.1.rep.reported != p.1.rep.freed) (.creditReport p.2 1)) s

/-- Frames that have come whole, held writes that nothing stands before (R377, R383). -/
def settleFunc (s : State) (fn : Nat) : State :=
  let s := consumeFrame s fn
  match (s.func fn).inflight with
  | e :: _ => s.dueIf e.held (.heldWriteRelease fn e.seq)
  | [] => s

/-- Supervisors that a switch replaces now (R411). -/
def settleSwitch (s : State) : State :=
  if s.switching.isNone then s
  else (List.range 512).foldl (fun s c => s.dueIf (replaceable s c) (.supervisorReplace c)) s

/-- What the step has made due. -/
def settle (s : State) : State :=
  let s := s.units.foldl (fun s u => settleUnit s u.key) s
  let s := (s.cores.map (·.1)).foldl settleCore s
  let s := settleNames (settleBench (settleDies s))
  let s := (s.funcs.map (·.1)).foldl settleFunc (settlePorts s)
  settleSwitch s

end Sys2Proof.Machine
end

