-- ==== Sys2Proof/Machine/Cycle.lean ====
section
/-! DEFINITION. The end of an issue cycle: the frontier that its one or two issues leave is merged, and cut where it holds more than eight
entries (R95, R128, R226, R229); and the end of every step. -/

namespace Sys2Proof.Machine

/-- A group of a unit. -/
def groupAt (s : State) (k : UKey) (gid : Nat) : Option (Unit × Group) := (s.unit? k).bind fun u => (u.grp? gid).map fun g => (u, g)

/-- The frontier once the second decoder's entry stands for itself again, issued or not. -/
def unpaired (es : List Entry) : List Entry :=
  let free (e : Entry) : Entry := if e.wait == .second then { e with wait := .none } else e
  addAll (es.map free) []

/-- Whether the frontier of a group can stand or be cut (R229). -/
def frontierFits (s : State) (k : UKey) (gid : Nat) : Bool :=
  match groupAt s k gid with
  | none => true
  | some (u, g) => match growFrontier u g (unpaired g.ents) with | .ok _ => true | .error _ => false

/-- What the second decoder's word would leave, where it issues now. -/
def afterSecond (s : State) : State :=
  match pendingSecond s with
  | none => s
  | some (k, gid, i) => match issueWord { s with second := none } k gid i with
    | .run i t => (match exec i t with | .next t => t | _ => s)
    | .trap t => t
    | .idle => s

/-- The first word of a cycle does not issue, for its frontier has no room: the group stands as before it, and the entry stalls or traps
(R229, R306). A cycle in which nothing issues is none of the skid (R353). -/
def unissue (s : State) (k : UKey) (gid ent word : Nat) (g0 : Group) (stop : Stop) : State :=
  let back (w : Wait) : State := s.modGrp k gid fun _ =>
    { g0 with ents := g0.ents.zipIdx.map fun (e, i) => if i = ent then { e with wait := w } else if e.wait == .second then { e with wait := .none } else e,
              run := match g0.run with | .skid n src => if w.stalls then .skid (n + 1) src else .skid n src | r => r }
  match stop, g0.ents[ent]? with
  | .trap t, some e => takeFault (back .none) k gid word e.pc t id true
  | .wait w, _ => back w
  | _, _ => back .offcut

/-- Cuts off what stands below eighth in a frontier (R229). -/
def cutFrontier (s : State) (u : Unit) (g : Group) (keep : List Entry) (rs : List OffRec) : State :=
  let clock := if s.tracks then u.race.know u.key g.gid else []
  let race := if rs.isEmpty || !s.tracks then u.race else u.race.advance g.gid
  let now := s.clk u.core
  s.modUnit u.key fun u =>
    { u.modGrp g.gid (fun g => { g with ents := keep }) with off := u.off ++ rs.map (fun r => { r with age := now, clock := clock }), race := race }

/-- The cycle of a group is over. `first` is the place and the word of an issue that has just taken place and that the second decoder's has
not followed. -/
def endCycle (s : State) (k : UKey) (gid : Nat) (first : Option (Nat × Nat)) : State :=
  let g0 := s.grown
  let s := { s with second := none, pair := none, grown := none }
  match groupAt s k gid with
  | none => s
  | some (u, g) =>
    match growFrontier u g (unpaired g.ents), g0, first with
    | .ok (keep, rs), _, _ => cutFrontier s u g keep rs
    | .error e, some g0, some (ent, word) => unissue s k gid ent word g0 e
    | .error _, _, _ =>
      let rs := sortBy Entry.above (unpaired g.ents)
      cutFrontier s u g (rs.take 8) (cutRecs g g.liven (rs.drop 8))

/-- After a word of a cycle in which two entries may issue: the cycle goes on while the second is still to come. Where the first alone leaves
more than eight entries, the second issues only if there is room for what both leave (R229). -/
def cycleEnd (s : State) : State :=
  match s.pair with
  | none => s
  | some (k, gid) =>
    if (pendingSecond s).isNone then endCycle s k gid (if s.second.isSome then s.cur.map fun c => (c.ent, c.word) else none)
    else if s.grown.isNone || frontierFits (afterSecond (tock s)) k gid then s
    else endCycle s k gid (s.cur.map fun c => (c.ent, c.word))

/-- The end of every step. -/
def closeStep (s : State) : State := settle (tock (cycleEnd s))

end Sys2Proof.Machine
end

