-- ==== Sys2Proof/Machine/Step.lean ====
section
/-! DEFINITION. One step of the machine. -/

namespace Sys2Proof.Machine

/-- The end of a step. -/
def close : Host.Outcome State Fault Refusal → Host.Outcome State Fault Refusal
  | .next s => .next (closeStep s)
  | .fault f => .fault f
  | .refused r => .refused r

/-- One step: what the plan says, then what has become due. -/
def step (s : State) : Host.Outcome State Fault Refusal :=
  match plan s with
  | .idle => .next (closeStep s)
  | .trap t => .next (closeStep t)
  | .run i t => close (exec i t)

/-- The bytes of an instruction of `nbits` bits, padded to twelve bytes. -/
def wordBytes (w : Nat) : List Byte := bytesOfNat 12 (w % 2 ^ 96)

/-- Places the word where the next step fetches it, with the unit that runs it (log 2). -/
def State.withFetchWord (s : State) (_nbits w : Nat) : State :=
  let hbm := Sparse.setList unwritten (bootTables s.hbm) bootPc (wordBytes w)
  { s with hbm := hbm, units := [bootUnit], ctxs := [bootCtx], launches := [bootLaunch hbm], powered := true, booted := true,
           agenda := [], second := none, pair := none, grown := none, cur := none }

end Sys2Proof.Machine
end

