-- ==== Sys2Proof/Safety.lean ====
section
/-! DEFINITION. What a safe run is, in the terms claims use. -/

namespace Sys2Proof.Machine

/-- The canonical form of a memory: addresses strictly rising, and no byte equal to what an unlisted address reads as. -/
def Memory.wf (m : Sparse Byte) : Bool := Sparse.wf unwritten m

/-- Every memory of the machine, and its tables of marks, in canonical form. -/
def State.memWf (s : State) : Prop :=
  Memory.wf s.hbm = true ∧ Memory.wf s.pool = true ∧ Memory.wf s.host = true ∧ Memory.wf s.vaults = true
    ∧ Sparse.wf false s.marks = true ∧ Sparse.wf false s.badCrc = true

/-- The group of a view in another state. -/
def Cx.after (c : Cx) (t : State) : Option Group := (t.unit? c.u.key).bind fun u => u.grp? c.g.gid

/-- A step that answers a next state. -/
def Steps (s t : State) : Prop := step s = .next t

/-- A step that stops. -/
def Stops (s : State) : Prop := ∀ t, step s ≠ .next t

/-- A run of steps. -/
inductive Reaches : State → State → Prop
  | refl (s : State) : Reaches s s
  | tail {s t u : State} : Reaches s t → Steps t u → Reaches s u

end Sys2Proof.Machine
end

