-- ==== Sys2Proof/Certificates/Slice0/Obligations.lean ====
section
/-! DEFINITION. The statements for the provers, each `def Obligations.<Name> : Prop`, and the few words they are written in. -/

namespace Sys2Proof.Claims

open Sys2Proof.Machine

/-- Word `o`, its fields in range, issues from the view `c` of `s`, and some lane executes it (R67, R68). -/
def Issues (s : State) (o : Op) (c : Cx) : Prop := o.ok = true ∧ view? s o.grd = some c ∧ c.ex ≠ 0

/-- An operand of `n` registers bears one tag on all of them: RAW, or one of `ok` (R27). -/
def Bears (c : Cx) (x : Opd) (n : Nat) (ok : List Tag) : Prop :=
  (∀ k < n, c.regTag x k = c.regTag x 0) ∧ (c.regTag x 0 = .raw ∨ c.regTag x 0 ∈ ok)

/-- The second operand of a family A word is an immediate or bears such a tag (R92). -/
def BearsB (c : Cx) (o : Op) (a : ModA) (n : Nat) (ok : List Tag) : Prop := a.opnd = 1 ∨ Bears c o.b n ok

/-- The lanes a destination is computed in: every executing lane, or the lowest one for s and m (R20, R67). -/
def inLanes (c : Cx) (d : Opd) : List Nat :=
  match d with
  | .s _ | .m _ => [lowLane c.ex]
  | _ => lanesOf c.ex

/-- The flags of several lanes together (R30). -/
def flagsOf (ls : List Nat) (f : Nat → Nat) : Nat := ls.foldl (fun m l => m ||| f l) 0

/-- What a family A word leaves (R92): destination `d` of `n` registers written with a tag and a value per lane, flags ORed
into GSTAT, the entry at PC + 12, and nothing else. -/
def wrote (c : Cx) (d : Opd) (n : Nat) (tag : Tag) (f : Nat → Nat) (fl : Nat) : State :=
  advance c (c.put ((c.g.write d n tag f c.ex).orFlags fl))

/-- The two elements of a packed word under an element function, or the one element of another (R106). -/
def each (t : Ty) (f : Nat → Nat × Nat) (x : Nat) : Nat × Nat :=
  if t = .f16 ∨ t = .bf16 then
    ((f (x % 2 ^ 16)).1 + (f (x / 2 ^ 16 % 2 ^ 16)).1 * 2 ^ 16, (f (x % 2 ^ 16)).2 ||| (f (x / 2 ^ 16 % 2 ^ 16)).2)
  else f x

/-- The same for two operands. -/
def each2 (t : Ty) (f : Nat → Nat → Nat × Nat) (x y : Nat) : Nat × Nat :=
  if t = .f16 ∨ t = .bf16 then
    ((f (x % 2 ^ 16) (y % 2 ^ 16)).1 + (f (x / 2 ^ 16 % 2 ^ 16) (y / 2 ^ 16 % 2 ^ 16)).1 * 2 ^ 16,
      (f (x % 2 ^ 16) (y % 2 ^ 16)).2 ||| (f (x / 2 ^ 16 % 2 ^ 16) (y / 2 ^ 16 % 2 ^ 16)).2)
  else f x y

end Sys2Proof.Claims

open Sys2Proof Sys2Proof.Machine Sys2Proof.Claims

/-! ## Family A -/

/-- R96: iadd and isub without pointers give the sum or the difference modulo 2^W. -/
def Obligations.IntegerSums : Prop :=
  ∀ (s : State) (o : Op) (a : ModA) (c : Cx), Issues s o c → a.ty.isInt = true →
    Bears c o.a a.ty.regs [a.ty.intTag] → BearsB c o a a.ty.regs [a.ty.intTag] →
    exec (.iadd o a) s = .next (wrote c o.d a.ty.regs a.ty.intTag
        (fun l => (c.val o.a a.ty.regs l + c.bval o a a.ty.regs l) % 2 ^ a.ty.width) 0)
    ∧ exec (.isub o a) s = .next (wrote c o.d a.ty.regs a.ty.intTag
        (fun l => (((c.val o.a a.ty.regs l : Int) - c.bval o a a.ty.regs l) % 2 ^ a.ty.width).toNat) 0)

/-- R97: a pointer plus or minus an integer, or an integer plus a pointer, stays a pointer while every lane stays in its window; where a
lane leaves it, the lowest such lane takes PTRWRAP. The difference of two pointers of one window is an integer. Two pointers of different
windows, the sum of two pointers and an integer less a pointer take FORMAT, which names B (the model's choice, log 80). -/
def Obligations.PointerSums : Prop :=
  ∀ (s : State) (o : Op) (a : ModA) (c : Cx), Issues s o c → a.ty = .i64 →
    let ptr (p : Opd) := Bears c p 2 [.ptr] ∧ c.regTag p 0 = .ptr
    let ls := inLanes c o.d
    let window (v : Nat) := v / 2 ^ 40
    let x (l : Nat) := c.val o.a 2 l
    let y (l : Nat) := c.bval o a 2 l
    let plus (l : Nat) := (x l + y l) % 2 ^ 64
    let minus (l : Nat) := (((x l : Int) - y l) % 2 ^ 64).toNat
    let format (l : Nat) : Host.Outcome State Fault Refusal :=
      .next (takeTrap c s { code := 0x03, detail := o.b.code + Tag.ptr.code * 2 ^ 9 + l * 2 ^ 13 })
    let stays (i : Instr) (p : Opd) (r : Nat → Nat) :=
      ((∀ l ∈ ls, window (r l) = window (c.val p 2 l)) → exec i s = .next (wrote c o.d 2 .ptr r 0))
      ∧ (∀ l ∈ ls, window (r l) ≠ window (c.val p 2 l) → (∀ k ∈ ls, k < l → window (r k) = window (c.val p 2 k)) →
        exec i s = .next (takeTrap c s { code := 0x0B, detail := p.code + l * 2 ^ 9 }))
    (ptr o.a → BearsB c o a 2 [.i64] → stays (.iadd o a) o.a plus ∧ stays (.isub o a) o.a minus)
    ∧ (a.opnd ≠ 1 → Bears c o.a 2 [.i64] → ptr o.b → stays (.iadd o a) o.b plus ∧ exec (.isub o a) s = format c.l0)
    ∧ (a.opnd ≠ 1 → ptr o.a → ptr o.b →
      exec (.iadd o a) s = format c.l0
      ∧ ((∀ l ∈ ls, window (x l) = window (y l)) → exec (.isub o a) s = .next (wrote c o.d 2 .i64 minus 0))
      ∧ (∀ l ∈ ls, window (x l) ≠ window (y l) → (∀ k ∈ ls, k < l → window (x k) = window (y k)) → exec (.isub o a) s = format l))

/-- R96: imul and imad give a half of the exact product, signed for .i types. -/
def Obligations.IntegerProducts : Prop :=
  ∀ (s : State) (o : Op) (a : ModA) (c : Cx), Issues s o c → a.ty.isInt = true → o.fn ≤ 1 →
    Bears c o.a a.ty.regs [a.ty.intTag] → BearsB c o a a.ty.regs [a.ty.intTag] →
    let half (p : Int) : Int := if o.fn = 0 then p else p / 2 ^ a.ty.width
    exec (.imul o a) s = .next (wrote c o.d a.ty.regs a.ty.intTag
        (fun l => (half (a.ty.int (c.val o.a a.ty.regs l) * a.ty.int (c.bval o a a.ty.regs l)) % 2 ^ a.ty.width).toNat) 0)
    ∧ (Bears c o.b a.ty.regs [a.ty.intTag] → Bears c o.c a.ty.regs [a.ty.intTag] →
      exec (.imad o a) s = .next (wrote c o.d a.ty.regs a.ty.intTag
        (fun l => ((half (a.ty.int (c.val o.a a.ty.regs l) * a.ty.int (c.val o.b a.ty.regs l)) + c.val o.c a.ty.regs l)
          % 2 ^ a.ty.width).toNat) 0))

/-- R96, R98: idiv and irem truncate towards zero; their boundary cases saturate and set SAT. -/
def Obligations.IntegerDivision : Prop :=
  ∀ (s : State) (o : Op) (a : ModA) (c : Cx), Issues s o c → a.ty.isInt = true →
    Bears c o.a a.ty.regs [a.ty.intTag] → BearsB c o a a.ty.regs [a.ty.intTag] →
    let w := a.ty.width
    let x (l : Nat) := a.ty.int (c.val o.a a.ty.regs l)
    let y (l : Nat) := a.ty.int (c.bval o a a.ty.regs l)
    let edge (l : Nat) := y l = 0 ∨ a.ty.isSigned = true ∧ x l = -2 ^ (w - 1) ∧ y l = -1
    let q (l : Nat) : Int :=
      if y l = 0 then (if a.ty.isSigned then (if x l < 0 then -2 ^ (w - 1) else 2 ^ (w - 1) - 1) else 2 ^ w - 1)
      else if edge l then 2 ^ (w - 1) - 1 else (x l).tdiv (y l)
    let r (l : Nat) : Int := if y l = 0 then x l else if edge l then 0 else x l - y l * (x l).tdiv (y l)
    let fl := flagsOf (inLanes c o.d) fun l => if edge l then 32 else 0
    exec (.idiv o a) s = .next (wrote c o.d a.ty.regs a.ty.intTag (fun l => (q l % 2 ^ w).toNat) fl)
    ∧ exec (.irem o a) s = .next (wrote c o.d a.ty.regs a.ty.intTag (fun l => (r l % 2 ^ w).toNat) fl)

/-- R96: iabs saturates at the minimum; imin and imax order by the type's signedness. -/
def Obligations.IntegerOrder : Prop :=
  ∀ (s : State) (o : Op) (a : ModA) (c : Cx), Issues s o c → a.ty.isInt = true →
    Bears c o.a a.ty.regs [a.ty.intTag] → BearsB c o a a.ty.regs [a.ty.intTag] →
    let w := a.ty.width
    let x (l : Nat) := a.ty.int (c.val o.a a.ty.regs l)
    let y (l : Nat) := a.ty.int (c.bval o a a.ty.regs l)
    (a.ty.isSigned = true → exec (.iabs o a) s = .next (wrote c o.d a.ty.regs a.ty.intTag
        (fun l => if x l = -2 ^ (w - 1) then 2 ^ (w - 1) - 1 else (x l).natAbs)
        (flagsOf (inLanes c o.d) fun l => if x l = -2 ^ (w - 1) then 32 else 0)))
    ∧ exec (.imin o a) s = .next (wrote c o.d a.ty.regs a.ty.intTag (fun l => (min (x l) (y l) % 2 ^ w).toNat) 0)
    ∧ exec (.imax o a) s = .next (wrote c o.d a.ty.regs a.ty.intTag (fun l => (max (x l) (y l) % 2 ^ w).toNat) 0)

/-- R99: the bitwise operations and the counts of bits. -/
def Obligations.BitOperations : Prop :=
  ∀ (s : State) (o : Op) (a : ModA) (c : Cx), Issues s o c → a.ty.isBits = true → Bears c o.a a.ty.regs [c.regTag o.a 0] →
    let w := a.ty.width
    let x (l : Nat) := c.val o.a a.ty.regs l
    (BearsB c o a a.ty.regs [c.regTag o.b 0] →
      exec (.andB o a) s = .next (wrote c o.d a.ty.regs .raw (fun l => x l &&& c.bval o a a.ty.regs l) 0)
      ∧ exec (.orB o a) s = .next (wrote c o.d a.ty.regs .raw (fun l => x l ||| c.bval o a a.ty.regs l) 0)
      ∧ exec (.xorB o a) s = .next (wrote c o.d a.ty.regs .raw (fun l => x l ^^^ c.bval o a a.ty.regs l) 0))
    ∧ exec (.popc o a) s = .next (wrote c o.d 1 .i32 (fun l => ((List.range w).filter fun i => (x l).testBit i).length) 0)
    ∧ (∃ z : Nat → Nat, exec (.clz o a) s = .next (wrote c o.d 1 .i32 z 0)
        ∧ ∀ l, z l ≤ w ∧ x l < 2 ^ (w - z l) ∧ (z l < w → 2 ^ (w - z l - 1) ≤ x l))
    ∧ (∃ r : Nat → Nat, exec (.brev o a) s = .next (wrote c o.d a.ty.regs .raw r 0)
        ∧ ∀ l, r l < 2 ^ w ∧ ∀ i < w, (r l).testBit (w - 1 - i) = (x l).testBit i)

/-- R99, R100: shifts, rotations and bit fields. -/
def Obligations.ShiftsAndFields : Prop :=
  ∀ (s : State) (o : Op) (a : ModA) (c : Cx), Issues s o c → (a.ty.isInt || a.ty.isBits) = true →
    Bears c o.a a.ty.regs [c.regTag o.a 0] →
    let w := a.ty.width
    let x (l : Nat) := c.val o.a a.ty.regs l
    let k (l : Nat) := c.bval32 o a l
    exec (.shl o a) s = .next (wrote c o.d a.ty.regs a.ty.bitTag (fun l => if w ≤ k l then 0 else x l * 2 ^ k l % 2 ^ w) 0)
    ∧ exec (.shr o a) s = .next (wrote c o.d a.ty.regs a.ty.bitTag (fun l => (a.ty.int (x l) / 2 ^ k l % 2 ^ w).toNat) 0)
    ∧ (a.ty.isBits = true → o.fn ≤ 1 → ∃ r : Nat → Nat, exec (.rot o a) s = .next (wrote c o.d a.ty.regs .raw r 0)
        ∧ ∀ l, r l < 2 ^ w ∧ ∀ i < w, (r l).testBit (if o.fn = 0 then (i + k l) % w else (i + (w - k l % w)) % w) = (x l).testBit i)
    ∧ (let n (l : Nat) := if k l % 256 < w then min (k l / 256 % 256) (w - k l % 256) else 0
      exec (.bfx o a) s = .next (wrote c o.d a.ty.regs a.ty.bitTag (fun l =>
        if n l = 0 then 0 else if a.ty.isSigned then (sext (n l) (x l / 2 ^ (k l % 256)) % 2 ^ w).toNat else x l / 2 ^ (k l % 256) % 2 ^ n l) 0))
    ∧ (a.ty.isBits = true → Bears c o.c a.ty.regs [c.regTag o.c 0] → ∃ r : Nat → Nat,
        exec (.bfi o a) s = .next (wrote c o.d a.ty.regs .raw r 0)
        ∧ ∀ l, let p := c.val o.b 1 l % 256
          let n := if p < w then min (c.val o.b 1 l / 256 % 256) (w - p) else 0
          r l < 2 ^ w ∧ ∀ i < w, (r l).testBit i = if p ≤ i ∧ i < p + n then (x l).testBit (i - p) else (c.val o.c a.ty.regs l).testBit i)

/-- R101 to R105, R27: compare, select and move; a comparison of 64 bits accepts pointers, and a selection takes the tag that is not RAW.
A selection between two other tags takes FORMAT, which names B (the model's choice, log 80); a move of a pair whose two tags differ takes
FORMAT (log 68). -/
def Obligations.CompareSelectMove : Prop :=
  ∀ (s : State) (o : Op) (a : ModA) (c : Cx), Issues s o c →
    let n := a.ty.regs
    let x (l : Nat) := c.val o.a n l
    let whole := if a.ty.width = 64 then [a.ty.intTag, Tag.ptr] else [a.ty.intTag]
    let ta := c.regTag o.a 0
    let tb := c.regTag o.b 0
    ((a.ty.isInt = true ∧ Bears c o.a n whole ∧ BearsB c o a n whole
        ∨ a.ty.isBits = true ∧ Bears c o.a n [c.regTag o.a 0] ∧ BearsB c o a n [c.regTag o.b 0]) →
      let u (l : Nat) := a.ty.int (x l)
      let v (l : Nat) := a.ty.int (c.bval o a n l)
      let holds (l : Nat) : Prop :=
        if o.fn = 0 then u l = v l else if o.fn = 1 then u l ≠ v l else if o.fn = 2 then u l < v l else if o.fn = 3 then u l ≤ v l
        else if o.fn = 4 then v l < u l else v l ≤ u l
      ∃ r : Nat → Nat, exec (.icmp o a) s = .next (wrote c o.d 1 .raw r 0) ∧ ∀ l, (holds l → r l = 1) ∧ (¬ holds l → r l = 0))
    ∧ (a.ty.isBits = true → Bears c o.a n [ta] → Bears c o.b n [tb] →
      (ta = tb ∨ ta = .raw ∨ tb = .raw →
        exec (.sel o a) s = .next (wrote c o.d n (if ta = .raw then tb else ta) (fun l => if c.pval o.c l then x l else c.val o.b n l) 0))
      ∧ (ta ≠ tb → ta ≠ .raw → tb ≠ .raw →
        exec (.sel o a) s = .next (takeTrap c s { code := 0x03, detail := o.b.code + tb.code * 2 ^ 9 + c.l0 * 2 ^ 13 })))
    ∧ (Bears c o.a n [c.regTag o.a 0] →
      exec (.mov o a) s = .next (advance c (c.put ((c.g.write o.d n .raw x c.ex).retag o.d (c.regTag o.a) n))))
    ∧ (¬ Bears c o.a n [c.regTag o.a 0] →
      exec (.mov o a) s = .next (takeTrap c s { code := 0x03, detail := o.a.code + (c.regTag o.a 0).code * 2 ^ 9 + c.l0 * 2 ^ 13 }))
    ∧ (∀ t k, tagOf a.ty.code = some t → k = (if t = .i64 ∨ t = .f64 ∨ t = .ptr then 2 else if t = .name then 4 else 1) →
      Bears c o.a k [c.regTag o.a 0] → exec (.movRetag o a) s = .next (wrote c o.d k t (fun l => c.val o.a k l) 0))
    ∧ (a.sub = 0 → exec (.movi o a) s = .next (wrote c o.d n a.ty.tag (fun _ => immVal a.ty o.imm) 0))
    ∧ (a.sub = 1 → exec (.movi o a) s = .next (advance c (c.put (c.g.writeHi o.d a.ty.tag o.imm c.ex))))

/-- R106, R107: the exact result of each operation is rounded once, element by element for packed types. -/
def Obligations.FloatArithmetic : Prop :=
  ∀ (s : State) (o : Op) (a : ModA) (c : Cx), Issues s o c → Bears c o.a a.ty.regs [a.ty.tag] → BearsB c o a a.ty.regs [a.ty.tag] →
    let n := a.ty.regs
    let m := fmtOf a.ty
    let two (f : Fl → Fl → Fl × Nat) (l : Nat) := each2 a.ty (fun x y => m.result a.rm (f (m.read x) (m.read y))) (c.val o.a n l) (c.bval o a n l)
    let did (r : Nat → Nat × Nat) := Host.Outcome.next (wrote c o.d n a.ty.tag (fun l => (r l).1) (flagsOf (inLanes c o.d) fun l => (r l).2))
    exec (.fadd o a) s = did (two (flAdd a.rm))
    ∧ exec (.fsub o a) s = did (two fun x y => flAdd a.rm x y.negate)
    ∧ exec (.fmul o a) s = did (two flMul)
    ∧ exec (.fdiv o a) s = did (two flDiv)
    ∧ exec (.fsqrt o a) s = did (fun l => each a.ty (fun x => m.result a.rm (flSqrt (m.read x))) (c.val o.a n l))
    ∧ (a.ty.packed = false → Bears c o.b n [a.ty.tag] → Bears c o.c n [a.ty.tag] → exec (.ffma o a) s = did (fun l =>
        m.result a.rm (flFma a.rm (m.read (c.val o.a n l)) (m.read (c.val o.b n l)) (m.read (c.val o.c n l)))))
    ∧ (a.ty.packed = true → Bears c o.b n [a.ty.tag] → Bears c o.c n [a.ty.tag] → exec (.ffma o a) s = did (fun l =>
        let part (k : Nat) := m.result a.rm (flFma a.rm (m.read (c.val o.a n l / 2 ^ (16 * k) % 2 ^ 16))
          (m.read (c.val o.b n l / 2 ^ (16 * k) % 2 ^ 16)) (m.read (c.val o.c n l / 2 ^ (16 * k) % 2 ^ 16)))
        ((part 0).1 + (part 1).1 * 2 ^ 16, (part 0).2 ||| (part 1).2)))

/-- R108 to R110: minimum and maximum, comparison into a predicate, and the class of a value. -/
def Obligations.FloatOrder : Prop :=
  ∀ (s : State) (o : Op) (a : ModA) (c : Cx), Issues s o c → Bears c o.a a.ty.regs [a.ty.tag] → BearsB c o a a.ty.regs [a.ty.tag] →
    let n := a.ty.regs
    let m := fmtOf a.ty
    let two (f : Nat → Nat → Nat × Nat) (l : Nat) := each2 a.ty f (c.val o.a n l) (c.bval o a n l)
    let did (k : Nat) (t : Tag) (r : Nat → Nat × Nat) :=
      Host.Outcome.next (wrote c o.d k t (fun l => (r l).1) (flagsOf (inLanes c o.d) fun l => (r l).2))
    exec (.fmin o a) s = did n a.ty.tag (two (m.minMax false))
    ∧ exec (.fmax o a) s = did n a.ty.tag (two (m.minMax true))
    ∧ exec (.fcmp o a) s = did 1 .raw (fun l =>
        let r := flCompare o.fn (m.read (c.val o.a n l)) (m.read (c.bval o a n l))
        (if r.1 then 1 else 0, r.2))
    ∧ (a.ty.packed = false → exec (.fclass o a) s = did 1 .i32 (fun l => (m.classify (c.val o.a n l), 0)))

/-- R111: the FP32 functions, each rounded once.
exp2, log2, sinpi and cospi are evaluated to 448 bits before the one rounding (log 9). -/
def Obligations.FloatFunctions : Prop :=
  ∀ (s : State) (o : Op) (a : ModA) (c : Cx), Issues s o c → Bears c o.a 1 [.f32] →
    let did (f : Fl → Fl × Nat) :=
      let r (l : Nat) := F32.result a.rm (f (F32.read (c.val o.a 1 l)))
      Host.Outcome.next (wrote c o.d 1 .f32 (fun l => (r l).1) (flagsOf (inLanes c o.d) fun l => (r l).2))
    exec (.frsqrt o a) s = did flRsqrt ∧ exec (.frcp o a) s = did flRcp ∧ exec (.fexp2 o a) s = did flExp2
    ∧ exec (.flog2 o a) s = did flLog2 ∧ exec (.fsinpi o a) s = did flSinPi ∧ exec (.fcospi o a) s = did flCosPi

/-- R112 to R115, R125: rounding to an integral value, scaling by a power of two, the exponent, the dot product and the sum. -/
def Obligations.FloatScaleAndSum : Prop :=
  ∀ (s : State) (o : Op) (a : ModA) (c : Cx), Issues s o c → Bears c o.a a.ty.regs [a.ty.tag] →
    let n := a.ty.regs
    let m := fmtOf a.ty
    let did (k : Nat) (t : Tag) (r : Nat → Nat × Nat) :=
      Host.Outcome.next (wrote c o.d k t (fun l => (r l).1) (flagsOf (inLanes c o.d) fun l => (r l).2))
    exec (.frnd o a) s = did n a.ty.tag (fun l => each a.ty (m.rint a.rm) (c.val o.a n l))
    ∧ (BearsB c o a 1 [.i32] → exec (.fscale o a) s = did n a.ty.tag (fun l =>
        each a.ty (fun x => m.result a.rm (flScale (m.read x) (max (-6000) (min 6000 (sext 32 (c.bval32 o a l)))))) (c.val o.a n l)))
    ∧ (a.ty.packed = false → exec (.fgetexp o a) s = did 1 .i32 (fun l => flGetExp (m.read (c.val o.a n l))))
    ∧ (a.ty.packed = true → Bears c o.b 1 [a.ty.tag] → (a.opnd = 2 → Bears c o.c 1 [.f32]) → exec (.fdot2 o a) s = did 1 .f32 (fun l =>
        let x := c.val o.a 1 l
        let y := c.val o.b 1 l
        let z := F32.read (c.val o.c 1 l)
        F32.result a.rm (flDot a.rm ([flMul (m.read (x % 2 ^ 16)) (m.read (y % 2 ^ 16)), flMul (m.read (x / 2 ^ 16)) (m.read (y / 2 ^ 16))]
          ++ if a.opnd = 2 then [(z, if z.sig then 1 else 0)] else []))))
    ∧ (let r := sumTree m a.rm 5 ((List.range 32).map fun l => if c.ex.getLsbD l then some (c.val o.a n l) else none)
      exec (.fgsum o a) s = .next (wrote c o.d n a.ty.tag (fun _ => r.1.getD 0) r.2))

/-- R53, R116 to R120: conversions between two types of one element, and dual-exponent packing into registers of lanes or into uniform
ones, with the flags of the blocks. Stochastic rounding without DET takes free bits (log 11), and a uniform destination draws with the
lowest executing lane's thread (log 71). -/
def Obligations.Conversions : Prop :=
  ∀ (s : State) (o : Op) (a : ModA) (c : Cx), Issues s o c →
    let src := tyOf (o.fn % 16)
    let rnd (l e : Nat) : Rnd := if a.rs then .stoch (c.random l e) else .mode a.rm
    let cv (l e x : Nat) := convert src a.ty a.rm (rnd l e) x
    let did (k : Nat) (t : Tag) (r : Nat → Nat × Nat) :=
      Host.Outcome.next (wrote c o.d k t (fun l => (r l).1) (flagsOf (inLanes c o.d) fun l => (r l).2))
    (Bears c o.a src.regs [src.tag] →
      (a.ty.packed = false → src.packed = false → exec (.cvt o a) s = did a.ty.regs a.ty.tag (fun l => cv l 0 (c.val o.a src.regs l)))
      ∧ (a.ty.packed = false → src.packed = true →
          exec (.cvt o a) s = did a.ty.regs a.ty.tag (fun l => cv l 0 (c.val o.a 1 l / 2 ^ (16 * (a.sub % 2)) % 2 ^ 16)))
      ∧ (a.ty.packed = true → src.packed = false → Bears c o.b src.regs [src.tag] → exec (.cvt o a) s = did 1 a.ty.tag (fun l =>
          let lo := cv l 0 (c.val o.a src.regs l)
          let hi := cv l 1 (c.val o.b src.regs l)
          (lo.1 + hi.1 * 2 ^ 16, lo.2 ||| hi.2)))
      ∧ (a.ty.packed = true → src.packed = true → exec (.cvt o a) s = did 1 a.ty.tag (fun l =>
          let lo := cv l 0 (c.val o.a 1 l % 2 ^ 16)
          let hi := cv l 1 (c.val o.a 1 l / 2 ^ 16)
          (lo.1 + hi.1 * 2 ^ 16, lo.2 ||| hi.2))))
    ∧ (let f := (dxShape a.ty).1
      let n := (dxShape a.ty).2.1
      let t := (dxShape a.ty).2.2
      ((∀ i < 16, c.regTag (o.a.plus i) 0 = .raw ∨ c.regTag (o.a.plus i) 0 = .f32) →
        let block (l : Nat) := f.pack (if o.fn / 2 % 2 = 1 then none else some (o.fn / 4 % 8))
          (fun e => if a.rs then .stoch (c.random l e) else .mode .rn) ((List.range 16).map fun i => (c.reg o.a i l).toNat)
        let fl := flagsOf (inLanes c o.d) fun l => (block l).2.2.2
        ∃ g : Group, exec (.dxpack o a) s = .next (advance c (c.put (g.orFlags fl))) ∧ g.gstat = c.g.gstat ∧ ∀ i < n + 1,
          (∀ r l, o.d = .v r → l ∈ lanesOf c.ex → g.getV (r + i) l = BitVec.ofNat 32 (dxRegs f n (block l) i)
            ∧ g.vtag (r + i) = if i = n then .raw else t)
          ∧ (∀ r, o.d = .s r → g.getS (r + i) = BitVec.ofNat 32 (dxRegs f n (block (lowLane c.ex)) i) ∧ g.stag (r + i) = if i = n then .raw else t))
      ∧ ((∀ i < n, c.regTag (o.a.plus i) 0 = .raw ∨ c.regTag (o.a.plus i) 0 = t) →
        let elem (i l : Nat) :=
          let e := (c.reg o.a n l).toNat
          (F32.arith .rn (f.elem (e % 256) (e / 256 % 256) ((c.reg o.a (i / (32 / f.ew)) l).toNat / 2 ^ (f.ew * (i % (32 / f.ew))) % 2 ^ f.ew))).1
        ∃ g, exec (.dxunpack o a) s = .next (advance c (c.put g)) ∧ g.gstat = c.g.gstat ∧ ∀ i < 16,
          (∀ r l, o.d = .v r → l ∈ lanesOf c.ex → g.getV (r + i) l = BitVec.ofNat 32 (elem i l) ∧ g.vtag (r + i) = .f32)
          ∧ (∀ r, o.d = .s r → g.getS (r + i) = BitVec.ofNat 32 (elem i (lowLane c.ex)) ∧ g.stag (r + i) = .f32)))

/-- R121 to R127: moves between lanes, votes, reductions, predicates, and nop. That m2p accepts an s source under every tag is the model's
choice (log 71). -/
def Obligations.LanesAndPredicates : Prop :=
  ∀ (s : State) (o : Op) (a : ModA) (c : Cx), Issues s o c →
    let n := a.ty.regs
    let x (l : Nat) := c.val o.a n l
    let put (d : Opd) (k : Nat) (t : Tag) (f : Nat → Nat) : Host.Outcome State Fault Refusal := .next (wrote c d k t f 0)
    (o.fn ≤ 3 → Bears c o.a n [c.regTag o.a 0] → ∃ k : Nat → Int,
      (∀ l, k l = if o.fn = 0 then (c.bval32 o a l : Int) % 32 else if o.fn = 1 then (l : Int) - c.bval32 o a l
        else if o.fn = 2 then (l : Int) + c.bval32 o a l else (l ^^^ c.bval32 o a l % 32 : Nat))
      ∧ exec (.shfl o a) s = put o.d n (c.regTag o.a 0)
          (fun l => if 0 ≤ k l ∧ k l < 32 ∧ c.ex.getLsbD (k l).toNat then x (k l).toNat else x l))
    ∧ (∀ i, o.a = .p i →
      let p := c.g.pmask i
      let q := c.trueLanes o.b
      exec (.ballot o a) s = put o.d 1 .raw (fun _ => (p &&& c.ex).toNat)
      ∧ (o.fn ≤ 2 → ∃ r, exec (.vote o a) s = put o.d 1 .raw (fun _ => r)
          ∧ (r = 1 ∨ r = 0)
          ∧ (r = 1 ↔ (o.fn = 0 ∧ p &&& c.ex = c.ex) ∨ (o.fn = 1 ∧ p &&& c.ex ≠ 0) ∨ (o.fn = 2 ∧ (p &&& c.ex = c.ex ∨ p &&& c.ex = 0))))
      ∧ exec (.p2m o a) s = put o.d 1 .raw (fun _ => p.toNat)
      ∧ (o.fn ≤ 5 → exec (.plop o a) s = put o.d 1 .raw (fun l =>
          if (if o.fn = 0 then p &&& q else if o.fn = 1 then p ||| q else if o.fn = 2 then p ^^^ q else if o.fn = 3 then p &&& ~~~q
            else if o.fn = 4 then p ||| ~~~q else ~~~p).getLsbD l then 1 else 0)))
    ∧ exec (.m2p o a) s = put o.d 1 .raw (fun l => if (c.reg o.a 0 c.l0).getLsbD l then 1 else 0)
    ∧ (o.fn ≤ 5 → (a.ty.isInt = true ∧ Bears c o.a n [a.ty.intTag] ∨ a.ty.isBits = true ∧ Bears c o.a n [c.regTag o.a 0]) →
      let t := if a.ty.isBits then Tag.raw else a.ty.intTag
      let all (ls : List Nat) := ls.foldl (fun y l => reduceOp o.fn a.ty y (x l)) (reduceId o.fn a.ty)
      exec (.gred o a) s = put o.d n t (fun _ => all c.lanes)
      ∧ exec (.gscan o a) s = put o.d n t (fun l => all (c.lanes.filter fun k => if a.sub = 1 then decide (k < l) else decide (k ≤ l))))
    ∧ exec (.nop o a) s = .next (advance c s)

namespace Sys2Proof.Claims

/-- The words of family A (R71). -/
def famA : Instr → Option (Op × ModA)
  | .iadd o a | .isub o a | .imul o a | .imad o a | .idiv o a | .irem o a | .iabs o a | .imin o a | .imax o a | .andB o a | .orB o a
  | .xorB o a | .shl o a | .shr o a | .rot o a | .bfx o a | .bfi o a | .popc o a | .clz o a | .brev o a | .icmp o a | .sel o a | .mov o a
  | .movRetag o a | .movi o a | .fadd o a | .fsub o a | .fmul o a | .ffma o a | .fmin o a | .fmax o a | .fcmp o a | .fclass o a | .fdiv o a
  | .fsqrt o a | .frsqrt o a | .frcp o a | .fexp2 o a | .flog2 o a | .fsinpi o a | .fcospi o a | .frnd o a | .fscale o a | .fgetexp o a
  | .cvt o a | .dxpack o a | .dxunpack o a | .fgsum o a | .fdot2 o a | .shfl o a | .ballot o a | .vote o a | .gred o a | .gscan o a
  | .plop o a | .p2m o a | .m2p o a | .nop o a => some (o, a)
  | _ => none

/-- At most how many registers the destination of a family A word has. -/
def destRegs (i : Instr) (a : ModA) : Nat :=
  match i with
  | .dxunpack _ _ => 16
  | .dxpack _ _ => 5
  | .movRetag _ _ => 4
  | .movi _ _ => 2
  | _ => a.ty.regs

/-- Two groups agree on every register but the `n` of a destination, and there in every lane that does not execute. -/
def SameRegs (g h : Group) (d : Opd) (n : Nat) (ex : Word) : Prop :=
  (∀ q l, l < 32 → (∀ r, d = .v r → q < r ∨ r + n ≤ q ∨ ex.getLsbD l = false) → h.getV q l = g.getV q l)
  ∧ (∀ q, (∀ r, d = .v r → q < r ∨ r + n ≤ q) → h.vtag q = g.vtag q)
  ∧ (∀ q, (∀ r, d = .s r → q < r ∨ r + n ≤ q) → h.getS q = g.getS q ∧ h.stag q = g.stag q)
  ∧ (∀ q, d ≠ .m q → h.getM q = g.getM q)
  ∧ (∀ q l, d ≠ .p q ∨ q = 7 ∨ ex.getLsbD l = false → (h.pmask q).getLsbD l = (g.pmask q).getLsbD l)

end Sys2Proof.Claims

/-- R92, R79: a family A word either traps, or writes its destination in the executing lanes, ORs flags of GSTAT[5:0] and moves on;
every other register, every other field of the machine and every byte of memory stays. -/
def Obligations.FamilyAFrame : Prop :=
  ∀ (i : Instr) (o : Op) (a : ModA) (s t : State) (c : Cx), famA i = some (o, a) → Issues s o c → exec i s = .next t →
    (∃ r, t = takeTrap c s r)
    ∨ (∃ g, t = advance c (c.put g) ∧ SameRegs c.g g o.d (destRegs i a) c.ex
      ∧ g = { c.g with v := g.v, vt := g.vt, s := g.s, st := g.st, m := g.m, p := g.p, gstat := g.gstat }
      ∧ (∃ fl < 64, g.gstat = c.g.gstat ||| BitVec.ofNat 64 fl)
      ∧ ∀ sp b, t.rd sp b = s.rd sp b)

/-! ## Control -/

namespace Sys2Proof.Claims

/-- The frontier without the executing lanes of an issuing entry; the others fall through (R128). -/
def left (c : Cx) : List Entry := addEntry (.new (c.e.pc + 12) c.e.prio (c.e.mask &&& ~~~c.ex)) (c.g.ents.eraseIdx c.iss.ent)

/-- The frontier once the executing lanes have gone to an address with a priority (R128). -/
def sentTo (c : Cx) (pc : DWord) (prio : Nat) : List Entry := addEntry (.new pc prio c.ex) (left c)

/-- The target of a relative transfer (R77). -/
def nearPc (c : Cx) (o : Op) : DWord := c.e.pc + 12 + BitVec.ofInt 64 (12 * o.disp)

/-- The frontier once each executing lane has gone to the address it holds in A (R131). -/
def sentFar (c : Cx) (o : Op) (prio : Nat) : List Entry :=
  if o.a.perLane then
    c.lanes.foldl (fun es l => addEntry (.new (BitVec.ofNat 64 (c.val o.a 2 l)) prio (BitVec.ofNat 32 (2 ^ l))) es) (left c)
  else sentTo c (BitVec.ofNat 64 (c.val o.a 2 c.l0)) prio

/-- The addresses of brx and ret: a pair that bears I64 or RAW, aligned in every lane. -/
def FarOk (c : Cx) (o : Op) : Prop := Bears c o.a 2 [.i64] ∧ ∀ l ∈ c.lanes, c.val o.a 2 l % 4 = 0

/-- The priority a ret goes on with (R131). -/
def retPrio (c : Cx) (x : ModX) : Nat := if x.f 36 36 = 1 then x.f 44 37 else c.e.prio

/-- The frontier a rejoin leaves: the executing lanes of its mask wait at it (R136). -/
def stayed (c : Cx) (o : Op) : List Entry :=
  let stay := c.ex &&& c.reg o.a 0 c.l0
  addEntry { Entry.new c.e.pc c.e.prio stay with rjw := true, rjmask := c.reg o.a 0 c.l0 }
    (addEntry (.new (c.e.pc + 12) c.e.prio (c.e.mask &&& ~~~stay)) (c.g.ents.eraseIdx c.iss.ent))

/-- The group after a call has written the address behind it (R131). -/
def called (c : Cx) (o : Op) : Group := c.g.write o.d 2 .i64 (fun _ => (c.e.pc + 12).toNat) c.ex

/-- The state with the issuing group's frontier replaced. -/
def frontier (c : Cx) (g : Group) (es : List Entry) : State := c.put { g with ents := es, after := false }

/-- No store fault of the group is recorded or on its way, so that a drain point passes (R142). -/
def Drained (s : State) (c : Cx) : Prop := recordsDue s c.u.key c.g.gid = false ∧ c.u.recordsOf c.g.gid = []

end Sys2Proof.Claims

/-- R77, R128, R131: a branch, a call, a return and a change of priority send the executing lanes to the target, while the
frontier they form has at most eight entries. -/
def Obligations.Branches : Prop :=
  ∀ (s : State) (o : Op) (b : ModB) (x : ModX) (c : Cx), Issues s o c →
    let near := sentTo c (nearPc c o) b.prio
    (near.length ≤ 8 → exec (.bra o b) s = .next (frontier c c.g near) ∧ exec (.call o b) s = .next (frontier c (called c o) near))
    ∧ ((sentTo c (c.e.pc + 12) b.prio).length ≤ 8 → exec (.setprio o b) s = .next (frontier c c.g (sentTo c (c.e.pc + 12) b.prio)))
    ∧ (FarOk c o →
      ((sentFar c o b.prio).length ≤ 8 → exec (.brx o b) s = .next (frontier c c.g (sentFar c o b.prio)))
      ∧ ((sentFar c o (retPrio c x)).length ≤ 8 → exec (.ret o x) s = .next (frontier c c.g (sentFar c o (retPrio c x)))))

/-- R132, R134 to R136: lanes end, are cut off or wait at a rejoin; rgrp.set changes LIVEN alone. -/
def Obligations.LanesLeave : Prop :=
  ∀ (s : State) (o : Op) (x : ModX) (c : Cx), Issues s o c →
    let n := o.imm % 512
    let recs := c.lanes.map fun l => offRec c.g n (c.e.pc + 12) c.e.prio l
    let room := offUsed c.u + recs.length * recBytes n ≤ c.u.offcut
    (left c ≠ [] ∨ Drained s c → exec (.exitL o x) s = .next (frontier c c.g (left c)))
    ∧ (c.g.inh = false → room → left c ≠ [] ∨ Drained s c →
      exec (.rgrp o x) s = .next (s.modUnit c.u.key fun u => c.cutOff (u.modGrp c.g.gid fun _ => { c.g with ents := left c, after := false }) recs))
    ∧ (c.g.inh = true ∨ ¬ room → exec (.rgrp o x) s = .next (advance c s))
    ∧ exec (.rgrpSet o x) s = .next (advance c (c.put { c.g with liven := n }))
    ∧ ((stayed c o).length ≤ 8 → exec (.rejoin o x) s = .next (frontier c c.g (stayed c o)))

namespace Sys2Proof.Claims

/-- What a transfer does that leaves the group `g` with more than eight entries `es` (R229, R306). While the cycle's second issue is still
to come, the frontier stands uncut until the cycle ends. -/
def Grows (c : Cx) (s : State) (out : Host.Outcome State Fault Refusal) (g : Group) (es : List Entry) : Prop :=
  let rs := sortBy Entry.above es
  let need := ((rs.drop 8).map fun e => (lanesOf e.mask).length).sum * recBytes c.g.liven
  let alone := ∀ e ∈ es, e.wait ≠ .second
  8 < es.length →
    (alone → c.g.inh = true → out = .next (takeTrap c s { code := 0x07, detail := 2 }))
    ∧ (alone → c.g.inh = false → c.u.offcut < need → out = .next (takeTrap c s { code := 0x07, detail := 1 }))
    ∧ (alone → c.g.inh = false → need ≤ c.u.offcut → c.u.offcut < offUsed c.u + need → out = .next (enterWait c s .offcut))
    ∧ (alone → c.g.inh = false → offUsed c.u + need ≤ c.u.offcut →
      ((∀ r ∈ c.u.vregsHeld c.g.gid, c.g.liven ≤ r) → out = .next (s.modUnit c.u.key fun u =>
        c.cutOff (u.modGrp c.g.gid fun _ => { g with ents := rs.take 8, after := false }) (cutRecs g c.g.liven (rs.drop 8))))
      ∧ ((∃ r ∈ c.u.vregsHeld c.g.gid, r < c.g.liven) → out = .next (enterWait c s .engine)))
    ∧ (¬ alone → out = .next ({ s with grown := some c.g }.modGrp c.u.key c.g.gid fun _ => { g with ents := es, after := false }))

end Sys2Proof.Claims

/-- R128, R229, R306: a branch, a call, a return, a change of priority or a rejoin that would leave more than eight entries keeps the eight of
highest rank and cuts the threads of the others off, where the store has room; in a handler, or where the whole store is too small, it
takes BOUNDS; where the store is only too full for them, or a command of the group still writes a register that a cut would keep (R22, R168),
its entry waits. -/
def Obligations.FrontierGrowth : Prop :=
  ∀ (s : State) (o : Op) (b : ModB) (x : ModX) (c : Cx), Issues s o c →
    let near := sentTo c (nearPc c o) b.prio
    Grows c s (exec (.bra o b) s) c.g near
    ∧ Grows c s (exec (.call o b) s) (called c o) near
    ∧ Grows c s (exec (.setprio o b) s) c.g (sentTo c (c.e.pc + 12) b.prio)
    ∧ Grows c s (exec (.rejoin o x) s) c.g (stayed c o)
    ∧ (FarOk c o → Grows c s (exec (.brx o b) s) c.g (sentFar c o b.prio)
      ∧ Grows c s (exec (.ret o x) s) c.g (sentFar c o (retPrio c x)))

/-- R68: the encoding checks are made on every issued word before its guard is looked at, and end it with ILLOP; a word whose guard
leaves no lane, whichever instruction it is, takes no trap and changes nothing but the PC of its entry. -/
def Obligations.GuardedOff : Prop :=
  (∀ (s : State) (k : UKey) (gid n : Nat) (u : Machine.Unit) (g : Group) (e : Entry) (w field reason : Nat), s.unit? k = some u →
    u.grp? gid = some g → g.ents[n]? = some e → fetchWord s u e.pc 3 = .ok w → decode g.grant (isDet s u) w = .error (field, reason) →
    issueWord s k gid n = .trap (takeFault (s.modGrp k gid fun g => { g with ents := g.ents.set n { e with age := 0, agedAt := 0 } }) k gid w
      e.pc { code := 0x01, detail := reason + field * 2 ^ 8 } id true))
  ∧ (∀ (s : State) (i : Instr) (f : Fields) (c : Cx), i.fields = some f → view? s f.grd = some c → c.ex = 0 →
    exec i s = .next (advance c s)
    ∧ c.after (advance c s) = some { c.g with
        ents := addEntry (.new (c.e.pc + 12) c.e.prio c.e.mask) (c.g.ents.eraseIdx c.iss.ent), after := false }
    ∧ (∀ k, k ≠ c.u.key → (advance c s).unit? k = s.unit? k)
    ∧ ∀ sp a, (advance c s).rd sp a = s.rd sp a)

/-! ## Memory -/

namespace Sys2Proof.Claims

/-- Every lane of `ls` passes the causes of R141 at its address: `p l` is where the lane's `n` bytes stand. -/
def Lands (c : Cx) (base : Opd) (vault : Bool) (off : Nat → Int) (n align : Nat) (att : Att) (reads : Bool) (ls : List Nat) (p : Nat → Place) :
    Prop :=
  ∀ l ∈ ls, ∃ sp, c.check base vault l (off l) n align att = .ok sp ∧ c.land l sp n att.write reads = .ok (p l) ∧ (p l).missing = false

/-- The base of a memory operand bears a tag that R76 accepts. -/
def BearsBase (c : Cx) (x : Opd) (vault : Bool) : Prop := if vault then Bears c x 1 [.i32] else Bears c x 2 [.i64, .ptr]

/-- The issuing group after a word that leaves the registers of `g`: the entry at PC + 12. -/
def afterIs (c : Cx) (t : State) (g : Group) : Prop :=
  c.after t = some { g with ents := advanceEnts c.g c.iss.ent { c.e with wait := .none, bwa := false }, after := false }

/-- Every byte of every memory reads as before. -/
def SameMemory (s t : State) : Prop := ∀ sp < 4, ∀ a, t.rd sp a = s.rd sp a

/-- Every byte outside the `n` bytes of the places of `ls` reads as before. -/
def SameBut (s t : State) (ls : List Nat) (p : Nat → Place) (n : Nat) : Prop :=
  ∀ sp < 4, ∀ a, (∀ l ∈ ls, sp ≠ (p l).sp ∨ a < (p l).a ∨ (p l).a + n ≤ a) → t.rd sp a = s.rd sp a

/-- Two stretches of `n` bytes that do not meet. -/
def Apart (n : Nat) (p q : Place) : Prop := p.sp ≠ q.sp ∨ p.a + n ≤ q.a ∨ q.a + n ≤ p.a

/-- No other lane of `ls` touches a byte of lane `l`. -/
def Alone (ls : List Nat) (p : Nat → Place) (n l : Nat) : Prop := ∀ k ∈ ls, k ≠ l → Apart n (p k) (p l)

/-- A write at a virtual address marks no page: no pointer, or one to an object that is not exclusive or whose page is marked (R241). -/
def MarksNothing (s : State) (ctx va : Nat) : Prop :=
  isPtr va = true → ∀ y, s.ctx? ctx = some y →
    (y.slotRes (ptrSlot va)).kind ≠ 1 ∨ ptrOff va / 65536 ∈ (y.slotRes (ptrSlot va)).dirtyPg

/-- The places are plain memory: no supervisor region, and no page that a write would mark in its object's table entry. -/
def PlainPlaces (s : State) (c : Cx) (ls : List Nat) (p : Nat → Place) : Prop :=
  ∀ l ∈ ls, (p l).sp < 4 ∧ MarksNothing s c.u.ctx (p l).va

/-- The word completes, and every page of an exclusive object that it writes through a short pointer is marked (R241). -/
def Marking (s : State) (c : Cx) (out : Host.Outcome State Fault Refusal) (p : Nat → Place) : Prop :=
  ∃ u, out = .next u ∧ ∀ l ∈ c.lanes, isPtr (p l).va = true → ∀ y, s.ctx? c.u.ctx = some y → (y.slotRes (ptrSlot (p l).va)).kind = 1 →
    ∃ z, u.ctx? c.u.ctx = some z ∧ ptrOff (p l).va / 65536 ∈ (z.slotRes (ptrSlot (p l).va)).dirtyPg

/-- A data source bears a tag that R140 accepts. -/
def DataOk (c : Cx) (x : Opd) (t : Ty) : Prop := c.dataTag x t = .ok ()

/-- The end of a load: the value of each lane in D, extended for sub-word types, and memory unchanged. -/
def Loaded (c : Cx) (s : State) (out : Host.Outcome State Fault Refusal) (d : Opd) (t : Ty) (fl : Nat) (p : Nat → Place) : Prop :=
  ∃ u, out = .next u
    ∧ afterIs c u ((c.g.write d t.regs t.tag (fun l => extendTy t (s.load c.u.core (p l).sp (p l).a t.size)) c.ex).orFlags fl)
    ∧ SameMemory s u

/-- The end of a store of `n` bytes: each lane that touches no other's bytes has its value there, at a place that several lanes write
whole the whole value of one of them stands (R311), and no other byte changed. -/
def Stored (c : Cx) (s : State) (out : Host.Outcome State Fault Refusal) (n fl : Nat) (p : Nat → Place) (val : Nat → Nat) : Prop :=
  ∃ u, out = .next u ∧ afterIs c u (c.g.orFlags fl)
    ∧ (∀ l ∈ c.lanes, Alone c.lanes p n l → u.rdN (p l).sp (p l).a n = val l % 2 ^ (8 * n))
    ∧ (let same (k l : Nat) := (p k).sp = (p l).sp ∧ (p k).a = (p l).a
      ∀ l ∈ c.lanes, (∀ k ∈ c.lanes, same k l ∨ Apart n (p k) (p l)) → ∃ k ∈ c.lanes, same k l ∧ u.rdN (p l).sp (p l).a n = val k % 2 ^ (8 * n))
    ∧ SameBut s u c.lanes p n

end Sys2Proof.Claims

/-- R138, R140, R143 to R145: a load reads each lane's place into D and changes no memory. That it reads the latest value is the model's
choice (log 24), and so is that an index of 64 bits is a pair that bears I64 or RAW (log 68). -/
def Obligations.LoadsRead : Prop :=
  ∀ (s : State) (o : Op) (m : ModM) (g : ModG) (c : Cx) (p : Nat → Place) (fl : Nat), Issues s o c →
    let n := m.ty.size
    let v := decide (m.space = 1)
    (BearsBase c o.a v → Bears c o.b 1 [.i32] → c.sysScope (m.ord != 0) m.scope = .ok fl → (∀ r, o.d ≠ .p r) →
      Lands c o.a v (fun l => sext 32 (c.val o.b 1 l) * n + o.disp) n n (ordAtt m.ord (c.actScope m.scope) false false) true (c.loadLanes o.d) p →
      Loaded c s (exec (.ld o m) s) o.d m.ty fl p)
    ∧ (BearsBase c o.a v →
      Lands c o.a v (fun l => o.disp + ((c.lanes.filter fun k => decide (k < l)).length : Nat) * n) n n {} true c.lanes p →
      Loaded c s (exec (.xld o m) s) o.d m.ty 0 p)
    ∧ (BearsBase c o.a (decide (g.space = 1)) → (if g.iw = 3 then Bears c o.b 2 [.i64] else Bears c o.b 1 [.i32]) →
      Lands c o.a (decide (g.space = 1)) (c.offG o g) g.ty.size g.ty.size {} true c.lanes p →
      Loaded c s (exec (.gld o g) s) o.d g.ty 0 p)

/-- R138, R140, R143 to R145, R241, R311: a store puts each lane's value at its place and changes no other byte, and of lanes of a gst that
name the same bytes the highest-numbered one's value stays. A store through a short pointer into an exclusive object marks its page. That
a store is seen at once is the model's choice (log 24), and so is that an index of 64 bits is a pair that bears I64 or RAW (log 68). -/
def Obligations.StoresWrite : Prop :=
  ∀ (s : State) (o : Op) (m : ModM) (g : ModG) (c : Cx) (p : Nat → Place) (fl : Nat), Issues s o c → (∀ l ∈ c.lanes, (p l).sp < 4) →
    let n := m.ty.size
    let v := decide (m.space = 1)
    let stores (i : Instr) (n fl : Nat) (val : Nat → Nat) :=
      (PlainPlaces s c c.lanes p → Stored c s (exec i s) n fl p val) ∧ Marking s c (exec i s) p
    (BearsBase c o.a v → Bears c o.b 1 [.i32] → DataOk c o.d m.ty → c.sysScope (m.ord != 0) m.scope = .ok fl → (2 ≤ m.ord → Drained s c) →
      Lands c o.a v (fun l => sext 32 (c.val o.b 1 l) * n + o.disp) n n (ordAtt m.ord (c.actScope m.scope) true false) false c.lanes p →
      stores (.st o m) n fl (c.val o.d m.ty.regs))
    ∧ (BearsBase c o.a v → DataOk c o.d m.ty →
      Lands c o.a v (fun l => o.disp + ((c.lanes.filter fun k => decide (k < l)).length : Nat) * n) n n { write := true } false c.lanes p →
      stores (.cst o m) n 0 (c.val o.d m.ty.regs))
    ∧ (BearsBase c o.a (decide (g.space = 1)) → (if g.iw = 3 then Bears c o.b 2 [.i64] else Bears c o.b 1 [.i32]) → DataOk c o.d g.ty →
      Lands c o.a (decide (g.space = 1)) (c.offG o g) g.ty.size g.ty.size { write := true } false c.lanes p →
      stores (.gst o g) g.ty.size 0 (c.val o.d g.ty.regs)
      ∧ (PlainPlaces s c c.lanes p → ∀ u, exec (.gst o g) s = .next u → ∀ l ∈ c.lanes,
        (∀ k ∈ c.lanes, l < k → Apart g.ty.size (p k) (p l)) →
        u.rdN (p l).sp (p l).a g.ty.size = c.val o.d g.ty.regs l % 2 ^ (8 * g.ty.size)))

/-- R146, R148: an atomic gives each lane the old value and leaves the new one; a reduction leaves the new one.
Nothing is said of lanes that share bytes, whose order is free (log 10). -/
def Obligations.Atomics : Prop :=
  ∀ (s : State) (o : Op) (m : ModM) (c : Cx) (p : Nat → Place) (fl : Nat), Issues s o c → PlainPlaces s c c.lanes p →
    (∀ l ∈ c.lanes, noAtomic (p l) = false) →
    let n := m.ty.size
    let k := m.ty.regs
    let v := decide (m.space = 1)
    let att := ordAtt m.ord (c.actScope m.scope) true true
    let old (l : Nat) := s.rdN (p l).sp (p l).a n
    BearsBase c o.a v → Bears c o.b 1 [.i32] → c.sysScope true m.scope = .ok fl → (2 ≤ m.ord → Drained s c) →
      (DataOk c o.c m.ty → (o.fn = 7 → DataOk c (o.c.plus k) m.ty) →
        Lands c o.a v (fun l => sext 32 (c.val o.b 1 l) * n) n n att true c.lanes p →
        ∃ u w, exec (.atom o m) s = .next u ∧ afterIs c u ((c.g.write o.d k m.ty.tag w c.ex).orFlags fl)
          ∧ SameBut s u c.lanes p n
          ∧ ∀ l ∈ c.lanes, Alone c.lanes p n l → w l = old l
            ∧ u.rdN (p l).sp (p l).a n
              = atomicNew o.fn m.ty (old l) (c.val o.c k l) (c.val o.c (2 * k) l / 2 ^ (32 * k)) % 2 ^ (8 * n))
      ∧ (DataOk c o.d m.ty → Lands c o.a v (fun l => sext 32 (c.val o.b 1 l) * n + o.disp) n n att true c.lanes p →
        ∃ u, exec (.red o m) s = .next u ∧ afterIs c u (c.g.orFlags fl) ∧ SameBut s u c.lanes p n
          ∧ ∀ l ∈ c.lanes, Alone c.lanes p n l →
            u.rdN (p l).sp (p l).a n = atomicNew o.fn m.ty (old l) (c.val o.d k l) 0 % 2 ^ (8 * n))

namespace Sys2Proof.Claims

/-- The comparison of lane `l` of a waitv holds of what its place reads now (R150). -/
def waitvHolds (o : Op) (m : ModM) (c : Cx) (p : Nat → Place) (l : Nat) : Bool :=
  compareInt o.fn (m.ty.int (c.s.load c.u.core (p l).sp (p l).a m.ty.size)) (m.ty.int (c.val o.d m.ty.regs l))

/-- The operands of a waitv bear their tags and its lanes reach their places (R150). -/
def WaitvReads (o : Op) (m : ModM) (c : Cx) (p : Nat → Place) (fl : Nat) : Prop :=
  let n := m.ty.size
  let v := decide (m.space = 1)
  BearsBase c o.a v ∧ Bears c o.b 1 [.i32] ∧ Bears c o.d m.ty.regs [if m.ty.isBits then c.regTag o.d 0 else m.ty.intTag]
  ∧ c.sysScope (m.ord != 0) m.scope = .ok fl
  ∧ Lands c o.a v (fun l => sext 32 (c.val o.b 1 l) * n + o.disp) n n
      { strong := true, acq := m.ord % 2 == 1, scope := c.actScope m.scope } true c.lanes p

end Sys2Proof.Claims

/-- R150 to R153: waitv completes once every executing lane's comparison holds and waits before; fence, sdrain and pf change no
register and no memory. -/
def Obligations.WaitsAndFences : Prop :=
  ∀ (s : State) (o : Op) (m : ModM) (x : ModX) (c : Cx) (p : Nat → Place) (fl : Nat), Issues s o c →
    (WaitvReads o m c p fl →
      ((∀ l ∈ c.lanes, waitvHolds o m c p l = true) → ∃ u, exec (.waitv o m) s = .next u ∧ afterIs c u (c.g.orFlags fl) ∧ SameMemory s u)
      ∧ ((∃ l ∈ c.lanes, waitvHolds o m c p l = false) → exec (.waitv o m) s = .next (enterWait c s .waitv)))
    ∧ (Drained s c → c.sysScope true (x.f 38 36) = .ok fl →
      ∃ u, exec (.fence o x) s = .next u ∧ afterIs c u (c.g.orFlags fl) ∧ SameMemory s u)
    ∧ (Drained s c → exec (.sdrain o x) s = .next (advance c s))
    ∧ (BearsBase c o.a false → Bears c o.b 1 [.i32] → exec (.pf o m) s = .next (advance c s))

/-- R155 to R157: tiles. tst.all leaves the tile and a version two higher in one step; a group in its skid that the halt meets between the
two version writes leaves it odd, and whether it does is free (log 69). tld.ver tells whether the version was even. -/
def Obligations.Tiles : Prop :=
  ∀ (s : State) (o : Op) (m : ModM) (c : Cx) (r : Nat) (p q : Place) (fl : Nat), Issues s o c → o.d = .v r →
    let v := decide (m.space = 1)
    let tile (a : Att) (off : Int) (rd : Bool) := Lands c o.a v (fun _ => off) 1024 1024 a rd [c.l0] fun _ => p
    let ver (a : Att) (rd : Bool) := Lands c o.b v (fun _ => 0) 8 8 a rd [c.l0] fun _ => q
    let holds (g : Group) := ∀ i < 256, g.getV (r + i / 32) (i % 32) = BitVec.ofNat 32 (s.rdN p.sp (p.a + 4 * i) 4) ∧ g.vtag (r + i / 32) = m.ty.tag
    let word (i : Nat) := (c.g.getV (r + i / 32) (i % 32)).toNat
    let tags := ∀ i < 8, c.g.vtag (r + i) = .raw ∨ c.g.vtag (r + i) = m.ty.tag
    p.sp < 4 → q.sp < 4 → isPtr p.va = false → isPtr q.va = false → BearsBase c o.a v →
      (c.sysScope (m.ord != 0) m.scope = .ok fl → tile (ordAtt m.ord (c.actScope m.scope) false false) o.disp true →
        ∃ u g, exec (.tld o m) s = .next u ∧ c.after u = some g ∧ holds g ∧ SameRegs c.g g o.d 8 (BitVec.allOnes 32) ∧ SameMemory s u)
      ∧ (c.sysScope (m.ord != 0) m.scope = .ok fl → (2 ≤ m.ord → Drained s c) → tags →
        tile (ordAtt m.ord (c.actScope m.scope) true false) o.disp false →
        ∃ u, exec (.tst o m) s = .next u ∧ afterIs c u (c.g.orFlags fl) ∧ (∀ i < 256, u.rdN p.sp (p.a + 4 * i) 4 = word i)
          ∧ SameBut s u [0] (fun _ => p) 1024)
      ∧ (c.sysScope true m.scope = .ok fl → BearsBase c o.b v → tile { tile := true } 0 true →
        ver { strong := true, acq := true, tile := true, scope := c.actScope m.scope } true → (∀ k, o.c = .v k → k < r ∨ r + 8 ≤ k) →
        ∃ u g, exec (.tldVer o m) s = .next u ∧ c.after u = some g ∧ holds g ∧ SameMemory s u
          ∧ ∀ k < 7, o.c = .p k → g.pmask k = if s.rdN q.sp q.a 8 % 2 = 0 then BitVec.allOnes 32 else 0)
      ∧ (Drained s c → c.sysScope true m.scope = .ok fl → BearsBase c o.b v → tags → tile { write := true, tile := true } 0 false →
        ver { write := true, strong := true, acq := true, rel := true, rmw := true, tile := true, scope := c.actScope m.scope } true →
        (s.rdN q.sp q.a 8 % 2 = 1 → exec (.tstAll o m) s = .next (enterWait c s .version))
        ∧ (s.rdN q.sp q.a 8 % 2 = 0 → ∀ n src, c.g.run = .skid n src → Config.cutTile s.tick = true →
          ∃ u, exec (.tstAll o m) s = .next u ∧ u.rdN q.sp q.a 8 = s.rdN q.sp q.a 8 + 1 ∧ SameBut s u [0] (fun _ => q) 8)
        ∧ (s.rdN q.sp q.a 8 % 2 = 0 → ((∀ n src, c.g.run ≠ .skid n src) ∨ Config.cutTile s.tick = false) →
          p.sp ≠ q.sp ∨ q.a + 8 ≤ p.a ∨ p.a + 1024 ≤ q.a →
          ∃ u, exec (.tstAll o m) s = .next u ∧ afterIs c u (c.g.orFlags fl) ∧ (∀ i < 256, u.rdN p.sp (p.a + 4 * i) 4 = word i)
            ∧ u.rdN q.sp q.a 8 = (s.rdN q.sp q.a 8 + 2) % 2 ^ 64
            ∧ ∀ sp < 4, ∀ a, (sp ≠ p.sp ∨ a < p.a ∨ p.a + 1024 ≤ a) → (sp ≠ q.sp ∨ a < q.a ∨ q.a + 8 ≤ a) → u.rd sp a = s.rd sp a))

/-! ## Names -/

/-- R160, R163: ldn gives the short pointer of a resident name, 0 for a null slot, and waits on nothing; stn stores the long name of a
current pointer, 0 for a null one. -/
def Obligations.NamesLoadAndStore : Prop :=
  ∀ (s : State) (o : Op) (x : ModX) (c : Cx) (p : Nat → Place) (fl : Nat), Issues s o c →
    let v := decide (x.f 35 34 = 1)
    let ls := c.loadLanes o.d
    let slot (l : Nat) := s.load c.u.core (p l).sp (p l).a 16
    BearsBase c o.a v → Bears c o.b 1 [.i32] → c.sysScope (x.f 40 39 != 0) (x.f 38 36) = .ok fl →
      ((∀ r, o.d ≠ .p r) → Lands c o.a v (fun l => sext 32 (c.val o.b 1 l) * 16 + o.disp) 16 16 (ordAtt (x.f 40 39) (c.actScope (x.f 38 36)) false false) true ls p →
        ∀ (w : Nat → Nat), (∀ l ∈ ls, (slot l = 0 ∧ w l = 0)
          ∨ (∃ k, slot l / 2 ^ 127 = 1 ∧ nameKind (slot l) ≠ 3 ∧ bits (slot l) 47 40 = 0
              ∧ c.ctx.laneWait (nameKey (slot l)) c.u.key c.g.gid c.pc l = none ∧ c.ctx.find (nameKey (slot l)) = some k
              ∧ (c.ctx.slotRes k).state = .resident ∧ (c.ctx.slotRes k).gen = nameGen (slot l) ∧ nameOff (slot l) ≤ (c.ctx.slotRes k).extent
              ∧ w l = 2 ^ 63 + (c.ctx.slotRes k).inc * 2 ^ 58 + k * 2 ^ 40 + slot l % 2 ^ 40)) →
          ∃ u, exec (.ldn o x) s = .next u ∧ afterIs c u ((c.g.write o.d 2 .ptr w c.ex).orFlags fl) ∧ SameMemory s u)
      ∧ (PlainPlaces s c c.lanes p → (2 ≤ x.f 40 39 → Drained s c) → Bears c o.d 2 [.ptr] → (c.regTag o.d 0 = .ptr ∨ o.d = .sp .z) →
        Lands c o.a v (fun l => sext 32 (c.val o.b 1 l) * 16 + o.disp) 16 16 (ordAtt (x.f 40 39) (c.actScope (x.f 38 36)) true false) false c.lanes p →
        ∀ (w : Nat → Nat), (∀ l ∈ c.lanes, let y := c.val o.d 2 l
          let r := c.ctx.slotRes (ptrSlot y)
          (y = 0 ∧ w l = 0) ∨ (isPtr y = true ∧ ptrSlot y < c.ctx.slots ∧ r.current (ptrInc y) = true ∧ ptrOff y ≤ r.extent
            ∧ w l = 2 ^ 127 + r.kind * 2 ^ 125 + (r.domain * 2 ^ 45 + r.serial) * 2 ^ 64 + r.gen * 2 ^ 48 + ptrOff y)) →
          Stored c s (exec (.stn o x) s) 16 fl p w)

/-- R164 to R166: a pointer's name comes from the current entry of its slot or from the slot's history; peq compares the objects and
offsets two pointers name, pname gives a pointer's long name, and npin and nunpin change the pin count of the object of each executing
lane by one. A pointer without a name takes XLATE, and a tag other than PTR takes FORMAT. -/
def Obligations.NamesCompareAndPin : Prop :=
  ∀ (s : State) (o : Op) (x : ModX) (c : Cx), Issues s o c →
    let ptr (y : Opd) := c.regTag y 0 = .ptr ∧ c.regTag y 1 = .ptr
    let a (l : Nat) := c.val o.a 2 l
    let b (l : Nat) := c.val o.b 2 l
    let name (p : Nat) := pointerName c.ctx p
    let noName (i : Instr) (l p : Nat) := exec i s = .next (takeTrap c s { code := 0x05, detail := l, faddr := BitVec.ofNat 64 p })
    let noPtr (i : Instr) (y : Opd) :=
      exec i s = .next (takeTrap c s { code := 0x03, detail := y.code + (c.regTag y 0).code * 2 ^ 9 + c.l0 * 2 ^ 13 })
    name 0 = some 0
    ∧ (∀ p, p ≠ 0 →
      let slot := ptrSlot p
      let r := c.ctx.slotRes slot
      let h := (c.ctx.histEnt slot (ptrInc p)).toNat
      (isPtr p = false ∨ c.ctx.slots ≤ slot → name p = none)
      ∧ (isPtr p = true → slot < c.ctx.slots →
        (r.current (ptrInc p) = true → name p
          = some (2 ^ 127 + r.kind * 2 ^ 125 + keyOf r.domain r.serial * 2 ^ 64 + r.gen * 2 ^ 48 + ptrOff p))
        ∧ (r.current (ptrInc p) = false → 2 ^ 127 ≤ h → name p
          = some (2 ^ 127 + nameKind h * 2 ^ 125 + nameKey h * 2 ^ 64 + nameGen h * 2 ^ 48 + ptrOff p))
        ∧ (r.current (ptrInc p) = false → h < 2 ^ 127 → name p = none)))
    ∧ (ptr o.a → ptr o.b → ∀ (m n : Nat → Nat), (∀ l ∈ c.lanes, name (a l) = some (m l) ∧ name (b l) = some (n l)) →
      exec (.peq o x) s = .next (advance c (c.put (c.g.write o.d 1 .raw
        (fun l => if (if m l = 0 ∨ n l = 0 then m l = n l else nameKey (m l) = nameKey (n l) ∧ nameOff (m l) = nameOff (n l)) then 1 else 0) c.ex))))
    ∧ (ptr o.a → ptr o.b → ∀ l ∈ c.lanes, (∀ k ∈ c.lanes, k < l → (name (a k)).isSome ∧ (name (b k)).isSome) →
      (name (a l) = none → noName (.peq o x) l (a l)) ∧ ((name (a l)).isSome → name (b l) = none → noName (.peq o x) l (b l)))
    ∧ (¬ ptr o.a → noPtr (.peq o x) o.a ∧ noPtr (.pname o x) o.a)
    ∧ (ptr o.a → ¬ ptr o.b → noPtr (.peq o x) o.b)
    ∧ (ptr o.a → ∀ l ∈ inLanes c o.d, (∀ k ∈ inLanes c o.d, k < l → (name (a k)).isSome) → name (a l) = none → noName (.pname o x) l (a l))
    ∧ (ptr o.a → ∀ (m : Nat → Nat), (∀ l ∈ inLanes c o.d, name (a l) = some (m l)) →
      exec (.pname o x) s = .next (advance c (c.put (c.g.write o.d 4 .name m c.ex))))
    ∧ (ptr o.a → ∀ (y : Ctx) (slot : Nat → Nat), s.ctx? c.u.ctx = some y → (∀ l ∈ c.lanes, c.pinSlot o.a l = .ok (slot l)) →
      let n (k : Nat) := (c.lanes.filter fun l => slot l == k).length
      ((∀ l ∈ c.lanes, (y.slotRes (slot l)).pin + n (slot l) ≤ 65535) → ∃ u z, exec (.npin o x) s = .next u ∧ afterIs c u c.g
        ∧ u.ctx? c.u.ctx = some z ∧ ∀ k, z.slotRes k = { y.slotRes k with pin := (y.slotRes k).pin + n k })
      ∧ ((∀ l ∈ c.lanes, n (slot l) ≤ (y.slotRes (slot l)).pin) → ∃ u z, exec (.nunpin o x) s = .next u ∧ afterIs c u c.g
        ∧ u.ctx? c.u.ctx = some z ∧ ∀ k, z.slotRes k = { y.slotRes k with pin := (y.slotRes k).pin - n k }))

/-! ## Barriers, signals, tags, streams -/

/-- R177 to R179: bini sets a barrier of 1 to 65,535 arrivals, and takes BOUNDS for any other number or one that has arrivals (its DETAIL
names the lowest executing lane, log 45); barv arrives, and barw gives the last status once the phase it waits past has completed. -/
def Obligations.Barriers : Prop :=
  ∀ (s : State) (o : Op) (x : ModX) (c : Cx), Issues s o c →
    let bo := barNo x
    let b := c.u.bar bo
    let next : Bar := if b.count + 1 = b.expect then
        { b with count := 0, ph := (b.ph + 1) % 2 ^ 32, lstat := b.stat, ltrap := b.trapf, stat := 0, trapf := false }
      else { b with count := b.count + 1 }
    let bit := BitVec.ofNat 16 (2 ^ bo)
    let n := if o.a = .z then o.imm % 65536 else c.val o.a 1 c.l0
    let took (st : DWord) := { c.g.write o.d 2 .i64 (fun _ => st.toNat) c.ex with arrv := c.g.arrv &&& ~~~bit }
    (Bears c o.a 1 [.i32] → Bears c o.b 1 [.i32] → 1 ≤ n → n ≤ 65535 → b.count = 0 →
      exec (.bini o x) s = .next (advance c (s.modUnit c.u.key fun u => u.setBar bo
        { b with expect := n, memb := c.reg o.b 0 c.l0, stat := 0, trapf := false, lstat := 0, ltrap := false })))
    ∧ (Bears c o.a 1 [.i32] → Bears c o.b 1 [.i32] → n = 0 ∨ 65535 < n ∨ b.count ≠ 0 →
      exec (.bini o x) s = .next (takeTrap c s { code := 0x07, detail := c.l0 * 256 }))
    ∧ (∃ t u, exec (.barv o x) s = .next t ∧ t.unit? c.u.key = some u ∧ u.bar bo = next
      ∧ afterIs c t { c.g with arrv := c.g.arrv ||| bit, tph := Sparse.set 0 c.g.tph bo b.ph } ∧ SameMemory s t)
    ∧ (∀ k t0, c.e.wait = .barw k t0 →
      (b.ph = t0 → exec (.barw o x) s = .next s)
      ∧ (b.ph ≠ t0 → b.ltrap = false → ∃ t, exec (.barw o x) s = .next t ∧ afterIs c t (took b.lstat) ∧ SameMemory s t))
    ∧ ((∀ k t0, c.e.wait ≠ .barw k t0) → Drained s c → (c.g.gstat.getLsbD 16 && c.g.gstat.getLsbD 5) = false →
      let t0 := if c.g.arrv.getLsbD bo then Sparse.get 0 c.g.tph bo else b.ph
      (x.f 40 40 = 0 → b.ph = t0 → exec (.barw o x) s = .next (enterWait c s (.barw bo t0)))
      ∧ (x.f 40 40 = 0 → b.ph ≠ t0 → b.ltrap = false → ∃ t, exec (.barw o x) s = .next t ∧ afterIs c t (took b.lstat) ∧ SameMemory s t)
      ∧ (x.f 40 40 = 1 → c.e.bwa = false → b.count + 1 = b.expect → b.trapf = false → ∃ t u, exec (.barw o x) s = .next t
        ∧ t.unit? c.u.key = some u ∧ u.bar bo = next ∧ afterIs c t { took b.stat with tph := Sparse.set 0 c.g.tph bo b.ph } ∧ SameMemory s t))

/-- R181: sigdec takes an amount from a signal in one step; where it is too small, where FAIL is set or where the signal has failed, the
failure bit is left set. -/
def Obligations.SignalDecrement : Prop :=
  ∀ (s : State) (o : Op) (x : ModX) (c : Cx) (p : Place) (fl : Nat), Issues s o c → Drained s c → BearsBase c o.a false →
    let wide := x.f 39 39 = 1
    let n := if wide then c.val o.b 2 c.l0 else if o.b = .z then o.imm else c.val o.b 1 c.l0
    let att : Att := { write := true, strong := true, rel := true, rmw := true, scope := c.actScope (x.f 38 36) }
    (if wide then Bears c o.b 2 [.i64] else Bears c o.b 1 [.i32]) → c.sysScope true (x.f 38 36) = .ok fl →
    Lands c o.a false (fun _ => 0) 8 8 att true [c.l0] (fun _ => p) → p.sp < 4 → isPtr p.va = false → noAtomic p = false →
      let old := s.rdN p.sp p.a 8
      ∃ t, exec (.sigdec o x) s = .next t ∧ afterIs c t (c.g.orFlags fl) ∧ SameBut s t [0] (fun _ => p) 8
        ∧ t.rdN p.sp p.a 8 = (old % 2 ^ 63 - n) + if old % 2 ^ 63 < n ∨ x.f 40 40 = 1 ∨ 2 ^ 63 ≤ old then 2 ^ 63 else 0

/-- R203, R280: tagw waits for the tags of a mask, tagff gives the lowest ready one, and tagst gives a status once its tag is not
pending; none of them changes a tag. That the BOUNDS of tagst from 64 on names the lowest executing lane is the model's choice (log 45). -/
def Obligations.TagWaits : Prop :=
  ∀ (s : State) (o : Op) (x : ModX) (c : Cx), Issues s o c →
    let mask := c.val o.a 2 c.l0
    let ready := c.u.ready.toNat &&& mask
    let pend := c.u.pend.toNat &&& mask
    let done := if o.fn = 1 then pend = 0 else ready ≠ 0 ∨ pend = 0
    let tags (t : State) := ∃ u, t.unit? c.u.key = some u ∧ u.ready = c.u.ready ∧ u.pend = c.u.pend ∧ u.tstat = c.u.tstat
    (Bears c o.a 2 [.i64] →
      (done → ∃ t, exec (.tagw o x) s = .next t ∧ afterIs c t c.g ∧ tags t ∧ SameMemory s t)
      ∧ (¬ done → exec (.tagw o x) s = .next (enterWait c s (.tagw mask (o.fn == 1))))
      ∧ (∃ t n, exec (.tagff o x) s = .next t ∧ afterIs c t (c.g.write o.d 1 .i32 (fun _ => n) c.ex) ∧ tags t ∧ SameMemory s t
        ∧ (∀ k < n, ready.testBit k = false) ∧ (if ready = 0 then n = 64 else ready.testBit n = true)))
    ∧ (Bears c o.a 1 [.i32] →
      let k := if o.a = .z then o.imm % 64 else c.val o.a 1 c.l0
      (64 ≤ k → exec (.tagst o x) s = .next (takeTrap c s { code := 0x07, detail := c.l0 * 256 }))
      ∧ (k < 64 → c.u.pend.getLsbD k = true → exec (.tagst o x) s = .next (enterWait c s (.tagst k)))
      ∧ (k < 64 → c.u.pend.getLsbD k = false → ∃ t, exec (.tagst o x) s = .next t ∧ tags t ∧ SameMemory s t
        ∧ afterIs c t (c.g.write o.d 2 .i64 (fun _ => (Sparse.get 0 c.u.tstat k).toNat) c.ex)))

namespace Sys2Proof.Claims

/-- The command an engine issue makes: what it read, and how it stands before it starts (R167, R371). -/
def Made (c : Cx) (m : Cmd) (i : Instr) (d a b : Nat) : Prop :=
  m.ins = i ∧ m.word = c.iss.word ∧ m.gid = c.g.gid ∧ m.pc = c.e.pc ∧ m.exec = c.ex ∧ m.state = .queued ∧ m.prog = 0 ∧ m.status = 0
    ∧ m.dv = BitVec.ofNat 128 d ∧ m.av = BitVec.ofNat 128 a ∧ m.bv = BitVec.ofNat 128 b

/-- Whether a tag is pending and not ready. -/
def Pending (u : Machine.Unit) (t : Nat) : Prop := u.pend.getLsbD t = true ∧ u.ready.getLsbD t = false

/-- What an engine issue leaves: one command more, its tag pending, the group's registers unchanged, and no memory written. -/
def Forked (c : Cx) (s t : State) (agent : Nat) (m : Cmd) : Prop :=
  afterIs c t c.g ∧ SameMemory s t ∧ ∃ u, t.unit? c.u.key = some u ∧ u.cmds = c.u.cmds ++ [(agent, m)]
    ∧ (∀ k, m.tag = some k → k < 64 → Pending u k) ∧ u.acc = c.u.acc ∧ u.acct = c.u.acct ∧ u.accr = c.u.accr ∧ u.bars = c.u.bars

/-- The word issues a command on `agent`. -/
def Issued (c : Cx) (s : State) (out : Host.Outcome State Fault Refusal) (agent : Nat) (i : Instr) (d a b : Nat) (more : Cmd → Prop) : Prop :=
  ∃ t m, out = .next t ∧ Forked c s t agent m ∧ Made c m i d a b ∧ more m

/-- A range of a base is one that R285 accepts at issue. -/
def RangeOk (c : Cx) (x : Opd) (vault : Bool) (off : Int) (n align : Nat) (write : Bool) : Prop :=
  c.checkRange x vault off n align write = .ok ()

/-- The issuing group is its launch's producer (R279). -/
def IsProducer (c : Cx) : Prop := ∃ l, c.launch? = some l ∧ l.producer = c.g.gid

/-- The value of a base operand. -/
def baseVal (c : Cx) (x : Opd) (vault : Bool) : Nat := c.val x (if vault then 1 else 2) c.l0

end Sys2Proof.Claims

/-- R202, R288 to R290: a fill takes the next slot of a ring, a pop gives the oldest one once it is filled, and sfree and sfree.init free
and bind. -/
def Obligations.StreamRings : Prop :=
  ∀ (s : State) (o : Op) (x : ModX) (c : Cx) (agent : Nat), Issues s o c →
    let q := x.f 44 42
    let st := c.u.stream q
    let v := decide (x.f 41 41 = 1)
    let n := st.nm1 + 1
    let own (slot : Nat) := 0x7FC00000 + (st.base + slot * st.slotb * 64)
    let oldest := (st.head + n - st.nfill % n) % n
    let ring (t : State) (st' : Stream) := ∃ u, t.unit? c.u.key = some u ∧ u.stream q = st'
    (c.u.freeAgent = some agent → IsProducer c → BearsBase c o.a v → st.bound = true → st.nfill + st.npop < n → st.nfill < 64 →
      RangeOk c o.a v o.disp (st.slotb * 64) 1 false →
      ∃ t u m, exec (.sfill o x) s = .next t ∧ t.unit? c.u.key = some u ∧ afterIs c t c.g ∧ SameMemory s t
        ∧ u.cmds = c.u.cmds ++ [(agent, m)] ∧ Made c m (.sfill o x) (own st.head) (baseVal c o.a v) (st.slotb * 64)
        ∧ m.fill = some (q, st.head) ∧ u.stream q = { st with head := (st.head + 1) % n, nfill := st.nfill + 1 })
    ∧ (st.bound = true → st.filled.getLsbD 0 = true → ∃ t, exec (.spop o x) s = .next t ∧ SameMemory s t
      ∧ afterIs c t ((c.g.write o.d 1 .i32 (fun _ => own oldest) c.ex).write o.c 1 .raw
          (fun _ => if st.failed.getLsbD 0 then 0 else 1) c.ex)
      ∧ ring t { st with filled := st.filled >>> 1, failed := st.failed >>> 1, nfill := st.nfill - 1, npop := st.npop + 1 })
    ∧ (st.bound = true → st.filled.getLsbD 0 = false → exec (.spop o x) s = .next (enterWait c s (.spop q)))
    ∧ (st.bound = true → 0 < st.npop →
      ∃ t, exec (.sfree o x) s = .next t ∧ afterIs c t c.g ∧ SameMemory s t ∧ ring t { st with npop := st.npop - 1 })
    ∧ (Bears c o.a 1 [.i32] → Bears c o.b 1 [.i32] →
      let a := c.val o.a 1 c.l0
      let k := c.val o.b 1 c.l0
      let m := o.imm % 8192
      1 ≤ m ∧ m ≤ 4096 → 0 < k ∧ k % 64 = 0 → a / 2 ^ 22 = 0x1FF → a % 2 ^ 22 + m * k ≤ c.u.vsize →
      st.bound = false ∨ (st.nfill = 0 ∧ st.npop = 0) →
      ∃ t, exec (.sfreeInit o x) s = .next t ∧ afterIs c t c.g ∧ SameMemory s t ∧ ring t
        { failed := 0, filled := 0, base := a % 2 ^ 22, slotb := k / 64, nm1 := m - 1, head := 0, nfill := 0, npop := 0, bound := true })

/-! ## The matrix array and the factor engine -/

/-- R182 to R185, R189: loads of planes, exchanges of buffers, multiplications and accumulator moves enter their queues in order. -/
def Obligations.MatrixIssue : Prop :=
  ∀ (s : State) (o : Op) (x : ModX) (c : Cx) (agent : Nat), Issues s o c → c.u.freeAgent = some agent →
    let core (t : State) := t.core c.u.core
    let tag (b : Nat) := Sparse.get .raw (s.core c.u.core).planeq b
    let free (k : Nat) := c.u.pend.getLsbD k = false
    (let v := decide (x.f 40 40 = 1);
      BearsBase c o.a v → free (x.f 39 34) → c.u.aslots ≠ 0 → RangeOk c o.a v o.disp (imageBytes (x.f 43 41)) 256 false →
      Issued c s (exec (.ldpl o x) s) agent (.ldpl o x) 0 (baseVal c o.a v) 0 (fun m => m.tag = some (x.f 39 34))
      ∧ ∃ t, exec (.ldpl o x) s = .next t ∧ (core t).mq = (core s).mq ++ [.load c.u.key agent]
        ∧ Sparse.get .raw (core t).planeq (2 * x.f 44 44 + 1) = planeTag (x.f 43 41))
    ∧ (c.u.aslots ≠ 0 → ∃ t, exec (.plswap o x) s = .next t ∧ afterIs c t c.g ∧ SameMemory s t
      ∧ (core t).mq = (core s).mq ++ [.swap (x.f 44 44)] ∧ (core t).plane = (core s).plane ∧ (core t).planet = (core s).planet
      ∧ ∀ k < 2, Sparse.get .raw (core t).planeq (2 * x.f 44 44 + k) = tag (2 * x.f 44 44 + (1 - k)))
    ∧ (let qs := (List.range 4).filter fun q => c.lanes.any fun l => l / 8 == q
      let slots := qs.flatMap fun q => if x.f 44 42 = 5 then [o.d.code + 2 * q, o.d.code + 2 * q + 1] else [o.d.code + q]
      let row (l : Nat) := sext 32 (c.val o.b 1 l) + sext 22 o.imm
      c.tagsSettled slots = .ok () → Bears c o.a 1 [.i32] → Bears c o.b 1 [.i32] → tag (2 * x.f 41 41) = planeTag (x.f 44 42) →
      (∀ k ∈ slots, k < c.u.aslots ∧ (c.u.accTag k = .raw ∨ c.u.accTag k = if x.f 44 42 = 5 then .f64 else .f32)) →
      (∀ l ∈ c.lanes, ∃ loc, resolveVault s c.u l (c.val o.a 1 l) (row l) (rowBytes (x.f 44 42)) 16 false = .ok loc) →
      Issued c s (exec (.mmq o x) s) agent (.mmq o x) 0 (c.val o.a 1 c.l0) 0 (fun m => m.tag = none ∧ m.quarters = qs
        ∧ m.ab = (if o.imm / 2 ^ 22 % 32 < 16 then some (o.imm / 2 ^ 22 % 32) else none)
        ∧ m.wb = (if o.imm / 2 ^ 27 < 16 then some (o.imm / 2 ^ 27, (c.u.bar (o.imm / 2 ^ 27)).ph) else none)
        ∧ ∀ l ∈ c.lanes, m.vec.getD l 0 = BitVec.ofNat 64 (wrap 32 (row l)))
      ∧ ∃ t, exec (.mmq o x) s = .next t ∧ (core t).mq = (core s).mq ++ qs.map fun q => .quarter c.u.key agent q)
    ∧ (let v := decide (x.f 38 38 = 1)
      let a := o.imm % 128
      let slots := if x.f 37 36 = 3 then [a, a + 1] else [a]
      BearsBase c o.a v → free (x.f 44 39) → (∀ k ∈ slots, k < c.u.aslots) →
      (c.tagsSettled slots = .ok () → (∀ k ∈ slots, c.u.accTag k ≠ .tri) → RangeOk c o.a v 0 (2048 * slots.length) 256 false →
        Issued c s (exec (.accld o x) s) agent (.accld o x) 0 (baseVal c o.a v) 0 (fun m => m.tag = some (x.f 44 39)))
      ∧ (RangeOk c o.a v 0 (2048 * slots.length) 256 true →
        Issued c s (exec (.accst o x) s) agent (.accst o x) 0 (baseVal c o.a v) 0 (fun m => m.tag = some (x.f 44 39))))

/-- R187, R188, R265: accrd and accwr move a slot or a pair to and from sixteen or thirty-two registers in every lane, and acczero
clears slots. -/
def Obligations.AccumulatorMoves : Prop :=
  ∀ (s : State) (o : Op) (x : ModX) (c : Cx), Issues s o c →
    let w64 := x.f 44 44 = 1
    let n := if w64 then 32 else 16
    let a := o.imm % 128
    let slots := if w64 then [a, a + 1] else [a]
    let place (i l : Nat) := if w64 then i / 2 * 64 + 2 * l + i % 2 else 32 * i + l
    let others (u : Machine.Unit) (ks : List Nat) := ∀ k, k ∉ ks → u.accTag k = c.u.accTag k ∧ ∀ w < 512, u.accWord k w = c.u.accWord k w
    (∀ r, o.d = .v r → c.slotsFree slots [] = .ok () → (∀ k ∈ slots, k < c.u.aslots) →
      ∃ g, exec (.accrd o x) s = .next (advance c (c.put g)) ∧ SameRegs c.g g o.d n (BitVec.allOnes 32)
        ∧ ∀ i < n, ∀ l < 32, g.vtag (r + i) = c.u.readTag (decide w64) a
          ∧ (g.getV (r + i) l).toNat = c.u.accWord (c.u.curSlot (a + place i l / 512)) (place i l % 512))
    ∧ (∀ r, o.a = .v r → c.slotsFree [] slots = .ok () → (∀ k ∈ slots, k < c.u.aslots ∧ c.u.accTag k ≠ .tri) →
      (∀ i < n, c.g.vtag (r + i) = c.g.vtag r) → c.g.vtag r = .raw ∨ c.g.vtag r = .f64 ∧ w64 ∨ (c.g.vtag r = .f32 ∨ c.g.vtag r = .i32) ∧ ¬ w64 →
      ∃ t u, exec (.accwr o x) s = .next t ∧ t.unit? c.u.key = some u ∧ afterIs c t c.g ∧ SameMemory s t ∧ others u slots
        ∧ (∀ k ∈ slots, u.accTag k = if w64 then .f64 else c.g.vtag r)
        ∧ ∀ i < n, ∀ l < 32, u.accWord (a + place i l / 512) (place i l % 512) = (c.g.getV (r + i) l).toNat)
    ∧ (let ks := (List.range (o.imm / 256 % 256)).map (a + ·)
      c.slotsFree [] ks = .ok () → (∀ k ∈ ks, k < c.u.aslots) →
      ∃ t u, exec (.acczero o x) s = .next t ∧ t.unit? c.u.key = some u ∧ afterIs c t c.g ∧ SameMemory s t ∧ others u ks
        ∧ ∀ k ∈ ks, u.accTag k = .raw ∧ u.record k = 0 ∧ ∀ w < 512, u.accWord k w = 0)

/-- R190, R191, R277: a factor command enters the core's factor queue with the vector, the scale or the slots it names, and arrives at
the barrier of its word. -/
def Obligations.FactorIssue : Prop :=
  ∀ (s : State) (o : Op) (x : ModX) (c : Cx) (agent : Nat), Issues s o c → c.u.freeAgent = some agent →
    let n := 8 * 2 ^ x.f 44 43
    let f64 := x.f 42 42 = 1
    let step := if f64 then 2 else 1
    let t := if f64 then Tag.f64 else .f32
    let tile := facTile o x
    let bars (m : Cmd) := m.tag = none ∧ m.ab = some (o.imm / 2 ^ 23 % 16)
      ∧ m.wb = if o.imm / 2 ^ 27 < 16 then some (o.imm / 2 ^ 27, (c.u.bar (o.imm / 2 ^ 27)).ph) else none
    let vec (m : Cmd) := m.vec = (List.range n).map fun i => BitVec.ofNat 64 (c.val (o.a.plus (step * (i / 32))) step (i % 32))
    let queued (i : Instr) := ∃ t, exec i s = .next t ∧ (t.core c.u.core).fq = (s.core c.u.core).fq ++ [(c.u.key, agent)]
    let does (i : Instr) (b : Nat) (more : Cmd → Prop) := Issued c s (exec i s) agent i 0 0 b (fun m => bars m ∧ more m) ∧ queued i
    let fits (others : List Nat) := (∀ k ∈ tile ++ others, k < c.u.aslots) ∧ ∀ k ∈ tile, k ∉ others
    let vecOk := ∀ k < (if n = 64 then 2 else 1), Bears c (o.a.plus (step * k)) step [t]
    (c.tagsSettled (tile ++ gramSlots o x) = .ok () → fits (gramSlots o x) → (∀ k ∈ tile, c.u.accTag k ∈ [Tag.raw, .f32, .f64, .tri]) →
      does (.trchol o x) 0 fun m => m.trapf = (o.fn == 0))
    ∧ (c.u.hasTile o x = true →
      (c.tagsSettled tile = .ok () → fits [] → vecOk →
        does (.trupd o x) 0 vec ∧ does (.trdwd o x) 0 (fun m => vec m ∧ m.trapf = (o.fn == 0)))
      ∧ (c.tagsSettled (tile ++ sourceSlots o x) = .ok () → fits (sourceSlots o x) → (∀ k ∈ sourceSlots o x, c.u.accTag k = .raw ∨ c.u.accTag k = t) →
        does (.trupd8 o x) 0 fun _ => True)
      ∧ (c.tagsSettled tile = .ok () → fits [] → vecOk → does (.trsolve o x) 0 vec)
      ∧ (c.tagsSettled tile = .ok () → fits [] → Bears c o.b step [t] → does (.trscale o x) (c.val o.b step c.l0) fun _ => True))

/-! ## Copies -/

/-- R194 to R201, R279, R285: the producer issues copies, reductions, the compressor and remote atomics; each takes an engine agent, what it
read, and its tag, which becomes pending. -/
def Obligations.CopyIssue : Prop :=
  ∀ (s : State) (o : Op) (x : ModX) (c : Cx) (agent n : Nat), Issues s o c → c.u.freeAgent = some agent → IsProducer c →
    c.u.pend.getLsbD (x.f 44 39) = false →
    let dv := decide (x.f 38 38 = 1)
    let sv := decide (x.f 37 37 = 1)
    let w (k : Nat) := (c.reg o.b k c.l0).toNat
    let desc := ∀ k < 4, c.regTag o.b k = .raw ∨ c.regTag o.b k = .i32
    let does (i : Instr) (d a b : Nat) (rem : Bool) := Issued c s (exec i s) agent i d a b fun m => m.tag = some (x.f 44 39) ∧ m.remote = rem
    let span (rows stride k : Nat) := if k = 0 then 0 else (rows - 1) * stride + k
    (BearsBase c o.d dv → BearsBase c o.a sv →
      (o.fn = 0 → c.length o = .ok n → RangeOk c o.a sv 0 n 1 false → RangeOk c o.d dv 0 n 1 true →
        does (.cpy o x) (baseVal c o.d dv) (baseVal c o.a sv) n false)
      ∧ (o.fn ≠ 0 → desc → 1 ≤ w 1 ∧ w 1 ≤ 65536 → RangeOk c o.a sv 0 (span (w 1) (w 2) (w 0)) 1 false →
        RangeOk c o.d dv 0 (span (w 1) (w 3) (w 0)) 1 true → does (.cpy o x) (baseVal c o.d dv) (baseVal c o.a sv) (c.val o.b 4 c.l0) false)
      ∧ (let e := if x.f 36 36 = 1 then 8 else 4
        desc → 0 < w 0 ∧ 0 < w 1 ∧ w 0 * w 1 ≤ 2 ^ 40 →
        (if x.f 36 36 = 1 then -1075 ≤ sext 32 (w 2) ∧ sext 32 (w 2) ≤ 1023 else -150 ≤ sext 32 (w 2) ∧ sext 32 (w 2) ≤ 127) →
        RangeOk c o.a sv 0 (if o.fn = 0 then w 0 * w 1 * e else 16) 1 false → RangeOk c o.d dv 0 (w 3) 1 true →
        does (.cpyz o x) (baseVal c o.d dv) (baseVal c o.a sv) (c.val o.b 4 c.l0) false))
    ∧ (BearsBase c o.d true → BearsBase c o.a sv → desc →
      (∀ off, c.u.ownOffset (w 2) = some off → w 0 % 4 = 0 ∧ w 0 ≤ 65536 → 1 ≤ w 1 ∧ w 1 ≤ 65536 → w 3 = 0 → off % 4 = 0 → off + 4 * w 1 ≤ c.u.vsize →
        RangeOk c o.a sv 0 1 1 false → RangeOk c o.d true 0 (w 0 * w 1) 1 true →
        does (.cpyg o x) (baseVal c o.d true) (baseVal c o.a sv) (c.val o.b 4 c.l0) false)
      ∧ (let e := if x.f 36 36 = 1 then 2 else 1
        1 ≤ w 0 ∧ w 0 ≤ 4096 → 1 ≤ w 1 ∧ w 1 ≤ 4096 → w 0 * e ≤ w 2 → w 1 * e ≤ w 3 → w 2 % e = 0 → w 3 % e = 0 →
        RangeOk c o.a sv 0 (span (w 1) (w 2) (w 0 * e)) e false → RangeOk c o.d true 0 (span (w 0) (w 3) (w 1 * e)) e true →
        does (.cpyt o x) (baseVal c o.d true) (baseVal c o.a sv) (c.val o.b 4 c.l0) false))
    ∧ (BearsBase c o.a dv → c.length o = .ok n → RangeOk c o.a dv 0 n 1 (o.fn == 0) →
      does (.cpyr o x) (c.val o.d 4 c.l0) (baseVal c o.a dv) n true)
    ∧ (let v := decide (x.f 36 36 = 1)
      let e := if o.imm % 4 = 1 then 2 else if o.imm % 4 = 3 then 8 else 4
      BearsBase c o.a v → c.length o = .ok n → n % e = 0 → RangeOk c o.a v 0 n e false →
      (x.f 38 37 = 2 → c.val o.d 4 c.l0 / 2 ^ 64 % e = 0 → does (.cred o x) (c.val o.d 4 c.l0) (baseVal c o.a v) n true)
      ∧ (∀ d, d = decide (x.f 38 37 = 1) → x.f 38 37 ≠ 2 → BearsBase c o.d d → RangeOk c o.d d 0 n e true →
        does (.cred o x) (baseVal c o.d d) (baseVal c o.a v) n false))
    ∧ (let t := tyOf (x.f 38 35)
      BearsBase c o.a true → DataOk c o.b t → (o.fn = 7 → DataOk c (o.b.plus t.regs) t) → RangeOk c o.a true 0 t.size t.size true →
      does (.ratom o x) (c.val o.d 4 c.l0) (baseVal c o.a true) (c.val o.b (if o.fn = 7 then 2 * t.regs else t.regs) c.l0) true)

/-- R173, R194, R279, R316: with every engine agent taken each of the words that take one waits before it issues; outside the producer each
copy-class word takes COPYISSUE; and each word with a tag takes TAGBUSY where that tag is pending. -/
def Obligations.CopyRefused : Prop :=
  ∀ (s : State) (o : Op) (x : ModX) (c : Cx), Issues s o c →
    let copies : List Instr := [.cpy o x, .cpyg o x, .cpyt o x, .cpyr o x, .cred o x, .cpyz o x, .ratom o x, .sfill o x]
    let others : List Instr := [.ldpl o x, .accld o x, .accst o x, .mmq o x, .trchol o x, .trupd o x, .trupd8 o x, .trdwd o x, .trsolve o x,
      .trscale o x]
    let v := decide (x.f 38 38 = 1)
    let busy (i : Instr) (t : Nat) := c.u.pend.getLsbD t = true → exec i s = .next (takeTrap c s { code := 0x1B, detail := t })
    let len := ∃ n, c.length o = .ok n
    let desc := ∀ k < 4, c.regTag o.b k = .raw ∨ c.regTag o.b k = .i32
    let slots := if x.f 37 36 = 3 then [o.imm % 128, o.imm % 128 + 1] else [o.imm % 128]
    (c.u.freeAgent = none → ∀ i ∈ copies ++ others, exec i s = .next (enterWait c s .engine))
    ∧ (∀ agent l, c.u.freeAgent = some agent → c.launch? = some l → l.producer ≠ c.g.gid →
      ∀ i ∈ copies, exec i s = .next (takeTrap c s { code := 0x0E }))
    ∧ (∀ agent, c.u.freeAgent = some agent → IsProducer c →
      (BearsBase c o.a v → len → busy (.cpyr o x) (x.f 44 39))
      ∧ (BearsBase c o.d v → BearsBase c o.a (decide (x.f 37 37 = 1)) →
        (o.fn = 0 → len → busy (.cpy o x) (x.f 44 39)) ∧ (o.fn ≠ 0 → desc → busy (.cpy o x) (x.f 44 39)) ∧ (desc → busy (.cpyz o x) (x.f 44 39)))
      ∧ (BearsBase c o.d true → BearsBase c o.a (decide (x.f 37 37 = 1)) → desc → busy (.cpyg o x) (x.f 44 39) ∧ busy (.cpyt o x) (x.f 44 39))
      ∧ ((x.f 38 37 ≠ 2 → BearsBase c o.d (decide (x.f 38 37 = 1))) → BearsBase c o.a (decide (x.f 36 36 = 1)) → len → busy (.cred o x) (x.f 44 39))
      ∧ (let t := tyOf (x.f 38 35)
        BearsBase c o.a true → DataOk c o.b t → (o.fn = 7 → DataOk c (o.b.plus t.regs) t) → busy (.ratom o x) (x.f 44 39)))
    ∧ (∀ agent, c.u.freeAgent = some agent →
      (BearsBase c o.a (decide (x.f 40 40 = 1)) → busy (.ldpl o x) (x.f 39 34))
      ∧ (BearsBase c o.a v → busy (.accst o x) (x.f 44 39)
        ∧ (c.tagsSettled slots = .ok () → (∀ k ∈ slots, c.u.accTag k ≠ .tri) → busy (.accld o x) (x.f 44 39))))

/-! ## User interrupts -/

/-- R204, R205, R300, R302 to R307: a raise is sent on its way; the handler waits for a vector, takes the highest one it may take, opens and
closes its section, and returns. What a uitake takes is the unit's own state at a broadcast endpoint, and at any other the anchor unit's, which
is the endpoint block. -/
def Obligations.InterruptInstructions : Prop :=
  ∀ (s : State) (o : Op) (x : ModX) (c : Cx), Issues s o c →
    (∀ v pay ea, c.raiseArgs o = .ok (v, pay, ea) →
      let req (w : Option (UKey × Nat × Nat)) : RaiseReq :=
        { ctx := c.u.ctx, va := BitVec.ofNat 64 ea, vec := v, pay := BitVec.ofNat 64 pay, cls := 2, func := c.ctx.fn, modid := 0xFFFF,
          sctx := c.u.ctx, launch := c.u.key.lid % 2 ^ 32, waiter := w, reply := none, fab := none, know := knowOf s c.u.key c.g.gid,
          src := some (c.u.key, c.g.gid) }
      (o.fn ≠ 1 → ∃ t, exec (.uiraise o x) s = .next t ∧ afterIs c t c.g ∧ SameMemory s t
        ∧ t.agenda = s.agenda ++ [.raiseDecision (req none)])
      ∧ (o.fn = 1 → ∃ t, exec (.uiraise o x) s = .next t ∧ SameMemory s t
        ∧ t.agenda = s.agenda ++ [.raiseDecision (req (some (c.u.key, c.g.gid, s.tick)))]
        ∧ c.after t = some { c.g with ents := c.g.ents.set c.iss.ent { c.e with wait := .raise s.tick }, after := false }))
    ∧ exec (.uimask o x) s = .next (advance c (c.put { c.g with sect := o.fn == 0 }))
    ∧ (∀ l, c.launch? = some l → l.handler = c.g.gid →
      let pend := pendOf s c.u &&& ~~~c.u.uimask
      (pend ≠ 0 → exec (.uiwait o x) s = .next (advance c s))
      ∧ (pend = 0 → exec (.uiwait o x) s = .next (enterWait c s .uiwait))
      ∧ (∀ r, o.d = .s r →
        let took (t : State) (v n p : Nat) := ∃ g, c.after t = some g ∧ g.getS r = BitVec.ofNat 32 v ∧ g.stag r = .i32
          ∧ g.getS (r + 1) = BitVec.ofNat 32 n ∧ g.stag (r + 1) = .i32 ∧ g.getS (r + 2) = BitVec.ofNat 32 p
          ∧ g.getS (r + 3) = BitVec.ofNat 32 (p / 2 ^ 32) ∧ g.stag (r + 2) = .i64 ∧ g.stag (r + 3) = .i64
          ∧ ∀ q, q < r ∨ r + 4 ≤ q → g.getS q = c.g.getS q ∧ g.stag q = c.g.stag q
        (pend = 0 → ∃ t, exec (.uitake o x) s = .next t ∧ took t 64 0 0 ∧ SameMemory s t)
        ∧ (l.bcast = true → l.bound = true → ∀ v < 64, pend.getLsbD v = true → (∀ k, v < k → pend.getLsbD k = false) →
          ∃ t u, exec (.uitake o x) s = .next t ∧ t.unit? c.u.key = some u ∧ SameMemory s t
            ∧ took t v (Sparse.get 0 c.u.ui.count v) (Sparse.get 0 c.u.ui.pay v).toNat
            ∧ (∀ k, u.ui.pend.getLsbD k = (c.u.ui.pend.getLsbD k && k != v))
            ∧ Sparse.get 0 u.ui.count v = 0 ∧ Sparse.get 0 u.ui.pay v = 0)
        ∧ (l.bcast = false → isAnchor l c.u = true → ∀ v < 64, pend.getLsbD v = true → (∀ k, v < k → pend.getLsbD k = false) →
          ∃ t, exec (.uitake o x) s = .next t ∧ took t v (epRead s l (128 + 2 * v) 2) (payRead s l v)
            ∧ SameMemory (payWrite (epWrite (epWrite s l 32 8 (epRead s l 32 8 &&& (2 ^ 64 - 1 - 2 ^ v))) l (128 + 2 * v) 2 0) l v 0) t))
      ∧ (c.g.inh = true →
        let es := c.rejoinEnts (presentLanes c.g.ents)
        es.length ≤ 8 → exec (.uiret o x) s = .next (frontier c c.g es))
      ∧ (c.g.inh = false → exec (.uiret o x) s = .next (takeTrap c s { code := 0x02 })))

/-- R205: the handler's instructions take PRIV in every other group. -/
def Obligations.HandlerOnly : Prop :=
  ∀ (s : State) (o : Op) (x : ModX) (c : Cx) (l : Launch), Issues s o c → c.launch? = some l → l.handler ≠ c.g.gid →
    exec (.uiwait o x) s = .next (takeTrap c s { code := 0x02 })
    ∧ exec (.uitake o x) s = .next (takeTrap c s { code := 0x02 })
    ∧ exec (.uiret o x) s = .next (takeTrap c s { code := 0x02 })

/-! ## System instructions, traps, and the return from them -/

/-- R29 to R33, R358: a user group reads and writes its special registers; CAUSE to SKIDN are the supervisor's, who reads and writes them
in the group it services.
A user group takes PRIV on FREC and SKID too (log 46). -/
def Obligations.SpecialRegisters : Prop :=
  (∀ (s : State) (o : Op) (x : ModX) (c : Cx), Issues s o c → isSuper c.u.key = false →
    let n := o.imm % 256
    let own := if n = 0 then c.g.gstat.toNat else if n = 1 then c.u.ready.toNat else if n = 2 then (pendOf s c.u).toNat
      else if n = 3 then c.u.uimask.toNat else if n = 4 then c.g.uiepc.toNat else if n = 0x0A then c.ctx.capbase.toNat
      else if n = 0x0B then 1 else if n = 0x0C then c.u.energy.toNat else if n = 0x0D then c.u.pwait.toNat
      else if n = 0x0E then s.clk c.u.core else if n = 0x0F then c.u.core / 64
      else c.u.core % 64 + c.g.slot / 16 * 64 + c.g.slot * 256
    (n < 5 ∨ 9 < n → n ≤ 0x10 → ∃ t, exec (.sprd o x) s = .next t ∧ SameMemory s t ∧ afterIs c t (c.g.write o.d 2 .i64 (fun _ => own) c.ex))
    ∧ (5 ≤ n ∧ n ≤ 9 → exec (.sprd o x) s = .next (takeTrap c s { code := 0x02, detail := n })
      ∧ exec (.spwr o x) s = .next (takeTrap c s { code := 0x02, detail := n }))
    ∧ (c.regTag o.a 0 = c.regTag o.a 1 → c.regTag o.a 0 ≠ .ptr →
      let v := BitVec.ofNat 64 (c.val o.a 2 c.l0)
      (n = 0 → ∃ t, exec (.spwr o x) s = .next t ∧ SameMemory s t ∧ afterIs c t { c.g with gstat := v &&& 0x1007F })
      ∧ (n = 4 → ∃ t, exec (.spwr o x) s = .next t ∧ SameMemory s t ∧ afterIs c t { c.g with uiepc := v &&& 0xF0FFFFFFFFFFFFFC })
      ∧ (n = 3 → ∃ t u, exec (.spwr o x) s = .next t ∧ t.unit? c.u.key = some u ∧ u.uimask = v ∧ afterIs c t c.g)))
  ∧ (∀ (s : State) (o : Op) (x : ModX) (c : Cx) (slot : Nat) (u : Machine.Unit) (g : Group), Issues s o c → isSuper c.u.key = true →
    servicedSlot? s c.u.core = some slot → slotGroup? s c.u.core slot = some (u, g) → s.unit? u.key = some u → u.grp? g.gid = some g →
    u.key ≠ c.u.key →
    let n := o.imm % 256
    let held (f : Group → Group) := ∃ t u', exec (.spwr o x) s = .next t ∧ t.unit? u.key = some u' ∧ u'.grp? g.gid = some (f g) ∧ afterIs c t c.g
    (n = 5 → exec (.sprd o x) s = .next (advance c (c.put (c.g.write o.d 2 .i64 (fun _ => g.cause.toNat) c.ex))))
    ∧ (n = 6 → exec (.sprd o x) s = .next (advance c (c.put (c.g.write o.d 2 .i64 (fun _ => g.epc.toNat) c.ex))))
    ∧ (n = 8 → exec (.sprd o x) s = .next (advance c (c.put (c.g.write o.d 2 .i64 (fun _ => g.frcnt.toNat) c.ex))))
    ∧ (n = 9 → exec (.sprd o x) s = .next (advance c (c.put (c.g.write o.d 2 .i64 (fun _ => g.skidN) c.ex))))
    ∧ (c.regTag o.a 0 = c.regTag o.a 1 → c.regTag o.a 0 ≠ .ptr →
      let v := BitVec.ofNat 64 (c.val o.a 2 c.l0)
      (n = 5 → held fun g => { g with cause := v })
      ∧ (n = 6 → held fun g => { g with epc := v &&& 0x00FFFFFFFFFFFFFC })
      ∧ (n = 8 → held fun g => { g with frcnt := v &&& 0xF })))

/-- R206: trap and brk take SWTRAP behind the word and BRK at it, hvy keeps a reservation, cancel ends the launch, and scall posts a
request and waits.
hvy is granted in the same step (log 37), its BOUNDS names the lowest executing lane (log 45), and a cancel of a group without a launch
only advances (log 53): these are the model's choices. Whether a service asks a host agent for something, whose request is then a record
in the ring in host memory, is free (log 12). -/
def Obligations.SystemInstructions : Prop :=
  ∀ (s : State) (o : Op) (x : ModX) (c : Cx) (p : Place), Issues s o c →
    let k := o.imm % 256
    exec (.trapSw o x) s = .next (takeTrap c (advance c s) { code := 0x16, detail := o.imm % 65536, epc := some (c.e.pc + 12) })
    ∧ exec (.brk o x) s = .next (takeTrap c s { code := 0x15, detail := o.imm % 65536 })
    ∧ (o.fn = 0 → 1 ≤ k ∧ k ≤ 16 → exec (.hvy o x) s = .next (advance c (s.modUnit c.u.key fun u => { u with hvy := k })))
    ∧ (o.fn = 0 → k = 0 ∨ 16 < k → exec (.hvy o x) s = .next (takeTrap c s { code := 0x07, detail := c.l0 * 256 }))
    ∧ (o.fn ≠ 0 → exec (.hvy o x) s = .next (advance c (s.modUnit c.u.key fun u => { u with hvy := 0 })))
    ∧ (c.launch? = none → exec (.cancel o x) s = .next (advance c s))
    ∧ (∀ l, c.launch? = some l → l.live = true → o.fn = 0 → (∀ u ∈ s.units, u.key = c.u.key → u.unrestored = false) → ∃ t u, exec (.cancel o x) s = .next t
      ∧ t.unit? c.u.key = some u ∧ u.halted = true ∧ u.ending = some 0x1A
      ∧ ∀ l', t.launch? l.fn l.lid = some l' → l'.state = .cancelled ∧ l'.failed = true)
    ∧ (Drained s c → BearsBase c o.a false → Lands c o.a false (fun _ => 0) 64 64 {} true [c.l0] (fun _ => p) → p.sp < 4 →
      (mailFree? (s.core c.u.core) = none → exec (.scall o x) s = .next (enterWait c s .retry))
      ∧ (∀ i, mailFree? (s.core c.u.core) = some i → ∃ t g, exec (.scall o x) s = .next t ∧ c.after t = some g
        ∧ (∀ sp < 4, sp ≠ 2 → ∀ a, t.rd sp a = s.rd sp a) ∧ (Config.agentAsk s.tick (o.imm % 65536) = 0 → SameMemory s t)
        ∧ g.scall = true ∧ g.epc = (c.e.pc + 12) &&& 0x00FFFFFFFFFFFFFC
        ∧ g.ents = c.g.ents.set c.iss.ent { c.e with wait := .scall }
        ∧ (let m := (t.core c.u.core).mbox
          getBytes m (128 * i) 4 = (0x201 + c.g.slot * 2 ^ 16 + c.g.gid * 2 ^ 24) % 2 ^ 32 ∧ getBytes m (128 * i + 4) 4 = o.imm % 65536
          ∧ getBytes m (128 * i + 32) 8 = g.epc.toNat ∧ ∀ j < 64, Sparse.get 0 m (128 * i + 64 + j) = s.rd p.sp (p.a + j))))

/-- R352 to R357, R363, R364: a primary fault of a user group stops it at the word with its registers as they are, sets CAUSE and EPC,
writes the fault record, halts the unit, stops or bounds every sibling, and posts a mailbox entry or waits for one; while the second group of
its drawer's cycle has still to issue, the fault is held, and two faults of one cycle are posted in slot order. A sibling that waits stops at
once with SIBHALT, the slot of the group that faulted and the PC of its highest-ranked entry, and writes no record; one that runs may issue
sixteen more words. -/
def Obligations.TakingAFault : Prop :=
  (∀ (s : State) (k : UKey) (u : Machine.Unit) (g : Group) (word : Nat) (pc : DWord) (t : Trap),
    s.unit? k = some u → u.grp? g.gid = some g → isSuper k = false → g.run = .running → g.frcnt.toNat % 16 = 0 →
      let r := takeFault s k g.gid word pc t
      let epc := t.epc.getD pc &&& 0x00FFFFFFFFFFFFFC
      let cause := BitVec.ofNat 64 (t.code + t.estat % 2 ^ 8 * 2 ^ 8 + t.detail % 2 ^ 48 * 2 ^ 16)
      let m := (r.core u.core).mbox
      ∃ u' g', r.unit? k = some u' ∧ u'.grp? g.gid = some g' ∧ u'.halted = true
        ∧ g'.run = .stopped ∧ g'.fault = true ∧ g'.cause = cause ∧ g'.epc = epc
        ∧ g'.v = g.v ∧ g'.vt = g.vt ∧ g'.s = g.s ∧ g'.st = g.st ∧ g'.m = g.m ∧ g'.p = g.p ∧ g'.gstat = g.gstat ∧ g'.ents = g.ents
        ∧ getBytes g'.frec 0 8 = cause.toNat ∧ getBytes g'.frec 8 8 = epc.toNat ∧ getBytes g'.frec 32 8 = t.faddr.toNat
        ∧ (t.epc = none → getBytes g'.frec 16 12 = word % 2 ^ 96)
        ∧ (∀ h ∈ u'.grps, h.live = true → h.run ≠ .running)
        ∧ (let held := (s.core u.core).hold.find? fun x => x / 16 == g.slot / 16
          (held = none → (∀ x ∈ (s.core u.core).picked, x.1 ≠ g.slot / 16) →
            (∀ i, mailFree? (s.core u.core) = some i → getBytes m (128 * i) 4 = (0x101 + g.slot * 2 ^ 16 + g.gid * 2 ^ 24) % 2 ^ 32
              ∧ getBytes m (128 * i + 24) 8 = cause.toNat ∧ getBytes m (128 * i + 32) 8 = epc.toNat)
            ∧ (mailFree? (s.core u.core) = none → (r.core u.core).mwait = (s.core u.core).mwait ++ [g.slot]))
          ∧ (held = none → (∃ x ∈ (s.core u.core).picked, x.1 = g.slot / 16) → (r.core u.core).hold = (s.core u.core).hold ++ [g.slot])
          ∧ ∀ x, held = some x → mailFree? (s.core u.core) = none →
            (r.core u.core).mwait = (s.core u.core).mwait ++ [min x g.slot, max x g.slot]))
  ∧ (∀ (s : State) (k : UKey) (u : Machine.Unit) (g : Group) (src : Nat), s.unit? k = some u → u.grp? g.gid = some g → u.ending = none →
    g.run = .running →
      let r := haltSibling s k src g
      ∃ u' g', r.unit? k = some u' ∧ u'.grp? g.gid = some g'
        ∧ (g.ents.any (fun e => !e.rjw && e.wait == .none) = true → g' = { g with run := .skid 16 src } ∧ .sibhalt k g.gid ∈ r.agenda)
        ∧ (g.ents.all (fun e => e.rjw || e.wait != .none) = true → g'.run = .stopped ∧ g'.skidN = 0 ∧ g'.frec = g.frec
          ∧ g'.cause = BitVec.ofNat 64 (0x17 + src % 2 ^ 48 * 2 ^ 16)
          ∧ g'.epc = (match ranked g.ents with | e :: _ => e.pc | [] => 0)))

/-- R206, R359, R360: sret is the supervisor's; it answers the entry of a slot, so that a caller goes on at its EPC and a halted unit whose
faults are all answered runs again; where no entry is of the slot it takes BOUNDS, whose DETAIL names the lowest executing lane (the
model's choice, log 45). -/
def Obligations.SupervisorReturn : Prop :=
  ∀ (s : State) (o : Op) (x : ModX) (c : Cx), Issues s o c →
    let m := s.core c.u.core
    let slot := o.imm % 64
    let entry := m.morder.find? fun i => mailKind m i != 3 && mailSlot m i == slot
    (isSuper c.u.key = false → exec (.sret o x) s = .next (takeTrap c s { code := 0x02 }))
    ∧ (isSuper c.u.key = true → entry = none → exec (.sret o x) s = .next (takeTrap c s { code := 0x07, detail := c.l0 * 256 }))
    ∧ (∀ i u g, isSuper c.u.key = true → entry = some i → slot ≠ 63 → slotGroup? s c.u.core slot = some (u, g) → s.unit? u.key = some u →
      u.grp? g.gid = some g → u.key ≠ c.u.key → o.fn = 0 → m.mwait = [] → m.reports = [] →
        (mailKind m i = 2 → g.run = .running → g.fblk = none → ∃ t u' g', exec (.sret o x) s = .next t ∧ t.unit? u.key = some u'
          ∧ u'.grp? g.gid = some g' ∧ g'.scall = false ∧ g'.ents = resumeEntries g (g.ents.map Entry.rewait)
          ∧ getBytes (t.core c.u.core).mbox (128 * i) 4 = 0)
        ∧ (mailKind m i = 2 → g.run = .stopped → ∃ t u' g', exec (.sret o x) s = .next t ∧ t.unit? u.key = some u' ∧ u'.grp? g.gid = some g'
          ∧ g'.scall = false ∧ g'.run = .stopped ∧ g'.epc = g.cont.getD g.epc ∧ g'.ents = g.ents)
        ∧ (mailKind m i = 1 → u.halted = true → u.ending = none → (∀ h ∈ u.grps, h.live = true → h.gid ≠ g.gid → h.fault = false) →
          (∀ h ∈ u.grps, h.live = true → h.fblk = none ∧ h.frcnt.toNat % 16 = 0) →
          ∃ t u', exec (.sret o x) s = .next t ∧ t.unit? u.key = some u' ∧ u'.halted = false
            ∧ ∀ h ∈ u'.grps, h.live = true → h.run = .running ∧ h.fault = false))

/-! ## Steps of groups and units -/

namespace Sys2Proof.Claims

/-- A unit of the machine and one of its groups. -/
def At (s : State) (k : UKey) (u : Machine.Unit) (g : Group) : Prop := s.unit? k = some u ∧ u.grp? g.gid = some g

/-- In a later state that group has become `h`. -/
def Becomes (t : State) (k : UKey) (g h : Group) : Prop := ∃ u, t.unit? k = some u ∧ u.grp? g.gid = some h

/-- Entries that waited for something a test picks no longer wait. -/
def woken (p : Wait → Bool) (es : List Entry) : List Entry := es.map fun e => if p e.wait then { e with wait := .none } else e

end Sys2Proof.Claims

/-- R136, R142, R226, R248, R305, R307, R353: the steps a group's waits, its skid, its stores and its interrupts make. -/
def Obligations.GroupSteps : Prop :=
  ∀ (s : State) (k : UKey) (u : Machine.Unit) (g : Group), At s k u g →
    (∀ r i, i < 8 → (∀ x ∈ u.sfq, x.1 ≠ i) → (∀ j < i, ∃ x ∈ u.sfq, x.1 = j) →
      exec (.storeFaultRecord k r) s = .next (s.modUnit k fun u => { u with sfq := u.sfq ++ [(i, r)] }))
    ∧ (∀ left src, g.run = .skid left src → u.ending = none → ∃ t h, exec (.sibhalt k g.gid) s = .next t ∧ Becomes t k g h
      ∧ h.run = .stopped ∧ h.skidN = 16 - left ∧ h.cause = BitVec.ofNat 64 (0x17 + src % 2 ^ 48 * 2 ^ 16))
    ∧ (∀ e, g.run ≠ .stopped → u.vacating = false → (g.ents.find? fun e => e.rejoinDone g.ents) = some e →
      (uiretDone s u g e = false → ∃ t, exec (.rejoinWaitComplete k g.gid) s = .next t
        ∧ Becomes t k g { g with ents := completeRejoin g.ents e.pc, after := false })
      ∧ (uiretDone s u g e = true → ∃ t h, exec (.rejoinWaitComplete k g.gid) s = .next t ∧ Becomes t k g h
        ∧ h.inh = false ∧ h.park = none ∧ ∀ p, g.park = some p → h.liven = p.liven))
    ∧ (∃ t, exec (.offcutStallRelease k g.gid) s = .next t ∧ Becomes t k g { g with ents := woken (· == .offcut) g.ents })
    ∧ (∀ slot, ∃ t, exec (.fillWaitEnd u.ctx slot) s = .next t ∧ SameMemory s t
      ∧ Becomes t k g { g with ents := woken (fun w => match w with | .fill j _ _ => j == slot | _ => false) g.ents })
    ∧ (u.vacating = true ∨ g.scall = true ∨ g.run = .stopped ∨ memoryWaits g = [] → exec (.waitvReread k g.gid) s = .next s)
    ∧ (∀ e i w, u.vacating = false → g.scall = false → g.run ≠ .stopped → memoryWaits g = [(e.pc, e.prio)] →
      (g.ents.findIdx? fun x => x.pc == e.pc && x.prio == e.prio && (x.wait == .waitv || x.wait == .version)) = some i → g.ents[i]? = some e →
      fetchWord s u e.pc 3 = .ok w →
      let s' : State := { s with cur := some { u := k, gid := g.gid, ent := i, word := w } }
      (∀ o m, decode g.grant (isDet s u) w = .ok (.tstAll o m) → ∀ t, exec (.tstAll o m) s' = .next t → exec (.waitvReread k g.gid) s = .next t)
      ∧ (∀ o m c p fl, decode g.grant (isDet s u) w = .ok (.waitv o m) → Issues s' o c → WaitvReads o m c p fl →
        ((∀ l ∈ c.lanes, waitvHolds o m c p l = true) → ∃ t, exec (.waitvReread k g.gid) s = .next t ∧ afterIs c t (c.g.orFlags fl) ∧ SameMemory s t)
        ∧ ((∃ l ∈ c.lanes, waitvHolds o m c p l = false) → exec (.waitvReread k g.gid) s = .next (enterWait c s' .waitv))))
    ∧ (∀ l, launchOf s u = some l → (u.grps.find? fun g => entryDue s u g) = some g →
      ∀ d rest, ranked g.ents = d :: rest → ∃ t h, exec (.userInterruptEntry k) s = .next t ∧ Becomes t k g h ∧ SameMemory s t
        ∧ h.inh = true ∧ h.ents = [Entry.new l.hpc 255 (presentLanes g.ents)]
        ∧ h.uiepc = BitVec.ofNat 64 (d.pc.toNat % 2 ^ 56 / 4 * 4 + bits (peekWord s u d.pc) 83 80 * 2 ^ 60)
        ∧ ∃ p, h.park = some p ∧ p.liven = g.liven ∧ p.ents = g.ents.map fun e => { e with wait := .none })
    ∧ (∀ v, ∃ t u', exec (.uimaskWrite k v) s = .next t ∧ t.unit? k = some u' ∧ u'.uimask = v ∧ u'.grps = u.grps)

namespace Sys2Proof.Claims

/-- A launch has completed (R337): it has left the bench, its signal is one lower, with bit 63 set where it was 0 or the launch has failed,
and the counter of its level is one lower, or the level has completed too. -/
def Completed (s t : State) (u : Machine.Unit) (l : Launch) (failed : Bool) : Prop :=
  let up := s.level? l.fn l.lowest.1 l.lowest.2
  t.launch? l.fn l.lid = none
  ∧ (∀ p, up = some p → 2 ≤ p.counter →
    t.level? l.fn l.lowest.1 l.lowest.2 = some { p with failed := p.failed || failed, counter := p.counter - 1 })
  ∧ (∀ p, up = some p → p.counter = 1 → t.level? l.fn l.lowest.1 l.lowest.2 = none)
  ∧ ((∀ p, up = some p → 2 ≤ p.counter) → (∀ y, s.ctx? u.ctx = some y → ∀ e ∈ y.hist, e.2.getLsbD 127 = false) →
    (l.signal = 0 → SameMemory s t)
    ∧ ∀ c m a, l.signal ≠ 0 → s.ctx? l.ctx = some c → sysLand s c l.signal 8 true = .ok (m, a) → m < 4 → s.spoilt m a 8 = false →
      (m = 2 → Config.hostAtomics = true) →
      let old := s.rdN m a 8
      t.rdN m a 8 = (old % 2 ^ 63 - 1) + (if old % 2 ^ 63 = 0 ∨ failed = true ∨ 2 ^ 63 ≤ old then 2 ^ 63 else 0)
      ∧ ∀ sp < 4, ∀ i, sp ≠ m ∨ i < a ∨ a + 8 ≤ i → t.rd sp i = s.rd sp i)

end Sys2Proof.Claims

/-- R132, R178, R230, R337: the joiner forms a group of records that share a continuation; a group without lanes ends and leaves its
barriers; a unit without groups, commands and records ends, and its launch's counter falls by one. With its last unit the launch completes:
its signal is decremented and the counter of its level falls; one that was cancelled, or whose watchdog has run out, does so when its last unit
on a core has stopped. -/
def Obligations.UnitSteps : Prop :=
  ∀ (s : State) (k : UKey) (u : Machine.Unit), s.unit? k = some u →
    (∀ key gid slot l, buildable s u = some (key, gid, slot) → launchOf s u = some l →
      let rs := (u.off.filter fun r => r.key == key).take 32
      ∃ t u' h, exec (.joinerBuild k) s = .next t ∧ t.unit? k = some u' ∧ u'.grp? gid = some h ∧ SameMemory s t
        ∧ h.slot = slot ∧ h.grant = 16 * l.vblk ∧ h.ents = [Entry.new key.1 key.2.1 (BitVec.ofNat 32 (2 ^ rs.length - 1))]
        ∧ u'.off = u.off.filter fun r => !rs.contains r)
    ∧ (∀ g, u.grp? g.gid = some g → g.ents = [] → (∀ m ∈ u.cmds, m.2.gid = g.gid → m.2.vregs = []) →
      ∃ t u', exec (.groupEnd k g.gid) s = .next t ∧ t.unit? k = some u' ∧ SameMemory s t ∧ u'.grp? g.gid = none
        ∧ ∀ bo < 16, (u'.bar bo).memb.getLsbD g.gid = false)
    ∧ (∀ l, isSuper k = false → u.vacating = false → unitDone u = true → s.launch? k.fn k.lid = some l → l.state = .active → 2 ≤ l.counter →
      ∃ t l', exec (.unitEnd k) s = .next t ∧ t.unit? k = none ∧ t.launch? k.fn k.lid = some l' ∧ l'.counter = l.counter - 1
        ∧ l'.state = .active ∧ l'.failed = (l.failed || u.failed))
    ∧ (∀ l, isSuper k = false → u.vacating = false → unitDone u = true → s.launch? k.fn k.lid = some l → l.state = .active → l.counter = 1 →
      (∀ x ∈ unitsOf s l, x.key = k) → ∃ t, exec (.unitEnd k) s = .next t ∧ t.unit? k = none
        ∧ (k.lid, l.failed || u.failed) ∈ (t.func k.fn).history ∧ Completed s t u l (l.failed || u.failed))
    ∧ (∀ l, isSuper k = false → u.vacating = false → unitDone u = true ∨ u.stopped = true → s.launch? k.fn k.lid = some l → l.live = false →
      (∀ x ∈ unitsOf s l, x.key = k) → ∃ t, exec (.unitEnd k) s = .next t ∧ t.unit? k = none ∧ t.launch? k.fn k.lid = none
        ∧ (l.owes = true → Completed s t u l l.failed))

/-! ## Steps of the engines -/

/-- R168, R171, R182, R184, R185, R266 to R272, R277: starts, passes of the array, quarter commits, exchanges of planes, factor commits,
permits and interval credits.
Starts, permits and credits come when the free choice of steps picks them (logs 3 to 5). -/
def Obligations.EngineSteps : Prop :=
  ∀ (s : State) (k : UKey) (u : Machine.Unit) (agent : Nat) (m : Cmd), s.unit? k = some u → u.cmd? agent = some m →
    let command (t : State) (p : Cmd → Prop) := ∃ u' m', t.unit? k = some u' ∧ u'.cmd? agent = some m' ∧ p m'
    (startable s u agent m = true → m.stream = none → ∃ t, exec (.engineCommandStart k agent) s = .next t ∧ SameMemory s t
      ∧ command t fun m' => m'.state = .started ∧ m'.ins = m.ins
        ∧ ((match m.ins with | .mmq _ _ => true | i => isFactor i || m.bigCopy) = false → m'.permit = true))
    ∧ (∀ core op ops plane fmt, (s.core core).pass = none → newPass s core = op :: ops → s.qShape op.1 op.2.1 = some (plane, fmt) →
      ∃ t p, exec (.matrixPassOpen core) s = .next t ∧ SameMemory s t ∧ (t.core core).pass = some p ∧ p.plane = plane ∧ p.fmt = fmt
        ∧ p.ops = op :: ops ∧ (t.core core).prevPl = some plane)
    ∧ (∀ core p q ops o x rows, (s.core core).pass = some p → p.permit = true → p.ops = (k, agent, q) :: ops → m.ins = .mmq o x →
      statusCode m.status = 0 → readRows s u agent m (mmqFmt x) ((lanesOf m.exec).filter fun l => l / 8 == q) = .ok rows →
      ∃ t u', exec (.quarterOperationCommit core none) s = .next t ∧ t.unit? k = some u'
        ∧ let slot := if x.f 44 42 = 5 then o.d.code + 2 * q else o.d.code + q
          ∀ r ∈ rows, ∀ col < 64, u'.cell (decide (x.f 44 42 = 5)) slot (64 * (r.1 - 8 * q) + col)
            = matrixCell u (s.core core) (x.f 44 42) (2 * x.f 41 41) (x.f 40 40 == 1) slot (r.1 - 8 * q) col r.2.1
              % 2 ^ (if x.f 44 42 = 5 then 64 else 32))
    ∧ (∀ core plane, plane < 2 → swapReady s core plane = true → ∃ t, exec (.plswapExchange core plane) s = .next t ∧ SameMemory s t
      ∧ (t.core core).mq = (s.core core).mq.erase (.swap plane)
      ∧ let word (x : State) (b w : Nat) := Sparse.get 0 (x.core core).plane (16384 * b + w)
        let tag (x : State) (b : Nat) := Sparse.get .raw (x.core core).planet b
        ∀ b < 4, let b' := if b / 2 = plane then (if b % 2 = 0 then b + 1 else b - 1) else b
          tag t b = tag s b' ∧ ∀ w < 16384, word t b w = word s b' w)
    ∧ (∀ o x y, m.state = .started → m.permit = true → isFactor m.ins = true → (∀ o' x', m.ins ≠ .trsolve o' x') →
      (facResult (u.seenBy m) m = some (o, x, .ok y) → ∃ t u', exec (.factorCommandCommit k agent) s = .next t ∧ t.unit? k = some u' ∧ SameMemory s t
        ∧ u'.acc = (u.commitTile m.ins o x y).acc ∧ u'.acct = (u.commitTile m.ins o x y).acct
        ∧ u'.accr = (u.commitTile m.ins o x y).accr)
      ∧ (∀ e, facResult (u.seenBy m) m = some (o, x, .error e) → ∃ t u', exec (.factorCommandCommit k agent) s = .next t ∧ t.unit? k = some u'
        ∧ SameMemory s t ∧ u'.acc = u.acc ∧ u'.acct = u.acct ∧ u'.accr = u.accr))
    ∧ (∀ o x g, m.state = .started → m.permit = true → m.ins = .trsolve o x → u.grp? m.gid = some g →
      let y := solve (facFmt x) (facN x) (o.fn == 0) ((u.seenBy m).readTile o x ((u.seenBy m).curHalf o)) (m.vec.map (·.toNat))
      ∃ t u' h, exec (.factorCommandCommit k agent) s = .next t ∧ SameMemory s t ∧ t.unit? k = some u' ∧ u'.grp? m.gid = some h
        ∧ h.v = (writeVec g o.a x y).v ∧ h.vt = (writeVec g o.a x y).vt)
    ∧ (∀ die, nextGrant s die = some (k, agent, u.core) → agent ≠ 32 → ∃ t, exec (.permitGrant die) s = .next t ∧ SameMemory s t
      ∧ (command t fun m' => m'.permit = true) ∧ (t.die die).permits = (s.die die).permits.filter (· != (k, agent, u.core))
      ∧ (t.die die).account = (s.die die).account - (m.estimate : Int))
    ∧ (∀ die, s.powered = true → ∃ t save, exec (.energyIntervalCredit die) s = .next t ∧ SameMemory s t ∧ .energyIntervalCredit die ∈ t.agenda
      ∧ (dieCompat s die = false → save = 0)
      ∧ let share := (s.limit - 560) * 100 / 8
        let old : Int := (s.die die).account
        (t.die die).account = max old (min (old + ((share + save : Nat) : Int)) ((1000 * share : Nat) : Int)))

namespace Sys2Proof.Claims

/-- A state in the middle of a piece: other bytes may stand at the places it writes, nothing is newly marked uncorrectable, and each unit
has the vault it had. -/
def Midway (s x : State) (dst : Nat → Nat → Prop) : Prop :=
  x = { s with hbm := x.hbm, pool := x.pool, host := x.host, vaults := x.vaults, marks := x.marks, badCrc := x.badCrc, units := x.units,
               relMem := x.relMem, owned := x.owned, engines := x.engines }
  ∧ (∀ e ∈ x.marks, e ∈ s.marks) ∧ (∀ ctx v off, vaultOwned x ctx v off = vaultOwned s ctx v off)
  ∧ ∀ sp < 4, ∀ a, ¬ dst sp a → x.rd sp a = s.rd sp a

/-- The parts of a piece that begins at `lo` and ends at `hi`, each `n` bytes: part `i` is read at `p i` and written at `q i`, and what the
piece writes changes no translation. `att` and `reads` are how the write is done. -/
def Lie (s : State) (u : Machine.Unit) (agent : Nat) (m : Cmd) (lo hi n : Nat) (att : Att) (reads : Bool) (p q : Nat → Place) : Prop :=
  (∀ x, Midway s x (fun sp a => ∃ i, lo ≤ i ∧ i < hi ∧ (q i).sp = sp ∧ (q i).a ≤ a ∧ a < (q i).a + n) → ∀ i, lo ≤ i → i < hi →
    engPlace x u agent m.spaces.1 m.av.toNat (m.byteAt 0 (i * n)).1 n {} true = .ok (p i)
    ∧ engPlace x u agent m.spaces.2 m.dv.toNat (m.byteAt 0 (i * n)).2 n att reads = .ok (q i))
  ∧ ∀ i, lo ≤ i → i < hi → (p i).sp < 4 ∧ (q i).sp < 4 ∧ blockBad s m 0 (p i) (m.byteAt 0 (i * n)).1 = false ∧ crcFails s (p i) (q i) = false
    ∧ markDirty s u.ctx (q i).va = s

/-- Part `i` of a piece is written once, and the piece writes nothing of what it reads. -/
def Solo (lo hi n : Nat) (p q : Nat → Place) (i : Nat) : Prop :=
  ∀ j, lo ≤ j → j < hi → Apart n (p i) (q j) ∧ (j ≠ i → Apart n (q i) (q j))

/-- Every byte that no part of a piece is written at stays as it was. -/
def OnlyAt (s t : State) (lo hi n : Nat) (q : Nat → Place) : Prop :=
  ∀ sp < 4, ∀ a, (∀ i, lo ≤ i → i < hi → (q i).sp = sp → a < (q i).a ∨ (q i).a + n ≤ a) → t.rd sp a = s.rd sp a

end Sys2Proof.Claims

/-- R173 to R175, R195, R197, R198, R280, R283, R289 to R291: what a piece of a copy and of a reduction leaves in memory, in its command
and in no other byte; a piece is moved when the command's engine comes to it, and an ordered contribution is queued on an engine when the sequencer comes to it;
and how commands, fills and contributions end. A byte that a piece itself overwrites is read as it was or as it is (R195), and is not
stated here, nor is a piece whose first bytes were read with the one before it (R174); under RACECHK each access is checked as well. -/
def Obligations.CopySteps : Prop :=
  (∀ (s : State) (k : UKey), s.unit? k = none → ∀ agent, exec (.copyPiece (.cmd k agent)) s = .next s
    ∧ exec (.commandComplete k agent) s = .next s ∧ exec (.fillEnd k agent) s = .next s)
  ∧ (∀ (s : State) (k : UKey) (u : Machine.Unit) (agent : Nat), s.unit? k = some u → u.cmd? agent = none →
    exec (.copyPiece (.cmd k agent)) s = .next s ∧ exec (.commandComplete k agent) s = .next s ∧ exec (.fillEnd k agent) s = .next s)
  ∧ (∀ (s : State) (c n : Nat), exec (.copyPiece (.fetch c n)) s = .next (fetchNext s c n)
    ∧ exec (.copyPiece (.writeBack c n)) s = .next (backNext s c n))
  ∧ (∀ (s : State) (k : UKey) (u : Machine.Unit) (agent : Nat) (m : Cmd), s.unit? k = some u → u.cmd? agent = some m →
    let cmd (t : State) (to_ : Nat) := ∃ u' m', t.unit? k = some u' ∧ u'.cmd? agent = some m' ∧ m'.prog = to_
      ∧ (to_ < m.total → m'.state = m.state) ∧ (m.total ≤ to_ → m'.state = .done ∧ m'.status = statusWord 0 m.okDetail)
    let turn (i : Instr) : Prop := i = .copyPiece (.cmd k agent) ∧ m.stream = none
      ∨ ∃ l n, i = .orderedReductionApply k.fn k.lid n ∧ s.launch? k.fn k.lid = some l ∧ holder s l n (l.ostream n).next = some (u, agent, m)
    (∀ i, turn i → movable s u agent m = false ∨ (engineTurn s k agent = false ∧ (m.stream = none ∨ onEngine s k agent = true)) → exec i s = .next s)
    ∧ (∀ l n, s.launch? k.fn k.lid = some l → holder s l n (l.ostream n).next = some (u, agent, m) → movable s u agent m = true →
      onEngine s k agent = false → exec (.orderedReductionApply k.fn k.lid n) s = .next (queueOn s u.core k agent m))
    ∧ (∀ i, turn i → movable s u agent m = true → engineTurn s k agent = true → u.vacating = true → m.back ≠ [] →
      exec i s = flushBack (nextTurn s k agent) u agent m)
    ∧ (∀ i, turn i → movable s u agent m = true → engineTurn s k agent = true → m.remote = false → m.prog ≤ m.total → m.back = [] → m.sent = [] →
      (∀ p, p = localPiece (nextTurn s k agent) u agent m →
        (∀ o x, m.ins ≠ .cpyz o x) → p.stop = none → ∃ t u' m', exec i s = .next t ∧ t.unit? k = some u' ∧ u'.cmd? agent = some m' ∧ SameMemory p.s t
          ∧ m'.prog = m.prog + p.n ∧ (m.total ≤ m.prog + p.n → m'.state = .done ∧ m'.status = statusWord 0 m.okDetail))
      ∧ (∀ p q, (∃ o x, m.ins = .cpy o x ∨ m.ins = .cpyt o x ∨ m.ins = .sfill o x) → m.ahead = [] → checks s u = false →
        Lie s u agent m m.prog (m.cut m.prog) 1 { write := true } false p q →
        (∀ j, m.prog ≤ j → j < m.cut m.prog → ((q j).sp % 3 = 0 ↔ (q m.prog).sp % 3 = 0)) →
        ∃ t, exec i s = .next t ∧ cmd t (m.cut m.prog) ∧ OnlyAt s t m.prog (m.cut m.prog) 1 q
          ∧ ∀ j, m.prog ≤ j → j < m.cut m.prog → Solo m.prog (m.cut m.prog) 1 p q j → t.rd (q j).sp (q j).a = s.rd (p j).sp (p j).a)
      ∧ (∀ o x p q, m.ins = .cred o x → checks s u = false →
        let es := credEs o
        let lo := m.prog / es
        let hi := lo + (m.cut m.prog - m.prog) / es
        m.prog % es = 0 → Lie s u agent m lo hi es credAtt true p q →
        (∀ j, lo ≤ j → j < hi → noAtomic (q j) = false ∧ targetBad s m.total (q j) (es * j) = false) →
        ∃ t, exec i s = .next t ∧ cmd t (es * hi) ∧ OnlyAt s t lo hi es q
          ∧ ∀ j, lo ≤ j → j < hi → Solo lo hi es p q j → t.rdN (q j).sp (q j).a es
            = credNew o (s.rdN (q j).sp (q j).a es) (s.rdN (p j).sp (p j).a es) % 256 ^ es))
    ∧ (∀ t0, m.tag = some t0 → t0 < 64 → m.state = .done → ∃ t u', exec (.commandComplete k agent) s = .next t ∧ t.unit? k = some u' ∧ SameMemory s t
      ∧ u'.cmd? agent = none ∧ u'.ready.getLsbD t0 = true ∧ u'.pend.getLsbD t0 = false ∧ Sparse.get 0 u'.tstat t0 = m.status)
    ∧ (m.tag = none ∨ m.state ≠ .done → exec (.commandComplete k agent) s = .next s)
    ∧ (∀ n slot, m.fill = some (n, slot) → m.state = .done →
      let a := vaultKey (vaultNo u.core) (u.vault + (u.stream n).base + slot * (u.stream n).slotb * 64)
      ∃ t u', exec (.fillEnd k agent) s = .next t ∧ t.unit? k = some u' ∧ u'.cmd? agent = none
        ∧ u'.stream n = (u.stream n).fillDone slot (decide (statusCode m.status ≠ 0))
        ∧ (statusCode m.status = 0 → SameMemory s t)
        ∧ (statusCode m.status ≠ 0 → checks s u = false → t.rdN 3 a 8 = m.status.toNat
          ∧ ∀ sp < 4, ∀ i, sp ≠ 3 ∨ i < a ∨ a + 8 ≤ i → t.rd sp i = s.rd sp i))
    ∧ (m.fill = none ∨ m.state ≠ .done → exec (.fillEnd k agent) s = .next s))
  ∧ (∀ (s : State) (fn lid n : Nat), (s.launch? fn lid = none → exec (.orderedReductionApply fn lid n) s = .next s)
    ∧ ∀ l, s.launch? fn lid = some l → holder s l n (l.ostream n).next = none →
      (passable s l n = true → ∃ t l', exec (.orderedReductionApply fn lid n) s = .next t ∧ t.launch? fn lid = some l' ∧ SameMemory s t
        ∧ l'.ostream n = { l.ostream n with next := (l.ostream n).next + 1 })
      ∧ (passable s l n = false → exec (.orderedReductionApply fn lid n) s = .next s))
  ∧ (∀ (s : State) (k : UKey) (r : LateReply),
    (s.launch? k.fn k.lid = none → exec (.lateReply k r) s = .next s)
    ∧ ∀ l, s.launch? k.fn k.lid = some l →
      (s.ctx? l.ctx = none ∨ (l.resume.find? fun v => v.idx == k.idx) = none → exec (.lateReply k r) s = .next s)
      ∧ ∀ c v, s.ctx? l.ctx = some c → (l.resume.find? fun v => v.idx == k.idx) = some v →
        let area (j : Nat) := c.arena + v.save + l.imgLate + 272 * j
        let taken (j : Nat) : Bool := ((sysRead s c (area j) 4).getD 0).testBit 31
        ((∀ j < 4 * l.g, taken j = true) → exec (.lateReply k r) s = .next s)
        ∧ ∀ i < 4 * l.g, taken i = false → (∀ j < i, taken j = true) →
          ∃ bs, exec (.lateReply k r) s = .next (sysWriteBytes s c (area i) bs) ∧ natOfBytes (bs.take 4) = (2 ^ 31 + r.gid * 2 ^ 24 + r.d) % 2 ^ 32
            ∧ natOfBytes ((bs.drop 4).take 4) = r.mask.toNat ∧ natOfBytes ((bs.drop 8).take 1) = r.ty.code % 256
            ∧ bs.drop 16 = r.vals.flatMap fun x => bytesOfNat 8 x.toNat)

/-! ## Names, translation, and the bench -/

/-- R242 to R252, R374: a walk fills the TLB; an admission finds its slot, fails or becomes resident; a departure ends in the history; a request to depart stays due until the departure has begun. -/
def Obligations.ResidencySteps : Prop :=
  ∀ (s : State) (c : Ctx) (key slot : Nat), s.ctx? c.id = some c →
    let r := c.slotRes slot
    let now (t : State) (p : Ctx → Prop) := ∃ c', t.ctx? c.id = some c' ∧ p c'
    (∀ core (va : DWord) p lv n, walk s c va.toNat = .ok p → sizeInfo p.size = some (lv, n) → ∃ t e, exec (.pageWalk core c.id va) s = .next t
      ∧ SameMemory s t ∧ (t.core core).tlb.head? = some e ∧ e.ctx = c.id ∧ e.va = va.toNat / 2 ^ n * 2 ^ n ∧ e.size = 2 ^ n)
    ∧ (∀ a i, (c.adms.find? fun a => a.key == key && a.active) = some a → a.slot = none → c.find key = none →
      i = .admission c.id key ∨ i = .directoryBusyReread c.id key →
      (∀ j, lookup s c key a.probe = .busy j → ∃ t, exec i s = .next t ∧ SameMemory s t ∧ .directoryBusyReread c.id key ∈ t.agenda
        ∧ now t fun c' => { a with probe := j } ∈ c'.adms)
      ∧ (lookup s c key a.probe = .absent → ∃ t, exec i s = .next t ∧ SameMemory s t ∧ now t fun c' => ∀ w ∈ a.waits, w.res = 0 → isSuper w.u = false →
        ∃ b ∈ c'.adms, b.key = key ∧ b.active = false ∧ { w with res := 0x09, estat := 0, detail := 0 } ∈ b.waits)
      ∧ (∀ e run, lookup s c key a.probe = .entry e → e.invalid = false → e.kind = 0 → (∃ w ∈ a.waits, w.res = 0 ∧ w.kind = e.kind ∧ w.gen = e.gen) →
        e.fnmask.testBit c.fn = true → c.pickSlot key = some slot → c.findRun (granules e.size) = some run →
        ∃ t, exec i s = .next t ∧ .copyPiece (.fetch c.id slot) ∈ t.agenda ∧ now t fun c' =>
          (c'.slotRes slot).state = .admitting ∧ (c'.slotRes slot).gen = e.gen ∧ (c'.slotRes slot).extent = e.size
          ∧ (c'.slotRes slot).backva = c.admva + run * 65536 ∧ (c'.slotRes slot).home = e.home
          ∧ (c'.slotRes slot).inc = if r.state = .departed then (r.inc + 1) % 16 else 0))
    ∧ (r.state = .admitting → (c.adms.any fun a => a.slot == some slot && a.owning) = true →
      (∀ o, takeOwner s c r = .error o → ∃ t, exec (.ownershipReread c.id slot) s = .next t ∧ SameMemory s t ∧ .ownershipReread c.id slot ∈ t.agenda
        ∧ (o / 2 ^ 48 = s.ident → (∀ a ∈ c.adms, a.asked ≠ some o) → .departRequest (o % 2 ^ 32) r.key ∈ t.agenda))
      ∧ (∀ s', takeOwner s c r = .ok s' → ∃ t, exec (.ownershipReread c.id slot) s = .next t
        ∧ now t fun c' => ∀ a ∈ c'.adms, a.key = r.key → a.active = true → a.owning = false))
    ∧ (r.state = .admitting → r.kind = 2 ∨ min 65536 r.extent ≤ r.filled → ∃ t, exec (.admissionResident c.id slot) s = .next t
      ∧ .fillWaitEnd c.id slot ∈ t.agenda ∧ now t fun c' => (c'.slotRes slot).state = .resident ∧ (c'.slotRes slot).inc = r.inc)
    ∧ (∀ forced, r.state = .resident → forced = true ∨ r.pin = 0 → ∃ t, exec (.departure c.id slot forced) s = .next t
      ∧ now t fun c' => (c'.slotRes slot).state = .departing ∧ (c'.slotRes slot).forced = forced)
    ∧ (r.state = .departing → r.cpin = 0 ∨ r.forced = true → r.dstep ≠ 2 → r.dstep ≠ 1 ∨ r.kind ≠ 1 ∨ r.dirtyPg = [] →
      ∃ t, exec (.departureComplete c.id slot) s = .next t ∧ now t fun c' => (c'.slotRes slot).state = .departed ∧ c'.find r.key = none
        ∧ ∀ x ∈ c'.runs, x.1 ≠ slot)
    ∧ (c.find key = some slot →
      (r.state = .resident → r.pin = 0 → exec (.departRequest c.id key) s = .next ((s.due (.departure c.id slot false)).due (.departRequest c.id key)))
      ∧ (r.state ≠ .departing → r.state ≠ .resident ∨ r.pin ≠ 0 → exec (.departRequest c.id key) s = .next (s.due (.departRequest c.id key)))
      ∧ (r.state = .departing → exec (.departRequest c.id key) s = .next s))
    ∧ (c.find key = none → exec (.departRequest c.id key) s = .next s)

/-- R297 to R300: a raise whose endpoint is bound and whose table grants it updates the target state of every resident unit of a broadcast
endpoint; one that is denied changes no unit. -/
def Obligations.RaiseSteps : Prop :=
  ∀ (s : State) (q : RaiseReq), q.waiter = none → q.reply = none → q.fab = none →
    let r : RaiseReq := if q.cls = 2 && q.modid = s.ident then { q with modid := 0xFFFF } else q
    (boundAt s q.ctx q.va.toNat = none → exec (.raiseDecision q) s = .next s)
    ∧ (∀ l, boundAt s q.ctx q.va.toNat = some l →
      (granted s l r = false → ∃ t, exec (.raiseDecision q) s = .next t ∧ t.units = s.units)
      ∧ (granted s l r = true → l.bcast = true → ∀ u, u ∈ unitsOf s l → (s.units.filter fun x => x.key == u.key) = [u] →
        ∃ t u', exec (.raiseDecision q) s = .next t ∧ t.unit? u.key = some u' ∧ u'.grps = u.grps
          ∧ u'.ui.pend = u.ui.pend ||| BitVec.ofNat 64 (2 ^ q.vec)
          ∧ Sparse.get 0 u'.ui.count q.vec = min (Sparse.get 0 u.ui.count q.vec + 1) 65535
          ∧ Sparse.get 0 u'.ui.pay q.vec = if l.modew.getLsbD q.vec then Sparse.get 0 u.ui.pay q.vec ||| q.pay else q.pay))

namespace Sys2Proof.Claims

/-- A unit that was placed and not restored yet is not restored any more, and leaves in its turn (R345). -/
def SentBack (t : State) (k : UKey) : Prop := .unitVacate k ∈ t.agenda ∧ ∀ c, .unitRestore k c ∉ t.agenda

end Sys2Proof.Claims

/-- R233, R234, R309, R339, R342 to R349, R369: how launches get their tickets, units their cores, and how units leave and come back. -/
def Obligations.BenchSteps : Prop :=
  ∀ (s : State) (l : Launch) (core : Nat), s.launch? l.fn l.lid = some l →
    let now (t : State) (p : Launch → Prop) := ∃ l', t.launch? l.fn l.lid = some l' ∧ p l'
    (l.state = .active →
      (l.held = true ∨ s.owner ≠ some l.fn → exec (.watchdog l.fn l.lid) s = .next (s.due (.watchdog l.fn l.lid)))
      ∧ (l.held = false → s.owner = some l.fn → ∀ u ∈ unitsOf s l, ∃ t, exec (.watchdog l.fn l.lid) s = .next t
        ∧ ((∀ x ∈ unitsOf s l, x.key = u.key → x.unrestored = false) → (∃ u', t.unit? u.key = some u' ∧ u'.halted = true ∧ u'.ending = some 0x13)
          ∧ now t fun l' => l'.state = .cancelled ∧ l'.failed = true ∧ l'.owes = true)
        ∧ (u.unrestored = true → t.unit? u.key = none)))
    ∧ (∀ u ∈ s.units, s.unit? u.key = some u → u.core = core → isSuper u.key = false → u.vacating = false → u.ending = none →
        restoring s u.key = false →
      (u.ctx ∈ yielding s core → (u.grps.any (·.live)) = true → ∃ t u', exec (.yieldCore core) s = .next t ∧ t.unit? u.key = some u'
        ∧ u'.vacating = true ∧ .unitVacate u.key ∈ t.agenda ∧ SameMemory s t)
      ∧ (nextVictim s l = some core → ∃ t u', exec (.spatialPreemption l.fn l.lid) s = .next t ∧ t.unit? u.key = some u'
        ∧ u'.vacating = true ∧ .unitVacate u.key ∈ t.agenda ∧ now t fun l' => l'.taken = l.taken ++ [core]))
    ∧ (∀ u ∈ s.units, s.unit? u.key = some u → u.core = core → isSuper u.key = false → u.ending = none → u.unrestored = true →
      nextVictim s l = some core → ∃ t, exec (.spatialPreemption l.fn l.lid) s = .next t ∧ SentBack t u.key)
    ∧ ((∀ u ∈ userUnits s core, buildable s u = none) →
      (serve s core = some (.fresh l.fn l.lid) → l.state = .ready → exec (.workRequest core) s = .next (s.due (.firstTicket l.fn l.lid)))
      ∧ (∀ i l' v sv, serve s core = some (.fresh l.fn l.lid) → l.state = .active → l.ticket (core / 64) = some (i, l') →
        vaultFit s core (l.b + l.c) = some v → saveFit s l = some sv → s.unit? { fn := l.fn, lid := l.lid, idx := i } = none →
        ∃ t u, exec (.workRequest core) s = .next t ∧ t.unit? { fn := l.fn, lid := l.lid, idx := i } = some u ∧ u.core = core ∧ u.vault = v
          ∧ u.vsize = l.b ∧ u.ctx = l.ctx ∧ u.grps.map (·.gid) = List.range (nextSlots (usedSlots s core) l.g).length
          ∧ ∀ g ∈ u.grps, g.ents = [Entry.new (BitVec.ofNat 64 l.entry) 128 (BitVec.allOnes 32)])
      ∧ (∀ v a, serve s core = some (.restore l.fn l.lid v) → vaultFit s core (l.b + l.c) = some a →
        ∃ t, exec (.workRequest core) s = .next t ∧ (now t fun l' => ∀ w ∈ l'.resume, w.idx ≠ v.idx)
          ∧ ∀ old, v.unit = some old → s.unit? old.key = none → .unitRestore old.key core ∈ t.agenda
            ∧ (∃ u, t.unit? old.key = some u ∧ u.core = core ∧ u.vault = a ∧ u.vacating = true ∧ u.unrestored = true)
            ∧ ∀ c, l.a ≠ 0 → (s.core core).holder = none → s.ctx? l.ctx = some c → (t.core core).holder = some (l.fn, l.lid)
              ∧ ∀ w < 65536, Sparse.get 0 (t.core core).plane w = BitVec.ofNat 32 (imageRd s c v.save (l.imgPlanes + 4 * w) 4)))
    ∧ (∀ pre, l.state = .ready → l.held = false → l.endpoint = 0 → readArgs s l = some pre →
      ∃ t, exec (.firstTicket l.fn l.lid) s = .next t ∧ SameMemory s t ∧ now t fun l' => l'.state = .active ∧ l'.pre = pre
        ∧ l'.ranges = (List.range 8).map fun d => (l.n * d / 8, l.n * (d + 1) / 8))
    ∧ (∀ u, s.unit? u.key = some u → launchOf s u = some l → isSuper u.key = false → u.vacating = true → restoring s u.key = false →
      (unitDone u = true ∨ u.ending ≠ none → exec (.unitVacate u.key) s = .next (s.modUnit u.key fun u => { u with vacating := false }))
      ∧ (unitDone u = false → u.ending = none → saveWaits s u = true → exec (.unitVacate u.key) s = .next (s.due (.unitVacate u.key)))
      ∧ (unitDone u = false → u.ending = none → saveWaits s u = false → ∃ t, exec (.unitVacate u.key) s = .next t ∧ t.unit? u.key = none
        ∧ now t fun l' => ∃ v ∈ l'.resume, v.idx = u.key.idx ∧ v.save = u.save))
    ∧ (∀ u, s.unit? u.key = some u → launchOf s u = some l → isSuper u.key = false → u.vacating = true → u.unrestored = true →
      (lowerLeaves s u = true → exec (.unitVacate u.key) s = .next (s.due (.unitVacate u.key)))
      ∧ (lowerLeaves s u = false → ∃ t, exec (.unitVacate u.key) s = .next t ∧ t.unit? u.key = none
        ∧ now t fun l' => ∃ v, l'.resume = l.resume ++ [v] ∧ v.idx = u.key.idx ∧ v.save = u.save))
    ∧ (∀ u c, s.unit? u.key = some u → launchOf s u = some l → s.ctx? u.ctx = some c → u.vacating = true → u.unrestored = true → u.ending = none →
        u.core = core →
      let rd := imageRd s c u.save
      badImage rd l u.key.idx (u.inBlock rd l) = none → rd 36 4 ≤ 1 →
      exec (.unitRestore u.key core) s = .next (restoreUnit s u l rd [])
      ∧ (u.halted = false → (∀ g ∈ u.grps, g.live = true → g.fault = false ∧ g.ents ≠ []) → (∀ i < 4 * l.g, (rd (l.imgLate + 272 * i) 4).testBit 31 = false) →
        (∀ n < 32, rd (l.imgCmds + 1024 * n + 12) 1 = 0) → s.owner = some l.fn → (s.die (dieOf core)).fence.getLsbD (core % 64) = false →
        ∃ t u', exec (.unitRestore u.key core) s = .next t ∧ t.unit? u.key = some u' ∧ u'.vacating = false ∧ u'.unrestored = false ∧ u'.core = core
          ∧ u'.cmds = []
          ∧ u'.ready = BitVec.ofNat 64 (rd (l.imgUnit + 0xC40) 8) ∧ u'.uimask = BitVec.ofNat 64 (rd (l.imgUnit + 0xC48) 8)
          ∧ u'.energy = BitVec.ofNat 64 (rd 40 8) ∧ (∀ b < 16, u'.bar b = loadBar (rd (l.imgUnit + 32 * b) 32))
          ∧ (∀ w < 512 * l.a, Sparse.get 0 u'.acc w = BitVec.ofNat 32 (rd (l.imgAcc + 4 * w) 4))
          ∧ (l.bound = false → t.rdBytes 3 (vaultKey (vaultNo core) u.vault) l.b = bytesOfNat l.b (rd l.imgVault l.b))
          ∧ ∀ g, u.grp? g.gid = some g → g.gid < l.g →
            let b := imgGroup g.gid
            ∃ h, u'.grp? g.gid = some h ∧ h.run = .running
              ∧ (∀ es n, parseFrontier (rd (b + 0x8400) 264) g.grant (BitVec.allOnes 32) = .ok (es, n) → h.ents = es ∧ h.liven = n)
              ∧ (∀ r < 32, h.getM r = BitVec.ofNat 32 (rd (b + 0x8200 + 4 * r) 4))
              ∧ (∀ r < 7, Sparse.get 0 h.p r = BitVec.ofNat 32 (rd (b + 0x8280 + 4 * r) 4))
              ∧ (∀ r < g.grant, rd.mark (b + 0x8D00) r = false → rd.nibble (b + 0x8300) r ≠ Tag.ptr.code →
                h.vtag r = (tagOf (rd.nibble (b + 0x8300) r)).getD .raw ∧ ∀ ln < 32, h.getV r ln = BitVec.ofNat 32 (rd (b + 4 * (32 * r + ln)) 4))
              ∧ (∀ r < 128, rd.mark (b + 0x8D20) r = false → rd.nibble (b + 0x8380) r ≠ Tag.ptr.code →
                h.stag r = (tagOf (rd.nibble (b + 0x8380) r)).getD .raw ∧ h.getS r = BitVec.ofNat 32 (rd (b + 0x8000 + 4 * r) 4))))
    ∧ (∀ fn q, s.tenant = some fn → s.quanta[s.slice]? = some q → Quantum.ok s q = true → q.fn = fn → switchGoes s = false →
      s.quantaRun + 1 < q.weight → hasWork s fn = true → exec .sliceEnd s = .next { s with quantaRun := s.quantaRun + 1 })
    ∧ (switchGoes s = true → exec .sliceEnd s = .next s)
    ∧ (let qs := s.quantaNext.getD s.quanta
      let takes (i : Nat) (q : Quantum) : Prop := qs[(s.slice + 1 + i) % qs.length]? = some q ∧ Quantum.ok s q = true ∧ hasWork s q.fn = true
      let leave (t : State) (fn : Option Nat) : Prop := ∀ u ∈ s.units, s.unit? u.key = some u → some u.key.fn ≠ fn → isSuper u.key = false →
        u.ending = none →
        (u.vacating = false → u.unrestored = false → ∃ u', t.unit? u.key = some u' ∧ u'.vacating = true ∧ .unitVacate u.key ∈ t.agenda)
        ∧ (u.unrestored = true → SentBack t u.key)
      (∀ fn q, s.tenant = some fn → s.quanta[s.slice]? = some q →
        Quantum.ok s q = false ∨ q.fn ≠ fn ∨ q.weight ≤ s.quantaRun + 1 ∨ hasWork s fn = false) →
      s.quantaNext ≠ none ∨ s.quanta.any (Quantum.ok s) = true → switchGoes s = false →
      (∀ i q, i < qs.length → takes i q → (∀ j < i, ∀ x, ¬ takes j x) → ∃ t, exec .sliceEnd s = .next t ∧ SameMemory s t ∧ t.tenant = some q.fn
        ∧ t.slice = (s.slice + 1 + i) % qs.length ∧ t.quantaRun = 0 ∧ t.quanta = qs ∧ t.quantaNext = none ∧ leave t (some q.fn))
      ∧ ((∀ q ∈ qs, Quantum.ok s q = false) → ∃ t, exec .sliceEnd s = .next t ∧ SameMemory s t ∧ t.tenant = some 0 ∧ t.quanta = qs ∧ leave t (some 0))
      ∧ (qs.any (Quantum.ok s) = true → (∀ i q, i < qs.length → ¬ takes i q) →
        ∃ t, exec .sliceEnd s = .next t ∧ SameMemory s t ∧ t.tenant = none ∧ t.quanta = qs ∧ leave t none))

/-! ## The supervisor's side -/

/-- R355 to R362, R366, R411: a core machine check, the answers of the supervisor to core reports and store-fault records, its writes into
halt windows, its admission port, and its replacement at a switch of firmware. -/
def Obligations.SupervisorSteps : Prop :=
  ∀ (s : State) (core : Nat),
    (∀ lost, ∃ t, exec (.machineCheck core lost) s = .next t ∧ t.unit? (superKey core) = some (superUnit (s.superImage core) core)
      ∧ (t.core core).mbox = [] ∧ (t.core core).morder = [] ∧ (t.die (core / 64)).mchecks = (s.die (core / 64)).mchecks + 1
      ∧ ∀ u ∈ s.units, s.unit? u.key = some u → u.core = core → isSuper u.key = false → u.ending = none →
        (u.key ∈ lost → t.unit? u.key = none)
        ∧ (u.key ∉ lost → u.unrestored = false →
          ∃ u', t.unit? u.key = some u' ∧ u'.halted = true ∧ u'.vacating = true ∧ .unitVacate u.key ∈ t.agenda)
        ∧ (u.key ∉ lost → u.unrestored = true → SentBack t u.key))
    ∧ (∀ idx, idx < 16 → (s.core core).mwait = [] → (s.core core).reports = [] →
      (mailKind (s.core core) idx = 3 → ∃ t, exec (.coreReportAck core idx) s = .next t ∧ SameMemory s t
        ∧ getBytes (t.core core).mbox (128 * idx) 4 = 0 ∧ (t.core core).morder = (s.core core).morder.filter (· != idx))
      ∧ (mailKind (s.core core) idx ≠ 3 → exec (.coreReportAck core idx) s = .next s))
    ∧ (∀ k u mask, s.unit? k = some u → ∃ t u', exec (.qfree k mask) s = .next t ∧ SameMemory s t ∧ t.unit? k = some u' ∧ u'.grps = u.grps
      ∧ ∀ r, r ∈ u'.sfq ↔ r ∈ u.sfq ∧ mask.testBit r.1 = false)
    ∧ (∀ slot u g v, slotGroup? s core slot = some (u, g) → s.unit? u.key = some u → u.grp? g.gid = some g →
      (windowOpen u g = false → ∀ off n, exec (.registerWrite core slot off n v) s = .next s)
      ∧ (windowOpen u g = true →
        (∀ r < 128, ∃ t h, exec (.registerWrite core slot (0x8000 + 4 * r) 4 v) s = .next t ∧ SameMemory s t ∧ Becomes t u.key g h
          ∧ h.getS r = BitVec.ofNat 32 v.toNat ∧ (∀ q, q ≠ r → h.getS q = g.getS q) ∧ h.v = g.v ∧ h.m = g.m ∧ h.p = g.p ∧ h.st = g.st
          ∧ h.ents = g.ents ∧ h.epc = g.epc)
        ∧ ∃ t h, exec (.registerWrite core slot 0x8618 8 v) s = .next t ∧ SameMemory s t ∧ Becomes t u.key g h
          ∧ h.epc = v &&& 0x00FFFFFFFFFFFFFC ∧ h.cause = g.cause ∧ h.s = g.s ∧ h.v = g.v))
    ∧ (∀ c, (s.core core).portBusy = false → servicedCtx s core = some c →
      let name := getBytes (s.core core).port 0 16
      (slotKind false name = .null → ∃ t, exec (.admissionPortGo core) s = .next t ∧ SameMemory s t ∧ (t.core core).portBusy = false
        ∧ getBytes (t.core core).port 32 8 = 0 ∧ getBytes (t.core core).port 40 8 = 2 ^ 63)
      ∧ (∀ n slot r, slotKind false name = .name n → askName c n = .have slot r → nameOff n ≤ r.extent →
        ∃ t, exec (.admissionPortGo core) s = .next t ∧ SameMemory s t ∧ (t.core core).portBusy = false
          ∧ getBytes (t.core core).port 32 8 = mkPtr r.inc slot (nameOff n) % 2 ^ 64 ∧ getBytes (t.core core).port 40 8 = 2 ^ 63)
      ∧ (∀ n, slotKind false name = .name n → askName c n = .join → s.ctx? c.id = some c → (c.adms.all fun a => a.key != nameKey n) = true →
        ∃ t, exec (.admissionPortGo core) s = .next t ∧ SameMemory s t ∧ (t.core core).portBusy = true ∧ .admission c.id (nameKey n) ∈ t.agenda))
    ∧ ((replaceable s core = true → ∃ t, exec (.supervisorReplace core) s = .next t
        ∧ t.unit? (superKey core) = some (superUnit (s.bank (1 - s.active)).image core)
        ∧ (t.core core).bank = 1 - s.active)
      ∧ (replaceable s core = false → exec (.supervisorReplace core) s = .next s))

/-! ## Operations of the host -/

/-- R378 to R381, R390, R391, R298, R362, R374, R368, R418: the ring, capabilities, windows, handles, contexts and names of a function.
Which field of a frame is which is the model's numbering (log 12), and so is the order of handle numbers (log 41). -/
def Obligations.FunctionRpcs : Prop :=
  ∀ (s : State) (r : Rpc),
    let a (i : Nat) := r.field i
    let f := s.func r.fn
    let h := BitVec.ofNat 64 (a 0)
    (a 0 % 4096 = 0 → isPow2 (a 1) = true → 4096 ≤ a 1 → a 1 ≤ 2 ^ 20 → exec (.openRpc r) s =
      .next (reply (s.modFunc r.fn fun f => { f with opened := true, ringVa := a 0, ringSz := a 1, written := 0, racked := 0 }) r 0 0))
    ∧ (f.opened = false → ∀ i ∈ [Instr.rackRpc r, .capsRpc r, .contextRpc r, .contextTeardown r, .launchRpc r, .levelRpc r, .cancelRpc r, .tlbiRpc r,
        .departRpc r, .raiseRpc r, .windowRpc r, .handleRpc r, .revokeRpc r, .agentReplyRpc r, .telemetryRpc r, .quoteRpc r, .quiesceRpc r, .adoptRpc r],
      exec i s = .next (reply s r 2 0))
    ∧ (f.opened = true →
      (∀ n, f.replies = [] → f.racked ≤ n → n < f.racked + 2 ^ 64 → a 0 % 2 ^ 64 = n % 2 ^ 64 →
        (n ≤ f.written → exec (.rackRpc r) s = .next (s.modFunc r.fn fun f => { f with racked := n }))
        ∧ (f.written < n → ∃ t, exec (.rackRpc r) s = .next t ∧ SameMemory s t ∧ (t.func r.fn).racked = f.racked))
      ∧ (∀ c, ownCtx s r.fn (a 0) = some c →
        exec (.capsRpc r) s = .next (replyVals s r [c.capbase.toNat])
        ∧ exec (.departRpc r) s = .next (reply (s.due (.departRequest c.id (a 1 % 2 ^ 61))) r 0 0)
        ∧ ∃ t, exec (.tlbiRpc r) s = .next (reply t r 0 0) ∧ SameMemory s t
          ∧ ∀ k < 512, ∀ e, e ∈ (t.core k).tlb ↔ e ∈ (s.core k).tlb ∧ ¬ (e.ctx = c.id ∧ e.va < a 1 + a 2 ∧ a 1 < e.va + e.size))
      ∧ (ownCtx s r.fn (a 0) = none → exec (.capsRpc r) s = .next (reply s r 1 (r.offset 0)))
      ∧ (∀ w : Machine.Window, a 0 < 16 → a 1 ≠ 0 → isPow2 (a 3) = true → 65536 ≤ a 3 → a 2 % a 3 = 0 → a 2 + a 3 ≤ apertureBytes r.fn →
        (∀ i < 16, i ≠ a 0 → let x := Sparse.get Machine.Window.none f.windows i; x.size = 0 ∨ a 2 + a 3 ≤ x.off ∨ x.off + x.size ≤ a 2) →
        (ownCtx s r.fn (a 4)).isSome = true →
        w = { off := a 2, size := a 3, ctx := a 4, va := a 5, rd := a 6 % 2 == 1, wr := a 7 % 2 == 1, left := none } →
        ∃ t, exec (.windowRpc r) s = .next (reply t r 0 0) ∧ SameMemory s t ∧ Sparse.get Machine.Window.none (t.func r.fn).windows (a 0) = w)
      ∧ (a 1 = 0 → a 0 < 16 → (Sparse.get Machine.Window.none f.windows (a 0)).size ≠ 0 → ∃ t, exec (.windowRpc r) s = .next t
        ∧ let x := Sparse.get Machine.Window.none (t.func r.fn).windows (a 0); x.size = 0 ∨ x.left.isSome = true)
      ∧ (a 0 = 3 ∧ a 2 % 256 = 0 ∨ a 0 = 4 → (ownCtx s r.fn (a 1)).isSome = true → freeHandle f < 2 ^ 27 → ∃ t e, exec (.handleRpc r) s =
          .next (reply t r 0 0 (bytesOfNat 8 (remoteHandle s r.fn e).toNat)) ∧ SameMemory s t ∧ e ∈ (t.func r.fn).handles ∧ e.kind = a 0
          ∧ e.ctx = a 1 ∧ e.va = a 2 ∧ e.rights = a 4 % 16 ∧ e.cookie = BitVec.ofNat 64 (a 5) ∧ e.hid = freeHandle f
          ∧ e.gen = f.genOf (freeHandle f))
      ∧ (hFunc h = r.fn → ∀ e, s.handle? h = some e →
        (raisesUnderWay s = false → exec (.revokeRpc r) s = .next (reply (s.modFunc r.fn fun f =>
            { f with handles := f.handles.map fun x => if x.hid = hId h then { x with gen := (x.gen + 1) % 65536 } else x }) r 0 0))
        ∧ (e.kind = 3 → a 1 < 64 → exec (.raiseRpc r) s = .next (s.dueAgain (.raiseDecision
            { ctx := e.ctx, va := BitVec.ofNat 64 e.va, vec := a 1, pay := BitVec.ofNat 64 (a 2), cls := 1, func := r.fn, modid := 0,
              sctx := r.chan, launch := 0, waiter := none, reply := some (r.fn, r.tag, r.chan), fab := none }))))
      ∧ (s.handle? h = none → exec (.raiseRpc r) s = .next (reply s r 4 0)
        ∧ (raisesUnderWay s = false → exec (.revokeRpc r) s = .next (reply s r 4 0)))
      ∧ (raisesUnderWay s = true → exec (.revokeRpc r) s = .next (s.due (.revokeRpc r)))
      ∧ (let b := BitVec.ofNat 64 (a 1)
        (s.handle? b).isSome = true → hFunc b = r.fn → (a 0, b) ∈ f.agent → exec (.agentReplyRpc r) s =
          .next (reply (s.modFunc r.fn fun f => { f with
            agent := f.agent.filter (· != (a 0, b)), agentDone := f.agentDone ++ [(a 0, b, 0)],
            handles := f.handles.map fun x => if x.hid = hId b then { x with cookie := BitVec.ofNat 64 (a 2) } else x }) r 0 0))
      ∧ ((∀ x ∈ descChecks s r.fn (a 1), x.2 = false) → arenaMapped s (ctxOf (a 1)) = true →
        exec (.contextRpc r) s = .next (reply { s with ctxs := s.ctxs ++ [ctxOf (a 1)] } r 0 0))
      ∧ (∀ c, ownCtx s r.fn (a 1) = some c →
        (tornDown s c = true → ∃ t, exec (.contextTeardown r) s = .next (reply t r 0 0) ∧ SameMemory s t ∧ t.ctx? c.id = none
          ∧ ∀ k < 512, ∀ e ∈ (t.core k).tlb, e.ctx ≠ c.id)
        ∧ (tornDown s c = false → ∃ t, exec (.contextTeardown r) s = .next t ∧ .contextTeardown r ∈ t.agenda
          ∧ ∀ e ∈ c.res, e.2.state = .resident ∨ e.2.state = .admitting ∨ (e.2.state = .departing ∧ e.2.forced = false) → .departure c.id e.1 true ∈ t.agenda)))

/-- R333 to R340, R415, R416: launches, levels, cancellation, and the move of a launch.
The numbering of fields is the model's (log 12), and so are the place of a record and what QUIESCE and ADOPT refuse (log 42). -/
def Obligations.BenchRpcs : Prop :=
  ∀ (s : State) (r : Rpc), (s.func r.fn).opened = true →
    let a (i : Nat) := r.field i
    let l := Launch.parse r.fn (r.bytes 16 4) fun off n => r.bytes (32 + off) n
    ((ownCtx s r.fn l.ctx).isSome = true → r.bytes 20 12 = 0 → (∀ x ∈ packetChecks s l (fun off n => r.bytes (32 + off) n), x.2 = false) →
      (inBench s r.fn < 4096 → ∃ t, exec (.launchRpc r) s = .next (reply t r 0 0) ∧ SameMemory s t ∧ t.launches = s.launches ++ [l.seen s])
      ∧ (4096 ≤ inBench s r.fn → exec (.launchRpc r) s = .next (reply s r 6 0)))
    ∧ (1 ≤ a 0 → a 0 ≤ 3 → a 1 ≠ 0 → a 1 < 2 ^ 48 → s.level? r.fn (a 0) (a 1) = none → a 2 ≠ 0 → a 2 < 2 ^ 32 → a 3 % 8 = 0 → a 4 = 0 →
      (a 3 = 0 ∨ (ownCtx s r.fn (a 5)).isSome = true) → (s.levels.filter fun l => l.fn == r.fn).length < 4096 →
      ∃ t p, exec (.levelRpc r) s = .next (reply t r 0 0) ∧ SameMemory s t ∧ t.level? r.fn (a 0) (a 1) = some p ∧ p.m = a 2 ∧ p.got = 0
        ∧ p.counter = a 2 ∧ p.signal = a 3 ∧ p.ctx = a 5 ∧ p.failed = false ∧ p.cancelled = false)
    ∧ (a 0 = 0 →
      (s.launch? r.fn (a 1) = none → exec (.cancelRpc r) s = .next (reply s r 0 0))
      ∧ (∀ m, s.launch? r.fn (a 1) = some m → m.live = true → ∃ t, exec (.cancelRpc r) s = .next (reply t r 0 0)
        ∧ (∀ m', t.launch? r.fn (a 1) = some m' → m'.state = .cancelled ∧ m'.failed = true)
        ∧ ∀ u ∈ unitsOf s m, ((∀ x ∈ unitsOf s m, x.key = u.key → x.unrestored = false) →
            ∃ u', t.unit? u.key = some u' ∧ u'.halted = true ∧ u'.ending = some 0x4001A)
          ∧ (u.unrestored = true → t.unit? u.key = none)))
    ∧ (∀ m, s.launch? r.fn (a 0) = some m → m.live = true → m.record = none → m.unissued.length ≤ 16 →
      (unitsOf s m ≠ [] → (∃ c, s.ctx? m.ctx = some c) → ∃ t m', exec (.quiesceRpc r) s = .next t ∧ .quiesceRpc r ∈ t.agenda ∧ t.launch? r.fn (a 0) = some m' ∧ m'.held = true)
      ∧ (∀ c o, quiesceWaits s m = false → s.ctx? m.ctx = some c →
        lowestFit (heldSaves s m.ctx) (up256 (recordBytes m c.arena).length) c.arenaN = some o →
        ∃ t m', exec (.quiesceRpc r) s = .next (replyVals t r [c.arena + o]) ∧ t.launch? r.fn (a 0) = some m' ∧ m'.held = true
          ∧ m'.record = some (o, up256 (recordBytes m c.arena).length)))
    ∧ (let p := Launch.parse r.fn (a 0) (adoptField r)
      let held := s.launches.find? fun x => x.fn == p.fn && x.lid == p.lid && x.held && x.record.isSome
      ∀ c, ownCtx s r.fn p.ctx = some c →
      let rd : Rd := fun off n => (sysRead s c (a 2 + off) n).getD 0
      (∀ x o, held = some x → x.shape = p.shape → x.ctx = p.ctx → x.record = some o → c.arena + o.1 = a 2 →
        let goes (q : Launch) := ∃ t, exec (.adoptRpc r) s = .next (reply t r 0 0) ∧ SameMemory s t
          ∧ t.launch? p.fn p.lid = some { q with held := false, record := none, state := .active }
          ∧ (q.localptr = true → ∀ y, t.ctx? q.ctx = some y → y.localptr = true)
        (heldImagesOk s c x = false → exec (.adoptRpc r) s = .next (reply s r 1 (r.offset 2)))
        ∧ (heldImagesOk s c x = true → x.state = .active → goes x)
        ∧ (∀ q pre, heldImagesOk s c x = true → x.state ≠ .active → bindEndpoint s x = some q → readArgs s q = some pre →
          goes { q with pre := pre, ranges := (List.range 8).map fun d => (q.n * d / 8, q.n * (d + 1) / 8) }))
      ∧ (let counted := rd 8 8 + ((List.range (min 16 (rd 16 4))).map fun i => rd (40 + 16 * i) 8 - rd (32 + 16 * i) 8).sum + rd 20 4
        held = none → (∀ y ∈ packetChecks s p (adoptField r), y.2 = false) → inBench s r.fn < 4096 → rd 0 8 ≠ p.lid ∨ counted ≠ p.n →
        exec (.adoptRpc r) s = .next (reply s r 1 (r.offset 2)))
      ∧ (∀ vs q pre, held = none → (∀ y ∈ packetChecks s p (adoptField r), y.2 = false) → inBench s r.fn < 4096 → rd 0 8 = p.lid →
        countsAll rd p.n = true → adoptUnits s c p rd = some vs → bindEndpoint s p = some q → readArgs s q = some pre → (adopted s q rd vs pre).counter ≠ 0 →
        ∃ t, exec (.adoptRpc r) s = .next (reply t r 0 0) ∧ SameMemory s t ∧ t.launches = s.launches ++ [adopted s q rd vs pre]))

/-- R347, R380, R386, R388, R401 to R404, R406, R409, R411, R414: what the physical function does to the module; another function is
refused with PRIV, but for telemetry and quotes.
The numbering of fields (log 12), a piece outside a switch (log 42) and the place of the capability list (log 15) are the model's. -/
def Obligations.ModuleRpcs : Prop :=
  ∀ (s : State) (r : Rpc), (s.func r.fn).opened = true →
    let a (i : Nat) := r.field i
    (r.fn ≠ 0 → ∀ i ∈ [Instr.qtableRpc r, .poolrangeRpc r, .phaseRpc r, .powerRpc r, .fwloadRpc r, .fwswitchRpc r, .fwcommitRpc r, .coresetRpc r],
      exec i s = .next (reply s r 2 0))
    ∧ (a 0 = 0 → exec (.telemetryRpc r) s = .next (reply s r 0 0 (modulePage s)))
    ∧ (1 ≤ a 0 → a 0 ≤ 8 → exec (.telemetryRpc r) s = .next (reply s r 0 0 (diePage s (a 0 - 1))))
    ∧ (8 < a 0 → exec (.telemetryRpc r) s = .next (reply s r 1 (r.offset 0)))
    ∧ (let q := quoteBody s (bytesOfNat 32 (a 0))
      exec (.quoteRpc r) s = .next (reply s r 0 0 (q ++ sm2Sign q ++ Config.certChain.flatMap fun c => bytesOfNat 4 c.length ++ c)) ∧ (sm2Sign q).length = 64)
    ∧ (r.fn = 0 →
      (let table := (List.range 32).map fun i => quantumOf (bits (a 0) (64 * i + 63) (64 * i));
        (s.quanta.any (Quantum.ok s) = true → s.tenant ≠ none → exec (.qtableRpc r) s = .next (reply { s with quantaNext := some table } r 0 0))
        ∧ (s.quanta.any (Quantum.ok s) = false ∨ s.tenant = none → ∃ t, exec (.qtableRpc r) s = .next (reply t r 0 0) ∧ SameMemory s t
          ∧ t.quanta = table ∧ t.quantaNext = none ∧ ((∀ q ∈ table, Quantum.ok s q = false) → t.tenant = some 0)))
      ∧ (a 0 < 64 → (poolRangeOf (a 1)).base % 2 ^ 28 = 0 → (poolRangeOf (a 1)).size % 2 ^ 28 = 0 → (poolRangeOf (a 1)).hpa % 2 ^ 28 = 0 →
        bits (a 1) 252 224 = 0 →
        (∀ j < 64, j ≠ a 0 → let q := s.pools.getD j PoolRange.none
          q.valid = false ∨ q.base + q.size ≤ (poolRangeOf (a 1)).base ∨ (poolRangeOf (a 1)).base + (poolRangeOf (a 1)).size ≤ q.base) →
        ∃ t, exec (.poolrangeRpc r) s = .next (reply t r 0 0) ∧ SameMemory s t ∧ t.pools.getD (a 0) PoolRange.none = poolRangeOf (a 1)
          ∧ ∀ j < 64, j ≠ a 0 → t.pools.getD j PoolRange.none = s.pools.getD j PoolRange.none)
      ∧ (a 0 = 0 → (∀ q ∈ s.outReqs, q.dst = s.ident) → exec (.phaseRpc r) s = .next (reply { s with phasing := true } r 0 0))
      ∧ (a 0 = 0 → (∃ q ∈ s.outReqs, q.dst ≠ s.ident) →
        exec (.phaseRpc r) s = .next ({ s with phasing := true }.due (.phaseRpc r)))
      ∧ (a 0 ≠ 0 → ∃ t, exec (.phaseRpc r) s = .next (reply t r 0 0) ∧ SameMemory s t ∧ t.phasing = false
        ∧ (∀ i < a 2, Sparse.get 0 t.routes i = bits (a 1) (32 * i + 31) (32 * i)) ∧ ∀ p ∈ t.ports, p.rate = 112)
      ∧ (800 ≤ a 0 → a 0 ≤ 3200 → exec (.powerRpc r) s = .next (replyVals { s with limit := a 0 } r [a 0]))
      ∧ (a 0 < 800 ∨ 3200 < a 0 → exec (.powerRpc r) s = .next (reply s r 1 (r.offset 0)))
      ∧ (a 0 < 8 → a 1 < 64 →
        (a 2 = 0 → ∃ t, exec (.coresetRpc r) s = .next (replyVals t r [(t.die (a 0)).fence.toNat]) ∧ SameMemory s t
          ∧ (∀ k, (t.die (a 0)).fence.getLsbD k = ((s.die (a 0)).fence.getLsbD k || k == a 1))
          ∧ ∀ u ∈ userUnits s (64 * a 0 + a 1), s.unit? u.key = some u → u.ending = none →
            (u.unrestored = false → ∃ u', t.unit? u.key = some u' ∧ u'.vacating = true)
            ∧ (u.unrestored = true → SentBack t u.key))
        ∧ (a 2 = 1 → ∃ t, exec (.coresetRpc r) s = .next (replyVals t r [(t.die (a 0)).fence.toNat]) ∧ SameMemory s t ∧ t.units = s.units
          ∧ ∀ k, (t.die (a 0)).fence.getLsbD k = ((s.die (a 0)).fence.getLsbD k && k != a 1)))
      ∧ (s.switching = none → a 1 ≤ 4032 →
        let ps := (if s.loadNew then [] else s.loading) ++ [(a 0, bytesOfNat (a 1) (a 2))]
        exec (.fwloadRpc r) s = .next (replyVals
          { s with loading := ps, loadNew := false, banks := s.banks.set (1 - s.active) { image := assemble ps } } r [bytesHeld ps]))
      ∧ (s.switching = none →
        let t := publish { s with switching := some (r.fn, r.tag, r.chan), loadNew := true } (1 - s.active)
        let list := capBytes 0 (capEntries s (1 - s.active))
        exec (.fwswitchRpc r) s = .next (if (s.bank (1 - s.active)).valid s.rollback then t else reply s r 1 0)
        ∧ t.switching = some (r.fn, r.tag, r.chan) ∧ t.active = s.active ∧ t.capGen = s.capGen + 1
        ∧ t.rdBytes 0 (capabilityAddr (s.capGen + 1)) list.length = list
        ∧ capabilityAddr (s.capGen + 1) % 16 = 0)
      ∧ (let n := (s.bank s.active).svn
        (s.rollback ≤ n → exec (.fwcommitRpc r) s = .next (replyVals { s with rollback := n } r [n]))
        ∧ (n < s.rollback → exec (.fwcommitRpc r) s = .next (reply s r 1 0))))

/-! ## The ordering point, the fabric, and power -/

/-- R367, R376 to R378, R381 to R383, R394: inbound writes and reads, the resync slot, and the reset of a function.
Which inputs arrive is not the machine's (log 65), and that an inbound AtomicOp is one step on aligned bytes of a window that may be read and
written, by the operations of `hostAtomicNew`, is the model's choice (log 20). -/
def Obligations.HostPortSteps : Prop :=
  ∀ (s : State) (fn : Nat),
    let f := s.func fn
    (∀ off, (f.stopped = false → exec (.resync fn off) s = .next s)
      ∧ (f.stopped = true → ∃ t, exec (.resync fn off) s = .next (notice t fn 0x84 [(t.func fn).consumed]) ∧ SameMemory s t
        ∧ (t.func fn).stopped = false ∧ (t.func fn).frame = [] ∧ (t.func fn).consumed % 65536 = off % 65536
        ∧ f.consumed ≤ (t.func fn).consumed ∧ (t.func fn).consumed < f.consumed + 65536))
    ∧ (∀ w : Inbound, w.fn = fn →
      (f.enabled = false → exec (.inboundWrite w) s = .next s)
      ∧ (f.enabled = true → w.data ≠ [] → (∀ e ∈ f.inflight, e.seq ≠ f.seq) →
        let win := if w.msg then none else windowOf f w.off w.data.length
        ((w.msg || !w.ro) = true → f.inflight ≠ [] → exec (.inboundWrite w) s = .next (s.modFunc fn fun f =>
          { f with seq := f.seq + 1, inflight := f.inflight ++ [{ seq := f.seq, w := w, held := true, win := win, pieces := [] }] }))
        ∧ ((w.msg || !w.ro) = false ∨ f.inflight = [] →
          (∀ ps, inboundPieces s w win = .ok ps → ps ≠ [] → ∃ t, exec (.inboundWrite w) s = .next t ∧ SameMemory s t
            ∧ (t.func fn).inflight = f.inflight ++ [{ seq := f.seq, w := w, held := false, win := win, pieces := ps }]
            ∧ ∀ p ∈ ps, .routeAck fn f.seq p.route ∈ t.agenda)
          ∧ ∀ code, inboundPieces s w win = .error code → ∃ t, exec (.inboundWrite w) s = .next (notice t fn 0x85 [w.off, code])
            ∧ SameMemory s t ∧ (t.func fn).inflight = f.inflight)))
    ∧ (∀ seq q e, (f.inflight.find? fun e => e.seq == seq && e.by q) = some e →
      (f.inflight.any (fun x => x.seq < seq && x.by q) = true → exec (.routeAck fn seq q) s = .next (s.due (.routeAck fn seq q)))
      ∧ (f.inflight.any (fun x => x.seq < seq && x.by q) = false → e.w.fn = fn → (∀ x ∈ f.inflight, x.seq = seq → x = e) →
        ∀ p, (e.pieces.find? fun p => p.route == q) = some p →
        let after (t : State) : Prop := (e.pieces = [p] → ∀ x ∈ (t.func fn).inflight, x.seq ≠ seq)
          ∧ (e.pieces ≠ [p] → { e with pieces := e.pieces.erase p } ∈ (t.func fn).inflight)
        (e.w.msg = true → f.stopped = false → e.w.off < 0x10000 → e.w.off = (f.consumed + f.frame.length) % 65536 →
          ∃ t, exec (.routeAck fn seq q) s = .next t ∧ SameMemory s t ∧ (t.func fn).frame = f.frame ++ e.w.data.take (0x10000 - e.w.off) ∧ after t)
        ∧ (∀ x, e.w.msg = false → e.win = some x → (∀ y ∈ p.cells, y.1 < 4 ∧ isPtr y.2.2.1 = false) →
          ∃ t, exec (.routeAck fn seq q) s = .next t ∧ after t
            ∧ (∀ sp < 4, ∀ a, (∀ y ∈ p.cells, y.1 ≠ sp ∨ y.2.1 ≠ a) → t.rd sp a = s.rd sp a)
            ∧ ∀ y ∈ p.cells, (∀ z ∈ p.cells, z.1 = y.1 → z.2.1 = y.2.1 → z = y) → t.rd y.1 y.2.1 = y.2.2.2)))
    ∧ (∀ e rest ps, f.inflight = e :: rest → e.held = true → (∀ x ∈ rest, x.seq ≠ e.seq) → inboundPieces s e.w e.win = .ok ps → ps ≠ [] →
      ∃ t, exec (.heldWriteRelease fn e.seq) s = .next t ∧ SameMemory s t ∧ (t.func fn).inflight = { e with held := false, pieces := ps } :: rest
        ∧ ∀ p ∈ ps, .routeAck fn e.seq p.route ∈ t.agenda)
    ∧ (∀ off n label, f.enabled = true →
      let read : ReadReq := { label := label, rmw := none }
      let r := f.readAt off n label
      let others := f.reads.filter fun r => r.label != label
      let done (st : Nat) (bs : List Byte) := s.modFunc fn fun f =>
        { f with completions := f.completions ++ [{ fn := fn, label := label, status := st, data := bs }], reads := others }
      exec (.inboundRead fn true off n read) s = .next (done 0 (List.replicate n 0xFF))
      ∧ (∀ rmw, f.inflight.any (·.seq < r.seq) = true → exec (.inboundRead fn false off n { label := label, rmw := rmw }) s
        = .next ((s.modFunc fn fun f => { f with reads := others ++ [r] }).due (.inboundRead fn false off n { label := label, rmw := rmw })))
      ∧ (f.inflight.any (·.seq < r.seq) = false →
        (r.win = none → exec (.inboundRead fn false off n read) s = .next (done 1 []))
        ∧ (∀ x c ps, r.win = some x → s.ctx? x.ctx = some c → x.rd = true →
          ((List.range n).mapM fun i => sysLand s c (x.va + (off - x.off) + i) 1 false) = .ok ps →
          (∀ p ∈ ps, p.1 = 0 ∨ p.1 = 3 → Sparse.get false s.badCrc (crcKey p.1 p.2) = false) →
          exec (.inboundRead fn false off n read) s = .next (done 0 (ps.map fun p => s.rd p.1 p.2)))
        ∧ (∀ x c m p a, r.win = some x → s.ctx? x.ctx = some c → x.rd = true → x.wr = true → n ≠ 0 → (x.va + (off - x.off)) % n = 0 →
          isPtr (x.va + (off - x.off)) = false → sysLand s c (x.va + (off - x.off)) n true = .ok (m, p) → m < 4 → s.spoilt m p n = false →
          ∃ t, exec (.inboundRead fn false off n { label := label, rmw := some a }) s = .next t
            ∧ (t.func fn).completions = f.completions ++ [{ fn := fn, label := label, status := 0, data := s.rdBytes m p n }]
            ∧ t.rdN m p n = hostAtomicNew a n (s.rdN m p n) ∧ ∀ sp < 4, ∀ i, sp ≠ m ∨ i < p ∨ p + n ≤ i → t.rd sp i = s.rd sp i)))
    ∧ (1 ≤ fn → fn < 32 → ∃ t, exec (.functionReset fn) s = .next t ∧ (t.func fn).opened = false ∧ (t.func fn).stopped = false
      ∧ (t.func fn).frame = [] ∧ (t.func fn).agent = [] ∧ (t.func fn).agentDone = f.agentDone ++ f.agent.map (fun x => (x.1, x.2, 5))
      ∧ (t.func fn).hgen = (f.hgen + 1) % 65536 ∧ (t.func fn).handles = (f.handles.map fun h => { h with gen := (h.gen + 1) % 65536 })
      ∧ (∀ u agent m, s.unit? u.key = some u → u.key.fn = fn → (∀ x ∈ s.units, x.key = u.key → x.unrestored = false) →
        u.cmd? agent = some m → (∀ x ∈ u.cmds, x.1 = agent → x.2 = m) → m.remote = true →
        m.copies = true → m.state ≠ .done → ∃ u' m', t.unit? u.key = some u' ∧ u'.cmd? agent = some m' ∧ m'.state = .done
          ∧ m'.status = statusWord St.RESET 0) ∧ (∀ q ∈ t.outReqs, q.fn = fn → q.orphan = true)
      ∧ ∀ l, s.launch? fn l.lid = some l → l.live = true → ∀ l', t.launch? fn l.lid = some l' → l'.state = .cancelled ∧ l'.failed = true)

namespace Sys2Proof.Claims

/-- A message to module `dst` with `n` bytes of data leaves by the port of that module where the channel has the flits, and its flits are
counted; where no port is up, or the channel has too few, it waits in transit (R388, R389). -/
def Leaves (s t : State) (m : FabMsg) (dst : Nat) (rep : Bool) (n : Nat) : Prop :=
  let chan (x : State) (p : Nat) := (x.ports.getD p .start).chan rep
  (s.routePort dst = none → t.transit = s.transit ++ [m])
  ∧ ∀ p, s.routePort dst = some p →
    ((chan s p).allowance < flits n → t.transit = s.transit ++ [m])
    ∧ (flits n ≤ (chan s p).allowance → t.transit = s.transit ∧ (chan t p).sent = ((chan s p).sent + flits n) % 2 ^ 32)

/-- A request is answered in the name of module `by_`: its source, where it is this module, takes the reply in a step that is due; to another
module the reply leaves. -/
def Answered (s t : State) (r : FabReq) (by_ code : Nat) (bs : List Byte) : Prop :=
  let a : FabReply := { fn := r.srcFn, dst := by_, id := r.id, code := code, data := bs, dest := r.srcMod }
  (r.srcMod = s.ident → .fabricReply a ∈ t.agenda) ∧ (r.srcMod ≠ s.ident → Leaves s t (.rep a) r.srcMod true bs.length)

end Sys2Proof.Claims

/-- R385, R386, R389 to R393, R405: requests of this module and of others, replies, resends and credits of the fabric, and the links of ports.
Flits are counted by a free value (log 29). -/
def Obligations.FabricSteps : Prop :=
  ∀ (s : State),
    (∀ r : FabReq, s.moduleOf r.dst = s.ident → belowAck r.id r.lowack = false →
      belowAck r.lowack (Sparse.get 0 s.lowack (srcKey r.srcMod r.srcFn)) = false →
      let known := s.seen.find? fun x => (x.srcMod == r.srcMod && x.srcFn == r.srcFn) && x.id == r.id
      let answer (t : State) (code : Nat) (bs : List Byte) := Answered s t r s.ident code bs
      (known = none → s.handle? r.handle = none → (∀ k, r.kind ≠ .depart k) →
        ∃ t, exec (.fabricRequest r) s = .next t ∧ SameMemory s t ∧ answer t St.STALEHANDLE [])
      ∧ (∀ h c, known = none → s.handle? r.handle = some h → h.kind = 4 → s.ctx? h.ctx = some c →
        (∀ p : Nat → Place, r.kind = .read → h.rights.testBit 0 = true → r.off + r.len ≤ h.len → s.who r = none →
          (∀ i < r.len, sysPlace s c (h.va + r.off + i) 1 false = .ok (p i) ∧ s.spoilt (p i).sp (p i).a (inBlock (p i).a (r.len - i + r.rest)) = false
            ∧ ((p i).sp % 3 = 0 → Sparse.get false s.badCrc (crcKey (p i).sp (p i).a) = false)) →
          ∃ t, exec (.fabricRequest r) s = .next t ∧ SameMemory s t ∧ answer t 0 ((List.range r.len).map fun i => s.rd (p i).sp (p i).a))
        ∧ (∀ b m p, r.kind = .write → r.data = [b] → s.who r = none → h.rights.testBit 1 = true → r.off + 1 ≤ h.len →
          sysLand s c (h.va + r.off) 1 true = .ok (m, p) → m < 4 → isPtr (h.va + r.off) = false →
          ∃ t, exec (.fabricRequest r) s = .next t ∧ t.rd m p = b ∧ (∀ sp < 4, ∀ i, (sp, i) ≠ (m, p) → t.rd sp i = s.rd sp i) ∧ answer t 0 [])
        ∧ (r.kind = .write → h.rights.testBit 1 = false → ∃ t, exec (.fabricRequest r) s = .next t ∧ SameMemory s t ∧ answer t St.PERM []))
      ∧ (∀ h, known = none → s.handle? r.handle = some h → (h.kind ≠ 4 ∧ (∀ k, r.kind ≠ .depart k) ∧ r.kind ≠ .raise ∧ ∀ fn ty, r.kind ≠ .atomic fn ty) →
        ∃ t, exec (.fabricRequest r) s = .next t ∧ SameMemory s t ∧ answer t St.STALEHANDLE [])
      ∧ (∀ x, known = some x → x.done = true → r.kind ≠ .read → ∃ t, exec (.fabricRequest r) s = .next t ∧ SameMemory s t ∧ answer t x.code x.data)
      ∧ (∀ x, known = some x → x.done = false → ∃ t, exec (.fabricRequest r) s = .next t ∧ SameMemory s t ∧ t.agenda = s.agenda))
    ∧ (∀ r : FabReq, s.moduleOf r.dst ≠ s.ident →
      (r.hops ≤ 1 ∨ s.hopLimit r.dst = 0 → ∃ t, exec (.fabricRequest r) s = .next t ∧ SameMemory s t
        ∧ Answered s t r r.dst St.REMOTEDOWN [])
      ∧ (1 < r.hops → s.hopLimit r.dst ≠ 0 → ∃ t, exec (.fabricRequest r) s = .next t ∧ SameMemory s t
        ∧ Leaves s t (.req { r with hops := r.hops - 1 }) r.dst false r.data.length))
    ∧ (∀ r : FabReply, s.moduleOf r.dest ≠ s.ident → ∃ t, exec (.fabricReply r) s = .next t ∧ SameMemory s t
      ∧ Leaves s t (.rep r) r.dest true r.data.length)
    ∧ (∀ r : FabReply, s.moduleOf r.dest = s.ident →
      (s.outReq? r.fn r.dst r.id = none → ∃ t, exec (.fabricReply r) s = .next t ∧ SameMemory s t ∧ t.absorbed = s.absorbed + 1 ∧ t.units = s.units)
      ∧ (∀ q, s.outReq? r.fn r.dst r.id = some q → answerWaits s q = false →
        (q.orphan = true → ∃ t, exec (.fabricReply r) s = .next t ∧ SameMemory s t ∧ t.absorbed = s.absorbed + 1 ∧ t.outReq? r.fn r.dst r.id = none)
        ∧ (∀ k agent off u m, q.orphan = false → q.what = .cmd k agent off → r.data = [] → s.unit? k = some u → u.cmd? agent = some m →
          m.state = .started → m.sent = [(q.req.id, off)] → m.got = [] → m.back = [] → statusCode m.status = 0 →
          let ends (st : DWord) := ∃ t u' m', exec (.fabricReply r) s = .next t ∧ SameMemory s t ∧ t.unit? k = some u' ∧ u'.cmd? agent = some m'
            ∧ m'.state = .done ∧ m'.status = st
          (r.code ≠ 0 → statusCode (pieceStatus r off) ≠ 0 → ends (pieceStatus r off))
          ∧ (r.code = 0 → m.size ≤ m.prog → ends (statusWord 0 m.total)))))
    ∧ (∀ fn dst id, (s.outReq? fn dst id = none → exec (.resendTimeout fn dst id) s = .next s)
      ∧ (∀ q, s.outReq? fn dst id = some q → q.sent = true → dst ≠ s.ident → answerWaits s q = false →
        (q.req.attempt < 7 → ∃ t q', exec (.resendTimeout fn dst id) s = .next t ∧ SameMemory s t ∧ t.outReq? fn dst id = some q'
          ∧ q'.req.attempt = q.req.attempt + 1 ∧ q'.what = q.what)
        ∧ (7 ≤ q.req.attempt → q.orphan = true → ∃ t, exec (.resendTimeout fn dst id) s = .next t ∧ SameMemory s t ∧ t.outReq? fn dst id = none
          ∧ (fn, dst, id) ∈ t.unack)))
    ∧ (∀ (port : Nat) (p : Port), s.ports[port]? = some p →
      let now (t : State) (c : Port → Prop) := ∃ p', t.ports[port]? = some p' ∧ c p'
      (∃ t, exec (.creditReport port 0) s = .next t ∧ SameMemory s t ∧ now t fun p' => p'.req.reported = p.req.freed ∧ p'.rep = p.rep)
      ∧ (∃ t, exec (.creditReport port 1) s = .next t ∧ SameMemory s t ∧ now t fun p' => p'.rep.reported = p.rep.freed ∧ p'.req = p.req)
      ∧ (∀ sent freed, (∀ q ∈ s.outReqs, q.sent = true) → s.transit = [] →
        ∃ t, exec (.creditReportReceived port 0 sent freed) s = .next t ∧ SameMemory s t ∧ now t fun p' => p'.rep = p.rep
          ∧ ((p.req.sent + 2 ^ 32 - freed % 2 ^ 32) % 2 ^ 32 < 2 ^ 31 → p'.req.peerFreed = freed % 2 ^ 32 ∧ p'.req.peerSent = sent % 2 ^ 32)
          ∧ (2 ^ 31 ≤ (p.req.sent + 2 ^ 32 - freed % 2 ^ 32) % 2 ^ 32 → p'.req = p.req))
      ∧ (∃ t, exec (.rateStepDown port) s = .next t ∧ SameMemory s t ∧ now t fun p' =>
        (p.rate = 112 → p'.rate = 100) ∧ (p.rate = 100 → p'.rate = 84) ∧ (p.rate = 84 → p'.rate = 56) ∧ (p.rate = 56 → p'.rate = 0)
        ∧ (p.rate ∈ [84, 100, 112] → p'.downs = min 255 (p.downs + 1))))
    ∧ (∀ port < s.poolUp.length,
      (∃ t, exec (.poolLinkDown port) s = .next t ∧ SameMemory s t ∧ t.poolUp[port]? = some false ∧ t.units = s.units)
      ∧ ∃ t, exec (.poolLinkUp port) s = .next t ∧ SameMemory s t ∧ t.poolUp[port]? = some true ∧ t.units = s.units)
    ∧ (∀ line, ∃ t, exec (.poolBackInvalidate line) s = .next t ∧ SameMemory s t ∧ ∀ x, x ∈ t.poolCache ↔ x ∈ s.poolCache ∧ x ≠ line)

/-- R402, R407, R410, R412: emergencies, the patrol scrubber, power-on from the bank that is valid, and the loss of power.
That memory reads as empty after a loss of power and what outlives it are the model's (logs 1 and 2). -/
def Obligations.PowerSteps : Prop :=
  ∀ (s : State),
    (∃ t, exec .emergencyEvent s = .next t ∧ SameMemory s t ∧ t.units = s.units ∧ t.emergency = true ∧ t.emergencies = s.emergencies + 1
      ∧ t.emergencyAt = if s.emergency then s.emergencyAt else s.tick)
    ∧ (s.emergency = true → ∃ t, exec .emergencyClear s = .next t ∧ SameMemory s t ∧ t.units = s.units ∧ t.emergency = false
      ∧ t.stretched = s.stretchedNow ∧ s.stretched ≤ t.stretched)
    ∧ (s.emergency = false → exec .emergencyClear s = .next s)
    ∧ (∀ addr size bad corrected, ∃ t, exec (.patrolScrub addr size bad corrected) s = .next t ∧ SameMemory s t ∧ t.units = s.units
      ∧ (∀ a ∈ bad, addr ≤ a → a < addr + size → t.marked 0 a 1 = true)
      ∧ (addr < markKey 3 0 → t.hbmC = s.hbmC + corrected ∧ s.hbmU ≤ t.hbmU ∧ t.dies = s.dies)
      ∧ (markKey 3 0 ≤ addr → let d := (addr - markKey 3 0) / 2 ^ 22 / 64
        t.hbmC = s.hbmC ∧ t.hbmU = s.hbmU ∧ (t.die d).sramC = (s.die d).sramC + corrected ∧ (s.die d).sramU ≤ (t.die d).sramU))
    ∧ (s.powered = true → exec .powerOn s = .next s)
    ∧ (s.powered = false → exec .powerOn s = .next (match bootBank s with
      | some b => boot { s with onTick := s.tick } b
      | none => { s with powered := true, onTick := s.tick }))
    ∧ (∀ b, let t := boot s b
      t.powered = true ∧ t.booted = true ∧ t.active = b ∧ (∀ f < 32, (t.func f).enabled = true)
      ∧ (∀ c < 512, t.unit? (superKey c) = some (superUnit (s.bank b).image c) ∧ (t.core c).bank = b) ∧ ∀ d < 8, .energyIntervalCredit d ∈ t.agenda)
    ∧ (∃ t, exec .powerLoss s = .next t ∧ t.powered = false ∧ t.units = [] ∧ t.hbm = [] ∧ t.vaults = [] ∧ t.host = s.host ∧ t.pool = s.pool
      ∧ t.banks = s.banks ∧ t.rollback = s.rollback ∧ ∀ i ∈ t.agenda, i = .powerOn)

/-! ## The machine as a whole -/

/-- R63, R64, R77: a step runs what stands at a program counter. Where one group may issue and nothing else is due, the step is `exec` of
the instruction that the bytes at the PC of its highest-ranked ready entry decode to, and then the end of every step; the same for the
second decoder's entry, which comes before any other choice; a step that is due alone is carried out itself. What a step adds around `exec`
is that a walk is due for a page that the TLB does not hold (R374), that the unit is charged a measured energy, a free value (R406, log 5), and
joins the clocks of registers it reads that a trsolve has
written (R169); an opportunity changes of a group only the ages, the skid and the mark of the second decoder's entry.
Which of several due steps comes first is free (log 3); here only one is due. -/
def Obligations.StepRunsDecoded : Prop :=
  ∀ (s : State),
    let runs (s1 : State) (k : UKey) (gid n : Nat) (out : Host.Outcome State Fault Refusal) :=
      ∀ u g e w i, s1.unit? k = some u → u.grp? gid = some g → g.ents[n]? = some e → fetchWord s1 u e.pc 3 = .ok w →
        decode g.grant (isDet s1 u) w = .ok i → vregHeld u g w i = false →
        ∀ s2, s2 = chargeEnd (joinRegs (wordFetched s1 u e.pc) k g w i) k (dieOf u.core) 0 →
          out = close (exec i { s2 with cur := some { u := k, gid := gid, ent := n, word := w } })
          ∧ SameMemory s1 s2
          ∧ ∃ r, s2.unit? k = some { u with energy := u.energy + BitVec.ofNat 64 (Config.measuredEnergy s1.tick), race := r }
            ∧ (s1.tracks = false → r = u.race)
    (∀ k gid u g a rest, s.second = none → choices s = [.issue k gid] → s.unit? k = some u → u.grp? gid = some g → readyEnts s u g = a :: rest →
      let s1 := opportunity s u g (secondEntry s u a rest)
      runs s1 k gid (placeOf g a) (step s) ∧ SameMemory s s1
      ∧ ∃ u1 g1 e1, s1.unit? k = some u1 ∧ u1.grp? gid = some g1 ∧ g1.ents[placeOf g a]? = some e1 ∧ e1.pc = a.pc ∧ e1.mask = a.mask
        ∧ g1.v = g.v ∧ g1.s = g.s ∧ g1.m = g.m ∧ g1.p = g.p ∧ g1.grant = g.grant ∧ g1.ents.map Entry.pc = g.ents.map Entry.pc
        ∧ g1.ents.map Entry.mask = g.ents.map Entry.mask)
    ∧ (∀ k gid n, pendingSecond s = some (k, gid, n) → runs { s with second := none } k gid n (step s))
    ∧ (∀ i, s.second = none → choices s = [.event 0] → s.agenda = [i] → step s = close (exec i { s with agenda := [] }))
    ∧ (s.second = none → choices s = [] → step s = .next (closeStep s))

/-- R63 to R75, R81: words written out from the encoding tables, and what they decode to. -/
def Obligations.DecodeWords : Prop :=
  let op (fn grd hint : Nat) (d a b : Opd) (imm : Nat) : Op := { fn := fn, grd := grd, hint := hint, d := d, a := a, b := b, imm := imm }
  decode 256 false 0x0007008080000210FFFFFFFF = .ok (.iadd (op 0 7 0 (.v 1) (.v 2) (.v 0) 0xFFFFFFFF) { ty := .i32, rm := .rn, rs := false, opnd := 1, sub := 0 })
  ∧ decode 256 false 0x3607020140C006A000000007 = .ok (.ffma (op 0 7 0 (.v 4) (.v 5) (.v 6) 0x7) { ty := .f32, rm := .rz, rs := false, opnd := 2, sub := 0 })
  ∧ decode 256 false 0x7002000000008180FFFFFFFB = .ok (.bra (op 0 2 4 (.v 0) (.v 0) (.v 0) 0xFFFFFFFB) { prio := 12, zero := 0 })
  ∧ decode 256 false 0x800B04C200E006B000000040 = .ok (.ld (op 0 11 0 (.v 9) (.s 8) (.v 7) 0x40) { ty := .f32, ord := 1, scope := 3, space := 0 })
  ∧ decode 256 false 0x840702C200E0071000000000 = .ok (.gld (op 0 7 0 (.v 5) (.s 8) (.v 7) 0x0) { ty := .f32, iw := 2, isgn := false, sc := 2, space := 0 })
  ∧ decode 256 false 0xB00700420000101400000100 = .ok (.ldpl (op 0 7 0 (.v 0) (.s 8) (.v 0) 0x100) { bits := 0x405 })
  ∧ decode 256 false 0xD0078243380001C000001000 = .ok (.cpy (op 0 7 0 (.s 4) (.s 12) (.sp .z) 0x1000) { bits := 0x70 })
  ∧ decode 256 false 0xF40788000000000000000000 = .ok (.sprd (op 0 7 0 (.s 16) (.v 0) (.v 0) 0x0) { bits := 0x0 })

/-- R20, R30 to R34, R410: after reset nothing is placed, no step is due, no function is enabled, no table holds an entry, and the module
has no power; every memory is empty and in its canonical form. Values the manual does not give are the model's own (logs 1, 2 and 18). -/
def Obligations.ResetState : Prop :=
  let s : State := Sys2Proof.core.reset
  s = State.reset ∧ s.memWf ∧ s.units = [] ∧ s.launches = [] ∧ s.ctxs = [] ∧ s.agenda = [] ∧ s.powered = false ∧ s.rollback = 0
  ∧ (∀ f, (s.func f).enabled = false) ∧ (∀ sp a, s.rd sp a = 0) ∧ (∀ c, (s.core c).mbox = [] ∧ (s.core c).tlb = [])
  ∧ (∀ p ∈ s.ports, p.rate = 112) ∧ s.ports.length = 32

/-- R4, R9 and the model's form of memory: every step keeps each memory, and the tables of its marks, canonical. -/
def Obligations.StepKeepsMemWf : Prop :=
  ∀ (s t : State), s.memWf → step s = .next t → t.memWf

/-- R63 to R75, R78, R81: every word that encodes an accepted instruction decodes to it, with every operand. -/
def Obligations.DecodeEncode : Prop :=
  ∀ (grant : Nat) (det : Bool) (i : Instr) (w : Nat), i.wf grant det = true → encode i = some w → w < 2 ^ 96 ∧ decode grant det w = .ok i
end

