-- ==== Sys2Proof/Laws/Sparse.lean ====
section
/-! SUPPORT. Laws of sparse tables: reads after writes, and that every operation keeps the canonical form. -/

namespace Sys2Proof.Sparse

variable {α : Type} {d v : α} {m : Sparse α} {k j lo hi : Nat}

@[simp] theorem get_nil : get d ([] : Sparse α) k = d := rfl

theorem get_erase_same : get d (erase m k) k = d := by
  induction m with
  | nil => rfl
  | cons e m ih =>
    simp only [erase, List.filter_cons] at ih ⊢
    split
    · next h =>
      have : ¬ k = e.1 := fun hk => by simp [hk] at h
      simp [get, this, ih]
    · exact ih

theorem get_erase_ne (hj : j ≠ k) : get d (erase m k) j = get d m j := by
  induction m with
  | nil => rfl
  | cons e m ih =>
    simp only [erase, List.filter_cons] at ih ⊢
    split
    · simp [get, ih]
    · next h =>
      have : ¬ j = e.1 := fun he => by simp at h; omega
      simp [get, this, ih]

theorem get_insert_ne (hj : j ≠ k) : get d (insert m k v) j = get d m j := by
  induction m with
  | nil => simp [insert, get, hj]
  | cons e m ih =>
    simp only [insert]
    split
    · simp [get, hj]
    · simp [get, ih]

theorem get_insert_same : get d (insert (erase m k) k v) k = v := by
  induction m with
  | nil => simp [erase, insert, get]
  | cons e m ih =>
    simp only [erase, List.filter_cons] at ih ⊢
    split
    · next h =>
      have : ¬ k = e.1 := fun hk => by simp [hk] at h
      simp only [insert]
      split
      · simp [get]
      · simp [get, this, ih]
    · exact ih

/-- A read of the key just written. -/
theorem get_set_same [DecidableEq α] : get d (set d m k v) k = v := by
  unfold set
  split
  · next hv => rw [get_erase_same, hv]
  · exact get_insert_same

/-- A write leaves every other key alone. -/
theorem get_set_ne [DecidableEq α] (hj : j ≠ k) : get d (set d m k v) j = get d m j := by
  unfold set
  split
  · exact get_erase_ne hj
  · rw [get_insert_ne hj, get_erase_ne hj]

/-- What a table reads after one write. -/
theorem get_set [DecidableEq α] : get d (set d m k v) j = if j = k then v else get d m j := by
  split
  · next hj => subst hj; exact get_set_same
  · next hj => exact get_set_ne hj

theorem get_filter (p : Nat → Bool) : get d (m.filter fun e => p e.1) j = if p j then get d m j else d := by
  induction m with
  | nil => simp
  | cons e m ih =>
    simp only [List.filter_cons]
    by_cases hj : j = e.1
    · subst hj
      by_cases hp : p e.1 = true
      · simp [hp, get]
      · simp [hp, ih]
    · by_cases hp : p e.1 = true
      · simp [hp, get, hj, ih]
      · simp [hp, get, hj, ih]

theorem get_clear : get d (clear m lo hi) j = if lo ≤ j ∧ j < hi then d else get d m j := by
  unfold clear
  rw [get_filter fun i => !(decide (lo ≤ i) && decide (i < hi))]
  by_cases h : lo ≤ j ∧ j < hi
  · simp [h]
  · have h' : lo ≤ j → hi ≤ j := by omega
    by_cases h1 : lo ≤ j
    · simp [h1, Nat.not_lt.2 (h' h1)]
    · simp [h1]

/-- Reads after a write of consecutive keys. -/
theorem get_setList [DecidableEq α] {vs : List α} :
    get d (setList d m k vs) j = if k ≤ j then (vs[j - k]?).getD (get d m j) else get d m j := by
  induction vs generalizing m k with
  | nil => simp [setList]
  | cons v vs ih =>
    simp only [setList, ih, get_set]
    by_cases h1 : j = k
    · subst h1
      simp
    · by_cases h2 : k + 1 ≤ j
      · have h3 : k ≤ j := by omega
        have h4 : j - k = (j - (k + 1)) + 1 := by omega
        simp [h1, h2, h3, h4]
      · have h3 : ¬ k ≤ j := by omega
        simp [h1, h2, h3]

/-! ## The canonical form -/

theorem wfFrom_mono [DecidableEq α] (h : wfFrom d j m = true) (hk : k ≤ j) : wfFrom d k m = true := by
  cases m with
  | nil => rfl
  | cons e m =>
    simp only [wfFrom, Bool.and_eq_true, decide_eq_true_eq] at h ⊢
    exact ⟨⟨by omega, h.1.2⟩, h.2⟩

theorem filter_wfFrom [DecidableEq α] (p : Nat × α → Bool) (h : wfFrom d lo m = true) : wfFrom d lo (m.filter p) = true := by
  induction m generalizing lo with
  | nil => rfl
  | cons e m ih =>
    simp only [wfFrom, Bool.and_eq_true, decide_eq_true_eq] at h
    simp only [List.filter_cons]
    split
    · simp only [wfFrom, Bool.and_eq_true, decide_eq_true_eq]
      exact ⟨h.1, ih h.2⟩
    · exact wfFrom_mono (ih h.2) (by omega)

theorem insert_wfFrom [DecidableEq α] (h : wfFrom d lo m = true) (hk : lo ≤ k) (hv : v ≠ d) (hn : ∀ e ∈ m, e.1 ≠ k) :
    wfFrom d lo (insert m k v) = true := by
  induction m generalizing lo with
  | nil => simp [insert, wfFrom, hk, hv]
  | cons e m ih =>
    simp only [wfFrom, Bool.and_eq_true, decide_eq_true_eq] at h
    obtain ⟨⟨h1, h2⟩, h3⟩ := h
    have he : e.1 ≠ k := hn e (by simp)
    simp only [insert]
    split
    · next hlt =>
      have : k + 1 ≤ e.1 := by omega
      simp [wfFrom, hk, hv, this, h2, h3]
    · next hlt =>
      simp only [wfFrom, Bool.and_eq_true, decide_eq_true_eq]
      exact ⟨⟨h1, h2⟩, ih h3 (by omega) fun x hx => hn x (by simp [hx])⟩

/-- A write keeps the canonical form. -/
theorem set_wf [DecidableEq α] (h : wf d m = true) : wf d (set d m k v) = true := by
  unfold set
  split
  · exact filter_wfFrom _ h
  · next hv =>
    refine insert_wfFrom (filter_wfFrom _ h) (Nat.zero_le _) hv fun e he => ?_
    have := (List.mem_filter.1 he).2
    simpa using this

/-- Forgetting a range keeps the canonical form. -/
theorem clear_wf [DecidableEq α] (h : wf d m = true) : wf d (clear m lo hi) = true := filter_wfFrom _ h

/-- Writing consecutive keys keeps the canonical form. -/
theorem setList_wf [DecidableEq α] {vs : List α} (h : wf d m = true) : wf d (setList d m k vs) = true := by
  induction vs generalizing m k with
  | nil => exact h
  | cons v vs ih => exact ih (set_wf h)

end Sys2Proof.Sparse
end

