-- ==== Sys2Proof/Laws/State.lean ====
section
/-! SUPPORT. One lemma per field per update of the state: what each update leaves as it was. -/

namespace Sys2Proof.Machine

variable (s : State) (g : Group)

/-! ## `modUnit` -/

@[simp] theorem State.modUnit_hbm (k : UKey) (f : Unit → Unit) : (s.modUnit k f).hbm = s.hbm := rfl
@[simp] theorem State.modUnit_pool (k : UKey) (f : Unit → Unit) : (s.modUnit k f).pool = s.pool := rfl
@[simp] theorem State.modUnit_host (k : UKey) (f : Unit → Unit) : (s.modUnit k f).host = s.host := rfl
@[simp] theorem State.modUnit_vaults (k : UKey) (f : Unit → Unit) : (s.modUnit k f).vaults = s.vaults := rfl
@[simp] theorem State.modUnit_marks (k : UKey) (f : Unit → Unit) : (s.modUnit k f).marks = s.marks := rfl
@[simp] theorem State.modUnit_badCrc (k : UKey) (f : Unit → Unit) : (s.modUnit k f).badCrc = s.badCrc := rfl
@[simp] theorem State.modUnit_cores (k : UKey) (f : Unit → Unit) : (s.modUnit k f).cores = s.cores := rfl
@[simp] theorem State.modUnit_dies (k : UKey) (f : Unit → Unit) : (s.modUnit k f).dies = s.dies := rfl
@[simp] theorem State.modUnit_ctxs (k : UKey) (f : Unit → Unit) : (s.modUnit k f).ctxs = s.ctxs := rfl
@[simp] theorem State.modUnit_launches (k : UKey) (f : Unit → Unit) : (s.modUnit k f).launches = s.launches := rfl
@[simp] theorem State.modUnit_levels (k : UKey) (f : Unit → Unit) : (s.modUnit k f).levels = s.levels := rfl
@[simp] theorem State.modUnit_sections (k : UKey) (f : Unit → Unit) : (s.modUnit k f).sections = s.sections := rfl
@[simp] theorem State.modUnit_funcs (k : UKey) (f : Unit → Unit) : (s.modUnit k f).funcs = s.funcs := rfl
@[simp] theorem State.modUnit_quanta (k : UKey) (f : Unit → Unit) : (s.modUnit k f).quanta = s.quanta := rfl
@[simp] theorem State.modUnit_quantaNext (k : UKey) (f : Unit → Unit) : (s.modUnit k f).quantaNext = s.quantaNext := rfl
@[simp] theorem State.modUnit_slice (k : UKey) (f : Unit → Unit) : (s.modUnit k f).slice = s.slice := rfl
@[simp] theorem State.modUnit_quantaRun (k : UKey) (f : Unit → Unit) : (s.modUnit k f).quantaRun = s.quantaRun := rfl
@[simp] theorem State.modUnit_tenant (k : UKey) (f : Unit → Unit) : (s.modUnit k f).tenant = s.tenant := rfl
@[simp] theorem State.modUnit_front (k : UKey) (f : Unit → Unit) : (s.modUnit k f).front = s.front := rfl
@[simp] theorem State.modUnit_pools (k : UKey) (f : Unit → Unit) : (s.modUnit k f).pools = s.pools := rfl
@[simp] theorem State.modUnit_poolUp (k : UKey) (f : Unit → Unit) : (s.modUnit k f).poolUp = s.poolUp := rfl
@[simp] theorem State.modUnit_poolCache (k : UKey) (f : Unit → Unit) : (s.modUnit k f).poolCache = s.poolCache := rfl
@[simp] theorem State.modUnit_ports (k : UKey) (f : Unit → Unit) : (s.modUnit k f).ports = s.ports := rfl
@[simp] theorem State.modUnit_routes (k : UKey) (f : Unit → Unit) : (s.modUnit k f).routes = s.routes := rfl
@[simp] theorem State.modUnit_ident (k : UKey) (f : Unit → Unit) : (s.modUnit k f).ident = s.ident := rfl
@[simp] theorem State.modUnit_phasing (k : UKey) (f : Unit → Unit) : (s.modUnit k f).phasing = s.phasing := rfl
@[simp] theorem State.modUnit_outReqs (k : UKey) (f : Unit → Unit) : (s.modUnit k f).outReqs = s.outReqs := rfl
@[simp] theorem State.modUnit_nextId (k : UKey) (f : Unit → Unit) : (s.modUnit k f).nextId = s.nextId := rfl
@[simp] theorem State.modUnit_seen (k : UKey) (f : Unit → Unit) : (s.modUnit k f).seen = s.seen := rfl
@[simp] theorem State.modUnit_lowack (k : UKey) (f : Unit → Unit) : (s.modUnit k f).lowack = s.lowack := rfl
@[simp] theorem State.modUnit_absorbed (k : UKey) (f : Unit → Unit) : (s.modUnit k f).absorbed = s.absorbed := rfl
@[simp] theorem State.modUnit_owned (k : UKey) (f : Unit → Unit) : (s.modUnit k f).owned = s.owned := rfl
@[simp] theorem State.modUnit_limit (k : UKey) (f : Unit → Unit) : (s.modUnit k f).limit = s.limit := rfl
@[simp] theorem State.modUnit_emergency (k : UKey) (f : Unit → Unit) : (s.modUnit k f).emergency = s.emergency := rfl
@[simp] theorem State.modUnit_stretched (k : UKey) (f : Unit → Unit) : (s.modUnit k f).stretched = s.stretched := rfl
@[simp] theorem State.modUnit_emergencies (k : UKey) (f : Unit → Unit) : (s.modUnit k f).emergencies = s.emergencies := rfl
@[simp] theorem State.modUnit_energy (k : UKey) (f : Unit → Unit) : (s.modUnit k f).energy = s.energy := rfl
@[simp] theorem State.modUnit_hbmC (k : UKey) (f : Unit → Unit) : (s.modUnit k f).hbmC = s.hbmC := rfl
@[simp] theorem State.modUnit_hbmU (k : UKey) (f : Unit → Unit) : (s.modUnit k f).hbmU = s.hbmU := rfl
@[simp] theorem State.modUnit_banks (k : UKey) (f : Unit → Unit) : (s.modUnit k f).banks = s.banks := rfl
@[simp] theorem State.modUnit_active (k : UKey) (f : Unit → Unit) : (s.modUnit k f).active = s.active := rfl
@[simp] theorem State.modUnit_rollback (k : UKey) (f : Unit → Unit) : (s.modUnit k f).rollback = s.rollback := rfl
@[simp] theorem State.modUnit_loading (k : UKey) (f : Unit → Unit) : (s.modUnit k f).loading = s.loading := rfl
@[simp] theorem State.modUnit_loadNew (k : UKey) (f : Unit → Unit) : (s.modUnit k f).loadNew = s.loadNew := rfl
@[simp] theorem State.modUnit_switching (k : UKey) (f : Unit → Unit) : (s.modUnit k f).switching = s.switching := rfl
@[simp] theorem State.modUnit_capGen (k : UKey) (f : Unit → Unit) : (s.modUnit k f).capGen = s.capGen := rfl
@[simp] theorem State.modUnit_powered (k : UKey) (f : Unit → Unit) : (s.modUnit k f).powered = s.powered := rfl
@[simp] theorem State.modUnit_onTick (k : UKey) (f : Unit → Unit) : (s.modUnit k f).onTick = s.onTick := rfl
@[simp] theorem State.modUnit_booted (k : UKey) (f : Unit → Unit) : (s.modUnit k f).booted = s.booted := rfl
@[simp] theorem State.modUnit_cur (k : UKey) (f : Unit → Unit) : (s.modUnit k f).cur = s.cur := rfl
@[simp] theorem State.modUnit_second (k : UKey) (f : Unit → Unit) : (s.modUnit k f).second = s.second := rfl
@[simp] theorem State.modUnit_agenda (k : UKey) (f : Unit → Unit) : (s.modUnit k f).agenda = s.agenda := rfl
@[simp] theorem State.modUnit_engines (k : UKey) (f : Unit → Unit) : (s.modUnit k f).engines = s.engines := rfl
@[simp] theorem State.modUnit_unack (k : UKey) (f : Unit → Unit) : (s.modUnit k f).unack = s.unack := rfl
@[simp] theorem State.modUnit_transit (k : UKey) (f : Unit → Unit) : (s.modUnit k f).transit = s.transit := rfl
@[simp] theorem State.modUnit_relMem (k : UKey) (f : Unit → Unit) : (s.modUnit k f).relMem = s.relMem := rfl
@[simp] theorem State.modUnit_emergencyAt (k : UKey) (f : Unit → Unit) : (s.modUnit k f).emergencyAt = s.emergencyAt := rfl
@[simp] theorem State.modUnit_pair (k : UKey) (f : Unit → Unit) : (s.modUnit k f).pair = s.pair := rfl
@[simp] theorem State.modUnit_grown (k : UKey) (f : Unit → Unit) : (s.modUnit k f).grown = s.grown := rfl
@[simp] theorem State.modUnit_tick (k : UKey) (f : Unit → Unit) : (s.modUnit k f).tick = s.tick := rfl

/-! ## `modGrp` -/

@[simp] theorem State.modGrp_hbm (k : UKey) (n : Nat) (f : Group → Group) : (s.modGrp k n f).hbm = s.hbm := rfl
@[simp] theorem State.modGrp_pool (k : UKey) (n : Nat) (f : Group → Group) : (s.modGrp k n f).pool = s.pool := rfl
@[simp] theorem State.modGrp_host (k : UKey) (n : Nat) (f : Group → Group) : (s.modGrp k n f).host = s.host := rfl
@[simp] theorem State.modGrp_vaults (k : UKey) (n : Nat) (f : Group → Group) : (s.modGrp k n f).vaults = s.vaults := rfl
@[simp] theorem State.modGrp_marks (k : UKey) (n : Nat) (f : Group → Group) : (s.modGrp k n f).marks = s.marks := rfl
@[simp] theorem State.modGrp_badCrc (k : UKey) (n : Nat) (f : Group → Group) : (s.modGrp k n f).badCrc = s.badCrc := rfl
@[simp] theorem State.modGrp_cores (k : UKey) (n : Nat) (f : Group → Group) : (s.modGrp k n f).cores = s.cores := rfl
@[simp] theorem State.modGrp_dies (k : UKey) (n : Nat) (f : Group → Group) : (s.modGrp k n f).dies = s.dies := rfl
@[simp] theorem State.modGrp_ctxs (k : UKey) (n : Nat) (f : Group → Group) : (s.modGrp k n f).ctxs = s.ctxs := rfl
@[simp] theorem State.modGrp_launches (k : UKey) (n : Nat) (f : Group → Group) : (s.modGrp k n f).launches = s.launches := rfl
@[simp] theorem State.modGrp_levels (k : UKey) (n : Nat) (f : Group → Group) : (s.modGrp k n f).levels = s.levels := rfl
@[simp] theorem State.modGrp_sections (k : UKey) (n : Nat) (f : Group → Group) : (s.modGrp k n f).sections = s.sections := rfl
@[simp] theorem State.modGrp_funcs (k : UKey) (n : Nat) (f : Group → Group) : (s.modGrp k n f).funcs = s.funcs := rfl
@[simp] theorem State.modGrp_quanta (k : UKey) (n : Nat) (f : Group → Group) : (s.modGrp k n f).quanta = s.quanta := rfl
@[simp] theorem State.modGrp_quantaNext (k : UKey) (n : Nat) (f : Group → Group) : (s.modGrp k n f).quantaNext = s.quantaNext := rfl
@[simp] theorem State.modGrp_slice (k : UKey) (n : Nat) (f : Group → Group) : (s.modGrp k n f).slice = s.slice := rfl
@[simp] theorem State.modGrp_quantaRun (k : UKey) (n : Nat) (f : Group → Group) : (s.modGrp k n f).quantaRun = s.quantaRun := rfl
@[simp] theorem State.modGrp_tenant (k : UKey) (n : Nat) (f : Group → Group) : (s.modGrp k n f).tenant = s.tenant := rfl
@[simp] theorem State.modGrp_front (k : UKey) (n : Nat) (f : Group → Group) : (s.modGrp k n f).front = s.front := rfl
@[simp] theorem State.modGrp_pools (k : UKey) (n : Nat) (f : Group → Group) : (s.modGrp k n f).pools = s.pools := rfl
@[simp] theorem State.modGrp_poolUp (k : UKey) (n : Nat) (f : Group → Group) : (s.modGrp k n f).poolUp = s.poolUp := rfl
@[simp] theorem State.modGrp_poolCache (k : UKey) (n : Nat) (f : Group → Group) : (s.modGrp k n f).poolCache = s.poolCache := rfl
@[simp] theorem State.modGrp_ports (k : UKey) (n : Nat) (f : Group → Group) : (s.modGrp k n f).ports = s.ports := rfl
@[simp] theorem State.modGrp_routes (k : UKey) (n : Nat) (f : Group → Group) : (s.modGrp k n f).routes = s.routes := rfl
@[simp] theorem State.modGrp_ident (k : UKey) (n : Nat) (f : Group → Group) : (s.modGrp k n f).ident = s.ident := rfl
@[simp] theorem State.modGrp_phasing (k : UKey) (n : Nat) (f : Group → Group) : (s.modGrp k n f).phasing = s.phasing := rfl
@[simp] theorem State.modGrp_outReqs (k : UKey) (n : Nat) (f : Group → Group) : (s.modGrp k n f).outReqs = s.outReqs := rfl
@[simp] theorem State.modGrp_nextId (k : UKey) (n : Nat) (f : Group → Group) : (s.modGrp k n f).nextId = s.nextId := rfl
@[simp] theorem State.modGrp_seen (k : UKey) (n : Nat) (f : Group → Group) : (s.modGrp k n f).seen = s.seen := rfl
@[simp] theorem State.modGrp_lowack (k : UKey) (n : Nat) (f : Group → Group) : (s.modGrp k n f).lowack = s.lowack := rfl
@[simp] theorem State.modGrp_absorbed (k : UKey) (n : Nat) (f : Group → Group) : (s.modGrp k n f).absorbed = s.absorbed := rfl
@[simp] theorem State.modGrp_owned (k : UKey) (n : Nat) (f : Group → Group) : (s.modGrp k n f).owned = s.owned := rfl
@[simp] theorem State.modGrp_limit (k : UKey) (n : Nat) (f : Group → Group) : (s.modGrp k n f).limit = s.limit := rfl
@[simp] theorem State.modGrp_emergency (k : UKey) (n : Nat) (f : Group → Group) : (s.modGrp k n f).emergency = s.emergency := rfl
@[simp] theorem State.modGrp_stretched (k : UKey) (n : Nat) (f : Group → Group) : (s.modGrp k n f).stretched = s.stretched := rfl
@[simp] theorem State.modGrp_emergencies (k : UKey) (n : Nat) (f : Group → Group) : (s.modGrp k n f).emergencies = s.emergencies := rfl
@[simp] theorem State.modGrp_energy (k : UKey) (n : Nat) (f : Group → Group) : (s.modGrp k n f).energy = s.energy := rfl
@[simp] theorem State.modGrp_hbmC (k : UKey) (n : Nat) (f : Group → Group) : (s.modGrp k n f).hbmC = s.hbmC := rfl
@[simp] theorem State.modGrp_hbmU (k : UKey) (n : Nat) (f : Group → Group) : (s.modGrp k n f).hbmU = s.hbmU := rfl
@[simp] theorem State.modGrp_banks (k : UKey) (n : Nat) (f : Group → Group) : (s.modGrp k n f).banks = s.banks := rfl
@[simp] theorem State.modGrp_active (k : UKey) (n : Nat) (f : Group → Group) : (s.modGrp k n f).active = s.active := rfl
@[simp] theorem State.modGrp_rollback (k : UKey) (n : Nat) (f : Group → Group) : (s.modGrp k n f).rollback = s.rollback := rfl
@[simp] theorem State.modGrp_loading (k : UKey) (n : Nat) (f : Group → Group) : (s.modGrp k n f).loading = s.loading := rfl
@[simp] theorem State.modGrp_loadNew (k : UKey) (n : Nat) (f : Group → Group) : (s.modGrp k n f).loadNew = s.loadNew := rfl
@[simp] theorem State.modGrp_switching (k : UKey) (n : Nat) (f : Group → Group) : (s.modGrp k n f).switching = s.switching := rfl
@[simp] theorem State.modGrp_capGen (k : UKey) (n : Nat) (f : Group → Group) : (s.modGrp k n f).capGen = s.capGen := rfl
@[simp] theorem State.modGrp_powered (k : UKey) (n : Nat) (f : Group → Group) : (s.modGrp k n f).powered = s.powered := rfl
@[simp] theorem State.modGrp_onTick (k : UKey) (n : Nat) (f : Group → Group) : (s.modGrp k n f).onTick = s.onTick := rfl
@[simp] theorem State.modGrp_booted (k : UKey) (n : Nat) (f : Group → Group) : (s.modGrp k n f).booted = s.booted := rfl
@[simp] theorem State.modGrp_cur (k : UKey) (n : Nat) (f : Group → Group) : (s.modGrp k n f).cur = s.cur := rfl
@[simp] theorem State.modGrp_second (k : UKey) (n : Nat) (f : Group → Group) : (s.modGrp k n f).second = s.second := rfl
@[simp] theorem State.modGrp_agenda (k : UKey) (n : Nat) (f : Group → Group) : (s.modGrp k n f).agenda = s.agenda := rfl
@[simp] theorem State.modGrp_engines (k : UKey) (n : Nat) (f : Group → Group) : (s.modGrp k n f).engines = s.engines := rfl
@[simp] theorem State.modGrp_unack (k : UKey) (n : Nat) (f : Group → Group) : (s.modGrp k n f).unack = s.unack := rfl
@[simp] theorem State.modGrp_transit (k : UKey) (n : Nat) (f : Group → Group) : (s.modGrp k n f).transit = s.transit := rfl
@[simp] theorem State.modGrp_relMem (k : UKey) (n : Nat) (f : Group → Group) : (s.modGrp k n f).relMem = s.relMem := rfl
@[simp] theorem State.modGrp_emergencyAt (k : UKey) (n : Nat) (f : Group → Group) : (s.modGrp k n f).emergencyAt = s.emergencyAt := rfl
@[simp] theorem State.modGrp_pair (k : UKey) (n : Nat) (f : Group → Group) : (s.modGrp k n f).pair = s.pair := rfl
@[simp] theorem State.modGrp_grown (k : UKey) (n : Nat) (f : Group → Group) : (s.modGrp k n f).grown = s.grown := rfl
@[simp] theorem State.modGrp_tick (k : UKey) (n : Nat) (f : Group → Group) : (s.modGrp k n f).tick = s.tick := rfl

/-! ## `setCore` -/

@[simp] theorem State.setCore_hbm (c : Nat) (v : Core) : (s.setCore c v).hbm = s.hbm := rfl
@[simp] theorem State.setCore_pool (c : Nat) (v : Core) : (s.setCore c v).pool = s.pool := rfl
@[simp] theorem State.setCore_host (c : Nat) (v : Core) : (s.setCore c v).host = s.host := rfl
@[simp] theorem State.setCore_vaults (c : Nat) (v : Core) : (s.setCore c v).vaults = s.vaults := rfl
@[simp] theorem State.setCore_marks (c : Nat) (v : Core) : (s.setCore c v).marks = s.marks := rfl
@[simp] theorem State.setCore_badCrc (c : Nat) (v : Core) : (s.setCore c v).badCrc = s.badCrc := rfl
@[simp] theorem State.setCore_units (c : Nat) (v : Core) : (s.setCore c v).units = s.units := rfl
@[simp] theorem State.setCore_dies (c : Nat) (v : Core) : (s.setCore c v).dies = s.dies := rfl
@[simp] theorem State.setCore_ctxs (c : Nat) (v : Core) : (s.setCore c v).ctxs = s.ctxs := rfl
@[simp] theorem State.setCore_launches (c : Nat) (v : Core) : (s.setCore c v).launches = s.launches := rfl
@[simp] theorem State.setCore_levels (c : Nat) (v : Core) : (s.setCore c v).levels = s.levels := rfl
@[simp] theorem State.setCore_sections (c : Nat) (v : Core) : (s.setCore c v).sections = s.sections := rfl
@[simp] theorem State.setCore_funcs (c : Nat) (v : Core) : (s.setCore c v).funcs = s.funcs := rfl
@[simp] theorem State.setCore_quanta (c : Nat) (v : Core) : (s.setCore c v).quanta = s.quanta := rfl
@[simp] theorem State.setCore_quantaNext (c : Nat) (v : Core) : (s.setCore c v).quantaNext = s.quantaNext := rfl
@[simp] theorem State.setCore_slice (c : Nat) (v : Core) : (s.setCore c v).slice = s.slice := rfl
@[simp] theorem State.setCore_quantaRun (c : Nat) (v : Core) : (s.setCore c v).quantaRun = s.quantaRun := rfl
@[simp] theorem State.setCore_tenant (c : Nat) (v : Core) : (s.setCore c v).tenant = s.tenant := rfl
@[simp] theorem State.setCore_front (c : Nat) (v : Core) : (s.setCore c v).front = s.front := rfl
@[simp] theorem State.setCore_pools (c : Nat) (v : Core) : (s.setCore c v).pools = s.pools := rfl
@[simp] theorem State.setCore_poolUp (c : Nat) (v : Core) : (s.setCore c v).poolUp = s.poolUp := rfl
@[simp] theorem State.setCore_poolCache (c : Nat) (v : Core) : (s.setCore c v).poolCache = s.poolCache := rfl
@[simp] theorem State.setCore_ports (c : Nat) (v : Core) : (s.setCore c v).ports = s.ports := rfl
@[simp] theorem State.setCore_routes (c : Nat) (v : Core) : (s.setCore c v).routes = s.routes := rfl
@[simp] theorem State.setCore_ident (c : Nat) (v : Core) : (s.setCore c v).ident = s.ident := rfl
@[simp] theorem State.setCore_phasing (c : Nat) (v : Core) : (s.setCore c v).phasing = s.phasing := rfl
@[simp] theorem State.setCore_outReqs (c : Nat) (v : Core) : (s.setCore c v).outReqs = s.outReqs := rfl
@[simp] theorem State.setCore_nextId (c : Nat) (v : Core) : (s.setCore c v).nextId = s.nextId := rfl
@[simp] theorem State.setCore_seen (c : Nat) (v : Core) : (s.setCore c v).seen = s.seen := rfl
@[simp] theorem State.setCore_lowack (c : Nat) (v : Core) : (s.setCore c v).lowack = s.lowack := rfl
@[simp] theorem State.setCore_absorbed (c : Nat) (v : Core) : (s.setCore c v).absorbed = s.absorbed := rfl
@[simp] theorem State.setCore_owned (c : Nat) (v : Core) : (s.setCore c v).owned = s.owned := rfl
@[simp] theorem State.setCore_limit (c : Nat) (v : Core) : (s.setCore c v).limit = s.limit := rfl
@[simp] theorem State.setCore_emergency (c : Nat) (v : Core) : (s.setCore c v).emergency = s.emergency := rfl
@[simp] theorem State.setCore_stretched (c : Nat) (v : Core) : (s.setCore c v).stretched = s.stretched := rfl
@[simp] theorem State.setCore_emergencies (c : Nat) (v : Core) : (s.setCore c v).emergencies = s.emergencies := rfl
@[simp] theorem State.setCore_energy (c : Nat) (v : Core) : (s.setCore c v).energy = s.energy := rfl
@[simp] theorem State.setCore_hbmC (c : Nat) (v : Core) : (s.setCore c v).hbmC = s.hbmC := rfl
@[simp] theorem State.setCore_hbmU (c : Nat) (v : Core) : (s.setCore c v).hbmU = s.hbmU := rfl
@[simp] theorem State.setCore_banks (c : Nat) (v : Core) : (s.setCore c v).banks = s.banks := rfl
@[simp] theorem State.setCore_active (c : Nat) (v : Core) : (s.setCore c v).active = s.active := rfl
@[simp] theorem State.setCore_rollback (c : Nat) (v : Core) : (s.setCore c v).rollback = s.rollback := rfl
@[simp] theorem State.setCore_loading (c : Nat) (v : Core) : (s.setCore c v).loading = s.loading := rfl
@[simp] theorem State.setCore_loadNew (c : Nat) (v : Core) : (s.setCore c v).loadNew = s.loadNew := rfl
@[simp] theorem State.setCore_switching (c : Nat) (v : Core) : (s.setCore c v).switching = s.switching := rfl
@[simp] theorem State.setCore_capGen (c : Nat) (v : Core) : (s.setCore c v).capGen = s.capGen := rfl
@[simp] theorem State.setCore_powered (c : Nat) (v : Core) : (s.setCore c v).powered = s.powered := rfl
@[simp] theorem State.setCore_onTick (c : Nat) (v : Core) : (s.setCore c v).onTick = s.onTick := rfl
@[simp] theorem State.setCore_booted (c : Nat) (v : Core) : (s.setCore c v).booted = s.booted := rfl
@[simp] theorem State.setCore_cur (c : Nat) (v : Core) : (s.setCore c v).cur = s.cur := rfl
@[simp] theorem State.setCore_second (c : Nat) (v : Core) : (s.setCore c v).second = s.second := rfl
@[simp] theorem State.setCore_agenda (c : Nat) (v : Core) : (s.setCore c v).agenda = s.agenda := rfl
@[simp] theorem State.setCore_engines (c : Nat) (v : Core) : (s.setCore c v).engines = s.engines := rfl
@[simp] theorem State.setCore_unack (c : Nat) (v : Core) : (s.setCore c v).unack = s.unack := rfl
@[simp] theorem State.setCore_transit (c : Nat) (v : Core) : (s.setCore c v).transit = s.transit := rfl
@[simp] theorem State.setCore_relMem (c : Nat) (v : Core) : (s.setCore c v).relMem = s.relMem := rfl
@[simp] theorem State.setCore_emergencyAt (c : Nat) (v : Core) : (s.setCore c v).emergencyAt = s.emergencyAt := rfl
@[simp] theorem State.setCore_pair (c : Nat) (v : Core) : (s.setCore c v).pair = s.pair := rfl
@[simp] theorem State.setCore_grown (c : Nat) (v : Core) : (s.setCore c v).grown = s.grown := rfl
@[simp] theorem State.setCore_tick (c : Nat) (v : Core) : (s.setCore c v).tick = s.tick := rfl

/-! ## `modDie` -/

@[simp] theorem State.modDie_hbm (d : Nat) (f : Die → Die) : (s.modDie d f).hbm = s.hbm := rfl
@[simp] theorem State.modDie_pool (d : Nat) (f : Die → Die) : (s.modDie d f).pool = s.pool := rfl
@[simp] theorem State.modDie_host (d : Nat) (f : Die → Die) : (s.modDie d f).host = s.host := rfl
@[simp] theorem State.modDie_vaults (d : Nat) (f : Die → Die) : (s.modDie d f).vaults = s.vaults := rfl
@[simp] theorem State.modDie_marks (d : Nat) (f : Die → Die) : (s.modDie d f).marks = s.marks := rfl
@[simp] theorem State.modDie_badCrc (d : Nat) (f : Die → Die) : (s.modDie d f).badCrc = s.badCrc := rfl
@[simp] theorem State.modDie_units (d : Nat) (f : Die → Die) : (s.modDie d f).units = s.units := rfl
@[simp] theorem State.modDie_cores (d : Nat) (f : Die → Die) : (s.modDie d f).cores = s.cores := rfl
@[simp] theorem State.modDie_ctxs (d : Nat) (f : Die → Die) : (s.modDie d f).ctxs = s.ctxs := rfl
@[simp] theorem State.modDie_launches (d : Nat) (f : Die → Die) : (s.modDie d f).launches = s.launches := rfl
@[simp] theorem State.modDie_levels (d : Nat) (f : Die → Die) : (s.modDie d f).levels = s.levels := rfl
@[simp] theorem State.modDie_sections (d : Nat) (f : Die → Die) : (s.modDie d f).sections = s.sections := rfl
@[simp] theorem State.modDie_funcs (d : Nat) (f : Die → Die) : (s.modDie d f).funcs = s.funcs := rfl
@[simp] theorem State.modDie_quanta (d : Nat) (f : Die → Die) : (s.modDie d f).quanta = s.quanta := rfl
@[simp] theorem State.modDie_quantaNext (d : Nat) (f : Die → Die) : (s.modDie d f).quantaNext = s.quantaNext := rfl
@[simp] theorem State.modDie_slice (d : Nat) (f : Die → Die) : (s.modDie d f).slice = s.slice := rfl
@[simp] theorem State.modDie_quantaRun (d : Nat) (f : Die → Die) : (s.modDie d f).quantaRun = s.quantaRun := rfl
@[simp] theorem State.modDie_tenant (d : Nat) (f : Die → Die) : (s.modDie d f).tenant = s.tenant := rfl
@[simp] theorem State.modDie_front (d : Nat) (f : Die → Die) : (s.modDie d f).front = s.front := rfl
@[simp] theorem State.modDie_pools (d : Nat) (f : Die → Die) : (s.modDie d f).pools = s.pools := rfl
@[simp] theorem State.modDie_poolUp (d : Nat) (f : Die → Die) : (s.modDie d f).poolUp = s.poolUp := rfl
@[simp] theorem State.modDie_poolCache (d : Nat) (f : Die → Die) : (s.modDie d f).poolCache = s.poolCache := rfl
@[simp] theorem State.modDie_ports (d : Nat) (f : Die → Die) : (s.modDie d f).ports = s.ports := rfl
@[simp] theorem State.modDie_routes (d : Nat) (f : Die → Die) : (s.modDie d f).routes = s.routes := rfl
@[simp] theorem State.modDie_ident (d : Nat) (f : Die → Die) : (s.modDie d f).ident = s.ident := rfl
@[simp] theorem State.modDie_phasing (d : Nat) (f : Die → Die) : (s.modDie d f).phasing = s.phasing := rfl
@[simp] theorem State.modDie_outReqs (d : Nat) (f : Die → Die) : (s.modDie d f).outReqs = s.outReqs := rfl
@[simp] theorem State.modDie_nextId (d : Nat) (f : Die → Die) : (s.modDie d f).nextId = s.nextId := rfl
@[simp] theorem State.modDie_seen (d : Nat) (f : Die → Die) : (s.modDie d f).seen = s.seen := rfl
@[simp] theorem State.modDie_lowack (d : Nat) (f : Die → Die) : (s.modDie d f).lowack = s.lowack := rfl
@[simp] theorem State.modDie_absorbed (d : Nat) (f : Die → Die) : (s.modDie d f).absorbed = s.absorbed := rfl
@[simp] theorem State.modDie_owned (d : Nat) (f : Die → Die) : (s.modDie d f).owned = s.owned := rfl
@[simp] theorem State.modDie_limit (d : Nat) (f : Die → Die) : (s.modDie d f).limit = s.limit := rfl
@[simp] theorem State.modDie_emergency (d : Nat) (f : Die → Die) : (s.modDie d f).emergency = s.emergency := rfl
@[simp] theorem State.modDie_stretched (d : Nat) (f : Die → Die) : (s.modDie d f).stretched = s.stretched := rfl
@[simp] theorem State.modDie_emergencies (d : Nat) (f : Die → Die) : (s.modDie d f).emergencies = s.emergencies := rfl
@[simp] theorem State.modDie_energy (d : Nat) (f : Die → Die) : (s.modDie d f).energy = s.energy := rfl
@[simp] theorem State.modDie_hbmC (d : Nat) (f : Die → Die) : (s.modDie d f).hbmC = s.hbmC := rfl
@[simp] theorem State.modDie_hbmU (d : Nat) (f : Die → Die) : (s.modDie d f).hbmU = s.hbmU := rfl
@[simp] theorem State.modDie_banks (d : Nat) (f : Die → Die) : (s.modDie d f).banks = s.banks := rfl
@[simp] theorem State.modDie_active (d : Nat) (f : Die → Die) : (s.modDie d f).active = s.active := rfl
@[simp] theorem State.modDie_rollback (d : Nat) (f : Die → Die) : (s.modDie d f).rollback = s.rollback := rfl
@[simp] theorem State.modDie_loading (d : Nat) (f : Die → Die) : (s.modDie d f).loading = s.loading := rfl
@[simp] theorem State.modDie_loadNew (d : Nat) (f : Die → Die) : (s.modDie d f).loadNew = s.loadNew := rfl
@[simp] theorem State.modDie_switching (d : Nat) (f : Die → Die) : (s.modDie d f).switching = s.switching := rfl
@[simp] theorem State.modDie_capGen (d : Nat) (f : Die → Die) : (s.modDie d f).capGen = s.capGen := rfl
@[simp] theorem State.modDie_powered (d : Nat) (f : Die → Die) : (s.modDie d f).powered = s.powered := rfl
@[simp] theorem State.modDie_onTick (d : Nat) (f : Die → Die) : (s.modDie d f).onTick = s.onTick := rfl
@[simp] theorem State.modDie_booted (d : Nat) (f : Die → Die) : (s.modDie d f).booted = s.booted := rfl
@[simp] theorem State.modDie_cur (d : Nat) (f : Die → Die) : (s.modDie d f).cur = s.cur := rfl
@[simp] theorem State.modDie_second (d : Nat) (f : Die → Die) : (s.modDie d f).second = s.second := rfl
@[simp] theorem State.modDie_agenda (d : Nat) (f : Die → Die) : (s.modDie d f).agenda = s.agenda := rfl
@[simp] theorem State.modDie_engines (d : Nat) (f : Die → Die) : (s.modDie d f).engines = s.engines := rfl
@[simp] theorem State.modDie_unack (d : Nat) (f : Die → Die) : (s.modDie d f).unack = s.unack := rfl
@[simp] theorem State.modDie_transit (d : Nat) (f : Die → Die) : (s.modDie d f).transit = s.transit := rfl
@[simp] theorem State.modDie_relMem (d : Nat) (f : Die → Die) : (s.modDie d f).relMem = s.relMem := rfl
@[simp] theorem State.modDie_emergencyAt (d : Nat) (f : Die → Die) : (s.modDie d f).emergencyAt = s.emergencyAt := rfl
@[simp] theorem State.modDie_pair (d : Nat) (f : Die → Die) : (s.modDie d f).pair = s.pair := rfl
@[simp] theorem State.modDie_grown (d : Nat) (f : Die → Die) : (s.modDie d f).grown = s.grown := rfl
@[simp] theorem State.modDie_tick (d : Nat) (f : Die → Die) : (s.modDie d f).tick = s.tick := rfl

/-! ## `modFunc` -/

@[simp] theorem State.modFunc_hbm (n : Nat) (f : Func → Func) : (s.modFunc n f).hbm = s.hbm := rfl
@[simp] theorem State.modFunc_pool (n : Nat) (f : Func → Func) : (s.modFunc n f).pool = s.pool := rfl
@[simp] theorem State.modFunc_host (n : Nat) (f : Func → Func) : (s.modFunc n f).host = s.host := rfl
@[simp] theorem State.modFunc_vaults (n : Nat) (f : Func → Func) : (s.modFunc n f).vaults = s.vaults := rfl
@[simp] theorem State.modFunc_marks (n : Nat) (f : Func → Func) : (s.modFunc n f).marks = s.marks := rfl
@[simp] theorem State.modFunc_badCrc (n : Nat) (f : Func → Func) : (s.modFunc n f).badCrc = s.badCrc := rfl
@[simp] theorem State.modFunc_units (n : Nat) (f : Func → Func) : (s.modFunc n f).units = s.units := rfl
@[simp] theorem State.modFunc_cores (n : Nat) (f : Func → Func) : (s.modFunc n f).cores = s.cores := rfl
@[simp] theorem State.modFunc_dies (n : Nat) (f : Func → Func) : (s.modFunc n f).dies = s.dies := rfl
@[simp] theorem State.modFunc_ctxs (n : Nat) (f : Func → Func) : (s.modFunc n f).ctxs = s.ctxs := rfl
@[simp] theorem State.modFunc_launches (n : Nat) (f : Func → Func) : (s.modFunc n f).launches = s.launches := rfl
@[simp] theorem State.modFunc_levels (n : Nat) (f : Func → Func) : (s.modFunc n f).levels = s.levels := rfl
@[simp] theorem State.modFunc_sections (n : Nat) (f : Func → Func) : (s.modFunc n f).sections = s.sections := rfl
@[simp] theorem State.modFunc_quanta (n : Nat) (f : Func → Func) : (s.modFunc n f).quanta = s.quanta := rfl
@[simp] theorem State.modFunc_quantaNext (n : Nat) (f : Func → Func) : (s.modFunc n f).quantaNext = s.quantaNext := rfl
@[simp] theorem State.modFunc_slice (n : Nat) (f : Func → Func) : (s.modFunc n f).slice = s.slice := rfl
@[simp] theorem State.modFunc_quantaRun (n : Nat) (f : Func → Func) : (s.modFunc n f).quantaRun = s.quantaRun := rfl
@[simp] theorem State.modFunc_tenant (n : Nat) (f : Func → Func) : (s.modFunc n f).tenant = s.tenant := rfl
@[simp] theorem State.modFunc_front (n : Nat) (f : Func → Func) : (s.modFunc n f).front = s.front := rfl
@[simp] theorem State.modFunc_pools (n : Nat) (f : Func → Func) : (s.modFunc n f).pools = s.pools := rfl
@[simp] theorem State.modFunc_poolUp (n : Nat) (f : Func → Func) : (s.modFunc n f).poolUp = s.poolUp := rfl
@[simp] theorem State.modFunc_poolCache (n : Nat) (f : Func → Func) : (s.modFunc n f).poolCache = s.poolCache := rfl
@[simp] theorem State.modFunc_ports (n : Nat) (f : Func → Func) : (s.modFunc n f).ports = s.ports := rfl
@[simp] theorem State.modFunc_routes (n : Nat) (f : Func → Func) : (s.modFunc n f).routes = s.routes := rfl
@[simp] theorem State.modFunc_ident (n : Nat) (f : Func → Func) : (s.modFunc n f).ident = s.ident := rfl
@[simp] theorem State.modFunc_phasing (n : Nat) (f : Func → Func) : (s.modFunc n f).phasing = s.phasing := rfl
@[simp] theorem State.modFunc_outReqs (n : Nat) (f : Func → Func) : (s.modFunc n f).outReqs = s.outReqs := rfl
@[simp] theorem State.modFunc_nextId (n : Nat) (f : Func → Func) : (s.modFunc n f).nextId = s.nextId := rfl
@[simp] theorem State.modFunc_seen (n : Nat) (f : Func → Func) : (s.modFunc n f).seen = s.seen := rfl
@[simp] theorem State.modFunc_lowack (n : Nat) (f : Func → Func) : (s.modFunc n f).lowack = s.lowack := rfl
@[simp] theorem State.modFunc_absorbed (n : Nat) (f : Func → Func) : (s.modFunc n f).absorbed = s.absorbed := rfl
@[simp] theorem State.modFunc_owned (n : Nat) (f : Func → Func) : (s.modFunc n f).owned = s.owned := rfl
@[simp] theorem State.modFunc_limit (n : Nat) (f : Func → Func) : (s.modFunc n f).limit = s.limit := rfl
@[simp] theorem State.modFunc_emergency (n : Nat) (f : Func → Func) : (s.modFunc n f).emergency = s.emergency := rfl
@[simp] theorem State.modFunc_stretched (n : Nat) (f : Func → Func) : (s.modFunc n f).stretched = s.stretched := rfl
@[simp] theorem State.modFunc_emergencies (n : Nat) (f : Func → Func) : (s.modFunc n f).emergencies = s.emergencies := rfl
@[simp] theorem State.modFunc_energy (n : Nat) (f : Func → Func) : (s.modFunc n f).energy = s.energy := rfl
@[simp] theorem State.modFunc_hbmC (n : Nat) (f : Func → Func) : (s.modFunc n f).hbmC = s.hbmC := rfl
@[simp] theorem State.modFunc_hbmU (n : Nat) (f : Func → Func) : (s.modFunc n f).hbmU = s.hbmU := rfl
@[simp] theorem State.modFunc_banks (n : Nat) (f : Func → Func) : (s.modFunc n f).banks = s.banks := rfl
@[simp] theorem State.modFunc_active (n : Nat) (f : Func → Func) : (s.modFunc n f).active = s.active := rfl
@[simp] theorem State.modFunc_rollback (n : Nat) (f : Func → Func) : (s.modFunc n f).rollback = s.rollback := rfl
@[simp] theorem State.modFunc_loading (n : Nat) (f : Func → Func) : (s.modFunc n f).loading = s.loading := rfl
@[simp] theorem State.modFunc_loadNew (n : Nat) (f : Func → Func) : (s.modFunc n f).loadNew = s.loadNew := rfl
@[simp] theorem State.modFunc_switching (n : Nat) (f : Func → Func) : (s.modFunc n f).switching = s.switching := rfl
@[simp] theorem State.modFunc_capGen (n : Nat) (f : Func → Func) : (s.modFunc n f).capGen = s.capGen := rfl
@[simp] theorem State.modFunc_powered (n : Nat) (f : Func → Func) : (s.modFunc n f).powered = s.powered := rfl
@[simp] theorem State.modFunc_onTick (n : Nat) (f : Func → Func) : (s.modFunc n f).onTick = s.onTick := rfl
@[simp] theorem State.modFunc_booted (n : Nat) (f : Func → Func) : (s.modFunc n f).booted = s.booted := rfl
@[simp] theorem State.modFunc_cur (n : Nat) (f : Func → Func) : (s.modFunc n f).cur = s.cur := rfl
@[simp] theorem State.modFunc_second (n : Nat) (f : Func → Func) : (s.modFunc n f).second = s.second := rfl
@[simp] theorem State.modFunc_agenda (n : Nat) (f : Func → Func) : (s.modFunc n f).agenda = s.agenda := rfl
@[simp] theorem State.modFunc_engines (n : Nat) (f : Func → Func) : (s.modFunc n f).engines = s.engines := rfl
@[simp] theorem State.modFunc_unack (n : Nat) (f : Func → Func) : (s.modFunc n f).unack = s.unack := rfl
@[simp] theorem State.modFunc_transit (n : Nat) (f : Func → Func) : (s.modFunc n f).transit = s.transit := rfl
@[simp] theorem State.modFunc_relMem (n : Nat) (f : Func → Func) : (s.modFunc n f).relMem = s.relMem := rfl
@[simp] theorem State.modFunc_emergencyAt (n : Nat) (f : Func → Func) : (s.modFunc n f).emergencyAt = s.emergencyAt := rfl
@[simp] theorem State.modFunc_pair (n : Nat) (f : Func → Func) : (s.modFunc n f).pair = s.pair := rfl
@[simp] theorem State.modFunc_grown (n : Nat) (f : Func → Func) : (s.modFunc n f).grown = s.grown := rfl
@[simp] theorem State.modFunc_tick (n : Nat) (f : Func → Func) : (s.modFunc n f).tick = s.tick := rfl

/-! ## `modCtx` -/

@[simp] theorem State.modCtx_hbm (c : Nat) (f : Ctx → Ctx) : (s.modCtx c f).hbm = s.hbm := rfl
@[simp] theorem State.modCtx_pool (c : Nat) (f : Ctx → Ctx) : (s.modCtx c f).pool = s.pool := rfl
@[simp] theorem State.modCtx_host (c : Nat) (f : Ctx → Ctx) : (s.modCtx c f).host = s.host := rfl
@[simp] theorem State.modCtx_vaults (c : Nat) (f : Ctx → Ctx) : (s.modCtx c f).vaults = s.vaults := rfl
@[simp] theorem State.modCtx_marks (c : Nat) (f : Ctx → Ctx) : (s.modCtx c f).marks = s.marks := rfl
@[simp] theorem State.modCtx_badCrc (c : Nat) (f : Ctx → Ctx) : (s.modCtx c f).badCrc = s.badCrc := rfl
@[simp] theorem State.modCtx_units (c : Nat) (f : Ctx → Ctx) : (s.modCtx c f).units = s.units := rfl
@[simp] theorem State.modCtx_cores (c : Nat) (f : Ctx → Ctx) : (s.modCtx c f).cores = s.cores := rfl
@[simp] theorem State.modCtx_dies (c : Nat) (f : Ctx → Ctx) : (s.modCtx c f).dies = s.dies := rfl
@[simp] theorem State.modCtx_launches (c : Nat) (f : Ctx → Ctx) : (s.modCtx c f).launches = s.launches := rfl
@[simp] theorem State.modCtx_levels (c : Nat) (f : Ctx → Ctx) : (s.modCtx c f).levels = s.levels := rfl
@[simp] theorem State.modCtx_sections (c : Nat) (f : Ctx → Ctx) : (s.modCtx c f).sections = s.sections := rfl
@[simp] theorem State.modCtx_funcs (c : Nat) (f : Ctx → Ctx) : (s.modCtx c f).funcs = s.funcs := rfl
@[simp] theorem State.modCtx_quanta (c : Nat) (f : Ctx → Ctx) : (s.modCtx c f).quanta = s.quanta := rfl
@[simp] theorem State.modCtx_quantaNext (c : Nat) (f : Ctx → Ctx) : (s.modCtx c f).quantaNext = s.quantaNext := rfl
@[simp] theorem State.modCtx_slice (c : Nat) (f : Ctx → Ctx) : (s.modCtx c f).slice = s.slice := rfl
@[simp] theorem State.modCtx_quantaRun (c : Nat) (f : Ctx → Ctx) : (s.modCtx c f).quantaRun = s.quantaRun := rfl
@[simp] theorem State.modCtx_tenant (c : Nat) (f : Ctx → Ctx) : (s.modCtx c f).tenant = s.tenant := rfl
@[simp] theorem State.modCtx_front (c : Nat) (f : Ctx → Ctx) : (s.modCtx c f).front = s.front := rfl
@[simp] theorem State.modCtx_pools (c : Nat) (f : Ctx → Ctx) : (s.modCtx c f).pools = s.pools := rfl
@[simp] theorem State.modCtx_poolUp (c : Nat) (f : Ctx → Ctx) : (s.modCtx c f).poolUp = s.poolUp := rfl
@[simp] theorem State.modCtx_poolCache (c : Nat) (f : Ctx → Ctx) : (s.modCtx c f).poolCache = s.poolCache := rfl
@[simp] theorem State.modCtx_ports (c : Nat) (f : Ctx → Ctx) : (s.modCtx c f).ports = s.ports := rfl
@[simp] theorem State.modCtx_routes (c : Nat) (f : Ctx → Ctx) : (s.modCtx c f).routes = s.routes := rfl
@[simp] theorem State.modCtx_ident (c : Nat) (f : Ctx → Ctx) : (s.modCtx c f).ident = s.ident := rfl
@[simp] theorem State.modCtx_phasing (c : Nat) (f : Ctx → Ctx) : (s.modCtx c f).phasing = s.phasing := rfl
@[simp] theorem State.modCtx_outReqs (c : Nat) (f : Ctx → Ctx) : (s.modCtx c f).outReqs = s.outReqs := rfl
@[simp] theorem State.modCtx_nextId (c : Nat) (f : Ctx → Ctx) : (s.modCtx c f).nextId = s.nextId := rfl
@[simp] theorem State.modCtx_seen (c : Nat) (f : Ctx → Ctx) : (s.modCtx c f).seen = s.seen := rfl
@[simp] theorem State.modCtx_lowack (c : Nat) (f : Ctx → Ctx) : (s.modCtx c f).lowack = s.lowack := rfl
@[simp] theorem State.modCtx_absorbed (c : Nat) (f : Ctx → Ctx) : (s.modCtx c f).absorbed = s.absorbed := rfl
@[simp] theorem State.modCtx_owned (c : Nat) (f : Ctx → Ctx) : (s.modCtx c f).owned = s.owned := rfl
@[simp] theorem State.modCtx_limit (c : Nat) (f : Ctx → Ctx) : (s.modCtx c f).limit = s.limit := rfl
@[simp] theorem State.modCtx_emergency (c : Nat) (f : Ctx → Ctx) : (s.modCtx c f).emergency = s.emergency := rfl
@[simp] theorem State.modCtx_stretched (c : Nat) (f : Ctx → Ctx) : (s.modCtx c f).stretched = s.stretched := rfl
@[simp] theorem State.modCtx_emergencies (c : Nat) (f : Ctx → Ctx) : (s.modCtx c f).emergencies = s.emergencies := rfl
@[simp] theorem State.modCtx_energy (c : Nat) (f : Ctx → Ctx) : (s.modCtx c f).energy = s.energy := rfl
@[simp] theorem State.modCtx_hbmC (c : Nat) (f : Ctx → Ctx) : (s.modCtx c f).hbmC = s.hbmC := rfl
@[simp] theorem State.modCtx_hbmU (c : Nat) (f : Ctx → Ctx) : (s.modCtx c f).hbmU = s.hbmU := rfl
@[simp] theorem State.modCtx_banks (c : Nat) (f : Ctx → Ctx) : (s.modCtx c f).banks = s.banks := rfl
@[simp] theorem State.modCtx_active (c : Nat) (f : Ctx → Ctx) : (s.modCtx c f).active = s.active := rfl
@[simp] theorem State.modCtx_rollback (c : Nat) (f : Ctx → Ctx) : (s.modCtx c f).rollback = s.rollback := rfl
@[simp] theorem State.modCtx_loading (c : Nat) (f : Ctx → Ctx) : (s.modCtx c f).loading = s.loading := rfl
@[simp] theorem State.modCtx_loadNew (c : Nat) (f : Ctx → Ctx) : (s.modCtx c f).loadNew = s.loadNew := rfl
@[simp] theorem State.modCtx_switching (c : Nat) (f : Ctx → Ctx) : (s.modCtx c f).switching = s.switching := rfl
@[simp] theorem State.modCtx_capGen (c : Nat) (f : Ctx → Ctx) : (s.modCtx c f).capGen = s.capGen := rfl
@[simp] theorem State.modCtx_powered (c : Nat) (f : Ctx → Ctx) : (s.modCtx c f).powered = s.powered := rfl
@[simp] theorem State.modCtx_onTick (c : Nat) (f : Ctx → Ctx) : (s.modCtx c f).onTick = s.onTick := rfl
@[simp] theorem State.modCtx_booted (c : Nat) (f : Ctx → Ctx) : (s.modCtx c f).booted = s.booted := rfl
@[simp] theorem State.modCtx_cur (c : Nat) (f : Ctx → Ctx) : (s.modCtx c f).cur = s.cur := rfl
@[simp] theorem State.modCtx_second (c : Nat) (f : Ctx → Ctx) : (s.modCtx c f).second = s.second := rfl
@[simp] theorem State.modCtx_agenda (c : Nat) (f : Ctx → Ctx) : (s.modCtx c f).agenda = s.agenda := rfl
@[simp] theorem State.modCtx_engines (c : Nat) (f : Ctx → Ctx) : (s.modCtx c f).engines = s.engines := rfl
@[simp] theorem State.modCtx_unack (c : Nat) (f : Ctx → Ctx) : (s.modCtx c f).unack = s.unack := rfl
@[simp] theorem State.modCtx_transit (c : Nat) (f : Ctx → Ctx) : (s.modCtx c f).transit = s.transit := rfl
@[simp] theorem State.modCtx_relMem (c : Nat) (f : Ctx → Ctx) : (s.modCtx c f).relMem = s.relMem := rfl
@[simp] theorem State.modCtx_emergencyAt (c : Nat) (f : Ctx → Ctx) : (s.modCtx c f).emergencyAt = s.emergencyAt := rfl
@[simp] theorem State.modCtx_pair (c : Nat) (f : Ctx → Ctx) : (s.modCtx c f).pair = s.pair := rfl
@[simp] theorem State.modCtx_grown (c : Nat) (f : Ctx → Ctx) : (s.modCtx c f).grown = s.grown := rfl
@[simp] theorem State.modCtx_tick (c : Nat) (f : Ctx → Ctx) : (s.modCtx c f).tick = s.tick := rfl

/-! ## `modLaunch` -/

@[simp] theorem State.modLaunch_hbm (n l : Nat) (f : Launch → Launch) : (s.modLaunch n l f).hbm = s.hbm := rfl
@[simp] theorem State.modLaunch_pool (n l : Nat) (f : Launch → Launch) : (s.modLaunch n l f).pool = s.pool := rfl
@[simp] theorem State.modLaunch_host (n l : Nat) (f : Launch → Launch) : (s.modLaunch n l f).host = s.host := rfl
@[simp] theorem State.modLaunch_vaults (n l : Nat) (f : Launch → Launch) : (s.modLaunch n l f).vaults = s.vaults := rfl
@[simp] theorem State.modLaunch_marks (n l : Nat) (f : Launch → Launch) : (s.modLaunch n l f).marks = s.marks := rfl
@[simp] theorem State.modLaunch_badCrc (n l : Nat) (f : Launch → Launch) : (s.modLaunch n l f).badCrc = s.badCrc := rfl
@[simp] theorem State.modLaunch_units (n l : Nat) (f : Launch → Launch) : (s.modLaunch n l f).units = s.units := rfl
@[simp] theorem State.modLaunch_cores (n l : Nat) (f : Launch → Launch) : (s.modLaunch n l f).cores = s.cores := rfl
@[simp] theorem State.modLaunch_dies (n l : Nat) (f : Launch → Launch) : (s.modLaunch n l f).dies = s.dies := rfl
@[simp] theorem State.modLaunch_ctxs (n l : Nat) (f : Launch → Launch) : (s.modLaunch n l f).ctxs = s.ctxs := rfl
@[simp] theorem State.modLaunch_levels (n l : Nat) (f : Launch → Launch) : (s.modLaunch n l f).levels = s.levels := rfl
@[simp] theorem State.modLaunch_sections (n l : Nat) (f : Launch → Launch) : (s.modLaunch n l f).sections = s.sections := rfl
@[simp] theorem State.modLaunch_funcs (n l : Nat) (f : Launch → Launch) : (s.modLaunch n l f).funcs = s.funcs := rfl
@[simp] theorem State.modLaunch_quanta (n l : Nat) (f : Launch → Launch) : (s.modLaunch n l f).quanta = s.quanta := rfl
@[simp] theorem State.modLaunch_quantaNext (n l : Nat) (f : Launch → Launch) : (s.modLaunch n l f).quantaNext = s.quantaNext := rfl
@[simp] theorem State.modLaunch_slice (n l : Nat) (f : Launch → Launch) : (s.modLaunch n l f).slice = s.slice := rfl
@[simp] theorem State.modLaunch_quantaRun (n l : Nat) (f : Launch → Launch) : (s.modLaunch n l f).quantaRun = s.quantaRun := rfl
@[simp] theorem State.modLaunch_tenant (n l : Nat) (f : Launch → Launch) : (s.modLaunch n l f).tenant = s.tenant := rfl
@[simp] theorem State.modLaunch_front (n l : Nat) (f : Launch → Launch) : (s.modLaunch n l f).front = s.front := rfl
@[simp] theorem State.modLaunch_pools (n l : Nat) (f : Launch → Launch) : (s.modLaunch n l f).pools = s.pools := rfl
@[simp] theorem State.modLaunch_poolUp (n l : Nat) (f : Launch → Launch) : (s.modLaunch n l f).poolUp = s.poolUp := rfl
@[simp] theorem State.modLaunch_poolCache (n l : Nat) (f : Launch → Launch) : (s.modLaunch n l f).poolCache = s.poolCache := rfl
@[simp] theorem State.modLaunch_ports (n l : Nat) (f : Launch → Launch) : (s.modLaunch n l f).ports = s.ports := rfl
@[simp] theorem State.modLaunch_routes (n l : Nat) (f : Launch → Launch) : (s.modLaunch n l f).routes = s.routes := rfl
@[simp] theorem State.modLaunch_ident (n l : Nat) (f : Launch → Launch) : (s.modLaunch n l f).ident = s.ident := rfl
@[simp] theorem State.modLaunch_phasing (n l : Nat) (f : Launch → Launch) : (s.modLaunch n l f).phasing = s.phasing := rfl
@[simp] theorem State.modLaunch_outReqs (n l : Nat) (f : Launch → Launch) : (s.modLaunch n l f).outReqs = s.outReqs := rfl
@[simp] theorem State.modLaunch_nextId (n l : Nat) (f : Launch → Launch) : (s.modLaunch n l f).nextId = s.nextId := rfl
@[simp] theorem State.modLaunch_seen (n l : Nat) (f : Launch → Launch) : (s.modLaunch n l f).seen = s.seen := rfl
@[simp] theorem State.modLaunch_lowack (n l : Nat) (f : Launch → Launch) : (s.modLaunch n l f).lowack = s.lowack := rfl
@[simp] theorem State.modLaunch_absorbed (n l : Nat) (f : Launch → Launch) : (s.modLaunch n l f).absorbed = s.absorbed := rfl
@[simp] theorem State.modLaunch_owned (n l : Nat) (f : Launch → Launch) : (s.modLaunch n l f).owned = s.owned := rfl
@[simp] theorem State.modLaunch_limit (n l : Nat) (f : Launch → Launch) : (s.modLaunch n l f).limit = s.limit := rfl
@[simp] theorem State.modLaunch_emergency (n l : Nat) (f : Launch → Launch) : (s.modLaunch n l f).emergency = s.emergency := rfl
@[simp] theorem State.modLaunch_stretched (n l : Nat) (f : Launch → Launch) : (s.modLaunch n l f).stretched = s.stretched := rfl
@[simp] theorem State.modLaunch_emergencies (n l : Nat) (f : Launch → Launch) : (s.modLaunch n l f).emergencies = s.emergencies := rfl
@[simp] theorem State.modLaunch_energy (n l : Nat) (f : Launch → Launch) : (s.modLaunch n l f).energy = s.energy := rfl
@[simp] theorem State.modLaunch_hbmC (n l : Nat) (f : Launch → Launch) : (s.modLaunch n l f).hbmC = s.hbmC := rfl
@[simp] theorem State.modLaunch_hbmU (n l : Nat) (f : Launch → Launch) : (s.modLaunch n l f).hbmU = s.hbmU := rfl
@[simp] theorem State.modLaunch_banks (n l : Nat) (f : Launch → Launch) : (s.modLaunch n l f).banks = s.banks := rfl
@[simp] theorem State.modLaunch_active (n l : Nat) (f : Launch → Launch) : (s.modLaunch n l f).active = s.active := rfl
@[simp] theorem State.modLaunch_rollback (n l : Nat) (f : Launch → Launch) : (s.modLaunch n l f).rollback = s.rollback := rfl
@[simp] theorem State.modLaunch_loading (n l : Nat) (f : Launch → Launch) : (s.modLaunch n l f).loading = s.loading := rfl
@[simp] theorem State.modLaunch_loadNew (n l : Nat) (f : Launch → Launch) : (s.modLaunch n l f).loadNew = s.loadNew := rfl
@[simp] theorem State.modLaunch_switching (n l : Nat) (f : Launch → Launch) : (s.modLaunch n l f).switching = s.switching := rfl
@[simp] theorem State.modLaunch_capGen (n l : Nat) (f : Launch → Launch) : (s.modLaunch n l f).capGen = s.capGen := rfl
@[simp] theorem State.modLaunch_powered (n l : Nat) (f : Launch → Launch) : (s.modLaunch n l f).powered = s.powered := rfl
@[simp] theorem State.modLaunch_onTick (n l : Nat) (f : Launch → Launch) : (s.modLaunch n l f).onTick = s.onTick := rfl
@[simp] theorem State.modLaunch_booted (n l : Nat) (f : Launch → Launch) : (s.modLaunch n l f).booted = s.booted := rfl
@[simp] theorem State.modLaunch_cur (n l : Nat) (f : Launch → Launch) : (s.modLaunch n l f).cur = s.cur := rfl
@[simp] theorem State.modLaunch_second (n l : Nat) (f : Launch → Launch) : (s.modLaunch n l f).second = s.second := rfl
@[simp] theorem State.modLaunch_agenda (n l : Nat) (f : Launch → Launch) : (s.modLaunch n l f).agenda = s.agenda := rfl
@[simp] theorem State.modLaunch_engines (n l : Nat) (f : Launch → Launch) : (s.modLaunch n l f).engines = s.engines := rfl
@[simp] theorem State.modLaunch_unack (n l : Nat) (f : Launch → Launch) : (s.modLaunch n l f).unack = s.unack := rfl
@[simp] theorem State.modLaunch_transit (n l : Nat) (f : Launch → Launch) : (s.modLaunch n l f).transit = s.transit := rfl
@[simp] theorem State.modLaunch_relMem (n l : Nat) (f : Launch → Launch) : (s.modLaunch n l f).relMem = s.relMem := rfl
@[simp] theorem State.modLaunch_emergencyAt (n l : Nat) (f : Launch → Launch) : (s.modLaunch n l f).emergencyAt = s.emergencyAt := rfl
@[simp] theorem State.modLaunch_pair (n l : Nat) (f : Launch → Launch) : (s.modLaunch n l f).pair = s.pair := rfl
@[simp] theorem State.modLaunch_grown (n l : Nat) (f : Launch → Launch) : (s.modLaunch n l f).grown = s.grown := rfl
@[simp] theorem State.modLaunch_tick (n l : Nat) (f : Launch → Launch) : (s.modLaunch n l f).tick = s.tick := rfl

/-! ## `dueAgain` -/

@[simp] theorem State.dueAgain_hbm (i : Instr) : (s.dueAgain i).hbm = s.hbm := rfl
@[simp] theorem State.dueAgain_pool (i : Instr) : (s.dueAgain i).pool = s.pool := rfl
@[simp] theorem State.dueAgain_host (i : Instr) : (s.dueAgain i).host = s.host := rfl
@[simp] theorem State.dueAgain_vaults (i : Instr) : (s.dueAgain i).vaults = s.vaults := rfl
@[simp] theorem State.dueAgain_marks (i : Instr) : (s.dueAgain i).marks = s.marks := rfl
@[simp] theorem State.dueAgain_badCrc (i : Instr) : (s.dueAgain i).badCrc = s.badCrc := rfl
@[simp] theorem State.dueAgain_units (i : Instr) : (s.dueAgain i).units = s.units := rfl
@[simp] theorem State.dueAgain_cores (i : Instr) : (s.dueAgain i).cores = s.cores := rfl
@[simp] theorem State.dueAgain_dies (i : Instr) : (s.dueAgain i).dies = s.dies := rfl
@[simp] theorem State.dueAgain_ctxs (i : Instr) : (s.dueAgain i).ctxs = s.ctxs := rfl
@[simp] theorem State.dueAgain_launches (i : Instr) : (s.dueAgain i).launches = s.launches := rfl
@[simp] theorem State.dueAgain_levels (i : Instr) : (s.dueAgain i).levels = s.levels := rfl
@[simp] theorem State.dueAgain_sections (i : Instr) : (s.dueAgain i).sections = s.sections := rfl
@[simp] theorem State.dueAgain_funcs (i : Instr) : (s.dueAgain i).funcs = s.funcs := rfl
@[simp] theorem State.dueAgain_quanta (i : Instr) : (s.dueAgain i).quanta = s.quanta := rfl
@[simp] theorem State.dueAgain_quantaNext (i : Instr) : (s.dueAgain i).quantaNext = s.quantaNext := rfl
@[simp] theorem State.dueAgain_slice (i : Instr) : (s.dueAgain i).slice = s.slice := rfl
@[simp] theorem State.dueAgain_quantaRun (i : Instr) : (s.dueAgain i).quantaRun = s.quantaRun := rfl
@[simp] theorem State.dueAgain_tenant (i : Instr) : (s.dueAgain i).tenant = s.tenant := rfl
@[simp] theorem State.dueAgain_front (i : Instr) : (s.dueAgain i).front = s.front := rfl
@[simp] theorem State.dueAgain_pools (i : Instr) : (s.dueAgain i).pools = s.pools := rfl
@[simp] theorem State.dueAgain_poolUp (i : Instr) : (s.dueAgain i).poolUp = s.poolUp := rfl
@[simp] theorem State.dueAgain_poolCache (i : Instr) : (s.dueAgain i).poolCache = s.poolCache := rfl
@[simp] theorem State.dueAgain_ports (i : Instr) : (s.dueAgain i).ports = s.ports := rfl
@[simp] theorem State.dueAgain_routes (i : Instr) : (s.dueAgain i).routes = s.routes := rfl
@[simp] theorem State.dueAgain_ident (i : Instr) : (s.dueAgain i).ident = s.ident := rfl
@[simp] theorem State.dueAgain_phasing (i : Instr) : (s.dueAgain i).phasing = s.phasing := rfl
@[simp] theorem State.dueAgain_outReqs (i : Instr) : (s.dueAgain i).outReqs = s.outReqs := rfl
@[simp] theorem State.dueAgain_nextId (i : Instr) : (s.dueAgain i).nextId = s.nextId := rfl
@[simp] theorem State.dueAgain_seen (i : Instr) : (s.dueAgain i).seen = s.seen := rfl
@[simp] theorem State.dueAgain_lowack (i : Instr) : (s.dueAgain i).lowack = s.lowack := rfl
@[simp] theorem State.dueAgain_absorbed (i : Instr) : (s.dueAgain i).absorbed = s.absorbed := rfl
@[simp] theorem State.dueAgain_owned (i : Instr) : (s.dueAgain i).owned = s.owned := rfl
@[simp] theorem State.dueAgain_limit (i : Instr) : (s.dueAgain i).limit = s.limit := rfl
@[simp] theorem State.dueAgain_emergency (i : Instr) : (s.dueAgain i).emergency = s.emergency := rfl
@[simp] theorem State.dueAgain_stretched (i : Instr) : (s.dueAgain i).stretched = s.stretched := rfl
@[simp] theorem State.dueAgain_emergencies (i : Instr) : (s.dueAgain i).emergencies = s.emergencies := rfl
@[simp] theorem State.dueAgain_energy (i : Instr) : (s.dueAgain i).energy = s.energy := rfl
@[simp] theorem State.dueAgain_hbmC (i : Instr) : (s.dueAgain i).hbmC = s.hbmC := rfl
@[simp] theorem State.dueAgain_hbmU (i : Instr) : (s.dueAgain i).hbmU = s.hbmU := rfl
@[simp] theorem State.dueAgain_banks (i : Instr) : (s.dueAgain i).banks = s.banks := rfl
@[simp] theorem State.dueAgain_active (i : Instr) : (s.dueAgain i).active = s.active := rfl
@[simp] theorem State.dueAgain_rollback (i : Instr) : (s.dueAgain i).rollback = s.rollback := rfl
@[simp] theorem State.dueAgain_loading (i : Instr) : (s.dueAgain i).loading = s.loading := rfl
@[simp] theorem State.dueAgain_loadNew (i : Instr) : (s.dueAgain i).loadNew = s.loadNew := rfl
@[simp] theorem State.dueAgain_switching (i : Instr) : (s.dueAgain i).switching = s.switching := rfl
@[simp] theorem State.dueAgain_capGen (i : Instr) : (s.dueAgain i).capGen = s.capGen := rfl
@[simp] theorem State.dueAgain_powered (i : Instr) : (s.dueAgain i).powered = s.powered := rfl
@[simp] theorem State.dueAgain_onTick (i : Instr) : (s.dueAgain i).onTick = s.onTick := rfl
@[simp] theorem State.dueAgain_booted (i : Instr) : (s.dueAgain i).booted = s.booted := rfl
@[simp] theorem State.dueAgain_cur (i : Instr) : (s.dueAgain i).cur = s.cur := rfl
@[simp] theorem State.dueAgain_second (i : Instr) : (s.dueAgain i).second = s.second := rfl
@[simp] theorem State.dueAgain_engines (i : Instr) : (s.dueAgain i).engines = s.engines := rfl
@[simp] theorem State.dueAgain_unack (i : Instr) : (s.dueAgain i).unack = s.unack := rfl
@[simp] theorem State.dueAgain_transit (i : Instr) : (s.dueAgain i).transit = s.transit := rfl
@[simp] theorem State.dueAgain_relMem (i : Instr) : (s.dueAgain i).relMem = s.relMem := rfl
@[simp] theorem State.dueAgain_emergencyAt (i : Instr) : (s.dueAgain i).emergencyAt = s.emergencyAt := rfl
@[simp] theorem State.dueAgain_pair (i : Instr) : (s.dueAgain i).pair = s.pair := rfl
@[simp] theorem State.dueAgain_grown (i : Instr) : (s.dueAgain i).grown = s.grown := rfl
@[simp] theorem State.dueAgain_tick (i : Instr) : (s.dueAgain i).tick = s.tick := rfl

/-! ## `due` -/

theorem State.due_eq (i : Instr) : ∃ a, s.due i = { s with agenda := a } := by
  unfold State.due
  split <;> exact ⟨_, rfl⟩

@[simp] theorem State.due_hbm (i : Instr) : (s.due i).hbm = s.hbm := by unfold State.due; split <;> rfl
@[simp] theorem State.due_pool (i : Instr) : (s.due i).pool = s.pool := by unfold State.due; split <;> rfl
@[simp] theorem State.due_host (i : Instr) : (s.due i).host = s.host := by unfold State.due; split <;> rfl
@[simp] theorem State.due_vaults (i : Instr) : (s.due i).vaults = s.vaults := by unfold State.due; split <;> rfl
@[simp] theorem State.due_marks (i : Instr) : (s.due i).marks = s.marks := by unfold State.due; split <;> rfl
@[simp] theorem State.due_badCrc (i : Instr) : (s.due i).badCrc = s.badCrc := by unfold State.due; split <;> rfl
@[simp] theorem State.due_units (i : Instr) : (s.due i).units = s.units := by unfold State.due; split <;> rfl
@[simp] theorem State.due_cores (i : Instr) : (s.due i).cores = s.cores := by unfold State.due; split <;> rfl
@[simp] theorem State.due_dies (i : Instr) : (s.due i).dies = s.dies := by unfold State.due; split <;> rfl
@[simp] theorem State.due_ctxs (i : Instr) : (s.due i).ctxs = s.ctxs := by unfold State.due; split <;> rfl
@[simp] theorem State.due_launches (i : Instr) : (s.due i).launches = s.launches := by unfold State.due; split <;> rfl
@[simp] theorem State.due_levels (i : Instr) : (s.due i).levels = s.levels := by unfold State.due; split <;> rfl
@[simp] theorem State.due_sections (i : Instr) : (s.due i).sections = s.sections := by unfold State.due; split <;> rfl
@[simp] theorem State.due_funcs (i : Instr) : (s.due i).funcs = s.funcs := by unfold State.due; split <;> rfl
@[simp] theorem State.due_quanta (i : Instr) : (s.due i).quanta = s.quanta := by unfold State.due; split <;> rfl
@[simp] theorem State.due_quantaNext (i : Instr) : (s.due i).quantaNext = s.quantaNext := by unfold State.due; split <;> rfl
@[simp] theorem State.due_slice (i : Instr) : (s.due i).slice = s.slice := by unfold State.due; split <;> rfl
@[simp] theorem State.due_quantaRun (i : Instr) : (s.due i).quantaRun = s.quantaRun := by unfold State.due; split <;> rfl
@[simp] theorem State.due_tenant (i : Instr) : (s.due i).tenant = s.tenant := by unfold State.due; split <;> rfl
@[simp] theorem State.due_front (i : Instr) : (s.due i).front = s.front := by unfold State.due; split <;> rfl
@[simp] theorem State.due_pools (i : Instr) : (s.due i).pools = s.pools := by unfold State.due; split <;> rfl
@[simp] theorem State.due_poolUp (i : Instr) : (s.due i).poolUp = s.poolUp := by unfold State.due; split <;> rfl
@[simp] theorem State.due_poolCache (i : Instr) : (s.due i).poolCache = s.poolCache := by unfold State.due; split <;> rfl
@[simp] theorem State.due_ports (i : Instr) : (s.due i).ports = s.ports := by unfold State.due; split <;> rfl
@[simp] theorem State.due_routes (i : Instr) : (s.due i).routes = s.routes := by unfold State.due; split <;> rfl
@[simp] theorem State.due_ident (i : Instr) : (s.due i).ident = s.ident := by unfold State.due; split <;> rfl
@[simp] theorem State.due_phasing (i : Instr) : (s.due i).phasing = s.phasing := by unfold State.due; split <;> rfl
@[simp] theorem State.due_outReqs (i : Instr) : (s.due i).outReqs = s.outReqs := by unfold State.due; split <;> rfl
@[simp] theorem State.due_nextId (i : Instr) : (s.due i).nextId = s.nextId := by unfold State.due; split <;> rfl
@[simp] theorem State.due_seen (i : Instr) : (s.due i).seen = s.seen := by unfold State.due; split <;> rfl
@[simp] theorem State.due_lowack (i : Instr) : (s.due i).lowack = s.lowack := by unfold State.due; split <;> rfl
@[simp] theorem State.due_absorbed (i : Instr) : (s.due i).absorbed = s.absorbed := by unfold State.due; split <;> rfl
@[simp] theorem State.due_owned (i : Instr) : (s.due i).owned = s.owned := by unfold State.due; split <;> rfl
@[simp] theorem State.due_limit (i : Instr) : (s.due i).limit = s.limit := by unfold State.due; split <;> rfl
@[simp] theorem State.due_emergency (i : Instr) : (s.due i).emergency = s.emergency := by unfold State.due; split <;> rfl
@[simp] theorem State.due_stretched (i : Instr) : (s.due i).stretched = s.stretched := by unfold State.due; split <;> rfl
@[simp] theorem State.due_emergencies (i : Instr) : (s.due i).emergencies = s.emergencies := by unfold State.due; split <;> rfl
@[simp] theorem State.due_energy (i : Instr) : (s.due i).energy = s.energy := by unfold State.due; split <;> rfl
@[simp] theorem State.due_hbmC (i : Instr) : (s.due i).hbmC = s.hbmC := by unfold State.due; split <;> rfl
@[simp] theorem State.due_hbmU (i : Instr) : (s.due i).hbmU = s.hbmU := by unfold State.due; split <;> rfl
@[simp] theorem State.due_banks (i : Instr) : (s.due i).banks = s.banks := by unfold State.due; split <;> rfl
@[simp] theorem State.due_active (i : Instr) : (s.due i).active = s.active := by unfold State.due; split <;> rfl
@[simp] theorem State.due_rollback (i : Instr) : (s.due i).rollback = s.rollback := by unfold State.due; split <;> rfl
@[simp] theorem State.due_loading (i : Instr) : (s.due i).loading = s.loading := by unfold State.due; split <;> rfl
@[simp] theorem State.due_loadNew (i : Instr) : (s.due i).loadNew = s.loadNew := by unfold State.due; split <;> rfl
@[simp] theorem State.due_switching (i : Instr) : (s.due i).switching = s.switching := by unfold State.due; split <;> rfl
@[simp] theorem State.due_capGen (i : Instr) : (s.due i).capGen = s.capGen := by unfold State.due; split <;> rfl
@[simp] theorem State.due_powered (i : Instr) : (s.due i).powered = s.powered := by unfold State.due; split <;> rfl
@[simp] theorem State.due_onTick (i : Instr) : (s.due i).onTick = s.onTick := by unfold State.due; split <;> rfl
@[simp] theorem State.due_booted (i : Instr) : (s.due i).booted = s.booted := by unfold State.due; split <;> rfl
@[simp] theorem State.due_cur (i : Instr) : (s.due i).cur = s.cur := by unfold State.due; split <;> rfl
@[simp] theorem State.due_second (i : Instr) : (s.due i).second = s.second := by unfold State.due; split <;> rfl
@[simp] theorem State.due_engines (i : Instr) : (s.due i).engines = s.engines := by unfold State.due; split <;> rfl
@[simp] theorem State.due_unack (i : Instr) : (s.due i).unack = s.unack := by unfold State.due; split <;> rfl
@[simp] theorem State.due_transit (i : Instr) : (s.due i).transit = s.transit := by unfold State.due; split <;> rfl
@[simp] theorem State.due_relMem (i : Instr) : (s.due i).relMem = s.relMem := by unfold State.due; split <;> rfl
@[simp] theorem State.due_emergencyAt (i : Instr) : (s.due i).emergencyAt = s.emergencyAt := by unfold State.due; split <;> rfl
@[simp] theorem State.due_pair (i : Instr) : (s.due i).pair = s.pair := by unfold State.due; split <;> rfl
@[simp] theorem State.due_grown (i : Instr) : (s.due i).grown = s.grown := by unfold State.due; split <;> rfl
@[simp] theorem State.due_tick (i : Instr) : (s.due i).tick = s.tick := by unfold State.due; split <;> rfl

/-! ## `tock` -/

@[simp] theorem tock_hbm : (tock s).hbm = s.hbm := rfl
@[simp] theorem tock_pool : (tock s).pool = s.pool := rfl
@[simp] theorem tock_host : (tock s).host = s.host := rfl
@[simp] theorem tock_vaults : (tock s).vaults = s.vaults := rfl
@[simp] theorem tock_marks : (tock s).marks = s.marks := rfl
@[simp] theorem tock_badCrc : (tock s).badCrc = s.badCrc := rfl
@[simp] theorem tock_units : (tock s).units = s.units := rfl
@[simp] theorem tock_cores : (tock s).cores = s.cores := rfl
@[simp] theorem tock_dies : (tock s).dies = s.dies := rfl
@[simp] theorem tock_ctxs : (tock s).ctxs = s.ctxs := rfl
@[simp] theorem tock_launches : (tock s).launches = s.launches := rfl
@[simp] theorem tock_levels : (tock s).levels = s.levels := rfl
@[simp] theorem tock_sections : (tock s).sections = s.sections := rfl
@[simp] theorem tock_funcs : (tock s).funcs = s.funcs := rfl
@[simp] theorem tock_quanta : (tock s).quanta = s.quanta := rfl
@[simp] theorem tock_quantaNext : (tock s).quantaNext = s.quantaNext := rfl
@[simp] theorem tock_slice : (tock s).slice = s.slice := rfl
@[simp] theorem tock_quantaRun : (tock s).quantaRun = s.quantaRun := rfl
@[simp] theorem tock_tenant : (tock s).tenant = s.tenant := rfl
@[simp] theorem tock_front : (tock s).front = s.front := rfl
@[simp] theorem tock_pools : (tock s).pools = s.pools := rfl
@[simp] theorem tock_poolUp : (tock s).poolUp = s.poolUp := rfl
@[simp] theorem tock_poolCache : (tock s).poolCache = s.poolCache := rfl
@[simp] theorem tock_ports : (tock s).ports = s.ports := rfl
@[simp] theorem tock_routes : (tock s).routes = s.routes := rfl
@[simp] theorem tock_ident : (tock s).ident = s.ident := rfl
@[simp] theorem tock_phasing : (tock s).phasing = s.phasing := rfl
@[simp] theorem tock_outReqs : (tock s).outReqs = s.outReqs := rfl
@[simp] theorem tock_nextId : (tock s).nextId = s.nextId := rfl
@[simp] theorem tock_seen : (tock s).seen = s.seen := rfl
@[simp] theorem tock_lowack : (tock s).lowack = s.lowack := rfl
@[simp] theorem tock_absorbed : (tock s).absorbed = s.absorbed := rfl
@[simp] theorem tock_owned : (tock s).owned = s.owned := rfl
@[simp] theorem tock_limit : (tock s).limit = s.limit := rfl
@[simp] theorem tock_emergency : (tock s).emergency = s.emergency := rfl
@[simp] theorem tock_stretched : (tock s).stretched = s.stretched := rfl
@[simp] theorem tock_emergencies : (tock s).emergencies = s.emergencies := rfl
@[simp] theorem tock_energy : (tock s).energy = s.energy := rfl
@[simp] theorem tock_hbmC : (tock s).hbmC = s.hbmC := rfl
@[simp] theorem tock_hbmU : (tock s).hbmU = s.hbmU := rfl
@[simp] theorem tock_banks : (tock s).banks = s.banks := rfl
@[simp] theorem tock_active : (tock s).active = s.active := rfl
@[simp] theorem tock_rollback : (tock s).rollback = s.rollback := rfl
@[simp] theorem tock_loading : (tock s).loading = s.loading := rfl
@[simp] theorem tock_loadNew : (tock s).loadNew = s.loadNew := rfl
@[simp] theorem tock_switching : (tock s).switching = s.switching := rfl
@[simp] theorem tock_capGen : (tock s).capGen = s.capGen := rfl
@[simp] theorem tock_powered : (tock s).powered = s.powered := rfl
@[simp] theorem tock_onTick : (tock s).onTick = s.onTick := rfl
@[simp] theorem tock_booted : (tock s).booted = s.booted := rfl
@[simp] theorem tock_second : (tock s).second = s.second := rfl
@[simp] theorem tock_agenda : (tock s).agenda = s.agenda := rfl
@[simp] theorem tock_engines : (tock s).engines = s.engines := rfl
@[simp] theorem tock_unack : (tock s).unack = s.unack := rfl
@[simp] theorem tock_transit : (tock s).transit = s.transit := rfl
@[simp] theorem tock_relMem : (tock s).relMem = s.relMem := rfl
@[simp] theorem tock_emergencyAt : (tock s).emergencyAt = s.emergencyAt := rfl
@[simp] theorem tock_pair : (tock s).pair = s.pair := rfl
@[simp] theorem tock_grown : (tock s).grown = s.grown := rfl
@[simp] theorem tock_tick : (tock s).tick = s.tick + 1 := rfl
@[simp] theorem tock_cur : (tock s).cur = none := rfl

/-! ## Registers of a group -/

@[simp] theorem Group.setV_gid (r l : Nat) (w : Word) : (g.setV r l w).gid = g.gid := rfl
@[simp] theorem Group.setV_slot (r l : Nat) (w : Word) : (g.setV r l w).slot = g.slot := rfl
@[simp] theorem Group.setV_live (r l : Nat) (w : Word) : (g.setV r l w).live = g.live := rfl
@[simp] theorem Group.setV_grant (r l : Nat) (w : Word) : (g.setV r l w).grant = g.grant := rfl
@[simp] theorem Group.setV_vt (r l : Nat) (w : Word) : (g.setV r l w).vt = g.vt := rfl
@[simp] theorem Group.setV_s (r l : Nat) (w : Word) : (g.setV r l w).s = g.s := rfl
@[simp] theorem Group.setV_st (r l : Nat) (w : Word) : (g.setV r l w).st = g.st := rfl
@[simp] theorem Group.setV_m (r l : Nat) (w : Word) : (g.setV r l w).m = g.m := rfl
@[simp] theorem Group.setV_p (r l : Nat) (w : Word) : (g.setV r l w).p = g.p := rfl
@[simp] theorem Group.setV_tid (r l : Nat) (w : Word) : (g.setV r l w).tid = g.tid := rfl
@[simp] theorem Group.setV_ents (r l : Nat) (w : Word) : (g.setV r l w).ents = g.ents := rfl
@[simp] theorem Group.setV_liven (r l : Nat) (w : Word) : (g.setV r l w).liven = g.liven := rfl
@[simp] theorem Group.setV_gstat (r l : Nat) (w : Word) : (g.setV r l w).gstat = g.gstat := rfl
@[simp] theorem Group.setV_uiepc (r l : Nat) (w : Word) : (g.setV r l w).uiepc = g.uiepc := rfl
@[simp] theorem Group.setV_cause (r l : Nat) (w : Word) : (g.setV r l w).cause = g.cause := rfl
@[simp] theorem Group.setV_epc (r l : Nat) (w : Word) : (g.setV r l w).epc = g.epc := rfl
@[simp] theorem Group.setV_frcnt (r l : Nat) (w : Word) : (g.setV r l w).frcnt = g.frcnt := rfl
@[simp] theorem Group.setV_skidN (r l : Nat) (w : Word) : (g.setV r l w).skidN = g.skidN := rfl
@[simp] theorem Group.setV_inh (r l : Nat) (w : Word) : (g.setV r l w).inh = g.inh := rfl
@[simp] theorem Group.setV_sect (r l : Nat) (w : Word) : (g.setV r l w).sect = g.sect := rfl
@[simp] theorem Group.setV_park (r l : Nat) (w : Word) : (g.setV r l w).park = g.park := rfl
@[simp] theorem Group.setV_after (r l : Nat) (w : Word) : (g.setV r l w).after = g.after := rfl
@[simp] theorem Group.setV_run (r l : Nat) (w : Word) : (g.setV r l w).run = g.run := rfl
@[simp] theorem Group.setV_scall (r l : Nat) (w : Word) : (g.setV r l w).scall = g.scall := rfl
@[simp] theorem Group.setV_cont (r l : Nat) (w : Word) : (g.setV r l w).cont = g.cont := rfl
@[simp] theorem Group.setV_fault (r l : Nat) (w : Word) : (g.setV r l w).fault = g.fault := rfl
@[simp] theorem Group.setV_trapped (r l : Nat) (w : Word) : (g.setV r l w).trapped = g.trapped := rfl
@[simp] theorem Group.setV_trapPc (r l : Nat) (w : Word) : (g.setV r l w).trapPc = g.trapPc := rfl
@[simp] theorem Group.setV_frec (r l : Nat) (w : Word) : (g.setV r l w).frec = g.frec := rfl
@[simp] theorem Group.setV_tph (r l : Nat) (w : Word) : (g.setV r l w).tph = g.tph := rfl
@[simp] theorem Group.setV_arrv (r l : Nat) (w : Word) : (g.setV r l w).arrv = g.arrv := rfl
@[simp] theorem Group.setV_fblk (r l : Nat) (w : Word) : (g.setV r l w).fblk = g.fblk := rfl

@[simp] theorem Group.setS_gid (r : Nat) (w : Word) : (g.setS r w).gid = g.gid := rfl
@[simp] theorem Group.setS_slot (r : Nat) (w : Word) : (g.setS r w).slot = g.slot := rfl
@[simp] theorem Group.setS_live (r : Nat) (w : Word) : (g.setS r w).live = g.live := rfl
@[simp] theorem Group.setS_grant (r : Nat) (w : Word) : (g.setS r w).grant = g.grant := rfl
@[simp] theorem Group.setS_v (r : Nat) (w : Word) : (g.setS r w).v = g.v := rfl
@[simp] theorem Group.setS_vt (r : Nat) (w : Word) : (g.setS r w).vt = g.vt := rfl
@[simp] theorem Group.setS_st (r : Nat) (w : Word) : (g.setS r w).st = g.st := rfl
@[simp] theorem Group.setS_m (r : Nat) (w : Word) : (g.setS r w).m = g.m := rfl
@[simp] theorem Group.setS_p (r : Nat) (w : Word) : (g.setS r w).p = g.p := rfl
@[simp] theorem Group.setS_tid (r : Nat) (w : Word) : (g.setS r w).tid = g.tid := rfl
@[simp] theorem Group.setS_ents (r : Nat) (w : Word) : (g.setS r w).ents = g.ents := rfl
@[simp] theorem Group.setS_liven (r : Nat) (w : Word) : (g.setS r w).liven = g.liven := rfl
@[simp] theorem Group.setS_gstat (r : Nat) (w : Word) : (g.setS r w).gstat = g.gstat := rfl
@[simp] theorem Group.setS_uiepc (r : Nat) (w : Word) : (g.setS r w).uiepc = g.uiepc := rfl
@[simp] theorem Group.setS_cause (r : Nat) (w : Word) : (g.setS r w).cause = g.cause := rfl
@[simp] theorem Group.setS_epc (r : Nat) (w : Word) : (g.setS r w).epc = g.epc := rfl
@[simp] theorem Group.setS_frcnt (r : Nat) (w : Word) : (g.setS r w).frcnt = g.frcnt := rfl
@[simp] theorem Group.setS_skidN (r : Nat) (w : Word) : (g.setS r w).skidN = g.skidN := rfl
@[simp] theorem Group.setS_inh (r : Nat) (w : Word) : (g.setS r w).inh = g.inh := rfl
@[simp] theorem Group.setS_sect (r : Nat) (w : Word) : (g.setS r w).sect = g.sect := rfl
@[simp] theorem Group.setS_park (r : Nat) (w : Word) : (g.setS r w).park = g.park := rfl
@[simp] theorem Group.setS_after (r : Nat) (w : Word) : (g.setS r w).after = g.after := rfl
@[simp] theorem Group.setS_run (r : Nat) (w : Word) : (g.setS r w).run = g.run := rfl
@[simp] theorem Group.setS_scall (r : Nat) (w : Word) : (g.setS r w).scall = g.scall := rfl
@[simp] theorem Group.setS_cont (r : Nat) (w : Word) : (g.setS r w).cont = g.cont := rfl
@[simp] theorem Group.setS_fault (r : Nat) (w : Word) : (g.setS r w).fault = g.fault := rfl
@[simp] theorem Group.setS_trapped (r : Nat) (w : Word) : (g.setS r w).trapped = g.trapped := rfl
@[simp] theorem Group.setS_trapPc (r : Nat) (w : Word) : (g.setS r w).trapPc = g.trapPc := rfl
@[simp] theorem Group.setS_frec (r : Nat) (w : Word) : (g.setS r w).frec = g.frec := rfl
@[simp] theorem Group.setS_tph (r : Nat) (w : Word) : (g.setS r w).tph = g.tph := rfl
@[simp] theorem Group.setS_arrv (r : Nat) (w : Word) : (g.setS r w).arrv = g.arrv := rfl
@[simp] theorem Group.setS_fblk (r : Nat) (w : Word) : (g.setS r w).fblk = g.fblk := rfl

@[simp] theorem Group.setM_gid (r : Nat) (w : Word) : (g.setM r w).gid = g.gid := rfl
@[simp] theorem Group.setM_slot (r : Nat) (w : Word) : (g.setM r w).slot = g.slot := rfl
@[simp] theorem Group.setM_live (r : Nat) (w : Word) : (g.setM r w).live = g.live := rfl
@[simp] theorem Group.setM_grant (r : Nat) (w : Word) : (g.setM r w).grant = g.grant := rfl
@[simp] theorem Group.setM_v (r : Nat) (w : Word) : (g.setM r w).v = g.v := rfl
@[simp] theorem Group.setM_vt (r : Nat) (w : Word) : (g.setM r w).vt = g.vt := rfl
@[simp] theorem Group.setM_s (r : Nat) (w : Word) : (g.setM r w).s = g.s := rfl
@[simp] theorem Group.setM_st (r : Nat) (w : Word) : (g.setM r w).st = g.st := rfl
@[simp] theorem Group.setM_p (r : Nat) (w : Word) : (g.setM r w).p = g.p := rfl
@[simp] theorem Group.setM_tid (r : Nat) (w : Word) : (g.setM r w).tid = g.tid := rfl
@[simp] theorem Group.setM_ents (r : Nat) (w : Word) : (g.setM r w).ents = g.ents := rfl
@[simp] theorem Group.setM_liven (r : Nat) (w : Word) : (g.setM r w).liven = g.liven := rfl
@[simp] theorem Group.setM_gstat (r : Nat) (w : Word) : (g.setM r w).gstat = g.gstat := rfl
@[simp] theorem Group.setM_uiepc (r : Nat) (w : Word) : (g.setM r w).uiepc = g.uiepc := rfl
@[simp] theorem Group.setM_cause (r : Nat) (w : Word) : (g.setM r w).cause = g.cause := rfl
@[simp] theorem Group.setM_epc (r : Nat) (w : Word) : (g.setM r w).epc = g.epc := rfl
@[simp] theorem Group.setM_frcnt (r : Nat) (w : Word) : (g.setM r w).frcnt = g.frcnt := rfl
@[simp] theorem Group.setM_skidN (r : Nat) (w : Word) : (g.setM r w).skidN = g.skidN := rfl
@[simp] theorem Group.setM_inh (r : Nat) (w : Word) : (g.setM r w).inh = g.inh := rfl
@[simp] theorem Group.setM_sect (r : Nat) (w : Word) : (g.setM r w).sect = g.sect := rfl
@[simp] theorem Group.setM_park (r : Nat) (w : Word) : (g.setM r w).park = g.park := rfl
@[simp] theorem Group.setM_after (r : Nat) (w : Word) : (g.setM r w).after = g.after := rfl
@[simp] theorem Group.setM_run (r : Nat) (w : Word) : (g.setM r w).run = g.run := rfl
@[simp] theorem Group.setM_scall (r : Nat) (w : Word) : (g.setM r w).scall = g.scall := rfl
@[simp] theorem Group.setM_cont (r : Nat) (w : Word) : (g.setM r w).cont = g.cont := rfl
@[simp] theorem Group.setM_fault (r : Nat) (w : Word) : (g.setM r w).fault = g.fault := rfl
@[simp] theorem Group.setM_trapped (r : Nat) (w : Word) : (g.setM r w).trapped = g.trapped := rfl
@[simp] theorem Group.setM_trapPc (r : Nat) (w : Word) : (g.setM r w).trapPc = g.trapPc := rfl
@[simp] theorem Group.setM_frec (r : Nat) (w : Word) : (g.setM r w).frec = g.frec := rfl
@[simp] theorem Group.setM_tph (r : Nat) (w : Word) : (g.setM r w).tph = g.tph := rfl
@[simp] theorem Group.setM_arrv (r : Nat) (w : Word) : (g.setM r w).arrv = g.arrv := rfl
@[simp] theorem Group.setM_fblk (r : Nat) (w : Word) : (g.setM r w).fblk = g.fblk := rfl

@[simp] theorem Group.setVtag_gid (r : Nat) (t : Tag) : (g.setVtag r t).gid = g.gid := rfl
@[simp] theorem Group.setVtag_slot (r : Nat) (t : Tag) : (g.setVtag r t).slot = g.slot := rfl
@[simp] theorem Group.setVtag_live (r : Nat) (t : Tag) : (g.setVtag r t).live = g.live := rfl
@[simp] theorem Group.setVtag_grant (r : Nat) (t : Tag) : (g.setVtag r t).grant = g.grant := rfl
@[simp] theorem Group.setVtag_v (r : Nat) (t : Tag) : (g.setVtag r t).v = g.v := rfl
@[simp] theorem Group.setVtag_s (r : Nat) (t : Tag) : (g.setVtag r t).s = g.s := rfl
@[simp] theorem Group.setVtag_st (r : Nat) (t : Tag) : (g.setVtag r t).st = g.st := rfl
@[simp] theorem Group.setVtag_m (r : Nat) (t : Tag) : (g.setVtag r t).m = g.m := rfl
@[simp] theorem Group.setVtag_p (r : Nat) (t : Tag) : (g.setVtag r t).p = g.p := rfl
@[simp] theorem Group.setVtag_tid (r : Nat) (t : Tag) : (g.setVtag r t).tid = g.tid := rfl
@[simp] theorem Group.setVtag_ents (r : Nat) (t : Tag) : (g.setVtag r t).ents = g.ents := rfl
@[simp] theorem Group.setVtag_liven (r : Nat) (t : Tag) : (g.setVtag r t).liven = g.liven := rfl
@[simp] theorem Group.setVtag_gstat (r : Nat) (t : Tag) : (g.setVtag r t).gstat = g.gstat := rfl
@[simp] theorem Group.setVtag_uiepc (r : Nat) (t : Tag) : (g.setVtag r t).uiepc = g.uiepc := rfl
@[simp] theorem Group.setVtag_cause (r : Nat) (t : Tag) : (g.setVtag r t).cause = g.cause := rfl
@[simp] theorem Group.setVtag_epc (r : Nat) (t : Tag) : (g.setVtag r t).epc = g.epc := rfl
@[simp] theorem Group.setVtag_frcnt (r : Nat) (t : Tag) : (g.setVtag r t).frcnt = g.frcnt := rfl
@[simp] theorem Group.setVtag_skidN (r : Nat) (t : Tag) : (g.setVtag r t).skidN = g.skidN := rfl
@[simp] theorem Group.setVtag_inh (r : Nat) (t : Tag) : (g.setVtag r t).inh = g.inh := rfl
@[simp] theorem Group.setVtag_sect (r : Nat) (t : Tag) : (g.setVtag r t).sect = g.sect := rfl
@[simp] theorem Group.setVtag_park (r : Nat) (t : Tag) : (g.setVtag r t).park = g.park := rfl
@[simp] theorem Group.setVtag_after (r : Nat) (t : Tag) : (g.setVtag r t).after = g.after := rfl
@[simp] theorem Group.setVtag_run (r : Nat) (t : Tag) : (g.setVtag r t).run = g.run := rfl
@[simp] theorem Group.setVtag_scall (r : Nat) (t : Tag) : (g.setVtag r t).scall = g.scall := rfl
@[simp] theorem Group.setVtag_cont (r : Nat) (t : Tag) : (g.setVtag r t).cont = g.cont := rfl
@[simp] theorem Group.setVtag_fault (r : Nat) (t : Tag) : (g.setVtag r t).fault = g.fault := rfl
@[simp] theorem Group.setVtag_trapped (r : Nat) (t : Tag) : (g.setVtag r t).trapped = g.trapped := rfl
@[simp] theorem Group.setVtag_trapPc (r : Nat) (t : Tag) : (g.setVtag r t).trapPc = g.trapPc := rfl
@[simp] theorem Group.setVtag_frec (r : Nat) (t : Tag) : (g.setVtag r t).frec = g.frec := rfl
@[simp] theorem Group.setVtag_tph (r : Nat) (t : Tag) : (g.setVtag r t).tph = g.tph := rfl
@[simp] theorem Group.setVtag_arrv (r : Nat) (t : Tag) : (g.setVtag r t).arrv = g.arrv := rfl
@[simp] theorem Group.setVtag_fblk (r : Nat) (t : Tag) : (g.setVtag r t).fblk = g.fblk := rfl

@[simp] theorem Group.setStag_gid (r : Nat) (t : Tag) : (g.setStag r t).gid = g.gid := rfl
@[simp] theorem Group.setStag_slot (r : Nat) (t : Tag) : (g.setStag r t).slot = g.slot := rfl
@[simp] theorem Group.setStag_live (r : Nat) (t : Tag) : (g.setStag r t).live = g.live := rfl
@[simp] theorem Group.setStag_grant (r : Nat) (t : Tag) : (g.setStag r t).grant = g.grant := rfl
@[simp] theorem Group.setStag_v (r : Nat) (t : Tag) : (g.setStag r t).v = g.v := rfl
@[simp] theorem Group.setStag_vt (r : Nat) (t : Tag) : (g.setStag r t).vt = g.vt := rfl
@[simp] theorem Group.setStag_s (r : Nat) (t : Tag) : (g.setStag r t).s = g.s := rfl
@[simp] theorem Group.setStag_m (r : Nat) (t : Tag) : (g.setStag r t).m = g.m := rfl
@[simp] theorem Group.setStag_p (r : Nat) (t : Tag) : (g.setStag r t).p = g.p := rfl
@[simp] theorem Group.setStag_tid (r : Nat) (t : Tag) : (g.setStag r t).tid = g.tid := rfl
@[simp] theorem Group.setStag_ents (r : Nat) (t : Tag) : (g.setStag r t).ents = g.ents := rfl
@[simp] theorem Group.setStag_liven (r : Nat) (t : Tag) : (g.setStag r t).liven = g.liven := rfl
@[simp] theorem Group.setStag_gstat (r : Nat) (t : Tag) : (g.setStag r t).gstat = g.gstat := rfl
@[simp] theorem Group.setStag_uiepc (r : Nat) (t : Tag) : (g.setStag r t).uiepc = g.uiepc := rfl
@[simp] theorem Group.setStag_cause (r : Nat) (t : Tag) : (g.setStag r t).cause = g.cause := rfl
@[simp] theorem Group.setStag_epc (r : Nat) (t : Tag) : (g.setStag r t).epc = g.epc := rfl
@[simp] theorem Group.setStag_frcnt (r : Nat) (t : Tag) : (g.setStag r t).frcnt = g.frcnt := rfl
@[simp] theorem Group.setStag_skidN (r : Nat) (t : Tag) : (g.setStag r t).skidN = g.skidN := rfl
@[simp] theorem Group.setStag_inh (r : Nat) (t : Tag) : (g.setStag r t).inh = g.inh := rfl
@[simp] theorem Group.setStag_sect (r : Nat) (t : Tag) : (g.setStag r t).sect = g.sect := rfl
@[simp] theorem Group.setStag_park (r : Nat) (t : Tag) : (g.setStag r t).park = g.park := rfl
@[simp] theorem Group.setStag_after (r : Nat) (t : Tag) : (g.setStag r t).after = g.after := rfl
@[simp] theorem Group.setStag_run (r : Nat) (t : Tag) : (g.setStag r t).run = g.run := rfl
@[simp] theorem Group.setStag_scall (r : Nat) (t : Tag) : (g.setStag r t).scall = g.scall := rfl
@[simp] theorem Group.setStag_cont (r : Nat) (t : Tag) : (g.setStag r t).cont = g.cont := rfl
@[simp] theorem Group.setStag_fault (r : Nat) (t : Tag) : (g.setStag r t).fault = g.fault := rfl
@[simp] theorem Group.setStag_trapped (r : Nat) (t : Tag) : (g.setStag r t).trapped = g.trapped := rfl
@[simp] theorem Group.setStag_trapPc (r : Nat) (t : Tag) : (g.setStag r t).trapPc = g.trapPc := rfl
@[simp] theorem Group.setStag_frec (r : Nat) (t : Tag) : (g.setStag r t).frec = g.frec := rfl
@[simp] theorem Group.setStag_tph (r : Nat) (t : Tag) : (g.setStag r t).tph = g.tph := rfl
@[simp] theorem Group.setStag_arrv (r : Nat) (t : Tag) : (g.setStag r t).arrv = g.arrv := rfl
@[simp] theorem Group.setStag_fblk (r : Nat) (t : Tag) : (g.setStag r t).fblk = g.fblk := rfl

@[simp] theorem Group.orFlags_gid (n : Nat) : (g.orFlags n).gid = g.gid := rfl
@[simp] theorem Group.orFlags_slot (n : Nat) : (g.orFlags n).slot = g.slot := rfl
@[simp] theorem Group.orFlags_live (n : Nat) : (g.orFlags n).live = g.live := rfl
@[simp] theorem Group.orFlags_grant (n : Nat) : (g.orFlags n).grant = g.grant := rfl
@[simp] theorem Group.orFlags_v (n : Nat) : (g.orFlags n).v = g.v := rfl
@[simp] theorem Group.orFlags_vt (n : Nat) : (g.orFlags n).vt = g.vt := rfl
@[simp] theorem Group.orFlags_s (n : Nat) : (g.orFlags n).s = g.s := rfl
@[simp] theorem Group.orFlags_st (n : Nat) : (g.orFlags n).st = g.st := rfl
@[simp] theorem Group.orFlags_m (n : Nat) : (g.orFlags n).m = g.m := rfl
@[simp] theorem Group.orFlags_p (n : Nat) : (g.orFlags n).p = g.p := rfl
@[simp] theorem Group.orFlags_tid (n : Nat) : (g.orFlags n).tid = g.tid := rfl
@[simp] theorem Group.orFlags_ents (n : Nat) : (g.orFlags n).ents = g.ents := rfl
@[simp] theorem Group.orFlags_liven (n : Nat) : (g.orFlags n).liven = g.liven := rfl
@[simp] theorem Group.orFlags_uiepc (n : Nat) : (g.orFlags n).uiepc = g.uiepc := rfl
@[simp] theorem Group.orFlags_cause (n : Nat) : (g.orFlags n).cause = g.cause := rfl
@[simp] theorem Group.orFlags_epc (n : Nat) : (g.orFlags n).epc = g.epc := rfl
@[simp] theorem Group.orFlags_frcnt (n : Nat) : (g.orFlags n).frcnt = g.frcnt := rfl
@[simp] theorem Group.orFlags_skidN (n : Nat) : (g.orFlags n).skidN = g.skidN := rfl
@[simp] theorem Group.orFlags_inh (n : Nat) : (g.orFlags n).inh = g.inh := rfl
@[simp] theorem Group.orFlags_sect (n : Nat) : (g.orFlags n).sect = g.sect := rfl
@[simp] theorem Group.orFlags_park (n : Nat) : (g.orFlags n).park = g.park := rfl
@[simp] theorem Group.orFlags_after (n : Nat) : (g.orFlags n).after = g.after := rfl
@[simp] theorem Group.orFlags_run (n : Nat) : (g.orFlags n).run = g.run := rfl
@[simp] theorem Group.orFlags_scall (n : Nat) : (g.orFlags n).scall = g.scall := rfl
@[simp] theorem Group.orFlags_cont (n : Nat) : (g.orFlags n).cont = g.cont := rfl
@[simp] theorem Group.orFlags_fault (n : Nat) : (g.orFlags n).fault = g.fault := rfl
@[simp] theorem Group.orFlags_trapped (n : Nat) : (g.orFlags n).trapped = g.trapped := rfl
@[simp] theorem Group.orFlags_trapPc (n : Nat) : (g.orFlags n).trapPc = g.trapPc := rfl
@[simp] theorem Group.orFlags_frec (n : Nat) : (g.orFlags n).frec = g.frec := rfl
@[simp] theorem Group.orFlags_tph (n : Nat) : (g.orFlags n).tph = g.tph := rfl
@[simp] theorem Group.orFlags_arrv (n : Nat) : (g.orFlags n).arrv = g.arrv := rfl
@[simp] theorem Group.orFlags_fblk (n : Nat) : (g.orFlags n).fblk = g.fblk := rfl

@[simp] theorem Group.setP_gid (n : Nat) (e v : Word) : (g.setP n e v).gid = g.gid := by unfold Group.setP; split <;> rfl
@[simp] theorem Group.setP_slot (n : Nat) (e v : Word) : (g.setP n e v).slot = g.slot := by unfold Group.setP; split <;> rfl
@[simp] theorem Group.setP_live (n : Nat) (e v : Word) : (g.setP n e v).live = g.live := by unfold Group.setP; split <;> rfl
@[simp] theorem Group.setP_grant (n : Nat) (e v : Word) : (g.setP n e v).grant = g.grant := by unfold Group.setP; split <;> rfl
@[simp] theorem Group.setP_v (n : Nat) (e v : Word) : (g.setP n e v).v = g.v := by unfold Group.setP; split <;> rfl
@[simp] theorem Group.setP_vt (n : Nat) (e v : Word) : (g.setP n e v).vt = g.vt := by unfold Group.setP; split <;> rfl
@[simp] theorem Group.setP_s (n : Nat) (e v : Word) : (g.setP n e v).s = g.s := by unfold Group.setP; split <;> rfl
@[simp] theorem Group.setP_st (n : Nat) (e v : Word) : (g.setP n e v).st = g.st := by unfold Group.setP; split <;> rfl
@[simp] theorem Group.setP_m (n : Nat) (e v : Word) : (g.setP n e v).m = g.m := by unfold Group.setP; split <;> rfl
@[simp] theorem Group.setP_tid (n : Nat) (e v : Word) : (g.setP n e v).tid = g.tid := by unfold Group.setP; split <;> rfl
@[simp] theorem Group.setP_ents (n : Nat) (e v : Word) : (g.setP n e v).ents = g.ents := by unfold Group.setP; split <;> rfl
@[simp] theorem Group.setP_liven (n : Nat) (e v : Word) : (g.setP n e v).liven = g.liven := by unfold Group.setP; split <;> rfl
@[simp] theorem Group.setP_gstat (n : Nat) (e v : Word) : (g.setP n e v).gstat = g.gstat := by unfold Group.setP; split <;> rfl
@[simp] theorem Group.setP_uiepc (n : Nat) (e v : Word) : (g.setP n e v).uiepc = g.uiepc := by unfold Group.setP; split <;> rfl
@[simp] theorem Group.setP_cause (n : Nat) (e v : Word) : (g.setP n e v).cause = g.cause := by unfold Group.setP; split <;> rfl
@[simp] theorem Group.setP_epc (n : Nat) (e v : Word) : (g.setP n e v).epc = g.epc := by unfold Group.setP; split <;> rfl
@[simp] theorem Group.setP_frcnt (n : Nat) (e v : Word) : (g.setP n e v).frcnt = g.frcnt := by unfold Group.setP; split <;> rfl
@[simp] theorem Group.setP_skidN (n : Nat) (e v : Word) : (g.setP n e v).skidN = g.skidN := by unfold Group.setP; split <;> rfl
@[simp] theorem Group.setP_inh (n : Nat) (e v : Word) : (g.setP n e v).inh = g.inh := by unfold Group.setP; split <;> rfl
@[simp] theorem Group.setP_sect (n : Nat) (e v : Word) : (g.setP n e v).sect = g.sect := by unfold Group.setP; split <;> rfl
@[simp] theorem Group.setP_park (n : Nat) (e v : Word) : (g.setP n e v).park = g.park := by unfold Group.setP; split <;> rfl
@[simp] theorem Group.setP_after (n : Nat) (e v : Word) : (g.setP n e v).after = g.after := by unfold Group.setP; split <;> rfl
@[simp] theorem Group.setP_run (n : Nat) (e v : Word) : (g.setP n e v).run = g.run := by unfold Group.setP; split <;> rfl
@[simp] theorem Group.setP_scall (n : Nat) (e v : Word) : (g.setP n e v).scall = g.scall := by unfold Group.setP; split <;> rfl
@[simp] theorem Group.setP_cont (n : Nat) (e v : Word) : (g.setP n e v).cont = g.cont := by unfold Group.setP; split <;> rfl
@[simp] theorem Group.setP_fault (n : Nat) (e v : Word) : (g.setP n e v).fault = g.fault := by unfold Group.setP; split <;> rfl
@[simp] theorem Group.setP_trapped (n : Nat) (e v : Word) : (g.setP n e v).trapped = g.trapped := by unfold Group.setP; split <;> rfl
@[simp] theorem Group.setP_trapPc (n : Nat) (e v : Word) : (g.setP n e v).trapPc = g.trapPc := by unfold Group.setP; split <;> rfl
@[simp] theorem Group.setP_frec (n : Nat) (e v : Word) : (g.setP n e v).frec = g.frec := by unfold Group.setP; split <;> rfl
@[simp] theorem Group.setP_tph (n : Nat) (e v : Word) : (g.setP n e v).tph = g.tph := by unfold Group.setP; split <;> rfl
@[simp] theorem Group.setP_arrv (n : Nat) (e v : Word) : (g.setP n e v).arrv = g.arrv := by unfold Group.setP; split <;> rfl
@[simp] theorem Group.setP_fblk (n : Nat) (e v : Word) : (g.setP n e v).fblk = g.fblk := by unfold Group.setP; split <;> rfl

end Sys2Proof.Machine
end

