-- ==== Sys2Proof/Laws/Group.lean ====
section
/-! SUPPORT. Laws of a group's register file: reads after writes, and everything a destination write can do. -/

namespace Sys2Proof.Machine

variable {g : Group}

theorem Group.getV_setV (r l : Nat) (w : Word) (q k : Nat) :
    (g.setV r l w).getV q k = if 32 * q + k = 32 * r + l then w else g.getV q k := Sparse.get_set

theorem Group.getS_setS (r : Nat) (w : Word) (q : Nat) :
    (g.setS r w).getS q = if q = r then w else g.getS q := Sparse.get_set

theorem Group.getM_setM (r : Nat) (w : Word) (q : Nat) :
    (g.setM r w).getM q = if q = r then w else g.getM q := Sparse.get_set

theorem Group.vtag_setVtag (r : Nat) (t : Tag) (q : Nat) :
    (g.setVtag r t).vtag q = if q = r then t else g.vtag q := Sparse.get_set

theorem Group.stag_setStag (r : Nat) (t : Tag) (q : Nat) :
    (g.setStag r t).stag q = if q = r then t else g.stag q := Sparse.get_set

/-- p7 reads true whatever is written (R20). -/
@[simp] theorem Group.pmask_seven : g.pmask 7 = BitVec.allOnes 32 := rfl

theorem Group.setP_seven (e v : Word) : g.setP 7 e v = g := rfl

theorem Group.pmask_setP (n : Nat) (e v : Word) (q : Nat) (hn : n < 7) :
    (g.setP n e v).pmask q = if q = n then (g.pmask n &&& ~~~e) ||| (v &&& e) else g.pmask q := by
  have h7 : ¬ 7 ≤ n := by omega
  have hn7 : ¬ n = 7 := by omega
  unfold Group.pmask Group.setP
  simp only [h7, hn7, if_false]
  by_cases hq : q = 7
  · subst hq; simp [Ne.symm hn7]
  · simp only [hq, if_false]
    rw [Sparse.get_set]

/-- A write of a register in lanes changes the vector table alone. -/
theorem Group.setVLanes_cases (g : Group) (r : Nat) (f : Nat → Word) (ls : List Nat) : ∃ v, g.setVLanes r f ls = { g with v := v } := by
  induction ls generalizing g with
  | nil => exact ⟨g.v, rfl⟩
  | cons l ls ih => obtain ⟨v, hv⟩ := ih (g.setV r l (f l)); exact ⟨v, hv⟩

/-- What a lane reads after a write in lanes below 32. -/
theorem Group.getV_setVLanes (r : Nat) (f : Nat → Word) (ls : List Nat) (hl : ∀ l ∈ ls, l < 32) (q k : Nat) (hk : k < 32) :
    (g.setVLanes r f ls).getV q k = if q = r ∧ k ∈ ls then f k else g.getV q k := by
  induction ls generalizing g with
  | nil => simp [Group.setVLanes]
  | cons l ls ih =>
    have hl0 : l < 32 := hl l (by simp)
    rw [Group.setVLanes, ih (fun x hx => hl x (by simp [hx])), Group.getV_setV]
    by_cases h1 : q = r ∧ k ∈ ls
    · simp [h1]
    · by_cases h2 : 32 * q + k = 32 * r + l
      · have hq : q = r := by omega
        have hkl : k = l := by omega
        subst hq hkl
        simp_all
      · have h3 : ¬ (q = r ∧ k ∈ l :: ls) := by
          rintro ⟨rfl, hm⟩
          rcases List.mem_cons.1 hm with rfl | hm
          · exact h2 rfl
          · exact h1 ⟨rfl, hm⟩
        rw [if_neg h1, if_neg h2, if_neg h3]

/-- Everything a write of vector registers changes. -/
theorem Group.setVRange_cases (g : Group) (r : Nat) (t : Tag) (f : Nat → Nat) (ls : List Nat) (n k : Nat) :
    ∃ v vt, g.setVRange r t f ls n k = { g with v := v, vt := vt } := by
  induction n generalizing g k with
  | zero => exact ⟨g.v, g.vt, rfl⟩
  | succ n ih =>
    obtain ⟨v, hv⟩ := Group.setVLanes_cases g (r + k) (fun l => BitVec.ofNat 32 (f l / 2 ^ (32 * k))) ls
    obtain ⟨v', vt', h⟩ := ih ((g.setVLanes (r + k) (fun l => BitVec.ofNat 32 (f l / 2 ^ (32 * k))) ls).setVtag (r + k) t) (k + 1)
    exact ⟨v', vt', by rw [Group.setVRange, h, hv]; rfl⟩

/-- Everything a write of uniform registers changes. -/
theorem Group.setSRange_cases (g : Group) (r : Nat) (t : Tag) (x n k : Nat) : ∃ s st, g.setSRange r t x n k = { g with s := s, st := st } := by
  induction n generalizing g k with
  | zero => exact ⟨g.s, g.st, rfl⟩
  | succ n ih =>
    obtain ⟨s', st', h⟩ := ih ((g.setS (r + k) (BitVec.ofNat 32 (x / 2 ^ (32 * k)))).setStag (r + k) t) (k + 1)
    exact ⟨s', st', by rw [Group.setSRange, h]; rfl⟩

/-- Everything a write of a destination changes: the register tables. -/
theorem Group.write_cases (g : Group) (d : Opd) (n : Nat) (t : Tag) (f : Nat → Nat) (ex : Word) :
    ∃ v vt s st m p, g.write d n t f ex = { g with v := v, vt := vt, s := s, st := st, m := m, p := p } := by
  unfold Group.write
  split
  · obtain ⟨v, vt, h⟩ := Group.setVRange_cases g ‹Nat› t f (lanesOf ex) n 0
    exact ⟨v, vt, g.s, g.st, g.m, g.p, h⟩
  · obtain ⟨s, st, h⟩ := Group.setSRange_cases g ‹Nat› t (f (lowLane ex)) n 0
    exact ⟨g.v, g.vt, s, st, g.m, g.p, h⟩
  · exact ⟨g.v, g.vt, g.s, g.st, _, g.p, rfl⟩
  · unfold Group.setP
    split
    · exact ⟨g.v, g.vt, g.s, g.st, g.m, g.p, rfl⟩
    · exact ⟨g.v, g.vt, g.s, g.st, g.m, _, rfl⟩
  · exact ⟨g.v, g.vt, g.s, g.st, g.m, g.p, rfl⟩
  · exact ⟨g.v, g.vt, g.s, g.st, g.m, g.p, rfl⟩

@[simp] theorem Group.setVtag_getV (r : Nat) (t : Tag) (q k : Nat) : (g.setVtag r t).getV q k = g.getV q k := rfl
@[simp] theorem Group.setV_vtag (r l : Nat) (w : Word) (q : Nat) : (g.setV r l w).vtag q = g.vtag q := rfl

@[simp] theorem Group.setVLanes_vtag (r : Nat) (f : Nat → Word) (ls : List Nat) (q : Nat) : (g.setVLanes r f ls).vtag q = g.vtag q := by
  obtain ⟨v, h⟩ := Group.setVLanes_cases g r f ls
  rw [h]
  rfl

/-- A write of z or another special writes nothing (R20). -/
@[simp] theorem Group.write_sp (g : Group) (x : Special) (n : Nat) (t : Tag) (f : Nat → Nat) (ex : Word) : g.write (.sp x) n t f ex = g := rfl

/-- What a lane of a vector register reads after a write of `n` registers. -/
theorem Group.getV_setVRange (r : Nat) (t : Tag) (f : Nat → Nat) (ls : List Nat) (hl : ∀ l ∈ ls, l < 32) (n k q l : Nat)
    (hk : l < 32) :
    (g.setVRange r t f ls n k).getV q l =
      if r + k ≤ q ∧ q < r + k + n ∧ l ∈ ls then BitVec.ofNat 32 (f l / 2 ^ (32 * (q - r))) else g.getV q l := by
  induction n generalizing g k with
  | zero =>
    rw [if_neg (by omega)]
    rfl
  | succ n ih =>
    rw [Group.setVRange, ih, Group.setVtag_getV,
      Group.getV_setVLanes _ _ _ hl _ _ hk]
    by_cases hm : l ∈ ls
    · by_cases hq : q = r + k
      · subst hq
        rw [if_neg (by omega), if_pos ⟨rfl, hm⟩, if_pos ⟨by omega, by omega, hm⟩, Nat.add_sub_cancel_left]
      · by_cases h1 : r + (k + 1) ≤ q ∧ q < r + (k + 1) + n
        · rw [if_pos ⟨h1.1, h1.2, hm⟩, if_pos ⟨by omega, by omega, hm⟩]
        · rw [if_neg (fun h => h1 ⟨h.1, h.2.1⟩), if_neg (fun h => hq h.1), if_neg (by omega)]
    · rw [if_neg (fun h => hm h.2.2), if_neg (fun h => hm h.2), if_neg (fun h => hm h.2.2)]

/-- What the tag of a vector register is after a write of `n` registers. -/
theorem Group.vtag_setVRange (r : Nat) (t : Tag) (f : Nat → Nat) (ls : List Nat) (n k q : Nat) :
    (g.setVRange r t f ls n k).vtag q = if r + k ≤ q ∧ q < r + k + n then t else g.vtag q := by
  induction n generalizing g k with
  | zero =>
    rw [if_neg (by omega)]
    rfl
  | succ n ih =>
    rw [Group.setVRange, ih, Group.vtag_setVtag,
      Group.setVLanes_vtag]
    by_cases hq : q = r + k
    · rw [if_neg (by omega), if_pos hq, if_pos (by omega)]
    · rw [if_neg hq]
      by_cases h1 : r + (k + 1) ≤ q ∧ q < r + (k + 1) + n
      · rw [if_pos h1, if_pos (by omega)]
      · rw [if_neg h1, if_neg (by omega)]

@[simp] theorem Group.setStag_getS (r : Nat) (t : Tag) (q : Nat) : (g.setStag r t).getS q = g.getS q := rfl
@[simp] theorem Group.setS_stag (r : Nat) (w : Word) (q : Nat) : (g.setS r w).stag q = g.stag q := rfl

/-- What a uniform register reads after a write of `n` registers. -/
theorem Group.getS_setSRange (r : Nat) (t : Tag) (x n k q : Nat) :
    (g.setSRange r t x n k).getS q = if r + k ≤ q ∧ q < r + k + n then BitVec.ofNat 32 (x / 2 ^ (32 * (q - r))) else g.getS q := by
  induction n generalizing g k with
  | zero =>
    rw [if_neg (by omega)]
    rfl
  | succ n ih =>
    rw [Group.setSRange, ih, Group.setStag_getS, Group.getS_setS]
    by_cases hq : q = r + k
    · subst hq
      rw [if_neg (by omega), if_pos rfl, if_pos (by omega), Nat.add_sub_cancel_left]
    · rw [if_neg hq]
      by_cases h1 : r + (k + 1) ≤ q ∧ q < r + (k + 1) + n
      · rw [if_pos h1, if_pos (by omega)]
      · rw [if_neg h1, if_neg (by omega)]

theorem lanesOf_lt (m : Word) (l : Nat) (h : l ∈ lanesOf m) : l < 32 := by
  unfold lanesOf at h
  simpa using (List.mem_filter.1 h).1

theorem mem_lanesOf (m : Word) (l : Nat) : l ∈ lanesOf m ↔ l < 32 ∧ m.getLsbD l = true := by simp [lanesOf]

end Sys2Proof.Machine
end

