-- ==== Sys2Proof/Laws/Memory.lean ====
section
/-! SUPPORT. Laws of the memories: reads after writes, other bytes unchanged, and that every memory operation keeps the
canonical form. -/

namespace Sys2Proof.Machine

variable {s : State} {sp sq a b n v : Nat}

theorem State.memWf_space (h : s.memWf) (sp : Nat) : Sparse.wf unwritten (s.space sp) = true := by
  obtain ⟨h0, h1, h2, h3, -⟩ := h
  unfold State.space
  split
  · exact h0
  · split
    · exact h1
    · split
      · exact h2
      · exact h3

/-- Everything one write can do: one table takes the byte, and the marks of the byte and its block go, with the releases that it held. -/
theorem State.wr_cases (s : State) (sp a : Nat) (b : Byte) :
    ∃ h p o u m k r, s.wr sp a b = { s with hbm := h, pool := p, host := o, vaults := u, marks := m, badCrc := k, relMem := r } := by
  unfold State.wr State.setSpace
  split
  · exact ⟨_, s.pool, s.host, s.vaults, _, _, _, rfl⟩
  · split
    · exact ⟨s.hbm, _, s.host, s.vaults, _, _, _, rfl⟩
    · split
      · exact ⟨s.hbm, s.pool, _, s.vaults, _, _, _, rfl⟩
      · exact ⟨s.hbm, s.pool, s.host, _, _, _, _, rfl⟩

/-- A write of one byte keeps the canonical form. -/
theorem State.wr_memWf (h : s.memWf) (sp a : Nat) (b : Byte) : (s.wr sp a b).memWf := by
  obtain ⟨h0, h1, h2, h3, h4, h5⟩ := h
  have w (m : Sparse Byte) (hm : Memory.wf m = true) : Memory.wf (Sparse.set unwritten m a b) = true := Sparse.set_wf hm
  have hm : Sparse.wf false (Sparse.set false s.marks (markKey sp a) false) = true := Sparse.set_wf h4
  have hc : Sparse.wf false (Sparse.set false s.badCrc (crcKey sp a) false) = true := Sparse.set_wf h5
  unfold State.wr State.setSpace State.space
  split
  · exact ⟨w _ h0, h1, h2, h3, hm, hc⟩
  · split
    · exact ⟨h0, w _ h1, h2, h3, hm, hc⟩
    · split
      · exact ⟨h0, h1, w _ h2, h3, hm, hc⟩
      · exact ⟨h0, h1, h2, w _ h3, hm, hc⟩

/-- A write of a number keeps the canonical form. -/
theorem State.wrN_memWf (h : s.memWf) (sp a n v : Nat) : (s.wrN sp a n v).memWf := by
  induction n generalizing s a v with
  | zero => exact h
  | succ n ih => exact ih (State.wr_memWf h _ _ _) _ _

/-- A write of bytes keeps the canonical form. -/
theorem State.wrBytes_memWf (h : s.memWf) (sp a : Nat) (bs : List Byte) : (s.wrBytes sp a bs).memWf := by
  induction bs generalizing s a with
  | nil => exact h
  | cons b bs ih => exact ih (State.wr_memWf h _ _ _) _

/-- A write through a context's pages keeps the canonical form. -/
theorem sysWrite_memWf (h : s.memWf) (c : Ctx) (va n v : Nat) : (sysWrite s c va n v).memWf := by
  induction n generalizing s va v with
  | zero => exact h
  | succ n ih =>
    simp only [sysWrite]
    apply ih
    split
    · exact State.wr_memWf h _ _ _
    · exact h

theorem sysWriteBytes_memWf (h : s.memWf) (c : Ctx) (va : Nat) (bs : List Byte) : (sysWriteBytes s c va bs).memWf := by
  induction bs generalizing s va with
  | nil => exact h
  | cons b bs ih => exact ih (sysWrite_memWf h _ _ _ _) _

/-- The memory right after reset is in canonical form. -/
theorem State.reset_memWf : State.reset.memWf := by simp [State.memWf, State.reset, Memory.wf, Sparse.wf, Sparse.wfFrom]

/-- The space a number names: everything from 3 on is the vaults. -/
def spaceNo (sp : Nat) : Nat := min sp 3

theorem State.space_wr (s : State) (sp a : Nat) (b : Byte) (sq : Nat) :
    (s.wr sp a b).space sq = if spaceNo sq = spaceNo sp then Sparse.set unwritten (s.space sp) a b else s.space sq := by
  unfold State.wr State.setSpace State.space spaceNo
  rcases sp with _ | _ | _ | sp <;> rcases sq with _ | _ | _ | sq <;> simp

/-- What a byte reads after a write of one byte. -/
theorem State.rd_wr (sp a : Nat) (b : Byte) (sq c : Nat) :
    (s.wr sp a b).rd sq c = if spaceNo sq = spaceNo sp ∧ c = a then b else s.rd sq c := by
  unfold State.rd
  rw [State.space_wr]
  split
  · next hs =>
    have hq : s.space sq = s.space sp := by
      unfold spaceNo at hs
      unfold State.space
      rcases sp with _ | _ | _ | sp <;> rcases sq with _ | _ | _ | sq <;> simp <;> omega
    rw [Sparse.get_set, hq]
    by_cases hc : c = a <;> simp [hc, hs]
  · next hs => simp [hs]

/-- What a byte reads after a write of a number. -/
theorem State.rd_wrN (sp a n v sq c : Nat) :
    (s.wrN sp a n v).rd sq c =
      if spaceNo sq = spaceNo sp ∧ a ≤ c ∧ c < a + n then BitVec.ofNat 8 (v / 256 ^ (c - a)) else s.rd sq c := by
  induction n generalizing s a v with
  | zero =>
    simp only [State.wrN, Nat.add_zero]
    split
    · next h => omega
    · rfl
  | succ n ih =>
    rw [State.wrN, ih, State.rd_wr]
    by_cases hs : spaceNo sq = spaceNo sp
    · by_cases h1 : c = a
      · subst h1
        have : ¬ (c + 1 ≤ c) := by omega
        simp [hs]
      · by_cases h2 : a + 1 ≤ c ∧ c < a + 1 + n
        · have h3 : a ≤ c ∧ c < a + (n + 1) := by omega
          have h4 : c - a = (c - (a + 1)) + 1 := by omega
          simp only [hs, h2, h3, true_and, and_self, if_true]
          rw [h4, pow_succ, Nat.mul_comm, Nat.div_div_eq_div_mul]
        · have h3 : ¬ (a ≤ c ∧ c < a + (n + 1)) := by omega
          simp only [hs, h2, h3, h1, and_false, if_false]
    · simp [hs]

end Sys2Proof.Machine
end

