-- ==== Sys2Proof/Laws/Ops.lean ====
section
/-! SUPPORT. Laws of the shared operations: finding a unit and a group after an update, and how a word ends. -/

namespace Sys2Proof.Machine

variable {s t : State} {c : Cx} {k j : UKey} {o : Op} {body : Cx → Exc State}

/-! ## Units and groups -/

theorem State.unit?_key {u : Unit} (h : s.unit? k = some u) : u.key = k := by
  have := List.find?_some h
  simpa using this

theorem Unit.grp?_live {u : Unit} {n : Nat} {g : Group} (h : u.grp? n = some g) : g.live = true ∧ g.gid = n := by
  have := List.find?_some h
  simpa using this

theorem find?_map_self {α : Type} (p : α → Bool) (f : α → α) (hf : ∀ x, p x = true → p (f x) = true) (xs : List α) :
    (xs.map fun x => if p x then f x else x).find? p = (xs.find? p).map f := by
  induction xs with
  | nil => rfl
  | cons x xs ih =>
    simp only [List.map_cons, List.find?_cons]
    by_cases hx : p x = true
    · simp [hx, hf x hx]
    · simpa [hx] using ih

theorem find?_map_other {α : Type} (p q : α → Bool) (f : α → α) (hf : ∀ x, p x = true → q x = false ∧ q (f x) = false)
    (xs : List α) : (xs.map fun x => if p x then f x else x).find? q = xs.find? q := by
  induction xs with
  | nil => rfl
  | cons x xs ih =>
    simp only [List.map_cons, List.find?_cons]
    by_cases hx : p x = true
    · simp [hx, (hf x hx).1, (hf x hx).2, ih]
    · cases hq : q x <;> simp [hx, hq, ih]

/-- The updated unit is the update of the unit. -/
theorem State.unit?_modUnit (f : Unit → Unit) (hf : ∀ u, u.key = k → (f u).key = k) :
    (s.modUnit k f).unit? k = (s.unit? k).map f :=
  find?_map_self (fun u : Unit => u.key == k) f (fun u h => by simpa using hf u (by simpa using h)) s.units

/-- Every other unit stays. -/
theorem State.unit?_modUnit_ne (f : Unit → Unit) (hf : ∀ u, u.key = k → (f u).key = k) (hj : j ≠ k) :
    (s.modUnit k f).unit? j = s.unit? j :=
  find?_map_other (fun u : Unit => u.key == k) (fun u : Unit => u.key == j) f (fun u h => by
    have h1 : u.key = k := by simpa using h
    have h2 := hf u h1
    simp [h1, h2, Ne.symm hj]) s.units

/-- The updated group is the update of the group. -/
theorem Unit.grp?_modGrp {u : Unit} {n : Nat} (f : Group → Group) (hf : ∀ g, g.live = true → g.gid = n → (f g).live = true ∧ (f g).gid = n) :
    (u.modGrp n f).grp? n = (u.grp? n).map f :=
  find?_map_self (fun g : Group => g.live && g.gid == n) f (fun g h => by
    have h1 : g.live = true ∧ g.gid = n := by simpa using h
    simpa using hf g h1.1 h1.2) u.grps

/-- Every other group of the unit stays. -/
theorem Unit.grp?_modGrp_ne {u : Unit} {m n : Nat} (f : Group → Group) (hf : ∀ g, g.gid = n → (f g).gid = n) (hm : m ≠ n) :
    (u.modGrp n f).grp? m = u.grp? m :=
  find?_map_other (fun g : Group => g.live && g.gid == n) (fun g : Group => g.live && g.gid == m) f (fun g h => by
    have h1 : g.live = true ∧ g.gid = n := by simpa using h
    have h2 := hf g h1.2
    simp [h1.2, h2, Ne.symm hm]) u.grps

/-! ## The view of a word -/

/-- Everything a view says. -/
theorem view?_spec {n : Nat} (h : view? s n = some c) :
    c.s = s ∧ s.cur = some c.iss ∧ s.unit? c.u.key = some c.u ∧ c.iss.u = c.u.key ∧ c.u.grp? c.g.gid = some c.g ∧ c.iss.gid = c.g.gid
      ∧ c.g.ents[c.iss.ent]? = some c.e ∧ c.ex = guardLanes c.g n c.e.mask := by
  simp only [view?, Option.bind_eq_bind, Option.pure_def, Option.bind_eq_some_iff, Option.some.injEq] at h
  obtain ⟨iss, hi, u, hu, g, hg, e, he, rfl⟩ := h
  have hk := State.unit?_key hu
  have hgid := (Unit.grp?_live hg).2
  exact ⟨rfl, hi, hk ▸ hu, hk.symm, hgid ▸ hg, hgid.symm, he, rfl⟩

theorem after_modGrp (f : Group → Group) (hf : ∀ g, g.live = true → g.gid = c.g.gid → (f g).live = true ∧ (f g).gid = c.g.gid) :
    c.after (s.modGrp c.u.key c.g.gid f) = (c.after s).map f := by
  unfold Cx.after State.modGrp
  rw [State.unit?_modUnit (fun u => u.modGrp c.g.gid f) (fun u h => h)]
  cases s.unit? c.u.key with
  | none => rfl
  | some u => exact Unit.grp?_modGrp f hf

theorem after_self {n : Nat} (h : view? s n = some c) : c.after s = some c.g := by
  obtain ⟨-, -, hu, -, hg, -⟩ := view?_spec h
  simp [Cx.after, hu, hg]

/-- The group after a word's effect and its advance: registers as put, the entry moved on. -/
theorem after_advance (c : Cx) (t : State) :
    c.after (advance c t) = (c.after t).map fun g =>
      { g with ents := advanceEnts g c.iss.ent { c.e with wait := .none, bwa := false }, after := false } :=
  after_modGrp _ fun _ h1 h2 => ⟨h1, h2⟩

theorem after_put {n : Nat} {g : Group} (h : view? s n = some c) (h1 : g.live = true) (h2 : g.gid = c.g.gid) : c.after (c.put g) = some g := by
  have hs := (view?_spec h).1
  unfold Cx.put
  rw [after_modGrp (fun _ => g) (fun _ _ _ => ⟨h1, h2⟩), hs, after_self h]
  rfl

/-! ## How a word ends -/

theorem word_next {b : State} (h : view? s o.grd = some c) (hx : c.ex ≠ 0#32) (hb : body c = .ok b) : word s o body = .next (advance c b) := by
  simp [word, h, hx, hb, finish]

theorem word_trap {a : Trap} (h : view? s o.grd = some c) (hx : c.ex ≠ 0#32) (hb : body c = .error (.trap a)) :
    word s o body = .next (takeTrap c c.s a) := by
  simp [word, h, hx, hb, finish]

/-- A word with no executing lane only moves on (R68). -/
theorem word_none (h : view? s o.grd = some c) (hx : c.ex = 0#32) : word s o body = .next (advance c c.s) := by
  simp [word, h, hx, (view?_spec h).1]

theorem wordCtl_next {b : State} (h : view? s o.grd = some c) (hx : c.ex ≠ 0#32) (hb : body c = .ok b) : wordCtl s o body = .next b := by
  simp [wordCtl, h, hx, hb, finishCtl]

theorem wordCtl_trap {a : Trap} (h : view? s o.grd = some c) (hx : c.ex ≠ 0#32) (hb : body c = .error (.trap a)) :
    wordCtl s o body = .next (takeTrap c c.s a) := by
  simp [wordCtl, h, hx, hb, finishCtl]

theorem wordCtl_none (h : view? s o.grd = some c) (hx : c.ex = 0#32) : wordCtl s o body = .next (advance c c.s) := by
  simp [wordCtl, h, hx, (view?_spec h).1]

/-- Everything a word can answer: a fault only where its own meaning says so. -/
theorem word_cases (s : State) (o : Op) (body : Cx → Exc State) :
    (∃ t, word s o body = .next t) ∨ ∃ c f, view? s o.grd = some c ∧ body c = .error (.fault f) ∧ word s o body = .fault f := by
  unfold word
  split
  · exact .inl ⟨_, rfl⟩
  · next c hc =>
    split
    · exact .inl ⟨_, rfl⟩
    · unfold finish
      split <;> first | exact .inl ⟨_, rfl⟩ | exact .inr ⟨c, _, hc, by assumption, rfl⟩

end Sys2Proof.Machine
end

