-- ==== Sys2Proof/Laws/PerInstr.lean ====
section
/-! SUPPORT. Per-instruction lemmas: the word of an instruction whose fields are in range fits into 96 bits (R63). -/

namespace Sys2Proof.Laws

theorem code_lt {d : Opd} (h : d.ok = true) : d.code < 512 := by
  cases d <;> simp [Opd.ok, Opd.code] at h ⊢ <;> first | omega | skip
  cases ‹Special› <;> decide

theorem pack_lt {f : Fields} (h0 : f.opc < 128) (h1 : f.fn < 32) (h2 : f.grd < 16) (h3 : f.d < 512) (h4 : f.a < 512) (h5 : f.b < 512)
    (h6 : f.hint < 256) (h7 : f.mod < 2048) (h8 : f.zero < 4) (h9 : f.imm < 2 ^ 32) : f.pack < 2 ^ 96 := by
  unfold Fields.pack
  omega

/-- The word of an operation whose fields are in range. -/
theorem fits {opc mod w : Nat} {o : Op} (ho : o.ok = true) (hm : mod < 2048) (hc : opc < 128)
    (h : Option.map Fields.pack (some (fieldsOf opc o mod)) = some w) : w < 2 ^ 96 := by
  simp only [Op.ok, Bool.and_eq_true, decide_eq_true_eq] at ho
  obtain ⟨⟨⟨⟨⟨⟨h1, h2⟩, h3⟩, h4⟩, h5⟩, h6⟩, h7⟩ := ho
  simp only [Option.map_some, Option.some.injEq] at h
  rw [← h]
  exact pack_lt hc h1 h2 (code_lt h4) (code_lt h5) (code_lt h6) h3 hm (Nat.succ_pos 3) h7

theorem modA_lt {a : ModA} (h : a.ok = true) : a.bits < 2048 := by
  simp only [ModA.ok, Bool.and_eq_true, decide_eq_true_eq] at h
  have h1 : a.ty.code ≤ 15 := by cases a.ty <;> decide
  have h2 : a.rm.code ≤ 3 := by cases a.rm <;> decide
  have h3 : a.rs.toNat ≤ 1 := by cases a.rs <;> decide
  unfold ModA.bits
  omega

theorem modM_lt {m : ModM} (h : m.ok = true) : m.bits < 2048 := by
  simp only [ModM.ok, Bool.and_eq_true, decide_eq_true_eq] at h
  have h1 : m.ty.code ≤ 15 := by cases m.ty <;> decide
  unfold ModM.bits
  omega

theorem modG_lt {g : ModG} (h : g.ok = true) : g.bits < 2048 := by
  simp only [ModG.ok, Bool.and_eq_true, decide_eq_true_eq] at h
  have h1 : g.ty.code ≤ 15 := by cases g.ty <;> decide
  have h2 : g.isgn.toNat ≤ 1 := by cases g.isgn <;> decide
  unfold ModG.bits
  omega

theorem modB_lt {b : ModB} (h : b.ok = true) : b.bits < 2048 := by
  simp only [ModB.ok, Bool.and_eq_true, decide_eq_true_eq] at h
  unfold ModB.bits
  omega

theorem modX_lt {x : ModX} (h : x.ok = true) : x.bits < 2048 := by simpa [ModX.ok] using h

/-! One lemma for each layout of MOD: what `inRange` and `encode` say of an instruction of it. -/

theorem fitsA {opc w : Nat} {o : Op} {m : ModA} {q : Bool} (hc : opc < 128) (h : (o.ok && m.ok && q) = true)
    (hw : Option.map Fields.pack (some (fieldsOf opc o m.bits)) = some w) : w < 2 ^ 96 := by
  simp only [Bool.and_eq_true] at h
  exact fits h.1.1 (modA_lt h.1.2) hc hw

theorem fitsM {opc w : Nat} {o : Op} {m : ModM} {q : Bool} (hc : opc < 128) (h : (o.ok && m.ok && q) = true)
    (hw : Option.map Fields.pack (some (fieldsOf opc o m.bits)) = some w) : w < 2 ^ 96 := by
  simp only [Bool.and_eq_true] at h
  exact fits h.1.1 (modM_lt h.1.2) hc hw

theorem fitsG {opc w : Nat} {o : Op} {m : ModG} {q : Bool} (hc : opc < 128) (h : (o.ok && m.ok && q) = true)
    (hw : Option.map Fields.pack (some (fieldsOf opc o m.bits)) = some w) : w < 2 ^ 96 := by
  simp only [Bool.and_eq_true] at h
  exact fits h.1.1 (modG_lt h.1.2) hc hw

theorem fitsB {opc w : Nat} {o : Op} {m : ModB} {q : Bool} (hc : opc < 128) (h : (o.ok && m.ok && q) = true)
    (hw : Option.map Fields.pack (some (fieldsOf opc o m.bits)) = some w) : w < 2 ^ 96 := by
  simp only [Bool.and_eq_true] at h
  exact fits h.1.1 (modB_lt h.1.2) hc hw

theorem fitsX {opc w : Nat} {o : Op} {m : ModX} {q : Bool} (hc : opc < 128) (h : (o.ok && m.ok && q) = true)
    (hw : Option.map Fields.pack (some (fieldsOf opc o m.bits)) = some w) : w < 2 ^ 96 := by
  simp only [Bool.and_eq_true] at h
  exact fits h.1.1 (modX_lt h.1.2) hc hw

namespace EncodeFits

/-- Where the fields are in range and the instruction has a word, the word is of 96 bits. -/
def Statement (i : Instr) : Prop := i.inRange = true → ∀ w, encode i = some w → w < 2 ^ 96

theorem iadd (o : Op) (a : ModA) : Statement (.iadd o a) := fun h _ hw => fitsA (Nat.le_of_ble_eq_true rfl) h hw
theorem isub (o : Op) (a : ModA) : Statement (.isub o a) := fun h _ hw => fitsA (Nat.le_of_ble_eq_true rfl) h hw
theorem imul (o : Op) (a : ModA) : Statement (.imul o a) := fun h _ hw => fitsA (Nat.le_of_ble_eq_true rfl) h hw
theorem imad (o : Op) (a : ModA) : Statement (.imad o a) := fun h _ hw => fitsA (Nat.le_of_ble_eq_true rfl) h hw
theorem idiv (o : Op) (a : ModA) : Statement (.idiv o a) := fun h _ hw => fitsA (Nat.le_of_ble_eq_true rfl) h hw
theorem irem (o : Op) (a : ModA) : Statement (.irem o a) := fun h _ hw => fitsA (Nat.le_of_ble_eq_true rfl) h hw
theorem iabs (o : Op) (a : ModA) : Statement (.iabs o a) := fun h _ hw => fitsA (Nat.le_of_ble_eq_true rfl) h hw
theorem imin (o : Op) (a : ModA) : Statement (.imin o a) := fun h _ hw => fitsA (Nat.le_of_ble_eq_true rfl) h hw
theorem imax (o : Op) (a : ModA) : Statement (.imax o a) := fun h _ hw => fitsA (Nat.le_of_ble_eq_true rfl) h hw
theorem andB (o : Op) (a : ModA) : Statement (.andB o a) := fun h _ hw => fitsA (Nat.le_of_ble_eq_true rfl) h hw
theorem orB (o : Op) (a : ModA) : Statement (.orB o a) := fun h _ hw => fitsA (Nat.le_of_ble_eq_true rfl) h hw
theorem xorB (o : Op) (a : ModA) : Statement (.xorB o a) := fun h _ hw => fitsA (Nat.le_of_ble_eq_true rfl) h hw
theorem shl (o : Op) (a : ModA) : Statement (.shl o a) := fun h _ hw => fitsA (Nat.le_of_ble_eq_true rfl) h hw
theorem shr (o : Op) (a : ModA) : Statement (.shr o a) := fun h _ hw => fitsA (Nat.le_of_ble_eq_true rfl) h hw
theorem rot (o : Op) (a : ModA) : Statement (.rot o a) := fun h _ hw => fitsA (Nat.le_of_ble_eq_true rfl) h hw
theorem bfx (o : Op) (a : ModA) : Statement (.bfx o a) := fun h _ hw => fitsA (Nat.le_of_ble_eq_true rfl) h hw
theorem bfi (o : Op) (a : ModA) : Statement (.bfi o a) := fun h _ hw => fitsA (Nat.le_of_ble_eq_true rfl) h hw
theorem popc (o : Op) (a : ModA) : Statement (.popc o a) := fun h _ hw => fitsA (Nat.le_of_ble_eq_true rfl) h hw
theorem clz (o : Op) (a : ModA) : Statement (.clz o a) := fun h _ hw => fitsA (Nat.le_of_ble_eq_true rfl) h hw
theorem brev (o : Op) (a : ModA) : Statement (.brev o a) := fun h _ hw => fitsA (Nat.le_of_ble_eq_true rfl) h hw
theorem icmp (o : Op) (a : ModA) : Statement (.icmp o a) := fun h _ hw => fitsA (Nat.le_of_ble_eq_true rfl) h hw
theorem sel (o : Op) (a : ModA) : Statement (.sel o a) := fun h _ hw => fitsA (Nat.le_of_ble_eq_true rfl) h hw
theorem mov (o : Op) (a : ModA) : Statement (.mov o a) := fun h _ hw => fitsA (Nat.le_of_ble_eq_true rfl) h hw
theorem movRetag (o : Op) (a : ModA) : Statement (.movRetag o a) := fun h _ hw => fitsA (Nat.le_of_ble_eq_true rfl) h hw
theorem movi (o : Op) (a : ModA) : Statement (.movi o a) := fun h _ hw => fitsA (Nat.le_of_ble_eq_true rfl) h hw
theorem fadd (o : Op) (a : ModA) : Statement (.fadd o a) := fun h _ hw => fitsA (Nat.le_of_ble_eq_true rfl) h hw
theorem fsub (o : Op) (a : ModA) : Statement (.fsub o a) := fun h _ hw => fitsA (Nat.le_of_ble_eq_true rfl) h hw
theorem fmul (o : Op) (a : ModA) : Statement (.fmul o a) := fun h _ hw => fitsA (Nat.le_of_ble_eq_true rfl) h hw
theorem ffma (o : Op) (a : ModA) : Statement (.ffma o a) := fun h _ hw => fitsA (Nat.le_of_ble_eq_true rfl) h hw
theorem fmin (o : Op) (a : ModA) : Statement (.fmin o a) := fun h _ hw => fitsA (Nat.le_of_ble_eq_true rfl) h hw
theorem fmax (o : Op) (a : ModA) : Statement (.fmax o a) := fun h _ hw => fitsA (Nat.le_of_ble_eq_true rfl) h hw
theorem fcmp (o : Op) (a : ModA) : Statement (.fcmp o a) := fun h _ hw => fitsA (Nat.le_of_ble_eq_true rfl) h hw
theorem fclass (o : Op) (a : ModA) : Statement (.fclass o a) := fun h _ hw => fitsA (Nat.le_of_ble_eq_true rfl) h hw
theorem fdiv (o : Op) (a : ModA) : Statement (.fdiv o a) := fun h _ hw => fitsA (Nat.le_of_ble_eq_true rfl) h hw
theorem fsqrt (o : Op) (a : ModA) : Statement (.fsqrt o a) := fun h _ hw => fitsA (Nat.le_of_ble_eq_true rfl) h hw
theorem frsqrt (o : Op) (a : ModA) : Statement (.frsqrt o a) := fun h _ hw => fitsA (Nat.le_of_ble_eq_true rfl) h hw
theorem frcp (o : Op) (a : ModA) : Statement (.frcp o a) := fun h _ hw => fitsA (Nat.le_of_ble_eq_true rfl) h hw
theorem fexp2 (o : Op) (a : ModA) : Statement (.fexp2 o a) := fun h _ hw => fitsA (Nat.le_of_ble_eq_true rfl) h hw
theorem flog2 (o : Op) (a : ModA) : Statement (.flog2 o a) := fun h _ hw => fitsA (Nat.le_of_ble_eq_true rfl) h hw
theorem fsinpi (o : Op) (a : ModA) : Statement (.fsinpi o a) := fun h _ hw => fitsA (Nat.le_of_ble_eq_true rfl) h hw
theorem fcospi (o : Op) (a : ModA) : Statement (.fcospi o a) := fun h _ hw => fitsA (Nat.le_of_ble_eq_true rfl) h hw
theorem frnd (o : Op) (a : ModA) : Statement (.frnd o a) := fun h _ hw => fitsA (Nat.le_of_ble_eq_true rfl) h hw
theorem fscale (o : Op) (a : ModA) : Statement (.fscale o a) := fun h _ hw => fitsA (Nat.le_of_ble_eq_true rfl) h hw
theorem fgetexp (o : Op) (a : ModA) : Statement (.fgetexp o a) := fun h _ hw => fitsA (Nat.le_of_ble_eq_true rfl) h hw
theorem cvt (o : Op) (a : ModA) : Statement (.cvt o a) := fun h _ hw => fitsA (Nat.le_of_ble_eq_true rfl) h hw
theorem dxpack (o : Op) (a : ModA) : Statement (.dxpack o a) := fun h _ hw => fitsA (Nat.le_of_ble_eq_true rfl) h hw
theorem dxunpack (o : Op) (a : ModA) : Statement (.dxunpack o a) := fun h _ hw => fitsA (Nat.le_of_ble_eq_true rfl) h hw
theorem fgsum (o : Op) (a : ModA) : Statement (.fgsum o a) := fun h _ hw => fitsA (Nat.le_of_ble_eq_true rfl) h hw
theorem fdot2 (o : Op) (a : ModA) : Statement (.fdot2 o a) := fun h _ hw => fitsA (Nat.le_of_ble_eq_true rfl) h hw
theorem shfl (o : Op) (a : ModA) : Statement (.shfl o a) := fun h _ hw => fitsA (Nat.le_of_ble_eq_true rfl) h hw
theorem ballot (o : Op) (a : ModA) : Statement (.ballot o a) := fun h _ hw => fitsA (Nat.le_of_ble_eq_true rfl) h hw
theorem vote (o : Op) (a : ModA) : Statement (.vote o a) := fun h _ hw => fitsA (Nat.le_of_ble_eq_true rfl) h hw
theorem gred (o : Op) (a : ModA) : Statement (.gred o a) := fun h _ hw => fitsA (Nat.le_of_ble_eq_true rfl) h hw
theorem gscan (o : Op) (a : ModA) : Statement (.gscan o a) := fun h _ hw => fitsA (Nat.le_of_ble_eq_true rfl) h hw
theorem plop (o : Op) (a : ModA) : Statement (.plop o a) := fun h _ hw => fitsA (Nat.le_of_ble_eq_true rfl) h hw
theorem p2m (o : Op) (a : ModA) : Statement (.p2m o a) := fun h _ hw => fitsA (Nat.le_of_ble_eq_true rfl) h hw
theorem m2p (o : Op) (a : ModA) : Statement (.m2p o a) := fun h _ hw => fitsA (Nat.le_of_ble_eq_true rfl) h hw
theorem nop (o : Op) (a : ModA) : Statement (.nop o a) := fun h _ hw => fitsA (Nat.le_of_ble_eq_true rfl) h hw
theorem bra (o : Op) (b : ModB) : Statement (.bra o b) := fun h _ hw => fitsB (Nat.le_of_ble_eq_true rfl) h hw
theorem brx (o : Op) (b : ModB) : Statement (.brx o b) := fun h _ hw => fitsB (Nat.le_of_ble_eq_true rfl) h hw
theorem call (o : Op) (b : ModB) : Statement (.call o b) := fun h _ hw => fitsB (Nat.le_of_ble_eq_true rfl) h hw
theorem ret (o : Op) (x : ModX) : Statement (.ret o x) := fun h _ hw => fitsX (Nat.le_of_ble_eq_true rfl) h hw
theorem exitL (o : Op) (x : ModX) : Statement (.exitL o x) := fun h _ hw => fitsX (Nat.le_of_ble_eq_true rfl) h hw
theorem rgrp (o : Op) (x : ModX) : Statement (.rgrp o x) := fun h _ hw => fitsX (Nat.le_of_ble_eq_true rfl) h hw
theorem rgrpSet (o : Op) (x : ModX) : Statement (.rgrpSet o x) := fun h _ hw => fitsX (Nat.le_of_ble_eq_true rfl) h hw
theorem rejoin (o : Op) (x : ModX) : Statement (.rejoin o x) := fun h _ hw => fitsX (Nat.le_of_ble_eq_true rfl) h hw
theorem setprio (o : Op) (b : ModB) : Statement (.setprio o b) := fun h _ hw => fitsB (Nat.le_of_ble_eq_true rfl) h hw
theorem ld (o : Op) (m : ModM) : Statement (.ld o m) := fun h _ hw => fitsM (Nat.le_of_ble_eq_true rfl) h hw
theorem st (o : Op) (m : ModM) : Statement (.st o m) := fun h _ hw => fitsM (Nat.le_of_ble_eq_true rfl) h hw
theorem gld (o : Op) (g : ModG) : Statement (.gld o g) := fun h _ hw => fitsG (Nat.le_of_ble_eq_true rfl) h hw
theorem gst (o : Op) (g : ModG) : Statement (.gst o g) := fun h _ hw => fitsG (Nat.le_of_ble_eq_true rfl) h hw
theorem cst (o : Op) (m : ModM) : Statement (.cst o m) := fun h _ hw => fitsM (Nat.le_of_ble_eq_true rfl) h hw
theorem xld (o : Op) (m : ModM) : Statement (.xld o m) := fun h _ hw => fitsM (Nat.le_of_ble_eq_true rfl) h hw
theorem atom (o : Op) (m : ModM) : Statement (.atom o m) := fun h _ hw => fitsM (Nat.le_of_ble_eq_true rfl) h hw
theorem red (o : Op) (m : ModM) : Statement (.red o m) := fun h _ hw => fitsM (Nat.le_of_ble_eq_true rfl) h hw
theorem waitv (o : Op) (m : ModM) : Statement (.waitv o m) := fun h _ hw => fitsM (Nat.le_of_ble_eq_true rfl) h hw
theorem fence (o : Op) (x : ModX) : Statement (.fence o x) := fun h _ hw => fitsX (Nat.le_of_ble_eq_true rfl) h hw
theorem sdrain (o : Op) (x : ModX) : Statement (.sdrain o x) := fun h _ hw => fitsX (Nat.le_of_ble_eq_true rfl) h hw
theorem pf (o : Op) (m : ModM) : Statement (.pf o m) := fun h _ hw => fitsM (Nat.le_of_ble_eq_true rfl) h hw
theorem tld (o : Op) (m : ModM) : Statement (.tld o m) := fun h _ hw => fitsM (Nat.le_of_ble_eq_true rfl) h hw
theorem tldVer (o : Op) (m : ModM) : Statement (.tldVer o m) := fun h _ hw => fitsM (Nat.le_of_ble_eq_true rfl) h hw
theorem tst (o : Op) (m : ModM) : Statement (.tst o m) := fun h _ hw => fitsM (Nat.le_of_ble_eq_true rfl) h hw
theorem tstAll (o : Op) (m : ModM) : Statement (.tstAll o m) := fun h _ hw => fitsM (Nat.le_of_ble_eq_true rfl) h hw
theorem ldn (o : Op) (x : ModX) : Statement (.ldn o x) := fun h _ hw => fitsX (Nat.le_of_ble_eq_true rfl) h hw
theorem stn (o : Op) (x : ModX) : Statement (.stn o x) := fun h _ hw => fitsX (Nat.le_of_ble_eq_true rfl) h hw
theorem peq (o : Op) (x : ModX) : Statement (.peq o x) := fun h _ hw => fitsX (Nat.le_of_ble_eq_true rfl) h hw
theorem pname (o : Op) (x : ModX) : Statement (.pname o x) := fun h _ hw => fitsX (Nat.le_of_ble_eq_true rfl) h hw
theorem npin (o : Op) (x : ModX) : Statement (.npin o x) := fun h _ hw => fitsX (Nat.le_of_ble_eq_true rfl) h hw
theorem nunpin (o : Op) (x : ModX) : Statement (.nunpin o x) := fun h _ hw => fitsX (Nat.le_of_ble_eq_true rfl) h hw
theorem ldpl (o : Op) (x : ModX) : Statement (.ldpl o x) := fun h _ hw => fitsX (Nat.le_of_ble_eq_true rfl) h hw
theorem plswap (o : Op) (x : ModX) : Statement (.plswap o x) := fun h _ hw => fitsX (Nat.le_of_ble_eq_true rfl) h hw
theorem mmq (o : Op) (x : ModX) : Statement (.mmq o x) := fun h _ hw => fitsX (Nat.le_of_ble_eq_true rfl) h hw
theorem accrd (o : Op) (x : ModX) : Statement (.accrd o x) := fun h _ hw => fitsX (Nat.le_of_ble_eq_true rfl) h hw
theorem accwr (o : Op) (x : ModX) : Statement (.accwr o x) := fun h _ hw => fitsX (Nat.le_of_ble_eq_true rfl) h hw
theorem acczero (o : Op) (x : ModX) : Statement (.acczero o x) := fun h _ hw => fitsX (Nat.le_of_ble_eq_true rfl) h hw
theorem accld (o : Op) (x : ModX) : Statement (.accld o x) := fun h _ hw => fitsX (Nat.le_of_ble_eq_true rfl) h hw
theorem accst (o : Op) (x : ModX) : Statement (.accst o x) := fun h _ hw => fitsX (Nat.le_of_ble_eq_true rfl) h hw
theorem trchol (o : Op) (x : ModX) : Statement (.trchol o x) := fun h _ hw => fitsX (Nat.le_of_ble_eq_true rfl) h hw
theorem trupd (o : Op) (x : ModX) : Statement (.trupd o x) := fun h _ hw => fitsX (Nat.le_of_ble_eq_true rfl) h hw
theorem trupd8 (o : Op) (x : ModX) : Statement (.trupd8 o x) := fun h _ hw => fitsX (Nat.le_of_ble_eq_true rfl) h hw
theorem trdwd (o : Op) (x : ModX) : Statement (.trdwd o x) := fun h _ hw => fitsX (Nat.le_of_ble_eq_true rfl) h hw
theorem trsolve (o : Op) (x : ModX) : Statement (.trsolve o x) := fun h _ hw => fitsX (Nat.le_of_ble_eq_true rfl) h hw
theorem trscale (o : Op) (x : ModX) : Statement (.trscale o x) := fun h _ hw => fitsX (Nat.le_of_ble_eq_true rfl) h hw
theorem cpy (o : Op) (x : ModX) : Statement (.cpy o x) := fun h _ hw => fitsX (Nat.le_of_ble_eq_true rfl) h hw
theorem cpyg (o : Op) (x : ModX) : Statement (.cpyg o x) := fun h _ hw => fitsX (Nat.le_of_ble_eq_true rfl) h hw
theorem cpyt (o : Op) (x : ModX) : Statement (.cpyt o x) := fun h _ hw => fitsX (Nat.le_of_ble_eq_true rfl) h hw
theorem cpyr (o : Op) (x : ModX) : Statement (.cpyr o x) := fun h _ hw => fitsX (Nat.le_of_ble_eq_true rfl) h hw
theorem cred (o : Op) (x : ModX) : Statement (.cred o x) := fun h _ hw => fitsX (Nat.le_of_ble_eq_true rfl) h hw
theorem cpyz (o : Op) (x : ModX) : Statement (.cpyz o x) := fun h _ hw => fitsX (Nat.le_of_ble_eq_true rfl) h hw
theorem ratom (o : Op) (x : ModX) : Statement (.ratom o x) := fun h _ hw => fitsX (Nat.le_of_ble_eq_true rfl) h hw
theorem sfill (o : Op) (x : ModX) : Statement (.sfill o x) := fun h _ hw => fitsX (Nat.le_of_ble_eq_true rfl) h hw
theorem spop (o : Op) (x : ModX) : Statement (.spop o x) := fun h _ hw => fitsX (Nat.le_of_ble_eq_true rfl) h hw
theorem sfree (o : Op) (x : ModX) : Statement (.sfree o x) := fun h _ hw => fitsX (Nat.le_of_ble_eq_true rfl) h hw
theorem sfreeInit (o : Op) (x : ModX) : Statement (.sfreeInit o x) := fun h _ hw => fitsX (Nat.le_of_ble_eq_true rfl) h hw
theorem tagw (o : Op) (x : ModX) : Statement (.tagw o x) := fun h _ hw => fitsX (Nat.le_of_ble_eq_true rfl) h hw
theorem tagff (o : Op) (x : ModX) : Statement (.tagff o x) := fun h _ hw => fitsX (Nat.le_of_ble_eq_true rfl) h hw
theorem tagst (o : Op) (x : ModX) : Statement (.tagst o x) := fun h _ hw => fitsX (Nat.le_of_ble_eq_true rfl) h hw
theorem bini (o : Op) (x : ModX) : Statement (.bini o x) := fun h _ hw => fitsX (Nat.le_of_ble_eq_true rfl) h hw
theorem barv (o : Op) (x : ModX) : Statement (.barv o x) := fun h _ hw => fitsX (Nat.le_of_ble_eq_true rfl) h hw
theorem barw (o : Op) (x : ModX) : Statement (.barw o x) := fun h _ hw => fitsX (Nat.le_of_ble_eq_true rfl) h hw
theorem sigdec (o : Op) (x : ModX) : Statement (.sigdec o x) := fun h _ hw => fitsX (Nat.le_of_ble_eq_true rfl) h hw
theorem uiraise (o : Op) (x : ModX) : Statement (.uiraise o x) := fun h _ hw => fitsX (Nat.le_of_ble_eq_true rfl) h hw
theorem uiwait (o : Op) (x : ModX) : Statement (.uiwait o x) := fun h _ hw => fitsX (Nat.le_of_ble_eq_true rfl) h hw
theorem uitake (o : Op) (x : ModX) : Statement (.uitake o x) := fun h _ hw => fitsX (Nat.le_of_ble_eq_true rfl) h hw
theorem uimask (o : Op) (x : ModX) : Statement (.uimask o x) := fun h _ hw => fitsX (Nat.le_of_ble_eq_true rfl) h hw
theorem uiret (o : Op) (x : ModX) : Statement (.uiret o x) := fun h _ hw => fitsX (Nat.le_of_ble_eq_true rfl) h hw
theorem scall (o : Op) (x : ModX) : Statement (.scall o x) := fun h _ hw => fitsX (Nat.le_of_ble_eq_true rfl) h hw
theorem trapSw (o : Op) (x : ModX) : Statement (.trapSw o x) := fun h _ hw => fitsX (Nat.le_of_ble_eq_true rfl) h hw
theorem sprd (o : Op) (x : ModX) : Statement (.sprd o x) := fun h _ hw => fitsX (Nat.le_of_ble_eq_true rfl) h hw
theorem spwr (o : Op) (x : ModX) : Statement (.spwr o x) := fun h _ hw => fitsX (Nat.le_of_ble_eq_true rfl) h hw
theorem brk (o : Op) (x : ModX) : Statement (.brk o x) := fun h _ hw => fitsX (Nat.le_of_ble_eq_true rfl) h hw
theorem sret (o : Op) (x : ModX) : Statement (.sret o x) := fun h _ hw => fitsX (Nat.le_of_ble_eq_true rfl) h hw
theorem cancel (o : Op) (x : ModX) : Statement (.cancel o x) := fun h _ hw => fitsX (Nat.le_of_ble_eq_true rfl) h hw
theorem hvy (o : Op) (x : ModX) : Statement (.hvy o x) := fun h _ hw => fitsX (Nat.le_of_ble_eq_true rfl) h hw
theorem uimaskWrite (u : UKey) (v : DWord) : Statement (.uimaskWrite u v) := fun h => nomatch h
theorem registerWrite (core slot off size : Nat) (v : DWord) : Statement (.registerWrite core slot off size v) := fun h => nomatch h
theorem storeFaultRecord (u : UKey) (r : StoreFault) : Statement (.storeFaultRecord u r) := fun h => nomatch h
theorem sibhalt (u : UKey) (gid : Nat) : Statement (.sibhalt u gid) := fun h => nomatch h
theorem rejoinWaitComplete (u : UKey) (gid : Nat) : Statement (.rejoinWaitComplete u gid) := fun h => nomatch h
theorem offcutStallRelease (u : UKey) (gid : Nat) : Statement (.offcutStallRelease u gid) := fun h => nomatch h
theorem joinerBuild (u : UKey) : Statement (.joinerBuild u) := fun h => nomatch h
theorem waitvReread (u : UKey) (gid : Nat) : Statement (.waitvReread u gid) := fun h => nomatch h
theorem fillWaitEnd (ctx slot : Nat) : Statement (.fillWaitEnd ctx slot) := fun h => nomatch h
theorem groupEnd (u : UKey) (gid : Nat) : Statement (.groupEnd u gid) := fun h => nomatch h
theorem unitEnd (u : UKey) : Statement (.unitEnd u) := fun h => nomatch h
theorem engineCommandStart (u : UKey) (agent : Nat) : Statement (.engineCommandStart u agent) := fun h => nomatch h
theorem matrixPassOpen (core : Nat) : Statement (.matrixPassOpen core) := fun h => nomatch h
theorem quarterOperationCommit (core : Nat) (mismatch : Option (Nat × Nat)) : Statement (.quarterOperationCommit core mismatch) := fun h => nomatch h
theorem plswapExchange (core plane : Nat) : Statement (.plswapExchange core plane) := fun h => nomatch h
theorem factorCommandCommit (u : UKey) (agent : Nat) : Statement (.factorCommandCommit u agent) := fun h => nomatch h
theorem permitGrant (die : Nat) : Statement (.permitGrant die) := fun h => nomatch h
theorem energyIntervalCredit (die : Nat) : Statement (.energyIntervalCredit die) := fun h => nomatch h
theorem copyPiece (c : CopyRef) : Statement (.copyPiece c) := fun h => nomatch h
theorem commandComplete (u : UKey) (agent : Nat) : Statement (.commandComplete u agent) := fun h => nomatch h
theorem fillEnd (u : UKey) (agent : Nat) : Statement (.fillEnd u agent) := fun h => nomatch h
theorem orderedReductionApply (fn lid stream : Nat) : Statement (.orderedReductionApply fn lid stream) := fun h => nomatch h
theorem lateReply (u : UKey) (r : LateReply) : Statement (.lateReply u r) := fun h => nomatch h
theorem pageWalk (core ctx : Nat) (va : DWord) : Statement (.pageWalk core ctx va) := fun h => nomatch h
theorem admission (ctx key : Nat) : Statement (.admission ctx key) := fun h => nomatch h
theorem directoryBusyReread (ctx key : Nat) : Statement (.directoryBusyReread ctx key) := fun h => nomatch h
theorem ownershipReread (ctx slot : Nat) : Statement (.ownershipReread ctx slot) := fun h => nomatch h
theorem admissionResident (ctx slot : Nat) : Statement (.admissionResident ctx slot) := fun h => nomatch h
theorem departRequest (ctx key : Nat) : Statement (.departRequest ctx key) := fun h => nomatch h
theorem departure (ctx slot : Nat) (forced : Bool) : Statement (.departure ctx slot forced) := fun h => nomatch h
theorem departureComplete (ctx slot : Nat) : Statement (.departureComplete ctx slot) := fun h => nomatch h
theorem raiseDecision (r : RaiseReq) : Statement (.raiseDecision r) := fun h => nomatch h
theorem userInterruptEntry (u : UKey) : Statement (.userInterruptEntry u) := fun h => nomatch h
theorem watchdog (fn lid : Nat) : Statement (.watchdog fn lid) := fun h => nomatch h
theorem yieldCore (core : Nat) : Statement (.yieldCore core) := fun h => nomatch h
theorem workRequest (core : Nat) : Statement (.workRequest core) := fun h => nomatch h
theorem firstTicket (fn lid : Nat) : Statement (.firstTicket fn lid) := fun h => nomatch h
theorem spatialPreemption (fn lid : Nat) : Statement (.spatialPreemption fn lid) := fun h => nomatch h
theorem unitVacate (u : UKey) : Statement (.unitVacate u) := fun h => nomatch h
theorem unitRestore (u : UKey) (core : Nat) : Statement (.unitRestore u core) := fun h => nomatch h
theorem sliceEnd : Statement .sliceEnd := fun h => nomatch h
theorem machineCheck (core : Nat) (lost : List UKey) : Statement (.machineCheck core lost) := fun h => nomatch h
theorem coreReportAck (core idx : Nat) : Statement (.coreReportAck core idx) := fun h => nomatch h
theorem qfree (u : UKey) (mask : Nat) : Statement (.qfree u mask) := fun h => nomatch h
theorem admissionPortGo (core : Nat) : Statement (.admissionPortGo core) := fun h => nomatch h
theorem supervisorReplace (core : Nat) : Statement (.supervisorReplace core) := fun h => nomatch h
theorem openRpc (r : Rpc) : Statement (.openRpc r) := fun h => nomatch h
theorem rackRpc (r : Rpc) : Statement (.rackRpc r) := fun h => nomatch h
theorem capsRpc (r : Rpc) : Statement (.capsRpc r) := fun h => nomatch h
theorem contextRpc (r : Rpc) : Statement (.contextRpc r) := fun h => nomatch h
theorem contextTeardown (r : Rpc) : Statement (.contextTeardown r) := fun h => nomatch h
theorem launchRpc (r : Rpc) : Statement (.launchRpc r) := fun h => nomatch h
theorem levelRpc (r : Rpc) : Statement (.levelRpc r) := fun h => nomatch h
theorem cancelRpc (r : Rpc) : Statement (.cancelRpc r) := fun h => nomatch h
theorem qtableRpc (r : Rpc) : Statement (.qtableRpc r) := fun h => nomatch h
theorem tlbiRpc (r : Rpc) : Statement (.tlbiRpc r) := fun h => nomatch h
theorem departRpc (r : Rpc) : Statement (.departRpc r) := fun h => nomatch h
theorem raiseRpc (r : Rpc) : Statement (.raiseRpc r) := fun h => nomatch h
theorem windowRpc (r : Rpc) : Statement (.windowRpc r) := fun h => nomatch h
theorem handleRpc (r : Rpc) : Statement (.handleRpc r) := fun h => nomatch h
theorem revokeRpc (r : Rpc) : Statement (.revokeRpc r) := fun h => nomatch h
theorem poolrangeRpc (r : Rpc) : Statement (.poolrangeRpc r) := fun h => nomatch h
theorem phaseRpc (r : Rpc) : Statement (.phaseRpc r) := fun h => nomatch h
theorem agentReplyRpc (r : Rpc) : Statement (.agentReplyRpc r) := fun h => nomatch h
theorem telemetryRpc (r : Rpc) : Statement (.telemetryRpc r) := fun h => nomatch h
theorem powerRpc (r : Rpc) : Statement (.powerRpc r) := fun h => nomatch h
theorem fwloadRpc (r : Rpc) : Statement (.fwloadRpc r) := fun h => nomatch h
theorem fwswitchRpc (r : Rpc) : Statement (.fwswitchRpc r) := fun h => nomatch h
theorem fwcommitRpc (r : Rpc) : Statement (.fwcommitRpc r) := fun h => nomatch h
theorem quoteRpc (r : Rpc) : Statement (.quoteRpc r) := fun h => nomatch h
theorem coresetRpc (r : Rpc) : Statement (.coresetRpc r) := fun h => nomatch h
theorem quiesceRpc (r : Rpc) : Statement (.quiesceRpc r) := fun h => nomatch h
theorem adoptRpc (r : Rpc) : Statement (.adoptRpc r) := fun h => nomatch h
theorem resync (fn off : Nat) : Statement (.resync fn off) := fun h => nomatch h
theorem inboundWrite (w : Inbound) : Statement (.inboundWrite w) := fun h => nomatch h
theorem inboundRead (fn : Nat) (msg : Bool) (off size : Nat) (r : ReadReq) : Statement (.inboundRead fn msg off size r) := fun h => nomatch h
theorem routeAck (fn seq route : Nat) : Statement (.routeAck fn seq route) := fun h => nomatch h
theorem heldWriteRelease (fn seq : Nat) : Statement (.heldWriteRelease fn seq) := fun h => nomatch h
theorem functionReset (fn : Nat) : Statement (.functionReset fn) := fun h => nomatch h
theorem fabricRequest (r : FabReq) : Statement (.fabricRequest r) := fun h => nomatch h
theorem fabricReply (r : FabReply) : Statement (.fabricReply r) := fun h => nomatch h
theorem resendTimeout (fn dst id : Nat) : Statement (.resendTimeout fn dst id) := fun h => nomatch h
theorem creditReport (port chan : Nat) : Statement (.creditReport port chan) := fun h => nomatch h
theorem creditReportReceived (port chan sent freed : Nat) : Statement (.creditReportReceived port chan sent freed) := fun h => nomatch h
theorem rateStepDown (port : Nat) : Statement (.rateStepDown port) := fun h => nomatch h
theorem poolLinkDown (port : Nat) : Statement (.poolLinkDown port) := fun h => nomatch h
theorem emergencyEvent : Statement .emergencyEvent := fun h => nomatch h
theorem emergencyClear : Statement .emergencyClear := fun h => nomatch h
theorem patrolScrub (addr size : Nat) (bad : List Nat) (corrected : Nat) : Statement (.patrolScrub addr size bad corrected) := fun h => nomatch h
theorem powerOn : Statement .powerOn := fun h => nomatch h
theorem poolLinkUp (port : Nat) : Statement (.poolLinkUp port) := fun h => nomatch h
theorem powerLoss : Statement .powerLoss := fun h => nomatch h
theorem poolBackInvalidate (line : Nat) : Statement (.poolBackInvalidate line) := fun h => nomatch h

end EncodeFits

end Sys2Proof.Laws
end

