-- ==== Sys2Proof/Laws/Sched.lean ====
section
/-! SUPPORT. Laws of what a step adds around an instruction: selection, ages, charges and clocks, the end of a cycle; and of the order in
which two accesses of one lane fail. -/

namespace Sys2Proof.Machine

variable {s : State} {k : UKey}

/-! ## Everything the parts of a step can change -/

theorem spend_cases (s : State) (die n est : Nat) : ∃ ds e, spend s die n est = { s with dies := ds, energy := e } := by
  unfold spend State.modDie
  exact ⟨_, _, rfl⟩

/-- A charge changes the energy of its unit and the accounts (R406, R407). -/
theorem chargeEnd_cases (s : State) (k : UKey) (die est : Nat) :
    ∃ ds e, chargeEnd s k die est = { addEnergy s k (Config.measuredEnergy s.tick) with dies := ds, energy := e } := spend_cases ..

/-- A read of registers changes only the clocks of its unit (R169). -/
theorem joinRegs_cases (s : State) (k : UKey) (g : Group) (w : Nat) (i : Instr) :
    ∃ f : Unit → Race, joinRegs s k g w i = s.modUnit k fun u => { u with race := f u } := by
  unfold joinRegs withRace
  split
  · exact ⟨fun u => u.race, by simp [State.modUnit]⟩
  · next h =>
    rw [if_pos (by simpa using h)]
    exact ⟨fun u => (touched w i).foldl (fun r n => r.acquire k g.gid (keyReg g.gid n)) u.race, rfl⟩

/-- A selection changes only what the core remembers of it (R222). -/
theorem noteSelected_cases (s : State) (u : Unit) (g : Group) : ∃ cs, noteSelected s u g = { s with cores := cs } := by
  unfold noteSelected State.modCore State.setCore
  simp only
  split <;> exact ⟨_, rfl⟩

/-- An opportunity changes the ages, the skid and the mark of the second decoder's entry of one group, and what the core remembers of
its selection. -/
theorem opportunity_cases (s : State) (u : Unit) (g : Group) (b : Option Entry) :
    ∃ cs es r p, opportunity s u g b
      = ({ s with cores := cs, second := p, pair := p } : State).modGrp u.key g.gid fun h => { h with ents := es, run := r } := by
  obtain ⟨cs, h⟩ := noteSelected_cases s u g
  unfold opportunity
  rw [h]
  exact ⟨cs, _, _, _, rfl⟩

/-! ## The end of a cycle -/

/-- Outside a cycle there is none to end. -/
theorem cycleEnd_none (h : s.pair = none) : cycleEnd s = s := by simp [cycleEnd, h]

theorem closeStep_none (h : s.pair = none) : closeStep s = settle (tock s) := by simp [closeStep, cycleEnd_none h]

/-! ## Two accesses of one lane (R141) -/

/-- Both checks pass. -/
theorem inRowOrder_ok {α β : Type} (ra rb : Trap → Nat) (x : α) (y : β) : inRowOrder ra rb (.ok x) (.ok y) = .ok (x, y) := rfl

/-- Both fail: the lower row is reported, the first access's where the rows are the same. -/
theorem inRowOrder_both {α β : Type} (ra rb : Trap → Nat) (t v : Trap) :
    (inRowOrder ra rb (.error (.trap t)) (.error (.trap v)) : Exc (α × β)) = .error (.trap (if rb v < ra t then v else t)) := by
  show (if rb v < ra t then stop v else stop t) = _
  split <;> rfl

/-- Only the second fails. -/
theorem inRowOrder_second {α β : Type} (ra rb : Trap → Nat) (x : α) (e : Stop) :
    (inRowOrder ra rb (.ok x) (.error e) : Exc (α × β)) = .error e := rfl

end Sys2Proof.Machine
end

