-- ==== Sys2Proof/Tests/Slice0.lean ====
section
/-! SUPPORT. Tests: words written out from the encoding tables, ill-formed terms, small steps, and for every statement with hypotheses
states and operands that meet them. -/

namespace Sys2Proof.Tests

open Sys2Proof Sys2Proof.Machine Sys2Proof.Claims

set_option Elab.async false

/-- The fields of an instruction as the encoding table names them. -/
def op (fn grd hint : Nat) (d a b : Opd) (imm : Nat) : Op := { fn := fn, grd := grd, hint := hint, d := d, a := a, b := b, imm := imm }

/-- Whether the three pieces of a word, the first one highest, decode to an instruction. -/
def reads (w0 w1 w2 : Nat) (i : Instr) : Bool :=
  match decode 256 false (w0 * 2 ^ 64 + w1 * 2 ^ 32 + w2) with | .ok j => decide (j = i) | .error _ => false

/-! ## Words (R63 to R75, R81): each bit from the tables -/

/-- iadd.i32 v1, v2, -1; isub.i64 v4, v6, v8; imul.hi.n32 v3, v1, v2; imad.lo.i32 v5, v1, v2, v3; idiv.i32 v7, v8, 3; irem.i32 v1, v2, v3; iabs.i32 v2, v2; imin.n32 v1, v2, v3. -/
theorem test_words_integer :
    [reads 0x00070080 0x80000210 0xFFFFFFFF (.iadd (op 0 7 0 (.v 1) (.v 2) (.v 0) 0xFFFFFFFF) { ty := .i32, rm := .rn, rs := false, opnd := 1, sub := 0 }),
      reads 0x02070201 0x81001200 0x00000000 (.isub (op 0 7 0 (.v 4) (.v 6) (.v 8) 0x0) { ty := .i64, rm := .rn, rs := false, opnd := 0, sub := 0 }),
      reads 0x04170180 0x40400400 0x00000000 (.imul (op 1 7 0 (.v 3) (.v 1) (.v 2) 0x0) { ty := .n32, rm := .rn, rs := false, opnd := 0, sub := 0 }),
      reads 0x06070280 0x40400220 0x00000003 (.imad (op 0 7 0 (.v 5) (.v 1) (.v 2) 0x3) { ty := .i32, rm := .rn, rs := false, opnd := 2, sub := 0 }),
      reads 0x08070382 0x00000210 0x00000003 (.idiv (op 0 7 0 (.v 7) (.v 8) (.v 0) 0x3) { ty := .i32, rm := .rn, rs := false, opnd := 1, sub := 0 }),
      reads 0x0A070080 0x80600200 0x00000000 (.irem (op 0 7 0 (.v 1) (.v 2) (.v 3) 0x0) { ty := .i32, rm := .rn, rs := false, opnd := 0, sub := 0 }),
      reads 0x0C070100 0x80000200 0x00000000 (.iabs (op 0 7 0 (.v 2) (.v 2) (.v 0) 0x0) { ty := .i32, rm := .rn, rs := false, opnd := 0, sub := 0 }),
      reads 0x0E070080 0x80600400 0x00000000 (.imin (op 0 7 0 (.v 1) (.v 2) (.v 3) 0x0) { ty := .n32, rm := .rn, rs := false, opnd := 0, sub := 0 })].all id = true := by decide

/-- imax.i32 s3, s1, s2; and.b32 v1, v2, 0xFF; or.b32 v1, v2, v3; xor.b64 v2, v4, v6; shl.b32 s20, gid, 16; shr.i32 v3, v4, 5; rot.right.b32 v1, v2, v3; bfx.i32 v5, v6, 0x0408. -/
theorem test_words_integer_2 :
    [reads 0x0E1781C0 0x60400200 0x00000000 (.imax (op 1 7 0 (.s 3) (.s 1) (.s 2) 0x0) { ty := .i32, rm := .rn, rs := false, opnd := 0, sub := 0 }),
      reads 0x10070080 0x80000010 0x000000FF (.andB (op 0 7 0 (.v 1) (.v 2) (.v 0) 0xFF) { ty := .b32, rm := .rn, rs := false, opnd := 1, sub := 0 }),
      reads 0x12070080 0x80600000 0x00000000 (.orB (op 0 7 0 (.v 1) (.v 2) (.v 3) 0x0) { ty := .b32, rm := .rn, rs := false, opnd := 0, sub := 0 }),
      reads 0x14070101 0x00C01000 0x00000000 (.xorB (op 0 7 0 (.v 2) (.v 4) (.v 6) 0x0) { ty := .b64, rm := .rn, rs := false, opnd := 0, sub := 0 }),
      reads 0x16078A70 0xC0000010 0x00000010 (.shl (op 0 7 0 (.s 20) (.sp .gid) (.v 0) 0x10) { ty := .b32, rm := .rn, rs := false, opnd := 1, sub := 0 }),
      reads 0x18070181 0x00000210 0x00000005 (.shr (op 0 7 0 (.v 3) (.v 4) (.v 0) 0x5) { ty := .i32, rm := .rn, rs := false, opnd := 1, sub := 0 }),
      reads 0x1A170080 0x80600000 0x00000000 (.rot (op 1 7 0 (.v 1) (.v 2) (.v 3) 0x0) { ty := .b32, rm := .rn, rs := false, opnd := 0, sub := 0 }),
      reads 0x1C070281 0x80000210 0x00000408 (.bfx (op 0 7 0 (.v 5) (.v 6) (.v 0) 0x408) { ty := .i32, rm := .rn, rs := false, opnd := 1, sub := 0 })].all id = true := by decide

/-- bfi.b32 v1, v2, v3, v4; popc.b32 v9, v10; clz.b32 v1, v2; brev.b32 v1, v2. -/
theorem test_words_integer_3 :
    [reads 0x1E070080 0x80600020 0x00000004 (.bfi (op 0 7 0 (.v 1) (.v 2) (.v 3) 0x4) { ty := .b32, rm := .rn, rs := false, opnd := 2, sub := 0 }),
      reads 0x20070482 0x80000000 0x00000000 (.popc (op 0 7 0 (.v 9) (.v 10) (.v 0) 0x0) { ty := .b32, rm := .rn, rs := false, opnd := 0, sub := 0 }),
      reads 0x22070080 0x80000000 0x00000000 (.clz (op 0 7 0 (.v 1) (.v 2) (.v 0) 0x0) { ty := .b32, rm := .rn, rs := false, opnd := 0, sub := 0 }),
      reads 0x24070080 0x80000000 0x00000000 (.brev (op 0 7 0 (.v 1) (.v 2) (.v 0) 0x0) { ty := .b32, rm := .rn, rs := false, opnd := 0, sub := 0 })].all id = true := by decide

/-- icmp.lt.i32 p1, v2, v3; sel.b32 v1, v2, v3, p4; mov.b32 v1, s5; mov.retag.f32 v2, v2; movi.f32 v6, 1.5. -/
theorem test_words_move :
    [reads 0x2627D080 0x80600200 0x00000000 (.icmp (op 2 7 0 (.p 1) (.v 2) (.v 3) 0x0) { ty := .i32, rm := .rn, rs := false, opnd := 0, sub := 0 }),
      reads 0x28070080 0x80600020 0x000001A4 (.sel (op 0 7 0 (.v 1) (.v 2) (.v 3) 0x1A4) { ty := .b32, rm := .rn, rs := false, opnd := 2, sub := 0 }),
      reads 0x2A0700C1 0x40000000 0x00000000 (.mov (op 0 7 0 (.v 1) (.s 5) (.v 0) 0x0) { ty := .b32, rm := .rn, rs := false, opnd := 0, sub := 0 }),
      reads 0x2A170100 0x80000400 0x00000000 (.movRetag (op 1 7 0 (.v 2) (.v 2) (.v 0) 0x0) { ty := .n32, rm := .rn, rs := false, opnd := 0, sub := 0 }),
      reads 0x2C070300 0x00000610 0x3FC00000 (.movi (op 0 7 0 (.v 6) (.v 0) (.v 0) 0x3FC00000) { ty := .f32, rm := .rn, rs := false, opnd := 1, sub := 0 })].all id = true := by decide

/-- fadd.f32 v1, v2, v3; fsub.f32 v1, v2, 0.5; fmul.bf16.rd v4, v5, v6; ffma.f32.rz v4, v5, v6, v7; fmin.f32 v1, v2, v3; fmax.f64 v8, v10, v12; fcmp.un.f32 p2, v1, v1; fclass.f32 v3, v1. -/
theorem test_words_float :
    [reads 0x30070080 0x80600600 0x00000000 (.fadd (op 0 7 0 (.v 1) (.v 2) (.v 3) 0x0) { ty := .f32, rm := .rn, rs := false, opnd := 0, sub := 0 }),
      reads 0x32070080 0x80000610 0x3F000000 (.fsub (op 0 7 0 (.v 1) (.v 2) (.v 0) 0x3F000000) { ty := .f32, rm := .rn, rs := false, opnd := 1, sub := 0 }),
      reads 0x34070201 0x40C00B00 0x00000000 (.fmul (op 0 7 0 (.v 4) (.v 5) (.v 6) 0x0) { ty := .bf16, rm := .rd, rs := false, opnd := 0, sub := 0 }),
      reads 0x36070201 0x40C006A0 0x00000007 (.ffma (op 0 7 0 (.v 4) (.v 5) (.v 6) 0x7) { ty := .f32, rm := .rz, rs := false, opnd := 2, sub := 0 }),
      reads 0x38070080 0x80600600 0x00000000 (.fmin (op 0 7 0 (.v 1) (.v 2) (.v 3) 0x0) { ty := .f32, rm := .rn, rs := false, opnd := 0, sub := 0 }),
      reads 0x38170402 0x81801600 0x00000000 (.fmax (op 1 7 0 (.v 8) (.v 10) (.v 12) 0x0) { ty := .f64, rm := .rn, rs := false, opnd := 0, sub := 0 }),
      reads 0x3A67D100 0x40200600 0x00000000 (.fcmp (op 6 7 0 (.p 2) (.v 1) (.v 1) 0x0) { ty := .f32, rm := .rn, rs := false, opnd := 0, sub := 0 }),
      reads 0x3C070180 0x40000600 0x00000000 (.fclass (op 0 7 0 (.v 3) (.v 1) (.v 0) 0x0) { ty := .f32, rm := .rn, rs := false, opnd := 0, sub := 0 })].all id = true := by decide

/-- fdiv.f64.ru v2, v4, v6; fsqrt.f32 v1, v2; frsqrt.f32 v1, v2; frcp.f32 v7, v7. -/
theorem test_words_float_2 :
    [reads 0x3E070101 0x00C01780 0x00000000 (.fdiv (op 0 7 0 (.v 2) (.v 4) (.v 6) 0x0) { ty := .f64, rm := .ru, rs := false, opnd := 0, sub := 0 }),
      reads 0x40070080 0x80000600 0x00000000 (.fsqrt (op 0 7 0 (.v 1) (.v 2) (.v 0) 0x0) { ty := .f32, rm := .rn, rs := false, opnd := 0, sub := 0 }),
      reads 0x42070080 0x80000000 0x00000000 (.frsqrt (op 0 7 0 (.v 1) (.v 2) (.v 0) 0x0) { ty := .b32, rm := .rn, rs := false, opnd := 0, sub := 0 }),
      reads 0x42170381 0xC0000000 0x00000000 (.frcp (op 1 7 0 (.v 7) (.v 7) (.v 0) 0x0) { ty := .b32, rm := .rn, rs := false, opnd := 0, sub := 0 })].all id = true := by decide

/-- fexp2.f32 v1, v2; flog2.f32 v1, v2; fsinpi.f32.rz v1, v2; fcospi.f32 v1, v2; frnd.f32.rd v1, v2; fscale.f32 v3, v3, v9; fgetexp.f32 v4, v1; cvt.f16.f32.rs v1, v2, v3. -/
theorem test_words_float_functions :
    [reads 0x44070080 0x80000000 0x00000000 (.fexp2 (op 0 7 0 (.v 1) (.v 2) (.v 0) 0x0) { ty := .b32, rm := .rn, rs := false, opnd := 0, sub := 0 }),
      reads 0x44170080 0x80000000 0x00000000 (.flog2 (op 1 7 0 (.v 1) (.v 2) (.v 0) 0x0) { ty := .b32, rm := .rn, rs := false, opnd := 0, sub := 0 }),
      reads 0x46070080 0x80000080 0x00000000 (.fsinpi (op 0 7 0 (.v 1) (.v 2) (.v 0) 0x0) { ty := .b32, rm := .rz, rs := false, opnd := 0, sub := 0 }),
      reads 0x46170080 0x80000000 0x00000000 (.fcospi (op 1 7 0 (.v 1) (.v 2) (.v 0) 0x0) { ty := .b32, rm := .rn, rs := false, opnd := 0, sub := 0 }),
      reads 0x48070080 0x80000700 0x00000000 (.frnd (op 0 7 0 (.v 1) (.v 2) (.v 0) 0x0) { ty := .f32, rm := .rd, rs := false, opnd := 0, sub := 0 }),
      reads 0x4A070180 0xC1200600 0x00000000 (.fscale (op 0 7 0 (.v 3) (.v 3) (.v 9) 0x0) { ty := .f32, rm := .rn, rs := false, opnd := 0, sub := 0 }),
      reads 0x4C070200 0x40000600 0x00000000 (.fgetexp (op 0 7 0 (.v 4) (.v 1) (.v 0) 0x0) { ty := .f32, rm := .rn, rs := false, opnd := 0, sub := 0 }),
      reads 0x4E370080 0x80600840 0x00000000 (.cvt (op 3 7 0 (.v 1) (.v 2) (.v 3) 0x0) { ty := .f16, rm := .rn, rs := true, opnd := 0, sub := 0 })].all id = true := by decide

/-- dxpack.auto.dx8 v8, v16; dxunpack.dx8 v16, v8; fgsum.f32 s6, v2; fdot2.bf16 v1, v2, v3, v4. -/
theorem test_words_float_functions_2 :
    [reads 0x50270404 0x00000C00 0x00000000 (.dxpack (op 2 7 0 (.v 8) (.v 16) (.v 0) 0x0) { ty := .dx8, rm := .rn, rs := false, opnd := 0, sub := 0 }),
      reads 0x50170802 0x00000C00 0x00000000 (.dxunpack (op 1 7 0 (.v 16) (.v 8) (.v 0) 0x0) { ty := .dx8, rm := .rn, rs := false, opnd := 0, sub := 0 }),
      reads 0x52078300 0x80000600 0x00000000 (.fgsum (op 0 7 0 (.s 6) (.v 2) (.v 0) 0x0) { ty := .f32, rm := .rn, rs := false, opnd := 0, sub := 0 }),
      reads 0x54070080 0x80600A20 0x00000004 (.fdot2 (op 0 7 0 (.v 1) (.v 2) (.v 3) 0x4) { ty := .bf16, rm := .rn, rs := false, opnd := 2, sub := 0 })].all id = true := by decide

/-- shfl.xor.b32 v1, v2, 1; ballot m2, p3; vote.any p1, p2; gred.add.i32 s4, v5; gscan.add.i32.excl v6, v5; plop.andn p1, p2, p3; p2m m5, p1; m2p p1, m2. -/
theorem test_words_lanes :
    [reads 0x60370080 0x80000010 0x00000001 (.shfl (op 3 7 0 (.v 1) (.v 2) (.v 0) 0x1) { ty := .b32, rm := .rn, rs := false, opnd := 1, sub := 0 }),
      reads 0x6207C168 0xC0000000 0x00000000 (.ballot (op 0 7 0 (.m 2) (.p 3) (.v 0) 0x0) { ty := .b32, rm := .rn, rs := false, opnd := 0, sub := 0 }),
      reads 0x6417D0E8 0x80000000 0x00000000 (.vote (op 1 7 0 (.p 1) (.p 2) (.v 0) 0x0) { ty := .b32, rm := .rn, rs := false, opnd := 0, sub := 0 }),
      reads 0x66078201 0x40000200 0x00000000 (.gred (op 0 7 0 (.s 4) (.v 5) (.v 0) 0x0) { ty := .i32, rm := .rn, rs := false, opnd := 0, sub := 0 }),
      reads 0x68070301 0x40000204 0x00000000 (.gscan (op 0 7 0 (.v 6) (.v 5) (.v 0) 0x0) { ty := .i32, rm := .rn, rs := false, opnd := 0, sub := 1 }),
      reads 0x6A37D0E8 0xB4600000 0x00000000 (.plop (op 3 7 0 (.p 1) (.p 2) (.p 3) 0x0) { ty := .b32, rm := .rn, rs := false, opnd := 0, sub := 0 }),
      reads 0x6C07C2E8 0x40000000 0x00000000 (.p2m (op 0 7 0 (.m 5) (.p 1) (.v 0) 0x0) { ty := .b32, rm := .rn, rs := false, opnd := 0, sub := 0 }),
      reads 0x6C17D0E0 0x80000000 0x00000000 (.m2p (op 1 7 0 (.p 1) (.m 2) (.v 0) 0x0) { ty := .b32, rm := .rn, rs := false, opnd := 0, sub := 0 })].all id = true := by decide

/-- nop. -/
theorem test_words_lanes_2 :
    [reads 0x6E070000 0x00000000 0x00000000 (.nop (op 0 7 0 (.v 0) (.v 0) (.v 0) 0x0) { ty := .b32, rm := .rn, rs := false, opnd := 0, sub := 0 })].all id = true := by decide

/-- ?p2 bra.likely loop, 12; brx x3, 64; call v30, fn; ret v30; exit; rgrp 24; rgrp.set 24; rejoin m3. -/
theorem test_words_control :
    [reads 0x70020000 0x00008180 0xFFFFFFFB (.bra (op 0 2 4 (.v 0) (.v 0) (.v 0) 0xFFFFFFFB) { prio := 12, zero := 0 }),
      reads 0x72070041 0x80000800 0x00000000 (.brx (op 0 7 0 (.v 0) (.s 6) (.v 0) 0x0) { prio := 64, zero := 0 }),
      reads 0x74070F00 0x00001000 0x00000028 (.call (op 0 7 0 (.v 30) (.v 0) (.v 0) 0x28) { prio := 128, zero := 0 }),
      reads 0x76070007 0x80000000 0x00000000 (.ret (op 0 7 0 (.v 0) (.v 30) (.v 0) 0x0) { bits := 0x0 }),
      reads 0x78070000 0x00000000 0x00000000 (.exitL (op 0 7 0 (.v 0) (.v 0) (.v 0) 0x0) { bits := 0x0 }),
      reads 0x7A070000 0x00000000 0x00000018 (.rgrp (op 0 7 0 (.v 0) (.v 0) (.v 0) 0x18) { bits := 0x0 }),
      reads 0x7A070000 0x00000004 0x00000018 (.rgrpSet (op 0 7 0 (.v 0) (.v 0) (.v 0) 0x18) { bits := 0x1 }),
      reads 0x7C070060 0xC0000000 0x00000000 (.rejoin (op 0 7 0 (.v 0) (.m 3) (.v 0) 0x0) { bits := 0x0 })].all id = true := by decide

/-- setprio 200. -/
theorem test_words_control_2 :
    [reads 0x7E070000 0x00001900 0x00000000 (.setprio (op 0 7 0 (.v 0) (.v 0) (.v 0) 0x0) { prio := 200, zero := 0 })].all id = true := by decide

/-- ?!p3 ld.f32.acq.dev v9, [x4 + v7*4 + 0x40]; st.f32.rel.dev [x4 + v2*4], v6; gld.f32 v5, [x4 + v7.n32*4]; gst.f32 [x4 + v7.n32*4], v5; cst.f32 [x4 + 0x100], v3; xld.f32 v3, [x4 + 0x100]; atom.add.f32 v1, [x2 + v0*4], v3; red.add.i32.rel.dev [x2 + v0*4 + 0x20], v5. -/
theorem test_words_memory :
    [reads 0x800B04C2 0x00E006B0 0x00000040 (.ld (op 0 11 0 (.v 9) (.s 8) (.v 7) 0x40) { ty := .f32, ord := 1, scope := 3, space := 0 }),
      reads 0x82070342 0x00400730 0x00000000 (.st (op 0 7 0 (.v 6) (.s 8) (.v 2) 0x0) { ty := .f32, ord := 2, scope := 3, space := 0 }),
      reads 0x840702C2 0x00E00710 0x00000000 (.gld (op 0 7 0 (.v 5) (.s 8) (.v 7) 0x0) { ty := .f32, iw := 2, isgn := false, sc := 2, space := 0 }),
      reads 0x860702C2 0x00E00710 0x00000000 (.gst (op 0 7 0 (.v 5) (.s 8) (.v 7) 0x0) { ty := .f32, iw := 2, isgn := false, sc := 2, space := 0 }),
      reads 0x880701C2 0x38000600 0x00000100 (.cst (op 0 7 0 (.v 3) (.s 8) (.sp .z) 0x100) { ty := .f32, ord := 0, scope := 0, space := 0 }),
      reads 0x8A0701C2 0x38000600 0x00000100 (.xld (op 0 7 0 (.v 3) (.s 8) (.sp .z) 0x100) { ty := .f32, ord := 0, scope := 0, space := 0 }),
      reads 0x8C0700C1 0x00000630 0x00000003 (.atom (op 0 7 0 (.v 1) (.s 4) (.v 0) 0x3) { ty := .f32, ord := 0, scope := 3, space := 0 }),
      reads 0x8E0702C1 0x00000330 0x00000020 (.red (op 0 7 0 (.v 5) (.s 4) (.v 0) 0x20) { ty := .i32, ord := 2, scope := 3, space := 0 })].all id = true := by decide

/-- waitv.ge.i32.acq.dev [x2 + 0x40], s7; fence.rel.dev; sdrain; pf.keep [x4 + v1*4]; tld.f32 v16, [x4 + 0x400]; tld.ver.f32.acq.dev v16, p1, [x4], [x6]; tst.f32 [x4 + 0x400], v16; tst.all.f32.rel.dev [x4], v16, [x6]. -/
theorem test_words_memory_2 :
    [reads 0x905783C1 0x380002B0 0x00000040 (.waitv (op 5 7 0 (.s 7) (.s 4) (.sp .z) 0x40) { ty := .i32, ord := 1, scope := 3, space := 0 }),
      reads 0x92070000 0x00000130 0x00000000 (.fence (op 0 7 0 (.v 0) (.v 0) (.v 0) 0x0) { bits := 0x4C }),
      reads 0x94070000 0x00000000 0x00000000 (.sdrain (op 0 7 0 (.v 0) (.v 0) (.v 0) 0x0) { bits := 0x0 }),
      reads 0x96070042 0x00300000 0x00000000 (.pf (op 0 7 128 (.v 0) (.s 8) (.v 1) 0x0) { ty := .b32, ord := 0, scope := 0, space := 0 }),
      reads 0x98070842 0x38000600 0x00000400 (.tld (op 0 7 0 (.v 16) (.s 8) (.sp .z) 0x400) { ty := .f32, ord := 0, scope := 0, space := 0 }),
      reads 0x98170842 0x218006B0 0x000001A1 (.tldVer (op 1 7 0 (.v 16) (.s 8) (.s 12) 0x1A1) { ty := .f32, ord := 1, scope := 3, space := 0 }),
      reads 0x9A070842 0x38000600 0x00000400 (.tst (op 0 7 0 (.v 16) (.s 8) (.sp .z) 0x400) { ty := .f32, ord := 0, scope := 0, space := 0 }),
      reads 0x9A170842 0x21800730 0x00000000 (.tstAll (op 1 7 0 (.v 16) (.s 8) (.s 12) 0x0) { ty := .f32, ord := 2, scope := 3, space := 0 })].all id = true := by decide

/-- ldn v20, [x4 + v1*16 + 0x20]; stn.rel.dev [x4 + 0x30], v20; peq p1, v20, v22; pname v24, v20; npin v20; nunpin v20. -/
theorem test_words_names :
    [reads 0x9C070A42 0x00200000 0x00000020 (.ldn (op 0 7 0 (.v 20) (.s 8) (.v 1) 0x20) { bits := 0x0 }),
      reads 0x9E070A42 0x38000130 0x00000030 (.stn (op 0 7 0 (.v 20) (.s 8) (.sp .z) 0x30) { bits := 0x4C }),
      reads 0xA007D085 0x02C00000 0x00000000 (.peq (op 0 7 0 (.p 1) (.v 20) (.v 22) 0x0) { bits := 0x0 }),
      reads 0xA2070C05 0x00000000 0x00000000 (.pname (op 0 7 0 (.v 24) (.v 20) (.v 0) 0x0) { bits := 0x0 }),
      reads 0xA4070005 0x00000000 0x00000000 (.npin (op 0 7 0 (.v 0) (.v 20) (.v 0) 0x0) { bits := 0x0 }),
      reads 0xA4170005 0x00000000 0x00000000 (.nunpin (op 1 7 0 (.v 0) (.v 20) (.v 0) 0x0) { bits := 0x0 })].all id = true := by decide

/-- ldpl.bf16 pl1, [x4 + 0x100], tag5; plswap pl1; mmq.bf16 acc8, pl0, [s2 + v1], bo3; accrd v16, acc8; accwr.f64 acc2, v32; acczero acc0, 4; accld acc8, [x6], tag9; accst [x6], acc8, tag9. -/
theorem test_words_matrix :
    [reads 0xB0070042 0x00001014 0x00000100 (.ldpl (op 0 7 0 (.v 0) (.s 8) (.v 0) 0x100) { bits := 0x405 }),
      reads 0xB2070000 0x00001000 0x00000000 (.plswap (op 0 7 0 (.v 0) (.v 0) (.v 0) 0x0) { bits := 0x400 }),
      reads 0xB4070440 0x80200000 0x80C00000 (.mmq (op 0 7 0 (.v 8) (.s 2) (.v 1) 0x80C00000) { bits := 0x0 }),
      reads 0xB6070800 0x00000000 0x00000008 (.accrd (op 0 7 0 (.v 16) (.v 0) (.v 0) 0x8) { bits := 0x0 }),
      reads 0xB6170008 0x00001000 0x00000002 (.accwr (op 1 7 0 (.v 0) (.v 32) (.v 0) 0x2) { bits := 0x400 }),
      reads 0xB8070000 0x00000000 0x00000400 (.acczero (op 0 7 0 (.v 0) (.v 0) (.v 0) 0x400) { bits := 0x0 }),
      reads 0xBA070043 0x00000480 0x00000008 (.accld (op 0 7 0 (.v 0) (.s 12) (.v 0) 0x8) { bits := 0x120 }),
      reads 0xBA170043 0x00000480 0x00000008 (.accst (op 1 7 0 (.v 0) (.s 12) (.v 0) 0x8) { bits := 0x120 })].all id = true := by decide

/-- trchol.flag.f32.sz8 acc16, acc0, 20, bo2; trupd.f32.sz8 acc16, v8, bo2; trupd8.f32.sz8 acc16, acc0, bo2; trdwd.flag.f32.sz8 acc16, v9, 30, bo2; trsolve.t.f32.sz8 acc16, v10, bo3, bo2; trscale.f64.sz32 acc40, x3, bo4. -/
theorem test_words_factor :
    [reads 0xBC170000 0x00000140 0x81000010 (.trchol (op 1 7 0 (.v 0) (.v 0) (.v 0) 0x81000010) { bits := 0x50 }),
      reads 0xBE070002 0x00000000 0x81000010 (.trupd (op 0 7 0 (.v 0) (.v 8) (.v 0) 0x81000010) { bits := 0x0 }),
      reads 0xBE170000 0x00000000 0x81000010 (.trupd8 (op 1 7 0 (.v 0) (.v 0) (.v 0) 0x81000010) { bits := 0x0 }),
      reads 0xC0170002 0x400001E0 0x81000010 (.trdwd (op 1 7 0 (.v 0) (.v 9) (.v 0) 0x81000010) { bits := 0x78 }),
      reads 0xC2070002 0x80000000 0x11800010 (.trsolve (op 0 7 0 (.v 0) (.v 10) (.v 0) 0x11800010) { bits := 0x0 }),
      reads 0xC4070000 0x20C01400 0x82000028 (.trscale (op 0 7 0 (.v 0) (.v 0) (.s 6) 0x82000028) { bits := 0x500 })].all id = true := by decide

/-- cpy [s4], [x6], 0x1000, tag3; cpyg [s4], [x6], s8, tag4; cpyt.16 [s4], [x6], s8, tag2; cpyr.wr s12, [x6], 0x2000, tag6; cred.add.f32.ord.str2 [x8], [s4], s9, tag7; cpyz.enc.f32 [x8], [s4], s12, tag8; ratom.add.i64 [s4], s12, x5, tag10. -/
theorem test_words_copies :
    [reads 0xD0078243 0x380001C0 0x00001000 (.cpy (op 0 7 0 (.s 4) (.s 12) (.sp .z) 0x1000) { bits := 0x70 }),
      reads 0xD0278243 0x21000240 0x00000000 (.cpyg (op 2 7 0 (.s 4) (.s 12) (.s 8) 0x0) { bits := 0x90 }),
      reads 0xD0378243 0x21000150 0x00000000 (.cpyt (op 3 7 0 (.s 4) (.s 12) (.s 8) 0x0) { bits := 0x54 }),
      reads 0xD2178643 0x38000300 0x00002000 (.cpyr (op 1 7 0 (.s 12) (.s 12) (.sp .z) 0x2000) { bits := 0xC0 }),
      reads 0xD4078841 0x21200390 0x00000024 (.cred (op 0 7 0 (.s 16) (.s 4) (.s 9) 0x24) { bits := 0xE4 }),
      reads 0xD6078841 0x21800420 0x00000000 (.cpyz (op 0 7 0 (.s 16) (.s 4) (.s 12) 0x0) { bits := 0x108 }),
      reads 0xD8078641 0x21400548 0x00000000 (.ratom (op 0 7 0 (.s 12) (.s 4) (.s 10) 0x0) { bits := 0x152 })].all id = true := by decide

/-- sfill sq2, [x6 + 0x800]; spop s20, p1, sq2; sfree sq2; sfree.init sq2, s4, s5, 8; tagw.all x10; tagff s4, x10; tagst x11, tag7. -/
theorem test_words_streams :
    [reads 0xDA070043 0x00000800 0x00000800 (.sfill (op 0 7 0 (.v 0) (.s 12) (.v 0) 0x800) { bits := 0x200 }),
      reads 0xDC078A00 0x00000800 0x000001A1 (.spop (op 0 7 0 (.s 20) (.v 0) (.v 0) 0x1A1) { bits := 0x200 }),
      reads 0xDC170000 0x00000800 0x00000000 (.sfree (op 1 7 0 (.v 0) (.v 0) (.v 0) 0x0) { bits := 0x200 }),
      reads 0xDC170041 0x20A00A00 0x00000008 (.sfreeInit (op 1 7 0 (.v 0) (.s 4) (.s 5) 0x8) { bits := 0x280 }),
      reads 0xDE170045 0x00000000 0x00000000 (.tagw (op 1 7 0 (.v 0) (.s 20) (.v 0) 0x0) { bits := 0x0 }),
      reads 0xDE278245 0x00000000 0x00000000 (.tagff (op 2 7 0 (.s 4) (.s 20) (.v 0) 0x0) { bits := 0x0 }),
      reads 0xDE378B70 0x00000000 0x00000007 (.tagst (op 3 7 0 (.s 22) (.sp .z) (.v 0) 0x7) { bits := 0x0 })].all id = true := by decide

/-- bini bo1, 3, m4; barv bo1; barw.arr x12, bo1; sigdec.rel.dev [x4], 1; uiraise.trap x4, 5, x6; uiwait; uitake s16; uimask.off. -/
theorem test_words_sync :
    [reads 0xE0070070 0x30800200 0x00000003 (.bini (op 0 7 0 (.v 0) (.sp .z) (.m 4) 0x3) { bits := 0x80 }),
      reads 0xE2070000 0x00000200 0x00000000 (.barv (op 0 7 0 (.v 0) (.v 0) (.v 0) 0x0) { bits := 0x80 }),
      reads 0xE4078C00 0x00000300 0x00000000 (.barw (op 0 7 0 (.s 24) (.v 0) (.v 0) 0x0) { bits := 0xC0 }),
      reads 0xE6070042 0x38000030 0x00000001 (.sigdec (op 0 7 0 (.v 0) (.s 8) (.sp .z) 0x1) { bits := 0xC }),
      reads 0xE8178642 0x38000000 0x00000005 (.uiraise (op 1 7 0 (.s 12) (.s 8) (.sp .z) 0x5) { bits := 0x0 }),
      reads 0xEA070000 0x00000000 0x00000000 (.uiwait (op 0 7 0 (.v 0) (.v 0) (.v 0) 0x0) { bits := 0x0 }),
      reads 0xEA178800 0x00000000 0x00000000 (.uitake (op 1 7 0 (.s 16) (.v 0) (.v 0) 0x0) { bits := 0x0 }),
      reads 0xEC170000 0x00000000 0x00000000 (.uimask (op 1 7 0 (.v 0) (.v 0) (.v 0) 0x0) { bits := 0x0 })].all id = true := by decide

/-- uiret. -/
theorem test_words_sync_2 :
    [reads 0xEE070000 0x00000000 0x00000000 (.uiret (op 0 7 0 (.v 0) (.v 0) (.v 0) 0x0) { bits := 0x0 })].all id = true := by decide

/-- scall x10, 3; trap 0x21; sprd x8, GSTAT; spwr UIMASK, x9; brk 1; sret.grp 12; cancel.graph; hvy.on 4. -/
theorem test_words_system :
    [reads 0xF0070045 0x00000000 0x00000003 (.scall (op 0 7 0 (.v 0) (.s 20) (.v 0) 0x3) { bits := 0x0 }),
      reads 0xF2070000 0x00000000 0x00000021 (.trapSw (op 0 7 0 (.v 0) (.v 0) (.v 0) 0x21) { bits := 0x0 }),
      reads 0xF4078800 0x00000000 0x00000000 (.sprd (op 0 7 0 (.s 16) (.v 0) (.v 0) 0x0) { bits := 0x0 }),
      reads 0xF6070044 0x80000000 0x00000003 (.spwr (op 0 7 0 (.v 0) (.s 18) (.v 0) 0x3) { bits := 0x0 }),
      reads 0xF8070000 0x00000000 0x00000001 (.brk (op 0 7 0 (.v 0) (.v 0) (.v 0) 0x1) { bits := 0x0 }),
      reads 0xFA170000 0x00000000 0x0000000C (.sret (op 1 7 0 (.v 0) (.v 0) (.v 0) 0xC) { bits := 0x0 }),
      reads 0xFC170000 0x00000000 0x00000000 (.cancel (op 1 7 0 (.v 0) (.v 0) (.v 0) 0x0) { bits := 0x0 }),
      reads 0xFE070000 0x00000000 0x00000004 (.hvy (op 0 7 0 (.v 0) (.v 0) (.v 0) 0x4) { bits := 0x0 })].all id = true := by decide

/-! ## Ill-formed terms, which the checks refuse (R63 to R75, R78) -/

/-- Fields out of the range that their place in a word has, and an FN without a meaning. -/
theorem test_wf_ranges :
    [Instr.iadd (op 0 16 0 (.v 1) (.v 2) (.v 3) 0) { ty := .i32, rm := .rn, rs := false, opnd := 0, sub := 0 },
      .iadd (op 0 7 256 (.v 1) (.v 2) (.v 3) 0) { ty := .i32, rm := .rn, rs := false, opnd := 0, sub := 0 },
      .iadd (op 0 7 0 (.v 256) (.v 2) (.v 3) 0) { ty := .i32, rm := .rn, rs := false, opnd := 0, sub := 0 },
      .iadd (op 0 7 0 (.v 1) (.s 128) (.v 3) 0) { ty := .i32, rm := .rn, rs := false, opnd := 0, sub := 0 },
      .iadd (op 0 7 0 (.v 1) (.v 2) (.m 32) 0) { ty := .i32, rm := .rn, rs := false, opnd := 0, sub := 0 },
      .icmp (op 0 7 0 (.p 8) (.v 2) (.v 3) 0) { ty := .i32, rm := .rn, rs := false, opnd := 0, sub := 0 },
      .iadd (op 0 7 0 (.v 1) (.res 0x180) (.v 3) 0) { ty := .i32, rm := .rn, rs := false, opnd := 0, sub := 0 },
      .iadd (op 0 7 0 (.v 1) (.v 2) (.v 0) (2 ^ 32)) { ty := .i32, rm := .rn, rs := false, opnd := 1, sub := 0 },
      .iadd (op 0 7 0 (.v 1) (.v 2) (.v 3) 0) { ty := .i32, rm := .rn, rs := false, opnd := 4, sub := 0 },
      .iadd (op 0 7 0 (.v 1) (.v 2) (.v 3) 0) { ty := .i32, rm := .rn, rs := false, opnd := 0, sub := 4 },
      .iadd (op 1 7 0 (.v 1) (.v 2) (.v 3) 0) { ty := .i32, rm := .rn, rs := false, opnd := 0, sub := 0 },
      .ld (op 0 7 0 (.v 1) (.s 4) (.v 3) 0) { ty := .i32, ord := 4, scope := 0, space := 0 },
      .ld (op 0 7 0 (.v 1) (.s 4) (.v 3) 0) { ty := .i32, ord := 0, scope := 8, space := 0 },
      .ld (op 0 7 0 (.v 1) (.s 4) (.v 3) 0) { ty := .i32, ord := 0, scope := 0, space := 4 },
      .gld (op 0 7 0 (.v 1) (.s 4) (.v 3) 0) { ty := .i32, iw := 4, isgn := false, sc := 0, space := 0 },
      .gld (op 0 7 0 (.v 1) (.s 4) (.v 3) 0) { ty := .i32, iw := 0, isgn := false, sc := 8, space := 0 },
      .gld (op 0 7 0 (.v 1) (.s 4) (.v 3) 0) { ty := .i32, iw := 0, isgn := false, sc := 0, space := 2 },
      .bra (op 0 7 0 (.v 0) (.v 0) (.v 0) 0) { prio := 256, zero := 0 },
      .bra (op 0 7 0 (.v 0) (.v 0) (.v 0) 0) { prio := 0, zero := 8 },
      .uimask (op 0 7 0 (.v 0) (.v 0) (.v 0) 0) { bits := 2048 }].all (fun i => !i.inRange) = true := by decide

/-- A fault of each reason, by its field and its reason. -/
theorem test_wf_faults :
    [((Instr.nop (op 0 15 0 (.v 0) (.v 0) (.v 0) 0) { ty := .b32, rm := .rn, rs := false, opnd := 0, sub := 0 }), (2, 8)),
      (.iadd (op 0 7 1 (.v 1) (.v 2) (.v 3) 0) { ty := .i32, rm := .rn, rs := false, opnd := 0, sub := 0 }, (6, 3)),
      (.iadd (op 0 7 0 (.v 1) (.v 2) (.v 3) 5) { ty := .i32, rm := .rn, rs := false, opnd := 0, sub := 0 }, (9, 3)),
      (.iadd (op 0 7 0 (.v 1) (.v 2) (.v 3) 0) { ty := .f32, rm := .rn, rs := false, opnd := 0, sub := 0 }, (7, 4)),
      (.iadd (op 0 7 0 (.v 1) (.v 2) (.v 3) 0) { ty := .i32, rm := .rz, rs := false, opnd := 0, sub := 0 }, (7, 4)),
      (.fadd (op 0 7 0 (.v 1) (.v 2) (.v 3) 0) { ty := .f32, rm := .rz, rs := true, opnd := 0, sub := 0 }, (7, 4)),
      (.iadd (op 0 7 0 (.v 1) (.v 2) (.v 3) 0) { ty := .i32, rm := .rn, rs := false, opnd := 0, sub := 1 }, (7, 3)),
      (.iadd (op 0 7 0 (.p 1) (.v 2) (.v 3) 0) { ty := .i32, rm := .rn, rs := false, opnd := 0, sub := 0 }, (3, 5)),
      (.iadd (op 0 7 0 (.v 1) (.p 7) (.v 3) 0) { ty := .i32, rm := .rn, rs := false, opnd := 0, sub := 0 }, (4, 5)),
      (.iadd (op 0 7 0 (.s 1) (.v 2) (.s 3) 0) { ty := .i32, rm := .rn, rs := false, opnd := 0, sub := 0 }, (4, 5)),
      (.iadd (op 0 7 0 (.v 1) (.v 2) (.res 0x1A8) 0) { ty := .i32, rm := .rn, rs := false, opnd := 0, sub := 0 }, (5, 5)),
      (.isub (op 0 7 0 (.v 4) (.v 5) (.v 8) 0) { ty := .i64, rm := .rn, rs := false, opnd := 0, sub := 0 }, (4, 6)),
      (.iadd (op 0 7 0 (.v 64) (.v 2) (.v 3) 0) { ty := .i32, rm := .rn, rs := false, opnd := 0, sub := 0 }, (3, 7)),
      (.popc (op 0 7 0 (.v 1) (.v 2) (.v 3) 0) { ty := .b32, rm := .rn, rs := false, opnd := 0, sub := 0 }, (5, 3))].all
      (fun x => (x.1.faults 64 false).contains x.2 && !x.1.wf 64 false) = true := by decide

/-- What the decoder refuses by name: a reserved opcode, an FN that none has, bits 33:32, a guard of 15. -/
theorem test_decode_refuses :
    (decode 256 false (0x17 * 2 ^ 89 + 7 * 2 ^ 80) = .error (0, 1) ∧ decode 256 false (31 * 2 ^ 84 + 7 * 2 ^ 80) = .error (1, 2)
      ∧ decode 256 false (0x6E070000 * 2 ^ 64 + 2 ^ 32) = .error (8, 3) ∧ decode 256 false (0x6E0F0000 * 2 ^ 64) = .error (2, 8)) := by decide

/-! ## Small states

One unit of one group with lanes 0 and 1, on the machine that `State.withFetchWord` sets up; its page tables map the first two
mebibytes of virtual memory to the same addresses of HBM. -/

/-- The group: entry at the program, lanes 0 and 1. -/
def smallGroup : Group := { bootGroup with ents := [.new (BitVec.ofNat 64 bootPc) 128 3] }

def smallUnit (g : Group) : Machine.Unit := { bootUnit with grps := [g] }

/-- The machine with that unit, before a step. -/
def placed (u : Machine.Unit) : State := { State.reset.withFetchWord 96 (0x6E070000 * 2 ^ 64) with units := [u] }

/-- The same while the group's entry issues. -/
def issuing (u : Machine.Unit) : State := { placed u with cur := some { u := u.key, gid := 0, ent := 0, word := 0 } }

def withGroup (g : Group) : State := issuing (smallUnit g)

/-- What a word sees. -/
def seen (s : State) (grd : Nat := 7) : Cx :=
  (view? s grd).getD { s := s, iss := { u := bootUnit.key, gid := 0, ent := 0, word := 0 }, u := bootUnit, g := bootGroup, e := .new 0 0 0, ex := 0 }

theorem view_seen {s : State} {grd : Nat} (h : (view? s grd).isSome = true) : view? s grd = some (seen s grd) := by
  unfold seen
  cases hv : view? s grd <;> simp_all

/-- A word issues where a view exists and some lane executes. -/
theorem issues_seen {s : State} {o : Op} (h : o.ok = true ∧ (view? s o.grd).isSome = true ∧ (seen s o.grd).ex ≠ 0) :
    Issues s o (seen s o.grd) :=
  ⟨h.1, view_seen h.2.1, h.2.2⟩

/-- A word of family A on v1, v2, v3 and v4. -/
def opA (fn : Nat := 0) (d : Opd := .v 1) (a : Opd := .v 2) (b : Opd := .v 3) (imm : Nat := 4) : Op := op fn 7 0 d a b imm

def modA (ty : Ty) (opnd : Nat := 0) : ModA := { ty := ty, rm := .rn, rs := false, opnd := opnd, sub := 0 }

/-- Registers v2 to v5 of the group, with one tag. -/
def withV (t : Tag) (x y : Nat) : Group :=
  { smallGroup with
    v := [(64, BitVec.ofNat 32 x), (65, BitVec.ofNat 32 x), (96, BitVec.ofNat 32 y), (97, BitVec.ofNat 32 y)]
    vt := if t = .raw then [] else [(2, t), (3, t), (4, t), (5, t)] }

/-- A word of families B and X. -/
def opX (fn : Nat := 0) (d : Opd := .v 0) (a : Opd := .v 0) (b : Opd := .v 0) (imm : Nat := 0) (grd : Nat := 7) : Op := op fn grd 0 d a b imm

/-! ## Witnesses of the hypotheses, family A -/

/-- What an instruction answers, where it answers a next state. -/
def nextOf : Host.Outcome State Fault Refusal → Option State
  | .next t => some t
  | _ => none

theorem next_of_nextOf {r : Host.Outcome State Fault Refusal} {t : State} (h : nextOf r = some t) : r = .next t := by
  cases r <;> simp_all [nextOf]

/-- The hypotheses that the statements of family A share. -/
abbrev Ready (s : State) (o : Op) (a : ModA) (n : Nat) (ok : List Tag) : Prop :=
  let c := seen s o.grd
  (o.ok = true ∧ (view? s o.grd).isSome = true ∧ c.ex ≠ 0) ∧ (∀ k < n, c.regTag o.a k = c.regTag o.a 0) ∧ (c.regTag o.a 0 = .raw ∨ c.regTag o.a 0 ∈ ok)
  ∧ (a.opnd = 1 ∨ (∀ k < n, c.regTag o.b k = c.regTag o.b 0) ∧ (c.regTag o.b 0 = .raw ∨ c.regTag o.b 0 ∈ ok))

theorem Ready.issues {s o a n ok} (h : Ready s o a n ok) : Issues s o (seen s o.grd) := issues_seen h.1
theorem Ready.bears {s o a n ok} (h : Ready s o a n ok) : Bears (seen s o.grd) o.a n ok := ⟨h.2.1, h.2.2.1⟩
theorem Ready.bearsB {s o a n ok} (h : Ready s o a n ok) : BearsB (seen s o.grd) o a n ok := h.2.2.2

theorem ready_i32 : Ready (withGroup (withV .i32 0xFFFFFFFF 1)) opA (modA .i32) 1 [.i32] := by decide +kernel
theorem ready_f32 : Ready (withGroup (withV .f32 0x3F800000 0x7F800000)) opA (modA .f32) 1 [.f32] := by decide +kernel
theorem ready_h2 : Ready (withGroup (withV .h2 0x3C003C00 0x7BFF7BFF)) opA (modA .f16) 1 [.h2] := by decide +kernel
theorem ready_raw : Ready (withGroup (withV .raw 0x80000001 33)) opA (modA .b32) 1 [.raw] := by decide +kernel

theorem witness_IntegerSums : ∃ (s : State) (o : Op) (a : ModA) (c : Cx), Issues s o c ∧ a.ty.isInt = true ∧ Bears c o.a a.ty.regs [a.ty.intTag]
    ∧ BearsB c o a a.ty.regs [a.ty.intTag] :=
  ⟨_, opA, modA .i32, _, ready_i32.issues, rfl, ready_i32.bears, ready_i32.bearsB⟩

/-- Two pointers of the low half in v2 and v3, one byte below the end of their window in lane 1, and 1 in v4 and v5. -/
def pointers : State := withGroup { smallGroup with
  v := [(64, 5), (65, 0xFFFFFFFF), (97, 0xFF), (128, 1), (129, 1)], vt := [(2, .ptr), (3, .ptr), (4, .i64), (5, .i64)] }

theorem ready_ptr : Ready pointers (opA 0 (.v 6) (.v 2) (.v 4)) (modA .i64) 2 [.ptr, .i64] := by decide +kernel

/-- A pointer of the low half in v2 and v3, at the start of its window in lane 1, and one of another window in lane 1 in v4 and v5. -/
def windows : State := withGroup { smallGroup with
  v := [(64, 5), (128, 1), (129, 1), (161, 0x100), (193, 1)], vt := [(2, .ptr), (3, .ptr), (4, .ptr), (5, .ptr), (6, .i64), (7, .i64)] }

/-- Every form of PointerSums: lane 0 alone stays, and lane 1 leaves, of a sum with the pointer on either side and of a difference; a
difference within a window and one across two, a sum of two pointers, an integer less a pointer. -/
theorem witness_PointerSums :
    let at' (s : State) (o : Op) (c : Cx) (x y : Tag) := Issues s o c ∧ Bears c o.a 2 [x] ∧ c.regTag o.a 0 = x ∧ Bears c o.b 2 [y] ∧ c.regTag o.b 0 = y
    let stays (c : Cx) (p : Opd) (r : Nat → Nat) (ls : List Nat) := ∀ k ∈ ls, r k / 2 ^ 40 = c.val p 2 k / 2 ^ 40
    let leaves (c : Cx) (o : Op) (p : Opd) (r : Nat → Nat) := ∃ l ∈ inLanes c o.d, r l / 2 ^ 40 ≠ c.val p 2 l / 2 ^ 40
      ∧ stays c p r ((inLanes c o.d).filter fun k => decide (k < l))
    let a := modA .i64
    let plus (c : Cx) (o : Op) (l : Nat) := (c.val o.a 2 l + c.bval o a 2 l) % 2 ^ 64
    let minus (c : Cx) (o : Op) (l : Nat) := (((c.val o.a 2 l : Int) - c.bval o a 2 l) % 2 ^ 64).toNat
    (∃ s o c, at' s o c .ptr .i64 ∧ leaves c o o.a (plus c o)) ∧ (∃ s o c, at' s o c .ptr .i64 ∧ stays c o.a (plus c o) (inLanes c o.d))
    ∧ (∃ s o c, at' s o c .ptr .i64 ∧ leaves c o o.a (minus c o)) ∧ (∃ s o c, at' s o c .ptr .i64 ∧ stays c o.a (minus c o) (inLanes c o.d))
    ∧ (∃ s o c, at' s o c .i64 .ptr ∧ leaves c o o.b (plus c o)) ∧ (∃ s o c, at' s o c .i64 .ptr ∧ stays c o.b (plus c o) (inLanes c o.d))
    ∧ (∃ s o c, at' s o c .ptr .ptr ∧ ∀ l ∈ inLanes c o.d, c.val o.a 2 l / 2 ^ 40 = c.val o.b 2 l / 2 ^ 40)
    ∧ ∃ s o c, at' s o c .ptr .ptr ∧ ∃ l ∈ inLanes c o.d, c.val o.a 2 l / 2 ^ 40 ≠ c.bval o a 2 l / 2 ^ 40
      ∧ ∀ k ∈ inLanes c o.d, k < l → c.val o.a 2 k / 2 ^ 40 = c.bval o a 2 k / 2 ^ 40 := by
  intro at' stays leaves a plus minus
  have h {s : State} {o : Op} {x y : Tag} (ok : o.ok = true ∧ (view? s o.grd).isSome = true ∧ (seen s o.grd).ex ≠ 0)
      (t : (∀ k < 2, (seen s o.grd).regTag o.a k = x) ∧ ∀ k < 2, (seen s o.grd).regTag o.b k = y) : at' s o (seen s o.grd) x y :=
    ⟨issues_seen ok, ⟨fun k hk => by rw [t.1 k hk, t.1 0 (by decide)], by simp [t.1 0 (by decide)]⟩, t.1 0 (by decide),
      ⟨fun k hk => by rw [t.2 k hk, t.2 0 (by decide)], by simp [t.2 0 (by decide)]⟩, t.2 0 (by decide)⟩
  exact ⟨⟨pointers, opA 0 (.v 6) (.v 2) (.v 4), _, h (by decide +kernel) (by decide +kernel), 1, by decide +kernel⟩,
    ⟨pointers, opA 0 (.s 6) (.v 2) (.v 4), _, h (by decide +kernel) (by decide +kernel), by decide +kernel⟩,
    ⟨windows, opA 0 (.v 8) (.v 2) (.v 6), _, h (by decide +kernel) (by decide +kernel), 1, by decide +kernel⟩,
    ⟨pointers, opA 0 (.v 6) (.v 2) (.v 4), _, h (by decide +kernel) (by decide +kernel), by decide +kernel⟩,
    ⟨pointers, opA 0 (.v 6) (.v 4) (.v 2), _, h (by decide +kernel) (by decide +kernel), 1, by decide +kernel⟩,
    ⟨pointers, opA 0 (.s 6) (.v 4) (.v 2), _, h (by decide +kernel) (by decide +kernel), by decide +kernel⟩,
    ⟨windows, opA 0 (.v 8) (.v 2) (.v 2), _, h (by decide +kernel) (by decide +kernel), by decide +kernel⟩,
    ⟨windows, opA 0 (.v 8) (.v 2) (.v 4), _, h (by decide +kernel) (by decide +kernel), 1, by decide +kernel⟩⟩

/-- Both halves. -/
theorem witness_IntegerProducts : ∃ (s : State) (o : Op) (a : ModA) (c : Cx), Issues s o c ∧ a.ty.isInt = true ∧ o.fn = 1 ∧ Bears c o.a a.ty.regs [a.ty.intTag]
    ∧ BearsB c o a a.ty.regs [a.ty.intTag] ∧ Bears c o.b a.ty.regs [a.ty.intTag] ∧ Bears c o.c a.ty.regs [a.ty.intTag] :=
  ⟨withGroup (withV .i32 0xFFFFFFFF 1), opA 1, modA .i32, seen (withGroup (withV .i32 0xFFFFFFFF 1)), issues_seen (by decide +kernel), by unfold BearsB Bears; decide +kernel⟩

/-- A division whose dividend is the least number and whose divisor is 0 in one lane and −1 in the other. -/
def divisions : State := withGroup { smallGroup with v := [(64, 0x80000000), (65, 0x80000000), (97, 0xFFFFFFFF)], vt := [(2, .i32), (3, .i32)] }

theorem witness_IntegerDivision : ∃ (s : State) (o : Op) (a : ModA) (c : Cx), Issues s o c ∧ a.ty.isInt = true ∧ Bears c o.a a.ty.regs [a.ty.intTag]
    ∧ BearsB c o a a.ty.regs [a.ty.intTag] ∧ a.ty.int (c.bval o a a.ty.regs 0) = 0
    ∧ a.ty.int (c.val o.a a.ty.regs 1) = -2 ^ 31 ∧ a.ty.int (c.bval o a a.ty.regs 1) = -1 :=
  ⟨divisions, opA, modA .i32, seen divisions, issues_seen (by decide +kernel), by unfold BearsB Bears; decide +kernel⟩

theorem witness_IntegerOrder : ∃ (s : State) (o : Op) (a : ModA) (c : Cx), Issues s o c ∧ a.ty.isInt = true ∧ Bears c o.a a.ty.regs [a.ty.intTag]
    ∧ BearsB c o a a.ty.regs [a.ty.intTag] ∧ a.ty.isSigned = true :=
  ⟨_, opA, modA .i32, _, ready_i32.issues, rfl, ready_i32.bears, ready_i32.bearsB, rfl⟩

theorem witness_BitOperations : ∃ (s : State) (o : Op) (a : ModA) (c : Cx), Issues s o c ∧ a.ty.isBits = true ∧ Bears c o.a a.ty.regs [c.regTag o.a 0]
    ∧ BearsB c o a a.ty.regs [c.regTag o.b 0] :=
  ⟨_, opA, modA .b32, _, ready_i32.issues, rfl, by unfold Bears; decide +kernel, by unfold BearsB Bears; decide +kernel⟩

/-- A count of the whole width and more, both rotations, and a field. -/
theorem witness_ShiftsAndFields : ∃ (s : State) (o : Op) (a : ModA) (c : Cx), Issues s o c ∧ (a.ty.isInt || a.ty.isBits) = true ∧ Bears c o.a a.ty.regs [c.regTag o.a 0]
    ∧ a.ty.isBits = true ∧ o.fn = 1 ∧ a.ty.width ≤ c.bval32 o a 0 ∧ Bears c o.c a.ty.regs [c.regTag o.c 0] :=
  ⟨withGroup (withV .raw 0x80000001 33), opA 1, modA .b32, seen (withGroup (withV .raw 0x80000001 33)), issues_seen (by decide +kernel), by unfold Bears; decide +kernel⟩

theorem witness_CompareSelectMove :
    (∃ (s : State) (o : Op) (a : ModA) (c : Cx), Issues s o c ∧ a.ty.isInt = true ∧ Bears c o.a a.ty.regs [a.ty.intTag] ∧ BearsB c o a a.ty.regs [a.ty.intTag])
    ∧ (∃ (s : State) (o : Op) (a : ModA) (c : Cx), Issues s o c ∧ a.ty.isBits = true ∧ Bears c o.a a.ty.regs [c.regTag o.a 0] ∧ BearsB c o a a.ty.regs [c.regTag o.b 0]
      ∧ Bears c o.b a.ty.regs [c.regTag o.b 0] ∧ c.regTag o.a 0 = c.regTag o.b 0)
    ∧ (∃ (s : State) (o : Op) (a : ModA) (c : Cx), Issues s o c ∧ a.ty.isInt = true ∧ a.ty.width = 64 ∧ Bears c o.a a.ty.regs [a.ty.intTag, .ptr]
      ∧ BearsB c o a a.ty.regs [a.ty.intTag, .ptr] ∧ c.regTag o.a 0 = .ptr ∧ c.regTag o.b 0 = .i64)
    ∧ (∀ x ∈ [(Tag.ptr, Tag.raw), (.raw, .ptr), (.ptr, .i64)], ∃ (s : State) (o : Op) (a : ModA) (c : Cx), Issues s o c ∧ a.ty.isBits = true
      ∧ Bears c o.a a.ty.regs [c.regTag o.a 0] ∧ Bears c o.b a.ty.regs [c.regTag o.b 0] ∧ c.regTag o.a 0 = x.1 ∧ c.regTag o.b 0 = x.2)
    ∧ (∃ s o c t k, Issues s o c ∧ tagOf (modA .f32).ty.code = some t ∧ k = (if t = .i64 ∨ t = .f64 ∨ t = .ptr then 2 else if t = .name then 4 else 1)
      ∧ Bears c o.a k [c.regTag o.a 0])
    ∧ (∃ s o c, Issues s o c ∧ (modA .f64).sub = 0) ∧ (∃ s o c, Issues s o c ∧ Bears c o.a (modA .b64).ty.regs [c.regTag o.a 0])
    ∧ ∃ s o c, Issues s o c ∧ ¬ Bears c o.a (modA .b64).ty.regs [c.regTag o.a 0] :=
  ⟨⟨_, opA, modA .i32, _, ready_i32.issues, rfl, ready_i32.bears, ready_i32.bearsB⟩,
    ⟨_, opA, modA .b32, _, ready_i32.issues, rfl, by unfold Bears; decide +kernel, by unfold BearsB Bears; decide +kernel,
      by unfold Bears; decide +kernel, by decide +kernel⟩,
    ⟨_, opA 0 (.v 6) (.v 2) (.v 4), modA .i64, _, ready_ptr.issues, by unfold BearsB Bears; decide +kernel⟩, by
      intro x hx
      simp only [List.mem_cons, List.not_mem_nil, or_false] at hx
      rcases hx with rfl | rfl | rfl
      · exact ⟨pointers, opA 0 (.v 8) (.v 2) (.v 6), modA .b64, _, issues_seen (by decide +kernel), by unfold Bears; decide +kernel⟩
      · exact ⟨pointers, opA 0 (.v 8) (.v 6) (.v 2), modA .b64, _, issues_seen (by decide +kernel), by unfold Bears; decide +kernel⟩
      · exact ⟨pointers, opA 0 (.v 8) (.v 2) (.v 4), modA .b64, _, issues_seen (by decide +kernel), by unfold Bears; decide +kernel⟩,
    ⟨_, opA, _, .h2, 1, ready_i32.issues, by decide, by decide, by unfold Bears; decide +kernel⟩, ⟨_, _, _, ready_i32.issues, rfl⟩,
    ⟨_, opA, _, ready_i32.issues, by unfold Bears; decide +kernel⟩,
    ⟨withGroup { withV .raw 1 2 with vt := [(2, .f32), (3, .i32)] }, opA, seen (withGroup { withV .raw 1 2 with vt := [(2, .f32), (3, .i32)] }),
      issues_seen (by decide +kernel), by unfold Bears; decide +kernel⟩⟩

/-- Operands of FP32, and of a packed format. -/
theorem witness_FloatArithmetic : ∀ p : Bool, ∃ (s : State) (o : Op) (a : ModA) (c : Cx), Issues s o c ∧ Bears c o.a a.ty.regs [a.ty.tag] ∧ BearsB c o a a.ty.regs [a.ty.tag]
    ∧ a.ty.packed = p ∧ Bears c o.b a.ty.regs [a.ty.tag] ∧ Bears c o.c a.ty.regs [a.ty.tag] := by
  intro p
  cases p
  · exact ⟨_, opA, modA .f32, _, ready_f32.issues, ready_f32.bears, ready_f32.bearsB, rfl, by unfold Bears; decide +kernel, by
      unfold Bears; decide +kernel⟩
  · exact ⟨_, opA, modA .f16, _, ready_h2.issues, ready_h2.bears, ready_h2.bearsB, rfl, by unfold Bears; decide +kernel, by
      unfold Bears; decide +kernel⟩

theorem witness_FloatOrder : ∃ (s : State) (o : Op) (a : ModA) (c : Cx), Issues s o c ∧ Bears c o.a a.ty.regs [a.ty.tag] ∧ BearsB c o a a.ty.regs [a.ty.tag]
    ∧ a.ty.packed = false :=
  ⟨_, opA, modA .f32, _, ready_f32.issues, ready_f32.bears, ready_f32.bearsB, rfl⟩

theorem witness_FloatFunctions : ∃ s o c, Issues s o c ∧ Bears c o.a 1 [.f32] := ⟨_, opA, _, ready_f32.issues, ready_f32.bears⟩

/-- An exponent of FP32; a scale; a dot product of a packed format with its third source. -/
theorem witness_FloatScaleAndSum :
    (∃ (s : State) (o : Op) (a : ModA) (c : Cx), Issues s o c ∧ Bears c o.a a.ty.regs [a.ty.tag] ∧ a.ty.packed = false)
    ∧ (∃ (s : State) (o : Op) (a : ModA) (c : Cx), Issues s o c ∧ Bears c o.a a.ty.regs [a.ty.tag] ∧ BearsB c o a 1 [.i32])
    ∧ ∃ (s : State) (o : Op) (a : ModA) (c : Cx), Issues s o c ∧ Bears c o.a a.ty.regs [a.ty.tag] ∧ a.ty.packed = true ∧ Bears c o.b 1 [a.ty.tag] ∧ a.opnd = 2
      ∧ Bears c o.c 1 [.f32] :=
  ⟨⟨_, opA, modA .f32, _, ready_f32.issues, ready_f32.bears, rfl⟩,
    ⟨_, opA, modA .f32 1, _, ready_f32.issues, ready_f32.bears, .inl rfl⟩,
    ⟨_, opA 0 (.v 1) (.v 2) (.v 3) 9, modA .f16 2, _, ready_h2.issues, ready_h2.bears, rfl, by unfold Bears; decide +kernel, rfl, by
      unfold Bears; decide +kernel⟩⟩

/-- Conversions between unpacked types, from and to a packed one, and the registers of a block. -/
theorem witness_Conversions :
    (∃ (s : State) (o : Op) (a : ModA) (c : Cx), Issues s o c ∧ Bears c o.a (tyOf (o.fn % 16)).regs [(tyOf (o.fn % 16)).tag] ∧ a.ty.packed = false
      ∧ (tyOf (o.fn % 16)).packed = false)
    ∧ (∃ (s : State) (o : Op) (a : ModA) (c : Cx), Issues s o c ∧ Bears c o.a (tyOf (o.fn % 16)).regs [(tyOf (o.fn % 16)).tag] ∧ a.ty.packed = false
      ∧ (tyOf (o.fn % 16)).packed = true)
    ∧ (∃ (s : State) (o : Op) (a : ModA) (c : Cx), Issues s o c ∧ Bears c o.a (tyOf (o.fn % 16)).regs [(tyOf (o.fn % 16)).tag] ∧ a.ty.packed = true
      ∧ (tyOf (o.fn % 16)).packed = false ∧ Bears c o.b (tyOf (o.fn % 16)).regs [(tyOf (o.fn % 16)).tag])
    ∧ (∃ (s : State) (o : Op) (a : ModA) (c : Cx), Issues s o c ∧ Bears c o.a (tyOf (o.fn % 16)).regs [(tyOf (o.fn % 16)).tag] ∧ a.ty.packed = true
      ∧ (tyOf (o.fn % 16)).packed = true)
    ∧ (∃ s o c, Issues s o c ∧ o.d = .v 1 ∧ 1 ∈ lanesOf c.ex
      ∧ (∀ i < 16, c.regTag (o.a.plus i) 0 = .raw ∨ c.regTag (o.a.plus i) 0 = .f32))
    ∧ (∃ s o c, Issues s o c ∧ o.d = .s 16
      ∧ (∀ i < 16, c.regTag (o.a.plus i) 0 = .raw ∨ c.regTag (o.a.plus i) 0 = .f32))
    ∧ ∃ (s : State) (o : Op) (a : ModA) (c : Cx), Issues s o c ∧ o.d = .v 1 ∧ 1 ∈ lanesOf c.ex
      ∧ ∀ i < (dxShape a.ty).2.1, c.regTag (o.a.plus i) 0 = .raw ∨ c.regTag (o.a.plus i) 0 = (dxShape a.ty).2.2 :=
  ⟨⟨withGroup (withV .f32 0x3F800000 0), opA 3, modA .i32, seen (withGroup (withV .f32 0x3F800000 0)), issues_seen (by decide +kernel), by unfold Bears; decide +kernel⟩,
    ⟨withGroup (withV .h2 0x3C003C00 0), opA 4, modA .f32, seen (withGroup (withV .h2 0x3C003C00 0)), issues_seen (by decide +kernel), by unfold Bears; decide +kernel⟩,
    ⟨withGroup (withV .f32 0x3F800000 0), opA 3, modA .f16, seen (withGroup (withV .f32 0x3F800000 0)), issues_seen (by decide +kernel), by unfold Bears; decide +kernel⟩,
    ⟨withGroup (withV .h2 0x3C003C00 0), opA 4, modA .bf16, seen (withGroup (withV .h2 0x3C003C00 0)), issues_seen (by decide +kernel), by unfold Bears; decide +kernel⟩,
    ⟨withGroup (withV .f32 0x3F800000 0), opA, seen (withGroup (withV .f32 0x3F800000 0)), issues_seen (by decide +kernel), by decide +kernel⟩,
    ⟨withGroup (withV .f32 0x3F800000 0), opA 0 (.s 16), seen (withGroup (withV .f32 0x3F800000 0)), issues_seen (by decide +kernel), by decide +kernel⟩,
    ⟨withGroup (withV .dx8 0x3F800000 0), opA, modA .dx8, seen (withGroup (withV .dx8 0x3F800000 0)), issues_seen (by decide +kernel), by decide +kernel⟩⟩

theorem witness_LanesAndPredicates :
    (∃ (s : State) (o : Op) (a : ModA) (c : Cx), Issues s o c ∧ o.fn = 3 ∧ Bears c o.a a.ty.regs [c.regTag o.a 0])
    ∧ (∃ s o c, Issues s o c ∧ o.a = .p 7 ∧ o.fn = 2) ∧ (∃ s o c, Issues s o c ∧ o.a = .p 0 ∧ o.fn = 5)
    ∧ ∃ (s : State) (o : Op) (a : ModA) (c : Cx), Issues s o c ∧ o.fn = 5 ∧ a.ty.isBits = true ∧ Bears c o.a a.ty.regs [c.regTag o.a 0] :=
  ⟨⟨withGroup (withV .i32 7 9), opA 3, modA .b32, seen (withGroup (withV .i32 7 9)), issues_seen (by decide +kernel), by unfold Bears; decide +kernel⟩,
    ⟨withGroup smallGroup, opA 2 (.p 1) (.p 7), seen (withGroup smallGroup), issues_seen (by decide +kernel), by decide +kernel⟩,
    ⟨withGroup smallGroup, opA 5 (.p 1) (.p 0), seen (withGroup smallGroup), issues_seen (by decide +kernel), by decide +kernel⟩,
    ⟨withGroup (withV .raw 7 9), opA 5, modA .b32, seen (withGroup (withV .raw 7 9)), issues_seen (by decide +kernel), by unfold Bears; decide +kernel⟩⟩

/-- A sum that is written, and a pointer sum that traps. -/
theorem witness_FamilyAFrame : ∃ i o a s t c, famA i = some (o, a) ∧ Issues s o c ∧ exec i s = .next t :=
  ⟨.nop (op 0 7 0 (.v 0) (.v 0) (.v 0) 0) (modA .b32), op 0 7 0 (.v 0) (.v 0) (.v 0) 0, modA .b32, withGroup smallGroup,
    advance (seen (withGroup smallGroup)) (withGroup smallGroup), seen (withGroup smallGroup), rfl, issues_seen (by decide +kernel),
    next_of_nextOf (by decide +kernel)⟩

/-! ## Witnesses, control -/

/-- `n` further entries of one lane each, from lane 8 upward. -/
def crowd (n : Nat) : List Entry := (List.range n).map fun i => .new (BitVec.ofNat 64 (0x101000 + 12 * i)) (100 + i) (BitVec.ofNat 32 (2 ^ (8 + i)))

/-- The group with such entries, and lane 0 alone in p0. -/
def crowded (n : Nat) (inh : Bool := false) : Group :=
  { smallGroup with ents := smallGroup.ents ++ crowd n, p := [(0, 1)], inh := inh, v := [(64, 0x100030), (65, 0x100033 + 9)] }

/-- Eight entries after the transfer: the frontier is full and no fuller. -/
theorem witness_Branches :
    (∃ (s : State) (o : Op) (b : ModB) (c : Cx), Issues s o c ∧ (sentTo c (nearPc c o) b.prio).length = 8
      ∧ (sentTo c (c.e.pc + 12) b.prio).length ≤ 8)
    ∧ ∃ (s : State) (o : Op) (b : ModB) (x : ModX) (c : Cx), Issues s o c ∧ o.a.perLane = true ∧ FarOk c o ∧ (sentFar c o b.prio).length = 8
      ∧ x.f 36 36 = 1 ∧ (sentFar c o (retPrio c x)).length ≤ 8 :=
  ⟨⟨withGroup (crowded 6), opX 0 (.v 0) (.v 0) (.v 0) 5 0, { prio := 1, zero := 0 }, seen (withGroup (crowded 6)) 0,
      issues_seen (by decide +kernel), by decide +kernel⟩,
    ⟨withGroup (crowded 6), opX 0 (.v 0) (.v 2), { prio := 1, zero := 0 }, { bits := 0x14 }, seen (withGroup (crowded 6)),
      issues_seen (by decide +kernel), by decide +kernel, by unfold FarOk Bears; decide +kernel, by decide +kernel⟩⟩

/-- An exit of every lane; a cut that fills the store to its last byte, one that would pass it by a byte, and one in a handler; a rejoin. -/
theorem witness_LanesLeave :
    (∃ (s : State) (o : Op) (c : Cx), Issues s o c ∧ left c = [] ∧ Drained s c)
    ∧ (∃ (s : State) (o : Op) (c : Cx), Issues s o c ∧ c.g.inh = false
      ∧ offUsed c.u + (c.lanes.map fun l => offRec c.g (o.imm % 512) (c.e.pc + 12) c.e.prio l).length * recBytes (o.imm % 512) = c.u.offcut ∧ Drained s c)
    ∧ (∃ (s : State) (o : Op) (c : Cx), Issues s o c ∧ c.g.inh = false
      ∧ offUsed c.u + (c.lanes.map fun l => offRec c.g (o.imm % 512) (c.e.pc + 12) c.e.prio l).length * recBytes (o.imm % 512) = c.u.offcut + 1)
    ∧ (∃ (s : State) (o : Op) (c : Cx), Issues s o c ∧ c.g.inh = true)
    ∧ ∃ (s : State) (o : Op) (c : Cx), Issues s o c ∧ (stayed c o).length = 8 :=
  let cut (n : Nat) := issuing { smallUnit smallGroup with offcut := n }
  ⟨⟨withGroup smallGroup, opX, seen (withGroup smallGroup), issues_seen (by decide +kernel), by unfold Drained; decide +kernel⟩,
    ⟨cut (2 * recBytes 256), opX 0 (.v 0) (.v 0) (.v 0) 256, seen (cut (2 * recBytes 256)), issues_seen (by decide +kernel), by
      unfold Drained; decide +kernel⟩,
    ⟨cut (2 * recBytes 256 - 1), opX 0 (.v 0) (.v 0) (.v 0) 256, seen (cut (2 * recBytes 256 - 1)), issues_seen (by decide +kernel), by decide +kernel⟩,
    ⟨withGroup (crowded 0 true), opX, seen (withGroup (crowded 0 true)), issues_seen (by decide +kernel), by decide +kernel⟩,
    ⟨withGroup { crowded 6 with m := [(0, 1)] }, opX 0 (.v 0) (.m 0), seen (withGroup { crowded 6 with m := [(0, 1)] }),
      issues_seen (by decide +kernel), by decide +kernel⟩⟩

/-- Nine entries by each transfer: in a handler, with too small a store, with one that is too full by a byte, with one that has just room, without and
with a trsolve that writes a register of the cut, and while the second decoder's entry is still to issue. -/
theorem witness_FrontierGrowth :
    let need (c : Cx) (es : List Entry) := (((sortBy Entry.above es).drop 8).map fun e => (lanesOf e.mask).length).sum * recBytes c.g.liven
    let alone (es : List Entry) := ∀ e ∈ es, e.wait ≠ .second
    let nine (s : State) (o : Op) (b : ModB) (c : Cx) (es : List Entry) := Issues s o c ∧ es = sentTo c (nearPc c o) b.prio ∧ es.length = 9
    (∃ s o b c es, nine s o b c es ∧ alone es ∧ c.g.inh = true)
    ∧ (∃ s o b c es, nine s o b c es ∧ alone es ∧ c.g.inh = false ∧ c.u.offcut + 1 = need c es)
    ∧ (∃ s o b c es, nine s o b c es ∧ alone es ∧ c.g.inh = false ∧ need c es ≤ c.u.offcut ∧ c.u.offcut + 1 = offUsed c.u + need c es)
    ∧ (∃ s o b c es, nine s o b c es ∧ alone es ∧ c.g.inh = false ∧ offUsed c.u + need c es = c.u.offcut
      ∧ ∀ r ∈ c.u.vregsHeld c.g.gid, c.g.liven ≤ r)
    ∧ (∃ s o b c es, nine s o b c es ∧ alone es ∧ c.g.inh = false ∧ offUsed c.u + need c es = c.u.offcut ∧ ∃ r ∈ c.u.vregsHeld c.g.gid, r < c.g.liven)
    ∧ (∃ s o b c es, nine s o b c es ∧ ¬ alone es)
    ∧ (∃ (s : State) (o : Op) (b : ModB) (c : Cx), Issues s o c ∧ (sentTo c (c.e.pc + 12) b.prio).length = 9)
    ∧ (∃ (s : State) (o : Op) (c : Cx), Issues s o c ∧ (stayed c o).length = 9)
    ∧ ∃ (s : State) (o : Op) (b : ModB) (x : ModX) (c : Cx), Issues s o c ∧ FarOk c o ∧ (sentFar c o b.prio).length = 9
      ∧ (sentFar c o (retPrio c x)).length = 9 :=
  let o := opX 0 (.v 0) (.v 0) (.v 0) 5 0
  let b : ModB := { prio := 1, zero := 0 }
  let r : OffRec := { pc := 0x100000, prio := 1, tid := 5, preds := 0, n := 0, vals := [], tags := [], age := 0, clock := [] }
  let at' (inh : Bool) (n : Nat) (off : List OffRec := []) := issuing { smallUnit (crowded 7 inh) with offcut := n, off := off }
  let solve : Cmd := (seen (at' false 0) 0).newCmd (.trsolve (opX 0 (.v 0) (.v 0) (.v 8)) { bits := 0 })
  let solves := issuing { smallUnit (crowded 7) with offcut := recBytes 256, cmds := [(0, solve)] }
  let two : State := withGroup { crowded 6 with ents := (crowded 6).ents ++ [{ Entry.new 0x101800 1 (BitVec.ofNat 32 (2 ^ 20)) with wait := .second }] }
  ⟨⟨at' true 0, o, b, seen (at' true 0) 0, _, ⟨issues_seen (by decide +kernel), rfl, by decide +kernel⟩, by decide +kernel⟩,
    ⟨at' false (recBytes 256 - 1), o, b, seen (at' false (recBytes 256 - 1)) 0, _, ⟨issues_seen (by decide +kernel), rfl, by decide +kernel⟩, by decide +kernel⟩,
    ⟨at' false (recBytes 256 + recBytes 0 - 1) [r], o, b, seen (at' false (recBytes 256 + recBytes 0 - 1) [r]) 0, _,
      ⟨issues_seen (by decide +kernel), rfl, by decide +kernel⟩, by decide +kernel⟩,
    ⟨at' false (recBytes 256), o, b, seen (at' false (recBytes 256)) 0, _, ⟨issues_seen (by decide +kernel), rfl, by decide +kernel⟩, by decide +kernel⟩,
    ⟨solves, o, b, seen solves 0, _, ⟨issues_seen (by decide +kernel), rfl, by decide +kernel⟩, by decide +kernel⟩,
    ⟨two, o, b, seen two 0, _, ⟨issues_seen (by decide +kernel), rfl, by decide +kernel⟩, by decide +kernel⟩,
    ⟨at' true 0, o, b, seen (at' true 0) 0, issues_seen (by decide +kernel), by decide +kernel⟩,
    ⟨withGroup { crowded 7 with m := [(0, 1)] }, opX 0 (.v 0) (.m 0), seen (withGroup { crowded 7 with m := [(0, 1)] }),
      issues_seen (by decide +kernel), by decide +kernel⟩,
    ⟨withGroup (crowded 7), opX 0 (.v 0) (.v 2), b, { bits := 0x14 }, seen (withGroup (crowded 7)), issues_seen (by decide +kernel),
      by unfold FarOk Bears; decide +kernel, by decide +kernel⟩⟩

/-- A nop whose GRD is 15, at an entry; and a word whose guard p1 is false in both lanes. -/
theorem witness_GuardedOff :
    (∃ (s : State) (k : UKey) (gid n : Nat) (u : Machine.Unit) (g : Group) (e : Entry) (w field reason : Nat), s.unit? k = some u ∧
      u.grp? gid = some g ∧ g.ents[n]? = some e ∧ fetchWord s u e.pc 3 = .ok w ∧ decode g.grant (isDet s u) w = .error (field, reason))
    ∧ ∃ (s : State) (i : Instr) (f : Fields) (c : Cx), i.fields = some f ∧ view? s f.grd = some c ∧ c.ex = 0 :=
  ⟨⟨State.reset.withFetchWord 96 (0x6E0F0000 * 2 ^ 64), bootUnit.key, 0, 0, bootUnit, bootGroup, .new (BitVec.ofNat 64 bootPc) 128 (BitVec.allOnes 32),
      0x6E0F0000 * 2 ^ 64, 2, 8, by decide +kernel, by decide +kernel, by decide +kernel, by decide +kernel, by decide +kernel⟩,
    ⟨withGroup smallGroup, .nop (opX 0 (.v 0) (.v 0) (.v 0) 0 1) { ty := .b32, rm := .rn, rs := false, opnd := 0, sub := 0 }, _, seen (withGroup smallGroup) 1, rfl, view_seen (by decide +kernel), by decide +kernel⟩⟩

/-! ## Witnesses, memory -/

/-- Where a lane's access is performed, if no cause of R141 stops it. -/
def placeOf? (c : Cx) (base : Opd) (vault : Bool) (off : Int) (n align : Nat) (att : Att) (reads : Bool) (l : Nat) : Option Place :=
  match c.check base vault l off n align att with
  | .error _ => none
  | .ok sp => match c.land l sp n att.write reads with
    | .error _ => none
    | .ok p => if p.missing then none else some p

def placeAt (c : Cx) (base : Opd) (vault : Bool) (off : Nat → Int) (n align : Nat) (att : Att) (reads : Bool) (l : Nat) : Place :=
  (placeOf? c base vault (off l) n align att reads l).getD { sp := 9, a := 0, pte := none, va := 0 }

theorem lands_at {c : Cx} {base : Opd} {vault : Bool} {off : Nat → Int} {n align : Nat} {att : Att} {reads : Bool} {ls : List Nat}
    (h : ∀ l ∈ ls, (placeOf? c base vault (off l) n align att reads l).isSome = true) :
    Lands c base vault off n align att reads ls (placeAt c base vault off n align att reads) := by
  intro l hl
  have := h l hl
  unfold placeAt
  unfold placeOf? at this ⊢
  cases hc : c.check base vault l (off l) n align att with
  | error e => simp [hc] at this
  | ok sp =>
    simp only [hc] at this ⊢
    cases hd : c.land l sp n att.write reads with
    | error e => simp [hd] at this
    | ok p =>
      simp only [hd] at this ⊢
      cases hm : p.missing <;> simp_all

/-- Two 64-bit words end at the end of the mapped page, which x4 points near to; v3 is the lane's number; v4 and v6 hold data. -/
def memGroup : Group :=
  { smallGroup with
    s := [(8, 0x1FFFF0)], st := [(8, .i64), (9, .i64)]
    v := [(97, 1), (128, 0x11), (129, 0x22), (192, 0x33), (193, 0x44)]
    vt := [(3, .i32), (4, .i64), (5, .i64), (6, .i64), (7, .i64)] }

def memState : State := withGroup memGroup
def opM (fn : Nat := 0) (d : Opd := .v 4) (imm : Nat := 0) (b : Opd := .v 3) (a : Opd := .s 8) : Op := op fn 7 0 d a b imm
def modM (ty : Ty) (ord : Nat := 0) (scope : Nat := 0) : ModM := { ty := ty, ord := ord, scope := scope, space := 0 }
def modG : ModG := { ty := .i64, iw := 2, isgn := false, sc := 3, space := 0 }

theorem mem_issues : Issues memState opM (seen memState) := issues_seen (by decide +kernel)
theorem mem_base : BearsBase (seen memState) (.s 8) false := by unfold BearsBase Bears; decide +kernel
theorem mem_index : Bears (seen memState) (.v 3) 1 [.i32] := by unfold Bears; decide +kernel
theorem mem_drained : Drained memState (seen memState) := by unfold Drained; decide +kernel

/-- The three loads; ld with .acq at .sys. -/
theorem witness_LoadsRead :
    (∃ (s : State) (o : Op) (m : ModM) (c : Cx) (p : Nat → Place) (fl : Nat), Issues s o c ∧ BearsBase c o.a (decide (m.space = 1)) ∧ Bears c o.b 1 [.i32]
      ∧ c.sysScope (m.ord != 0) m.scope = .ok fl ∧ (∀ r, o.d ≠ .p r)
      ∧ Lands c o.a (decide (m.space = 1)) (fun l => sext 32 (c.val o.b 1 l) * m.ty.size + o.disp) m.ty.size m.ty.size
        (ordAtt m.ord (c.actScope m.scope) false false) true (c.loadLanes o.d) p)
    ∧ (∃ (s : State) (o : Op) (m : ModM) (c : Cx) (p : Nat → Place), Issues s o c ∧ BearsBase c o.a (decide (m.space = 1))
      ∧ Lands c o.a (decide (m.space = 1)) (fun l => o.disp + ((c.lanes.filter fun k => decide (k < l)).length : Nat) * m.ty.size) m.ty.size m.ty.size {}
        true c.lanes p)
    ∧ ∃ (s : State) (o : Op) (g : ModG) (c : Cx) (p : Nat → Place), Issues s o c ∧ BearsBase c o.a (decide (g.space = 1)) ∧ g.iw ≠ 3
      ∧ Bears c o.b 1 [.i32] ∧ Lands c o.a (decide (g.space = 1)) (c.offG o g) g.ty.size g.ty.size {} true c.lanes p :=
  ⟨⟨_, opM, modM .i64 1 4, _, _, 0, mem_issues, mem_base, mem_index, by rfl, by intro r; simp [opM, op],
      lands_at (by decide +kernel)⟩,
    ⟨_, opM, modM .i64, _, _, mem_issues, mem_base, lands_at (by decide +kernel)⟩,
    ⟨_, opM, modG, _, _, mem_issues, mem_base, by decide, mem_index, lands_at (by decide +kernel)⟩⟩

/-- No pointer marks nothing. -/
theorem plain_of {s : State} {c : Cx} {ls : List Nat} {p : Nat → Place} (h : ∀ l ∈ ls, (p l).sp < 4 ∧ isPtr (p l).va = false) : PlainPlaces s c ls p :=
  fun l hl => ⟨(h l hl).1, fun e => by simp [(h l hl).2] at e⟩

/-- The three stores; st with .rel, and a gst whose lanes 0 and 1 name one place, which lane 1 is the highest to touch. -/
theorem witness_StoresWrite :
    (∃ (s : State) (o : Op) (m : ModM) (c : Cx) (p : Nat → Place) (fl : Nat), Issues s o c ∧ PlainPlaces s c c.lanes p
      ∧ BearsBase c o.a (decide (m.space = 1)) ∧ Bears c o.b 1 [.i32] ∧ DataOk c o.d m.ty
      ∧ c.sysScope (m.ord != 0) m.scope = .ok fl ∧ m.ord = 2 ∧ Drained s c
      ∧ Lands c o.a (decide (m.space = 1)) (fun l => sext 32 (c.val o.b 1 l) * m.ty.size + o.disp) m.ty.size m.ty.size
        (ordAtt m.ord (c.actScope m.scope) true false) false c.lanes p)
    ∧ (∃ (s : State) (o : Op) (m : ModM) (c : Cx) (p : Nat → Place), Issues s o c ∧ PlainPlaces s c c.lanes p
      ∧ BearsBase c o.a (decide (m.space = 1)) ∧ DataOk c o.d m.ty
      ∧ Lands c o.a (decide (m.space = 1)) (fun l => o.disp + ((c.lanes.filter fun k => decide (k < l)).length : Nat) * m.ty.size) m.ty.size m.ty.size
        { write := true } false c.lanes p)
    ∧ ∃ (s : State) (o : Op) (g : ModG) (c : Cx) (p : Nat → Place), Issues s o c ∧ PlainPlaces s c c.lanes p ∧ BearsBase c o.a (decide (g.space = 1))
      ∧ g.iw ≠ 3 ∧ Bears c o.b 1 [.i32] ∧ DataOk c o.d g.ty
      ∧ Lands c o.a (decide (g.space = 1)) (c.offG o g) g.ty.size g.ty.size { write := true } false c.lanes p
      ∧ 1 ∈ c.lanes ∧ (∀ k ∈ c.lanes, 1 < k → Apart g.ty.size (p k) (p 1)) ∧ (p 0).sp = (p 1).sp ∧ (p 0).a = (p 1).a
      ∧ (∀ k ∈ c.lanes, ((p k).sp = (p 0).sp ∧ (p k).a = (p 0).a) ∨ Apart g.ty.size (p k) (p 0)) :=
  ⟨⟨_, opM, modM .i64 2 4, _, _, 0, mem_issues, plain_of (by decide +kernel), mem_base, mem_index, by rfl, by rfl, rfl,
      mem_drained, lands_at (by decide +kernel)⟩,
    ⟨_, opM, modM .i64, _, _, mem_issues, plain_of (by decide +kernel), mem_base, by rfl, lands_at (by decide +kernel)⟩,
    ⟨_, opM, modG, _, _, issues_seen (s := withGroup { memGroup with v := [(128, 0x11), (129, 0x22)] }) (by decide +kernel), plain_of (by decide +kernel),
      by unfold BearsBase Bears; decide +kernel, by decide, by unfold Bears; decide +kernel, by rfl, lands_at (by decide +kernel), by decide +kernel,
      by unfold Apart; decide +kernel, by decide +kernel, by decide +kernel, by unfold Apart; decide +kernel⟩⟩

/-! ## Small steps: results by hand from the rules named -/

/-- The group after an instruction. -/
def after (i : Instr) (s : State) : Option Group := ((nextOf (exec i s)).bind fun t => t.unit? bootUnit.key).bind fun u => u.grp? 0

/-- v1 of lane 0 and its tag after a word of family A on v1, v2, v3 and v4, where v2 and v3 hold `x` and `y` under one tag. -/
def does (i : Op → ModA → Instr) (ty : Ty) (t : Tag) (x y : Nat) (fn : Nat := 0) (rm : Rm := .rn) : Option (Nat × Tag) :=
  (after (i (opA fn) { modA ty with rm := rm }) (withGroup (withV t x y))).map fun g => ((Sparse.get 0 g.v 32).toNat, Sparse.get .raw g.vt 1)

/-- R96: sums and differences wrap, the high half of a product is unsigned for .n32, a quotient truncates, a remainder takes A's sign. -/
theorem test_integer :
    does .iadd .i32 .i32 0xFFFFFFFF 2 = some (1, .i32) ∧ does .isub .i32 .i32 0 1 = some (0xFFFFFFFF, .i32)
    ∧ does .imul .n32 .i32 0xFFFFFFFF 0xFFFFFFFF 1 = some (0xFFFFFFFE, .i32) ∧ does .idiv .i32 .i32 0xFFFFFFF9 2 = some (0xFFFFFFFD, .i32)
    ∧ does .irem .i32 .i32 0xFFFFFFF9 2 = some (0xFFFFFFFF, .i32) := by decide +kernel

/-- R98: a division by zero saturates with the sign of A and does not trap, and the least number divided by -1 saturates. -/
theorem test_division_corners :
    does .idiv .i32 .i32 0xFFFFFFF9 0 = some (0x80000000, .i32) ∧ does .idiv .n32 .i32 5 0 = some (0xFFFFFFFF, .i32)
    ∧ does .irem .i32 .i32 0xFFFFFFF9 0 = some (0xFFFFFFF9, .i32) ∧ does .idiv .i32 .i32 0x80000000 0xFFFFFFFF = some (0x7FFFFFFF, .i32) := by decide +kernel

/-- R96: iabs of the least number saturates; the lesser and the greater are signed for .i32 and unsigned for .n32. -/
theorem test_order :
    does .iabs .i32 .i32 0x80000000 0 = some (0x7FFFFFFF, .i32) ∧ does .imin .i32 .i32 0xFFFFFFFF 1 = some (0xFFFFFFFF, .i32)
    ∧ does .imin .n32 .i32 0xFFFFFFFF 1 = some (1, .i32) ∧ does .imax .i32 .i32 0xFFFFFFFF 1 1 = some (1, .i32) := by decide +kernel

/-- R99: logic sets RAW; shifts by the width or more; a rotation takes its count modulo the width. -/
theorem test_bits :
    does .andB .b32 .i32 0xFF00 0x0FF0 = some (0x0F00, .raw) ∧ does .orB .b32 .i32 0xFF00 0x0FF0 = some (0xFFF0, .raw)
    ∧ does .xorB .b32 .i32 0xFF00 0x0FF0 = some (0xF0F0, .raw) ∧ does .shl .i32 .i32 1 32 = some (0, .i32)
    ∧ does .shr .i32 .i32 0x80000000 40 = some (0xFFFFFFFF, .i32) ∧ does .shr .n32 .i32 0x80000000 31 = some (1, .i32)
    ∧ does .rot .b32 .i32 0x80000001 36 = some (0x18, .raw) ∧ does .rot .b32 .i32 0x80000001 4 1 = some (0x18000000, .raw) := by decide +kernel

/-- R99, R100: the manual's field at 8 of length 4, signed and not; a count of ones, of leading zeros, and a reversal. -/
theorem test_fields :
    does .bfx .i32 .i32 0xFDA0 0x0408 = some (0xFFFFFFFD, .i32) ∧ does .bfx .n32 .i32 0xFDA0 0x0408 = some (0xD, .i32)
    ∧ does .bfx .i32 .i32 0xF5A0 0x0408 = some (5, .i32) ∧ does .popc .b32 .i32 0xF0F1 0 = some (9, .i32)
    ∧ does .clz .b32 .i32 0x10000 0 = some (15, .i32) ∧ does .clz .b32 .i32 0 0 = some (32, .i32) ∧ does .brev .b32 .i32 1 0 = some (0x80000000, .raw) := by
  decide +kernel

/-- IEEE 754 by hand: 1.5 + 2.25, 1.5 - 2.25, 1.5 × 2.25 and 1 / 3 to nearest and towards zero; the square root of 2. -/
theorem test_float :
    does .fadd .f32 .f32 0x3FC00000 0x40100000 = some (0x40700000, .f32) ∧ does .fsub .f32 .f32 0x3FC00000 0x40100000 = some (0xBF400000, .f32)
    ∧ does .fmul .f32 .f32 0x3FC00000 0x40100000 = some (0x40580000, .f32) ∧ does .fdiv .f32 .f32 0x3F800000 0x40400000 = some (0x3EAAAAAB, .f32)
    ∧ does .fdiv .f32 .f32 0x3F800000 0x40400000 0 .rz = some (0x3EAAAAAA, .f32) ∧ does .fsqrt .f32 .f32 0x40000000 0 = some (0x3FB504F3, .f32) := by
  decide +kernel

/-- 2^24 + 1 to FP32 takes the even neighbour; 1.0 scaled by 2^3; the lesser of 1.5 and 2.25; the exponent of 2.25 rounded down. -/
theorem test_float_2 :
    does .cvt .f32 .i32 0x01000001 0 1 = some (0x4B800000, .f32) ∧ does .fmin .f32 .f32 0x3FC00000 0x40100000 = some (0x3FC00000, .f32)
    ∧ does .fmax .f32 .f32 0x3FC00000 0x40100000 1 = some (0x40100000, .f32) ∧ does .fgetexp .f32 .f32 0x40100000 0 = some (1, .i32)
    ∧ does .frnd .f32 .f32 0x40200000 0 = some (0x40000000, .f32) := by decide +kernel

/-- R119 ff.: a sum over lanes 0 and 1 lands in both. -/
theorem test_lanes :
    does .gred .i32 .i32 5 0 = some (10, .i32) ∧ does .gscan .i32 .i32 5 0 = some (5, .i32) ∧ does .fgsum .f32 .f32 0x3FC00000 0 = some (0x40400000, .f32) := by
  decide +kernel

/-- R77, R128: a branch of -5 from the next instruction; nop goes on behind its word. -/
theorem test_control :
    ((after (.bra (opX 0 (.v 0) (.v 0) (.v 0) 0xFFFFFFFB) { prio := 12, zero := 0 }) (withGroup smallGroup)).map fun g =>
      g.ents.map fun e => (e.pc.toNat, e.prio)) = some [(0x100000 + 12 - 60, 12)]
    ∧ ((after (.nop opX (modA .b32)) (withGroup smallGroup)).map fun g => g.ents.map fun e => (e.pc.toNat, e.prio)) = some [(0x10000C, 128)] := by
  decide +kernel

/-- A store puts its lowest byte at its address, and lane 1 stores 8 bytes on. -/
theorem test_store :
    ((nextOf (exec (.st opM (modM .i64)) memState)).map fun t => (t.rd 0 0x1FFFF0, t.rd 0 0x1FFFF8, t.rd 0 0x1FFFF1)) = some (0x11, 0x22, 0) := by decide +kernel

/-- A compare and exchange at .rel, and a reduction. -/
theorem witness_Atomics :
    let att (c : Cx) (m : ModM) := ordAtt m.ord (c.actScope m.scope) true true
    (∃ (s : State) (o : Op) (m : ModM) (c : Cx) (p : Nat → Place) (fl : Nat), Issues s o c ∧ PlainPlaces s c c.lanes p ∧ (∀ l ∈ c.lanes, noAtomic (p l) = false)
      ∧ BearsBase c o.a (decide (m.space = 1)) ∧ Bears c o.b 1 [.i32] ∧ c.sysScope true m.scope = .ok fl ∧ m.ord = 2 ∧ Drained s c
      ∧ DataOk c o.c m.ty ∧ o.fn = 7 ∧ DataOk c (o.c.plus m.ty.regs) m.ty ∧ Alone c.lanes p m.ty.size 0
      ∧ Lands c o.a (decide (m.space = 1)) (fun l => sext 32 (c.val o.b 1 l) * m.ty.size) m.ty.size m.ty.size (att c m) true c.lanes p)
    ∧ ∃ (s : State) (o : Op) (m : ModM) (c : Cx) (p : Nat → Place) (fl : Nat), Issues s o c ∧ PlainPlaces s c c.lanes p ∧ (∀ l ∈ c.lanes, noAtomic (p l) = false)
      ∧ BearsBase c o.a (decide (m.space = 1)) ∧ Bears c o.b 1 [.i32] ∧ c.sysScope true m.scope = .ok fl ∧ m.ord = 2 ∧ Drained s c ∧ DataOk c o.d m.ty
      ∧ Lands c o.a (decide (m.space = 1)) (fun l => sext 32 (c.val o.b 1 l) * m.ty.size + o.disp) m.ty.size m.ty.size (att c m) true c.lanes p :=
  ⟨⟨memState, opM 7 (.v 8) 4, modM .i64 2, _, _, 0, issues_seen (by decide +kernel), plain_of (by decide +kernel), by decide +kernel, mem_base,
      mem_index, rfl, rfl, mem_drained, rfl, rfl, rfl, by unfold Alone Apart; decide +kernel, lands_at (by decide +kernel)⟩,
    ⟨memState, opM, modM .i64 2, _, _, 0, mem_issues, plain_of (by decide +kernel), by decide +kernel, mem_base, mem_index, rfl, rfl,
      mem_drained, rfl, lands_at (by decide +kernel)⟩⟩

/-- A wait that is over (.ne against zeros), and one that is not (.eq). -/
theorem witness_WaitsAndFences :
    (∀ b : Bool, ∃ (s : State) (o : Op) (m : ModM) (c : Cx) (p : Nat → Place) (fl : Nat), Issues s o c ∧ WaitvReads o m c p fl ∧ m.ord = 1
      ∧ (∀ l ∈ c.lanes, waitvHolds o m c p l = b) ∧ c.lanes ≠ [])
    ∧ ∃ (s : State) (o : Op) (x : ModX) (c : Cx) (fl : Nat), Issues s o c ∧ Drained s c ∧ c.sysScope true (x.f 38 36) = .ok fl :=
  ⟨fun b => ⟨memState, opM (if b then 1 else 0), modM .i64 1, _, _, 0, by cases b <;> exact issues_seen (by decide +kernel),
      ⟨by cases b <;> exact mem_base, by cases b <;> exact mem_index, by cases b <;> (unfold Bears; decide +kernel), rfl,
        lands_at (by cases b <;> decide +kernel)⟩, rfl, by cases b <;> decide +kernel, by cases b <;> decide +kernel⟩,
    ⟨memState, opX, { bits := 0 }, _, 0, issues_seen (by decide +kernel), mem_drained, rfl⟩⟩

/-- A tile at the last 1,024 bytes but one of the page, and its version word behind it, which holds `ver`. -/
def tileState (ver : Nat) (run : Run := .running) : State :=
  let s := withGroup { smallGroup with run := run, s := [(8, 0x1FF800), (10, 0x1FFC00)], st := [(8, .i64), (9, .i64), (10, .i64), (11, .i64)] }
  { s with hbm := Sparse.set 0 s.hbm 0x1FFC00 (BitVec.ofNat 8 ver) }

/-- The loads and stores of a tile, with an even version and an odd one, of a group that runs and of one in its skid, whose tst.all the halt
cuts short or does not. -/
theorem witness_Tiles :
    let tileAt (c : Cx) (o : Op) (m : ModM) (a : Att) (off : Int) (rd : Bool) (p : Place) :=
      Lands c o.a (decide (m.space = 1)) (fun _ => off) 1024 1024 a rd [c.l0] fun _ => p
    let verAt (c : Cx) (o : Op) (m : ModM) (a : Att) (rd : Bool) (q : Place) := Lands c o.b (decide (m.space = 1)) (fun _ => 0) 8 8 a rd [c.l0] fun _ => q
    let sc (c : Cx) (m : ModM) := c.actScope m.scope
    let all : Att := { write := true, strong := true, acq := true, rel := true, rmw := true, tile := true }
    ∀ ver skid : Bool, ∃ (s : State) (o : Op) (m : ModM) (c : Cx) (p q : Place), Issues s o c ∧ o.d = .v 16 ∧ o.c = .p 1 ∧ p.sp < 4 ∧ q.sp < 4 ∧ isPtr p.va = false
      ∧ isPtr q.va = false ∧ BearsBase c o.a (decide (m.space = 1)) ∧ c.sysScope true m.scope = .ok 0 ∧ c.sysScope (m.ord != 0) m.scope = .ok 0
      ∧ tileAt c o m (ordAtt m.ord (sc c m) false false) 0 true p ∧ Drained s c ∧ (∀ i < 8, c.g.vtag (16 + i) = .raw ∨ c.g.vtag (16 + i) = m.ty.tag)
      ∧ tileAt c o m (ordAtt m.ord (sc c m) true false) 0 false p ∧ BearsBase c o.b (decide (m.space = 1)) ∧ tileAt c o m { tile := true } 0 true p
      ∧ verAt c o m { strong := true, acq := true, tile := true, scope := sc c m } true q ∧ (∀ k, o.c = .v k → k < 16 ∨ 24 ≤ k)
      ∧ tileAt c o m { write := true, tile := true } 0 false p ∧ verAt c o m { all with scope := sc c m } true q
      ∧ (s.rdN q.sp q.a 8 % 2 = if ver then 1 else 0) ∧ c.g.run = (if skid then .skid 3 5 else .running)
      ∧ (Config.cutTile s.tick = true ∨ Config.cutTile s.tick = false) ∧ (p.sp ≠ q.sp ∨ q.a + 8 ≤ p.a ∨ p.a + 1024 ≤ q.a) := by
  intro _ _ _ _ ver skid
  let s := tileState (if ver then 1 else 0) (if skid then .skid 3 5 else .running)
  let o := opM 0 (.v 16) 0x1A1 (.s 10)
  let c := seen s
  let p := placeAt c (.s 8) false (fun _ => 0) 1024 1024 {} true 0
  let q := placeAt c (.s 10) false (fun _ => 0) 8 8 {} true 0
  have land (base : Opd) (n : Nat) (att : Att) (rd : Bool)
      (h : placeOf? c base false 0 n n att rd 0 = some (placeAt c base false (fun _ => 0) n n {} true 0)) (hl : c.l0 = 0) :
      Lands c base false (fun _ => 0) n n att rd [c.l0] fun _ => placeAt c base false (fun _ => 0) n n {} true 0 := by
    have := lands_at (c := c) (base := base) (vault := false) (off := fun _ => 0) (n := n) (align := n) (att := att) (reads := rd) (ls := [c.l0])
      (by intro l hl'; simp only [List.mem_singleton] at hl'; rw [hl', hl, h]; rfl)
    intro l hl'
    obtain ⟨sp, h1, h2, h3⟩ := this l hl'
    simp only [List.mem_singleton] at hl'
    rw [hl', hl] at h1 h2 h3
    have e : placeAt c base false (fun _ => 0) n n att rd 0 = placeAt c base false (fun _ => 0) n n {} true 0 := by
      conv => lhs; unfold placeAt
      rw [h]; rfl
    rw [e] at h2 h3
    rw [hl', hl]
    exact ⟨sp, h1, h2, h3⟩
  have hc : (opM 0 (.v 16) 0x1A1 (.s 10)).c = .p 1 := by decide +kernel
  refine ⟨s, o, modM .i32, c, p, q, ?_⟩
  cases ver <;> cases skid <;>
  exact ⟨issues_seen (by decide +kernel), by decide +kernel, by decide +kernel, by decide +kernel, by decide +kernel, by decide +kernel, by decide +kernel,
    by unfold BearsBase Bears; decide +kernel, by decide +kernel, by decide +kernel, land _ _ _ _ (by decide +kernel) (by decide +kernel), by unfold Drained; decide +kernel,
    by decide +kernel, land _ _ _ _ (by decide +kernel) (by decide +kernel), by unfold BearsBase Bears; decide +kernel,
    land _ _ _ _ (by decide +kernel) (by decide +kernel), land _ _ _ _ (by decide +kernel) (by decide +kernel), fun k hk => absurd (hc.symm.trans hk) (by simp),
    land _ _ _ _ (by decide +kernel) (by decide +kernel), land _ _ _ _ (by decide +kernel) (by decide +kernel), by decide +kernel, by decide +kernel,
    by cases Config.cutTile _ <;> simp, by decide +kernel⟩

/-! ## Witnesses, names -/

/-- A resident object in slot 1, and the name of its byte 8. -/
def resident : Res := { Res.start with state := .resident, inc := 3, gen := 5, domain := 7, serial := 9, extent := 0x1000, filled := 0x1000 }

def objectName : Nat := 2 ^ 127 + (7 * 2 ^ 45 + 9) * 2 ^ 64 + 5 * 2 ^ 48 + 8
def objectPtr : Nat := 2 ^ 63 + 3 * 2 ^ 58 + 2 ^ 40 + 8

/-- The context of the unit with that object, and incarnation 2 of slot 1 in its history. -/
def nameCtx : Ctx :=
  { bootCtx with slots := 4, res := [(1, resident)], index := [(7 * 2 ^ 45 + 9, 1)], hist := [(18, BitVec.ofNat 128 objectName)] }

/-- Lane 0 of the pair v2 holds `p` and lane 1 the null pointer; v4 holds the pointer; slot 0 at x4 is null and slot 1 the name. -/
def nameState (p : Nat) (t : Tag := .ptr) (r : Res := resident) : State :=
  let s := withGroup { smallGroup with
    s := [(8, 0x20000)], st := [(8, .i64), (9, .i64)]
    v := [(64, BitVec.ofNat 32 p), (96, BitVec.ofNat 32 (p / 2 ^ 32)), (128, BitVec.ofNat 32 objectPtr), (160, BitVec.ofNat 32 (objectPtr / 2 ^ 32)), (193, 1)]
    vt := [(2, t), (3, t), (4, .ptr), (5, .ptr), (6, .i32)] }
  { s with ctxs := [{ nameCtx with res := [(1, r)] }], hbm := Sparse.setList 0 s.hbm 0x20010 (bytesOfNat 16 objectName) }

/-- A store through a short pointer: its lane marks the page of an exclusive object, where it is not marked yet. -/
theorem witness_StoresWrite_pointer :
    ∃ (s : State) (o : Op) (m : ModM) (c : Cx) (p : Nat → Place) (y : Ctx), Issues s o c ∧ (∀ l ∈ c.lanes, (p l).sp < 4)
      ∧ BearsBase c o.a (decide (m.space = 1)) ∧ Bears c o.b 1 [.i32] ∧ DataOk c o.d m.ty ∧ c.sysScope (m.ord != 0) m.scope = .ok 0
      ∧ Lands c o.a (decide (m.space = 1)) (fun l => sext 32 (c.val o.b 1 l) * m.ty.size + o.disp) m.ty.size m.ty.size
        (ordAtt m.ord (c.actScope m.scope) true false) false c.lanes p
      ∧ isPtr (p 0).va = true ∧ s.ctx? c.u.ctx = some y ∧ (y.slotRes (ptrSlot (p 0).va)).kind = 1
      ∧ ptrOff (p 0).va / 65536 ∉ (y.slotRes (ptrSlot (p 0).va)).dirtyPg :=
  let s := nameState objectPtr .ptr { resident with kind := 1, w := true, backva := 0x20000 }
  let s : State := { s with units := s.units.map fun u => { u with grps := u.grps.map fun g =>
    { g with s := [(8, BitVec.ofNat 32 objectPtr), (9, BitVec.ofNat 32 (objectPtr / 2 ^ 32))], st := [(8, .ptr), (9, .ptr)] } } }
  ⟨s, opM 0 (.v 6) 0 (.v 6), modM .i32, seen s, _, (s.ctx? 1).getD { bootCtx with id := 9 }, issues_seen (by decide +kernel), by decide +kernel, by unfold BearsBase Bears; decide +kernel,
    by unfold Bears; decide +kernel, by rfl, by rfl, lands_at (by decide +kernel), by decide +kernel⟩

theorem witness_NamesLoadAndStore :
    let slot (s : State) (c : Cx) (p : Nat → Place) (l : Nat) := s.load c.u.core (p l).sp (p l).a 16
    (∃ (s : State) (o : Op) (x : ModX) (c : Cx) (p : Nat → Place) (w : Nat → Nat), Issues s o c ∧ BearsBase c o.a (decide (x.f 35 34 = 1))
      ∧ Bears c o.b 1 [.i32] ∧ c.sysScope (x.f 40 39 != 0) (x.f 38 36) = .ok 0 ∧ (∀ r, o.d ≠ .p r)
      ∧ Lands c o.a (decide (x.f 35 34 = 1)) (fun l => sext 32 (c.val o.b 1 l) * 16 + o.disp) 16 16
        (ordAtt (x.f 40 39) (c.actScope (x.f 38 36)) false false) true (c.loadLanes o.d) p
      ∧ (slot s c p 0 = 0 ∧ w 0 = 0) ∧ c.loadLanes o.d = [0, 1]
      ∧ slot s c p 1 / 2 ^ 127 = 1 ∧ nameKind (slot s c p 1) ≠ 3 ∧ bits (slot s c p 1) 47 40 = 0
      ∧ c.ctx.laneWait (nameKey (slot s c p 1)) c.u.key c.g.gid c.pc 1 = none ∧ c.ctx.find (nameKey (slot s c p 1)) = some 1
      ∧ (c.ctx.slotRes 1).state = .resident ∧ (c.ctx.slotRes 1).gen = nameGen (slot s c p 1) ∧ nameOff (slot s c p 1) ≤ (c.ctx.slotRes 1).extent
      ∧ w 1 = 2 ^ 63 + (c.ctx.slotRes 1).inc * 2 ^ 58 + 1 * 2 ^ 40 + slot s c p 1 % 2 ^ 40)
    ∧ ∃ (s : State) (o : Op) (x : ModX) (c : Cx) (p : Nat → Place), Issues s o c ∧ PlainPlaces s c c.lanes p ∧ x.f 40 39 = 2 ∧ Drained s c
      ∧ BearsBase c o.a (decide (x.f 35 34 = 1)) ∧ Bears c o.b 1 [.i32] ∧ c.sysScope (x.f 40 39 != 0) (x.f 38 36) = .ok 0
      ∧ Bears c o.d 2 [.ptr] ∧ c.regTag o.d 0 = .ptr
      ∧ Lands c o.a (decide (x.f 35 34 = 1)) (fun l => sext 32 (c.val o.b 1 l) * 16 + o.disp) 16 16
        (ordAtt (x.f 40 39) (c.actScope (x.f 38 36)) true false) false c.lanes p
      ∧ c.lanes = [0, 1] ∧ c.val o.d 2 1 = 0 ∧ isPtr (c.val o.d 2 0) = true ∧ ptrSlot (c.val o.d 2 0) < c.ctx.slots
      ∧ (c.ctx.slotRes (ptrSlot (c.val o.d 2 0))).current (ptrInc (c.val o.d 2 0)) = true
      ∧ ptrOff (c.val o.d 2 0) ≤ (c.ctx.slotRes (ptrSlot (c.val o.d 2 0))).extent :=
  ⟨⟨nameState objectPtr, opM 0 (.v 8) 0 (.v 6), { bits := 0 }, seen (nameState objectPtr), _, fun l => if l = 1 then objectPtr else 0,
      issues_seen (by decide +kernel), by unfold BearsBase Bears; decide +kernel, by unfold Bears; decide +kernel, rfl, by intro r; simp [opM, op],
      lands_at (by decide +kernel), by decide +kernel⟩,
    ⟨nameState objectPtr, opM 0 (.v 2) 0 (.v 6), { bits := 0x40 }, seen (nameState objectPtr), _, issues_seen (by decide +kernel),
      plain_of (by decide +kernel), by decide, by unfold Drained; decide +kernel, by unfold BearsBase Bears; decide +kernel,
      by unfold Bears; decide +kernel, rfl, by unfold Bears; decide +kernel, by decide +kernel, lands_at (by decide +kernel), by decide +kernel⟩⟩

/-- A current pointer beside a null one, and the pins of its object; a pointer kept in the history; one of no incarnation; another tag. -/
theorem witness_NamesCompareAndPin :
    let ptr (c : Cx) (y : Opd) := c.regTag y 0 = .ptr ∧ c.regTag y 1 = .ptr
    (∃ (s : State) (o : Op) (c : Cx), Issues s o c ∧ ptr c o.a ∧ ptr c o.b
      ∧ ∀ l ∈ c.lanes, (pointerName c.ctx (c.val o.a 2 l)).isSome = true ∧ (pointerName c.ctx (c.val o.b 2 l)).isSome = true)
    ∧ (∃ (s : State) (o : Op) (c : Cx), Issues s o c ∧ ptr c o.a ∧ ptr c o.b ∧ 0 ∈ c.lanes ∧ (∀ k ∈ c.lanes, ¬ k < 0)
      ∧ pointerName c.ctx (c.val o.a 2 0) = none)
    ∧ (∃ (s : State) (o : Op) (c : Cx), Issues s o c ∧ ptr c o.a ∧ ptr c o.b ∧ (pointerName c.ctx (c.val o.a 2 0)).isSome = true
      ∧ pointerName c.ctx (c.val o.b 2 0) = none)
    ∧ (∃ (s : State) (o : Op) (c : Cx), Issues s o c ∧ ¬ ptr c o.a) ∧ (∃ (s : State) (o : Op) (c : Cx), Issues s o c ∧ ptr c o.a ∧ ¬ ptr c o.b)
    ∧ (∃ (c : Cx) (p : Nat), isPtr p = true ∧ ptrSlot p < c.ctx.slots ∧ (c.ctx.slotRes (ptrSlot p)).current (ptrInc p) = false
      ∧ 2 ^ 127 ≤ (c.ctx.histEnt (ptrSlot p) (ptrInc p)).toNat)
    ∧ (∃ (c : Cx) (p : Nat), isPtr p = true ∧ ptrSlot p < c.ctx.slots ∧ (c.ctx.slotRes (ptrSlot p)).current (ptrInc p) = false
      ∧ (c.ctx.histEnt (ptrSlot p) (ptrInc p)).toNat < 2 ^ 127)
    ∧ ∀ pin : Bool, ∃ (s : State) (o : Op) (c : Cx) (y : Ctx) (slot : Nat → Nat), Issues s o c ∧ ptr c o.a ∧ s.ctx? c.u.ctx = some y
      ∧ (∀ l ∈ c.lanes, c.pinSlot o.a l = .ok (slot l))
      ∧ let n (k : Nat) := (c.lanes.filter fun l => slot l == k).length
        if pin then (∀ l ∈ c.lanes, (y.slotRes (slot l)).pin + n (slot l) ≤ 65535) else ∀ l ∈ c.lanes, n (slot l) ≤ (y.slotRes (slot l)).pin := by
  let old := objectPtr - 2 ^ 58
  let gone := objectPtr - 2 ^ 59
  let pinned (n : Nat) := nameState objectPtr .ptr { resident with pin := n }
  let one (s : State) : State := { s with units := s.units.map fun u => { u with grps := u.grps.map fun g => { g with ents := g.ents.map fun e => { e with mask := 1 } } } }
  refine ⟨⟨nameState objectPtr, opX 0 (.p 1) (.v 2) (.v 4), seen (nameState objectPtr), issues_seen (by decide +kernel), by decide +kernel⟩,
    ⟨nameState gone, opX 0 (.p 1) (.v 2) (.v 4), seen (nameState gone), issues_seen (by decide +kernel), by decide +kernel⟩,
    ⟨nameState gone, opX 0 (.p 1) (.v 4) (.v 2), seen (nameState gone), issues_seen (by decide +kernel), by decide +kernel⟩,
    ⟨nameState gone .i64, opX 0 (.p 1) (.v 2) (.v 4), seen (nameState gone .i64), issues_seen (by decide +kernel), by decide +kernel⟩,
    ⟨nameState gone .i64, opX 0 (.p 1) (.v 4) (.v 2), seen (nameState gone .i64), issues_seen (by decide +kernel), by decide +kernel⟩,
    ⟨seen (nameState old), old, by decide +kernel⟩, ⟨seen (nameState gone), gone, by decide +kernel⟩, ?_⟩
  intro pin
  refine ⟨one (pinned (if pin then 65534 else 1)), opX 0 (.v 0) (.v 2), seen (one (pinned (if pin then 65534 else 1))), _, fun _ => 1, ?_, ?_, rfl, ?_, ?_⟩
  · cases pin <;> exact issues_seen (by decide +kernel)
  · cases pin <;> decide +kernel
  · cases pin <;> decide +kernel
  · cases pin <;> decide +kernel

/-! ## Witnesses, barriers, signals, tags and streams -/

/-- The unit with barrier 1 as given, and an entry that waits or does not. -/
def barState (b : Bar) (w : Wait := .none) : State :=
  issuing { smallUnit { smallGroup with ents := [{ Entry.new (BitVec.ofNat 64 bootPc) 128 3 with wait := w }] } with bars := [(1, b)] }

/-- The counts 1 and 65,535 of bini, the counts 0, 65,536 and the greatest, and a barrier in use; both looks of barw, and .arr as the last arrival. -/
theorem witness_Barriers :
    let b (c : Cx) (x : ModX) := c.u.bar (barNo x)
    let n (c : Cx) (o : Op) := if o.a = .z then o.imm % 65536 else c.val o.a 1 c.l0
    (∀ k ∈ [1, 65535], ∃ (s : State) (o : Op) (x : ModX) (c : Cx), Issues s o c ∧ Bears c o.a 1 [.i32] ∧ Bears c o.b 1 [.i32] ∧ n c o = k ∧ (b c x).count = 0)
    ∧ (∀ k ∈ [0, 65536, 0xFFFFFFFF], ∃ (s : State) (o : Op) (c : Cx), Issues s o c ∧ Bears c o.a 1 [.i32] ∧ Bears c o.b 1 [.i32] ∧ n c o = k)
    ∧ (∃ (s : State) (o : Op) (x : ModX) (c : Cx), Issues s o c ∧ Bears c o.a 1 [.i32] ∧ Bears c o.b 1 [.i32] ∧ (b c x).count ≠ 0)
    ∧ (∀ d : Bool, ∃ (s : State) (o : Op) (x : ModX) (c : Cx) (t0 : Nat), Issues s o c ∧ c.e.wait = .barw 1 t0
      ∧ (if d then (b c x).ph ≠ t0 ∧ (b c x).ltrap = false else (b c x).ph = t0))
    ∧ (∀ d : Bool, ∃ (s : State) (o : Op) (x : ModX) (c : Cx), Issues s o c ∧ c.e.wait = .none ∧ Drained s c
      ∧ (c.g.gstat.getLsbD 16 && c.g.gstat.getLsbD 5) = false ∧ x.f 40 40 = 0
      ∧ let t0 := if c.g.arrv.getLsbD (barNo x) then Sparse.get 0 c.g.tph (barNo x) else (b c x).ph
        if d then (b c x).ph ≠ t0 ∧ (b c x).ltrap = false else (b c x).ph = t0)
    ∧ ∃ (s : State) (o : Op) (x : ModX) (c : Cx), Issues s o c ∧ c.e.wait = .none ∧ Drained s c ∧ (c.g.gstat.getLsbD 16 && c.g.gstat.getLsbD 5) = false
      ∧ x.f 40 40 = 1 ∧ c.e.bwa = false ∧ (b c x).count + 1 = (b c x).expect ∧ (b c x).trapf = false := by
  let x : ModX := { bits := 0x80 }
  let late : State := issuing { smallUnit { smallGroup with arrv := 2 } with bars := [(1, { Bar.start 1 with ph := 1 })] }
  let many (k : Nat) : State := issuing { smallUnit { smallGroup with s := [(8, BitVec.ofNat 32 k)] } with bars := [(1, .start 1)] }
  refine ⟨?_, ?_,
    ⟨barState { Bar.start 2 with count := 1 }, opX 0 (.v 0) (.sp .z), x, seen (barState { Bar.start 2 with count := 1 }), issues_seen (by decide +kernel), by
      unfold Bears; decide +kernel⟩, ?_, ?_,
    ⟨barState (.start 1), opX, { bits := 0xC0 }, seen (barState (.start 1)), issues_seen (by decide +kernel), by unfold Drained; decide +kernel⟩⟩
  · intro k hk
    simp only [List.mem_cons, List.not_mem_nil, or_false] at hk
    rcases hk with rfl | rfl
    · exact ⟨barState (.start 1), opX 0 (.v 0) (.sp .z) (.sp .z) 1, x, seen (barState (.start 1)), issues_seen (by decide +kernel), by
        unfold Bears; decide +kernel⟩
    · exact ⟨barState (.start 1), opX 0 (.v 0) (.sp .z) (.sp .z) 65535, x, seen (barState (.start 1)), issues_seen (by decide +kernel), by
        unfold Bears; decide +kernel⟩
  · intro k hk
    simp only [List.mem_cons, List.not_mem_nil, or_false] at hk
    rcases hk with rfl | rfl | rfl
    · exact ⟨barState (.start 1), opX 0 (.v 0) (.sp .z), seen (barState (.start 1)), issues_seen (by decide +kernel), by unfold Bears; decide +kernel⟩
    · exact ⟨many 65536, opX 0 (.v 0) (.s 8) (.sp .z), seen (many 65536), issues_seen (by decide +kernel), by unfold Bears; decide +kernel⟩
    · exact ⟨many 0xFFFFFFFF, opX 0 (.v 0) (.s 8) (.sp .z), seen (many 0xFFFFFFFF), issues_seen (by decide +kernel), by unfold Bears; decide +kernel⟩
  · intro d
    cases d
    · exact ⟨barState (.start 1) (.barw 1 0), opX, x, seen (barState (.start 1) (.barw 1 0)), 0, issues_seen (by decide +kernel), by decide +kernel⟩
    · exact ⟨barState { Bar.start 1 with ph := 1 } (.barw 1 0), opX, x, seen (barState { Bar.start 1 with ph := 1 } (.barw 1 0)), 0,
        issues_seen (by decide +kernel), by decide +kernel⟩
  · intro d
    cases d
    · exact ⟨barState (.start 1), opX, x, seen (barState (.start 1)), issues_seen (by decide +kernel), by unfold Drained; decide +kernel⟩
    · exact ⟨late, opX, x, seen late, issues_seen (by decide +kernel), by unfold Drained; decide +kernel⟩

/-- A signal of 1 at x4, from which 1 is taken. -/
def signalState : State := { memState with hbm := Sparse.set 0 memState.hbm 0x1FFFF0 1 }

theorem witness_SignalDecrement : ∃ (s : State) (o : Op) (x : ModX) (c : Cx) (p : Place), Issues s o c ∧ Drained s c ∧ BearsBase c o.a false
    ∧ x.f 39 39 = 0 ∧ Bears c o.b 1 [.i32] ∧ c.sysScope true (x.f 38 36) = .ok 0
    ∧ Lands c o.a false (fun _ => 0) 8 8 { write := true, strong := true, rel := true, rmw := true, scope := c.actScope (x.f 38 36) } true [c.l0] (fun _ => p)
    ∧ p.sp < 4 ∧ isPtr p.va = false ∧ noAtomic p = false ∧ s.rdN p.sp p.a 8 = 1 := by
  let c := seen signalState
  let att : Att := { write := true, strong := true, rel := true, rmw := true, scope := c.actScope 3 }
  let p := placeAt c (.s 8) false (fun _ => 0) 8 8 att true 0
  have h0 : c.l0 = 0 := by decide +kernel
  have hl : Lands c (.s 8) false (fun _ => 0) 8 8 att true [c.l0] (fun _ => p) := by
    have := lands_at (c := c) (base := .s 8) (vault := false) (off := fun _ => 0) (n := 8) (align := 8) (att := att) (reads := true) (ls := [0])
      (by decide +kernel)
    rw [h0]
    intro l h
    obtain ⟨sp, h1, h2, h3⟩ := this l h
    simp only [List.mem_singleton] at h
    subst h
    exact ⟨sp, h1, h2, h3⟩
  exact ⟨signalState, opX 0 (.v 0) (.s 8) (.sp .z) 1, { bits := 0xC }, c, p, issues_seen (by decide +kernel), by unfold Drained; decide +kernel,
    by unfold BearsBase Bears; decide +kernel, by decide, by unfold Bears; decide +kernel, by rfl, hl, by decide +kernel⟩

/-- The unit with tags 0 and 63 pending and tag 62 ready; x10 holds a mask. -/
def tagState (mask : Nat) : State :=
  issuing { smallUnit { smallGroup with
    s := [(20, BitVec.ofNat 32 mask), (21, BitVec.ofNat 32 (mask / 2 ^ 32)), (24, 64)].filter (·.2 != 0), st := [(20, .i64), (21, .i64), (24, .i32)] } with
    pend := 0x8000000000000001, ready := 0x4000000000000000 }

/-- .all and .any, over and not; a status that is there, one that is waited for, and the tag number 64. -/
theorem witness_TagWaits :
    let mask (c : Cx) (o : Op) := c.val o.a 2 c.l0
    let pend (c : Cx) (o : Op) := c.u.pend.toNat &&& mask c o
    let done (c : Cx) (o : Op) : Prop := if o.fn = 1 then pend c o = 0 else c.u.ready.toNat &&& mask c o ≠ 0 ∨ pend c o = 0
    let k (c : Cx) (o : Op) := if o.a = .z then o.imm % 64 else c.val o.a 1 c.l0
    (∃ (s : State) (o : Op) (c : Cx), Issues s o c ∧ Bears c o.a 2 [.i64] ∧ o.fn = 1 ∧ ¬ done c o)
    ∧ (∃ (s : State) (o : Op) (c : Cx), Issues s o c ∧ Bears c o.a 2 [.i64] ∧ o.fn = 0 ∧ done c o)
    ∧ (∃ (s : State) (o : Op) (c : Cx), Issues s o c ∧ Bears c o.a 1 [.i32] ∧ k c o = 64)
    ∧ (∃ (s : State) (o : Op) (c : Cx), Issues s o c ∧ Bears c o.a 1 [.i32] ∧ k c o = 63 ∧ c.u.pend.getLsbD (k c o) = true)
    ∧ ∃ (s : State) (o : Op) (c : Cx), Issues s o c ∧ Bears c o.a 1 [.i32] ∧ k c o = 62 ∧ c.u.pend.getLsbD (k c o) = false :=
  ⟨⟨tagState (2 ^ 64 - 1), opX 1 (.v 0) (.s 20), seen (tagState (2 ^ 64 - 1)), issues_seen (by decide +kernel), by unfold Bears; decide +kernel⟩,
    ⟨tagState (2 ^ 64 - 1), opX 0 (.v 0) (.s 20), seen (tagState (2 ^ 64 - 1)), issues_seen (by decide +kernel), by unfold Bears; decide +kernel⟩,
    ⟨tagState 1, opX 3 (.s 22) (.s 24), seen (tagState 1), issues_seen (by decide +kernel), by unfold Bears; decide +kernel⟩,
    ⟨tagState 1, opX 3 (.s 22) (.sp .z) (.v 0) 63, seen (tagState 1), issues_seen (by decide +kernel), by unfold Bears; decide +kernel⟩,
    ⟨tagState 1, opX 3 (.s 22) (.sp .z) (.v 0) 62, seen (tagState 1), issues_seen (by decide +kernel), by unfold Bears; decide +kernel⟩⟩

/-- A ring of two slots of 64 bytes at the end of the allocation; s0 and x4 address the vault and memory. -/
def ring : Stream := { Stream.start with base := 0xFF80, slotb := 1, nm1 := 1, bound := true }

def ringState (q : Stream) : State :=
  issuing { smallUnit { smallGroup with s := [(0, 0x7FC0FF80), (1, 64), (8, 0x1FFFC0)], st := [(0, .i32), (1, .i32), (8, .i64), (9, .i64)] } with sq := [(2, q)] }

theorem witness_StreamRings :
    let st (c : Cx) (x : ModX) := c.u.stream (x.f 44 42)
    (∃ (s : State) (o : Op) (x : ModX) (c : Cx), Issues s o c ∧ c.u.freeAgent = some 0 ∧ IsProducer c ∧ BearsBase c o.a (decide (x.f 41 41 = 1))
      ∧ (st c x).bound = true ∧ (st c x).nfill + (st c x).npop = 1 ∧ 1 < (st c x).nm1 + 1 ∧ (st c x).nfill < 64
      ∧ RangeOk c o.a (decide (x.f 41 41 = 1)) o.disp ((st c x).slotb * 64) 1 false)
    ∧ (∀ d : Bool, ∃ (s : State) (o : Op) (x : ModX) (c : Cx), Issues s o c ∧ (st c x).bound = true ∧ (st c x).filled.getLsbD 0 = d)
    ∧ (∃ (s : State) (o : Op) (x : ModX) (c : Cx), Issues s o c ∧ (st c x).bound = true ∧ 0 < (st c x).npop)
    ∧ ∀ m ∈ [1, 2], ∃ (s : State) (o : Op) (x : ModX) (c : Cx), Issues s o c ∧ Bears c o.a 1 [.i32] ∧ Bears c o.b 1 [.i32]
      ∧ o.imm % 8192 = m ∧ 0 < c.val o.b 1 c.l0 ∧ c.val o.b 1 c.l0 % 64 = 0 ∧ c.val o.a 1 c.l0 / 2 ^ 22 = 0x1FF
      ∧ c.val o.a 1 c.l0 % 2 ^ 22 + m * c.val o.b 1 c.l0 ≤ c.u.vsize ∧ (st c x).bound = false := by
  let x : ModX := { bits := 0x200 }
  refine ⟨⟨ringState { ring with nfill := 1, head := 1 }, opX 0 (.v 0) (.s 8), x, seen (ringState { ring with nfill := 1, head := 1 }), issues_seen (by decide +kernel),
      by decide +kernel, ⟨bootLaunch _, rfl, rfl⟩, by unfold BearsBase Bears; decide +kernel, by decide +kernel, by decide +kernel, by decide +kernel,
      by decide +kernel, by unfold RangeOk; decide +kernel⟩, ?_,
    ⟨ringState { ring with npop := 2 }, opX, x, seen (ringState { ring with npop := 2 }), issues_seen (by decide +kernel), by decide +kernel⟩, ?_⟩
  · intro d
    cases d
    · exact ⟨ringState ring, opX 0 (.s 4), x, seen (ringState ring), issues_seen (by decide +kernel), by decide +kernel⟩
    · exact ⟨ringState { ring with filled := 1, nfill := 1 }, opX 0 (.s 4), x, seen (ringState { ring with filled := 1, nfill := 1 }),
        issues_seen (by decide +kernel), by decide +kernel⟩
  · intro m hm
    simp only [List.mem_cons, List.not_mem_nil, or_false] at hm
    rcases hm with rfl | rfl
    · exact ⟨ringState .start, opX 1 (.v 0) (.s 0) (.s 1) 1, x, seen (ringState .start), issues_seen (by decide +kernel), by unfold Bears; decide +kernel⟩
    · exact ⟨ringState .start, opX 1 (.v 0) (.s 0) (.s 1) 2, x, seen (ringState .start), issues_seen (by decide +kernel), by unfold Bears; decide +kernel⟩

/-! ## Witnesses, the engines -/

/-- Memory at x4 and x5, the vault at s0 and s1, a row offset per lane in v3, and the words `w` of a descriptor in s12 to s15. -/
def engineGroup (w : List Nat) : Group :=
  { smallGroup with
    s := (([(0, 0x7FC00000), (1, 0x7FC08000), (8, 0x20000), (10, 0x30000)] : Sparse Word)
      ++ w.zipIdx.map fun (x, i) => (12 + i, BitVec.ofNat 32 x)).filter (·.2 != 0)
    st := [(0, .i32), (1, .i32), (8, .i64), (9, .i64), (10, .i64), (11, .i64)]
    v := [(64, 0x7FC00000), (65, 0x7FC00000), (97, 512)], vt := [(2, .i32), (3, .i32)] }

def engineUnit (w : List Nat) : Machine.Unit := smallUnit (engineGroup w)
def engineState (w : List Nat := []) : State := issuing (engineUnit w)

/-- The state with active planes of a format. -/
def planeState (t : Tag) : State := { engineState with cores := [(0, { Core.start with planeq := [(0, t)] })] }

theorem producer : IsProducer (seen (engineState [])) := ⟨bootLaunch _, rfl, rfl⟩

/-- A plane of FP64; quarters of FP32 and of FP64; and moves of the last slot and of the last pair. -/
theorem witness_MatrixIssue :
    let free (c : Cx) (k : Nat) := c.u.pend.getLsbD k = false
    (∃ (s : State) (o : Op) (x : ModX) (c : Cx), Issues s o c ∧ c.u.freeAgent = some 0 ∧ BearsBase c o.a (decide (x.f 40 40 = 1)) ∧ free c (x.f 39 34)
      ∧ c.u.aslots ≠ 0 ∧ x.f 43 41 = 5 ∧ RangeOk c o.a (decide (x.f 40 40 = 1)) o.disp (imageBytes (x.f 43 41)) 256 false)
    ∧ (∀ d ∈ [4, 5], ∃ (s : State) (o : Op) (x : ModX) (c : Cx) (slots : List Nat), Issues s o c ∧ c.u.freeAgent = some 0 ∧ x.f 44 42 = d
      ∧ slots = ((List.range 4).filter fun q => c.lanes.any fun l => l / 8 == q).flatMap
        (fun q => if x.f 44 42 = 5 then [o.d.code + 2 * q, o.d.code + 2 * q + 1] else [o.d.code + q])
      ∧ c.tagsSettled slots = .ok () ∧ Bears c o.a 1 [.i32] ∧ Bears c o.b 1 [.i32]
      ∧ Sparse.get .raw (s.core c.u.core).planeq (2 * x.f 41 41) = planeTag (x.f 44 42)
      ∧ (∀ k ∈ slots, k < c.u.aslots ∧ (c.u.accTag k = .raw ∨ c.u.accTag k = if x.f 44 42 = 5 then .f64 else .f32)) ∧ slots ≠ []
      ∧ ∀ l ∈ c.lanes, ∃ loc, resolveVault s c.u l (c.val o.a 1 l) (sext 32 (c.val o.b 1 l) + sext 22 o.imm) (rowBytes (x.f 44 42)) 16 false = .ok loc)
    ∧ ∀ pair : Bool, ∃ (s : State) (o : Op) (x : ModX) (c : Cx) (slots : List Nat), Issues s o c ∧ c.u.freeAgent = some 0
      ∧ slots = (if x.f 37 36 = 3 then [o.imm % 128, o.imm % 128 + 1] else [o.imm % 128]) ∧ slots = (if pair then [126, 127] else [127])
      ∧ BearsBase c o.a (decide (x.f 38 38 = 1)) ∧ free c (x.f 44 39) ∧ (∀ k ∈ slots, k < c.u.aslots) ∧ c.tagsSettled slots = .ok ()
      ∧ (∀ k ∈ slots, c.u.accTag k ≠ .tri) ∧ RangeOk c o.a (decide (x.f 38 38 = 1)) 0 (2048 * slots.length) 256 false
      ∧ RangeOk c o.a (decide (x.f 38 38 = 1)) 0 (2048 * slots.length) 256 true := by
  refine ⟨⟨engineState, opX 0 (.v 0) (.s 8), { bits := 5 * 2 ^ 7 + 63 }, seen engineState, issues_seen (by decide +kernel), by decide +kernel,
      by unfold BearsBase Bears; decide +kernel, by decide +kernel, by decide +kernel, by decide +kernel, by unfold RangeOk; decide +kernel⟩, ?_, ?_⟩
  · have loc (t : Tag) (k : Nat) (n : Nat) (h : ∀ l ∈ (seen (planeState t)).lanes, (resolveVault (planeState t) (seen (planeState t)).u l
        ((seen (planeState t)).val (.v 2) 1 l) (sext 32 ((seen (planeState t)).val (.v 3) 1 l) + sext 22 k) n 16 false).isOk = true) :
        ∀ l ∈ (seen (planeState t)).lanes, ∃ loc, resolveVault (planeState t) (seen (planeState t)).u l
        ((seen (planeState t)).val (.v 2) 1 l) (sext 32 ((seen (planeState t)).val (.v 3) 1 l) + sext 22 k) n 16 false = .ok loc := by
      intro l hl
      have := h l hl
      revert this
      cases resolveVault (planeState t) (seen (planeState t)).u l
        ((seen (planeState t)).val (.v 2) 1 l) (sext 32 ((seen (planeState t)).val (.v 3) 1 l) + sext 22 k) n 16 false with
      | ok x => intro _; exact ⟨x, rfl⟩
      | error e => intro h; simp [Except.isOk, Except.toBool] at h
    intro d hd
    simp only [List.mem_cons, List.not_mem_nil, or_false] at hd
    rcases hd with rfl | rfl
    · exact ⟨planeState .f32, opX 0 (.v 4) (.v 2) (.v 3), { bits := 4 * 2 ^ 8 }, seen (planeState .f32), _, issues_seen (by decide +kernel), by decide +kernel,
        by decide +kernel, rfl, by decide +kernel, by unfold Bears; decide +kernel, by unfold Bears; decide +kernel, by decide +kernel, by decide +kernel,
        by decide +kernel, loc .f32 0 _ (by decide +kernel)⟩
    · exact ⟨planeState .f64, opX 0 (.v 4) (.v 2) (.v 3), { bits := 5 * 2 ^ 8 }, seen (planeState .f64), _, issues_seen (by decide +kernel), by decide +kernel,
        by decide +kernel, rfl, by decide +kernel, by unfold Bears; decide +kernel, by unfold Bears; decide +kernel, by decide +kernel, by decide +kernel,
        by decide +kernel, loc .f64 0 _ (by decide +kernel)⟩
  · intro pair
    cases pair
    · exact ⟨engineState, opX 0 (.v 0) (.s 8) (.v 0) 127, { bits := 63 * 32 }, seen engineState, [127], issues_seen (by decide +kernel), by decide +kernel,
        by decide +kernel, by decide +kernel, by unfold BearsBase Bears; decide +kernel, by decide +kernel, by decide +kernel, by decide +kernel,
        by decide +kernel, by unfold RangeOk; decide +kernel, by unfold RangeOk; decide +kernel⟩
    · exact ⟨engineState, opX 0 (.v 0) (.s 8) (.v 0) 126, { bits := 12 }, seen engineState, [126, 127], issues_seen (by decide +kernel), by decide +kernel,
        by decide +kernel, by decide +kernel, by unfold BearsBase Bears; decide +kernel, by decide +kernel, by decide +kernel, by decide +kernel,
        by decide +kernel, by unfold RangeOk; decide +kernel, by unfold RangeOk; decide +kernel⟩

/-- The last slot and the last pair, to and from registers; every slot cleared at once. -/
theorem witness_AccumulatorMoves :
    let slots (o : Op) (x : ModX) := if x.f 44 44 = 1 then [o.imm % 128, o.imm % 128 + 1] else [o.imm % 128]
    (∀ pair : Bool, ∃ (s : State) (o : Op) (x : ModX) (c : Cx), Issues s o c ∧ o.d = .v 32 ∧ x.f 44 44 = (if pair then 1 else 0)
      ∧ c.slotsFree (slots o x) [] = .ok () ∧ ∀ k ∈ slots o x, k < c.u.aslots)
    ∧ (∀ pair : Bool, ∃ (s : State) (o : Op) (x : ModX) (c : Cx), Issues s o c ∧ o.a = .v 32 ∧ x.f 44 44 = (if pair then 1 else 0)
      ∧ c.slotsFree [] (slots o x) = .ok () ∧ (∀ k ∈ slots o x, k < c.u.aslots ∧ c.u.accTag k ≠ .tri)
      ∧ (∀ i < 32, c.g.vtag (32 + i) = c.g.vtag 32) ∧ c.g.vtag 32 = .raw)
    ∧ ∃ (s : State) (o : Op) (c : Cx), Issues s o c ∧ (let ks := (List.range (o.imm / 256 % 256)).map (o.imm % 128 + ·)
      ks.length = 128 ∧ c.slotsFree [] ks = .ok () ∧ ∀ k ∈ ks, k < c.u.aslots) := by
  refine ⟨?_, ?_, ⟨engineState, opX 0 (.v 0) (.v 0) (.v 0) (128 * 256), seen engineState, issues_seen (by decide +kernel), by decide +kernel⟩⟩
  · intro pair
    cases pair
    · exact ⟨engineState, opX 0 (.v 32) (.v 0) (.v 0) 127, { bits := 0 }, seen engineState, issues_seen (by decide +kernel), by decide +kernel⟩
    · exact ⟨engineState, opX 0 (.v 32) (.v 0) (.v 0) 126, { bits := 1024 }, seen engineState, issues_seen (by decide +kernel), by decide +kernel⟩
  · intro pair
    cases pair
    · exact ⟨engineState, opX 0 (.v 0) (.v 32) (.v 0) 127, { bits := 0 }, seen engineState, issues_seen (by decide +kernel), by decide +kernel⟩
    · exact ⟨engineState, opX 0 (.v 0) (.v 32) (.v 0) 126, { bits := 1024 }, seen engineState, issues_seen (by decide +kernel), by decide +kernel⟩

/-- The unit with a tile of order 8 or 64 in slots 0 and after, and vectors of its element type in v32 and after. -/
def tileUnit (nc : Nat) : Machine.Unit :=
  { smallUnit { engineGroup [] with st := (engineGroup []).st ++ [(16, .f32)], s := (engineGroup []).s ++ [(16, 0x3F800000)] } with
    acct := (List.range (2 * Legal.tileHalf nc false)).map fun k => (k, .tri)
    accr := [(0, recOf nc false 0)] }

def tileMachine (nc : Nat) : State := issuing (tileUnit nc)

/-- Tiles of order 8 and 64 in FP32: built from the slots behind them, updated by a vector and by a slot, solved and scaled. -/
theorem witness_FactorIssue : ∀ nc ∈ [0, 3], ∃ (s : State) (o : Op) (x : ModX) (c : Cx), Issues s o c ∧ c.u.freeAgent = some 0 ∧ x.f 44 43 = nc
    ∧ x.f 42 42 = 0 ∧ c.tagsSettled (facTile o x ++ gramSlots o x) = .ok () ∧ (∀ k ∈ facTile o x ++ gramSlots o x, k < c.u.aslots)
    ∧ (∀ k ∈ facTile o x, k ∉ gramSlots o x) ∧ (∀ k ∈ facTile o x, c.u.accTag k ∈ [Tag.raw, .f32, .f64, .tri]) ∧ c.u.hasTile o x = true
    ∧ c.tagsSettled (facTile o x) = .ok () ∧ (∀ k < (if 8 * 2 ^ x.f 44 43 = 64 then 2 else 1), Bears c (o.a.plus k) 1 [.f32])
    ∧ c.tagsSettled (facTile o x ++ sourceSlots o x) = .ok () ∧ (∀ k ∈ facTile o x ++ sourceSlots o x, k < c.u.aslots) ∧ (∀ k ∈ facTile o x, k ∉ sourceSlots o x)
    ∧ (∀ k ∈ sourceSlots o x, c.u.accTag k = .raw ∨ c.u.accTag k = .f32) ∧ Bears c o.b 1 [.f32] := by
  intro nc hnc
  simp only [List.mem_cons, List.not_mem_nil, or_false] at hnc
  rcases hnc with rfl | rfl
  · exact ⟨tileMachine 0, opX 0 (.v 0) (.v 32) (.s 16) (15 * 2 ^ 27 + 120 * 256), { bits := 0 }, seen (tileMachine 0), issues_seen (by decide +kernel), by
      unfold Bears; decide +kernel⟩
  · exact ⟨tileMachine 3, opX 0 (.v 0) (.v 32) (.s 16) (15 * 2 ^ 27 + 120 * 256), { bits := 3 * 2 ^ 9 }, seen (tileMachine 3), issues_seen (by decide +kernel), by
      unfold Bears; decide +kernel⟩

/-! ## Witnesses, copies -/

/-- A copy word on x5 and x4, or on s0, with the descriptor at s12. -/
def opC (fn : Nat) (d : Opd) (b : Opd := .s 12) (imm : Nat := 0) (a : Opd := .s 8) : Op := op fn 7 0 d a b imm

/-- What every clause of CopyIssue asks. -/
abbrev MayCopy (s : State) (o : Op) (x : ModX) : Prop :=
  let c := seen s o.grd
  (o.ok = true ∧ (view? s o.grd).isSome = true ∧ c.ex ≠ 0) ∧ c.u.freeAgent = some 0 ∧ c.u.pend.getLsbD (x.f 44 39) = false

theorem mayCopy_issue {s : State} {o : Op} {x : ModX} (h : MayCopy s o x) (hp : IsProducer (seen s o.grd)) :
    Issues s o (seen s o.grd) ∧ (seen s o.grd).u.freeAgent = some 0 ∧ IsProducer (seen s o.grd) ∧ (seen s o.grd).u.pend.getLsbD (x.f 44 39) = false :=
  ⟨issues_seen h.1, h.2.1, hp, h.2.2⟩

theorem producer_of (w : List Nat) : IsProducer (seen (engineState w)) := ⟨bootLaunch _, rfl, rfl⟩

/-- Copies of bytes and of the most rows, both compressions, a gather, a transposition, and the remote forms. -/
theorem witness_CopyIssue :
    let Base (s : State) (o : Op) (x : ModX) (c : Cx) := Issues s o c ∧ c.u.freeAgent = some 0 ∧ IsProducer c ∧ c.u.pend.getLsbD (x.f 44 39) = false
    let dv (x : ModX) := decide (x.f 38 38 = 1)
    let sv (x : ModX) := decide (x.f 37 37 = 1)
    let w (c : Cx) (o : Op) (k : Nat) := (c.reg o.b k c.l0).toNat
    let desc (c : Cx) (o : Op) := ∀ k < 4, c.regTag o.b k = .raw ∨ c.regTag o.b k = .i32
    let span (rows stride k : Nat) := if k = 0 then 0 else (rows - 1) * stride + k
    (∃ s o x c, Base s o x c ∧ BearsBase c o.d (dv x) ∧ BearsBase c o.a (sv x) ∧ o.fn = 0 ∧ c.length o = .ok 64
      ∧ RangeOk c o.a (sv x) 0 64 1 false ∧ RangeOk c o.d (dv x) 0 64 1 true)
    ∧ (∃ s o x c, Base s o x c ∧ BearsBase c o.d (dv x) ∧ BearsBase c o.a (sv x) ∧ o.fn ≠ 0 ∧ desc c o ∧ w c o 1 = 65536
      ∧ RangeOk c o.a (sv x) 0 (span (w c o 1) (w c o 2) (w c o 0)) 1 false ∧ RangeOk c o.d (dv x) 0 (span (w c o 1) (w c o 3) (w c o 0)) 1 true)
    ∧ (∀ fn ∈ [0, 1], ∃ s o x c, Base s o x c ∧ BearsBase c o.d (dv x) ∧ BearsBase c o.a (sv x) ∧ o.fn = fn ∧ x.f 36 36 = 0 ∧ desc c o ∧ w c o 0 = 1
      ∧ w c o 1 = 16 ∧ sext 32 (w c o 2) = -150 ∧ RangeOk c o.a (sv x) 0 (if o.fn = 0 then 64 else 16) 1 false ∧ RangeOk c o.d (dv x) 0 (w c o 3) 1 true)
    ∧ (∃ s o x c off, Base s o x c ∧ BearsBase c o.d true ∧ BearsBase c o.a (sv x) ∧ desc c o ∧ c.u.ownOffset (w c o 2) = some off
      ∧ w c o 0 = 64 ∧ w c o 1 = 2 ∧ w c o 3 = 0 ∧ off % 4 = 0 ∧ off + 4 * w c o 1 = c.u.vsize
      ∧ RangeOk c o.a (sv x) 0 1 1 false ∧ RangeOk c o.d true 0 (w c o 0 * w c o 1) 1 true)
    ∧ (∃ s o x c, Base s o x c ∧ BearsBase c o.d true ∧ BearsBase c o.a (sv x) ∧ desc c o ∧ x.f 36 36 = 1 ∧ w c o 0 = 4 ∧ w c o 1 = 3 ∧ w c o 2 = 8
      ∧ w c o 3 = 6 ∧ RangeOk c o.a (sv x) 0 (span (w c o 1) (w c o 2) 8) 2 false ∧ RangeOk c o.d true 0 (span (w c o 0) (w c o 3) 6) 2 true)
    ∧ (∃ s o x c, Base s o x c ∧ BearsBase c o.a (dv x) ∧ c.length o = .ok 64 ∧ RangeOk c o.a (dv x) 0 64 1 (o.fn == 0))
    ∧ (∀ r ∈ [0, 2], ∃ s o x c, Base s o x c ∧ x.f 38 37 = r ∧ BearsBase c o.a (decide (x.f 36 36 = 1)) ∧ o.imm % 4 = 3
      ∧ (let n := c.val o.b 1 c.l0
        c.length o = .ok n ∧ n % 8 = 0 ∧ RangeOk c o.a (decide (x.f 36 36 = 1)) 0 n 8 false
        ∧ if r = 2 then c.val o.d 4 c.l0 / 2 ^ 64 % 8 = 0 else BearsBase c o.d false ∧ RangeOk c o.d false 0 n 8 true))
    ∧ ∃ s o x c, Base s o x c ∧ BearsBase c o.a true ∧ o.fn = 7 ∧ (let t := tyOf (x.f 38 35)
      DataOk c o.b t ∧ DataOk c (o.b.plus t.regs) t ∧ RangeOk c o.a true 0 t.size t.size true) := by
  refine ⟨⟨engineState, opC 0 (.s 10) (.sp .z) 64, { bits := 0 }, seen engineState, mayCopy_issue (by decide +kernel) (producer_of _), by
      unfold BearsBase Bears RangeOk; decide +kernel⟩,
    ⟨engineState [64, 65536, 0, 0], opC 1 (.s 10), { bits := 0 }, seen (engineState [64, 65536, 0, 0]), mayCopy_issue (by decide +kernel) (producer_of _), by
      unfold BearsBase Bears RangeOk; decide +kernel⟩, ?_,
    ⟨engineState [64, 2, 0x7FC0FFF8, 0], opC 0 (.s 0), { bits := 0 }, seen (engineState [64, 2, 0x7FC0FFF8, 0]), 0xFFF8,
      mayCopy_issue (by decide +kernel) (producer_of _), by unfold BearsBase Bears RangeOk; decide +kernel⟩,
    ⟨engineState [4, 3, 8, 6], opC 0 (.s 0), { bits := 4 }, seen (engineState [4, 3, 8, 6]), mayCopy_issue (by decide +kernel) (producer_of _), by
      unfold BearsBase Bears RangeOk; decide +kernel⟩,
    ⟨engineState, opC 0 (.s 12) (.sp .z) 64, { bits := 0 }, seen engineState, mayCopy_issue (by decide +kernel) (producer_of _), by
      unfold BearsBase Bears RangeOk; decide +kernel⟩, ?_,
    ⟨engineState, opC 7 (.s 12) (.s 16) 0 (.s 0), { bits := 18 }, seen engineState, mayCopy_issue (by decide +kernel) (producer_of _), by
      unfold BearsBase Bears; decide +kernel, by decide +kernel, by unfold DataOk RangeOk; decide +kernel⟩⟩
  · intro fn hfn
    simp only [List.mem_cons, List.not_mem_nil, or_false] at hfn
    rcases hfn with rfl | rfl
    · exact ⟨engineState [1, 16, 0xFFFFFF6A, 256], opC 0 (.s 10), { bits := 0 }, seen (engineState [1, 16, 0xFFFFFF6A, 256]),
        mayCopy_issue (by decide +kernel) (producer_of _), by unfold BearsBase Bears RangeOk; decide +kernel⟩
    · exact ⟨engineState [1, 16, 0xFFFFFF6A, 256], opC 1 (.s 10), { bits := 0 }, seen (engineState [1, 16, 0xFFFFFF6A, 256]),
        mayCopy_issue (by decide +kernel) (producer_of _), by unfold BearsBase Bears RangeOk; decide +kernel⟩
  · intro r hr
    simp only [List.mem_cons, List.not_mem_nil, or_false] at hr
    rcases hr with rfl | rfl
    · exact ⟨engineState, opC 0 (.s 10) (.s 0) 3, { bits := 0 }, seen engineState, mayCopy_issue (by decide +kernel) (producer_of _), by
        unfold BearsBase Bears RangeOk; decide +kernel⟩
    · exact ⟨engineState, opC 0 (.s 12) (.s 0) 3, { bits := 16 }, seen engineState, mayCopy_issue (by decide +kernel) (producer_of _), by
        unfold BearsBase Bears RangeOk; decide +kernel⟩

/-- A queued copy of x4 to x5 of 64 bytes under tag 5. -/
def copyOp : Op := opC 0 (.s 10) (.sp .z) 64
def copyCmd : Cmd := { (seen engineState).newCmd (.cpy copyOp { bits := 5 * 32 }) with tag := some 5, dv := 0x30000, av := 0x20000, bv := 64 }

/-- The unit with commands on agents 0 and up, tag 5 pending, and a launch whose producer is group `p`. -/
def busyState (n p : Nat) : State :=
  let s := issuing { engineUnit [] with cmds := (List.range n).map fun k => (k, copyCmd), pend := 32 }
  { s with launches := s.launches.map fun l => { l with producer := p } }

/-- Every agent taken; a group that is not the producer; and for each word with a tag, that tag pending. -/
theorem witness_CopyRefused :
    let Busy (s : State) (o : Op) (c : Cx) (t : Nat) := Issues s o c ∧ c.u.freeAgent = some 1 ∧ IsProducer c ∧ c.u.pend.getLsbD t = true
    let desc (c : Cx) (o : Op) := ∀ k < 4, c.regTag o.b k = .raw ∨ c.regTag o.b k = .i32
    let src (x : ModX) := decide (x.f 37 37 = 1)
    (∃ (s : State) (o : Op) (c : Cx), Issues s o c ∧ c.u.freeAgent = none)
    ∧ (∃ (s : State) (o : Op) (c : Cx) (agent : Nat) (l : Launch), Issues s o c ∧ c.u.freeAgent = some agent ∧ c.launch? = some l ∧ l.producer ≠ c.g.gid)
    ∧ (∃ s o c, ∃ x : ModX, Busy s o c (x.f 44 39) ∧ BearsBase c o.a (decide (x.f 38 38 = 1)) ∧ c.length o = .ok 64)
    ∧ (∀ fn : Bool, ∃ s o c, ∃ x : ModX, Busy s o c (x.f 44 39) ∧ BearsBase c o.d (decide (x.f 38 38 = 1)) ∧ BearsBase c o.a (src x)
      ∧ if fn then o.fn = 1 ∧ desc c o else o.fn = 0 ∧ c.length o = .ok 64)
    ∧ (∃ s o c, ∃ x : ModX, Busy s o c (x.f 44 39) ∧ BearsBase c o.d true ∧ BearsBase c o.a (src x) ∧ desc c o)
    ∧ (∀ r ∈ [0, 2], ∃ s o c, ∃ x : ModX, Busy s o c (x.f 44 39) ∧ x.f 38 37 = r ∧ (r = 0 → BearsBase c o.d false)
      ∧ BearsBase c o.a (decide (x.f 36 36 = 1)) ∧ c.length o = .ok 64)
    ∧ (∃ s o c, ∃ x : ModX, Busy s o c (x.f 44 39) ∧ BearsBase c o.a true ∧ o.fn = 7
      ∧ (let t := tyOf (x.f 38 35); DataOk c o.b t ∧ DataOk c (o.b.plus t.regs) t))
    ∧ (∃ s o c, ∃ x : ModX, Busy s o c (x.f 39 34) ∧ BearsBase c o.a (decide (x.f 40 40 = 1)))
    ∧ ∃ s o c, ∃ x : ModX, Busy s o c (x.f 44 39) ∧ BearsBase c o.a (decide (x.f 38 38 = 1))
      ∧ (let slots := if x.f 37 36 = 3 then [o.imm % 128, o.imm % 128 + 1] else [o.imm % 128]
        slots = [126, 127] ∧ c.tagsSettled slots = .ok () ∧ ∀ k ∈ slots, c.u.accTag k ≠ .tri) := by
  have busy {o : Op} {t : Nat} (h : (o.ok = true ∧ (view? (busyState 1 0) o.grd).isSome = true ∧ (seen (busyState 1 0) o.grd).ex ≠ 0)
      ∧ (seen (busyState 1 0) o.grd).u.freeAgent = some 1 ∧ (seen (busyState 1 0) o.grd).u.pend.getLsbD t = true)
      (hp : IsProducer (seen (busyState 1 0) o.grd)) :
      Issues (busyState 1 0) o (seen (busyState 1 0) o.grd) ∧ (seen (busyState 1 0) o.grd).u.freeAgent = some 1
        ∧ IsProducer (seen (busyState 1 0) o.grd) ∧ (seen (busyState 1 0) o.grd).u.pend.getLsbD t = true :=
    ⟨issues_seen h.1, h.2.1, hp, h.2.2⟩
  refine ⟨⟨busyState 32 0, copyOp, seen (busyState 32 0), issues_seen (by decide +kernel), by decide +kernel⟩,
    ⟨busyState 1 3, copyOp, seen (busyState 1 3), 1, _, issues_seen (by decide +kernel), by decide +kernel, rfl, by decide +kernel⟩,
    ⟨busyState 1 0, copyOp, seen (busyState 1 0), { bits := 5 * 32 }, busy (by decide +kernel) ⟨_, rfl, rfl⟩, by unfold BearsBase Bears; decide +kernel⟩, ?_,
    ⟨busyState 1 0, opC 0 (.s 0), seen (busyState 1 0), { bits := 5 * 32 }, busy (by decide +kernel) ⟨_, rfl, rfl⟩, by
      unfold BearsBase Bears; decide +kernel⟩, ?_,
    ⟨busyState 1 0, opC 7 (.s 12) (.s 16) 0 (.s 0), seen (busyState 1 0), { bits := 5 * 32 + 18 }, busy (by decide +kernel) ⟨_, rfl, rfl⟩, by
      unfold BearsBase Bears; decide +kernel, by unfold DataOk; decide +kernel⟩,
    ⟨busyState 1 0, opX 0 (.v 0) (.s 8), seen (busyState 1 0), { bits := 5 }, busy (by decide +kernel) ⟨_, rfl, rfl⟩, by
      unfold BearsBase Bears; decide +kernel⟩,
    ⟨busyState 1 0, opX 0 (.v 0) (.s 8) (.v 0) 126, seen (busyState 1 0), { bits := 5 * 32 + 12 }, busy (by decide +kernel) ⟨_, rfl, rfl⟩, by
      unfold BearsBase Bears; decide +kernel⟩⟩
  · intro fn
    cases fn
    · exact ⟨busyState 1 0, copyOp, seen (busyState 1 0), { bits := 5 * 32 }, busy (by decide +kernel) ⟨_, rfl, rfl⟩, by
        unfold BearsBase Bears; decide +kernel⟩
    · exact ⟨busyState 1 0, opC 1 (.s 10), seen (busyState 1 0), { bits := 5 * 32 }, busy (by decide +kernel) ⟨_, rfl, rfl⟩, by
        unfold BearsBase Bears; decide +kernel⟩
  · intro r hr
    simp only [List.mem_cons, List.not_mem_nil, or_false] at hr
    rcases hr with rfl | rfl
    · exact ⟨busyState 1 0, copyOp, seen (busyState 1 0), { bits := 5 * 32 }, busy (by decide +kernel) ⟨_, rfl, rfl⟩, by
        unfold BearsBase Bears; decide +kernel⟩
    · exact ⟨busyState 1 0, opC 0 (.s 12) (.sp .z) 64, seen (busyState 1 0), { bits := 5 * 32 + 16 }, busy (by decide +kernel) ⟨_, rfl, rfl⟩, by
        unfold BearsBase Bears; decide +kernel⟩

/-! ## Witnesses, interrupts and the system -/

/-- A group with an endpoint address in x4, in a launch whose broadcast endpoint is bound, with pending vectors `pend`. -/
def handlerState (pend : DWord) (inh : Bool := false) (n : Nat := 0) : State :=
  let g := { crowded n inh with s := [(8, 0x20000)], st := [(8, .i64), (9, .i64)] }
  let s := issuing { smallUnit g with ui := { IntState.start with pend := pend } }
  { s with launches := s.launches.map fun l => { l with bound := true, ctl := BitVec.ofNat 64 (2 ^ 61) } }

/-- The same where the launch has an anchor unit, this one, and vector 63 is pending in its endpoint block at 0x20100. -/
def anchorState : State :=
  let s := handlerState 0
  { s with
    launches := s.launches.map fun l => { l with ctl := 0, endpoint := 0x20100, payva := 0x20800 }
    hbm := Sparse.set 0 s.hbm 0x20127 (0x80 : Byte) }

/-- Raises of vectors 0 and 63, with and without .trap; a handler with nothing pending, with vectors 0 and 63, and at its return. -/
theorem witness_InterruptInstructions :
    (∀ v ∈ [0, 63], ∀ trap : Bool, ∃ (s : State) (o : Op) (c : Cx) (pay ea : Nat), Issues s o c ∧ c.raiseArgs o = .ok (v, pay, ea)
      ∧ o.fn = (if trap then 1 else 0))
    ∧ (∀ pend ∈ [0, 0x8000000000000001], ∃ (s : State) (o : Op) (c : Cx) (l : Launch), Issues s o c ∧ c.launch? = some l ∧ l.handler = c.g.gid
      ∧ o.d = .s 16 ∧ pendOf s c.u &&& ~~~c.u.uimask = pend ∧ l.bcast = true ∧ l.bound = true
      ∧ (pend ≠ 0 → (pendOf s c.u &&& ~~~c.u.uimask).getLsbD 63 = true ∧ ∀ k, 63 < k → (pendOf s c.u &&& ~~~c.u.uimask).getLsbD k = false))
    ∧ (∃ (s : State) (o : Op) (c : Cx) (l : Launch), Issues s o c ∧ c.launch? = some l ∧ l.handler = c.g.gid ∧ o.d = .s 16
      ∧ l.bcast = false ∧ isAnchor l c.u = true ∧ (pendOf s c.u &&& ~~~c.u.uimask).getLsbD 63 = true
      ∧ ∀ k, 63 < k → (pendOf s c.u &&& ~~~c.u.uimask).getLsbD k = false)
    ∧ (∃ (s : State) (o : Op) (c : Cx) (l : Launch), Issues s o c ∧ c.launch? = some l ∧ l.handler = c.g.gid ∧ c.g.inh = true
      ∧ (c.rejoinEnts (presentLanes c.g.ents)).length = 8)
    ∧ ∃ (s : State) (o : Op) (c : Cx) (l : Launch), Issues s o c ∧ c.launch? = some l ∧ l.handler = c.g.gid ∧ c.g.inh = false := by
  refine ⟨?_, ?_, ⟨anchorState, opX 0 (.s 16), seen anchorState, _, issues_seen (by decide +kernel), rfl, rfl, rfl, rfl, by decide +kernel,
      by decide +kernel, fun k hk => BitVec.getLsbD_of_ge _ k hk⟩, ⟨handlerState 0 true 7, opX, seen (handlerState 0 true 7), _, issues_seen (by decide +kernel), rfl, rfl, by decide +kernel⟩,
    ⟨handlerState 0, opX, seen (handlerState 0), _, issues_seen (by decide +kernel), rfl, rfl, by decide +kernel⟩⟩
  · intro v hv trap
    simp only [List.mem_cons, List.not_mem_nil, or_false] at hv
    rcases hv with rfl | rfl
    · exact ⟨handlerState 0, opX (if trap then 1 else 0) (.s 16) (.s 8) (.sp .z) 0, seen (handlerState 0), 0, 0x20000,
        by cases trap <;> exact issues_seen (by decide +kernel), by cases trap <;> decide +kernel, rfl⟩
    · exact ⟨handlerState 0, opX (if trap then 1 else 0) (.s 16) (.s 8) (.sp .z) 63, seen (handlerState 0), 0, 0x20000,
        by cases trap <;> exact issues_seen (by decide +kernel), by cases trap <;> decide +kernel, rfl⟩
  · intro pend hp
    simp only [List.mem_cons, List.not_mem_nil, or_false] at hp
    rcases hp with rfl | rfl
    · exact ⟨handlerState 0, opX 0 (.s 16), seen (handlerState 0), _, issues_seen (by decide +kernel), rfl, rfl, rfl, by decide +kernel, by decide +kernel,
        rfl, fun h => absurd rfl h⟩
    · exact ⟨handlerState 0x8000000000000001, opX 0 (.s 16), seen (handlerState 0x8000000000000001), _, issues_seen (by decide +kernel), rfl, rfl, rfl,
        by decide +kernel, by decide +kernel, rfl, fun _ => ⟨by decide +kernel, fun k hk => BitVec.getLsbD_of_ge _ k hk⟩⟩

theorem witness_HandlerOnly : ∃ (s : State) (o : Op) (c : Cx) (l : Launch), Issues s o c ∧ c.launch? = some l ∧ l.handler ≠ c.g.gid := by
  let s : State := { withGroup smallGroup with launches := (withGroup smallGroup).launches.map fun l => { l with handler := 2 } }
  exact ⟨s, opX, seen s, _, issues_seen (by decide +kernel), rfl, by decide +kernel⟩

/-- The supervisor's unit of core 0, whose group issues. -/
def superGroup : Group := { smallGroup with slot := 63 }
def superTestUnit : Machine.Unit := { smallUnit superGroup with key := superKey 0 }

/-- That unit beside the user's unit `u`, with mailbox entry 0 of a kind for slot 0. -/
def superState (kind : Nat) (u : Machine.Unit) (order : List Nat := [0]) : State :=
  { placed u with
    units := [u, superTestUnit], cur := some { u := superKey 0, gid := 0, ent := 0, word := 0 },
    cores := [(0, { Core.start with mbox := Sparse.setList 0 [] 0 (bytesOfNat 4 (1 + kind * 2 ^ 8)), morder := order })] }

/-- Every number on both sides of a boundary, in a user group; a supervisor with a group to service. -/
theorem witness_SpecialRegisters :
    (∀ n ∈ [0, 3, 4, 5, 9, 10, 16], ∃ (s : State) (o : Op) (c : Cx), Issues s o c ∧ isSuper c.u.key = false ∧ o.imm % 256 = n
      ∧ c.regTag o.a 0 = c.regTag o.a 1 ∧ c.regTag o.a 0 ≠ .ptr)
    ∧ ∀ n ∈ [5, 6, 8, 9], ∃ (s : State) (o : Op) (c : Cx) (slot : Nat) (u : Machine.Unit) (g : Group), Issues s o c ∧ isSuper c.u.key = true
      ∧ servicedSlot? s c.u.core = some slot ∧ slotGroup? s c.u.core slot = some (u, g) ∧ s.unit? u.key = some u ∧ u.grp? g.gid = some g
      ∧ u.key ≠ c.u.key ∧ o.imm % 256 = n ∧ c.regTag o.a 0 = c.regTag o.a 1 ∧ c.regTag o.a 0 ≠ .ptr := by
  refine ⟨?_, ?_⟩
  · intro n hn
    have : n < 17 := by simp only [List.mem_cons, List.not_mem_nil, or_false] at hn; omega
    refine ⟨withGroup smallGroup, opX 0 (.s 16) (.s 18) (.v 0) n, seen (withGroup smallGroup), issues_seen ⟨?_, ?_, ?_⟩, ?_, ?_, ?_⟩
    · revert n; decide
    · revert n; decide +kernel
    · revert n; decide +kernel
    · decide +kernel
    · simp [opX, op]; omega
    · revert n; decide +kernel
  · intro n hn
    have : n < 17 := by simp only [List.mem_cons, List.not_mem_nil, or_false] at hn; omega
    refine ⟨superState 1 (smallUnit smallGroup), opX 0 (.s 16) (.s 18) (.v 0) n, seen (superState 1 (smallUnit smallGroup)), 0, smallUnit smallGroup, smallGroup,
      issues_seen ⟨?_, ?_, ?_⟩, ?_, ?_, ?_, ?_, ?_, ?_, ?_, ?_⟩
    · revert n; decide
    · revert n; decide +kernel
    · revert n; decide +kernel
    · decide +kernel
    · decide +kernel
    · decide +kernel
    · decide +kernel
    · decide +kernel
    · decide +kernel
    · simp [opX, op]; omega
    · revert n; decide +kernel

/-- Reservations of 1, 16, 0 and 17 words; a cancellation; a call with a free entry and with none. -/
theorem witness_SystemInstructions :
    (∀ n ∈ [0, 1, 16, 17], ∃ (s : State) (o : Op) (c : Cx), Issues s o c ∧ o.fn = 0 ∧ o.imm % 256 = n) ∧ (∃ (s : State) (o : Op) (c : Cx), Issues s o c ∧ o.fn ≠ 0)
    ∧ (∃ (s : State) (o : Op) (c : Cx), Issues s o c ∧ c.launch? = none) ∧ (∃ (s : State) (o : Op) (c : Cx) (l : Launch), Issues s o c
      ∧ c.launch? = some l ∧ l.live = true ∧ o.fn = 0 ∧ ∀ u ∈ s.units, u.key = c.u.key → u.unrestored = false)
    ∧ ∀ full : Bool, ∃ (s : State) (o : Op) (c : Cx) (p : Place), Issues s o c ∧ Drained s c ∧ BearsBase c o.a false
      ∧ Lands c o.a false (fun _ => 0) 64 64 {} true [c.l0] (fun _ => p) ∧ p.sp < 4
      ∧ if full then mailFree? (s.core c.u.core) = none else mailFree? (s.core c.u.core) = some 0 := by
  let call : Group := { smallGroup with s := [(8, 0x1FFFC0)], st := [(8, .i64), (9, .i64)] }
  let full : State := { withGroup call with cores := [(0, { Core.start with mbox := (List.range 16).map fun i => (128 * i, 1) })] }
  refine ⟨?_, ⟨withGroup smallGroup, opX 1, seen (withGroup smallGroup), issues_seen (by decide +kernel), by decide⟩,
    ⟨{ withGroup smallGroup with launches := [] }, opX, seen { withGroup smallGroup with launches := [] }, issues_seen (by decide +kernel), by decide +kernel⟩,
    ⟨withGroup smallGroup, opX, seen (withGroup smallGroup), _, issues_seen (by decide +kernel), rfl, rfl, rfl, by decide +kernel⟩, ?_⟩
  · intro n hn
    have : n < 18 := by simp only [List.mem_cons, List.not_mem_nil, or_false] at hn; omega
    refine ⟨withGroup smallGroup, opX 0 (.v 0) (.v 0) (.v 0) n, seen (withGroup smallGroup), issues_seen ⟨?_, ?_, ?_⟩, rfl, ?_⟩
    · revert n; decide
    · revert n; decide +kernel
    · revert n; decide +kernel
    · simp [opX, op]; omega
  · have land (s : State) (h0 : (seen s).l0 = 0) (h : (placeOf? (seen s) (.s 8) false 0 64 64 {} true 0).isSome = true) :
        Lands (seen s) (.s 8) false (fun _ => 0) 64 64 {} true [(seen s).l0] (fun _ => placeAt (seen s) (.s 8) false (fun _ => 0) 64 64 {} true 0) := by
      rw [h0]
      intro l hl
      obtain ⟨sp, h1⟩ := lands_at (c := seen s) (base := .s 8) (vault := false) (off := fun _ => 0) (n := 64) (align := 64) (att := {}) (reads := true)
        (ls := [0]) (by simpa using h) l hl
      simp only [List.mem_singleton] at hl
      subst hl
      exact ⟨sp, h1⟩
    intro b
    cases b
    · exact ⟨withGroup call, opX 0 (.v 0) (.s 8), seen (withGroup call), _, issues_seen (by decide +kernel), by unfold Drained; decide +kernel, by
        unfold BearsBase Bears; decide +kernel, land _ (by decide +kernel) (by decide +kernel), by decide +kernel, by decide +kernel⟩
    · exact ⟨full, opX 0 (.v 0) (.s 8), seen full, _, issues_seen (by decide +kernel), by unfold Drained; decide +kernel, by
        unfold BearsBase Bears; decide +kernel, land _ (by decide +kernel) (by decide +kernel), by decide +kernel, by decide +kernel⟩

/-- A running group with and without a free entry in its core's mailbox, alone in its drawer's cycle; one whose drawer's second group is still
to issue; one that is that second group, with a full mailbox; siblings that run and that wait. -/
theorem witness_TakingAFault :
    (∀ full : Bool, ∃ (s : State) (k : UKey) (u : Machine.Unit) (g : Group) (t : Trap), s.unit? k = some u ∧ u.grp? g.gid = some g ∧ isSuper k = false
      ∧ g.run = .running ∧ g.frcnt.toNat % 16 = 0 ∧ t.epc = none
      ∧ ((s.core u.core).hold.find? fun x => x / 16 == g.slot / 16) = none ∧ (∀ x ∈ (s.core u.core).picked, x.1 ≠ g.slot / 16)
      ∧ if full then mailFree? (s.core u.core) = none else mailFree? (s.core u.core) = some 0)
    ∧ (∀ second : Bool, ∃ (s : State) (k : UKey) (u : Machine.Unit) (g : Group), s.unit? k = some u ∧ u.grp? g.gid = some g ∧ isSuper k = false
      ∧ g.run = .running ∧ g.frcnt.toNat % 16 = 0
      ∧ if second then ((s.core u.core).hold.find? fun x => x / 16 == g.slot / 16) = some 3 ∧ mailFree? (s.core u.core) = none
        else ((s.core u.core).hold.find? fun x => x / 16 == g.slot / 16) = none ∧ ∃ x ∈ (s.core u.core).picked, x.1 = g.slot / 16)
    ∧ ∀ waits : Bool, ∃ (s : State) (k : UKey) (u : Machine.Unit) (g : Group), s.unit? k = some u ∧ u.grp? g.gid = some g ∧ u.ending = none
      ∧ g.run = .running
      ∧ if waits then g.ents.all (fun e => e.rjw || e.wait != .none) = true else g.ents.any (fun e => !e.rjw && e.wait == .none) = true := by
  let full : State := { withGroup smallGroup with cores := [(0, { Core.start with mbox := (List.range 16).map fun i => (128 * i, 1) })] }
  let w : Group := { smallGroup with ents := smallGroup.ents.map fun e => { e with wait := .waitv } }
  let core (s : State) (f : Core → Core) : State := { s with cores := [(0, f (s.core 0))] }
  refine ⟨?_, ?_, ?_⟩
  · intro b
    cases b
    · exact ⟨withGroup smallGroup, bootUnit.key, smallUnit smallGroup, smallGroup, { code := 3 }, by decide +kernel⟩
    · exact ⟨full, bootUnit.key, smallUnit smallGroup, smallGroup, { code := 3 }, by decide +kernel⟩
  · intro b
    cases b
    · exact ⟨core (withGroup smallGroup) fun m => { m with picked := [(0, bootUnit.key, 1)] }, bootUnit.key, smallUnit smallGroup, smallGroup, by decide +kernel⟩
    · exact ⟨core full fun m => { m with hold := [3] }, bootUnit.key, smallUnit smallGroup, smallGroup, by decide +kernel⟩
  · intro b
    cases b
    · exact ⟨withGroup smallGroup, bootUnit.key, smallUnit smallGroup, smallGroup, by decide +kernel⟩
    · exact ⟨withGroup w, bootUnit.key, smallUnit w, w, by decide +kernel⟩

/-- A user group; a supervisor without an entry; a caller that runs and one that has been stopped; and the only fault of a halted unit. -/
theorem witness_SupervisorReturn :
    let entry (s : State) (c : Cx) (o : Op) := (s.core c.u.core).morder.find? fun i =>
      mailKind (s.core c.u.core) i != 3 && mailSlot (s.core c.u.core) i == o.imm % 64
    (∃ (s : State) (o : Op) (c : Cx), Issues s o c ∧ isSuper c.u.key = false)
    ∧ (∃ (s : State) (o : Op) (c : Cx), Issues s o c ∧ isSuper c.u.key = true ∧ entry s c o = none)
    ∧ ∀ x ∈ [(1, Run.stopped), (2, .running), (2, .stopped)], ∃ (s : State) (o : Op) (c : Cx) (i : Nat) (u : Machine.Unit) (g : Group), Issues s o c ∧ isSuper c.u.key = true ∧ entry s c o = some i
      ∧ o.imm % 64 ≠ 63 ∧ slotGroup? s c.u.core (o.imm % 64) = some (u, g) ∧ s.unit? u.key = some u ∧ u.grp? g.gid = some g ∧ u.key ≠ c.u.key
      ∧ o.fn = 0 ∧ (s.core c.u.core).mwait = [] ∧ (s.core c.u.core).reports = [] ∧ mailKind (s.core c.u.core) i = x.1
      ∧ g.run = x.2 ∧ if x.1 = 2 then g.fblk = none
        else u.halted = true ∧ u.ending = none ∧ (∀ h ∈ u.grps, h.live = true → h.gid ≠ g.gid → h.fault = false)
          ∧ ∀ h ∈ u.grps, h.live = true → h.fblk = none ∧ h.frcnt.toNat % 16 = 0 := by
  let down : Machine.Unit := { smallUnit { smallGroup with run := .stopped, fault := true } with halted := true }
  let none' := superState 1 (smallUnit smallGroup) []
  let calls := superState 2 (smallUnit smallGroup)
  let faults := superState 1 down
  refine ⟨⟨withGroup smallGroup, opX, seen (withGroup smallGroup), issues_seen (by decide +kernel), by decide +kernel⟩,
    ⟨none', opX, seen none', issues_seen (by decide +kernel), by decide +kernel⟩, ?_⟩
  intro x hx
  simp only [List.mem_cons, List.not_mem_nil, or_false] at hx
  rcases hx with rfl | rfl | rfl
  · exact ⟨faults, opX, seen faults, 0, down, { smallGroup with run := .stopped, fault := true }, issues_seen (by decide +kernel), by decide +kernel⟩
  · exact ⟨calls, opX, seen calls, 0, smallUnit smallGroup, smallGroup, issues_seen (by decide +kernel), by decide +kernel⟩
  · let late : Group := { smallGroup with run := .stopped, cont := some 0x100000 }
    exact ⟨superState 2 (smallUnit late), opX, seen (superState 2 (smallUnit late)), 0, smallUnit late, late, issues_seen (by decide +kernel), by decide +kernel⟩

/-! ## Witnesses, steps of groups and units -/

def someFault : StoreFault := { va := 0, pc := 0, code := 6, data := 0, mask := 1, gid := 0, lg := 2, estat := 0 }

/-- The group with one entry that waits at a rejoin of its own lanes, in a handler or not. -/
def joined (inh : Bool) : Group :=
  { smallGroup with
    ents := [{ Entry.new (BitVec.ofNat 64 bootPc) 128 3 with rjw := true, rjmask := 3 }]
    inh := inh, park := if inh then some { ents := smallGroup.ents, liven := 16, d := 0 } else none }

/-- The machine with a word at the program counter. -/
def atWord (w : Nat) (u : Machine.Unit) : State := { State.reset.withFetchWord 96 w with units := [u] }

def waitWord : Nat := 0x905783C1 * 2 ^ 64 + 0x380002B0 * 2 ^ 32 + 0x40
def waitOp : Op := op 5 7 0 (.s 7) (.s 4) (.sp .z) 0x40
def tileWord : Nat := 0x9A170842 * 2 ^ 64 + 0x21800730 * 2 ^ 32
def waitMod : ModM := { ty := .i32, ord := 1, scope := 3, space := 0 }

/-- The group with an entry that waits on memory at 0x20040 to be at least `n` in s7. -/
def waiter (n : Nat := 0) : Group :=
  { smallGroup with s := if n = 0 then [(4, 0x20000)] else [(4, 0x20000), (7, BitVec.ofNat 32 n)], st := [(4, .i64), (5, .i64), (7, .i32)], ents := [{ Entry.new (BitVec.ofNat 64 bootPc) 128 3 with wait := .waitv }] }

/-- A launch whose handler is entered, with a vector pending. -/
def divertible : State :=
  let s := issuing { smallUnit smallGroup with ui := { IntState.start with pend := 1 } }
  { s with launches := s.launches.map fun l => { l with bound := true, ctl := BitVec.ofNat 64 (3 * 2 ^ 61) } }

/-- What a reading again asks: one entry of the group waits on memory, at the word `w`. -/
abbrev Rereads (s : State) (k : UKey) (u : Machine.Unit) (g : Group) (e : Entry) (i w : Nat) : Prop :=
  At s k u g ∧ u.vacating = false ∧ g.scall = false ∧ g.run ≠ .stopped ∧ memoryWaits g = [(e.pc, e.prio)]
  ∧ (g.ents.findIdx? fun x => x.pc == e.pc && x.prio == e.prio && (x.wait == .waitv || x.wait == .version)) = some i ∧ g.ents[i]? = some e
  ∧ fetchWord s u e.pc 3 = .ok w

/-- Records 0 and 7; a skid that has just begun and one that has run out; rejoins; a reading again; and an entry. -/
theorem witness_GroupSteps :
    (∀ i ∈ [0, 7], ∃ (s : State) (k : UKey) (u : Machine.Unit) (g : Group), At s k u g ∧ (∀ x ∈ u.sfq, x.1 ≠ i) ∧ ∀ j < i, ∃ x ∈ u.sfq, x.1 = j)
    ∧ (∀ n ∈ [0, 16], ∃ (s : State) (k : UKey) (u : Machine.Unit) (g : Group), At s k u g ∧ g.run = .skid n 5 ∧ u.ending = none)
    ∧ (∀ b : Bool, ∃ (s : State) (k : UKey) (u : Machine.Unit) (g : Group) (e : Entry), At s k u g ∧ g.run ≠ .stopped ∧ u.vacating = false
      ∧ (g.ents.find? fun e => e.rejoinDone g.ents) = some e ∧ uiretDone s u g e = b)
    ∧ (∃ (s : State) (k : UKey) (u : Machine.Unit) (g : Group), At s k u g ∧ memoryWaits g = [])
    ∧ (∀ b : Bool, ∃ (s : State) (k : UKey) (u : Machine.Unit) (g : Group) (e : Entry) (i w : Nat) (o : Op) (m : ModM) (c : Cx) (p : Nat → Place),
      Rereads s k u g e i w ∧ decode g.grant (isDet s u) w = .ok (.waitv o m)
      ∧ (let s' : State := { s with cur := some { u := k, gid := g.gid, ent := i, word := w } }
        Issues s' o c ∧ WaitvReads o m c p 0 ∧ c.lanes ≠ [] ∧ ∀ l ∈ c.lanes, waitvHolds o m c p l = b))
    ∧ (∃ (s : State) (k : UKey) (u : Machine.Unit) (g : Group) (e : Entry) (i w : Nat) (o : Op) (m : ModM) (t : State), Rereads s k u g e i w
      ∧ decode g.grant (isDet s u) w = .ok (.tstAll o m)
      ∧ exec (.tstAll o m) { s with cur := some { u := k, gid := g.gid, ent := i, word := w } } = .next t)
    ∧ ∃ (s : State) (k : UKey) (u : Machine.Unit) (g : Group) (l : Launch) (d : Entry) (rest : List Entry), At s k u g ∧ launchOf s u = some l
      ∧ (u.grps.find? fun g => entryDue s u g) = some g ∧ ranked g.ents = d :: rest := by
  have here (u : Machine.Unit) (g : Group) (h : (placed u).unit? bootUnit.key = some u ∧ u.grp? g.gid = some g) : At (placed u) bootUnit.key u g := h
  refine ⟨?_, ?_, ?_, ?_, ?_, ?_, ⟨divertible, bootUnit.key, { smallUnit smallGroup with ui := { IntState.start with pend := 1 } }, smallGroup, _,
    .new (BitVec.ofNat 64 bootPc) 128 3, [], by unfold At; decide +kernel, rfl, by decide +kernel, by decide +kernel⟩⟩
  · intro i hi
    simp only [List.mem_cons, List.not_mem_nil, or_false] at hi
    rcases hi with rfl | rfl
    · exact ⟨_, _, smallUnit smallGroup, smallGroup, here _ _ (by decide +kernel), by decide +kernel⟩
    · exact ⟨_, _, { smallUnit smallGroup with sfq := (List.range 7).map fun j => (j, someFault) }, smallGroup, here _ _ (by decide +kernel), by decide +kernel⟩
  · intro n hn
    simp only [List.mem_cons, List.not_mem_nil, or_false] at hn
    rcases hn with rfl | rfl
    · exact ⟨_, _, smallUnit { smallGroup with run := .skid 0 5 }, { smallGroup with run := .skid 0 5 }, here _ _ (by decide +kernel), by decide +kernel⟩
    · exact ⟨_, _, smallUnit { smallGroup with run := .skid 16 5 }, { smallGroup with run := .skid 16 5 }, here _ _ (by decide +kernel), by decide +kernel⟩
  · intro b
    cases b
    · exact ⟨_, _, smallUnit (joined false), joined false, { Entry.new (BitVec.ofNat 64 bootPc) 128 3 with rjw := true, rjmask := 3 },
        here _ _ (by decide +kernel), by decide +kernel⟩
    · exact ⟨atWord (0xEE070000 * 2 ^ 64) (smallUnit (joined true)), bootUnit.key, smallUnit (joined true), joined true,
        { Entry.new (BitVec.ofNat 64 bootPc) 128 3 with rjw := true, rjmask := 3 }, by unfold At; decide +kernel, by decide +kernel⟩
  · exact ⟨_, _, smallUnit smallGroup, smallGroup, here _ _ (by decide +kernel), by decide +kernel⟩
  · intro b
    let g := waiter (if b then 0 else 1)
    let s' : State := { atWord waitWord (smallUnit g) with cur := some { u := bootUnit.key, gid := 0, ent := 0, word := waitWord } }
    refine ⟨atWord waitWord (smallUnit g), bootUnit.key, smallUnit g, g, { Entry.new (BitVec.ofNat 64 bootPc) 128 3 with wait := .waitv }, 0, waitWord,
      waitOp, waitMod, seen s', _, ?_, by cases b <;> decide +kernel, by cases b <;> exact issues_seen (by decide +kernel),
      ⟨by cases b <;> (unfold BearsBase Bears; decide +kernel), by cases b <;> (unfold Bears; decide +kernel), by cases b <;> (unfold Bears; decide +kernel),
        by cases b <;> decide +kernel, lands_at (by cases b <;> decide +kernel)⟩, by cases b <;> decide +kernel, by cases b <;> decide +kernel⟩
    cases b <;> (unfold Rereads At; decide +kernel)
  · let g : Group := { waiter with s := [(8, 0x20000), (12, 0x30000)], st := [(8, .i64), (9, .i64), (12, .i64), (13, .i64)]
                                   ents := [{ Entry.new (BitVec.ofNat 64 bootPc) 128 3 with wait := .version }] }
    let o : Op := op 1 7 0 (.v 16) (.s 8) (.s 12) 0
    let m : ModM := { ty := .f32, ord := 2, scope := 3, space := 0 }
    have h : (nextOf (exec (.tstAll o m) { atWord tileWord (smallUnit g) with
        cur := some { u := bootUnit.key, gid := 0, ent := 0, word := tileWord } })).isSome = true := by decide +kernel
    obtain ⟨t, ht⟩ := Option.isSome_iff_exists.mp h
    exact ⟨atWord tileWord (smallUnit g), bootUnit.key, smallUnit g, g, { Entry.new (BitVec.ofNat 64 bootPc) 128 3 with wait := .version }, 0, tileWord, o, m, t,
      by unfold Rereads At; decide +kernel, by decide +kernel, next_of_nextOf ht⟩

/-- A record that joins alone, as no group is left; a group without lanes; and a unit without anything, whose launch goes on;
such a unit that is its launch's last, where the launch has a signal and a level with one member more, and none; and a stopped unit of a
cancelled launch. -/
theorem witness_UnitSteps :
    (∃ (s : State) (k : UKey) (u : Machine.Unit) (key : DWord × Nat × Nat × List Tag) (gid slot : Nat) (l : Launch), s.unit? k = some u
      ∧ buildable s u = some (key, gid, slot) ∧ launchOf s u = some l)
    ∧ (∃ (s : State) (k : UKey) (u : Machine.Unit) (g : Group), s.unit? k = some u ∧ u.grp? g.gid = some g ∧ g.ents = []
      ∧ u.cmds ≠ [] ∧ ∀ m ∈ u.cmds, m.2.gid = g.gid → m.2.vregs = [])
    ∧ (∃ (s : State) (k : UKey) (u : Machine.Unit) (l : Launch), s.unit? k = some u ∧ isSuper k = false ∧ u.vacating = false ∧ unitDone u = true
      ∧ s.launch? k.fn k.lid = some l ∧ l.state = .active ∧ l.counter = 2)
    ∧ (∀ n ∈ [1, 2], ∃ (s : State) (k : UKey) (u : Machine.Unit) (l : Launch) (p : Level) (c : Ctx) (a : Nat), s.unit? k = some u ∧ isSuper k = false
      ∧ u.vacating = false ∧ unitDone u = true ∧ s.launch? k.fn k.lid = some l ∧ l.state = .active ∧ l.counter = 1 ∧ (∀ x ∈ unitsOf s l, x.key = k)
      ∧ s.level? l.fn l.lowest.1 l.lowest.2 = some p ∧ p.counter = n ∧ s.ctx? u.ctx = some c ∧ c.hist = [] ∧ s.ctx? l.ctx = some c ∧ l.signal ≠ 0
      ∧ (sysLand s c l.signal 8 true).toOption = some (0, a) ∧ s.spoilt 0 a 8 = false)
    ∧ ∃ (s : State) (k : UKey) (u : Machine.Unit) (l : Launch), s.unit? k = some u ∧ isSuper k = false ∧ u.vacating = false ∧ u.stopped = true
      ∧ s.launch? k.fn k.lid = some l ∧ l.live = false ∧ l.owes = true ∧ ∀ x ∈ unitsOf s l, x.key = k := by
  let empty : Machine.Unit := { smallUnit smallGroup with grps := [] }
  let going : Machine.Unit := { smallUnit { smallGroup with ents := [] } with cmds := [(0, copyCmd)] }
  let r : OffRec := { pc := 0x100000, prio := 1, tid := 5, preds := 0, n := 0, vals := [], tags := [], age := 0, clock := [] }
  let level (n : Nat) : Level :=
    { fn := 1, kind := 3, id := 5, m := 2, got := 2, counter := n, signal := 0, ctx := 1, parent := 0, failed := false, cancelled := false }
  let last (n : Nat) : State := { placed empty with launches := [{ bootLaunch [] with signal := 0x30000, job := 5 }], levels := [level n] }
  let stopped : Machine.Unit := { smallUnit { smallGroup with run := .stopped } with halted := true, ending := some 0x1A }
  let s2 : State := { placed empty with launches := (placed empty).launches.map fun l => { l with counter := 2 } }
  exact ⟨⟨placed { empty with off := [r] }, bootUnit.key, { empty with off := [r] }, r.key, 1, 0, _, by decide +kernel, by decide +kernel, rfl⟩,
    ⟨placed going, bootUnit.key, going, { smallGroup with ents := [] }, by decide +kernel⟩,
    ⟨s2, bootUnit.key, empty, _, by decide +kernel, by decide +kernel, by decide +kernel, by decide +kernel, rfl, rfl, rfl⟩, fun n hn => by
      simp only [List.mem_cons, List.not_mem_nil, or_false] at hn
      rcases hn with rfl | rfl
      · exact ⟨last 1, bootUnit.key, empty, { bootLaunch [] with signal := 0x30000, job := 5 }, level 1, bootCtx, 0x30000, by decide +kernel⟩
      · exact ⟨last 2, bootUnit.key, empty, { bootLaunch [] with signal := 0x30000, job := 5 }, level 2, bootCtx, 0x30000, by decide +kernel⟩,
    ⟨{ placed stopped with launches := [{ bootLaunch [] with state := .cancelled, owes := true }] }, bootUnit.key, stopped,
      { bootLaunch [] with state := .cancelled, owes := true }, by decide +kernel⟩⟩

/-! ## Witnesses, steps of the engines and of copies -/

theorem ok_of_isOk {ε α : Type} {r : Except ε α} (h : r.isOk = true) : ∃ x, r = .ok x := by
  cases r <;> simp_all [Except.isOk, Except.toBool]

theorem error_of_isOk {ε α : Type} {r : Except ε α} (h : r.isOk = false) : ∃ x, r = .error x := by
  cases r <;> simp_all [Except.isOk, Except.toBool]

/-- The unit with one command on agent 3. -/
def cmdUnit (m : Cmd) (u : Machine.Unit := engineUnit []) : Machine.Unit := { u with cmds := [(3, m)] }
def cmdState (m : Cmd) (u : Machine.Unit := engineUnit []) (c : Core := .start) : State := { placed (cmdUnit m u) with cores := [(0, c)] }
def blank (i : Instr) : Cmd := (seen (engineState [])).newCmd i

def someMmq : Op × ModX := (opX 0 (.v 4) (.v 2) (.v 3), { bits := 4 * 2 ^ 8 })
def mmqCmd : Cmd := { blank (.mmq someMmq.1 someMmq.2) with quarters := [0], av := 0x7FC00000, vec := [0, 512], state := .started, permit := true }
def aPass : Pass := { plane := 0, fmt := 4, ops := [(bootUnit.key, 3, 0)], permit := true, shares := [(bootUnit.key, 1)] }

def cholOp : Op × ModX := (opX 0 (.v 0) (.v 0) (.v 0) (120 * 256), { bits := 0 })
/-- A tile of order 8 whose diagonal is 1. -/
def unitTile : Machine.Unit := { tileUnit 0 with acc := [0, 8, 15, 21, 26, 30, 33, 35].map fun i => (i, 0x3F800000) }
def scaleOp : Op × ModX := (opX 0 (.v 0) (.v 0) (.s 16), { bits := 0 })
def scaleCmd : Cmd := { blank (.trscale scaleOp.1 scaleOp.2) with state := .started, permit := true, bv := 0x3F800000 }
def solveCmd : Cmd := { blank (.trsolve scaleOp.1 scaleOp.2) with state := .started, permit := true, vec := List.replicate 8 0x3F800000 }
def cholCmd : Cmd := { blank (.trchol cholOp.1 cholOp.2) with state := .started, permit := true }

theorem witness_EngineSteps :
    let Base (s : State) (k : UKey) (u : Machine.Unit) (agent : Nat) (m : Cmd) := s.unit? k = some u ∧ u.cmd? agent = some m
    (∃ s k u agent m, Base s k u agent m ∧ startable s u agent m = true ∧ m.stream = none)
    ∧ (∃ s k u agent m core op ops plane fmt, Base s k u agent m ∧ (s.core core).pass = none ∧ newPass s core = op :: ops
      ∧ s.qShape op.1 op.2.1 = some (plane, fmt))
    ∧ (∃ s k u agent m core p q ops o x rows, Base s k u agent m ∧ (s.core core).pass = some p ∧ p.permit = true ∧ p.ops = (k, agent, q) :: ops
      ∧ m.ins = .mmq o x ∧ statusCode m.status = 0 ∧ readRows s u agent m (mmqFmt x) ((lanesOf m.exec).filter fun l => l / 8 == q) = .ok rows)
    ∧ (∀ plane ∈ [0, 1], ∃ s k u agent m core, Base s k u agent m ∧ swapReady s core plane = true)
    ∧ (∃ s k u agent m o x y, Base s k u agent m ∧ m.state = .started ∧ m.permit = true ∧ isFactor m.ins = true ∧ (∀ o' x', m.ins ≠ .trsolve o' x')
      ∧ facResult (u.seenBy m) m = some (o, x, .ok y))
    ∧ (∃ s k u agent m o x e, Base s k u agent m ∧ m.state = .started ∧ m.permit = true ∧ isFactor m.ins = true ∧ (∀ o' x', m.ins ≠ .trsolve o' x')
      ∧ facResult (u.seenBy m) m = some (o, x, .error e))
    ∧ (∃ s k u agent m o x g, Base s k u agent m ∧ m.state = .started ∧ m.permit = true ∧ m.ins = .trsolve o x ∧ u.grp? m.gid = some g)
    ∧ (∃ s k u agent m die, Base s k u agent m ∧ nextGrant s die = some (k, agent, u.core) ∧ agent ≠ 32)
    ∧ ∃ s k u agent m, Base s k u agent m ∧ s.powered = true := by
  let k := bootUnit.key
  let waits : State := { cmdState { copyCmd with asked := 1 } with dies := [(0, { Die.start with permits := [(k, 3, 0)], account := 1000000000 })] }
  have rows : ∃ r, readRows (cmdState mmqCmd (engineUnit []) { Core.start with pass := some aPass }) (cmdUnit mmqCmd) 3 mmqCmd (mmqFmt someMmq.2)
      ((lanesOf mmqCmd.exec).filter fun l => l / 8 == 0) = .ok r := ok_of_isOk (by decide +kernel)
  obtain ⟨r, hr⟩ := rows
  have good : ∃ y, scaleTile (facFmt scaleOp.2) (facN scaleOp.2) scaleCmd.bv.toNat
      ((cmdUnit scaleCmd unitTile).readTile scaleOp.1 scaleOp.2 ((cmdUnit scaleCmd unitTile).curHalf scaleOp.1)) = .ok y := ok_of_isOk (by decide +kernel)
  obtain ⟨y, hy⟩ := good
  have bad : ∃ e, chol (facFmt cholOp.2) (facN cholOp.2) (cholOp.2.f 41 36) ((cmdUnit cholCmd (tileUnit 0)).gram cholOp.1 cholOp.2) = .error e :=
    error_of_isOk (by decide +kernel)
  obtain ⟨e, he⟩ := bad
  refine ⟨⟨cmdState copyCmd, k, cmdUnit copyCmd, 3, copyCmd, ⟨by decide +kernel, by decide +kernel⟩, by decide +kernel, by decide +kernel⟩,
    ⟨cmdState mmqCmd (engineUnit []) { Core.start with mq := [.quarter k 3 0] }, k, cmdUnit mmqCmd, 3, mmqCmd, 0, (k, 3, 0), [], 0, 4,
      ⟨by decide +kernel, by decide +kernel⟩, by decide +kernel, by decide +kernel, by decide +kernel⟩,
    ⟨cmdState mmqCmd (engineUnit []) { Core.start with pass := some aPass }, k, cmdUnit mmqCmd, 3, mmqCmd, 0, aPass, 0, [], someMmq.1, someMmq.2, r,
      ⟨by decide +kernel, by decide +kernel⟩, by decide +kernel, rfl, rfl, rfl, by decide +kernel, hr⟩, ?_,
    ⟨cmdState scaleCmd unitTile, k, cmdUnit scaleCmd unitTile, 3, scaleCmd, scaleOp.1, scaleOp.2, y, ⟨by decide +kernel, by decide +kernel⟩, rfl, rfl, rfl,
      by intro _ _ h; injection h, by unfold facResult; exact congrArg (fun z => some (scaleOp.1, scaleOp.2, z)) hy⟩,
    ⟨cmdState cholCmd (tileUnit 0), k, cmdUnit cholCmd (tileUnit 0), 3, cholCmd, cholOp.1, cholOp.2, e, ⟨by decide +kernel, by decide +kernel⟩, rfl, rfl, rfl,
      by intro _ _ h; injection h, by unfold facResult; exact congrArg (fun z => some (cholOp.1, cholOp.2, z)) he⟩,
    ⟨cmdState solveCmd unitTile, k, cmdUnit solveCmd unitTile, 3, solveCmd, scaleOp.1, scaleOp.2, _, ⟨by decide +kernel, by decide +kernel⟩, rfl, rfl, rfl, rfl⟩,
    ⟨waits, k, cmdUnit { copyCmd with asked := 1 }, 3, { copyCmd with asked := 1 }, 0, ⟨by decide +kernel, by decide +kernel⟩, by decide +kernel, by decide⟩,
    ⟨cmdState copyCmd, k, cmdUnit copyCmd, 3, copyCmd, ⟨by decide +kernel, by decide +kernel⟩, by decide +kernel⟩⟩
  intro plane hp
  simp only [List.mem_cons, List.not_mem_nil, or_false] at hp
  rcases hp with rfl | rfl
  · exact ⟨cmdState copyCmd (engineUnit []) { Core.start with mq := [.swap 0] }, k, cmdUnit copyCmd, 3, copyCmd, 0, ⟨by decide +kernel, by decide +kernel⟩, by
      decide +kernel⟩
  · exact ⟨cmdState copyCmd (engineUnit []) { Core.start with mq := [.swap 1] }, k, cmdUnit copyCmd, 3, copyCmd, 0, ⟨by decide +kernel, by decide +kernel⟩, by
      decide +kernel⟩

/-! ## Witnesses, pieces of copies -/

/-- An engine's access to its unit's own vault, which no page table serves. -/
theorem engPlace_own {x : State} {u : Machine.Unit} {agent base : Nat} {off : Int} {n : Nat} {att : Att} {reads : Bool} {o : Nat}
    (hc : checks x u = false) (hm : x.marks = []) (ho : ((base % 2 ^ 22 : Nat) : Int) + off = o)
    (hb : base / 2 ^ 31 = 0 ∧ base / 2 ^ 22 % 512 = 0x1FF) (h1 : o + n ≤ u.vsize) (h2 : u.vsize ≤ 2 ^ 22)
    (h3 : physExists 3 (vaultKey (vaultNo u.core) (u.vault + o)) = true) :
    engPlace x u agent true base off n att reads
      = .ok { sp := 3, a := vaultKey (vaultNo u.core) (u.vault + o), pte := none, va := base / 2 ^ 22 * 2 ^ 22 + wrap 22 o } := by
  have hr : resolveVault x u 0 base off n 1 att.write = .ok (.vault (vaultKey (vaultNo u.core) (u.vault + o))) := by
    unfold resolveVault
    rw [ho]
    have e1 : ¬ ((o : Int) < 0 ∨ (o : Int) + n > 2 ^ 22) := by omega
    simp only [Bool.or_eq_true, decide_eq_true_eq, e1, if_false, Int.toNat_natCast, Nat.mod_one, bne_self_eq_false, Bool.false_eq_true, hb.1, hb.2, Bool.and_self, if_true, decide_true, show ¬ u.vsize < o + n by omega]
  unfold engPlace
  simp only [if_true, hr, ho, liftStop, hc, Bool.false_and, Bool.false_eq_true, if_false, landOrd, State.spoilt, State.marked, hm, List.any_nil, Bool.and_false, Nat.reduceBEq, Bool.false_and, Bool.or_self,
    Place.missing, h3, Bool.not_true, bind, Except.bind]

/-- Every entry of an empty table of marks is one of any other. -/
theorem no_marks {s x : State} (hs : s.marks = []) (h : ∀ e ∈ x.marks, e ∈ s.marks) : x.marks = [] :=
  List.eq_nil_iff_forall_not_mem.mpr fun e he => by simpa [hs] using h e he

/-- Where part `i` of `n` bytes from a base in the own vault lies. -/
def ownPlace (base n i : Nat) : Place :=
  let o := base % 2 ^ 22 + i * n
  { sp := 3, a := vaultKey (vaultNo bootUnit.core) (bootUnit.vault + o), pte := none, va := base / 2 ^ 22 * 2 ^ 22 + wrap 22 o }

/-- An engine's access while a piece of a command is under way. -/
theorem midway_own {s x : State} {dst : Nat → Nat → Prop} {m : Cmd} {agent base i n : Nat} {att : Att} {reads : Bool} (hx : Midway s x dst)
    (hs : s.marks = []) (hk : checks s (cmdUnit m) = false) (hb : base / 2 ^ 31 = 0 ∧ base / 2 ^ 22 % 512 = 0x1FF)
    (h : base % 2 ^ 22 + i * n + n ≤ 0x10000) :
    engPlace x (cmdUnit m) agent true base ((i * n : Nat) : Int) n att reads = .ok (ownPlace base n i) := by
  have hl : x.launches = s.launches := by rw [hx.1]
  have hc : checks x (cmdUnit m) = false := by
    unfold checks launchOf State.launch? at hk ⊢
    rw [hl]; exact hk
  refine engPlace_own (o := base % 2 ^ 22 + i * n) hc (no_marks hs hx.2.1) (by omega) hb h (by simp [cmdUnit, engineUnit, smallUnit, bootUnit]) ?_
  have : physExists 3 (vaultKey (vaultNo bootUnit.core) (bootUnit.vault + (base % 2 ^ 22 + i * n))) = true := by
    simp only [physExists, vaultKey, vaultNo, bootUnit]
    simp; omega
  exact this

/-- A copy of 5 bytes, of which one is moved, and a reduction of two elements, in the vault. -/
def vaultCopy : Cmd :=
  { blank (.cpy (opC 0 (.s 1) (.sp .z) 5 (.s 0)) { bits := 24 }) with
    av := 0x7FC00000, dv := 0x7FC08000, bv := 5, prog := 1, state := .started, permit := true }
def vaultCred : Cmd :=
  { blank (.cred (opC 0 (.s 1) (.sp .z) 0 (.s 0)) { bits := 12 }) with
    av := 0x7FC00000, dv := 0x7FC08000, bv := 8, state := .started, permit := true }

def turned (m : Cmd) : State := { cmdState m with engines := [(32, [(bootUnit.key, 3)])] }

theorem lie_vaultCopy : Lie (turned vaultCopy) (cmdUnit vaultCopy) 3 vaultCopy 1 (vaultCopy.cut 1) 1 { write := true } false (ownPlace 0x7FC00000 1)
    (ownPlace 0x7FC08000 1) := by
  have hc : vaultCopy.cut 1 = 5 := by decide +kernel
  rw [hc]
  refine ⟨fun x hx i h1 h2 => ?_, fun i h1 h2 => ?_⟩
  · exact ⟨midway_own (m := vaultCopy) (base := 0x7FC00000) (i := i) (n := 1) hx (by decide +kernel) (by decide +kernel) (by decide +kernel) (by omega),
      midway_own (m := vaultCopy) (base := 0x7FC08000) (i := i) (n := 1) hx (by decide +kernel) (by decide +kernel) (by decide +kernel) (by omega)⟩
  · have : i = 1 ∨ i = 2 ∨ i = 3 ∨ i = 4 := by omega
    rcases this with rfl | rfl | rfl | rfl <;> decide +kernel

theorem lie_vaultCred : Lie (turned vaultCred) (cmdUnit vaultCred) 3 vaultCred 0 2 4 credAtt true (ownPlace 0x7FC00000 4) (ownPlace 0x7FC08000 4) := by
  refine ⟨fun x hx i h1 h2 => ?_, fun i h1 h2 => ?_⟩
  · exact ⟨midway_own (m := vaultCred) (base := 0x7FC00000) (i := i) (n := 4) hx (by decide +kernel) (by decide +kernel) (by decide +kernel) (by omega),
      midway_own (m := vaultCred) (base := 0x7FC08000) (i := i) (n := 4) hx (by decide +kernel) (by decide +kernel) (by decide +kernel) (by omega)⟩
  · have : i = 0 ∨ i = 1 := by omega
    rcases this with rfl | rfl <;> decide +kernel

/-- A unit without commands; a piece of an accst that ends it, one that does not move, pieces of a copy and of a reduction, the turn of an ordered
contribution, on an engine and before; bytes held back in a unit that must leave; the end of a command under tags 0 and 63 and of fills with and without a failure; a contribution passed over and one that is
not; and the first and a later late reply. -/
theorem witness_CopySteps :
    let Base (s : State) (k : UKey) (u : Machine.Unit) (agent : Nat) (m : Cmd) := s.unit? k = some u ∧ u.cmd? agent = some m
    let Moves (s : State) (k : UKey) (u : Machine.Unit) (agent : Nat) (m : Cmd) := Base s k u agent m ∧ movable s u agent m = true
      ∧ engineTurn s k agent = true ∧ m.stream = none ∧ m.remote = false ∧ m.prog ≤ m.total ∧ m.back = [] ∧ m.sent = []
    (∃ (s : State) (k : UKey), s.unit? k = none)
    ∧ (∃ (s : State) (k : UKey) (u : Machine.Unit) (agent : Nat), s.unit? k = some u ∧ u.cmd? agent = none)
    ∧ (∃ s k u agent m, Base s k u agent m ∧ m.stream = none ∧ movable s u agent m = false)
    ∧ (∃ s k u agent m, Moves s k u agent m ∧ (∀ o x, m.ins ≠ .cpyz o x) ∧ (localPiece (nextTurn s k agent) u agent m).stop = none)
    ∧ (∃ s k u agent m p q o x, Moves s k u agent m ∧ m.ins = .cpy o x ∧ m.ahead = [] ∧ checks s u = false
      ∧ Lie s u agent m m.prog (m.cut m.prog) 1 { write := true } false p q ∧ m.cut m.prog = m.prog + 4
      ∧ (∀ j, m.prog ≤ j → j < m.cut m.prog → ((q j).sp % 3 = 0 ↔ (q m.prog).sp % 3 = 0)) ∧ Solo m.prog (m.cut m.prog) 1 p q m.prog)
    ∧ (∃ s k u agent m p q o x, Moves s k u agent m ∧ m.ins = .cred o x ∧ checks s u = false ∧ m.prog = 0 ∧ credEs o = 4 ∧ (m.cut 0 - 0) / 4 = 2
      ∧ Lie s u agent m 0 2 4 credAtt true p q ∧ (∀ j < 2, noAtomic (q j) = false ∧ targetBad s m.total (q j) (4 * j) = false) ∧ Solo 0 2 4 p q 1)
    ∧ (∃ (s : State) (k : UKey) (u : Machine.Unit) (agent : Nat) (m : Cmd) (l : Launch) (n : Nat), Base s k u agent m ∧ s.launch? k.fn k.lid = some l
      ∧ holder s l n (l.ostream n).next = some (u, agent, m) ∧ movable s u agent m = true ∧ engineTurn s k agent = true)
    ∧ (∃ (s : State) (k : UKey) (u : Machine.Unit) (agent : Nat) (m : Cmd) (l : Launch) (n : Nat), Base s k u agent m ∧ s.launch? k.fn k.lid = some l
      ∧ holder s l n (l.ostream n).next = some (u, agent, m) ∧ movable s u agent m = true ∧ onEngine s k agent = false)
    ∧ (∃ s k u agent m, Base s k u agent m ∧ m.stream = none ∧ movable s u agent m = true ∧ engineTurn s k agent = true ∧ u.vacating = true ∧ m.back ≠ [])
    ∧ (∀ t ∈ [0, 63], ∃ s k u agent m, Base s k u agent m ∧ m.state = .done ∧ m.tag = some t)
    ∧ (∀ c ∈ [0, 3], ∃ s k u agent m q slot, Base s k u agent m ∧ m.state = .done ∧ m.fill = some (q, slot) ∧ statusCode m.status = c ∧ checks s u = false)
    ∧ (∀ b : Bool, ∃ (s : State) (fn lid n : Nat) (l : Launch), s.launch? fn lid = some l ∧ holder s l n (l.ostream n).next = none ∧ passable s l n = b)
    ∧ ∀ i ∈ [0, 3], ∃ (s : State) (k : UKey) (l : Launch) (c : Ctx) (v : Vac), s.launch? k.fn k.lid = some l ∧ s.ctx? l.ctx = some c
      ∧ (l.resume.find? fun v => v.idx == k.idx) = some v ∧ i < 4 * l.g
      ∧ ((sysRead s c (c.arena + v.save + l.imgLate + 272 * i) 4).getD 0).testBit 31 = false
      ∧ ∀ j < i, ((sysRead s c (c.arena + v.save + l.imgLate + 272 * j) 4).getD 0).testBit 31 = true := by
  let k := bootUnit.key
  let moving : Cmd := { blank (.accst (opX 0 (.v 0) (.s 8)) { bits := 5 * 32 }) with tag := some 5, av := 0x20000, state := .started, permit := true, prog := 2044 }
  let ended (t : Nat) : Cmd := { copyCmd with state := .done, tag := some t }
  let filled (c : Nat) : Cmd := { copyCmd with state := .done, fill := some (2, 1), status := statusWord c 0 }
  let streams (seen : List Nat) (l : Launch) : Launch := { l with streams := [(1, { OStream.start with used := true, seen := seen })] }
  let passed (seen : List Nat) : State := { cmdState moving with launches := (cmdState moving).launches.map (streams seen) }
  let keeps : Cmd := { vaultCopy with back := [7] }
  let ordered : Cmd := { vaultCred with stream := some 1 }
  let turn : State := { turned ordered with launches := (turned ordered).launches.map (streams []) }
  refine ⟨⟨placed (engineUnit []), { k with idx := 1 }, by decide +kernel⟩, ⟨placed (engineUnit []), k, engineUnit [], 0, by decide +kernel⟩,
    ⟨turned copyCmd, k, cmdUnit copyCmd, 3, copyCmd, by decide +kernel⟩,
    ⟨turned moving, k, cmdUnit moving, 3, moving, by decide +kernel, by intro _ _ h; injection h, by decide +kernel⟩,
    ⟨turned vaultCopy, k, cmdUnit vaultCopy, 3, vaultCopy, _, _, _, _, by decide +kernel, rfl, rfl, by decide +kernel, lie_vaultCopy, by decide +kernel,
      fun _ _ _ => Iff.rfl, ?_⟩,
    ⟨turned vaultCred, k, cmdUnit vaultCred, 3, vaultCred, _, _, _, _, by decide +kernel, rfl, by decide +kernel, rfl, by decide +kernel, by decide +kernel,
      lie_vaultCred, by decide +kernel, ?_⟩,
    ⟨turn, k, cmdUnit ordered, 3, ordered, _, 1, by decide +kernel, rfl, by decide +kernel⟩,
    ⟨{ turn with engines := [] }, k, cmdUnit ordered, 3, ordered, _, 1, by decide +kernel, rfl, by decide +kernel⟩,
    ⟨{ turned keeps with units := [{ cmdUnit keeps with vacating := true }] }, k, { cmdUnit keeps with vacating := true }, 3, keeps, by decide +kernel⟩,
    ?_, ?_, ?_, ?_⟩
  · have hc : vaultCopy.cut vaultCopy.prog = 5 := by decide +kernel
    rw [hc]
    intro j h1 h2
    have : j = 1 ∨ j = 2 ∨ j = 3 ∨ j = 4 := by simp only [vaultCopy] at h1; omega
    rcases this with rfl | rfl | rfl | rfl <;> (unfold Apart; decide +kernel)
  · intro j h1 h2
    have : j = 0 ∨ j = 1 := by omega
    rcases this with rfl | rfl <;> (unfold Apart; decide +kernel)
  · intro t ht
    simp only [List.mem_cons, List.not_mem_nil, or_false] at ht
    rcases ht with rfl | rfl
    · exact ⟨cmdState (ended 0), k, cmdUnit (ended 0), 3, ended 0, by decide +kernel, rfl, rfl⟩
    · exact ⟨cmdState (ended 63), k, cmdUnit (ended 63), 3, ended 63, by decide +kernel, rfl, rfl⟩
  · intro c hc
    simp only [List.mem_cons, List.not_mem_nil, or_false] at hc
    rcases hc with rfl | rfl
    · exact ⟨cmdState (filled 0), k, cmdUnit (filled 0), 3, filled 0, 2, 1, by decide +kernel, rfl, rfl, by decide +kernel⟩
    · exact ⟨cmdState (filled 3), k, cmdUnit (filled 3), 3, filled 3, 2, 1, by decide +kernel, rfl, rfl, by decide +kernel⟩
  · intro b
    cases b
    · exact ⟨passed [], 1, 1, 1, _, rfl, by decide +kernel⟩
    · exact ⟨passed [0], 1, 1, 1, _, rfl, by decide +kernel⟩
  · let late (l : Launch) : Launch := { l with resume := [{ idx := 0, save := 0, size := 0x20000, unit := none }] }
    let area := 0x200000 + (late (bootLaunch [])).imgLate
    let s0 := placed (engineUnit [])
    let s (t : Sparse Byte) : State :=
      { s0 with launches := [late (bootLaunch [])], ctxs := [{ bootCtx with arena := 0x100000 }], hbm := t }
    let full := (List.range 3).foldl (fun t j => Sparse.set 0 t (area - 0x100000 + 272 * j + 3) (0x80 : Byte)) s0.hbm
    intro i hi
    simp only [List.mem_cons, List.not_mem_nil, or_false] at hi
    rcases hi with rfl | rfl
    · exact ⟨s s0.hbm, k, late (bootLaunch []), { bootCtx with arena := 0x100000 }, { idx := 0, save := 0, size := 0x20000, unit := none }, by decide +kernel⟩
    · exact ⟨s full, k, late (bootLaunch []), { bootCtx with arena := 0x100000 }, { idx := 0, save := 0, size := 0x20000, unit := none }, by decide +kernel⟩

/-! ## Witnesses, power and the machine as a whole -/

/-- An emergency and none, and a machine with and without power. -/
theorem witness_PowerSteps :
    (∃ s : State, s.emergency = true) ∧ (∃ s : State, s.emergency = false) ∧ (∃ s : State, s.powered = true) ∧ (∃ s : State, s.powered = false)
    ∧ (∃ addr : Nat, addr < markKey 3 0) ∧ ∃ addr : Nat, markKey 3 0 ≤ addr :=
  ⟨⟨{ State.reset with emergency := true }, rfl⟩, ⟨State.reset, rfl⟩, ⟨placed (smallUnit smallGroup), rfl⟩, ⟨State.reset, rfl⟩,
    ⟨0, by decide⟩, ⟨markKey 3 0, by decide⟩⟩

def addWord : Nat := 0x0007008080000210FFFFFFFF
def addIns : Instr := .iadd (op 0 7 0 (.v 1) (.v 2) (.v 0) 0xFFFFFFFF) { ty := .i32, rm := .rn, rs := false, opnd := 1, sub := 0 }

/-- The word at a group's entry is fetched and decodes, on the machine as the step finds it. -/
abbrev Runs (s1 : State) (k : UKey) (gid n : Nat) : Prop := ∃ u g e w i, s1.unit? k = some u ∧ u.grp? gid = some g ∧ g.ents[n]? = some e
  ∧ fetchWord s1 u e.pc 3 = .ok w ∧ decode g.grant (isDet s1 u) w = .ok i ∧ vregHeld u g w i = false

/-- One group with a word that decodes, and nothing else; the same as the second decoder's entry; a step that is due alone; nothing. -/
theorem witness_StepRunsDecoded :
    (∃ (s : State) (k : UKey) (gid : Nat) (u : Machine.Unit) (g : Group) (a : Entry) (rest : List Entry), s.second = none ∧ choices s = [.issue k gid]
      ∧ s.unit? k = some u ∧ u.grp? gid = some g ∧ readyEnts s u g = a :: rest ∧ Runs (opportunity s u g (secondEntry s u a rest)) k gid (placeOf g a))
    ∧ (∃ (s : State) (k : UKey) (gid n : Nat), pendingSecond s = some (k, gid, n) ∧ Runs { s with second := none } k gid n)
    ∧ (∃ (s : State) (i : Instr), s.second = none ∧ choices s = [.event 0] ∧ s.agenda = [i])
    ∧ ∃ s : State, s.second = none ∧ choices s = [] := by
  let s := atWord addWord (smallUnit smallGroup)
  let k := bootUnit.key
  let a := Entry.new (BitVec.ofNat 64 bootPc) 128 3
  let g2 : Group := { smallGroup with ents := [{ a with wait := .second }] }
  let pair : State := { atWord addWord (smallUnit g2) with second := some (k, 0) }
  have runs (s1 : State) (g : Group) (b : Entry) (h : s1.unit? k = some (smallUnit g) ∧ (smallUnit g).grp? 0 = some g ∧ g.ents[0]? = some b
      ∧ fetchWord s1 (smallUnit g) b.pc 3 = .ok addWord ∧ decode g.grant (isDet s1 (smallUnit g)) addWord = .ok addIns
      ∧ vregHeld (smallUnit g) g addWord addIns = false) :
      Runs s1 k 0 0 := ⟨smallUnit g, g, b, addWord, addIns, h⟩
  refine ⟨⟨s, k, 0, smallUnit smallGroup, smallGroup, a, [], rfl, by decide +kernel, by decide +kernel, by decide +kernel, by decide +kernel,
      runs (opportunity s (smallUnit smallGroup) smallGroup none) { smallGroup with ents := [{ a with age := a.age + 1 }] } { a with age := a.age + 1 } (by decide +kernel)⟩, ⟨pair, k, 0, 0, by decide +kernel, runs { pair with second := none } g2 { a with wait := .second } (by decide +kernel)⟩,
    ⟨{ State.reset with agenda := [.powerOn] }, .powerOn, rfl, by decide +kernel, rfl⟩, ⟨State.reset, rfl, by decide +kernel⟩⟩

/-- A step from a canonical state. -/
theorem witness_StepKeepsMemWf : ∃ s t : State, s.memWf ∧ step s = .next t := by
  have h : (nextOf (step State.reset)).isSome = true := by decide +kernel
  obtain ⟨t, ht⟩ := Option.isSome_iff_exists.mp h
  exact ⟨State.reset, t, State.reset_memWf, next_of_nextOf ht⟩

/-- A word of each kind of group. -/
theorem witness_DecodeEncode :
    ∀ det : Bool, ∃ (grant : Nat) (i : Instr) (w : Nat), i.wf grant det = true ∧ encode i = some w := by
  intro det
  cases det
  · exact ⟨256, addIns, addWord, by decide +kernel, by decide +kernel⟩
  · exact ⟨64, addIns, addWord, by decide +kernel, by decide +kernel⟩

/-! ## Witnesses, the ordering point and the fabric -/

/-- A change of the state of function 1. -/
def withFunc (f : Func → Func) (s : State := placed (smallUnit smallGroup)) : State := s.modFunc 1 f

def wholeHandle (rights : Nat := 3) : Handle := { kind := 4, gen := 1, hid := 5, cookie := 0, ctx := 1, va := 0x20000, len := 4096, rights := rights }
def wholeName : DWord := BitVec.ofNat 64 (5 + 2 ^ 27 + 2 ^ 43)
def serving (rights : Nat := 3) (seen : List Seen := []) (kind : Nat := 4) : State :=
  { withFunc fun f => { f with handles := [{ wholeHandle rights with kind := kind }] } with seen := seen }

/-- Byte `i` of the last eight that the handle grants, in the page at 0. -/
def lastBytes (i : Nat) : Place :=
  { sp := 0, a := 0x20FF8 + i, va := 0x20FF8 + i
    pte := some { mem := 0, addr := 0, size := 5, dx := false, chk := false, x := true, w := true, rd := true, leaf := true, v := true } }

/-- A request of this module's function 2 on the last byte, or the last eight, of what the handle grants. -/
def someReq (kind : FabKind) (id : Nat := 2 ^ 31 - 1) (handle : DWord := wholeName) (dst : Nat := 0xFFFF) (hops : Nat := 0) : FabReq :=
  { srcMod := 0, srcFn := 2, srcCtx := 1, srcLid := 0, id := id, attempt := 0, lowack := 0, kind := kind, handle := handle,
    off := if kind = .read then 4088 else 4095, len := if kind = .read then 8 else 1, data := if kind = .read then [] else [0x5A], dst := dst, hops := hops }

def someSeen (done : Bool) : Seen := { srcMod := 0, srcFn := 2, id := 2 ^ 31 - 1, done := done, code := 0, data := [] }
def someReply (code : Nat) : FabReply := { fn := 1, dst := 3, id := 9, code := code, data := [] }

/-- A request of function 1 to module 3 without a reply, and the machine with it. -/
def outReq (orphan : Bool) (attempt : Nat) (what : ReqFor := .depart) : OutReq :=
  { fn := 1, dst := 3, req := { someReq .write 9 with attempt := attempt }, what := what, orphan := orphan, sent := true }
def asking (q : OutReq) (s : State := placed (smallUnit smallGroup)) : State := { s with outReqs := [q] }

/-- Requests of this module and of another one, at the ends of what a handle grants, to no handle, without the right, and seen before; replies for this
module and for another one; resends at both ends of the
attempts; and the last port, with both readings of a credit report. -/
theorem witness_FabricSteps :
    (let Base (s : State) (r : FabReq) (known : Option Seen) := s.moduleOf r.dst = s.ident ∧ belowAck r.id r.lowack = false
        ∧ belowAck r.lowack (Sparse.get 0 s.lowack (srcKey r.srcMod r.srcFn)) = false
        ∧ (s.seen.find? fun x => (x.srcMod == r.srcMod && x.srcFn == r.srcFn) && x.id == r.id) = known;
      (∀ m ∈ [0, 7], ∃ s r, Base s r none ∧ r.srcMod = m ∧ s.ident = 0 ∧ s.handle? r.handle = none ∧ ∀ k, r.kind ≠ .depart k)
      ∧ (∃ s r h c, ∃ p : Nat → Place, Base s r none ∧ s.handle? r.handle = some h ∧ h.kind = 4 ∧ s.ctx? h.ctx = some c ∧ r.kind = .read
        ∧ h.rights.testBit 0 = true ∧ r.off + r.len = h.len ∧ s.who r = none ∧ r.len = 8
        ∧ ∀ i < 8, sysPlace s c (h.va + r.off + i) 1 false = .ok (p i) ∧ s.spoilt (p i).sp (p i).a (inBlock (p i).a (8 - i + r.rest)) = false
          ∧ ((p i).sp % 3 = 0 → Sparse.get false s.badCrc (crcKey (p i).sp (p i).a) = false))
      ∧ (∃ s r h c b m p, Base s r none ∧ s.handle? r.handle = some h ∧ h.kind = 4 ∧ s.ctx? h.ctx = some c ∧ r.kind = .write ∧ r.data = [b] ∧ s.who r = none
        ∧ h.rights.testBit 1 = true ∧ r.off + 1 = h.len ∧ sysLand s c (h.va + r.off) 1 true = .ok (m, p) ∧ m < 4 ∧ isPtr (h.va + r.off) = false)
      ∧ (∃ s r h c, Base s r none ∧ s.handle? r.handle = some h ∧ h.kind = 4 ∧ s.ctx? h.ctx = some c ∧ r.kind = .write ∧ h.rights.testBit 1 = false)
      ∧ (∃ s r h, Base s r none ∧ s.handle? r.handle = some h ∧ h.kind ≠ 4 ∧ r.kind = .write)
      ∧ (∃ s r x, Base s r (some x) ∧ x.done = true ∧ r.kind ≠ .read) ∧ ∃ s r x, Base s r (some x) ∧ x.done = false)
    ∧ (∃ s r, State.moduleOf s r.dst ≠ s.ident ∧ FabReq.hops r = 1)
    ∧ (∃ s r, State.moduleOf s r.dst ≠ s.ident ∧ FabReq.hops r = 2 ∧ s.hopLimit r.dst ≠ 0)
    ∧ (∃ s r, State.moduleOf s (FabReply.dest r) ≠ s.ident)
    ∧ ((∃ s r, State.outReq? s r.fn r.dst r.id = none ∧ s.moduleOf r.dest = s.ident ∧ r = someReply 0)
      ∧ (∃ s r q, State.outReq? s r.fn r.dst r.id = some q ∧ answerWaits s q = false ∧ q.orphan = true ∧ r = someReply 0)
      ∧ ∀ code ∈ [0, 6], ∃ s r q k agent off u m, State.outReq? s r.fn r.dst r.id = some q ∧ s.moduleOf r.dest = s.ident ∧ answerWaits s q = false
        ∧ q.orphan = false ∧ q.what = .cmd k agent off ∧ FabReply.code r = code ∧ r.data = [] ∧ m.size ≤ m.prog ∧ s.unit? k = some u ∧ u.cmd? agent = some m ∧ m.state = .started ∧ m.sent = [(q.req.id, off)] ∧ m.got = [] ∧ m.back = [] ∧ statusCode m.status = 0
        ∧ (code ≠ 0 → statusCode (pieceStatus r off) ≠ 0))
    ∧ ((∃ s : State, s.outReq? 1 3 9 = none)
      ∧ ∀ n ∈ [6, 7], ∃ s q, State.outReq? s 1 3 9 = some q ∧ q.sent = true ∧ 3 ≠ s.ident ∧ answerWaits s q = false ∧ q.req.attempt = n
        ∧ (n = 7 → q.orphan = true))
    ∧ (∀ old : Bool, ∃ (s : State) (p : Port) (freed : Nat), s.ports[31]? = some p ∧ (∀ q ∈ s.outReqs, q.sent = true) ∧ s.transit = []
      ∧ (p.req.sent + 2 ^ 32 - freed % 2 ^ 32) % 2 ^ 32 = if old then 2 ^ 31 else 2 ^ 31 - 1)
    ∧ (∀ r ∈ [56, 84, 100, 112], ∃ (s : State) (p : Port), s.ports[31]? = some p ∧ p.rate = r)
    ∧ ∃ s : State, 1 < s.poolUp.length := by
  let q7 := outReq false 0 (.cmd bootUnit.key 3 0)
  let dark : State := { State.reset with ports := List.replicate 32 { Port.start with rate := 0 }, routes := [(5, 2 ^ 31 + 2)] }
  refine ⟨⟨fun m hm => ⟨State.reset, { someReq .write with srcMod := m }, by revert m; decide +kernel, rfl, by decide +kernel, by
        show State.reset.handle? wholeName = none; decide +kernel, by intro k h; cases h⟩,
      ⟨serving, someReq .read, wholeHandle, bootCtx, lastBytes, by decide +kernel⟩,
      ⟨serving, someReq .write, wholeHandle, bootCtx, 0x5A, 0, 0x20FFF, by decide +kernel⟩,
      ⟨serving 1, someReq .write, wholeHandle 1, bootCtx, by decide +kernel⟩,
      ⟨serving 3 [] 3, someReq .write, { wholeHandle with kind := 3 }, by decide +kernel⟩,
      ⟨serving 3 [someSeen true], someReq .write, someSeen true, by decide +kernel⟩,
      ⟨serving 3 [someSeen false], someReq .write, someSeen false, by decide +kernel⟩⟩,
    ⟨dark, someReq .write (dst := 5) (hops := 1), by decide +kernel⟩, ⟨dark, someReq .write (dst := 5) (hops := 2), by decide +kernel⟩,
    ⟨dark, { someReply 0 with dest := 5 }, by decide +kernel⟩,
    ⟨⟨State.reset, _, by decide +kernel, by decide +kernel, rfl⟩, ⟨asking (outReq true 0), _, outReq true 0, by decide +kernel, by decide +kernel, rfl, rfl⟩, ?_⟩,
    ⟨⟨State.reset, by decide +kernel⟩, ?_⟩, ?_, ?_, ⟨State.reset, by decide +kernel⟩⟩
  · let m : Cmd := { copyCmd with state := .started, sent := [(9, 0)], prog := 64 }
    intro code hc
    simp only [List.mem_cons, List.not_mem_nil, or_false] at hc
    rcases hc with rfl | rfl
    · exact ⟨asking q7 (cmdState m), someReply 0, q7, bootUnit.key, 3, 0, cmdUnit m, m, by decide +kernel⟩
    · exact ⟨asking q7 (cmdState m), someReply 6, q7, bootUnit.key, 3, 0, cmdUnit m, m, by decide +kernel⟩
  · intro n hn
    simp only [List.mem_cons, List.not_mem_nil, or_false] at hn
    rcases hn with rfl | rfl
    · exact ⟨asking (outReq true 6), outReq true 6, by decide +kernel⟩
    · exact ⟨asking (outReq true 7), outReq true 7, by decide +kernel⟩
  · intro old
    cases old
    · exact ⟨State.reset, Port.start, 2 ^ 31 + 1, by decide +kernel⟩
    · exact ⟨State.reset, Port.start, 2 ^ 31, by decide +kernel⟩
  · intro r hr
    simp only [List.mem_cons, List.not_mem_nil, or_false] at hr
    have h (n : Nat) : ({ State.reset with ports := List.replicate 32 { Port.start with rate := n } } : State).ports[31]? = some { Port.start with rate := n } := by
      simp
    exact ⟨_, _, h r, rfl⟩

/-- A window of function 1 over memory at 0x20000, and writes into it. -/
def someWindow : Machine.Window := { off := 0x10000, size := 0x10000, ctx := 1, va := 0x20000, rd := true, wr := true, left := none }
def someWrite (msg ro : Bool) (off : Nat) : Inbound := { fn := 1, msg := msg, off := off, ro := ro, data := [0x5A] }

/-- The piece of a write at the window's last byte, and one of the byte behind it, by another route. -/
def lastPiece : RoutePiece := { route := 0, page := 0, cells := [(0, 0x2FFFF, 0x2FFFF, 0x5A)] }
def nextPiece : RoutePiece := { route := 1, page := 0x30000, cells := [(0, 0x1000030000, 0x30000, 0x5B)] }
def inFlight (seq : Nat) (w : Inbound) (held : Bool) (pieces : List RoutePiece) : Machine.InFlight :=
  { seq := seq, w := w, held := held, win := if w.msg then none else some someWindow, pieces := pieces }
def attached (fl : List Machine.InFlight := []) : State := withFunc fun f => { f with enabled := true, seq := 4, inflight := fl, windows := [(0, someWindow)] }

/-- Stopped streams; writes that are held, cut into pieces or refused; acknowledgements of each kind, of a last piece and of one before it; a
held write released; reads that wait, lie in no window and are answered, and an atomic; and a reset with a remote command. -/
theorem witness_HostPortSteps :
    (∀ b : Bool, ∃ s : State, (s.func 1).stopped = b)
    ∧ ((∃ s w, (State.func s 1).enabled = false ∧ Inbound.fn w = 1)
      ∧ (∃ s w, Inbound.fn w = 1 ∧ (State.func s 1).enabled = true ∧ w.data ≠ [] ∧ (∀ e ∈ (s.func 1).inflight, e.seq ≠ (s.func 1).seq)
        ∧ (w.msg || !w.ro) = true ∧ (s.func 1).inflight ≠ [])
      ∧ (∃ s w ps, Inbound.fn w = 1 ∧ (State.func s 1).enabled = true ∧ w.data ≠ [] ∧ (∀ e ∈ (s.func 1).inflight, e.seq ≠ (s.func 1).seq)
        ∧ (w.msg || !w.ro) = false ∧ inboundPieces s w (windowOf (s.func 1) w.off w.data.length) = .ok ps ∧ ps ≠ [])
      ∧ ∃ s w code, Inbound.fn w = 1 ∧ (State.func s 1).enabled = true ∧ w.data ≠ [] ∧ (s.func 1).inflight = []
        ∧ inboundPieces s w (windowOf (s.func 1) w.off w.data.length) = .error code)
    ∧ (let Base (s : State) (seq q : Nat) (e : Machine.InFlight) (p : RoutePiece) (after : Bool) :=
        ((s.func 1).inflight.find? fun e => e.seq == seq && e.by q) = some e ∧ (s.func 1).inflight.any (fun x => x.seq < seq && x.by q) = after
        ∧ e.w.fn = 1 ∧ (∀ x ∈ (s.func 1).inflight, x.seq = seq → x = e) ∧ (e.pieces.find? fun p => p.route == q) = some p
      (∃ s seq q e p, Base s seq q e p true)
      ∧ (∃ s seq q e p, Base s seq q e p false ∧ e.w.msg = true ∧ (s.func 1).stopped = false ∧ e.w.off < 0x10000
        ∧ e.w.off = ((s.func 1).consumed + (s.func 1).frame.length) % 65536)
      ∧ ∀ last : Bool, ∃ s seq q e p x, Base s seq q e p false ∧ e.w.msg = false ∧ e.win = some x ∧ (∀ y ∈ p.cells, y.1 < 4 ∧ isPtr y.2.2.1 = false)
        ∧ p.cells ≠ [] ∧ if last then e.pieces = [p] else e.pieces ≠ [p])
    ∧ (∃ (s : State) (e : Machine.InFlight) (rest : List Machine.InFlight) (ps : List RoutePiece), (s.func 1).inflight = e :: rest ∧ e.held = true
      ∧ (∀ x ∈ rest, x.seq ≠ e.seq) ∧ inboundPieces s e.w e.win = .ok ps ∧ ps ≠ [])
    ∧ (let At (s : State) (off n : Nat) (win : Option Machine.Window) (waits : Bool) := (s.func 1).enabled = true ∧ ((s.func 1).readAt off n 7).win = win
        ∧ (s.func 1).inflight.any (·.seq < ((s.func 1).readAt off n 7).seq) = waits
      (∃ s win, At s 0x1FFF8 8 win true) ∧ (∃ s, At s 0x20000 1 none false)
      ∧ (∃ (s : State) (x : Machine.Window) (c : Ctx) (ps : List (Nat × Nat)), At s 0x1FFF8 8 (some x) false ∧ s.ctx? x.ctx = some c ∧ x.rd = true
        ∧ ((List.range 8).mapM fun i => sysLand s c (x.va + (0x1FFF8 - x.off) + i) 1 false) = .ok ps
        ∧ ∀ p ∈ ps, p.1 = 0 ∨ p.1 = 3 → Sparse.get false s.badCrc (crcKey p.1 p.2) = false)
      ∧ ∃ (s : State) (x : Machine.Window) (c : Ctx) (m p : Nat), At s 0x1FFF8 8 (some x) false ∧ s.ctx? x.ctx = some c ∧ x.rd = true ∧ x.wr = true
        ∧ (x.va + (0x1FFF8 - x.off)) % 8 = 0 ∧ isPtr (x.va + (0x1FFF8 - x.off)) = false ∧ sysLand s c (x.va + (0x1FFF8 - x.off)) 8 true = .ok (m, p)
        ∧ m < 4 ∧ s.spoilt m p 8 = false)
    ∧ ∃ (s : State) (l : Launch) (u : Machine.Unit) (agent : Nat) (m : Cmd), s.launch? 1 l.lid = some l ∧ l.live = true ∧ s.unit? u.key = some u
      ∧ u.key.fn = 1 ∧ (∀ x ∈ s.units, x.key = u.key → x.unrestored = false) ∧ u.cmd? agent = some m ∧ (∀ x ∈ u.cmds, x.1 = agent → x.2 = m) ∧ m.remote = true ∧ m.copies = true ∧ m.state ≠ .done := by
  let w0 := someWrite false true 0x1FFFF
  let e0 := inFlight 0 w0 false [lastPiece]
  let e1 := inFlight 1 w0 false [lastPiece]
  let e2 := inFlight 1 w0 false [nextPiece, lastPiece]
  let em := inFlight 1 (someWrite true false 0) false [messagePiece]
  let eh := inFlight 2 w0 true []
  let far : Cmd := { blank (.cpyr (opC 0 (.s 12) (.sp .z) 64) { bits := 5 * 32 }) with remote := true }
  refine ⟨?_, ⟨⟨State.reset, w0, by decide +kernel⟩, ⟨attached [e0], someWrite true false 0, by decide +kernel⟩,
      ⟨attached [e0], w0, [lastPiece], by decide +kernel⟩, ⟨attached, someWrite false true 0x20000, C.XLATE, by decide +kernel⟩⟩,
    ⟨⟨attached [e0, e1], 1, 0, e1, lastPiece, by decide +kernel⟩, ⟨attached [e0, em], 1, 10, em, messagePiece, by decide +kernel⟩, ?_⟩,
    ⟨attached [eh, inFlight 3 w0 true []], eh, [inFlight 3 w0 true []], [lastPiece], by decide +kernel⟩,
    ⟨⟨attached [e0], some someWindow, by decide +kernel⟩, ⟨attached, by decide +kernel⟩,
      ⟨attached, someWindow, bootCtx, (List.range 8).map fun i => (0, 0x2FFF8 + i), by decide +kernel⟩,
      ⟨attached, someWindow, bootCtx, 0, 0x2FFF8, by decide +kernel⟩⟩,
    ⟨cmdState far, bootLaunch (cmdState far).hbm, cmdUnit far, 3, far, by decide +kernel⟩⟩
  · intro b
    cases b
    · exact ⟨State.reset, by decide +kernel⟩
    · exact ⟨withFunc fun f => { f with stopped := true }, by decide +kernel⟩
  · intro last
    cases last
    · exact ⟨attached [e2], 1, 0, e2, lastPiece, someWindow, by decide +kernel⟩
    · exact ⟨attached [e1], 1, 0, e1, lastPiece, someWindow, by decide +kernel⟩

/-! ## Witnesses, operations of the host -/

/-- A frame of function `fn` whose fields hold `vals`. -/
def rpcOf (vals : List Nat) (fn : Nat := 1) (frame : List Byte := []) : Rpc := { fn := fn, tag := 9, chan := 0, frame := frame, vals := vals }

/-- Function 1 has opened its ring. -/
def opened (f : Func → Func := id) (s : State := placed (smallUnit smallGroup)) : State :=
  withFunc (fun x => f { x with enabled := true, opened := true, ringVa := 0x1000, ringSz := 4096 }) s

def bellHandle : Handle := { wholeHandle with kind := 3, va := 0x20000, len := 512, rights := 0 }
def busyRaise : RaiseReq :=
  { ctx := 1, va := 0, vec := 0, pay := 0, cls := 0, func := 0, modid := 0, sctx := 0, launch := 0, waiter := none, reply := none,
    fab := some (0, 2, 7) }

/-- A residency descriptor of a new context of function 1, with one granule of admission arena. -/
def someDesc : Nat :=
  0x10000 + 0x200000 * 2 ^ 128 + 0x100000 * 2 ^ 192 + 7 * 2 ^ 256 + 1 * 2 ^ 288 + 0x30000 * 2 ^ 1216 + 0x10000 * 2 ^ 1280

/-- A total that has gone past 2^64; windows at the end of an aperture, a withdrawal, both kinds of handle, the last vector of a raise, and a context made and torn down. -/
theorem witness_FunctionRpcs :
    (∀ n ∈ [4096, 2 ^ 20], ∃ r : Rpc, r.field 0 % 4096 = 0 ∧ isPow2 (r.field 1) = true ∧ r.field 1 = n)
    ∧ (∃ s r, (State.func s (Rpc.fn r)).opened = false)
    ∧ (let Base (s : State) (r : Rpc) := (s.func r.fn).opened = true;
      (∀ d : Bool, ∃ s r n, Base s r ∧ (s.func r.fn).replies = [] ∧ (s.func r.fn).racked ≤ n ∧ n < (s.func r.fn).racked + 2 ^ 64
        ∧ r.field 0 % 2 ^ 64 = n % 2 ^ 64 ∧ 2 ^ 64 ≤ n ∧ if d then n = (s.func r.fn).written else n = (s.func r.fn).written + 1)
      ∧ (∃ s r c, Base s r ∧ ownCtx s r.fn (r.field 0) = some c) ∧ (∃ s r, Base s r ∧ ownCtx s r.fn (r.field 0) = none)
      ∧ (∃ s r, Base s r ∧ r.field 0 = 15 ∧ r.field 1 ≠ 0 ∧ isPow2 (r.field 3) = true ∧ r.field 3 = 65536 ∧ r.field 2 % r.field 3 = 0
        ∧ r.field 2 + r.field 3 = apertureBytes r.fn
        ∧ (∀ i < 16, i ≠ r.field 0 → let x := Sparse.get Machine.Window.none (s.func r.fn).windows i
          x.size = 0 ∨ r.field 2 + r.field 3 ≤ x.off ∨ x.off + x.size ≤ r.field 2)
        ∧ (ownCtx s r.fn (r.field 4)).isSome = true)
      ∧ (∃ s r, Base s r ∧ r.field 1 = 0 ∧ r.field 0 = 15 ∧ r.field 0 < 16 ∧ (Sparse.get Machine.Window.none (s.func r.fn).windows (r.field 0)).size ≠ 0)
      ∧ (∀ k ∈ [3, 4], ∃ s r, Base s r ∧ r.field 0 = k ∧ (k = 3 → r.field 2 % 256 = 0) ∧ (ownCtx s r.fn (r.field 1)).isSome = true
        ∧ freeHandle (s.func r.fn) < 2 ^ 27)
      ∧ (∃ s r e, Base s r ∧ hFunc (BitVec.ofNat 64 (r.field 0)) = r.fn ∧ s.handle? (BitVec.ofNat 64 (r.field 0)) = some e ∧ e.kind = 3
        ∧ r.field 1 = 63 ∧ raisesUnderWay s = false)
      ∧ (∃ s r, Base s r ∧ s.handle? (BitVec.ofNat 64 (r.field 0)) = none ∧ raisesUnderWay s = false)
      ∧ (∃ s r, Base s r ∧ raisesUnderWay s = true)
      ∧ (∃ s r, Base s r ∧ (s.handle? (BitVec.ofNat 64 (r.field 1))).isSome = true ∧ hFunc (BitVec.ofNat 64 (r.field 1)) = r.fn
        ∧ (r.field 0, BitVec.ofNat 64 (r.field 1)) ∈ (s.func r.fn).agent)
      ∧ (∃ s r, Base s r ∧ (∀ x ∈ descChecks s r.fn (r.field 1), x.2 = false) ∧ arenaMapped s (ctxOf (r.field 1)) = true
        ∧ (ctxOf (r.field 1)).admN = 65536)
      ∧ ∀ b : Bool, ∃ s r c, Base s r ∧ ownCtx s r.fn (r.field 1) = some c ∧ tornDown s c = b) := by
  let h : Nat := wholeName.toNat
  let bell := opened fun f => { f with handles := [bellHandle], agent := [(77, wholeName)] }
  refine ⟨?_, ⟨State.reset, rpcOf [], by decide +kernel⟩, ?_, ⟨opened, rpcOf [1], bootCtx, by decide +kernel⟩,
    ⟨opened, rpcOf [2], by decide +kernel⟩,
    ⟨opened fun f => { f with windows := [(0, { someWindow with off := 0 })] }, rpcOf [15, 1, 2 ^ 32 - 65536, 65536, 1, 0x20000, 1, 1], by decide +kernel⟩,
    ⟨opened fun f => { f with windows := [(15, someWindow)] }, rpcOf [15], by decide +kernel⟩, ?_, ⟨bell, rpcOf [h, 63], bellHandle, by decide +kernel⟩,
    ⟨opened, rpcOf [h], by decide +kernel⟩, ⟨{ opened with agenda := [.raiseDecision busyRaise] }, rpcOf [h], by decide +kernel⟩,
    ⟨bell, rpcOf [77, h], by decide +kernel⟩, ⟨opened, rpcOf [0, someDesc], by decide +kernel⟩, ?_⟩
  · intro n hn
    simp only [List.mem_cons, List.not_mem_nil, or_false] at hn
    rcases hn with rfl | rfl
    · exact ⟨rpcOf [0x10000, 4096], by decide +kernel⟩
    · exact ⟨rpcOf [0x10000, 2 ^ 20], by decide +kernel⟩
  · let ring : State := opened fun f => { f with racked := 2 ^ 64 - 1, written := 2 ^ 64 + 5 }
    intro d
    cases d
    · exact ⟨ring, rpcOf [6], 2 ^ 64 + 6, by decide +kernel⟩
    · exact ⟨ring, rpcOf [5], 2 ^ 64 + 5, by decide +kernel⟩
  · intro k hk
    simp only [List.mem_cons, List.not_mem_nil, or_false] at hk
    rcases hk with rfl | rfl
    · exact ⟨opened, rpcOf [3, 1, 0x20000], by decide +kernel⟩
    · exact ⟨opened, rpcOf [4, 1, 0x20001], by decide +kernel⟩
  · intro b
    cases b
    · exact ⟨opened, rpcOf [1, 1], bootCtx, by decide +kernel⟩
    · exact ⟨{ opened with units := [], launches := [] }, rpcOf [1, 1], bootCtx, by decide +kernel⟩

/-- A launch packet of one unit and one group under a launch identifier, as one number. -/
def somePacket (lid : Nat) : Nat :=
  bootPc + 1 * 2 ^ 64 + 1 * 2 ^ 128 + 1 * 2 ^ 136 + 0 * 2 ^ 144 + 255 * 2 ^ 168 + 64 * 2 ^ 192 + 0x20000 * 2 ^ 320 + lid * 2 ^ 640

def launchFrame : Rpc := rpcOf [] 1 (List.replicate 16 0 ++ bytesOfNat 16 1 ++ bytesOfNat 128 (somePacket 2))

/-- A launch that is held with its record at the start of the arena; a record of launch 3 beside it, none of whose `n` units has
started. -/
def heldLaunch : Launch := { Launch.parse 1 1 (fun off n => descField (somePacket 2) off n) with state := .active, held := true, record := some (0, 1536), pre := [] }
def recordState (n : Byte := 1) : State :=
  let s := opened
  { s with
    units := [], launches := [heldLaunch], ctxs := [{ bootCtx with arena := 0x100000 }]
    hbm := Sparse.set 0 (Sparse.set 0 (Sparse.set 0 s.hbm 0x140000 3) 0x140010 1) 0x140028 n }

/-- Launches under a bench with room and a full one; levels of each kind; cancellations; a launch stopped with a unit on a core and
without; and adoptions of a launch that is held here with a bad image and with good ones, active and not, and of a
record from elsewhere whose counts are too high and right. -/
theorem witness_BenchRpcs :
    let Base (s : State) (r : Rpc) := (s.func r.fn).opened = true
    let lp (r : Rpc) := Launch.parse r.fn (r.bytes 16 4) fun off n => r.bytes (32 + off) n
    (∀ full : Bool, ∃ s r, Base s r ∧ (ownCtx s r.fn (lp r).ctx).isSome = true ∧ r.bytes 20 12 = 0
      ∧ (∀ x ∈ packetChecks s (lp r) (fun off n => r.bytes (32 + off) n), x.2 = false) ∧ if full then 4096 ≤ inBench s r.fn else inBench s r.fn < 4096)
    ∧ (∀ k ∈ [1, 3], ∃ s r, Base s r ∧ r.field 0 = k ∧ r.field 1 = 2 ^ 48 - 1 ∧ s.level? r.fn (r.field 0) (r.field 1) = none ∧ r.field 2 = 2 ^ 32 - 1
      ∧ r.field 3 % 8 = 0 ∧ r.field 4 = 0 ∧ r.field 3 ≠ 0 ∧ (ownCtx s r.fn (r.field 5)).isSome = true
      ∧ (s.levels.filter fun l => l.fn == r.fn).length < 4096)
    ∧ ((∃ s r, Base s r ∧ r.field 0 = 0 ∧ s.launch? r.fn (r.field 1) = none)
      ∧ ∃ s r m, Base s r ∧ r.field 0 = 0 ∧ s.launch? r.fn (r.field 1) = some m ∧ m.live = true ∧ unitsOf s m ≠ []
        ∧ ∀ x ∈ unitsOf s m, x.unrestored = false)
    ∧ (∃ s r m u, Base s r ∧ r.field 0 = 0 ∧ s.launch? r.fn (r.field 1) = some m ∧ m.live = true ∧ u ∈ unitsOf s m ∧ u.unrestored = true)
    ∧ (let Live (s : State) (r : Rpc) (m : Launch) := s.launch? r.fn (r.field 0) = some m ∧ m.live = true ∧ m.record = none ∧ m.unissued.length ≤ 16;
      (∃ s r m c, Base s r ∧ Live s r m ∧ unitsOf s m ≠ [] ∧ s.ctx? m.ctx = some c)
      ∧ ∃ s r m c, Base s r ∧ Live s r m ∧ quiesceWaits s m = false ∧ s.ctx? m.ctx = some c
        ∧ lowestFit (heldSaves s m.ctx) (up256 (recordBytes m c.arena).length) c.arenaN = some 0)
    ∧ (let p (r : Rpc) := Launch.parse r.fn (r.field 0) (adoptField r)
      let held (s : State) (r : Rpc) := s.launches.find? fun x => x.fn == (p r).fn && x.lid == (p r).lid && x.held && x.record.isSome
      let rd (s : State) (r : Rpc) (c : Ctx) : Rd := fun off n => (sysRead s c (r.field 2 + off) n).getD 0
      let Held (s : State) (r : Rpc) (c : Ctx) (x : Launch) := Base s r ∧ ownCtx s r.fn (p r).ctx = some c ∧ held s r = some x
        ∧ x.shape = (p r).shape ∧ x.ctx = (p r).ctx ∧ ∃ o, x.record = some o ∧ c.arena + o.1 = r.field 2
      (∃ s r c x, Held s r c x ∧ heldImagesOk s c x = false) ∧ (∃ s r c x, Held s r c x ∧ heldImagesOk s c x = true ∧ x.state = .active)
      ∧ (∃ s r c x q pre, Held s r c x ∧ heldImagesOk s c x = true ∧ x.state ≠ .active ∧ bindEndpoint s x = some q ∧ readArgs s q = some pre)
      ∧ (∃ s r c, Base s r ∧ ownCtx s r.fn (p r).ctx = some c ∧ held s r = none ∧ (∀ y ∈ packetChecks s (p r) (adoptField r), y.2 = false)
        ∧ inBench s r.fn < 4096 ∧ rd s r c 0 8 = (p r).lid ∧ rd s r c 8 8 = 0 ∧ rd s r c 16 4 = 1 ∧ rd s r c 32 8 = 0 ∧ rd s r c 40 8 = 2 ∧ rd s r c 20 4 = 0 ∧ (p r).n = 1)
      ∧ ∃ s r c vs q pre, Base s r ∧ ownCtx s r.fn (p r).ctx = some c ∧ held s r = none ∧ (∀ y ∈ packetChecks s (p r) (adoptField r), y.2 = false)
        ∧ inBench s r.fn < 4096 ∧ rd s r c 0 8 = (p r).lid ∧ countsAll (rd s r c) (p r).n = true ∧ adoptUnits s c (p r) (rd s r c) = some vs ∧ bindEndpoint s (p r) = some q
        ∧ readArgs s q = some pre ∧ (adopted s q (rd s r c) vs pre).counter ≠ 0) := by
  let none1 : State := { opened with units := [], launches := [{ bootLaunch [] with state := .pending }] }
  let c2 : Ctx := { bootCtx with arena := 0x100000 }
  let old := rpcOf [1, somePacket 2, 0x100000]
  let new := rpcOf [1, somePacket 3, 0x140000]
  let lost : Launch := { heldLaunch with resume := [{ idx := 0, save := 0, size := 0x20000, unit := none }] }
  let early : Launch := { heldLaunch with state := .ready }
  let away : Machine.Unit := { smallUnit smallGroup with unrestored := true, vacating := true }
  let holding (x : Launch) : State := { recordState with launches := [x] }
  have args' : (readArgs (holding early) early).isSome = true := by decide +kernel
  obtain ⟨pre', hpre'⟩ := Option.isSome_iff_exists.mp args'
  have args : (readArgs recordState (Launch.parse 1 1 (adoptField new))).isSome = true := by decide +kernel
  obtain ⟨pre, hpre⟩ := Option.isSome_iff_exists.mp args
  refine ⟨?_, ?_, ⟨⟨opened, rpcOf [0, 5], by decide +kernel⟩, ⟨opened, rpcOf [0, 1], bootLaunch opened.hbm, by decide +kernel⟩⟩,
    ⟨{ opened with units := [away] }, rpcOf [0, 1], bootLaunch opened.hbm, away, by decide +kernel⟩,
    ⟨⟨opened, rpcOf [1], bootLaunch opened.hbm, bootCtx, by decide +kernel⟩,
      ⟨none1, rpcOf [1], { bootLaunch [] with state := .pending }, bootCtx, by decide +kernel⟩⟩,
    ⟨holding lost, old, c2, lost, ⟨by decide +kernel, by decide +kernel, by decide +kernel, by decide +kernel, by decide +kernel, (0, 1536), by
        decide +kernel⟩, by decide +kernel⟩,
    ⟨recordState, old, c2, heldLaunch, ⟨by decide +kernel, by decide +kernel, by decide +kernel, by decide +kernel, by decide +kernel, (0, 1536), by
        decide +kernel⟩, by decide +kernel⟩,
    ⟨holding early, old, c2, early, early, pre', ⟨by decide +kernel, by decide +kernel, by decide +kernel, by decide +kernel, by decide +kernel, (0, 1536), by
        decide +kernel⟩, by decide +kernel, by decide, by decide +kernel, hpre'⟩,
    ⟨recordState 2, new, c2, by decide +kernel⟩,
    ⟨recordState, new, c2, [], Launch.parse 1 1 (adoptField new), pre, by decide +kernel, by decide +kernel, by decide +kernel, by decide +kernel,
      by decide +kernel, by decide +kernel, by decide +kernel, by decide +kernel, by decide +kernel, hpre, by
      show (Launch.parse 1 1 (adoptField new)).n - (sysRead recordState c2 (new.field 2 + 8) 8).getD 0 ≠ 0
      decide +kernel⟩⟩
  · intro full
    cases full
    · exact ⟨opened, launchFrame, by decide +kernel⟩
    · exact ⟨{ opened with launches := List.replicate 4096 (bootLaunch []) }, launchFrame, by decide +kernel⟩
  · intro k hk
    simp only [List.mem_cons, List.not_mem_nil, or_false] at hk
    rcases hk with rfl | rfl
    · exact ⟨opened, rpcOf [1, 2 ^ 48 - 1, 2 ^ 32 - 1, 0x20000, 0, 1], by decide +kernel⟩
    · exact ⟨opened, rpcOf [3, 2 ^ 48 - 1, 2 ^ 32 - 1, 0x20000, 0, 1], by decide +kernel⟩

/-- The telemetry of the last die and of one past it; the tables, ranges, routes and limits at their ends; a fence set and lifted; the
largest piece of an image; no image to switch to; and both answers of a commit. -/
theorem witness_ModuleRpcs :
    let Base (s : State) (r : Rpc) := (s.func r.fn).opened = true
    (∃ s r, Base s r ∧ r.fn ≠ 0) ∧ (∃ s r, Base s r ∧ r.field 0 = 0)
    ∧ (∃ s r, Base s r ∧ 1 ≤ r.field 0 ∧ r.field 0 = 8) ∧ (∃ s r, Base s r ∧ 8 < r.field 0)
    ∧ (let PF (s : State) (r : Rpc) := Base s r ∧ r.fn = 0
      (∀ b ∈ [0, 1, 2], ∃ s r, PF s r ∧ s.quanta.any (Quantum.ok s) = decide (b ≠ 0) ∧ (s.tenant = none ↔ b ≠ 2))
      ∧ (∃ s r, PF s r ∧ r.field 0 = 63 ∧ (poolRangeOf (r.field 1)).base % 2 ^ 28 = 0 ∧ (poolRangeOf (r.field 1)).size = 2 ^ 28
        ∧ (poolRangeOf (r.field 1)).hpa % 2 ^ 28 = 0 ∧ bits (r.field 1) 252 224 = 0
        ∧ (∀ j < 64, j ≠ r.field 0 → let q := s.pools.getD j PoolRange.none
          q.valid = false ∨ q.base + q.size ≤ (poolRangeOf (r.field 1)).base
            ∨ (poolRangeOf (r.field 1)).base + (poolRangeOf (r.field 1)).size ≤ q.base))
      ∧ (∀ b : Bool, ∃ s r, PF s r ∧ r.field 0 = 0 ∧ s.outReqs.all (fun q => q.dst == s.ident) = b ∧ s.outReqs ≠ [])
      ∧ (∃ s r, PF s r ∧ r.field 0 ≠ 0)
      ∧ (∀ n ∈ [799, 800, 3200, 3201], ∃ s r, PF s r ∧ r.field 0 = n)
      ∧ (∀ b ∈ [0, 1], ∃ s r, PF s r ∧ r.field 0 = 7 ∧ r.field 1 = 63 ∧ r.field 2 = b)
      ∧ (∀ b : Bool, ∃ s r u, PF s r ∧ r.field 0 = 0 ∧ r.field 1 = 0 ∧ r.field 2 = 0 ∧ u ∈ userUnits s 0 ∧ s.unit? u.key = some u ∧ u.ending = none
        ∧ u.unrestored = b)
      ∧ (∃ s r, PF s r ∧ s.switching = none ∧ r.field 1 = 4032)
      ∧ (∀ b : Bool, ∃ s r, PF s r ∧ decide (s.rollback ≤ (s.bank s.active).svn) = b)) := by
  let pf : State := State.reset.modFunc 0 fun f => { f with enabled := true, opened := true }
  have at' (vals : List Nat) (s : State := pf) (h : (s.func 0).opened = true) : (s.func (rpcOf vals 0).fn).opened = true ∧ (rpcOf vals 0).fn = 0 := ⟨h, rfl⟩
  have h : (pf.func 0).opened = true := by decide +kernel
  refine ⟨⟨opened, rpcOf [], by decide +kernel⟩, ⟨pf, rpcOf [0] 0, h, rfl⟩, ⟨pf, rpcOf [8] 0, h, by decide⟩, ⟨pf, rpcOf [9] 0, h, by decide⟩, ?_,
    ⟨{ pf with pools := [{ PoolRange.none with valid := true, size := 2 ^ 30 }] }, rpcOf [63, 2 ^ 255 + 2 ^ 28 * 2 ^ 64 + 2 ^ 30] 0, by decide +kernel⟩,
    ?_, ⟨pf, rpcOf [1] 0, at' _ _ h, by decide⟩, ?_, ?_, ?_, ⟨pf, rpcOf [0, 4032] 0, at' _ _ h, rfl, rfl⟩, ?_⟩
  · let q1 : List Quantum := [{ valid := true, fn := 0, weight := 1, quant := 50 }]
    intro b hb
    simp only [List.mem_cons, List.not_mem_nil, or_false] at hb
    rcases hb with rfl | rfl | rfl
    · exact ⟨{ pf with tenant := none }, rpcOf [] 0, by decide +kernel⟩
    · exact ⟨{ pf with quanta := q1, tenant := none }, rpcOf [] 0, by decide +kernel⟩
    · exact ⟨{ pf with quanta := q1, tenant := some 0 }, rpcOf [] 0, by decide +kernel⟩
  · intro b
    cases b
    · exact ⟨asking (outReq false 0) pf, rpcOf [0] 0, by decide +kernel⟩
    · exact ⟨asking { outReq true 0 with dst := 0 } pf, rpcOf [0] 0, by decide +kernel⟩
  · intro n _
    exact ⟨pf, rpcOf [n] 0, at' _ _ h, rfl⟩
  · intro b _
    exact ⟨pf, rpcOf [7, 63, b] 0, at' _ _ h, rfl, rfl, rfl⟩
  · let here : State := { pf with units := [smallUnit smallGroup] }
    intro b
    cases b
    · exact ⟨here, rpcOf [0, 0, 0] 0, smallUnit smallGroup, by decide +kernel⟩
    · let u : Machine.Unit := { smallUnit smallGroup with unrestored := true, vacating := true }
      exact ⟨{ pf with units := [u] }, rpcOf [0, 0, 0] 0, u, by decide +kernel⟩
  · intro b
    cases b
    · exact ⟨{ pf with rollback := 1 }, rpcOf [] 0, by decide +kernel⟩
    · exact ⟨pf, rpcOf [] 0, by decide +kernel⟩

/-! ## Witnesses, raises and the supervisor's side -/

/-- A launch with a broadcast endpoint at 0x20100 and a table of one entry at 0x20200 that grants vector 63 to channel 0 of function 1, or
to any launch of this module's context 0. -/
def raiseState (cls modid : Nat) : State :=
  let s := placed (smallUnit smallGroup)
  let e := cls * 2 ^ 94 + 2 ^ 93 + 1 * 2 ^ 88 + modid * 2 ^ 72 + 2 ^ 127
  { s with launches := s.launches.map fun l => { l with bound := true, endpoint := 0x20100, permva := 0x20200, ctl := BitVec.ofNat 64 (2 ^ 61 + 2 ^ 40) },
           hbm := Sparse.setList unwritten s.hbm 0x20200 (bytesOfNat 16 e) }

def raiseReq (cls : Nat) (vec : Nat := 63) (va : DWord := 0x20100) : RaiseReq :=
  { ctx := 1, va := va, vec := vec, pay := 5, cls := cls, func := 1, modid := 0, sctx := 0, launch := 0, waiter := none, reply := none, fab := none }

/-- A raise to nothing, one that the table denies, and one of each class that it grants. -/
theorem witness_RaiseSteps :
    let Base (s : State) (q r : RaiseReq) := q.waiter = none ∧ q.reply = none ∧ q.fab = none
      ∧ r = if q.cls = 2 && q.modid = s.ident then { q with modid := 0xFFFF } else q
    (∃ s q r, Base s q r ∧ boundAt s q.ctx q.va.toNat = none)
    ∧ (∃ s q r l, Base s q r ∧ boundAt s q.ctx q.va.toNat = some l ∧ granted s l r = false)
    ∧ ∀ cls ∈ [1, 2], ∃ s q r l u, Base s q r ∧ RaiseReq.cls q = cls ∧ boundAt s q.ctx q.va.toNat = some l ∧ granted s l r = true ∧ l.bcast = true
      ∧ u ∈ unitsOf s l ∧ (s.units.filter fun x => x.key == u.key) = [u] := by
  let l (cls modid : Nat) := ((raiseState cls modid).launches.head?).getD (bootLaunch [])
  refine ⟨⟨raiseState 1 0, raiseReq 1 63 0x20300, _, ⟨rfl, rfl, rfl, rfl⟩, by decide +kernel⟩,
    ⟨raiseState 1 0, raiseReq 1 62, _, l 1 0, ⟨rfl, rfl, rfl, rfl⟩, by decide +kernel, by decide +kernel⟩, ?_⟩
  intro cls hc
  simp only [List.mem_cons, List.not_mem_nil, or_false] at hc
  rcases hc with rfl | rfl
  · exact ⟨raiseState 1 0, raiseReq 1, _, l 1 0, smallUnit smallGroup, ⟨rfl, rfl, rfl, rfl⟩, rfl, by decide +kernel⟩
  · exact ⟨raiseState 2 0xFFFF, raiseReq 2, _, l 2 0xFFFF, smallUnit smallGroup, ⟨rfl, rfl, rfl, rfl⟩, rfl, by decide +kernel⟩

/-- A resident object of 64 bytes in slot 3. -/
def heldRes : Res := { Res.start with state := .resident, inc := 2, gen := 4, domain := 1, serial := 9, extent := 64, filled := 64, w := true }

/-- The machine while its supervisor services the group and its admission port holds a name. -/
def portState (name : Nat) (adms : List Adm := []) : State :=
  let s := superState 1 (smallUnit smallGroup)
  { s with cores := s.cores.map fun c => (c.1, { c.2 with port := Sparse.setList 0 [] 0 (bytesOfNat 16 name) }),
           ctxs := [{ bootCtx with slots := 64, res := [(3, heldRes)], index := [(heldRes.key, 3)], adms := adms }] }

def portCtx : Ctx := { bootCtx with slots := 64, res := [(3, heldRes)], index := [(heldRes.key, 3)] }

/-- Both ends of a machine check, and a unit that is placed only, the last mailbox entry, an open and a closed window, the three outcomes of a port, and both of a switch. -/
theorem witness_SupervisorSteps :
    (∀ b : Bool, ∃ (s : State) (lost : List UKey) (u : Machine.Unit), u ∈ s.units ∧ s.unit? u.key = some u ∧ u.core = 0 ∧ isSuper u.key = false
      ∧ u.ending = none ∧ u.unrestored = false ∧ lost.contains u.key = b)
    ∧ (∃ (s : State) (u : Machine.Unit), u ∈ s.units ∧ s.unit? u.key = some u ∧ u.core = 0 ∧ isSuper u.key = false ∧ u.ending = none ∧ u.unrestored = true)
    ∧ (∀ k ∈ [0, 3], ∃ s : State, (s.core 0).mwait = [] ∧ (s.core 0).reports = [] ∧ mailKind (s.core 0) 15 = k)
    ∧ (∃ (s : State) (k : UKey) (u : Machine.Unit), s.unit? k = some u ∧ u.sfq ≠ [])
    ∧ (∀ b : Bool, ∃ (s : State) (slot : Nat) (u : Machine.Unit) (g : Group), slotGroup? s 0 slot = some (u, g) ∧ s.unit? u.key = some u
      ∧ u.grp? g.gid = some g ∧ windowOpen u g = b)
    ∧ (let Base (s : State) (c : Ctx) (name : Nat) := (s.core 0).portBusy = false ∧ servicedCtx s 0 = some c ∧ getBytes (s.core 0).port 0 16 = name;
      (∃ s c name, Base s c name ∧ slotKind false name = .null)
      ∧ (∃ s c name n slot r, Base s c name ∧ slotKind false name = .name n ∧ askName c n = .have slot r ∧ nameOff n = r.extent)
      ∧ ∃ s c name n, Base s c name ∧ slotKind false name = .name n ∧ askName c n = .join ∧ s.ctx? c.id = some c
        ∧ (c.adms.all fun a => a.key != nameKey n) = true)
    ∧ ∀ b : Bool, ∃ s : State, replaceable s 0 = b := by
  let s := superState 1 (smallUnit smallGroup)
  let here := heldRes.name 64
  let away := longName 0 77 4 64
  have hs : (∃ u, u ∈ s.units ∧ s.unit? u.key = some u ∧ u.core = 0 ∧ isSuper u.key = false ∧ u.ending = none ∧ u.unrestored = false ∧ u = smallUnit smallGroup) :=
    ⟨smallUnit smallGroup, by decide +kernel⟩
  let placedOnly : Machine.Unit := { smallUnit smallGroup with unrestored := true, vacating := true }
  refine ⟨?_, ⟨superState 1 placedOnly, placedOnly, by decide +kernel⟩, ?_, ⟨placed { smallUnit smallGroup with sfq := [(7, someFault)] }, bootUnit.key, { smallUnit smallGroup with sfq := [(7, someFault)] }, by
      decide +kernel⟩, ?_, ⟨⟨portState 0, portCtx, 0, by decide +kernel⟩, ⟨portState here, portCtx, here, here, 3, heldRes, by decide +kernel⟩,
      ⟨portState away, portCtx, away, away, by decide +kernel⟩⟩, ?_⟩
  · obtain ⟨u, h1, h2, h3, h4, h5, h6, -⟩ := hs
    intro b
    cases b
    · exact ⟨s, [], u, h1, h2, h3, h4, h5, h6, rfl⟩
    · exact ⟨s, [u.key], u, h1, h2, h3, h4, h5, h6, by simp⟩
  · intro k hk
    simp only [List.mem_cons, List.not_mem_nil, or_false] at hk
    rcases hk with rfl | rfl
    · exact ⟨State.reset, by decide +kernel⟩
    · exact ⟨{ State.reset with cores := [(0, { Core.start with mbox := Sparse.set 0 [] 1921 3, morder := [15] })] }, by decide +kernel⟩
  · intro b
    cases b
    · exact ⟨s, 0, smallUnit smallGroup, smallGroup, by decide +kernel⟩
    · exact ⟨superState 2 (smallUnit { smallGroup with scall := true }), 0, smallUnit { smallGroup with scall := true }, { smallGroup with scall := true }, by
        decide +kernel⟩
  · intro b
    cases b
    · exact ⟨State.reset, by decide +kernel⟩
    · exact ⟨{ State.reset with switching := some (0, 1, 0) }, by decide +kernel⟩

/-! ## Witnesses, the bench -/

/-- Function 1 has the device; a launch and the units given. -/
def benchState (ls : List Launch) (us : List Machine.Unit) (ctx : Ctx := bootCtx) : State :=
  { opened with launches := ls, units := us, ctxs := [ctx], tenant := some 1, quanta := [{ valid := true, fn := 1, weight := 2, quant := 50 }] }

def aLaunch : Launch := bootLaunch []
def aVac (idx : Nat := 0) : Vac := { idx := idx, save := 0, size := 0x20000, unit := none }

/-- The group whose only entry waits in waitv, or for the answer of a raise. -/
def parked (w : Wait) : Group := { smallGroup with ents := [{ Entry.new (BitVec.ofNat 64 bootPc) 128 3 with wait := w }] }

/-- A launch of a higher class that fits nowhere, as every core is fenced, and may take every core. -/
def pressing : Launch := { bootLaunch [] with lid := 2, cls := 7, pcores := 512, state := .ready }

/-- A launch of small units. -/
def slim : Launch := { aLaunch with a := 0, b := 64, c := 64, vblk := 1 }

/-- The image of its unit 0 at 0x120000, its header and its group's frontier of one entry, beside what else that memory holds. -/
def coming (us : List Machine.Unit) : State :=
  { benchState [slim] us { bootCtx with arena := 0x120000 } with
    hbm := [(65536, 1), (65537, 16), (65538, 1), (69632, 1), (69633, 32), (69634, 1), (73728, 1), (73729, 48), (73730, 1), (77824, 31), (77825, 5),
      (1048586, 7), (1048587, 110), (1179648, 1), (1179650, 1), (1179651, 1), (1179664, 1), (1179672, 64), (1179676, 64), (1179681, 56), (1179682, 1),
      (1213696, 1), (1213700, 16), (1213706, 16), (1213711, 128), (1213712, 3)] }

/-- The unit whose image that is, with its group. -/
def comingUnit (live : Bool) : Machine.Unit :=
  { smallUnit smallGroup with grps := if live then [smallGroup] else [], vacating := true, unrestored := true }

/-- Its page table maps the first 2 MiB, above the first 64 KiB, onto the same bytes of HBM. -/
theorem coming_phys (live : Bool) {va : Nat} (lo : 0x10000 ≤ va) (hi : va < 0x200000) :
    ∃ p, sysPhys (coming [comingUnit live]) { bootCtx with arena := 0x120000 } va = some (0, va, p) := by
  have h5 : levelIndex va 5 = 0 := by simp [levelIndex, bits]; omega
  have h4 : levelIndex va 4 = 0 := by simp [levelIndex]; omega
  have h3 : levelIndex va 3 = 0 := by simp [levelIndex]; omega
  have h2 : levelIndex va 2 = 0 := by simp [levelIndex]; omega
  have r : ∀ t ∈ [(65536, 69633), (69632, 73729), (73728, 77825), (77824, 0x51F)], (coming [comingUnit live]).rdN 0 t.1 8 = t.2 := by
    cases live <;> decide +kernel
  have w5 : ∀ n t u, (coming [comingUnit live]).rdN 0 t 8 = u → levelIndex va (n + 1) = 0 → n ≠ 0 →
    (((pteOf u).v && u / 2 ^ 56 == 0 && !u.testBit 7 && !(pteOf u).leaf && (pteOf u).size == 0) = true) →
    walkFrom (coming [comingUnit live]) va (n + 1) t = walkFrom (coming [comingUnit live]) va n (pteOf u).addr := by
    intro n t u hu hi hn ok
    rw [walkFrom, hi, Nat.mul_zero, Nat.add_zero, hu]
    simp only [Bool.and_eq_true, Bool.not_eq_true', beq_iff_eq] at ok
    obtain ⟨⟨⟨⟨a, b⟩, c⟩, d⟩, e⟩ := ok
    have b' : u < 2 ^ 56 := by omega
    simp [a, c, d, e, hn]
    omega
  have q : walkFrom (coming [comingUnit live]) va 5 65536 = .ok (pteOf 0x51F) := by
    rw [w5 4 65536 69633 (r (65536, 69633) (by simp)) h5 (by decide) (by decide), w5 3 (pteOf 69633).addr 73729 (r (69632, 73729) (by simp)) h4 (by decide) (by decide),
      w5 2 (pteOf 73729).addr 77825 (r (73728, 77825) (by simp)) h3 (by decide) (by decide)]
    rw [walkFrom, h2, show (pteOf 77825).addr + 8 * 0 = 77824 from rfl, r (77824, 0x51F) (by simp)]
    rfl
  refine ⟨pteOf 0x51F, ?_⟩
  rw [sysPhys, walk, if_neg (by omega), if_neg (by omega), show ({ bootCtx with arena := 0x120000 } : Ctx).root = 65536 from rfl, q]
  have : (pteOf 0x51F).phys va = (0, va) := by
    show (0, 0 + va % 2 ^ 21) = _
    congr 1
    omega
  simp [this]

/-- So a read of the image inside them is a read of HBM. -/
theorem coming_rd (live : Bool) : imageRd (coming [comingUnit live]) { bootCtx with arena := 0x120000 } 0
    = fun off n => if 0x120000 + off + n ≤ 0x200000 then (coming [comingUnit live]).rdN 0 (0x120000 + off) n
        else imageRd (coming [comingUnit live]) { bootCtx with arena := 0x120000 } 0 off n := by
  have r (n : Nat) : ∀ va, 0x10000 ≤ va → va + n ≤ 0x200000 →
      sysRead (coming [comingUnit live]) { bootCtx with arena := 0x120000 } va n = some ((coming [comingUnit live]).rdN 0 va n) := by
    induction n with
    | zero => intro _ _ _; rfl
    | succ n ih =>
      intro va lo hi
      obtain ⟨p, hp⟩ := coming_phys live lo (by omega : va < 0x200000)
      rw [sysRead, hp, ih (va + 1) (by omega) (by omega)]
      rfl
  funext off n
  split
  · rw [imageRd, show ({ bootCtx with arena := 0x120000 } : Ctx).arena + 0 + off = 0x120000 + off from by simp, r n _ (by omega) (by omega)]
    rfl
  · rfl
/-- A launch of another's tenant and of the tenant; units that wait and a core that is taken; the three things a core is served; a first
ticket; a unit that leaves with nothing left, that waits and that is saved; one that is placed only, under the watchdog, a preemption and the end of a slice, and that
goes back, after one of a lower index and at once; one that returns, with its group; and a slice that goes on, that waits for a switch, and that ends: at its last quantum,
with a table to come, and with no work anywhere. -/
theorem witness_BenchSteps :
    let Base (s : State) (l : Launch) := s.launch? l.fn l.lid = some l
    (∃ s l, Base s l ∧ l.state = .active ∧ l.held = true) ∧ (∃ s l, Base s l ∧ l.state = .active ∧ l.held = false ∧ s.owner ≠ some l.fn)
    ∧ (∃ s l u, Base s l ∧ l.state = .active ∧ l.held = false ∧ s.owner = some l.fn ∧ u ∈ unitsOf s l ∧ ∀ x ∈ unitsOf s l, x.key = u.key → x.unrestored = false)
    ∧ (∃ s l u, Base s l ∧ l.state = .active ∧ l.held = false ∧ s.owner = some l.fn ∧ u ∈ unitsOf s l ∧ u.unrestored = true)
    ∧ (let Here (s : State) (core : Nat) (u : Machine.Unit) := u ∈ s.units ∧ s.unit? u.key = some u ∧ u.core = core ∧ isSuper u.key = false
        ∧ u.vacating = false ∧ u.ending = none ∧ restoring s u.key = false
      (∃ s l core u, Base s l ∧ Here s core u ∧ u.ctx ∈ yielding s core ∧ (u.grps.any (·.live)) = true)
      ∧ (∃ s l core u, Base s l ∧ Here s core u ∧ nextVictim s l = some core)
      ∧ ∃ s l core u, Base s l ∧ u ∈ s.units ∧ s.unit? u.key = some u ∧ u.core = core ∧ isSuper u.key = false ∧ u.ending = none ∧ u.unrestored = true
        ∧ nextVictim s l = some core)
    ∧ (let Free (s : State) (core : Nat) := ∀ u ∈ userUnits s core, buildable s u = none;
      (∃ s l, Base s l ∧ Free s 0 ∧ serve s 0 = some (.fresh l.fn l.lid) ∧ l.state = .ready)
      ∧ (∃ s l i l' v sv, Base s l ∧ Free s 0 ∧ serve s 0 = some (.fresh l.fn l.lid) ∧ l.state = .active ∧ l.ticket (0 / 64) = some (i, l')
        ∧ vaultFit s 0 (l.b + l.c) = some v ∧ saveFit s l = some sv ∧ s.unit? { fn := l.fn, lid := l.lid, idx := i } = none)
      ∧ ∃ s l v a old, Base s l ∧ Free s 0 ∧ serve s 0 = some (.restore l.fn l.lid v) ∧ vaultFit s 0 (l.b + l.c) = some a ∧ v.unit = some old
        ∧ s.unit? old.key = none ∧ l.a ≠ 0 ∧ (s.core 0).holder = none ∧ (s.ctx? l.ctx).isSome = true)
    ∧ (∃ s l pre, Base s l ∧ l.state = .ready ∧ l.held = false ∧ l.endpoint = 0 ∧ readArgs s l = some pre)
    ∧ (let Leaves (s : State) (l : Launch) (u : Machine.Unit) := s.unit? u.key = some u ∧ launchOf s u = some l ∧ isSuper u.key = false
        ∧ u.vacating = true ∧ restoring s u.key = false
      (∃ s l u, Base s l ∧ Leaves s l u ∧ unitDone u = true)
      ∧ ∀ b : Bool, ∃ s l u, Base s l ∧ Leaves s l u ∧ unitDone u = false ∧ u.ending = none ∧ saveWaits s u = b)
    ∧ (∀ b : Bool, ∃ s l u, Base s l ∧ s.unit? u.key = some u ∧ launchOf s u = some l ∧ isSuper u.key = false ∧ u.vacating = true ∧ u.unrestored = true
      ∧ lowerLeaves s u = b)
    ∧ (∀ live : Bool, ∃ (s : State) (l : Launch) (u : Machine.Unit) (c : Ctx), Base s l ∧ s.unit? u.key = some u ∧ u.grps.isEmpty = !live ∧ u.core = 0 ∧ launchOf s u = some l ∧ s.ctx? u.ctx = some c
      ∧ u.vacating = true ∧ u.unrestored = true ∧ u.ending = none
      ∧ imageRd s c u.save 36 4 = 0 ∧ badImage (imageRd s c u.save) l u.key.idx (u.inBlock (imageRd s c u.save) l) = none
      ∧ u.halted = false ∧ (∀ g ∈ u.grps, g.live = true → g.fault = false ∧ g.ents ≠ [])
      ∧ (∀ i < 4 * l.g, (imageRd s c u.save (l.imgLate + 272 * i) 4).testBit 31 = false) ∧ (∀ n < 32, imageRd s c u.save (l.imgCmds + 1024 * n + 12) 1 = 0)
      ∧ s.owner = some l.fn ∧ (s.die (dieOf 0)).fence.getLsbD (0 % 64) = false
      ∧ (live = true → (match parseFrontier (imageRd s c u.save (imgGroup 0 + 0x8400) 264) 256 (BitVec.allOnes 32) with | .ok _ => true | _ => false) = true))
    ∧ (∃ s l fn q, Base s l ∧ s.tenant = some fn ∧ s.quanta[s.slice]? = some q ∧ Quantum.ok s q = true ∧ q.fn = fn ∧ s.quantaRun + 1 < q.weight
      ∧ hasWork s fn = true ∧ switchGoes s = false)
    ∧ (∃ s l, Base s l ∧ switchGoes s = true)
    ∧ (let takes (s : State) (qs : List Quantum) (i : Nat) (q : Quantum) : Bool :=
        qs[(s.slice + 1 + i) % qs.length]? == some q && Quantum.ok s q && hasWork s q.fn
      let Ends (s : State) (qs : List Quantum) := (∃ l, Base s l) ∧ qs = s.quantaNext.getD s.quanta ∧ (s.quantaNext ≠ none ∨ s.quanta.any (Quantum.ok s) = true)
        ∧ switchGoes s = false ∧ ∃ fn q, s.tenant = some fn ∧ s.quanta[s.slice]? = some q ∧ (Quantum.ok s q = false ∨ q.fn ≠ fn ∨ q.weight ≤ s.quantaRun + 1 ∨ hasWork s fn = false)
      let Out (s : State) (u : Machine.Unit) (fn : Option Nat) := u ∈ s.units ∧ s.unit? u.key = some u ∧ some u.key.fn ≠ fn ∧ isSuper u.key = false
        ∧ u.ending = none
      (∃ s qs u q, Ends s qs ∧ Out s u (some (Quantum.fn q)) ∧ u.vacating = false ∧ u.unrestored = false ∧ takes s qs 0 q = true)
      ∧ (∃ s qs u q, Ends s qs ∧ Out s u (some (Quantum.fn q)) ∧ u.unrestored = true ∧ takes s qs 0 q = true)
      ∧ (∃ s qs, Ends s qs ∧ ∀ q ∈ qs, Quantum.ok s q = false)
      ∧ ∃ s qs u, Ends s qs ∧ Out s u none ∧ u.vacating = false ∧ u.unrestored = false ∧ qs.any (Quantum.ok s) = true ∧ ∀ i < qs.length, ∀ q ∈ qs, takes s qs i q = false) := by
  let u := smallUnit smallGroup
  let out (g : Group) : Machine.Unit := { smallUnit g with vacating := true }
  let back : Launch := { aLaunch with resume := [aVac] }
  let open1 : Launch := { aLaunch with ranges := startRanges 1 }
  let ready : Launch := { aLaunch with state := .ready, args := 0x20000 }
  let spins := smallUnit (parked .waitv)
  have args : (readArgs (benchState [ready] []) ready).isSome = true := by decide +kernel
  obtain ⟨pre, hpre⟩ := Option.isSome_iff_exists.mp args
  let gone : Launch := { aLaunch with resume := [{ aVac with unit := some u }] }
  let held : Launch := { aLaunch with held := true }
  let other : Launch := { aLaunch with fn := 2, state := .ready }
  let away : Machine.Unit := { u with key := { u.key with fn := 3 } }
  let idle : State := { benchState [aLaunch] [away] with tenant := some 3 }
  let placedOnly : Machine.Unit := { u with unrestored := true, vacating := true }
  let below : Machine.Unit := { placedOnly with key := { u.key with idx := 1 } }
  let two (us : List Machine.Unit) : State := { benchState [aLaunch, other] us with funcs := [(1, { Func.start with enabled := true }), (2, { Func.start with enabled := true })], quanta := [{ valid := true, fn := 1, weight := 2, quant := 50 }, { valid := true, fn := 2, weight := 1, quant := 50 }], quantaRun := 1 }
  let fenced (us : List Machine.Unit) : State := { benchState [aLaunch, pressing] us with dies := (List.range 8).map fun d => (d, { Die.start with fence := BitVec.allOnes 64 }) }
  refine ⟨⟨benchState [held] [u], held, by decide +kernel⟩, ⟨placed u, bootLaunch (placed u).hbm, by decide +kernel⟩, ⟨benchState [aLaunch] [u], aLaunch, u, by decide +kernel⟩,
    ⟨benchState [aLaunch] [placedOnly], aLaunch, placedOnly, by decide +kernel⟩,
    ⟨⟨benchState [back] [spins], back, 0, spins, by decide +kernel⟩, ⟨fenced [u], pressing, 0, u, by decide +kernel⟩,
      ⟨fenced [placedOnly], pressing, 0, placedOnly, by decide +kernel⟩⟩,
    ⟨⟨benchState [ready] [], ready, by decide +kernel⟩, ⟨benchState [open1] [], open1, 0, { open1 with ranges := [(0, 0), (0, 0), (0, 0), (0, 0), (0, 0), (0, 0), (0, 0), (0, 0)] },
        0, 0, by decide +kernel⟩, ⟨benchState [gone] [], gone, { aVac with unit := some u }, 0, u, by decide +kernel⟩⟩,
    ⟨benchState [ready] [], ready, pre, by decide +kernel, rfl, rfl, rfl, hpre⟩,
    ⟨⟨benchState [aLaunch] [{ u with grps := [], vacating := true }], aLaunch, { u with grps := [], vacating := true }, by decide +kernel⟩, ?_⟩,
    ?_, ?_, ⟨benchState [aLaunch] [u], aLaunch, 1, { valid := true, fn := 1, weight := 2, quant := 50 }, by decide +kernel⟩,
    ⟨{ benchState [aLaunch] [u] with tenant := some 2 }, aLaunch, by decide +kernel⟩,
    ⟨two [u], (two []).quanta, u, { valid := true, fn := 2, weight := 1, quant := 50 }, ⟨⟨aLaunch, by decide +kernel⟩, by decide +kernel, by decide +kernel,
      by decide +kernel, 1, { valid := true, fn := 1, weight := 2, quant := 50 }, by decide +kernel⟩, by decide +kernel⟩,
    ⟨two [placedOnly], (two []).quanta, placedOnly, { valid := true, fn := 2, weight := 1, quant := 50 }, ⟨⟨aLaunch, by decide +kernel⟩, by decide +kernel, by decide +kernel,
      by decide +kernel, 1, { valid := true, fn := 1, weight := 2, quant := 50 }, by decide +kernel⟩, by decide +kernel⟩,
    ⟨{ two [u] with quantaNext := some [] }, [], ⟨⟨aLaunch, by decide +kernel⟩, by decide +kernel, by decide +kernel,
      by decide +kernel, 1, { valid := true, fn := 1, weight := 2, quant := 50 }, by decide +kernel⟩, by decide +kernel⟩,
    ⟨idle, [{ valid := true, fn := 1, weight := 2, quant := 50 }], away, ⟨⟨aLaunch, by decide +kernel⟩, by decide +kernel, by decide +kernel,
      by decide +kernel, 3, { valid := true, fn := 1, weight := 2, quant := 50 }, by decide +kernel⟩, by decide +kernel⟩⟩
  · intro b
    cases b
    · exact ⟨benchState [aLaunch] [out smallGroup], aLaunch, out smallGroup, by decide +kernel⟩
    · exact ⟨benchState [aLaunch] [out (parked (.raise 1))], aLaunch, out (parked (.raise 1)), by decide +kernel⟩
  · intro b
    cases b
    · exact ⟨benchState [aLaunch] [placedOnly], aLaunch, placedOnly, by decide +kernel⟩
    · exact ⟨{ benchState [aLaunch] [placedOnly, below] with agenda := [.unitVacate u.key] }, aLaunch, below, by decide +kernel⟩
  · intro live
    refine ⟨coming [comingUnit live], slim, comingUnit live, { bootCtx with arena := 0x120000 }, ?_⟩
    rw [show (comingUnit live).save = 0 from rfl, coming_rd]
    cases live <;> decide +kernel

/-! ## Witnesses, names and translation -/

/-- The context with a directory at 0x30000, a table of 64 slots and an admission arena of one granule. -/
def dirCtx (res : Sparse Res := []) (adms : List Adm := []) : Ctx :=
  { bootCtx with dirs := [{ va := 0x30000, lo := 0, hi := 0xFFFF, log2n := 10 }], slots := 64, admva := 0x60000, admN := 65536, res := res, adms := adms }

def aKey : Nat := heldRes.key

/-- The object's directory entry, with its state and its owner: generation 4, 65,536 bytes at 0x70000, for function 1. -/
def aEntry (state : Nat) (owner : Nat := 0) : Nat :=
  aKey + state * 2 ^ 62 + 4 * 2 ^ 64 + 65536 * 2 ^ 128 + 0x70000 * 2 ^ 192 + owner * 2 ^ 256 + 2 * 2 ^ 448

def entryVa : Nat := 0x30000 + 64 * (mix64 aKey % 1024)

/-- The machine with that context and, in the directory, an entry. -/
def dirState (c : Ctx) (state : Nat := 0) (owner : Nat := 0) : State :=
  let s := placed (smallUnit smallGroup)
  { s with ctxs := [c], hbm := if state = 0 then s.hbm else Sparse.setList unwritten s.hbm entryVa (bytesOfNat 64 (aEntry state owner)) }

def aWait : AdmWait :=
  { u := bootUnit.key, gid := 0, pc := BitVec.ofNat 64 bootPc, lane := 1, kind := 0, gen := 4, res := 0, inc := 0, slot := 0, extent := 0, estat := 0, detail := 0 }

def anAdm (slot : Option Nat) (owning : Bool) : Adm := { key := aKey, slot := slot, owning := owning, asked := none, probe := 0, active := true, waits := [aWait] }

/-- A slot on its way to residence, and one on its way out. -/
def comingRes (filled : Nat) : Res := { heldRes with state := .admitting, extent := 65536, filled := filled, dirva := entryVa }
def leavingRes (cpin : Nat) (forced : Bool) : Res := { heldRes with state := .departing, cpin := cpin, forced := forced }

/-- A page that is mapped; a directory that is busy, empty and that holds the object; an owner and none; an object whose first granule is
there; departures forced and not, complete with a pin and without; and one that is
asked for, while it is pinned, that departs already, and that is gone. -/
theorem witness_ResidencySteps :
    let Base (s : State) (c : Ctx) := s.ctx? c.id = some c
    (∃ s c va p lv n, Base s c ∧ walk s c va = .ok p ∧ sizeInfo p.size = some (lv, n))
    ∧ (let Asked (s : State) (c : Ctx) (a : Adm) := Base s c ∧ (c.adms.find? fun a => a.key == aKey && a.active) = some a ∧ a.slot = none
        ∧ c.find aKey = none
      (∃ s c a, Asked s c a ∧ lookup s c aKey a.probe = .busy 0)
      ∧ (∃ s c a w, Asked s c a ∧ lookup s c aKey a.probe = .absent ∧ w ∈ a.waits ∧ w.res = 0 ∧ isSuper w.u = false)
      ∧ ∃ s c a e slot, Asked s c a ∧ lookup s c aKey a.probe = .entry e ∧ e.invalid = false ∧ e.kind = 0
        ∧ (∃ w ∈ a.waits, w.res = 0 ∧ w.kind = e.kind ∧ w.gen = e.gen) ∧ e.fnmask.testBit c.fn = true ∧ c.pickSlot aKey = some slot
        ∧ c.findRun (granules e.size) = some 0)
    ∧ (let Owning (s : State) (c : Ctx) := Base s c ∧ (c.slotRes 3).state = .admitting ∧ (c.adms.any fun a => a.slot == some 3 && a.owning) = true;
      (∃ s c o, Owning s c ∧ takeOwner s c (c.slotRes 3) = .error o ∧ o / 2 ^ 48 = s.ident ∧ ∀ a ∈ c.adms, a.asked ≠ some o) ∧ ∃ s c s', Owning s c ∧ takeOwner s c (c.slotRes 3) = .ok s')
    ∧ (∃ s c, Base s c ∧ (c.slotRes 3).state = .admitting ∧ (c.slotRes 3).kind ≠ 2 ∧ min 65536 (c.slotRes 3).extent = (c.slotRes 3).filled)
    ∧ (∀ forced : Bool, ∃ s c, Base s c ∧ (c.slotRes 3).state = .resident ∧ if forced then (c.slotRes 3).pin ≠ 0 else (c.slotRes 3).pin = 0)
    ∧ (∀ forced : Bool, ∃ s c, Base s c ∧ (c.slotRes 3).state = .departing ∧ (c.slotRes 3).forced = forced ∧ (forced = true ∨ (c.slotRes 3).cpin = 0)
      ∧ (c.slotRes 3).dstep ≠ 2 ∧ (c.slotRes 3).dstep ≠ 1)
    ∧ (∃ s c, Base s c ∧ c.find aKey = some 3 ∧ (c.slotRes 3).state = .resident ∧ (c.slotRes 3).pin = 0)
    ∧ (∃ s c, Base s c ∧ c.find aKey = some 3 ∧ (c.slotRes 3).state ≠ .departing ∧ (c.slotRes 3).pin ≠ 0)
    ∧ (∃ s c, Base s c ∧ c.find aKey = some 3 ∧ (c.slotRes 3).state = .departing) ∧ ∃ s c, Base s c ∧ c.find aKey = none := by
  let c1 := dirCtx [] [anAdm none false]
  let c2 := dirCtx [(3, comingRes 0)] [anAdm (some 3) true]
  let c3 := dirCtx [(3, comingRes 65536)]
  let held (pin : Nat) : Ctx := { dirCtx [(3, { heldRes with pin := pin })] with index := [(aKey, 3)] }
  let going : Ctx := { dirCtx [(3, leavingRes 0 false)] with index := [(aKey, 3)] }
  have ho : takeOwner (dirState c2 1 77) c2 (c2.slotRes 3) = .error 77 := by decide +kernel
  have took : ∃ s', takeOwner (dirState c2 1) c2 (c2.slotRes 3) = .ok s' := ok_of_isOk (by decide +kernel)
  let page : Pte := { mem := 0, addr := 0, size := 5, dx := false, chk := false, x := true, w := true, rd := true, leaf := true, v := true }
  obtain ⟨s', hs⟩ := took
  refine ⟨⟨dirState c1, c1, 0x1FFFFF, page, 2, 21, by decide +kernel, by decide +kernel, rfl⟩,
    ⟨⟨dirState c1 3, c1, anAdm none false, by decide +kernel, by decide +kernel⟩,
      ⟨dirState c1, c1, anAdm none false, aWait, by decide +kernel, by decide +kernel, by decide +kernel⟩,
      ⟨dirState c1 1, c1, anAdm none false, dirEnt entryVa (aEntry 1), 0, by decide +kernel, by decide +kernel, by decide +kernel⟩⟩,
    ⟨⟨dirState c2 1 77, c2, 77, by decide +kernel, ho, by decide +kernel⟩, ⟨dirState c2 1, c2, s', by decide +kernel, hs⟩⟩,
    ⟨dirState c3, c3, by decide +kernel⟩, ?_, ?_, ⟨dirState (held 0), held 0, by decide +kernel⟩,
    ⟨dirState (held 1), held 1, by decide +kernel⟩, ⟨dirState going, going, by decide +kernel⟩, ⟨dirState c1, c1, by decide +kernel⟩⟩
  · intro forced
    cases forced
    · exact ⟨dirState (held 0), held 0, by decide +kernel⟩
    · exact ⟨dirState (held 1), held 1, by decide +kernel⟩
  · intro forced
    cases forced
    · exact ⟨dirState (dirCtx [(3, leavingRes 0 false)]), dirCtx [(3, leavingRes 0 false)], by decide +kernel⟩
    · exact ⟨dirState (dirCtx [(3, leavingRes 1 true)]), dirCtx [(3, leavingRes 1 true)], by decide +kernel⟩

end Sys2Proof.Tests
end

section
/-! PROOFS. O19: a word whose guard leaves no lane executing only moves on (R68), and a word that the decoder refuses takes ILLOP. -/

namespace Sys2Proof.Machine

variable {s : State} {c : Cx} {n : Nat}

/-! ## A guard that leaves no lane -/

/-- The outcome `r` of a word under guard `n` at `s` heeds the guard: where it leaves no lane, the word only moves on (R68). -/
def HeedsGuard (s : State) (n : Nat) (r : Host.Outcome State Fault Refusal) : Prop :=
  ∀ c, view? s n = some c → c.ex = 0#32 → r = .next (advance c s)

theorem word_heedsGuard (s : State) (o : Op) (body : Cx → Exc State) : HeedsGuard s o.grd (word s o body) := by
  intro c h hx
  rw [word_none h hx, (view?_spec h).1]

theorem wordCtl_heedsGuard (s : State) (o : Op) (body : Cx → Exc State) : HeedsGuard s o.grd (wordCtl s o body) := by
  intro c h hx
  rw [wordCtl_none h hx, (view?_spec h).1]

/-- A sum of .i64 takes pointers and has a body of its own; both bodies are words. -/
theorem addSub_heedsGuard (s : State) (o : Op) (a : ModA) (sub : Bool) : HeedsGuard s o.grd (addSub o a sub s) := by
  unfold addSub
  split
  · exact word_heedsGuard s o _
  · exact word_heedsGuard s o _

/-- barw looks at its guard itself, before the wait that its entry may be in. -/
theorem execBarw_heedsGuard (s : State) (o : Op) (x : ModX) : HeedsGuard s o.grd (execBarw o x s) := by
  intro c h hx
  simp [execBarw, h, hx]

/-- Every instruction that has a word heeds the guard in its GRD field: it is run by `word`, or by `wordCtl` where it places the lanes
itself. A step of another agent has no fields and so no guard. -/
theorem exec_heedsGuard (s : State) {i : Instr} {f : Fields} (hf : i.fields = some f) : HeedsGuard s f.grd (exec i s) := by
  cases i <;> cases hf
  case iadd | isub => exact addSub_heedsGuard s _ _ _
  case barw => exact execBarw_heedsGuard s _ _
  case bra | brx | call | ret | setprio | exitL | rgrp | rejoin | uiret => exact wordCtl_heedsGuard s _ _
  all_goals exact word_heedsGuard s _ _

/-! ## What moving on leaves unchanged -/

@[simp] theorem advance_rd (c : Cx) (s : State) (sp a : Nat) : (advance c s).rd sp a = s.rd sp a := rfl

theorem advance_unit?_ne (c : Cx) (s : State) {k : UKey} (hk : k ≠ c.u.key) : (advance c s).unit? k = s.unit? k :=
  State.unit?_modUnit_ne _ (fun _ hu => hu) hk

/-- The group that moves on differs in its frontier and in the mark `after` only. -/
theorem after_advance_self (h : view? s n = some c) :
    c.after (advance c s) = some { c.g with
      ents := addEntry (.new (c.e.pc + 12) c.e.prio c.e.mask) (c.g.ents.eraseIdx c.iss.ent), after := false } := by
  rw [after_advance, after_self h]
  rfl

/-! ## A word that the decoder refuses -/

/-- The decoder is asked before the guard is: its refusal is the trap, whatever the fields of the word (R68, R78). -/
theorem issueWord_of_decode_error {k : UKey} {gid ent w : Nat} {u : Unit} {g : Group} {e : Entry} {r : EncFault}
    (hu : s.unit? k = some u) (hg : u.grp? gid = some g) (he : g.ents[ent]? = some e) (hw : fetchWord s u e.pc 3 = .ok w)
    (hd : decode g.grant (isDet s u) w = .error r) : issueWord s k gid ent = .trap (fetchFault s k gid ent w e (illop r)) := by
  simp [issueWord, hu, hg, he, hw, hd]

end Sys2Proof.Machine

section
open Sys2Proof Sys2Proof.Machine

/-- Settles O19: the decoder refuses before the guard is read, and every word of the table heeds a guard that leaves no lane. -/
theorem guardedOff : Obligations.GuardedOff := by
  unfold Obligations.GuardedOff
  refine ⟨?_, ?_⟩
  · intro s k gid n u g e w field reason hu hg he hw hd
    rw [issueWord_of_decode_error hu hg he hw hd, fetchFault, illop, C.ILLOP]
  · intro s i f c hf h hx
    exact ⟨exec_heedsGuard s hf c h hx, after_advance_self h, fun _ hk => advance_unit?_ne c s hk, advance_rd c s⟩

end
end

section
/-! PROOFS. Words of family A (R92): the operands they accept, and the state that a lane-wise word leaves. -/

namespace Sys2Proof.Machine
open Sys2Proof.Claims

variable {s : State} {o : Op} {a : ModA} {c : Cx} {x : Opd} {n : Nat} {ok : List Tag}

/-! ## Operands whose tags are accepted (R27) -/

theorem Cx.tag_of_bears (h : Bears c x n ok) : c.tag x n = .ok (c.regTag x 0) := by
  obtain ⟨hall, -⟩ := h
  exact if_pos (by simpa using hall)

theorem Cx.any_of_bears (h : Bears c x n ok) : c.any x n = .ok (c.regTag x 0) := Cx.tag_of_bears h

theorem Cx.need_of_bears (h : Bears c x n ok) : c.need x n ok = .ok (c.regTag x 0) := by
  rw [Cx.need, Cx.tag_of_bears h]
  exact if_pos (by simpa using h.2)

theorem Cx.needB_of_bearsB (h : BearsB c o a n ok) : c.needB o a n ok = .ok ⟨⟩ := by
  unfold Cx.needB
  rcases h with himm | hreg
  · simp only [himm]
    rfl
  · rw [Cx.need_of_bears hreg]
    split <;> rfl

/-! ## Values of operands -/

theorem Cx.val_lt (c : Cx) (x : Opd) (n l : Nat) : c.val x n l < 2 ^ (32 * n) := by
  induction n with
  | zero => exact Nat.one_pos
  | succ n ih =>
    have hreg : (c.reg x n l).toNat + 1 ≤ 2 ^ 32 := (c.reg x n l).isLt
    calc c.val x (n + 1) l < 2 ^ (32 * n) + (c.reg x n l).toNat * 2 ^ (32 * n) := Nat.add_lt_add_right ih _
      _ = ((c.reg x n l).toNat + 1) * 2 ^ (32 * n) := by ring
      _ ≤ 2 ^ 32 * 2 ^ (32 * n) := Nat.mul_le_mul_right _ hreg
      _ = 2 ^ (32 * (n + 1)) := by ring

theorem width_eq_regs (t : Ty) : t.width = 32 * t.regs := by
  unfold Ty.width Ty.regs
  split <;> rfl

theorem width_pos (t : Ty) : 0 < t.width := by
  unfold Ty.width
  split <;> decide

/-- An operand of a type is a number of the type's width. -/
theorem Cx.val_lt_width (c : Cx) (x : Opd) (t : Ty) (l : Nat) : c.val x t.regs l < 2 ^ t.width :=
  width_eq_regs t ▸ c.val_lt x t.regs l

/-! ## The destination (R20, R67) -/

theorem Cx.dlanes_eq_inLanes (c : Cx) (d : Opd) : c.dlanes d = inLanes c d := by
  cases d <;> rfl

theorem laneVal_map {α : Type} (z : α) (f : Nat → α) {ls : List Nat} {l : Nat} (hl : l ∈ ls) :
    laneVal z (ls.map fun k => (k, f k)) l = f l := by
  induction ls with
  | nil => cases hl
  | cons k ks ih =>
    by_cases hk : k = l
    · simp [laneVal, hk]
    · have := ih ((List.mem_cons.1 hl).resolve_left (Ne.symm hk))
      simpa [laneVal, hk] using this

theorem Group.setVLanes_congr (g : Group) (r : Nat) {f f' : Nat → Word} {ls : List Nat} (h : ∀ l ∈ ls, f l = f' l) :
    g.setVLanes r f ls = g.setVLanes r f' ls := by
  induction ls generalizing g with
  | nil => rfl
  | cons l ls ih =>
    obtain ⟨hl, hls⟩ := List.forall_mem_cons.1 h
    rw [Group.setVLanes, Group.setVLanes, hl, ih _ hls]

theorem Group.setVRange_congr (g : Group) (r : Nat) (t : Tag) {f f' : Nat → Nat} {ls : List Nat} (n k : Nat) (h : ∀ l ∈ ls, f l = f' l) :
    g.setVRange r t f ls n k = g.setVRange r t f' ls n k := by
  induction n generalizing g k with
  | zero => rfl
  | succ n ih =>
    rw [Group.setVRange, Group.setVRange, ih,
      Group.setVLanes_congr g (r + k) (f' := fun l => BitVec.ofNat 32 (f' l / 2 ^ (32 * k))) (fun l hl => by rw [h l hl])]

theorem maskOf_congr {p q : Nat → Bool} {ls : List Nat} (h : ∀ l ∈ ls, p l = q l) : maskOf p ls = maskOf q ls :=
  List.foldl_ext _ _ _ fun m l hl => by rw [h l hl]

/-- A write depends only on the values in the lanes the destination is computed in. -/
theorem Cx.write_congr (c : Cx) (d : Opd) (n : Nat) (t : Tag) {f f' : Nat → Nat} (h : ∀ l ∈ inLanes c d, f l = f' l) :
    c.g.write d n t f c.ex = c.g.write d n t f' c.ex := by
  cases d with
  | v r => exact Group.setVRange_congr c.g r t n 0 h
  | s r | m r => simp only [Group.write, h (lowLane c.ex) (List.mem_singleton_self _)]
  | p r => rw [Group.write, Group.write, maskOf_congr fun l hl => by rw [h l hl]]
  | sp _ | res _ => rfl

@[simp] theorem flagsOf_zero (ls : List Nat) : flagsOf ls (fun _ => 0) = 0 := by
  simp [flagsOf]

/-- What a lane-wise word leaves: its values in the destination, the flags of its lanes together, and the entry moved on (R92). -/
theorem advance_pure (c : Cx) (d : Opd) (n : Nat) (t : Tag) (f : Nat → Nat × Nat) :
    advance c (c.pure d n t f) = wrote c d n t (fun l => (f l).1) (flagsOf (inLanes c d) fun l => (f l).2) := by
  unfold Cx.pure Cx.emit wrote flagsOf
  rw [Cx.dlanes_eq_inLanes, List.foldl_map]
  simp only
  rw [c.write_congr d n t fun l hl => by rw [laneVal_map _ _ hl]]

/-! ## How the shared bodies end -/

theorem word_of_issues {body : Cx → Exc State} {b : State} (h : Issues s o c) (hb : body c = .ok b) : word s o body = .next (advance c b) := by
  obtain ⟨-, hview, hex⟩ := h
  exact word_next hview hex hb

/-- A two-operand integer word whose operands are accepted. -/
theorem intBin_next (f : Nat → Nat → Nat × Nat) (h : Issues s o c) (ha : Bears c o.a a.ty.regs [a.ty.intTag])
    (hb : BearsB c o a a.ty.regs [a.ty.intTag]) :
    intBin o a f s = .next (wrote c o.d a.ty.regs a.ty.intTag (fun l => (f (c.val o.a a.ty.regs l) (c.bval o a a.ty.regs l)).1)
      (flagsOf (inLanes c o.d) fun l => (f (c.val o.a a.ty.regs l) (c.bval o a a.ty.regs l)).2)) := by
  rw [← advance_pure]
  refine word_of_issues h ?_
  simp only [Cx.need_of_bears ha, Cx.needB_of_bearsB hb]
  rfl

/-- A word over A and a 32-bit count or control. -/
theorem bitCtl_next (tag : Tag) (f : Nat → Nat → Nat) (h : Issues s o c) (ha : Bears c o.a a.ty.regs ok) :
    bitCtl o a tag f s = .next (wrote c o.d a.ty.regs tag (fun l => f (c.val o.a a.ty.regs l) (c.bval32 o a l)) 0) := by
  rw [← flagsOf_zero (inLanes c o.d), ← advance_pure c o.d a.ty.regs tag fun l => (f (c.val o.a a.ty.regs l) (c.bval32 o a l), 0)]
  refine word_of_issues h ?_
  simp only [Cx.any_of_bears ha]
  rfl

/-- Insertion into C of a field of A that the control word B places. -/
theorem execBfi_next {ok' : List Tag} (h : Issues s o c) (ha : Bears c o.a a.ty.regs ok) (hc : Bears c o.c a.ty.regs ok') :
    execBfi o a s = .next (wrote c o.d a.ty.regs .raw
      (fun l => insertField a.ty.width (c.val o.a a.ty.regs l) (c.val o.b 1 l) (c.val o.c a.ty.regs l)) 0) := by
  rw [← flagsOf_zero (inLanes c o.d), ← advance_pure c o.d a.ty.regs .raw fun l =>
    (insertField a.ty.width (c.val o.a a.ty.regs l) (c.val o.b 1 l) (c.val o.c a.ty.regs l), 0)]
  refine word_of_issues h ?_
  simp only [Cx.any_of_bears ha, Cx.any_of_bears hc]
  rfl

end Sys2Proof.Machine
end

section
/-! PROOFS. The integers that operands of a width stand for (R96). -/

namespace Sys2Proof.Machine

theorem wrap_of_bounds {w : Nat} {i : Int} (h0 : 0 ≤ i) (h1 : i < 2 ^ w) : wrap w i = i.toNat := by
  rw [wrap, Int.emod_eq_of_lt h0 h1]

theorem wrap_natCast {w v : Nat} (hv : v < 2 ^ w) : wrap w v = v :=
  wrap_of_bounds (Int.natCast_nonneg v) (by exact_mod_cast hv)

/-- Sign extension is a difference of whole multiples of `2 ^ w`. -/
theorem sext_emod (w v : Nat) : sext w v % 2 ^ w = (v % 2 ^ w : Nat) := by
  unfold sext
  split <;> simp

/-- A field of a number sign-extends as the number does. -/
theorem sext_mod_two_pow (n v : Nat) : sext n (v % 2 ^ n) = sext n v := by
  simp [sext]

theorem sext_bounds (w v : Nat) : -2 ^ w ≤ sext w v ∧ sext w v < 2 ^ w := by
  have h0 : (0 : Int) ≤ v % 2 ^ w := Int.emod_nonneg _ (by positivity)
  have h1 : (v : Int) % 2 ^ w < 2 ^ w := Int.emod_lt_of_pos _ (by positivity)
  unfold sext
  split <;> constructor <;> omega

theorem int_emod (t : Ty) (v : Nat) : t.int v % 2 ^ t.width = (v % 2 ^ t.width : Nat) := by
  unfold Ty.int
  split
  · exact sext_emod ..
  · simp

/-- The integer of an operand, brought back to the width, is the operand. -/
theorem wrap_int (t : Ty) {v : Nat} (hv : v < 2 ^ t.width) : wrap t.width (t.int v) = v := by
  rw [wrap, int_emod, Int.toNat_natCast, Nat.mod_eq_of_lt hv]

theorem int_unsigned {t : Ty} {x : Nat} (ht : t.isSigned = false) (hx : x < 2 ^ t.width) : t.int x = x := by
  simp [Ty.int, ht, Nat.mod_eq_of_lt hx]

end Sys2Proof.Machine
end

section
/-! PROOFS. O4: integer division (R96, R98). -/

namespace Sys2Proof.Machine

/-! ## The saturated values (R50) -/

theorem two_pow_width {w : Nat} (hw : 0 < w) : (2 : Int) ^ w = 2 * 2 ^ (w - 1) := by
  obtain ⟨m, rfl⟩ := Nat.exists_eq_succ_of_ne_zero hw.ne'
  exact pow_succ' 2 m

theorem satInt_signed_neg {w : Nat} (hw : 0 < w) : satInt w true true = wrap w (-2 ^ (w - 1)) := by
  have hpow := two_pow_width hw
  have hpos : (0 : Int) < 2 ^ (w - 1) := by positivity
  have hmod : (-2 ^ (w - 1) : Int) % 2 ^ w = 2 ^ (w - 1) := by
    rw [← Int.add_emod_right, Int.emod_eq_of_lt] <;> omega
  rw [wrap, hmod]
  exact (Int.toNat_natCast (2 ^ (w - 1))).symm

theorem satInt_signed_pos {w : Nat} (hw : 0 < w) : satInt w true false = wrap w (2 ^ (w - 1) - 1) := by
  have hpow := two_pow_width hw
  have hpos : (0 : Int) < 2 ^ (w - 1) := by positivity
  have hcast : ((2 ^ (w - 1) : Nat) : Int) = 2 ^ (w - 1) := by norm_cast
  rw [wrap_of_bounds (by omega) (by omega)]
  show 2 ^ (w - 1) - 1 = _
  omega

theorem satInt_unsigned_pos (w : Nat) : satInt w false false = wrap w (2 ^ w - 1) := by
  have hpos : (0 : Int) < 2 ^ w := by positivity
  have hcast : ((2 ^ w : Nat) : Int) = 2 ^ w := by norm_cast
  rw [wrap_of_bounds (by omega) (by omega)]
  show 2 ^ w - 1 = _
  omega

/-! ## Quotient and remainder (R98) -/

/-- The boundary cases of R98: a division by zero, and the least number of a signed type divided by -1. -/
abbrev DivEdge (t : Ty) (i j : Int) : Prop := j = 0 ∨ t.isSigned = true ∧ i = -2 ^ (t.width - 1) ∧ j = -1

theorem divEdge_zero (t : Ty) (i : Int) : DivEdge t i 0 := .inl rfl

/-- The quotient truncated towards zero, saturated in the boundary cases. -/
def quotient (t : Ty) (i j : Int) : Int :=
  if j = 0 then (if t.isSigned then (if i < 0 then -2 ^ (t.width - 1) else 2 ^ (t.width - 1) - 1) else 2 ^ t.width - 1)
  else if DivEdge t i j then 2 ^ (t.width - 1) - 1 else i.tdiv j

/-- The remainder of that quotient; A where B is zero and 0 where the quotient saturates. -/
def remainder (t : Ty) (i j : Int) : Int := if j = 0 then i else if DivEdge t i j then 0 else i - j * i.tdiv j

/-- A division by zero saturates with the sign of A (R98). -/
theorem satInt_eq_quotient_zero (t : Ty) (i : Int) :
    satInt t.width t.isSigned (t.isSigned && decide (i < 0)) = wrap t.width (quotient t i 0) := by
  rw [quotient, if_pos rfl]
  cases t.isSigned with
  | false => exact satInt_unsigned_pos _
  | true =>
    by_cases hneg : i < 0
    · simpa [hneg] using satInt_signed_neg (width_pos t)
    · simpa [hneg] using satInt_signed_pos (width_pos t)

/-- Where B is not zero, the test of the model for its second boundary case is R98's. -/
theorem overflow_iff_divEdge (t : Ty) (i : Int) {j : Int} (hj : j ≠ 0) :
    (t.isSigned && i = -(2 ^ (t.width - 1) : Nat) && j = -1) = true ↔ DivEdge t i j := by
  simp [DivEdge, hj, and_assoc]

theorem divide_eq (t : Ty) (x y : Nat) :
    divide t x y = (wrap t.width (quotient t (t.int x) (t.int y)), if DivEdge t (t.int x) (t.int y) then 32 else 0) := by
  unfold divide
  by_cases hy : t.int y = 0
  · simp only [hy, divEdge_zero, if_true, satInt_eq_quotient_zero, fSAT]
  · by_cases hedge : DivEdge t (t.int x) (t.int y)
    · simp only [hy, if_false, overflow_iff_divEdge t _ hy, hedge, if_true, quotient, fSAT, satInt_signed_pos (width_pos t)]
    · simp only [hy, if_false, overflow_iff_divEdge t _ hy, hedge, quotient]

theorem remain_eq (t : Ty) {x : Nat} (y : Nat) (hx : x < 2 ^ t.width) :
    remain t x y = (wrap t.width (remainder t (t.int x) (t.int y)), if DivEdge t (t.int x) (t.int y) then 32 else 0) := by
  unfold remain
  by_cases hy : t.int y = 0
  · simp only [hy, divEdge_zero, if_true, remainder, wrap_int t hx, fSAT]
  · by_cases hedge : DivEdge t (t.int x) (t.int y)
    · simp only [hy, if_false, overflow_iff_divEdge t _ hy, hedge, if_true, remainder, fSAT, wrap, Int.zero_emod, Int.toNat_zero]
    · simp only [hy, if_false, overflow_iff_divEdge t _ hy, hedge, remainder, Int.tmod_def]

end Sys2Proof.Machine

section
open Sys2Proof Sys2Proof.Machine Sys2Proof.Claims

/-- Settles O4: both words are two-operand integer words, and each lane's value and flag are those of R98's table. -/
theorem integerDivision : Obligations.IntegerDivision := by
  unfold Obligations.IntegerDivision
  intro s o a c hissues _ ha hb
  constructor
  · have hnext := intBin_next (divide a.ty) hissues ha hb
    simp only [divide_eq] at hnext
    exact hnext
  · have hnext := intBin_next (remain a.ty) hissues ha hb
    simp only [remain_eq a.ty _ (c.val_lt_width o.a a.ty _)] at hnext
    exact hnext

end
end

section
/-! PROOFS. O7: shifts, rotations and bit fields (R99, R100). -/

namespace Sys2Proof.Machine

/-! ## Right shifts (R99) -/

/-- A shift by more than the width leaves the sign, as a shift by the width does. -/
theorem ediv_two_pow_of_width_le {w n : Nat} {i : Int} (hlo : -2 ^ w ≤ i) (hhi : i < 2 ^ w) (hn : w ≤ n) :
    i / 2 ^ n = if i < 0 then -1 else 0 := by
  have hle : (2 : Int) ^ w ≤ 2 ^ n := pow_le_pow_right₀ (by decide) hn
  have hpos : (0 : Int) < 2 ^ n := by positivity
  split
  · rw [Int.ediv_eq_iff_of_pos hpos]; constructor <;> omega
  · exact Int.ediv_eq_zero_of_lt (by omega) (by omega)

/-- A signed shift is limited to the width, which does not change it. -/
theorem sext_ediv_min (w v n : Nat) : sext w v / 2 ^ min n w = sext w v / 2 ^ n := by
  obtain ⟨hlo, hhi⟩ := sext_bounds w v
  by_cases hn : n ≤ w
  · rw [Nat.min_eq_left hn]
  · have hle : w ≤ n := by omega
    rw [Nat.min_eq_right hle, ediv_two_pow_of_width_le hlo hhi le_rfl, ediv_two_pow_of_width_le hlo hhi hle]

/-- Both shifts of R99 are the division of the operand's integer, rounded down. -/
theorem shiftRight_eq (t : Ty) {x : Nat} (n : Nat) (hx : x < 2 ^ t.width) : shiftRight t x n = wrap t.width (t.int x / 2 ^ n) := by
  unfold shiftRight
  cases ht : t.isSigned with
  | true =>
    rw [if_pos rfl, Ty.int, if_pos ht, ← sext_ediv_min t.width x n]
    norm_cast
  | false =>
    have hdiv : (x : Int) / 2 ^ n = (x / 2 ^ n : Nat) := by norm_cast
    rw [if_neg Bool.false_ne_true, int_unsigned ht hx, hdiv, wrap_natCast ((Nat.div_le_self x _).trans_lt hx)]
    by_cases hn : t.width ≤ n
    · rw [if_pos hn, Nat.div_eq_of_lt (hx.trans_le (Nat.pow_le_pow_right (by decide) hn))]
    · rw [if_neg hn]

/-! ## Rotations (R99) -/

/-- A rotation by less than the width moves the low bits up and the high bits below them. -/
theorem rotLeft_eq {w m : Nat} (x n : Nat) (hm : n % w = m) (hle : m ≤ w) :
    rotLeft w x n = 2 ^ m * (x % 2 ^ (w - m)) + x / 2 ^ (w - m) := by
  have hw : 2 ^ w = 2 ^ m * 2 ^ (w - m) := by rw [← pow_add, Nat.add_sub_cancel' hle]
  rw [rotLeft, hm, mul_comm x, hw, Nat.mul_mod_mul_left]

theorem rotated_lt {w m x : Nat} (hx : x < 2 ^ w) (hle : m ≤ w) : x / 2 ^ (w - m) < 2 ^ m := by
  rw [Nat.div_lt_iff_lt_mul (by positivity), ← pow_add, Nat.add_sub_cancel' hle]
  exact hx

theorem rotLeft_lt {w x : Nat} (n : Nat) (hw : 0 < w) (hx : x < 2 ^ w) : rotLeft w x n < 2 ^ w := by
  have hle : n % w ≤ w := (Nat.mod_lt n hw).le
  have hlow := rotated_lt hx hle
  have hhigh : x % 2 ^ (w - n % w) + 1 ≤ 2 ^ (w - n % w) := Nat.mod_lt _ (by positivity)
  calc rotLeft w x n = 2 ^ (n % w) * (x % 2 ^ (w - n % w)) + x / 2 ^ (w - n % w) := rotLeft_eq x n rfl hle
    _ < 2 ^ (n % w) * (x % 2 ^ (w - n % w) + 1) := by rw [Nat.mul_add_one]; exact Nat.add_lt_add_left hlow _
    _ ≤ 2 ^ (n % w) * 2 ^ (w - n % w) := Nat.mul_le_mul_left _ hhigh
    _ = 2 ^ w := by rw [← pow_add, Nat.add_sub_cancel' hle]

/-- Bit `i` moves to `(i + n) mod W`. -/
theorem testBit_rotLeft {w x i : Nat} (n : Nat) (hx : x < 2 ^ w) (hi : i < w) : (rotLeft w x n).testBit ((i + n) % w) = x.testBit i := by
  have hlt : n % w < w := Nat.mod_lt n (by omega)
  rw [rotLeft_eq x n rfl hlt.le, Nat.testBit_two_pow_mul_add _ (rotated_lt hx hlt.le), Nat.add_mod, Nat.mod_eq_of_lt hi]
  by_cases hwrap : i + n % w < w
  · rw [Nat.mod_eq_of_lt hwrap, if_neg (by omega), Nat.add_sub_cancel, Nat.testBit_mod_two_pow]
    simp [show i < w - n % w by omega]
  · rw [Nat.mod_eq_sub_mod (by omega), Nat.mod_eq_of_lt (by omega), if_pos (by omega), Nat.testBit_div_two_pow]
    congr 1
    omega

/-! ## Bit fields (R100) -/

theorem fieldLen_add_le {w ctl : Nat} (h : ctl % 256 < w) : ctl % 256 + fieldLen w ctl ≤ w := by
  rw [fieldLen, if_pos h]
  omega

theorem extract_eq (t : Ty) (x ctl : Nat) : extract t x ctl =
    if fieldLen t.width ctl = 0 then 0
    else if t.isSigned then wrap t.width (sext (fieldLen t.width ctl) (x / 2 ^ (ctl % 256))) else x / 2 ^ (ctl % 256) % 2 ^ fieldLen t.width ctl := by
  simp only [extract, sext_mod_two_pow]

/-- The base below the field, the field, and the base above it. -/
theorem insertField_eq (w x ctl base : Nat) : insertField w x ctl base =
    2 ^ (ctl % 256) * (2 ^ fieldLen w ctl * (base / 2 ^ (ctl % 256 + fieldLen w ctl)) + x % 2 ^ fieldLen w ctl) + base % 2 ^ (ctl % 256) := by
  simp only [insertField]
  split
  · next h => simp [h, Nat.mod_one, Nat.div_add_mod]
  · ring

theorem testBit_insertField (w x ctl base i : Nat) : (insertField w x ctl base).testBit i =
    if ctl % 256 ≤ i ∧ i < ctl % 256 + fieldLen w ctl then x.testBit (i - ctl % 256) else base.testBit i := by
  rw [insertField_eq, Nat.testBit_two_pow_mul_add _ (Nat.mod_lt _ (by positivity))]
  by_cases hlow : i < ctl % 256
  · simp [hlow, Nat.not_le.2 hlow]
  · rw [if_neg hlow, Nat.testBit_two_pow_mul_add _ (Nat.mod_lt _ (by positivity))]
    by_cases hin : i - ctl % 256 < fieldLen w ctl
    · rw [if_pos hin, if_pos (by omega), Nat.testBit_mod_two_pow]
      simp [hin]
    · rw [if_neg hin, if_neg (by omega), Nat.testBit_div_two_pow]
      congr 1
      omega

/-- A field inside the width leaves the number inside the width. -/
theorem insertField_lt {w base : Nat} (x ctl : Nat) (hbase : base < 2 ^ w) : insertField w x ctl base < 2 ^ w := by
  refine Nat.lt_pow_two_of_testBit _ fun i hi => ?_
  have hout : ¬ (ctl % 256 ≤ i ∧ i < ctl % 256 + fieldLen w ctl) := by
    by_cases hpos : ctl % 256 < w
    · have := fieldLen_add_le hpos
      omega
    · simp only [fieldLen, if_neg hpos]
      omega
  rw [testBit_insertField, if_neg hout]
  exact Nat.testBit_lt_two_pow (hbase.trans_le (Nat.pow_le_pow_right (by decide) hi))

end Sys2Proof.Machine

section
open Sys2Proof Sys2Proof.Machine Sys2Proof.Claims

/-- Settles O7: each word completes with its function of A and the count or control, and these functions are the shifts, the rotations
and the fields of R99 and R100. -/
theorem shiftsAndFields : Obligations.ShiftsAndFields := by
  unfold Obligations.ShiftsAndFields
  intro s o a c hissues _ ha w x k
  have hx (l : Nat) : x l < 2 ^ w := c.val_lt_width o.a a.ty l
  have hshl := bitCtl_next a.ty.bitTag (shiftLeft w) hissues ha
  have hshr := bitCtl_next a.ty.bitTag (shiftRight a.ty) hissues ha
  simp only [shiftRight_eq a.ty _ (c.val_lt_width o.a a.ty _)] at hshr
  have hbfx := bitCtl_next a.ty.bitTag (extract a.ty) hissues ha
  simp only [extract_eq] at hbfx
  refine ⟨hshl, hshr, fun _ hfn => ?_, hbfx, fun _ hc => ?_⟩
  · refine ⟨_, bitCtl_next .raw (fun x n => rotLeft w x (if o.fn = 1 then w - n % w else n)) hissues ha, fun l => ⟨?_, fun i hi => ?_⟩⟩
    · exact rotLeft_lt _ (width_pos a.ty) (hx l)
    · have hmoves (n : Nat) := testBit_rotLeft n (hx l) hi
      rcases Nat.le_one_iff_eq_zero_or_eq_one.1 hfn with hleft | hright
      · rw [hleft]
        exact hmoves (k l)
      · rw [hright]
        exact hmoves (w - k l % w)
  · refine ⟨_, execBfi_next hissues ha hc, fun l => ⟨?_, fun i _ => ?_⟩⟩
    · exact insertField_lt _ _ (c.val_lt_width o.c a.ty l)
    · exact testBit_insertField ..

end
end

section
/-! PROOFS. O26: lane results in lane order, the names of pointers (R164, R165) and the pin counts of their objects (R166). -/

namespace Sys2Proof.Machine
open Sys2Proof.Claims

variable {s : State} {c : Cx} {o : Op} {x : Opd} {l : Nat} {ls : List Nat}

/-! ## Executing lanes -/

theorem exists_lane_of_ne_zero {m : Word} (h : m ≠ 0) : ∃ i < 32, m.getLsbD i = true := by
  by_contra! hnone
  exact h (BitVec.eq_of_getLsbD_eq fun i hi => by simpa using hnone i hi)

theorem lowLane_mem_lanesOf {m : Word} (h : m ≠ 0) : lowLane m ∈ lanesOf m := by
  obtain ⟨i, hi, hbit⟩ := exists_lane_of_ne_zero h
  obtain ⟨k, hk⟩ := Option.isSome_iff_exists.1 (List.find?_isSome.2 ⟨i, List.mem_range.2 hi, hbit⟩)
  rw [lowLane, hk]
  exact List.mem_filter.2 ⟨List.mem_of_find?_eq_some hk, List.find?_some (p := fun i => m.getLsbD i) hk⟩

theorem lanesOf_sorted (m : Word) : (lanesOf m).Pairwise (· < ·) := List.pairwise_lt_range.filter _

theorem Cx.lanes_sorted (c : Cx) : c.lanes.Pairwise (· < ·) := lanesOf_sorted c.ex

theorem inLanes_sorted (c : Cx) (d : Opd) : (inLanes c d).Pairwise (· < ·) := by
  unfold inLanes
  split
  · exact List.pairwise_singleton ..
  · exact List.pairwise_singleton ..
  · exact lanesOf_sorted _

theorem mem_lanes_of_mem_inLanes {d : Opd} (hex : c.ex ≠ 0) (hl : l ∈ inLanes c d) : l ∈ c.lanes := by
  unfold inLanes at hl
  split at hl
  · exact List.mem_singleton.1 hl ▸ lowLane_mem_lanesOf hex
  · exact List.mem_singleton.1 hl ▸ lowLane_mem_lanesOf hex
  · exact hl

/-! ## Lane results (R92, R141) -/

theorem collect_ok {α : Type} {f : Nat → Exc α} {v : Nat → α} (h : ∀ l ∈ ls, f l = .ok (v l)) :
    collect (ls.map fun l => (l, f l)) = .ok (ls.map fun l => (l, v l)) := by
  induction ls with
  | nil => rfl
  | cons l ls ih =>
    obtain ⟨hl, hls⟩ := List.forall_mem_cons.1 h
    simp only [List.map_cons, hl, collect, ih hls]
    rfl

/-- Where every lane gives a value, the values are the result. -/
theorem mapLanes_ok {α : Type} {f : Nat → Exc α} {v : Nat → α} (h : ∀ l ∈ ls, f l = .ok (v l)) :
    mapLanes f ls = .ok (ls.map fun l => (l, v l)) := by
  have hall : (ls.map fun l => (l, f l)).filter (fun r => !isWait r.2) = ls.map fun l => (l, f l) := by
    rw [List.filter_eq_self, List.forall_mem_map]
    intro l hl
    simp [h l hl, isWait]
  simp only [mapLanes, hall, collect_ok h]
  rfl

/-- The trap of the lowest lane that traps is the result. -/
theorem mapLanes_trap {α : Type} {f : Nat → Exc α} {t : Trap} (hsorted : ls.Pairwise (· < ·)) (hl : l ∈ ls)
    (hbelow : ∀ k ∈ ls, k < l → ∃ v, f k = .ok v) (htrap : f l = .error (.trap t)) : mapLanes f ls = .error (.trap t) := by
  have hcollect : collect ((ls.map fun l => (l, f l)).filter fun r => !isWait r.2) = .error (.trap t) := by
    induction ls with
    | nil => cases hl
    | cons k ks ih =>
      obtain ⟨hk, hks⟩ := List.pairwise_cons.1 hsorted
      rcases List.mem_cons.1 hl with rfl | hmem
      · simp [htrap, isWait, collect]
      · obtain ⟨v, hv⟩ := hbelow k List.mem_cons_self (hk l hmem)
        have hrest := ih hks hmem fun j hj => hbelow j (List.mem_cons_of_mem k hj)
        rw [List.map_cons, List.filter_cons_of_pos (by simp [hv, isWait])]
        simp only [hv, collect, hrest]
        rfl
  simp only [mapLanes, hcollect]
  rfl

theorem word_trap_of_issues {body : Cx → Exc State} {t : Trap} (h : Issues s o c) (hb : body c = .error (.trap t)) :
    word s o body = .next (takeTrap c s t) := by
  obtain ⟨-, hview, hex⟩ := h
  rw [word_trap hview hex hb, (view?_spec hview).1]

/-! ## Operands tagged PTR -/

/-- An operand whose two registers are both tagged PTR. -/
abbrev Cx.IsPtrPair (c : Cx) (x : Opd) : Prop := c.regTag x 0 = .ptr ∧ c.regTag x 1 = .ptr

theorem Cx.tag_pair (c : Cx) (x : Opd) :
    c.tag x 2 = if c.regTag x 1 = c.regTag x 0 then .ok (c.regTag x 0) else c.format x c.l0 := by
  simp [Cx.tag, List.range_succ]

theorem Cx.needPtr_ok (h : c.IsPtrPair x) : c.needPtr x = .ok ⟨⟩ := by
  obtain ⟨h0, h1⟩ := h
  simp only [Cx.needPtr, Cx.tag_pair, h0, h1, if_true]
  rfl

/-- The trap on an operand of another tag; its detail names the tag of the first register. -/
def Cx.formatTrap (c : Cx) (x : Opd) : Trap := { code := C.FORMAT, detail := x.code + (c.regTag x 0).code * 2 ^ 9 + c.l0 * 2 ^ 13 }

theorem Cx.needPtr_format (h : ¬ c.IsPtrPair x) : c.needPtr x = .error (.trap (c.formatTrap x)) := by
  by_cases h1 : c.regTag x 1 = c.regTag x 0
  · have h0 : c.regTag x 0 ≠ .ptr := fun h0 => h ⟨h0, h1.trans h0⟩
    rw [Cx.needPtr, Cx.tag_pair, if_pos h1]
    exact if_neg h0
  · rw [Cx.needPtr, Cx.tag_pair, if_neg h1]
    rfl

/-! ## The name of a pointer (R164) -/

theorem pointerName_zero (y : Ctx) : pointerName y 0 = some 0 := rfl

section
variable {y : Ctx} {p : Nat}

/-- A history entry is valid where its top bit is set. -/
theorem QWord.valid_eq (h : QWord) : h.getLsbD 127 = decide (2 ^ 127 ≤ h.toNat) := by
  rw [← BitVec.msb_eq_getLsbD_last, BitVec.msb_eq_decide]

theorem pointerName_none (hp : p ≠ 0) (h : isPtr p = false ∨ y.slots ≤ ptrSlot p) : pointerName y p = none := by
  rcases h with hptr | hslot
  · simp [pointerName, hp, hptr]
  · simp [pointerName, hp, hslot]

theorem pointerName_current (hp : p ≠ 0) (hptr : isPtr p = true) (hslot : ptrSlot p < y.slots)
    (hcur : (y.slotRes (ptrSlot p)).current (ptrInc p) = true) : pointerName y p = some ((y.slotRes (ptrSlot p)).name (ptrOff p)) := by
  simp [pointerName, hp, hptr, Nat.not_le.2 hslot, hcur]

theorem pointerName_kept (hp : p ≠ 0) (hptr : isPtr p = true) (hslot : ptrSlot p < y.slots)
    (hcur : (y.slotRes (ptrSlot p)).current (ptrInc p) = false) (hkept : 2 ^ 127 ≤ (y.histEnt (ptrSlot p) (ptrInc p)).toNat) :
    pointerName y p = some (longName (nameKind (y.histEnt (ptrSlot p) (ptrInc p)).toNat) (nameKey (y.histEnt (ptrSlot p) (ptrInc p)).toNat)
      (nameGen (y.histEnt (ptrSlot p) (ptrInc p)).toNat) (ptrOff p)) := by
  simp only [pointerName, hp, hptr, Nat.not_le.2 hslot, hcur, QWord.valid_eq, hkept, if_false, if_true, Bool.not_true, Bool.false_eq_true,
    decide_true]

theorem pointerName_gone (hp : p ≠ 0) (hptr : isPtr p = true) (hslot : ptrSlot p < y.slots)
    (hcur : (y.slotRes (ptrSlot p)).current (ptrInc p) = false) (hgone : (y.histEnt (ptrSlot p) (ptrInc p)).toNat < 2 ^ 127) :
    pointerName y p = none := by
  simp only [pointerName, hp, hptr, Nat.not_le.2 hslot, hcur, QWord.valid_eq, Nat.not_le.2 hgone, if_false, Bool.not_true,
    Bool.false_eq_true, decide_false]

end

/-- The trap on a pointer of lane `l` that names no incarnation. -/
def Cx.noNameTrap (c : Cx) (x : Opd) (l : Nat) : Trap := .lane C.XLATE l (c.val x 2 l)

/-- The lookup by its outcome. `nameAt` is unfolded as a function here: unfolded at its arguments, it would have the kernel evaluate
`pointerName`'s test for zero on a pair's value, a multiplication by 2^32 that it carries out in unary. -/
theorem Cx.nameAt_eq (c : Cx) (x : Opd) (l : Nat) :
    c.nameAt x l = (pointerName c.ctx (c.val x 2 l)).elim (.error (.trap (c.noNameTrap x l))) .ok := by
  generalize hf : Cx.nameAt = f
  delta Cx.nameAt at hf
  subst hf
  dsimp only
  cases pointerName c.ctx (c.val x 2 l) <;> rfl

theorem Cx.nameAt_some {n : Nat} (h : pointerName c.ctx (c.val x 2 l) = some n) : c.nameAt x l = .ok n := by
  rw [Cx.nameAt_eq, h, Option.elim_some]

theorem Cx.nameAt_none (h : pointerName c.ctx (c.val x 2 l) = none) : c.nameAt x l = .error (.trap (c.noNameTrap x l)) := by
  rw [Cx.nameAt_eq, h, Option.elim_none]

theorem Cx.nameAt_of_isSome (h : (pointerName c.ctx (c.val x 2 l)).isSome = true) : ∃ n, c.nameAt x l = .ok n := by
  obtain ⟨n, hn⟩ := Option.isSome_iff_exists.1 h
  exact ⟨n, Cx.nameAt_some hn⟩

/-! ## peq (R164) -/

/-- What a lane of peq computes: the comparison of its two names, A's looked up first. -/
def Cx.namesAgree (c : Cx) (o : Op) (l : Nat) : Exc Bool := do
  let p ← c.nameAt o.a l
  let q ← c.nameAt o.b l
  return sameName p q

/-- The body of peq behind its checks of the tags. -/
def Cx.peqLanes (c : Cx) (o : Op) : Exc State := do
  let r ← mapLanes (c.namesAgree o) c.lanes
  return c.put (c.g.write o.d 1 .raw (fun l => if laneVal false r l then 1 else 0) c.ex)

theorem execPeq_eq (o : Op) (x : ModX) (s : State) :
    execPeq o x s = (word s o fun c => do
      c.needPtr o.a
      c.needPtr o.b
      c.peqLanes o) := rfl

theorem sameName_iff (m n : Nat) : sameName m n = true ↔
    if m = 0 ∨ n = 0 then m = n else nameKey m = nameKey n ∧ nameOff m = nameOff n := by
  unfold sameName
  by_cases h : m = 0 ∨ n = 0 <;> simp [h]

theorem Cx.namesAgree_ok {m n : Nat} (ha : c.nameAt o.a l = .ok m) (hb : c.nameAt o.b l = .ok n) :
    c.namesAgree o l = .ok (sameName m n) := by
  rw [Cx.namesAgree, ha, hb]
  rfl

theorem Cx.namesAgree_error_left {e : Stop} (ha : c.nameAt o.a l = .error e) : c.namesAgree o l = .error e := by
  rw [Cx.namesAgree, ha]
  rfl

theorem Cx.namesAgree_error_right {m : Nat} {e : Stop} (ha : c.nameAt o.a l = .ok m) (hb : c.nameAt o.b l = .error e) :
    c.namesAgree o l = .error e := by
  rw [Cx.namesAgree, ha, hb]
  rfl

theorem execPeq_next (x : ModX) {m n : Nat → Nat} (h : Issues s o c) (ha : c.IsPtrPair o.a) (hb : c.IsPtrPair o.b)
    (hm : ∀ l ∈ c.lanes, c.nameAt o.a l = .ok (m l)) (hn : ∀ l ∈ c.lanes, c.nameAt o.b l = .ok (n l)) :
    execPeq o x s = .next (advance c (c.put (c.g.write o.d 1 .raw (fun l => if sameName (m l) (n l) then 1 else 0) c.ex))) := by
  have ⟨_, _, hex⟩ := h
  have hlanes := mapLanes_ok fun l hl => Cx.namesAgree_ok (hm l hl) (hn l hl)
  have hwrite := c.write_congr o.d 1 .raw
    (f := fun l => if laneVal false (c.lanes.map fun k => (k, sameName (m k) (n k))) l then 1 else 0)
    (f' := fun l => if sameName (m l) (n l) then 1 else 0)
    fun l hl => by rw [laneVal_map _ _ (mem_lanes_of_mem_inLanes hex hl)]
  rw [execPeq_eq, ← hwrite]
  refine word_of_issues h ?_
  simp only [Cx.needPtr_ok ha, Cx.needPtr_ok hb, Cx.peqLanes, hlanes]
  rfl

theorem execPeq_trap (x : ModX) {t : Trap} (h : Issues s o c) (ha : c.IsPtrPair o.a) (hb : c.IsPtrPair o.b) (hl : l ∈ c.lanes)
    (hbelow : ∀ k ∈ c.lanes, k < l → ∃ v, c.namesAgree o k = .ok v) (htrap : c.namesAgree o l = .error (.trap t)) :
    execPeq o x s = .next (takeTrap c s t) := by
  rw [execPeq_eq]
  refine word_trap_of_issues h ?_
  simp only [Cx.needPtr_ok ha, Cx.needPtr_ok hb, Cx.peqLanes, mapLanes_trap c.lanes_sorted hl hbelow htrap]
  rfl

theorem execPeq_format_left (x : ModX) (h : Issues s o c) (ha : ¬ c.IsPtrPair o.a) :
    execPeq o x s = .next (takeTrap c s (c.formatTrap o.a)) :=
  word_trap_of_issues h (by rw [Cx.needPtr_format ha]; rfl)

theorem execPeq_format_right (x : ModX) (h : Issues s o c) (ha : c.IsPtrPair o.a) (hb : ¬ c.IsPtrPair o.b) :
    execPeq o x s = .next (takeTrap c s (c.formatTrap o.b)) :=
  word_trap_of_issues h (by rw [Cx.needPtr_ok ha, Cx.needPtr_format hb]; rfl)

/-! ## pname (R165) -/

theorem execPname_next (x : ModX) {m : Nat → Nat} (h : Issues s o c) (ha : c.IsPtrPair o.a)
    (hm : ∀ l ∈ inLanes c o.d, c.nameAt o.a l = .ok (m l)) :
    execPname o x s = .next (advance c (c.put (c.g.write o.d 4 .name m c.ex))) := by
  have hwrite := c.write_congr o.d 4 .name (f := laneVal 0 ((inLanes c o.d).map fun l => (l, m l))) (f' := m)
    fun l hl => laneVal_map _ _ hl
  rw [← hwrite]
  refine word_of_issues h ?_
  simp only [Cx.needPtr_ok ha, Cx.dlanes_eq_inLanes, mapLanes_ok hm]
  rfl

theorem execPname_trap (x : ModX) {t : Trap} (h : Issues s o c) (ha : c.IsPtrPair o.a) (hl : l ∈ inLanes c o.d)
    (hbelow : ∀ k ∈ inLanes c o.d, k < l → ∃ v, c.nameAt o.a k = .ok v) (htrap : c.nameAt o.a l = .error (.trap t)) :
    execPname o x s = .next (takeTrap c s t) := by
  refine word_trap_of_issues h ?_
  simp only [Cx.needPtr_ok ha, Cx.dlanes_eq_inLanes, mapLanes_trap (inLanes_sorted c o.d) hl hbelow htrap]
  rfl

theorem execPname_format (x : ModX) (h : Issues s o c) (ha : ¬ c.IsPtrPair o.a) :
    execPname o x s = .next (takeTrap c s (c.formatTrap o.a)) :=
  word_trap_of_issues h (by rw [Cx.needPtr_format ha]; rfl)

/-! ## The pin counts that the lanes leave (R166) -/

section
variable {α : Type} {r : List (Nat × α)}

/-- A list of values by key after one of them is set, as pinCounts sets it. -/
theorem laneVal_set (d v : α) (r : List (Nat × α)) (i k : Nat) :
    laneVal d ((i, v) :: r.filter (·.1 != i)) k = if k = i then v else laneVal d r k := by
  by_cases hk : k = i
  · simp [laneVal, hk]
  · have hfind : (r.filter (·.1 != i)).find? (·.1 == k) = r.find? (·.1 == k) := by
      rw [List.find?_filter]
      congr 1
      funext e
      by_cases he : e.1 = k <;> simp [he, hk]
    simp [laneVal, hk, Ne.symm hk, hfind]

/-- Keys that are not listed have the default. -/
theorem laneVal_of_not_mem (d : α) {k : Nat} (h : k ∉ r.map Prod.fst) : laneVal d r k = d := by
  have hnone : r.find? (·.1 == k) = none := by
    simp only [List.find?_eq_none]
    intro e he hek
    exact h (List.mem_map.2 ⟨e, he, by simpa using hek⟩)
  simp [laneVal, hnone]

theorem nodup_keys_set (v : α) (i : Nat) (h : (r.map Prod.fst).Nodup) :
    (((i, v) :: r.filter (·.1 != i)).map Prod.fst).Nodup := by
  rw [List.map_cons, List.nodup_cons]
  constructor
  · simp
  · exact h.sublist (List.filter_sublist.map _)

end

/-- How many of the lanes name the object in slot `k`. -/
def pinLanes (slot : Nat → Nat) (ls : List Nat) (k : Nat) : Nat := (ls.filter fun l => slot l == k).length

theorem pinLanes_cons (slot : Nat → Nat) (l : Nat) (ls : List Nat) (k : Nat) :
    pinLanes slot (l :: ls) k = pinLanes slot ls k + if k = slot l then 1 else 0 := by
  by_cases hk : k = slot l
  · simp [pinLanes, hk]
  · simp [pinLanes, hk, Ne.symm hk]

/-- A pin count after `m` lanes have added to it or taken from it. -/
def movedPin (up : Bool) (n m : Nat) : Nat := if up then n + m else n - m

/-- `m` lanes can change the count without leaving 0 to 65,535. -/
def PinFits (up : Bool) (n m : Nat) : Prop := if up then n + m ≤ 65535 else m ≤ n

theorem PinFits.mono {up : Bool} {n m m' : Nat} (h : PinFits up n m) (hm : m' ≤ m) : PinFits up n m' := by
  cases up <;> simp only [PinFits, if_true, if_false, Bool.false_eq_true] at h ⊢ <;> omega

@[simp] theorem movedPin_zero (up : Bool) (n : Nat) : movedPin up n 0 = n := by
  cases up <;> rfl

theorem movedPin_succ (up : Bool) (n m : Nat) : movedPin up (movedPin up n 1) m = movedPin up n (m + 1) := by
  cases up <;> simp only [movedPin, if_true, if_false, Bool.false_eq_true] <;> omega

theorem PinFits.step {up : Bool} {n m : Nat} (h : PinFits up n (m + 1)) : PinFits up (movedPin up n 1) m := by
  cases up <;> simp only [PinFits, movedPin, if_true, if_false, Bool.false_eq_true] at h ⊢ <;> omega

/-- One lane changes the count of its slot where it fits. -/
theorem pinCounts_cons (y : Ctx) {up : Bool} {acc : List (Nat × Nat)} {i : Nat} (rest : List (Nat × Nat))
    (h : PinFits up (laneVal (y.slotRes i).pin acc i) 1) :
    pinCounts y up acc ((l, i) :: rest) =
      pinCounts y up ((i, movedPin up (laneVal (y.slotRes i).pin acc i) 1) :: acc.filter (·.1 != i)) rest := by
  cases up
  · have hpos : laneVal (y.slotRes i).pin acc i ≠ 0 := Nat.pos_iff_ne_zero.1 h
    simp [pinCounts, hpos, movedPin]
  · have hlt : laneVal (y.slotRes i).pin acc i ≠ 65535 := by
      simp only [PinFits, if_true] at h
      omega
    simp [pinCounts, hlt, movedPin]

/-- Where the counts of all the lanes fit, each slot's count moves by the lanes that name it. -/
theorem pinCounts_ok (y : Ctx) (up : Bool) (slot : Nat → Nat) (ls : List Nat) (acc : List (Nat × Nat)) (hkeys : (acc.map Prod.fst).Nodup)
    (hfits : ∀ l ∈ ls, PinFits up (laneVal (y.slotRes (slot l)).pin acc (slot l)) (pinLanes slot ls (slot l))) :
    ∃ ns, pinCounts y up acc (ls.map fun l => (l, slot l)) = .ok ns ∧ (ns.map Prod.fst).Nodup
      ∧ ∀ k, laneVal (y.slotRes k).pin ns k = movedPin up (laneVal (y.slotRes k).pin acc k) (pinLanes slot ls k) := by
  induction ls generalizing acc with
  | nil => exact ⟨acc, rfl, hkeys, fun k => by simp [pinLanes]⟩
  | cons l ls ih =>
    have hl := hfits l List.mem_cons_self
    rw [pinLanes_cons, if_pos rfl] at hl
    obtain ⟨ns, hns, hnodup, hval⟩ := ih _ (nodup_keys_set (movedPin up (laneVal (y.slotRes (slot l)).pin acc (slot l)) 1) (slot l) hkeys)
      fun j hj => by
        have hj' := hfits j (List.mem_cons_of_mem l hj)
        rw [pinLanes_cons] at hj'
        rw [laneVal_set]
        by_cases hslot : slot j = slot l
        · rw [if_pos hslot] at hj' ⊢
          rw [hslot] at hj' ⊢
          exact hj'.step
        · rw [if_neg hslot] at hj' ⊢
          exact hj'
    refine ⟨ns, ?_, hnodup, fun k => ?_⟩
    · rw [List.map_cons, pinCounts_cons y _ (hl.mono (Nat.le_add_left 1 _)), hns]
    · rw [hval, laneVal_set, pinLanes_cons]
      by_cases hk : k = slot l
      · rw [if_pos hk, if_pos hk, hk, movedPin_succ]
      · rw [if_neg hk, if_neg hk, Nat.add_zero]

/-! ## A change of table entries leaves the rest of the machine as it was -/

theorem State.wr_keeps (s : State) (sp a : Nat) (b : Byte) : (s.wr sp a b).units = s.units ∧ (s.wr sp a b).ctxs = s.ctxs := by
  obtain ⟨_, _, _, _, _, _, _, hwr⟩ := State.wr_cases s sp a b
  rw [hwr]
  exact ⟨rfl, rfl⟩

theorem sysWrite_keeps (s : State) (y : Ctx) (va n v : Nat) : (sysWrite s y va n v).units = s.units ∧ (sysWrite s y va n v).ctxs = s.ctxs := by
  induction n generalizing s va v with
  | zero => exact ⟨rfl, rfl⟩
  | succ n ih =>
    rw [sysWrite]
    split
    · next sp a _ _ =>
      obtain ⟨hunits, hctxs⟩ := s.wr_keeps sp a (BitVec.ofNat 8 v)
      obtain ⟨hunits', hctxs'⟩ := ih (s.wr sp a (BitVec.ofNat 8 v)) (va + 1) (v / 256)
      exact ⟨hunits'.trans hunits, hctxs'.trans hctxs⟩
    · exact ih s (va + 1) (v / 256)

theorem mirrorSlot_keeps (s : State) (id slot : Nat) : (mirrorSlot s id slot).units = s.units ∧ (mirrorSlot s id slot).ctxs = s.ctxs := by
  unfold mirrorSlot
  split
  · exact sysWrite_keeps ..
  · exact ⟨rfl, rfl⟩

@[simp] theorem modRes_units (s : State) (id slot : Nat) (f : Res → Res) : (modRes s id slot f).units = s.units :=
  (mirrorSlot_keeps _ id slot).1

theorem State.ctx?_congr {t : State} (h : t.ctxs = s.ctxs) (id : Nat) : t.ctx? id = s.ctx? id := by
  rw [State.ctx?, h, State.ctx?]

theorem State.ctx?_modCtx (s : State) (id : Nat) (f : Ctx → Ctx) (hf : ∀ y, (f y).id = y.id ∧ (f y).dead = y.dead) :
    (s.modCtx id f).ctx? id = (s.ctx? id).map f :=
  find?_map_self (fun y : Ctx => y.id == id && !y.dead) f (fun y h => by rwa [(hf y).1, (hf y).2]) s.ctxs

/-- The table of a context after one entry has changed. -/
theorem modRes_slotRes {y : Ctx} {id : Nat} (slot : Nat) (f : Res → Res) (h : s.ctx? id = some y) :
    ∃ z, (modRes s id slot f).ctx? id = some z ∧ ∀ k, z.slotRes k = if k = slot then f (y.slotRes slot) else y.slotRes k := by
  refine ⟨{ y with res := Sparse.set .start y.res slot (f (y.slotRes slot)) }, ?_, fun k => Sparse.get_set⟩
  rw [modRes, State.ctx?_congr (mirrorSlot_keeps _ id slot).2, State.ctx?_modCtx, h]
  · rfl
  · exact fun _ => ⟨rfl, rfl⟩

/-- The state once the pin counts `ns` by slot have been written to the table of context `id`. -/
def setPins (s : State) (id : Nat) (ns : List (Nat × Nat)) : State :=
  ns.foldl (fun s e => modRes s id e.1 fun r => { r with pin := e.2 }) s

theorem setPins_units (s : State) (id : Nat) (ns : List (Nat × Nat)) : (setPins s id ns).units = s.units := by
  induction ns generalizing s with
  | nil => rfl
  | cons e ns ih => exact (ih _).trans (modRes_units ..)

/-- Every entry keeps all but its pin count, and that too where no count is given. -/
theorem setPins_slotRes {y : Ctx} {id : Nat} {ns : List (Nat × Nat)} (hkeys : (ns.map Prod.fst).Nodup) (h : s.ctx? id = some y) :
    ∃ z, (setPins s id ns).ctx? id = some z ∧ ∀ k, z.slotRes k = { y.slotRes k with pin := laneVal (y.slotRes k).pin ns k } := by
  induction ns generalizing s y with
  | nil => exact ⟨y, h, fun _ => rfl⟩
  | cons e ns ih =>
    obtain ⟨hnew, hns⟩ := List.nodup_cons.1 hkeys
    obtain ⟨w, hw, hwres⟩ := modRes_slotRes e.1 (fun r => { r with pin := e.2 }) h
    obtain ⟨z, hz, hzres⟩ := ih hns hw
    refine ⟨z, hz, fun k => ?_⟩
    rw [hzres, hwres]
    by_cases hk : k = e.1
    · rw [hk, laneVal_of_not_mem _ hnew]
      simp [laneVal]
    · simp [laneVal, hk, Ne.symm hk]

/-! ## npin and nunpin (R166) -/

theorem Cx.ctx_of_issues {y : Ctx} (h : Issues s o c) (hy : s.ctx? c.u.ctx = some y) : c.ctx = y := by
  obtain ⟨-, hview, -⟩ := h
  rw [Cx.ctx, (view?_spec hview).1, State.ctxOf, hy]
  rfl

theorem Cx.after_of_units {t : State} (h : t.units = s.units) : c.after t = c.after s := by
  rw [Cx.after, State.unit?, h, Cx.after, State.unit?]

/-- Where the counts fit, the word completes and moves the count of each slot by the lanes that name it. -/
theorem changePins_next {y : Ctx} {slot : Nat → Nat} (up : Bool) (h : Issues s o c) (ha : c.IsPtrPair o.a) (hy : s.ctx? c.u.ctx = some y)
    (hslot : ∀ l ∈ c.lanes, c.pinSlot o.a l = .ok (slot l))
    (hfits : ∀ l ∈ c.lanes, PinFits up (y.slotRes (slot l)).pin (pinLanes slot c.lanes (slot l))) :
    ∃ u z, (word s o fun c => c.changePins o up) = .next u ∧ afterIs c u c.g ∧ u.ctx? c.u.ctx = some z
      ∧ ∀ k, z.slotRes k = { y.slotRes k with pin := movedPin up (y.slotRes k).pin (pinLanes slot c.lanes k) } := by
  obtain ⟨ns, hns, hkeys, hval⟩ := pinCounts_ok y up slot c.lanes [] List.nodup_nil hfits
  obtain ⟨z, hz, hzres⟩ := setPins_slotRes hkeys hy
  have ⟨_, hview, _⟩ := h
  refine ⟨advance c (setPins s c.u.ctx ns), z, word_of_issues h ?_, ?_, hz, fun k => by rw [hzres, hval]; rfl⟩
  · simp only [Cx.changePins, Cx.needPtr_ok ha, mapLanes_ok hslot, Cx.ctx_of_issues h hy, (view?_spec hview).1]
    simp only [bind, Except.bind, hns]
    rfl
  · rw [afterIs, after_advance, Cx.after_of_units (setPins_units ..), after_self hview]
    rfl

end Sys2Proof.Machine

section
open Sys2Proof Sys2Proof.Machine Sys2Proof.Claims

/-- Settles O26: a lane's name is what `pointerName` finds, the first lane without one gives the trap, and the lanes that name a slot
move its pin count one each. -/
theorem namesCompareAndPin : Obligations.NamesCompareAndPin := by
  unfold Obligations.NamesCompareAndPin
  intro s o x c h
  refine ⟨pointerName_zero _, fun p hp => ⟨pointerName_none hp, fun hptr hslot => ⟨pointerName_current hp hptr hslot,
    pointerName_kept hp hptr hslot, pointerName_gone hp hptr hslot⟩⟩, ?_, ?_, ?_, ?_, ?_, ?_, ?_⟩
  · intro ha hb m n hnames
    have hpeq := execPeq_next x h ha hb (fun l hl => Cx.nameAt_some (hnames l hl).1) fun l hl => Cx.nameAt_some (hnames l hl).2
    simp only [sameName_iff] at hpeq
    exact hpeq
  · intro ha hb l hl hbelow
    have hok (k : Nat) (hk : k ∈ c.lanes) (hlt : k < l) : ∃ v, c.namesAgree o k = .ok v := by
      obtain ⟨hsomeA, hsomeB⟩ := hbelow k hk hlt
      obtain ⟨m, hm⟩ := Cx.nameAt_of_isSome hsomeA
      obtain ⟨n, hn⟩ := Cx.nameAt_of_isSome hsomeB
      exact ⟨_, Cx.namesAgree_ok hm hn⟩
    refine ⟨fun hnone => ?_, fun hsome hnone => ?_⟩
    · exact execPeq_trap x h ha hb hl hok (Cx.namesAgree_error_left (Cx.nameAt_none hnone))
    · obtain ⟨m, hm⟩ := Cx.nameAt_of_isSome hsome
      exact execPeq_trap x h ha hb hl hok (Cx.namesAgree_error_right hm (Cx.nameAt_none hnone))
  · exact fun ha => ⟨execPeq_format_left x h ha, execPname_format x h ha⟩
  · exact fun ha hb => execPeq_format_right x h ha hb
  · exact fun ha l hl hbelow hnone =>
      execPname_trap x h ha hl (fun k hk hlt => Cx.nameAt_of_isSome (hbelow k hk hlt)) (Cx.nameAt_none hnone)
  · exact fun ha m hm => execPname_next x h ha fun l hl => Cx.nameAt_some (hm l hl)
  · exact fun ha y slot hy hslot => ⟨changePins_next true h ha hy hslot, changePins_next false h ha hy hslot⟩

end
end

section
/-! PROOFS. O60: the decoder reads back every field of the word that the encoder writes (R63 to R81). -/

namespace Sys2Proof

/-! ## The fields of a word (R63) -/

theorem parse_pack {f : Fields} (hopc : f.opc < 128) (hfn : f.fn < 32) (hgrd : f.grd < 16) (hd : f.d < 512) (ha : f.a < 512) (hb : f.b < 512)
    (hhint : f.hint < 256) (hmod : f.mod < 2048) (hzero : f.zero < 4) (himm : f.imm < 2 ^ 32) : parse f.pack = f := by
  cases f
  simp only [parse, Fields.pack, Fields.mk.injEq]
  simp only at hopc hfn hgrd hd ha hb hhint hmod hzero himm
  refine ⟨?_, ?_, ?_, ?_, ?_, ?_, ?_, ?_, ?_, ?_⟩ <;> omega

theorem Op.ok_iff {o : Op} : o.ok = true ↔
    o.fn < 32 ∧ o.grd < 16 ∧ o.hint < 256 ∧ o.d.ok = true ∧ o.a.ok = true ∧ o.b.ok = true ∧ o.imm < 2 ^ 32 := by
  simp only [Op.ok, Bool.and_eq_true, decide_eq_true_eq, and_assoc]

/-- Fields that the encoder writes are read back as they are. -/
theorem parse_pack_fieldsOf {opc mod : Nat} {o : Op} (ho : o.ok = true) (hopc : opc < 128) (hmod : mod < 2048) :
    parse (fieldsOf opc o mod).pack = fieldsOf opc o mod := by
  obtain ⟨hfn, hgrd, hhint, hd, ha, hb, himm⟩ := Op.ok_iff.1 ho
  exact parse_pack hopc hfn hgrd (Laws.code_lt hd) (Laws.code_lt ha) (Laws.code_lt hb) hhint hmod (Nat.succ_pos 3) himm

/-! ## Specifiers and codes (R65, R70, R47) -/

theorem specialOf_of_reserved {n : Nat} (h : 13 ≤ n) : specialOf n = none := by
  obtain ⟨k, rfl⟩ := Nat.exists_eq_add_of_le' h
  rfl

theorem opdOf_reserved {c : Nat} (h : (0x1A8 ≤ c ∧ c < 0x1C0) ∨ (0x1CD ≤ c ∧ c < 0x200)) : opdOf c = .res c := by
  unfold opdOf
  have hv : ¬ c < 0x100 := by omega
  have hs : ¬ c < 0x180 := by omega
  have hm : ¬ c < 0x1A0 := by omega
  have hp : ¬ c < 0x1A8 := by omega
  simp only [hv, hs, hm, hp, if_false]
  rcases h with ⟨-, hhi⟩ | ⟨hlo, -⟩
  · exact if_pos hhi
  · rw [if_neg (by omega), specialOf_of_reserved (by omega)]

theorem opdOf_code {d : Opd} (h : d.ok = true) : opdOf d.code = d := by
  cases d with
  | v n =>
    have hn : n < 0x100 := by simpa [Opd.ok] using h
    rw [Opd.code, opdOf, if_pos hn]
  | s n =>
    have hn : n < 0x80 := by simpa [Opd.ok] using h
    rw [Opd.code, opdOf, if_neg (by omega), if_pos (by omega), Nat.add_sub_cancel_left]
  | m n =>
    have hn : n < 0x20 := by simpa [Opd.ok] using h
    rw [Opd.code, opdOf, if_neg (by omega), if_neg (by omega), if_pos (by omega), Nat.add_sub_cancel_left]
  | p n =>
    have hn : n < 8 := by simpa [Opd.ok] using h
    rw [Opd.code, opdOf, if_neg (by omega), if_neg (by omega), if_neg (by omega), if_pos (by omega), Nat.add_sub_cancel_left]
  | sp x => cases x <;> rfl
  | res c =>
    refine opdOf_reserved (c := c) ?_
    simpa [Opd.ok] using h

theorem tyOf_code (t : Ty) : tyOf t.code = t := by cases t <;> rfl

theorem Ty.code_lt (t : Ty) : t.code < 16 := by cases t <;> decide

theorem rmOf_code (r : Rm) : rmOf r.code = r := by cases r <;> rfl

theorem Rm.code_lt (r : Rm) : r.code < 4 := by cases r <;> decide

theorem toNat_beq_one (b : Bool) : (b.toNat == 1) = b := by cases b <;> rfl

/-! ## The operation and MOD, read back from the fields (R71 to R75) -/

variable {opc mod : Nat} {o : Op}

theorem op_fieldsOf (ho : o.ok = true) : (fieldsOf opc o mod).op = o := by
  obtain ⟨-, -, -, hd, ha, hb, -⟩ := Op.ok_iff.1 ho
  simp only [Fields.op, fieldsOf, opdOf_code hd, opdOf_code ha, opdOf_code hb]

theorem modA_fieldsOf {a : ModA} (h : a.ok = true) : (fieldsOf opc o a.bits).modA = a := by
  obtain ⟨hopnd, hsub⟩ : a.opnd < 4 ∧ a.sub < 4 := by simpa [ModA.ok] using h
  have hty := a.ty.code_lt
  have hrm := a.rm.code_lt
  have hrs : a.rs.toNat < 2 := a.rs.toNat_lt
  have h1 : a.bits / 128 % 16 = a.ty.code := by unfold ModA.bits; omega
  have h2 : a.bits / 32 % 4 = a.rm.code := by unfold ModA.bits; omega
  have h3 : a.bits / 16 % 2 = a.rs.toNat := by unfold ModA.bits; omega
  have h4 : a.bits / 4 % 4 = a.opnd := by unfold ModA.bits; omega
  have h5 : a.bits % 4 = a.sub := by unfold ModA.bits; omega
  simp only [Fields.modA, fieldsOf, h1, h2, h3, h4, h5, tyOf_code, rmOf_code, toNat_beq_one]

theorem modM_fieldsOf {m : ModM} (h : m.ok = true) : (fieldsOf opc o m.bits).modM = m := by
  obtain ⟨⟨hord, hscope⟩, hspace⟩ : (m.ord < 4 ∧ m.scope < 8) ∧ m.space < 4 := by simpa [ModM.ok] using h
  have hty := m.ty.code_lt
  have h1 : m.bits / 128 % 16 = m.ty.code := by unfold ModM.bits; omega
  have h2 : m.bits / 32 % 4 = m.ord := by unfold ModM.bits; omega
  have h3 : m.bits / 4 % 8 = m.scope := by unfold ModM.bits; omega
  have h4 : m.bits % 4 = m.space := by unfold ModM.bits; omega
  simp only [Fields.modM, fieldsOf, h1, h2, h3, h4, tyOf_code]

theorem modG_fieldsOf {g : ModG} (h : g.ok = true) : (fieldsOf opc o g.bits).modG = g := by
  obtain ⟨⟨hiw, hsc⟩, hspace⟩ : (g.iw < 4 ∧ g.sc < 8) ∧ g.space < 2 := by simpa [ModG.ok] using h
  have hty := g.ty.code_lt
  have hsgn : g.isgn.toNat < 2 := g.isgn.toNat_lt
  have h1 : g.bits / 128 % 16 = g.ty.code := by unfold ModG.bits; omega
  have h2 : g.bits / 32 % 4 = g.iw := by unfold ModG.bits; omega
  have h3 : g.bits / 16 % 2 = g.isgn.toNat := by unfold ModG.bits; omega
  have h4 : g.bits / 2 % 8 = g.sc := by unfold ModG.bits; omega
  have h5 : g.bits % 2 = g.space := by unfold ModG.bits; omega
  simp only [Fields.modG, fieldsOf, h1, h2, h3, h4, h5, tyOf_code, toNat_beq_one]

theorem modB_fieldsOf {b : ModB} (h : b.ok = true) : (fieldsOf opc o b.bits).modB = b := by
  obtain ⟨hprio, hzero⟩ : b.prio < 256 ∧ b.zero < 8 := by simpa [ModB.ok] using h
  have h1 : b.bits / 8 % 256 = b.prio := by unfold ModB.bits; omega
  have h2 : b.bits % 8 = b.zero := by unfold ModB.bits; omega
  simp only [Fields.modB, fieldsOf, h1, h2]

/-! ## The instruction of an opcode and FN (R81) -/

/-- The encoder writes an opcode of seven bits and a MOD of eleven, over an operation in range, and no zero bit. -/
theorem fields_eq_fieldsOf {i : Instr} {f : Fields} (h : i.inRange = true) (hf : i.fields = some f) :
    ∃ opc o mod, f = fieldsOf opc o mod ∧ opc < 128 ∧ o.ok = true ∧ mod < 2048 := by
  cases i <;> cases hf <;> simp only [Instr.inRange, Bool.and_eq_true] at h
  all_goals obtain ⟨⟨ho, hm⟩, -⟩ := h
  all_goals refine ⟨_, _, _, rfl, by decide, ho, ?_⟩
  case bra | brx | call | setprio => exact Laws.modB_lt hm
  case gld | gst => exact Laws.modG_lt hm
  case ld | st | cst | xld | atom | red | waitv | pf | tld | tldVer | tst | tstAll => exact Laws.modM_lt hm
  all_goals first | exact Laws.modA_lt hm | exact Laws.modX_lt hm

@[simp] theorem fieldsOf_opc : (fieldsOf opc o mod).opc = opc := rfl
@[simp] theorem fieldsOf_fn : (fieldsOf opc o mod).fn = o.fn := rfl
@[simp] theorem fieldsOf_mod : (fieldsOf opc o mod).mod = mod := rfl

/-- Each opcode and FN of the table is assembled to the instruction that has them. -/
theorem assemble_fields {i : Instr} {f : Fields} (h : i.inRange = true) (hf : i.fields = some f) : assemble f = .ok i := by
  cases i <;> cases hf <;> simp only [Instr.inRange, Bool.and_eq_true, decide_eq_true_eq] at h
  all_goals obtain ⟨⟨ho, hm⟩, hfn⟩ := h
  case bra | brx | call | setprio => simp [assemble, assembleCtl, op_fieldsOf ho, modB_fieldsOf hm, hfn]
  case ret | exitL | rgrp | rgrpSet | rejoin => simp [assemble, assembleCtl, op_fieldsOf ho, Fields.modX, hfn]
  case gld | gst => simp [assemble, assembleMem, op_fieldsOf ho, modG_fieldsOf hm, hfn]
  case ld | st | cst | xld | atom | red | waitv | pf | tld | tldVer | tst | tstAll =>
    simp [assemble, assembleMem, op_fieldsOf ho, modM_fieldsOf hm, hfn]
  case fence | sdrain | ldn | stn | peq | pname | npin | nunpin => simp [assemble, assembleMem, op_fieldsOf ho, Fields.modX, hfn]
  case shfl | ballot | vote | gred | gscan | plop | p2m | m2p | nop => simp [assemble, assembleCtl, op_fieldsOf ho, modA_fieldsOf hm, hfn]
  case iadd | isub | imul | imad | idiv | irem | iabs | imin | imax | andB | orB | xorB | shl | shr | rot | bfx | bfi | popc | clz | brev
      | icmp | sel | mov | movRetag | movi =>
    simp [assemble, assembleInt, op_fieldsOf ho, modA_fieldsOf hm, hfn]
  case dxpack o _ =>
    have hne : o.fn ≠ 1 := fun h1 => absurd (h1 ▸ hfn) (by decide)
    simp [assemble, assembleFloat, op_fieldsOf ho, modA_fieldsOf hm, hfn, hne]
  case fadd | fsub | fmul | ffma | fmin | fmax | fcmp | fclass | fdiv | fsqrt | frsqrt | frcp | fexp2 | flog2 | fsinpi | fcospi | frnd
      | fscale | fgetexp | cvt | dxunpack | fgsum | fdot2 =>
    simp [assemble, assembleFloat, op_fieldsOf ho, modA_fieldsOf hm, hfn]
  case ldpl | plswap | mmq | accrd | accwr | acczero | accld | accst | trchol | trupd | trupd8 | trdwd | trsolve | trscale | cpy | cpyg
      | cpyt | cpyr | cred | cpyz | ratom | sfill | spop | sfree | sfreeInit | tagw | tagff | tagst =>
    simp [assemble, assembleEng, op_fieldsOf ho, Fields.modX, hfn]
  all_goals simp [assemble, assembleSys, op_fieldsOf ho, Fields.modX, hfn]

/-! ## Decoding -/

/-- What decodes a word: its fields are assembled, and neither the instruction nor the two zero bits have a fault (R78). -/
theorem decode_eq_ok {grant w : Nat} {det : Bool} {i : Instr} (hi : assemble (parse w) = .ok i) (hfaults : i.faults grant det = [])
    (hzero : (parse w).zero = 0) : decode grant det w = .ok i := by
  simp [decode, hi, hfaults, hzero, faultIf, firstFault]

theorem decode_encode {grant w : Nat} {det : Bool} {i : Instr} (hwf : i.wf grant det = true) (hw : encode i = some w) :
    w < 2 ^ 96 ∧ decode grant det w = .ok i := by
  simp only [Instr.wf, Bool.and_eq_true, List.isEmpty_iff] at hwf
  obtain ⟨hrange, hfaults⟩ := hwf
  obtain ⟨f, hf, rfl⟩ := Option.map_eq_some_iff.1 hw
  obtain ⟨opc, o, mod, rfl, hopc, ho, hmod⟩ := fields_eq_fieldsOf hrange hf
  have hparse := parse_pack_fieldsOf ho hopc hmod
  refine ⟨Laws.fits ho hmod hopc rfl, decode_eq_ok ?_ hfaults ?_⟩
  · rw [hparse, assemble_fields hrange hf]
  · rw [hparse]
    rfl

end Sys2Proof

section
open Sys2Proof

/-- Settles O60: the fields of the word are those that were packed, the opcode and FN assemble to the instruction, and it has no fault. -/
theorem decodeEncode : Obligations.DecodeEncode := by
  unfold Obligations.DecodeEncode
  intro grant det i w hwf hw
  exact decode_encode hwf hw

end
end

section
/-! PROOFS. O1, O2: sums and differences (R96), with the rules of pointers (R97). -/

namespace Sys2Proof.Machine
open Sys2Proof.Claims

variable {s : State} {o : Op} {a : ModA} {c : Cx} {x : Opd} {n : Nat} {ok ok' : List Tag}

/-! ## Lane-wise words -/

/-- A word whose body computes each lane for itself. -/
theorem word_pure {body : Cx → Exc State} {d : Opd} {t : Tag} {f : Nat → Nat × Nat} (h : Issues s o c) (hb : body c = .ok (c.pure d n t f)) :
    word s o body = .next (wrote c d n t (fun l => (f l).1) (flagsOf (inLanes c d) fun l => (f l).2)) := by
  rw [← advance_pure]
  exact word_of_issues h hb

/-- The same where no lane raises a flag. -/
theorem word_pure_quiet {body : Cx → Exc State} {d : Opd} {t : Tag} {v : Nat → Nat} (h : Issues s o c)
    (hb : body c = .ok (c.pure d n t fun l => (v l, 0))) : word s o body = .next (wrote c d n t v 0) := by
  rw [word_pure h hb, flagsOf_zero]

/-- A word that collects the values of its lanes. -/
theorem word_emit {body : Cx → Exc State} {d : Opd} {t : Tag} {v : Nat → Nat} (h : Issues s o c)
    (hb : body c = .ok (c.emit d n t ((inLanes c d).map fun l => (l, v l, 0)))) : word s o body = .next (wrote c d n t v 0) := by
  refine word_pure_quiet h ?_
  rw [hb, Cx.pure, Cx.dlanes_eq_inLanes]

/-- What is written depends only on the values in the lanes the destination is computed in. -/
theorem wrote_congr (c : Cx) (d : Opd) (n : Nat) (t : Tag) {f f' : Nat → Nat} (fl : Nat) (h : ∀ l ∈ inLanes c d, f l = f' l) :
    wrote c d n t f fl = wrote c d n t f' fl := by
  rw [wrote, c.write_congr d n t h, wrote]

theorem flagsOf_congr {ls : List Nat} {f f' : Nat → Nat} (h : ∀ l ∈ ls, f l = f' l) : flagsOf ls f = flagsOf ls f' :=
  List.foldl_ext _ _ _ fun m l hl => by rw [h l hl]

/-! ## Tags and values of the operands -/

theorem bears_mono (h : Bears c x n ok) (hsub : ok ⊆ ok') : Bears c x n ok' := ⟨h.1, h.2.imp_right (hsub ·)⟩

/-- The tag that the second operand is checked to bear; an immediate counts as RAW. -/
def Cx.tagB (c : Cx) (o : Op) (a : ModA) : Tag := if a.opnd = 1 then .raw else c.regTag o.b 0

theorem Cx.tagB_of_bearsB (h : BearsB c o a n ok) : c.tagB o a = .raw ∨ c.tagB o a ∈ ok := by
  unfold Cx.tagB
  split
  · exact .inl rfl
  · next hreg => exact (h.resolve_left hreg).2

theorem bearsB_mono (h : BearsB c o a n ok) (hsub : ok ⊆ ok') : BearsB c o a n ok' := h.imp_right (bears_mono · hsub)

theorem Op.imm_lt (h : o.ok = true) : o.imm < 2 ^ 32 := by
  obtain ⟨-, -, -, -, -, -, himm⟩ := Op.ok_iff.1 h
  exact himm

/-- An immediate of an integer or bit type is a number of the type's width (R72). -/
theorem immVal_lt {t : Ty} {imm : Nat} (ht : (t.isInt || t.isBits) = true) (h : imm < 2 ^ 32) : immVal t imm < 2 ^ t.width := by
  cases t <;> cases ht
  case i64 | n64 | b64 =>
    simp only [immVal, Ty.width, Ty.is64, Ty.size]
    split <;> simp <;> omega
  all_goals exact h

theorem Cx.bval_lt_width (c : Cx) (ho : o.ok = true) (ht : (a.ty.isInt || a.ty.isBits) = true) (l : Nat) :
    c.bval o a a.ty.regs l < 2 ^ a.ty.width := by
  unfold Cx.bval
  split
  · exact immVal_lt ht (Op.imm_lt ho)
  · exact c.val_lt_width o.b a.ty l

/-- A difference modulo a power of two, computed without negative numbers. -/
theorem add_complement_mod {w y : Nat} (x : Nat) (hy : y < 2 ^ w) : (x + (2 ^ w - y)) % 2 ^ w = (((x : Int) - y) % 2 ^ w).toNat := by
  have hcast : ((x + (2 ^ w - y) : Nat) : Int) = (x - y) + 2 ^ w := by push_cast [Nat.cast_sub hy.le]; ring
  have hmod : (((x + (2 ^ w - y)) % 2 ^ w : Nat) : Int) = ((x : Int) - y) % 2 ^ w := by
    rw [Int.natCast_emod, hcast]
    push_cast
    exact Int.add_emod_right ..
  rw [← hmod, Int.toNat_natCast]

/-! ## Sums of 64 bits (R97) -/

/-- The sum or the difference that a lane computes. -/
def Cx.sum (c : Cx) (o : Op) (a : ModA) (sub : Bool) (l : Nat) : Nat :=
  if sub then (c.val o.a 2 l + (2 ^ 64 - c.bval o a 2 l)) % 2 ^ 64 else (c.val o.a 2 l + c.bval o a 2 l) % 2 ^ 64

/-- What a lane of a 64-bit sum answers: its number, or the trap of a pointer that leaves its window or of two windows. -/
def Cx.sumLane (c : Cx) (o : Op) (r : Nat → Nat) (both : Bool) : Option Opd → Nat → Exc Nat
  | some w, l => if r l / 2 ^ 40 = c.val w 2 l / 2 ^ 40 then .ok (r l) else ptrWrap w l
  | none, l => if both && c.val o.a 2 l / 2 ^ 40 != c.val o.b 2 l / 2 ^ 40 then c.format o.b l else .ok (r l)

/-- A 64-bit sum behind the checks of its tags. -/
def Cx.sumOfTags (c : Cx) (o : Op) (a : ModA) (sub : Bool) (ta tb : Tag) : Exc State := do
  let keep ← c.ptrCase o sub ta tb
  let r ← mapLanes (c.sumLane o (c.sum o a sub) (ta = .ptr && tb = .ptr) keep) (c.dlanes o.d)
  return c.emit o.d 2 (if keep.isSome then .ptr else .i64) (r.map fun (l, v) => (l, v, 0))

theorem Cx.addPtr_eq (ha : Bears c o.a 2 [.i64, .ptr]) (hb : BearsB c o a 2 [.i64, .ptr]) (sub : Bool) :
    c.addPtr o a sub = c.sumOfTags o a sub (c.regTag o.a 0) (c.tagB o a) := by
  unfold Cx.addPtr Cx.sumOfTags Cx.tagB
  rw [Cx.need_of_bears ha]
  by_cases himm : a.opnd = 1
  · simp only [himm, if_true, bind, Except.bind]
    cases c.ptrCase o sub (c.regTag o.a 0) .raw with
    | error e => rfl
    | ok keep => cases keep <;> rfl
  · simp only [himm, if_false, bind, Except.bind, Cx.need_of_bears (hb.resolve_left himm)]
    cases c.ptrCase o sub (c.regTag o.a 0) (c.regTag o.b 0) with
    | error e => rfl
    | ok keep => cases keep <;> rfl

/-- The operands of a 64-bit sum bear tags that it accepts, and the rows of R97 give `keep`. -/
structure SumTags (c : Cx) (o : Op) (m : ModA) (sub : Bool) (keep : Option Opd) : Prop where
  a : Bears c o.a 2 [.i64, .ptr]
  b : BearsB c o m 2 [.i64, .ptr]
  row : c.ptrCase o sub (c.regTag o.a 0) (c.tagB o m) = .ok keep

/-- Both operands are pointers. -/
abbrev Cx.bothPtr (c : Cx) (o : Op) (a : ModA) : Bool := c.regTag o.a 0 = .ptr && c.tagB o a = .ptr

variable {sub : Bool} {keep : Option Opd}

theorem addPtr_next (h : Issues s o c) (ht : SumTags c o a sub keep)
    (hok : ∀ l ∈ inLanes c o.d, c.sumLane o (c.sum o a sub) (c.bothPtr o a) keep l = .ok (c.sum o a sub l)) :
    (word s o fun c => c.addPtr o a sub) = .next (wrote c o.d 2 (if keep.isSome then .ptr else .i64) (c.sum o a sub) 0) := by
  obtain ⟨ha, hb, hrow⟩ := ht
  refine word_emit h ?_
  rw [Cx.addPtr_eq ha hb, Cx.sumOfTags, hrow]
  simp only [bind, Except.bind, Cx.dlanes_eq_inLanes, mapLanes_ok hok, List.map_map]
  rfl

theorem addPtr_trap {t : Trap} {l : Nat} (h : Issues s o c) (ht : SumTags c o a sub keep) (hl : l ∈ inLanes c o.d)
    (hbelow : ∀ k ∈ inLanes c o.d, k < l → ∃ v, c.sumLane o (c.sum o a sub) (c.bothPtr o a) keep k = .ok v)
    (htrap : c.sumLane o (c.sum o a sub) (c.bothPtr o a) keep l = .error (.trap t)) :
    (word s o fun c => c.addPtr o a sub) = .next (takeTrap c s t) := by
  obtain ⟨ha, hb, hrow⟩ := ht
  refine word_trap_of_issues h ?_
  rw [Cx.addPtr_eq ha hb, Cx.sumOfTags, hrow]
  simp only [bind, Except.bind, Cx.dlanes_eq_inLanes, mapLanes_trap (inLanes_sorted c o.d) hl hbelow htrap]

/-- A pair of tags that no row of R97 takes. -/
theorem addPtr_refused {t : Trap} (h : Issues s o c) (ha : Bears c o.a 2 [.i64, .ptr]) (hb : BearsB c o a 2 [.i64, .ptr])
    (hrow : c.ptrCase o sub (c.regTag o.a 0) (c.tagB o a) = .error (.trap t)) :
    (word s o fun c => c.addPtr o a sub) = .next (takeTrap c s t) := by
  refine word_trap_of_issues h ?_
  rw [Cx.addPtr_eq ha hb, Cx.sumOfTags, hrow]
  rfl

theorem Cx.sumLane_in {r : Nat → Nat} {both : Bool} {p : Opd} {l : Nat} (h : r l / 2 ^ 40 = c.val p 2 l / 2 ^ 40) :
    c.sumLane o r both (some p) l = .ok (r l) := by
  rw [Cx.sumLane, if_pos h]

theorem Cx.sumLane_out {r : Nat → Nat} {both : Bool} {p : Opd} {l : Nat} (h : r l / 2 ^ 40 ≠ c.val p 2 l / 2 ^ 40) :
    c.sumLane o r both (some p) l = ptrWrap p l := by
  rw [Cx.sumLane, if_neg h]

theorem Cx.sumLane_agree {r : Nat → Nat} {both : Bool} {l : Nat} (h : c.val o.a 2 l / 2 ^ 40 = c.val o.b 2 l / 2 ^ 40) :
    c.sumLane o r both none l = .ok (r l) := by
  rw [Cx.sumLane, h, bne_self_eq_false, Bool.and_false, if_neg Bool.false_ne_true]

theorem Cx.sumLane_differ {r : Nat → Nat} {l : Nat} (h : c.val o.a 2 l / 2 ^ 40 ≠ c.val o.b 2 l / 2 ^ 40) :
    c.sumLane o r true none l = c.format o.b l := by
  rw [Cx.sumLane, Bool.true_and, if_pos (bne_iff_ne.2 h)]

/-- A pointer stays a pointer while every lane stays in its window, and the lowest lane that leaves it takes PTRWRAP. -/
theorem addPtr_stays {p : Opd} (h : Issues s o c) (ht : SumTags c o a sub (some p)) :
    ((∀ l ∈ inLanes c o.d, c.sum o a sub l / 2 ^ 40 = c.val p 2 l / 2 ^ 40) →
      (word s o fun c => c.addPtr o a sub) = .next (wrote c o.d 2 .ptr (c.sum o a sub) 0))
    ∧ ∀ l ∈ inLanes c o.d, c.sum o a sub l / 2 ^ 40 ≠ c.val p 2 l / 2 ^ 40 →
      (∀ k ∈ inLanes c o.d, k < l → c.sum o a sub k / 2 ^ 40 = c.val p 2 k / 2 ^ 40) →
      (word s o fun c => c.addPtr o a sub) = .next (takeTrap c s { code := 0x0B, detail := p.code + l * 2 ^ 9 }) := by
  constructor
  · intro hin
    rw [addPtr_next h ht fun l hl => Cx.sumLane_in (hin l hl)]
    rfl
  · intro l hl hout hbelow
    exact addPtr_trap h ht hl (fun k hk hlt => ⟨_, Cx.sumLane_in (hbelow k hk hlt)⟩) (Cx.sumLane_out hout)

/-- Two operands of which not both are pointers give an integer. -/
theorem addPtr_integer (h : Issues s o c) (ht : SumTags c o a sub none) (hint : c.bothPtr o a = false) :
    (word s o fun c => c.addPtr o a sub) = .next (wrote c o.d 2 .i64 (c.sum o a sub) 0) := by
  rw [addPtr_next h ht fun l _ => by rw [Cx.sumLane, hint, Bool.false_and, if_neg Bool.false_ne_true]]
  rfl

/-! ## The rows of R97 -/

theorem ptrCase_integers {ta tb : Tag} (ha : ta ≠ .ptr) (hb : tb ≠ .ptr) : c.ptrCase o sub ta tb = .ok none := by
  simp [Cx.ptrCase, ha, hb]

theorem ptrCase_left {tb : Tag} (hb : tb ≠ .ptr) : c.ptrCase o sub .ptr tb = .ok (some o.a) := by
  simp [Cx.ptrCase, hb]

theorem ptrCase_right {ta : Tag} (ha : ta ≠ .ptr) : c.ptrCase o false ta .ptr = .ok (some o.b) := by
  simp [Cx.ptrCase, ha]

theorem ne_ptr_of_integer {t : Tag} (h : t = .raw ∨ t ∈ [Tag.i64]) : t ≠ .ptr := by
  rintro rfl
  simp at h

/-! ## Sums of every type (R96) -/

theorem addSub_i64 (sub : Bool) (hty : a.ty = .i64) : addSub o a sub s = word s o fun c => c.addPtr o a sub := if_pos hty

theorem Cx.sum_add (c : Cx) (o : Op) (a : ModA) (l : Nat) : c.sum o a false l = (c.val o.a 2 l + c.bval o a 2 l) % 2 ^ 64 := by
  rw [Cx.sum, if_neg Bool.false_ne_true]

theorem Cx.sum_sub (c : Cx) (ho : o.ok = true) (hty : a.ty = .i64) (l : Nat) :
    c.sum o a true l = (((c.val o.a 2 l : Int) - c.bval o a 2 l) % 2 ^ 64).toNat := by
  have hb := c.bval_lt_width (a := a) ho (by rw [hty]; rfl) l
  rw [hty, show Ty.i64.regs = 2 from rfl, show Ty.i64.width = 64 from rfl] at hb
  rw [Cx.sum, if_pos rfl]
  exact add_complement_mod (w := 64) (c.val o.a 2 l) hb

/-- A sum of integers, of whatever type. -/
theorem addSub_integers (sub : Bool) (h : Issues s o c) (ha : Bears c o.a a.ty.regs [a.ty.intTag]) (hb : BearsB c o a a.ty.regs [a.ty.intTag]) :
    addSub o a sub s = .next (wrote c o.d a.ty.regs a.ty.intTag (fun l =>
      (if sub then c.val o.a a.ty.regs l + (2 ^ a.ty.width - c.bval o a a.ty.regs l) else c.val o.a a.ty.regs l + c.bval o a a.ty.regs l)
        % 2 ^ a.ty.width) 0) := by
  by_cases hty : a.ty = .i64
  · rw [addSub_i64 sub hty]
    rw [hty] at ha hb ⊢
    have hsum : c.sum o a sub = fun l => (if sub then c.val o.a 2 l + (2 ^ 64 - c.bval o a 2 l) else c.val o.a 2 l + c.bval o a 2 l) % 2 ^ 64 := by
      funext l
      rw [Cx.sum, apply_ite (· % 2 ^ 64)]
    have hta := ne_ptr_of_integer ha.2
    have htags : SumTags c o a sub none :=
      ⟨bears_mono ha (by decide), bearsB_mono hb (by decide), ptrCase_integers hta (ne_ptr_of_integer (Cx.tagB_of_bearsB hb))⟩
    rw [addPtr_integer h htags (by simp [Cx.bothPtr, hta]), hsum]
    rfl
  · rw [addSub, if_neg hty, intBin_next _ h ha hb, flagsOf_zero]

end Sys2Proof.Machine

section
open Sys2Proof Sys2Proof.Machine Sys2Proof.Claims

/-- Settles O1: both words are sums of integers modulo 2^W, the difference by adding the complement of B. -/
theorem integerSums : Obligations.IntegerSums := by
  unfold Obligations.IntegerSums
  intro s o a c h hty ha hb
  refine ⟨addSub_integers false h ha hb, ?_⟩
  have hlt := c.bval_lt_width (o := o) (a := a) h.1 (by rw [hty]; rfl)
  have hsub := addSub_integers true h ha hb
  simp only [if_true, add_complement_mod _ (hlt _)] at hsub
  exact hsub

/-- Settles O2: the tags of the operands choose the row of R97, and each row is a sum whose lanes all stay, or a trap of the lowest lane
that does not. -/
theorem pointerSums : Obligations.PointerSums := by
  unfold Obligations.PointerSums
  intro s o a c h hty ptr ls window x y plus minus format stays
  have hplus : c.sum o a false = plus := funext (c.sum_add o a)
  have hminus : c.sum o a true = minus := funext (c.sum_sub h.1 hty)
  refine ⟨fun ⟨ha, hta⟩ hb => ?_, fun hreg ha ⟨hb, htb⟩ => ?_, fun hreg ⟨ha, hta⟩ ⟨hb, htb⟩ => ?_⟩
  · have htags (sub : Bool) : SumTags c o a sub (some o.a) :=
      ⟨bears_mono ha (by decide), bearsB_mono hb (by decide), hta ▸ ptrCase_left (ne_ptr_of_integer (Cx.tagB_of_bearsB hb))⟩
    have hadd := addPtr_stays h (htags false)
    have hsub := addPtr_stays h (htags true)
    rw [← addSub_i64 false hty, hplus] at hadd
    rw [← addSub_i64 true hty, hminus] at hsub
    exact ⟨hadd, hsub⟩
  · have hna := ne_ptr_of_integer ha.2
    have hb' : Bears c o.b 2 [.i64, .ptr] := bears_mono hb (by decide)
    have htagB : c.tagB o a = .ptr := (if_neg hreg).trans htb
    constructor
    · have hadd := addPtr_stays h (a := a) (sub := false) (p := o.b)
        ⟨bears_mono ha (by decide), .inr hb', by rw [htagB]; exact ptrCase_right hna⟩
      rw [← addSub_i64 false hty, hplus] at hadd
      exact hadd
    · have hrow : c.ptrCase o true (c.regTag o.a 0) (c.tagB o a) = c.format o.b c.l0 := by
        simp [Cx.ptrCase, htagB, hna]
      rw [Cx.format, htb] at hrow
      have hsub := addPtr_refused h (bears_mono ha (by decide)) (.inr hb') hrow
      rw [← addSub_i64 true hty] at hsub
      exact hsub
  · have ha' : Bears c o.a 2 [.i64, .ptr] := bears_mono ha (by decide)
    have hb' : Bears c o.b 2 [.i64, .ptr] := bears_mono hb (by decide)
    have htagB : c.tagB o a = .ptr := (if_neg hreg).trans htb
    have hboth : c.bothPtr o a = true := by simp [Cx.bothPtr, hta, htagB]
    have htags : SumTags c o a true none := ⟨ha', .inr hb', by simp [Cx.ptrCase, hta, htagB]⟩
    have hval (l : Nat) : y l = c.val o.b 2 l := if_neg hreg
    refine ⟨?_, fun hin => ?_, fun l hl hout hbelow => ?_⟩
    · have hrow : c.ptrCase o false (c.regTag o.a 0) (c.tagB o a) = c.format o.b c.l0 := by
        simp [Cx.ptrCase, htagB, hta]
      rw [Cx.format, htb] at hrow
      have hadd := addPtr_refused h ha' (.inr hb') hrow
      rw [← addSub_i64 false hty] at hadd
      exact hadd
    · have hsub := addPtr_next h htags fun l hl => Cx.sumLane_agree (by rw [← hval]; exact hin l hl)
      rw [← addSub_i64 true hty, hminus] at hsub
      exact hsub
    · have hsub := addPtr_trap h htags hl (fun k hk hlt => ⟨_, Cx.sumLane_agree (by rw [← hval]; exact hbelow k hk hlt)⟩)
        (by rw [hboth, Cx.sumLane_differ (by rw [← hval]; exact hout), Cx.format, htb]; rfl)
      rw [← addSub_i64 true hty] at hsub
      exact hsub

end
end

section
/-! PROOFS. O3, O5, O6: products, order and the bits of integer operands (R96, R99). -/

namespace Sys2Proof.Machine
open Sys2Proof.Claims

variable {s : State} {o : Op} {a : ModA} {c : Cx} {ok : List Tag}

/-! ## Products (R96) -/

/-- The half of a product that FN names. -/
def productHalf (fn w : Nat) (p : Int) : Int := if fn = 0 then p else p / 2 ^ w

theorem mulHalf_eq {fn : Nat} (t : Ty) (hfn : fn ≤ 1) (x y : Nat) :
    mulHalf t (fn == 1) x y = wrap t.width (productHalf fn t.width (t.int x * t.int y)) := by
  rcases Nat.le_one_iff_eq_zero_or_eq_one.1 hfn with rfl | rfl
  · rfl
  · simp [mulHalf, productHalf]

theorem wrap_add_mod (w : Nat) (i : Int) (n : Nat) : (wrap w i + n) % 2 ^ w = wrap w (i + n) := by
  have hpos : (0 : Int) ≤ i % 2 ^ w := Int.emod_nonneg _ (by positivity)
  have hcast : (((wrap w i + n) % 2 ^ w : Nat) : Int) = (i + n) % 2 ^ w := by
    rw [wrap]
    push_cast [Int.toNat_of_nonneg hpos]
    exact Int.emod_add_emod ..
  rw [← Int.toNat_natCast ((wrap w i + n) % 2 ^ w), hcast, wrap]

theorem execImad_next (h : Issues s o c) (ha : Bears c o.a a.ty.regs [a.ty.intTag]) (hb : Bears c o.b a.ty.regs [a.ty.intTag])
    (hc : Bears c o.c a.ty.regs [a.ty.intTag]) :
    execImad o a s = .next (wrote c o.d a.ty.regs a.ty.intTag (fun l =>
      (mulHalf a.ty (o.fn == 1) (c.val o.a a.ty.regs l) (c.val o.b a.ty.regs l) + c.val o.c a.ty.regs l) % 2 ^ a.ty.width) 0) := by
  refine word_pure_quiet h ?_
  simp only [Cx.need_of_bears ha, Cx.need_of_bears hb, Cx.need_of_bears hc]
  rfl

/-! ## Order (R96) -/

/-- The least number of a signed type is the operand whose sign bit alone is set. -/
theorem int_eq_min_iff {t : Ty} {x : Nat} (ht : t.isSigned = true) (hx : x < 2 ^ t.width) : t.int x = -2 ^ (t.width - 1) ↔ x = 2 ^ (t.width - 1) := by
  have hpow : (2 : Int) ^ t.width = 2 * 2 ^ (t.width - 1) := two_pow_width (width_pos t)
  have hcast : ((2 ^ (t.width - 1) : Nat) : Int) = 2 ^ (t.width - 1) := by norm_cast
  have hpos : 0 < 2 ^ (t.width - 1) := by positivity
  rw [Ty.int, if_pos ht, sext, Nat.mod_eq_of_lt hx, Int.emod_eq_of_lt (by positivity) (by exact_mod_cast hx)]
  split <;> omega

theorem absInt_eq {t : Ty} {x : Nat} (ht : t.isSigned = true) (hx : x < 2 ^ t.width) :
    absInt t x = (if t.int x = -2 ^ (t.width - 1) then 2 ^ (t.width - 1) - 1 else (t.int x).natAbs,
      if t.int x = -2 ^ (t.width - 1) then 32 else 0) := by
  simp only [absInt, int_eq_min_iff ht hx]
  split <;> rfl

theorem execIabs_next (h : Issues s o c) (ha : Bears c o.a a.ty.regs [a.ty.intTag]) :
    execIabs o a s = .next (wrote c o.d a.ty.regs a.ty.intTag (fun l => (absInt a.ty (c.val o.a a.ty.regs l)).1)
      (flagsOf (inLanes c o.d) fun l => (absInt a.ty (c.val o.a a.ty.regs l)).2)) := by
  refine word_pure h ?_
  simp only [Cx.need_of_bears ha]
  rfl

theorem smaller_eq (t : Ty) {x y : Nat} (hx : x < 2 ^ t.width) (hy : y < 2 ^ t.width) :
    (if t.int y < t.int x then y else x) = wrap t.width (min (t.int x) (t.int y)) := by
  split
  · next hlt => rw [min_eq_right hlt.le, wrap_int t hy]
  · next hle => rw [min_eq_left (not_lt.1 hle), wrap_int t hx]

theorem larger_eq (t : Ty) {x y : Nat} (hx : x < 2 ^ t.width) (hy : y < 2 ^ t.width) :
    (if t.int x < t.int y then y else x) = wrap t.width (max (t.int x) (t.int y)) := by
  split
  · next hlt => rw [max_eq_right hlt.le, wrap_int t hy]
  · next hle => rw [max_eq_left (not_lt.1 hle), wrap_int t hx]

/-! ## Bits (R99) -/

theorem bitBin_next {ok' : List Tag} (f : Nat → Nat → Nat) (h : Issues s o c) (ha : Bears c o.a a.ty.regs ok) (hb : BearsB c o a a.ty.regs ok') :
    bitBin o a f s = .next (wrote c o.d a.ty.regs .raw (fun l => f (c.val o.a a.ty.regs l) (c.bval o a a.ty.regs l)) 0) := by
  refine word_pure_quiet h ?_
  simp only [Cx.any_of_bears ha]
  by_cases himm : a.opnd = 1
  · simp only [himm]
    rfl
  · simp only [Cx.any_of_bears (hb.resolve_left himm), bne_iff_ne.2 himm]
    rfl

theorem countBits_next (f : Nat → Nat) (h : Issues s o c) (ha : Bears c o.a a.ty.regs ok) :
    countBits o a f s = .next (wrote c o.d 1 .i32 (fun l => f (c.val o.a a.ty.regs l)) 0) := by
  refine word_pure_quiet h ?_
  simp only [Cx.any_of_bears ha]
  rfl

theorem execBrev_next (h : Issues s o c) (ha : Bears c o.a a.ty.regs ok) :
    execBrev o a s = .next (wrote c o.d a.ty.regs .raw (fun l => reverseBits a.ty.width (c.val o.a a.ty.regs l)) 0) := by
  refine word_pure_quiet h ?_
  simp only [Cx.any_of_bears ha]
  rfl

theorem lt_two_pow_nbits (x : Nat) : x < 2 ^ nbits x := by
  unfold nbits
  split
  · next hx => simp [hx]
  · exact Nat.lt_log2_self

theorem nbits_le {w x : Nat} (hx : x < 2 ^ w) : nbits x ≤ w := by
  unfold nbits
  split
  · exact Nat.zero_le w
  · next hne => exact (Nat.log2_lt hne).2 hx

theorem two_pow_le_of_nbits {x : Nat} (h : 0 < nbits x) : 2 ^ (nbits x - 1) ≤ x := by
  unfold nbits at h ⊢
  split at h
  · omega
  · next hne => rw [if_neg hne]; exact Nat.log2_self_le hne

/-- The leading zeros of a number of the width, as the difference of the width and the number's own. -/
theorem leadingZeros_spec {w x : Nat} (hx : x < 2 ^ w) :
    w - nbits x ≤ w ∧ x < 2 ^ (w - (w - nbits x)) ∧ (w - nbits x < w → 2 ^ (w - (w - nbits x) - 1) ≤ x) := by
  rw [Nat.sub_sub_self (nbits_le hx)]
  exact ⟨Nat.sub_le .., lt_two_pow_nbits x, fun h => two_pow_le_of_nbits (by omega)⟩

/-- The lowest `k` bits of `x`, reversed, as the fold of `reverseBits` gathers them. -/
theorem reverseBits_fold (w x : Nat) {k : Nat} (hk : k ≤ w) : ∃ q < 2 ^ k, (∀ i < k, q.testBit (k - 1 - i) = x.testBit i)
    ∧ (List.range k).foldl (fun r i => if x.testBit i then r + 2 ^ (w - 1 - i) else r) 0 = 2 ^ (w - k) * q := by
  induction k with
  | zero => exact ⟨0, by simp⟩
  | succ k ih =>
    obtain ⟨q, hq, hbits, hfold⟩ := ih (by omega)
    have hpow : 2 ^ (w - k) = 2 ^ (w - 1 - k) * 2 := by rw [← pow_succ]; congr 1; omega
    refine ⟨2 * q + (x.testBit k).toNat, ?_, fun i hi => ?_, ?_⟩
    · have := (x.testBit k).toNat_lt
      rw [pow_succ]
      omega
    · by_cases hik : i = k
      · subst hik
        cases x.testBit i <;> simp [Nat.testBit_zero]
      · obtain ⟨j, hj⟩ : ∃ j, k + 1 - 1 - i = j + 1 := ⟨k - 1 - i, by omega⟩
        have hhalf : (2 * q + (x.testBit k).toNat) / 2 = q := by
          have := (x.testBit k).toNat_lt
          omega
        rw [hj, Nat.testBit_succ, hhalf, ← hbits i (by omega)]
        congr 1
        omega
    · rw [List.range_succ, List.foldl_append, hfold, hpow, show w - (k + 1) = w - 1 - k by omega]
      cases hbit : x.testBit k <;> simp [hbit] <;> ring

theorem reverseBits_spec (w x : Nat) :
    reverseBits w x < 2 ^ w ∧ ∀ i < w, (reverseBits w x).testBit (w - 1 - i) = x.testBit i := by
  obtain ⟨q, hq, hbits, hfold⟩ := reverseBits_fold w x le_rfl
  rw [Nat.sub_self, pow_zero, one_mul] at hfold
  rw [reverseBits, hfold]
  exact ⟨hq, hbits⟩

end Sys2Proof.Machine

section
open Sys2Proof Sys2Proof.Machine Sys2Proof.Claims

/-- Settles O3: each lane's value is the half of the exact product that FN names, for imad with C added to it. -/
theorem integerProducts : Obligations.IntegerProducts := by
  unfold Obligations.IntegerProducts
  intro s o a c h _ hfn ha hb
  refine ⟨?_, fun hb' hc => ?_⟩
  · refine (intBin_next (fun x y => (mulHalf a.ty (o.fn == 1) x y, 0)) h ha hb).trans ?_
    simp only [mulHalf_eq a.ty hfn, flagsOf_zero]
    rfl
  · have hnext := execImad_next h ha hb' hc
    simp only [mulHalf_eq a.ty hfn, wrap_add_mod] at hnext
    exact hnext

/-- Settles O5: each lane's value is the absolute value, saturated at the minimum, or the smaller or larger of the two integers. -/
theorem integerOrder : Obligations.IntegerOrder := by
  unfold Obligations.IntegerOrder
  intro s o a c h hty ha hb
  have hx := c.val_lt_width o.a a.ty
  have hy := c.bval_lt_width (o := o) (a := a) h.1 (by rw [hty]; rfl)
  refine ⟨fun hsigned => ?_, ?_, ?_⟩
  · have hnext := execIabs_next h ha
    simp only [absInt_eq hsigned (hx _)] at hnext
    exact hnext
  · have hnext := intBin_next (fun x y => (if a.ty.int y < a.ty.int x then y else x, 0)) h ha hb
    simp only [smaller_eq a.ty (hx _) (hy _), flagsOf_zero] at hnext
    exact hnext
  · have hnext := intBin_next (fun x y => (if a.ty.int x < a.ty.int y then y else x, 0)) h ha hb
    simp only [larger_eq a.ty (hx _) (hy _), flagsOf_zero] at hnext
    exact hnext

/-- Settles O6: the words complete with their functions of A and B, and the count of leading zeros and the reversed word are those of
R99. -/
theorem bitOperations : Obligations.BitOperations := by
  unfold Obligations.BitOperations
  intro s o a c h _ ha w x
  refine ⟨fun hb => ⟨bitBin_next _ h ha hb, bitBin_next _ h ha hb, bitBin_next _ h ha hb⟩, countBits_next _ h ha, ?_, ?_⟩
  · exact ⟨_, countBits_next (fun x => a.ty.width - nbits x) h ha, fun l => leadingZeros_spec (c.val_lt_width o.a a.ty l)⟩
  · exact ⟨_, execBrev_next h ha, fun l => reverseBits_spec w (x l)⟩

end
end

section
/-! PROOFS. O8: comparison, selection and moves (R101 to R105). -/

namespace Sys2Proof.Machine
open Sys2Proof.Claims

variable {s : State} {o : Op} {a : ModA} {c : Cx} {ok ok' : List Tag}

/-- The comparison of two integers that FN names (R101). -/
def Compares (fn : Nat) (u v : Int) : Prop :=
  if fn = 0 then u = v else if fn = 1 then u ≠ v else if fn = 2 then u < v else if fn = 3 then u ≤ v
  else if fn = 4 then v < u else v ≤ u

theorem compareInt_iff (fn : Nat) (u v : Int) : compareInt fn u v = true ↔ Compares fn u v := by
  unfold compareInt Compares
  rcases fn with _ | _ | _ | _ | _ | fn <;> simp

/-- The tags a comparison of integers accepts: one of 64 bits takes pointers too (R101). -/
def cmpTags (t : Ty) : List Tag := if t.is64 then [.i64, .ptr] else [.i32]

theorem cmpTags_eq (t : Ty) : (if t.width = 64 then [t.intTag, Tag.ptr] else [t.intTag]) = cmpTags t := by
  unfold Ty.width Ty.intTag cmpTags
  cases t.is64 <;> rfl

/-- What a lane of icmp gives. -/
def Cx.cmpLane (c : Cx) (o : Op) (a : ModA) (l : Nat) : Nat :=
  if compareInt o.fn (a.ty.int (c.val o.a a.ty.regs l)) (a.ty.int (c.bval o a a.ty.regs l)) then 1 else 0

theorem execIcmp_next_bits (h : Issues s o c) (hty : a.ty.isBits = true) (ha : Bears c o.a a.ty.regs ok) (hb : BearsB c o a a.ty.regs ok') :
    execIcmp o a s = .next (wrote c o.d 1 .raw (c.cmpLane o a) 0) := by
  refine word_pure_quiet h ?_
  simp only [hty, if_true, Cx.any_of_bears ha]
  by_cases himm : a.opnd = 1
  · simp only [himm]
    rfl
  · simp only [Cx.any_of_bears (hb.resolve_left himm), bne_iff_ne.2 himm]
    rfl

theorem execIcmp_next_int (h : Issues s o c) (hty : a.ty.isBits = false) (ha : Bears c o.a a.ty.regs (cmpTags a.ty))
    (hb : BearsB c o a a.ty.regs (cmpTags a.ty)) : execIcmp o a s = .next (wrote c o.d 1 .raw (c.cmpLane o a) 0) := by
  have hneed := Cx.need_of_bears ha
  have hneedB := Cx.needB_of_bearsB hb
  unfold cmpTags at hneed hneedB
  refine word_pure_quiet h ?_
  simp only [hty, Bool.false_eq_true, if_false, hneed, hneedB]
  rfl

theorem cmpLane_spec (c : Cx) (o : Op) (a : ModA) (l : Nat) :
    (Compares o.fn (a.ty.int (c.val o.a a.ty.regs l)) (a.ty.int (c.bval o a a.ty.regs l)) → c.cmpLane o a l = 1)
    ∧ (¬ Compares o.fn (a.ty.int (c.val o.a a.ty.regs l)) (a.ty.int (c.bval o a a.ty.regs l)) → c.cmpLane o a l = 0) := by
  simp only [← compareInt_iff]
  exact ⟨fun hc => if_pos hc, fun hc => if_neg hc⟩

theorem execSel_next (h : Issues s o c) (ha : Bears c o.a a.ty.regs ok) (hb : Bears c o.b a.ty.regs ok')
    (htags : c.regTag o.a 0 = c.regTag o.b 0 ∨ c.regTag o.a 0 = .raw ∨ c.regTag o.b 0 = .raw) :
    execSel o a s = .next (wrote c o.d a.ty.regs (if c.regTag o.a 0 = .raw then c.regTag o.b 0 else c.regTag o.a 0)
      (fun l => if c.pval o.c l then c.val o.a a.ty.regs l else c.val o.b a.ty.regs l) 0) := by
  have hagree : (c.regTag o.a 0 != c.regTag o.b 0 && c.regTag o.a 0 != .raw && c.regTag o.b 0 != .raw) = false := by
    rcases htags with heq | hraw | hraw
    · simp [heq]
    · simp [hraw]
    · simp [hraw]
  refine word_pure_quiet h ?_
  simp only [Cx.any_of_bears ha, Cx.any_of_bears hb, bind, Except.bind, hagree]
  rfl

theorem execSel_trap (h : Issues s o c) (ha : Bears c o.a a.ty.regs ok) (hb : Bears c o.b a.ty.regs ok')
    (hne : c.regTag o.a 0 ≠ c.regTag o.b 0) (hta : c.regTag o.a 0 ≠ .raw) (htb : c.regTag o.b 0 ≠ .raw) :
    execSel o a s = .next (takeTrap c s (c.formatTrap o.b)) := by
  refine word_trap_of_issues h ?_
  simp only [Cx.any_of_bears ha, Cx.any_of_bears hb, bind, Except.bind, bne_iff_ne.2 hne, bne_iff_ne.2 hta, bne_iff_ne.2 htb]
  rfl

theorem execMov_next (h : Issues s o c) (ha : Bears c o.a a.ty.regs ok) :
    execMov o a s = .next (advance c (c.put ((c.g.write o.d a.ty.regs .raw (c.val o.a a.ty.regs) c.ex).retag o.d (c.regTag o.a) a.ty.regs))) := by
  refine word_of_issues h ?_
  simp only [Cx.any_of_bears ha]
  rfl

/-- An operand that does not bear one tag takes FORMAT. -/
theorem Cx.tag_format {x : Opd} {n : Nat} (hmixed : ¬ Bears c x n [c.regTag x 0]) : c.tag x n = .error (.trap (c.formatTrap x)) := by
  have hall : ¬ ((List.range n).all fun k => c.regTag x k == c.regTag x 0) = true := by
    intro hall
    exact hmixed ⟨by simpa using hall, .inr (List.mem_singleton_self _)⟩
  exact if_neg hall

theorem execMov_trap (h : Issues s o c) (hmixed : ¬ Bears c o.a a.ty.regs [c.regTag o.a 0]) :
    execMov o a s = .next (takeTrap c s (c.formatTrap o.a)) := by
  refine word_trap_of_issues h ?_
  simp only [Cx.any, Cx.tag_format hmixed]
  rfl

/-- A word whose body writes the destination alone. -/
theorem word_write {body : Cx → Exc State} {d : Opd} {n : Nat} {t : Tag} {v : Nat → Nat} (h : Issues s o c)
    (hb : body c = .ok (c.put (c.g.write d n t v c.ex))) : word s o body = .next (wrote c d n t v 0) := by
  rw [word_of_issues h hb, wrote]
  congr 3
  simp [Group.orFlags]

theorem retagRegs_eq (t : Tag) : retagRegs t = if t = .i64 ∨ t = .f64 ∨ t = .ptr then 2 else if t = .name then 4 else 1 := by
  cases t <;> rfl

theorem execMovRetag_next {t : Tag} (h : Issues s o c) (ht : tagOf a.ty.code = some t) (ha : Bears c o.a (retagRegs t) ok) :
    execMovRetag o a s = .next (wrote c o.d (retagRegs t) t (c.val o.a (retagRegs t)) 0) := by
  refine word_write h ?_
  simp only [ht, Option.getD_some, Cx.tag_of_bears ha]
  rfl

end Sys2Proof.Machine

section
open Sys2Proof Sys2Proof.Machine Sys2Proof.Claims

/-- Settles O8: the tags of the operands choose whether the word completes, and each word writes its destination alone. -/
theorem compareSelectMove : Obligations.CompareSelectMove := by
  unfold Obligations.CompareSelectMove
  intro s o a c h
  simp only [cmpTags_eq]
  refine ⟨fun htags => ⟨c.cmpLane o a, ?_, cmpLane_spec c o a⟩, fun _ ha hb => ⟨execSel_next h ha hb, execSel_trap h ha hb⟩,
    execMov_next h, execMov_trap h, fun t k ht hk ha => ?_, fun hsub => ?_, fun hsub => ?_⟩
  · rcases htags with ⟨hint, ha, hb⟩ | ⟨hbits, ha, hb⟩
    · exact execIcmp_next_int h (by cases hty : a.ty <;> simp_all [Ty.isInt, Ty.isBits]) ha hb
    · exact execIcmp_next_bits h hbits ha hb
  · rw [← retagRegs_eq] at hk
    subst hk
    exact execMovRetag_next h ht ha
  · exact word_write h (by rw [if_neg (by omega)])
  · exact word_of_issues h (by rw [if_pos hsub])

end
end

section
/-! PROOFS. O9 to O12: floating-point words, element by element for packed types (R106 to R115, R125). -/

namespace Sys2Proof.Machine
open Sys2Proof.Claims

variable {s : State} {o : Op} {a : ModA} {c : Cx} {ok : List Tag}

/-! ## Elements (R106) -/

theorem packed_iff (t : Ty) : t.packed = true ↔ t = .f16 ∨ t = .bf16 := by cases t <;> simp [Ty.packed]

theorem perElem_one (t : Ty) (f : Nat → Nat × Nat) (x : Nat) : perElem t (fun xs => f (xs.getD 0 0)) [x] = each t f x := by
  simp [perElem, each, packed_iff]

theorem perElem_two (t : Ty) (f : Nat → Nat → Nat × Nat) (x y : Nat) :
    perElem t (fun xs => f (xs.getD 0 0) (xs.getD 1 0)) [x, y] = each2 t f x y := by
  simp [perElem, each2, packed_iff]

theorem perElem_single {t : Ty} (ht : t.packed = false) (f : List Nat → Nat × Nat) (xs : List Nat) : perElem t f xs = f xs := by
  simp [perElem, ht]

theorem perElem_packed {t : Ty} (ht : t.packed = true) (f : List Nat → Nat × Nat) (xs : List Nat) :
    perElem t f xs = pack2 (f (xs.map (· % 2 ^ 16))) (f (xs.map (· / 2 ^ 16 % 2 ^ 16))) := by
  simp [perElem, ht, pack2]

/-- A word that is not packed has one element. -/
theorem each_single {t : Ty} (ht : t.packed = false) (f : Nat → Nat × Nat) (x : Nat) : each t f x = f x := by
  rw [← perElem_one, perElem_single ht]
  rfl

/-! ## Words over one, two and three operands -/

/-- What a lane-wise word leaves where each lane gives a value and its flags. -/
def wroteLanes (c : Cx) (d : Opd) (n : Nat) (t : Tag) (r : Nat → Nat × Nat) : State :=
  wrote c d n t (fun l => (r l).1) (flagsOf (inLanes c d) fun l => (r l).2)

theorem word_lanes {body : Cx → Exc State} {d : Opd} {n : Nat} {t : Tag} {r : Nat → Nat × Nat} (h : Issues s o c)
    (hb : body c = .ok (c.pure d n t r)) : word s o body = .next (wroteLanes c d n t r) := word_pure h hb

theorem flBin_next (f : Nat → Nat → Nat × Nat) (h : Issues s o c) (ha : Bears c o.a a.ty.regs [a.ty.tag]) (hb : BearsB c o a a.ty.regs [a.ty.tag]) :
    flBin o a f s = .next (wroteLanes c o.d a.ty.regs a.ty.tag fun l => each2 a.ty f (c.val o.a a.ty.regs l) (c.bval o a a.ty.regs l)) := by
  refine word_lanes h ?_
  simp only [Cx.need_of_bears ha, Cx.needB_of_bearsB hb, perElem_two a.ty f]
  rfl

theorem flArith2_next (f : Fl → Fl → Fl × Nat) (h : Issues s o c) (ha : Bears c o.a a.ty.regs [a.ty.tag])
    (hb : BearsB c o a a.ty.regs [a.ty.tag]) :
    flArith2 o a f s = .next (wroteLanes c o.d a.ty.regs a.ty.tag fun l =>
      each2 a.ty (fun x y => (fmtOf a.ty).result a.rm (f ((fmtOf a.ty).read x) ((fmtOf a.ty).read y)))
        (c.val o.a a.ty.regs l) (c.bval o a a.ty.regs l)) := by
  unfold flArith2
  exact flBin_next _ h ha hb

theorem flUn_next {t : Ty} {n : Nat} {tag : Tag} (f : Nat → Nat × Nat) (h : Issues s o c) (ha : Bears c o.a t.regs [t.tag]) :
    flUn o t n tag f s = .next (wroteLanes c o.d n tag fun l => each t f (c.val o.a t.regs l)) := by
  refine word_lanes h ?_
  simp only [Cx.need_of_bears ha, perElem_one t f]
  rfl

/-- The three operands of ffma, element by element. -/
def Cx.fmaLane (c : Cx) (o : Op) (a : ModA) (l : Nat) : Nat × Nat :=
  perElem a.ty (fun xs => (fmtOf a.ty).result a.rm
      (flFma a.rm ((fmtOf a.ty).read (xs.getD 0 0)) ((fmtOf a.ty).read (xs.getD 1 0)) ((fmtOf a.ty).read (xs.getD 2 0))))
    [c.val o.a a.ty.regs l, c.val o.b a.ty.regs l, c.val o.c a.ty.regs l]

theorem Cx.fmaLane_single (c : Cx) (o : Op) (ht : a.ty.packed = false) (l : Nat) :
    c.fmaLane o a l = (fmtOf a.ty).result a.rm (flFma a.rm ((fmtOf a.ty).read (c.val o.a a.ty.regs l))
      ((fmtOf a.ty).read (c.val o.b a.ty.regs l)) ((fmtOf a.ty).read (c.val o.c a.ty.regs l))) := perElem_single ht _ _

/-- Half `k` of the three operands of a packed ffma. -/
def Cx.fmaHalf (c : Cx) (o : Op) (a : ModA) (l k : Nat) : Nat × Nat :=
  (fmtOf a.ty).result a.rm (flFma a.rm ((fmtOf a.ty).read (c.val o.a a.ty.regs l / 2 ^ (16 * k) % 2 ^ 16))
    ((fmtOf a.ty).read (c.val o.b a.ty.regs l / 2 ^ (16 * k) % 2 ^ 16)) ((fmtOf a.ty).read (c.val o.c a.ty.regs l / 2 ^ (16 * k) % 2 ^ 16)))

theorem Cx.fmaLane_packed (c : Cx) (o : Op) (ht : a.ty.packed = true) (l : Nat) :
    c.fmaLane o a l = pack2 (c.fmaHalf o a l 0) (c.fmaHalf o a l 1) := by
  rw [Cx.fmaLane, perElem_packed ht]
  simp [Cx.fmaHalf]

theorem execFfma_next (h : Issues s o c) (ha : Bears c o.a a.ty.regs [a.ty.tag]) (hb : Bears c o.b a.ty.regs [a.ty.tag])
    (hc : Bears c o.c a.ty.regs [a.ty.tag]) : execFfma o a s = .next (wroteLanes c o.d a.ty.regs a.ty.tag (c.fmaLane o a)) := by
  refine word_lanes h ?_
  simp only [Cx.need_of_bears ha, Cx.need_of_bears hb, Cx.need_of_bears hc]
  rfl

/-! ## Comparison, scaling and sums (R109, R113, R115, R125) -/

/-- What a lane of fcmp gives. -/
def Cx.fcmpLane (c : Cx) (o : Op) (a : ModA) (l : Nat) : Nat × Nat :=
  let r := flCompare o.fn ((fmtOf a.ty).read (c.val o.a a.ty.regs l)) ((fmtOf a.ty).read (c.bval o a a.ty.regs l))
  (if r.1 then 1 else 0, r.2)

theorem execFcmp_next (h : Issues s o c) (ha : Bears c o.a a.ty.regs [a.ty.tag]) (hb : BearsB c o a a.ty.regs [a.ty.tag]) :
    execFcmp o a s = .next (wroteLanes c o.d 1 .raw (c.fcmpLane o a)) := by
  refine word_lanes h ?_
  simp only [Cx.need_of_bears ha, Cx.needB_of_bearsB hb]
  rfl

theorem execFscale_next (h : Issues s o c) (ha : Bears c o.a a.ty.regs [a.ty.tag]) (hb : BearsB c o a 1 [.i32]) :
    execFscale o a s = .next (wroteLanes c o.d a.ty.regs a.ty.tag fun l =>
      each a.ty (fun x => (fmtOf a.ty).result a.rm (flScale ((fmtOf a.ty).read x) (clampExp (sext 32 (c.bval32 o a l))))) (c.val o.a a.ty.regs l)) := by
  refine word_lanes h ?_
  simp only [Cx.need_of_bears ha, Cx.needB_of_bearsB hb, ← perElem_one]
  rfl

/-- What a lane of fdot2 gives. -/
def Cx.dotLane (c : Cx) (o : Op) (a : ModA) (l : Nat) : Nat × Nat :=
  let ps := [flMul ((fmtOf a.ty).read (c.val o.a 1 l % 2 ^ 16)) ((fmtOf a.ty).read (c.val o.b 1 l % 2 ^ 16)),
    flMul ((fmtOf a.ty).read (c.val o.a 1 l / 2 ^ 16)) ((fmtOf a.ty).read (c.val o.b 1 l / 2 ^ 16))]
  let z := F32.read (c.val o.c 1 l)
  F32.result a.rm (flDot a.rm (ps ++ if a.opnd = 2 then [(z, invIf z.sig)] else []))

theorem execFdot2_next (h : Issues s o c) (ha : Bears c o.a 1 [a.ty.tag]) (hb : Bears c o.b 1 [a.ty.tag]) (hc : a.opnd = 2 → Bears c o.c 1 [.f32]) :
    execFdot2 o a s = .next (wroteLanes c o.d 1 .f32 (c.dotLane o a)) := by
  refine word_lanes h ?_
  simp only [Cx.need_of_bears ha, Cx.need_of_bears hb]
  by_cases hopnd : a.opnd = 2
  · simp only [hopnd, if_true, Cx.need_of_bears (hc hopnd)]
    simp only [bind, Except.bind, Pure.pure, Except.pure]
    congr 2
    funext l
    simp [Cx.dotLane, hopnd]
  · simp only [hopnd, if_false]
    simp only [bind, Except.bind, Pure.pure, Except.pure]
    congr 2
    funext l
    simp [Cx.dotLane, hopnd]

/-- The sum that fgsum gives in every lane, and its flags. -/
def Cx.treeSum (c : Cx) (o : Op) (a : ModA) : Option Nat × Nat :=
  sumTree (fmtOf a.ty) a.rm 5 ((List.range 32).map fun l => if c.ex.getLsbD l then some (c.val o.a a.ty.regs l) else none)

theorem execFgsum_next (h : Issues s o c) (ha : Bears c o.a a.ty.regs [a.ty.tag]) :
    execFgsum o a s = .next (wrote c o.d a.ty.regs a.ty.tag (fun _ => (c.treeSum o a).1.getD 0) (c.treeSum o a).2) := by
  refine word_of_issues h ?_
  simp only [Cx.need_of_bears ha]
  rfl

end Sys2Proof.Machine

section
open Sys2Proof Sys2Proof.Machine Sys2Proof.Claims

/-- Settles O9: each word reads its operands in the format of the type and rounds the exact result once, element by element. -/
theorem floatArithmetic : Obligations.FloatArithmetic := by
  unfold Obligations.FloatArithmetic
  intro s o a c h ha hb
  refine ⟨flArith2_next (flAdd a.rm) h ha hb, flArith2_next (fun x y => flAdd a.rm x y.negate) h ha hb, flArith2_next flMul h ha hb,
    flArith2_next flDiv h ha hb, flUn_next (fun x => (fmtOf a.ty).result a.rm (flSqrt ((fmtOf a.ty).read x))) h ha, fun hty hb' hc => ?_, fun hty hb' hc => ?_⟩
  · refine (execFfma_next h ha hb' hc).trans ?_
    rw [funext (c.fmaLane_single o hty)]
    rfl
  · refine (execFfma_next h ha hb' hc).trans ?_
    rw [funext (c.fmaLane_packed o hty)]
    rfl

/-- Settles O10: minimum and maximum element by element, the comparison into a predicate, and the class of the value. -/
theorem floatOrder : Obligations.FloatOrder := by
  unfold Obligations.FloatOrder
  intro s o a c h ha hb
  refine ⟨flBin_next ((fmtOf a.ty).minMax false) h ha hb, flBin_next ((fmtOf a.ty).minMax true) h ha hb, execFcmp_next h ha hb, fun hty => ?_⟩
  refine (flUn_next (fun x => ((fmtOf a.ty).classify x, 0)) h ha).trans ?_
  simp only [each_single hty]
  rfl

/-- Settles O11: each word is a function of one FP32 operand, rounded once. -/
theorem floatFunctions : Obligations.FloatFunctions := by
  unfold Obligations.FloatFunctions
  intro s o a c h ha
  have hnext (f : Fl → Fl × Nat) : flFunc o a .f32 f s = .next (wroteLanes c o.d 1 .f32 fun l =>
      F32.result a.rm (f (F32.read (c.val o.a 1 l)))) := by
    refine (flUn_next (t := .f32) (fun x => F32.result a.rm (f (F32.read x))) h ha).trans ?_
    simp only [each_single (t := .f32) rfl]
    rfl
  exact ⟨hnext flRsqrt, hnext flRcp, hnext flExp2, hnext flLog2, hnext flSinPi, hnext flCosPi⟩

/-- Settles O12: rounding, scaling and the exponent are functions of each element, fdot2 and fgsum sums that are rounded as the manual
says. -/
theorem floatScaleAndSum : Obligations.FloatScaleAndSum := by
  unfold Obligations.FloatScaleAndSum
  intro s o a c h ha
  refine ⟨flUn_next ((fmtOf a.ty).rint a.rm) h ha, fun hb => ?_, fun hty => ?_, fun hty hb hc => ?_, execFgsum_next h ha⟩
  · exact execFscale_next h ha hb
  · refine (flUn_next (fun x => flGetExp ((fmtOf a.ty).read x)) h ha).trans ?_
    simp only [each_single hty]
    rfl
  · have hregs : a.ty.regs = 1 := by
      rcases (packed_iff a.ty).1 hty with hf | hf <;> rw [hf] <;> rfl
    rw [hregs] at ha
    exact execFdot2_next h ha hb hc

end
end

section
/-! PROOFS. O14: words across the lanes of a group and on predicates (R121 to R127). -/

namespace Sys2Proof.Machine
open Sys2Proof.Claims

variable {s : State} {o : Op} {a : ModA} {c : Cx} {ok : List Tag}

/-! ## shfl (R121) -/

/-- The lane that FN names, before the check that it is one of the 32 (R121). -/
def shflSource (fn l b : Nat) : Int :=
  if fn = 0 then (b : Int) % 32 else if fn = 1 then (l : Int) - b else if fn = 2 then (l : Int) + b else (l ^^^ b % 32 : Nat)

theorem some_toNat_of_eq {i : Int} {k : Nat} (hi : i = k) (hk : k < 32) : (if 0 ≤ i ∧ i < 32 then some i.toNat else none) = some k := by
  subst hi
  rw [if_pos (by omega), Int.toNat_natCast]

theorem shflLane_eq {fn l b : Nat} (hfn : fn ≤ 3) (hl : l < 32) :
    shflLane fn l b = if 0 ≤ shflSource fn l b ∧ shflSource fn l b < 32 then some (shflSource fn l b).toNat else none := by
  have hxor : l ^^^ b % 32 < 32 := Nat.xor_lt_two_pow (n := 5) hl (Nat.mod_lt b (by decide))
  obtain rfl | rfl | rfl | rfl : fn = 0 ∨ fn = 1 ∨ fn = 2 ∨ fn = 3 := by omega
  · exact (some_toNat_of_eq (k := b % 32) rfl (Nat.mod_lt b (by decide))).symm
  · have hsource : shflSource 1 l b = (l : Int) - b := rfl
    by_cases hle : b ≤ l
    · rw [some_toNat_of_eq (k := l - b) (by omega) (by omega)]
      exact if_pos hle
    · rw [if_neg (by omega)]
      exact if_neg hle
  · have hsource : shflSource 2 l b = (l : Int) + b := rfl
    by_cases hlt : l + b < 32
    · rw [some_toNat_of_eq (k := l + b) (by omega) hlt]
      exact if_pos hlt
    · rw [if_neg (by omega)]
      exact if_neg hlt
  · exact (some_toNat_of_eq (k := l ^^^ b % 32) rfl hxor).symm

/-- The lane whose value a shuffle gives: the source where it executes, else the lane itself. -/
def Cx.shflFrom (c : Cx) (o : Op) (a : ModA) (l : Nat) : Nat :=
  match shflLane o.fn l (c.bval32 o a l) with
  | some k => if c.ex.getLsbD k then k else l
  | none => l

theorem Cx.shflFrom_eq (c : Cx) (a : ModA) (hfn : o.fn ≤ 3) {l : Nat} (hl : l < 32) :
    c.shflFrom o a l = if 0 ≤ shflSource o.fn l (c.bval32 o a l) ∧ shflSource o.fn l (c.bval32 o a l) < 32
      ∧ c.ex.getLsbD (shflSource o.fn l (c.bval32 o a l)).toNat then (shflSource o.fn l (c.bval32 o a l)).toNat else l := by
  rw [Cx.shflFrom, shflLane_eq hfn hl]
  by_cases hin : 0 ≤ shflSource o.fn l (c.bval32 o a l) ∧ shflSource o.fn l (c.bval32 o a l) < 32
  · simp [hin]
  · rw [if_neg hin, if_neg fun hall => hin ⟨hall.1, hall.2.1⟩]

theorem execShfl_next (h : Issues s o c) (ha : Bears c o.a a.ty.regs ok) :
    execShfl o a s = .next (wrote c o.d a.ty.regs (c.regTag o.a 0) (fun l => c.val o.a a.ty.regs (c.shflFrom o a l)) 0) := by
  refine word_pure_quiet h ?_
  simp only [Cx.any_of_bears ha]
  rfl

theorem inLanes_lt {d : Opd} {l : Nat} (hex : c.ex ≠ 0) (hl : l ∈ inLanes c d) : l < 32 :=
  lanesOf_lt _ _ (mem_lanes_of_mem_inLanes hex hl)

/-! ## Predicates (R122, R123, R126) -/

theorem voteOf_iff {fn : Nat} (hfn : fn ≤ 2) (t ex : Word) : voteOf fn t ex = true ↔
    (fn = 0 ∧ t &&& ex = ex) ∨ (fn = 1 ∧ t &&& ex ≠ 0) ∨ (fn = 2 ∧ (t &&& ex = ex ∨ t &&& ex = 0)) := by
  rcases fn with _ | _ | _ | fn
  · simp [voteOf]
  · simp [voteOf]
  · simp [voteOf]
  · omega

theorem plopOf_eq {fn : Nat} (hfn : fn ≤ 5) (p q : Word) : plopOf fn p q =
    if fn = 0 then p &&& q else if fn = 1 then p ||| q else if fn = 2 then p ^^^ q else if fn = 3 then p &&& ~~~q
    else if fn = 4 then p ||| ~~~q else ~~~p := by
  obtain rfl | rfl | rfl | rfl | rfl | rfl : fn = 0 ∨ fn = 1 ∨ fn = 2 ∨ fn = 3 ∨ fn = 4 ∨ fn = 5 := by omega
  all_goals rfl

theorem trueLanes_p (c : Cx) (i : Nat) : c.trueLanes (.p i) = c.g.pmask i := rfl

/-! ## Reductions (R124) -/

theorem Cx.reduceTag_ok (h : a.ty.isInt = true ∧ Bears c o.a a.ty.regs [a.ty.intTag] ∨ a.ty.isBits = true ∧ Bears c o.a a.ty.regs [c.regTag o.a 0]) :
    c.reduceTag o a = .ok (if a.ty.isBits then .raw else a.ty.intTag) := by
  rcases h with ⟨hint, ha⟩ | ⟨hbits, ha⟩
  · have hbits : a.ty.isBits = false := by
      cases hty : a.ty <;> simp_all [Ty.isInt, Ty.isBits]
    simp only [Cx.reduceTag, hbits, Cx.need_of_bears ha]
    rfl
  · simp only [Cx.reduceTag, hbits, Cx.any_of_bears ha]
    rfl

/-- The fold of the operation of FN over lanes. -/
def Cx.reduceOver (c : Cx) (o : Op) (a : ModA) (ls : List Nat) : Nat :=
  ls.foldl (fun y l => reduceOp o.fn a.ty y (c.val o.a a.ty.regs l)) (reduceId o.fn a.ty)

variable {t : Tag}

theorem execGred_next (h : Issues s o c) (ht : c.reduceTag o a = .ok t) :
    execGred o a s = .next (wrote c o.d a.ty.regs t (fun _ => c.reduceOver o a c.lanes) 0) := by
  refine word_write h ?_
  simp only [ht]
  rfl

theorem execGscan_next (h : Issues s o c) (ht : c.reduceTag o a = .ok t) :
    execGscan o a s = .next (wrote c o.d a.ty.regs t
      (fun l => c.reduceOver o a (c.lanes.filter fun k => if a.sub = 1 then k < l else k ≤ l)) 0) := by
  refine word_pure_quiet h ?_
  simp only [ht]
  rfl

theorem execNop_next (a : ModA) (h : Issues s o c) : execNop o a s = .next (advance c s) := by
  rw [execNop, word_of_issues h (b := c.s) rfl, (view?_spec h.2.1).1]

end Sys2Proof.Machine

section
open Sys2Proof Sys2Proof.Machine Sys2Proof.Claims

/-- Settles O14: a shuffle takes the value of its source lane, predicates and masks are written whole, and reductions fold the executing
lanes. -/
theorem lanesAndPredicates : Obligations.LanesAndPredicates := by
  unfold Obligations.LanesAndPredicates
  intro s o a c h n x put
  refine ⟨fun hfn ha => ⟨fun l => shflSource o.fn l (c.bval32 o a l), fun _ => rfl, ?_⟩, fun i hi => ?_, word_write h rfl, fun _ htags => ?_,
    execNop_next a h⟩
  · refine (execShfl_next h ha).trans (congrArg _ (wrote_congr c o.d _ _ 0 fun l hl => ?_))
    rw [c.shflFrom_eq a hfn (inLanes_lt h.2.2 hl)]
    exact apply_ite (c.val o.a a.ty.regs) _ _ _
  · have htrue : c.trueLanes o.a = c.g.pmask i := by rw [hi, trueLanes_p]
    intro p q
    refine ⟨?_, fun hfn => ⟨if voteOf o.fn (c.trueLanes o.a) c.ex then 1 else 0, word_write h rfl, ?_, ?_⟩, ?_, fun hfn => ?_⟩
    · rw [show p = c.trueLanes o.a from htrue.symm]
      exact word_write h rfl
    · split
      · exact .inl rfl
      · exact .inr rfl
    · rw [← voteOf_iff hfn, show p = c.trueLanes o.a from htrue.symm]
      cases voteOf o.fn (c.trueLanes o.a) c.ex <;> simp
    · rw [show p = c.trueLanes o.a from htrue.symm]
      exact word_write h rfl
    · rw [← plopOf_eq hfn, show p = c.trueLanes o.a from htrue.symm]
      exact word_write h rfl
  · have ht := Cx.reduceTag_ok htags
    exact ⟨execGred_next h ht, execGscan_next h ht⟩

end
end

section
/-! PROOFS. O13: conversions (R116 to R118) and dual-exponent packing (R119, R120). -/

namespace Sys2Proof.Machine
open Sys2Proof.Claims

variable {s : State} {o : Op} {a : ModA} {c : Cx} {g : Group} {ok : List Tag}

/-! ## cvt (R116 to R118) -/

/-- The rounding of element `e` of a lane. -/
def Cx.cvtRound (c : Cx) (a : ModA) (l e : Nat) : Rnd := if a.rs then .stoch (c.random l e) else .mode a.rm

/-- Element `e` of a lane, converted from the type that FN names. -/
def Cx.cvtElem (c : Cx) (o : Op) (a : ModA) (l e x : Nat) : Nat × Nat := convert (tyOf (o.fn % 16)) a.ty a.rm (c.cvtRound a l e) x

section
variable (h : Issues s o c) (ha : Bears c o.a (tyOf (o.fn % 16)).regs [(tyOf (o.fn % 16)).tag])
include h ha

theorem execCvt_single (hdst : a.ty.packed = false) :
    execCvt o a s = .next (wroteLanes c o.d a.ty.regs a.ty.tag fun l => c.cvtElem o a l 0
      (if (tyOf (o.fn % 16)).packed then c.val o.a 1 l / 2 ^ (16 * (a.sub % 2)) % 2 ^ 16 else c.val o.a (tyOf (o.fn % 16)).regs l)) := by
  refine word_lanes h ?_
  simp only [Cx.need_of_bears ha, hdst, Bool.false_and, Bool.false_eq_true, if_false]
  rfl

theorem execCvt_pack (hdst : a.ty.packed = true) (hsrc : (tyOf (o.fn % 16)).packed = false)
    (hb : Bears c o.b (tyOf (o.fn % 16)).regs [(tyOf (o.fn % 16)).tag]) :
    execCvt o a s = .next (wroteLanes c o.d 1 a.ty.tag fun l => pack2 (c.cvtElem o a l 0 (c.val o.a (tyOf (o.fn % 16)).regs l))
      (c.cvtElem o a l 1 (c.val o.b (tyOf (o.fn % 16)).regs l))) := by
  refine word_lanes h ?_
  simp only [Cx.need_of_bears ha, Cx.need_of_bears hb, hdst, hsrc, Bool.not_false, Bool.and_self, if_true]
  rfl

theorem execCvt_packed (hdst : a.ty.packed = true) (hsrc : (tyOf (o.fn % 16)).packed = true) :
    execCvt o a s = .next (wroteLanes c o.d 1 a.ty.tag fun l =>
      pack2 (c.cvtElem o a l 0 (c.val o.a 1 l % 2 ^ 16)) (c.cvtElem o a l 1 (c.val o.a 1 l / 2 ^ 16))) := by
  refine word_lanes h ?_
  simp only [Cx.need_of_bears ha, hdst, hsrc, Bool.not_true, Bool.and_false, Bool.false_eq_true, if_false, if_true]
  rfl

end

/-! ## Ranges of registers -/

theorem Cx.needRange_ok {x : Opd} {n : Nat} (h : ∀ i < n, c.regTag (x.plus i) 0 = .raw ∨ c.regTag (x.plus i) 0 ∈ ok) :
    c.needRange x ok n = .ok ⟨⟩ := by
  induction n with
  | zero => rfl
  | succ n ih =>
    have hlast : Bears c (x.plus n) 1 ok := ⟨fun k hk => by rw [Nat.lt_one_iff.1 hk], h n n.lt_succ_self⟩
    simp only [Cx.needRange, ih fun i hi => h i (Nat.lt_succ_of_lt hi), Cx.need_of_bears hlast]
    rfl

theorem Group.getV_write_one (r : Nat) (t : Tag) (f : Nat → Nat) (ex : Word) (q : Nat) {l : Nat} (hl : l ∈ lanesOf ex) :
    (g.write (.v r) 1 t f ex).getV q l = if q = r then BitVec.ofNat 32 (f l) else g.getV q l := by
  rw [Group.write, Group.getV_setVRange _ _ _ _ (lanesOf_lt ex) _ _ _ _ (lanesOf_lt ex l hl)]
  by_cases hq : q = r
  · rw [if_pos ⟨by omega, by omega, hl⟩, if_pos hq]
    simp [hq]
  · rw [if_neg (by omega), if_neg hq]

theorem Group.vtag_write_one (r : Nat) (t : Tag) (f : Nat → Nat) (ex : Word) (q : Nat) :
    (g.write (.v r) 1 t f ex).vtag q = if q = r then t else g.vtag q := by
  rw [Group.write, Group.vtag_setVRange]
  exact if_congr (by omega) rfl rfl

theorem Group.getS_write_one (r : Nat) (t : Tag) (f : Nat → Nat) (ex : Word) (q : Nat) :
    (g.write (.s r) 1 t f ex).getS q = if q = r then BitVec.ofNat 32 (f (lowLane ex)) else g.getS q := by
  rw [Group.write, Group.getS_setSRange]
  by_cases hq : q = r
  · rw [if_pos (by omega), if_pos hq]
    simp [hq]
  · rw [if_neg (by omega), if_neg hq]

theorem Group.stag_write_one (r : Nat) (t : Tag) (f : Nat → Nat) (ex : Word) (q : Nat) :
    (g.write (.s r) 1 t f ex).stag q = if q = r then t else g.stag q := by
  simp only [Group.write, Group.setSRange]
  exact Group.stag_setStag ..

section
variable (tag : Nat → Tag) (f : Nat → Nat → Nat) (ex : Word) {n i : Nat}

/-- What a range written register by register holds in a lane. -/
theorem Group.writeRange_v (r : Nat) (hi : i < n) {l : Nat} (hl : l ∈ lanesOf ex) :
    (g.writeRange (.v r) tag f ex n).getV (r + i) l = BitVec.ofNat 32 (f i l) ∧ (g.writeRange (.v r) tag f ex n).vtag (r + i) = tag i := by
  induction n with
  | zero => omega
  | succ n ih =>
    rw [Group.writeRange, Opd.plus, Group.getV_write_one _ _ _ _ _ hl, Group.vtag_write_one]
    by_cases hlast : i = n
    · rw [if_pos (by omega), if_pos (by omega), hlast]
      exact ⟨rfl, rfl⟩
    · rw [if_neg (by omega), if_neg (by omega)]
      exact ih (by omega)

theorem Group.writeRange_s (r : Nat) (hi : i < n) :
    (g.writeRange (.s r) tag f ex n).getS (r + i) = BitVec.ofNat 32 (f i (lowLane ex)) ∧ (g.writeRange (.s r) tag f ex n).stag (r + i) = tag i := by
  induction n with
  | zero => omega
  | succ n ih =>
    rw [Group.writeRange, Opd.plus, Group.getS_write_one, Group.stag_write_one]
    by_cases hlast : i = n
    · rw [if_pos (by omega), if_pos (by omega), hlast]
      exact ⟨rfl, rfl⟩
    · rw [if_neg (by omega), if_neg (by omega)]
      exact ih (by omega)

@[simp] theorem Group.write_gstat (g : Group) (d : Opd) (n : Nat) (t : Tag) (f : Nat → Nat) (ex : Word) : (g.write d n t f ex).gstat = g.gstat := by
  obtain ⟨_, _, _, _, _, _, h⟩ := g.write_cases d n t f ex
  rw [h]

@[simp] theorem Group.writeRange_gstat (g : Group) (d : Opd) (n : Nat) : (g.writeRange d tag f ex n).gstat = g.gstat := by
  induction n with
  | zero => rfl
  | succ n ih => rw [Group.writeRange, Group.write_gstat, ih]

end

/-! ## dxpack and dxunpack (R119, R120) -/

/-- The block of sixteen FP32 values that dxpack makes of a lane. -/
def Cx.dxBlock (c : Cx) (o : Op) (a : ModA) (l : Nat) : List Nat × Nat × Nat × Nat :=
  (dxShape a.ty).1.pack (if o.fn / 2 % 2 = 1 then none else some (o.fn / 4 % 8))
    (fun e => if a.rs then .stoch (c.random l e) else .mode .rn) ((List.range 16).map fun i => (c.reg o.a i l).toNat)

/-- The tags of the registers that dxpack writes: the elements', and RAW for the scale pair. -/
def dxTag (t : Ty) (k : Nat) : Tag := if k = (dxShape t).2.1 then .raw else (dxShape t).2.2

/-- The group once dxpack has written its registers. -/
def Cx.dxPacked (c : Cx) (o : Op) (a : ModA) : Group :=
  c.g.writeRange o.d (dxTag a.ty)
    (fun k l => dxRegs (dxShape a.ty).1 (dxShape a.ty).2.1 (laneVal ([], 0, 0, 0) ((inLanes c o.d).map fun l => (l, c.dxBlock o a l)) l) k)
    c.ex ((dxShape a.ty).2.1 + 1)

theorem execDxpack_next (h : Issues s o c) (ha : ∀ i < 16, c.regTag (o.a.plus i) 0 = .raw ∨ c.regTag (o.a.plus i) 0 = .f32) :
    execDxpack o a s = .next (advance c (c.put ((c.dxPacked o a).orFlags (flagsOf (inLanes c o.d) fun l => (c.dxBlock o a l).2.2.2)))) := by
  have hneed : c.needRange o.a [.f32] 16 = .ok ⟨⟩ := Cx.needRange_ok (by simpa using ha)
  refine word_of_issues h ?_
  simp only [hneed, Cx.dlanes_eq_inLanes, Cx.dxPacked, flagsOf]
  rw [← List.foldl_map (f := fun l => (l, c.dxBlock o a l)) (g := fun m r => m ||| r.2.2.2.2)]
  rfl

theorem dxPacked_v (c : Cx) (o : Op) (a : ModA) {r l i : Nat} (hd : o.d = .v r) (hl : l ∈ lanesOf c.ex) (hi : i < (dxShape a.ty).2.1 + 1) :
    (c.dxPacked o a).getV (r + i) l = BitVec.ofNat 32 (dxRegs (dxShape a.ty).1 (dxShape a.ty).2.1 (c.dxBlock o a l) i)
      ∧ (c.dxPacked o a).vtag (r + i) = dxTag a.ty i := by
  have hin : l ∈ inLanes c o.d := by rw [hd]; exact hl
  rw [← laneVal_map ([], 0, 0, 0) (c.dxBlock o a) hin, Cx.dxPacked, hd]
  exact Group.writeRange_v _ _ _ r hi hl

theorem dxPacked_s (c : Cx) (o : Op) (a : ModA) {r i : Nat} (hd : o.d = .s r) (hi : i < (dxShape a.ty).2.1 + 1) :
    (c.dxPacked o a).getS (r + i) = BitVec.ofNat 32 (dxRegs (dxShape a.ty).1 (dxShape a.ty).2.1 (c.dxBlock o a (lowLane c.ex)) i)
      ∧ (c.dxPacked o a).stag (r + i) = dxTag a.ty i := by
  have hin : lowLane c.ex ∈ inLanes c o.d := by rw [hd]; exact List.mem_singleton_self _
  rw [← laneVal_map ([], 0, 0, 0) (c.dxBlock o a) hin, Cx.dxPacked, hd]
  exact Group.writeRange_s _ _ _ r hi

/-- Value `i` of the block that a lane of dxunpack reads. -/
def Cx.dxValue (c : Cx) (o : Op) (a : ModA) (i l : Nat) : Nat :=
  dxElem (dxShape a.ty).1 ((c.reg o.a (i / (32 / (dxShape a.ty).1.ew)) l).toNat
      / 2 ^ ((dxShape a.ty).1.ew * (i % (32 / (dxShape a.ty).1.ew))) % 2 ^ (dxShape a.ty).1.ew)
    ((c.reg o.a (dxShape a.ty).2.1 l).toNat % 256) ((c.reg o.a (dxShape a.ty).2.1 l).toNat / 256 % 256)

theorem execDxunpack_next (h : Issues s o c)
    (ha : ∀ i < (dxShape a.ty).2.1, c.regTag (o.a.plus i) 0 = .raw ∨ c.regTag (o.a.plus i) 0 = (dxShape a.ty).2.2) :
    execDxunpack o a s = .next (advance c (c.put (c.g.writeRange o.d (fun _ => .f32) (c.dxValue o a) c.ex 16))) := by
  have hneed : c.needRange o.a [(dxShape a.ty).2.2] (dxShape a.ty).2.1 = .ok ⟨⟩ := Cx.needRange_ok (by simpa using ha)
  refine word_of_issues h ?_
  simp only [hneed]
  rfl

end Sys2Proof.Machine

section
open Sys2Proof Sys2Proof.Machine Sys2Proof.Claims

/-- Settles O13: cvt by which of its types are packed, and the registers that a block fills one after the other. -/
theorem conversions : Obligations.Conversions := by
  unfold Obligations.Conversions
  intro s o a c h src rnd cv did
  refine ⟨fun ha => ⟨fun hdst hsrc => ?_, fun hdst hsrc => ?_, fun hdst hsrc hb => execCvt_pack h ha hdst hsrc hb,
    fun hdst hsrc => execCvt_packed h ha hdst hsrc⟩, ?_⟩
  · refine (execCvt_single h ha hdst).trans ?_
    simp only [show (tyOf (o.fn % 16)).packed = false from hsrc, Bool.false_eq_true, if_false]
    rfl
  · refine (execCvt_single h ha hdst).trans ?_
    simp only [show (tyOf (o.fn % 16)).packed = true from hsrc, if_true]
    rfl
  · intro f n t
    refine ⟨fun ha => ⟨c.dxPacked o a, execDxpack_next h ha, Group.writeRange_gstat .., fun i hi => ⟨?_, ?_⟩⟩,
      fun ha => ⟨_, execDxunpack_next h ha, Group.writeRange_gstat .., fun i hi => ⟨?_, ?_⟩⟩⟩
    · exact fun r l hd hl => dxPacked_v c o a hd hl hi
    · exact fun r hd => dxPacked_s c o a hd hi
    · intro r l hd hl
      rw [hd]
      exact Group.writeRange_v _ _ _ r hi hl
    · intro r hd
      rw [hd]
      exact Group.writeRange_s _ _ _ r hi

end
end

section
namespace Sys2Proof.Machine

variable {s : State} {k : UKey} {gid : Nat} {u : Unit} {g : Group}

theorem State.mem_agenda_due (s : State) (i : Instr) : i ∈ (s.due i).agenda := by
  unfold State.due
  split <;> simp_all

/-- A fault of a supervisor group is reported as a machine check of its core. -/
theorem takeFault_super (hu : s.unit? k = some u) (hg : u.grp? gid = some g) (hk : isSuper k = true) (word : Nat) (pc : DWord)
    (r : Trap) (f : Sparse Byte → Sparse Byte) (b : Bool) : .machineCheck u.core [] ∈ (takeFault s k gid word pc r f b).agenda := by
  simp only [takeFault, hu, hg, hk, if_true]
  exact State.mem_agenda_due _ _

end Sys2Proof.Machine

namespace Sys2Proof.Frame
open Sys2Proof.Machine Sys2Proof.Claims

/-- A supervisor's unit that holds two groups of one number, of unlike thread numbers. -/
def twinUnit : Machine.Unit := { bootUnit with key := superKey 0, grps := [bootGroup, { bootGroup with tid := [] }] }

/-- The machine in which the first of them issues. -/
def twins : State := { State.reset with units := [twinUnit], cur := some { u := superKey 0, gid := 0, ent := 0, word := 0 } }

/-- The view of the issuing group. -/
def twinCx : Cx :=
  { s := twins, iss := { u := superKey 0, gid := 0, ent := 0, word := 0 }, u := twinUnit, g := bootGroup,
    e := .new (BitVec.ofNat 64 bootPc) 128 (BitVec.allOnes 32), ex := guardLanes bootGroup 7 (BitVec.allOnes 32) }

/-- The operands of an unguarded nop. -/
def nopOp : Op := { fn := 0, grd := 7, hint := 0, d := .sp .z, a := .sp .z, b := .sp .z, imm := 0 }

/-- Its MOD, all zero. -/
def nopMod : ModA := { ty := .i32, rm := .rn, rs := false, opnd := 0, sub := 0 }

/-- The thread numbers of every group of every unit. -/
def tids (s : State) : List (List (Sparse Word)) := s.units.map fun u => u.grps.map Group.tid

theorem twinCx_issues : Issues twins nopOp twinCx := ⟨by decide, by decide +kernel, by decide⟩

end Sys2Proof.Frame

section
open Sys2Proof Sys2Proof.Machine Sys2Proof.Claims Sys2Proof.Frame

/-- Refutes O15: nop leaves the groups as they stand, while the frame puts the issuing group in the place of every group of its number, and
the statement also speaks of states in which a unit holds two such groups. That it took no trap is seen of a supervisor group, whose traps
leave a machine check due. -/
theorem not_familyAFrame : ¬ Obligations.FamilyAFrame := by
  unfold Obligations.FamilyAFrame
  intro h
  obtain ⟨r, hr⟩ | ⟨g, hg, -, hfields, -⟩ := h (.nop nopOp nopMod) nopOp nopMod twins _ twinCx rfl twinCx_issues (execNop_next nopMod twinCx_issues)
  · have hdue : Instr.machineCheck 0 [] ∈ (takeTrap twinCx twins r).agenda := takeFault_super (u := twinUnit) rfl rfl rfl _ _ _ _ _
    rw [← hr] at hdue
    exact absurd hdue (List.not_mem_nil)
  · generalize g.v = v, g.vt = vt, g.s = w, g.st = st, g.m = m, g.p = p, g.gstat = gs at hfields
    subst hfields
    have hsame : [[bootGroup.tid, []]] = [[bootGroup.tid, bootGroup.tid]] := congrArg tids hg
    exact absurd hsame (by decide)

end
end

section
/-! PROOFS. Control transfers: the frontier they leave, and what becomes of one of more than eight entries (R128 to R136, R229). -/

namespace Sys2Proof.Machine
open Sys2Proof.Claims

variable {s : State} {o : Op} {c : Cx} {u : Unit} {g : Group} {es : List Entry} {body : Cx → Exc State} {w : Wait}

/-! ## How a word that places its lanes ends -/

theorem wordCtl_of_issues {b : State} (h : Issues s o c) (hb : body c = .ok b) : wordCtl s o body = .next b := by
  obtain ⟨-, hview, hex⟩ := h
  exact wordCtl_next hview hex hb

theorem wordCtl_stop {a : Trap} (h : Issues s o c) (hb : body c = .error (.trap a)) : wordCtl s o body = .next (takeTrap c s a) := by
  obtain ⟨-, hview, hex⟩ := h
  rw [wordCtl_trap hview hex hb, (view?_spec hview).1]

theorem wordCtl_wait (h : Issues s o c) (hb : body c = .error (.wait w)) : wordCtl s o body = .next (enterWait c s w) := by
  obtain ⟨-, hview, hex⟩ := h
  rw [wordCtl, hview]
  simp only
  rw [if_neg hex, hb, finishCtl, (view?_spec hview).1]

theorem issues_view (h : Issues s o c) : c.s = s := (view?_spec h.2.1).1

/-! ## The frontier of a transfer -/

@[simp] theorem branchEnts_nil (c : Cx) : branchEnts c [] = left c := rfl

@[simp] theorem branchEnts_one (c : Cx) (pc : DWord) (prio : Nat) : branchEnts c [(pc, prio, c.ex)] = sentTo c pc prio := rfl

theorem branchEnts_lanes (c : Cx) (o : Op) (prio : Nat) (h : o.a.perLane = true) :
    branchEnts c (c.lanes.map fun l => (BitVec.ofNat 64 (c.val o.a 2 l), prio, BitVec.ofNat 32 (2 ^ l))) = sentFar c o prio := by
  rw [sentFar, if_pos h, branchEnts, addAll, List.map_map, List.foldl_map]
  rfl

/-! ## A frontier that stands, and one that is cut -/

theorem growFrontier_fits (u : Unit) (g : Group) (h : es.length ≤ 8) : growFrontier u g es = .ok (es, []) := by
  simp [growFrontier, h]

/-- Cutting off no record changes nothing. -/
@[simp] theorem Cx.cutOff_nil (c : Cx) (u : Unit) : c.cutOff u [] = u := by
  simp [Cx.cutOff, Cx.stamp]

theorem setFrontier_fits (hgid : g.gid = c.g.gid) (h : es.length ≤ 8) : setFrontier c g es = .ok (frontier c g es) := by
  rw [setFrontier, growFrontier_fits c.u g h]
  simp only [bind, Except.bind, h, if_true, Cx.cutOff_nil]
  exact congrArg (fun n => Except.ok (c.s.modUnit c.u.key fun u => u.modGrp n fun _ => { g with ents := es, after := false })) hgid

theorem meets_rangeFrom_zero (xs : List Nat) (n : Nat) : meets xs (rangeFrom 0 n) = true ↔ ∃ r ∈ xs, r < n := by
  simp [meets, rangeFrom]

theorem any_second_eq_false (h : ∀ e ∈ es, e.wait ≠ .second) : es.any (·.wait == .second) = false := by
  simpa using h

/-- The bytes that the records of the threads below the eighth entry take (R229). -/
def cutNeed (n : Nat) (es : List Entry) : Nat :=
  (((sortBy Entry.above es).drop 8).map fun e => (lanesOf e.mask).length).sum * recBytes n

theorem growFrontier_long (u : Unit) (g : Group) (hlong : 8 < es.length) (h : ∀ e ∈ es, e.wait ≠ .second) :
    growFrontier u g es =
      if g.inh then stop { code := 0x07, detail := 2 }
      else if u.offcut < cutNeed g.liven es then stop { code := 0x07, detail := 1 }
      else if u.offcut < offUsed u + cutNeed g.liven es then .error (.wait .offcut)
      else if meets (u.vregsHeld g.gid) (rangeFrom 0 g.liven) then .error (.wait .engine)
      else .ok ((sortBy Entry.above es).take 8, cutRecs g g.liven ((sortBy Entry.above es).drop 8)) := by
  have hnot : ¬ es.length ≤ 8 := by omega
  simp only [growFrontier, hnot, any_second_eq_false h]
  rfl

/-- A word whose meaning is a frontier of more than eight entries does with it what the store and the handler allow (R229, R306). -/
theorem grows_of_setFrontier (h : Issues s o c) (hgid : g.gid = c.g.gid) (hinh : g.inh = c.g.inh) (hliven : g.liven = c.g.liven)
    (hb : body c = setFrontier c g es) : Grows c s (wordCtl s o body) g es := by
  obtain rfl := issues_view h
  intro hlong
  have hcut (ha : ∀ e ∈ es, e.wait ≠ .second) := growFrontier_long c.u g hlong ha
  rw [hgid, hinh, hliven] at hcut
  have hkept (s' : State) (keep : List Entry) (rs : List OffRec) :
      (s'.modUnit c.u.key fun u => c.cutOff (u.modGrp g.gid fun _ => { g with ents := keep, after := false }) rs)
        = s'.modUnit c.u.key fun u => c.cutOff (u.modGrp c.g.gid fun _ => { g with ents := keep, after := false }) rs :=
    congrArg (fun n => s'.modUnit c.u.key fun u => c.cutOff (u.modGrp n fun _ => { g with ents := keep, after := false }) rs) hgid
  refine ⟨fun ha hin => wordCtl_stop h ?_, fun ha hout (hsmall : c.u.offcut < cutNeed c.g.liven es) => wordCtl_stop h ?_,
    fun ha hout (hlarge : cutNeed c.g.liven es ≤ c.u.offcut) (hfull : c.u.offcut < offUsed c.u + cutNeed c.g.liven es) => wordCtl_wait h ?_,
    fun ha hout (hroom : offUsed c.u + cutNeed c.g.liven es ≤ c.u.offcut) => ⟨fun hfree => ?_, fun hheld => wordCtl_wait h ?_⟩,
    fun ha => ?_⟩
  · rw [hb, setFrontier, hcut ha, if_pos hin]
    rfl
  · rw [hb, setFrontier, hcut ha, if_neg (by simp [hout]), if_pos hsmall]
    rfl
  · rw [hb, setFrontier, hcut ha, if_neg (by simp [hout]), if_neg (by omega), if_pos hfull]
    rfl
  · have hno : ¬ meets (c.u.vregsHeld c.g.gid) (rangeFrom 0 c.g.liven) = true := by
      rw [meets_rangeFrom_zero]
      rintro ⟨r, hr, hlt⟩
      exact absurd (hfree r hr) (by omega)
    rw [← hkept]
    refine wordCtl_of_issues h ?_
    rw [hb, setFrontier, hcut ha, if_neg (by simp [hout]), if_neg (by omega), if_neg (by omega), if_neg hno]
    simp only [bind, Except.bind, List.length_take_le, if_true]
    rfl
  · rw [hb, setFrontier, hcut ha, if_neg (by simp [hout]), if_neg (by omega), if_neg (by omega),
      if_pos ((meets_rangeFrom_zero _ _).2 hheld)]
    rfl
  · have hpair : es.any (·.wait == .second) = true := by simpa using ha
    have hnot : ¬ es.length ≤ 8 := by omega
    have hset := hkept { c.s with grown := some c.g } es []
    simp only [Cx.cutOff_nil] at hset
    rw [State.modGrp, ← hset]
    refine wordCtl_of_issues h ?_
    simp only [hb, setFrontier, growFrontier, hpair, Bool.or_true, if_true, bind, Except.bind, hnot, if_false, Cx.cutOff_nil]
    rfl

/-! ## The transfers -/

/-- A write of registers leaves the group its number, its handler state and its LIVEN. -/
theorem Group.write_keeps (g : Group) (d : Opd) (n : Nat) (t : Tag) (f : Nat → Nat) (ex : Word) :
    (g.write d n t f ex).gid = g.gid ∧ (g.write d n t f ex).inh = g.inh ∧ (g.write d n t f ex).liven = g.liven := by
  obtain ⟨_, _, _, _, _, _, h⟩ := g.write_cases d n t f ex
  rw [h]
  exact ⟨rfl, rfl, rfl⟩

/-- An accepted far address sends the lanes to where A says. -/
theorem Cx.branchTo_eq (prio : Nat) (h : FarOk c o) : c.branchTo o prio = setFrontier c c.g (sentFar c o prio) := by
  obtain ⟨hbears, halign⟩ := h
  have hnone : (c.lanes.find? fun l => c.val o.a 2 l % 4 != 0) = none := by simpa using halign
  simp only [Cx.branchTo, Cx.need_of_bears hbears, bind, Except.bind, hnone]
  split
  · next hlane => rw [branchEnts_lanes c o prio hlane]
  · next hlane => rw [sentFar, if_neg hlane, Cx.branch, branchEnts_one]

/-! ## Lanes that end -/

theorem Cx.drain_ok (h : Drained c.s c) : c.drain = .ok ⟨⟩ := by
  obtain ⟨hdue, hrecs⟩ := h
  simp [Cx.drain, hdue, hrecs]

theorem Cx.endLanes_ok (h : left c ≠ [] ∨ Drained c.s c) : c.endLanes = .ok (left c) := by
  rw [Cx.endLanes, branchEnts_nil]
  by_cases hnil : left c = []
  · obtain hne | hdrained := h
    · exact absurd hnil hne
    · simp only [hnil, List.isEmpty_nil, if_true, Cx.drain_ok hdrained]
      rfl
  · simp only [List.isEmpty_iff, hnil, if_false]
    rfl

end Sys2Proof.Machine

section
open Sys2Proof Sys2Proof.Machine Sys2Proof.Claims

/-- Settles O16: each transfer is one frontier that is set, and a frontier of at most eight entries is set as it is. -/
theorem branches : Obligations.Branches := by
  unfold Obligations.Branches
  intro s o b x c h near
  have hcalled := (c.g.write_keeps o.d 2 .i64 (fun _ => (c.e.pc + 12).toNat) c.ex).1
  refine ⟨fun hfits => ⟨wordCtl_of_issues h (setFrontier_fits rfl hfits), wordCtl_of_issues h (setFrontier_fits hcalled hfits)⟩,
    fun hfits => wordCtl_of_issues h (setFrontier_fits rfl hfits), fun hfar => ⟨fun hfits => ?_, fun hfits => ?_⟩⟩
  · exact wordCtl_of_issues h ((Cx.branchTo_eq _ hfar).trans (setFrontier_fits rfl hfits))
  · exact wordCtl_of_issues h ((Cx.branchTo_eq _ hfar).trans (setFrontier_fits rfl hfits))

/-- Settles O18: each transfer is one frontier that is set, and `grows_of_setFrontier` says what becomes of one that is too long. -/
theorem frontierGrowth : Obligations.FrontierGrowth := by
  unfold Obligations.FrontierGrowth
  intro s o b x c h near
  obtain ⟨hgid, hinh, hliven⟩ := c.g.write_keeps o.d 2 .i64 (fun _ => (c.e.pc + 12).toNat) c.ex
  exact ⟨grows_of_setFrontier h rfl rfl rfl rfl, grows_of_setFrontier h hgid hinh hliven rfl, grows_of_setFrontier h rfl rfl rfl rfl,
    grows_of_setFrontier h rfl rfl rfl rfl, fun hfar =>
      ⟨grows_of_setFrontier h rfl rfl rfl (Cx.branchTo_eq _ hfar), grows_of_setFrontier h rfl rfl rfl (Cx.branchTo_eq _ hfar)⟩⟩

/-- Settles O17: an exit and a regroup end their lanes where a drain lets them, a regroup without room only advances, and a rejoin that fits
leaves its lanes waiting. -/
theorem lanesLeave : Obligations.LanesLeave := by
  unfold Obligations.LanesLeave
  intro s o x c h n recs room
  obtain rfl := issues_view h
  refine ⟨fun hend => wordCtl_of_issues h ?_, fun hout hroom hend => ?_, fun hno => ?_, ?_, fun hfits =>
    wordCtl_of_issues h (setFrontier_fits rfl hfits)⟩
  · rw [Cx.endLanes_ok hend]
    rfl
  · refine wordCtl_of_issues h ?_
    have hfree : ¬ (c.g.inh || c.u.offcut < offUsed c.u + recs.length * recBytes n) = true := by simpa [hout] using hroom
    rw [Cx.regroup, Cx.endLanes_ok hend]
    exact if_neg hfree
  · refine wordCtl_of_issues h (if_pos ?_)
    rw [Bool.or_eq_true, decide_eq_true_eq, ← Nat.not_le]
    exact hno
  · exact word_of_issues h rfl

end
end

section
/-! PROOFS. What a word's effect leaves for the statements to read: its group, its unit and the bytes of memory. -/

namespace Sys2Proof.Machine
open Sys2Proof.Claims

variable {s t : State} {o : Op} {c : Cx} {k j : UKey} {gid n : Nat} {u : Unit} {g : Group} {body : Cx → Exc State} {w : Wait}

/-! ## How a word stops -/

theorem word_wait (h : Issues s o c) (hb : body c = .error (.wait w)) : word s o body = .next (enterWait c s w) := by
  obtain ⟨-, hview, hex⟩ := h
  rw [word, hview]
  simp only
  rw [if_neg hex, hb, ← (view?_spec hview).1, finish]

theorem unit?_of_issues (h : Issues s o c) : s.unit? c.u.key = some c.u := (view?_spec h.2.1).2.2.1

theorem grp?_of_issues (h : Issues s o c) : c.u.grp? c.g.gid = some c.g := (view?_spec h.2.1).2.2.2.2.1

theorem live_of_issues (h : Issues s o c) : c.g.live = true := (Unit.grp?_live (grp?_of_issues h)).1

theorem after_of_issues (h : Issues s o c) : c.after s = some c.g := after_self h.2.1

/-! ## The group after a word -/

/-- An effect that leaves `g` in the place of the issuing group, its entries untouched, leaves it there with its entry moved on. -/
theorem afterIs_advance (ht : c.after t = some g) (hents : g.ents = c.g.ents) : afterIs c (advance c t) g := by
  rw [afterIs, after_advance, ht, Option.map_some, advanceEnts, hents]
  rfl

theorem after_put_of_issues (h : Issues s o c) (hlive : g.live = c.g.live) (hgid : g.gid = c.g.gid) : c.after (c.put g) = some g :=
  after_put h.2.1 (hlive.trans (live_of_issues h)) hgid

theorem afterIs_put (h : Issues s o c) (hlive : g.live = c.g.live) (hgid : g.gid = c.g.gid) (hents : g.ents = c.g.ents) :
    afterIs c (advance c (c.put g)) g :=
  afterIs_advance (after_put_of_issues h hlive hgid) hents

theorem afterIs_self (h : Issues s o c) : afterIs c (advance c s) c.g := afterIs_advance (after_of_issues h) rfl

/-- A write of registers leaves the group its place, its life and its entries. -/
theorem Group.write_same (g : Group) (d : Opd) (n : Nat) (t : Tag) (f : Nat → Nat) (ex : Word) :
    (g.write d n t f ex).live = g.live ∧ (g.write d n t f ex).gid = g.gid ∧ (g.write d n t f ex).ents = g.ents := by
  obtain ⟨_, _, _, _, _, _, h⟩ := g.write_cases d n t f ex
  rw [h]
  exact ⟨rfl, rfl, rfl⟩

theorem after_put_write (h : Issues s o c) (d : Opd) (n : Nat) (t : Tag) (f : Nat → Nat) (ex : Word) :
    c.after (c.put (c.g.write d n t f ex)) = some (c.g.write d n t f ex) := by
  obtain ⟨hlive, hgid, -⟩ := c.g.write_same d n t f ex
  exact after_put_of_issues h hlive hgid

theorem afterIs_write (d : Opd) (n : Nat) (tag : Tag) (f : Nat → Nat) (ex : Word)
    (ht : c.after t = some (c.g.write d n tag f ex)) : afterIs c (advance c t) (c.g.write d n tag f ex) :=
  afterIs_advance ht (c.g.write_same d n tag f ex).2.2

/-- A change of a group that leaves its registers and does not look at them. -/
structure RegsStay (f : Group → Group) : Prop where
  setV : ∀ g r l w, (f g).setV r l w = f (g.setV r l w)
  setVtag : ∀ g r t, (f g).setVtag r t = f (g.setVtag r t)
  setS : ∀ g r w, (f g).setS r w = f (g.setS r w)
  setStag : ∀ g r t, (f g).setStag r t = f (g.setStag r t)
  setM : ∀ g r w, (f g).setM r w = f (g.setM r w)
  setP : ∀ g r e w, (f g).setP r e w = f (g.setP r e w)

section
variable {f : Group → Group} (hf : RegsStay f)
include hf

theorem RegsStay.setVLanes (g : Group) (r : Nat) (w : Nat → Word) (ls : List Nat) : (f g).setVLanes r w ls = f (g.setVLanes r w ls) := by
  induction ls generalizing g with
  | nil => rfl
  | cons l ls ih => rw [Group.setVLanes, hf.setV, ih, Group.setVLanes]

theorem RegsStay.setVRange (g : Group) (r : Nat) (t : Tag) (v : Nat → Nat) (ls : List Nat) (n k : Nat) :
    (f g).setVRange r t v ls n k = f (g.setVRange r t v ls n k) := by
  induction n generalizing g k with
  | zero => rfl
  | succ n ih => rw [Group.setVRange, hf.setVLanes, hf.setVtag, ih, Group.setVRange]

theorem RegsStay.setSRange (g : Group) (r : Nat) (t : Tag) (v n k : Nat) : (f g).setSRange r t v n k = f (g.setSRange r t v n k) := by
  induction n generalizing g k with
  | zero => rfl
  | succ n ih => rw [Group.setSRange, hf.setS, hf.setStag, ih, Group.setSRange]

/-- Such a change may come before or after a write of registers. -/
theorem RegsStay.write (g : Group) (d : Opd) (n : Nat) (t : Tag) (v : Nat → Nat) (ex : Word) : (f g).write d n t v ex = f (g.write d n t v ex) := by
  cases d with
  | v r => exact hf.setVRange ..
  | s r => exact hf.setSRange ..
  | m r => exact hf.setM ..
  | p r => exact hf.setP ..
  | sp _ | res _ => rfl

end

theorem regsStay_orFlags (fl : Nat) : RegsStay fun g => g.orFlags fl where
  setV _ _ _ _ := rfl
  setVtag _ _ _ := rfl
  setS _ _ _ := rfl
  setStag _ _ _ := rfl
  setM _ _ _ := rfl
  setP g r e w := by
    unfold Group.setP
    split <;> rfl

/-! ## The unit after a word -/

theorem State.unit?_modGrp (s : State) (k : UKey) (gid : Nat) (f : Group → Group) :
    (s.modGrp k gid f).unit? k = (s.unit? k).map fun u => u.modGrp gid f :=
  State.unit?_modUnit (fun u => u.modGrp gid f) fun _ h => h

theorem unit?_modUnit_of (hu : s.unit? k = some u) (f : Unit → Unit) (hf : ∀ u, u.key = k → (f u).key = k) :
    (s.modUnit k f).unit? k = some (f u) := by
  rw [State.unit?_modUnit f hf, hu, Option.map_some]

/-- The unit of the view, with its groups as they have become. -/
theorem unit?_modGrp_of (hu : s.unit? k = some u) (gid : Nat) (f : Group → Group) :
    (s.modGrp k gid f).unit? k = some { u with grps := (u.modGrp gid f).grps } := by
  rw [State.unit?_modGrp, hu]
  rfl

theorem unit?_advance_of (hu : s.unit? c.u.key = some u) : ∃ gs, (advance c s).unit? c.u.key = some { u with grps := gs } :=
  ⟨_, unit?_modGrp_of hu ..⟩

/-- A change of a unit that leaves its groups leaves the issuing group. -/
theorem after_modUnit (f : Unit → Unit) (hkey : ∀ u, u.key = k → (f u).key = k) (hgrps : ∀ u, (f u).grps = u.grps) :
    c.after (s.modUnit k f) = c.after s := by
  unfold Cx.after
  by_cases hk : c.u.key = k
  · subst hk
    rw [State.unit?_modUnit f hkey, Option.bind_map]
    exact congrArg _ (funext fun u => by simp [Unit.grp?, hgrps])
  · rw [State.unit?_modUnit_ne f hkey hk]

/-! ## Clocks of race detection -/

@[simp] theorem withRace_rd (s : State) (k : UKey) (f : Race → Race) (sp a : Nat) : (withRace s k f).rd sp a = s.rd sp a := by
  unfold withRace
  split <;> rfl

theorem after_withRace (c : Cx) (s : State) (k : UKey) (f : Race → Race) : c.after (withRace s k f) = c.after s := by
  unfold withRace
  split
  · exact after_modUnit _ (fun _ h => h) fun _ => rfl
  · rfl

theorem unit?_withRace_of (hu : s.unit? k = some u) (f : Race → Race) : ∃ r, (withRace s k f).unit? k = some { u with race := r } := by
  unfold withRace
  split
  · exact ⟨f u.race, unit?_modUnit_of hu _ fun _ h => h⟩
  · exact ⟨u.race, hu⟩

/-! ## Memory -/

theorem sameMemory_refl (s : State) : SameMemory s s := fun _ _ _ => rfl

theorem sameMemory_of_rd (h : ∀ sp a, t.rd sp a = s.rd sp a) : SameMemory s t := fun sp _ a => h sp a

end Sys2Proof.Machine
end

section
/-! PROOFS. Words that wait, and words that only read: tags, barriers, the handler, special registers (R177 to R179, R203 to R206). -/

namespace Sys2Proof.Machine
open Sys2Proof.Claims

variable {s t : State} {o : Op} {x : ModX} {c : Cx} {k : UKey} {m n : Nat} {u : Unit} {g : Group} {l : Launch}

/-! ## Tags (R203) -/

theorem tagsOf_headD (hm : m < 2 ^ 64) :
    (∀ k < (tagsOf m).headD 64, m.testBit k = false) ∧ if m = 0 then (tagsOf m).headD 64 = 64 else m.testBit ((tagsOf m).headD 64) = true := by
  have hhead : (tagsOf m).headD 64 = ((List.range 64).find? m.testBit).getD 64 := by
    rw [List.headD_eq_head?_getD, tagsOf, List.head?_filter]
  rw [hhead]
  cases hfind : (List.range 64).find? m.testBit with
  | none =>
    have hclear : ∀ k, m.testBit k = false := fun k => by
      by_cases hk : k < 64
      · simpa using List.find?_eq_none.1 hfind k (List.mem_range.2 hk)
      · exact Nat.testBit_lt_two_pow (hm.trans_le (Nat.pow_le_pow_right (by omega) (by omega)))
    rw [if_pos (Nat.eq_of_testBit_eq fun k => by rw [hclear, Nat.zero_testBit])]
    exact ⟨fun k _ => hclear k, rfl⟩
  | some i =>
    obtain ⟨hi, -, hlow⟩ := List.find?_range_eq_some.1 hfind
    have hne : m ≠ 0 := by
      rintro rfl
      simp at hi
    rw [if_neg hne]
    exact ⟨fun k hk => by simpa using hlow k hk, hi⟩

theorem Cx.join_rd (c : Cx) (s : State) (ts : List Nat) (sp a : Nat) : (c.join s ts).rd sp a = s.rd sp a := withRace_rd ..

theorem Cx.after_join (c : Cx) (s : State) (ts : List Nat) : c.after (c.join s ts) = c.after s := after_withRace ..

/-- The tags of a unit stand as they stood. -/
def SameTags (c : Cx) (t : State) : Prop :=
  ∃ u, t.unit? c.u.key = some u ∧ u.ready = c.u.ready ∧ u.pend = c.u.pend ∧ u.tstat = c.u.tstat

/-- A word that leaves the tags of its unit, joins what tags released, and moves on. -/
theorem sameTags_advance_join (hu : s.unit? c.u.key = some u) (hready : u.ready = c.u.ready) (hpend : u.pend = c.u.pend)
    (hstat : u.tstat = c.u.tstat) (ts : List Nat) : SameTags c (advance c (c.join s ts)) := by
  obtain ⟨r, hr⟩ := unit?_withRace_of hu fun r => ts.foldl (fun r t => r.acquire c.u.key c.g.gid (keyTag t)) r
  obtain ⟨gs, hgs⟩ := unit?_advance_of (c := c) hr
  exact ⟨_, hgs, hready, hpend, hstat⟩

theorem Cx.unit?_put (h : Issues s o c) (g : Group) : ∃ gs, (c.put g).unit? c.u.key = some { c.u with grps := gs } :=
  ⟨_, unit?_modGrp_of (issues_view h ▸ unit?_of_issues h) ..⟩

/-- A register read of the tags: it writes its destination and joins. -/
theorem tagRead_done (h : Issues s o c) (d : Opd) (n : Nat) (tag : Tag) (f : Nat → Nat) (ts : List Nat) :
    let t := advance c (c.join (c.put (c.g.write d n tag f c.ex)) ts)
    afterIs c t (c.g.write d n tag f c.ex) ∧ SameTags c t ∧ SameMemory s t := by
  obtain ⟨gs, hgs⟩ := Cx.unit?_put h (c.g.write d n tag f c.ex)
  exact ⟨afterIs_write d n tag f c.ex ((Cx.after_join ..).trans (after_put_write h ..)), sameTags_advance_join hgs rfl rfl rfl ts,
    sameMemory_of_rd fun sp a => (Cx.join_rd ..).trans (by rw [← issues_view h]; rfl)⟩

theorem waitOver_tagw (s : State) (u : Unit) (g : Group) (mask : Nat) (all : Bool) :
    waitOver s u g (.tagw mask all) = true ↔
      if all then u.pend.toNat &&& mask = 0 else u.ready.toNat &&& mask ≠ 0 ∨ u.pend.toNat &&& mask = 0 := by
  cases all <;> simp [waitOver]

/-! ## Barriers (R177 to R179) -/

/-- A barrier after one more arrival whose status is good. -/
theorem Bar.arrive_ok (b : Bar) : b.arrive 0 false =
    if b.count + 1 = b.expect then
      { b with count := 0, ph := (b.ph + 1) % 2 ^ 32, lstat := b.stat, ltrap := b.trapf, stat := 0, trapf := false }
    else { b with count := b.count + 1 } := by
  simp [Bar.arrive, statusCode, Bar.complete]

/-- A completed phase has another number. -/
theorem succ_mod_ne (n : Nat) : (n + 1) % 2 ^ 32 ≠ n := by omega

/-- An arrival sets the barrier, and clocks. -/
theorem arrive_eq (hu : s.unit? k = some u) (bo agent : Nat) (status : DWord) (trapf : Bool) :
    ∃ f, arrive s k bo agent status trapf =
      withRace (s.modUnit k fun v => v.setBar bo ((u.bar bo).arrive status trapf)) k f := by
  rw [arrive, hu]
  exact ⟨_, rfl⟩

theorem unit?_arrive (hu : s.unit? k = some u) (bo agent : Nat) (status : DWord) (trapf : Bool) :
    ∃ r, (arrive s k bo agent status trapf).unit? k = some { u.setBar bo ((u.bar bo).arrive status trapf) with race := r } := by
  obtain ⟨f, hf⟩ := arrive_eq hu bo agent status trapf
  rw [hf]
  exact unit?_withRace_of (unit?_modUnit_of hu (fun v => v.setBar bo ((u.bar bo).arrive status trapf)) fun _ h => h) f

theorem after_arrive (hu : s.unit? k = some u) (bo agent : Nat) (status : DWord) (trapf : Bool) :
    c.after (arrive s k bo agent status trapf) = c.after s := by
  obtain ⟨f, hf⟩ := arrive_eq hu bo agent status trapf
  rw [hf, after_withRace]
  exact after_modUnit _ (fun _ h => h) fun _ => rfl

theorem arrive_rd (hu : s.unit? k = some u) (bo agent : Nat) (status : DWord) (trapf : Bool) (sp a : Nat) :
    (arrive s k bo agent status trapf).rd sp a = s.rd sp a := by
  obtain ⟨f, hf⟩ := arrive_eq hu bo agent status trapf
  rw [hf]
  exact withRace_rd ..

/-! ## Reset -/

theorem State.reset_rd (sp a : Nat) : State.reset.rd sp a = 0 := by
  have hempty : State.reset.space sp = [] := by
    unfold State.space
    split_ifs <;> rfl
  rw [State.rd, hempty]
  rfl

end Sys2Proof.Machine

section
open Sys2Proof Sys2Proof.Machine Sys2Proof.Claims

/-- Settles O57: the decoder is run on the eight words. -/
theorem decodeWords : Obligations.DecodeWords := by
  unfold Obligations.DecodeWords
  decide +kernel

/-- Settles O58: the fields of the reset state are read off. -/
theorem resetState : Obligations.ResetState := by
  unfold Obligations.ResetState
  refine ⟨rfl, State.reset_memWf, rfl, rfl, rfl, rfl, rfl, rfl, fun _ => rfl, fun sp a => State.reset_rd sp a, fun _ => ⟨rfl, rfl⟩,
    fun p hp => ?_, rfl⟩
  rw [List.eq_of_mem_replicate hp]
  rfl

/-- Settles O37: the handler's instructions look at the handler first. -/
theorem handlerOnly : Obligations.HandlerOnly := by
  unfold Obligations.HandlerOnly
  intro s o x c l h hl hne
  have hpriv : c.handler = stop { code := 0x02 } := by simp only [Cx.handler, hl, hne]; rfl
  refine ⟨word_trap_of_issues h ?_, word_trap_of_issues h ?_, wordCtl_stop h ?_⟩
  · rw [hpriv]
    rfl
  · rw [hpriv]
    rfl
  · rw [hpriv]
    rfl

/-- Settles O29: each of the three reads the tags as they stand, and what it joins are clocks. -/
theorem tagWaits : Obligations.TagWaits := by
  unfold Obligations.TagWaits
  intro s o x c h mask ready pend done tags
  obtain rfl := issues_view h
  have hover : waitOver c.s c.u c.g (.tagw mask (o.fn == 1)) = true ↔ done := by
    rw [waitOver_tagw]
    simp only [beq_iff_eq]
    rfl
  refine ⟨fun ha => ⟨fun hdone => ⟨_, word_of_issues h (b := c.join c.s (tagsOf ready)) ?_, ?_, ?_, ?_⟩, fun hnot => word_wait h ?_, ?_⟩, fun ha => ?_⟩
  · simp only [Cx.need_of_bears ha, bind, Except.bind]
    rw [if_pos (hover.2 hdone)]
    rfl
  · exact afterIs_advance ((Cx.after_join ..).trans (after_of_issues h)) rfl
  · exact sameTags_advance_join (unit?_of_issues h) rfl rfl rfl _
  · exact sameMemory_of_rd fun sp a => Cx.join_rd ..
  · simp only [Cx.need_of_bears ha, bind, Except.bind]
    rw [if_neg (mt hover.1 hnot)]
  · obtain ⟨hafter, htags, hmem⟩ := tagRead_done h o.d 1 .i32 (fun _ => (tagsOf ready).headD 64) ((tagsOf ready).take 1)
    refine ⟨_, (tagsOf ready).headD 64, word_of_issues h ?_, hafter, htags, hmem, tagsOf_headD ?_⟩
    · simp only [Cx.need_of_bears ha]
      rfl
    · exact Nat.and_lt_two_pow _ (c.val_lt o.a 2 c.l0)
  · intro k
    refine ⟨fun hk => word_trap_of_issues h ?_, fun hk hp => word_wait h ?_, fun hk hp => ?_⟩
    · simp only [Cx.need_of_bears ha, bind, Except.bind]
      rw [if_pos hk]
      rfl
    · simp only [Cx.need_of_bears ha, bind, Except.bind]
      rw [if_neg (by omega), if_pos hp]
    · obtain ⟨hafter, htags, hmem⟩ := tagRead_done h o.d 2 .i64 (fun _ => (Sparse.get 0 c.u.tstat k).toNat)
        (if c.u.ready.getLsbD k then [k] else [])
      refine ⟨_, word_of_issues h ?_, htags, hmem, hafter⟩
      simp only [Cx.need_of_bears ha, bind, Except.bind]
      rw [if_neg (by omega), if_neg (show ¬ c.u.pend.getLsbD k = true by simp [hp])]
      rfl

end
end

section
/-! PROOFS. States that refute statements about interrupts and special registers (R204, R358). -/

namespace Sys2Proof.Counter
open Sys2Proof.Machine Sys2Proof.Claims Sys2Proof.Tests

/-- The state whose issuing group's entry has aged by one. -/
def aged (s : State) : State :=
  s.modGrp bootUnit.key 0 fun g => { g with ents := g.ents.map fun e => { e with age := 1 } }

/-- The ages of the issuing group's entries in the state that a word answers. -/
def agesAfter (c : Cx) (out : Host.Outcome State Fault Refusal) : Option (List Nat) :=
  (nextOf out).bind fun t => (c.after t).map fun g => g.ents.map Entry.age

theorem agesAfter_next {c : Cx} {t : State} {g : Group} (h : c.after t = some g) : agesAfter c (.next t) = some (g.ents.map Entry.age) := by
  simp [agesAfter, nextOf, h]

/-! ## A uiraise.trap -/

def raising : State := aged (handlerState 0)

/-- A uiraise.trap of vector 63. -/
def raiseOp : Op := opX 1 (.s 16) (.s 8) (.sp .z) 63

theorem raising_issues : Issues raising raiseOp (seen raising) := issues_seen (by decide +kernel)

theorem raising_args : (seen raising).raiseArgs raiseOp = .ok (63, 0, 0x20000) := by decide +kernel

theorem raising_ages : agesAfter (seen raising) (exec (.uiraise raiseOp { bits := 0 }) raising) = some [0] := by decide +kernel

/-! ## A write of EPC by the supervisor -/

/-- A stopped caller, whose continuation is kept beside EPC. -/
def keptGroup : Group := { smallGroup with run := .stopped, cont := some 0x100000 }

def serviced : State := superState 1 (smallUnit keptGroup)

/-- An spwr of EPC from x9. -/
def epcOp : Op := opX 0 (.s 16) (.s 18) (.v 0) 6

theorem serviced_issues : Issues serviced epcOp (seen serviced) := issues_seen (by decide +kernel)

/-- The continuation of the serviced group in the state that a word answers. -/
def contAfter (out : Host.Outcome State Fault Refusal) : Option (Option DWord) :=
  (nextOf out).bind fun t => (t.unit? bootUnit.key).bind fun u => (u.grp? 0).map Group.cont

theorem serviced_cont : contAfter (exec (.spwr epcOp { bits := 0 }) serviced) = some none := by decide +kernel

end Sys2Proof.Counter

section
open Sys2Proof Sys2Proof.Machine Sys2Proof.Claims Sys2Proof.Tests Sys2Proof.Counter

/-- Refutes O36: the statement keeps the age of the entry whose uiraise.trap waits, but an entry that has issued has no AGE (R227): one whose
age was 1 waits with age 0. -/
theorem not_interruptInstructions : ¬ Obligations.InterruptInstructions := by
  unfold Obligations.InterruptInstructions
  intro h
  obtain ⟨t, ht, -, -, hafter⟩ := ((h raising raiseOp { bits := 0 } (seen raising) raising_issues).1 63 0 0x20000 raising_args).2 rfl
  have hages := agesAfter_next hafter
  rw [← ht, raising_ages] at hages
  exact absurd hages (by decide +kernel)

/-- Refutes O38: the statement keeps the continuation of a stopped caller when the supervisor writes its EPC, but the model drops it, as EPC
then names where the group goes on (R360). -/
theorem not_specialRegisters : ¬ Obligations.SpecialRegisters := by
  unfold Obligations.SpecialRegisters
  rintro ⟨-, h⟩
  have hwrites := (h serviced epcOp { bits := 0 } (seen serviced) 0 (smallUnit keptGroup) keptGroup serviced_issues (by decide +kernel)
    (by decide +kernel) (by decide +kernel) (by decide +kernel) (by decide +kernel) (by decide +kernel)).2.2.2.2 (by decide +kernel) (by decide +kernel)
  obtain ⟨t, u, ht, hu, hg, -⟩ := hwrites.2.1 (by decide)
  have hcont : contAfter (.next t) = some (some 0x100000) := by
    rw [show (smallUnit keptGroup).key = bootUnit.key from rfl] at hu
    rw [show keptGroup.gid = 0 from rfl] at hg
    simp only [contAfter, nextOf, Option.bind_some, hu, hg]
    rfl
  rw [← ht, serviced_cont] at hcont
  exact absurd hcont (by decide)

end
end

section
/-! PROOFS. Barriers: bini, barv and barw (R177 to R179). -/

namespace Sys2Proof.Machine
open Sys2Proof.Claims

variable {s t : State} {o : Op} {x : ModX} {c : Cx} {n bo target : Nat} {u : Unit} {g : Group} {b : Bar}

theorem Cx.scalarOrImm_ok {a : Opd} (h : Bears c a 1 [.i32]) (imm : Nat) :
    c.scalarOrImm a imm = .ok (if a = .z then imm else c.val a 1 c.l0) := by
  rw [Cx.scalarOrImm, Cx.need_of_bears h]
  rfl

theorem barNo_lt (x : ModX) : barNo x < 16 := Nat.mod_lt _ (by decide)

/-- The bit that a group sets where it has arrived. -/
theorem arrived_bit (v : BitVec 16) {bo : Nat} (h : bo < 16) : (v ||| BitVec.ofNat 16 (2 ^ bo)).getLsbD bo = true := by
  rw [BitVec.getLsbD_or, BitVec.getLsbD_ofNat, Nat.testBit_two_pow_self]
  simp [h]

/-- Clearing that bit undoes setting it. -/
theorem arrived_cleared (v w : BitVec 16) : (v ||| w) &&& ~~~w = v &&& ~~~w := by
  ext i hi
  simp only [BitVec.getElem_and, BitVec.getElem_or, BitVec.getElem_not]
  cases v[i] <;> cases w[i] <;> rfl

@[simp] theorem Unit.bar_setBar (u : Unit) (bo : Nat) (b : Bar) : (u.setBar bo b).bar bo = b := Sparse.get_set_same

/-! ## The end of a barw -/

/-- The group once its barw is over: the status of the phase in D, and its arrival taken back. -/
def barwGroup (c : Cx) (o : Op) (bo : Nat) (st : DWord) (g : Group) : Group :=
  { g.write o.d 2 .i64 (fun _ => st.toNat) c.ex with arrv := g.arrv &&& ~~~BitVec.ofNat 16 (2 ^ bo) }

/-- A phase that completed without a lost deferral is taken: the group gets its status, and no memory changes. -/
theorem finish_barwDone (hu : t.unit? c.u.key = some u) (hg : u.grp? c.g.gid = some g) (hents : g.ents = c.g.ents)
    (htrap : (u.bar bo).ltrap = false) :
    ∃ t', finish c (c.barwDone o bo target t) = .next t' ∧ afterIs c t' (barwGroup c o bo (u.bar bo).lstat g)
      ∧ (∀ sp a, t'.rd sp a = t.rd sp a) ∧ ∃ v, t'.unit? c.u.key = some v ∧ v.bars = u.bars := by
  have hdone : c.barwDone o bo target t = .ok (withRace (t.modGrp c.u.key c.g.gid (barwGroup c o bo (u.bar bo).lstat)) c.u.key
      fun r => r.acquire c.u.key c.g.gid (keyBar bo target)) := by
    rw [Cx.barwDone, hu]
    simp only [htrap]
    rfl
  rw [hdone]
  refine ⟨_, rfl, afterIs_advance ?_ ((Group.write_same ..).2.2.trans hents), fun sp a => withRace_rd .., ?_⟩
  · rw [after_withRace, after_modGrp _ fun g hlive hgid => ?_, Cx.after, hu, Option.bind_some, hg, Option.map_some]
    obtain ⟨hl, hi, -⟩ := g.write_same o.d 2 .i64 (fun _ => (u.bar bo).lstat.toNat) c.ex
    exact ⟨hl.trans hlive, hi.trans hgid⟩
  · obtain ⟨r, hr⟩ := unit?_withRace_of (unit?_modGrp_of hu c.g.gid (barwGroup c o bo (u.bar bo).lstat))
      fun r => r.acquire c.u.key c.g.gid (keyBar bo target)
    obtain ⟨gs, hgs⟩ := unit?_advance_of hr
    exact ⟨_, hgs, rfl⟩

/-! ## The arrival of the issuing group -/

/-- The group that has arrived at a barrier. -/
theorem groupArrives_spec (h : Issues s o c) (bo : Nat) :
    (∃ v, (groupArrives s c bo).unit? c.u.key = some v ∧ v.bar bo = (c.u.bar bo).arrive 0 false
        ∧ v.grp? c.g.gid = some (c.g.arrived bo (c.u.bar bo).ph))
      ∧ c.after (groupArrives s c bo) = some (c.g.arrived bo (c.u.bar bo).ph)
      ∧ ∀ sp a, (groupArrives s c bo).rd sp a = s.rd sp a := by
  let f (g : Group) : Group := g.arrived bo (c.u.bar bo).ph
  have hu := unit?_modGrp_of (unit?_of_issues h) c.g.gid f
  have hafter : c.after (s.modGrp c.u.key c.g.gid f) = some (f c.g) := by
    rw [after_modGrp f fun _ hl hg => ⟨hl, hg⟩, after_of_issues h, Option.map_some]
  obtain ⟨r, hr⟩ := unit?_arrive hu bo c.g.gid 0 false
  refine ⟨⟨_, hr, Unit.bar_setBar .., ?_⟩, (after_arrive hu ..).trans hafter, fun sp a => arrive_rd hu ..⟩
  rwa [Cx.after, hu] at hafter

theorem regsStay_arrived (bo ph : Nat) : RegsStay fun g => g.arrived bo ph where
  setV _ _ _ _ := rfl
  setVtag _ _ _ := rfl
  setS _ _ _ := rfl
  setStag _ _ _ := rfl
  setM _ _ _ := rfl
  setP g r e w := by
    unfold Group.setP
    split <;> rfl

/-- A group that arrives and takes the status at once: its arrival does not stay. -/
theorem barwGroup_arrived (c : Cx) (o : Op) (bo ph : Nat) (st : DWord) (g : Group) :
    barwGroup c o bo st (g.arrived bo ph) = { barwGroup c o bo st g with tph := Sparse.set 0 g.tph bo ph } := by
  have htph : (g.write o.d 2 .i64 (fun _ => st.toNat) c.ex).tph = g.tph := by
    obtain ⟨_, _, _, _, _, _, h⟩ := g.write_cases o.d 2 .i64 (fun _ => st.toNat) c.ex
    rw [h]
  rw [barwGroup, (regsStay_arrived bo ph).write, barwGroup, Group.arrived, Group.arrived, htph]
  simp only [arrived_cleared]

/-! ## A barw that has not waited yet -/

theorem Cx.barwStart_ok (h : Drained c.s c) (hsat : (c.g.gstat.getLsbD 16 && c.g.gstat.getLsbD 5) = false) : c.barwStart = .ok ⟨⟩ := by
  simp only [Cx.barwStart, Cx.drain_ok h, bind, Except.bind, hsat]
  rfl

/-- The entry of a barw that meets its barrier for the first time. -/
theorem execBarw_fresh (h : Issues s o c) (hwait : ∀ k t0, c.e.wait ≠ .barw k t0) (hstart : c.barwStart = .ok ⟨⟩) :
    execBarw o x s = if x.f 40 40 = 1 ∧ c.e.bwa = false then
        Cx.barwWait { c with e := { c.e with bwa := true } } o (barNo x) (groupArrives s c (barNo x))
      else c.barwWait o (barNo x) s := by
  obtain ⟨-, hview, hex⟩ := h
  have hcond : ((x.f 40 40 = 1 && !c.e.bwa) = true) = (x.f 40 40 = 1 ∧ c.e.bwa = false) := by simp
  rw [execBarw, hview]
  cases hw : c.e.wait
  case barw k t0 => exact absurd hw (hwait k t0)
  all_goals simp only [if_neg hex, hw, hstart, hcond]

/-- A barw whose entry waits already looks at the phase again. -/
theorem execBarw_waiting {k : Nat} (h : Issues s o c) (hwait : c.e.wait = .barw k target) :
    execBarw o x s = if (c.u.bar (barNo x)).ph = target then .next s else finish c (c.barwDone o (barNo x) target s) := by
  obtain ⟨-, hview, hex⟩ := h
  rw [execBarw, hview]
  simp only [if_neg hex, hwait, bne_iff_ne, ne_eq, ite_not]

/-- The phase that a barw of the group waits past. -/
def barwTarget (u : Unit) (g : Group) (bo : Nat) : Nat := if g.arrv.getLsbD bo then Sparse.get 0 g.tph bo else (u.bar bo).ph

theorem Cx.barwWait_eq (hu : t.unit? c.u.key = some u) (hg : u.grp? c.g.gid = some g) :
    c.barwWait o bo t = if (u.bar bo).ph = barwTarget u g bo then .next (enterWait c t (.barw bo (barwTarget u g bo)))
      else finish c (c.barwDone o bo (barwTarget u g bo) t) := by
  rw [Cx.barwWait, hu]
  simp only [Option.bind_some, hg, Option.map_some, bne_iff_ne, ne_eq, ite_not]
  rfl

end Sys2Proof.Machine

section
open Sys2Proof Sys2Proof.Machine Sys2Proof.Claims

/-- Settles O27: an arrival is `Bar.arrive` on the barrier of the unit, and a barw ends by `Cx.barwDone` or waits. -/
theorem barriers : Obligations.Barriers := by
  unfold Obligations.Barriers
  intro s o x c h bo b next bit n took
  have hu := unit?_of_issues h
  have hg := grp?_of_issues h
  have hnext : b.arrive 0 false = next := Bar.arrive_ok b
  obtain ⟨⟨v, hv, hbar, hgrp⟩, hafter, hrd⟩ := groupArrives_spec h bo
  have hs := issues_view h
  refine ⟨fun ha hb hlo hhi hcount => word_of_issues h ?_, fun ha hb hbad => word_trap_of_issues h ?_, ?_, fun k t0 hwait => ⟨fun hph => ?_,
    fun hph htrap => ?_⟩, fun hwait hdrained hsat => ?_⟩
  · have hfit : ¬ (n = 0 || 65535 < n || b.count != 0) = true := by simp [hcount]; omega
    simp only [Cx.scalarOrImm_ok ha, Cx.need_of_bears hb, bind, Except.bind]
    rw [if_neg hfit, Bar.init, ← hcount]
    rfl
  · have hover : (n = 0 || 65535 < n || b.count != 0) = true := by simpa [or_assoc] using hbad
    simp only [Cx.scalarOrImm_ok ha, Cx.need_of_bears hb, bind, Except.bind]
    rw [if_pos hover]
    rfl
  · obtain ⟨gs, hgs⟩ := unit?_advance_of hv
    refine ⟨advance c (groupArrives s c bo), { v with grps := gs }, ?_, hgs, hbar.trans hnext, afterIs_advance hafter rfl, sameMemory_of_rd hrd⟩
    rw [← hs] at h ⊢
    exact word_of_issues h rfl
  · exact (execBarw_waiting h hwait).trans (if_pos hph)
  · obtain ⟨t, ht, hend, hsame, -⟩ := finish_barwDone (o := o) (bo := bo) (target := t0) hu hg rfl htrap
    exact ⟨t, ((execBarw_waiting h hwait).trans (if_neg hph)).trans ht, hend, sameMemory_of_rd hsame⟩
  · have hfresh := execBarw_fresh (x := x) h hwait (Cx.barwStart_ok (hs.symm ▸ hdrained) hsat)
    intro t0
    refine ⟨fun hno hph => ?_, fun hno hph htrap => ?_, fun hyes hbwa hfull htrap => ?_⟩
    · rw [if_neg (by omega), Cx.barwWait_eq hu hg] at hfresh
      exact hfresh.trans (if_pos hph)
    · obtain ⟨t, ht, hend, hsame, -⟩ := finish_barwDone (o := o) (bo := bo) (target := t0) hu hg rfl htrap
      rw [if_neg (by omega), Cx.barwWait_eq hu hg] at hfresh
      exact ⟨t, (hfresh.trans (if_neg hph)).trans ht, hend, sameMemory_of_rd hsame⟩
    · let c' : Cx := { c with e := { c.e with bwa := true } }
      have hcomplete : next = { b with count := 0, ph := (b.ph + 1) % 2 ^ 32, lstat := b.stat, ltrap := b.trapf, stat := 0, trapf := false } :=
        if_pos hfull
      have hvbar : v.bar bo = next := hbar.trans hnext
      have htarget : barwTarget v (c.g.arrived bo b.ph) bo = b.ph := by
        exact (if_pos (arrived_bit c.g.arrv (barNo_lt x))).trans Sparse.get_set_same
      have hmoved : (v.bar bo).ph ≠ barwTarget v (c.g.arrived bo b.ph) bo := by
        rw [htarget, hvbar, hcomplete]
        exact succ_mod_ne _
      have hkept : (v.bar bo).ltrap = false := by rw [hvbar, hcomplete]; exact htrap
      obtain ⟨t, ht, hend, hsame, u, hu', hbars⟩ := finish_barwDone (c := c') (o := o) (bo := bo)
        (target := barwTarget v (c.g.arrived bo b.ph) bo) hv hgrp rfl hkept
      rw [if_pos ⟨hyes, hbwa⟩, Cx.barwWait_eq (c := c') hv hgrp, if_neg hmoved] at hfresh
      refine ⟨t, u, hfresh.trans ht, hu', ?_, ?_, sameMemory_of_rd fun sp a => (hsame sp a).trans (hrd sp a)⟩
      · rw [← hvbar, Unit.bar, hbars]
        rfl
      · rw [hvbar, hcomplete, barwGroup_arrived] at hend
        exact hend

end
end

section
/-! PROOFS. Memory accesses: what is only noted, where lanes land, and what bytes read after stores and read-modify-writes (R141 to R146). -/

namespace Sys2Proof.Machine
open Sys2Proof.Claims

variable {s t r : State} {o : Op} {c : Cx} {k : UKey} {ls : List Nat} {p : Nat → Place} {n : Nat}

/-! ## Changes that leave memory, groups, contexts and cores -/

/-- A unit without what its agents know. -/
def Unit.clockless (u : Unit) : Unit := { u with race := .start }

/-- Two states with the same memories, contexts and cores, whose units differ in clocks alone. -/
structure Quiet (s t : State) : Prop where
  space : ∀ sp, t.space sp = s.space sp
  ctxs : t.ctxs = s.ctxs
  cores : t.cores = s.cores
  units : t.units.map Unit.clockless = s.units.map Unit.clockless

theorem Quiet.refl (s : State) : Quiet s s := ⟨fun _ => rfl, rfl, rfl, rfl⟩

theorem Quiet.trans (h : Quiet s t) (h' : Quiet t r) : Quiet s r :=
  ⟨fun sp => (h'.space sp).trans (h.space sp), h'.ctxs.trans h.ctxs, h'.cores.trans h.cores, h'.units.trans h.units⟩

theorem Quiet.rd (h : Quiet s t) (sp a : Nat) : t.rd sp a = s.rd sp a := by
  rw [State.rd, h.space, State.rd]

theorem Quiet.ctx? (h : Quiet s t) (id : Nat) : t.ctx? id = s.ctx? id := State.ctx?_congr h.ctxs id

theorem unit?_clockless (s : State) (k : UKey) :
    (s.unit? k).map Unit.clockless = (s.units.map Unit.clockless).find? fun u => u.key == k := by
  rw [List.find?_map]
  rfl

theorem Quiet.after (h : Quiet s t) (c : Cx) : c.after t = c.after s := by
  have hclockless (r : State) : c.after r = ((r.unit? c.u.key).map Unit.clockless).bind fun u => u.grp? c.g.gid := by
    rw [Option.bind_map]
    rfl
  rw [hclockless, hclockless, unit?_clockless, unit?_clockless, h.units]

theorem quiet_modUnit (s : State) (k : UKey) (f : Unit → Unit) (hf : ∀ u, (f u).clockless = u.clockless) : Quiet s (s.modUnit k f) := by
  refine ⟨fun _ => rfl, rfl, rfl, ?_⟩
  rw [State.modUnit, List.map_map]
  refine List.map_congr_left fun u _ => ?_
  simp only [Function.comp]
  split
  · exact hf u
  · rfl

theorem quiet_ite {q : Prop} [Decidable q] (h : Quiet s t) (h' : Quiet s r) : Quiet s (if q then t else r) := by
  split
  · exact h
  · exact h'

theorem quiet_owned (s : State) (x : List (Nat × UKey × Bool)) : Quiet s { s with owned := x } := ⟨fun _ => rfl, rfl, rfl, rfl⟩
theorem quiet_relMem (s : State) (x : Sparse (List Released)) : Quiet s { s with relMem := x } := ⟨fun _ => rfl, rfl, rfl, rfl⟩
theorem quiet_launches (s : State) (x : List Launch) : Quiet s { s with launches := x } := ⟨fun _ => rfl, rfl, rfl, rfl⟩
theorem quiet_agenda (s : State) (x : List Instr) : Quiet s { s with agenda := x } := ⟨fun _ => rfl, rfl, rfl, rfl⟩
theorem quiet_poolCache (s : State) (x : List Nat) : Quiet s { s with poolCache := x } := ⟨fun _ => rfl, rfl, rfl, rfl⟩

theorem quiet_withRace (s : State) (k : UKey) (f : Race → Race) : Quiet s (withRace s k f) :=
  quiet_ite (quiet_modUnit _ _ _ fun _ => rfl) (.refl s)

theorem quiet_due (s : State) (i : Instr) : Quiet s (s.due i) := by
  unfold State.due
  exact quiet_ite (.refl s) (quiet_agenda ..)

theorem quiet_foldl {α : Type} {f : State → α → State} (hf : ∀ s x, Quiet s (f s x)) (xs : List α) (s : State) : Quiet s (xs.foldl f s) := by
  induction xs generalizing s with
  | nil => exact .refl s
  | cons x xs ih => exact (hf s x).trans (ih _)

theorem quiet_setHeld (s : State) (sp a n : Nat) (rs : List Released) : Quiet s (setHeld s sp a n rs) := quiet_relMem ..

theorem quiet_keepHeld (s0 s : State) (sp a n : Nat) : Quiet s (keepHeld s0 s sp a n) := by
  unfold keepHeld
  exact quiet_ite (.refl s) (quiet_setHeld s sp a n _)

theorem quiet_endOwnership (s : State) (k : UKey) : Quiet s (endOwnership s k) := quiet_owned ..

theorem quiet_takeOwnership (s : State) (k : UKey) (a : Access) : Quiet s (takeOwnership s k a) := by
  unfold takeOwnership
  exact quiet_ite (quiet_owned ..) (.refl s)

theorem quiet_noteAccess (s : State) (k : UKey) (agent : Nat) (a : Access) : Quiet s (noteAccess s k agent a) := by
  unfold noteAccess
  refine Quiet.trans ?_ (quiet_takeOwnership ..)
  exact quiet_ite (quiet_modUnit s k _ fun _ => rfl) (quiet_launches ..)

theorem quiet_passClocks (s : State) (u : Unit) (agent : Nat) (p : Place) (n : Nat) (a : Att) : Quiet s (passClocks s u agent p n a) := by
  unfold passClocks
  refine quiet_ite (.refl s) ?_
  refine Quiet.trans (t := if (!a.write || a.rmw) && a.strong then withRace s u.key fun _ => Race.reads s u agent p n a else s)
    (quiet_ite (quiet_withRace ..) (.refl s)) (quiet_ite (.refl _) ?_)
  generalize (if (!a.write || a.rmw) && a.strong then withRace s u.key fun _ => Race.reads s u agent p n a else s) = s'
  split
  · exact .refl _
  · refine Quiet.trans ?_ (quiet_ite (quiet_withRace ..) (.refl _))
    exact quiet_ite (.refl _) (quiet_setHeld ..)

theorem quiet_notePlace (s : State) (k : UKey) (agent : Nat) (p : Place) (n : Nat) (a : Att) : Quiet s (notePlace s k agent p n a) := by
  unfold notePlace
  split
  · exact .refl s
  · next u _ =>
    refine quiet_ite (.refl s) ?_
    refine Quiet.trans (t := if checks s u && checkedPlace p.sp p.pte then noteAccess s k agent (p.access n a) else s)
      (quiet_ite (quiet_noteAccess ..) (.refl s)) ?_
    refine Quiet.trans (quiet_passClocks _ u agent p n a) ?_
    refine Quiet.trans ?_ (quiet_ite (quiet_endOwnership ..) (.refl _))
    exact quiet_ite (quiet_withRace ..) (.refl _)

theorem quiet_poolLine (s : State) (p : Place) : Quiet s (poolLine s p) :=
  quiet_ite (.refl s) (quiet_poolCache ..)

theorem quiet_missWalk (s : State) (core ctx : Nat) (p : Place) : Quiet s (missWalk s core ctx p) :=
  quiet_ite (.refl s) (quiet_ite (.refl s) (quiet_due ..))

/-- What accesses leave to race detection, to the line cache and to the walker. -/
theorem quiet_noteAll (c : Cx) (s : State) (ps : List (Nat × Place)) (n : Nat) (a : Att) : Quiet s (c.noteAll s ps n a) :=
  Quiet.trans (quiet_ite (quiet_foldl (fun _ _ => quiet_keepHeld ..) ps s) (.refl s))
    (quiet_foldl (fun _ _ => (quiet_poolLine ..).trans ((quiet_missWalk ..).trans (quiet_notePlace ..))) ps _)

end Sys2Proof.Machine
end

section
/-! PROOFS. Where the lanes of an access land, and what loads, stores and read-modify-writes leave (R140 to R148, R311). -/

namespace Sys2Proof.Machine
open Sys2Proof.Claims

variable {s t : State} {o : Op} {c : Cx} {ls : List Nat} {p : Nat → Place} {n : Nat} {base : Opd} {vault : Bool} {off : Nat → Int}
  {align : Nat} {att : Att} {reads : Bool}

/-! ## Places -/

/-- The places of some lanes, by lane. -/
def landedAt (p : Nat → Place) (ls : List Nat) : List (Nat × Place) := ls.map fun l => (l, p l)

@[simp] theorem landedAt_cons (p : Nat → Place) (l : Nat) (ls : List Nat) : landedAt p (l :: ls) = (l, p l) :: landedAt p ls := rfl

theorem landAll_ok {write : Bool} {sp : Nat → Spot} (h : ∀ l ∈ ls, c.land l (sp l) n write reads = .ok (p l)) :
    c.landAll (ls.map fun l => (l, sp l)) n write reads = (landedAt p ls, []) := by
  induction ls with
  | nil => rfl
  | cons l ls ih =>
    obtain ⟨hl, hls⟩ := List.forall_mem_cons.1 h
    have hrest := Prod.mk.inj (ih hls)
    simp only [Cx.landAll, List.map_cons, List.filterMap_cons, hl, Prod.mk.injEq, landedAt_cons, List.cons.injEq, true_and]
    exact hrest

theorem noHole_ok (h : ∀ l ∈ ls, (p l).missing = false) : noHole (landedAt p ls) = .ok ⟨⟩ := by
  have hnone : (landedAt p ls).find? (fun x => x.2.missing) = none := by simpa [landedAt] using h
  rw [noHole, hnone]

/-- Lanes that pass every cause of R141 reach their places. -/
theorem lands_spec (h : Lands c base vault off n align att reads ls p) :
    ∃ sps, mapLanes (fun l => c.check base vault l (off l) n align att) ls = .ok sps
      ∧ c.landAll sps n att.write reads = (landedAt p ls, []) ∧ noHole (landedAt p ls) = .ok ⟨⟩ := by
  have : Nonempty Spot := ⟨{ loc := .vault 0, va := 0 }⟩
  choose! sp hcheck hland hthere using h
  exact ⟨_, mapLanes_ok hcheck, landAll_ok hland, noHole_ok hthere⟩

theorem placesPrecise_ok {sps : List (Nat × Spot)} {ps : List (Nat × Place)} {write : Bool}
    (hland : c.landAll sps n write reads = (ps, [])) (hthere : noHole ps = .ok ⟨⟩) : c.placesPrecise sps n write reads = .ok ps := by
  simp only [Cx.placesPrecise, hland, bind, Except.bind, hthere]
  rfl

theorem Cx.needBase_ok (h : BearsBase c base vault) : ∃ t, c.needBase base vault = .ok t := by
  unfold BearsBase at h
  unfold Cx.needBase
  split at h
  · next hv => exact ⟨_, by rw [if_pos hv, Cx.need_of_bears h]⟩
  · next hv => exact ⟨_, by rw [if_neg hv, Cx.need_of_bears h]⟩

theorem Cx.needIndex_ok {g : ModG} (h : if g.iw = 3 then Bears c o.b 2 [.i64] else Bears c o.b 1 [.i32]) : c.needIndex o g = .ok ⟨⟩ := by
  unfold Cx.needIndex
  split at h
  · next hw =>
    rw [if_pos hw, Cx.need_of_bears h]
    rfl
  · next hw =>
    rw [if_neg hw, Cx.need_of_bears h]
    rfl

/-! ## Loads -/

theorem write_orFlags_same (g : Group) (d : Opd) (n : Nat) (t : Tag) (f : Nat → Nat) (ex : Word) (fl : Nat) :
    ((g.write d n t f ex).orFlags fl).live = g.live ∧ ((g.write d n t f ex).orFlags fl).gid = g.gid
      ∧ ((g.write d n t f ex).orFlags fl).ents = g.ents := g.write_same d n t f ex

/-- The values of the lanes of a load, as its destination takes them. -/
theorem Cx.write_loadAll (c : Cx) (d : Opd) (t : Ty) (h : (∃ x, d = .sp x) ∨ (∃ r, d = .res r) ∨ ∀ l ∈ inLanes c d, l ∈ ls) :
    c.g.write d t.regs t.tag (laneVal 0 (c.loadAll t (landedAt p ls))) c.ex =
      c.g.write d t.regs t.tag (fun l => extendTy t (c.s.load c.u.core (p l).sp (p l).a t.size)) c.ex := by
  obtain ⟨x, rfl⟩ | ⟨r, rfl⟩ | h := h
  · rfl
  · rfl
  · refine c.write_congr d _ _ fun l hl => ?_
    rw [Cx.loadAll, landedAt, List.map_map]
    exact laneVal_map 0 (fun l => extendTy t (c.s.load c.u.core (p l).sp (p l).a t.size)) (h l hl)

theorem endLoad_loaded (h : Issues s o c) (d : Opd) (t : Ty) (fl : Nat) (att : Att)
    (hd : (∃ x, d = .sp x) ∨ (∃ r, d = .res r) ∨ ∀ l ∈ inLanes c d, l ∈ ls) :
    Loaded c s (.next (advance c (c.endLoad d t (landedAt p ls) fl att))) d t fl p := by
  obtain rfl := issues_view h
  obtain ⟨hlive, hgid, hents⟩ := write_orFlags_same c.g d t.regs t.tag
    (fun l => extendTy t (c.s.load c.u.core (p l).sp (p l).a t.size)) c.ex fl
  have hquiet := quiet_noteAll c (c.put ((c.g.write d t.regs t.tag (laneVal 0 (c.loadAll t (landedAt p ls))) c.ex).orFlags fl))
    (landedAt p ls) t.size att
  rw [c.write_loadAll d t hd] at hquiet
  rw [Cx.endLoad]
  simp only [c.write_loadAll d t hd]
  exact ⟨_, rfl, afterIs_advance ((hquiet.after c).trans (after_put_of_issues h hlive hgid)) hents, sameMemory_of_rd hquiet.rd⟩

theorem inLanes_cover (h : Issues s o c) (d : Opd) : ∀ l ∈ inLanes c d, l ∈ c.lanes :=
  fun _ hl => mem_lanes_of_mem_inLanes h.2.2 hl

theorem loadLanes_cover (d : Opd) (hd : ∀ r, d ≠ .p r) :
    (∃ x, d = .sp x) ∨ (∃ r, d = .res r) ∨ ∀ l ∈ inLanes c d, l ∈ c.loadLanes d := by
  cases d with
  | v r => exact .inr (.inr fun _ hl => hl)
  | s r | m r => exact .inr (.inr fun _ hl => hl)
  | p r => exact absurd rfl (hd r)
  | sp x => exact .inl ⟨x, rfl⟩
  | res r => exact .inr (.inl ⟨r, rfl⟩)

/-! ## Writes of numbers -/

theorem State.wrN_keeps (s : State) (sp a n v : Nat) : (s.wrN sp a n v).units = s.units ∧ (s.wrN sp a n v).ctxs = s.ctxs := by
  induction n generalizing s a v with
  | zero => exact ⟨rfl, rfl⟩
  | succ n ih =>
    obtain ⟨hunits, hctxs⟩ := s.wr_keeps sp a (BitVec.ofNat 8 v)
    obtain ⟨hunits', hctxs'⟩ := ih (s.wr sp a (BitVec.ofNat 8 v)) (a + 1) (v / 256)
    exact ⟨hunits'.trans hunits, hctxs'.trans hctxs⟩

theorem spaceNo_eq {sp sq : Nat} (hp : sp < 4) (hq : sq < 4) : spaceNo sq = spaceNo sp ↔ sq = sp := by
  unfold spaceNo
  omega

/-- A byte outside the `n` bytes of a place. -/
def Place.misses (q : Place) (n sp a : Nat) : Prop := sp ≠ q.sp ∨ a < q.a ∨ q.a + n ≤ a

theorem rd_wrN_misses {q : Place} {sp a : Nat} (hp : q.sp < 4) (hq : sp < 4) (h : q.misses n sp a) (v : Nat) :
    (s.wrN q.sp q.a n v).rd sp a = s.rd sp a := by
  rw [State.rd_wrN, if_neg]
  rw [spaceNo_eq hp hq]
  rintro ⟨hsp, hlo, hhi⟩
  obtain hne | hlt | hge := h
  · exact hne hsp
  · omega
  · omega

/-- A number of `n` bytes reads as the number whose bytes stand there. -/
theorem State.rdN_of_bytes {sp a v : Nat} (h : ∀ i < n, s.rd sp (a + i) = BitVec.ofNat 8 (v / 256 ^ i)) : s.rdN sp a n = v % 2 ^ (8 * n) := by
  induction n generalizing a v with
  | zero => rw [State.rdN, Nat.mul_zero, Nat.pow_zero, Nat.mod_one]
  | succ n ih =>
    have hrest : s.rdN sp (a + 1) n = v / 256 % 2 ^ (8 * n) := ih fun i hi => by
      rw [Nat.add_assoc, Nat.add_comm 1 i, h (i + 1) (by omega), Nat.div_div_eq_div_mul, ← pow_succ']
    have hfirst : s.rd sp a = BitVec.ofNat 8 v := by simpa using h 0 (by omega)
    rw [State.rdN, hrest, hfirst, BitVec.toNat_ofNat, show 8 * (n + 1) = 8 + 8 * n by omega, pow_add, Nat.mod_mul]
    rfl

theorem State.rdN_congr {sp a : Nat} (h : ∀ i < n, t.rd sp (a + i) = s.rd sp (a + i)) : t.rdN sp a n = s.rdN sp a n := by
  induction n generalizing a with
  | zero => rfl
  | succ n ih =>
    have hrest : t.rdN sp (a + 1) n = s.rdN sp (a + 1) n := ih fun i hi => by
      rw [Nat.add_assoc, Nat.add_comm 1 i]
      exact h (i + 1) (by omega)
    rw [State.rdN, State.rdN, hrest]
    exact congrArg (·.toNat + _) (h 0 (by omega))

theorem State.rdN_lt (s : State) (sp a n : Nat) : s.rdN sp a n < 2 ^ (8 * n) := by
  induction n generalizing a with
  | zero => exact Nat.one_pos
  | succ n ih =>
    have hb := (s.rd sp a).isLt
    have hr := ih (a + 1)
    rw [State.rdN, show 8 * (n + 1) = 8 + 8 * n by omega, pow_add]
    omega

theorem rdN_wrN_same (s : State) (q : Place) (v : Nat) : (s.wrN q.sp q.a n v).rdN q.sp q.a n = v % 2 ^ (8 * n) := by
  refine State.rdN_of_bytes fun i hi => ?_
  rw [State.rd_wrN, if_pos ⟨rfl, by omega, by omega⟩, Nat.add_sub_cancel_left]

theorem misses_of_apart {q r : Place} (h : Apart n r q) {i : Nat} (hi : i < n) : r.misses n q.sp (q.a + i) := by
  obtain hne | hlo | hhi := h
  · exact .inl (Ne.symm hne)
  · exact .inr (.inr (by omega))
  · exact .inr (.inl (by omega))

theorem rdN_wrN_apart {q r : Place} (hp : r.sp < 4) (hq : q.sp < 4) (h : Apart n r q) (v : Nat) :
    (s.wrN r.sp r.a n v).rdN q.sp q.a n = s.rdN q.sp q.a n :=
  State.rdN_congr fun _ hi => rd_wrN_misses hp hq (misses_of_apart h hi) v

/-! ## Stores of several lanes -/

/-- A place of plain memory: a store there marks nothing in a table. -/
def PlainAt (s : State) (ctx : Nat) (q : Place) : Prop := q.sp < 4 ∧ MarksNothing s ctx q.va

theorem PlainAt.congr {ctx : Nat} {q : Place} (h : PlainAt s ctx q) (hctxs : t.ctxs = s.ctxs) : PlainAt t ctx q := by
  obtain ⟨hsp, hmarks⟩ := h
  exact ⟨hsp, fun hptr y hy => hmarks hptr y (State.ctx?_congr hctxs ctx ▸ hy)⟩

theorem markDirty_none {ctx va : Nat} (h : MarksNothing s ctx va) : markDirty s ctx va = s := by
  unfold markDirty
  split
  · rfl
  · next hptr =>
    split
    · rfl
    · next y hy =>
      refine if_pos ?_
      have hmarks := h (by simpa using hptr) y hy
      simpa using hmarks

/-- A store at a plain place is a write of the number. -/
theorem store_plain {ctx : Nat} {q : Place} (h : PlainAt s ctx q) (core n v : Nat) :
    markDirty (s.store core q.sp q.a n v) ctx q.va = s.wrN q.sp q.a n v := by
  have hstore : s.store core q.sp q.a n v = s.wrN q.sp q.a n v := if_neg (by have := h.1; omega)
  rw [hstore, markDirty_none (h.congr (s.wrN_keeps q.sp q.a n v).2).2]

/-- Writes of numbers at places, in order. -/
def writeAll (s : State) (n : Nat) (val : Nat → Nat) (ps : List (Nat × Place)) : State :=
  ps.foldl (fun s x => s.wrN x.2.sp x.2.a n (val x.1)) s

theorem writeAll_keeps (s : State) (n : Nat) (val : Nat → Nat) (ps : List (Nat × Place)) :
    (writeAll s n val ps).units = s.units ∧ (writeAll s n val ps).ctxs = s.ctxs := by
  induction ps generalizing s with
  | nil => exact ⟨rfl, rfl⟩
  | cons x ps ih =>
    obtain ⟨hunits, hctxs⟩ := s.wrN_keeps x.2.sp x.2.a n (val x.1)
    obtain ⟨hunits', hctxs'⟩ := ih (s.wrN x.2.sp x.2.a n (val x.1))
    exact ⟨hunits'.trans hunits, hctxs'.trans hctxs⟩

theorem storeAll_plain {ctx : Nat} {ps : List (Nat × Place)} (h : ∀ x ∈ ps, PlainAt s ctx x.2) (core n : Nat) (val : Nat → Nat) :
    storeAll s core ctx n val ps = writeAll s n val ps := by
  induction ps generalizing s with
  | nil => rfl
  | cons x ps ih =>
    obtain ⟨hx, hps⟩ := List.forall_mem_cons.1 h
    rw [storeAll, store_plain hx]
    exact ih fun y hy => (hps y hy).congr (s.wrN_keeps ..).2

theorem rd_writeAll_misses {ps : List (Nat × Place)} {sp a : Nat} (hsp : sp < 4) (h : ∀ x ∈ ps, x.2.sp < 4 ∧ x.2.misses n sp a)
    (val : Nat → Nat) : (writeAll s n val ps).rd sp a = s.rd sp a := by
  induction ps generalizing s with
  | nil => rfl
  | cons x ps ih =>
    obtain ⟨⟨hx, hmiss⟩, hps⟩ := List.forall_mem_cons.1 h
    exact (ih hps).trans (rd_wrN_misses hx hsp hmiss (val x.1))

/-- What a place reads after writes of which the last that touches it is at that very place. -/
theorem rdN_writeAll_last {as bs : List (Nat × Place)} {x : Nat × Place} (hx : x.2.sp < 4) (hbs : ∀ y ∈ bs, y.2.sp < 4 ∧ Apart n y.2 x.2)
    (val : Nat → Nat) : (writeAll s n val (as ++ x :: bs)).rdN x.2.sp x.2.a n = val x.1 % 2 ^ (8 * n) := by
  rw [writeAll, List.foldl_append, List.foldl_cons]
  refine Eq.trans (State.rdN_congr fun i hi => ?_) (rdN_wrN_same (writeAll s n val as) x.2 (val x.1))
  exact rd_writeAll_misses hx (fun y hy => ⟨(hbs y hy).1, misses_of_apart (hbs y hy).2 hi⟩) val

/-- The last element of a list that has a property. -/
theorem exists_last {α : Type} {q : α → Prop} {xs : List α} (h : ∃ x ∈ xs, q x) : ∃ as x bs, xs = as ++ x :: bs ∧ q x ∧ ∀ y ∈ bs, ¬ q y := by
  induction xs with
  | nil => simp at h
  | cons z xs ih =>
    by_cases hlater : ∃ x ∈ xs, q x
    · obtain ⟨as, x, bs, rfl, hx, hbs⟩ := ih hlater
      exact ⟨z :: as, x, bs, rfl, hx, hbs⟩
    · obtain ⟨x, hx, hqx⟩ := h
      obtain rfl | hx := List.mem_cons.1 hx
      · exact ⟨[], x, xs, rfl, hqx, fun y hy hqy => hlater ⟨y, hy, hqy⟩⟩
      · exact absurd ⟨x, hx, hqx⟩ hlater

/-! ## The order of lanes -/

theorem openOrder_put_perm (r : Nat × Place → Nat × Place → Bool) (x : Nat × Place) (ps : List (Nat × Place)) :
    (openOrder.put r x ps).Perm (x :: ps) := by
  induction ps with
  | nil => exact .refl _
  | cons y ps ih =>
    rw [openOrder.put]
    split
    · exact .refl _
    · exact (ih.cons y).trans (.swap x y ps)

theorem openOrder_insertAll_perm (r : Nat × Place → Nat × Place → Bool) (ps : List (Nat × Place)) : (openOrder.insertAll r ps).Perm ps := by
  induction ps with
  | nil => exact .refl _
  | cons x ps ih => exact (openOrder_put_perm r x _).trans (ih.cons x)

theorem openOrder_perm (s : State) (ps : List (Nat × Place)) : (openOrder s ps).Perm ps := by
  unfold openOrder
  split
  · exact openOrder_insertAll_perm ..
  · exact .refl _

end Sys2Proof.Machine
end

section
/-! PROOFS. Loads and stores (R138 to R145, R241, R311). -/

namespace Sys2Proof.Machine
open Sys2Proof.Claims

variable {s t : State} {o : Op} {m : ModM} {g : ModG} {c : Cx} {ls : List Nat} {p : Nat → Place} {n fl : Nat} {att : Att}

/-! ## Loads -/

theorem execLd_next (h : Issues s o c) (ha : BearsBase c o.a (decide (m.space = 1))) (hb : Bears c o.b 1 [.i32])
    (hfl : c.sysScope (m.ord != 0) m.scope = .ok fl)
    (hl : Lands c o.a (decide (m.space = 1)) (c.offM o m.ty.size o.disp) m.ty.size m.ty.size
      (ordAtt m.ord (c.actScope m.scope) false false) true (c.loadLanes o.d) p) :
    execLd o m s = .next (advance c (c.endLoad o.d m.ty (landedAt p (c.loadLanes o.d)) fl (ordAtt m.ord (c.actScope m.scope) false false))) := by
  obtain ⟨_, hbase⟩ := Cx.needBase_ok ha
  obtain ⟨sps, hmap, hland, hhole⟩ := lands_spec hl
  refine word_of_issues h ?_
  have hplaces := placesPrecise_ok (write := false) hland hhole
  simp only [hbase, Cx.need_of_bears hb, hfl, bind, Except.bind]
  rw [hmap]
  simp only [hplaces]
  rfl

theorem execXld_next (h : Issues s o c) (ha : BearsBase c o.a (decide (m.space = 1)))
    (hl : Lands c o.a (decide (m.space = 1)) (fun l => o.disp + c.laneIndex l * m.ty.size) m.ty.size m.ty.size {} true c.lanes p) :
    execXld o m s = .next (advance c (c.endLoad o.d m.ty (landedAt p c.lanes) 0 {})) := by
  obtain ⟨_, hbase⟩ := Cx.needBase_ok ha
  obtain ⟨sps, hmap, hland, hhole⟩ := lands_spec hl
  refine word_of_issues h ?_
  have hplaces := placesPrecise_ok (write := false) hland hhole
  simp only [hbase, bind, Except.bind]
  rw [hmap]
  simp only [hplaces]
  rfl

theorem execGld_next (h : Issues s o c) (ha : BearsBase c o.a (decide (g.space = 1)))
    (hb : if g.iw = 3 then Bears c o.b 2 [.i64] else Bears c o.b 1 [.i32])
    (hl : Lands c o.a (decide (g.space = 1)) (c.offG o g) g.ty.size g.ty.size {} true c.lanes p) :
    execGld o g s = .next (advance c (c.endLoad o.d g.ty (landedAt p c.lanes) 0 {})) := by
  obtain ⟨_, hbase⟩ := Cx.needBase_ok ha
  obtain ⟨sps, hmap, hland, hhole⟩ := lands_spec hl
  refine word_of_issues h ?_
  have hplaces := placesPrecise_ok (write := false) hland hhole
  simp only [hbase, Cx.needIndex_ok hb, bind, Except.bind]
  rw [hmap]
  simp only [hplaces]
  rfl

/-! ## Stores: the state they leave -/

/-- What a store leaves once its lanes have landed: its writes in some order, and what is only noted. -/
theorem endStore_ok {sps : List (Nat × Spot)} {ps : List (Nat × Place)} (hland : c.landAll sps n true false = (ps, []))
    (hhole : noHole ps = .ok ⟨⟩) (val : Nat → Nat) (ordered : Bool) (fl : Nat) (att : Att) :
    ∃ t, c.endStore sps n val ordered fl att = .ok t
      ∧ Quiet (storeAll (c.put (c.g.orFlags fl)) c.u.core c.u.ctx n val (if ordered then ps else openOrder c.s ps)) t := by
  simp only [Cx.endStore, hland, bind, Except.bind, hhole]
  exact ⟨_, rfl, (quiet_ite (quiet_due ..) (.refl _)).trans (quiet_noteAll ..)⟩

theorem mem_of_perm_landed {qs : List (Nat × Place)} (hperm : qs.Perm (landedAt p ls)) {x : Nat × Place} (hx : x ∈ qs) :
    x.1 ∈ ls ∧ x.2 = p x.1 := by
  obtain ⟨l, hl, rfl⟩ := List.mem_map.1 (hperm.subset hx)
  exact ⟨hl, rfl⟩

theorem keys_nodup {qs : List (Nat × Place)} (hperm : qs.Perm (landedAt p c.lanes)) : (qs.map Prod.fst).Nodup := by
  have hkeys : (landedAt p c.lanes).map Prod.fst = c.lanes := by
    rw [landedAt, List.map_map]
    exact List.map_id _
  rw [(hperm.map Prod.fst).nodup_iff, hkeys]
  exact c.lanes_sorted.imp fun h => h.ne

/-- In any order of the lanes, the other lanes stand before and behind a lane. -/
theorem split_at_lane {qs : List (Nat × Place)} (hperm : qs.Perm (landedAt p c.lanes)) {l : Nat} (hl : l ∈ c.lanes) :
    ∃ as bs, qs = as ++ (l, p l) :: bs ∧ ∀ y ∈ as ++ bs, y.1 ∈ c.lanes ∧ y.1 ≠ l ∧ y.2 = p y.1 := by
  obtain ⟨as, bs, hqs⟩ := List.append_of_mem (hperm.symm.subset (List.mem_map.2 ⟨l, hl, rfl⟩))
  have hnodup := keys_nodup hperm
  rw [hqs, List.map_append, List.map_cons, List.nodup_middle, List.nodup_cons] at hnodup
  refine ⟨as, bs, hqs, fun y hy => ?_⟩
  have hmem : y ∈ qs := by
    rw [hqs]
    simp only [List.mem_append, List.mem_cons] at hy ⊢
    tauto
  obtain ⟨hlane, hplace⟩ := mem_of_perm_landed hperm hmem
  refine ⟨hlane, ?_, hplace⟩
  rintro rfl
  have hkey : y.1 ∈ (as ++ bs).map Prod.fst := List.mem_map_of_mem hy
  rw [List.map_append] at hkey
  exact hnodup.1 hkey

/-- The places of the issuing group's lanes are plain once its flags have been set. -/
theorem plain_put {qs : List (Nat × Place)} (hplain : PlainPlaces c.s c c.lanes p) (hperm : qs.Perm (landedAt p c.lanes)) (g : Group) :
    ∀ x ∈ qs, PlainAt (c.put g) c.u.ctx x.2 := fun x hx => by
  obtain ⟨hl, hx⟩ := mem_of_perm_landed hperm hx
  rw [hx]
  exact PlainAt.congr (hplain _ hl) rfl

/-- The memory that stores of several lanes leave at plain places, whatever their order. -/
theorem stored_of_quiet {qs : List (Nat × Place)} {val : Nat → Nat} {out : Host.Outcome State Fault Refusal} (h : Issues s o c)
    (hout : out = .next (advance c t)) (hplain : PlainPlaces s c c.lanes p)
    (hperm : qs.Perm (landedAt p c.lanes))
    (hquiet : Quiet (storeAll (c.put (c.g.orFlags fl)) c.u.core c.u.ctx n (fun l => val l % 2 ^ (8 * n)) qs) t) :
    Stored c s out n fl p val := by
  obtain rfl := issues_view h
  rw [storeAll_plain (plain_put hplain hperm _)] at hquiet
  have hrdN (q : Place) : (advance c t).rdN q.sp q.a n = (writeAll (c.put (c.g.orFlags fl)) n (fun l => val l % 2 ^ (8 * n)) qs).rdN q.sp q.a n :=
    State.rdN_congr fun i _ => hquiet.rd ..
  have hplaces {x : Nat × Place} (hx : x ∈ qs) : x.2.sp < 4 := (plain_put hplain hperm (c.g.orFlags fl) x hx).1
  refine ⟨_, hout, afterIs_advance ?_ rfl, fun l hl halone => ?_, fun l hl hwhole => ?_, fun sp hsp a ha => ?_⟩
  · rw [hquiet.after, Cx.after_of_units (writeAll_keeps ..).1]
    exact after_put_of_issues h rfl rfl
  · obtain ⟨as, bs, rfl, hothers⟩ := split_at_lane hperm hl
    rw [hrdN (p l), rdN_writeAll_last (x := (l, p l)) (hplain l hl).1 fun y hy => ?_, Nat.mod_mod]
    obtain ⟨hlane, hne, hplace⟩ := hothers y (List.mem_append_right _ hy)
    rw [hplace]
    exact ⟨(hplain _ hlane).1, halone _ hlane hne⟩
  · obtain ⟨as, x, bs, rfl, hsame, hbs⟩ := exists_last (q := fun x : Nat × Place => x.2.sp = (p l).sp ∧ x.2.a = (p l).a)
      ⟨_, hperm.symm.subset (List.mem_map.2 ⟨l, hl, rfl⟩), rfl, rfl⟩
    obtain ⟨hx, hxp⟩ := mem_of_perm_landed hperm (List.mem_append_right as List.mem_cons_self)
    refine ⟨x.1, hx, ?_, ?_⟩
    · change (p x.1).sp = (p l).sp ∧ (p x.1).a = (p l).a
      rw [← hxp]
      exact hsame
    · obtain ⟨hsp, ha⟩ := hsame
      rw [← hsp, ← ha, hrdN x.2, rdN_writeAll_last (hplaces (List.mem_append_right as List.mem_cons_self)) fun y hy => ?_, Nat.mod_mod]
      have hmem : y ∈ as ++ x :: bs := List.mem_append_right as (List.mem_cons_of_mem _ hy)
      obtain ⟨hlane, hplace⟩ := mem_of_perm_landed hperm hmem
      have hother := hbs y hy
      rw [hplace] at hother
      refine ⟨hplaces hmem, ?_⟩
      rw [Apart, hsp, ha, hplace]
      exact (hwhole _ hlane).resolve_left hother
  · refine (hquiet.rd ..).trans (rd_writeAll_misses hsp (fun x hx => ⟨hplaces hx, ?_⟩) _)
    obtain ⟨hlane, hplace⟩ := mem_of_perm_landed hperm hx
    rw [hplace]
    exact ha _ hlane

/-- Of lanes in ascending order, a place that no higher lane touches has the lane's value. -/
theorem stored_ascending {val : Nat → Nat} (hplain : PlainPlaces c.s c c.lanes p)
    (hquiet : Quiet (storeAll (c.put (c.g.orFlags fl)) c.u.core c.u.ctx n (fun l => val l % 2 ^ (8 * n)) (landedAt p c.lanes)) t)
    {l : Nat} (hl : l ∈ c.lanes) (hhigher : ∀ k ∈ c.lanes, l < k → Apart n (p k) (p l)) :
    (advance c t).rdN (p l).sp (p l).a n = val l % 2 ^ (8 * n) := by
  rw [storeAll_plain (plain_put hplain (.refl _) _)] at hquiet
  obtain ⟨as, bs, hsplit⟩ := List.append_of_mem hl
  have hsorted := c.lanes_sorted
  rw [hsplit, List.pairwise_append, List.pairwise_cons] at hsorted
  obtain ⟨-, ⟨habove, -⟩, -⟩ := hsorted
  have hrdN : (advance c t).rdN (p l).sp (p l).a n
      = (writeAll (c.put (c.g.orFlags fl)) n (fun l => val l % 2 ^ (8 * n)) (landedAt p as ++ (l, p l) :: landedAt p bs)).rdN (p l).sp (p l).a n := by
    rw [← landedAt_cons, landedAt, landedAt, ← List.map_append, ← hsplit]
    exact State.rdN_congr fun i _ => hquiet.rd ..
  rw [hrdN, rdN_writeAll_last (x := (l, p l)) (hplain l hl).1 fun y hy => ?_, Nat.mod_mod]
  obtain ⟨k, hk, rfl⟩ := List.mem_map.1 hy
  have hlane : k ∈ c.lanes := by
    rw [hsplit]
    exact List.mem_append_right _ (List.mem_cons_of_mem _ hk)
  exact ⟨(hplain k hlane).1, hhigher k hlane (habove k hk)⟩

/-! ## Stores: the pages they mark (R241) -/

/-- Between two states of a context's table, entries keep their kind and no marked page is forgotten. -/
def KeepsMarks (y z : Ctx) : Prop :=
  ∀ k, (z.slotRes k).kind = (y.slotRes k).kind ∧ ∀ g ∈ (y.slotRes k).dirtyPg, g ∈ (z.slotRes k).dirtyPg

/-- The page of an address is marked where it lies in a window of an exclusive object. -/
def PageMarked (y z : Ctx) (va : Nat) : Prop :=
  isPtr va = true → (y.slotRes (ptrSlot va)).kind = 1 → ptrOff va / 65536 ∈ (z.slotRes (ptrSlot va)).dirtyPg

theorem KeepsMarks.refl (y : Ctx) : KeepsMarks y y := fun _ => ⟨rfl, fun _ h => h⟩

theorem KeepsMarks.trans {x y z : Ctx} (h : KeepsMarks x y) (h' : KeepsMarks y z) : KeepsMarks x z :=
  fun k => ⟨(h' k).1.trans (h k).1, fun g hg => (h' k).2 g ((h k).2 g hg)⟩

theorem markDirty_marks {id : Nat} {y : Ctx} (hy : s.ctx? id = some y) (va : Nat) :
    ∃ z, (markDirty s id va).ctx? id = some z ∧ KeepsMarks y z ∧ PageMarked y z va := by
  unfold markDirty
  split
  · next hptr => exact ⟨y, hy, .refl y, fun h => absurd hptr (by simp [h])⟩
  · rw [hy]
    simp only
    split
    · next hdone =>
      refine ⟨y, hy, .refl y, fun _ hkind => ?_⟩
      simpa [hkind] using hdone
    · obtain ⟨z, hz, hres⟩ := modRes_slotRes (ptrSlot va)
        (fun r => { r with dirty := true, dirtyPg := r.dirtyPg ++ [ptrOff va / 65536] }) hy
      refine ⟨z, hz, fun k => ?_, fun _ _ => ?_⟩
      · rw [hres]
        split
        · next hk => exact ⟨by rw [hk], fun g hg => List.mem_append_left _ (hk ▸ hg)⟩
        · exact ⟨rfl, fun _ h => h⟩
      · rw [hres, if_pos rfl]
        exact List.mem_append_right _ (List.mem_singleton_self _)

theorem storeAll_marks {id : Nat} {y : Ctx} {ps : List (Nat × Place)} (hy : s.ctx? id = some y) (hsp : ∀ x ∈ ps, x.2.sp < 4) (core n : Nat)
    (val : Nat → Nat) : ∃ z, (storeAll s core id n val ps).ctx? id = some z ∧ KeepsMarks y z ∧ ∀ x ∈ ps, PageMarked y z x.2.va := by
  induction ps generalizing s y with
  | nil => exact ⟨y, hy, .refl y, fun _ h => nomatch h⟩
  | cons x ps ih =>
    obtain ⟨hx, hps⟩ := List.forall_mem_cons.1 hsp
    have hstore : s.store core x.2.sp x.2.a n (val x.1) = s.wrN x.2.sp x.2.a n (val x.1) := if_neg (by omega)
    have hy' : (s.store core x.2.sp x.2.a n (val x.1)).ctx? id = some y := by
      rw [hstore, State.ctx?_congr (s.wrN_keeps ..).2, hy]
    obtain ⟨w, hw, hkeep, hmark⟩ := markDirty_marks hy' x.2.va
    obtain ⟨z, hz, hkeep', hmarks⟩ := ih hw hps
    refine ⟨z, hz, hkeep.trans hkeep', List.forall_mem_cons.2 ⟨fun hptr hkind => (hkeep' _).2 _ (hmark hptr hkind), fun v hv hptr hkind => ?_⟩⟩
    exact hmarks v hv hptr (((hkeep _).1).trans hkind)

theorem marking_of_quiet {qs : List (Nat × Place)} {val : Nat → Nat} {out : Host.Outcome State Fault Refusal} (h : Issues s o c)
    (hout : out = .next (advance c t)) (hsp : ∀ l ∈ c.lanes, (p l).sp < 4)
    (hperm : qs.Perm (landedAt p c.lanes)) (hquiet : Quiet (storeAll (c.put (c.g.orFlags fl)) c.u.core c.u.ctx n val qs) t) :
    Marking s c out p := by
  obtain rfl := issues_view h
  refine ⟨_, hout, fun l hl hptr y hy hkind => ?_⟩
  obtain ⟨z, hz, -, hmarks⟩ := storeAll_marks (s := c.put (c.g.orFlags fl)) (ps := qs) hy (fun x hx => by
    obtain ⟨hlane, hplace⟩ := mem_of_perm_landed hperm hx
    rw [hplace]
    exact hsp _ hlane) c.u.core n val
  exact ⟨z, (hquiet.ctx? _).trans hz, hmarks _ (hperm.symm.subset (List.mem_map.2 ⟨l, hl, rfl⟩)) hptr hkind⟩

/-! ## Stores: the words -/

/-- The order in which a store's lanes write: as they come, or an open one. -/
theorem storeOrder_perm (c : Cx) (ordered : Bool) (ps : List (Nat × Place)) : (if ordered then ps else openOrder c.s ps).Perm ps := by
  split
  · exact .refl _
  · exact openOrder_perm ..

theorem execSt_next (h : Issues s o c) (ha : BearsBase c o.a (decide (m.space = 1))) (hb : Bears c o.b 1 [.i32]) (hdata : DataOk c o.d m.ty)
    (hfl : c.sysScope (m.ord != 0) m.scope = .ok fl) (hdrain : 2 ≤ m.ord → Drained s c)
    (hl : Lands c o.a (decide (m.space = 1)) (c.offM o m.ty.size o.disp) m.ty.size m.ty.size
      (ordAtt m.ord (c.actScope m.scope) true false) false c.lanes p) :
    ∃ t, execSt o m s = .next (advance c t)
      ∧ Quiet (storeAll (c.put (c.g.orFlags fl)) c.u.core c.u.ctx m.ty.size (fun l => c.val o.d m.ty.regs l % 2 ^ (8 * m.ty.size))
          (if false then landedAt p c.lanes else openOrder c.s (landedAt p c.lanes))) t := by
  obtain ⟨_, hbase⟩ := Cx.needBase_ok ha
  obtain ⟨sps, hmap, hland, hhole⟩ := lands_spec hl
  obtain ⟨t, ht, hquiet⟩ := endStore_ok hland hhole (fun l => c.val o.d m.ty.regs l % 2 ^ (8 * m.ty.size)) false fl
    (ordAtt m.ord (c.actScope m.scope) true false)
  refine ⟨t, word_of_issues h ?_, hquiet⟩
  have hdata : c.dataTag o.d m.ty = .ok () := hdata
  by_cases hord : 2 ≤ m.ord
  · simp only [if_pos hord, Cx.drain_ok (issues_view h ▸ hdrain hord), bind, Except.bind, hbase, Cx.need_of_bears hb, hdata, hfl]
    rw [hmap]
    exact ht
  · simp only [if_neg hord, bind, Except.bind, hbase, Cx.need_of_bears hb, hdata, hfl]
    rw [hmap]
    exact ht

theorem execCst_next (h : Issues s o c) (ha : BearsBase c o.a (decide (m.space = 1))) (hdata : DataOk c o.d m.ty)
    (hl : Lands c o.a (decide (m.space = 1)) (fun l => o.disp + c.laneIndex l * m.ty.size) m.ty.size m.ty.size { write := true } false c.lanes p) :
    ∃ t, execCst o m s = .next (advance c t)
      ∧ Quiet (storeAll (c.put (c.g.orFlags 0)) c.u.core c.u.ctx m.ty.size (fun l => c.val o.d m.ty.regs l % 2 ^ (8 * m.ty.size))
          (landedAt p c.lanes)) t := by
  obtain ⟨_, hbase⟩ := Cx.needBase_ok ha
  obtain ⟨sps, hmap, hland, hhole⟩ := lands_spec hl
  obtain ⟨t, ht, hquiet⟩ := endStore_ok hland hhole (fun l => c.val o.d m.ty.regs l % 2 ^ (8 * m.ty.size)) true 0 { write := true }
  refine ⟨t, word_of_issues h ?_, hquiet⟩
  have hdata : c.dataTag o.d m.ty = .ok () := hdata
  simp only [bind, Except.bind, hbase, hdata]
  rw [hmap]
  exact ht

theorem execGst_next (h : Issues s o c) (ha : BearsBase c o.a (decide (g.space = 1)))
    (hb : if g.iw = 3 then Bears c o.b 2 [.i64] else Bears c o.b 1 [.i32]) (hdata : DataOk c o.d g.ty)
    (hl : Lands c o.a (decide (g.space = 1)) (c.offG o g) g.ty.size g.ty.size { write := true } false c.lanes p) :
    ∃ t, execGst o g s = .next (advance c t)
      ∧ Quiet (storeAll (c.put (c.g.orFlags 0)) c.u.core c.u.ctx g.ty.size (fun l => c.val o.d g.ty.regs l % 2 ^ (8 * g.ty.size))
          (landedAt p c.lanes)) t := by
  obtain ⟨_, hbase⟩ := Cx.needBase_ok ha
  obtain ⟨sps, hmap, hland, hhole⟩ := lands_spec hl
  obtain ⟨t, ht, hquiet⟩ := endStore_ok hland hhole (fun l => c.val o.d g.ty.regs l % 2 ^ (8 * g.ty.size)) true 0 { write := true }
  refine ⟨t, word_of_issues h ?_, hquiet⟩
  have hdata : c.dataTag o.d g.ty = .ok () := hdata
  simp only [bind, Except.bind, hbase, Cx.needIndex_ok hb, hdata]
  rw [hmap]
  exact ht

end Sys2Proof.Machine

section
open Sys2Proof Sys2Proof.Machine Sys2Proof.Claims

/-- Settles O20: each of the three loads ends alike once its lanes have landed. -/
theorem loadsRead : Obligations.LoadsRead := by
  unfold Obligations.LoadsRead
  intro s o m g c p fl h n v
  refine ⟨fun ha hb hfl hd hl => ?_, fun ha hl => ?_, fun ha hb hl => ?_⟩
  · rw [show exec (.ld o m) s = execLd o m s from rfl, execLd_next h ha hb hfl hl]
    exact endLoad_loaded h o.d m.ty fl _ (loadLanes_cover o.d hd)
  · rw [show exec (.xld o m) s = execXld o m s from rfl, execXld_next h ha hl]
    exact endLoad_loaded h o.d m.ty 0 _ (.inr (.inr (inLanes_cover h o.d)))
  · rw [show exec (.gld o g) s = execGld o g s from rfl, execGld_next h ha hb hl]
    exact endLoad_loaded h o.d g.ty 0 _ (.inr (.inr (inLanes_cover h o.d)))

/-- Settles O21: each of the three stores writes its lanes' numbers in some order, a scatter in the ascending one. -/
theorem storesWrite : Obligations.StoresWrite := by
  unfold Obligations.StoresWrite
  intro s o m g c p fl h hsp n v stores
  refine ⟨fun ha hb hdata hfl hdrain hl => ?_, fun ha hdata hl => ?_, fun ha hb hdata hl => ?_⟩
  · obtain ⟨t, ht, hquiet⟩ := execSt_next h ha hb hdata hfl hdrain hl
    have hperm := storeOrder_perm c false (landedAt p c.lanes)
    exact ⟨fun hplain => stored_of_quiet h ht hplain hperm hquiet, marking_of_quiet h ht hsp hperm hquiet⟩
  · obtain ⟨t, ht, hquiet⟩ := execCst_next h ha hdata hl
    exact ⟨fun hplain => stored_of_quiet h ht hplain (.refl _) hquiet, marking_of_quiet h ht hsp (.refl _) hquiet⟩
  · obtain ⟨t, ht, hquiet⟩ := execGst_next h ha hb hdata hl
    refine ⟨⟨fun hplain => stored_of_quiet h ht hplain (.refl _) hquiet, marking_of_quiet h ht hsp (.refl _) hquiet⟩, ?_⟩
    intro hplain u hu l hl' hhigher
    obtain rfl : advance c t = u := Host.Outcome.next.inj (ht.symm.trans hu)
    exact stored_ascending (issues_view h ▸ hplain) hquiet hl' hhigher

end
end

section
/-! PROOFS. Read-modify-writes, waits on memory and signals (R146 to R153, R181). -/

namespace Sys2Proof.Machine
open Sys2Proof.Claims

variable {s t : State} {o : Op} {m : ModM} {x : ModX} {c : Cx} {ls : List Nat} {p : Nat → Place} {fl : Nat}

/-! ## Read-modify-writes of several lanes -/

section
variable (core ctx fn : Nat) (ty : Ty) (a b : Nat → Nat)

/-- The number that a read-modify-write of lane `l` leaves at a place. -/
def rmwNew (s : State) (l : Nat) (q : Place) : Nat := atomicNew fn ty (s.rdN q.sp q.a ty.size) (a l) (b l)

theorem rmwAll_cons {l : Nat} {q : Place} (hq : PlainAt s ctx q) (ps : List (Nat × Place)) :
    rmwAll s core ctx fn ty a b ((l, q) :: ps) =
      ((rmwAll (s.wrN q.sp q.a ty.size (rmwNew fn ty a b s l q)) core ctx fn ty a b ps).1,
        (l, s.rdN q.sp q.a ty.size) :: (rmwAll (s.wrN q.sp q.a ty.size (rmwNew fn ty a b s l q)) core ctx fn ty a b ps).2) := by
  have hload : s.load core q.sp q.a ty.size = s.rdN q.sp q.a ty.size := if_neg (by have := hq.1; omega)
  rw [rmwAll, hload, store_plain hq]
  rfl

theorem rmwAll_keeps {ps : List (Nat × Place)} (h : ∀ x ∈ ps, PlainAt s ctx x.2) :
    (rmwAll s core ctx fn ty a b ps).1.units = s.units ∧ (rmwAll s core ctx fn ty a b ps).1.ctxs = s.ctxs := by
  induction ps generalizing s with
  | nil => exact ⟨rfl, rfl⟩
  | cons x ps ih =>
    obtain ⟨hx, hps⟩ := List.forall_mem_cons.1 h
    obtain ⟨hunits, hctxs⟩ := s.wrN_keeps x.2.sp x.2.a ty.size (rmwNew fn ty a b s x.1 x.2)
    obtain ⟨hunits', hctxs'⟩ := ih fun y hy => (hps y hy).congr hctxs
    rw [rmwAll_cons core ctx fn ty a b hx]
    exact ⟨hunits'.trans hunits, hctxs'.trans hctxs⟩

theorem rd_rmwAll_misses {ps : List (Nat × Place)} {sp ad : Nat} (hsp : sp < 4)
    (h : ∀ x ∈ ps, PlainAt s ctx x.2 ∧ x.2.misses ty.size sp ad) : (rmwAll s core ctx fn ty a b ps).1.rd sp ad = s.rd sp ad := by
  induction ps generalizing s with
  | nil => rfl
  | cons x ps ih =>
    obtain ⟨⟨hx, hmiss⟩, hps⟩ := List.forall_mem_cons.1 h
    rw [rmwAll_cons core ctx fn ty a b hx]
    exact (ih fun y hy => ⟨(hps y hy).1.congr (s.wrN_keeps ..).2, (hps y hy).2⟩).trans (rd_wrN_misses hx.1 hsp hmiss _)

/-- A lane whose place no other lane touches reads the old value there and leaves the new one. -/
theorem rmwAll_alone {as bs : List (Nat × Place)} {l : Nat} {q : Place} (hplain : ∀ x ∈ as ++ (l, q) :: bs, PlainAt s ctx x.2)
    (hothers : ∀ x ∈ as ++ bs, x.1 ≠ l ∧ Apart ty.size x.2 q) :
    laneVal 0 (rmwAll s core ctx fn ty a b (as ++ (l, q) :: bs)).2 l = s.rdN q.sp q.a ty.size
      ∧ (rmwAll s core ctx fn ty a b (as ++ (l, q) :: bs)).1.rdN q.sp q.a ty.size = rmwNew fn ty a b s l q % 2 ^ (8 * ty.size) := by
  induction as generalizing s with
  | nil =>
    obtain ⟨hq, hbs⟩ := List.forall_mem_cons.1 hplain
    rw [List.nil_append, rmwAll_cons core ctx fn ty a b hq]
    refine ⟨by simp [laneVal], ?_⟩
    rw [← rdN_wrN_same s q (rmwNew fn ty a b s l q)]
    refine State.rdN_congr fun i hi => rd_rmwAll_misses core ctx fn ty a b hq.1 fun y hy => ?_
    exact ⟨(hbs y hy).congr (s.wrN_keeps ..).2, misses_of_apart (hothers y hy).2 hi⟩
  | cons x as ih =>
    obtain ⟨hx, hrest⟩ := List.forall_mem_cons.1 hplain
    obtain ⟨⟨hne, hapart⟩, hothers⟩ := List.forall_mem_cons.1 hothers
    have hq : q.sp < 4 := (hrest (l, q) (List.mem_append_right _ List.mem_cons_self)).1
    have hsame := rdN_wrN_apart (s := s) hx.1 hq hapart (rmwNew fn ty a b s x.1 x.2)
    obtain ⟨hold, hnew⟩ := ih (s := s.wrN x.2.sp x.2.a ty.size (rmwNew fn ty a b s x.1 x.2))
      (fun y hy => (hrest y hy).congr (s.wrN_keeps ..).2) hothers
    rw [List.cons_append, rmwAll_cons core ctx fn ty a b hx]
    refine ⟨?_, ?_⟩
    · rw [← hsame, ← hold]
      simp [laneVal, hne]
    · rw [hnew]
      exact congrArg (fun v => atomicNew fn ty v (a l) (b l) % 2 ^ (8 * ty.size)) hsame

end

/-- What read-modify-writes of the executing lanes leave, whatever their order. -/
theorem rmwAll_lanes {qs : List (Nat × Place)} (core fn : Nat) (ty : Ty) (a b : Nat → Nat) (hplain : PlainPlaces s c c.lanes p)
    (hperm : qs.Perm (landedAt p c.lanes)) {l : Nat} (hl : l ∈ c.lanes) (halone : Alone c.lanes p ty.size l) :
    laneVal 0 (rmwAll s core c.u.ctx fn ty a b qs).2 l = s.rdN (p l).sp (p l).a ty.size
      ∧ (rmwAll s core c.u.ctx fn ty a b qs).1.rdN (p l).sp (p l).a ty.size
        = atomicNew fn ty (s.rdN (p l).sp (p l).a ty.size) (a l) (b l) % 2 ^ (8 * ty.size) := by
  have hall : ∀ x ∈ qs, PlainAt s c.u.ctx x.2 := fun x hx => by
    obtain ⟨hlane, hplace⟩ := mem_of_perm_landed hperm hx
    rw [hplace]
    exact hplain _ hlane
  obtain ⟨as, bs, rfl, hothers⟩ := split_at_lane hperm hl
  refine rmwAll_alone core c.u.ctx fn ty a b hall fun y hy => ?_
  obtain ⟨hlane, hne, hplace⟩ := hothers y hy
  rw [hplace]
  exact ⟨hne, halone _ hlane hne⟩

/-! ## atom and red (R146 to R148) -/

theorem execAtom_next (h : Issues s o c) (ha : BearsBase c o.a (decide (m.space = 1))) (hb : Bears c o.b 1 [.i32])
    (hfl : c.sysScope true m.scope = .ok fl) (hdrain : 2 ≤ m.ord → Drained s c) (hdata : DataOk c o.c m.ty)
    (hcas : o.fn = 7 → DataOk c (o.c.plus m.ty.regs) m.ty)
    (hl : Lands c o.a (decide (m.space = 1)) (c.offM o m.ty.size 0) m.ty.size m.ty.size (ordAtt m.ord (c.actScope m.scope) true true) true c.lanes p) :
    let r := rmwAll s c.u.core c.u.ctx o.fn m.ty (c.val o.c m.ty.regs) (c.casNew o.c m.ty.regs) (openOrder s (landedAt p c.lanes))
    ∃ t, execAtom o m s = .next (advance c t)
      ∧ Quiet (r.1.modGrp c.u.key c.g.gid fun g => (g.write o.d m.ty.regs m.ty.tag (laneVal 0 r.2) c.ex).orFlags fl) t := by
  obtain rfl := issues_view h
  obtain ⟨_, hbase⟩ := Cx.needBase_ok ha
  obtain ⟨sps, hmap, hland, hhole⟩ := lands_spec hl
  have hplaces := placesPrecise_ok (write := true) hland hhole
  have hdata : c.dataTag o.c m.ty = .ok () := hdata
  have hcas : o.fn = 7 → c.dataTag (o.c.plus m.ty.regs) m.ty = .ok () := hcas
  have hdrain : 2 ≤ m.ord → c.drain = .ok () := fun hord => Cx.drain_ok (hdrain hord)
  intro r
  refine ⟨c.noteAll (r.1.modGrp c.u.key c.g.gid fun g => (g.write o.d m.ty.regs m.ty.tag (laneVal 0 r.2) c.ex).orFlags fl)
    (landedAt p c.lanes) m.ty.size (ordAtt m.ord (c.actScope m.scope) true true), word_of_issues h ?_, quiet_noteAll ..⟩
  by_cases hord : 2 ≤ m.ord <;> by_cases hfn : o.fn = 7
  all_goals
    simp only [hord, hfn, hdrain, hcas, if_true, if_false, bind, Except.bind, hbase, Cx.need_of_bears hb, hdata, hfl]
    rw [hmap]
    simp only [hplaces, r, hfn]
    rfl

theorem execRed_next (h : Issues s o c) (ha : BearsBase c o.a (decide (m.space = 1))) (hb : Bears c o.b 1 [.i32])
    (hfl : c.sysScope true m.scope = .ok fl) (hdrain : 2 ≤ m.ord → Drained s c) (hdata : DataOk c o.d m.ty)
    (hl : Lands c o.a (decide (m.space = 1)) (c.offM o m.ty.size o.disp) m.ty.size m.ty.size (ordAtt m.ord (c.actScope m.scope) true true) true c.lanes p) :
    ∃ t, execRed o m s = .next (advance c t)
      ∧ Quiet (rmwAll (c.put (c.g.orFlags fl)) c.u.core c.u.ctx o.fn m.ty (c.val o.d m.ty.regs) (fun _ => 0) (openOrder s (landedAt p c.lanes))).1 t := by
  obtain rfl := issues_view h
  obtain ⟨_, hbase⟩ := Cx.needBase_ok ha
  obtain ⟨sps, hmap, hland, hhole⟩ := lands_spec hl
  have hland : c.landAll sps m.ty.size true true = (landedAt p c.lanes, []) := hland
  have hdata : c.dataTag o.d m.ty = .ok () := hdata
  have hdrain : 2 ≤ m.ord → c.drain = .ok () := fun hord => Cx.drain_ok (hdrain hord)
  refine ⟨_, word_of_issues h (b := c.noteAll (c.queue (rmwAll (c.put (c.g.orFlags fl)) c.u.core c.u.ctx o.fn m.ty (c.val o.d m.ty.regs) (fun _ => 0)
    (openOrder c.s (landedAt p c.lanes))).1 none) (landedAt p c.lanes) m.ty.size (ordAtt m.ord (c.actScope m.scope) true true)) ?_, quiet_noteAll ..⟩
  by_cases hord : 2 ≤ m.ord
  all_goals
    simp only [hord, hdrain, if_true, if_false, bind, Except.bind, hbase, Cx.need_of_bears hb, hdata, hfl]
    rw [hmap]
    simp only [hland, hhole]
    rfl

/-- What an `atom` or a `red` leaves of memory outside the places of its lanes. -/
theorem sameBut_rmwAll {qs : List (Nat × Place)} (core ctx fn : Nat) (ty : Ty) (a b : Nat → Nat) (hplain : ∀ x ∈ qs, PlainAt s ctx x.2)
    (hperm : qs.Perm (landedAt p c.lanes)) (ht : ∀ sp ad, t.rd sp ad = (rmwAll s core ctx fn ty a b qs).1.rd sp ad) :
    SameBut s t c.lanes p ty.size := fun sp hsp ad had => by
  refine (ht sp ad).trans (rd_rmwAll_misses core ctx fn ty a b hsp fun x hx => ⟨hplain x hx, ?_⟩)
  obtain ⟨hlane, hplace⟩ := mem_of_perm_landed hperm hx
  rw [hplace]
  exact had _ hlane

theorem plain_landed {qs : List (Nat × Place)} (hplain : PlainPlaces s c c.lanes p) (hperm : qs.Perm (landedAt p c.lanes)) :
    ∀ x ∈ qs, PlainAt s c.u.ctx x.2 := fun x hx => by
  obtain ⟨hlane, hplace⟩ := mem_of_perm_landed hperm hx
  rw [hplace]
  exact hplain _ hlane

end Sys2Proof.Machine

section
open Sys2Proof Sys2Proof.Machine Sys2Proof.Claims

/-- Settles O22: the lanes write in some order, and a lane that shares no byte does not see the others. -/
theorem atomics : Obligations.Atomics := by
  unfold Obligations.Atomics
  intro s o m c p fl h hplain hatomic n k v att old ha hb hfl hdrain
  have hperm := openOrder_perm s (landedAt p c.lanes)
  refine ⟨fun hdata hcas hl => ?_, fun hdata hl => ?_⟩
  · have hoff : (fun l => sext 32 (c.val o.b 1 l) * n) = c.offM o n 0 := funext fun l => (Int.add_zero _).symm
    rw [hoff] at hl
    obtain ⟨t, ht, hquiet⟩ := execAtom_next h ha hb hfl hdrain hdata hcas hl
    have hlanes {l : Nat} := rmwAll_lanes (l := l) c.u.core o.fn m.ty (c.val o.c m.ty.regs) (c.casNew o.c m.ty.regs) hplain hperm
    obtain ⟨hunits, -⟩ := rmwAll_keeps c.u.core c.u.ctx o.fn m.ty (c.val o.c m.ty.regs) (c.casNew o.c m.ty.regs) (plain_landed hplain hperm)
    refine ⟨_, _, ht, afterIs_advance ((hquiet.after c).trans ?_) (write_orFlags_same ..).2.2,
      sameBut_rmwAll _ _ _ _ _ _ (plain_landed hplain hperm) hperm hquiet.rd, fun l hl halone => ⟨(hlanes hl halone).1, ?_⟩⟩
    · rw [after_modGrp _ fun g hlive hgid => ?_, Cx.after_of_units hunits, after_of_issues h]
      · rfl
      · obtain ⟨hlive', hgid', -⟩ := write_orFlags_same g o.d k m.ty.tag _ c.ex fl
        exact ⟨hlive'.trans hlive, hgid'.trans hgid⟩
    · refine Eq.trans (State.rdN_congr (t := advance c t)
        (s := (rmwAll s c.u.core c.u.ctx o.fn m.ty (c.val o.c k) (c.casNew o.c k) (openOrder s (landedAt p c.lanes))).1)
        fun i _ => hquiet.rd ..) (hlanes hl halone).2
  · obtain ⟨t, ht, hquiet⟩ := execRed_next h ha hb hfl hdrain hdata hl
    have hput : PlainPlaces (c.put (c.g.orFlags fl)) c c.lanes p := fun l hl =>
      PlainAt.congr (hplain l hl) (by rw [← issues_view h]; rfl)
    have hlanes {l : Nat} := rmwAll_lanes (l := l) c.u.core o.fn m.ty (c.val o.d m.ty.regs) (fun _ => 0) hput hperm
    obtain ⟨hunits, -⟩ := rmwAll_keeps c.u.core c.u.ctx o.fn m.ty (c.val o.d m.ty.regs) (fun _ => 0) (plain_landed hput hperm)
    have hmem : ∀ sp ad, (c.put (c.g.orFlags fl)).rd sp ad = s.rd sp ad := fun sp ad => by rw [← issues_view h]; rfl
    refine ⟨_, ht, afterIs_advance ((hquiet.after c).trans ?_) rfl, fun sp hsp ad had => ?_, fun l hl halone => ?_⟩
    · rw [Cx.after_of_units hunits]
      exact after_put_of_issues h rfl rfl
    · exact (sameBut_rmwAll _ _ _ _ _ _ (plain_landed hput hperm) hperm hquiet.rd sp hsp ad had).trans (hmem sp ad)
    · refine Eq.trans (State.rdN_congr (t := advance c t) fun i _ => hquiet.rd ..) ((hlanes hl halone).2.trans ?_)
      rw [State.rdN_congr fun i _ => hmem ..]

end
end

section
/-! PROOFS. waitv, fence, sdrain, pf and sigdec (R150 to R153, R181). -/

namespace Sys2Proof.Machine
open Sys2Proof.Claims

variable {s t : State} {o : Op} {m : ModM} {x : ModX} {c : Cx} {p : Nat → Place} {q : Place} {fl n : Nat}

/-! ## waitv (R150) -/

/-- Where the operands and places of a waitv are accepted, its comparisons decide. -/
theorem waitvBody_eq (hr : WaitvReads o m c p fl) :
    c.waitvBody o m = if (∀ l ∈ c.lanes, waitvHolds o m c p l = true) then
        .ok (c.noteAll (c.put (c.g.orFlags fl)) (landedAt p c.lanes) m.ty.size { strong := true, acq := m.ord % 2 == 1, scope := c.actScope m.scope })
      else .error (.wait .waitv) := by
  obtain ⟨ha, hb, hd, hfl, hl⟩ := hr
  have hl : Lands c o.a (decide (m.space = 1)) (c.offM o m.ty.size o.disp) _ _ _ _ _ _ := hl
  obtain ⟨_, hbase⟩ := Cx.needBase_ok ha
  obtain ⟨sps, hmap, hland, hhole⟩ := lands_spec hl
  have hplaces := placesPrecise_ok (write := false) hland hhole
  have hall : ((landedAt p c.lanes).all fun (l, p) =>
      compareInt o.fn (m.ty.int (c.s.load c.u.core p.sp p.a m.ty.size)) (m.ty.int (c.val o.d m.ty.regs l))) = true
        ↔ ∀ l ∈ c.lanes, waitvHolds o m c p l = true := by
    rw [landedAt, List.all_map, List.all_eq_true]
    rfl
  unfold Cx.waitvBody
  cases hbits : m.ty.isBits
  all_goals
    simp only [hbits, if_true, Bool.false_eq_true, if_false] at hd
    simp only [if_true, Bool.false_eq_true, if_false, bind, Except.bind, hbase, Cx.need_of_bears hb, hfl, Cx.any_of_bears hd, Cx.need_of_bears hd]
    rw [hmap]
    simp only [hplaces]
    exact if_congr hall rfl rfl

theorem execWaitv_holds (h : Issues s o c) (hr : WaitvReads o m c p fl) (hall : ∀ l ∈ c.lanes, waitvHolds o m c p l = true) :
    ∃ t, execWaitv o m s = .next t ∧ afterIs c t (c.g.orFlags fl) ∧ SameMemory s t := by
  obtain rfl := issues_view h
  have hquiet := quiet_noteAll c (c.put (c.g.orFlags fl)) (landedAt p c.lanes) m.ty.size
    { strong := true, acq := m.ord % 2 == 1, scope := c.actScope m.scope }
  exact ⟨_, word_of_issues h ((waitvBody_eq hr).trans (if_pos hall)), afterIs_advance ((hquiet.after c).trans (after_put_of_issues h rfl rfl)) rfl,
    sameMemory_of_rd hquiet.rd⟩

theorem execWaitv_waits (h : Issues s o c) (hr : WaitvReads o m c p fl) (hnot : ∃ l ∈ c.lanes, waitvHolds o m c p l = false) :
    execWaitv o m s = .next (enterWait c s .waitv) := by
  refine word_wait h ((waitvBody_eq hr).trans (if_neg fun hall => ?_))
  obtain ⟨l, hl, hfalse⟩ := hnot
  rw [hall l hl] at hfalse
  exact Bool.noConfusion hfalse

/-! ## fence (R151) -/

/-- The state a fence leaves: clocks have joined, and ownership has ended where it releases to the system. -/
def fenced (c : Cx) (x : ModX) (s : State) : State :=
  let scope := c.actScope (x.f 38 36)
  let s := withRace s c.u.key fun r => r.fence c.u.key c.g.gid (dieMates c.s c.u scope) (x.f 40 39 % 2 == 1) (2 ≤ x.f 40 39) scope
  if 2 ≤ x.f 40 39 && 3 ≤ scope then endOwnership s c.u.key else s

theorem quiet_fenced (c : Cx) (x : ModX) (s : State) : Quiet s (fenced c x s) :=
  quiet_ite ((quiet_withRace ..).trans (quiet_endOwnership ..)) (quiet_withRace ..)

theorem execFence_next (h : Issues s o c) (hdrain : Drained s c) (hfl : c.sysScope true (x.f 38 36) = .ok fl) :
    execFence o x s = .next (advance c (fenced c x (c.put (c.g.orFlags fl)))) := by
  obtain rfl := issues_view h
  refine word_of_issues h ?_
  simp only [bind, Except.bind, Cx.drain_ok hdrain, hfl]
  rfl

/-! ## sigdec (R181) -/

theorem signalDown_eq {old n : Nat} {fail : Bool} (hold : old < 2 ^ 64) :
    signalDown old n fail = (old % 2 ^ 63 - n) + if old % 2 ^ 63 < n ∨ fail = true ∨ 2 ^ 63 ≤ old then 2 ^ 63 else 0 := by
  have hbit : old.testBit 63 = true ↔ 2 ^ 63 ≤ old := by
    rw [Nat.testBit_eq_decide_div_mod_eq, decide_eq_true_iff]
    omega
  have hcount : (if old % 2 ^ 63 < n then 0 else old % 2 ^ 63 - n) = old % 2 ^ 63 - n := by
    split
    · omega
    · rfl
  rw [signalDown]
  simp only [hcount, Bool.or_eq_true, decide_eq_true_eq, hbit, or_assoc]

/-- A count and a failure bit fit a signal. -/
theorem signal_lt (old n : Nat) (q : Prop) [Decidable q] : old % 2 ^ 63 - n + (if q then 2 ^ 63 else 0) < 2 ^ 64 := by
  split <;> omega

theorem Cx.amount_ok (hn : if x.f 39 39 = 1 then Bears c o.b 2 [.i64] else Bears c o.b 1 [.i32]) :
    c.amount o x = .ok (if x.f 39 39 = 1 then c.val o.b 2 c.l0 else if o.b = .z then o.imm else c.val o.b 1 c.l0) := by
  unfold Cx.amount
  by_cases hwide : x.f 39 39 = 1
  · rw [if_pos hwide] at hn
    rw [if_pos hwide, if_pos hwide, Cx.need_of_bears hn]
    rfl
  · rw [if_neg hwide] at hn
    rw [if_neg hwide, if_neg hwide, Cx.scalarOrImm_ok hn]

theorem execSigdec_next (h : Issues s o c) (hdrain : Drained s c) (ha : BearsBase c o.a false) (hn : c.amount o x = .ok n)
    (hfl : c.sysScope true (x.f 38 36) = .ok fl)
    (hl : Lands c o.a false (fun _ => 0) 8 8 { write := true, strong := true, rel := true, rmw := true, scope := c.actScope (x.f 38 36) } true
      [c.l0] (fun _ => q)) (hq : noAtomic q = false) (hplain : PlainAt s c.u.ctx q) :
    ∃ t, execSigdec o x s = .next (advance c t)
      ∧ Quiet ((c.put (c.g.orFlags fl)).wrN q.sp q.a 8 (signalDown (s.rdN q.sp q.a 8) n (x.f 40 40 == 1))) t := by
  obtain rfl := issues_view h
  obtain ⟨_, hbase⟩ := Cx.needBase_ok ha
  obtain ⟨sp, hcheck, hland, hthere⟩ := hl c.l0 (List.mem_singleton_self _)
  have hplaces : c.placesPrecise [(c.l0, sp)] 8 true true = .ok [(c.l0, q)] :=
    placesPrecise_ok (ps := [(c.l0, q)]) (landAll_ok (ls := [c.l0]) (p := fun _ => q) (sp := fun _ => sp) fun l hl => List.mem_singleton.1 hl ▸ hland)
      (noHole_ok (ls := [c.l0]) (p := fun _ => q) fun _ _ => hthere)
  have hload : (c.put (c.g.orFlags fl)).load c.u.core q.sp q.a 8 = c.s.rdN q.sp q.a 8 := if_neg (by have := hplain.1; omega)
  have hstore := store_plain (s := c.put (c.g.orFlags fl)) (hplain.congr rfl) c.u.core 8 (signalDown (c.s.rdN q.sp q.a 8) n (x.f 40 40 == 1))
  refine ⟨_, word_of_issues h (b := c.noteAll _ [(c.l0, q)] 8
    { write := true, strong := true, rel := true, rmw := true, scope := c.actScope (x.f 38 36) }) ?_, quiet_noteAll ..⟩
  simp only [bind, Except.bind, Cx.drain_ok hdrain, hbase, hn, hfl, hcheck, hplaces, hq, Bool.false_eq_true, if_false, hload, hstore]
  rfl

end Sys2Proof.Machine

section
open Sys2Proof Sys2Proof.Machine Sys2Proof.Claims

/-- Settles O23: the comparisons of a waitv decide, and the others change clocks at most. -/
theorem waitsAndFences : Obligations.WaitsAndFences := by
  unfold Obligations.WaitsAndFences
  intro s o m x c p fl h
  refine ⟨fun hr => ⟨execWaitv_holds h hr, execWaitv_waits h hr⟩, fun hdrain hfl => ?_, fun hdrain => ?_, fun ha hb => ?_⟩
  · obtain rfl := issues_view h
    have hquiet := quiet_fenced c x (c.put (c.g.orFlags fl))
    exact ⟨_, execFence_next h hdrain hfl, afterIs_advance ((hquiet.after c).trans (after_put_of_issues h rfl rfl)) rfl, sameMemory_of_rd hquiet.rd⟩
  · obtain rfl := issues_view h
    refine word_of_issues h ?_
    rw [Cx.drain_ok hdrain]
    rfl
  · obtain ⟨_, hbase⟩ := Cx.needBase_ok ha
    obtain rfl := issues_view h
    refine word_of_issues h ?_
    rw [hbase, Cx.need_of_bears hb]
    rfl

/-- Settles O28: one plain place is read and written, and the new number is the signal's. -/
theorem signalDecrement : Obligations.SignalDecrement := by
  unfold Obligations.SignalDecrement
  intro s o x c p fl h hdrain ha wide n att hn hfl hl hsp hptr hatomic old
  have hplain : PlainAt s c.u.ctx p := ⟨hsp, fun hp => absurd hp (by simp [hptr])⟩
  obtain ⟨t, ht, hquiet⟩ := execSigdec_next h hdrain ha (Cx.amount_ok hn) hfl hl hatomic hplain
  obtain rfl := issues_view h
  refine ⟨_, ht, afterIs_advance ((hquiet.after c).trans ?_) rfl, fun sp hsp' a hmiss => ?_, ?_⟩
  · rw [Cx.after_of_units (State.wrN_keeps ..).1]
    exact after_put_of_issues h rfl rfl
  · exact (hquiet.rd ..).trans (rd_wrN_misses hsp hsp' (hmiss 0 (List.mem_singleton_self _)) _)
  · have hold := c.s.rdN_lt p.sp p.a 8
    rw [State.rdN_congr (t := advance c t) fun i _ => hquiet.rd .., rdN_wrN_same, signalDown_eq hold]
    simp only [beq_iff_eq]
    exact Nat.mod_eq_of_lt (signal_lt ..)

end
end

section
/-! PROOFS. Records of the K2 in a function's reply ring touch host memory and the functions alone (R377 to R379). -/

namespace Sys2Proof.Machine
open Sys2Proof.Claims

variable {s t r : State}

/-- A state that differs from another in host memory, in marks of memory and in functions alone. -/
def Recorded (s t : State) : Prop :=
  ∃ h m k r fs, t = { s with host := h, marks := m, badCrc := k, relMem := r, funcs := fs }

theorem Recorded.refl (s : State) : Recorded s s := ⟨s.host, s.marks, s.badCrc, s.relMem, s.funcs, rfl⟩

theorem Recorded.trans (h : Recorded s t) (h' : Recorded t r) : Recorded s r := by
  obtain ⟨_, _, _, _, _, rfl⟩ := h
  obtain ⟨h, m, k, r, fs, rfl⟩ := h'
  exact ⟨h, m, k, r, fs, rfl⟩

theorem recorded_modFunc (s : State) (fn : Nat) (f : Func → Func) : Recorded s (s.modFunc fn f) :=
  ⟨s.host, s.marks, s.badCrc, s.relMem, _, rfl⟩

theorem recorded_wr (s : State) (a : Nat) (b : Byte) : Recorded s (s.wr 2 a b) :=
  ⟨_, _, _, _, s.funcs, rfl⟩

theorem recorded_ringWrite (s : State) (va size pos : Nat) (bs : List Byte) : Recorded s (ringWrite s va size pos bs) := by
  induction bs generalizing s pos with
  | nil => exact .refl s
  | cons b bs ih => exact (recorded_wr ..).trans (ih ..)

theorem recorded_ringPump (s : State) (fn n : Nat) : Recorded s (ringPump s fn n) := by
  induction n generalizing s with
  | zero => exact .refl s
  | succ n ih =>
    unfold ringPump
    simp only
    split
    · exact .refl s
    · split
      · exact .refl s
      · exact (recorded_ringWrite ..).trans ((recorded_modFunc ..).trans (ih _))

theorem recorded_sendRecord (s : State) (fn : Nat) (bs : List Byte) : Recorded s (sendRecord s fn bs) :=
  (recorded_modFunc ..).trans (recorded_ringPump ..)

theorem recorded_sendAgent (s : State) (fn svc : Nat) (h : Handle) : Recorded s (sendAgent s fn svc h) :=
  (recorded_modFunc ..).trans (recorded_sendRecord ..)

theorem recorded_agentRequest (s : State) (u : Unit) (svc : Nat) : Recorded s (agentRequest s u svc) := by
  unfold agentRequest
  simp only
  split
  · exact .refl s
  · split
    · exact (recorded_modFunc ..).trans (recorded_sendAgent ..)
    · split
      · exact recorded_sendAgent ..
      · exact .refl s

theorem Recorded.units (h : Recorded s t) : t.units = s.units := by
  obtain ⟨_, _, _, _, _, rfl⟩ := h
  rfl

/-! ## scall (R206, R357) -/

variable {o : Op} {x : ModX} {c : Cx} {p : Place} {i : Nat}

theorem after_modCore (c : Cx) (s : State) (n : Nat) (f : Core → Core) : c.after (s.modCore n f) = c.after s := rfl

theorem Cx.after_callEdge (c : Cx) (s : State) : c.after (c.callEdge s) = c.after s := by
  unfold Cx.callEdge
  split
  · rfl
  · exact (after_withRace ..).trans (after_modCore ..)

/-- The group of an scall. -/
def callingGroup (c : Cx) : Group := { c.g with scall := true, epc := (c.pc + 12) &&& 0x00FFFFFFFFFFFFFC, trapPc := c.pc, trapped := true }

/-- The state in which an scall waits, but for what its access and its service leave. -/
def calledState (c : Cx) (o : Op) (p : Place) : State :=
  (c.callEdge (c.put (callingGroup c))).modCore c.u.core fun k => mailPost k
    (mailBytes 2 c.g.slot c.g.gid (o.imm % 65536) c.u.ctx c.u.key.fn c.u.key.idx c.g.cause.toNat (callingGroup c).epc.toNat
      (frecVA c.s c.u c.g.gid).toNat 0 (c.request p))

theorem after_calledState (h : Issues c.s o c) (p : Place) : c.after (calledState c o p) = some (callingGroup c) := by
  rw [calledState, after_modCore, Cx.after_callEdge]
  exact after_put_of_issues h rfl rfl

/-- An scall with a free mailbox entry posts its request and waits. -/
theorem execScall_waits (h : Issues c.s o c) (hdrain : Drained c.s c) (ha : BearsBase c o.a false)
    (hl : Lands c o.a false (fun _ => 0) 64 64 {} true [c.l0] (fun _ => p)) (hfree : mailFree? (c.s.core c.u.core) = some i) :
    execScall o x c.s = .next (enterWait c (agentRequest (c.noteAll (calledState c o p) [(c.l0, p)] 64 {}) c.u (o.imm % 65536)) .scall) := by
  obtain ⟨_, hbase⟩ := Cx.needBase_ok ha
  obtain ⟨sp, hcheck, hland, hthere⟩ := hl c.l0 (List.mem_singleton_self _)
  have hplaces : c.placesPrecise [(c.l0, sp)] 64 false true = .ok [(c.l0, p)] :=
    placesPrecise_ok (ps := [(c.l0, p)]) (landAll_ok (ls := [c.l0]) (p := fun _ => p) (sp := fun _ => sp) fun l hl => List.mem_singleton.1 hl ▸ hland)
      (noHole_ok (ls := [c.l0]) (p := fun _ => p) fun _ _ => hthere)
  obtain ⟨-, hview, hex⟩ := h
  unfold execScall word
  rw [hview]
  simp only [hex, bind, Except.bind, Cx.drain_ok hdrain, hbase, hcheck, hplaces, hfree, Option.isNone_some]
  rfl

/-- Where an entry waits that has issued, it has no age, and the others stand as they stood (R227). -/
theorem ents_enterWait {w : Wait} (hw : w.stalls = false) (c : Cx) (t : State) :
    (c.after (enterWait c t w)).map Group.ents
      = (c.after t).map fun g => g.ents.set c.iss.ent { c.e with wait := w, age := 0, agedAt := 0 } := by
  have hafter : c.after (enterWait c t w) = _ := after_modGrp _ fun g hlive hgid => ⟨hlive, hgid⟩
  rw [hafter, Option.map_map, hw]
  rfl

/-- The group of an scall that waits has its entry without an age (R227). -/
theorem after_scall (h : Issues c.s o c) (hdrain : Drained c.s c) (ha : BearsBase c o.a false)
    (hl : Lands c o.a false (fun _ => 0) 64 64 {} true [c.l0] (fun _ => p)) (hfree : mailFree? (c.s.core c.u.core) = some i)
    (ht : execScall o x c.s = .next t) :
    (c.after t).map Group.ents = some (c.g.ents.set c.iss.ent { c.e with wait := .scall, age := 0, agedAt := 0 }) := by
  obtain rfl := Host.Outcome.next.inj ((execScall_waits h hdrain ha hl hfree).symm.trans ht)
  rw [ents_enterWait rfl, Cx.after_of_units (recorded_agentRequest ..).units, (quiet_noteAll ..).after,
    after_calledState h]
  rfl

end Sys2Proof.Machine

namespace Sys2Proof.Counter
open Sys2Proof.Machine Sys2Proof.Claims Sys2Proof.Tests

def calling : State := aged (withGroup { smallGroup with s := [(8, 0x1FFFC0)], st := [(8, .i64), (9, .i64)] })

def callOp : Op := opX 0 (.v 0) (.s 8)

/-- Where the request record lies. -/
def callPlace : Place := placeAt (seen calling) (.s 8) false (fun _ => 0) 64 64 {} true 0

theorem calling_issues : Issues calling callOp (seen calling) := issues_seen (by decide +kernel)

theorem calling_lands : Lands (seen calling) (.s 8) false (fun _ => 0) 64 64 {} true [(seen calling).l0] (fun _ => callPlace) := by
  have hplaced : (placeOf? (seen calling) (.s 8) false 0 64 64 {} true 0).isSome = true := by decide +kernel
  rw [show (seen calling).l0 = 0 by decide +kernel]
  intro l hl
  obtain rfl := List.mem_singleton.1 hl
  exact lands_at (c := seen calling) (base := .s 8) (vault := false) (off := fun _ => 0) (n := 64) (align := 64) (att := {}) (reads := true)
    (ls := [0]) (by simpa using hplaced) 0 (List.mem_singleton_self 0)

/-- The issuing entry has an age, and is in its place. -/
theorem calling_aged : ((seen calling).g.ents.set (seen calling).iss.ent { (seen calling).e with wait := .scall }).map Entry.age = [1]
    ∧ ((seen calling).g.ents.set (seen calling).iss.ent { (seen calling).e with wait := .scall, age := 0, agedAt := 0 }).map Entry.age = [0] := by
  decide +kernel

end Sys2Proof.Counter

section
open Sys2Proof Sys2Proof.Machine Sys2Proof.Claims Sys2Proof.Tests Sys2Proof.Counter

/-- Refutes O39: the statement keeps the age of the entry whose scall waits, but an entry that has issued has no AGE (R227): one whose age
was 1 waits with age 0. -/
theorem not_systemInstructions : ¬ Obligations.SystemInstructions := by
  unfold Obligations.SystemInstructions
  intro h
  have hdrain : Drained calling (seen calling) := by
    unfold Drained
    decide +kernel
  have ha : BearsBase (seen calling) callOp.a false := by
    unfold BearsBase Bears
    decide +kernel
  have hfree : mailFree? (calling.core (seen calling).u.core) = some 0 := by decide +kernel
  have hsees := issues_view calling_issues
  obtain ⟨-, -, -, -, -, -, -, hcall⟩ := h calling callOp { bits := 0 } (seen calling) callPlace calling_issues
  obtain ⟨t, g, ht, hafter, -, -, -, -, hents, -⟩ := (hcall hdrain ha calling_lands (by decide +kernel)).2 0 hfree
  have hwaits := after_scall (x := { bits := 0 }) (hsees.symm ▸ calling_issues) (hsees.symm ▸ hdrain) ha calling_lands (hsees.symm ▸ hfree)
    (hsees.symm ▸ ht)
  obtain ⟨hkept, hcleared⟩ := calling_aged
  rw [hafter, Option.map_some, hents, Option.some.injEq] at hwaits
  rw [hwaits, hcleared] at hkept
  exact absurd hkept (by decide)

end
end

section
/-! PROOFS. Numbers in byte tables: fault records and mailbox entries (R356, R364). -/

namespace Sys2Proof.Machine
open Sys2Proof.Claims

variable {t u : Sparse Byte} {n v off o m k : Nat} {bs xs ys : List Byte}

@[simp] theorem bytesOfNat_length (n v : Nat) : (bytesOfNat n v).length = n := by
  induction n generalizing v with
  | zero => rfl
  | succ n ih => rw [bytesOfNat, List.length_cons, ih]

theorem natOfBytes_bytesOfNat (n v : Nat) : natOfBytes (bytesOfNat n v) = v % 2 ^ (8 * n) := by
  induction n generalizing v with
  | zero => rw [Nat.mul_zero, Nat.pow_zero, Nat.mod_one, bytesOfNat, natOfBytes]
  | succ n ih =>
    rw [bytesOfNat, natOfBytes, ih, BitVec.toNat_ofNat, show 8 * (n + 1) = 8 + 8 * n by omega, pow_add, Nat.mod_mul]
    rfl

/-! ## Tables -/

theorem getList_setList (k : Nat) (bs : List Byte) : Sparse.getList 0 (Sparse.setList 0 t k bs) k bs.length = bs := by
  refine List.ext_getElem (by simp [Sparse.getList]) fun i hi _ => ?_
  have hi : i < bs.length := by simpa [Sparse.getList] using hi
  simp [Sparse.getList, Sparse.get_setList, hi]

theorem getBytes_congr (h : ∀ i < n, Sparse.get 0 u (off + i) = Sparse.get 0 t (off + i)) : getBytes u off n = getBytes t off n := by
  unfold getBytes Sparse.getList
  exact congrArg natOfBytes (List.map_congr_left fun i hi => h i (List.mem_range.1 hi))

theorem get_setList_outside (h : o < k ∨ k + bs.length ≤ o) : Sparse.get 0 (Sparse.setList 0 t k bs) o = Sparse.get 0 t o := by
  rw [Sparse.get_setList]
  split
  · rw [List.getElem?_eq_none (by omega)]
    rfl
  · rfl

@[simp] theorem getBytes_putBytes_same (t : Sparse Byte) (off n v : Nat) : getBytes (putBytes t off n v) off n = v % 2 ^ (8 * n) := by
  have hlist := getList_setList (t := t) off (bytesOfNat n v)
  rw [bytesOfNat_length] at hlist
  rw [getBytes, putBytes, hlist, natOfBytes_bytesOfNat]

theorem getBytes_putBytes_apart (h : o + m ≤ off ∨ off + n ≤ o) : getBytes (putBytes t off n v) o m = getBytes t o m :=
  getBytes_congr fun i hi => get_setList_outside (by rw [bytesOfNat_length]; omega)

theorem getBytes_setList_outside (h : o + m ≤ k ∨ k + bs.length ≤ o) : getBytes (Sparse.setList 0 t k bs) o m = getBytes t o m :=
  getBytes_congr fun i hi => get_setList_outside (by omega)

/-- A number among bytes that are written reads as it was written. -/
theorem getBytes_setList_field (hbs : bs = xs ++ (bytesOfNat n v ++ ys)) (ho : o = k + xs.length) :
    getBytes (Sparse.setList 0 t k bs) o n = v % 2 ^ (8 * n) := by
  subst ho
  have hlist : Sparse.getList 0 (Sparse.setList 0 t k bs) (k + xs.length) n = bytesOfNat n v := by
    refine List.ext_getElem (by simp [Sparse.getList]) fun i hi _ => ?_
    have hi : i < n := by simpa [Sparse.getList] using hi
    simp only [Sparse.getList, List.getElem_map, List.getElem_range]
    rw [Sparse.get_setList, if_pos (by omega), hbs,
      show k + xs.length + i - k = xs.length + i by omega, List.getElem?_append_right (Nat.le_add_right _ _), Nat.add_sub_cancel_left,
      List.getElem?_append_left (by rw [bytesOfNat_length]; exact hi), List.getElem?_eq_getElem, Option.getD_some]
  rw [getBytes, hlist, natOfBytes_bytesOfNat]

/-! ## Fault records (R364) -/

theorem faultRec_cause (u : Unit) (g : Group) (cause epc : DWord) (word faddr : Nat) :
    getBytes (faultRec u g cause epc word faddr) 0 8 = cause.toNat := by
  simp only [faultRec]
  iterate 8 rw [getBytes_putBytes_apart (by omega)]
  rw [getBytes_putBytes_same]
  exact Nat.mod_eq_of_lt cause.isLt

theorem faultRec_epc (u : Unit) (g : Group) (cause epc : DWord) (word faddr : Nat) :
    getBytes (faultRec u g cause epc word faddr) 8 8 = epc.toNat := by
  simp only [faultRec]
  iterate 7 rw [getBytes_putBytes_apart (by omega)]
  rw [getBytes_putBytes_same]
  exact Nat.mod_eq_of_lt epc.isLt

theorem faultRec_word (u : Unit) (g : Group) (cause epc : DWord) (word faddr : Nat) :
    getBytes (faultRec u g cause epc word faddr) 16 12 = word % 2 ^ 96 := by
  simp only [faultRec]
  iterate 6 rw [getBytes_putBytes_apart (by omega)]
  rw [getBytes_putBytes_same]

theorem faultRec_faddr (u : Unit) (g : Group) (cause epc : DWord) (word : Nat) (faddr : DWord) :
    getBytes (faultRec u g cause epc word faddr.toNat) 32 8 = faddr.toNat := by
  simp only [faultRec]
  iterate 2 rw [getBytes_putBytes_apart (by omega)]
  rw [getBytes_putBytes_same]
  exact Nat.mod_eq_of_lt faddr.isLt

/-! ## The mailbox (R356, R357) -/

section
variable (kind slot gid svc ctx fn idx : Nat) (cause epc : DWord) (frec key : Nat) (rec : List Byte)

/-- What an entry of the mailbox reads once it has been posted. -/
theorem mailPost_head {c : Core} {i : Nat} (hfree : mailFree? c = some i) :
    let b := (mailPost c (mailBytes kind slot gid svc ctx fn idx cause.toNat epc.toNat frec key rec)).mbox
    getBytes b (128 * i) 4 = (1 + kind * 2 ^ 8 + slot * 2 ^ 16 + gid * 2 ^ 24) % 2 ^ 32
      ∧ getBytes b (128 * i + 24) 8 = cause.toNat ∧ getBytes b (128 * i + 32) 8 = epc.toNat := by
  have hbytes : mailBytes kind slot gid svc ctx fn idx cause.toNat epc.toNat frec key rec =
      bytesOfNat 4 (1 + kind * 2 ^ 8 + slot * 2 ^ 16 + gid * 2 ^ 24) ++ ((bytesOfNat 4 svc ++ bytesOfNat 4 ctx ++ bytesOfNat 4 fn ++ bytesOfNat 8 idx)
        ++ (bytesOfNat 8 cause.toNat ++ (bytesOfNat 8 epc.toNat ++ (bytesOfNat 8 frec ++ bytesOfNat 8 key ++ bytesOfNat 8 0
        ++ (rec ++ List.replicate 64 0).take 64)))) := by
    simp only [mailBytes, List.append_assoc]
  simp only [mailPost, hfree, hbytes]
  refine ⟨?_, ?_, ?_⟩
  · exact getBytes_setList_field (xs := []) (List.nil_append _).symm rfl
  · rw [← List.append_assoc (bytesOfNat 4 _), getBytes_setList_field rfl (by simp)]
    exact Nat.mod_eq_of_lt cause.isLt
  · rw [← List.append_assoc (bytesOfNat 4 _), ← List.append_assoc _ (bytesOfNat 8 cause.toNat), getBytes_setList_field rfl (by simp)]
    exact Nat.mod_eq_of_lt epc.isLt

end

theorem mailClear_head (c : Core) (i : Nat) : getBytes (mailClear c i).mbox (128 * i) 4 = 0 :=
  getBytes_putBytes_same c.mbox (128 * i) 4 0

end Sys2Proof.Machine
end

section
/-! PROOFS. How a fault stops a unit (R352 to R357, R363, R364). -/

namespace Sys2Proof.Machine
open Sys2Proof.Claims

variable {s t r : State} {k : UKey} {u v w : Unit} {g h : Group} {gid src : Nat}

/-! ## Changes of memory alone, and of cores alone -/

/-- A state that differs from another in memories and their marks alone. -/
def MemOnly (s t : State) : Prop :=
  ∃ h p o v m c r, t = { s with hbm := h, pool := p, host := o, vaults := v, marks := m, badCrc := c, relMem := r }

theorem MemOnly.refl (s : State) : MemOnly s s := ⟨s.hbm, s.pool, s.host, s.vaults, s.marks, s.badCrc, s.relMem, rfl⟩

theorem MemOnly.trans (h : MemOnly s t) (h' : MemOnly t r) : MemOnly s r := by
  obtain ⟨_, _, _, _, _, _, _, rfl⟩ := h
  obtain ⟨h, p, o, v, m, c, r, rfl⟩ := h'
  exact ⟨h, p, o, v, m, c, r, rfl⟩

theorem MemOnly.units (h : MemOnly s t) : t.units = s.units := by
  obtain ⟨_, _, _, _, _, _, _, rfl⟩ := h
  rfl

theorem MemOnly.cores (h : MemOnly s t) : t.cores = s.cores := by
  obtain ⟨_, _, _, _, _, _, _, rfl⟩ := h
  rfl

theorem memOnly_sysWrite (s : State) (c : Ctx) (va n v : Nat) : MemOnly s (sysWrite s c va n v) := by
  induction n generalizing s va v with
  | zero => exact .refl s
  | succ n ih =>
    rw [sysWrite]
    refine MemOnly.trans ?_ (ih ..)
    split
    · exact State.wr_cases ..
    · exact .refl s

theorem memOnly_sysWriteBytes (s : State) (c : Ctx) (va : Nat) (bs : List Byte) : MemOnly s (sysWriteBytes s c va bs) := by
  induction bs generalizing s va with
  | nil => exact .refl s
  | cons b bs ih => exact (memOnly_sysWrite ..).trans (ih ..)

theorem memOnly_mirrorRec (s : State) (k : UKey) (gid : Nat) : MemOnly s (mirrorRec s k gid) := by
  unfold mirrorRec
  split
  · exact .refl s
  · split
    · exact .refl s
    · exact memOnly_sysWriteBytes ..

/-- A state that differs from another in its cores alone. -/
def CoresOnly (s t : State) : Prop := ∃ cs, t = { s with cores := cs }

theorem CoresOnly.refl (s : State) : CoresOnly s s := ⟨s.cores, rfl⟩

theorem CoresOnly.trans (h : CoresOnly s t) (h' : CoresOnly t r) : CoresOnly s r := by
  obtain ⟨_, rfl⟩ := h
  obtain ⟨cs, rfl⟩ := h'
  exact ⟨cs, rfl⟩

theorem CoresOnly.units (h : CoresOnly s t) : t.units = s.units := by
  obtain ⟨_, rfl⟩ := h
  rfl

theorem coresOnly_setCore (s : State) (n : Nat) (c : Core) : CoresOnly s (s.setCore n c) := ⟨_, rfl⟩

theorem coresOnly_postNow (s : State) (u : Unit) (g : Group) : CoresOnly s (postNow s u g) := by
  unfold postNow
  simp only
  split
  · exact coresOnly_setCore ..
  · exact coresOnly_setCore ..

theorem coresOnly_mailPump (s : State) (n : Nat) : CoresOnly s (mailPump s n) := by
  unfold mailPump
  simp only
  split
  · split
    · exact .refl s
    · split
      · split
        · exact (coresOnly_setCore ..).trans (coresOnly_postNow ..)
        · exact coresOnly_setCore ..
      · exact coresOnly_setCore ..
  · split
    · split
      · exact .refl s
      · exact coresOnly_setCore ..
    · exact .refl s

theorem coresOnly_foldl {α : Type} {f : State → α → State} (hf : ∀ s x, CoresOnly s (f s x)) (xs : List α) (s : State) :
    CoresOnly s (xs.foldl f s) := by
  induction xs generalizing s with
  | nil => exact .refl s
  | cons x xs ih => exact (hf s x).trans (ih _)

theorem coresOnly_postSlots (s : State) (n : Nat) (slots : List Nat) : CoresOnly s (postSlots s n slots) :=
  (coresOnly_setCore ..).trans (coresOnly_foldl (fun s _ => coresOnly_mailPump s n) slots _)

theorem coresOnly_postFault (s : State) (u : Unit) (g : Group) : CoresOnly s (postFault s u g) := by
  unfold postFault
  simp only
  split
  · exact (coresOnly_setCore ..).trans (coresOnly_postSlots ..)
  · split
    · exact coresOnly_setCore ..
    · exact coresOnly_postNow ..

theorem State.core_setCore (s : State) (n : Nat) (c : Core) : (s.setCore n c).core n = c := Sparse.get_set_same

theorem State.core_congr (h : t.cores = s.cores) (n : Nat) : t.core n = s.core n := by rw [State.core, h, State.core]

theorem State.unit?_congr (h : t.units = s.units) (k : UKey) : t.unit? k = s.unit? k := by rw [State.unit?, h, State.unit?]

/-! ## Stopping groups -/

/-- A change of the groups of a number: they stay what they are and where they are, and do not run. -/
def Halts (gid : Nat) (f : Group → Group) : Prop :=
  ∀ x, x.live = true → x.gid = gid → (f x).live = true ∧ (f x).gid = gid ∧ (f x).run ≠ .running

theorem Unit.modGrp_modGrp (u : Unit) {f f' : Group → Group} (hf : ∀ x, x.live = true → x.gid = gid → (f x).live = true ∧ (f x).gid = gid) :
    (u.modGrp gid f).modGrp gid f' = u.modGrp gid fun x => f' (f x) := by
  simp only [Unit.modGrp, List.map_map]
  congr 1
  refine List.map_congr_left fun x _ => ?_
  simp only [Function.comp]
  by_cases hx : (x.live && x.gid == gid) = true
  · have hlive : x.live = true ∧ x.gid = gid := by simpa using hx
    obtain ⟨hlive', hgid'⟩ := hf x hlive.1 hlive.2
    simp [hx, hlive', hgid']
  · simp [hx]

theorem State.modGrp_modGrp (s : State) (k : UKey) {f f' : Group → Group}
    (hf : ∀ x, x.live = true → x.gid = gid → (f x).live = true ∧ (f x).gid = gid) :
    (s.modGrp k gid f).modGrp k gid f' = s.modGrp k gid fun x => f' (f x) := by
  simp only [State.modGrp, State.modUnit, List.map_map]
  congr 1
  refine List.map_congr_left fun x _ => ?_
  simp only [Function.comp]
  by_cases hx : (x.key == k) = true
  · have hkey : ((x.modGrp gid f).key == k) = true := hx
    simp [hx, hkey, Unit.modGrp_modGrp x hf]
  · simp [hx]

/-- What a stop of a sibling leaves: the groups of its number stopped, and its record. -/
theorem stopSibling_cases (s : State) (k : UKey) (gid src : Nat) :
    stopSibling s k gid src = s
      ∨ ∃ h : Group, (h.live = true ∧ h.gid = gid ∧ h.run = .stopped) ∧ MemOnly (s.modGrp k gid fun _ => h) (stopSibling s k gid src) := by
  unfold stopSibling
  split
  · exact .inl rfl
  · split
    · exact .inl rfl
    · next hg =>
      obtain ⟨hlive, hgid⟩ := Unit.grp?_live hg
      simp only
      split
      · refine .inr ⟨_, ?_, .refl _⟩
        exact ⟨hlive, hgid, rfl⟩
      · refine .inr ⟨_, ?_, memOnly_mirrorRec ..⟩
        exact ⟨hlive, hgid, rfl⟩

/-- A group that may run on within the skid bound (R353). -/
def Group.skids (src : Nat) (g : Group) : Group := { g with run := .skid 16 src }

theorem haltSibling_eq (s : State) (k : UKey) (src : Nat) (hrun : g.run = .running) (hlive : g.live = true) :
    haltSibling s k src g = if g.allWait then stopSibling (s.modGrp k g.gid (Group.skids src)) k g.gid src
      else (s.modGrp k g.gid (Group.skids src)).due (.sibhalt k g.gid) := by
  unfold haltSibling
  rw [if_neg (by simp [hrun, hlive])]
  rfl

/-- Telling a running sibling to stop leaves no group of its number running. -/
theorem haltSibling_halts (s : State) (k : UKey) (src : Nat) (hrun : g.run = .running) (hlive : g.live = true) :
    (haltSibling s k src g).cores = s.cores ∧ ∃ f, Halts g.gid f ∧ (haltSibling s k src g).units = (s.modGrp k g.gid f).units := by
  have hskid : Halts g.gid (Group.skids src) := fun x hx hgid => ⟨hx, hgid, by simp [Group.skids]⟩
  rw [haltSibling_eq s k src hrun hlive]
  split
  · obtain hsame | ⟨h, ⟨hl, hn, hstop⟩, hmem⟩ := stopSibling_cases (s.modGrp k g.gid (Group.skids src)) k g.gid src
    · rw [hsame]
      exact ⟨rfl, _, hskid, rfl⟩
    · refine ⟨hmem.cores, fun _ => h, fun _ _ _ => ⟨hl, hn, by simp [hstop]⟩, hmem.units.trans ?_⟩
      rw [State.modGrp_modGrp s k (f := Group.skids src) (f' := fun _ => h) fun x hx hgid => ⟨hx, hgid⟩]
  · unfold State.due
    split <;> exact ⟨rfl, _, hskid, rfl⟩

/-- From a unit to another in which some of its groups have stopped. -/
structure Stopping (p : Nat → Prop) (u v : Unit) : Prop where
  halted : v.halted = u.halted
  others : ∀ n, ¬ p n → v.grp? n = u.grp? n
  running : ∀ h ∈ v.grps, h.live = true → h.run = .running → h ∈ u.grps ∧ ¬ p h.gid

theorem Stopping.refl (u : Unit) : Stopping (fun _ => False) u u := ⟨rfl, fun _ _ => rfl, fun _ hh _ _ => ⟨hh, id⟩⟩

theorem Stopping.trans {p q : Nat → Prop} (h : Stopping p u v) (h' : Stopping q v w) : Stopping (fun n => p n ∨ q n) u w := by
  refine ⟨h'.halted.trans h.halted, fun n hn => ?_, fun x hx hlive hrun => ?_⟩
  · rw [h'.others n (mt .inr hn), h.others n (mt .inl hn)]
  · obtain ⟨hmem, hq⟩ := h'.running x hx hlive hrun
    obtain ⟨hmem, hp⟩ := h.running x hmem hlive hrun
    exact ⟨hmem, fun hor => hor.elim hp hq⟩

theorem stopping_modGrp (u : Unit) {f : Group → Group} (hf : Halts gid f) : Stopping (· = gid) u (u.modGrp gid f) := by
  refine ⟨rfl, fun n hn => ?_, fun x hx hlive hrun => ?_⟩
  · refine find?_map_other (fun x : Group => x.live && x.gid == gid) (fun x : Group => x.live && x.gid == n) f (fun x hx => ?_) u.grps
    have hx' : x.live = true ∧ x.gid = gid := by simpa using hx
    obtain ⟨hlive, hgid, -⟩ := hf x hx'.1 hx'.2
    simp [hx'.2, hgid, Ne.symm hn]
  · obtain ⟨y, hy, rfl⟩ := List.mem_map.1 hx
    by_cases hlive' : (y.live && y.gid == gid) = true
    · rw [if_pos hlive'] at hrun
      have hy' : y.live = true ∧ y.gid = gid := by simpa using hlive'
      exact absurd hrun (hf y hy'.1 hy'.2).2.2
    · rw [if_neg hlive'] at hlive ⊢
      exact ⟨hy, fun hgid => hlive' (by simp [hlive, hgid])⟩

/-- The numbers of the groups that a broadcast of a halt stops. -/
def runningIn (gs : List Group) (n : Nat) : Prop := ∃ x ∈ gs, x.live = true ∧ x.run = .running ∧ x.gid = n

theorem haltSiblings_stop {s : State} {u : Unit} (k : UKey) (src : Nat) (gs : List Group) (hu : s.unit? k = some u) :
    (gs.foldl (fun s g => haltSibling s k src g) s).cores = s.cores
      ∧ ∃ v, (gs.foldl (fun s g => haltSibling s k src g) s).unit? k = some v ∧ Stopping (runningIn gs) u v := by
  induction gs generalizing s u with
  | nil => exact ⟨rfl, u, hu, rfl, fun _ _ => rfl, fun h hh _ _ => ⟨hh, fun ⟨_, hx, _⟩ => nomatch hx⟩⟩
  | cons g gs ih =>
    rw [List.foldl_cons]
    by_cases hg : g.live = true ∧ g.run = .running
    · obtain ⟨hlive, hrun⟩ := hg
      obtain ⟨hcores, f, hf, hunits⟩ := haltSibling_halts s k src hrun hlive
      have hstep : (haltSibling s k src g).unit? k = some (u.modGrp g.gid f) := by
        rw [State.unit?_congr hunits, State.unit?_modGrp, hu, Option.map_some]
      obtain ⟨hcores', v, hv, hstop⟩ := ih hstep
      refine ⟨hcores'.trans hcores, v, hv, ?_⟩
      convert (stopping_modGrp u hf).trans hstop using 1
      funext n
      simp only [runningIn, List.exists_mem_cons_iff, hlive, hrun, true_and, eq_comm]
    · have hskip : haltSibling s k src g = s := by
        refine if_pos ?_
        by_contra hne
        exact hg (by simpa [and_comm] using hne)
      rw [hskip]
      obtain ⟨hcores, v, hv, hstop⟩ := ih hu
      refine ⟨hcores, v, hv, ?_⟩
      convert hstop using 1
      funext n
      have hnot : ¬ (g.live = true ∧ g.run = .running ∧ g.gid = n) := fun hall => hg ⟨hall.1, hall.2.1⟩
      simp only [runningIn, List.exists_mem_cons_iff, hnot, false_or]

/-! ## Taking a fault -/

/-- The group that takes a fault, without the siblings' records (R352, R363, R364). -/
def faulted (s : State) (u : Unit) (g : Group) (word : Nat) (pc : DWord) (t : Trap) : Group :=
  let epc := t.epc.getD pc &&& 0x00FFFFFFFFFFFFFC
  let g' := { g with cause := causeWord t, epc := epc, run := .stopped, fault := true, trapped := true, skidN := 0, trapPc := t.epc.getD pc,
                     after := false }
  { g' with frec := faultRec u g' (causeWord t) epc (if t.epc.isNone then word else peekWord s u epc) t.faddr.toNat }

/-- The state in which a fault is posted: the group has stopped, and its siblings have been told. -/
theorem takeFault_eq {word : Nat} {pc : DWord} {t : Trap} (hu : s.unit? k = some u) (hg : u.grp? g.gid = some g) (hk : isSuper k = false)
    (hrun : g.run = .running) (hfr : g.frcnt.toNat % 16 = 0) :
    takeFault s k g.gid word pc t = postFault (broadcastHalt
      (mirrorRec (s.modUnit k fun v => { v.modGrp g.gid (fun _ => faulted s u g word pc t) with halted := true }) k g.gid) u g.slot g.gid)
      { u with halted := true } (faulted s u g word pc t) := by
  unfold takeFault
  rw [hu]
  simp only [hg, hrun, keepSeconds, hfr, hk, if_true, Bool.false_eq_true, if_false, id]
  rfl

/-- No group of the unit runs once a fault has been taken, and the group that took it stands as it was stopped. -/
theorem takeFault_stops {word : Nat} {pc : DWord} {t : Trap} (hu : s.unit? k = some u) (hg : u.grp? g.gid = some g) (hk : isSuper k = false)
    (hrun : g.run = .running) (hfr : g.frcnt.toNat % 16 = 0) :
    ∃ r v, takeFault s k g.gid word pc t = postFault r { u with halted := true } (faulted s u g word pc t) ∧ r.cores = s.cores
      ∧ r.unit? k = some v ∧ v.halted = true ∧ v.grp? g.gid = some (faulted s u g word pc t)
      ∧ ∀ h ∈ v.grps, h.live = true → h.run ≠ .running := by
  obtain ⟨hlive, -⟩ := Unit.grp?_live hg
  have hmem := memOnly_mirrorRec (s.modUnit k fun v => { v.modGrp g.gid (fun _ => faulted s u g word pc t) with halted := true }) k g.gid
  have hunit : (mirrorRec (s.modUnit k fun v => { v.modGrp g.gid (fun _ => faulted s u g word pc t) with halted := true }) k g.gid).unit? k
      = some { u.modGrp g.gid (fun _ => faulted s u g word pc t) with halted := true } := by
    rw [State.unit?_congr hmem.units]
    exact unit?_modUnit_of hu (fun v => { v.modGrp g.gid (fun _ => faulted s u g word pc t) with halted := true }) fun _ hv => hv
  obtain ⟨hcores, v, hv, hstop⟩ := haltSiblings_stop k g.slot (u.grps.filter fun x => x.live && x.gid != g.gid) hunit
  have hkey := State.unit?_key hu
  refine ⟨_, v, takeFault_eq hu hg hk hrun hfr, ?_, ?_, hstop.halted, ?_, fun h hh hl hr => ?_⟩
  · rw [broadcastHalt, hkey]
    exact hcores.trans hmem.cores
  · rw [broadcastHalt, hkey]
    exact hv
  · rw [hstop.others g.gid ?_]
    · refine (Unit.grp?_modGrp (u := u) (n := g.gid) (fun _ => faulted s u g word pc t) fun _ _ _ => ⟨hlive, rfl⟩).trans ?_
      rw [hg, Option.map_some]
    · rintro ⟨x, hx, -, -, hgid⟩
      simp [hgid] at hx
  · obtain ⟨hin, hnot⟩ := hstop.running h hh hl hr
    obtain ⟨x, hx, rfl⟩ := List.mem_map.1 hin
    by_cases hsame : (x.live && x.gid == g.gid) = true
    · rw [if_pos hsame] at hr
      exact absurd hr (by simp [faulted])
    · rw [if_neg hsame] at hl hr hnot
      exact hnot ⟨x, List.mem_filter.2 ⟨hx, by simpa [hl] using hsame⟩, hl, hr, rfl⟩

theorem faulted_frec (s : State) (u : Unit) (g : Group) (word : Nat) (pc : DWord) (t : Trap) :
    let f := faulted s u g word pc t
    getBytes f.frec 0 8 = f.cause.toNat ∧ getBytes f.frec 8 8 = f.epc.toNat ∧ getBytes f.frec 32 8 = t.faddr.toNat
      ∧ (t.epc = none → getBytes f.frec 16 12 = word % 2 ^ 96) := by
  refine ⟨faultRec_cause .., faultRec_epc .., faultRec_faddr .., fun hepc => ?_⟩
  refine (faultRec_word ..).trans ?_
  rw [hepc]
  rfl

/-! ## Posting a fault -/

/-- A fault of no held pair goes into a free entry, or its slot lines up. -/
theorem postFault_now (hhold : ((s.core u.core).hold.find? fun x => x / 16 == g.slot / 16) = none)
    (hpicked : ∀ x ∈ (s.core u.core).picked, x.1 ≠ g.slot / 16) : postFault s u g = postNow s u g := by
  have hmid : (s.core u.core).midCycle g.slot = false := by simpa [Core.midCycle] using hpicked
  unfold postFault
  simp only [hhold, hmid]
  rfl

theorem postNow_free {i : Nat} (hfree : mailFree? (s.core u.core) = some i) :
    (postNow s u g).core u.core = mailPost (s.core u.core) (mailBytes 1 g.slot g.gid 0 u.ctx u.key.fn u.key.idx g.cause.toNat g.epc.toNat
      (frecVA s u g.gid).toNat 0 []) := by
  unfold postNow
  simp only [hfree, Option.isSome_some, if_true]
  exact State.core_setCore ..

theorem postNow_full (hfull : mailFree? (s.core u.core) = none) :
    ((postNow s u g).core u.core).mwait = (s.core u.core).mwait ++ [g.slot] := by
  unfold postNow
  simp only [hfull, Option.isSome_none, Bool.false_eq_true, if_false, State.core_setCore]

/-- The first fault of a cycle whose second group has still to issue is held. -/
theorem postFault_holds (hhold : ((s.core u.core).hold.find? fun x => x / 16 == g.slot / 16) = none)
    (hpicked : ∃ x ∈ (s.core u.core).picked, x.1 = g.slot / 16) :
    ((postFault s u g).core u.core).hold = (s.core u.core).hold ++ [g.slot] := by
  have hmid : (s.core u.core).midCycle g.slot = true := by simpa [Core.midCycle] using hpicked
  unfold postFault
  simp only [hhold, hmid, if_true, State.core_setCore]

theorem mailPump_full {n : Nat} (hfull : mailFree? (s.core n) = none) (hwait : (s.core n).mwait ≠ []) : mailPump s n = s := by
  unfold mailPump
  simp only
  split
  · rw [if_pos (by rw [hfull]; rfl)]
  · next hnil => exact absurd hnil hwait

theorem postSlots_full {n : Nat} {slots : List Nat} (hfull : mailFree? (s.core n) = none) (hslots : slots ≠ []) :
    ((postSlots s n slots).core n).mwait = (s.core n).mwait ++ slots := by
  have hcore : (s.modCore n fun c => { c with mwait := c.mwait ++ slots }).core n = { s.core n with mwait := (s.core n).mwait ++ slots } :=
    State.core_setCore ..
  have hpump : mailPump (s.modCore n fun c => { c with mwait := c.mwait ++ slots }) n = s.modCore n fun c => { c with mwait := c.mwait ++ slots } :=
    mailPump_full (by rw [hcore]; exact hfull) (by rw [hcore]; simp [hslots])
  have hfold : ∀ (xs : List Nat) (r : State), mailPump r n = r → xs.foldl (fun s _ => mailPump s n) r = r := fun xs r hr => by
    induction xs with
    | nil => rfl
    | cons x xs ih => rw [List.foldl_cons, hr, ih]
  rw [postSlots, hfold slots _ hpump, hcore]

/-- Of two faults of a cycle, both line up in slot order where no entry is free. -/
theorem postFault_pair {x : Nat} (hhold : ((s.core u.core).hold.find? fun x => x / 16 == g.slot / 16) = some x)
    (hfull : mailFree? (s.core u.core) = none) :
    ((postFault s u g).core u.core).mwait = (s.core u.core).mwait ++ [min x g.slot, max x g.slot] := by
  unfold postFault
  simp only [hhold]
  rw [postSlots_full ?_ (by simp), State.core_setCore]
  rw [State.core_setCore]
  exact hfull

/-! ## A sibling's stop -/

theorem grp?_skids (hg : u.grp? g.gid = some g) (src : Nat) : (u.modGrp g.gid (Group.skids src)).grp? g.gid = some (g.skids src) := by
  rw [Unit.grp?_modGrp (Group.skids src) fun x hx hgid => ⟨hx, hgid⟩, hg, Option.map_some]

theorem unit?_skids (hu : s.unit? k = some u) (gid src : Nat) :
    (s.modGrp k gid (Group.skids src)).unit? k = some (u.modGrp gid (Group.skids src)) := by
  rw [State.unit?_modGrp, hu, Option.map_some]

theorem haltSibling_runs (hu : s.unit? k = some u) (hg : u.grp? g.gid = some g) (hrun : g.run = .running) (hmay : g.allWait = false) :
    ∃ v, (haltSibling s k src g).unit? k = some v ∧ v.grp? g.gid = some (g.skids src) ∧ .sibhalt k g.gid ∈ (haltSibling s k src g).agenda := by
  rw [haltSibling_eq s k src hrun (Unit.grp?_live hg).1, hmay]
  exact ⟨_, (State.unit?_congr (State.due_units ..) k).trans (unit?_skids hu ..), grp?_skids hg src, State.mem_agenda_due ..⟩

/-- A sibling that waits when its unit is told to halt (R353). -/
def Group.siblingStopped (src : Nat) (g : Group) : Group :=
  { g with run := .stopped, skidN := 0, after := false, cause := causeWord { code := C.SIBHALT, detail := src }, epc := g.topPc,
           cont := if g.scall then some (g.cont.getD g.epc) else none }

theorem haltSibling_waits (hu : s.unit? k = some u) (hg : u.grp? g.gid = some g) (hending : u.ending = none) (hrun : g.run = .running)
    (hwait : g.allWait = true) :
    ∃ v, (haltSibling s k src g).unit? k = some v ∧ v.grp? g.gid = some (g.siblingStopped src) := by
  obtain ⟨hlive, -⟩ := Unit.grp?_live hg
  have hstop : stopSibling (s.modGrp k g.gid (Group.skids src)) k g.gid src
      = (s.modGrp k g.gid (Group.skids src)).modGrp k g.gid fun _ => g.siblingStopped src := by
    have hending' : (u.modGrp g.gid (Group.skids src)).ending = none := hending
    unfold stopSibling
    rw [unit?_skids hu]
    simp only [grp?_skids hg, hending']
    rfl
  rw [haltSibling_eq s k src hrun hlive, if_pos hwait, hstop]
  refine ⟨(u.modGrp g.gid (Group.skids src)).modGrp g.gid fun _ => g.siblingStopped src, ?_, ?_⟩
  · rw [State.unit?_modGrp, unit?_skids hu, Option.map_some]
  · rw [Unit.grp?_modGrp (n := g.gid) (fun _ => g.siblingStopped src) fun _ _ _ => ⟨hlive, rfl⟩, grp?_skids hg, Option.map_some]

theorem allWait_eq_false_iff (g : Group) : g.allWait = false ↔ g.ents.any (fun e => !e.rjw && e.wait == .none) = true := by
  simp [Group.allWait]

end Sys2Proof.Machine

section
open Sys2Proof Sys2Proof.Machine Sys2Proof.Claims

/-- Settles O40: the state in which the fault is posted has the group stopped and its siblings told; posting it touches cores alone. -/
theorem takingAFault : Obligations.TakingAFault := by
  unfold Obligations.TakingAFault
  refine ⟨fun s k u g word pc t hu hg hk hrun hfr => ?_, fun s k u g src hu hg hending hrun => ?_⟩
  · obtain ⟨r, v, htake, hcores, hv, hhalted, hgrp, hstop⟩ := takeFault_stops (word := word) (pc := pc) (t := t) hu hg hk hrun hfr
    have hcore : r.core u.core = s.core u.core := State.core_congr hcores _
    rw [htake]
    obtain ⟨hcause, hepc, hfaddr, hword⟩ := faulted_frec s u g word pc t
    refine ⟨v, faulted s u g word pc t, (State.unit?_congr (coresOnly_postFault ..).units k).trans hv, hgrp, hhalted, rfl, rfl, rfl, rfl, rfl, rfl,
      rfl, rfl, rfl, rfl, rfl, rfl, hcause, hepc, hfaddr, hword, hstop, fun hhold hpicked => ⟨fun i hi => ?_, fun hfull => ?_⟩,
      fun hhold hpicked => ?_, fun x hhold hfull => ?_⟩
    · rw [← hcore] at hhold hpicked hi
      rw [postFault_now (u := { u with halted := true }) (g := faulted s u g word pc t) hhold hpicked, postNow_free (u := { u with halted := true }) (g := faulted s u g word pc t) hi]
      exact mailPost_head 1 g.slot g.gid 0 u.ctx u.key.fn u.key.idx _ _ _ 0 [] hi
    · rw [← hcore] at hhold hpicked hfull
      rw [postFault_now (u := { u with halted := true }) (g := faulted s u g word pc t) hhold hpicked, ← hcore]
      exact postNow_full (u := { u with halted := true }) (g := faulted s u g word pc t) hfull
    · rw [← hcore] at hhold hpicked
      rw [← hcore]
      exact postFault_holds (u := { u with halted := true }) (g := faulted s u g word pc t) hhold hpicked
    · rw [← hcore] at hhold hfull
      rw [← hcore]
      exact postFault_pair (u := { u with halted := true }) (g := faulted s u g word pc t) hhold hfull
  · cases hwait : g.allWait with
    | false =>
      obtain ⟨v, hv, hgrp, hdue⟩ := haltSibling_runs (src := src) hu hg hrun hwait
      exact ⟨v, _, hv, hgrp, fun _ => ⟨rfl, hdue⟩, fun hall => absurd (hwait.symm.trans hall) Bool.false_ne_true⟩
    | true =>
      obtain ⟨v, hv, hgrp⟩ := haltSibling_waits (src := src) hu hg hending hrun hwait
      refine ⟨v, _, hv, hgrp, fun hany => ?_, fun _ => ⟨rfl, rfl, rfl, ?_, rfl⟩⟩
      · rw [← allWait_eq_false_iff, hwait] at hany
        exact absurd hany (by decide)
      · simp only [Group.siblingStopped, causeWord, Nat.zero_mod, Nat.zero_mul, Nat.add_zero]
        rfl

end
end

section
/-! PROOFS. The return of the supervisor to a group or a unit (R206, R359, R360). -/

namespace Sys2Proof.Machine
open Sys2Proof.Claims

variable {s t : State} {o : Op} {x : ModX} {c : Cx} {k j : UKey} {u : Unit} {g : Group} {i n : Nat}

/-! ## sret -/

/-- The mailbox entry that an sret of a slot answers. -/
def answered? (m : Core) (slot : Nat) : Option Nat := m.morder.find? fun i => mailKind m i != 3 && mailSlot m i == slot

theorem execSret_priv (h : Issues s o c) (hsuper : isSuper c.u.key = false) : execSret o x s = .next (takeTrap c s { code := 0x02 }) := by
  refine word_trap_of_issues h ?_
  simp only [hsuper]
  rfl

theorem execSret_none (h : Issues s o c) (hsuper : isSuper c.u.key = true) (hnone : answered? (s.core c.u.core) (o.imm % 64) = none) :
    execSret o x s = .next (takeTrap c s { code := 0x07, detail := c.l0 * 256 }) := by
  obtain rfl := issues_view h
  refine word_trap_of_issues h ?_
  have hnone' : (c.s.core c.u.core).morder.find? _ = none := hnone
  simp only [hsuper, bind, Except.bind, hnone']
  rfl

/-- The state in which an answer is carried out: its mailbox entry is free. -/
def answering (c : Cx) (k : UKey) (gid i : Nat) : State :=
  let s := c.s.setCore c.u.core (mailClear (c.s.core c.u.core) i)
  if mailKind (c.s.core c.u.core) i = 2 then c.answerEdge s k gid else s

theorem execSret_answers (h : Issues s o c) (hsuper : isSuper c.u.key = true) (hentry : answered? (s.core c.u.core) (o.imm % 64) = some i)
    (hslot : o.imm % 64 ≠ 63) (hgroup : slotGroup? s c.u.core (o.imm % 64) = some (u, g)) :
    execSret o x s = .next (advance c (mailPump (answerEntry (answering c u.key g.gid i) u g (mailKind (s.core c.u.core) i == 2) o.fn) c.u.core)) := by
  obtain rfl := issues_view h
  refine word_of_issues h ?_
  have hentry' : (c.s.core c.u.core).morder.find? _ = some i := hentry
  have hgroup' : slotGroup? (c.s.setCore c.u.core (mailClear (c.s.core c.u.core) i)) c.u.core (o.imm % 64) = some (u, g) := hgroup
  simp only [hsuper, bind, Except.bind, hentry', hslot, hgroup', if_false]
  rfl

/-! ## What an answer leaves -/

theorem unit?_withRace_ne (f : Race → Race) (hj : j ≠ k) : (withRace s j f).unit? k = s.unit? k := by
  unfold withRace
  split
  · exact State.unit?_modUnit_ne _ (fun _ hu => hu) (Ne.symm hj)
  · rfl

theorem withRace_cores (s : State) (k : UKey) (f : Race → Race) : (withRace s k f).cores = s.cores := by
  unfold withRace
  split <;> rfl

/-- An answer's edges leave its unit all but its clocks. -/
theorem unit?_answering (hu : c.s.unit? u.key = some u) (hne : u.key ≠ c.u.key) (gid i : Nat) :
    ∃ r, (answering c u.key gid i).unit? u.key = some { u with race := r } := by
  unfold answering
  simp only
  split
  · unfold Cx.answerEdge
    simp only
    rw [unit?_withRace_ne _ hne.symm]
    exact unit?_withRace_of (s := c.s.setCore c.u.core (mailClear (c.s.core c.u.core) i)) hu _
  · exact ⟨u.race, hu⟩

theorem core_answering (c : Cx) (k : UKey) (gid i : Nat) : (answering c k gid i).core c.u.core = mailClear (c.s.core c.u.core) i := by
  have hcores : (answering c k gid i).cores = (c.s.setCore c.u.core (mailClear (c.s.core c.u.core) i)).cores := by
    unfold answering
    simp only
    split
    · exact (withRace_cores ..).trans (withRace_cores ..)
    · rfl
  rw [State.core_congr hcores, State.core_setCore]

theorem mailPump_nothing (hwait : (s.core n).mwait = []) (hreports : (s.core n).reports = []) : mailPump s n = s := by
  unfold mailPump
  simp only [hwait, hreports]

/-- Once an answer has been carried out, nothing waits for a mailbox entry: the supervisor moves on. -/
theorem sret_done (h : Issues s o c) (hsuper : isSuper c.u.key = true) (hentry : answered? (s.core c.u.core) (o.imm % 64) = some i)
    (hslot : o.imm % 64 ≠ 63) (hgroup : slotGroup? s c.u.core (o.imm % 64) = some (u, g)) (hne : u.key ≠ c.u.key)
    (hwait : (s.core c.u.core).mwait = []) (hreports : (s.core c.u.core).reports = [])
    (ht : answerEntry (answering c u.key g.gid i) u g (mailKind (s.core c.u.core) i == 2) o.fn = t) (hcores : t.cores = (answering c u.key g.gid i).cores) :
    execSret o x s = .next (advance c t) ∧ (advance c t).unit? u.key = t.unit? u.key
      ∧ getBytes ((advance c t).core c.u.core).mbox (128 * i) 4 = 0 := by
  have hcore : t.core c.u.core = mailClear (s.core c.u.core) i := by
    rw [State.core_congr hcores, core_answering, issues_view h]
  refine ⟨?_, State.unit?_modUnit_ne _ (fun _ hu => hu) hne, ?_⟩
  · rw [execSret_answers h hsuper hentry hslot hgroup, ht, mailPump_nothing]
    · rw [hcore]
      exact hwait
    · rw [hcore]
      exact hreports
  · have hcore' : (advance c t).core c.u.core = mailClear (s.core c.u.core) i := hcore
    rw [hcore']
    exact mailClear_head ..

/-! ## Answers of callers -/

/-- An scall is answered by what its caller becomes. -/
theorem answerEntry_scall {g' : Group} (hfn : o.fn = 0) (hresumes : scallResumes g = some g') (s : State) :
    answerEntry s u g true o.fn = s.modGrp u.key g.gid fun _ => g' := by
  unfold answerEntry
  simp only [hfn, hresumes]
  rfl

theorem unit?_put_of (hu : s.unit? k = some u) (hg : u.grp? g.gid = some g) {g' : Group} (hlive : g'.live = true) (hgid : g'.gid = g.gid) :
    ∃ v, (s.modGrp k g.gid fun _ => g').unit? k = some v ∧ v.grp? g.gid = some g' := by
  refine ⟨u.modGrp g.gid fun _ => g', ?_, ?_⟩
  · rw [State.unit?_modGrp, hu, Option.map_some]
  · rw [Unit.grp?_modGrp (fun _ => g') fun _ _ _ => ⟨hlive, hgid⟩, hg, Option.map_some]

/-! ## The restart of a unit -/

/-- Every live group of a unit may run again: none is edited, none has a fault or kept a secondary error. -/
structure Restartable (gs : List Group) : Prop where
  clean : ∀ h ∈ gs, h.live = true → h.fault = false
  plain : ∀ h ∈ gs, h.live = true → h.fblk = none
  single : ∀ h ∈ gs, h.live = true → h.frcnt.toNat % 16 = 0

/-- A plain group without a fault restarts, and runs. -/
theorem restartGroup_plain (hfault : g.fault = false) (hplain : g.fblk = none) :
    ∃ h, restartGroup g = some h ∧ h.run = .running ∧ h.fault = false ∧ h.live = g.live ∧ h.frcnt = g.frcnt := by
  unfold restartGroup
  split
  · next hrun => exact ⟨g, rfl, hrun, hfault, rfl, rfl⟩
  · split
    · exact ⟨_, rfl, rfl, hfault, rfl, rfl⟩
    · simp only [editedFrontier, hplain]
      exact ⟨_, rfl, rfl, rfl, rfl, rfl⟩

theorem restartGroups_plain {gs : List Group} (h : Restartable gs) :
    ∃ hs, (gs.mapM fun g => if g.live then restartGroup g else some g) = some hs
      ∧ ∀ x ∈ hs, x.live = true → x.run = .running ∧ x.fault = false ∧ x.frcnt.toNat % 16 = 0 := by
  induction gs with
  | nil => exact ⟨[], rfl, fun _ hx => nomatch hx⟩
  | cons g gs ih =>
    obtain ⟨hs, hmap, hall⟩ := ih ⟨fun x hx => h.clean x (List.mem_cons_of_mem _ hx), fun x hx => h.plain x (List.mem_cons_of_mem _ hx),
      fun x hx => h.single x (List.mem_cons_of_mem _ hx)⟩
    by_cases hlive : g.live = true
    · obtain ⟨g', hg', hrun, hfault, -, hfr⟩ := restartGroup_plain (h.clean g List.mem_cons_self hlive) (h.plain g List.mem_cons_self hlive)
      refine ⟨g' :: hs, ?_, List.forall_mem_cons.2 ⟨fun _ => ⟨hrun, hfault, ?_⟩, hall⟩⟩
      · rw [List.mapM_cons, if_pos hlive, hg', hmap]
        rfl
      · rw [hfr]
        exact h.single g List.mem_cons_self hlive
    · refine ⟨g :: hs, ?_, List.forall_mem_cons.2 ⟨fun hl => absurd hl hlive, hall⟩⟩
      rw [List.mapM_cons, if_neg hlive, hmap]
      rfl

/-- A halted unit all of whose faults are answered runs again. -/
theorem restartUnit_plain (hu : s.unit? k = some u) (hhalted : u.halted = true) (hending : u.ending = none) (h : Restartable u.grps) :
    ∃ gs, restartUnit s k = some (s.modUnit k fun v => { v with halted := false, grps := gs })
      ∧ ∀ x ∈ gs, x.live = true → x.run = .running ∧ x.fault = false := by
  obtain ⟨gs, hmap, hall⟩ := restartGroups_plain h
  refine ⟨gs, ?_, fun x hx hlive => ⟨(hall x hx hlive).1, (hall x hx hlive).2.1⟩⟩
  have hclean : u.grps.all (fun g => !g.live || !g.fault) = true := List.all_eq_true.2 fun x hx => by
    cases hlive : x.live
    · rfl
    · simp [h.clean x hx hlive]
  have hunit : (s.modUnit k fun v => { v with halted := false, grps := gs }).unit? k = some { u with halted := false, grps := gs } :=
    unit?_modUnit_of hu (fun v => { v with halted := false, grps := gs }) fun _ hv => hv
  have hseconds : gs.filter (fun g => g.live && g.run == .running && g.frcnt.toNat % 16 != 0) = [] := List.filter_eq_nil_iff.2 fun x hx hsecond => by
    have hall' : (x.live = true ∧ x.run = .running) ∧ x.frcnt.toNat % 16 ≠ 0 := by simpa using hsecond
    exact hall'.2 (hall x hx hall'.1.1).2.2
  have htake : takeSeconds (s.modUnit k fun v => { v with halted := false, grps := gs }) k = s.modUnit k fun v => { v with halted := false, grps := gs } := by
    unfold takeSeconds
    rw [hunit]
    simp only [hseconds]
    rfl
  unfold restartUnit
  rw [hu]
  simp only [hhalted, hending, hclean, hmap, htake, Option.isNone_none, Bool.and_self, if_true]

/-- A fault of a unit whose other faults are all answered is answered: the unit runs again. -/
theorem answerEntry_fault (hfn : o.fn = 0) {u : Unit} (hu : s.unit? k = some u) {v : Unit} (hv : v.key = k) (hhalted : u.halted = true)
    (hending : u.ending = none) (hclean : ∀ h ∈ u.grps, h.live = true → h.gid ≠ g.gid → h.fault = false)
    (hplain : ∀ h ∈ u.grps, h.live = true → h.fblk = none ∧ h.frcnt.toNat % 16 = 0) :
    ∃ gs, answerEntry s v g false o.fn
        = (s.modGrp k g.gid fun g => { g with fault := false }).modUnit k (fun w => { w with halted := false, grps := gs })
      ∧ ∀ x ∈ gs, x.live = true → x.run = .running ∧ x.fault = false := by
  have hunit : (s.modGrp k g.gid fun g => { g with fault := false }).unit? k = some (u.modGrp g.gid fun g => { g with fault := false }) := by
    rw [State.unit?_modGrp, hu, Option.map_some]
  have hrestartable : Restartable (u.modGrp g.gid fun g => { g with fault := false }).grps := by
    refine ⟨fun y hy hlive => ?_, fun y hy hlive => ?_, fun y hy hlive => ?_⟩
    all_goals
      obtain ⟨w, hw, rfl⟩ := List.mem_map.1 hy
      by_cases hsame : (w.live && w.gid == g.gid) = true
    · rw [if_pos hsame]
    · rw [if_neg hsame] at hlive ⊢
      exact hclean w hw hlive fun hgid => hsame (by simp [hlive, hgid])
    · rw [if_pos hsame] at hlive ⊢
      exact (hplain w hw hlive).1
    · rw [if_neg hsame] at hlive ⊢
      exact (hplain w hw hlive).1
    · rw [if_pos hsame] at hlive ⊢
      exact (hplain w hw hlive).2
    · rw [if_neg hsame] at hlive ⊢
      exact (hplain w hw hlive).2
  obtain ⟨gs, hrestart, hall⟩ := restartUnit_plain hunit hhalted hending hrestartable
  refine ⟨gs, ?_, hall⟩
  subst hv
  unfold answerEntry restartOrFail
  simp only [hfn, hrestart]
  rfl

end Sys2Proof.Machine

section
open Sys2Proof Sys2Proof.Machine Sys2Proof.Claims

/-- Settles O41: the answer is carried out with the entry free, and nothing waits for it. -/
theorem supervisorReturn : Obligations.SupervisorReturn := by
  unfold Obligations.SupervisorReturn
  intro s o x c h m slot entry
  refine ⟨execSret_priv (x := x) h, execSret_none (x := x) h, fun i u g hsuper hentry hslot hgroup hu hg hne hfn hwait hreports => ?_⟩
  obtain ⟨hlive, -⟩ := Unit.grp?_live hg
  obtain ⟨r, hr⟩ := unit?_answering (c := c) (issues_view h ▸ hu) hne g.gid i
  have hdone {t : State} := sret_done (x := x) (t := t) h hsuper hentry hslot hgroup hne hwait hreports
  refine ⟨fun hkind hrun hplain => ?_, fun hkind hrun => ?_, fun hkind hhalted hending hclean hplain => ?_⟩
  · have hresumes : scallResumes g = some { g with ents := resumeEntries g (g.ents.map Entry.rewait), scall := false, trapped := false, fblk := none } := by
      simp [scallResumes, hrun, editedFrontier, hplain]
    have hcall : (mailKind (s.core c.u.core) i == 2) = true := beq_iff_eq.2 hkind
    have hanswer := answerEntry_scall (u := u) hfn hresumes (answering c u.key g.gid i)
    obtain ⟨ht, hunit, hfree⟩ := hdone ((congrArg (answerEntry _ u g · o.fn) hcall).trans hanswer) rfl
    obtain ⟨v, hv, hgrp⟩ := unit?_put_of hr hg (g' := { g with ents := resumeEntries g (g.ents.map Entry.rewait), scall := false, trapped := false, fblk := none }) hlive rfl
    exact ⟨_, v, _, ht, hunit.trans hv, hgrp, rfl, rfl, hfree⟩
  · have hresumes : scallResumes g = some { g.uncovered with scall := false } := by
      simp [scallResumes, hrun]
    have hcall : (mailKind (s.core c.u.core) i == 2) = true := beq_iff_eq.2 hkind
    have hanswer := answerEntry_scall (u := u) hfn hresumes (answering c u.key g.gid i)
    obtain ⟨ht, hunit, -⟩ := hdone ((congrArg (answerEntry _ u g · o.fn) hcall).trans hanswer) rfl
    obtain ⟨v, hv, hgrp⟩ := unit?_put_of hr hg (g' := { g.uncovered with scall := false }) hlive rfl
    exact ⟨_, v, _, ht, hunit.trans hv, hgrp, rfl, hrun, rfl, rfl⟩
  · have hcall : (mailKind (s.core c.u.core) i == 2) = false := by
      rw [hkind]
      rfl
    obtain ⟨gs, hanswer, hall⟩ := answerEntry_fault hfn hr (v := u) rfl hhalted hending hclean hplain
    obtain ⟨ht, hunit, -⟩ := hdone ((congrArg (answerEntry _ u g · o.fn) hcall).trans hanswer) rfl
    have hv := unit?_modUnit_of (unit?_modGrp_of hr g.gid fun g => { g with fault := false })
      (fun w => { w with halted := false, grps := gs }) fun _ hw => hw
    exact ⟨_, _, ht, hunit.trans hv, rfl, hall⟩

end
end

section
/-! PROOFS. A version word whose page may be written and not read refutes the statement about tiles (R157, R373). -/

namespace Sys2Proof.Counter
open Sys2Proof.Machine Sys2Proof.Claims Sys2Proof.Tests

/-- A tile and an odd version word on a page that may be written and not read. -/
def writeOnly : State :=
  let s := tileState 1
  { s with hbm := Sparse.set 0 s.hbm 0x13000 0x1B }

/-- tst.all of v16 at x4 with the version at x5. -/
def tileOp : Op := opM 0 (.v 16) 0x1A1 (.s 10)

def tilePlace : Place := placeAt (seen writeOnly) (.s 8) false (fun _ => 0) 1024 1024 { write := true, tile := true } false 0

/-- How tst.all takes part in the ordering of its version word. -/
def versionAtt : Att := { write := true, strong := true, acq := true, rel := true, rmw := true, tile := true }

def versionPlace : Place := placeAt (seen writeOnly) (.s 10) false (fun _ => 0) 8 8 versionAtt true 0

theorem writeOnly_issues : Issues writeOnly tileOp (seen writeOnly) := issues_seen (by decide +kernel)

theorem writeOnly_lane : (seen writeOnly).l0 = 0 := by decide +kernel

theorem tile_lands : Lands (seen writeOnly) (.s 8) false (fun _ => 0) 1024 1024 { write := true, tile := true } false [(seen writeOnly).l0]
    (fun _ => tilePlace) := by
  have hplaced : (placeOf? (seen writeOnly) (.s 8) false 0 1024 1024 { write := true, tile := true } false 0).isSome = true := by decide +kernel
  rw [writeOnly_lane]
  intro l hl
  obtain rfl := List.mem_singleton.1 hl
  exact lands_at (off := fun _ => 0) (ls := [0]) (by simpa using hplaced) 0 (List.mem_singleton_self 0)

theorem version_lands : Lands (seen writeOnly) (.s 10) false (fun _ => 0) 8 8 versionAtt true [(seen writeOnly).l0] (fun _ => versionPlace) := by
  have hplaced : (placeOf? (seen writeOnly) (.s 10) false 0 8 8 versionAtt true 0).isSome = true := by decide +kernel
  rw [writeOnly_lane]
  intro l hl
  obtain rfl := List.mem_singleton.1 hl
  exact lands_at (off := fun _ => 0) (ls := [0]) (by simpa using hplaced) 0 (List.mem_singleton_self 0)

/-- Whether the issuing group runs in the state that a word answers. -/
def runAfter (c : Cx) (out : Host.Outcome State Fault Refusal) : Option Run := (nextOf out).bind fun t => (c.after t).map Group.run

/-- The word takes a trap; a word that waits runs on. -/
theorem tstAll_traps : runAfter (seen writeOnly) (exec (.tstAll tileOp (modM .i32)) writeOnly) = some .stopped
    ∧ runAfter (seen writeOnly) (.next (enterWait (seen writeOnly) writeOnly .version)) = some .running := by
  decide +kernel

end Sys2Proof.Counter

section
open Sys2Proof Sys2Proof.Machine Sys2Proof.Claims Sys2Proof.Tests Sys2Proof.Counter

/-- Refutes O24: the statement asks of the version word of a tst.all only that it may be written, but the word loads it before it writes it,
so that it needs both rights (R157, R373): on a page that may be written and not read it takes PERM, where the statement has it wait. -/
theorem not_tiles : ¬ Obligations.Tiles := by
  unfold Obligations.Tiles
  intro h
  have hclauses := h writeOnly tileOp (modM .i32) (seen writeOnly) 16 tilePlace versionPlace 0 writeOnly_issues (by decide +kernel)
    (by decide +kernel) (by decide +kernel) (by decide +kernel) (by decide +kernel) (by unfold BearsBase Bears; decide +kernel)
  obtain ⟨-, -, -, hall⟩ := hclauses
  obtain ⟨hodd, -, -⟩ := hall (by unfold Drained; decide +kernel) (by decide +kernel) (by unfold BearsBase Bears; decide +kernel)
    (by decide +kernel) tile_lands version_lands
  obtain ⟨htraps, hwaits⟩ := tstAll_traps
  rw [hodd (by decide +kernel), hwaits] at htraps
  exact absurd htraps (by decide)

end
end

section
/-! PROOFS. Loads and stores of long names (R160, R163). -/

namespace Sys2Proof.Machine
open Sys2Proof.Claims

variable {s t : State} {o : Op} {x : ModX} {c : Cx} {ls : List Nat} {p : Nat → Place} {w : Nat → Nat} {fl n v l : Nat} {tag : Tag} {att : Att}

/-! ## ldn (R160) -/

/-- What a slot holds where its name is null or names an object that is resident at its generation, and the pointer of it. -/
def Resides (c : Cx) (l v w : Nat) : Prop :=
  (v = 0 ∧ w = 0)
    ∨ ∃ k, v / 2 ^ 127 = 1 ∧ nameKind v ≠ 3 ∧ bits v 47 40 = 0 ∧ c.ctx.laneWait (nameKey v) c.u.key c.g.gid c.pc l = none
        ∧ c.ctx.find (nameKey v) = some k ∧ (c.ctx.slotRes k).state = .resident ∧ (c.ctx.slotRes k).gen = nameGen v
        ∧ nameOff v ≤ (c.ctx.slotRes k).extent ∧ w = 2 ^ 63 + (c.ctx.slotRes k).inc * 2 ^ 58 + k * 2 ^ 40 + v % 2 ^ 40

theorem slotKind_of_resides {b : Bool} {w : Nat} (h : Resides c l v w) : slotKind b v = .null ∨ slotKind b v = .name v := by
  obtain ⟨rfl, -⟩ | ⟨k, htop, hkind, hbits, -⟩ := h
  · exact .inl rfl
  · have hne : v ≠ 0 := by
      rintro rfl
      simp at htop
    right
    simp only [slotKind, hne, htop, hkind, hbits, if_false, one_ne_zero, bne_self_eq_false, decide_false, Bool.or_self, Bool.false_eq_true]

theorem ldnLane_of_resides {b : Bool} {w : Nat} (h : Resides c l v w) (va : DWord) : c.ldnLane l va (slotKind b v) = .done w := by
  obtain ⟨rfl, rfl⟩ | ⟨k, htop, hkind, hbits, hwait, hfind, hstate, hgen, hext, hw⟩ := h
  · rfl
  · have hne : v ≠ 0 := by
      rintro rfl
      simp at htop
    have hname : slotKind b v = .name v := by
      simp only [slotKind, hne, htop, hkind, hbits, if_false, one_ne_zero, bne_self_eq_false, decide_false, Bool.or_self, Bool.false_eq_true]
    rw [hname, Cx.ldnLane]
    simp only [hwait, hfind, hstate, hgen, bne_self_eq_false, Bool.false_eq_true, reduceCtorEq, if_false]
    rw [ldnPointer, if_neg (Nat.not_lt.2 hext), hw]
    rfl

/-- An ldn all of whose lanes have their pointers writes them. -/
theorem ldnEnd_done (c : Cx) (o : Op) (tag : Tag) (w : Nat → Nat) (ls : List Nat) (f : State → State) :
    c.ldnEnd o tag (ls.map fun l => (l, .done (w l))) f
      = .ok (f ((dropWaits c.s c.u.ctx c.u.key c.g.gid c.pc).modGrp c.u.key c.g.gid fun g =>
          g.write o.d 2 tag (laneVal 0 (ls.map fun l => (l, w l))) c.ex)) := by
  unfold Cx.ldnEnd
  split
  · next t ht =>
    obtain ⟨r, hr, hrt⟩ := List.exists_of_findSome?_eq_some ht
    obtain ⟨l, -, rfl⟩ := List.mem_map.1 hr
    exact nomatch hrt
  · split
    · next k hk =>
      obtain ⟨r, hr, hrk⟩ := List.exists_of_findSome?_eq_some hk
      obtain ⟨l, -, rfl⟩ := List.mem_map.1 hr
      exact nomatch hrk
    · simp only [List.map_map]
      rfl

/-- Where every slot is null or a name, no format is bad and the result is a pointer. -/
theorem ldnFormat_names {ks : List (Nat × SlotKind)} (h : ∀ k ∈ ks, k.2 = .null ∨ ∃ n, k.2 = .name n) :
    ldnFormat ks = none ∧ ldnTag ks = .ptr := by
  refine ⟨?_, ?_⟩
  · rw [ldnFormat, Option.map_eq_none_iff, List.find?_eq_none]
    intro k hk
    obtain hnull | ⟨n, hname⟩ := h k hk
    · simp [hnull]
    · simp [hname]
  · unfold ldnTag
    split
    · next hloc =>
      obtain ⟨k, hk, hkloc⟩ := List.any_eq_true.1 hloc
      obtain hnull | ⟨n, hname⟩ := h k hk
      · simp [hnull] at hkloc
      · simp [hname] at hkloc
    · rfl

/-- The state an ldn leaves, but for what its access notes. -/
def ldnState (c : Cx) (o : Op) (w : Nat → Nat) (ls : List Nat) (fl : Nat) : State :=
  ((dropWaits c.s c.u.ctx c.u.key c.g.gid c.pc).modGrp c.u.key c.g.gid fun g => g.write o.d 2 .ptr (laneVal 0 (ls.map fun l => (l, w l))) c.ex).modGrp
    c.u.key c.g.gid fun g => g.orFlags fl

theorem execLdn_next (h : Issues s o c) (ha : BearsBase c o.a (decide (x.f 35 34 = 1))) (hb : Bears c o.b 1 [.i32])
    (hfl : c.sysScope (x.f 40 39 != 0) (x.f 38 36) = .ok fl)
    (hl : Lands c o.a (decide (x.f 35 34 = 1)) (c.offM o 16 o.disp) 16 16 (ordAtt (x.f 40 39) (c.actScope (x.f 38 36)) false false) true
      (c.loadLanes o.d) p)
    (hres : ∀ l ∈ c.loadLanes o.d, Resides c l (s.load c.u.core (p l).sp (p l).a 16) (w l)) :
    ∃ t, execLdn o x s = .next (advance c t) ∧ Quiet (ldnState c o w (c.loadLanes o.d) fl) t := by
  obtain rfl := issues_view h
  obtain ⟨_, hbase⟩ := Cx.needBase_ok ha
  obtain ⟨sps, hmap, hland, hhole⟩ := lands_spec hl
  have hplaces := placesPrecise_ok (write := false) hland hhole
  have hkinds : ∀ k ∈ (landedAt p (c.loadLanes o.d)).map fun (l, p) => (l, slotKind (c.flag (·.localptr)) (c.s.load c.u.core p.sp p.a 16)),
      k.2 = .null ∨ ∃ n, k.2 = .name n := fun k hk => by
    obtain ⟨y, hy, rfl⟩ := List.mem_map.1 hk
    obtain ⟨l, hl, rfl⟩ := List.mem_map.1 hy
    exact (slotKind_of_resides (hres l hl)).imp_right fun h => ⟨_, h⟩
  obtain ⟨hformat, htag⟩ := ldnFormat_names hkinds
  refine ⟨_, word_of_issues h ?_, quiet_noteAll c _ (landedAt p (c.loadLanes o.d)) 16 (ordAtt (x.f 40 39) (c.actScope (x.f 38 36)) false false)⟩
  simp only [bind, Except.bind, hbase, Cx.need_of_bears hb, hfl]
  rw [hmap]
  simp only [hplaces, hformat, htag]
  refine Eq.trans (congrArg (fun rs => c.ldnEnd o .ptr rs _) ?_) (ldnEnd_done ..)
  rw [landedAt, List.map_map, List.map_map]
  exact List.map_congr_left fun l hl => congrArg (Prod.mk l) (ldnLane_of_resides (hres l hl) _)

/-- A change of a context leaves the issuing group. -/
theorem after_ldnState (h : Issues c.s o c) (w : Nat → Nat) (hcover : (∃ x, o.d = .sp x) ∨ (∃ r, o.d = .res r) ∨ ∀ l ∈ inLanes c o.d, l ∈ ls) (fl : Nat) :
    c.after (ldnState c o w ls fl) = some ((c.g.write o.d 2 .ptr w c.ex).orFlags fl) := by
  have hwrite : c.g.write o.d 2 .ptr (laneVal 0 (ls.map fun l => (l, w l))) c.ex = c.g.write o.d 2 .ptr w c.ex := by
    obtain ⟨y, hy⟩ | ⟨r, hr⟩ | hin := hcover
    · rw [hy]
      rfl
    · rw [hr]
      rfl
    · exact c.write_congr o.d _ _ fun l hl => laneVal_map 0 w (hin l hl)
  have hdrop : c.after (dropWaits c.s c.u.ctx c.u.key c.g.gid c.pc) = some c.g := (Cx.after_of_units (s := c.s) rfl).trans (after_of_issues h)
  rw [ldnState, after_modGrp (fun g => g.orFlags fl) fun _ hlive hgid => ⟨hlive, hgid⟩, after_modGrp _ fun g hlive hgid => ?_,
    hdrop, Option.map_some, Option.map_some, hwrite]
  obtain ⟨hlive', hgid', -⟩ := g.write_same o.d 2 .ptr (laneVal 0 (ls.map fun l => (l, w l))) c.ex
  exact ⟨hlive'.trans hlive, hgid'.trans hgid⟩

/-! ## stn (R163) -/

theorem State.wrN_mod (s : State) (sp a n v : Nat) : s.wrN sp a n (v % 2 ^ (8 * n)) = s.wrN sp a n v := by
  induction n generalizing s a v with
  | zero => rfl
  | succ n ih =>
    have hbyte : BitVec.ofNat 8 (v % 2 ^ (8 * (n + 1))) = BitVec.ofNat 8 v := by
      refine BitVec.eq_of_toNat_eq ?_
      rw [BitVec.toNat_ofNat, BitVec.toNat_ofNat, Nat.mod_mod_of_dvd v (pow_dvd_pow 2 (by omega))]
    have hrest : v % 2 ^ (8 * (n + 1)) / 256 = v / 256 % 2 ^ (8 * n) := by
      rw [show 8 * (n + 1) = 8 + 8 * n by omega, pow_add]
      exact Nat.mod_mul_right_div_self v (2 ^ 8) (2 ^ (8 * n))
    rw [State.wrN, State.wrN, hbyte, hrest, ih]

theorem writeAll_congr {val val' : Nat → Nat} {ps : List (Nat × Place)} (h : ∀ x ∈ ps, val x.1 % 2 ^ (8 * n) = val' x.1 % 2 ^ (8 * n)) :
    writeAll s n val ps = writeAll s n val' ps := by
  induction ps generalizing s with
  | nil => rfl
  | cons x ps ih =>
    obtain ⟨hx, hps⟩ := List.forall_mem_cons.1 h
    have hwr : s.wrN x.2.sp x.2.a n (val x.1) = s.wrN x.2.sp x.2.a n (val' x.1) := by
      rw [← State.wrN_mod, hx, State.wrN_mod]
    rw [writeAll, List.foldl_cons, hwr]
    exact ih hps

/-- What stn stores for a pointer that is null or names the current object of its slot within its extent. -/
def NamedBy (c : Cx) (y w : Nat) : Prop :=
  let r := c.ctx.slotRes (ptrSlot y)
  (y = 0 ∧ w = 0) ∨ (isPtr y = true ∧ ptrSlot y < c.ctx.slots ∧ r.current (ptrInc y) = true ∧ ptrOff y ≤ r.extent
    ∧ w = 2 ^ 127 + r.kind * 2 ^ 125 + (r.domain * 2 ^ 45 + r.serial) * 2 ^ 64 + r.gen * 2 ^ 48 + ptrOff y)

theorem stnValue_of_names {d : Opd} {w : Nat} (h : NamedBy c (c.val d 2 l) w) (ht : tag = .ptr ∨ c.val d 2 l = 0) : c.stnValue d tag l = .ok w := by
  unfold Cx.stnValue
  obtain ⟨hzero, rfl⟩ | ⟨hptr, hslot, hcur, hext, rfl⟩ := h
  · simp [hzero]
  · by_cases hzero : c.val d 2 l = 0
    · rw [hzero] at hptr
      exact absurd hptr (by decide)
    · obtain rfl := ht.resolve_right hzero
      simp only [hzero, hptr, hslot, hcur, Nat.not_lt.2 hext, decide_false, bne_self_eq_false, Bool.or_self, Bool.false_eq_true, if_false, Bool.not_true,
        decide_true, Bool.and_self, if_true]
      rfl

theorem stnTag_of_names {d : Opd} {w : Nat} (h : NamedBy c (c.val d 2 l) w) (hd : tag = .ptr ∨ d = .z) : c.stnTag d tag l = .ok () := by
  refine if_pos ?_
  obtain rfl | rfl := hd
  · obtain ⟨hzero, -⟩ | ⟨hptr, -⟩ := h
    · simp [hzero]
    · simp [hptr]
  · simp

theorem Cx.val_z (c : Cx) (l : Nat) : c.val .z 2 l = 0 := by
  simp [Cx.val, Cx.reg, Cx.special]

theorem execStn_next (h : Issues s o c) (ha : BearsBase c o.a (decide (x.f 35 34 = 1))) (hb : Bears c o.b 1 [.i32])
    (hfl : c.sysScope (x.f 40 39 != 0) (x.f 38 36) = .ok fl) (hdrain : 2 ≤ x.f 40 39 → Drained s c) (hd : Bears c o.d 2 [.ptr])
    (hptr : c.regTag o.d 0 = .ptr ∨ o.d = .z)
    (hl : Lands c o.a (decide (x.f 35 34 = 1)) (c.offM o 16 o.disp) 16 16 (ordAtt (x.f 40 39) (c.actScope (x.f 38 36)) true false) false c.lanes p)
    (hnames : ∀ l ∈ c.lanes, NamedBy c (c.val o.d 2 l) (w l)) :
    ∃ t, execStn o x s = .next (advance c t)
      ∧ Quiet (storeAll (c.put (c.g.orFlags fl)) c.u.core c.u.ctx 16 (laneVal 0 (c.lanes.map fun l => (l, w l)))
          (if false then landedAt p c.lanes else openOrder c.s (landedAt p c.lanes))) t := by
  obtain rfl := issues_view h
  obtain ⟨_, hbase⟩ := Cx.needBase_ok ha
  obtain ⟨sps, hmap, hland, hhole⟩ := lands_spec hl
  obtain ⟨t, ht, hquiet⟩ := endStore_ok hland hhole (laneVal 0 (c.lanes.map fun l => (l, w l))) false fl
    (ordAtt (x.f 40 39) (c.actScope (x.f 38 36)) true false)
  have hzero : ∀ l, c.regTag o.d 0 = .ptr ∨ c.val o.d 2 l = 0 := fun l => hptr.imp_right fun hz => by
    rw [hz, Cx.val_z]
  have htags := mapLanes_ok (f := c.stnTag o.d (c.regTag o.d 0)) (v := fun _ => ()) fun l hl => stnTag_of_names (hnames l hl) hptr
  have hvals := mapLanes_ok (f := c.stnValue o.d (c.regTag o.d 0)) fun l hl => stnValue_of_names (hnames l hl) (hzero l)
  have hdrain : 2 ≤ x.f 40 39 → c.drain = .ok () := fun hord => Cx.drain_ok (hdrain hord)
  refine ⟨t, word_of_issues h ?_, hquiet⟩
  by_cases hord : 2 ≤ x.f 40 39
  all_goals
    simp only [hord, hdrain, if_true, if_false, bind, Except.bind, hbase, Cx.need_of_bears hb, Cx.tag_of_bears hd, hfl]
    rw [htags]
    simp only
    rw [hmap]
    simp only
    rw [hvals]
    exact ht

end Sys2Proof.Machine

section
open Sys2Proof Sys2Proof.Machine Sys2Proof.Claims

/-- Settles O25: every lane of an ldn has its pointer at once, and a stn stores its lanes' names like any store. -/
theorem namesLoadAndStore : Obligations.NamesLoadAndStore := by
  unfold Obligations.NamesLoadAndStore
  intro s o x c p fl h v ls slot ha hb hfl
  refine ⟨fun hd hl w hw => ?_, fun hplain hdrain hd hptr hl w hw => ?_⟩
  · obtain rfl := issues_view h
    obtain ⟨t, ht, hquiet⟩ := execLdn_next h ha hb hfl hl fun l hlane => hw l hlane
    refine ⟨_, ht, afterIs_advance ((hquiet.after c).trans (after_ldnState h w (loadLanes_cover o.d hd) fl)) (write_orFlags_same ..).2.2, ?_⟩
    exact sameMemory_of_rd hquiet.rd
  · obtain ⟨t, ht, hquiet⟩ := execStn_next h ha hb hfl hdrain hd hptr hl fun l hlane => hw l hlane
    have hperm := storeOrder_perm c false (landedAt p c.lanes)
    refine stored_of_quiet h ht hplain hperm ?_
    obtain rfl := issues_view h
    rw [storeAll_plain (plain_put hplain hperm _)] at hquiet ⊢
    rw [writeAll_congr (val' := laneVal 0 (c.lanes.map fun l => (l, w l))) fun y hy => ?_]
    · exact hquiet
    · rw [laneVal_map 0 w (mem_of_perm_landed hperm hy).1, Nat.mod_mod]

end
end

section
/-! PROOFS. The issue of engine commands: the agent, the tag, the fork, and what stands in their way (R167, R194, R316). -/

namespace Sys2Proof.Machine
open Sys2Proof.Claims

variable {s t : State} {o : Op} {x : ModX} {c : Cx} {i : Instr} {m : Cmd} {agent d a b n : Nat} {body : Cx → Exc State} {l : Launch} {w : Wait}

/-! ## What comes before an issue -/

/-- A step of a body that succeeds. It is a rewrite and not a reduction, so that the kernel need not unfold what follows. -/
theorem ok_bind {α β : Type} (a : α) (f : α → Exc β) : ((.ok a : Exc α) >>= f) = f a := by
  have hbind : ∀ r : Exc α, r = .ok a → (r >>= f) = f a := by
    rintro _ rfl
    rfl
  exact hbind _ rfl

theorem Cx.agent_ok (hfree : c.u.freeAgent = some agent) : c.agent = .ok agent := by simp only [Cx.agent, hfree]

theorem Cx.agent_taken (hfree : c.u.freeAgent = none) : c.agent = .error (.wait .engine) := by simp only [Cx.agent, hfree]

theorem Cx.producer_ok (hprod : IsProducer c) : c.producer = .ok ⟨⟩ := by
  obtain ⟨l, hl, hgid⟩ := hprod
  simp only [Cx.producer, hl]
  exact if_pos hgid

theorem Cx.producer_other (hl : c.launch? = some l) (hgid : l.producer ≠ c.g.gid) : c.producer = .error (.trap { code := 0x0E }) := by
  simp only [Cx.producer, hl]
  exact if_neg hgid

theorem Cx.copyAgent_ok (hfree : c.u.freeAgent = some agent) (hprod : IsProducer c) : c.copyAgent = .ok agent := by
  simp only [Cx.copyAgent, Cx.agent_ok hfree, Cx.producer_ok hprod]
  rfl

theorem Cx.copyAgent_taken (hfree : c.u.freeAgent = none) : c.copyAgent = .error (.wait .engine) := by
  simp only [Cx.copyAgent, Cx.agent_taken hfree]
  rfl

theorem Cx.copyAgent_other (hfree : c.u.freeAgent = some agent) (hl : c.launch? = some l) (hgid : l.producer ≠ c.g.gid) :
    c.copyAgent = .error (.trap { code := 0x0E }) := by
  simp only [Cx.copyAgent, Cx.agent_ok hfree, Cx.producer_other hl hgid]
  rfl

theorem Cx.tagFree_ok (hp : c.u.pend.getLsbD n = false) : c.tagFree n = .ok ⟨⟩ := if_neg (by simp [hp])

theorem Cx.tagFree_busy (hp : c.u.pend.getLsbD n = true) : c.tagFree n = .error (.trap { code := 0x1B, detail := n }) := if_pos hp

theorem Cx.regTag_plus (c : Cx) (y : Opd) (j k : Nat) : c.regTag (y.plus j) k = c.regTag y (j + k) := by
  cases y <;> simp [Opd.plus, Cx.regTag, Nat.add_assoc]

theorem Cx.needDesc_ok {y : Opd} (hdesc : ∀ k < 4, c.regTag y k = .raw ∨ c.regTag y k = .i32) : c.needDesc y = .ok ⟨⟩ :=
  Cx.needRange_ok fun i hi => by simpa [Cx.regTag_plus] using hdesc i hi

theorem needSlots_ok {u : Unit} {ok : Tag → Bool} {ks : List Nat} (h : ∀ k ∈ ks, ok (u.accTag k) = true) : needSlots u ok ks = .ok ⟨⟩ := by
  have hnone : (ks.find? fun k => k < u.aslots && !ok (u.accTag k)) = none := List.find?_eq_none.2 fun k hk => by simp [h k hk]
  rw [needSlots, hnone]

theorem Cx.haveSlots_ok {ks : List Nat} (h : ∀ k ∈ ks, k < c.u.aslots) : c.haveSlots ks = .ok ⟨⟩ :=
  if_neg (by simpa using h)

/-! ## The fork -/

/-- A unit with one command more, whose tag is pending. -/
def Unit.forked (u : Unit) (agent : Nat) (m : Cmd) : Unit :=
  let u := match m.tag with | some t => u.tagPending t | none => u
  { u with cmds := u.cmds ++ [(agent, m)] }

/-- What a fork leaves before the word moves on: the issuing group and every byte stay, and its unit has one command more. -/
def Forks (c : Cx) (t : State) (agent : Nat) (m : Cmd) : Prop :=
  c.after t = some c.g ∧ (∀ sp a, t.rd sp a = c.s.rd sp a) ∧ ∃ r, t.unit? c.u.key = some { c.u.forked agent m with race := r }

theorem Unit.forked_cases (u : Unit) (agent : Nat) (m : Cmd) :
    m.tag = none ∧ u.forked agent m = { u with cmds := u.cmds ++ [(agent, m)] } ∨
      ∃ k, m.tag = some k ∧ u.forked agent m = { u.tagPending k with cmds := u.cmds ++ [(agent, m)] } := by
  unfold Unit.forked
  cases htag : m.tag with
  | none => exact .inl ⟨rfl, rfl⟩
  | some k => exact .inr ⟨k, rfl, rfl⟩

theorem Unit.forked_same (u : Unit) (agent : Nat) (m : Cmd) :
    (u.forked agent m).key = u.key ∧ (u.forked agent m).grps = u.grps ∧ (u.forked agent m).race = u.race := by
  unfold Unit.forked
  cases m.tag <;> exact ⟨rfl, rfl, rfl⟩

/-- Copy pins are kept in contexts alone. -/
theorem copyPins_same (s : State) (ctx : Nat) (ks : List Nat) :
    (ks.foldl (fun s k => copyPin s ctx k true) s).units = s.units
      ∧ ∀ sp a, (ks.foldl (fun s k => copyPin s ctx k true) s).rd sp a = s.rd sp a := by
  induction ks generalizing s with
  | nil => exact ⟨rfl, fun _ _ => rfl⟩
  | cons k ks ih =>
    obtain ⟨hunits, hrd⟩ := ih (copyPin s ctx k true)
    exact ⟨hunits, fun sp a => hrd sp a⟩

theorem Forks.withRace (h : Forks c t agent m) (f : Race → Race) : Forks c (withRace t c.u.key f) agent m := by
  obtain ⟨hafter, hrd, r, hu⟩ := h
  obtain ⟨r', hr'⟩ := unit?_withRace_of hu f
  exact ⟨(after_withRace ..).trans hafter, fun sp a => (withRace_rd ..).trans (hrd sp a), r', hr'⟩

theorem Forks.modCore (h : Forks c t agent m) (n : Nat) (f : Core → Core) : Forks c (t.modCore n f) agent m := h

theorem forks_fork (h : Issues c.s o c) (agent : Nat) (m : Cmd) : Forks c (c.fork agent m) agent m := by
  obtain ⟨hunits, hrd⟩ := copyPins_same c.s c.u.ctx m.pins
  have hu := (State.unit?_congr hunits c.u.key).trans (unit?_of_issues h)
  have hforks : Forks c ((m.pins.foldl (fun s k => copyPin s c.u.ctx k true) c.s).modUnit c.u.key fun u => u.forked agent m) agent m := by
    refine ⟨?_, fun sp a => hrd sp a, c.u.race, ?_⟩
    · rw [after_modUnit _ (fun u hk => (u.forked_same agent m).1.trans hk) fun u => (u.forked_same agent m).2.1, Cx.after_of_units hunits,
        after_of_issues h]
    · rw [unit?_modUnit_of hu (fun u => u.forked agent m) fun u hk => (u.forked_same agent m).1.trans hk, ← (c.u.forked_same agent m).2.2]
  exact hforks.withRace _

theorem getLsbD_pow {k : Nat} (hk : k < 64) : (BitVec.ofNat 64 (2 ^ k)).getLsbD k = true := by
  rw [BitVec.getLsbD_ofNat, Nat.testBit_two_pow_self, decide_eq_true hk]
  rfl

theorem Unit.tagPending_pending (u : Unit) {k : Nat} (hk : k < 64) : Pending (u.tagPending k) k := by
  constructor
  · rw [Unit.tagPending, BitVec.getLsbD_or, getLsbD_pow hk, Bool.or_true]
  · rw [Unit.tagPending, BitVec.getLsbD_and, BitVec.getLsbD_not, getLsbD_pow hk, Bool.not_true, Bool.and_false, Bool.and_false]

/-- Such a state, moved on, is what an issue leaves. -/
theorem Forks.forked (h : Forks c t agent m) : Forked c c.s (advance c t) agent m := by
  obtain ⟨hafter, hrd, r, hu⟩ := h
  obtain ⟨gs, hgs⟩ := unit?_advance_of (c := c) hu
  refine ⟨afterIs_advance hafter rfl, sameMemory_of_rd hrd, _, hgs, ?_⟩
  obtain ⟨hnone, hf⟩ | ⟨k, htag, hf⟩ := c.u.forked_cases agent m
  · rw [hf]
    refine ⟨rfl, fun j hj => ?_, rfl, rfl, rfl, rfl⟩
    rw [hnone] at hj
    cases hj
  · rw [hf]
    refine ⟨rfl, fun j hj hlt => ?_, rfl, rfl, rfl, rfl⟩
    obtain rfl := Option.some.inj (htag.symm.trans hj)
    exact c.u.tagPending_pending hlt


theorem issued_of (h : Issues c.s o c) {f : Cx → Exc State} (hb : f c = .ok t) (ht : Forks c t agent m) (hm : Made c m i d a b)
    {more : Cmd → Prop} (hmore : more m) : Issued c c.s (word c.s o f) agent i d a b more :=
  ⟨_, m, word_of_issues h hb, ht.forked, hm, hmore⟩

/-! ## Words that find no agent, no right or no tag -/

theorem copyWord_waits (h : Issues c.s o c) (hfree : c.u.freeAgent = none) (k : Cx → Nat → Exc State) :
    word c.s o (fun c => do let agent ← c.copyAgent; k c agent) = .next (enterWait c c.s .engine) :=
  word_wait h (by simp only [Cx.copyAgent_taken hfree]; rfl)

theorem agentWord_waits (h : Issues c.s o c) (hfree : c.u.freeAgent = none) (k : Cx → Nat → Exc State) :
    word c.s o (fun c => do let agent ← c.agent; k c agent) = .next (enterWait c c.s .engine) :=
  word_wait h (by simp only [Cx.agent_taken hfree]; rfl)

theorem copyWord_other (h : Issues c.s o c) (hfree : c.u.freeAgent = some agent) (hl : c.launch? = some l) (hgid : l.producer ≠ c.g.gid)
    (k : Cx → Nat → Exc State) :
    word c.s o (fun c => do let agent ← c.copyAgent; k c agent) = .next (takeTrap c c.s { code := 0x0E }) :=
  word_trap_of_issues h (by simp only [Cx.copyAgent_other hfree hl hgid]; rfl)

end Sys2Proof.Machine

section
open Sys2Proof Sys2Proof.Machine Sys2Proof.Claims

/-- Settles O35: every such word looks for its agent first, a copy then at its group, and later at its tag. -/
theorem copyRefused : Obligations.CopyRefused := by
  unfold Obligations.CopyRefused
  intro s o x c h copies others v busy len desc slots
  obtain rfl := issues_view h
  refine ⟨fun hfree i hi => ?_, fun agent l hfree hl hgid i hi => ?_, fun agent hfree hprod => ⟨?_, ?_, ?_, ?_, ?_⟩, fun agent hfree => ⟨?_, fun hbase => ⟨?_, ?_⟩⟩⟩
  · rcases List.mem_append.1 hi with hi | hi
    · simp only [copies, List.mem_cons, List.not_mem_nil, or_false] at hi
      obtain rfl | rfl | rfl | rfl | rfl | rfl | rfl | rfl := hi
      all_goals exact copyWord_waits h hfree _
    · simp only [others, List.mem_cons, List.not_mem_nil, or_false] at hi
      obtain rfl | rfl | rfl | rfl | rfl | rfl | rfl | rfl | rfl | rfl := hi
      all_goals exact agentWord_waits h hfree _
  · simp only [copies, List.mem_cons, List.not_mem_nil, or_false] at hi
    obtain rfl | rfl | rfl | rfl | rfl | rfl | rfl | rfl := hi
    all_goals exact copyWord_other h hfree hl hgid _
  · rintro hbase ⟨n, hlen⟩ hbusy
    obtain ⟨tag, hneed : c.needBase o.a (x.f 38 38 == 1) = .ok tag⟩ := Cx.needBase_ok hbase
    refine word_trap_of_issues h ?_
    simp only [Cx.copyAgent_ok hfree hprod, hneed, hlen, Cx.tagFree_busy hbusy, bind, Except.bind]
  · intro hd ha
    obtain ⟨dtag, hd : c.needBase o.d (cpyDst x) = .ok dtag⟩ := Cx.needBase_ok hd
    obtain ⟨atag, ha : c.needBase o.a (cpySrc x) = .ok atag⟩ := Cx.needBase_ok ha
    refine ⟨?_, fun hfn hdesc hbusy => word_trap_of_issues h ?_, fun hdesc hbusy => word_trap_of_issues h ?_⟩
    · rintro hfn ⟨n, hlen⟩ hbusy
      refine word_trap_of_issues h ?_
      simp only [Cx.copyAgent_ok hfree hprod, hd, ha, hfn, hlen, Cx.tagFree_busy hbusy, bind, Except.bind, if_true]
    · simp only [Cx.copyAgent_ok hfree hprod, hd, ha, hfn, Cx.needDesc_ok hdesc, Cx.tagFree_busy hbusy, bind, Except.bind, if_false]
    · simp only [Cx.copyAgent_ok hfree hprod, hd, ha, Cx.needDesc_ok hdesc, Cx.tagFree_busy hbusy, bind, Except.bind]
  · intro hd ha hdesc
    obtain ⟨dtag, hd⟩ := Cx.needBase_ok hd
    obtain ⟨atag, ha : c.needBase o.a (cpySrc x) = .ok atag⟩ := Cx.needBase_ok ha
    refine ⟨fun hbusy => word_trap_of_issues h ?_, fun hbusy => word_trap_of_issues h ?_⟩
    all_goals simp only [Cx.copyAgent_ok hfree hprod, hd, ha, Cx.needDesc_ok hdesc, Cx.tagFree_busy hbusy, bind, Except.bind]
  · rintro hd ha ⟨n, hlen⟩ hbusy
    obtain ⟨atag, ha : c.needBase o.a (x.f 36 36 == 1) = .ok atag⟩ := Cx.needBase_ok ha
    refine word_trap_of_issues h ?_
    by_cases hrem : x.f 38 37 = 2
    · simp only [Cx.copyAgent_ok hfree hprod, hrem, ha, hlen, Cx.tagFree_busy hbusy, bind, Except.bind, beq_self_eq_true, Bool.not_true,
        Bool.false_eq_true, if_false]
    · obtain ⟨dtag, hd : c.needBase o.d (x.f 38 37 == 1) = .ok dtag⟩ := Cx.needBase_ok (hd hrem)
      simp only [Cx.copyAgent_ok hfree hprod, beq_eq_false_iff_ne.2 hrem, hd, ha, hlen, Cx.tagFree_busy hbusy, bind, Except.bind,
        Bool.not_false, if_true]
  · intro t ha hb hb' hbusy
    obtain ⟨atag, ha⟩ := Cx.needBase_ok ha
    have hb : c.dataTag o.b (tyOf (x.f 38 35)) = .ok () := hb
    refine word_trap_of_issues h ?_
    by_cases hfn : o.fn = 7
    · have hb' : c.dataTag (o.b.plus (tyOf (x.f 38 35)).regs) (tyOf (x.f 38 35)) = .ok () := hb' hfn
      simp only [Cx.copyAgent_ok hfree hprod, ha, ratomTy, hb, hfn, hb', Cx.tagFree_busy hbusy, bind, Except.bind, if_true]
    · simp only [Cx.copyAgent_ok hfree hprod, ha, ratomTy, hb, hfn, Cx.tagFree_busy hbusy, bind, Except.bind, if_false]
  · intro hbase hbusy
    obtain ⟨tag, hneed⟩ := Cx.needBase_ok hbase
    refine word_trap_of_issues h ?_
    simp only [Cx.agent_ok hfree, hneed, Cx.tagFree_busy hbusy, bind, Except.bind]
  · intro hbusy
    obtain ⟨tag, hneed : c.needBase o.a (x.f 38 38 == 1) = .ok tag⟩ := Cx.needBase_ok hbase
    refine word_trap_of_issues h ?_
    simp only [Cx.accMove, Cx.agent_ok hfree, hneed, Cx.tagFree_busy hbusy, bind, Except.bind, Bool.false_eq_true, if_false]
  · intro hsettled htri hbusy
    obtain ⟨tag, hneed : c.needBase o.a (x.f 38 38 == 1) = .ok tag⟩ := Cx.needBase_ok hbase
    have hsettled : c.tagsSettled (moveSlots o (x.f 37 36 == 3)) = .ok ⟨⟩ := by simpa [moveSlots] using hsettled
    have hslots : needSlots c.u (· != .tri) (moveSlots o (x.f 37 36 == 3)) = .ok ⟨⟩ := needSlots_ok fun k hk => by
      simpa using htri k (by simpa [slots, moveSlots] using hk)
    refine word_trap_of_issues h ?_
    simp only [Cx.accMove, Cx.agent_ok hfree, hsettled, hneed, hslots, Cx.tagFree_busy hbusy, bind, Except.bind, if_true]

end
end

section
/-! PROOFS. The issue of copies and the streams (R194 to R202, R288 to R290). -/

namespace Sys2Proof.Machine
open Sys2Proof.Claims

variable {s t : State} {o : Op} {x : ModX} {c : Cx} {m : Cmd} {agent n : Nat}

/-! ## Descriptors -/

theorem Cx.opVal_toNat (c : Cx) (y : Opd) : (c.opVal y 4).toNat = c.val y 4 c.l0 := by
  rw [Cx.opVal, BitVec.toNat_ofNat]
  exact Nat.mod_eq_of_lt (c.val_lt y 4 c.l0)

/-- Word `k` of a descriptor is its register `k`. -/
theorem Cx.descWord_opVal (c : Cx) (y : Opd) {k : Nat} (hk : k < 4) : descWord (c.opVal y 4) k = (c.reg y k c.l0).toNat := by
  have h0 := (c.reg y 0 c.l0).isLt
  have h1 := (c.reg y 1 c.l0).isLt
  have h2 := (c.reg y 2 c.l0).isLt
  have h3 := (c.reg y 3 c.l0).isLt
  rw [descWord, Cx.opVal_toNat]
  simp only [Cx.val]
  interval_cases k <;> omega

theorem Cx.remOff_opVal (c : Cx) (y : Opd) : remOff (c.opVal y 4) = c.val y 4 c.l0 / 2 ^ 64 := by rw [remOff, Cx.opVal_toNat]

/-! ## Forks of copies -/

/-- A copy with local bases, whatever its stream, stands as issue made it. -/
theorem made_copyCmd (c : Cx) (i : Instr) (o : Op) (dv sv : Bool) (n tag : Nat) (str : Option Nat) :
    Made c { c.copyCmd i o dv sv (BitVec.ofNat 128 n) tag with stream := str } i (baseVal c o.d dv) (baseVal c o.a sv) n :=
  ⟨rfl, rfl, rfl, rfl, rfl, rfl, rfl, rfl, rfl, rfl, rfl⟩

theorem made_remoteCmd (c : Cx) (i : Instr) (o : Op) (lv : Bool) (n tag : Nat) (str : Option Nat) (permit : Bool) :
    Made c { c.remoteCmd i o lv (BitVec.ofNat 128 n) tag with stream := str, permit := permit } i (c.val o.d 4 c.l0) (baseVal c o.a lv) n :=
  ⟨rfl, rfl, rfl, rfl, rfl, rfl, rfl, rfl, rfl, rfl, rfl⟩

/-- The word forks a copy with local bases. -/
theorem copies_local (h : Issues c.s o c) {f : Cx → Exc State} {i : Instr} {dv sv : Bool} {tag : Nat} (str : Option Nat)
    (hb : f c = .ok (c.fork agent { c.copyCmd i o dv sv (BitVec.ofNat 128 n) tag with stream := str })) :
    Issued c c.s (word c.s o f) agent i (baseVal c o.d dv) (baseVal c o.a sv) n fun m => m.tag = some tag ∧ m.remote = false :=
  issued_of h hb (forks_fork h ..) (made_copyCmd ..) ⟨rfl, rfl⟩

/-- The word forks a copy with a remote descriptor. -/
theorem copies_remote (h : Issues c.s o c) {f : Cx → Exc State} {i : Instr} {lv : Bool} {tag : Nat} (str : Option Nat) (permit : Bool)
    (hb : f c = .ok (c.fork agent { c.remoteCmd i o lv (BitVec.ofNat 128 n) tag with stream := str, permit := permit })) :
    Issued c c.s (word c.s o f) agent i (c.val o.d 4 c.l0) (baseVal c o.a lv) n fun m => m.tag = some tag ∧ m.remote = true :=
  issued_of h hb (forks_fork h ..) (made_remoteCmd ..) ⟨rfl, rfl⟩

theorem credEs_eq (o : Op) : credEs o = if o.imm % 4 = 1 then 2 else if o.imm % 4 = 3 then 8 else 4 := by
  have hlt : o.imm % 4 < 4 := Nat.mod_lt _ (by decide)
  unfold credEs
  interval_cases o.imm % 4 <;> rfl

/-- Word `k` of the descriptor at B. -/
def Cx.desc (c : Cx) (o : Op) (k : Nat) : Nat := (c.reg o.b k c.l0).toNat

/-! ## The forms -/

section
variable (h : Issues c.s o c) (hfree : c.u.freeAgent = some agent) (hprod : IsProducer c) (hpend : c.u.pend.getLsbD (x.f 44 39) = false)
include h hfree hprod hpend

theorem cpy_length (hd : BearsBase c o.d (cpyDst x)) (ha : BearsBase c o.a (cpySrc x)) (hfn : o.fn = 0) (hlen : c.length o = .ok n)
    (hsrc : RangeOk c o.a (cpySrc x) 0 n 1 false) (hdst : RangeOk c o.d (cpyDst x) 0 n 1 true) :
    Issued c c.s (exec (.cpy o x) c.s) agent (.cpy o x) (baseVal c o.d (cpyDst x)) (baseVal c o.a (cpySrc x)) n
      fun m => m.tag = some (x.f 44 39) ∧ m.remote = false := by
  obtain ⟨dtag, hd⟩ := Cx.needBase_ok hd
  obtain ⟨atag, ha⟩ := Cx.needBase_ok ha
  unfold RangeOk at hsrc hdst
  refine copies_local h none ?_
  simp only [Cx.copyAgent_ok hfree hprod, hd, ha, hfn, hlen, Cx.tagFree_ok hpend, hsrc, hdst, ok_bind, if_true]
  rfl

theorem cpy_rows (hd : BearsBase c o.d (cpyDst x)) (ha : BearsBase c o.a (cpySrc x)) (hfn : o.fn ≠ 0) (hdesc : c.needDesc o.b = .ok ⟨⟩)
    (hrows : 1 ≤ c.desc o 1 ∧ c.desc o 1 ≤ 65536)
    (hsrc : RangeOk c o.a (cpySrc x) 0 (Machine.span (c.desc o 1) (c.desc o 2) (c.desc o 0)) 1 false)
    (hdst : RangeOk c o.d (cpyDst x) 0 (Machine.span (c.desc o 1) (c.desc o 3) (c.desc o 0)) 1 true) :
    Issued c c.s (exec (.cpy o x) c.s) agent (.cpy o x) (baseVal c o.d (cpyDst x)) (baseVal c o.a (cpySrc x)) (c.val o.b 4 c.l0)
      fun m => m.tag = some (x.f 44 39) ∧ m.remote = false := by
  obtain ⟨dtag, hd⟩ := Cx.needBase_ok hd
  obtain ⟨atag, ha⟩ := Cx.needBase_ok ha
  have hrows : ¬ (decide (c.desc o 1 = 0) || decide (65536 < c.desc o 1)) = true := by
    simp only [Bool.or_eq_true, decide_eq_true_eq]
    omega
  unfold RangeOk Cx.desc at hsrc hdst
  unfold Cx.desc at hrows
  refine copies_local h none ?_
  simp only [Cx.copyAgent_ok hfree hprod, hd, ha, hfn, hdesc, Cx.tagFree_ok hpend, Cx.descWord_opVal, Nat.reduceLT, hsrc, hdst,
    ok_bind, if_false]
  rw [if_neg hrows]
  rfl

theorem cpyz_issues {k : Int} (hd : BearsBase c o.d (cpyDst x)) (ha : BearsBase c o.a (cpySrc x)) (hdesc : c.needDesc o.b = .ok ⟨⟩)
    (hcells : 0 < c.desc o 0 ∧ 0 < c.desc o 1 ∧ c.desc o 0 * c.desc o 1 ≤ 2 ^ 40) (hk : sext 32 (c.desc o 2) = k)
    (hlo : (if x.f 36 36 = 1 then -1075 else -150) ≤ k) (hhi : k ≤ if x.f 36 36 = 1 then 1023 else 127)
    (hsrc : RangeOk c o.a (cpySrc x) 0 (if o.fn = 0 then c.desc o 0 * c.desc o 1 * cpyzEs x else 16) 1 false)
    (hdst : RangeOk c o.d (cpyDst x) 0 (c.desc o 3) 1 true) :
    Issued c c.s (exec (.cpyz o x) c.s) agent (.cpyz o x) (baseVal c o.d (cpyDst x)) (baseVal c o.a (cpySrc x)) (c.val o.b 4 c.l0)
      fun m => m.tag = some (x.f 44 39) ∧ m.remote = false := by
  obtain ⟨dtag, hd⟩ := Cx.needBase_ok hd
  obtain ⟨atag, ha⟩ := Cx.needBase_ok ha
  obtain ⟨hcols, hrows, hcells⟩ := hcells
  have hbounds : ¬ (decide (c.desc o 0 = 0) || decide (c.desc o 1 = 0) || decide (2 ^ 40 < c.desc o 0 * c.desc o 1)
      || decide (k < if x.f 36 36 = 1 then -1075 else -150) || decide ((if x.f 36 36 = 1 then 1023 else 127) < k)) = true := by
    simp only [hcols.ne', hrows.ne', hcells.not_gt, hlo.not_gt, hhi.not_gt, decide_false, Bool.or_false, Bool.false_eq_true, not_false_iff]
  unfold RangeOk at hsrc hdst
  unfold Cx.desc at hbounds hk hsrc hdst
  refine copies_local h none ?_
  simp only [Cx.copyAgent_ok hfree hprod, hd, ha, hdesc, Cx.tagFree_ok hpend, cpyzK, Cx.descWord_opVal, Nat.reduceLT, hk, hsrc, hdst, ok_bind]
  rw [if_neg hbounds]
  rfl

theorem cpyg_issues {off : Nat} (hd : BearsBase c o.d true) (ha : BearsBase c o.a (cpySrc x)) (hdesc : c.needDesc o.b = .ok ⟨⟩)
    (hoff : c.u.ownOffset (c.desc o 2) = some off) (hw0 : c.desc o 0 % 4 = 0 ∧ c.desc o 0 ≤ 65536) (hw1 : 1 ≤ c.desc o 1 ∧ c.desc o 1 ≤ 65536)
    (hw3 : c.desc o 3 = 0) (hoff4 : off % 4 = 0) (hoffv : off + 4 * c.desc o 1 ≤ c.u.vsize)
    (hsrc : RangeOk c o.a (cpySrc x) 0 1 1 false) (hdst : RangeOk c o.d true 0 (c.desc o 0 * c.desc o 1) 1 true) :
    Issued c c.s (exec (.cpyg o x) c.s) agent (.cpyg o x) (baseVal c o.d true) (baseVal c o.a (cpySrc x)) (c.val o.b 4 c.l0)
      fun m => m.tag = some (x.f 44 39) ∧ m.remote = false := by
  obtain ⟨dtag, hd⟩ := Cx.needBase_ok hd
  obtain ⟨atag, ha⟩ := Cx.needBase_ok ha
  have hdims : ¬ (c.desc o 0 % 4 != 0 || decide (65536 < c.desc o 0) || decide (c.desc o 1 = 0) || decide (65536 < c.desc o 1)
      || c.desc o 3 != 0) = true := by
    simp only [Bool.or_eq_true, decide_eq_true_eq, bne_iff_ne]
    omega
  have hlist : ¬ (off % 4 != 0 || decide (c.u.vsize < off + 4 * c.desc o 1)) = true := by
    simp only [Bool.or_eq_true, decide_eq_true_eq, bne_iff_ne]
    omega
  unfold RangeOk at hsrc hdst
  unfold Cx.desc at hoff hdims hlist hdst
  refine copies_local h none ?_
  simp only [Cx.copyAgent_ok hfree hprod, hd, ha, hdesc, Cx.tagFree_ok hpend, Cx.descWord_opVal, Nat.reduceLT, hoff, hsrc, hdst,
    ok_bind]
  rw [if_neg hdims, if_neg hlist]
  rfl

theorem cpyt_issues (hd : BearsBase c o.d true) (ha : BearsBase c o.a (cpySrc x)) (hdesc : c.needDesc o.b = .ok ⟨⟩)
    (hw0 : 1 ≤ c.desc o 0 ∧ c.desc o 0 ≤ 4096) (hw1 : 1 ≤ c.desc o 1 ∧ c.desc o 1 ≤ 4096) (hrow : c.desc o 0 * cpytEs x ≤ c.desc o 2)
    (hcol : c.desc o 1 * cpytEs x ≤ c.desc o 3) (hrowe : c.desc o 2 % cpytEs x = 0) (hcole : c.desc o 3 % cpytEs x = 0)
    (hsrc : RangeOk c o.a (cpySrc x) 0 (Machine.span (c.desc o 1) (c.desc o 2) (c.desc o 0 * cpytEs x)) (cpytEs x) false)
    (hdst : RangeOk c o.d true 0 (Machine.span (c.desc o 0) (c.desc o 3) (c.desc o 1 * cpytEs x)) (cpytEs x) true) :
    Issued c c.s (exec (.cpyt o x) c.s) agent (.cpyt o x) (baseVal c o.d true) (baseVal c o.a (cpySrc x)) (c.val o.b 4 c.l0)
      fun m => m.tag = some (x.f 44 39) ∧ m.remote = false := by
  obtain ⟨dtag, hd⟩ := Cx.needBase_ok hd
  obtain ⟨atag, ha⟩ := Cx.needBase_ok ha
  have hdims : ¬ (decide (c.desc o 0 = 0) || decide (4096 < c.desc o 0) || decide (c.desc o 1 = 0) || decide (4096 < c.desc o 1)
      || decide (c.desc o 2 < c.desc o 0 * cpytEs x) || decide (c.desc o 3 < c.desc o 1 * cpytEs x)) = true := by
    simp only [Bool.or_eq_true, decide_eq_true_eq]
    omega
  have halign : ¬ (c.desc o 2 % cpytEs x != 0 || c.desc o 3 % cpytEs x != 0) = true := by
    simp [hrowe, hcole]
  unfold RangeOk Cx.desc at hsrc hdst
  unfold Cx.desc at hdims halign
  refine copies_local h none ?_
  simp only [Cx.copyAgent_ok hfree hprod, hd, ha, hdesc, Cx.tagFree_ok hpend, Cx.descWord_opVal, Nat.reduceLT, hsrc, hdst, ok_bind]
  rw [if_neg hdims, if_neg halign]
  rfl

theorem cpyr_issues (ha : BearsBase c o.a (x.f 38 38 == 1)) (hlen : c.length o = .ok n)
    (hrange : RangeOk c o.a (x.f 38 38 == 1) 0 n 1 (o.fn == 0)) :
    Issued c c.s (exec (.cpyr o x) c.s) agent (.cpyr o x) (c.val o.d 4 c.l0) (baseVal c o.a (x.f 38 38 == 1)) n
      fun m => m.tag = some (x.f 44 39) ∧ m.remote = true := by
  obtain ⟨atag, ha⟩ := Cx.needBase_ok ha
  unfold RangeOk at hrange
  refine copies_remote h none false ?_
  simp only [Cx.copyAgent_ok hfree hprod, ha, hlen, Cx.tagFree_ok hpend, hrange, ok_bind]
  rfl

/-- The stream of a cred that is ordered. -/
def credStream (o : Op) : Option Nat := if credOrd o then some (credStr o) else none

theorem cred_remote (ha : BearsBase c o.a (x.f 36 36 == 1)) (hlen : c.length o = .ok n) (hdvd : n % credEs o = 0)
    (hsrc : RangeOk c o.a (x.f 36 36 == 1) 0 n (credEs o) false) (hrem : x.f 38 37 = 2) (hoff : remOff (c.opVal o.d 4) % credEs o = 0) :
    Issued c c.s (exec (.cred o x) c.s) agent (.cred o x) (c.val o.d 4 c.l0) (baseVal c o.a (x.f 36 36 == 1)) n
      fun m => m.tag = some (x.f 44 39) ∧ m.remote = true := by
  obtain ⟨atag, ha⟩ := Cx.needBase_ok ha
  unfold RangeOk at hsrc
  refine copies_remote h (credStream o) false ?_
  simp only [Cx.copyAgent_ok hfree hprod, hrem, ha, hlen, Cx.tagFree_ok hpend, hsrc, hdvd, hoff, ok_bind, beq_self_eq_true,
    bne_self_eq_false, Bool.not_true, Bool.false_eq_true, if_false, if_true]
  rfl

theorem cred_local (ha : BearsBase c o.a (x.f 36 36 == 1)) (hlen : c.length o = .ok n) (hdvd : n % credEs o = 0)
    (hsrc : RangeOk c o.a (x.f 36 36 == 1) 0 n (credEs o) false) (hrem : x.f 38 37 ≠ 2) (hd : BearsBase c o.d (x.f 38 37 == 1))
    (hdst : RangeOk c o.d (x.f 38 37 == 1) 0 n (credEs o) true) :
    Issued c c.s (exec (.cred o x) c.s) agent (.cred o x) (baseVal c o.d (x.f 38 37 == 1)) (baseVal c o.a (x.f 36 36 == 1)) n
      fun m => m.tag = some (x.f 44 39) ∧ m.remote = false := by
  obtain ⟨atag, ha⟩ := Cx.needBase_ok ha
  obtain ⟨dtag, hd⟩ := Cx.needBase_ok hd
  unfold RangeOk at hsrc hdst
  refine copies_local h (credStream o) ?_
  simp only [Cx.copyAgent_ok hfree hprod, beq_eq_false_iff_ne.2 hrem, hd, ha, hlen, Cx.tagFree_ok hpend, hsrc, hdst, hdvd, ok_bind,
    bne_self_eq_false, Bool.not_false, Bool.false_eq_true, if_false, if_true]
  rfl

theorem ratom_issues (ha : BearsBase c o.a true) (hb : DataOk c o.b (ratomTy x))
    (hb' : o.fn = 7 → DataOk c (o.b.plus (ratomTy x).regs) (ratomTy x)) (hrange : RangeOk c o.a true 0 (ratomTy x).size (ratomTy x).size true) :
    Issued c c.s (exec (.ratom o x) c.s) agent (.ratom o x) (c.val o.d 4 c.l0) (baseVal c o.a true)
      (c.val o.b (if o.fn = 7 then 2 * (ratomTy x).regs else (ratomTy x).regs) c.l0) fun m => m.tag = some (x.f 44 39) ∧ m.remote = true := by
  obtain ⟨atag, ha⟩ := Cx.needBase_ok ha
  unfold RangeOk at hrange
  unfold DataOk at hb hb'
  refine copies_remote h none true ?_
  by_cases hfn : o.fn = 7
  · simp only [Cx.copyAgent_ok hfree hprod, ha, hb, hfn, hb' hfn, Cx.tagFree_ok hpend, hrange, ok_bind, if_true]
    rfl
  · simp only [Cx.copyAgent_ok hfree hprod, ha, hb, hfn, Cx.tagFree_ok hpend, hrange, ok_bind, if_false]
    rfl

end

end Sys2Proof.Machine

section
open Sys2Proof Sys2Proof.Machine Sys2Proof.Claims

/-- Settles O34: in the producer, with an agent and the tag free, the checks of each copy pass and its command is forked. -/
theorem copyIssue : Obligations.CopyIssue := by
  unfold Obligations.CopyIssue
  intro s o x c agent n h hfree hprod hpend dv sv w desc does span
  obtain rfl := issues_view h
  refine ⟨fun hd ha => ⟨?_, ?_, ?_⟩, fun hd ha hdesc => ⟨fun off => ?_, ?_⟩, ?_, fun ha hlen hdvd hrange => ?_, ?_⟩
  · exact fun hfn hlen hsrc hdst => cpy_length h hfree hprod hpend hd ha hfn hlen hsrc hdst
  · exact fun hfn hdesc hrows hsrc hdst => cpy_rows h hfree hprod hpend hd ha hfn (Cx.needDesc_ok hdesc) hrows hsrc hdst
  · intro e hdesc hcells hk hsrc hdst
    refine cpyz_issues h hfree hprod hpend hd ha (Cx.needDesc_ok hdesc) hcells rfl ?_ ?_ hsrc hdst
    · split_ifs at hk ⊢ <;> exact hk.1
    · split_ifs at hk ⊢ <;> exact hk.2
  · exact fun hoff hw0 hw1 hw3 hoff4 hoffv hsrc hdst =>
      cpyg_issues h hfree hprod hpend hd ha (Cx.needDesc_ok hdesc) hoff hw0 hw1 hw3 hoff4 hoffv hsrc hdst
  · exact fun hw0 hw1 hrow hcol hrowe hcole hsrc hdst =>
      cpyt_issues h hfree hprod hpend hd ha (Cx.needDesc_ok hdesc) hw0 hw1 hrow hcol hrowe hcole hsrc hdst
  · exact fun ha hlen hrange => cpyr_issues h hfree hprod hpend ha hlen hrange
  · rw [← credEs_eq] at hdvd hrange
    refine ⟨fun hrem hoff => cred_remote h hfree hprod hpend ha hlen hdvd hrange hrem ?_, fun d hdv hrem hd hdst => ?_⟩
    · rw [Cx.remOff_opVal, credEs_eq]
      exact hoff
    · subst hdv
      rw [← credEs_eq] at hdst
      exact cred_local h hfree hprod hpend ha hlen hdvd hrange hrem hd hdst
  · exact fun ha hb hb' hrange => ratom_issues h hfree hprod hpend ha hb hb' hrange

end
end

section
/-! PROOFS. The stream registers (R202, R288 to R290). -/

namespace Sys2Proof.Machine
open Sys2Proof.Claims

variable {s t : State} {o : Op} {x : ModX} {c : Cx} {m : Cmd} {agent n q : Nat} {st : Stream} {u : Unit}

/-! ## A unit put in the place of the issuing one -/

theorem unit?_putU (h : Issues c.s o c) (hkey : u.key = c.u.key) : (c.putU u).unit? c.u.key = some u := by
  rw [Cx.putU, State.setUnit, hkey]
  exact unit?_modUnit_of (unit?_of_issues h) (fun _ => u) fun _ _ => hkey

theorem after_putU (h : Issues c.s o c) (hkey : u.key = c.u.key) (hgrps : u.grps = c.u.grps) : c.after (c.putU u) = some c.g := by
  rw [Cx.after, unit?_putU h hkey, Option.bind_some, Unit.grp?, hgrps]
  exact grp?_of_issues h

@[simp] theorem Unit.stream_setStream (u : Unit) (q : Nat) (st : Stream) : (u.setStream q st).stream q = st := Sparse.get_set_same

/-- A unit put in the place of the issuing one, its groups as they were, with clocks that move on. -/
theorem putU_done (h : Issues c.s o c) (hkey : u.key = c.u.key) (hgrps : u.grps = c.u.grps) (f : Race → Race) :
    let t := advance c (withRace (c.putU u) c.u.key f)
    afterIs c t c.g ∧ SameMemory c.s t ∧ ∃ r gs, t.unit? c.u.key = some { u with race := r, grps := gs } := by
  obtain ⟨r, hr⟩ := unit?_withRace_of (unit?_putU h hkey) f
  obtain ⟨gs, hgs⟩ := unit?_advance_of (c := c) hr
  exact ⟨afterIs_advance ((after_withRace ..).trans (after_putU h hkey hgrps)) rfl, sameMemory_of_rd fun sp a => withRace_rd .., r, gs, hgs⟩

/-- The same without clocks. -/
theorem putU_done_plain (h : Issues c.s o c) (hkey : u.key = c.u.key) (hgrps : u.grps = c.u.grps) :
    let t := advance c (c.putU u)
    afterIs c t c.g ∧ SameMemory c.s t ∧ ∃ gs, t.unit? c.u.key = some { u with grps := gs } := by
  obtain ⟨gs, hgs⟩ := unit?_advance_of (c := c) (unit?_putU h hkey)
  exact ⟨afterIs_advance (after_putU h hkey hgrps) rfl, sameMemory_of_rd fun _ _ => rfl, gs, hgs⟩

/-! ## The forms -/

theorem Cx.bound_ok (hb : (c.u.stream q).bound = true) : c.bound q = .ok (c.u.stream q) := if_pos hb

/-- The command of a fill. -/
def Cx.fillCmd (c : Cx) (o : Op) (x : ModX) (st : Stream) : Cmd :=
  { c.newCmd (.sfill o x) with dv := BitVec.ofNat 128 (st.slotAddr st.head), av := c.opVal o.a (baseRegs (x.f 41 41 == 1)),
                               bv := BitVec.ofNat 128 (st.slotb * 64), pmap := c.pmapOf o.a (x.f 41 41 == 1) 2,
                               pins := c.pinOf o.a (x.f 41 41 == 1), fill := some (x.f 44 42, st.head) }

/-- The ring after a fill has taken its next slot. -/
def Stream.filling (st : Stream) : Stream := { st with head := (st.head + 1) % st.n, nfill := st.nfill + 1 }

theorem forkFill_done (h : Issues c.s o c) (agent q : Nat) (m : Cmd) (st : Stream) (f : Race → Race) :
    let t := advance c (withRace ((c.fork agent m).modUnit c.u.key fun u => u.setStream q st) c.u.key f)
    afterIs c t c.g ∧ SameMemory c.s t ∧ ∃ r gs, t.unit? c.u.key = some { (c.u.forked agent m).setStream q st with race := r, grps := gs } := by
  obtain ⟨hafter, hrd, r, hu⟩ := forks_fork h agent m
  have hset := unit?_modUnit_of hu (fun u => u.setStream q st) fun _ hk => hk
  obtain ⟨r', hr'⟩ := unit?_withRace_of hset f
  obtain ⟨gs, hgs⟩ := unit?_advance_of (c := c) hr'
  refine ⟨afterIs_advance ?_ rfl, sameMemory_of_rd fun sp a => (withRace_rd ..).trans (hrd sp a), r', gs, hgs⟩
  rw [after_withRace, after_modUnit (fun u => u.setStream q st) (fun _ hk => hk) fun _ => rfl, hafter]

theorem Unit.forked_untagged (htag : m.tag = none) (u : Unit) (agent : Nat) : u.forked agent m = { u with cmds := u.cmds ++ [(agent, m)] } := by
  simp only [Unit.forked, htag]

theorem sfill_issues (h : Issues c.s o c) (hfree : c.u.freeAgent = some agent) (hprod : IsProducer c) (ha : BearsBase c o.a (x.f 41 41 == 1))
    (hbound : (c.u.stream (x.f 44 42)).bound = true) (hroom : (c.u.stream (x.f 44 42)).room = true)
    (hrange : RangeOk c o.a (x.f 41 41 == 1) o.disp ((c.u.stream (x.f 44 42)).slotb * 64) 1 false) :
    ∃ f, exec (.sfill o x) c.s = .next (advance c (withRace ((c.fork agent (c.fillCmd o x (c.u.stream (x.f 44 42)))).modUnit c.u.key
      fun u => u.setStream (x.f 44 42) (c.u.stream (x.f 44 42)).filling) c.u.key f)) := by
  obtain ⟨atag, ha⟩ := Cx.needBase_ok ha
  unfold RangeOk at hrange
  refine ⟨fun r => r.acquire c.u.key (engineAgent agent) (keyFree (x.f 44 42 * 8192 + (c.u.stream (x.f 44 42)).head)),
    word_of_issues h ?_⟩
  simp only [Cx.copyAgent_ok hfree hprod, ha, Cx.bound_ok hbound, hroom, hrange, ok_bind, Bool.not_true, Bool.false_eq_true, if_false]
  rfl

theorem not_toNat (b : Bool) : (!b).toNat = if b then 0 else 1 := by cases b <;> rfl

theorem spop_waits (h : Issues c.s o c) (hbound : (c.u.stream (x.f 44 42)).bound = true)
    (hempty : (c.u.stream (x.f 44 42)).filled.getLsbD 0 = false) : exec (.spop o x) c.s = .next (enterWait c c.s (.spop (x.f 44 42))) := by
  refine word_wait h ?_
  simp only [Cx.bound_ok hbound, hempty, ok_bind, Bool.not_false, if_true]
  rfl

theorem spop_filled (h : Issues c.s o c) (hbound : (c.u.stream (x.f 44 42)).bound = true)
    (hfilled : (c.u.stream (x.f 44 42)).filled.getLsbD 0 = true) :
    ∃ f, exec (.spop o x) c.s = .next (advance c (withRace ((c.put ((c.g.write o.d 1 .i32
        (fun _ => (c.u.stream (x.f 44 42)).slotAddr (c.u.stream (x.f 44 42)).popi) c.ex).write o.c 1 .raw
        (fun _ => if (c.u.stream (x.f 44 42)).failed.getLsbD 0 then 0 else 1) c.ex)).modUnit c.u.key
      fun u => u.setStream (x.f 44 42) (c.u.stream (x.f 44 42)).pop) c.u.key f)) := by
  refine ⟨fun r => r.acquire c.u.key c.g.gid (keyFill (x.f 44 42) (c.u.stream (x.f 44 42)).popi),
    word_of_issues h ?_⟩
  simp only [Cx.bound_ok hbound, hfilled, not_toNat, ok_bind, Bool.not_true, Bool.false_eq_true, if_false]
  rfl

theorem sfree_done (h : Issues c.s o c) (hbound : (c.u.stream (x.f 44 42)).bound = true) (hpop : 0 < (c.u.stream (x.f 44 42)).npop) :
    ∃ f, exec (.sfree o x) c.s = .next (advance c (withRace (c.putU (c.u.setStream (x.f 44 42)
      { c.u.stream (x.f 44 42) with npop := (c.u.stream (x.f 44 42)).npop - 1 })) c.u.key f)) := by
  refine ⟨fun r => r.release c.u.key c.g.gid (keyFree (x.f 44 42 * 8192 + (c.u.stream (x.f 44 42)).freei)),
    word_of_issues h ?_⟩
  simp only [Cx.bound_ok hbound, hpop.ne', ok_bind, if_false]
  rfl

theorem popped_done (h : Issues c.s o c) (d p : Opd) (v good q : Nat) (st : Stream) (f : Race → Race) :
    let g := (c.g.write d 1 .i32 (fun _ => v) c.ex).write p 1 .raw (fun _ => good) c.ex
    let t := advance c (withRace ((c.put g).modUnit c.u.key fun u => u.setStream q st) c.u.key f)
    afterIs c t g ∧ SameMemory c.s t ∧ ∃ u, t.unit? c.u.key = some u ∧ u.stream q = st := by
  intro g
  obtain ⟨hlive, hgid, hents⟩ := (c.g.write d 1 .i32 (fun _ => v) c.ex).write_same p 1 .raw (fun _ => good) c.ex
  obtain ⟨hlive', hgid', hents'⟩ := c.g.write_same d 1 .i32 (fun _ => v) c.ex
  obtain ⟨gs, hu⟩ := Cx.unit?_put h g
  obtain ⟨r, hr⟩ := unit?_withRace_of (unit?_modUnit_of hu (fun u => u.setStream q st) fun _ hk => hk) f
  obtain ⟨gs', hgs⟩ := unit?_advance_of (c := c) hr
  refine ⟨afterIs_advance ?_ (hents.trans hents'), sameMemory_of_rd fun sp a => withRace_rd .., _, hgs, Unit.stream_setStream ..⟩
  rw [after_withRace, after_modUnit (fun u => u.setStream q st) (fun _ hk => hk) fun _ => rfl]
  exact after_put_of_issues h (hlive.trans hlive') (hgid.trans hgid')

/-- A ring as sfree.init binds it. -/
def Stream.bind (base bytes slots : Nat) : Stream := { Stream.start with base := base, slotb := bytes / 64, nm1 := slots - 1, bound := true }

theorem sfreeInit_done (h : Issues c.s o c) (ha : Bears c o.a 1 [.i32]) (hb : Bears c o.b 1 [.i32])
    (hslots : 1 ≤ o.imm % 8192 ∧ o.imm % 8192 ≤ 4096) (hbytes : 0 < c.val o.b 1 c.l0) (hline : c.val o.b 1 c.l0 % 64 = 0)
    (hown : c.val o.a 1 c.l0 / 2 ^ 22 = 0x1FF)
    (hfits : c.val o.a 1 c.l0 % 2 ^ 22 + o.imm % 8192 * c.val o.b 1 c.l0 ≤ c.u.vsize)
    (hfree : (c.u.stream (x.f 44 42)).bound = false ∨ (c.u.stream (x.f 44 42)).nfill = 0 ∧ (c.u.stream (x.f 44 42)).npop = 0) :
    exec (.sfreeInit o x) c.s = .next (advance c (c.putU (c.u.setStream (x.f 44 42)
      (Stream.bind (c.val o.a 1 c.l0 % 2 ^ 22) (c.val o.b 1 c.l0) (o.imm % 8192))))) := by
  refine word_of_issues h ?_
  have hidle : ((c.u.stream (x.f 44 42)).bound && ((c.u.stream (x.f 44 42)).nfill != 0 || (c.u.stream (x.f 44 42)).npop != 0)) = false := by
    rcases hfree with hfree | ⟨hfill, hpop⟩
    · rw [hfree, Bool.false_and]
    · rw [hfill, hpop]
      exact Bool.and_false _
  have hsome : o.imm % 8192 ≠ 0 := by omega
  have hone : ¬ 4096 < o.imm % 8192 := by omega
  simp only [Cx.need_of_bears ha, Cx.need_of_bears hb, ok_bind, hsome, hone, hbytes.ne', hline, hown, hfits.not_gt, hidle, decide_true,
    decide_false, bne_self_eq_false, Bool.not_true, Bool.or_false, Bool.false_eq_true, if_false]
  rfl

end Sys2Proof.Machine

section
open Sys2Proof Sys2Proof.Machine Sys2Proof.Claims

/-- Settles O30: each form's effect is read off where its checks pass. -/
theorem streamRings : Obligations.StreamRings := by
  unfold Obligations.StreamRings
  intro s o x c agent h q st v n own oldest ring
  obtain rfl := issues_view h
  refine ⟨fun hfree hprod ha hbound hring hfill hrange => ?_, fun hbound hfilled => ?_, fun hbound hempty => spop_waits h hbound hempty,
    fun hbound hpop => ?_, fun ha hb => ?_⟩
  · have hroom : st.room = true := by
      simp only [Stream.room, Bool.and_eq_true, decide_eq_true_eq]
      exact ⟨hring, hfill⟩
    obtain ⟨f, hexec⟩ := sfill_issues h hfree hprod ha hbound hroom hrange
    obtain ⟨hafter, hmem, r, gs, hu⟩ := forkFill_done h agent q (c.fillCmd o x st) st.filling f
    refine ⟨_, _, c.fillCmd o x st, hexec, hu, hafter, hmem, ?_, ?_, rfl, Unit.stream_setStream ..⟩
    · rw [Unit.forked_untagged rfl]
      rfl
    · exact ⟨rfl, rfl, rfl, rfl, rfl, rfl, rfl, rfl, rfl, rfl, rfl⟩
  · obtain ⟨f, hexec⟩ := spop_filled h hbound hfilled
    obtain ⟨hafter, hmem, hu⟩ := popped_done h o.d o.c (st.slotAddr st.popi) (if st.failed.getLsbD 0 then 0 else 1) q st.pop f
    exact ⟨_, hexec, hmem, hafter, hu⟩
  · obtain ⟨f, hexec⟩ := sfree_done h hbound hpop
    obtain ⟨hafter, hmem, r, gs, hu⟩ := putU_done h (u := c.u.setStream q { st with npop := st.npop - 1 }) rfl rfl f
    exact ⟨_, hexec, hafter, hmem, _, hu, Unit.stream_setStream ..⟩
  · intro a k m hslots ⟨hbytes, hline⟩ hown hfits hfree
    obtain ⟨hafter, hmem, gs, hu⟩ := putU_done_plain h (u := c.u.setStream q (Stream.bind (a % 2 ^ 22) k m)) rfl rfl
    exact ⟨_, sfreeInit_done h ha hb hslots hbytes hline hown hfits hfree, hafter, hmem, _, hu, Unit.stream_setStream ..⟩

end
end

section
/-! PROOFS. The issue of factor commands (R190, R191, R277). -/

namespace Sys2Proof.Machine
open Sys2Proof.Claims

variable {s t : State} {o : Op} {x : ModX} {c : Cx} {m : Cmd} {i : Instr} {agent b : Nat} {others : List Nat}

/-! ## Cores after a fork -/

theorem withRace_cores' (s : State) (k : UKey) (f : Race → Race) : (withRace s k f).cores = s.cores := by
  unfold withRace
  split <;> rfl

theorem fork_cores (c : Cx) (agent : Nat) (m : Cmd) : (c.fork agent m).cores = c.s.cores := by
  have hpins : ∀ (ks : List Nat) (s : State), (ks.foldl (fun s k => copyPin s c.u.ctx k true) s).cores = s.cores := fun ks => by
    induction ks with
    | nil => exact fun _ => rfl
    | cons k ks ih => exact fun s => ih _
  rw [Cx.fork, withRace_cores', State.modUnit_cores, hpins]

theorem advance_cores (c : Cx) (s : State) : (advance c s).cores = s.cores := rfl

@[simp] theorem State.core_modCore (s : State) (n : Nat) (f : Core → Core) : (s.modCore n f).core n = f (s.core n) := Sparse.get_set_same

/-! ## What a factor command needs -/

theorem meets_eq_false {xs ys : List Nat} (h : ∀ k ∈ xs, k ∉ ys) : meets xs ys = false := by
  simpa [meets] using h

/-- A command as a factor word makes it, before its vector or its scale. -/
def Cx.facCmd (c : Cx) (i : Instr) (o : Op) : Cmd :=
  { c.newCmd i with wb := c.waitBar (o.imm / 2 ^ 27), ab := some (o.imm / 2 ^ 23 % 16) }

/-- The barriers of a factor command. -/
def FacBars (c : Cx) (o : Op) (m : Cmd) : Prop :=
  m.tag = none ∧ m.ab = some (o.imm / 2 ^ 23 % 16) ∧ m.wb = if o.imm / 2 ^ 27 < 16 then some (o.imm / 2 ^ 27, (c.u.bar (o.imm / 2 ^ 27)).ph) else none

/-- The slots of a factor command are the unit's, and its tile stands apart from the others. -/
def FacFits (c : Cx) (o : Op) (x : ModX) (others : List Nat) : Prop :=
  (∀ k ∈ facTile o x ++ others, k < c.u.aslots) ∧ ∀ k ∈ facTile o x, k ∉ others

theorem Cx.facFork_ok {f : Cmd → Cmd} (hfits : FacFits c o x others) :
    c.facFork i o x agent others f = .ok ((c.fork agent (f (c.facCmd i o))).modCore c.u.core fun k => { k with fq := k.fq ++ [(c.u.key, agent)] }) := by
  obtain ⟨hslots, happart⟩ := hfits
  simp only [Cx.facFork, Cx.haveSlots_ok hslots, meets_eq_false happart, ok_bind, Bool.false_eq_true, if_false]
  rfl

theorem Cx.needTile_ok (htile : c.u.hasTile o x = true) : c.needTile o x = .ok ⟨⟩ := by
  have htri : ∀ k ∈ facTile o x, (c.u.accTag k == .tri) = true := by
    unfold Unit.hasTile at htile
    simp only [Bool.and_eq_true, List.all_eq_true] at htile
    exact htile.1.1
  simp only [Cx.needTile, needSlots_ok (ok := fun t => t == .tri) htri, htile, ok_bind, Bool.not_true, Bool.and_false, Bool.false_eq_true, if_false]
  rfl

theorem Cx.needVec_ok {n : Nat} (h : ∀ k < n, Bears c (o.a.plus (facStep x * k)) (facStep x) [facTag x]) : c.needVec o.a x n = .ok ⟨⟩ := by
  induction n with
  | zero => rfl
  | succ n ih =>
    simp only [Cx.needVec, ih fun k hk => h k (Nat.lt_succ_of_lt hk), Cx.need_of_bears (h n n.lt_succ_self), ok_bind]
    rfl

/-- A factor word whose checks pass up to its fork issues its command and enters the factor queue of its core. -/
theorem factor_issues (h : Issues c.s o c) {body : Cx → Exc State} {f : Cmd → Cmd} {more : Cmd → Prop}
    (hb : body c = c.facFork i o x agent others f) (hfits : FacFits c o x others)
    (hmade : Made c (f (c.facCmd i o)) i 0 0 b) (hmore : FacBars c o (f (c.facCmd i o)) ∧ more (f (c.facCmd i o))) :
    Issued c c.s (word c.s o body) agent i 0 0 b (fun m => FacBars c o m ∧ more m)
      ∧ ∃ t, word c.s o body = .next t ∧ (t.core c.u.core).fq = (c.s.core c.u.core).fq ++ [(c.u.key, agent)] := by
  rw [Cx.facFork_ok hfits] at hb
  refine ⟨issued_of h hb ((forks_fork h ..).modCore ..) hmade hmore, _, word_of_issues h hb, ?_⟩
  rw [State.core_congr (advance_cores ..), State.core_modCore, State.core_congr (fork_cores ..)]

/-! ## The forms -/

section
variable (h : Issues c.s o c) (hfree : c.u.freeAgent = some agent)
include h hfree

/-- What a factor command's issue leaves. -/
def FacDoes (c : Cx) (o : Op) (agent : Nat) (i : Instr) (b : Nat) (more : Cmd → Prop) : Prop :=
  Issued c c.s (exec i c.s) agent i 0 0 b (fun m => FacBars c o m ∧ more m)
    ∧ ∃ t, exec i c.s = .next t ∧ (t.core c.u.core).fq = (c.s.core c.u.core).fq ++ [(c.u.key, agent)]

theorem trchol_does (hsettled : c.tagsSettled (facTile o x ++ gramSlots o x) = .ok ⟨⟩) (hfits : FacFits c o x (gramSlots o x))
    (htags : ∀ k ∈ facTile o x, c.u.accTag k ∈ [Tag.raw, .f32, .f64, .tri]) :
    FacDoes c o agent (.trchol o x) 0 fun m => m.trapf = (o.fn == 0) := by
  have hslots : needSlots c.u (fun t => t == .raw || t == .f32 || t == .f64 || t == .tri) (facTile o x) = .ok ⟨⟩ :=
    needSlots_ok fun k hk => by simpa [or_assoc] using htags k hk
  refine factor_issues (f := fun m => { m with trapf := o.fn == 0 }) h ?_ hfits ⟨rfl, rfl, rfl, rfl, rfl, rfl, rfl, rfl, rfl, rfl, rfl⟩ ⟨⟨rfl, rfl, rfl⟩, rfl⟩
  simp only [Cx.agent_ok hfree, hsettled, hslots, ok_bind]

section
variable (htile : c.u.hasTile o x = true) (hsettled : c.tagsSettled (facTile o x) = .ok ⟨⟩) (hfits : FacFits c o x [])
include htile hsettled hfits

theorem trupd_does (hvec : c.needVec o.a x (if facNc x = 3 then 2 else 1) = .ok ⟨⟩) :
    FacDoes c o agent (.trupd o x) 0 fun m => m.vec = c.vector o.a x := by
  refine factor_issues (f := fun m => { m with vec := c.vector o.a x }) h ?_ hfits ⟨rfl, rfl, rfl, rfl, rfl, rfl, rfl, rfl, rfl, rfl, rfl⟩ ⟨⟨rfl, rfl, rfl⟩, rfl⟩
  simp only [Cx.agent_ok hfree, hsettled, Cx.needTile_ok htile, hvec, ok_bind]

theorem trdwd_does (hvec : c.needVec o.a x (if facNc x = 3 then 2 else 1) = .ok ⟨⟩) :
    FacDoes c o agent (.trdwd o x) 0 fun m => m.vec = c.vector o.a x ∧ m.trapf = (o.fn == 0) := by
  refine factor_issues (f := fun m => { m with vec := c.vector o.a x, trapf := o.fn == 0 }) h ?_ hfits ⟨rfl, rfl, rfl, rfl, rfl, rfl, rfl, rfl, rfl, rfl, rfl⟩ ⟨⟨rfl, rfl, rfl⟩, rfl, rfl⟩
  simp only [Cx.agent_ok hfree, hsettled, Cx.needTile_ok htile, hvec, ok_bind]

theorem trsolve_does (hvec : c.needVec o.a x (if facNc x = 3 then 2 else 1) = .ok ⟨⟩) :
    FacDoes c o agent (.trsolve o x) 0 fun m => m.vec = c.vector o.a x := by
  refine factor_issues (f := fun m => { m with vec := c.vector o.a x }) h ?_ hfits ⟨rfl, rfl, rfl, rfl, rfl, rfl, rfl, rfl, rfl, rfl, rfl⟩ ⟨⟨rfl, rfl, rfl⟩, rfl⟩
  simp only [Cx.agent_ok hfree, hsettled, Cx.needTile_ok htile, hvec, ok_bind]

theorem trscale_does (hb : Bears c o.b (facStep x) [facTag x]) :
    FacDoes c o agent (.trscale o x) (c.val o.b (facStep x) c.l0) fun _ => True := by
  refine factor_issues (f := fun m => { m with bv := c.opVal o.b (facStep x) }) h ?_ hfits ⟨rfl, rfl, rfl, rfl, rfl, rfl, rfl, rfl, rfl, rfl, rfl⟩ ⟨⟨rfl, rfl, rfl⟩, trivial⟩
  simp only [Cx.agent_ok hfree, hsettled, Cx.needTile_ok htile, Cx.need_of_bears hb, ok_bind]

end

theorem trupd8_does (htile : c.u.hasTile o x = true) (hsettled : c.tagsSettled (facTile o x ++ sourceSlots o x) = .ok ⟨⟩)
    (hfits : FacFits c o x (sourceSlots o x)) (htags : ∀ k ∈ sourceSlots o x, c.u.accTag k = .raw ∨ c.u.accTag k = facTag x) :
    FacDoes c o agent (.trupd8 o x) 0 fun _ => True := by
  have hslots : needSlots c.u (fun t => t == .raw || t == facTag x) (sourceSlots o x) = .ok ⟨⟩ :=
    needSlots_ok fun k hk => by simpa using htags k hk
  refine factor_issues (f := id) h ?_ hfits ⟨rfl, rfl, rfl, rfl, rfl, rfl, rfl, rfl, rfl, rfl, rfl⟩ ⟨⟨rfl, rfl, rfl⟩, trivial⟩
  simp only [Cx.agent_ok hfree, hsettled, Cx.needTile_ok htile, hslots, ok_bind]

end

theorem facTag_eq (x : ModX) : facTag x = if x.f 42 42 = 1 then .f64 else .f32 := by simp [facTag, facF64]

theorem facStep_eq (x : ModX) : facStep x = if x.f 42 42 = 1 then 2 else 1 := by simp [facStep, facF64]

/-- A vector of a tile of order 64 has two pieces, any other one. -/
theorem facN_pieces (x : ModX) : (if facN x = 64 then 2 else 1) = if facNc x = 3 then 2 else 1 := by
  have hlt : facNc x < 4 := Nat.mod_lt _ (by decide)
  unfold facN
  interval_cases facNc x <;> rfl

end Sys2Proof.Machine

section
open Sys2Proof Sys2Proof.Machine Sys2Proof.Claims

/-- Settles O33: with an agent free and the slots accepted, each factor word forks its command and queues it. -/
theorem factorIssue : Obligations.FactorIssue := by
  unfold Obligations.FactorIssue
  intro s o x c agent h hfree n f64 step t tile bars vec queued does fits vecOk
  obtain rfl := issues_view h
  have hstep : step = facStep x := (facStep_eq x).symm
  have ht : t = facTag x := (facTag_eq x).symm
  clear_value step t
  subst hstep ht
  have hvec (hv : vecOk) : c.needVec o.a x (if facNc x = 3 then 2 else 1) = .ok ⟨⟩ :=
    Cx.needVec_ok fun k hk => hv k (facN_pieces x ▸ hk)
  refine ⟨fun hsettled hfits htags => trchol_does h hfree hsettled hfits htags, fun htile => ⟨fun hsettled hfits hv => ⟨?_, ?_⟩, ?_, ?_, ?_⟩⟩
  · exact trupd_does h hfree htile hsettled hfits (hvec hv)
  · exact trdwd_does h hfree htile hsettled hfits (hvec hv)
  · exact fun hsettled hfits htags => trupd8_does h hfree htile hsettled hfits htags
  · exact fun hsettled hfits hv => trsolve_does h hfree htile hsettled hfits (hvec hv)
  · exact fun hsettled hfits hb => trscale_does h hfree htile hsettled hfits hb

end
end

section
/-! PROOFS. The issue to the matrix array (R182 to R185, R189). -/

namespace Sys2Proof.Machine
open Sys2Proof.Claims

variable {s t : State} {o : Op} {x : ModX} {c : Cx} {m : Cmd} {i : Instr} {agent : Nat} {f : Core → Core}

/-! ## The core after a fork -/

/-- The core of the issuing unit after a fork and one change. -/
theorem core_forked (c : Cx) (agent : Nat) (m : Cmd) (f : Core → Core) :
    (advance c ((c.fork agent m).modCore c.u.core f)).core c.u.core = f (c.s.core c.u.core) := by
  rw [State.core_congr (advance_cores ..), State.core_modCore, State.core_congr (fork_cores ..)]

theorem issued_exec {out : Host.Outcome State Fault Refusal} {d a b : Nat} {more : Cmd → Prop} (hexec : out = .next (advance c t))
    (ht : Forks c t agent m) (hm : Made c m i d a b) (hmore : more m) : Issued c c.s out agent i d a b more :=
  ⟨_, m, hexec, ht.forked, hm, hmore⟩

/-! ## Quarters -/

theorem quarter_ne_zero (ex : Word) {q : Nat} (hq : q < 4) : ex.toNat / 256 ^ q % 256 ≠ 0 ↔ ∃ l ∈ lanesOf ex, l / 8 = q := by
  have hpow : 256 ^ q = 2 ^ (8 * q) := by rw [Nat.pow_mul]
  have hbit (k : Nat) (hk : k < 8) : (ex.toNat / 256 ^ q % 256).testBit k = ex.getLsbD (8 * q + k) := by
    rw [hpow, show 256 = 2 ^ 8 from rfl, Nat.testBit_mod_two_pow, Nat.testBit_div_two_pow, decide_eq_true hk, Bool.true_and,
      Nat.add_comm]
    rfl
  constructor
  · intro hne
    obtain ⟨k, hk⟩ := Nat.exists_testBit_of_ne_zero hne
    have hk8 : k < 8 := by
      by_contra hge
      have hlt : ex.toNat / 256 ^ q % 256 < 2 ^ k :=
        (Nat.mod_lt _ (by decide)).trans_le (Nat.pow_le_pow_right (n := 2) (by decide) (not_lt.1 hge))
      rw [Nat.testBit_lt_two_pow hlt] at hk
      cases hk
    rw [hbit k hk8] at hk
    exact ⟨8 * q + k, List.mem_filter.2 ⟨List.mem_range.2 (by omega), hk⟩, by omega⟩
  · rintro ⟨l, hl, rfl⟩ hzero
    have hex := (List.mem_filter.1 hl).2
    have hclear := hbit (l % 8) (Nat.mod_lt _ (by decide))
    rw [hzero, Nat.zero_testBit, show 8 * (l / 8) + l % 8 = l by omega] at hclear
    simp [← hclear] at hex

/-- The quarters of a word are those with an executing lane. -/
theorem quartersOf_eq (ex : Word) : quartersOf ex = (List.range 4).filter fun q => (lanesOf ex).any fun l => l / 8 == q := by
  refine List.filter_congr fun q hq => ?_
  rw [Bool.eq_iff_iff, bne_iff_ne, quarter_ne_zero ex (List.mem_range.1 hq), List.any_eq_true]
  simp

/-! ## ldpl and plswap (R183, R184) -/

/-- The command of an ldpl. -/
def Cx.ldplCmd (c : Cx) (o : Op) (x : ModX) : Cmd :=
  { c.newCmd (.ldpl o x) with av := c.opVal o.a (baseRegs (x.f 40 40 = 1)), pmap := c.pmapOf o.a (x.f 40 40 = 1) 2,
                              pins := c.pinOf o.a (x.f 40 40 = 1), tag := some (x.f 39 34), permit := true }

/-- The core after an ldpl has entered its queue. -/
def Core.loading (k : Core) (u : UKey) (agent : Nat) (x : ModX) : Core :=
  { k with planeq := Sparse.set .raw k.planeq (2 * x.f 44 44 + 1) (planeTag (x.f 43 41)), mq := k.mq ++ [.load u agent] }

theorem ldpl_exec (h : Issues c.s o c) (hfree : c.u.freeAgent = some agent) (ha : BearsBase c o.a (x.f 40 40 = 1))
    (htag : c.u.pend.getLsbD (x.f 39 34) = false) (hslots : c.u.aslots ≠ 0)
    (hrange : RangeOk c o.a (x.f 40 40 = 1) o.disp (imageBytes (x.f 43 41)) 256 false) :
    Issued c c.s (exec (.ldpl o x) c.s) agent (.ldpl o x) 0 (baseVal c o.a (x.f 40 40 = 1)) 0 (fun m => m.tag = some (x.f 39 34))
      ∧ ∃ t, exec (.ldpl o x) c.s = .next t ∧ t.core c.u.core = (c.s.core c.u.core).loading c.u.key agent x := by
  obtain ⟨atag, ha⟩ := Cx.needBase_ok ha
  unfold RangeOk at hrange
  have hexec : exec (.ldpl o x) c.s =
      .next (advance c ((c.fork agent (c.ldplCmd o x)).modCore c.u.core fun k => k.loading c.u.key agent x)) := by
    refine word_of_issues h ?_
    simp only [Cx.agent_ok hfree, ha, Cx.tagFree_ok htag, hslots, hrange, ok_bind, if_false]
    rfl
  exact ⟨issued_exec hexec ((forks_fork h ..).modCore ..) ⟨rfl, rfl, rfl, rfl, rfl, rfl, rfl, rfl, rfl, rfl, rfl⟩ rfl, _, hexec, core_forked ..⟩

/-- The core after a plswap has entered its queue. -/
def Core.swapping (k : Core) (x : ModX) (know : Know) : Core :=
  { k.queueSwap (x.f 44 44) with plknow := notedKnow k.plknow (x.f 44 44) know }

theorem plswap_exec (h : Issues c.s o c) (hslots : c.u.aslots ≠ 0) :
    ∃ t, exec (.plswap o x) c.s = .next t ∧ afterIs c t c.g ∧ SameMemory c.s t
      ∧ t.core c.u.core = (c.s.core c.u.core).swapping x (knowOf c.s c.u.key c.g.gid) := by
  refine ⟨advance c ((withRace c.s c.u.key fun r => r.advance c.g.gid).modCore c.u.core
    fun k => k.swapping x (knowOf c.s c.u.key c.g.gid)), word_of_issues h ?_, ?_, ?_, ?_⟩
  · simp only [hslots, if_false]
    rfl
  · exact afterIs_advance ((after_withRace ..).trans (after_of_issues h)) rfl
  · exact sameMemory_of_rd fun sp a => withRace_rd ..
  · rw [State.core_congr (advance_cores ..), State.core_modCore, State.core_congr (withRace_cores' ..)]

/-- A plswap exchanges the tags of the plane's buffers in queue order. -/
theorem Core.planeq_queueSwap (k : Core) (plane : Nat) {b : Nat} (hb : b < 2) :
    Sparse.get .raw (k.queueSwap plane).planeq (2 * plane + b) = Sparse.get .raw k.planeq (2 * plane + (1 - b)) := by
  rw [Core.queueSwap, Sparse.get_set, Sparse.get_set]
  interval_cases b
  · exact (if_neg (by omega)).trans (if_pos rfl)
  · exact if_pos rfl

/-! ## mmq (R185) -/

/-- The offsets an mmq reads. -/
def Cx.mmqRows (c : Cx) (o : Op) : List DWord :=
  (List.range 32).map fun l => if c.ex.getLsbD l then BitVec.ofNat 64 (wrap 32 (c.rowOff o l)) else 0

/-- The command of an mmq. -/
def Cx.mmqCmd (c : Cx) (o : Op) (x : ModX) : Cmd :=
  { c.newCmd (.mmq o x) with av := c.opVal o.a 1, wb := c.waitBar (o.imm / 2 ^ 27), ab := arriveBar (o.imm / 2 ^ 22 % 32),
                             vec := c.mmqRows o, quarters := quartersOf c.ex }

/-- The slots an mmq names. -/
def Cx.mmqAll (c : Cx) (o : Op) (x : ModX) : List Nat := (quartersOf c.ex).flatMap (mmqSlots o x)

theorem Cx.mmqRows_getD (c : Cx) (o : Op) {l : Nat} (hl : l ∈ c.lanes) : (c.mmqRows o).getD l 0 = BitVec.ofNat 64 (wrap 32 (c.rowOff o l)) := by
  obtain ⟨hlt, hex⟩ := List.mem_filter.1 hl
  have hlen : l < (c.mmqRows o).length := by simpa [Cx.mmqRows] using hlt
  rw [List.getD_eq_getElem _ _ hlen]
  simp only [Cx.mmqRows, List.getElem_map, List.getElem_range]
  exact if_pos hex

theorem mmq_exec (h : Issues c.s o c) (hfree : c.u.freeAgent = some agent) (hsettled : c.tagsSettled (c.mmqAll o x) = .ok ⟨⟩)
    (ha : Bears c o.a 1 [.i32]) (hb : Bears c o.b 1 [.i32])
    (htag : Sparse.get .raw (c.s.core c.u.core).planeq (2 * x.f 41 41) = planeTag (mmqFmt x))
    (hslots : ∀ k ∈ c.mmqAll o x, k < c.u.aslots ∧ (c.u.accTag k = .raw ∨ c.u.accTag k = if mmqFmt x = 5 then .f64 else .f32))
    (hrows : ∀ l ∈ c.lanes, ∃ loc, resolveVault c.s c.u l (c.val o.a 1 l) (c.rowOff o l) (rowBytes (mmqFmt x)) 16 false = .ok loc) :
    ∃ f, exec (.mmq o x) c.s = .next (advance c ((withRace (c.fork agent (c.mmqCmd o x)) c.u.key f).modCore c.u.core fun k =>
      { k with mq := k.mq ++ (quartersOf c.ex).map fun q => .quarter c.u.key agent q })) := by
  have hneed : needSlots c.u (fun t => t == .raw || t == (if mmqFmt x = 5 then .f64 else .f32)) (c.mmqAll o x) = .ok ⟨⟩ :=
    needSlots_ok fun k hk => by simpa using (hslots k hk).2
  have hhave : c.haveSlots (c.mmqAll o x) = .ok ⟨⟩ := Cx.haveSlots_ok fun k hk => (hslots k hk).1
  have : Nonempty Loc := ⟨.vault 0⟩
  choose! loc hloc using hrows
  refine ⟨fun r => r.learn c.u.key (engineAgent agent) (Sparse.get [] (c.s.core c.u.core).plknow (x.f 41 41)), word_of_issues h ?_⟩
  unfold Cx.mmqAll at hsettled hneed hhave
  simp only [Cx.agent_ok hfree, hsettled, Cx.need_of_bears ha, Cx.need_of_bears hb, htag, hneed, hhave, mapLanes_ok hloc, ok_bind,
    bne_self_eq_false, Bool.false_eq_true, if_false]
  rfl

/-! ## accld and accst (R189) -/

/-- The command of an accumulator move. -/
def Cx.moveCmd (c : Cx) (i : Instr) (o : Op) (x : ModX) : Cmd :=
  { c.newCmd i with av := c.opVal o.a (baseRegs (x.f 38 38 == 1)), pmap := c.pmapOf o.a (x.f 38 38 == 1) 2,
                    pins := c.pinOf o.a (x.f 38 38 == 1), tag := some (x.f 44 39), permit := true }

theorem accMove_ok {load : Bool} (hfree : c.u.freeAgent = some agent) (ha : BearsBase c o.a (x.f 38 38 == 1))
    (htag : c.u.pend.getLsbD (x.f 44 39) = false) (hslots : ∀ k ∈ moveSlots o (x.f 37 36 == 3), k < c.u.aslots)
    (hload : load = true → c.tagsSettled (moveSlots o (x.f 37 36 == 3)) = .ok ⟨⟩ ∧ ∀ k ∈ moveSlots o (x.f 37 36 == 3), c.u.accTag k ≠ .tri)
    (hrange : RangeOk c o.a (x.f 38 38 == 1) 0 (2048 * (moveSlots o (x.f 37 36 == 3)).length) 256 (!load)) :
    c.accMove i o x load = .ok (c.fork agent (c.moveCmd i o x)) := by
  obtain ⟨atag, ha⟩ := Cx.needBase_ok ha
  unfold RangeOk at hrange
  cases load with
  | false =>
    simp only [Cx.accMove, Cx.agent_ok hfree, ha, Cx.tagFree_ok htag, Cx.haveSlots_ok hslots, hrange, ok_bind, Bool.false_eq_true, if_false]
    rfl
  | true =>
    obtain ⟨hsettled, htri⟩ := hload rfl
    have hneed : needSlots c.u (· != .tri) (moveSlots o (x.f 37 36 == 3)) = .ok ⟨⟩ := needSlots_ok fun k hk => by simpa using htri k hk
    simp only [Cx.accMove, Cx.agent_ok hfree, hsettled, ha, hneed, Cx.tagFree_ok htag, Cx.haveSlots_ok hslots, hrange, ok_bind, if_true]
    rfl

theorem moveSlots_eq (o : Op) (x : ModX) :
    moveSlots o (x.f 37 36 == 3) = if x.f 37 36 = 3 then [o.imm % 128, o.imm % 128 + 1] else [o.imm % 128] := by
  simp [moveSlots]

theorem mmqAll_eq (c : Cx) (o : Op) (x : ModX) :
    c.mmqAll o x = ((List.range 4).filter fun q => c.lanes.any fun l => l / 8 == q).flatMap fun q =>
      if x.f 44 42 = 5 then [o.d.code + 2 * q, o.d.code + 2 * q + 1] else [o.d.code + q] := by
  rw [Cx.mmqAll, quartersOf_eq]
  rfl

end Sys2Proof.Machine

section
open Sys2Proof Sys2Proof.Machine Sys2Proof.Claims

/-- Settles O31: each word's checks pass, its command is forked, and its core's queue and tags are read off. -/
theorem matrixIssue : Obligations.MatrixIssue := by
  unfold Obligations.MatrixIssue
  intro s o x c agent h hfree core tag free
  obtain rfl := issues_view h
  refine ⟨fun ha htag hslots hrange => ?_, fun hslots => ?_, ?_, fun ha htag hslots => ⟨fun hsettled htri hrange => ?_, fun hrange => ?_⟩⟩
  · obtain ⟨hissued, t, hexec, hcore⟩ := ldpl_exec h hfree ha htag hslots hrange
    refine ⟨hissued, t, hexec, congrArg Core.mq hcore, ?_⟩
    exact (congrArg (fun k : Core => Sparse.get .raw k.planeq (2 * x.f 44 44 + 1)) hcore).trans Sparse.get_set_same
  · obtain ⟨t, hexec, hafter, hmem, hcore⟩ := plswap_exec (x := x) h hslots
    refine ⟨t, hexec, hafter, hmem, congrArg Core.mq hcore, (congrArg Core.plane hcore).trans rfl,
      (congrArg Core.planet hcore).trans rfl, fun k hk => ?_⟩
    exact (congrArg (fun k' : Core => Sparse.get .raw k'.planeq (2 * x.f 44 44 + k)) hcore).trans (Core.planeq_queueSwap _ _ hk)
  · intro qs slots row hsettled ha hb htag hslots hrows
    have hq : quartersOf c.ex = qs := quartersOf_eq c.ex
    have hall : c.mmqAll o x = slots := mmqAll_eq c o x
    rw [← hall] at hsettled hslots
    obtain ⟨f, hexec⟩ := mmq_exec h hfree hsettled ha hb htag hslots hrows
    refine ⟨issued_exec hexec (((forks_fork h ..).withRace f).modCore ..) ⟨rfl, rfl, rfl, rfl, rfl, rfl, rfl, rfl, rfl, rfl, rfl⟩
      ⟨rfl, hq, rfl, rfl, fun l hl => c.mmqRows_getD o hl⟩, _, hexec, ?_⟩
    rw [← hq]
    simp only [core, State.core_congr (advance_cores ..), State.core_modCore, State.core_congr (withRace_cores' ..), State.core_congr (fork_cores ..)]
  · rw [← moveSlots_eq] at hsettled htri hslots hrange
    exact issued_of (m := c.moveCmd (.accld o x) o x) h (accMove_ok (load := true) hfree ha htag hslots (fun _ => ⟨hsettled, htri⟩) hrange) (forks_fork h ..)
      ⟨rfl, rfl, rfl, rfl, rfl, rfl, rfl, rfl, rfl, rfl, rfl⟩ rfl
  · rw [← moveSlots_eq] at hslots hrange
    exact issued_of (m := c.moveCmd (.accst o x) o x) h (accMove_ok (load := false) hfree ha htag hslots (fun hload => Bool.noConfusion hload) hrange) (forks_fork h ..)
      ⟨rfl, rfl, rfl, rfl, rfl, rfl, rfl, rfl, rfl, rfl, rfl⟩ rfl

end
end

section
/-! PROOFS. Accumulator slots and the registers of a group (R187, R188, R265). -/

namespace Sys2Proof.Machine
open Sys2Proof.Claims

variable {s t : State} {o : Op} {x : ModX} {c : Cx} {g : Group} {u : Unit} {r n : Nat} {w : Nat → Nat → Word}

/-! ## Registers filled row by row -/

theorem Group.foldl_setV (g : Group) (r : Nat) (f : Nat → Word) (ls : List Nat) :
    ls.foldl (fun g l => g.setV r l (f l)) g = g.setVLanes r f ls := by
  induction ls generalizing g with
  | nil => rfl
  | cons l ls ih => exact ih _

/-- The registers from `r` on, filled with the words of `w` in every lane. -/
def Group.fillRows (g : Group) (r : Nat) (w : Nat → Nat → Word) (t : Tag) (n : Nat) : Group :=
  (List.range n).foldl (fun g i => ((List.range 32).foldl (fun g l => g.setV (r + i) l (w i l)) g).setVtag (r + i) t) g

theorem Group.fillRows_succ (g : Group) (r : Nat) (w : Nat → Nat → Word) (t : Tag) (n : Nat) :
    g.fillRows r w t (n + 1) = ((g.fillRows r w t n).setVLanes (r + n) (w n) (List.range 32)).setVtag (r + n) t := by
  rw [Group.fillRows, List.range_succ (n := n), List.foldl_append, ← Group.foldl_setV]
  rfl

theorem Group.fillRows_cases (g : Group) (r : Nat) (w : Nat → Nat → Word) (t : Tag) (n : Nat) :
    ∃ v vt, g.fillRows r w t n = { g with v := v, vt := vt } := by
  induction n with
  | zero => exact ⟨g.v, g.vt, rfl⟩
  | succ n ih =>
    obtain ⟨v, vt, h⟩ := ih
    obtain ⟨v', h'⟩ := Group.setVLanes_cases (g.fillRows r w t n) (r + n) (w n) (List.range 32)
    rw [Group.fillRows_succ, h', h]
    exact ⟨_, _, rfl⟩

theorem Group.getV_setVtag (r : Nat) (t : Tag) (q l : Nat) : (g.setVtag r t).getV q l = g.getV q l := rfl

theorem Group.getV_fillRows (w : Nat → Nat → Word) (t : Tag) (n q : Nat) {l : Nat} (hl : l < 32) :
    (g.fillRows r w t n).getV q l = if r ≤ q ∧ q < r + n then w (q - r) l else g.getV q l := by
  induction n with
  | zero => exact (if_neg (by omega)).symm
  | succ n ih =>
    rw [Group.fillRows_succ, Group.getV_setVtag, Group.getV_setVLanes _ _ _ (fun _ => List.mem_range.1) _ _ hl, ih]
    by_cases hq : q = r + n
    · rw [if_pos ⟨hq, List.mem_range.2 hl⟩, if_pos (by omega), hq, Nat.add_sub_cancel_left]
    · rw [if_neg fun h => hq h.1]
      exact if_congr (by omega) rfl rfl

theorem Group.vtag_setVLanes (r : Nat) (f : Nat → Word) (ls : List Nat) (q : Nat) : (g.setVLanes r f ls).vtag q = g.vtag q := by
  obtain ⟨v, h⟩ := Group.setVLanes_cases g r f ls
  rw [h]
  rfl

theorem Group.vtag_fillRows (w : Nat → Nat → Word) (t : Tag) (n q : Nat) :
    (g.fillRows r w t n).vtag q = if r ≤ q ∧ q < r + n then t else g.vtag q := by
  induction n with
  | zero => exact (if_neg (by omega)).symm
  | succ n ih =>
    rw [Group.fillRows_succ, Group.vtag_setVtag, Group.vtag_setVLanes, ih]
    by_cases hq : q = r + n
    · rw [if_pos hq, if_pos (by omega)]
    · rw [if_neg hq]
      exact if_congr (by omega) rfl rfl

/-- Rows filled in every lane change their registers alone. -/
theorem sameRegs_fillRows (g : Group) (r : Nat) (w : Nat → Nat → Word) (t : Tag) (n : Nat) :
    SameRegs g (g.fillRows r w t n) (.v r) n (BitVec.allOnes 32) := by
  obtain ⟨v, vt, h⟩ := g.fillRows_cases r w t n
  refine ⟨fun q l hl hq => ?_, fun q hq => ?_, fun q _ => ?_, fun q _ => ?_, fun q l _ => ?_⟩
  · rw [Group.getV_fillRows _ _ _ _ hl]
    refine if_neg fun hin => ?_
    rcases hq r rfl with hq | hq | hq
    · omega
    · omega
    · rw [BitVec.getLsbD_allOnes, decide_eq_true hl] at hq
      cases hq
  · rw [Group.vtag_fillRows]
    refine if_neg fun hin => ?_
    have := hq r rfl
    omega
  · rw [h]
    exact ⟨rfl, rfl⟩
  · rw [h]
    rfl
  · rw [h]
    rfl

/-! ## Words of slots -/

theorem Unit.accSlot_length (u : Unit) (k : Nat) : (u.accSlot k).length = 512 := by simp [Unit.accSlot]

theorem Unit.accSlot_getD (u : Unit) (k : Nat) {p : Nat} (hp : p < 512) : (u.accSlot k).getD p 0 = u.accWord k p := by
  rw [List.getD_eq_getElem _ _ (by rwa [u.accSlot_length])]
  simp [Unit.accSlot]

theorem Unit.slotWords_one (u : Unit) (a : Nat) : u.slotWords [a] = u.accSlot (u.curSlot a) := by simp [Unit.slotWords]

theorem Unit.slotWords_two (u : Unit) (a b : Nat) : u.slotWords [a, b] = u.accSlot (u.curSlot a) ++ u.accSlot (u.curSlot b) := by
  simp [Unit.slotWords]

/-- Words of a slot or a pair, read one after the other. -/
theorem Unit.slotWords_getD (u : Unit) (a : Nat) (w64 : Bool) {p : Nat} (hp : p < if w64 then 1024 else 512) :
    (u.slotWords (if w64 then [a, a + 1] else [a])).getD p 0 = u.accWord (u.curSlot (a + p / 512)) (p % 512) := by
  cases w64 with
  | false =>
    have hp : p < 512 := hp
    rw [if_neg (by decide), u.slotWords_one, u.accSlot_getD _ hp, Nat.div_eq_of_lt hp, Nat.mod_eq_of_lt hp, Nat.add_zero]
  | true =>
    have hp : p < 1024 := hp
    rw [if_pos rfl, u.slotWords_two]
    by_cases hlow : p < 512
    · rw [List.getD_append _ _ _ _ (by rwa [u.accSlot_length]), u.accSlot_getD _ hlow, Nat.div_eq_of_lt hlow, Nat.mod_eq_of_lt hlow, Nat.add_zero]
    · have hdiv : p / 512 = 1 := by omega
      have hmod : p % 512 = p - 512 := by omega
      rw [List.getD_append_right _ _ _ _ (by rw [u.accSlot_length]; omega), u.accSlot_length, u.accSlot_getD _ (by omega), hdiv, hmod]

/-- Words of registers lie in the slot or pair, each at a place of its own. -/
theorem moveWord_lt {w64 : Bool} {i l : Nat} (hi : i < if w64 then 32 else 16) (hl : l < 32) : moveWord w64 i l < if w64 then 1024 else 512 := by
  cases w64
  · simp only [moveWord, Bool.false_eq_true, if_false] at hi ⊢
    omega
  · simp only [moveWord, if_true] at hi ⊢
    omega

theorem moveWord_inj {w64 : Bool} {i l j k : Nat} (hl : l < 32) (hk : k < 32) (h : moveWord w64 i l = moveWord w64 j k) : i = j ∧ l = k := by
  cases w64
  · simp only [moveWord, Bool.false_eq_true, if_false] at h
    omega
  · simp only [moveWord, if_true] at h
    omega

/-- Words of the accumulator written one after the other. -/
theorem foldl_setAccWord {α : Type} (b : Nat) (idx val : α → Nat) (ps : List α) (u : Unit) :
    ∃ acc, ps.foldl (fun u p => u.setAccWord b (idx p) (val p)) u = { u with acc := acc }
      ∧ (∀ j, (∀ p ∈ ps, j ≠ 512 * b + idx p) → Sparse.get 0 acc j = Sparse.get 0 u.acc j)
      ∧ ((∀ p ∈ ps, ∀ q ∈ ps, idx p = idx q → val p = val q) → ∀ p ∈ ps, Sparse.get 0 acc (512 * b + idx p) = BitVec.ofNat 32 (val p)) := by
  induction ps generalizing u with
  | nil => exact ⟨u.acc, rfl, fun _ _ => rfl, fun _ p hp => by cases hp⟩
  | cons p ps ih =>
    obtain ⟨acc, hfold, hother, hsame⟩ := ih (u.setAccWord b (idx p) (val p))
    refine ⟨acc, hfold, fun j hj => ?_, fun hinj q hq => ?_⟩
    · rw [hother j fun q hq => hj q (List.mem_cons_of_mem p hq)]
      exact Sparse.get_set_ne (hj p List.mem_cons_self)
    · have hinj' : ∀ p ∈ ps, ∀ q ∈ ps, idx p = idx q → val p = val q := fun p' hp' q' hq' =>
        hinj p' (List.mem_cons_of_mem p hp') q' (List.mem_cons_of_mem p hq')
      by_cases hlater : ∃ q' ∈ ps, idx q' = idx q
      · obtain ⟨q', hq', heq⟩ := hlater
        rw [← heq, hsame hinj' q' hq', hinj q' (List.mem_cons_of_mem p hq') q hq heq]
      · rcases List.mem_cons.1 hq with rfl | hq
        · rw [hother _ fun q' hq' he => hlater ⟨q', hq', by omega⟩]
          exact Sparse.get_set_same
        · exact absurd ⟨q, hq, rfl⟩ hlater

/-- The accumulator after the registers of a group have been put into it. -/
def Unit.storeRows (u : Unit) (a : Nat) (w64 : Bool) (w : Nat → Nat → Word) (n : Nat) : Unit :=
  (List.range n).foldl (fun u i => (List.range 32).foldl (fun u l => u.setAccWord a (moveWord w64 i l) (w i l).toNat) u) u

/-- The places of `n` registers in all lanes. -/
def rowPlaces (n : Nat) : List (Nat × Nat) := (List.range n).flatMap fun i => (List.range 32).map fun l => (i, l)

theorem mem_rowPlaces {p : Nat × Nat} : p ∈ rowPlaces n ↔ p.1 < n ∧ p.2 < 32 := by
  simp only [rowPlaces, List.mem_flatMap, List.mem_map, List.mem_range, Prod.ext_iff]
  constructor
  · rintro ⟨i, hi, l, hl, rfl, rfl⟩
    exact ⟨hi, hl⟩
  · rintro ⟨hi, hl⟩
    exact ⟨p.1, hi, p.2, hl, rfl, rfl⟩

theorem Unit.storeRows_spec (u : Unit) (a : Nat) (w64 : Bool) (w : Nat → Nat → Word) (n : Nat) :
    ∃ acc, u.storeRows a w64 w n = { u with acc := acc }
      ∧ (∀ j, (∀ i < n, ∀ l < 32, j ≠ 512 * a + moveWord w64 i l) → Sparse.get 0 acc j = Sparse.get 0 u.acc j)
      ∧ ∀ i < n, ∀ l < 32, Sparse.get 0 acc (512 * a + moveWord w64 i l) = w i l := by
  have hflat : u.storeRows a w64 w n = (rowPlaces n).foldl (fun u p => u.setAccWord a (moveWord w64 p.1 p.2) (w p.1 p.2).toNat) u := by
    rw [rowPlaces, List.foldl_flatMap]
    simp only [List.foldl_map]
    rfl
  obtain ⟨acc, hfold, hother, hsame⟩ :=
    foldl_setAccWord a (fun p => moveWord w64 p.1 p.2) (fun p => (w p.1 p.2).toNat) (rowPlaces n) u
  refine ⟨acc, hflat.trans hfold, fun j hj => hother j fun p hp => ?_, fun i hi l hl => ?_⟩
  · obtain ⟨hi, hl⟩ := mem_rowPlaces.1 hp
    exact hj p.1 hi p.2 hl
  · refine (hsame (fun p hp q hq he => ?_) (i, l) (mem_rowPlaces.2 ⟨hi, hl⟩)).trans (BitVec.ofNat_toNat _ _)
    obtain ⟨hp1, hp2⟩ := moveWord_inj (mem_rowPlaces.1 hp).2 (mem_rowPlaces.1 hq).2 he
    rw [hp1, hp2]

theorem foldl_setAccTag (t : Tag) (ks : List Nat) (u : Unit) :
    ∃ acct, ks.foldl (fun u k => u.setAccTag k t) u = { u with acct := acct }
      ∧ ∀ k, Sparse.get .raw acct k = if k ∈ ks then t else u.accTag k := by
  induction ks generalizing u with
  | nil => exact ⟨u.acct, rfl, fun k => (if_neg (by simp)).symm⟩
  | cons j ks ih =>
    obtain ⟨acct, hfold, htags⟩ := ih (u.setAccTag j t)
    refine ⟨acct, hfold, fun k => ?_⟩
    have hset : (u.setAccTag j t).accTag k = if k = j then t else u.accTag k := Sparse.get_set
    rw [htags, hset]
    by_cases hk : k = j <;> by_cases hks : k ∈ ks <;> simp [hk, hks]

/-! ## The forms -/

/-- Registers of an accumulator move. -/
def moveRegs (w64 : Bool) : Nat := if w64 then 32 else 16

/-- The group after an accrd. -/
def Cx.accRead (c : Cx) (o : Op) (w64 : Bool) (r : Nat) : Group :=
  c.g.fillRows r (fun i l => BitVec.ofNat 32 ((c.u.slotWords (moveSlots o w64)).getD (moveWord w64 i l) 0))
    (c.u.readTag w64 (o.imm % 128)) (moveRegs w64)

theorem accrd_exec {w64 : Bool} (hw : w64 = (x.f 44 44 == 1)) (h : Issues c.s o c) (hd : o.d = .v r)
    (hfree : c.slotsFree (moveSlots o w64) [] = .ok ⟨⟩) (hslots : ∀ k ∈ moveSlots o w64, k < c.u.aslots) :
    exec (.accrd o x) c.s = .next (advance c (c.put (c.accRead o w64 r))) := by
  subst hw
  refine word_of_issues h ?_
  simp only [hfree, Cx.haveSlots_ok hslots, hd, ok_bind]
  rfl

/-- What an accrd puts into its registers. -/
theorem accRead_word {w64 : Bool} {i l : Nat} (hi : i < moveRegs w64) (hl : l < 32) :
    ((c.accRead o w64 r).getV (r + i) l).toNat =
      c.u.accWord (c.u.curSlot (o.imm % 128 + moveWord w64 i l / 512)) (moveWord w64 i l % 512) := by
  rw [Cx.accRead, Group.getV_fillRows _ _ _ _ hl, if_pos ⟨by omega, by omega⟩, Nat.add_sub_cancel_left, moveSlots,
    Unit.slotWords_getD _ _ _ (moveWord_lt hi hl), BitVec.toNat_ofNat]
  exact Nat.mod_eq_of_lt (BitVec.isLt _)

/-- The tag of the registers that an accwr reads. -/
theorem Cx.moveTag_ok {ok : List Tag} (ha : o.a = .v r) (hsame : ∀ i < n, c.g.vtag (r + i) = c.g.vtag r) (hok : c.g.vtag r ∈ ok) :
    c.moveTag o.a n ok = .ok (c.g.vtag r) := by
  have htag (i : Nat) : c.regTag o.a i = c.g.vtag (r + i) := by rw [ha, Cx.regTag]
  have hnone : ((List.range n).find? fun i => !(ok.contains (c.regTag o.a i)) || c.regTag o.a i != c.regTag o.a 0) = none :=
    List.find?_eq_none.2 fun i hi => by
      rw [htag, htag, hsame i (List.mem_range.1 hi), Nat.add_zero]
      simp [hok]
  simp only [Cx.moveTag, hnone]
  rw [htag, Nat.add_zero]

/-- The unit after an accwr. -/
def Cx.accWrite (c : Cx) (o : Op) (w64 : Bool) (r : Nat) : Unit :=
  (moveSlots o w64).foldl (fun u k => u.setAccTag k (if w64 then .f64 else c.g.vtag r))
    (c.u.storeRows (o.imm % 128) w64 (fun i l => c.g.getV (r + i) l) (moveRegs w64))

theorem accwr_exec {w64 : Bool} (hw : w64 = (x.f 44 44 == 1)) (h : Issues c.s o c) (ha : o.a = .v r)
    (hfree : c.slotsFree [] (moveSlots o w64) = .ok ⟨⟩) (hslots : ∀ k ∈ moveSlots o w64, k < c.u.aslots ∧ c.u.accTag k ≠ .tri)
    (hsame : ∀ i < moveRegs w64, c.g.vtag (r + i) = c.g.vtag r) (hok : c.g.vtag r ∈ if w64 then [Tag.f64, .raw] else [.f32, .i32, .raw]) :
    exec (.accwr o x) c.s = .next (advance c (c.putU (c.accWrite o w64 r))) := by
  subst hw
  have hneed : needSlots c.u (· != .tri) (moveSlots o (x.f 44 44 == 1)) = .ok ⟨⟩ := needSlots_ok fun k hk => by simpa using (hslots k hk).2
  have htag := Cx.moveTag_ok ha hsame hok
  unfold moveRegs at htag
  refine word_of_issues h ?_
  simp only [hfree, htag, hneed, Cx.haveSlots_ok fun k hk => (hslots k hk).1, ok_bind]
  rw [ha]
  rfl

theorem mem_moveSlots {w64 : Bool} {p : Nat} (hp : p < if w64 then 1024 else 512) : o.imm % 128 + p / 512 ∈ moveSlots o w64 := by
  cases w64
  · have hp : p < 512 := hp
    simp [moveSlots, Nat.div_eq_of_lt hp]
  · have hp : p < 1024 := hp
    have hdiv : p / 512 = 0 ∨ p / 512 = 1 := by omega
    rcases hdiv with hdiv | hdiv <;> simp [moveSlots, hdiv]

/-- An accwr changes the words and the tags of its slots alone. -/
theorem accWrite_spec (c : Cx) (o : Op) (w64 : Bool) (r : Nat) :
    ∃ acc acct, c.accWrite o w64 r = { c.u with acc := acc, acct := acct }
      ∧ (∀ k, k ∉ moveSlots o w64 → Sparse.get .raw acct k = c.u.accTag k ∧ ∀ w < 512, Sparse.get 0 acc (512 * k + w) = Sparse.get 0 c.u.acc (512 * k + w))
      ∧ (∀ k ∈ moveSlots o w64, Sparse.get .raw acct k = if w64 then .f64 else c.g.vtag r)
      ∧ ∀ i < moveRegs w64, ∀ l < 32, Sparse.get 0 acc (512 * (o.imm % 128) + moveWord w64 i l) = c.g.getV (r + i) l := by
  obtain ⟨acc, hstore, hother, hsame⟩ := c.u.storeRows_spec (o.imm % 128) w64 (fun i l => c.g.getV (r + i) l) (moveRegs w64)
  obtain ⟨acct, hfold, htags⟩ := foldl_setAccTag (if w64 then .f64 else c.g.vtag r) (moveSlots o w64) { c.u with acc := acc }
  refine ⟨acc, acct, ?_, fun k hk => ⟨(htags k).trans (if_neg hk), fun w hw => hother _ fun i hi l hl he => hk ?_⟩,
    fun k hk => (htags k).trans (if_pos hk), hsame⟩
  · rw [Cx.accWrite, hstore, hfold]
  · have hmem := mem_moveSlots (o := o) (moveWord_lt hi hl)
    rwa [show o.imm % 128 + moveWord w64 i l / 512 = k by omega] at hmem

/-- The unit after an acczero. -/
def Cx.accClear (c : Cx) (a n : Nat) : Unit :=
  { c.u with acc := Sparse.clear c.u.acc (512 * a) (512 * (a + n)), acct := Sparse.clear c.u.acct a (a + n),
             accr := Sparse.clear c.u.accr a (a + n) }

theorem acczero_exec (h : Issues c.s o c) (hfree : c.slotsFree [] (rangeFrom (o.imm % 128) (o.imm / 256 % 256)) = .ok ⟨⟩)
    (hslots : ∀ k ∈ rangeFrom (o.imm % 128) (o.imm / 256 % 256), k < c.u.aslots) :
    exec (.acczero o x) c.s = .next (advance c (c.putU (c.accClear (o.imm % 128) (o.imm / 256 % 256)))) := by
  refine word_of_issues h ?_
  simp only [hfree, Cx.haveSlots_ok hslots, ok_bind]
  rfl

theorem mem_rangeFrom {a n k : Nat} : k ∈ rangeFrom a n ↔ a ≤ k ∧ k < a + n := by
  simp only [rangeFrom, List.mem_map, List.mem_range]
  constructor
  · rintro ⟨i, hi, rfl⟩
    omega
  · rintro ⟨hlo, hhi⟩
    exact ⟨k - a, by omega, by omega⟩

end Sys2Proof.Machine

section
open Sys2Proof Sys2Proof.Machine Sys2Proof.Claims

/-- Settles O32: words move between registers and slots place by place, and nothing else is touched. -/
theorem accumulatorMoves : Obligations.AccumulatorMoves := by
  unfold Obligations.AccumulatorMoves
  intro s o x c h w64 n a slots place others
  obtain rfl := issues_view h
  have hw : decide w64 = (x.f 44 44 == 1) := rfl
  have hn : n = moveRegs (decide w64) := by simp [n, moveRegs]
  have hslots : slots = moveSlots o (decide w64) := by simp [slots, moveSlots, a]
  have hplace (i l : Nat) : place i l = moveWord (decide w64) i l := by simp [place, moveWord]
  clear_value n slots place
  subst hn hslots
  obtain rfl : place = moveWord (decide w64) := funext₂ hplace
  refine ⟨fun r hd hfree hk => ?_, fun r ha hfree hk hsame htag => ?_, ?_⟩
  · refine ⟨c.accRead o (decide w64) r, accrd_exec hw h hd hfree hk, ?_, fun i hi l hl => ⟨?_, accRead_word hi hl⟩⟩
    · rw [hd]
      exact sameRegs_fillRows ..
    · rw [Cx.accRead, Group.vtag_fillRows, if_pos ⟨by omega, by omega⟩]
  · have hok : c.g.vtag r ∈ if decide w64 = true then [Tag.f64, .raw] else [.f32, .i32, .raw] := by
      by_cases hw64 : w64 <;> simp [hw64] at htag ⊢ <;> tauto
    obtain ⟨acc, acct, hu, hother, htags, hwords⟩ := accWrite_spec c o (decide w64) r
    have hexec := accwr_exec hw h ha hfree hk hsame hok
    rw [hu] at hexec
    obtain ⟨hafter, hmem, gs, hgs⟩ := putU_done_plain h (u := { c.u with acc := acc, acct := acct }) rfl rfl
    refine ⟨_, _, hexec, hgs, hafter, hmem, fun k hk => ⟨(hother k hk).1, fun w hw => congrArg BitVec.toNat ((hother k hk).2 w hw)⟩,
      fun k hk => (htags k hk).trans (by simp), fun i hi l hl => congrArg BitVec.toNat ?_⟩
    refine Eq.trans (congrArg (Sparse.get 0 acc) ?_) (hwords i hi l hl)
    omega
  · intro ks hfree hk
    obtain ⟨hafter, hmem, gs, hgs⟩ := putU_done_plain h (u := c.accClear a (o.imm / 256 % 256)) rfl rfl
    refine ⟨_, _, acczero_exec h hfree hk, hgs, hafter, hmem, fun k hk => ⟨?_, fun w hw => congrArg BitVec.toNat ?_⟩,
      fun k hk => ⟨?_, ?_, fun w hw => (congrArg BitVec.toNat ?_).trans (BitVec.toNat_zero (w := 32))⟩⟩
    · exact Sparse.get_clear.trans (if_neg fun hin => hk (mem_rangeFrom.2 hin))
    · refine Sparse.get_clear.trans (if_neg fun hin => hk (mem_rangeFrom.2 ?_))
      omega
    all_goals obtain ⟨hlo, hhi⟩ := mem_rangeFrom.1 hk
    · exact Sparse.get_clear.trans (if_pos ⟨hlo, hhi⟩)
    · exact Sparse.get_clear.trans (if_pos ⟨hlo, hhi⟩)
    · exact Sparse.get_clear.trans (if_pos (by omega))

end
end

section
/-! PROOFS. The steps of a group's waits, its skid, its stores and its interrupts (R136, R142, R226, R248, R305, R307, R353). -/

namespace Sys2Proof.Machine
open Sys2Proof.Claims

variable {s t : State} {k : UKey} {u : Unit} {g h : Group} {o : Op} {m : ModM} {c : Cx} {p : Nat → Place} {fl : Nat} {e : Entry} {i w : Nat} {l : Launch}

/-! ## A group changed in its place -/

theorem becomes_modGrp (hat : At s k u g) (f : Group → Group) (hlive : ∀ g, (f g).live = g.live) (hgid : ∀ g, (f g).gid = g.gid) :
    Becomes (s.modGrp k g.gid f) k g (f g) := by
  obtain ⟨hu, hg⟩ := hat
  refine ⟨u.modGrp g.gid f, unit?_modUnit_of hu (fun u => u.modGrp g.gid f) fun _ hk => hk, ?_⟩
  rw [Unit.grp?_modGrp f fun g' hl hid => ⟨(hlive g').trans hl, (hgid g').trans hid⟩, hg, Option.map_some]

/-- A group put in the place of another one. -/
theorem becomes_setGrp (hat : At s k u g) (hlive : h.live = g.live) (hgid : h.gid = g.gid) : Becomes (s.modGrp k g.gid fun _ => h) k g h := by
  obtain ⟨hu, hg⟩ := hat
  refine ⟨u.modGrp g.gid fun _ => h, unit?_modUnit_of hu (fun u => u.modGrp g.gid fun _ => h) fun _ hk => hk, ?_⟩
  rw [Unit.grp?_modGrp (fun _ => h) fun _ _ _ => ⟨hlive.trans (Unit.grp?_live hg).1, hgid⟩, hg, Option.map_some]

/-! ## Records of store faults (R142) -/

theorem find?_lowest {q : Nat → Bool} (hi : i < 8) (hq : q i = true) (hlow : ∀ j < i, q j = false) : (List.range 8).find? q = some i :=
  List.find?_range_eq_some.2 ⟨hq, List.mem_range.2 hi, fun j hj => by rw [hlow j hj]; rfl⟩

theorem storeFaultRecord_takes (hu : s.unit? k = some u) (r : StoreFault) (hi : i < 8) (hfree : ∀ x ∈ u.sfq, x.1 ≠ i)
    (hlow : ∀ j < i, ∃ x ∈ u.sfq, x.1 = j) :
    exec (.storeFaultRecord k r) s = .next (s.modUnit k fun u => { u with sfq := u.sfq ++ [(i, r)] }) := by
  have hfind : ((List.range 8).find? fun i => u.sfq.all fun x => x.1 != i) = some i := by
    refine find?_lowest hi (List.all_eq_true.2 fun x hx => bne_iff_ne.2 (hfree x hx)) fun j hj => ?_
    obtain ⟨x, hx, hxj⟩ := hlow j hj
    exact List.all_eq_false.2 ⟨x, hx, by simp [hxj]⟩
  show execStoreFaultRecord k r s = _
  simp only [execStoreFaultRecord, hu, hfind]

/-! ## The end of a skid (R353) -/

theorem causeWord_plain (code detail : Nat) : causeWord { code := code, detail := detail } = BitVec.ofNat 64 (code + detail % 2 ^ 48 * 2 ^ 16) := by
  simp only [causeWord, Nat.zero_mod, Nat.zero_mul, Nat.add_zero]

theorem sibhalt_stops (hat : At s k u g) {left src : Nat} (hrun : g.run = .skid left src) (hending : u.ending = none) :
    ∃ h, exec (.sibhalt k g.gid) s = .next (s.modGrp k g.gid fun _ => h) ∧ h.live = g.live ∧ h.gid = g.gid ∧ h.run = .stopped
      ∧ h.skidN = 16 - left ∧ h.cause = causeWord { code := C.SIBHALT, detail := src } := by
  obtain ⟨hu, hg⟩ := hat
  refine ⟨{ g with run := .stopped, skidN := 16 - left, after := false, cause := causeWord { code := C.SIBHALT, detail := src }, epc := g.topPc,
                   cont := if g.scall then some (g.cont.getD g.epc) else none }, ?_, rfl, rfl, rfl, rfl, rfl⟩
  show execSibhalt k g.gid s = _
  simp only [execSibhalt, hu, Option.bind_some, hg, hrun, stopSibling, hending, Option.getD_none, Option.isNone_none, if_true]

/-! ## A rejoin that has its lanes, and a uiret (R136, R307) -/

theorem rejoinWait_completes (hat : At s k u g) (hrun : g.run ≠ .stopped) (hvac : u.vacating = false)
    (hfind : (g.ents.find? fun e => e.rejoinDone g.ents) = some e) :
    exec (.rejoinWaitComplete k g.gid) s = .next (s.modGrp k g.gid fun g =>
      if uiretDone s u g e then unpark g else { g with ents := completeRejoin g.ents e.pc, after := false }) := by
  obtain ⟨hu, hg⟩ := hat
  show execRejoinWaitComplete k g.gid s = _
  simp only [execRejoinWaitComplete, hu, Option.bind_some, hg, Option.map_some, hvac, hrun, decide_false, Bool.or_self, Bool.false_eq_true, if_false,
    hfind]

/-- The step of a rejoin, as a change of the group. -/
def rejoined (s : State) (u : Unit) (e : Entry) (g : Group) : Group :=
  if uiretDone s u g e then unpark g else { g with ents := completeRejoin g.ents e.pc, after := false }

theorem rejoined_rejoin (hnot : uiretDone s u g e = false) :
    rejoined s u e g = { g with ents := completeRejoin g.ents e.pc, after := false } := if_neg (by simp [hnot])

theorem rejoined_uiret (hdone : uiretDone s u g e = true) : rejoined s u e g = unpark g := if_pos hdone

theorem unpark_same (g : Group) : (unpark g).live = g.live ∧ (unpark g).gid = g.gid := by
  unfold unpark
  split <;> exact ⟨rfl, rfl⟩

theorem rejoined_same (s : State) (u : Unit) (e : Entry) (g : Group) : (rejoined s u e g).live = g.live ∧ (rejoined s u e g).gid = g.gid := by
  unfold rejoined
  split
  · exact unpark_same g
  · exact ⟨rfl, rfl⟩

theorem becomes_rejoined (hat : At s k u g) (e : Entry) : Becomes (s.modGrp k g.gid fun g => rejoined s u e g) k g (rejoined s u e g) :=
  becomes_modGrp hat (rejoined s u e) (fun g => (rejoined_same s u e g).1) fun g => (rejoined_same s u e g).2

/-- A uiret ends only where a frontier is parked; that frontier stands again. -/
theorem unpark_spec (hdone : uiretDone s u g e = true) :
    (unpark g).inh = false ∧ (unpark g).park = none ∧ ∀ p, g.park = some p → (unpark g).liven = p.liven := by
  unfold uiretDone at hdone
  simp only [Bool.and_eq_true] at hdone
  obtain ⟨⟨⟨-, hpark⟩, -⟩, -⟩ := hdone
  obtain ⟨p, hp⟩ := Option.isSome_iff_exists.1 hpark
  have hunpark : unpark g = { g with ents := (unpark g).ents, liven := p.liven, inh := false, park := none, after := true } := by
    unfold unpark
    simp only [hp]
  rw [hunpark]
  refine ⟨rfl, rfl, fun p' hp' => ?_⟩
  obtain rfl := Option.some.inj (hp.symm.trans hp')
  rfl

/-! ## Waits that end (R226, R248) -/

theorem woken_eq (q : Wait → Bool) (es : List Entry) : (es.map fun e => if q e.wait then { e with wait := .none } else e) = woken q es := rfl

theorem offcutStallRelease_wakes (s : State) (k : UKey) (gid : Nat) :
    exec (.offcutStallRelease k gid) s = .next (s.modGrp k gid fun g => { g with ents := woken (· == .offcut) g.ents }) := by
  show execOffcutStallRelease k gid s = _
  simp only [execOffcutStallRelease, woken, beq_iff_eq]

theorem State.unit?_map {f : Unit → Unit} (hkey : ∀ u, (f u).key = u.key) (ht : t.units = s.units.map f) :
    t.unit? k = (s.unit? k).map f := by
  have hpred : (fun u : Unit => u.key == k) ∘ f = fun u : Unit => u.key == k := funext fun u => by simp only [Function.comp, hkey]
  rw [State.unit?, ht, List.find?_map, hpred, State.unit?]

theorem Unit.grp?_map {v : Unit} {gid : Nat} {f : Group → Group} (hlive : ∀ g, (f g).live = g.live) (hgid : ∀ g, (f g).gid = g.gid)
    (hv : v.grps = u.grps.map f) : v.grp? gid = (u.grp? gid).map f := by
  have hpred : (fun g : Group => g.live && g.gid == gid) ∘ f = fun g : Group => g.live && g.gid == gid :=
    funext fun g => by simp only [Function.comp, hlive, hgid]
  rw [Unit.grp?, hv, List.find?_map, hpred, Unit.grp?]

/-- A unit of a context whose waits are over. -/
def wokenUnit (ctx : Nat) (q : Wait → Bool) (u : Unit) : Unit :=
  if u.ctx == ctx then { u with grps := u.grps.map fun g => { g with ents := woken q g.ents } } else u

theorem becomes_wakeCtx (hat : At s k u g) (q : Wait → Bool) : Becomes (wakeCtx s u.ctx q) k g { g with ents := woken q g.ents } := by
  obtain ⟨hu, hg⟩ := hat
  have hkey : ∀ v, (wokenUnit u.ctx q v).key = v.key := fun v => by
    unfold wokenUnit
    split <;> rfl
  refine ⟨wokenUnit u.ctx q u, (State.unit?_map (s := s) hkey rfl).trans (by rw [hu, Option.map_some]), ?_⟩
  have hgrps : (wokenUnit u.ctx q u).grps = u.grps.map fun g => { g with ents := woken q g.ents } := by
    rw [wokenUnit, if_pos (beq_self_eq_true _)]
  rw [Unit.grp?_map (f := fun g => { g with ents := woken q g.ents }) (fun _ => rfl) (fun _ => rfl) hgrps, hg, Option.map_some]

/-! ## A waitv that waits is read again (R150) -/

theorem waitvReread_idle (hat : At s k u g) (hidle : u.vacating = true ∨ g.scall = true ∨ g.run = .stopped ∨ memoryWaits g = []) :
    exec (.waitvReread k g.gid) s = .next s := by
  obtain ⟨hu, hg⟩ := hat
  show execWaitvReread k g.gid s = _
  simp only [execWaitvReread, hu, Option.bind_some, hg, Option.map_some]
  split
  · rfl
  · next hbusy =>
    cases hwaits : memoryWaits g with
    | nil => rfl
    | cons a rest =>
      have hstopped : g.run = .stopped := by
        simp only [Bool.or_eq_true, not_or] at hbusy
        simpa [hwaits, hbusy.1, hbusy.2] using hidle
      simp only [rereadAll, hu, Option.bind_some, hg, hstopped, if_true]

/-- The word of a waiting entry, as it is issued again. -/
def rereading (s : State) (k : UKey) (gid i w : Nat) : State := { s with cur := some { u := k, gid := gid, ent := i, word := w } }

/-- Where one entry waits on memory, it is the one read again. -/
theorem waitvReread_one (hat : At s k u g) (hvac : u.vacating = false) (hscall : g.scall = false) (hrun : g.run ≠ .stopped)
    (hone : memoryWaits g = [(e.pc, e.prio)])
    (hi : (g.ents.findIdx? fun x => x.pc == e.pc && x.prio == e.prio && (x.wait == .waitv || x.wait == .version)) = some i)
    (hnext : rereadEntry s k g.gid i = .next t) : exec (.waitvReread k g.gid) s = .next t := by
  obtain ⟨hu, hg⟩ := hat
  show execWaitvReread k g.gid s = _
  simp only [execWaitvReread, hu, Option.bind_some, hg, Option.map_some, hvac, hscall, hone, rereadAll, hrun, hi, hnext, Bool.or_self,
    Bool.false_eq_true, if_false]

section
variable (hat : At s k u g) (he : g.ents[i]? = some e) (hw : fetchWord s u e.pc 3 = .ok w)
include hat he hw

theorem rereadEntry_waitv (hdec : decode g.grant (isDet s u) w = .ok (.waitv o m)) :
    rereadEntry s k g.gid i = word (rereading s k g.gid i w) o fun c => c.waitvBody o m := by
  obtain ⟨hu, hg⟩ := hat
  simp only [rereadEntry, hu, Option.bind_some, hg, he, Option.map_some, hw, hdec]
  rfl

theorem rereadEntry_tstAll (hdec : decode g.grant (isDet s u) w = .ok (.tstAll o m)) :
    rereadEntry s k g.gid i = word (rereading s k g.gid i w) o fun c => c.tstAllBody o m := by
  obtain ⟨hu, hg⟩ := hat
  simp only [rereadEntry, hu, Option.bind_some, hg, he, Option.map_some, hw, hdec]
  rfl

end

/-! ## An interrupt is entered (R305) -/

/-- The group that has entered its handler in place of its highest entry `d`. -/
def diverted (s : State) (u : Unit) (hpc : DWord) (es : List Entry) (d : Entry) (g : Group) : Group :=
  { g with park := some { ents := es.map fun e => { e with wait := .none }, liven := g.liven, d := (es.findIdx? fun e => e == d).getD 0 },
           uiepc := BitVec.ofNat 64 (d.pc.toNat % 2 ^ 56 / 4 * 4 + bits (peekWord s u d.pc) 83 80 * 2 ^ 60), inh := true,
           ents := [.new hpc 255 (presentLanes g.ents)] }

theorem userInterruptEntry_diverts (hat : At s k u g) (hl : launchOf s u = some l) (hdue : (u.grps.find? fun g => entryDue s u g) = some g)
    {d : Entry} {rest : List Entry} (hranked : ranked g.ents = d :: rest) :
    exec (.userInterruptEntry k) s = .next (s.modGrp k g.gid fun h => diverted s u l.hpc g.ents d h) := by
  obtain ⟨hu, -⟩ := hat
  show execUserInterruptEntry k s = _
  simp only [execUserInterruptEntry, hu, hl, hdue, divert, hranked, State.unit?_key hu]
  rfl

/-! ## A change of UIMASK (R305) -/

theorem epWrite_units (s : State) (l : Launch) (off n v : Nat) : (epWrite s l off n v).units = s.units := by
  unfold epWrite
  split
  · exact (memOnly_sysWrite ..).units
  · rfl

theorem writeUimask_unit (hu : s.unit? k = some u) (v : DWord) : (writeUimask s k v).unit? k = some { u with uimask := v } := by
  have hset : (s.modUnit k fun u => { u with uimask := v }).unit? k = some { u with uimask := v } :=
    unit?_modUnit_of hu (fun u => { u with uimask := v }) fun _ hk => hk
  unfold writeUimask
  simp only [hset]
  split
  · split
    · exact (State.unit?_congr (epWrite_units ..) k).trans hset
    · exact hset
  · exact hset

end Sys2Proof.Machine

section
open Sys2Proof Sys2Proof.Machine Sys2Proof.Claims

/-- Settles O42: each step's change of its group is read off, and the word of a wait is issued again as it is. -/
theorem groupSteps : Obligations.GroupSteps := by
  unfold Obligations.GroupSteps
  intro s k u g hat
  refine ⟨fun r i => storeFaultRecord_takes hat.1 r, fun left src hrun hending => ?_, fun e hrun hvac hfind => ⟨fun hnot => ?_, fun hdone => ?_⟩, ?_,
    fun slot => ?_, waitvReread_idle hat, fun e i w hvac hscall hrun hone hi he hw => ⟨fun o m hdec t hnext => ?_,
      fun o m c p fl hdec hissues hr => ⟨fun hall => ?_, fun hnot => ?_⟩⟩, fun l hl hdue d rest hranked => ?_, fun v => ?_⟩
  · obtain ⟨h, hexec, hlive, hgid, hstopped, hskid, hcause⟩ := sibhalt_stops hat hrun hending
    exact ⟨_, h, hexec, becomes_setGrp hat hlive hgid, hstopped, hskid, hcause.trans (causeWord_plain _ _)⟩
  · exact ⟨_, rejoinWait_completes hat hrun hvac hfind, rejoined_rejoin hnot ▸ becomes_rejoined hat e⟩
  · exact ⟨_, unpark g, rejoinWait_completes hat hrun hvac hfind, rejoined_uiret hdone ▸ becomes_rejoined hat e, unpark_spec hdone⟩
  · exact ⟨_, offcutStallRelease_wakes .., becomes_modGrp hat _ (fun _ => rfl) fun _ => rfl⟩
  · exact ⟨_, rfl, sameMemory_refl s, becomes_wakeCtx hat _⟩
  · exact waitvReread_one hat hvac hscall hrun hone hi ((rereadEntry_tstAll hat he hw hdec).trans hnext)
  · obtain ⟨t, hnext, hafter, hmem⟩ := execWaitv_holds hissues hr hall
    exact ⟨t, waitvReread_one hat hvac hscall hrun hone hi ((rereadEntry_waitv hat he hw hdec).trans hnext), hafter, hmem⟩
  · have hnext : word (rereading s k g.gid i w) o (fun c => c.waitvBody o m) = .next (enterWait c (rereading s k g.gid i w) .waitv) :=
      execWaitv_waits hissues hr hnot
    exact waitvReread_one hat hvac hscall hrun hone hi ((rereadEntry_waitv hat he hw hdec).trans hnext)
  · exact ⟨_, diverted s u l.hpc g.ents d g, userInterruptEntry_diverts hat hl hdue hranked,
      becomes_modGrp hat (diverted s u l.hpc g.ents d) (fun _ => rfl) fun _ => rfl, sameMemory_of_rd fun _ _ => rfl, rfl, rfl, rfl, _, rfl, rfl, rfl⟩
  · exact ⟨_, _, rfl, writeUimask_unit hat.1 v, rfl, rfl⟩

end
end

section
/-! PROOFS. The decision of a raise (R297 to R300). -/

namespace Sys2Proof.Machine
open Sys2Proof.Claims

variable {s t : State} {k : UKey} {u : Unit} {l : Launch} {q : RaiseReq}

/-! ## Endpoint blocks change memory alone -/

theorem payWrite_units (s : State) (l : Launch) (v x : Nat) : (payWrite s l v x).units = s.units := by
  unfold payWrite
  split
  · exact (memOnly_sysWrite ..).units
  · rfl

theorem wakeTarget_units (s : State) (l : Launch) : (wakeTarget s l).units = s.units := by
  unfold wakeTarget
  simp only
  split <;> rfl

/-! ## The units of a broadcast endpoint -/

/-- A raise in a unit's own state. -/
def Unit.raised (l : Launch) (v p : Nat) (u : Unit) : Unit := { u with ui := u.ui.raise l v 1 p }

theorem foldl_modUnit_other {f : Unit → Unit} (hf : ∀ u, (f u).key = u.key) (us : List Unit) (s : State) (hk : ∀ x ∈ us, x.key ≠ k) :
    (us.foldl (fun s x => s.modUnit x.key f) s).unit? k = s.unit? k := by
  induction us generalizing s with
  | nil => rfl
  | cons x us ih =>
    rw [List.foldl_cons, ih _ fun y hy => hk y (List.mem_cons_of_mem x hy)]
    exact State.unit?_modUnit_ne f (fun u hu => (hf u).trans hu) (hk x List.mem_cons_self).symm

/-- Of units whose keys are changed one after the other, one that stands once among them is changed once. -/
theorem foldl_modUnit_once {f : Unit → Unit} (hf : ∀ u, (f u).key = u.key) (us : List Unit) (s : State) (hu : s.unit? k = some u)
    (honce : us.filter (fun x => x.key == k) = [u]) : (us.foldl (fun s x => s.modUnit x.key f) s).unit? k = some (f u) := by
  induction us generalizing s with
  | nil => cases honce
  | cons x us ih =>
    rw [List.foldl_cons]
    by_cases hx : x.key = k
    · rw [List.filter_cons_of_pos (by simpa using hx)] at honce
      obtain ⟨-, hrest⟩ := List.cons.inj honce
      have hothers : ∀ y ∈ us, y.key ≠ k := fun y hy hyk => by
        have hmem : y ∈ us.filter fun x => x.key == k := List.mem_filter.2 ⟨hy, by simpa using hyk⟩
        rw [hrest] at hmem
        cases hmem
      rw [foldl_modUnit_other hf us _ hothers, hx]
      exact unit?_modUnit_of hu f fun u hu => (hf u).trans hu
    · rw [List.filter_cons_of_neg (by simpa using hx)] at honce
      exact ih _ ((State.unit?_modUnit_ne f (fun u hu => (hf u).trans hu) (Ne.symm hx)).trans hu) honce

theorem raiseTarget_unit (hbcast : l.bcast = true) (hmem : u ∈ unitsOf s l) (honly : (s.units.filter fun x => x.key == u.key) = [u]) (v p : Nat) :
    (raiseTarget s l v p).unit? u.key = some (u.raised l v p) := by
  have hu : s.unit? u.key = some u := by
    rw [State.unit?, ← List.head?_filter, honly]
    rfl
  have hne : (unitsOf s l).isEmpty = false := by
    cases hl : unitsOf s l with
    | nil => rw [hl] at hmem; cases hmem
    | cons => rfl
  have honce : (unitsOf s l).filter (fun x => x.key == u.key) = [u] := by
    rw [unitsOf, List.filter_comm, honly]
    exact List.filter_eq_self.2 fun x hx => by
      obtain rfl := List.mem_singleton.1 hx
      exact (List.mem_filter.1 hmem).2
  rw [raiseTarget]
  simp only [hbcast, hne, Bool.not_false, Bool.and_self, if_true]
  exact foldl_modUnit_once (f := Unit.raised l v p) (fun _ => rfl) _ s hu honce

/-! ## The decision -/

/-- A raise that nobody waits for is decided, and nothing more is sent. -/
theorem raiseDecision_plain (hwaiter : q.waiter = none) (hreply : q.reply = none) (hfab : q.fab = none) {r : RaiseReq}
    (hr : (if q.cls = 2 && q.modid = s.ident then { q with modid := 0xFFFF } else q) = r) :
    exec (.raiseDecision q) s = .next (decideRaise s r).1 ∧ r.ctx = q.ctx ∧ r.va = q.va ∧ r.vec = q.vec ∧ r.pay = q.pay := by
  have hwaiter' : r.waiter = none ∧ r.reply = none ∧ r.fab = none ∧ r.ctx = q.ctx ∧ r.va = q.va ∧ r.vec = q.vec ∧ r.pay = q.pay := by
    subst hr
    split
    · exact ⟨hwaiter, hreply, hfab, rfl, rfl, rfl, rfl⟩
    · exact ⟨hwaiter, hreply, hfab, rfl, rfl, rfl, rfl⟩
  obtain ⟨hw, hp, hf, hsame⟩ := hwaiter'
  refine ⟨?_, hsame⟩
  show execRaiseDecision q s = _
  unfold execRaiseDecision
  rw [hr]
  simp only [hw, hp, hf]

theorem decideRaise_unbound {r : RaiseReq} (h : boundAt s r.ctx r.va.toNat = none) : decideRaise s r = (s, 2) := by
  simp only [decideRaise, h]

theorem decideRaise_denied {r : RaiseReq} (h : boundAt s r.ctx r.va.toNat = some l) (hdenied : granted s l r = false) :
    (decideRaise s r).1.units = s.units := by
  simp only [decideRaise, h, hdenied, Bool.not_false, if_true]
  exact epWrite_units ..

theorem decideRaise_granted {r : RaiseReq} (h : boundAt s r.ctx r.va.toNat = some l) (hgranted : granted s l r = true) :
    (decideRaise s r).1.units = (raiseTarget s l r.vec r.pay.toNat).units := by
  simp only [decideRaise, h, hgranted, Bool.not_true, Bool.false_eq_true, if_false]
  split
  · rw [wakeTarget_units, epWrite_units]
    split <;> rfl
  · rw [epWrite_units]
    split <;> rfl

theorem combine_ofNat (l : Launch) (v : Nat) (old p : DWord) :
    BitVec.ofNat 64 (combine l v old.toNat p.toNat) = if l.modew.getLsbD v then old ||| p else p := by
  rw [combine, apply_ite (BitVec.ofNat 64), ← BitVec.toNat_or, BitVec.ofNat_toNat, BitVec.ofNat_toNat, BitVec.setWidth_eq, BitVec.setWidth_eq]

end Sys2Proof.Machine

section
open Sys2Proof Sys2Proof.Machine Sys2Proof.Claims

/-- Settles O47: the decision looks for its endpoint, then at its table, and then raises in each unit once. -/
theorem raiseSteps : Obligations.RaiseSteps := by
  unfold Obligations.RaiseSteps
  intro s q hwaiter hreply hfab r
  obtain ⟨hexec, hctx, hva, hvec, hpay⟩ := raiseDecision_plain (r := r) hwaiter hreply hfab rfl
  rw [← hctx, ← hva, ← hvec, ← hpay, hexec]
  refine ⟨fun hnone => ?_, fun l hl => ⟨fun hdenied => ⟨_, rfl, decideRaise_denied hl hdenied⟩, fun hgranted hbcast u hmem honly => ?_⟩⟩
  · rw [decideRaise_unbound hnone]
  · refine ⟨_, _, rfl, (State.unit?_congr (decideRaise_granted hl hgranted) u.key).trans (raiseTarget_unit hbcast hmem honly ..), rfl, rfl,
      Sparse.get_set_same, Sparse.get_set_same.trans (combine_ofNat ..)⟩

end
end

section
/-! PROOFS. Which parts of the state a helper of the model may change: a relation that composes, in place of one lemma for each helper and
each field. -/

namespace Sys2Proof.Machine
open Sys2Proof.Claims

/-- The fields of a state. -/
inductive Part
  | hbm | pool | host | vaults | marks | badCrc | units | cores | dies | ctxs | sections | launches | levels | funcs | quanta 
  | quantaNext | slice | quantaRun | tenant | front | pools | poolUp | engines | poolCache | ports | routes | ident | phasing 
  | outReqs | nextId | unack | transit | seen | lowack | absorbed | owned | relMem | limit | emergency | stretched | emergencyAt 
  | emergencies | energy | hbmC | hbmU | banks | active | rollback | loading | loadNew | switching | capGen | powered | onTick 
  | booted | cur | second | pair | grown | agenda | tick
  deriving DecidableEq

/-- Whether a field stands in two states alike. -/
def Part.same : Part → State → State → Prop
  | .hbm, s, t => t.hbm = s.hbm
  | .pool, s, t => t.pool = s.pool
  | .host, s, t => t.host = s.host
  | .vaults, s, t => t.vaults = s.vaults
  | .marks, s, t => t.marks = s.marks
  | .badCrc, s, t => t.badCrc = s.badCrc
  | .units, s, t => t.units = s.units
  | .cores, s, t => t.cores = s.cores
  | .dies, s, t => t.dies = s.dies
  | .ctxs, s, t => t.ctxs = s.ctxs
  | .sections, s, t => t.sections = s.sections
  | .launches, s, t => t.launches = s.launches
  | .levels, s, t => t.levels = s.levels
  | .funcs, s, t => t.funcs = s.funcs
  | .quanta, s, t => t.quanta = s.quanta
  | .quantaNext, s, t => t.quantaNext = s.quantaNext
  | .slice, s, t => t.slice = s.slice
  | .quantaRun, s, t => t.quantaRun = s.quantaRun
  | .tenant, s, t => t.tenant = s.tenant
  | .front, s, t => t.front = s.front
  | .pools, s, t => t.pools = s.pools
  | .poolUp, s, t => t.poolUp = s.poolUp
  | .engines, s, t => t.engines = s.engines
  | .poolCache, s, t => t.poolCache = s.poolCache
  | .ports, s, t => t.ports = s.ports
  | .routes, s, t => t.routes = s.routes
  | .ident, s, t => t.ident = s.ident
  | .phasing, s, t => t.phasing = s.phasing
  | .outReqs, s, t => t.outReqs = s.outReqs
  | .nextId, s, t => t.nextId = s.nextId
  | .unack, s, t => t.unack = s.unack
  | .transit, s, t => t.transit = s.transit
  | .seen, s, t => t.seen = s.seen
  | .lowack, s, t => t.lowack = s.lowack
  | .absorbed, s, t => t.absorbed = s.absorbed
  | .owned, s, t => t.owned = s.owned
  | .relMem, s, t => t.relMem = s.relMem
  | .limit, s, t => t.limit = s.limit
  | .emergency, s, t => t.emergency = s.emergency
  | .stretched, s, t => t.stretched = s.stretched
  | .emergencyAt, s, t => t.emergencyAt = s.emergencyAt
  | .emergencies, s, t => t.emergencies = s.emergencies
  | .energy, s, t => t.energy = s.energy
  | .hbmC, s, t => t.hbmC = s.hbmC
  | .hbmU, s, t => t.hbmU = s.hbmU
  | .banks, s, t => t.banks = s.banks
  | .active, s, t => t.active = s.active
  | .rollback, s, t => t.rollback = s.rollback
  | .loading, s, t => t.loading = s.loading
  | .loadNew, s, t => t.loadNew = s.loadNew
  | .switching, s, t => t.switching = s.switching
  | .capGen, s, t => t.capGen = s.capGen
  | .powered, s, t => t.powered = s.powered
  | .onTick, s, t => t.onTick = s.onTick
  | .booted, s, t => t.booted = s.booted
  | .cur, s, t => t.cur = s.cur
  | .second, s, t => t.second = s.second
  | .pair, s, t => t.pair = s.pair
  | .grown, s, t => t.grown = s.grown
  | .agenda, s, t => t.agenda = s.agenda
  | .tick, s, t => t.tick = s.tick

/-- From a state to another that differs from it in the listed fields alone. -/
structure Touches (ps : List Part) (s t : State) : Prop where
  keeps : ∀ p : Part, p ∉ ps → p.same s t

variable {s t r : State} {ps qs : List Part}

theorem Touches.refl (ps : List Part) (s : State) : Touches ps s s := ⟨fun p _ => by cases p <;> rfl⟩

theorem Touches.trans (h : Touches ps s t) (h' : Touches ps t r) : Touches ps s r := ⟨fun p hp => by
  have h₁ := h.keeps p hp
  have h₂ := h'.keeps p hp
  cases p <;> exact Eq.trans h₂ h₁⟩

/-- The last change first, the ones before it after it. -/
theorem Touches.last (h' : Touches ps t r) (h : Touches ps s t) : Touches ps s r := h.trans h'

theorem Touches.symm (h : Touches ps s t) : Touches ps t s := ⟨fun p hp => by
  have h₁ := h.keeps p hp
  cases p <;> exact Eq.symm h₁⟩

theorem Touches.mono (h : Touches ps s t) (hsub : ps ⊆ qs) : Touches qs s t :=
  ⟨fun p hp => h.keeps p fun hmem => hp (hsub hmem)⟩

theorem Touches.foldl {α : Type} {f : State → α → State} (hf : ∀ s x, Touches ps s (f s x)) (xs : List α) (s : State) :
    Touches ps s (xs.foldl f s) := by
  induction xs generalizing s with
  | nil => exact .refl ps s
  | cons x xs ih => exact (hf s x).trans (ih _)

theorem Touches.ite {c : Prop} [Decidable c] (h : Touches ps s t) (h' : Touches ps s r) : Touches ps s (if c then t else r) := by
  split
  · exact h
  · exact h'

/-! ## Changes of one field -/

theorem Touches.units (hp : Part.units ∈ ps) (s : State) (x : List Unit) : Touches ps s { s with units := x } := by
  refine ⟨fun p hnot => ?_⟩
  cases p
  case units => exact absurd hp hnot
  all_goals rfl

theorem Touches.cores (hp : Part.cores ∈ ps) (s : State) (x : Sparse Core) : Touches ps s { s with cores := x } := by
  refine ⟨fun p hnot => ?_⟩
  cases p
  case cores => exact absurd hp hnot
  all_goals rfl

theorem Touches.dies (hp : Part.dies ∈ ps) (s : State) (x : Sparse Die) : Touches ps s { s with dies := x } := by
  refine ⟨fun p hnot => ?_⟩
  cases p
  case dies => exact absurd hp hnot
  all_goals rfl

theorem Touches.ctxs (hp : Part.ctxs ∈ ps) (s : State) (x : List Ctx) : Touches ps s { s with ctxs := x } := by
  refine ⟨fun p hnot => ?_⟩
  cases p
  case ctxs => exact absurd hp hnot
  all_goals rfl

theorem Touches.launches (hp : Part.launches ∈ ps) (s : State) (x : List Launch) : Touches ps s { s with launches := x } := by
  refine ⟨fun p hnot => ?_⟩
  cases p
  case launches => exact absurd hp hnot
  all_goals rfl

theorem Touches.levels (hp : Part.levels ∈ ps) (s : State) (x : List Level) : Touches ps s { s with levels := x } := by
  refine ⟨fun p hnot => ?_⟩
  cases p
  case levels => exact absurd hp hnot
  all_goals rfl

theorem Touches.funcs (hp : Part.funcs ∈ ps) (s : State) (x : Sparse Func) : Touches ps s { s with funcs := x } := by
  refine ⟨fun p hnot => ?_⟩
  cases p
  case funcs => exact absurd hp hnot
  all_goals rfl

theorem Touches.engines (hp : Part.engines ∈ ps) (s : State) (x : Sparse (List (UKey × Nat))) : Touches ps s { s with engines := x } := by
  refine ⟨fun p hnot => ?_⟩
  cases p
  case engines => exact absurd hp hnot
  all_goals rfl

theorem Touches.outReqs (hp : Part.outReqs ∈ ps) (s : State) (x : List OutReq) : Touches ps s { s with outReqs := x } := by
  refine ⟨fun p hnot => ?_⟩
  cases p
  case outReqs => exact absurd hp hnot
  all_goals rfl

theorem Touches.owned (hp : Part.owned ∈ ps) (s : State) (x : List (Nat × UKey × Bool)) : Touches ps s { s with owned := x } := by
  refine ⟨fun p hnot => ?_⟩
  cases p
  case owned => exact absurd hp hnot
  all_goals rfl

theorem Touches.agenda (hp : Part.agenda ∈ ps) (s : State) (x : List Instr) : Touches ps s { s with agenda := x } := by
  refine ⟨fun p hnot => ?_⟩
  cases p
  case agenda => exact absurd hp hnot
  all_goals rfl

theorem Touches.energy (hp : Part.energy ∈ ps) (s : State) (x : DWord) : Touches ps s { s with energy := x } := by
  refine ⟨fun p hnot => ?_⟩
  cases p
  case energy => exact absurd hp hnot
  all_goals rfl

theorem Touches.front (hp : Part.front ∈ ps) (s : State) (x : List (Nat × Nat × Nat)) : Touches ps s { s with front := x } := by
  refine ⟨fun p hnot => ?_⟩
  cases p
  case front => exact absurd hp hnot
  all_goals rfl

theorem Touches.poolCache (hp : Part.poolCache ∈ ps) (s : State) (x : List Nat) : Touches ps s { s with poolCache := x } := by
  refine ⟨fun p hnot => ?_⟩
  cases p
  case poolCache => exact absurd hp hnot
  all_goals rfl

theorem Touches.ports (hp : Part.ports ∈ ps) (s : State) (x : List Port) : Touches ps s { s with ports := x } := by
  refine ⟨fun p hnot => ?_⟩
  cases p
  case ports => exact absurd hp hnot
  all_goals rfl

theorem Touches.seen (hp : Part.seen ∈ ps) (s : State) (x : List Seen) : Touches ps s { s with seen := x } := by
  refine ⟨fun p hnot => ?_⟩
  cases p
  case seen => exact absurd hp hnot
  all_goals rfl

theorem Touches.transit (hp : Part.transit ∈ ps) (s : State) (x : List FabMsg) : Touches ps s { s with transit := x } := by
  refine ⟨fun p hnot => ?_⟩
  cases p
  case transit => exact absurd hp hnot
  all_goals rfl

theorem Touches.due (hp : Part.agenda ∈ ps) (s : State) (i : Instr) : Touches ps s (s.due i) := (Touches.refl ps s).ite (.agenda hp ..)

/-- The fields that hold bytes and what is known of them. -/
def memoryParts : List Part := [.hbm, .pool, .host, .vaults, .marks, .badCrc, .relMem]

theorem MemOnly.touches (h : MemOnly s t) (hsub : memoryParts ⊆ ps) : Touches ps s t := by
  obtain ⟨_, _, _, _, _, _, _, rfl⟩ := h
  refine Touches.mono (ps := memoryParts) ⟨fun p hp => ?_⟩ hsub
  cases p
  case hbm | pool | host | vaults | marks | badCrc | relMem => exact absurd (by decide) hp
  all_goals rfl

/-! ## What stands alike -/

theorem Touches.rd (h : Touches ps s t) (hhbm : Part.hbm ∉ ps) (hpool : Part.pool ∉ ps) (hhost : Part.host ∉ ps) (hvaults : Part.vaults ∉ ps)
    (sp a : Nat) : t.rd sp a = s.rd sp a := by
  have h₀ : t.hbm = s.hbm := h.keeps .hbm hhbm
  have h₁ : t.pool = s.pool := h.keeps .pool hpool
  have h₂ : t.host = s.host := h.keeps .host hhost
  have h₃ : t.vaults = s.vaults := h.keeps .vaults hvaults
  unfold State.rd State.space
  rw [h₀, h₁, h₂, h₃]

theorem Touches.sameMemory (h : Touches ps s t) (hhbm : Part.hbm ∉ ps) (hpool : Part.pool ∉ ps) (hhost : Part.host ∉ ps)
    (hvaults : Part.vaults ∉ ps) : SameMemory s t :=
  sameMemory_of_rd (h.rd hhbm hpool hhost hvaults)

theorem State.launch?_congr (h : t.launches = s.launches) (fn lid : Nat) : t.launch? fn lid = s.launch? fn lid := by
  rw [State.launch?, h, State.launch?]

theorem State.level?_congr (h : t.levels = s.levels) (fn kind id : Nat) : t.level? fn kind id = s.level? fn kind id := by
  rw [State.level?, h, State.level?]

theorem State.func_congr (h : t.funcs = s.funcs) (fn : Nat) : t.func fn = s.func fn := by rw [State.func, h, State.func]

theorem State.die_congr (h : t.dies = s.dies) (n : Nat) : t.die n = s.die n := by rw [State.die, h, State.die]

end Sys2Proof.Machine
end

section
/-! PROOFS. What a unit that goes leaves alike: memory, every page table and its translation, the names of every context (R132, R178, R314). -/

namespace Sys2Proof.Machine
open Sys2Proof.Claims

variable {s t r : State} {c d e : Ctx} {k : UKey}

/-! ## Contexts that differ in what waits in them -/

/-- A context with other admissions and other pins. -/
def CtxLike (c d : Ctx) : Prop :=
  ∃ adms res, d = { c with adms := adms, res := res } ∧ ∀ i, ∃ n, d.slotRes i = { c.slotRes i with cpin := n }

theorem CtxLike.refl (c : Ctx) : CtxLike c c := ⟨c.adms, c.res, rfl, fun i => ⟨(c.slotRes i).cpin, rfl⟩⟩

theorem CtxLike.trans (h : CtxLike c d) (h' : CtxLike d e) : CtxLike c e := by
  obtain ⟨_, _, rfl, hslots⟩ := h
  obtain ⟨adms, res, rfl, hslots'⟩ := h'
  refine ⟨adms, res, rfl, fun i => ?_⟩
  obtain ⟨_, hn⟩ := hslots i
  obtain ⟨m, hm⟩ := hslots' i
  exact ⟨m, hm.trans (by rw [hn])⟩

theorem CtxLike.id (h : CtxLike c d) : d.id = c.id := by
  obtain ⟨_, _, rfl, -⟩ := h
  rfl

theorem CtxLike.dead (h : CtxLike c d) : d.dead = c.dead := by
  obtain ⟨_, _, rfl, -⟩ := h
  rfl

theorem CtxLike.hist (h : CtxLike c d) : d.hist = c.hist := by
  obtain ⟨_, _, rfl, -⟩ := h
  rfl

theorem CtxLike.fn (h : CtxLike c d) : d.fn = c.fn := by
  obtain ⟨_, _, rfl, -⟩ := h
  rfl

/-- Two optional contexts, both absent or alike. -/
def CtxsLike : Option Ctx → Option Ctx → Prop
  | none, none => True
  | some c, some d => CtxLike c d
  | _, _ => False

theorem CtxsLike.refl (c : Option Ctx) : CtxsLike c c := by
  cases c with
  | none => trivial
  | some c => exact CtxLike.refl c

theorem CtxsLike.trans {c d e : Option Ctx} (h : CtxsLike c d) (h' : CtxsLike d e) : CtxsLike c e := by
  cases c <;> cases d <;> cases e <;> simp only [CtxsLike] at h h' ⊢
  exact h.trans h'

theorem CtxsLike.some {c : Ctx} {y : Option Ctx} (h : CtxsLike (some c) y) : ∃ d, y = some d ∧ CtxLike c d := by
  cases y with
  | none => exact h.elim
  | some d => exact ⟨d, rfl, h⟩

theorem CtxsLike.none {y : Option Ctx} (h : CtxsLike none y) : y = none := by
  cases y with
  | none => rfl
  | some d => exact h.elim

theorem State.ctx?_modCtx_other (s : State) {i j : Nat} (f : Ctx → Ctx) (hf : ∀ c, (f c).id = c.id) (hne : j ≠ i) :
    (s.modCtx i f).ctx? j = s.ctx? j := by
  refine find?_map_other (fun c : Ctx => c.id == i && !c.dead) (fun c : Ctx => c.id == j && !c.dead) f (fun c hc => ?_) s.ctxs
  have hc' : c.id = i ∧ c.dead = false := by simpa using hc
  simp [hf, hc'.1, Ne.symm hne]

theorem ctxsLike_modCtx (s : State) (i : Nat) (f : Ctx → Ctx) (hf : ∀ c, CtxLike c (f c)) (id : Nat) :
    CtxsLike (s.ctx? id) ((s.modCtx i f).ctx? id) := by
  by_cases hid : id = i
  · subst hid
    rw [State.ctx?_modCtx s id f fun c => ⟨CtxLike.id (hf c), CtxLike.dead (hf c)⟩]
    cases s.ctx? id with
    | none => trivial
    | some c => exact hf c
  · rw [State.ctx?_modCtx_other s f (fun c => CtxLike.id (hf c)) hid]
    exact .refl _

/-! ## The relation -/

/-- The fields that the end of a unit may change. -/
def leavingParts : List Part := [.units, .cores, .dies, .ctxs, .engines, .outReqs, .owned, .energy]

/-- From a state to another in which units, queues, accounts and pins may stand otherwise, translations do not. -/
structure Leaves (s t : State) : Prop where
  touches : Touches leavingParts s t
  tlb : ∀ n, (t.core n).tlb = (s.core n).tlb
  ctxs : ∀ id, CtxsLike (s.ctx? id) (t.ctx? id)
  keys : ∀ x ∈ t.units, ∃ y ∈ s.units, y.key = x.key

theorem Leaves.refl (s : State) : Leaves s s := ⟨.refl _ s, fun _ => rfl, fun _ => .refl _, fun x hx => ⟨x, hx, rfl⟩⟩

theorem Leaves.trans (h : Leaves s t) (h' : Leaves t r) : Leaves s r where
  touches := h.touches.trans h'.touches
  tlb n := (h'.tlb n).trans (h.tlb n)
  ctxs id := (h.ctxs id).trans (h'.ctxs id)
  keys x hx := by
    obtain ⟨y, hy, hxy⟩ := h'.keys x hx
    obtain ⟨z, hz, hyz⟩ := h.keys y hy
    exact ⟨z, hz, hyz.trans hxy⟩

/-- The last change first, the ones before it after it. -/
theorem Leaves.last (h' : Leaves t r) (h : Leaves s t) : Leaves s r := h.trans h'

theorem Leaves.foldl {α : Type} {f : State → α → State} (hf : ∀ s x, Leaves s (f s x)) (xs : List α) (s : State) :
    Leaves s (xs.foldl f s) := by
  induction xs generalizing s with
  | nil => exact .refl s
  | cons x xs ih => exact (hf s x).trans (ih _)

theorem Leaves.unit?_none (h : Leaves s t) (hu : s.unit? k = none) : t.unit? k = none := by
  rw [State.unit?, List.find?_eq_none] at hu ⊢
  intro x hx
  obtain ⟨y, hy, hkey⟩ := h.keys x hx
  exact hkey ▸ hu y hy

theorem leaves_modUnit (s : State) (k : UKey) (f : Unit → Unit) (hf : ∀ u, (f u).key = u.key) : Leaves s (s.modUnit k f) where
  touches := .units (by decide) s _
  tlb _ := rfl
  ctxs _ := .refl _
  keys x hx := by
    obtain ⟨y, hy, rfl⟩ := List.mem_map.1 hx
    refine ⟨y, hy, ?_⟩
    split
    · exact (hf y).symm
    · rfl

theorem leaves_setCore (s : State) (n : Nat) (c : Core) (hc : c.tlb = (s.core n).tlb) : Leaves s (s.setCore n c) where
  touches := .cores (by decide) s _
  tlb m := by
    by_cases hm : m = n
    · subst hm
      rw [State.core_setCore, hc]
    · rw [State.core, State.setCore, Sparse.get_set_ne hm, State.core]
  ctxs _ := .refl _
  keys x hx := ⟨x, hx, rfl⟩

theorem leaves_modCore (s : State) (n : Nat) (f : Core → Core) (hf : ∀ c, (f c).tlb = c.tlb) : Leaves s (s.modCore n f) :=
  leaves_setCore s n _ (hf _)

theorem leaves_modDie (s : State) (n : Nat) (f : Die → Die) : Leaves s (s.modDie n f) :=
  ⟨.dies (by decide) s _, fun _ => rfl, fun _ => .refl _, fun x hx => ⟨x, hx, rfl⟩⟩

theorem leaves_energy (s : State) (e : DWord) : Leaves s { s with energy := e } :=
  ⟨.energy (by decide) s _, fun _ => rfl, fun _ => .refl _, fun x hx => ⟨x, hx, rfl⟩⟩

theorem leaves_modCtx (s : State) (i : Nat) (f : Ctx → Ctx) (hf : ∀ c, CtxLike c (f c)) : Leaves s (s.modCtx i f) :=
  ⟨.ctxs (by decide) s _, fun _ => rfl, ctxsLike_modCtx s i f hf, fun x hx => ⟨x, hx, rfl⟩⟩

theorem leaves_orphan (s : State) (p : OutReq → Bool) : Leaves s (orphan s p) :=
  ⟨.outReqs (by decide) s _, fun _ => rfl, fun _ => .refl _, fun x hx => ⟨x, hx, rfl⟩⟩

theorem leaves_leaveEngine (s : State) (k : UKey) (a : Nat) : Leaves s (leaveEngine s k a) :=
  ⟨.engines (by decide) s _, fun _ => rfl, fun _ => .refl _, fun x hx => ⟨x, hx, rfl⟩⟩

theorem leaves_endOwnership (s : State) (k : UKey) : Leaves s (endOwnership s k) :=
  ⟨.owned (by decide) s _, fun _ => rfl, fun _ => .refl _, fun x hx => ⟨x, hx, rfl⟩⟩

theorem leaves_filterUnits (s : State) (p : Unit → Bool) : Leaves s { s with units := s.units.filter p } :=
  ⟨.units (by decide) s _, fun _ => rfl, fun _ => .refl _, fun x hx => ⟨x, (List.mem_filter.1 hx).1, rfl⟩⟩

/-! ## The helpers of a removal -/

theorem leaves_spend (s : State) (die e est : Nat) : Leaves s (spend s die e est) := (leaves_energy ..).trans (leaves_modDie ..)

theorem leaves_addEnergy (s : State) (k : UKey) (n : Nat) : Leaves s (addEnergy s k n) := leaves_modUnit _ _ _ fun _ => rfl

theorem leaves_chargeEnd (s : State) (k : UKey) (die est : Nat) : Leaves s (chargeEnd s k die est) := (leaves_addEnergy ..).trans (leaves_spend ..)

theorem leaves_settlePermit (s : State) (k : UKey) (core : Nat) (m : Cmd) : Leaves s (settlePermit s k core m) := by
  unfold settlePermit
  split
  · exact leaves_chargeEnd ..
  · exact .refl s

theorem ctxLike_cpin (c : Ctx) (slot n : Nat) : CtxLike c { c with res := Sparse.set .start c.res slot { c.slotRes slot with cpin := n } } := by
  refine ⟨c.adms, _, rfl, fun i => ?_⟩
  by_cases hi : i = slot
  · subst hi
    exact ⟨_, Sparse.get_set_same⟩
  · exact ⟨(c.slotRes i).cpin, Sparse.get_set_ne hi⟩

theorem leaves_copyPin (s : State) (ctx slot : Nat) (up : Bool) : Leaves s (copyPin s ctx slot up) :=
  leaves_modCtx _ _ _ fun c => ctxLike_cpin c slot _

theorem ctxLike_adms (c : Ctx) (adms : List Adm) : CtxLike c { c with adms := adms } :=
  ⟨adms, c.res, rfl, fun i => ⟨(c.slotRes i).cpin, rfl⟩⟩

theorem leaves_dropGroupWaits (s : State) (ctx : Nat) (u : UKey) (gid : Nat) : Leaves s (dropGroupWaits s ctx u gid) :=
  leaves_modCtx _ _ _ fun c => ctxLike_adms c _

theorem leaves_wakeUnit (s : State) (k : UKey) (p : Wait → Bool) : Leaves s (wakeUnit s k p) := leaves_modUnit _ _ _ fun _ => rfl

theorem leaves_chargePass (s : State) (core : Nat) (p : Pass) : Leaves s (chargePass s core p) := by
  unfold chargePass
  split
  · exact .refl s
  · exact (Leaves.foldl (fun s _ => leaves_addEnergy s _ _) ..).trans (leaves_spend ..)

theorem leaves_passEnd (s : State) (core : Nat) : Leaves s (passEnd s core) := by
  unfold passEnd
  refine .last (leaves_modDie ..) (.last (leaves_modCore _ _ _ fun _ => rfl) ?_)
  split
  · exact leaves_chargePass ..
  · exact .refl s

theorem leaves_leavePass (s : State) (core : Nat) (k : UKey) (agent : Nat) : Leaves s (leavePass s core k agent) := by
  unfold leavePass
  split
  · exact .refl s
  · simp only
    split
    · exact .refl s
    · split
      · exact .last (leaves_passEnd ..) (leaves_modCore _ _ _ fun _ => rfl)
      · exact leaves_modCore _ _ _ fun _ => rfl

theorem leaves_dropCmd (s : State) (k : UKey) (agent : Nat) : Leaves s (dropCmd s k agent) := by
  unfold dropCmd
  split
  · exact .refl s
  · next u _ =>
    split
    · exact .refl s
    · exact .last (leaves_wakeUnit ..) <| .last (leaves_modDie ..) <| .last (leaves_modCore _ _ _ fun _ => rfl) <|
        .last (leaves_leaveEngine ..) <| .last (leaves_leavePass ..) <| .last (leaves_modUnit _ _ _ fun _ => rfl) <|
        .foldl (fun s p => leaves_copyPin s u.ctx p false) _ _

theorem mailPost_tlb (c : Core) (bs : List Byte) : (mailPost c bs).tlb = c.tlb := by
  unfold mailPost
  split <;> rfl

theorem leaves_postNow (s : State) (u : Unit) (g : Group) : Leaves s (postNow s u g) := by
  unfold postNow
  simp only
  split
  · exact leaves_setCore _ _ _ (mailPost_tlb ..)
  · exact leaves_setCore _ _ _ rfl

theorem leaves_mailPump (s : State) (n : Nat) : Leaves s (mailPump s n) := by
  unfold mailPump
  simp only
  split
  · split
    · exact .refl s
    · split
      · split
        · exact .last (leaves_postNow ..) (leaves_setCore _ _ _ rfl)
        · exact leaves_setCore _ _ _ rfl
      · exact leaves_setCore _ _ _ rfl
  · split
    · split
      · exact .refl s
      · exact leaves_setCore _ _ _ (mailPost_tlb ..)
    · exact .refl s

theorem mailClears_tlb (is : List Nat) (c : Core) : (is.foldl mailClear c).tlb = c.tlb := by
  induction is generalizing c with
  | nil => rfl
  | cons i is ih => exact ih _

theorem leaves_withdrawMail (s : State) (core : Nat) (slots : List Nat) : Leaves s (withdrawMail s core slots) :=
  .last (leaves_mailPump ..) (leaves_setCore _ _ _ (mailClears_tlb ..))

theorem leaves_freePlanes (s : State) (core : Nat) : Leaves s (freePlanes s core) := by
  unfold freePlanes
  simp only
  split
  · exact .refl s
  · split
    · exact .refl s
    · exact leaves_setCore _ _ _ rfl

/-- What a unit's launch learns when the unit goes. -/
def learnt (s : State) (u : Unit) : State :=
  if s.tracks then s.modLaunch u.key.fn u.key.lid fun l => { l with know := joinKnow l.know (u.race.all u.key) } else s

/-- The rest of a removal, up to the unit itself. -/
def stripped (s : State) (u : Unit) : State :=
  let s := u.cmds.foldl (fun s m => dropCmd (settlePermit s u.key u.core m.2) u.key m.1) s
  let s := orphan s (OutReq.ofUnit u.key)
  let s := (u.grps.filter (·.live)).foldl (fun s g => dropGroupWaits s u.ctx u.key g.gid) (dropGroupWaits s u.ctx u.key restoreGid)
  let s := withdrawMail s u.core ((u.grps.filter (·.live)).map (·.slot))
  endOwnership s u.key

theorem removeUnit_eq (s : State) (u : Unit) : removeUnit s u =
    freePlanes { stripped (learnt s u) u with units := (stripped (learnt s u) u).units.filter fun x => x.key != u.key } u.core := rfl

theorem leaves_stripped (s : State) (u : Unit) : Leaves s (stripped s u) :=
  .last (leaves_endOwnership ..) <| .last (leaves_withdrawMail ..) <| .last (.foldl (fun s (g : Group) => leaves_dropGroupWaits s u.ctx u.key g.gid) _ _) <|
    .last (leaves_dropGroupWaits ..) <| .last (leaves_orphan ..) <|
    .foldl (fun s (m : Nat × Cmd) => (leaves_settlePermit s u.key u.core m.2).trans (leaves_dropCmd _ u.key m.1)) _ _

theorem leaves_removeUnit (s : State) (u : Unit) : Leaves (learnt s u) (removeUnit s u) := by
  rw [removeUnit_eq]
  exact (leaves_stripped ..).trans ((leaves_filterUnits ..).trans (leaves_freePlanes ..))

/-- No unit of the key is left, and every unit that is left stood before. -/
theorem removeUnit_keys (s : State) (u : Unit) : ∀ x ∈ (removeUnit s u).units, x.key ≠ u.key := by
  rw [removeUnit_eq]
  intro x hx
  obtain ⟨y, hy, hkey⟩ := (leaves_freePlanes ..).keys x hx
  have hne := (List.mem_filter.1 hy).2
  rw [hkey] at hne
  exact bne_iff_ne.1 hne

theorem learnt_units (s : State) (u : Unit) : (learnt s u).units = s.units := by
  unfold learnt
  split <;> rfl

/-! ## Translations of such states -/

/-- What a translation looks at stands alike. -/
structure SameTables (s t : State) : Prop where
  rd : ∀ sp a, t.rd sp a = s.rd sp a
  tlb : ∀ n, (t.core n).tlb = (s.core n).tlb
  pools : t.pools = s.pools
  poolUp : t.poolUp = s.poolUp
  marks : t.marks = s.marks
  tick : t.tick = s.tick

theorem SameTables.trans (h : SameTables s t) (h' : SameTables t r) : SameTables s r :=
  ⟨fun sp a => (h'.rd sp a).trans (h.rd sp a), fun n => (h'.tlb n).trans (h.tlb n), h'.pools.trans h.pools, h'.poolUp.trans h.poolUp,
    h'.marks.trans h.marks, h'.tick.trans h.tick⟩

theorem Leaves.tables (h : Leaves s t) : SameTables s t where
  rd := h.touches.rd (by decide) (by decide) (by decide) (by decide)
  tlb := h.tlb
  pools := h.touches.keeps .pools (by decide)
  poolUp := h.touches.keeps .poolUp (by decide)
  marks := h.touches.keeps .marks (by decide)
  tick := h.touches.keeps .tick (by decide)

theorem SameTables.walkFrom (h : SameTables s t) (va n table : Nat) : walkFrom t va n table = walkFrom s va n table := by
  induction n generalizing table with
  | zero => rfl
  | succ n ih =>
    unfold Machine.walkFrom
    simp only [State.rdN_congr fun i _ => h.rd 0 _, ih]

theorem SameTables.walk (h : SameTables s t) (hc : CtxLike c d) (va : Nat) : walk t d va = walk s c va := by
  obtain ⟨_, _, rfl, -⟩ := hc
  unfold Machine.walk
  rw [h.walkFrom]

theorem SameTables.leafFor (h : SameTables s t) (hc : CtxLike c d) (core va : Nat) : leafFor t core d va = leafFor s core c va := by
  unfold Machine.leafFor
  simp only [h.walk hc, h.tlb, h.tick, hc.id]

theorem SameTables.marked (h : SameTables s t) (sp a n : Nat) : t.marked sp a n = s.marked sp a n := by
  unfold State.marked
  rw [h.marks]

theorem SameTables.spoilt (h : SameTables s t) (sp a n : Nat) : t.spoilt sp a n = s.spoilt sp a n := by
  unfold State.spoilt
  rw [h.marked, h.tick]

theorem SameTables.poolRange? (h : SameTables s t) (fn a n : Nat) (w : Bool) : poolRange? t fn a n w = poolRange? s fn a n w := by
  unfold Machine.poolRange?
  rw [h.pools]

theorem SameTables.landOrd (h : SameTables s t) (hc : CtxLike c d) (core l : Nat) (loc : Loc) (n : Nat) (use : Use) :
    landOrd t core d l loc n use = landOrd s core c l loc n use := by
  have hleaf := fun va => h.leafFor hc core va
  obtain ⟨_, _, rfl, -⟩ := hc
  unfold Machine.landOrd
  simp only [hleaf, h.marked, h.spoilt, h.poolRange?, h.poolUp, State.poolRefuses, h.tick]
  rfl

theorem CtxLike.resolveOrd (hc : CtxLike c d) (spec l va n : Nat) : resolveOrd d spec l va n = resolveOrd c spec l va n := by
  obtain ⟨_, _, rfl, hslots⟩ := hc
  obtain ⟨_, hn⟩ := hslots (ptrSlot va)
  unfold Machine.resolveOrd
  simp only [hn]
  rfl

theorem SameTables.sysLand (h : SameTables s t) (hc : CtxLike c d) (va n : Nat) (write : Bool) : sysLand t d va n write = sysLand s c va n write := by
  unfold Machine.sysLand sysPlace
  simp only [hc.resolveOrd, h.landOrd hc]

end Sys2Proof.Machine
end

section
/-! PROOFS. The joiner, the end of a group and of a unit, and the completion of a launch (R132, R178, R230, R337). -/

namespace Sys2Proof.Machine
open Sys2Proof.Claims

variable {s t x : State} {k : UKey} {u : Unit} {g : Group} {l m : Launch} {p : Level} {fn lid kind id : Nat} {failed : Bool}

/-! ## The joiner (R230) -/

theorem lowestFrom_holds {q : Nat → Bool} {n i j : Nat} (h : lowestFrom q n i = some j) : q j = true := by
  induction n generalizing i with
  | zero => exact nomatch h
  | succ n ih =>
    rw [lowestFrom] at h
    split at h
    · next hq => exact Option.some.inj h ▸ hq
    · exact ih h

theorem length_insertTid (r : OffRec) (rs : List OffRec) : (insertTid r rs).length = rs.length + 1 := by
  induction rs with
  | nil => rfl
  | cons x rs ih =>
    rw [insertTid]
    split
    · rfl
    · simp [ih]

theorem mem_insertTid {r y : OffRec} {rs : List OffRec} (h : y ∈ insertTid r rs) : y = r ∨ y ∈ rs := by
  induction rs with
  | nil => exact .inl (List.mem_singleton.1 h)
  | cons x rs ih =>
    rw [insertTid] at h
    split at h
    · exact List.mem_cons.1 h
    · obtain rfl | h := List.mem_cons.1 h
      · exact .inr (List.mem_cons_self ..)
      · exact (ih h).imp_right (List.mem_cons_of_mem _)

theorem length_sortTid (rs : List OffRec) : (rs.foldr insertTid []).length = rs.length := by
  induction rs with
  | nil => rfl
  | cons r rs ih => rw [List.foldr_cons, length_insertTid, ih, List.length_cons]

theorem mem_sortTid {y : OffRec} {rs : List OffRec} (h : y ∈ rs.foldr insertTid []) : y ∈ rs := by
  induction rs with
  | nil => exact h
  | cons r rs ih =>
    obtain rfl | h := mem_insertTid h
    · exact List.mem_cons_self ..
    · exact List.mem_cons_of_mem _ (ih h)

/-- Two groups of one number and slot, both live, with one register grant. -/
def SameSeat (g h : Group) : Prop := h.live = g.live ∧ h.gid = g.gid ∧ h.slot = g.slot ∧ h.grant = g.grant

theorem SameSeat.refl (g : Group) : SameSeat g g := ⟨rfl, rfl, rfl, rfl⟩

theorem SameSeat.foldl {α : Type} {f : Group → α → Group} (hf : ∀ g x, SameSeat g (f g x)) (xs : List α) (g : Group) :
    SameSeat g (xs.foldl f g) := by
  induction xs generalizing g with
  | nil => exact .refl g
  | cons x xs ih =>
    obtain ⟨h₁, h₂, h₃, h₄⟩ := hf g x
    obtain ⟨h₁', h₂', h₃', h₄'⟩ := ih (f g x)
    exact ⟨h₁'.trans h₁, h₂'.trans h₂, h₃'.trans h₃, h₄'.trans h₄⟩

theorem SameSeat.trans {g h i : Group} (h₁ : SameSeat g h) (h₂ : SameSeat h i) : SameSeat g i :=
  ⟨h₂.1.trans h₁.1, h₂.2.1.trans h₁.2.1, h₂.2.2.1.trans h₁.2.2.1, h₂.2.2.2.trans h₁.2.2.2⟩

theorem sameSeat_joinLane (g : Group) (r : OffRec) (lane : Nat) : SameSeat g (g.joinLane r lane) := by
  have hpreds : ∀ (g : Group) (i : Nat), SameSeat g
      (if r.preds.testBit i then { g with p := Sparse.set 0 g.p i (Sparse.get 0 g.p i ||| BitVec.ofNat 32 (2 ^ lane)) } else g) := fun g i => by
    split <;> exact .refl g
  have hvals : ∀ (g : Group) (v : Word × Nat), SameSeat g (g.setV v.2 lane v.1) := fun g _ => .refl g
  exact ((SameSeat.foldl hvals _ g).trans (SameSeat.foldl hpreds _ _)).trans (.refl _)

/-- A joined group has its number, its slot and its launch's grant, and one entry for its records. -/
theorem joinGroup_seat (l : Launch) (gid slot : Nat) (rs : List OffRec) : SameSeat (Group.start gid slot (16 * l.vblk)) (joinGroup l gid slot rs) := by
  have hlanes := SameSeat.foldl (fun g (v : OffRec × Nat) => sameSeat_joinLane g v.1 v.2) rs.zipIdx
    { Group.start gid slot (16 * l.vblk) with s := preload l }
  have htags : ∀ (g : Group) (v : Tag × Nat), SameSeat g (g.setVtag v.2 v.1) := fun g _ => .refl g
  unfold joinGroup
  cases rs with
  | nil => exact hlanes
  | cons r rs => exact hlanes.trans ((SameSeat.foldl htags r.tags.zipIdx _).trans (.refl _))

theorem joinGroup_ents (l : Launch) (gid slot : Nat) {rs : List OffRec} {r : OffRec} (hne : rs ≠ []) (hkey : ∀ y ∈ rs, y.key = r.key) :
    (joinGroup l gid slot rs).ents = [.new r.pc r.prio (BitVec.ofNat 32 (2 ^ rs.length - 1))] := by
  cases rs with
  | nil => exact absurd rfl hne
  | cons y rs =>
    have hyr : y.key = r.key := hkey y (List.mem_cons_self ..)
    have hpc : y.pc = r.pc := congrArg Prod.fst hyr
    have hprio : y.prio = r.prio := congrArg (·.2.1) hyr
    show [Entry.new y.pc y.prio _] = _
    rw [hpc, hprio]

/-- What the joiner's choice says: a record of the key, no live group of the number. -/
theorem buildable_spec {key : DWord × Nat × Nat × List Tag} {gid slot : Nat} (h : buildable s u = some (key, gid, slot)) :
    (∃ r ∈ u.off, r.key = key) ∧ u.grp? gid = none := by
  unfold buildable at h
  split at h
  · exact nomatch h
  · split at h
    · exact nomatch h
    · split at h
      · exact nomatch h
      · next r hr =>
        split at h
        · next hgid _ =>
          cases h
          refine ⟨⟨r, List.mem_of_find?_eq_some hr, rfl⟩, ?_⟩
          have hfree := lowestFrom_holds hgid
          simp only [Bool.and_eq_true, List.all_eq_true] at hfree
          exact List.find?_eq_none.2 fun g hg hgid => by simpa [hgid] using hfree.2 g hg
        · exact nomatch h

theorem execJoinerBuild_next {key : DWord × Nat × Nat × List Tag} {gid slot : Nat} (hu : s.unit? k = some u)
    (hb : buildable s u = some (key, gid, slot)) (hl : launchOf s u = some l) :
    let rs := (u.off.filter fun r => r.key == key).take 32
    ∃ t u' h, exec (.joinerBuild k) s = .next t ∧ t.unit? k = some u' ∧ u'.grp? gid = some h ∧ SameMemory s t
      ∧ h.slot = slot ∧ h.grant = 16 * l.vblk ∧ h.ents = [Entry.new key.1 key.2.1 (BitVec.ofNat 32 (2 ^ rs.length - 1))]
      ∧ u'.off = u.off.filter fun r => !rs.contains r := by
  intro rs
  obtain ⟨⟨r, hr, rfl⟩, hnone⟩ := buildable_spec hb
  have hne : rs ≠ [] := by
    intro h
    have hmem : r ∈ u.off.filter fun y => y.key == r.key := List.mem_filter.2 ⟨hr, beq_self_eq_true _⟩
    rcases List.take_eq_nil_iff.1 h with h | h
    · exact nomatch h
    · rw [h] at hmem
      exact nomatch hmem
  have hsort : rs.foldr insertTid [] ≠ [] := fun h => hne (List.length_eq_zero_iff.1 ((length_sortTid rs).symm.trans (congrArg _ h)))
  have hkeys : ∀ y ∈ rs.foldr insertTid [], y.key = r.key := fun y hy =>
    beq_iff_eq.1 (List.mem_filter.1 (List.mem_of_mem_take (mem_sortTid hy))).2
  obtain ⟨hlive, hgid, hslot, hgrant⟩ := joinGroup_seat l gid slot (rs.foldr insertTid [])
  have hexec : exec (.joinerBuild k) s = .next (withRace
      (s.modUnit k fun u => { u with grps := u.grps ++ [joinGroup l gid slot (rs.foldr insertTid [])], off := u.off.filter fun r => !rs.contains r })
      k fun r => rs.foldl (fun r x => r.learn k gid x.clock) r) := by
    show execJoinerBuild k s = _
    unfold execJoinerBuild
    simp only [hu, hb, hl]
    rfl
  obtain ⟨_, hunit⟩ := unit?_withRace_of (unit?_modUnit_of hu (fun u =>
    { u with grps := u.grps ++ [joinGroup l gid slot (rs.foldr insertTid [])], off := u.off.filter fun r => !rs.contains r }) fun _ h => h)
    fun r => rs.foldl (fun r x => r.learn k gid x.clock) r
  refine ⟨_, _, joinGroup l gid slot (rs.foldr insertTid []), hexec, hunit, ?_, sameMemory_of_rd fun sp a => withRace_rd .., hslot, hgrant, ?_, rfl⟩
  · rw [Unit.grp?, List.find?_append]
    have hfirst : u.grps.find? (fun g => g.live && g.gid == gid) = none := hnone
    rw [hfirst, Option.none_or, List.find?_singleton, hlive, hgid]
    simp [Group.start]
  · rw [joinGroup_ents l gid slot hsort hkeys, length_sortTid]
    rfl

/-! ## The end of a group (R132, R178) -/

theorem Bar.leave_memb (b : Bar) (gid : Nat) (arrived : Bool) : (b.leave gid arrived).memb =
    if b.memb.getLsbD gid then b.memb &&& ~~~BitVec.ofNat 32 (2 ^ gid) else b.memb := by
  unfold Bar.leave Bar.complete
  cases b.memb.getLsbD gid
  · rfl
  · simp only [Bool.not_true, Bool.false_eq_true, if_false, if_true, apply_ite Bar.memb, ite_self]

theorem Bar.leave_gone (b : Bar) (gid : Nat) (arrived : Bool) : (b.leave gid arrived).memb.getLsbD gid = false := by
  rw [b.leave_memb]
  cases h : b.memb.getLsbD gid
  · simpa using h
  · simp only [if_true, BitVec.getLsbD_and, BitVec.getLsbD_not, BitVec.getLsbD_ofNat, Nat.testBit_two_pow_self]
    by_cases hlt : gid < 32 <;> simp [hlt]

/-- A unit with other barriers and other clocks. -/
def OtherBars (u v : Unit) : Prop := ∃ bars race, v = { u with bars := bars, race := race }

/-- One barrier of a group that ends. -/
def leaveBar (k : UKey) (gid : Nat) (g : Group) (s : State) (bo : Nat) : State :=
  match s.unit? k with
  | none => s
  | some u =>
    let b := u.bar bo
    let b' := b.leave gid (g.arrv.getLsbD bo && Sparse.get 0 g.tph bo == b.ph)
    let s := s.modUnit k fun u => u.setBar bo b'
    if b'.ph = b.ph then s else withRace s k fun r => r.phase bo b'.ph

theorem leaves_withRace (s : State) (k : UKey) (f : Race → Race) : Leaves s (withRace s k f) := by
  unfold withRace
  split
  · exact leaves_modUnit _ _ _ fun _ => rfl
  · exact .refl s

theorem leaves_leaveBar (k : UKey) (gid : Nat) (g : Group) (s : State) (bo : Nat) : Leaves s (leaveBar k gid g s bo) := by
  unfold leaveBar
  split
  · exact .refl s
  · simp only
    split
    · exact leaves_modUnit _ _ _ fun _ => rfl
    · exact .last (leaves_withRace ..) (leaves_modUnit _ _ _ fun _ => rfl)

theorem leaveBar_unit (hu : s.unit? k = some u) (gid : Nat) (g : Group) (bo : Nat) :
    ∃ v, (leaveBar k gid g s bo).unit? k = some v ∧ OtherBars u v ∧ (v.bar bo).memb.getLsbD gid = false
      ∧ ∀ j, (u.bar j).memb.getLsbD gid = false → (v.bar j).memb.getLsbD gid = false := by
  have hunit := unit?_modUnit_of hu
    (fun v => v.setBar bo ((u.bar bo).leave gid (g.arrv.getLsbD bo && Sparse.get 0 g.tph bo == (u.bar bo).ph))) fun _ h => h
  have hbars : ∀ v : Unit, (∀ j, v.bar j = if j = bo then (u.bar bo).leave gid (g.arrv.getLsbD bo && Sparse.get 0 g.tph bo == (u.bar bo).ph) else u.bar j) →
      (v.bar bo).memb.getLsbD gid = false ∧ ∀ j, (u.bar j).memb.getLsbD gid = false → (v.bar j).memb.getLsbD gid = false := by
    intro v hv
    refine ⟨by rw [hv, if_pos rfl]; exact Bar.leave_gone .., fun j hj => ?_⟩
    rw [hv]
    split
    · exact Bar.leave_gone ..
    · exact hj
  unfold leaveBar
  simp only [hu]
  split
  · exact ⟨_, hunit, ⟨_, u.race, rfl⟩, hbars _ fun j => Sparse.get_set⟩
  · obtain ⟨r, hr⟩ := unit?_withRace_of hunit
      fun r => r.phase bo ((u.bar bo).leave gid (g.arrv.getLsbD bo && Sparse.get 0 g.tph bo == (u.bar bo).ph)).ph
    exact ⟨_, hr, ⟨_, r, rfl⟩, hbars _ fun j => Sparse.get_set⟩

theorem leaveBars_unit (hu : s.unit? k = some u) (gid : Nat) (g : Group) (bos : List Nat) :
    ∃ v, (bos.foldl (leaveBar k gid g) s).unit? k = some v ∧ OtherBars u v ∧ (∀ bo ∈ bos, (v.bar bo).memb.getLsbD gid = false)
      ∧ ∀ j, (u.bar j).memb.getLsbD gid = false → (v.bar j).memb.getLsbD gid = false := by
  induction bos generalizing s u with
  | nil => exact ⟨u, hu, ⟨u.bars, u.race, rfl⟩, by simp, fun _ h => h⟩
  | cons bo bos ih =>
    obtain ⟨v, hv, ⟨_, _, rfl⟩, hgone, hkeep⟩ := leaveBar_unit hu gid g bo
    obtain ⟨w, hw, ⟨bars, race, rfl⟩, hall, hkeep'⟩ := ih hv
    refine ⟨_, hw, ⟨bars, race, rfl⟩, fun j hj => ?_, fun j hj => hkeep' j (hkeep j hj)⟩
    obtain rfl | hj := List.mem_cons.1 hj
    · exact hkeep' _ hgone
    · exact hall j hj

theorem dropGroupWaits_units (s : State) (ctx : Nat) (k : UKey) (gid : Nat) : (dropGroupWaits s ctx k gid).units = s.units := rfl

theorem endGroup_eq {gid : Nat} (hu : s.unit? k = some u) (hg : u.grp? gid = some g) : endGroup s k gid =
    (dropGroupWaits ((List.range 16).foldl (leaveBar k gid g) s) u.ctx k gid).modUnit k fun u =>
      { u with grps := u.grps.filter fun g => !(g.live && g.gid == gid) } := by
  unfold endGroup
  simp only [hu, hg]
  rfl

/-- The group taken out of its unit. -/
def Unit.without (gid : Nat) (u : Unit) : Unit := { u with grps := u.grps.filter fun g => !(g.live && g.gid == gid) }

theorem endGroup_unit {v : Unit} {gid : Nat} (hu : s.unit? k = some u) (hg : u.grp? gid = some g)
    (hv : ((List.range 16).foldl (leaveBar k gid g) s).unit? k = some v) : (endGroup s k gid).unit? k = some (v.without gid) := by
  rw [endGroup_eq hu hg]
  exact unit?_modUnit_of ((State.unit?_congr (dropGroupWaits_units _ u.ctx k gid) k).trans hv) (Unit.without gid) fun _ h => h

theorem execGroupEnd_next (hu : s.unit? k = some u) (hg : u.grp? g.gid = some g) (hents : g.ents = [])
    (hcmds : ∀ m ∈ u.cmds, m.2.gid = g.gid → m.2.vregs = []) :
    ∃ t u', exec (.groupEnd k g.gid) s = .next t ∧ t.unit? k = some u' ∧ SameMemory s t ∧ u'.grp? g.gid = none
      ∧ ∀ bo < 16, (u'.bar bo).memb.getLsbD g.gid = false := by
  have howed : (u.cmds.any fun m => m.2.gid == g.gid && !m.2.vregs.isEmpty) = false := by
    rw [List.any_eq_false]
    intro m hm howes
    have hboth : m.2.gid = g.gid ∧ m.2.vregs ≠ [] := by simpa using howes
    exact hboth.2 (hcmds m hm hboth.1)
  have hexec : exec (.groupEnd k g.gid) s = .next (endGroup s k g.gid) := by
    show execGroupEnd k g.gid s = _
    unfold execGroupEnd
    simp only [hu, Option.bind_some, hg, Option.map_some, hents, howed]
    rfl
  obtain ⟨v, hv, ⟨_, _, rfl⟩, hall, -⟩ := leaveBars_unit hu g.gid g (List.range 16)
  have hleaves : Leaves s (endGroup s k g.gid) := by
    rw [endGroup_eq hu hg]
    exact .last (leaves_modUnit _ _ _ fun _ => rfl) <| .last (leaves_dropGroupWaits ..) <| .foldl (leaves_leaveBar k g.gid g) _ _
  refine ⟨_, _, hexec, endGroup_unit hu hg hv, sameMemory_of_rd hleaves.tables.rd, ?_, fun bo hbo => hall bo (List.mem_range.2 hbo)⟩
  refine List.find?_eq_none.2 fun x hx => ?_
  have hnot := (List.mem_filter.1 hx).2
  simpa [imp_iff_not_or] using hnot

/-! ## A unit that goes, and its launch (R314, R337) -/

theorem State.launch?_modLaunch (s : State) (fn lid : Nat) (f : Launch → Launch) (hf : ∀ l, (f l).fn = l.fn ∧ (f l).lid = l.lid) :
    (s.modLaunch fn lid f).launch? fn lid = (s.launch? fn lid).map f :=
  find?_map_self (fun l : Launch => l.fn == fn && l.lid == lid) f (fun l h => by rwa [(hf l).1, (hf l).2]) s.launches

theorem State.launch?_spec (h : s.launch? fn lid = some l) : l.fn = fn ∧ l.lid = lid := by
  simpa using List.find?_some h

theorem State.launch?_setLaunch (h : s.launch? fn lid = some l) (hm : m.fn = fn ∧ m.lid = lid) :
    (s.modLaunch fn lid fun _ => m).launch? fn lid = some m :=
  (find?_map_self (fun l : Launch => l.fn == fn && l.lid == lid) (fun _ => m) (fun _ _ => by simp [hm]) s.launches).trans
    (congrArg (Option.map fun _ => m) h)

/-- A launch whose units have learnt more. -/
def Launch.knowing (l : Launch) (know : Know) : Launch := { l with know := know }

theorem learnt_launch (hl : s.launch? u.key.fn u.key.lid = some l) : ∃ know, (learnt s u).launch? u.key.fn u.key.lid = some (l.knowing know) := by
  unfold learnt
  split
  · refine ⟨joinKnow l.know (u.race.all u.key), ?_⟩
    rw [State.launch?_modLaunch, hl]
    · rfl
    · exact fun _ => ⟨rfl, rfl⟩
  · exact ⟨l.know, hl⟩

theorem learnt_touches (s : State) (u : Unit) : Touches [.launches] s (learnt s u) := by
  unfold learnt
  split
  · exact .launches (by decide) s _
  · exact .refl _ s

theorem removeUnit_launch (hl : s.launch? u.key.fn u.key.lid = some l) :
    ∃ know, (removeUnit s u).launch? u.key.fn u.key.lid = some (l.knowing know) := by
  obtain ⟨know, h⟩ := learnt_launch hl
  exact ⟨know, (State.launch?_congr ((leaves_removeUnit s u).touches.keeps .launches (by decide)) ..).trans h⟩

theorem removeUnit_unit (s : State) (u : Unit) : (removeUnit s u).unit? u.key = none :=
  List.find?_eq_none.2 fun x hx => by simpa using removeUnit_keys s u x hx

theorem mem_removeUnit {x : Unit} (hx : x ∈ (removeUnit s u).units) : x.key ≠ u.key ∧ ∃ y ∈ s.units, y.key = x.key := by
  obtain ⟨y, hy, hkey⟩ := (leaves_removeUnit s u).keys x hx
  exact ⟨removeUnit_keys s u x hx, y, learnt_units s u ▸ hy, hkey⟩

/-- What the completion of a launch reads stands alike. -/
structure Ends (s t : State) : Prop where
  tables : SameTables s t
  ctxs : ∀ id, CtxsLike (s.ctx? id) (t.ctx? id)
  levels : t.levels = s.levels

theorem Leaves.ends (h : Leaves s t) : Ends s t := ⟨h.tables, h.ctxs, h.touches.keeps .levels (by decide)⟩

/-- The fields that the launches and functions alone change. -/
def benchParts : List Part := [.launches, .front, .funcs, .units]

theorem Touches.ends {ps : List Part} (h : Touches ps s t) (hsub : ps ⊆ benchParts) : Ends s t := by
  have h := h.mono hsub
  refine ⟨⟨h.rd (by decide) (by decide) (by decide) (by decide), fun n => ?_, h.keeps .pools (by decide), h.keeps .poolUp (by decide), h.keeps .marks (by decide),
    h.keeps .tick (by decide)⟩, fun id => ?_, h.keeps .levels (by decide)⟩
  · rw [State.core_congr (h.keeps .cores (by decide))]
  · rw [State.ctx?_congr (h.keeps .ctxs (by decide))]
    exact .refl _

theorem Ends.trans {r : State} (h : Ends s t) (h' : Ends t r) : Ends s r :=
  ⟨h.tables.trans h'.tables, fun id => (h.ctxs id).trans (h'.ctxs id), h'.levels.trans h.levels⟩

theorem ends_removeUnit (s : State) (u : Unit) : Ends s (removeUnit s u) :=
  ((learnt_touches s u).ends (by decide)).trans (leaves_removeUnit s u).ends

/-! ## Signals and levels (R336, R337) -/

/-- The fields that a record to a function, a decrement and a level may change. -/
def signalParts : List Part := memoryParts ++ [.funcs, .levels]

theorem Recorded.touches {ps : List Part} (h : Recorded s t) (hsub : [.host, .marks, .badCrc, .relMem, .funcs] ⊆ ps) : Touches ps s t := by
  obtain ⟨_, _, _, _, _, rfl⟩ := h
  refine Touches.mono (ps := [.host, .marks, .badCrc, .relMem, .funcs]) ⟨fun p hp => ?_⟩ hsub
  cases p
  case host | marks | badCrc | relMem | funcs => exact absurd (by decide) hp
  all_goals rfl

theorem touches_setHeld (s : State) (sp a n : Nat) (rs : List Released) : Touches [.relMem] s (setHeld s sp a n rs) := by
  refine ⟨fun p hp => ?_⟩
  cases p
  case relMem => exact absurd (by decide) hp
  all_goals rfl

theorem memOnly_wrN (s : State) (sp a n v : Nat) : MemOnly s (s.wrN sp a n v) := by
  induction n generalizing s a v with
  | zero => exact .refl s
  | succ n ih => exact MemOnly.trans (State.wr_cases ..) (ih ..)

/-- A function's history is not its replies'. -/
structure HistoryStays (s t : State) : Prop where
  same : ∀ fn, (t.func fn).history = (s.func fn).history

theorem historyStays_of_funcs (h : t.funcs = s.funcs) : HistoryStays s t := ⟨fun fn => by rw [State.func_congr h]⟩

theorem HistoryStays.trans {r : State} (h : HistoryStays s t) (h' : HistoryStays t r) : HistoryStays s r := ⟨fun fn => (h'.same fn).trans (h.same fn)⟩

theorem HistoryStays.last {r : State} (h' : HistoryStays t r) (h : HistoryStays s t) : HistoryStays s r := h.trans h'

theorem historyStays_modFunc (s : State) (n : Nat) (f : Func → Func) (hf : ∀ x, (f x).history = x.history) : HistoryStays s (s.modFunc n f) := by
  refine ⟨fun fn => ?_⟩
  by_cases h : fn = n
  · subst h
    exact (congrArg Func.history Sparse.get_set_same).trans (hf _)
  · exact congrArg Func.history (Sparse.get_set_ne h)

theorem ringWrite_funcs (s : State) (va size pos : Nat) (bs : List Byte) : (ringWrite s va size pos bs).funcs = s.funcs := by
  induction bs generalizing s pos with
  | nil => rfl
  | cons b bs ih => exact (ih ..).trans rfl

theorem historyStays_ringPump (s : State) (fn n : Nat) : HistoryStays s (ringPump s fn n) := by
  induction n generalizing s with
  | zero => exact ⟨fun _ => rfl⟩
  | succ n ih =>
    unfold ringPump
    simp only
    split
    · exact ⟨fun _ => rfl⟩
    · split
      · exact ⟨fun _ => rfl⟩
      · exact .last (ih _) <| .last (historyStays_modFunc _ _ _ fun _ => rfl) <| historyStays_of_funcs (ringWrite_funcs ..)

theorem historyStays_sendRecord (s : State) (fn : Nat) (bs : List Byte) : HistoryStays s (sendRecord s fn bs) :=
  .last (historyStays_ringPump ..) (historyStays_modFunc _ _ _ fun _ => rfl)

/-- What a signal step leaves alike whatever it meets. -/
theorem signalStep_stays (s : State) (fn ctx va lid : Nat) (failed : Bool) (know : Know) :
    Touches (memoryParts ++ [.funcs]) s (signalStep s fn ctx va lid failed know) ∧ HistoryStays s (signalStep s fn ctx va lid failed know) := by
  have hnotice : ∀ fn op fields, Touches (memoryParts ++ [.funcs]) s (notice s fn op fields) ∧ HistoryStays s (notice s fn op fields) :=
    fun _ _ _ => ⟨(recorded_sendRecord ..).touches (by decide), historyStays_sendRecord ..⟩
  unfold signalStep
  split
  · exact ⟨.refl _ s, ⟨fun _ => rfl⟩⟩
  · split
    · exact hnotice ..
    · split
      · exact hnotice ..
      · split
        · exact hnotice ..
        · split
          · exact hnotice ..
          · next m a _ _ _ =>
            have hwr := (memOnly_wrN s m a 8 (signalDown (s.rdN m a 8) 1 failed)).touches (ps := memoryParts ++ [.funcs]) (by decide)
            have hfuncs := fun t (h : Touches memoryParts s t) => historyStays_of_funcs (h.keeps .funcs (by decide))
            have hmem := (memOnly_wrN s m a 8 (signalDown (s.rdN m a 8) 1 failed)).touches (ps := memoryParts) (by decide)
            simp only
            split
            · exact ⟨.last ((touches_setHeld ..).mono (by decide)) hwr, hfuncs _ (.last ((touches_setHeld ..).mono (by decide)) hmem)⟩
            · exact ⟨hwr, hfuncs _ hmem⟩

/-- The decrement at a place the tables give, seen from the state before the unit went. -/
theorem signalStep_rd {c d : Ctx} {m a va ctx : Nat} {know : Know} (ht : SameTables s x) (hx : x.ctx? ctx = some d) (hc : CtxLike c d) (hva : va ≠ 0)
    (hl : sysLand s c va 8 true = .ok (m, a)) (hm : m < 4) (hsp : s.spoilt m a 8 = false) (hhost : m = 2 → Config.hostAtomics = true) :
    (signalStep x fn ctx va lid failed know).rdN m a 8 = signalDown (s.rdN m a 8) 1 failed % 2 ^ 64
      ∧ ∀ sp < 4, ∀ i, sp ≠ m ∨ i < a ∨ a + 8 ≤ i → (signalStep x fn ctx va lid failed know).rd sp i = s.rd sp i := by
  have hold : x.rdN m a 8 = s.rdN m a 8 := State.rdN_congr fun i _ => ht.rd ..
  have hallowed : (decide (m = 2) && !Config.hostAtomics && !deviceOnly x d va) = false := by
    by_cases h2 : m = 2
    · rw [hhost h2]
      simp
    · simp [h2]
  have hstep : ∀ sp i, (signalStep x fn ctx va lid failed know).rd sp i = (x.wrN m a 8 (signalDown (s.rdN m a 8) 1 failed)).rd sp i := by
    intro sp i
    unfold signalStep
    simp only [if_neg hva, hx, ht.sysLand hc, hl, ht.spoilt, hsp, Bool.false_eq_true, if_false, hallowed, hold]
    split <;> rfl
  refine ⟨?_, fun sp hsp' i hi => ?_⟩
  · rw [State.rdN_congr fun i _ => hstep m _]
    exact rdN_wrN_same x { sp := m, a := a, pte := none, va := 0 } _
  · rw [hstep, rd_wrN_misses (n := 8) (q := { sp := m, a := a, pte := none, va := 0 }) hm hsp' hi]
    exact ht.rd ..

theorem State.level?_modLevel (h : s.level? fn kind id = some p) {q : Level} (hq : q.fn = p.fn ∧ q.kind = p.kind ∧ q.id = p.id) :
    (s.modLevel fn kind id fun _ => q).level? fn kind id = some q := by
  have hp : (p.fn = fn ∧ p.kind = kind) ∧ p.id = id := by simpa using List.find?_some h
  exact (find?_map_self (fun l : Level => l.fn == fn && l.kind == kind && l.id == id) (fun _ => q) (fun _ _ => by simp [hq, hp]) s.levels).trans
    (congrArg (Option.map fun _ => q) h)

theorem level?_none_iff : s.level? fn kind id = none ↔ ∀ l ∈ s.levels, ¬ (l.fn = fn ∧ l.kind = kind ∧ l.id = id) := by
  simp [State.level?, List.find?_eq_none, and_assoc]

/-- A level after a member of it has completed. -/
def Level.down (p : Level) (failed : Bool) : Level := { p with failed := p.failed || failed, counter := p.counter - 1 }

/-- The levels without those of one name. -/
def State.dropLevel (s : State) (fn kind id : Nat) : State :=
  { s with levels := s.levels.filter fun l => !(l.fn == fn && l.kind == kind && l.id == id) }

theorem levelDown_succ (h : s.level? fn kind id = some p) (n : Nat) : levelDown s fn failed (n + 1) kind id =
    if p.counter - 1 ≠ 0 then s.modLevel fn kind id fun _ => p.down failed
    else levelDown ((signalStep s p.fn p.ctx p.signal id (p.failed || failed) []).dropLevel fn kind id) fn (p.failed || failed) n (kind + 1) p.parent := by
  rw [levelDown]
  simp only [h]
  by_cases hc : p.counter - 1 = 0
  · simp [hc, State.dropLevel]
  · simp [hc, Level.down]

theorem levelDown_none (h : s.level? fn kind id = none) (n : Nat) : levelDown s fn failed n kind id = s := by
  cases n with
  | zero => rfl
  | succ n =>
    rw [levelDown]
    simp only [h]

theorem levelDown_many (h : s.level? fn kind id = some p) (hc : 2 ≤ p.counter) (n : Nat) :
    levelDown s fn failed (n + 1) kind id = s.modLevel fn kind id fun _ => p.down failed := by
  rw [levelDown_succ h, if_pos (by omega)]

/-- What the levels leave alike, and a level that is gone stays gone. -/
theorem levelDown_stays (s : State) (fn : Nat) (failed : Bool) (n kind id : Nat) :
    Touches signalParts s (levelDown s fn failed n kind id) ∧ HistoryStays s (levelDown s fn failed n kind id)
      ∧ ∀ fn' kind' id', s.level? fn' kind' id' = none → (levelDown s fn failed n kind id).level? fn' kind' id' = none := by
  induction n generalizing s failed kind id with
  | zero => exact ⟨.refl _ s, ⟨fun _ => rfl⟩, fun _ _ _ h => h⟩
  | succ n ih =>
    cases h : s.level? fn kind id with
    | none =>
      rw [levelDown_none h]
      exact ⟨.refl _ s, ⟨fun _ => rfl⟩, fun _ _ _ h => h⟩
    | some p =>
      have hp : (p.fn = fn ∧ p.kind = kind) ∧ p.id = id := by simpa using List.find?_some h
      rw [levelDown_succ h]
      split
      · refine ⟨.levels (by decide) s _, ⟨fun _ => rfl⟩, fun fn' kind' id' hnone => level?_none_iff.2 fun l hl => ?_⟩
        obtain ⟨y, hy, rfl⟩ := List.mem_map.1 hl
        have hnot := level?_none_iff.1 hnone
        split
        · exact hnot p (List.mem_of_find?_eq_some h)
        · exact hnot y hy
      · obtain ⟨hsig, hhist⟩ := signalStep_stays s p.fn p.ctx p.signal id (p.failed || failed) []
        obtain ⟨hrest, hhist', hgone⟩ := ih ((signalStep s p.fn p.ctx p.signal id (p.failed || failed) []).dropLevel fn kind id)
          (p.failed || failed) (kind + 1) p.parent
        refine ⟨.last hrest (.last (.levels (by decide) ..) (hsig.mono (by decide))), hhist.trans (.last hhist' ⟨fun _ => rfl⟩),
          fun fn' kind' id' hnone => hgone _ _ _ (level?_none_iff.2 fun l hl => ?_)⟩
        have hl := (List.mem_filter.1 hl).1
        have hlevels : (signalStep s p.fn p.ctx p.signal id (p.failed || failed) []).levels = s.levels := hsig.keeps .levels (by decide)
        exact level?_none_iff.1 hnone l (hlevels ▸ hl)

theorem levelDown_last (h : s.level? fn kind id = some p) (hc : p.counter = 1) (n : Nat) :
    (levelDown s fn failed (n + 1) kind id).level? fn kind id = none := by
  rw [levelDown_succ h, if_neg (by omega)]
  refine (levelDown_stays ..).2.2 _ _ _ (level?_none_iff.2 fun l hl hsame => ?_)
  have hnot := (List.mem_filter.1 hl).2
  simp [hsame] at hnot

/-! ## History entries (R243) -/

theorem memOnly_mirrorHist (s : State) (ctx slot inc : Nat) : MemOnly s (mirrorHist s ctx slot inc) := by
  unfold mirrorHist
  split
  · exact memOnly_sysWrite ..
  · exact .refl s

theorem retireHistory_touches (s : State) (ctx : Nat) : Touches (.ctxs :: memoryParts) s (retireHistory s ctx) := by
  unfold retireHistory
  split
  · exact .refl _ s
  · split
    · exact .refl _ s
    · exact .last (.foldl (fun s (e : Nat × QWord) => (memOnly_mirrorHist s ctx _ _).touches (by decide)) _ _) (.ctxs (by decide) s _)

theorem retireHistory_rd {ctx : Nat} (h : ∀ y, s.ctx? ctx = some y → ∀ e ∈ y.hist, e.2.getLsbD 127 = false) (sp a : Nat) :
    (retireHistory s ctx).rd sp a = s.rd sp a := by
  unfold retireHistory
  split
  · rfl
  · next y hy =>
    split
    · rfl
    · have hnil : (y.hist.filter fun e => e.2.getLsbD 127) = [] := List.filter_eq_nil_iff.2 fun e he => ne_true_of_eq_false (h y hy e he)
      simp only [hnil]
      rfl

/-! ## A launch completes (R337) -/

theorem forgetLaunch_eq (hm : x.launch? fn lid = some m) (hlive : m.live = false) (hnone : unitsOf x m = []) :
    forgetLaunch x fn lid =
      let t := { x with launches := x.launches.filter fun y => !(y.fn == fn && y.lid == lid) }
      if m.owes then levelDown (signalStep t fn m.ctx m.signal lid m.failed m.know) fn m.failed 3 m.lowest.1 m.lowest.2 else t := by
  unfold forgetLaunch
  simp only [hm, hlive, hnone]
  cases m.owes <;> rfl

theorem unitsOf_congr (h : t.units = s.units) (l : Launch) : unitsOf t l = unitsOf s l := by rw [unitsOf, h, unitsOf]

theorem launch?_filtered (x : State) (fn lid : Nat) :
    ({ x with launches := x.launches.filter fun y => !(y.fn == fn && y.lid == lid) } : State).launch? fn lid = none :=
  List.find?_eq_none.2 fun y hy => by
    have hnot := (List.mem_filter.1 hy).2
    simpa [imp_iff_not_or] using hnot

theorem forgetLaunch_launch (hm : x.launch? fn lid = some m) (hlive : m.live = false) (hnone : unitsOf x m = []) :
    (forgetLaunch x fn lid).launch? fn lid = none := by
  rw [forgetLaunch_eq hm hlive hnone]
  simp only
  split
  · refine (State.launch?_congr ?_ ..).trans (launch?_filtered x fn lid)
    exact ((levelDown_stays ..).1.keeps .launches (by decide)).trans ((signalStep_stays ..).1.keeps .launches (by decide))
  · exact launch?_filtered x fn lid

theorem forgetLaunch_history (x : State) (fn lid : Nat) : HistoryStays x (forgetLaunch x fn lid) := by
  unfold forgetLaunch
  split
  · exact ⟨fun _ => rfl⟩
  · split
    · exact ⟨fun _ => rfl⟩
    · simp only
      split
      · exact ⟨fun _ => rfl⟩
      · exact .last (levelDown_stays ..).2.1 <| .last (signalStep_stays ..).2 ⟨fun _ => rfl⟩

/-- A launch of which the step still owes its signal, as the state that ends its last unit leaves it. -/
theorem completed_forget (he : Ends s x) (hm : x.launch? l.fn l.lid = some m) (hlive : m.live = false) (hnone : unitsOf x m = [])
    (howes : m.owes = true) (hctx : m.ctx = l.ctx) (hsignal : m.signal = l.signal) (hlow : m.lowest = l.lowest) (hfailed : m.failed = failed) :
    Completed s (retireHistory (forgetLaunch x l.fn l.lid) u.ctx) u l failed := by
  obtain ⟨ht, hctxs, hlevels⟩ := he
  have hretire := retireHistory_touches (forgetLaunch x l.fn l.lid) u.ctx
  have hforget := forgetLaunch_eq hm hlive hnone
  rw [if_pos howes, hctx, hsignal, hlow, hfailed] at hforget
  have hsame : Ends x { x with launches := x.launches.filter fun y => !(y.fn == l.fn && y.lid == l.lid) } :=
    (Touches.launches (ps := benchParts) (by decide) x _).ends (by decide)
  obtain ⟨ht', hctxs', -⟩ := Ends.trans ⟨ht, hctxs, hlevels⟩ hsame
  obtain ⟨hstays, -⟩ := signalStep_stays { x with launches := x.launches.filter fun y => !(y.fn == l.fn && y.lid == l.lid) } l.fn l.ctx l.signal l.lid
    failed m.know
  have hup : ∀ fn kind id, (signalStep { x with launches := x.launches.filter fun y => !(y.fn == l.fn && y.lid == l.lid) } l.fn l.ctx l.signal l.lid
      failed m.know).level? fn kind id = s.level? fn kind id :=
    State.level?_congr ((hstays.keeps .levels (by decide)).trans hlevels)
  refine ⟨?_, fun p hp hc => ?_, fun p hp hc => ?_, fun hmany hhist => ?_⟩
  · rw [State.launch?_congr (hretire.keeps .launches (by decide))]
    exact forgetLaunch_launch hm hlive hnone
  · rw [State.level?_congr (hretire.keeps .levels (by decide)), hforget, levelDown_many ((hup ..).trans hp) hc]
    exact State.level?_modLevel ((hup ..).trans hp) ⟨rfl, rfl, rfl⟩
  · rw [State.level?_congr (hretire.keeps .levels (by decide)), hforget]
    exact levelDown_last ((hup ..).trans hp) hc _
  · have hrd : ∀ sp a, (retireHistory (forgetLaunch x l.fn l.lid) u.ctx).rd sp a =
        (signalStep { x with launches := x.launches.filter fun y => !(y.fn == l.fn && y.lid == l.lid) } l.fn l.ctx l.signal l.lid failed m.know).rd sp a := by
      have hkeeps : Touches (memoryParts ++ [.funcs, .levels, .launches]) x (forgetLaunch x l.fn l.lid) := by
        rw [hforget]
        exact .last ((levelDown_stays ..).1.mono (by decide)) (.last (hstays.mono (by decide)) (.launches (by decide) x _))
      intro sp a
      rw [retireHistory_rd fun y hy e he => ?_, hforget]
      · cases hp : s.level? l.fn l.lowest.1 l.lowest.2 with
        | none => rw [levelDown_none ((hup ..).trans hp)]
        | some p =>
          rw [levelDown_many ((hup ..).trans hp) (hmany p hp)]
          rfl
      · rw [State.ctx?_congr (hkeeps.keeps .ctxs (by decide))] at hy
        have hlike := hctxs u.ctx
        rw [hy] at hlike
        cases hs : s.ctx? u.ctx with
        | none => exact (hs ▸ hlike).elim
        | some z =>
          rw [hs] at hlike
          exact hhist z hs e (CtxLike.hist hlike ▸ he)
    refine ⟨fun hzero => sameMemory_of_rd fun sp a => ?_, fun c m' a hne hc hland hlt hspoilt hhost => ?_⟩
    · rw [hrd, hzero]
      exact ht'.rd sp a
    · have hlike := hctxs' l.ctx
      rw [hc] at hlike
      obtain ⟨d, hd, hcd⟩ := hlike.some
      obtain ⟨hat, hother⟩ := signalStep_rd (fn := l.fn) (lid := l.lid) (failed := failed) (know := m.know) ht' hd hcd hne hland hlt hspoilt hhost
      refine ⟨?_, fun sp hsp i hi => (hrd sp i).trans (hother sp hsp i hi)⟩
      rw [State.rdN_congr fun i _ => hrd m' _, hat, signalDown_eq (s.rdN_lt ..)]
      refine (Nat.mod_eq_of_lt (signal_lt ..)).trans (congrArg _ (if_congr ?_ rfl rfl))
      rw [Nat.lt_one_iff]

/-! ## A unit ends (R337) -/

theorem retireHistory_unit (s : State) (ctx : Nat) (k : UKey) : (retireHistory s ctx).unit? k = s.unit? k :=
  State.unit?_congr ((retireHistory_touches s ctx).keeps .units (by decide)) k

theorem forgetLaunch_units (x : State) (fn lid : Nat) : (forgetLaunch x fn lid).units = x.units := by
  unfold forgetLaunch
  split
  · rfl
  · split
    · rfl
    · simp only
      split
      · rfl
      · exact ((levelDown_stays ..).1.keeps .units (by decide)).trans ((signalStep_stays ..).1.keeps .units (by decide))

/-- A launch of which one unit more has ended. -/
def Launch.oneLess (l : Launch) (k : UKey) (failed : Bool) : Launch :=
  { l with counter := l.counter - 1, failed := l.failed || failed, ended := l.ended ++ [k.idx] }

theorem countEnd_active (hl : x.launch? k.fn k.lid = some l) (hact : l.state = .active) : countEnd x k failed =
    if l.counter - 1 = 0 then
      finishLaunch (x.modLaunch k.fn k.lid fun _ => l.oneLess k failed) (l.oneLess k failed) .completed (l.failed || failed)
    else x.modLaunch k.fn k.lid fun _ => l.oneLess k failed := by
  unfold countEnd
  simp only [hl]
  rw [if_neg (by simp [hact])]
  rfl

theorem countEnd_inactive (hl : x.launch? k.fn k.lid = some l) (hact : l.state ≠ .active) : countEnd x k failed = forgetLaunch x k.fn k.lid := by
  unfold countEnd
  simp only [hl]
  rw [if_pos (bne_iff_ne.2 hact)]

/-- A launch that has completed and still owes its signal. -/
def Launch.closed (l : Launch) (failed : Bool) (know : Know) : Launch :=
  { l with state := .completed, failed := failed, bound := false, ranges := [], resume := [], wake := [], early := [], taken := [], owes := true,
           know := know }

/-- The state in which a completed launch has its place in the history and is forgotten next. -/
def closedState (x : State) (l : Launch) (failed : Bool) (know : Know) : State :=
  let x := x.modLaunch l.fn l.lid fun m => m.closed failed know
  let x := { x with front := x.front.filter fun y => !(y.1 == l.fn && y.2.1 == l.lid) }
  x.modFunc l.fn fun f => { f with history := ((l.lid, failed) :: f.history).take 4096 }

theorem finishLaunch_completed (x : State) (l : Launch) (failed : Bool) :
    ∃ know, finishLaunch x l .completed failed = forgetLaunch (closedState x l failed know) l.fn l.lid := ⟨_, rfl⟩

theorem closedState_touches (x : State) (l : Launch) (failed : Bool) (know : Know) : Touches [.launches, .front, .funcs] x (closedState x l failed know) :=
  .last (.funcs (by decide) ..) <| .last (.front (by decide) ..) (.launches (by decide) ..)

theorem closedState_launch {know : Know} (hl : x.launch? l.fn l.lid = some m) :
    (closedState x l failed know).launch? l.fn l.lid = some (m.closed failed know) := by
  refine (State.launch?_modLaunch x l.fn l.lid (fun m => m.closed failed know) fun _ => ⟨rfl, rfl⟩).trans ?_
  rw [hl]
  rfl

theorem closedState_history (x : State) (l : Launch) (failed : Bool) (know : Know) :
    (l.lid, failed) ∈ ((closedState x l failed know).func l.fn).history := by
  have hfunc : ((closedState x l failed know).func l.fn).history = ((l.lid, failed) :: (x.func l.fn).history).take 4096 :=
    congrArg Func.history Sparse.get_set_same
  rw [hfunc, List.take_cons (by decide)]
  exact List.mem_cons_self ..

/-- The state in which a launch has lost its last unit. -/
def lastState (x : State) (l : Launch) (k : UKey) (failed : Bool) (know : Know) : State :=
  closedState (x.modLaunch k.fn k.lid fun _ => l.oneLess k failed) (l.oneLess k failed) (l.failed || failed) know

theorem lastState_touches (x : State) (l : Launch) (k : UKey) (failed : Bool) (know : Know) :
    Touches [.launches, .front, .funcs] x (lastState x l k failed know) :=
  .last (closedState_touches ..) (.launches (by decide) ..)

theorem lastState_launch {know : Know} (hl : x.launch? k.fn k.lid = some l) :
    (lastState x l k failed know).launch? k.fn k.lid = some ((l.oneLess k failed).closed (l.failed || failed) know) := by
  obtain ⟨hfn, hlid⟩ := State.launch?_spec hl
  have hset := State.launch?_setLaunch (m := l.oneLess k failed) hl ⟨hfn, hlid⟩
  have hmod := closedState_launch (x := x.modLaunch k.fn k.lid fun _ => l.oneLess k failed) (m := l.oneLess k failed) (l := l.oneLess k failed)
    (failed := l.failed || failed) (know := know)
  rw [show (l.oneLess k failed).fn = k.fn from hfn, show (l.oneLess k failed).lid = k.lid from hlid] at hmod
  exact hmod hset

theorem countEnd_last (hl : x.launch? k.fn k.lid = some l) (hact : l.state = .active) (hc : l.counter = 1) :
    ∃ know, countEnd x k failed = forgetLaunch (lastState x l k failed know) l.fn l.lid := by
  rw [countEnd_active hl hact, if_pos (by omega)]
  exact finishLaunch_completed ..

theorem execUnitEnd_next (hu : s.unit? k = some u) (hsuper : isSuper k = false) (hvac : u.vacating = false)
    (hdone : unitDone u = true ∨ u.stopped = true) :
    exec (.unitEnd k) s = .next (retireHistory (countEnd (removeUnit s u) k u.failed) u.ctx) := by
  have hgo : (isSuper k || u.vacating || !(unitDone u || u.stopped)) = false := by
    rw [hsuper, hvac]
    obtain h | h := hdone <;> simp [h]
  show execUnitEnd k s = _
  unfold execUnitEnd
  simp only [hu, hgo]
  rfl

section
variable (hu : s.unit? k = some u) (hl : s.launch? k.fn k.lid = some l)
include hu hl

/-- The launch and the units as the removal leaves them. -/
theorem removeUnit_facts : ∃ know, (removeUnit s u).launch? k.fn k.lid = some (l.knowing know) ∧ (removeUnit s u).unit? k = none := by
  have hkey := State.unit?_key hu
  subst hkey
  obtain ⟨know, h⟩ := removeUnit_launch (u := u) hl
  exact ⟨know, h, removeUnit_unit s u⟩

theorem removeUnit_unitsOf (hlast : ∀ x ∈ unitsOf s l, x.key = k) (hm : m.fn = l.fn ∧ m.lid = l.lid) : unitsOf (removeUnit s u) m = [] := by
  have hkey := State.unit?_key hu
  subst hkey
  refine List.filter_eq_nil_iff.2 fun x hx hof => ?_
  obtain ⟨hne, y, hy, hyx⟩ := mem_removeUnit hx
  refine hne (hyx ▸ hlast y (List.mem_filter.2 ⟨hy, ?_⟩))
  rw [hyx, ← hm.1, ← hm.2]
  exact hof

theorem unitEnd_counts (hact : l.state = .active) (hc : 2 ≤ l.counter) :
    let t := retireHistory (countEnd (removeUnit s u) k u.failed) u.ctx
    t.unit? k = none ∧ ∃ l', t.launch? k.fn k.lid = some l' ∧ l'.counter = l.counter - 1 ∧ l'.state = .active ∧ l'.failed = (l.failed || u.failed) := by
  obtain ⟨know, hlaunch, hnone⟩ := removeUnit_facts hu hl
  have hstep := countEnd_active (failed := u.failed) hlaunch hact
  rw [if_neg (show (l.knowing know).counter - 1 ≠ 0 by simp only [Launch.knowing]; omega)] at hstep
  refine ⟨(retireHistory_unit ..).trans ?_, (l.knowing know).oneLess k u.failed, ?_, rfl, hact, rfl⟩
  · rw [hstep]
    exact hnone
  · rw [State.launch?_congr ((retireHistory_touches ..).keeps .launches (by decide)), hstep]
    obtain ⟨hfn, hlid⟩ := State.launch?_spec hl
    exact State.launch?_setLaunch hlaunch ⟨hfn, hlid⟩

theorem unitEnd_completes (hact : l.state = .active) (hc : l.counter = 1) (hlast : ∀ x ∈ unitsOf s l, x.key = k) :
    let t := retireHistory (countEnd (removeUnit s u) k u.failed) u.ctx
    t.unit? k = none ∧ (k.lid, l.failed || u.failed) ∈ (t.func k.fn).history ∧ Completed s t u l (l.failed || u.failed) := by
  obtain ⟨know, hlaunch, hnone⟩ := removeUnit_facts hu hl
  obtain ⟨hfn, hlid⟩ := State.launch?_spec hl
  obtain ⟨know', hcount⟩ := countEnd_last (failed := u.failed) hlaunch hact hc
  have hclosed := lastState_launch (failed := u.failed) (know := know') hlaunch
  have hends : Ends s (lastState (removeUnit s u) (l.knowing know) k u.failed know') :=
    (ends_removeUnit s u).trans ((lastState_touches ..).ends (by decide))
  have hunits := removeUnit_unitsOf (m := ((l.knowing know).oneLess k u.failed).closed (l.failed || u.failed) know') hu hl hlast ⟨rfl, rfl⟩
  have hhist := closedState_history ((removeUnit s u).modLaunch k.fn k.lid fun _ => (l.knowing know).oneLess k u.failed)
    ((l.knowing know).oneLess k u.failed) (l.failed || u.failed) know'
  rw [hcount]
  refine ⟨(retireHistory_unit ..).trans ?_, ?_, ?_⟩
  · exact (State.unit?_congr ((forgetLaunch_units ..).trans ((lastState_touches ..).keeps .units (by decide))) k).trans hnone
  · rw [State.func_congr ((retireHistory_touches ..).keeps .funcs (by decide)), (forgetLaunch_history ..).same, ← hfn, ← hlid]
    exact hhist
  · rw [← hfn, ← hlid] at hclosed
    exact completed_forget hends hclosed rfl ((unitsOf_congr ((lastState_touches ..).keeps .units (by decide)) _).trans hunits) rfl rfl rfl rfl rfl

theorem unitEnd_forgets (hlive : l.live = false) (hlast : ∀ x ∈ unitsOf s l, x.key = k) :
    let t := retireHistory (countEnd (removeUnit s u) k u.failed) u.ctx
    t.unit? k = none ∧ t.launch? k.fn k.lid = none ∧ (l.owes = true → Completed s t u l l.failed) := by
  obtain ⟨know, hlaunch, hnone⟩ := removeUnit_facts hu hl
  obtain ⟨hfn, hlid⟩ := State.launch?_spec hl
  have hact : (l.knowing know).state ≠ .active := fun h => by
    have h : l.state = .active := h
    simp [Launch.live, h] at hlive
  have hunits := removeUnit_unitsOf (m := l.knowing know) hu hl hlast ⟨rfl, rfl⟩
  rw [countEnd_inactive hlaunch hact]
  refine ⟨(retireHistory_unit ..).trans ((State.unit?_congr (forgetLaunch_units ..) k).trans hnone), ?_, fun howes => ?_⟩
  · rw [State.launch?_congr ((retireHistory_touches ..).keeps .launches (by decide))]
    exact forgetLaunch_launch hlaunch hlive hunits
  · rw [← hfn, ← hlid] at hlaunch ⊢
    exact completed_forget (ends_removeUnit s u) hlaunch hlive hunits howes rfl rfl rfl rfl

end

end Sys2Proof.Machine

section
open Sys2Proof Sys2Proof.Machine Sys2Proof.Claims

/-- Settles O43: the joiner's group, the bars a group leaves, and the launch whose last unit goes. -/
theorem unitSteps : Obligations.UnitSteps := by
  unfold Obligations.UnitSteps
  intro s k u hu
  refine ⟨fun key gid slot l hb hl => execJoinerBuild_next hu hb hl, fun g hg hents hcmds => execGroupEnd_next hu hg hents hcmds,
    fun l hsuper hvac hdone hl hact hc => ?_, fun l hsuper hvac hdone hl hact hc hlast => ?_, fun l hsuper hvac hdone hl hlive hlast => ?_⟩
  · obtain ⟨hnone, l', hl'⟩ := unitEnd_counts hu hl hact hc
    exact ⟨_, l', execUnitEnd_next hu hsuper hvac (.inl hdone), hnone, hl'⟩
  · exact ⟨_, execUnitEnd_next hu hsuper hvac (.inl hdone), unitEnd_completes hu hl hact hc hlast⟩
  · exact ⟨_, execUnitEnd_next hu hsuper hvac hdone, unitEnd_forgets hu hl hlive hlast⟩

end
end

section
/-! PROOFS. Walks, admissions, ownership and departures (R242 to R252, R374). -/

namespace Sys2Proof.Machine
open Sys2Proof.Claims

variable {s t : State} {c d : Ctx} {a : Adm} {r : Res} {e : DirEnt} {w : AdmWait} {id key slot : Nat} {forced : Bool}

/-! ## Steps that are due -/

theorem State.mem_due_self (s : State) (i : Instr) : i ∈ (s.due i).agenda := by
  unfold State.due
  split
  · next h => exact List.contains_iff_mem.1 h
  · exact List.mem_append_right _ (List.mem_singleton_self i)

theorem State.mem_due {i : Instr} (j : Instr) (h : i ∈ s.agenda) : i ∈ (s.due j).agenda := by
  unfold State.due
  split
  · exact h
  · exact List.mem_append_left _ h

/-! ## What the helpers of an admission touch -/

theorem touches_wakeCtx (s : State) (id : Nat) (q : Wait → Bool) : Touches [.units] s (wakeCtx s id q) := .units (by decide) s _

theorem touches_portResult (s : State) (core res code estat detail : Nat) : Touches [.cores] s (portResult s core res code estat detail) :=
  .cores (by decide) s _

theorem touches_portAnswer (s : State) (core : Nat) (w : AdmWait) : Touches [.cores] s (portAnswer s core w) := by
  unfold portAnswer
  split
  · split
    · exact touches_portResult ..
    · exact touches_portResult ..
  · exact touches_portResult ..

theorem touches_cacheAdd (s : State) (core ctx key slot : Nat) (r : Res) : Touches [.dies] s (cacheAdd s core ctx key slot r) := .dies (by decide) s _

theorem touches_cacheDrop (s : State) (ctx slot : Nat) : Touches [.dies] s (cacheDrop s ctx slot) := .dies (by decide) s _

theorem touches_cmdEnd (s : State) (k : UKey) (n : Nat) (st : DWord) : Touches [.units] s (cmdEnd s k n st) := .units (by decide) s _

theorem touches_dropFetch (s : State) (ctx slot : Nat) : Touches [.outReqs, .agenda] s (dropFetch s ctx slot) := by
  refine ⟨fun p hp => ?_⟩
  cases p
  case outReqs | agenda => exact absurd (by decide) hp
  all_goals rfl

theorem touches_readmit (s : State) (id : Nat) : Touches [.agenda] s (readmit s id) := by
  unfold readmit
  split
  · exact .refl _ s
  · exact .foldl (fun s (a : Adm) => Touches.due (ps := [.agenda]) (by decide) s (.admission id a.key)) _ _

theorem memOnly_mirrorSlot (s : State) (id slot : Nat) : MemOnly s (mirrorSlot s id slot) := by
  unfold mirrorSlot
  split
  · exact memOnly_sysWrite ..
  · exact .refl s

theorem memOnly_freeOwner (s : State) (c : Ctx) (r : Res) : MemOnly s (freeOwner s c r) := by
  unfold freeOwner
  split
  · split
    · exact memOnly_sysWrite ..
    · exact .refl s
  · exact .refl s

/-- The fields that a request of the fabric may change as it goes out. -/
def fabricParts : List Part := [.outReqs, .nextId, .ports, .agenda]

theorem touches_cross {p n : Nat} {rep : Bool} (h : cross s p rep n = some t) : Touches [.ports] s t := by
  unfold cross at h
  split at h
  · exact nomatch h
  · cases h
    exact .ports (by decide) s _

/-- The entry of a request, marked as sent or as waiting. -/
def markSent (r : OutReq) (b : Bool) (s : State) : State :=
  { s with outReqs := s.outReqs.map fun x => if x.fn == r.fn && x.dst == r.dst && x.req.id == r.req.id then { r with sent := b } else x }

theorem touches_markSent (s : State) (r : OutReq) (b : Bool) : Touches fabricParts s (markSent r b s) := .outReqs (by decide) s _

theorem touches_markSent_due (s : State) (r : OutReq) (b : Bool) (i : Instr) : Touches fabricParts s ((markSent r b s).due i) :=
  .last (.due (by decide) ..) (touches_markSent ..)

theorem touches_transmit (s : State) (r : OutReq) : Touches fabricParts s (transmit s r) := by
  -- the port and the crossing become variables, whose comparison does not unfold them
  obtain ⟨f, hf⟩ : ∃ f, cross s = f := ⟨_, rfl⟩
  obtain ⟨o, ho⟩ : ∃ o, s.routePort r.dst = o := ⟨_, rfl⟩
  have hcross : ∀ p b n t, f p b n = some t → Touches [.ports] s t := fun _ _ _ _ h => touches_cross (hf ▸ h)
  unfold transmit
  rw [hf, ho]
  split
  · exact touches_markSent_due ..
  · split
    · exact touches_markSent_due ..
    · split
      · exact touches_markSent_due ..
      · split
        · exact touches_markSent s r false
        · next h => exact .last (touches_markSent_due ..) ((hcross _ _ _ _ h).mono (by decide))

theorem touches_queued (s : State) (rs : List OutReq) (n : Sparse Nat) : Touches fabricParts s { s with outReqs := rs, nextId := n } := by
  refine ⟨fun p hp => ?_⟩
  cases p
  case outReqs | nextId => exact absurd (by decide) hp
  all_goals rfl

theorem touches_sendReq (s : State) (dst : Nat) (r : FabReq) (what : ReqFor) : Touches fabricParts s (sendReq s dst r what) := by
  unfold sendReq
  exact .last (touches_transmit ..) (touches_queued ..)

/-! ## The context of an admission -/

theorem ctx?_modCtx_of (h : s.ctx? id = some c) (f : Ctx → Ctx) (hf : ∀ y, (f y).id = y.id ∧ (f y).dead = y.dead) :
    (s.modCtx id f).ctx? id = some (f c) := by
  rw [State.ctx?_modCtx s id f hf, h, Option.map_some]

theorem Touches.ctx? {ps : List Part} (h : Touches ps s t) (hp : Part.ctxs ∉ ps) (hs : s.ctx? id = some c) : t.ctx? id = some c :=
  (State.ctx?_congr (h.keeps .ctxs hp) id).trans hs

/-- A context with another entry of its table. -/
def Ctx.setSlot (c : Ctx) (slot : Nat) (r : Res) : Ctx := { c with res := Sparse.set .start c.res slot r }

theorem Ctx.slotRes_setSlot (c : Ctx) (slot : Nat) (r : Res) : (c.setSlot slot r).slotRes slot = r := Sparse.get_set_same

theorem modRes_ctx (h : s.ctx? id = some c) (slot : Nat) (f : Res → Res) : (modRes s id slot f).ctx? id = some (c.setSlot slot (f (c.slotRes slot))) := by
  rw [modRes, State.ctx?_congr (mirrorSlot_keeps _ id slot).2]
  exact ctx?_modCtx_of h (fun c => { c with res := Sparse.set .start c.res slot (f (c.slotRes slot)) }) fun _ => ⟨rfl, rfl⟩

theorem modRes_touches (s : State) (id slot : Nat) (f : Res → Res) : Touches (.ctxs :: memoryParts) s (modRes s id slot f) :=
  .last ((memOnly_mirrorSlot ..).touches (by decide)) (.ctxs (by decide) s _)

/-- A context with other admissions. -/
def Ctx.withAdms (c : Ctx) (adms : List Adm) : Ctx := { c with adms := adms }

/-- The waits of one key without those that have been answered. -/
def Adm.answered (key : Nat) (ports : List AdmWait) (a : Adm) : Adm :=
  if a.key == key then { a with waits := a.waits.filter fun w => !ports.contains w } else a

/-- Undecided waits of the active admission of a key, decided. -/
def Adm.decided (key : Nat) (f : AdmWait → AdmWait) (a : Adm) : Adm :=
  if a.key == key && a.active then { a with waits := a.waits.map fun w => if w.res = 0 then f w else w } else a

/-- An admission that has ended. -/
def Adm.ended (key : Nat) (a : Adm) : Adm := if a.key == key then { a with active := false } else a

theorem Adm.answered_same (key : Nat) (ports : List AdmWait) (a : Adm) :
    (Adm.answered key ports a).key = a.key ∧ (Adm.answered key ports a).active = a.active ∧ (Adm.answered key ports a).owning = a.owning := by
  unfold Adm.answered
  split <;> exact ⟨rfl, rfl, rfl⟩

theorem Adm.decided_same (key : Nat) (f : AdmWait → AdmWait) (a : Adm) :
    (Adm.decided key f a).key = a.key ∧ (Adm.decided key f a).active = a.active ∧ (Adm.decided key f a).owning = a.owning := by
  unfold Adm.decided
  split <;> exact ⟨rfl, rfl, rfl⟩

theorem Adm.ended_same (key : Nat) (a : Adm) :
    (Adm.ended key a).key = a.key ∧ ((Adm.ended key a).active = true → a.active = true) ∧ (Adm.ended key a).owning = a.owning := by
  unfold Adm.ended
  split
  · exact ⟨rfl, fun h => Bool.noConfusion h, rfl⟩
  · exact ⟨rfl, fun h => h, rfl⟩

theorem decideWaits_ctx (h : s.ctx? id = some c) (key : Nat) (f : AdmWait → AdmWait) :
    (decideWaits s id key f).ctx? id = some (c.withAdms (c.adms.map (Adm.decided key f))) :=
  ctx?_modCtx_of h (fun c => c.withAdms (c.adms.map (Adm.decided key f))) fun _ => ⟨rfl, rfl⟩

theorem decideWaits_touches (s : State) (id key : Nat) (f : AdmWait → AdmWait) : Touches [.ctxs] s (decideWaits s id key f) := .ctxs (by decide) s _

/-- The supervisors' ports whose answers are taken away, and nothing else of the waits. -/
theorem wakeDecided_ctx (h : s.ctx? id = some c) (key : Nat) :
    ∃ ports, (∀ w ∈ ports, w.res ≠ 0 ∧ isSuper w.u = true)
      ∧ (wakeDecided s id key).ctx? id = some (c.withAdms (c.adms.map (Adm.answered key ports))) := by
  unfold wakeDecided
  split
  · refine ⟨[], by simp, ?_⟩
    have hid : c.adms.map (Adm.answered key []) = c.adms :=
      (List.map_congr_left fun a _ => by simp [Adm.answered]).trans (List.map_id _)
    rw [hid]
    exact (touches_wakeCtx ..).ctx? (by decide) h
  · next a _ =>
    refine ⟨a.waits.filter fun w => w.res != 0 && isSuper w.u, fun w hw => by simpa using (List.mem_filter.1 hw).2, ?_⟩
    have hports : Touches [.cores] s ((a.waits.filter fun w => w.res != 0 && isSuper w.u).foldl (fun s w => portAnswer s w.u.lid w) s) :=
      .foldl (fun s (w : AdmWait) => touches_portAnswer s w.u.lid w) _ _
    exact (touches_wakeCtx ..).ctx? (by decide) (ctx?_modCtx_of (hports.ctx? (by decide) h)
      (fun c => c.withAdms (c.adms.map (Adm.answered key (a.waits.filter fun w => w.res != 0 && isSuper w.u)))) fun _ => ⟨rfl, rfl⟩)

theorem wakeDecided_touches (s : State) (id key : Nat) : Touches [.units, .cores, .ctxs] s (wakeDecided s id key) := by
  unfold wakeDecided
  split
  · exact (touches_wakeCtx ..).mono (by decide)
  · exact .last ((touches_wakeCtx ..).mono (by decide)) <| .last (.ctxs (by decide) ..) <|
      .foldl (fun s (w : AdmWait) => (touches_portAnswer s w.u.lid w).mono (by decide)) _ _

/-- The admissions of a context after the one of a key has ended. -/
def endedAdms (key : Nat) (ports : List AdmWait) (as : List Adm) : List Adm :=
  ((as.map (Adm.ended key)).map (Adm.answered key ports)).filter fun a => a.active || !a.waits.isEmpty

theorem endAdmission_ctx (h : s.ctx? id = some c) (key : Nat) :
    ∃ ports, (∀ w ∈ ports, w.res ≠ 0 ∧ isSuper w.u = true)
      ∧ (endAdmission s id key).ctx? id = some (c.withAdms (endedAdms key ports c.adms)) := by
  have hend := ctx?_modCtx_of h (fun c => c.withAdms (c.adms.map (Adm.ended key))) fun _ => ⟨rfl, rfl⟩
  obtain ⟨ports, hports, hwake⟩ := wakeDecided_ctx hend key
  exact ⟨ports, hports, ctx?_modCtx_of hwake (fun c => c.withAdms (c.adms.filter fun a => a.active || !a.waits.isEmpty)) fun _ => ⟨rfl, rfl⟩⟩

theorem endAdmission_touches (s : State) (id key : Nat) : Touches [.units, .cores, .ctxs] s (endAdmission s id key) :=
  .last (.ctxs (by decide) ..) <| .last (wakeDecided_touches ..) (.ctxs (by decide) s _)

theorem Ctx.withAdms_withAdms (c : Ctx) (as bs : List Adm) : (c.withAdms as).withAdms bs = c.withAdms bs := rfl

/-! ## A page walk (R374) -/

/-- The entry a walk leaves in the TLB. -/
def walkEntry (id : Nat) (va : DWord) (p : Pte) (n lv : Nat) : TlbEnt :=
  { ctx := id, va := va.toNat / 2 ^ n * 2 ^ n, size := 2 ^ n, pte := BitVec.ofNat 64 p.word,
    part := va.toNat / 2 ^ (3 + 9 * lv) * 2 ^ (3 + 9 * lv), span := 2 ^ (3 + 9 * lv) }

theorem execPageWalk_next {core n lv : Nat} {va : DWord} {p : Pte} (hc : s.ctx? c.id = some c) (hwalk : walk s c va.toNat = .ok p)
    (hsize : sizeInfo p.size = some (lv, n)) : ∃ t e, exec (.pageWalk core c.id va) s = .next t ∧ SameMemory s t
      ∧ (t.core core).tlb.head? = some e ∧ e.ctx = c.id ∧ e.va = va.toNat / 2 ^ n * 2 ^ n ∧ e.size = 2 ^ n := by
  have hexec : exec (.pageWalk core c.id va) s = .next (s.modCore core fun m =>
      { m with tlb := walkEntry c.id va p n lv :: m.tlb.filter fun x => !(x.ctx == c.id && x.part == (walkEntry c.id va p n lv).part) }) := by
    show execPageWalk core c.id va s = _
    unfold execPageWalk
    simp only [hc, hwalk, hsize]
    rfl
  refine ⟨_, walkEntry c.id va p n lv, hexec, fun _ _ _ => rfl, ?_, rfl, rfl, rfl⟩
  rw [State.core_modCore]
  rfl

/-! ## An admission at the directory (R247) -/

section
variable {i : Instr} (hc : s.ctx? c.id = some c) (ha : (c.adms.find? fun a => a.key == key && a.active) = some a) (hslot : a.slot = none)
  (hnone : c.find key = none) (hi : i = .admission c.id key ∨ i = .directoryBusyReread c.id key)

include hi in
theorem exec_admitKey (s : State) : exec i s = .next (admitKey s c.id key) := by
  obtain rfl | rfl := hi <;> rfl

/-- The admission's next look at the directory. -/
def Adm.lookedAt (key j : Nat) (a : Adm) : Adm := if a.key == key && a.active then { a with probe := j } else a

include ha in
theorem adm_spec : a ∈ c.adms ∧ a.key = key ∧ a.active = true :=
  ⟨List.mem_of_find?_eq_some ha, by simpa using List.find?_some ha⟩

include hc ha hslot hnone in
theorem admitKey_busy {j : Nat} (hl : lookup s c key a.probe = .busy j) : admitKey s c.id key =
    (s.modCtx c.id fun c => c.withAdms (c.adms.map (Adm.lookedAt key j))).due (.directoryBusyReread c.id key) := by
  unfold admitKey
  simp only [hc, ha, hslot, hnone, hl]
  rfl

include hc ha hslot hnone in
theorem admitKey_absent (hl : lookup s c key a.probe = .absent) : admitKey s c.id key = failAdmission s c.id key C.STALENAME 0 fun _ => 0 := by
  unfold admitKey
  simp only [hc, ha, hslot, hnone, hl]
  rfl

/-- A lane that an admission without a slot has refused. -/
def AdmWait.refused (code estat detail : Nat) (w : AdmWait) : AdmWait := { w with res := code, estat := estat, detail := detail }

theorem failAdmission_eq (hc : s.ctx? id = some c) (ha : (c.adms.find? fun a => a.key == key && a.active) = some a) (hslot : a.slot = none)
    (code estat : Nat) (detail : AdmWait → Nat) : failAdmission s id key code estat detail =
      readmit (endAdmission (decideWaits s id key fun w => w.refused code estat (detail w)) id key) id := by
  unfold failAdmission
  simp only [hc, Option.bind_some, ha, hslot]
  rfl

include hc ha hslot in
/-- A lane that an admission refuses keeps its wait, with the cause, in an admission that has ended. -/
theorem failAdmission_refuses (code estat : Nat) (detail : AdmWait → Nat) : SameMemory s (failAdmission s c.id key code estat detail)
    ∧ ∃ c', (failAdmission s c.id key code estat detail).ctx? c.id = some c' ∧ ∀ w ∈ a.waits, w.res = 0 → isSuper w.u = false →
      ∃ b ∈ c'.adms, b.key = key ∧ b.active = false ∧ w.refused code estat (detail w) ∈ b.waits := by
  obtain ⟨hmem, hkey, hact⟩ := adm_spec ha
  rw [failAdmission_eq hc ha hslot]
  obtain ⟨ports, hports, hctx⟩ := endAdmission_ctx (decideWaits_ctx hc key fun w => w.refused code estat (detail w)) key
  refine ⟨?_, _, (touches_readmit ..).ctx? (by decide) hctx, fun w hw hres hsuper => ?_⟩
  · exact Touches.sameMemory (ps := [.units, .cores, .ctxs, .agenda]) (.last ((touches_readmit ..).mono (by decide)) <|
      .last ((endAdmission_touches ..).mono (by decide)) ((decideWaits_touches ..).mono (by decide))) (by decide) (by decide) (by decide) (by decide)
  · have hwait : w.refused code estat (detail w) ∈ (Adm.answered key ports (Adm.ended key (Adm.decided key (fun w => w.refused code estat (detail w)) a))).waits := by
      have hin : w.refused code estat (detail w) ∈ a.waits.map fun w => if w.res = 0 then w.refused code estat (detail w) else w :=
        List.mem_map.2 ⟨w, hw, if_pos hres⟩
      have hnot : ports.contains (w.refused code estat (detail w)) = false := by
        refine Bool.eq_false_iff.2 fun h => ?_
        have hsup : isSuper w.u = true := (hports _ (List.contains_iff_mem.1 h)).2
        rw [hsuper] at hsup
        exact nomatch hsup
      have hdec : Adm.decided key (fun w => w.refused code estat (detail w)) a =
          { a with waits := a.waits.map fun w => if w.res = 0 then w.refused code estat (detail w) else w } := if_pos (by simp [hkey, hact])
      rw [hdec, Adm.ended, if_pos (by simp [hkey]), Adm.answered, if_pos (by simp [hkey])]
      exact List.mem_filter.2 ⟨hin, by rw [hnot]; rfl⟩
    refine ⟨_, List.mem_filter.2 ⟨List.mem_map_of_mem (List.mem_map_of_mem (List.mem_map_of_mem hmem)), ?_⟩, ?_, ?_, hwait⟩
    · have hne : (Adm.answered key ports (Adm.ended key (Adm.decided key (fun w => w.refused code estat (detail w)) a))).waits.isEmpty = false :=
        Bool.eq_false_iff.2 fun h => by
          rw [List.isEmpty_iff.1 h] at hwait
          exact nomatch hwait
      rw [hne]
      simp
    · simp [Adm.answered, Adm.ended, Adm.decided, hkey, hact]
    · simp [Adm.answered, Adm.ended, Adm.decided, hkey, hact]

end

/-! ## An admission gets its slot (R247) -/

theorem modCtx_touches (s : State) (id : Nat) (f : Ctx → Ctx) : Touches [.ctxs] s (s.modCtx id f) := .ctxs (by decide) s _

/-- An object that finds room has its run, and its fetch is due. -/
theorem placeObject_fits {run : Nat} (hc : s.ctx? c.id = some c) (hrun : c.findRun (granules (c.slotRes slot).extent) = some run) (key : Nat) :
    .copyPiece (.fetch c.id slot) ∈ (placeObject s c key slot).agenda
      ∧ ∃ d, (placeObject s c key slot).ctx? c.id = some d ∧ d.slotRes slot = { c.slotRes slot with backva := c.admva + run * 65536 } := by
  have hruns := ctx?_modCtx_of hc (fun c => { c with runs := c.runs ++ [(slot, run, granules (Ctx.slotRes c slot).extent)] }) fun _ => ⟨rfl, rfl⟩
  have hctx : ((s.modCtx c.id fun d => { d with runs := d.runs ++ [(slot, run, granules (c.slotRes slot).extent)] })).ctx? c.id =
      some { c with runs := c.runs ++ [(slot, run, granules (c.slotRes slot).extent)] } :=
    ctx?_modCtx_of hc (fun d => { d with runs := d.runs ++ [(slot, run, granules (c.slotRes slot).extent)] }) fun _ => ⟨rfl, rfl⟩
  have hres := modRes_ctx hctx slot fun r => { r with backva := c.admva + run * 65536 }
  unfold placeObject
  simp only [hrun]
  exact ⟨State.mem_due_self .., _, (Touches.due (ps := [.agenda]) (by decide) ..).ctx? (by decide) hres, Ctx.slotRes_setSlot ..⟩

/-- The entry of a slot whose admission has begun. -/
def admittedRes (was : ResWas) (key : Nat) (e : DirEnt) (r : Res) : Res :=
  { Res.start with state := .admitting, inc := if r.state = .departed then (r.inc + 1) % 16 else 0, kind := e.kind,
                   w := e.w && e.kind != 0, cpin := r.cpin, gen := e.gen, domain := keyDomain key, serial := key % 2 ^ 45,
                   backva := if e.kind = 2 then e.home else 0, extent := e.size, was := some was, hsp := e.hsp,
                   homemod := e.homemod, home := e.home, dirva := e.va }

/-- A context with a key in its index, and its admission with a slot. -/
def Ctx.indexed (key slot : Nat) (owning : Bool) (c : Ctx) : Ctx :=
  { c with index := c.index ++ [(key, slot)],
           adms := c.adms.map fun a => if a.key == key && a.active then { a with slot := some slot, owning := owning } else a }

/-- The context of an admission that has its slot. -/
def Ctx.admitted (c : Ctx) (key slot : Nat) (e : DirEnt) : Ctx :=
  (c.setSlot slot (admittedRes (c.slotRes slot).kept key e (c.slotRes slot))).indexed key slot (e.kind == 1)

theorem Ctx.slotRes_admitted (c : Ctx) (key slot : Nat) (e : DirEnt) :
    (c.admitted key slot e).slotRes slot = admittedRes (c.slotRes slot).kept key e (c.slotRes slot) :=
  c.slotRes_setSlot slot (admittedRes (c.slotRes slot).kept key e (c.slotRes slot))

theorem admitSlot_plain (hc : s.ctx? c.id = some c) (hkind : e.kind = 0) (key slot : Nat) :
    ∃ t, t.ctx? c.id = some (c.admitted key slot e) ∧ admitSlot s c key slot e = placeObject t (c.admitted key slot e) key slot := by
  have hctx := ctx?_modCtx_of (modRes_ctx hc slot (admittedRes (c.slotRes slot).kept key e)) (Ctx.indexed key slot (e.kind == 1)) fun _ => ⟨rfl, rfl⟩
  refine ⟨_, hctx, ?_⟩
  unfold admitSlot
  simp only
  split
  · next hnone => exact absurd (hnone.symm.trans hctx) (by simp)
  · next d hd =>
    obtain rfl : d = c.admitted key slot e := Option.some.inj (hd.symm.trans hctx)
    rw [if_neg (by simp [hkind]), if_neg (by simp [hkind])]
    rfl

/-- What an admission leaves of a lane whose name the entry bears out. -/
theorem compareLanes_ctx (hc : s.ctx? c.id = some c) (key : Nat) (e : DirEnt) : ∃ as, (compareLanes s c.id key e).ctx? c.id = some (c.withAdms as)
    ∧ ∀ a w, (c.adms.find? fun a => a.key == key && a.active) = some a → w ∈ a.waits → w.res = 0 → w.kind = e.kind → w.gen = e.gen →
      (as.any fun a => a.key == key && a.active && a.waits.any fun w => w.res == 0) = true := by
  obtain ⟨ports, hports, hctx⟩ := wakeDecided_ctx (decideWaits_ctx hc key fun w =>
    if e.kind != w.kind then { w with res := C.STALENAME, detail := 2 + e.gen * 2 ^ 16 }
    else if e.gen != w.gen then { w with res := C.STALENAME, detail := 1 + e.gen * 2 ^ 16 } else w) key
  refine ⟨_, hctx, fun a w ha hw hres hkind hgen => ?_⟩
  obtain ⟨hmem, hkey, hact⟩ := adm_spec ha
  have hin := List.mem_map_of_mem (f := Adm.answered key ports) (List.mem_map_of_mem (f := Adm.decided key fun w =>
    if e.kind != w.kind then { w with res := C.STALENAME, detail := 2 + e.gen * 2 ^ 16 }
    else if e.gen != w.gen then { w with res := C.STALENAME, detail := 1 + e.gen * 2 ^ 16 } else w) hmem)
  refine List.any_eq_true.2 ⟨_, hin, ?_⟩
  have hnot : ports.contains w = false := Bool.eq_false_iff.2 fun h => (hports w (List.contains_iff_mem.1 h)).1 hres
  have hwait : w ∈ (Adm.answered key ports (Adm.decided key (fun w =>
      if e.kind != w.kind then { w with res := C.STALENAME, detail := 2 + e.gen * 2 ^ 16 }
      else if e.gen != w.gen then { w with res := C.STALENAME, detail := 1 + e.gen * 2 ^ 16 } else w) a)).waits := by
    rw [Adm.decided, if_pos (by simp [hkey, hact]), Adm.answered, if_pos (by simp [hkey])]
    refine List.mem_filter.2 ⟨List.mem_map.2 ⟨w, hw, ?_⟩, by rw [hnot]; rfl⟩
    simp [hres, hkind, hgen]
  rw [(Adm.answered_same ..).1, (Adm.answered_same ..).2.1, (Adm.decided_same ..).1, (Adm.decided_same ..).2.1, hkey, hact, beq_self_eq_true, Bool.true_and, Bool.true_and]
  exact List.any_eq_true.2 ⟨w, hwait, by simp [hres]⟩

theorem admitKey_entry {run : Nat} (hc : s.ctx? c.id = some c) (ha : (c.adms.find? fun a => a.key == key && a.active) = some a)
    (hslot : a.slot = none) (hnone : c.find key = none) (hl : lookup s c key a.probe = .entry e) (hvalid : e.invalid = false) (hkind : e.kind = 0)
    (hwait : ∃ w ∈ a.waits, w.res = 0 ∧ w.kind = e.kind ∧ w.gen = e.gen) (hfn : e.fnmask.testBit c.fn = true)
    (hpick : c.pickSlot key = some slot) (hrun : c.findRun (granules e.size) = some run) :
    .copyPiece (.fetch c.id slot) ∈ (admitKey s c.id key).agenda ∧ ∃ d, (admitKey s c.id key).ctx? c.id = some d
      ∧ d.slotRes slot = { admittedRes (c.slotRes slot).kept key e (c.slotRes slot) with backva := c.admva + run * 65536 } := by
  obtain ⟨as, hctx, hleft⟩ := compareLanes_ctx hc key e
  obtain ⟨w, hw, hres, hwkind, hwgen⟩ := hwait
  have hleft := hleft a w ha hw hres hwkind hwgen
  have hpick' : (c.withAdms as).pickSlot key = some slot := hpick
  have hfn' : e.fnmask.testBit (c.withAdms as).fn = true := hfn
  have hadmit : admitKey s c.id key = admitSlot (compareLanes s c.id key e) (c.withAdms as) key slot e := by
    unfold admitKey
    simp only [hc, ha, hslot, hnone, hl, hvalid, hctx, hfn', hpick']
    rw [show (c.withAdms as).adms = as from rfl, hleft]
    rfl
  obtain ⟨t, ht, hstep⟩ := admitSlot_plain (c := c.withAdms as) hctx hkind key slot
  have hrun' : ((c.withAdms as).admitted key slot e).findRun (granules (((c.withAdms as).admitted key slot e).slotRes slot).extent) = some run := by
    rw [Ctx.slotRes_admitted]
    exact hrun
  obtain ⟨hdue, d, hd, hres⟩ := placeObject_fits (c := (c.withAdms as).admitted key slot e) ht hrun' key
  rw [hadmit, hstep]
  exact ⟨hdue, d, hd, by rw [hres, Ctx.slotRes_admitted]; rfl⟩

/-! ## Ownership (R245, R250) -/

/-- No active admission of a key waits for its object's owner. -/
def Settled (key : Nat) (c : Ctx) : Prop := ∀ a ∈ c.adms, a.key = key → a.active = true → a.owning = false

/-- The context of a state is so. -/
def SettledIn (s : State) (id key : Nat) : Prop := ∃ d, s.ctx? id = some d ∧ Settled key d

theorem SettledIn.modCtx (h : SettledIn s id key) (f : Ctx → Ctx) (hf : ∀ y, (f y).id = y.id ∧ (f y).dead = y.dead)
    (hset : ∀ y, Settled key y → Settled key (f y)) : SettledIn (s.modCtx id f) id key := by
  obtain ⟨d, hd, hs⟩ := h
  exact ⟨f d, ctx?_modCtx_of hd f hf, hset d hs⟩

theorem SettledIn.of_touches {ps : List Part} (ht : Touches ps s t) (hp : Part.ctxs ∉ ps) (h : SettledIn s id key) : SettledIn t id key := by
  obtain ⟨d, hd, hs⟩ := h
  exact ⟨d, ht.ctx? hp hd, hs⟩

theorem SettledIn.modRes (h : SettledIn s id key) (slot : Nat) (f : Res → Res) : SettledIn (modRes s id slot f) id key := by
  obtain ⟨d, hd, hs⟩ := h
  exact ⟨_, modRes_ctx hd slot f, hs⟩

/-- A change of each admission that leaves its key and begins no wait for an owner. -/
theorem settled_map {f : Adm → Adm} (hf : ∀ a, (f a).key = a.key ∧ ((f a).active = true → a.active = true) ∧ (f a).owning = a.owning)
    (y : Ctx) (h : Settled key y) : Settled key (y.withAdms (y.adms.map f)) := by
  intro b hb hkey hact
  obtain ⟨a, ha, rfl⟩ := List.mem_map.1 hb
  obtain ⟨hk, hac, how⟩ := hf a
  exact how.trans (h a ha (hk.symm.trans hkey) (hac hact))

theorem SettledIn.decideWaits (h : SettledIn s id key) (k : Nat) (f : AdmWait → AdmWait) : SettledIn (decideWaits s id k f) id key :=
  h.modCtx (fun c => c.withAdms (c.adms.map (Adm.decided k f))) (fun _ => ⟨rfl, rfl⟩) <| settled_map fun a => by
    obtain ⟨hkey, hact, how⟩ := a.decided_same k f
    exact ⟨hkey, fun h => hact ▸ h, how⟩

theorem SettledIn.endAdmission (h : SettledIn s id key) (k : Nat) : SettledIn (endAdmission s id k) id key := by
  obtain ⟨d, hd, hs⟩ := h
  obtain ⟨ports, -, hctx⟩ := endAdmission_ctx hd k
  refine ⟨_, hctx, fun b hb => ?_⟩
  refine settled_map (f := fun a => Adm.answered k ports (Adm.ended k a)) (fun a => ?_) d hs b ?_
  · obtain ⟨hkey, hact, how⟩ := (Adm.ended k a).answered_same k ports
    obtain ⟨hkey', hact', how'⟩ := a.ended_same k
    exact ⟨hkey.trans hkey', fun h => hact' (hact ▸ h), how.trans how'⟩
  · rw [Ctx.withAdms, ← Function.comp_def (Adm.answered k ports), ← List.map_map]
    exact (List.mem_filter.1 hb).1

theorem SettledIn.failAdmission (h : SettledIn s id key) (k code estat : Nat) (detail : AdmWait → Nat) :
    SettledIn (failAdmission s id k code estat detail) id key := by
  unfold Machine.failAdmission
  split
  · exact h
  · refine SettledIn.of_touches (touches_readmit ..) (by decide) (SettledIn.endAdmission (SettledIn.decideWaits ?_ ..) _)
    split
    · exact h
    · next i _ =>
      exact SettledIn.modCtx (.modRes (.of_touches (touches_dropFetch ..) (by decide) h) ..)
        (fun c => { c with index := c.index.filter (·.1 != k), runs := c.runs.filter (·.1 != i) }) (fun _ => ⟨rfl, rfl⟩) fun _ hs => hs

theorem SettledIn.placeObject (h : SettledIn s c.id key) (k slot : Nat) : SettledIn (placeObject s c k slot) c.id key := by
  have hdue : ∀ s i, Touches [.agenda] s (s.due i) := fun s i => .due (by decide) s i
  unfold Machine.placeObject
  simp only
  split
  · next run _ =>
    exact .of_touches (hdue ..) (by decide) (.modRes (.modCtx h
      (fun d => { d with runs := d.runs ++ [(slot, run, granules (c.slotRes slot).extent)] }) (fun _ => ⟨rfl, rfl⟩) fun _ hs => hs) ..)
  · split
    · exact h
    · split
      · exact .of_touches (hdue ..) (by decide) h
      · exact h.failAdmission ..

/-- An admission that has its owner. -/
def Adm.ownedNow (key : Nat) (a : Adm) : Adm := if a.key == key && a.active then { a with owning := false } else a

theorem settledIn_owned (hc : s.ctx? id = some c) (key slot : Nat) : SettledIn (owned s id key slot) id key := by
  have hid : c.id = id := by
    have h := List.find?_some hc
    simp only [Bool.and_eq_true, beq_iff_eq] at h
    exact h.1
  have hctx := ctx?_modCtx_of hc (fun c => c.withAdms (c.adms.map (Adm.ownedNow key))) fun _ => ⟨rfl, rfl⟩
  have hset : Settled key (c.withAdms (c.adms.map (Adm.ownedNow key))) := by
    intro b hb hkey hact
    obtain ⟨a, -, rfl⟩ := List.mem_map.1 hb
    unfold Adm.ownedNow at hkey hact ⊢
    split
    · rfl
    · next hnot =>
      rw [if_neg hnot] at hkey hact
      exact absurd (by simp [hkey, hact]) hnot
  have howned : owned s id key slot =
      placeObject (s.modCtx id fun c => c.withAdms (c.adms.map (Adm.ownedNow key))) (c.withAdms (c.adms.map (Adm.ownedNow key))) key slot := by
    have hstep : owned s id key slot = match (s.modCtx id fun c => c.withAdms (c.adms.map (Adm.ownedNow key))).ctx? id with
      | some d => placeObject (s.modCtx id fun c => c.withAdms (c.adms.map (Adm.ownedNow key))) d key slot
      | none => s.modCtx id fun c => c.withAdms (c.adms.map (Adm.ownedNow key)) := rfl
    rw [hstep, hctx]
  rw [howned]
  subst hid
  exact SettledIn.placeObject ⟨_, hctx, hset⟩ key slot

theorem memOnly_takeOwner (h : takeOwner s c r = .ok t) : MemOnly s t := by
  unfold takeOwner at h
  split at h
  · cases h
    exact .refl s
  · simp only at h
    split at h
    · cases h
      exact .refl s
    · split at h
      · cases h
        exact memOnly_sysWrite ..
      · exact nomatch h

theorem askDepart_touches (s : State) (c : Ctx) (key owner : Nat) : Touches (.ctxs :: fabricParts) s (askDepart s c key owner) := by
  unfold askDepart
  simp only
  split
  · exact .refl _ s
  · split
    · exact .last (.due (by decide) ..) (.ctxs (by decide) s _)
    · split
      · exact .refl _ s
      · exact .last ((touches_sendReq ..).mono (by decide)) (.ctxs (by decide) s _)

theorem askDepart_here {owner : Nat} (hident : owner / 2 ^ 48 = s.ident) (hnew : ∀ a ∈ c.adms, a.asked ≠ some owner) (key : Nat) :
    .departRequest (owner % 2 ^ 32) key ∈ (askDepart s c key owner).agenda := by
  have hasked : (c.adms.any fun a => a.key == key && a.active && a.asked == some owner) = false :=
    List.any_eq_false.2 fun a ha => by simp [hnew a ha]
  unfold askDepart
  simp only [hasked, hident, if_true, Bool.false_eq_true, if_false]
  exact State.mem_due_self ..

theorem execOwnershipReread_eq (hc : s.ctx? c.id = some c) (hstate : (c.slotRes slot).state = .admitting)
    (howning : (c.adms.any fun a => a.slot == some slot && a.owning) = true) : exec (.ownershipReread c.id slot) s =
      match takeOwner s c (c.slotRes slot) with
      | .ok s => .next (owned s c.id (c.slotRes slot).key slot)
      | .error o => .next ((askDepart s c (c.slotRes slot).key o).due (.ownershipReread c.id slot)) := by
  show execOwnershipReread c.id slot s = _
  unfold execOwnershipReread
  simp only [hc, hstate, howning]
  rfl

/-! ## An object becomes resident (R247) -/

/-- The entry of an object that has become resident. -/
def Res.settled (time : Nat) (r : Res) : Res := { r with state := .resident, was := none, time := time }

/-- A context after an object of it has been used. -/
def Ctx.later (c : Ctx) : Ctx := { c with time := c.time + 1 }

/-- The state in which an object is resident and its waits are decided. -/
def residentState (s : State) (c : Ctx) (slot : Nat) : State :=
  decideWaits ((modRes s c.id slot (Res.settled c.time)).modCtx c.id Ctx.later) c.id (c.slotRes slot).key
    fun w => { w with res := 1, inc := (c.slotRes slot).inc, slot := slot, extent := (c.slotRes slot).extent }

/-- The cores whose units wait for a key. -/
def waitingCores (s : State) (c : Ctx) (key : Nat) : List Nat :=
  (c.adms.filter fun a => a.key == key && a.active).flatMap fun a => a.waits.filterMap fun w => (s.unit? w.u).map (·.core)

theorem execAdmissionResident_eq (hc : s.ctx? c.id = some c) (hstate : (c.slotRes slot).state = .admitting)
    (hfilled : (c.slotRes slot).kind = 2 ∨ min 65536 (c.slotRes slot).extent ≤ (c.slotRes slot).filled) :
    exec (.admissionResident c.id slot) s = .next ((endAdmission
      ((waitingCores (residentState s c slot) c (c.slotRes slot).key).foldl (fun s k => cacheAdd s k c.id (c.slotRes slot).key slot (c.slotRes slot))
        (residentState s c slot)) c.id (c.slotRes slot).key).due (.fillWaitEnd c.id slot)) := by
  have hgo : ((c.slotRes slot).state != .admitting
      || ((c.slotRes slot).kind != 2 && decide ((c.slotRes slot).filled < min 65536 (c.slotRes slot).extent))) = false := by
    rw [hstate]
    rcases hfilled with h | h
    · simp [h]
    · simp only [bne_self_eq_false, Bool.false_or, decide_eq_false (Nat.not_lt.2 h), Bool.and_false]
  show execAdmissionResident c.id slot s = _
  unfold execAdmissionResident
  simp only [hc, hgo]
  rfl

theorem residentState_ctx (hc : s.ctx? c.id = some c) (slot : Nat) : ∃ as, (residentState s c slot).ctx? c.id =
    some ((c.setSlot slot ((c.slotRes slot).settled c.time)).later.withAdms as) :=
  ⟨_, decideWaits_ctx (ctx?_modCtx_of (modRes_ctx hc slot (Res.settled c.time)) Ctx.later fun _ => ⟨rfl, rfl⟩) ..⟩

theorem execAdmissionResident_next (hc : s.ctx? c.id = some c) (hstate : (c.slotRes slot).state = .admitting)
    (hfilled : (c.slotRes slot).kind = 2 ∨ min 65536 (c.slotRes slot).extent ≤ (c.slotRes slot).filled) :
    ∃ t, exec (.admissionResident c.id slot) s = .next t ∧ .fillWaitEnd c.id slot ∈ t.agenda
      ∧ ∃ d, t.ctx? c.id = some d ∧ (d.slotRes slot).state = .resident ∧ (d.slotRes slot).inc = (c.slotRes slot).inc := by
  obtain ⟨as, hres⟩ := residentState_ctx hc slot
  have hcache := (Touches.foldl (ps := [.dies]) (fun s k => touches_cacheAdd s k c.id (c.slotRes slot).key slot (c.slotRes slot))
    (waitingCores (residentState s c slot) c (c.slotRes slot).key) (residentState s c slot)).ctx? (by decide) hres
  obtain ⟨ports, -, hend⟩ := endAdmission_ctx hcache (c.slotRes slot).key
  have hslot := c.slotRes_setSlot slot ((c.slotRes slot).settled c.time)
  exact ⟨_, execAdmissionResident_eq hc hstate hfilled, State.mem_due_self .., _, (Touches.due (ps := [.agenda]) (by decide) ..).ctx? (by decide) hend,
    (congrArg Res.state hslot :), (congrArg Res.inc hslot :)⟩

/-! ## Departures (R251) -/

theorem execDeparture_next (hc : s.ctx? c.id = some c) (hstate : (c.slotRes slot).state = .resident) (hpin : forced = true ∨ (c.slotRes slot).pin = 0) :
    ∃ t, exec (.departure c.id slot forced) s = .next t
      ∧ ∃ d, t.ctx? c.id = some d ∧ (d.slotRes slot).state = .departing ∧ (d.slotRes slot).forced = forced := by
  have hgo : (((c.slotRes slot).state != .resident || (!forced && (c.slotRes slot).pin != 0)) && !(forced && (c.slotRes slot).state == .departing)) = false := by
    rw [hstate]
    obtain h | h := hpin <;> simp [h]
  have hctx := (touches_cacheDrop ..).ctx? (by decide) (modRes_ctx hc slot fun r => { r with state := .departing, forced := forced, dstep := 1, wb := 0 })
    (s := modRes s c.id slot fun r => { r with state := .departing, forced := forced, dstep := 1, wb := 0 }) (t := cacheDrop _ c.id slot)
  have hres : (c.setSlot slot { c.slotRes slot with state := .departing, forced := forced, dstep := 1, wb := 0 }).slotRes slot =
      { c.slotRes slot with state := .departing, forced := forced, dstep := 1, wb := 0 } := Ctx.slotRes_setSlot ..
  have hexec : ∃ t, exec (.departure c.id slot forced) s = .next t
      ∧ Touches [.units] (cacheDrop (modRes s c.id slot fun r => { r with state := .departing, forced := forced, dstep := 1, wb := 0 }) c.id slot) t := by
    show ∃ t, execDeparture c.id slot forced s = .next t ∧ _
    unfold execDeparture
    simp only [hc, hgo]
    simp only [hstate, reduceCtorEq, decide_false, Bool.and_false, Bool.false_eq_true, if_false]
    split
    · exact ⟨_, rfl, .refl _ _⟩
    · exact ⟨_, rfl, .foldl (fun s (u : Unit) => .foldl (fun s (m : Nat × Cmd) => touches_cmdEnd s u.key m.1 _) _ _) _ _⟩
  obtain ⟨t, ht, htouch⟩ := hexec
  refine ⟨t, ht, _, htouch.ctx? (by decide) hctx, ?_⟩
  rw [hres]
  exact ⟨rfl, rfl⟩

/-- The context of a slot that has departed, but for its history. -/
def Ctx.leftBy (c : Ctx) (slot : Nat) (h : QWord) (key inc : Nat) : Ctx :=
  { c with hist := Sparse.set 0 c.hist (16 * slot + inc) h, runs := c.runs.filter (·.1 != slot), index := c.index.filter (·.1 != key) }

/-- The entry of an object that has departed. -/
def Res.gone (r : Res) : Res :=
  { r with state := .departed, dirty := false, pin := 0, dirtyPg := [], filled := 0, dstep := 0, wb := 0, forced := false }

/-- A context in which history entries alone differ. -/
def OtherHist (c d : Ctx) : Prop := ∃ h, d = { c with hist := h }

theorem retireHistory_ctx (hc : s.ctx? id = some c) : ∃ d, (retireHistory s id).ctx? id = some d ∧ OtherHist c d := by
  unfold retireHistory
  simp only [hc]
  split
  · exact ⟨c, hc, c.hist, rfl⟩
  · refine ⟨_, (Touches.foldl (ps := memoryParts) (fun s (e : Nat × QWord) => (memOnly_mirrorHist s id _ _).touches (by decide)) _ _).ctx? (by decide)
      (ctx?_modCtx_of hc _ fun _ => ⟨rfl, rfl⟩), _, rfl⟩

/-- Ownership given back, where a departure has it. -/
def ownerFreed (c : Ctx) (r : Res) (s : State) : State := if r.kind = 1 && r.dstep != 4 then freeOwner s c r else s

theorem memOnly_ownerFreed (c : Ctx) (r : Res) (s : State) : MemOnly s (ownerFreed c r s) := by
  unfold ownerFreed
  split
  · exact memOnly_freeOwner ..
  · exact .refl s

theorem departed_eq (s : State) (c : Ctx) (slot : Nat) : ∃ h q, departed s c slot =
    readmit (retireHistory (wakeCtx (modRes (ownerFreed c (c.slotRes slot) (mirrorHist (dropFetch
      (s.modCtx c.id fun d => d.leftBy slot h (c.slotRes slot).key (c.slotRes slot).inc) c.id slot) c.id slot (c.slotRes slot).inc)) c.id slot Res.gone)
      c.id q) c.id) c.id := ⟨_, _, rfl⟩

theorem departed_ctx (hc : s.ctx? c.id = some c) (slot : Nat) : ∃ d, (departed s c slot).ctx? c.id = some d
    ∧ (d.slotRes slot).state = .departed ∧ d.find (c.slotRes slot).key = none ∧ ∀ x ∈ d.runs, x.1 ≠ slot := by
  obtain ⟨h, q, heq⟩ := departed_eq s c slot
  have hleft := ctx?_modCtx_of hc (fun d => d.leftBy slot h (c.slotRes slot).key (c.slotRes slot).inc) fun _ => ⟨rfl, rfl⟩
  have hfetch := (touches_dropFetch _ c.id slot).ctx? (by decide) hleft
  have hmirror := ((memOnly_mirrorHist _ c.id slot (c.slotRes slot).inc).touches (ps := memoryParts) (by decide)).ctx? (by decide) hfetch
  have hfree := ((memOnly_ownerFreed c (c.slotRes slot) _).touches (ps := memoryParts) (by decide)).ctx? (by decide) hmirror
  have hres := modRes_ctx hfree slot Res.gone
  obtain ⟨d, hd, hist, rfl⟩ := retireHistory_ctx ((touches_wakeCtx _ c.id q).ctx? (by decide) hres)
  rw [heq]
  refine ⟨_, (touches_readmit ..).ctx? (by decide) hd, ?_, ?_, fun x hx => ?_⟩
  · exact (congrArg Res.state (c.slotRes_setSlot slot (c.slotRes slot).gone) :)
  · have hgone : (c.index.filter (·.1 != (c.slotRes slot).key)).find? (fun e => e.1 == (c.slotRes slot).key) = none :=
      List.find?_eq_none.2 fun e he => by simpa using (List.mem_filter.1 he).2
    exact congrArg (Option.map Prod.snd) hgone
  · have hx : x ∈ c.runs.filter (·.1 != slot) := hx
    simpa using (List.mem_filter.1 hx).2

theorem execDepartureComplete_next (hc : s.ctx? c.id = some c) (hstate : (c.slotRes slot).state = .departing)
    (hpin : (c.slotRes slot).cpin = 0 ∨ (c.slotRes slot).forced = true) (hstep : (c.slotRes slot).dstep ≠ 2)
    (hdirty : (c.slotRes slot).dstep ≠ 1 ∨ (c.slotRes slot).kind ≠ 1 ∨ (c.slotRes slot).dirtyPg = []) :
    exec (.departureComplete c.id slot) s = .next (departed s c slot) := by
  have hgo : ((c.slotRes slot).state != .departing || ((c.slotRes slot).cpin != 0 && !(c.slotRes slot).forced) || decide ((c.slotRes slot).dstep = 2)) = false := by
    rw [hstate]
    obtain h | h := hpin <;> simp [h, hstep]
  have hclean : (decide ((c.slotRes slot).dstep = 1) && decide ((c.slotRes slot).kind = 1) && !(c.slotRes slot).dirtyPg.isEmpty) = false := by
    obtain h | h | h := hdirty <;> simp [h]
  show execDepartureComplete c.id slot s = _
  unfold execDepartureComplete
  simp only [hc, hgo, hclean, Bool.false_eq_true, if_false]

theorem execDepartRequest_none (hc : s.ctx? c.id = some c) (hfind : c.find key = none) : exec (.departRequest c.id key) s = .next s := by
  show execDepartRequest c.id key s = _
  unfold execDepartRequest
  simp only [hc, Option.bind_some, hfind, Option.map_none]

theorem execDepartRequest_some (hc : s.ctx? c.id = some c) (hfind : c.find key = some slot) : exec (.departRequest c.id key) s =
    if (c.slotRes slot).state = .departing then .next s
    else .next ((if (c.slotRes slot).state = .resident && (c.slotRes slot).pin = 0 then s.due (.departure c.id slot false) else s).due
      (.departRequest c.id key)) := by
  show execDepartRequest c.id key s = _
  unfold execDepartRequest
  simp only [hc, Option.bind_some, hfind, Option.map_some]

end Sys2Proof.Machine

section
open Sys2Proof Sys2Proof.Machine Sys2Proof.Claims

/-- Settles O46, clause by clause: what each step of the residency unit leaves of its context. -/
theorem residencySteps : Obligations.ResidencySteps := by
  unfold Obligations.ResidencySteps
  intro s c key slot hc r now
  refine ⟨fun core va p lv n hwalk hsize => execPageWalk_next hc hwalk hsize, fun a i ha hslot hnone hi => ⟨fun j hl => ?_, fun hl => ?_, ?_⟩,
    fun hstate howning => ⟨fun o ho => ?_, fun s' hs' => ?_⟩, execAdmissionResident_next hc, fun forced => execDeparture_next hc,
    fun hstate hpin hstep hdirty => ?_, fun hfind => ⟨fun hres hpin => ?_, fun hdep hnot => ?_, fun hdep => ?_⟩, execDepartRequest_none hc⟩
  · obtain ⟨hmem, hkey, hact⟩ := adm_spec ha
    rw [exec_admitKey hi, admitKey_busy hc ha hslot hnone hl]
    refine ⟨_, rfl, ?_, State.mem_due_self .., _, (Touches.due (ps := [.agenda]) (by decide) ..).ctx? (by decide)
      (ctx?_modCtx_of hc (fun c => c.withAdms (c.adms.map (Adm.lookedAt key j))) fun _ => ⟨rfl, rfl⟩), List.mem_map.2 ⟨a, hmem, ?_⟩⟩
    · exact Touches.sameMemory (ps := [.agenda, .ctxs]) (.last (.due (by decide) ..) (.ctxs (by decide) s _)) (by decide) (by decide) (by decide) (by decide)
    · exact if_pos (by simp [hkey, hact])
  · obtain ⟨hmem, d, hd, hall⟩ := failAdmission_refuses hc ha hslot C.STALENAME 0 fun _ => 0
    rw [exec_admitKey hi, admitKey_absent hc ha hslot hnone hl]
    exact ⟨_, rfl, hmem, d, hd, hall⟩
  · intro e run hl hvalid hkind hwait hfn hpick hrun
    obtain ⟨hdue, d, hd, hres⟩ := admitKey_entry hc ha hslot hnone hl hvalid hkind hwait hfn hpick hrun
    exact ⟨_, exec_admitKey hi s, hdue, d, hd, congrArg Res.state hres, congrArg Res.gen hres, congrArg Res.extent hres, congrArg Res.backva hres,
      congrArg Res.home hres, congrArg Res.inc hres⟩
  · have hexec := execOwnershipReread_eq hc hstate howning
    rw [ho] at hexec
    refine ⟨_, hexec, ?_, State.mem_due_self .., fun hident hnew => State.mem_due _ (askDepart_here hident hnew _)⟩
    exact Touches.sameMemory (ps := .ctxs :: fabricParts) (.last (.due (by decide) ..) (askDepart_touches ..)) (by decide) (by decide) (by decide) (by decide)
  · have hexec := execOwnershipReread_eq hc hstate howning
    rw [hs'] at hexec
    exact ⟨_, hexec, settledIn_owned (((memOnly_takeOwner hs').touches (ps := memoryParts) (by decide)).ctx? (by decide) hc) ..⟩
  · exact ⟨_, execDepartureComplete_next hc hstate hpin hstep hdirty, departed_ctx hc slot⟩
  · rw [execDepartRequest_some hc hfind, if_neg (by simp [r, hres]), if_pos (by simp [r, hres, hpin])]
  · rw [execDepartRequest_some hc hfind, if_neg hdep, if_neg (by simpa [imp_iff_not_or] using hnot)]
  · rw [execDepartRequest_some hc hfind, if_pos hdep]

end
end

section
/-! PROOFS. Emergencies, the patrol scrubber, power-on and the loss of power (R402, R407, R410, R412). -/

namespace Sys2Proof.Machine
open Sys2Proof.Claims

variable {s t : State} {a addr size corrected b n : Nat} {bad : List Nat}

/-! ## The patrol scrubber (R402) -/

theorem exists_of_get_true {m : Sparse Bool} {k : Nat} (h : Sparse.get false m k = true) : (k, true) ∈ m := by
  induction m with
  | nil => exact Bool.noConfusion h
  | cons e m ih =>
    obtain ⟨j, v⟩ := e
    rw [Sparse.get] at h
    split at h
    · next hk =>
      subst hk h
      exact List.mem_cons_self ..
    · exact List.mem_cons_of_mem _ (ih h)

theorem marked_of_get (h : Sparse.get false s.marks a = true) : s.marked 0 a 1 = true := by
  refine List.any_eq_true.2 ⟨_, exists_of_get_true h, ?_⟩
  simp [markKey]

theorem get_setTrue (as : List Nat) (m : Sparse Bool) (h : a ∈ as ∨ Sparse.get false m a = true) :
    Sparse.get false (as.foldl (fun t a => Sparse.set false t a true) m) a = true := by
  induction as generalizing m with
  | nil => exact h.resolve_left (nomatch ·)
  | cons x as ih =>
    refine ih _ ?_
    rw [Sparse.get_set]
    by_cases hx : a = x
    · exact .inr (if_pos hx)
    · rw [if_neg hx]
      exact h.imp_left fun h => (List.mem_cons.1 h).resolve_left hx

/-- The bytes a scrub finds uncorrectable and not marked yet. -/
def newlyBad (s : State) (addr size : Nat) (bad : List Nat) : List Nat :=
  (bad.filter fun a => addr ≤ a && a < addr + size && !Sparse.get false s.marks a).eraseDups

/-- The state in which they are marked. -/
def scrubbed (s : State) (addr size : Nat) (bad : List Nat) : State :=
  { s with marks := (newlyBad s addr size bad).foldl (fun t a => Sparse.set false t a true) s.marks }

theorem scrubbed_marked (ha : a ∈ bad) (hlo : addr ≤ a) (hhi : a < addr + size) : (scrubbed s addr size bad).marked 0 a 1 = true := by
  refine marked_of_get (get_setTrue _ _ ?_)
  cases h : Sparse.get false s.marks a
  · exact .inl (List.mem_eraseDups.2 (List.mem_filter.2 ⟨ha, by simp [hlo, hhi, h]⟩))
  · exact .inr rfl

theorem execPatrolScrub_eq (s : State) (addr size : Nat) (bad : List Nat) (corrected : Nat) : exec (.patrolScrub addr size bad corrected) s =
    if addr < markKey 3 0 then
      .next { scrubbed s addr size bad with hbmC := s.hbmC + corrected, hbmU := s.hbmU + (newlyBad s addr size bad).length }
    else .next ((scrubbed s addr size bad).modDie (dieOf ((addr - markKey 3 0) / 2 ^ 22)) fun d =>
      { d with sramC := d.sramC + corrected, sramU := d.sramU + (newlyBad s addr size bad).length }) := rfl

theorem State.die_modDie (s : State) (n : Nat) (f : Die → Die) : (s.modDie n f).die n = f (s.die n) := Sparse.get_set_same

/-- What a scrub counts: corrected errors of HBM or of a die's SRAM, and what it could not correct. -/
theorem execPatrolScrub_next (s : State) (addr size : Nat) (bad : List Nat) (corrected : Nat) :
    ∃ t, exec (.patrolScrub addr size bad corrected) s = .next t ∧ SameMemory s t ∧ t.units = s.units
      ∧ (∀ a ∈ bad, addr ≤ a → a < addr + size → t.marked 0 a 1 = true)
      ∧ (addr < markKey 3 0 → t.hbmC = s.hbmC + corrected ∧ s.hbmU ≤ t.hbmU ∧ t.dies = s.dies)
      ∧ (markKey 3 0 ≤ addr → t.hbmC = s.hbmC ∧ t.hbmU = s.hbmU
        ∧ (t.die (dieOf ((addr - markKey 3 0) / 2 ^ 22))).sramC = (s.die (dieOf ((addr - markKey 3 0) / 2 ^ 22))).sramC + corrected
        ∧ (s.die (dieOf ((addr - markKey 3 0) / 2 ^ 22))).sramU ≤ (t.die (dieOf ((addr - markKey 3 0) / 2 ^ 22))).sramU) := by
  rw [execPatrolScrub_eq]
  generalize markKey 3 0 = vaults
  by_cases hvault : addr < vaults
  · rw [if_pos hvault]
    exact ⟨_, rfl, fun _ _ _ => rfl, rfl, fun a ha hlo hhi => scrubbed_marked ha hlo hhi, fun _ => ⟨rfl, Nat.le_add_right .., rfl⟩,
      fun h => absurd hvault (Nat.not_lt.2 h)⟩
  · rw [if_neg hvault]
    generalize dieOf ((addr - vaults) / 2 ^ 22) = d
    refine ⟨_, rfl, fun _ _ _ => rfl, rfl, fun a ha hlo hhi => scrubbed_marked ha hlo hhi, fun h => absurd h hvault, fun _ => ⟨rfl, rfl, ?_, ?_⟩⟩
    · rw [State.die_modDie]
      rfl
    · rw [State.die_modDie]
      exact Nat.le_add_right ..

/-! ## Power-on (R410) -/

theorem State.func_modFunc (s : State) (k n : Nat) (f : Func → Func) : (s.modFunc k f).func n = if n = k then f (s.func k) else s.func n :=
  Sparse.get_set

/-- The functions below a number, enabled. -/
def enableBelow (s : State) (n : Nat) : State := (List.range n).foldl (fun s f => s.modFunc f fun f => { f with enabled := true }) s

theorem enableBelow_enabled (s : State) (n f : Nat) (hf : f < n) : ((enableBelow s n).func f).enabled = true := by
  induction n with
  | zero => exact absurd hf (Nat.not_lt_zero f)
  | succ n ih =>
    rw [enableBelow, List.range_succ, List.foldl_append, List.foldl_cons, List.foldl_nil, State.func_modFunc]
    split
    · rfl
    · exact ih (by omega)

theorem touches_enableBelow (s : State) (n : Nat) : Touches [.funcs] s (enableBelow s n) := .foldl (fun s _ => .funcs (by decide) s _) _ _

/-- The supervisors of the cores below a number, started from a bank. -/
def startBelow (b : Nat) (s : State) (n : Nat) : State :=
  (List.range n).foldl (fun s c => placeSuper (s.modCore c fun k => { k with bank := b }) c) s

theorem touches_placeSuper (s : State) (c : Nat) : Touches [.units, .ctxs] s (placeSuper s c) := by
  refine ⟨fun p hp => ?_⟩
  cases p
  case units | ctxs => exact absurd (by decide) hp
  all_goals rfl

theorem touches_startBelow (b : Nat) (s : State) (n : Nat) : Touches [.units, .ctxs, .cores] s (startBelow b s n) :=
  .foldl (fun s (c : Nat) => .last ((touches_placeSuper ..).mono (by decide)) (.cores (by decide) s _)) _ _

theorem startBelow_succ (b : Nat) (s : State) (n : Nat) :
    startBelow b s (n + 1) = placeSuper ((startBelow b s n).modCore n fun k => { k with bank := b }) n := by
  rw [startBelow, List.range_succ, List.foldl_append, List.foldl_cons, List.foldl_nil, startBelow]

theorem superKey_inj {c d : Nat} (h : superKey c = superKey d) : c = d := congrArg UKey.lid h

theorem placeSuper_unit (s : State) (c : Nat) : (placeSuper s c).unit? (superKey c) = some (superUnit (s.superImage c) c) := by
  have hnone : (s.units.filter fun u => u.key != superKey c).find? (fun u => u.key == superKey c) = none :=
    List.find?_eq_none.2 fun u hu => by simpa using (List.mem_filter.1 hu).2
  rw [State.unit?, placeSuper, List.find?_append, hnone, Option.none_or, List.find?_singleton, if_pos]
  exact beq_self_eq_true (superKey c)

theorem find?_filter_ne {k j : UKey} (hne : k ≠ j) (us : List Unit) :
    (us.filter fun u => u.key != j).find? (fun u => u.key == k) = us.find? fun u => u.key == k := by
  rw [List.find?_filter]
  refine congrArg (List.find? · us) (funext fun u => ?_)
  by_cases hk : u.key = k
  · simp [hk, hne]
  · simp [hk]

theorem placeSuper_unit_ne {k : UKey} (s : State) {c : Nat} (hne : k ≠ superKey c) : (placeSuper s c).unit? k = s.unit? k := by
  have hnew : [superUnit (s.superImage c) c].find? (fun u => u.key == k) = none :=
    List.find?_eq_none.2 fun u hu => by
      rw [List.mem_singleton.1 hu]
      exact fun h => hne (beq_iff_eq.1 h).symm
  rw [State.unit?, placeSuper, List.find?_append, hnew, Option.or_none, find?_filter_ne hne, State.unit?]

theorem startBelow_super (b : Nat) (s : State) (n c : Nat) (hc : c < n) :
    (startBelow b s n).unit? (superKey c) = some (superUnit (s.bank b).image c) ∧ ((startBelow b s n).core c).bank = b := by
  induction n with
  | zero => exact absurd hc (Nat.not_lt_zero c)
  | succ n ih =>
    rw [startBelow_succ]
    have hcore : ∀ x : State, (placeSuper x n).core c = x.core c := fun x => State.core_congr ((touches_placeSuper x n).keeps .cores (by decide)) c
    rw [hcore]
    by_cases hcn : c = n
    · subst hcn
      have himage : ((startBelow b s c).modCore c fun k => { k with bank := b }).superImage c = (s.bank b).image := by
        have hbanks : (startBelow b s c).banks = s.banks := (touches_startBelow b s c).keeps .banks (by decide)
        rw [State.superImage, State.core_modCore]
        show (List.getD (startBelow b s c).banks b _).image = _
        rw [hbanks]
        rfl
      rw [placeSuper_unit, himage, State.core_modCore]
      exact ⟨rfl, rfl⟩
    · obtain ⟨hunit, hbank⟩ := ih (by omega)
      rw [placeSuper_unit_ne _ fun h => hcn (superKey_inj h)]
      refine ⟨hunit, ?_⟩
      rw [State.core, State.modCore, State.setCore, Sparse.get_set_ne hcn]
      exact hbank

/-- The credit intervals of the dies below a number, due. -/
def creditsBelow (s : State) (n : Nat) : State := (List.range n).foldl (fun s d => s.due (.energyIntervalCredit d)) s

theorem mem_creditsBelow (s : State) (n d : Nat) (hd : d < n) : .energyIntervalCredit d ∈ (creditsBelow s n).agenda := by
  induction n with
  | zero => exact absurd hd (Nat.not_lt_zero d)
  | succ n ih =>
    rw [creditsBelow, List.range_succ, List.foldl_append, List.foldl_cons, List.foldl_nil]
    by_cases hdn : d = n
    · subst hdn
      exact State.mem_due_self ..
    · exact State.mem_due _ (ih (by omega))

theorem touches_creditsBelow (s : State) (n : Nat) : Touches [.agenda] s (creditsBelow s n) := .foldl (fun s _ => .due (by decide) s _) _ _

theorem memOnly_wrBytes (s : State) (sp a : Nat) (bs : List Byte) : MemOnly s (s.wrBytes sp a bs) := by
  induction bs generalizing s a with
  | nil => exact .refl s
  | cons b bs ih => exact MemOnly.trans (State.wr_cases ..) (ih ..)

theorem touches_capGen (s : State) (n : Nat) : Touches [.capGen] s { s with capGen := n } := by
  refine ⟨fun p hp => ?_⟩
  cases p
  case capGen => exact absurd (by decide) hp
  all_goals rfl

theorem touches_publish (s : State) (b : Nat) : Touches (.capGen :: memoryParts) s (publish s b) :=
  .last ((memOnly_wrBytes ..).touches (by decide)) ((touches_capGen ..).mono (by decide))

/-- A state with power, whose firmware is a bank's. -/
def poweredBy (s : State) (b : Nat) : State := { s with powered := true, booted := true, active := b }

theorem boot_eq (s : State) (b : Nat) : boot s b = creditsBelow (publish (startBelow b (enableBelow (poweredBy s b) 32) 512) b) 8 := rfl

/-- What the credits and the list leave of a boot. -/
theorem boot_touches (s : State) (b : Nat) : Touches (.agenda :: .capGen :: memoryParts) (startBelow b (enableBelow (poweredBy s b) 32) 512) (boot s b) := by
  rw [boot_eq]
  exact .last ((touches_creditsBelow ..).mono (by decide)) ((touches_publish ..).mono (by decide))

theorem boot_facts (s : State) (b : Nat) : (boot s b).powered = true ∧ (boot s b).booted = true ∧ (boot s b).active = b
    ∧ (∀ f < 32, ((boot s b).func f).enabled = true)
    ∧ (∀ c < 512, (boot s b).unit? (superKey c) = some (superUnit (s.bank b).image c) ∧ ((boot s b).core c).bank = b)
    ∧ ∀ d < 8, .energyIntervalCredit d ∈ (boot s b).agenda := by
  have hboot := boot_touches s b
  have hstart := touches_startBelow b (enableBelow (poweredBy s b) 32) 512
  have henable := touches_enableBelow (poweredBy s b) 32
  have hall := henable.mono (qs := [.funcs, .units, .ctxs, .cores]) (by decide) |>.trans (hstart.mono (by decide))
  refine ⟨(hboot.keeps .powered (by decide)).trans (hall.keeps .powered (by decide)), (hboot.keeps .booted (by decide)).trans (hall.keeps .booted (by decide)),
    (hboot.keeps .active (by decide)).trans (hall.keeps .active (by decide)), fun f hf => ?_, fun c hc => ?_, fun d hd => ?_⟩
  · rw [State.func_congr (hboot.keeps .funcs (by decide)), State.func_congr (hstart.keeps .funcs (by decide))]
    exact enableBelow_enabled _ 32 f hf
  · obtain ⟨hunit, hbank⟩ := startBelow_super b (enableBelow (poweredBy s b) 32) 512 c hc
    have hbanks : (enableBelow (poweredBy s b) 32).bank b = s.bank b := by
      rw [State.bank, henable.keeps .banks (by decide)]
      rfl
    rw [State.unit?_congr (hboot.keeps .units (by decide)), State.core_congr (hboot.keeps .cores (by decide)), ← hbanks]
    exact ⟨hunit, hbank⟩
  · rw [boot_eq]
    exact mem_creditsBelow _ 8 d hd

/-! ## A module without power -/

theorem execPowerOn_off (hoff : s.powered = false) : exec .powerOn s = .next (match bootBank s with
    | some b => boot { s with onTick := s.tick } b
    | none => { s with powered := true, onTick := s.tick }) := by
  show execPowerOn s = _
  unfold execPowerOn
  rw [hoff]
  cases bootBank s <;> rfl

end Sys2Proof.Machine
end

section
open Sys2Proof Sys2Proof.Machine Sys2Proof.Claims

/-- Settles O55: each of the steps of power and of errors as it is defined, and the folds of a boot by their own lemmas. -/
theorem powerSteps : Obligations.PowerSteps := by
  unfold Obligations.PowerSteps
  intro s
  refine ⟨⟨_, rfl, fun _ _ _ => rfl, rfl, rfl, rfl, rfl⟩, fun hon => ⟨{ s with emergency := false, stretched := s.stretchedNow }, ?_, fun _ _ _ => rfl,
    rfl, rfl, rfl, Nat.le_add_right ..⟩, fun hoff => ?_, execPatrolScrub_next s, fun hon => ?_, execPowerOn_off, boot_facts s, _, rfl, rfl, rfl, rfl, rfl,
    rfl, rfl, rfl, rfl, fun i hi => beq_iff_eq.1 (List.mem_filter.1 hi).2⟩
  · exact congrArg Host.Outcome.next (if_pos hon)
  · exact congrArg Host.Outcome.next (if_neg (ne_true_of_eq_false hoff))
  · exact if_pos hon

end

section
/-! PROOFS. What a step adds around the instruction it runs (R63, R77, R222, R226, R374, R406). -/

namespace Sys2Proof.Machine
open Sys2Proof.Claims

variable {s t : State} {k : UKey} {u : Unit} {g : Group} {a e : Entry} {gid n w : Nat} {i : Instr} {b : Option Entry}

/-! ## A word that is fetched -/

theorem touches_missAt (s : State) (core ctx va : Nat) : Touches [.agenda] s (missAt s core ctx va) := by
  unfold missAt
  split
  · exact .refl _ s
  · exact .due (by decide) s _

theorem touches_wordFetched (s : State) (u : Unit) (pc : DWord) : Touches [.agenda] s (wordFetched s u pc) :=
  (touches_missAt ..).trans (touches_missAt ..)

theorem touches_withRace (s : State) (k : UKey) (f : Race → Race) : Touches [.units] s (withRace s k f) :=
  (Touches.units (by decide) s _).ite (.refl _ s)

theorem touches_joinRegs (s : State) (k : UKey) (g : Group) (w : Nat) (i : Instr) : Touches [.units] s (joinRegs s k g w i) :=
  (Touches.refl _ s).ite (touches_withRace ..)

theorem joinRegs_unit (hu : s.unit? k = some u) (g : Group) (w : Nat) (i : Instr) :
    ∃ r, (joinRegs s k g w i).unit? k = some { u with race := r } ∧ (s.tracks = false → r = u.race) := by
  unfold joinRegs
  cases htracks : s.tracks
  · exact ⟨u.race, hu, fun _ => rfl⟩
  · obtain ⟨r, hr⟩ := unit?_withRace_of hu fun r => (touched w i).foldl (fun r n => r.acquire k g.gid (keyReg g.gid n)) r
    exact ⟨r, hr, fun h => Bool.noConfusion h⟩

theorem chargeEnd_unit (hu : s.unit? k = some u) (die est : Nat) :
    (chargeEnd s k die est).unit? k = some { u with energy := u.energy + BitVec.ofNat 64 (Config.measuredEnergy s.tick) } :=
  unit?_modUnit_of hu (fun u => { u with energy := u.energy + BitVec.ofNat 64 (Config.measuredEnergy s.tick) }) fun _ h => h

/-- The state in which a word that has been fetched runs, but for the note of who issues. -/
def charged (s : State) (k : UKey) (u : Unit) (g : Group) (pc : DWord) (w : Nat) (i : Instr) : State :=
  chargeEnd (joinRegs (wordFetched s u pc) k g w i) k (dieOf u.core) 0

theorem charged_rd (s : State) (k : UKey) (u : Unit) (g : Group) (pc : DWord) (w : Nat) (i : Instr) : SameMemory s (charged s k u g pc w i) := by
  have hfetch := touches_wordFetched s u pc
  have hjoin := touches_joinRegs (wordFetched s u pc) k g w i
  exact sameMemory_of_rd fun sp a => ((leaves_chargeEnd _ k (dieOf u.core) 0).tables.rd sp a).trans
    ((hjoin.rd (by decide) (by decide) (by decide) (by decide) sp a).trans (hfetch.rd (by decide) (by decide) (by decide) (by decide) sp a))

theorem charged_unit (hu : s.unit? k = some u) (g : Group) (pc : DWord) (w : Nat) (i : Instr) : ∃ r, (charged s k u g pc w i).unit? k =
    some { u with energy := u.energy + BitVec.ofNat 64 (Config.measuredEnergy s.tick), race := r } ∧ (s.tracks = false → r = u.race) := by
  have hfetch := touches_wordFetched s u pc
  have htick : (joinRegs (wordFetched s u pc) k g w i).tick = s.tick :=
    ((touches_joinRegs ..).keeps .tick (by decide)).trans (hfetch.keeps .tick (by decide))
  have htracks : (wordFetched s u pc).tracks = s.tracks := by
    rw [State.tracks, hfetch.keeps .launches (by decide), State.tracks]
  obtain ⟨r, hr, hsame⟩ := joinRegs_unit ((State.unit?_congr (hfetch.keeps .units (by decide)) k).trans hu) g w i
  refine ⟨r, ?_, fun h => hsame (htracks.trans h)⟩
  rw [charged, chargeEnd_unit hr, htick]

/-- What a word that stands at an entry does when it issues. -/
theorem issueWord_run (hu : s.unit? k = some u) (hg : u.grp? gid = some g) (he : g.ents[n]? = some e) (hw : fetchWord s u e.pc 3 = .ok w)
    (hi : decode g.grant (isDet s u) w = .ok i) (hheld : vregHeld u g w i = false) :
    issueWord s k gid n = .run i { charged s k u g e.pc w i with cur := some { u := k, gid := gid, ent := n, word := w } } := by
  unfold issueWord
  simp only [hu, hg, he, hw, hi, hheld, Bool.false_eq_true, if_false]
  rfl

/-! ## The plan of a step -/

theorem noSecond (h : s.second = none) : { s with second := none } = s := by
  cases s
  cases h
  rfl

theorem plan_noSecond (h : s.second = none) : plan s = match choices s with
    | [] => .idle
    | [c] => carry s c
    | cs => carry s (cs.getD (Config.pick s.tick % cs.length) (.event 0)) := by
  have hnone : pendingSecond s = none := by
    unfold pendingSecond
    rw [h]
  unfold plan
  simp only [hnone, noSecond h] <;> rfl

theorem plan_issue (h : s.second = none) (hc : choices s = [.issue k gid]) : plan s = issueGroup s k gid := by
  rw [plan_noSecond h, hc]
  rfl

theorem plan_event (h : s.second = none) (hc : choices s = [.event 0]) (ha : s.agenda = [i]) : plan s = .run i { s with agenda := [] } := by
  rw [plan_noSecond h, hc]
  show carry s (.event 0) = _
  unfold carry
  simp only [ha]
  rfl

theorem plan_idle (h : s.second = none) (hc : choices s = []) : plan s = .idle := by
  rw [plan_noSecond h, hc]

theorem plan_second (h : pendingSecond s = some (k, gid, n)) : plan s = issueWord { s with second := none } k gid n := by
  unfold plan
  simp only [h]

theorem issueGroup_eq {rest : List Entry} (hu : s.unit? k = some u) (hg : u.grp? gid = some g) (hr : readyEnts s u g = a :: rest) :
    issueGroup s k gid = issueWord (opportunity s u g (secondEntry s u a rest)) k gid (placeOf g a) := by
  unfold issueGroup
  simp only [hu, hg, hr]

theorem step_run (h : plan s = .run i t) : step s = close (exec i t) := by
  unfold step
  rw [h]

theorem step_idle (h : plan s = .idle) : step s = .next (closeStep s) := by
  unfold step
  rw [h]

/-! ## An opportunity -/

theorem touches_noteSelected (s : State) (u : Unit) (g : Group) : Touches [.cores] s (noteSelected s u g) := by
  unfold noteSelected
  simp only
  split
  · exact .cores (by decide) s _
  · exact .cores (by decide) s _

/-- A group at an opportunity. -/
def Group.opportune (s : State) (u : Unit) (g : Group) (b : Option Entry) (h : Group) : Group :=
  { h with ents := ageEnts s u g b, run := match g.run with | .skid n src => .skid (n - 1) src | r => r }

theorem opportunity_eq (s : State) (u : Unit) (g : Group) (b : Option Entry) : opportunity s u g b =
    { (noteSelected s u g).modGrp u.key g.gid (Group.opportune s u g b) with second := b.map fun _ => (u.key, g.gid),
                                                                             pair := b.map fun _ => (u.key, g.gid) } := rfl

theorem opportunity_rd (s : State) (u : Unit) (g : Group) (b : Option Entry) : SameMemory s (opportunity s u g b) := by
  rw [opportunity_eq]
  exact sameMemory_of_rd fun sp a => (touches_noteSelected s u g).rd (by decide) (by decide) (by decide) (by decide) sp a

theorem opportunity_group (hu : s.unit? u.key = some u) (hg : u.grp? g.gid = some g) (b : Option Entry) :
    ∃ v, (opportunity s u g b).unit? u.key = some v ∧ v.grp? g.gid = some (g.opportune s u b g) := by
  have hnote := (State.unit?_congr ((touches_noteSelected s u g).keeps .units (by decide)) u.key).trans hu
  have hmod := (State.unit?_modGrp (noteSelected s u g) u.key g.gid (Group.opportune s u g b)).trans (congrArg _ hnote)
  refine ⟨_, hmod, ?_⟩
  have hgroup := find?_map_self (fun x : Group => x.live && x.gid == g.gid) (Group.opportune s u g b) (fun x hx => hx) u.grps
  exact hgroup.trans (congrArg (Option.map _) hg)

theorem mem_insertBy {r : Entry → Entry → Bool} {x : Entry} {es : List Entry} (h : x ∈ insertBy r e es) : x = e ∨ x ∈ es := by
  induction es with
  | nil => exact .inl (List.mem_singleton.1 h)
  | cons f fs ih =>
    rw [insertBy] at h
    split at h
    · exact List.mem_cons.1 h
    · obtain rfl | h := List.mem_cons.1 h
      · exact .inr (List.mem_cons_self ..)
      · exact (ih h).imp_right (List.mem_cons_of_mem _)

theorem mem_sortBy {r : Entry → Entry → Bool} {x : Entry} {es : List Entry} (h : x ∈ sortBy r es) : x ∈ es := by
  induction es with
  | nil => exact h
  | cons e es ih =>
    obtain rfl | h := mem_insertBy h
    · exact List.mem_cons_self ..
    · exact List.mem_cons_of_mem _ (ih h)

theorem placeOf_mem (h : a ∈ g.ents) : g.ents[placeOf g a]? = some a := by
  obtain ⟨j, hj⟩ : ∃ j, g.ents.findIdx? (fun f => f == a) = some j :=
    Option.isSome_iff_exists.1 (List.findIdx?_isSome.trans (List.any_eq_true.2 ⟨a, h, beq_self_eq_true a⟩))
  obtain ⟨hlt, hja, -⟩ := List.findIdx?_eq_some_iff_getElem.1 hj
  rw [placeOf, hj, Option.getD_some, List.getElem?_eq_getElem hlt, beq_iff_eq.1 hja]

/-- One entry at an opportunity. -/
def agedEntry (s : State) (u : Unit) (g : Group) (b : Option Entry) (e : Entry) : Entry :=
  let e' := if entryReady s u g e then e.older s.tick else e
  if some e == b then { e' with wait := .second } else e'

theorem Entry.older_same (e : Entry) (now : Nat) : (e.older now).pc = e.pc ∧ (e.older now).mask = e.mask := by
  unfold Entry.older
  split
  · exact ⟨rfl, rfl⟩
  · split <;> exact ⟨rfl, rfl⟩

theorem agedEntry_same (s : State) (u : Unit) (g : Group) (b : Option Entry) (e : Entry) :
    (agedEntry s u g b e).pc = e.pc ∧ (agedEntry s u g b e).mask = e.mask := by
  have hready : (if entryReady s u g e then e.older s.tick else e).pc = e.pc ∧ (if entryReady s u g e then e.older s.tick else e).mask = e.mask := by
    split
    · exact e.older_same _
    · exact ⟨rfl, rfl⟩
  unfold agedEntry
  simp only
  split
  · exact hready
  · exact hready

theorem ageEnts_eq (s : State) (u : Unit) (g : Group) (b : Option Entry) : ageEnts s u g b = g.ents.map (agedEntry s u g b) := rfl

theorem opportunity_entries (hu : s.unit? u.key = some u) (hg : u.grp? g.gid = some g) {rest : List Entry} (hr : readyEnts s u g = a :: rest)
    (b : Option Entry) : ∃ u1 g1 e1, (opportunity s u g b).unit? u.key = some u1 ∧ u1.grp? g.gid = some g1 ∧ g1.ents[placeOf g a]? = some e1
      ∧ e1.pc = a.pc ∧ e1.mask = a.mask ∧ g1.v = g.v ∧ g1.s = g.s ∧ g1.m = g.m ∧ g1.p = g.p ∧ g1.grant = g.grant
      ∧ g1.ents.map Entry.pc = g.ents.map Entry.pc ∧ g1.ents.map Entry.mask = g.ents.map Entry.mask := by
  obtain ⟨v, hv, hgrp⟩ := opportunity_group hu hg b
  have hmem : a ∈ g.ents := mem_sortBy (List.mem_filter.1 (hr ▸ List.mem_cons_self (a := a) (l := rest) : a ∈ readyEnts s u g)).1
  have hents : (g.opportune s u b g).ents = g.ents.map (agedEntry s u g b) := ageEnts_eq ..
  refine ⟨v, _, agedEntry s u g b a, hv, hgrp, ?_, (agedEntry_same ..).1, (agedEntry_same ..).2, rfl, rfl, rfl, rfl, rfl, ?_, ?_⟩
  · rw [hents, List.getElem?_map, placeOf_mem hmem, Option.map_some]
  · rw [hents, List.map_map]
    exact List.map_congr_left fun e _ => (agedEntry_same ..).1
  · rw [hents, List.map_map]
    exact List.map_congr_left fun e _ => (agedEntry_same ..).2

end Sys2Proof.Machine
end

section
open Sys2Proof Sys2Proof.Machine Sys2Proof.Claims

/-- Settles O56: the plan of a step, and the state a word that has been fetched runs in. -/
theorem stepRunsDecoded : Obligations.StepRunsDecoded := by
  unfold Obligations.StepRunsDecoded
  intro s runs
  have hruns : ∀ s1 k gid n, plan s = issueWord s1 k gid n → runs s1 k gid n (step s) := by
    intro s1 k gid n hplan u g e w i hu hg he hw hi hheld s2 hs2
    obtain rfl : s2 = charged s1 k u g e.pc w i := hs2
    exact ⟨step_run (hplan.trans (issueWord_run hu hg he hw hi hheld)), charged_rd s1 k u g e.pc w i, charged_unit hu ..⟩
  refine ⟨?_, fun k gid n h => hruns _ _ _ _ (plan_second h),
    fun i hsecond hchoices hagenda => step_run (plan_event hsecond hchoices hagenda), fun hsecond hchoices => step_idle (plan_idle hsecond hchoices)⟩
  intro k gid u g a rest hsecond hchoices hu hg hr s1
  obtain rfl := State.unit?_key hu
  obtain rfl := (Unit.grp?_live hg).2
  exact ⟨hruns _ _ _ _ ((plan_issue hsecond hchoices).trans (issueGroup_eq hu hg hr)), opportunity_rd s u g _, opportunity_entries hu hg hr _⟩

end

section
/-! PROOFS. Helpers of the model that leave accumulators and registers of groups as they stand (R168 to R180, R266, R314). -/

namespace Sys2Proof.Machine
open Sys2Proof.Claims

variable {s t r : State} {k : UKey} {u v : Unit} 

/-! ## Units whose accumulator and registers stay -/

/-- A unit whose accumulator, and whose groups' registers, are another's. -/
structure HoldsData (u v : Unit) : Prop where
  acc : v.acc = u.acc
  acct : v.acct = u.acct
  accr : v.accr = u.accr
  grp : ∀ gid g, u.grp? gid = some g → ∃ h, v.grp? gid = some h ∧ h.v = g.v ∧ h.vt = g.vt

theorem holdsData_of_grps (hacc : v.acc = u.acc) (hacct : v.acct = u.acct) (haccr : v.accr = u.accr) (hgrps : v.grps = u.grps) : HoldsData u v :=
  ⟨hacc, hacct, haccr, fun gid g hg => ⟨g, by rwa [Unit.grp?, hgrps], rfl, rfl⟩⟩

theorem HoldsData.trans {w : Unit} (h : HoldsData u v) (h' : HoldsData v w) : HoldsData u w where
  acc := h'.acc.trans h.acc
  acct := h'.acct.trans h.acct
  accr := h'.accr.trans h.accr
  grp gid g hg := by
    obtain ⟨g', hg', hv, hvt⟩ := h.grp gid g hg
    obtain ⟨g'', hg'', hv', hvt'⟩ := h'.grp gid g' hg'
    exact ⟨g'', hg'', hv'.trans hv, hvt'.trans hvt⟩

/-- From a state to another that has every unit of the first, with its accumulator and registers. -/
structure KeepsData (s t : State) : Prop where
  unit : ∀ k u, s.unit? k = some u → ∃ v, t.unit? k = some v ∧ HoldsData u v

theorem keepsData_of_units (h : t.units = s.units) : KeepsData s t :=
  ⟨fun k u hu => ⟨u, (State.unit?_congr h k).trans hu, holdsData_of_grps rfl rfl rfl rfl⟩⟩

theorem KeepsData.trans (h : KeepsData s t) (h' : KeepsData t r) : KeepsData s r := ⟨fun k u hu => by
  obtain ⟨v, hv, huv⟩ := h.unit k u hu
  obtain ⟨w, hw, hvw⟩ := h'.unit k v hv
  exact ⟨w, hw, huv.trans hvw⟩⟩

/-- The last change first, the ones before it after it. -/
theorem KeepsData.last (h' : KeepsData t r) (h : KeepsData s t) : KeepsData s r := h.trans h'

theorem KeepsData.refl (s : State) : KeepsData s s := keepsData_of_units rfl

theorem KeepsData.foldl {α : Type} {f : State → α → State} (hf : ∀ s x, KeepsData s (f s x)) (xs : List α) (s : State) :
    KeepsData s (xs.foldl f s) := by
  induction xs generalizing s with
  | nil => exact .refl s
  | cons x xs ih => exact (hf s x).trans (ih _)

theorem KeepsData.ite {c : Prop} [Decidable c] (h : KeepsData s t) (h' : KeepsData s r) : KeepsData s (if c then t else r) := by
  split
  · exact h
  · exact h'

theorem keepsData_modUnit (s : State) (j : UKey) (f : Unit → Unit) (hkey : ∀ u, (f u).key = u.key) (hf : ∀ u, HoldsData u (f u)) :
    KeepsData s (s.modUnit j f) := ⟨fun k u hu => by
  have hkey' : ∀ u, u.key = j → (f u).key = j := fun u h => (hkey u).trans h
  by_cases hj : k = j
  · subst hj
    exact ⟨f u, unit?_modUnit_of hu f hkey', hf u⟩
  · exact ⟨u, (State.unit?_modUnit_ne f hkey' hj).trans hu, holdsData_of_grps rfl rfl rfl rfl⟩⟩

/-- A change of units that leaves groups and accumulators alone. -/
theorem keepsData_modUnit_rest (s : State) (j : UKey) (f : Unit → Unit)
    (hf : ∀ u, (f u).key = u.key ∧ (f u).acc = u.acc ∧ (f u).acct = u.acct ∧ (f u).accr = u.accr ∧ (f u).grps = u.grps) :
    KeepsData s (s.modUnit j f) :=
  keepsData_modUnit s j f (fun u => (hf u).1) fun u => by
    obtain ⟨-, hacc, hacct, haccr, hgrps⟩ := hf u
    exact holdsData_of_grps hacc hacct haccr hgrps

theorem keepsData_withRace (s : State) (k : UKey) (f : Race → Race) : KeepsData s (withRace s k f) := by
  unfold withRace
  split
  · exact keepsData_modUnit_rest s k _ fun _ => ⟨rfl, rfl, rfl, rfl, rfl⟩
  · exact .refl s

theorem keepsData_modCmd (s : State) (k : UKey) (agent : Nat) (f : Cmd → Cmd) : KeepsData s (s.modCmd k agent f) :=
  keepsData_modUnit_rest s k _ fun _ => ⟨rfl, rfl, rfl, rfl, rfl⟩

theorem keepsData_addEnergy (s : State) (k : UKey) (n : Nat) : KeepsData s (addEnergy s k n) :=
  keepsData_modUnit_rest s k _ fun _ => ⟨rfl, rfl, rfl, rfl, rfl⟩

theorem keepsData_modCore (s : State) (n : Nat) (f : Core → Core) : KeepsData s (s.modCore n f) := keepsData_of_units rfl

theorem keepsData_modDie (s : State) (n : Nat) (f : Die → Die) : KeepsData s (s.modDie n f) := keepsData_of_units rfl

theorem keepsData_spend (s : State) (die e est : Nat) : KeepsData s (spend s die e est) := keepsData_of_units rfl

theorem keepsData_leaveEngine (s : State) (k : UKey) (agent : Nat) : KeepsData s (leaveEngine s k agent) := keepsData_of_units rfl

theorem keepsData_copyPin (s : State) (ctx slot : Nat) (up : Bool) : KeepsData s (copyPin s ctx slot up) := keepsData_of_units rfl

theorem keepsData_chargeEnd (s : State) (k : UKey) (die est : Nat) : KeepsData s (chargeEnd s k die est) :=
  .last (keepsData_spend ..) (keepsData_addEnergy ..)

theorem keepsData_wakeUnit (s : State) (k : UKey) (p : Wait → Bool) : KeepsData s (wakeUnit s k p) :=
  keepsData_modUnit s k _ (fun _ => rfl) fun u => by
    refine ⟨rfl, rfl, rfl, fun gid g hg => ?_⟩
    let f (g : Group) : Group := { g with ents := g.ents.map fun e => if p e.wait then { e with wait := .none } else e }
    exact ⟨f g, (Unit.grp?_map (u := u) (f := f) (fun _ => rfl) (fun _ => rfl) rfl).trans (congrArg (Option.map f) hg), rfl, rfl⟩

theorem keepsData_arrive (s : State) (k : UKey) (bo agent : Nat) (status : DWord) (trapf : Bool) : KeepsData s (arrive s k bo agent status trapf) := by
  unfold arrive
  split
  · exact .refl s
  · exact .last (keepsData_withRace ..) (keepsData_modUnit_rest s k _ fun _ => ⟨rfl, rfl, rfl, rfl, rfl⟩)

theorem keepsData_chargePass (s : State) (core : Nat) (p : Pass) : KeepsData s (chargePass s core p) := by
  unfold chargePass
  split
  · exact .refl s
  · exact .last (keepsData_spend ..) (.foldl (fun s (x : UKey × Nat) => keepsData_addEnergy s x.1 _) _ _)

theorem keepsData_passEnd (s : State) (core : Nat) : KeepsData s (passEnd s core) := by
  unfold passEnd
  split
  · exact .last (keepsData_modDie ..) <| .last (keepsData_modCore ..) (keepsData_chargePass ..)
  · exact .last (keepsData_modDie ..) (keepsData_modCore ..)

theorem keepsData_leavePass (s : State) (core : Nat) (k : UKey) (agent : Nat) : KeepsData s (leavePass s core k agent) := by
  unfold leavePass
  split
  · exact .refl s
  · dsimp only
    split
    · exact .refl s
    · split
      · exact .last (keepsData_passEnd ..) (keepsData_modCore ..)
      · exact keepsData_modCore ..

theorem keepsData_dropCmd (s : State) (k : UKey) (agent : Nat) : KeepsData s (dropCmd s k agent) := by
  unfold dropCmd
  split
  · exact .refl s
  · next u _ =>
    split
    · exact .refl s
    · exact .last (keepsData_wakeUnit ..) <| .last (keepsData_modDie ..) <| .last (keepsData_modCore ..) <|
        .last (keepsData_leaveEngine ..) <| .last (keepsData_leavePass ..) <|
        .last (keepsData_modUnit_rest _ k (fun u => { u with cmds := u.cmds.filter fun x => x.1 != agent }) fun _ => ⟨rfl, rfl, rfl, rfl, rfl⟩) <|
        .foldl (fun s p => keepsData_copyPin s u.ctx p false) _ _

theorem keepsData_cmdArrive (s : State) (k : UKey) (agent : Nat) (st : DWord) : KeepsData s (cmdArrive s k agent st) := by
  unfold cmdArrive
  split
  · exact .refl s
  · split
    · exact .refl s
    · dsimp only
      split
      · exact .last (keepsData_dropCmd ..) (keepsData_arrive ..)
      · exact keepsData_dropCmd ..

/-! ## Accesses that leave clocks alone (R314, R321) -/

/-- From a state to another that has every unit of the first, and what races may stand otherwise. -/
structure RaceOnly (s t : State) : Prop where
  units : List.Forall₂ (fun u v : Unit => ∃ r, v = { u with race := r }) s.units t.units

theorem RaceOnly.unit (h : RaceOnly s t) (k : UKey) (u : Unit) (hu : s.unit? k = some u) : ∃ r, t.unit? k = some { u with race := r } := by
  unfold State.unit? at hu ⊢
  have hunits := h.units
  generalize s.units = us, t.units = vs at hu hunits
  induction hunits with
  | nil => cases hu
  | cons hx _ ih =>
    obtain ⟨r, rfl⟩ := hx
    rw [List.find?_cons] at hu ⊢
    dsimp only
    split at hu
    · cases hu
      exact ⟨r, rfl⟩
    · exact ih hu

theorem raceOnly_of_units (h : t.units = s.units) : RaceOnly s t :=
  ⟨h ▸ List.forall₂_same.2 fun u _ => ⟨u.race, rfl⟩⟩

theorem RaceOnly.refl (s : State) : RaceOnly s s := raceOnly_of_units rfl

theorem RaceOnly.trans (h : RaceOnly s t) (h' : RaceOnly t r) : RaceOnly s r := ⟨by
  have hst := h.units
  have htr := h'.units
  generalize s.units = us, t.units = vs, r.units = ws at hst htr
  induction hst generalizing ws with
  | nil =>
    cases htr
    exact .nil
  | cons hx _ ih =>
    cases htr with
    | cons hy hys =>
      obtain ⟨x, rfl⟩ := hx
      obtain ⟨y, rfl⟩ := hy
      exact .cons ⟨y, rfl⟩ (ih _ hys)⟩

/-- The last change first, the ones before it after it. -/
theorem RaceOnly.last (h' : RaceOnly t r) (h : RaceOnly s t) : RaceOnly s r := h.trans h'

theorem RaceOnly.foldl {α : Type} {f : State → α → State} (hf : ∀ s x, RaceOnly s (f s x)) (xs : List α) (s : State) :
    RaceOnly s (xs.foldl f s) := by
  induction xs generalizing s with
  | nil => exact .refl s
  | cons x xs ih => exact (hf s x).trans (ih _)

theorem RaceOnly.ite {c : Prop} [Decidable c] (h : RaceOnly s t) (h' : RaceOnly s r) : RaceOnly s (if c then t else r) := by
  split
  · exact h
  · exact h'

theorem raceOnly_modUnit (s : State) (j : UKey) (f : Unit → Unit) (hf : ∀ u, ∃ r, f u = { u with race := r }) : RaceOnly s (s.modUnit j f) :=
  ⟨List.forall₂_map_right_iff.2 <| List.forall₂_same.2 fun u _ => by
    split
    · exact hf u
    · exact ⟨u.race, rfl⟩⟩

theorem raceOnly_withRace (s : State) (k : UKey) (f : Race → Race) : RaceOnly s (withRace s k f) := by
  unfold withRace
  split
  · exact raceOnly_modUnit s k _ fun u => ⟨f u.race, rfl⟩
  · exact .refl s

theorem raceOnly_takeOwnership (s : State) (k : UKey) (a : Access) : RaceOnly s (takeOwnership s k a) := by
  unfold takeOwnership
  split <;> exact raceOnly_of_units rfl

theorem raceOnly_noteAccess (s : State) (k : UKey) (agent : Nat) (a : Access) : RaceOnly s (noteAccess s k agent a) := by
  unfold noteAccess
  refine .last (raceOnly_takeOwnership ..) ?_
  split
  · exact raceOnly_modUnit s k _ fun u => ⟨u.race.remember agent a, rfl⟩
  · exact raceOnly_of_units rfl

theorem raceOnly_setHeld (s : State) (sp a n : Nat) (rs : List Released) : RaceOnly s (setHeld s sp a n rs) :=
  raceOnly_of_units ((touches_setHeld s sp a n rs).keeps .units (by decide))

theorem raceOnly_endOwnership (s : State) (k : UKey) : RaceOnly s (endOwnership s k) := raceOnly_of_units rfl

theorem raceOnly_passClocks (s : State) (u : Unit) (agent : Nat) (p : Place) (n : Nat) (att : Att) : RaceOnly s (passClocks s u agent p n att) := by
  unfold passClocks
  split
  · exact .refl s
  · dsimp only
    have hread : RaceOnly s (if (!att.write || att.rmw) && att.strong then withRace s u.key fun _ => Race.reads s u agent p n att else s) :=
      .ite (raceOnly_withRace ..) (.refl s)
    generalize (if (!att.write || att.rmw) && att.strong then withRace s u.key fun _ => Race.reads s u agent p n att else s) = t at hread
    refine .last ?_ hread
    split
    · exact .refl t
    · split
      · exact .refl t
      · next v _ =>
        have hleft : RaceOnly t (if (leftAt v.race v.key agent (dieMates s u att.scope) (heldAt s p.sp p.a n) att.rel att.strong att.rmw
            att.scope).isEmpty then t else setHeld t p.sp p.a n (leftAt v.race v.key agent (dieMates s u att.scope) (heldAt s p.sp p.a n) att.rel
            att.strong att.rmw att.scope)) := .ite (.refl t) (raceOnly_setHeld ..)
        exact .ite (.last (raceOnly_withRace ..) hleft) hleft

theorem raceOnly_engNote (s : State) (k : UKey) (agent : Nat) (p : Place) (n : Nat) (att : Att) : RaceOnly s (engNote s k agent p n att) := by
  unfold engNote notePlace
  split
  · exact .refl s
  · next u _ =>
    split
    · exact .refl s
    · dsimp only
      have hnote : RaceOnly s (if checks s u && checkedPlace p.sp p.pte then noteAccess s k (engineAgent agent) (p.access n att) else s) :=
        .ite (raceOnly_noteAccess ..) (.refl s)
      have hclock := hnote.trans (raceOnly_passClocks _ u (engineAgent agent) p n att)
      have hknow := fun f : Race → Race => hclock.trans
        (.ite (c := isSuper k && p.sp = 4 && p.a < 0x800) (raceOnly_withRace _ k f) (.refl _))
      exact .ite (.last (raceOnly_endOwnership ..) (hknow _)) (hknow _)

end Sys2Proof.Machine
end

section
/-! PROOFS. How the commands of engines start and end, and what the steps of the matrix array and of the governor leave behind (R182 to
R185, R192, R266 to R275, R406, R407). -/

namespace Sys2Proof.Machine
open Sys2Proof.Claims

variable {s t r : State} {k : UKey} {u v : Unit} {m : Cmd} {agent core plane die : Nat} {c : Core} {o : Op} {x : ModX}

/-! ## Commands (R168, R171) -/

theorem Unit.cmd?_modCmd (u : Unit) (agent : Nat) (f : Cmd → Cmd) : (u.modCmd agent f).cmd? agent = (u.cmd? agent).map f := by
  have hfind := find?_map_self (fun c : Nat × Cmd => c.1 == agent) (fun c => (c.1, f c.2)) (fun _ h => h) u.cmds
  rw [Unit.cmd?, Unit.modCmd, hfind, Unit.cmd?]
  cases u.cmds.find? fun c => c.1 == agent <;> rfl

/-- A command of a unit of a state. -/
structure Runs (s : State) (k : UKey) (agent : Nat) (m : Cmd) : Prop where
  runs : ∃ u, s.unit? k = some u ∧ u.cmd? agent = some m

theorem runs_of (hu : s.unit? k = some u) (hm : u.cmd? agent = some m) : Runs s k agent m := ⟨u, hu, hm⟩

theorem Runs.modCmd (h : Runs s k agent m) (f : Cmd → Cmd) : Runs (s.modCmd k agent f) k agent (f m) := by
  obtain ⟨u, hu, hm⟩ := h
  exact ⟨u.modCmd agent f, unit?_modUnit_of hu (fun v => v.modCmd agent f) fun _ h => h, by rw [u.cmd?_modCmd, hm]; rfl⟩

theorem Runs.of_units (h : Runs s k agent m) (ht : t.units = s.units) : Runs t k agent m := by
  obtain ⟨u, hu, hm⟩ := h
  exact ⟨u, (State.unit?_congr ht k).trans hu, hm⟩

/-- A change of units that leaves their commands alone. -/
theorem Runs.modUnit (h : Runs s k agent m) (j : UKey) (f : Unit → Unit) (hf : ∀ u, (f u).key = u.key ∧ (f u).cmds = u.cmds) :
    Runs (s.modUnit j f) k agent m := by
  obtain ⟨u, hu, hm⟩ := h
  have hkey : ∀ u, u.key = j → (f u).key = j := fun u h => (hf u).1.trans h
  by_cases hj : k = j
  · subst hj
    exact ⟨f u, unit?_modUnit_of hu f hkey, by rw [Unit.cmd?, (hf u).2]; exact hm⟩
  · exact ⟨u, (State.unit?_modUnit_ne f hkey hj).trans hu, hm⟩

theorem Runs.found (h : Runs s k agent m) : ((s.unit? k).bind fun u => u.cmd? agent) = some m := by
  obtain ⟨u, hu, hm⟩ := h
  rw [hu]
  exact hm

/-- A command as it begins under its permit. -/
def Cmd.begun (u : Unit) (m : Cmd) : Cmd := { m with permit := true, snap := if isFactor m.ins then some (u.acc, u.acct, u.accr) else none }

theorem Runs.begin (h : Runs s k agent m) : ∃ u : Unit, Runs (begin s k agent) k agent (m.begun u) := by
  obtain ⟨u, hu, hm⟩ := h
  have hbegin := unit?_modUnit_of hu (fun v => v.modCmd agent (Cmd.begun v)) fun _ h => h
  exact ⟨u, _, hbegin, by rw [u.cmd?_modCmd, hm]; rfl⟩

theorem leaves_modCmd (s : State) (k : UKey) (agent : Nat) (f : Cmd → Cmd) : Leaves s (s.modCmd k agent f) := leaves_modUnit _ _ _ fun _ => rfl

theorem leaves_begin (s : State) (k : UKey) (agent : Nat) : Leaves s (begin s k agent) := leaves_modUnit _ _ _ fun _ => rfl

theorem leaves_debit (s : State) (die est : Nat) : Leaves s (debit s die est) := leaves_modDie ..

theorem Leaves.ite {c : Prop} [Decidable c] (h : Leaves s t) (h' : Leaves s r) : Leaves s (if c then t else r) := by
  split
  · exact h
  · exact h'

theorem Leaves.sameMemory (h : Leaves s t) : SameMemory s t := h.touches.sameMemory (by decide) (by decide) (by decide) (by decide)

theorem leaves_askPermit (s : State) (k : UKey) (agent est : Nat) : Leaves s (askPermit s k agent est) := by
  unfold askPermit
  split
  · exact .refl s
  · split
    · exact .last (leaves_debit ..) <| .last (leaves_begin ..) (leaves_modCmd ..)
    · exact .last (leaves_modDie ..) (leaves_modCmd ..)

/-- A command that has asked for a permit is what it was, but for the permit. -/
theorem Runs.askPermit (h : Runs s k agent m) (est : Nat) : ∃ m', Runs (askPermit s k agent est) k agent m' ∧ m'.state = m.state ∧ m'.ins = m.ins := by
  have hasked := h.modCmd fun m => { m with asked := s.tick + 1 }
  obtain ⟨v, hbegun⟩ := hasked.begin
  obtain ⟨u, hu, -⟩ := h
  unfold Machine.askPermit
  rw [hu]
  dsimp only
  split
  · exact ⟨_, hbegun.of_units rfl, rfl, rfl⟩
  · exact ⟨_, hasked.of_units rfl, rfl, rfl⟩

theorem leaves_queueOn (s : State) (core : Nat) (k : UKey) (agent : Nat) (m : Cmd) : Leaves s (queueOn s core k agent m) := by
  unfold queueOn
  split
  · exact .refl s
  · exact ⟨.engines (by decide) s _, fun _ => rfl, fun _ => .refl _, fun x hx => ⟨x, hx, rfl⟩⟩

theorem queueOn_units (s : State) (core : Nat) (k : UKey) (agent : Nat) (m : Cmd) : (queueOn s core k agent m).units = s.units := by
  unfold queueOn
  split <;> rfl

/-- Whether a command that starts asks for a permit of its own. -/
def Cmd.asks (m : Cmd) : Bool := match m.ins with | .mmq _ _ => true | i => isFactor i || m.bigCopy

theorem Cmd.asks_of (h : ∀ o x, m.ins ≠ .mmq o x) : m.asks = (isFactor m.ins || m.bigCopy) := by
  unfold Cmd.asks
  split
  · next o x hi => exact absurd hi (h o x)
  · rfl

theorem engineCommandStart_next (hu : s.unit? k = some u) (hm : u.cmd? agent = some m) (hstart : startable s u agent m = true)
    (hstream : m.stream = none) : ∃ t m', exec (.engineCommandStart k agent) s = .next t ∧ SameMemory s t ∧ Runs t k agent m'
      ∧ m'.state = .started ∧ m'.ins = m.ins ∧ (m.asks = false → m'.permit = true) := by
  have hrun := (runs_of hu hm).modCmd fun m => { m with state := .started }
  have hleave := leaves_modCmd s k agent fun m => { m with state := .started }
  have hexec : exec (.engineCommandStart k agent) s = execEngineCommandStart k agent s := rfl
  rw [hexec, execEngineCommandStart, hu]
  dsimp only
  rw [hm]
  dsimp only
  rw [hstart, if_neg (by decide), hstream]
  split
  · next o x hi =>
    refine ⟨_, _, rfl, hleave.sameMemory, hrun, rfl, rfl, fun h => ?_⟩
    rw [Cmd.asks, hi] at h
    cases h
  · next hne =>
    rw [Cmd.asks_of fun o x hi => hne o x hi]
    generalize s.modCmd k agent (fun m => { m with state := .started }) = t at hrun hleave ⊢
    have hqueued : Leaves s (if isFactor m.ins || (none : Option Nat).isSome then t else queueOn t u.core k agent m) :=
      .ite hleave (.last (leaves_queueOn ..) hleave)
    have hqueue : Runs (if isFactor m.ins || (none : Option Nat).isSome then t else queueOn t u.core k agent m) k agent
        { m with state := .started } := by
      split
      · exact hrun
      · exact hrun.of_units (queueOn_units ..)
    dsimp only
    generalize (if isFactor m.ins || (none : Option Nat).isSome then t else queueOn t u.core k agent m) = t' at hqueued hqueue
    split
    · next hasks =>
      obtain ⟨m', hrun', hstate, hins⟩ := hqueue.askPermit m.estimate
      exact ⟨_, m', rfl, (hqueued.trans (leaves_askPermit ..)).sameMemory, hrun', hstate, hins, fun h => by simp [h] at hasks⟩
    · exact ⟨_, _, rfl, (hqueued.trans (leaves_modCmd ..)).sameMemory, hqueue.modCmd _, rfl, rfl, fun _ => rfl⟩

/-! ## Passes (R266, R267) -/

theorem touches_modCore {ps : List Part} (hp : .cores ∈ ps) (s : State) (n : Nat) (f : Core → Core) : Touches ps s (s.modCore n f) := .cores hp s _

theorem touches_modDie {ps : List Part} (hp : .dies ∈ ps) (s : State) (n : Nat) (f : Die → Die) : Touches ps s (s.modDie n f) := .dies hp s _

theorem touches_modUnit {ps : List Part} (hp : .units ∈ ps) (s : State) (k : UKey) (f : Unit → Unit) : Touches ps s (s.modUnit k f) := .units hp s _

theorem permitOps_touches (s : State) (ops : List QOp) : Touches [.units] s (permitOps s ops) := .foldl (fun s _ => .units (by decide) s _) _ _

/-- A core whose next pass is open. -/
def Core.opened (s : State) (ops : List QOp) (plane fmt : Nat) (c : Core) : Core :=
  { c with pass := some { plane := plane, fmt := fmt, ops := ops, permit := opsReserved s ops, shares := sharesOf ops }, prevPl := some plane }

theorem matrixPassOpen_next {op : QOp} {ops : List QOp} {plane fmt : Nat} (hpass : (s.core core).pass = none)
    (hnew : newPass s core = op :: ops) (hshape : s.qShape op.1 op.2.1 = some (plane, fmt)) :
    ∃ t, exec (.matrixPassOpen core) s = .next t ∧ SameMemory s t ∧ t.core core = (s.core core).opened s (op :: ops) plane fmt := by
  obtain ⟨j, a, q⟩ := op
  have hexec : exec (.matrixPassOpen core) s = execMatrixPassOpen core s := rfl
  rw [hexec, execMatrixPassOpen, hpass, hnew]
  dsimp only at hshape ⊢
  rw [hshape]
  dsimp only
  have hopen : Touches [.cores, .units, .dies] s (s.modCore core (Core.opened s ((j, a, q) :: ops) plane fmt)) := .cores (by decide) s _
  have hcore : (s.modCore core (Core.opened s ((j, a, q) :: ops) plane fmt)).core core = (s.core core).opened s ((j, a, q) :: ops) plane fmt :=
    State.core_modCore ..
  split
  · have hpermit := hopen.trans (((permitOps_touches _ ((j, a, q) :: ops)).mono (by decide)).trans
      (touches_modDie (by decide) _ (dieOf core) fun d => { d with account := d.account - ((((j, a, q) :: ops).length * quarterEstimate fmt : Nat) : Int) }))
    exact ⟨_, rfl, hpermit.sameMemory (by decide) (by decide) (by decide) (by decide),
      (State.core_congr ((permitOps_touches _ _).keeps .cores (by decide)) core).trans hcore⟩
  · exact ⟨_, rfl, (hopen.trans (touches_modDie (by decide) _ _ _)).sameMemory (by decide) (by decide) (by decide) (by decide), hcore⟩

/-! ## Exchanges (R182) -/

section
variable {α : Type} {d : α} {a b : Sparse α} {n w : Nat}

theorem Sparse.get_foreign (h : ∀ e ∈ b, e.1 ≠ n) : Sparse.get d b n = d := by
  induction b with
  | nil => rfl
  | cons e b ih =>
    rw [Sparse.get, if_neg (h e (by simp)).symm]
    exact ih fun e' he' => h e' (List.mem_cons_of_mem _ he')

theorem Sparse.get_append_left (h : ∀ e ∈ b, e.1 ≠ n) : Sparse.get d (a ++ b) n = Sparse.get d a n := by
  induction a with
  | nil => exact Sparse.get_foreign h
  | cons e a ih => simp only [List.cons_append, Sparse.get, ih]

theorem Sparse.get_append_right (h : ∀ e ∈ a, e.1 ≠ n) : Sparse.get d (a ++ b) n = Sparse.get d b n := by
  induction a with
  | nil => rfl
  | cons e a ih =>
    have hne : n ≠ e.1 := (h e (by simp)).symm
    rw [List.cons_append, Sparse.get, if_neg hne]
    exact ih fun e' he' => h e' (List.mem_cons_of_mem _ he')

theorem Sparse.get_filter {p : Nat → Bool} (h : p n = true) : Sparse.get d (a.filter fun e => p e.1) n = Sparse.get d a n := by
  induction a with
  | nil => rfl
  | cons e a ih =>
    rw [List.filter_cons, Sparse.get]
    by_cases hn : n = e.1
    · subst hn
      rw [if_pos h, Sparse.get, if_pos rfl, if_pos rfl]
    · rw [if_neg hn]
      split
      · rw [Sparse.get, if_neg hn, ih]
      · exact ih

/-- Entries moved to other keys, one to one. -/
theorem Sparse.get_map {f : Nat → Nat} (h : ∀ e ∈ a, f e.1 = f n → e.1 = n) : Sparse.get d (a.map fun e => (f e.1, e.2)) (f n) = Sparse.get d a n := by
  induction a with
  | nil => rfl
  | cons e a ih =>
    have ih := ih fun e' he' => h e' (List.mem_cons_of_mem _ he')
    rw [List.map_cons, Sparse.get, Sparse.get, ih]
    exact if_congr ⟨fun he => (h e (by simp) he.symm).symm, fun he => congrArg f he⟩ rfl rfl

end

/-- The word of the planes that an exchange brings to a place. -/
def exchanged (plane n : Nat) : Nat :=
  if 2 * planeWords * plane ≤ n ∧ n < 2 * planeWords * plane + planeWords then n + planeWords
  else if 2 * planeWords * plane + planeWords ≤ n ∧ n < 2 * planeWords * plane + planeWords + planeWords then n - planeWords
  else n

theorem Core.exchange_plane (c : Core) (plane n : Nat) : Sparse.get 0 (c.exchange plane).plane n = Sparse.get 0 c.plane (exchanged plane n) := by
  unfold Core.exchange exchanged planeWords
  dsimp only
  generalize hlo : 2 * 16384 * plane = lo
  have hlow : ∀ e ∈ c.plane.filter fun e => decide (e.1 < lo), e.1 < lo := fun e he => by simpa using (List.mem_filter.1 he).2
  have hsha : ∀ e ∈ (c.plane.filter fun e => decide (lo + 16384 ≤ e.1) && decide (e.1 < lo + 16384 + 16384)).map fun e => (e.1 - 16384, e.2),
      lo ≤ e.1 ∧ e.1 < lo + 16384 := fun e he => by
    obtain ⟨e', he', rfl⟩ := List.mem_map.1 he
    have := (List.mem_filter.1 he').2
    simp only [Bool.and_eq_true, decide_eq_true_eq] at this
    dsimp only
    omega
  have hact : ∀ e ∈ (c.plane.filter fun e => decide (lo ≤ e.1) && decide (e.1 < lo + 16384)).map fun e => (e.1 + 16384, e.2),
      lo + 16384 ≤ e.1 ∧ e.1 < lo + 16384 + 16384 := fun e he => by
    obtain ⟨e', he', rfl⟩ := List.mem_map.1 he
    have := (List.mem_filter.1 he').2
    simp only [Bool.and_eq_true, decide_eq_true_eq] at this
    dsimp only
    omega
  have hhigh : ∀ e ∈ c.plane.filter fun e => decide (lo + 16384 + 16384 ≤ e.1), lo + 16384 + 16384 ≤ e.1 := fun e he => by
    simpa using (List.mem_filter.1 he).2
  split
  · next hin =>
    rw [Sparse.get_append_left fun e he => by have := hhigh e he; omega, Sparse.get_append_left fun e he => by have := hact e he; omega,
      Sparse.get_append_right fun e he => by have := hlow e he; omega]
    have hmap := Sparse.get_map (d := (0 : Word)) (f := (· - 16384)) (n := n + 16384)
      (a := c.plane.filter fun e => decide (lo + 16384 ≤ e.1) && decide (e.1 < lo + 16384 + 16384)) fun e he hf => by
        have := (List.mem_filter.1 he).2
        simp only [Bool.and_eq_true, decide_eq_true_eq] at this
        omega
    rw [Nat.add_sub_cancel] at hmap
    rw [hmap, Sparse.get_filter (p := fun n => decide (lo + 16384 ≤ n) && decide (n < lo + 16384 + 16384)) (by simp; omega)]
  · split
    · next hout hin =>
      rw [Sparse.get_append_left fun e he => by have := hhigh e he; omega, Sparse.get_append_right fun e he => by
        rcases List.mem_append.1 he with he | he
        · have := hlow e he
          omega
        · have := hsha e he
          omega]
      have hmap := Sparse.get_map (d := (0 : Word)) (f := (· + 16384)) (n := n - 16384)
        (a := c.plane.filter fun e => decide (lo ≤ e.1) && decide (e.1 < lo + 16384)) fun e _ hf => by
          omega
      rw [Nat.sub_add_cancel (by omega)] at hmap
      rw [hmap, Sparse.get_filter (p := fun n => decide (lo ≤ n) && decide (n < lo + 16384)) (by simp; omega)]
    · next hact' hsha' =>
      by_cases hn : n < lo
      · rw [Sparse.get_append_left fun e he => by have := hhigh e he; omega, Sparse.get_append_left fun e he => by have := hact e he; omega,
          Sparse.get_append_left fun e he => by have := hsha e he; omega, Sparse.get_filter (p := fun n => decide (n < lo)) (by simpa using hn)]
      · rw [Sparse.get_append_right fun e he => by
          rcases List.mem_append.1 he with he | he
          · rcases List.mem_append.1 he with he | he
            · have := hlow e he
              omega
            · have := hsha e he
              omega
          · have := hact e he
            omega, Sparse.get_filter (p := fun n => decide (lo + 16384 + 16384 ≤ n)) (by simp; omega)]

theorem Core.exchange_planet (c : Core) (plane n : Nat) : Sparse.get .raw (c.exchange plane).planet n =
    if n = 2 * plane + 1 then Sparse.get .raw c.planet (2 * plane) else if n = 2 * plane then Sparse.get .raw c.planet (2 * plane + 1)
    else Sparse.get .raw c.planet n := by
  unfold Core.exchange
  dsimp only
  split
  · next h => rw [h, Sparse.get_set_same]
  · next h =>
    rw [Sparse.get_set_ne h]
    split
    · next h' => rw [h', Sparse.get_set_same]
    · next h' => exact Sparse.get_set_ne h'

/-- The buffer that an exchange brings to the place of another. -/
def exchangedBuf (plane b : Nat) : Nat := if b / 2 = plane then (if b % 2 = 0 then b + 1 else b - 1) else b

theorem exchanged_word {b w : Nat} (hw : w < 16384) : exchanged plane (16384 * b + w) = 16384 * exchangedBuf plane b + w := by
  unfold exchanged exchangedBuf planeWords
  split_ifs <;> omega

/-- A core after the exchange of a plane. -/
def Core.swapped (plane : Nat) (c : Core) : Core := { c.exchange plane with mq := c.mq.erase (.swap plane) }

theorem Core.swapped_word (c : Core) {b w : Nat} (hw : w < 16384) :
    Sparse.get 0 (c.swapped plane).plane (16384 * b + w) = Sparse.get 0 c.plane (16384 * exchangedBuf plane b + w) :=
  (Core.exchange_plane ..).trans (by rw [exchanged_word hw])

theorem Core.swapped_tag (c : Core) (b : Nat) : Sparse.get .raw (c.swapped plane).planet b = Sparse.get .raw c.planet (exchangedBuf plane b) := by
  refine (Core.exchange_planet ..).trans ?_
  split
  · next h => rw [exchangedBuf, if_pos (by omega), if_neg (by omega), h, Nat.add_sub_cancel]
  · split
    · next h => rw [exchangedBuf, if_pos (by omega), if_pos (by omega), h]
    · next h h' => rw [exchangedBuf, if_neg (by omega)]

theorem plswapExchange_next (hready : swapReady s core plane = true) :
    exec (.plswapExchange core plane) s = .next (s.modCore core (Core.swapped plane)) := by
  have hexec : exec (.plswapExchange core plane) s = execPlswapExchange core plane s := rfl
  rw [hexec, execPlswapExchange, if_pos hready]
  rfl

/-! ## Factor commands (R192, R275, R277) -/

/-- A unit that has used energy. -/
def Unit.using (e : DWord) (u : Unit) : Unit := { u with energy := e }

theorem writeHalf_using (u : Unit) (e : DWord) (o : Op) (x : ModX) (half : Nat) (r : List Nat) :
    (u.using e).writeHalf o x half r = (u.writeHalf o x half r).using e := by
  unfold Unit.writeHalf
  let put (u : Unit) (p : Nat × Nat) : Unit := u.setCell (facF64 x) (facT o + half * facHalf x) p.2 p.1
  have hput : ∀ v p, put (v.using e) p = (put v p).using e := fun v p => by
    simp only [put]
    unfold Unit.setCell
    split <;> rfl
  exact List.foldl_hom (Unit.using e) (l := r.zipIdx)
    (init := { u with acc := Sparse.clear u.acc (512 * (facT o + half * facHalf x)) (512 * (facT o + half * facHalf x + facHalf x)) }) hput

/-- A slot that has become part of a new tile. -/
def Unit.claimSlot (u : Unit) (k : Nat) : Unit := { u.setAccTag k .tri with accr := Sparse.set 0 u.accr k 0 }

/-- A unit with another factor record. -/
def Unit.setRecord (u : Unit) (k r : Nat) : Unit := { u with accr := Sparse.set 0 u.accr k r }

/-- A unit with a tile made anew (R275). -/
def Unit.makeTile (u : Unit) (o : Op) (x : ModX) (r : List Nat) : Unit :=
  ((facTile o x).foldl Unit.claimSlot (u.writeHalf o x 0 r)).setRecord (facT o) (recOf (facNc x) (facF64 x) 0)

/-- A unit whose tile's other half has been written (R275). -/
def Unit.turnTile (u : Unit) (o : Op) (x : ModX) (r : List Nat) : Unit :=
  { u.writeHalf o x (1 - u.curHalf o) r with accr := Sparse.set 0 u.accr (facT o) (u.record (facT o) + 16 - 32 * u.curHalf o) }

theorem makeTile_using (u : Unit) (e : DWord) (o : Op) (x : ModX) (r : List Nat) : (u.using e).makeTile o x r = (u.makeTile o x r).using e := by
  unfold Unit.makeTile
  rw [writeHalf_using, List.foldl_hom (Unit.using e) (g₁ := Unit.claimSlot) fun _ _ => rfl]
  rfl

theorem turnTile_using (u : Unit) (e : DWord) (o : Op) (x : ModX) (r : List Nat) : (u.using e).turnTile o x r = (u.turnTile o x r).using e := by
  have hcur : (u.using e).curHalf o = u.curHalf o := rfl
  unfold Unit.turnTile
  rw [hcur, writeHalf_using]
  rfl

/-- A commit makes a tile or turns it, and which of the two does not depend on energy. -/
theorem commitTile_cases (u : Unit) (i : Instr) (o : Op) (x : ModX) (r : List Nat) :
    ∃ fresh : Bool, ∀ e, (u.using e).commitTile i o x r = if fresh then (u.using e).makeTile o x r else (u.using e).turnTile o x r :=
  ⟨match i with | .trchol _ _ => !u.hasTile o x | _ => false, fun _ => rfl⟩

theorem commitTile_using (u : Unit) (e : DWord) (i : Instr) (o : Op) (x : ModX) (r : List Nat) :
    (u.using e).commitTile i o x r = (u.commitTile i o x r).using e := by
  obtain ⟨fresh, hfresh⟩ := commitTile_cases u i o x r
  have hself : u.commitTile i o x r = if fresh then u.makeTile o x r else u.turnTile o x r := hfresh u.energy
  rw [hfresh, hself, makeTile_using, turnTile_using]
  split <;> rfl

theorem foldl_key {α : Type} {f : Unit → α → Unit} (hf : ∀ u x, (f u x).key = u.key) (xs : List α) (u : Unit) : (xs.foldl f u).key = u.key := by
  induction xs generalizing u with
  | nil => rfl
  | cons x xs ih => exact (ih _).trans (hf u x)

theorem setCell_key (u : Unit) (f64 : Bool) (slot e v : Nat) : (u.setCell f64 slot e v).key = u.key := by
  unfold Unit.setCell
  split <;> rfl

theorem writeHalf_key (u : Unit) (o : Op) (x : ModX) (half : Nat) (r : List Nat) : (u.writeHalf o x half r).key = u.key := by
  unfold Unit.writeHalf
  exact foldl_key (f := fun u (p : Nat × Nat) => u.setCell (facF64 x) (facT o + half * facHalf x) p.2 p.1) (fun u p => setCell_key ..) r.zipIdx _

theorem commitTile_key (u : Unit) (i : Instr) (o : Op) (x : ModX) (r : List Nat) : (u.commitTile i o x r).key = u.key := by
  obtain ⟨fresh, hfresh⟩ := commitTile_cases u i o x r
  have hself : u.commitTile i o x r = if fresh then u.makeTile o x r else u.turnTile o x r := hfresh u.energy
  rw [hself]
  split
  · exact (foldl_key (f := Unit.claimSlot) (fun _ _ => rfl) _ _).trans (writeHalf_key ..)
  · exact writeHalf_key u o x (1 - u.curHalf o) r

theorem holdsData_using (u : Unit) (e : DWord) : HoldsData u (u.using e) := holdsData_of_grps rfl rfl rfl rfl

theorem chargeEnd_using (hu : s.unit? k = some u) (die est : Nat) : ∃ e, (chargeEnd s k die est).unit? k = some (u.using e) :=
  ⟨_, chargeEnd_unit hu ..⟩

/-- A factor command that runs under its permit. -/
structure Commits (m : Cmd) : Prop where
  started : m.state = .started
  permit : m.permit = true
  factor : isFactor m.ins = true

section
variable (hu : s.unit? k = some u) (hm : u.cmd? agent = some m) (hcommits : Commits m)
include hu hm hcommits

theorem factorCommandCommit_ok {r : List Nat} (hne : ∀ o x, m.ins ≠ .trsolve o x) (hres : facResult (u.seenBy m) m = some (o, x, .ok r)) :
    exec (.factorCommandCommit k agent) s =
      .next (cmdArrive ((chargeEnd s k (dieOf u.core) (factorEstimate m.ins)).modUnit k fun u => u.commitTile m.ins o x r) k agent 0) := by
  obtain ⟨hstate, hpermit, hfactor⟩ := hcommits
  have hexec : exec (.factorCommandCommit k agent) s = execFactorCommandCommit k agent s := rfl
  rw [hexec, execFactorCommandCommit, hu]
  dsimp only
  rw [hm]
  dsimp only
  rw [hstate, hpermit, hfactor, if_neg (by decide), hres]
  split
  · next o x hi => exact absurd hi (hne o x)
  · next h _ =>
    cases h
    rfl
  · next h _ => cases h
  · next h _ => cases h

theorem factorCommandCommit_error {e : FacFail} (hne : ∀ o x, m.ins ≠ .trsolve o x) (hres : facResult (u.seenBy m) m = some (o, x, .error e)) :
    exec (.factorCommandCommit k agent) s =
      .next (cmdArrive (chargeEnd s k (dieOf u.core) (factorEstimate m.ins)) k agent (e.word (facFmt x))) := by
  obtain ⟨hstate, hpermit, hfactor⟩ := hcommits
  have hexec : exec (.factorCommandCommit k agent) s = execFactorCommandCommit k agent s := rfl
  rw [hexec, execFactorCommandCommit, hu]
  dsimp only
  rw [hm]
  dsimp only
  rw [hstate, hpermit, hfactor, if_neg (by decide), hres]
  split
  · next o x hi => exact absurd hi (hne o x)
  · next h _ => cases h
  · next h _ =>
    cases h
    rfl
  · next h _ => cases h

/-- The solution that a trsolve writes. -/
def solution (u : Unit) (m : Cmd) (o : Op) (x : ModX) : List Nat :=
  solve (facFmt x) (facN x) (o.fn == 0) ((u.seenBy m).readTile o x ((u.seenBy m).curHalf o)) (m.vec.map (·.toNat))

theorem factorCommandCommit_trsolve (hi : m.ins = .trsolve o x) : ∃ f, exec (.factorCommandCommit k agent) s =
    .next (cmdArrive ((withRace (chargeEnd s k (dieOf u.core) (factorEstimate m.ins)) k f).modGrp k m.gid fun g => writeVec g o.a x (solution u m o x)) k agent 0) := by
  obtain ⟨hstate, hpermit, hfactor⟩ := hcommits
  have hexec : exec (.factorCommandCommit k agent) s = execFactorCommandCommit k agent s := rfl
  rw [hexec, execFactorCommandCommit, hu]
  dsimp only
  rw [hm]
  dsimp only
  rw [hstate, hpermit, hfactor, if_neg (by decide), hi]
  exact ⟨_, rfl⟩

end

theorem leaves_arrive (s : State) (k : UKey) (bo agent : Nat) (status : DWord) (trapf : Bool) : Leaves s (arrive s k bo agent status trapf) := by
  unfold arrive
  split
  · exact .refl s
  · exact .last (leaves_withRace ..) (leaves_modUnit _ _ _ fun _ => rfl)

theorem leaves_cmdArrive (s : State) (k : UKey) (agent : Nat) (st : DWord) : Leaves s (cmdArrive s k agent st) := by
  unfold cmdArrive
  split
  · exact .refl s
  · split
    · exact .refl s
    · dsimp only
      split
      · exact .last (leaves_dropCmd ..) (leaves_arrive ..)
      · exact leaves_dropCmd ..

theorem sameSeat_writeVec (g : Group) (a : Opd) (x : ModX) (y : List Nat) : SameSeat g (writeVec g a x y) := by
  unfold writeVec
  refine .trans ?_ (.foldl (f := fun g j => g.setVtag (vnum a + j) (facTag x)) (fun g j => ⟨rfl, rfl, rfl, rfl⟩) _ _)
  exact .foldl (fun g (p : Nat × Nat) => .foldl (f := fun g j => g.setV (vnum a + facStep x * (p.2 / 32) + j) (p.2 % 32)
    (BitVec.ofNat 32 (p.1 / 2 ^ (32 * j)))) (fun g j => ⟨rfl, rfl, rfl, rfl⟩) _ g) y.zipIdx g

/-- What a commit leaves in the unit. -/
theorem commitTile_done (hu : s.unit? k = some u) (die est : Nat) (i : Instr) (o : Op) (x : ModX) (r : List Nat) :
    ∃ v, (cmdArrive ((chargeEnd s k die est).modUnit k fun u => u.commitTile i o x r) k agent 0).unit? k = some v
      ∧ HoldsData (u.commitTile i o x r) v := by
  obtain ⟨e, he⟩ := chargeEnd_using hu die est
  have hcommit := unit?_modUnit_of he (fun u => u.commitTile i o x r) fun u h => (commitTile_key ..).trans h
  rw [commitTile_using] at hcommit
  obtain ⟨v, hv, hdata⟩ := (keepsData_cmdArrive _ k agent 0).unit k _ hcommit
  exact ⟨v, hv, (holdsData_using ..).trans hdata⟩

theorem trsolve_done {g : Group} (hu : s.unit? k = some u) (hg : u.grp? m.gid = some g) (die est : Nat) (f : Race → Race) (a : Opd) (x : ModX) (y : List Nat) :
    ∃ v h, (cmdArrive ((withRace (chargeEnd s k die est) k f).modGrp k m.gid fun g => writeVec g a x y) k agent 0).unit? k = some v
      ∧ v.grp? m.gid = some h ∧ h.v = (writeVec g a x y).v ∧ h.vt = (writeVec g a x y).vt := by
  obtain ⟨e, he⟩ := chargeEnd_using hu die est
  obtain ⟨r, hr⟩ := unit?_withRace_of he f
  have hwrite := unit?_modGrp_of hr m.gid fun g => writeVec g a x y
  have hseat : ∀ g, g.live = true → g.gid = m.gid → (writeVec g a x y).live = true ∧ (writeVec g a x y).gid = m.gid := fun g hlive hgid => by
    obtain ⟨hl, hi, -, -⟩ := sameSeat_writeVec g a x y
    exact ⟨hl.trans hlive, hi.trans hgid⟩
  have hgrp := Unit.grp?_modGrp (u := { u.using e with race := r }) (n := m.gid) (fun g => writeVec g a x y) hseat
  have hfound : ({ u.using e with race := r } : Unit).grp? m.gid = some g := hg
  rw [hfound] at hgrp
  obtain ⟨v, hv, hdata⟩ := (keepsData_cmdArrive _ k agent 0).unit k _ hwrite
  obtain ⟨h, hh, hregs⟩ := hdata.grp m.gid _ hgrp
  exact ⟨v, h, hv, hh, hregs⟩

/-! ## Permits and credits (R272, R406, R407) -/

theorem leaves_addWait (s : State) (k : UKey) : Leaves s (addWait s k) := by
  unfold addWait
  dsimp only
  split
  · exact .last (leaves_modUnit _ _ _ fun _ => rfl) (leaves_modDie ..)
  · exact leaves_modUnit _ _ _ fun _ => rfl

theorem Runs.addWait (h : Runs s k agent m) (j : UKey) : Runs (addWait s j) k agent m := by
  let waited (u : Unit) : Unit := { u with pwait := u.pwait + BitVec.ofNat 64 (Config.permitWait s.tick) }
  unfold Machine.addWait
  dsimp only
  split
  · next u _ =>
    let waited' (d : Die) : Die := { d with pwait := d.pwait + BitVec.ofNat 64 (Config.permitWait s.tick) }
    exact (h.of_units (t := s.modDie (dieOf u.core) waited') rfl).modUnit j waited fun _ => ⟨rfl, rfl⟩
  · exact h.modUnit j waited fun _ => ⟨rfl, rfl⟩

theorem State.die_modDie_ne (s : State) {n m : Nat} (f : Die → Die) (h : m ≠ n) : (s.modDie n f).die m = s.die m := Sparse.get_set_ne h

/-- What a change of one die keeps of every die. -/
theorem die_modDie_keeps {α : Type} (s : State) (n m : Nat) (f : Die → Die) (p : Die → α) (hf : ∀ d, p (f d) = p d) :
    p ((s.modDie n f).die m) = p (s.die m) := by
  by_cases h : m = n
  · subst h
    rw [State.die_modDie, hf]
  · rw [State.die_modDie_ne s f h]

theorem addWait_die (s : State) (k : UKey) (n : Nat) :
    ((addWait s k).die n).permits = (s.die n).permits ∧ ((addWait s k).die n).account = (s.die n).account := by
  unfold addWait
  dsimp only
  split
  · next u _ =>
    let waited (d : Die) : Die := { d with pwait := d.pwait + BitVec.ofNat 64 (Config.permitWait s.tick) }
    exact ⟨die_modDie_keeps s (dieOf u.core) n waited Die.permits fun _ => rfl, die_modDie_keeps s (dieOf u.core) n waited Die.account fun _ => rfl⟩
  · exact ⟨rfl, rfl⟩

theorem requestEstimate_cmd (h : Runs s k agent m) (hne : agent ≠ 32) (core : Nat) : requestEstimate s (k, agent, core) = m.estimate := by
  unfold requestEstimate
  rw [if_neg (by exact hne), h.found]

theorem permitGrant_next {core : Nat} (h : Runs s k agent m) (hgrant : nextGrant s die = some (k, agent, core)) (hne : agent ≠ 32) :
    ∃ t m', exec (.permitGrant die) s = .next t ∧ SameMemory s t ∧ Runs t k agent m' ∧ m'.permit = true
      ∧ (t.die die).permits = (s.die die).permits.filter (· != (k, agent, core)) ∧ (t.die die).account = (s.die die).account - (m.estimate : Int) := by
  have hexec : exec (.permitGrant die) s = .next (grant s die (k, agent, core)) := by
    show execPermitGrant die s = _
    rw [execPermitGrant, hgrant]
  rw [hexec, grant, requestEstimate_cmd h hne, if_neg (by exact hne)]
  dsimp only
  let paid : State := debit (s.modDie die fun d => { d with permits := d.permits.filter (· != (k, agent, core)) }) die m.estimate
  have hdie : paid.die die = { s.die die with permits := (s.die die).permits.filter (· != (k, agent, core)), account := (s.die die).account - (m.estimate : Int) } :=
    (State.die_modDie ..).trans (by rw [State.die_modDie])
  obtain ⟨u, hbegun⟩ := (h.of_units (t := paid) rfl).begin
  obtain ⟨hpermits, haccount⟩ := addWait_die (begin paid k agent) k die
  refine ⟨_, _, rfl, Leaves.sameMemory ?_, hbegun.addWait k, rfl, hpermits.trans (congrArg Die.permits hdie), haccount.trans (congrArg Die.account hdie)⟩
  exact .last (leaves_addWait ..) <| .last (leaves_begin ..) <| .last (leaves_debit ..) (leaves_modDie ..)

theorem energyIntervalCredit_next (hpower : s.powered = true) (die : Nat) : ∃ t save, exec (.energyIntervalCredit die) s = .next t ∧ SameMemory s t
    ∧ .energyIntervalCredit die ∈ t.agenda ∧ (dieCompat s die = false → save = 0)
    ∧ (t.die die).account = s.credited (s.die die).account (s.intervalShare + save) := by
  have hexec : exec (.energyIntervalCredit die) s = execEnergyIntervalCredit die s := rfl
  rw [hexec, execEnergyIntervalCredit, hpower, if_neg (by decide)]
  refine ⟨_, if dieCompat s die then Config.compatSaving s.tick else 0, rfl, ?_, State.mem_due_self .., fun h => by rw [h]; rfl, ?_⟩
  · exact Touches.sameMemory (ps := [.dies, .agenda]) (.last (.due (by decide) ..) (touches_modDie (by decide) ..)) (by decide) (by decide) (by decide)
      (by decide)
  · rw [State.die_congr (Touches.keeps (ps := [.agenda]) (.due (by decide) ..) .dies (by decide)), State.die_modDie]

/-! ## Quarter operations (R185, R263, R270) -/

theorem readRows_lanes {fmt : Nat} {ls : List Nat} {rows : List (Nat × Nat × Place)} (h : readRows s u agent m fmt ls = .ok rows) :
    rows.map (·.1) = ls := by
  induction ls generalizing rows with
  | nil =>
    cases h
    rfl
  | cons l ls ih =>
    change (match readRow s u agent m fmt l with
      | .error e => .error (e, l * rowBytes fmt)
      | .ok (v, p) => do
        let r ← readRows s u agent m fmt ls
        return (l, v, p) :: r) = Except.ok rows at h
    split at h
    · cases h
    · next v p _ =>
      cases hrest : readRows s u agent m fmt ls with
      | error e =>
        rw [hrest] at h
        cases h
      | ok r =>
        rw [hrest] at h
        cases h
        rw [List.map_cons, ih hrest]

theorem accWord_setAccWord (u : Unit) (slot w v n : Nat) :
    (u.setAccWord slot w v).accWord slot n = if n = w then v % 2 ^ 32 else u.accWord slot n := by
  unfold Unit.setAccWord Unit.accWord
  split
  · next h => rw [h, Sparse.get_set_same, BitVec.toNat_ofNat]
  · next h => rw [Sparse.get_set_ne (by omega)]

/-- The bits of a cell. -/
def cellBits (f64 : Bool) : Nat := if f64 then 64 else 32

theorem cell_setCell (u : Unit) (f64 : Bool) (slot e v n : Nat) :
    (u.setCell f64 slot e v).cell f64 slot n = if n = e then v % 2 ^ cellBits f64 else u.cell f64 slot n := by
  cases f64 with
  | false => exact accWord_setAccWord u slot e v n
  | true =>
    unfold Unit.setCell Unit.cell cellBits
    simp only [if_true, accWord_setAccWord]
    split_ifs <;> omega

/-- A cell after a list of cells has been written, which gives it one value. -/
theorem cell_foldl_setCell {f64 : Bool} {slot n v : Nat} (ps : List (Nat × Nat)) (u : Unit) (hall : ∀ p ∈ ps, p.1 = n → p.2 = v)
    (hin : (∃ p ∈ ps, p.1 = n) ∨ u.cell f64 slot n = v % 2 ^ cellBits f64) :
    (ps.foldl (fun u p => u.setCell f64 slot p.1 p.2) u).cell f64 slot n = v % 2 ^ cellBits f64 := by
  induction ps generalizing u with
  | nil =>
    rcases hin with ⟨p, hp, _⟩ | hin
    · cases hp
    · exact hin
  | cons p ps ih =>
    refine ih _ (fun q hq => hall q (List.mem_cons_of_mem _ hq)) ?_
    rw [cell_setCell]
    by_cases hp : n = p.1
    · rw [if_pos hp, hall p (by simp) hp.symm]
      exact .inr rfl
    · rw [if_neg hp]
      refine hin.imp_left fun ⟨q, hq, hqn⟩ => ?_
      rcases List.mem_cons.1 hq with rfl | hq
      · exact absurd hqn.symm hp
      · exact ⟨q, hq, hqn⟩

theorem matrixCell_congr {v : Unit} (hacc : v.acc = u.acc) (c : Core) (fmt buf : Nat) (clr : Bool) (slot r col row : Nat) :
    matrixCell v c fmt buf clr slot r col row = matrixCell u c fmt buf clr slot r col row := by
  have hword : ∀ a w, v.accWord a w = u.accWord a w := fun a w => by rw [Unit.accWord, hacc, Unit.accWord]
  have hcell : ∀ f e, v.cell f slot e = u.cell f slot e := fun f e => by simp only [Unit.cell, hword]
  simp only [matrixCell, hcell]

theorem cell_congr {v : Unit} (hacc : v.acc = u.acc) (f64 : Bool) (slot e : Nat) : v.cell f64 slot e = u.cell f64 slot e := by
  have hword : ∀ a w, v.accWord a w = u.accWord a w := fun a w => by rw [Unit.accWord, hacc, Unit.accWord]
  simp only [Unit.cell, hword]

/-- The cells that the rows of a quarter give. -/
def quarterCells (u : Unit) (c : Core) (x : ModX) (slot q : Nat) (rows : List (Nat × Nat × Place)) : List (Nat × Nat) :=
  rows.flatMap fun r => (List.range 64).map fun col =>
    (64 * (r.1 - 8 * q) + col, matrixCell u c (mmqFmt x) (2 * x.f 41 41) (x.f 40 40 == 1) slot (r.1 - 8 * q) col r.2.1)

/-- The first slot of a quarter. -/
def quarterSlot (o : Op) (x : ModX) (q : Nat) : Nat := if x.f 44 42 = 5 then o.d.code + 2 * q else o.d.code + q

theorem mmqSlots_headD (o : Op) (x : ModX) (q : Nat) : (mmqSlots o x q).headD 0 = quarterSlot o x q := by
  unfold mmqSlots quarterSlot mmqFmt
  split <;> rfl

/-- A quarter whose rows are committed. -/
def Unit.withCells (u : Unit) (f64 : Bool) (slot : Nat) (ps : List (Nat × Nat)) : Unit := ps.foldl (fun u p => u.setCell f64 slot p.1 p.2) u

theorem commitRows_eq (u : Unit) (c : Core) (o : Op) (x : ModX) (q : Nat) (rows : List (Nat × Nat × Place)) :
    commitRows u c o x q rows = (mmqSlots o x q).foldl (fun u k => u.setAccTag k (if mmqFmt x = 5 then .f64 else .f32))
      (u.withCells (mmqFmt x == 5) ((mmqSlots o x q).headD 0) (quarterCells u c x ((mmqSlots o x q).headD 0) q rows)) := rfl

theorem setCell_rest (u : Unit) (f64 : Bool) (slot e v : Nat) : ∃ acc, u.setCell f64 slot e v = { u with acc := acc } := by
  unfold Unit.setCell
  split <;> exact ⟨_, rfl⟩

theorem withCells_rest (u : Unit) (f64 : Bool) (slot : Nat) (ps : List (Nat × Nat)) : ∃ acc, u.withCells f64 slot ps = { u with acc := acc } := by
  unfold Unit.withCells
  induction ps generalizing u with
  | nil => exact ⟨u.acc, rfl⟩
  | cons p ps ih =>
    obtain ⟨acc, hset⟩ := setCell_rest u f64 slot p.1 p.2
    rw [List.foldl_cons, hset]
    exact ih _

theorem commitRows_rest (u : Unit) (c : Core) (o : Op) (x : ModX) (q : Nat) (rows : List (Nat × Nat × Place)) :
    ∃ acc acct, commitRows u c o x q rows = { u with acc := acc, acct := acct } := by
  obtain ⟨acc, hacc⟩ := withCells_rest u (mmqFmt x == 5) ((mmqSlots o x q).headD 0) (quarterCells u c x ((mmqSlots o x q).headD 0) q rows)
  rw [commitRows_eq, hacc]
  obtain ⟨acct, hacct, -⟩ := foldl_setAccTag (if mmqFmt x = 5 then .f64 else .f32) (mmqSlots o x q) { u with acc := acc }
  exact ⟨acc, acct, hacct⟩

theorem commitRows_key (u : Unit) (c : Core) (o : Op) (x : ModX) (q : Nat) (rows : List (Nat × Nat × Place)) : (commitRows u c o x q rows).key = u.key := by
  obtain ⟨acc, acct, h⟩ := commitRows_rest u c o x q rows
  rw [h]

theorem commitRows_cmd? (u : Unit) (c : Core) (o : Op) (x : ModX) (q : Nat) (rows : List (Nat × Nat × Place)) (agent : Nat) :
    (commitRows u c o x q rows).cmd? agent = u.cmd? agent := by
  obtain ⟨acc, acct, h⟩ := commitRows_rest u c o x q rows
  rw [h]
  rfl

theorem commitRows_acc (u : Unit) (c : Core) (o : Op) (x : ModX) (q : Nat) (rows : List (Nat × Nat × Place)) :
    (commitRows u c o x q rows).acc = (u.withCells (mmqFmt x == 5) (quarterSlot o x q) (quarterCells u c x (quarterSlot o x q) q rows)).acc := by
  obtain ⟨acct, hacct, -⟩ := foldl_setAccTag (if mmqFmt x = 5 then .f64 else .f32) (mmqSlots o x q)
    (u.withCells (mmqFmt x == 5) ((mmqSlots o x q).headD 0) (quarterCells u c x ((mmqSlots o x q).headD 0) q rows))
  rw [commitRows_eq, hacct, mmqSlots_headD]

/-- Each cell of a committed row is the matrix sum of its row. -/
theorem commitRows_cell {rows : List (Nat × Nat × Place)} {q : Nat} (hlanes : (rows.map (·.1)).Nodup) (hq : ∀ r ∈ rows, r.1 / 8 = q)
    {r : Nat × Nat × Place} (hr : r ∈ rows) {col : Nat} (hcol : col < 64) :
    (commitRows u c o x q rows).cell (mmqFmt x == 5) (quarterSlot o x q) (64 * (r.1 - 8 * q) + col)
      = matrixCell u c (mmqFmt x) (2 * x.f 41 41) (x.f 40 40 == 1) (quarterSlot o x q) (r.1 - 8 * q) col r.2.1 % 2 ^ cellBits (mmqFmt x == 5) := by
  have hin : (64 * (r.1 - 8 * q) + col, matrixCell u c (mmqFmt x) (2 * x.f 41 41) (x.f 40 40 == 1) (quarterSlot o x q) (r.1 - 8 * q) col r.2.1)
      ∈ quarterCells u c x (quarterSlot o x q) q rows := List.mem_flatMap.2 ⟨r, hr, List.mem_map.2 ⟨col, List.mem_range.2 hcol, rfl⟩⟩
  refine (cell_congr (commitRows_acc u c o x q rows) _ _ _).trans (cell_foldl_setCell _ u (fun p hp hpn => ?_) (.inl ⟨_, hin, rfl⟩))
  obtain ⟨r', hr', hp⟩ := List.mem_flatMap.1 hp
  obtain ⟨col', hcol', rfl⟩ := List.mem_map.1 hp
  have hcol' := List.mem_range.1 hcol'
  have hlane : r'.1 = r.1 := by
    have := hq r hr
    have := hq r' hr'
    dsimp only at hpn
    omega
  obtain rfl : r' = r := List.inj_on_of_nodup_map hlanes hr' hr hlane
  have hc : col' = col := by
    dsimp only at hpn
    omega
  rw [hc]

theorem keepsData_mmqEnd (h : statusCode m.status = 0) (s : State) (k : UKey) (agent : Nat) : KeepsData s (mmqEnd s k agent m) := by
  unfold mmqEnd
  dsimp only
  rw [h, if_neg (by simp)]
  exact keepsData_cmdArrive ..

theorem Runs.wakeUnit (h : Runs s k agent m) (j : UKey) (p : Wait → Bool) : Runs (wakeUnit s j p) k agent m := h.modUnit j _ fun _ => ⟨rfl, rfl⟩

/-- A command one of whose quarters has ended with a status. -/
def Cmd.quarterEnded (q : Nat) (st : DWord) (m : Cmd) : Cmd :=
  { m with quarters := m.quarters.erase q, status := if statusCode m.status = 0 then st else m.status }

/-- A core one of whose quarter operations has ended with a status. -/
def Core.quarterEnded (x : QOp) (st : DWord) (c : Core) : Core :=
  { c with mq := c.mq.filter (· != .quarter x.1 x.2.1 x.2.2), pass := c.pass.map fun p => { p with ops := p.ops.filter (· != x) },
           squares := if statusCode st = St.SQUARE then c.squares + 1 else c.squares }

/-- The state in which a quarter operation has left its command and its queue. -/
def quarterLeft (s : State) (core : Nat) (x : QOp) (st : DWord) : State :=
  Machine.wakeUnit ((s.modCmd x.1 x.2.1 (Cmd.quarterEnded x.2.2 st)).modCore core (Core.quarterEnded x st)) x.1 (· == .engine)

theorem Runs.quarterLeft (h : Runs s k agent m) (core q : Nat) (st : DWord) : Runs (quarterLeft s core (k, agent, q) st) k agent (m.quarterEnded q st) :=
  (Runs.of_units (t := (s.modCmd k agent (Cmd.quarterEnded q st)).modCore core (Core.quarterEnded (k, agent, q) st)) (h.modCmd _) rfl).wakeUnit k _

theorem keepsData_quarterLeft (s : State) (core : Nat) (x : QOp) (st : DWord) : KeepsData s (quarterLeft s core x st) :=
  .last (keepsData_wakeUnit ..) <| .last (keepsData_modCore ..) (keepsData_modCmd ..)

theorem statusCode_zero : statusCode 0 = 0 := rfl

/-- A quarter operation that ends well leaves accumulators and registers alone. -/
theorem keepsData_quarterDone (hrun : Runs s k agent m) (h : statusCode m.status = 0) (core q : Nat) : KeepsData s (quarterDone s core (k, agent, q) 0) := by
  have hleft := (hrun.quarterLeft core q 0).found
  have hstatus : statusCode (m.quarterEnded q 0).status = 0 := by
    rw [Cmd.quarterEnded, if_pos h, statusCode_zero]
  obtain ⟨t, ht, hdone⟩ : ∃ t, KeepsData s t ∧ quarterDone s core (k, agent, q) 0 = match (t.core core).pass with
      | some p => if p.ops.isEmpty then passEnd t core else t
      | none => t := by
    refine ⟨match ((quarterLeft s core (k, agent, q) 0).unit? k).bind fun u => u.cmd? agent with
      | some m => if m.quarters.isEmpty then mmqEnd (quarterLeft s core (k, agent, q) 0) k agent m else quarterLeft s core (k, agent, q) 0
      | none => quarterLeft s core (k, agent, q) 0, ?_, rfl⟩
    rw [hleft]
    exact .last (.ite (keepsData_mmqEnd hstatus ..) (.refl _)) (keepsData_quarterLeft ..)
  rw [hdone]
  split
  · exact .last (.ite (keepsData_passEnd ..) (.refl _)) ht
  · exact ht

/-- The state in which a quarter operation has read its rows. -/
def rowsNoted (s : State) (k : UKey) (agent : Nat) (x : ModX) (rows : List (Nat × Nat × Place)) : State :=
  rows.foldl (fun s r => engNote s k agent r.2.2 (rowBytes (mmqFmt x)) {}) s

theorem raceOnly_rowsNoted (s : State) (k : UKey) (agent : Nat) (x : ModX) (rows : List (Nat × Nat × Place)) : RaceOnly s (rowsNoted s k agent x rows) :=
  .foldl (fun s (r : Nat × Nat × Place) => raceOnly_engNote s k agent r.2.2 (rowBytes (mmqFmt x)) {}) rows s

theorem quarterHeld_ok (h : statusCode m.status = 0) : quarterHeld u m 0 = false := by
  rw [quarterHeld, statusCode_zero, h]
  simp

theorem quarterOperationCommit_eq {core q : Nat} {p : Pass} {ops : List QOp} {rows : List (Nat × Nat × Place)} (hu : s.unit? k = some u)
    (hm : u.cmd? agent = some m) (hpass : (s.core core).pass = some p) (hpermit : p.permit = true) (hops : p.ops = (k, agent, q) :: ops)
    (hins : m.ins = .mmq o x) (hstatus : statusCode m.status = 0)
    (hrows : readRows s u agent m (mmqFmt x) ((lanesOf m.exec).filter fun l => l / 8 == q) = .ok rows) :
    exec (.quarterOperationCommit core none) s =
      .next (quarterDone ((rowsNoted s k agent x rows).modUnit k fun u => commitRows u (s.core core) o x q rows) core (k, agent, q) 0) := by
  have hexec : exec (.quarterOperationCommit core none) s = execQuarterOperationCommit core none s := rfl
  rw [hexec, execQuarterOperationCommit]
  dsimp only
  rw [hpass]
  dsimp only
  rw [hpermit, hops]
  dsimp only
  rw [hu]
  dsimp only
  rw [hm]
  dsimp only
  rw [hins]
  dsimp only
  rw [hrows]
  have hheld : quarterHeld u m (quarterStatus (s.core core) (.ok rows) none) = false := quarterHeld_ok hstatus
  rw [if_neg (by simp), if_neg (by rw [hheld]; decide)]
  rfl

theorem quarterOperationCommit_next {core q : Nat} {p : Pass} {ops : List QOp} {rows : List (Nat × Nat × Place)} (hu : s.unit? k = some u)
    (hm : u.cmd? agent = some m) (hpass : (s.core core).pass = some p) (hpermit : p.permit = true) (hops : p.ops = (k, agent, q) :: ops)
    (hins : m.ins = .mmq o x) (hstatus : statusCode m.status = 0)
    (hrows : readRows s u agent m (mmqFmt x) ((lanesOf m.exec).filter fun l => l / 8 == q) = .ok rows) :
    ∃ t u', exec (.quarterOperationCommit core none) s = .next t ∧ t.unit? k = some u' ∧ ∀ r ∈ rows, ∀ col < 64,
      u'.cell (mmqFmt x == 5) (quarterSlot o x q) (64 * (r.1 - 8 * q) + col)
        = matrixCell u (s.core core) (mmqFmt x) (2 * x.f 41 41) (x.f 40 40 == 1) (quarterSlot o x q) (r.1 - 8 * q) col r.2.1 % 2 ^ cellBits (mmqFmt x == 5) := by
  obtain ⟨race, hnoted⟩ := (raceOnly_rowsNoted s k agent x rows).unit k u hu
  let v : Unit := { u with race := race }
  have hcommit := unit?_modUnit_of hnoted (fun u => commitRows u (s.core core) o x q rows) fun u h => (commitRows_key ..).trans h
  have hcmds : (commitRows v (s.core core) o x q rows).cmd? agent = some m := (commitRows_cmd? ..).trans hm
  obtain ⟨w, hw, hdata⟩ := (keepsData_quarterDone (runs_of hcommit hcmds) hstatus core q).unit k _ hcommit
  have hlanes := readRows_lanes hrows
  refine ⟨_, w, quarterOperationCommit_eq hu hm hpass hpermit hops hins hstatus hrows, hw, fun r hr col hcol => ?_⟩
  have hnodup : (rows.map (·.1)).Nodup := hlanes ▸ ((lanesOf_sorted m.exec).imp fun h => Nat.ne_of_lt h).filter _
  have hq : ∀ r ∈ rows, r.1 / 8 = q := fun r hr => by
    have hmem : r.1 ∈ (lanesOf m.exec).filter fun l => l / 8 == q := hlanes ▸ List.mem_map_of_mem hr
    simpa using (List.mem_filter.1 hmem).2
  exact (cell_congr hdata.acc ..).trans ((commitRows_cell hnodup hq hr hcol).trans (congrArg (· % _) (matrixCell_congr (u := u) (v := v) rfl ..)))

end Sys2Proof.Machine

section
open Sys2Proof Sys2Proof.Machine Sys2Proof.Claims

/-- Settles O44: each step is followed through what it does to the one command, core, unit or die it is about; everything else it calls
leaves accumulators, registers and memory alone. -/
theorem engineSteps : Obligations.EngineSteps := by
  unfold Obligations.EngineSteps
  intro s k u agent m hu hm command
  refine ⟨fun hstart hstream => ?_, fun core op ops plane fmt hpass hnew hshape => ?_,
    fun core p q ops o x rows hpass hpermit hops hins hstatus hrows => ?_, fun core plane hplane hready => ?_,
    fun o x y hstate hpermit hfactor hne => ⟨fun hres => ?_, fun e hres => ?_⟩, ?_, fun die hgrant hne => ?_, fun die hpower => ?_⟩
  · obtain ⟨t, m', hexec, hmem, ⟨u', hu', hm'⟩, hstate, hins, hpermit⟩ := engineCommandStart_next hu hm hstart hstream
    exact ⟨t, hexec, hmem, u', m', hu', hm', hstate, hins, hpermit⟩
  · obtain ⟨t, hexec, hmem, hcore⟩ := matrixPassOpen_next hpass hnew hshape
    exact ⟨t, _, hexec, hmem, by rw [hcore]; rfl, rfl, rfl, rfl, by rw [hcore]; rfl⟩
  · obtain ⟨t, u', hexec, hu', hcells⟩ := quarterOperationCommit_next hu hm hpass hpermit hops hins hstatus hrows
    refine ⟨t, u', hexec, hu', fun r hr col hcol => ?_⟩
    have hfmt : (mmqFmt x == 5) = decide (x.f 44 42 = 5) := rfl
    have hbits : cellBits (mmqFmt x == 5) = if x.f 44 42 = 5 then 64 else 32 := by simp [hfmt, cellBits]
    exact hbits ▸ hcells r hr col hcol
  · refine ⟨_, plswapExchange_next hready, ?_, by rw [State.core_modCore]; rfl, ?_⟩
    · exact (leaves_modCore s core (Core.swapped plane) fun _ => rfl).sameMemory
    · intro word tag b _ b'
      simp only [tag, word, State.core_modCore]
      exact ⟨Core.swapped_tag .., fun w hw => Core.swapped_word _ hw⟩
  · obtain ⟨v, hv, hdata⟩ := commitTile_done (agent := agent) hu (dieOf u.core) (factorEstimate m.ins) m.ins o x y
    refine ⟨_, v, factorCommandCommit_ok hu hm ⟨hstate, hpermit, hfactor⟩ hne hres, hv, ?_, hdata.acc, hdata.acct, hdata.accr⟩
    exact Leaves.sameMemory <| .last (leaves_cmdArrive ..) <| .last (leaves_modUnit _ _ _ fun _ => commitTile_key ..) (leaves_chargeEnd ..)
  · obtain ⟨v, hv, hdata⟩ := (KeepsData.last (keepsData_cmdArrive _ k agent (e.word (facFmt x)))
      (keepsData_chargeEnd s k (dieOf u.core) (factorEstimate m.ins))).unit k u hu
    refine ⟨_, v, factorCommandCommit_error hu hm ⟨hstate, hpermit, hfactor⟩ hne hres, hv, ?_, hdata.acc, hdata.acct, hdata.accr⟩
    exact Leaves.sameMemory <| .last (leaves_cmdArrive ..) (leaves_chargeEnd ..)
  · intro o x g hstate hpermit hins hg y
    obtain ⟨f, hexec⟩ := factorCommandCommit_trsolve hu hm ⟨hstate, hpermit, by rw [hins]; rfl⟩ hins
    obtain ⟨v, h, hv, hh, hregs⟩ := trsolve_done (agent := agent) hu hg (dieOf u.core) (factorEstimate m.ins) f o.a x (solution u m o x)
    refine ⟨_, v, h, hexec, ?_, hv, hh, hregs⟩
    exact Leaves.sameMemory <| .last (leaves_cmdArrive ..) <| .last (leaves_modUnit _ _ _ fun _ => rfl) <| .last (leaves_withRace ..) (leaves_chargeEnd ..)
  · obtain ⟨t, m', hexec, hmem, ⟨u', hu', hm'⟩, hpermit, hdie⟩ := permitGrant_next (runs_of hu hm) hgrant hne
    exact ⟨t, hexec, hmem, ⟨u', m', hu', hm', hpermit⟩, hdie⟩
  · obtain ⟨t, save, hexec, hmem, hagenda, hsave, haccount⟩ := energyIntervalCredit_next hpower die
    exact ⟨t, save, hexec, hmem, hagenda, hsave, haccount⟩

end
end

section
/-! PROOFS. The fabric: how messages leave, and how requests of other modules and of this one are served (R385 to R393, R405). -/

namespace Sys2Proof.Machine
open Sys2Proof.Claims

variable {s t x y : State} {k : UKey} {u : Unit} {m : Cmd} {r : FabReq} {c : Ctx} {h : Handle}

/-! ## Ports and routes (R388, R389) -/

/-- What routes and credit look at in a port. -/
def Port.credit (q : Port) : Nat × (Nat × Nat) × Nat × Nat := (q.rate, (q.req.sent, q.req.peerFreed), q.rep.sent, q.rep.peerFreed)

/-- From a state to another with the same routes and credit, and nothing more in transit. -/
structure SameRoutes (s t : State) : Prop where
  routes : t.routes = s.routes
  transit : t.transit = s.transit
  ports : ∀ p : Nat, (t.ports[p]?).map Port.credit = (s.ports[p]?).map Port.credit

theorem sameRoutes_of_touches {ps : List Part} (h : Touches ps s t) (hports : Part.ports ∉ ps) (htransit : Part.transit ∉ ps)
    (hroutes : Part.routes ∉ ps) : SameRoutes s t where
  routes := h.keeps .routes hroutes
  transit := h.keeps .transit htransit
  ports p := by
    have heq : t.ports = s.ports := h.keeps .ports hports
    rw [heq]

theorem SameRoutes.refl (s : State) : SameRoutes s s := ⟨rfl, rfl, fun _ => rfl⟩

theorem SameRoutes.trans (h : SameRoutes s t) (h' : SameRoutes t x) : SameRoutes s x :=
  ⟨h'.routes.trans h.routes, h'.transit.trans h.transit, fun p => (h'.ports p).trans (h.ports p)⟩

theorem SameRoutes.rate (h : SameRoutes s t) (p : Nat) : (t.ports[p]?).map Port.rate = (s.ports[p]?).map Port.rate := by
  have hmap := congrArg (Option.map Prod.fst) (h.ports p)
  rwa [Option.map_map, Option.map_map] at hmap

theorem State.ports_modPort (s : State) (p i : Nat) (f : Port → Port) :
    (s.modPort p f).ports[i]? = (s.ports[i]?).map fun q => if i = p then f q else q := by
  simp [State.modPort, List.getElem?_map, List.getElem?_zipIdx, Function.comp_def]

theorem sameRoutes_freed (s : State) (port : Option Nat) (rep : Bool) (n : Nat) : SameRoutes s (freed s port rep n) := by
  unfold freed
  split
  · exact .refl s
  · next p =>
    refine ⟨rfl, rfl, fun i => ?_⟩
    rw [State.ports_modPort, Option.map_map]
    congr 1
    funext q
    simp only [Function.comp]
    split
    · cases rep <;> rfl
    · rfl

/-- Whether the port of a number is up. -/
def portUp (s : State) (p : Nat) : Bool := match s.ports[p]? with | some q => q.rate != 0 | none => false

theorem SameRoutes.portUp (h : SameRoutes s t) (p : Nat) : portUp t p = portUp s p := by
  have hrate := h.rate p
  unfold Machine.portUp
  cases ht : t.ports[p]? <;> cases hs : s.ports[p]? <;> simp_all

theorem State.routePort_eq (s : State) (dst : Nat) : s.routePort dst =
    if portUp s (bits (Sparse.get 0 s.routes dst) 20 16) then some (bits (Sparse.get 0 s.routes dst) 20 16)
    else if portUp s (bits (Sparse.get 0 s.routes dst) 12 8) then some (bits (Sparse.get 0 s.routes dst) 12 8) else none := rfl

theorem SameRoutes.routePort (h : SameRoutes s t) (dst : Nat) : t.routePort dst = s.routePort dst := by
  rw [State.routePort_eq, State.routePort_eq, h.routes]
  simp only [h.portUp]

theorem routePort_port {p dst : Nat} (h : s.routePort dst = some p) : ∃ q, s.ports[p]? = some q := by
  have hup : portUp s p = true := by
    rw [State.routePort_eq] at h
    split at h
    · next hup =>
      cases h
      exact hup
    · split at h
      · next hup =>
        cases h
        exact hup
      · cases h
  unfold portUp at hup
  split at hup
  · next q hq => exact ⟨q, hq⟩
  · cases hup

/-- The channel of requests, or of replies, of a port of the module. -/
def State.chan (s : State) (p : Nat) (rep : Bool) : Chan := (s.ports.getD p .start).chan rep

theorem SameRoutes.chan (h : SameRoutes s t) (p : Nat) (rep : Bool) :
    (t.chan p rep).sent = (s.chan p rep).sent ∧ (t.chan p rep).allowance = (s.chan p rep).allowance := by
  have hport := h.ports p
  unfold State.chan
  rw [List.getD_eq_getElem?_getD, List.getD_eq_getElem?_getD]
  cases ht : t.ports[p]? <;> cases hs : s.ports[p]? <;> rw [ht, hs] at hport
  · exact ⟨rfl, rfl⟩
  · cases hport
  · cases hport
  · simp only [Option.map_some, Option.some.injEq, Port.credit, Prod.mk.injEq] at hport
    obtain ⟨-, ⟨hreq, hreqFreed⟩, hrep, hrepFreed⟩ := hport
    cases rep
    · exact ⟨hreq, by simp [Port.chan, Chan.allowance, hreq, hreqFreed]⟩
    · exact ⟨hrep, by simp [Port.chan, Chan.allowance, hrep, hrepFreed]⟩

theorem chan_modPort_same {p : Nat} {q : Port} (hq : s.ports[p]? = some q) (rep : Bool) (f : Chan → Chan) :
    (s.modPort p fun q => q.modChan rep f).chan p rep = f (s.chan p rep) := by
  unfold State.chan
  rw [List.getD_eq_getElem?_getD, List.getD_eq_getElem?_getD, State.ports_modPort, hq, Option.map_some, if_pos rfl]
  cases rep <;> rfl

/-! ## Messages leave (R388, R389) -/

/-- A message leaves, by the parts of it that matter. -/
def leaveAs (s : State) (msg : FabMsg) (dst : Nat) (port : Option Nat) (rep : Bool) (n : Nat) : State :=
  match (s.routePort dst).bind fun p => cross s p rep (flits n) with
  | some s => freed s port rep n
  | none => { s with transit := s.transit ++ [msg] }

theorem leave_req (s : State) (r : FabReq) : leave s (.req r) = leaveAs s (.req r) r.dst r.port false r.data.length := rfl

theorem leave_rep (s : State) (r : FabReply) : leave s (.rep r) = leaveAs s (.rep r) r.dest r.port true r.data.length := rfl

theorem cross_none {p n : Nat} {rep : Bool} (hcredit : (s.chan p rep).allowance < n) : cross s p rep n = none := if_pos hcredit

theorem cross_some {p n : Nat} {rep : Bool} (hcredit : n ≤ (s.chan p rep).allowance) :
    cross s p rep n = some (s.modPort p fun q => q.modChan rep fun c => { c with sent := (c.sent + n) % 2 ^ 32 }) :=
  if_neg (Nat.not_lt.2 hcredit)

theorem leaveAs_leaves (hx : SameRoutes s x) (msg : FabMsg) (dst : Nat) (port : Option Nat) (rep : Bool) (n : Nat) :
    Claims.Leaves s (leaveAs x msg dst port rep n) msg dst rep n := by
  refine ⟨fun hnone => ?_, fun p hp => ⟨fun hcredit => ?_, fun hcredit => ?_⟩⟩
  · rw [leaveAs, hx.routePort, hnone, ← hx.transit]
    rfl
  · have hcross : cross x p rep (flits n) = none := cross_none ((hx.chan p rep).2 ▸ hcredit)
    rw [leaveAs, hx.routePort, hp, Option.bind_some, hcross, ← hx.transit]
  · have hcross := cross_some (s := x) (p := p) (rep := rep) ((hx.chan p rep).2 ▸ hcredit : flits n ≤ _)
    have hport := routePort_port ((hx.routePort dst).trans hp)
    obtain ⟨q, hq⟩ := hport
    rw [leaveAs, hx.routePort, hp, Option.bind_some, hcross]
    have hfreed := sameRoutes_freed (x.modPort p fun q => q.modChan rep fun c => { c with sent := (c.sent + flits n) % 2 ^ 32 }) port rep n
    refine ⟨hfreed.transit.trans hx.transit, (hfreed.chan p rep).1.trans ?_⟩
    rw [chan_modPort_same hq]
    exact congrArg (fun sent => (sent + flits n) % 2 ^ 32) (hx.chan p rep).1

/-- The fields that a message which leaves may change. -/
def leaveParts : List Part := [.ports, .transit]

theorem touches_freed (s : State) (port : Option Nat) (rep : Bool) (n : Nat) : Touches leaveParts s (freed s port rep n) := by
  unfold freed
  split
  · exact .refl _ s
  · exact .ports (by decide) s _

theorem touches_leaveAs (s : State) (msg : FabMsg) (dst : Nat) (port : Option Nat) (rep : Bool) (n : Nat) :
    Touches leaveParts s (leaveAs s msg dst port rep n) := by
  obtain ⟨f, hf⟩ : ∃ f, cross s = f := ⟨_, rfl⟩
  obtain ⟨o, ho⟩ : ∃ o, s.routePort dst = o := ⟨_, rfl⟩
  have hcross : ∀ p b n t, f p b n = some t → Touches [.ports] s t := fun _ _ _ _ h => touches_cross (hf ▸ h)
  unfold leaveAs
  rw [hf, ho]
  cases o with
  | none => exact .transit (by decide) s _
  | some p =>
    rw [Option.bind_some]
    split
    · next h => exact .last (touches_freed ..) ((hcross _ _ _ _ h).mono (by decide))
    · exact .transit (by decide) s _

theorem touches_leave (s : State) (msg : FabMsg) : Touches leaveParts s (leave s msg) := by
  cases msg with
  | req r => exact leave_req s r ▸ touches_leaveAs ..
  | rep r => exact leave_rep s r ▸ touches_leaveAs ..

/-! ## Answers (R389, R392) -/

/-- The fields that an answer may change. -/
def answerParts : List Part := [.agenda, .seen, .ports, .transit]

theorem touches_sendReply (s : State) (by_ srcMod srcFn id code : Nat) (data : List Byte) (race : Bool) (bad : List Nat) :
    Touches answerParts s (sendReply s by_ srcMod srcFn id code data race bad) := by
  unfold sendReply
  exact (Touches.due (by decide) ..).ite ((touches_leave ..).mono (by decide))

theorem touches_fabAnswer (s : State) (srcMod srcFn id code : Nat) (data : List Byte) (race : Bool) (bad : List Nat) :
    Touches answerParts s (fabAnswer s srcMod srcFn id code data race bad) :=
  .last (touches_sendReply ..) (.seen (by decide) s _)

theorem sendReply_answered (hx : SameRoutes s x) (hident : x.ident = s.ident) (by_ code : Nat) (data : List Byte) :
    Answered s (sendReply x by_ r.srcMod r.srcFn r.id code data) r by_ code data := by
  unfold sendReply
  refine ⟨fun hhere => ?_, fun hthere => ?_⟩
  · rw [if_pos (hhere.trans hident.symm)]
    exact State.mem_due_self ..
  · rw [if_neg fun h => hthere (h.trans hident)]
    exact leaveAs_leaves hx ..

theorem fabAnswer_answered (hx : SameRoutes s x) (hident : x.ident = s.ident) (code : Nat) (data : List Byte) :
    Answered s (fabAnswer x r.srcMod r.srcFn r.id code data) r s.ident code data := by
  unfold fabAnswer
  have hseen : ∀ e, SameRoutes x (x.setSeen e) := fun e =>
    sameRoutes_of_touches (Touches.seen (ps := [.seen]) (by decide) x _) (by decide) (by decide) (by decide)
  rw [hident]
  exact sendReply_answered (hx.trans (hseen _)) hident ..

/-! ## Requests that are let through (R392) -/

/-- The state in which a request has come through its port and the filter has forgotten what lies below its LOWACK. -/
def received (s : State) (r : FabReq) : State :=
  { freed s r.port false r.data.length with
    lowack := Sparse.set 0 s.lowack (srcKey r.srcMod r.srcFn) r.lowack,
    seen := s.seen.filter fun x => !((x.srcMod == r.srcMod && x.srcFn == r.srcFn) && belowAck x.id r.lowack) }

/-- The fields that the filter may change. -/
def receivedParts : List Part := [.ports, .transit, .lowack, .seen]

theorem received_touches (s : State) (r : FabReq) : Touches receivedParts s (received s r) := by
  refine .last (t := freed s r.port false r.data.length) ⟨fun p hp => ?_⟩ ((touches_freed ..).mono (by decide))
  cases p
  case lowack | seen => exact absurd (by decide) hp
  all_goals rfl

theorem received_routes (s : State) (r : FabReq) : SameRoutes s (received s r) := by
  have hfreed := sameRoutes_freed s r.port false r.data.length
  exact ⟨hfreed.routes, hfreed.transit, hfreed.ports⟩

/-- The answer that the cache holds for a request. -/
def State.known (s : State) (r : FabReq) : Option Seen := s.seen.find? fun x => (x.srcMod == r.srcMod && x.srcFn == r.srcFn) && x.id == r.id

/-- A request that is let through for this module. -/
structure Passes (s : State) (r : FabReq) : Prop where
  here : s.moduleOf r.dst = s.ident
  id : belowAck r.id r.lowack = false
  low : belowAck r.lowack (Sparse.get 0 s.lowack (srcKey r.srcMod r.srcFn)) = false

theorem find?_filter_sub {α : Type} {p q : α → Bool} (h : ∀ a, p a = true → q a = true) (as : List α) : (as.filter q).find? p = as.find? p := by
  induction as with
  | nil => rfl
  | cons a as ih =>
    rw [List.filter_cons, List.find?_cons]
    by_cases hp : p a = true
    · rw [if_pos (h a hp), List.find?_cons, hp]
    · have hp : p a = false := by simpa using hp
      rw [hp]
      split
      · rw [List.find?_cons, hp]
        exact ih
      · exact ih

theorem received_known (hp : Passes s r) : (received s r).known r = s.known r := by
  refine find?_filter_sub (fun e he => ?_) s.seen
  obtain ⟨hmine, hid⟩ := Bool.and_eq_true_iff.1 he
  have hid : e.id = r.id := by simpa using hid
  rw [hid, hp.id, Bool.and_false]
  rfl

theorem touches_freed_ports (s : State) (port : Option Nat) (rep : Bool) (n : Nat) : Touches [.ports] s (freed s port rep n) := by
  unfold freed
  split
  · exact .refl _ s
  · exact .ports (by decide) s _

theorem fabricRequest_eq (hp : Passes s r) : exec (.fabricRequest r) s = .next (match s.known r with
    | none => performReq (received s r) r
    | some x => if !x.done then received s r else match r.kind with
      | .read => performReq (received s r) r
      | _ => sendReply (received s r) (received s r).ident r.srcMod r.srcFn r.id x.code x.data) := by
  have hexec : exec (.fabricRequest r) s = execFabricRequest r s := rfl
  rw [hexec, execFabricRequest, if_pos hp.here]
  obtain ⟨y, hy⟩ : ∃ y, freed s r.port false r.data.length = y := ⟨_, rfl⟩
  have hlow : y.lowack = s.lowack := hy ▸ (touches_freed_ports s r.port false r.data.length).keeps .lowack (by decide)
  have hseen : y.seen = s.seen := hy ▸ (touches_freed_ports s r.port false r.data.length).keeps .seen (by decide)
  have hreceived : received s r = { y with
      lowack := Sparse.set 0 y.lowack (srcKey r.srcMod r.srcFn) r.lowack,
      seen := y.seen.filter fun x => !((x.srcMod == r.srcMod && x.srcFn == r.srcFn) && belowAck x.id r.lowack) } := by
    rw [hlow, hseen, ← hy]
    rfl
  rw [← received_known hp, hreceived, hy, serveReq]
  dsimp only
  simp only [hlow, hp.low, hp.id, Bool.false_eq_true, if_false] <;> rfl

theorem fabricRequest_new (hp : Passes s r) (hnew : s.known r = none) : exec (.fabricRequest r) s = .next (performReq (received s r) r) := by
  rw [fabricRequest_eq hp, hnew]

theorem fabricRequest_pending {e : Seen} (hp : Passes s r) (hknown : s.known r = some e) (hdone : e.done = false) :
    exec (.fabricRequest r) s = .next (received s r) := by
  rw [fabricRequest_eq hp, hknown]
  dsimp only
  rw [hdone, if_pos (by decide)]

theorem fabricRequest_again {e : Seen} (hp : Passes s r) (hknown : s.known r = some e) (hdone : e.done = true) (hread : r.kind ≠ .read) :
    exec (.fabricRequest r) s = .next (sendReply (received s r) (received s r).ident r.srcMod r.srcFn r.id e.code e.data) := by
  rw [fabricRequest_eq hp, hknown]
  dsimp only
  rw [hdone, if_neg (by decide)]
  split
  · next h => exact absurd h hread
  · rfl

/-! ## Memory of handles (R390) -/

theorem Touches.handle? {ps : List Part} (h : Touches ps s t) (hfuncs : Part.funcs ∉ ps) (w : DWord) : t.handle? w = s.handle? w := by
  rw [State.handle?, State.func_congr (h.keeps .funcs hfuncs), State.handle?]

theorem received_handle? (s : State) (r : FabReq) (w : DWord) : (received s r).handle? w = s.handle? w :=
  (received_touches s r).handle? (by decide) w

theorem received_ctx? (s : State) (r : FabReq) (id : Nat) : (received s r).ctx? id = s.ctx? id :=
  State.ctx?_congr ((received_touches s r).keeps .ctxs (by decide)) id

theorem received_who (s : State) (r : FabReq) : (received s r).who r = s.who r := by
  have hreqs : (received s r).outReqs = s.outReqs := (received_touches s r).keeps .outReqs (by decide)
  have hident : (received s r).ident = s.ident := (received_touches s r).keeps .ident (by decide)
  rw [State.who, hreqs, hident, State.who]

/-- What a translation looks at is left alone by a change of other fields. -/
theorem Touches.tables {ps : List Part} (h : Touches ps s t)
    (hps : ∀ p ∈ [Part.hbm, .pool, .host, .vaults, .cores, .pools, .poolUp, .marks, .tick], p ∉ ps) : SameTables s t where
  rd := h.rd (hps _ (by decide)) (hps _ (by decide)) (hps _ (by decide)) (hps _ (by decide))
  tlb n := by rw [State.core_congr (h.keeps .cores (hps _ (by decide)))]
  pools := h.keeps .pools (hps _ (by decide))
  poolUp := h.keeps .poolUp (hps _ (by decide))
  marks := h.keeps .marks (hps _ (by decide))
  tick := h.keeps .tick (hps _ (by decide))

theorem SameTables.sysPlace (h : SameTables s t) (va n : Nat) (write : Bool) : sysPlace t c va n write = sysPlace s c va n write := by
  unfold Machine.sysPlace
  simp only [h.landOrd (.refl c)]

theorem servePlace_none (va n : Nat) (att : Att) (reads : Bool) {p : Place} (hplace : sysPlace s c va n att.write = .ok p)
    (hgood : reads = true → s.spoilt p.sp p.a n = false) : servePlace s none c va n att reads = .ok p := by
  unfold servePlace
  rw [hplace]
  cases reads with
  | false => rfl
  | true => simp [hgood rfl]

theorem spoilt_le {sp a n m : Nat} (hn : n ≤ m) (h : s.spoilt sp a m = false) : s.spoilt sp a n = false := by
  unfold State.spoilt at h ⊢
  obtain ⟨hmarks, hpool⟩ := Bool.or_eq_false_iff.1 h
  refine Bool.or_eq_false_iff.2 ⟨?_, ?_⟩
  · unfold State.marked at hmarks ⊢
    rw [List.any_eq_false] at hmarks ⊢
    intro e he hmem
    refine hmarks e he ?_
    simp only [Bool.and_eq_true, decide_eq_true_eq] at hmem ⊢
    exact ⟨⟨hmem.1.1, by omega⟩, hmem.2⟩
  · rw [Bool.and_eq_false_iff] at hpool ⊢
    refine hpool.imp_right fun hlines => ?_
    rw [List.any_eq_false] at hlines ⊢
    intro l hl
    refine hlines l ?_
    unfold linesAt at hl ⊢
    rw [List.mem_map] at hl ⊢
    obtain ⟨i, hi, rfl⟩ := hl
    rw [List.mem_range] at hi
    refine ⟨i, List.mem_range.2 ?_, rfl⟩
    have : (a + n - 1) / 64 ≤ (a + m - 1) / 64 := Nat.div_le_div_right (by omega)
    omega

/-- A byte of a context that a reply may carry, `n` more bytes of its command coming with it: where it lies. -/
structure Readable (s : State) (c : Ctx) (va n : Nat) (p : Place) : Prop where
  place : sysPlace s c va 1 false = .ok p
  good : s.spoilt p.sp p.a (inBlock p.a n) = false
  crc : p.sp % 3 = 0 → Sparse.get false s.badCrc (crcKey p.sp p.a) = false

theorem serveRead_ok {rest va n : Nat} {p : Nat → Place} (out : Bool) (h : ∀ i < n, Readable s c (va + i) (n - i + rest) (p i)) :
    serveRead none out c rest va n s = (s, (List.range n).map fun i => ((p i).sp, (p i).a), none) := by
  induction n generalizing va p with
  | zero => rfl
  | succ n ih =>
    obtain ⟨hplace, hgood, hcrc⟩ := h 0 (by omega)
    have hone : s.spoilt (p 0).sp (p 0).a 1 = false := spoilt_le (by unfold inBlock; omega) hgood
    have hserve := servePlace_none va 1 {} true hplace fun _ => hone
    have hrest := ih (va := va + 1) (p := fun i => p (i + 1)) fun i hi => by
      have hi' := h (i + 1) (by omega)
      rwa [show va + (i + 1) = va + 1 + i by omega, show n + 1 - (i + 1) = n - i by omega] at hi'
    have hout : (out && decide ((p 0).sp % 3 = 0) && Sparse.get false s.badCrc (crcKey (p 0).sp (p 0).a)) = false := by
      by_cases hsp : (p 0).sp % 3 = 0
      · rw [hcrc hsp, Bool.and_false]
      · simp [hsp]
    rw [serveRead, hserve]
    dsimp only
    rw [if_neg (by rw [Nat.sub_zero] at hgood; simp [hgood]), if_neg (by simp [hout])]
    have hnote : Who.note none s (p 0) 1 {} = s := rfl
    rw [hnote, hrest, List.range_succ_eq_map, List.map_cons, List.map_map]
    rfl

theorem badBlocks_nil {ps : List (Nat × Nat)} (h : ∀ x ∈ ps, x.1 % 3 = 0 → Sparse.get false s.badCrc (crcKey x.1 x.2) = false) :
    badBlocks s ps = [] := by
  unfold badBlocks
  split
  · rfl
  · refine List.filter_eq_nil_iff.2 fun i hi => ?_
    cases hx : ps[i]? with
    | none => simp
    | some x =>
      have hmem : x ∈ ps := List.mem_of_getElem? hx
      by_cases hsp : x.1 % 3 = 0
      · simp [h x hmem hsp]
      · simp [blockAt, hx, hsp]

theorem performMem_read (hkind : h.kind = 4) (hc : s.ctx? h.ctx = some c) (hread : r.kind = .read) (hright : h.rights.testBit 0 = true)
    (hlen : r.off + r.len ≤ h.len) (hwho : s.who r = none) {p : Nat → Place}
    (hbytes : ∀ i < r.len, Readable s c (h.va + r.off + i) (r.len - i + r.rest) (p i)) :
    performMem s h r = { s := s, code := 0, data := (List.range r.len).map fun i => s.rd (p i).sp (p i).a } := by
  have hserve := serveRead_ok (r.srcMod != s.ident) hbytes
  have hbad : badBlocks s ((List.range r.len).map fun i => ((p i).sp, (p i).a)) = [] := badBlocks_nil fun x hx => by
    obtain ⟨i, hi, rfl⟩ := List.mem_map.1 hx
    exact (hbytes i (List.mem_range.1 hi)).crc
  unfold performMem
  simp only [hread, hkind, rRead, hright, hc, hwho, hserve, hbad, List.map_map]
  simp [Nat.not_lt.2 hlen, Function.comp_def]

theorem markDirty_ordinary {va : Nat} (hva : isPtr va = false) (ctx : Nat) : markDirty s ctx va = s := by
  rw [markDirty, hva]
  rfl

/-- One byte holds no whole block. -/
theorem spoil_one (s : State) (bad : List Nat) (x : Nat × Nat) : spoil s bad [x] = s := by
  unfold spoil
  induction bad with
  | nil => rfl
  | cons i bad ih =>
    rw [List.foldl_cons]
    have hblock : ∀ y, [x][i]? = some y → blockAt [x] i = false := fun y hy => by
      simp [blockAt, hy]
    cases hy : [x][i]? with
    | none => exact ih
    | some y =>
      simp only [hblock y hy, Bool.false_eq_true, if_false]
      exact ih

theorem performMem_write {b : Byte} {sp p : Nat} (hkind : h.kind = 4) (hc : s.ctx? h.ctx = some c) (hwrite : r.kind = .write) (hdata : r.data = [b])
    (hwho : s.who r = none) (hright : h.rights.testBit 1 = true) (hlen : r.off + 1 ≤ h.len)
    (hland : sysLand s c (h.va + r.off) 1 true = .ok (sp, p)) (hva : isPtr (h.va + r.off) = false) :
    performMem s h r = { s := s.wr sp p b, code := 0, data := [] } := by
  obtain ⟨q, hq, hqsp, hqa⟩ : ∃ q, sysPlace s c (h.va + r.off) 1 true = .ok q ∧ q.sp = sp ∧ q.a = p := by
    unfold sysLand at hland
    split at hland
    · next q hq =>
      cases hland
      exact ⟨q, hq, rfl, rfl⟩
    · cases hland
  have hserve := servePlace_none (h.va + r.off) 1 { write := true } false hq (fun h => nomatch h)
  unfold performMem
  simp only [hwrite, hkind, rWrite, hright, hc, hwho, hdata, serveWrite, hserve, markDirty_ordinary hva, spoil_one, Who.note, hqsp, hqa]
  simp [Nat.not_lt.2 hlen]

theorem performMem_denied (hkind : h.kind = 4) (hwrite : r.kind = .write) (hright : h.rights.testBit 1 = false) :
    performMem s h r = { s := s, code := St.PERM, data := [] } := by
  unfold performMem
  simp only [hwrite, hkind, rWrite, hright]
  simp

theorem performMem_stale (hkind : h.kind ≠ 4) : performMem s h r = { s := s, code := St.STALEHANDLE, data := [] } := by
  unfold performMem
  simp [hkind]

/-! ## Requests that are performed (R390, R392) -/

/-- The state in which a request has been answered. -/
def doneWith (d : Done) (r : FabReq) : State := fabAnswer d.s r.srcMod r.srcFn r.id d.code d.data d.race d.bad

theorem performReq_stale (hkind : ∀ key, r.kind ≠ .depart key) (hnone : s.handle? r.handle = none) :
    performReq s r = doneWith { s := s, code := St.STALEHANDLE, data := [] } r := by
  unfold performReq
  dsimp only
  split
  · next key hk => exact absurd hk (hkind key)
  · rw [hnone]
    rfl

theorem performReq_mem (hkind : ∀ key, r.kind ≠ .depart key) (hh : s.handle? r.handle = some h) (hne : h.kind ≠ 3) :
    performReq s r = doneWith (performMem s h r) r := by
  unfold performReq
  dsimp only
  split
  · next key hk => exact absurd hk (hkind key)
  · rw [hh]
    dsimp only
    rw [if_neg hne]
    rfl

theorem raiseOf_none (hraise : r.kind ≠ .raise) (hatomic : ∀ fn ty, r.kind ≠ .atomic fn ty) : raiseOf h r = none := by
  unfold raiseOf
  cases hk : r.kind with
  | raise => exact absurd hk hraise
  | atomic fn ty => exact absurd hk (hatomic fn ty)
  | read | write | reduce _ _ | depart _ => simp

theorem performReq_endpoint (hkind : ∀ key, r.kind ≠ .depart key) (hh : s.handle? r.handle = some h) (hthree : h.kind = 3) (hraise : r.kind ≠ .raise)
    (hatomic : ∀ fn ty, r.kind ≠ .atomic fn ty) : performReq s r = doneWith { s := s, code := St.STALEHANDLE, data := [] } r := by
  unfold performReq
  dsimp only
  split
  · next key hk => exact absurd hk (hkind key)
  · rw [hh]
    dsimp only
    rw [if_pos hthree, raiseOf_none hraise hatomic]
    split
    · next hk => cases hk
    · next hk => exact absurd hk (hatomic _ _)
    · next hk => exact absurd hk hraise
    · rfl

theorem performReq_other (hkind : ∀ key, r.kind ≠ .depart key) (hh : s.handle? r.handle = some h) (hne : h.kind ≠ 4) (hraise : r.kind ≠ .raise)
    (hatomic : ∀ fn ty, r.kind ≠ .atomic fn ty) : performReq s r = doneWith { s := s, code := St.STALEHANDLE, data := [] } r := by
  by_cases hthree : h.kind = 3
  · exact performReq_endpoint hkind hh hthree hraise hatomic
  · rw [performReq_mem hkind hh hthree, performMem_stale hne]

/-- A request that leaves memory alone is answered in the state that let it through. -/
theorem received_answered (r : FabReq) (code : Nat) (data : List Byte) :
    SameMemory s (doneWith { s := received s r, code := code, data := data } r)
      ∧ Answered s (doneWith { s := received s r, code := code, data := data } r) r s.ident code data := by
  refine ⟨?_, fabAnswer_answered (received_routes s r) ((received_touches s r).keeps .ident (by decide)) code data⟩
  exact Touches.sameMemory (ps := receivedParts ++ answerParts) (((received_touches s r).mono (by decide)).trans ((touches_fabAnswer ..).mono (by decide)))
    (by decide) (by decide) (by decide) (by decide)

theorem fabricRequest_stale (hp : Passes s r) (hnew : s.known r = none) (hkind : ∀ key, r.kind ≠ .depart key) (hnone : s.handle? r.handle = none) :
    ∃ t, exec (.fabricRequest r) s = .next t ∧ SameMemory s t ∧ Answered s t r s.ident St.STALEHANDLE [] :=
  ⟨_, by rw [fabricRequest_new hp hnew, performReq_stale hkind ((received_handle? ..).trans hnone)], received_answered ..⟩

theorem fabricRequest_other (hp : Passes s r) (hnew : s.known r = none) (hh : s.handle? r.handle = some h) (hne : h.kind ≠ 4)
    (hkind : ∀ key, r.kind ≠ .depart key) (hraise : r.kind ≠ .raise) (hatomic : ∀ fn ty, r.kind ≠ .atomic fn ty) :
    ∃ t, exec (.fabricRequest r) s = .next t ∧ SameMemory s t ∧ Answered s t r s.ident St.STALEHANDLE [] :=
  ⟨_, by rw [fabricRequest_new hp hnew, performReq_other hkind ((received_handle? ..).trans hh) hne hraise hatomic], received_answered ..⟩

section
variable (hp : Passes s r) (hnew : s.known r = none) (hh : s.handle? r.handle = some h) (hfour : h.kind = 4)
include hp hnew hh hfour

theorem fabricRequest_mem (hkind : ∀ key, r.kind ≠ .depart key) : exec (.fabricRequest r) s = .next (doneWith (performMem (received s r) h r) r) := by
  rw [fabricRequest_new hp hnew, performReq_mem hkind ((received_handle? ..).trans hh) (by omega)]

theorem fabricRequest_denied (hwrite : r.kind = .write) (hright : h.rights.testBit 1 = false) :
    ∃ t, exec (.fabricRequest r) s = .next t ∧ SameMemory s t ∧ Answered s t r s.ident St.PERM [] :=
  ⟨_, by rw [fabricRequest_mem hp hnew hh hfour (by simp [hwrite]), performMem_denied hfour hwrite hright], received_answered ..⟩

theorem fabricRequest_read (hc : s.ctx? h.ctx = some c) (hread : r.kind = .read) (hright : h.rights.testBit 0 = true) (hlen : r.off + r.len ≤ h.len)
    (hwho : s.who r = none) {p : Nat → Place} (hbytes : ∀ i < r.len, Readable s c (h.va + r.off + i) (r.len - i + r.rest) (p i)) :
    ∃ t, exec (.fabricRequest r) s = .next t ∧ SameMemory s t
      ∧ Answered s t r s.ident 0 ((List.range r.len).map fun i => s.rd (p i).sp (p i).a) := by
  have htables : SameTables s (received s r) := (received_touches s r).tables (by decide)
  have hcrc : (received s r).badCrc = s.badCrc := (received_touches s r).keeps .badCrc (by decide)
  have hbytes' : ∀ i < r.len, Readable (received s r) c (h.va + r.off + i) (r.len - i + r.rest) (p i) := fun i hi => by
    obtain ⟨hplace, hgood, hbad⟩ := hbytes i hi
    exact ⟨(htables.sysPlace ..).trans hplace, (htables.spoilt ..).trans hgood, by rwa [hcrc]⟩
  have hdone := performMem_read hfour ((received_ctx? ..).trans hc) hread hright hlen ((received_who ..).trans hwho) hbytes'
  simp only [htables.rd] at hdone
  exact ⟨_, by rw [fabricRequest_mem hp hnew hh hfour (by simp [hread]), hdone], received_answered ..⟩

theorem fabricRequest_write {b : Byte} {sp p : Nat} (hc : s.ctx? h.ctx = some c) (hwrite : r.kind = .write) (hdata : r.data = [b])
    (hwho : s.who r = none) (hright : h.rights.testBit 1 = true) (hlen : r.off + 1 ≤ h.len)
    (hland : sysLand s c (h.va + r.off) 1 true = .ok (sp, p)) (hva : isPtr (h.va + r.off) = false) :
    ∃ t, exec (.fabricRequest r) s = .next t ∧ (∀ sq q, t.rd sq q = (s.wr sp p b).rd sq q) ∧ Answered s t r s.ident 0 [] := by
  have htables : SameTables s (received s r) := (received_touches s r).tables (by decide)
  have hdone := performMem_write (b := b) hfour ((received_ctx? ..).trans hc) hwrite hdata ((received_who ..).trans hwho) hright hlen
    ((htables.sysLand (.refl c) ..).trans hland) hva
  have hwr : Touches memoryParts (received s r) ((received s r).wr sp p b) := (memOnly_wrBytes (received s r) sp p [b]).touches (by decide)
  have hident : ((received s r).wr sp p b).ident = s.ident :=
    (hwr.keeps .ident (by decide)).trans ((received_touches s r).keeps .ident (by decide))
  have hroutes : SameRoutes s ((received s r).wr sp p b) :=
    (received_routes s r).trans (sameRoutes_of_touches hwr (by decide) (by decide) (by decide))
  refine ⟨doneWith { s := (received s r).wr sp p b, code := 0, data := [] } r, by rw [fabricRequest_mem hp hnew hh hfour (by simp [hwrite]), hdone],
    fun sq q => ?_, fabAnswer_answered hroutes hident 0 []⟩
  rw [doneWith, (touches_fabAnswer ..).rd (by decide) (by decide) (by decide) (by decide), State.rd_wr, State.rd_wr, htables.rd]

end

end Sys2Proof.Machine
end

section
/-! PROOFS. Replies, resends and credits of the fabric, and the steps of ports and pool links (R385 to R393, R405). -/

namespace Sys2Proof.Machine
open Sys2Proof.Claims

variable {s t x y : State} {k : UKey} {u : Unit} {m : Cmd} {agent off port : Nat} {r : FabReply} {q : OutReq}

/-! ## A piece is answered (R293, R391) -/

/-- A command whose only piece has been answered, with no data. -/
def Cmd.lastReplied (m : Cmd) (off : Nat) (r : FabReply) : Cmd :=
  { m with status := if r.code != 0 then pieceStatus r off else m.status, got := if m.inOrder then [(off, r)] else [],
           sent := if m.inOrder then [(r.id, off)] else [] }

/-- A command that waits for the answer of one piece alone. -/
structure Cmd.AwaitsLast (m : Cmd) (off : Nat) (r : FabReply) : Prop where
  started : m.state = .started
  sent : m.sent = [(r.id, off)]
  got : m.got = []
  back : m.back = []
  status : statusCode m.status = 0
  data : r.data = []

theorem Cmd.AwaitsLast.replied (h : m.AwaitsLast off r) : m.replied off r = m.lastReplied off r := by
  obtain ⟨-, hsent, hgot, -, hstatus, hdata⟩ := h
  have hfail : m.failAt (pieceStatus r off) = { m with status := pieceStatus r off } := by
    rw [Cmd.failAt, hstatus]
    rfl
  unfold Cmd.replied Cmd.lastReplied
  rw [hdata, List.length_nil, Nat.add_zero, hfail]
  cases hcode : r.code != 0 <;> cases horder : m.inOrder <;> simp_all [Cmd.inOrder]

/-- A command whose only piece has been taken home. -/
def Cmd.lastTaken (m : Cmd) (r : FabReply) (off : Nat) : Cmd :=
  { m with status := if r.code != 0 then pieceStatus r off else m.status, got := [], sent := [] }

/-- From a state to another that differs in clocks, check values and commands alone. -/
def pieceParts : List Part := [.units, .badCrc]

theorem spoil_nil (s : State) (bad : List Nat) : spoil s bad [] = s := by
  unfold spoil
  induction bad with
  | nil => rfl
  | cons i bad ih => exact ih

theorem pieceData_nil (s : State) (u : Unit) (agent : Nat) (m : Cmd) (off : Nat) (bad : List Nat) :
    pieceData s u agent m off [] bad = { s := s, n := 0, stop := none } := by
  unfold pieceData
  rw [engPutBytes]
  dsimp only
  split
  · rfl
  · have hplaces : localPlaces s u agent m off 0 { write := true } = [] := rfl
    rw [hplaces, spoil_nil]

theorem lastReplied_atOnce (r : FabReply) (off : Nat) (horder : m.inOrder = false) : m.lastReplied off r = m.lastTaken r off := by
  simp [Cmd.lastReplied, Cmd.lastTaken, horder]

theorem takeGot_last (h : m.AwaitsLast off r) (hrun : Runs s k agent (m.lastReplied off r)) :
    ∃ t, takeGot k agent 1 s = t ∧ Touches pieceParts s t ∧ Runs t k agent (m.lastTaken r off) := by
  obtain ⟨u, hu, hm⟩ := hrun.runs
  rw [takeGot, hu, Option.bind_some, hm, Option.bind_some]
  cases horder : m.inOrder with
  | false =>
    have hnext : (m.lastReplied off r).nextGot = none := by simp [Cmd.nextGot, Cmd.lastReplied, horder]
    rw [hnext]
    exact ⟨s, rfl, .refl _ s, lastReplied_atOnce r off horder ▸ hrun⟩
  | true =>
    have hnext : (m.lastReplied off r).nextGot = some (off, r) := by simp [Cmd.nextGot, Cmd.lastReplied, horder]
    have hback : (m.lastReplied off r).back = [] := h.back
    rw [hnext]
    dsimp only [Option.map_some]
    rw [hback, h.data, List.append_nil, List.take_nil, pieceData_nil]
    have htaken : (m.lastReplied off r).took (off, r) [] = m.lastTaken r off := by
      simp [Cmd.took, Cmd.lastReplied, Cmd.lastTaken, horder, h.back]
    refine ⟨_, rfl, touches_modUnit (by decide) .., ?_⟩
    rw [List.drop_nil]
    exact htaken ▸ hrun.modCmd fun m => m.took (off, r) []

theorem remoteEnd_ends {st : DWord} (hrun : Runs s k agent m) (hstarted : m.state = .started) (hsent : m.sent = [])
    (hend : statusCode m.status ≠ 0 ∧ st = m.status ∨ statusCode m.status = 0 ∧ m.size ≤ m.prog ∧ st = statusWord St.OK m.total) :
    Touches pieceParts s (remoteEnd s k agent) ∧ Runs (remoteEnd s k agent) k agent { m with state := .done, status := st } := by
  have hst : (if statusCode m.status != 0 then m.status else statusWord St.OK m.total) = st := by
    rcases hend with ⟨hcode, rfl⟩ | ⟨hcode, -, rfl⟩ <;> simp [hcode]
  have hover : (m.state == .started && m.sent.isEmpty && (statusCode m.status != 0 || decide (m.size ≤ m.prog))) = true := by
    rcases hend with ⟨hcode, -⟩ | ⟨-, hsize, -⟩ <;> simp_all
  unfold remoteEnd
  rw [hrun.found]
  dsimp only
  rw [if_pos hover, hst]
  exact ⟨touches_modUnit (by decide) .., hrun.modCmd _⟩

/-- How the answer of its last piece ends a command. -/
def Cmd.EndsWith (m : Cmd) (off : Nat) (r : FabReply) (st : DWord) : Prop :=
  (r.code ≠ 0 ∧ statusCode (pieceStatus r off) ≠ 0 ∧ st = pieceStatus r off) ∨ (r.code = 0 ∧ m.size ≤ m.prog ∧ st = statusWord St.OK m.total)

theorem Cmd.EndsWith.lastTaken {st : DWord} (h : m.EndsWith off r st) (hawaits : m.AwaitsLast off r) :
    statusCode (m.lastTaken r off).status ≠ 0 ∧ st = (m.lastTaken r off).status
      ∨ statusCode (m.lastTaken r off).status = 0 ∧ (m.lastTaken r off).size ≤ (m.lastTaken r off).prog
        ∧ st = statusWord St.OK (m.lastTaken r off).total := by
  rcases h with ⟨hcode, hstatus, rfl⟩ | ⟨hcode, hsize, rfl⟩
  · have heq : (m.lastTaken r off).status = pieceStatus r off := if_pos (by simpa using hcode)
    exact .inl ⟨heq ▸ hstatus, heq.symm⟩
  · have heq : (m.lastTaken r off).status = m.status := if_neg (by simp [hcode])
    exact .inr ⟨heq ▸ hawaits.status, hsize, rfl⟩

theorem pieceAnswered_ends {st : DWord} (hu : s.unit? k = some u) (hm : u.cmd? agent = some m) (h : m.AwaitsLast off r) (hend : m.EndsWith off r st) :
    Touches pieceParts s (pieceAnswered s k agent off r)
      ∧ ∃ m', Runs (pieceAnswered s k agent off r) k agent m' ∧ m'.state = .done ∧ m'.status = st := by
  have hreplied : Runs (s.modCmd k agent fun m => m.replied off r) k agent (m.lastReplied off r) :=
    h.replied ▸ (runs_of hu hm).modCmd fun m => m.replied off r
  obtain ⟨t, hanswered, htouches, htaken⟩ : ∃ t, pieceAnswered s k agent off r = remoteEnd t k agent ∧ Touches pieceParts s t
      ∧ Runs t k agent (m.lastTaken r off) := by
    have htouches : Touches pieceParts s (s.modCmd k agent fun m => m.replied off r) := touches_modUnit (by decide) ..
    unfold pieceAnswered
    rw [hu]
    dsimp only
    rw [hm]
    dsimp only
    split
    · next o x hins =>
      rw [h.data, pieceData_nil]
      exact ⟨_, rfl, htouches, lastReplied_atOnce r off (m := m) (by rw [Cmd.inOrder, hins]) ▸ hreplied⟩
    · next o x hins =>
      rw [h.got]
      obtain ⟨t, ht, htouch, hrun⟩ := takeGot_last h hreplied
      exact ⟨t, by rw [← ht]; rfl, htouches.trans htouch, hrun⟩
    · next hratom hcpyr =>
      refine ⟨_, rfl, htouches, lastReplied_atOnce r off (m := m) ?_ ▸ hreplied⟩
      unfold Cmd.inOrder
      split
      · next o x hins => exact absurd hins (hcpyr o x)
      · rfl
  rw [hanswered]
  obtain ⟨htouch, hrun⟩ := remoteEnd_ends htaken h.started rfl (hend.lastTaken h)
  exact ⟨htouches.trans htouch, _, hrun, rfl, rfl⟩

/-! ## Requests for other modules (R388) -/

section
variable {r : FabReq} (hr : s.moduleOf r.dst ≠ s.ident)
include hr

theorem fabricRequest_refused (hhops : r.hops ≤ 1 ∨ s.hopLimit r.dst = 0) : exec (.fabricRequest r) s =
    .next (sendReply (freed s r.port false r.data.length) r.dst r.srcMod r.srcFn r.id St.REMOTEDOWN []) := by
  have hexec : exec (.fabricRequest r) s = execFabricRequest r s := rfl
  rw [hexec, execFabricRequest, if_neg hr, passOn, if_pos (by simpa using hhops)]

theorem fabricRequest_passed (hhops : 1 < r.hops) (hroute : s.hopLimit r.dst ≠ 0) :
    exec (.fabricRequest r) s = .next (leave s (.req { r with hops := r.hops - 1 })) := by
  have hexec : exec (.fabricRequest r) s = execFabricRequest r s := rfl
  rw [hexec, execFabricRequest, if_neg hr, passOn, if_neg (by simpa using ⟨hhops, hroute⟩)]

end

theorem touches_refused (s : State) (r : FabReq) :
    Touches answerParts s (sendReply (freed s r.port false r.data.length) r.dst r.srcMod r.srcFn r.id St.REMOTEDOWN []) :=
  .last (touches_sendReply ..) ((touches_freed_ports ..).mono (by decide))

/-! ## Replies (R389, R393) -/

theorem outReq?_spec {fn dst id : Nat} (h : s.outReq? fn dst id = some q) : q.fn = fn ∧ q.dst = dst ∧ q.req.id = id := by
  have hfound := List.find?_some h
  simp only [Bool.and_eq_true, beq_iff_eq] at hfound
  exact ⟨hfound.1.1, hfound.1.2, hfound.2⟩

theorem outReq?_dropReq (s : State) (fn dst id : Nat) : (dropReq s fn dst id).outReq? fn dst id = none := by
  refine List.find?_eq_none.2 fun x hx => ?_
  have hkept := (List.mem_filter.1 hx).2
  rw [Bool.not_eq_true'] at hkept
  rw [hkept]
  exact Bool.false_ne_true

/-- The fields that taking a request away may change. -/
def dropParts : List Part := [.ports, .outReqs, .absorbed, .unack]

theorem touches_dropReq (s : State) (fn dst id : Nat) : Touches dropParts s (dropReq s fn dst id) := .outReqs (by decide) s _

theorem touches_absorbed (s : State) (n : Nat) (us : List (Nat × Nat × Nat)) : Touches dropParts s { s with absorbed := n, unack := us } := by
  refine ⟨fun p hp => ?_⟩
  cases p
  case absorbed | unack => exact absurd (by decide) hp
  all_goals rfl

theorem Touches.drop_sameMemory (h : Touches dropParts s t) : SameMemory s t := h.sameMemory (by decide) (by decide) (by decide) (by decide)

theorem fabricReply_passed (hr : s.moduleOf r.dest ≠ s.ident) :
    exec (.fabricReply r) s = .next (leave s (.rep r)) := by
  have hexec : exec (.fabricReply r) s = execFabricReply r s := rfl
  rw [hexec, execFabricReply, if_pos (by simpa using hr)]

theorem dropped_touches (s : State) (r : FabReply) : Touches dropParts s (dropReq (freed s r.port true r.data.length) r.fn r.dst r.id) :=
  .last (touches_dropReq ..) ((touches_freed_ports ..).mono (by decide))

section
variable (hr : s.moduleOf r.dest = s.ident)
include hr

theorem fabricReply_unknown (hq : s.outReq? r.fn r.dst r.id = none) :
    ∃ t, exec (.fabricReply r) s = .next t ∧ SameMemory s t ∧ t.absorbed = s.absorbed + 1 ∧ t.units = s.units := by
  have hexec : exec (.fabricReply r) s = .next (lateAnswer (freed s r.port true r.data.length) r) := by
    show execFabricReply r s = _
    rw [execFabricReply, if_neg (by simpa using hr), hq]
  have hfreed : Touches dropParts s (freed s r.port true r.data.length) := (touches_freed_ports ..).mono (by decide)
  have hlate := hfreed.trans (touches_absorbed _ ((freed s r.port true r.data.length).absorbed + 1)
    ((freed s r.port true r.data.length).unack.filter (· != (r.fn, r.dst, r.id))))
  exact ⟨_, hexec, hlate.drop_sameMemory, congrArg (· + 1) ((touches_freed_ports s r.port true r.data.length).keeps .absorbed (by decide)),
    hlate.keeps .units (by decide)⟩

theorem fabricReply_known (hq : s.outReq? r.fn r.dst r.id = some q) (hwaits : answerWaits s q = false) : exec (.fabricReply r) s =
    .next (if q.orphan then { dropReq (freed s r.port true r.data.length) r.fn r.dst r.id with
        absorbed := (dropReq (freed s r.port true r.data.length) r.fn r.dst r.id).absorbed + 1 }
      else answered (dropReq (freed s r.port true r.data.length) r.fn r.dst r.id) q r) := by
  have hexec : exec (.fabricReply r) s = execFabricReply r s := rfl
  rw [hexec, execFabricReply, if_neg (by simpa using hr), hq]
  dsimp only
  rw [hwaits, if_neg (by decide)]
  cases q.orphan <;> rfl

theorem fabricReply_orphan (hq : s.outReq? r.fn r.dst r.id = some q) (hwaits : answerWaits s q = false) (horphan : q.orphan = true) :
    ∃ t, exec (.fabricReply r) s = .next t ∧ SameMemory s t ∧ t.absorbed = s.absorbed + 1 ∧ t.outReq? r.fn r.dst r.id = none := by
  have hexec := fabricReply_known hr hq hwaits
  rw [horphan, if_pos rfl] at hexec
  have hdrop := dropped_touches s r
  have habsorbed : (dropReq (freed s r.port true r.data.length) r.fn r.dst r.id).absorbed = s.absorbed :=
    (touches_freed_ports s r.port true r.data.length).keeps .absorbed (by decide)
  exact ⟨_, hexec, (hdrop.trans (touches_absorbed _ (_ + 1) _)).drop_sameMemory, congrArg (· + 1) habsorbed,
    outReq?_dropReq (freed s r.port true r.data.length) ..⟩

theorem fabricReply_ends {st : DWord} (hq : s.outReq? r.fn r.dst r.id = some q) (hwaits : answerWaits s q = false) (horphan : q.orphan = false)
    (hwhat : q.what = .cmd k agent off) (hu : s.unit? k = some u) (hm : u.cmd? agent = some m) (h : m.AwaitsLast off r) (hend : m.EndsWith off r st) :
    ∃ t u' m', exec (.fabricReply r) s = .next t ∧ SameMemory s t ∧ t.unit? k = some u' ∧ u'.cmd? agent = some m' ∧ m'.state = .done ∧ m'.status = st := by
  have hexec := fabricReply_known hr hq hwaits
  rw [horphan, if_neg (by decide), answered, hwhat] at hexec
  have hdrop := dropped_touches s r
  obtain ⟨htouch, m', ⟨u', hu', hm'⟩, hdone⟩ := pieceAnswered_ends ((State.unit?_congr (hdrop.keeps .units (by decide)) k).trans hu) hm h hend
  exact ⟨_, u', m', hexec, Touches.sameMemory (ps := dropParts ++ pieceParts) ((hdrop.mono (by decide)).trans (htouch.mono (by decide))) (by decide)
    (by decide) (by decide) (by decide), hu', hm', hdone⟩

end

/-! ## Resends (R392, R393) -/

theorem outReq?_markSent (a : OutReq) (b : Bool) (hs : s.outReq? a.fn a.dst a.req.id = some q) (hreqs : t.outReqs = s.outReqs) :
    (markSent a b t).outReq? a.fn a.dst a.req.id = some { a with sent := b } := by
  have hfind := find?_map_self (fun x : OutReq => x.fn == a.fn && x.dst == a.dst && x.req.id == a.req.id) (fun _ => { a with sent := b })
    (fun _ _ => by simp) s.outReqs
  rw [State.outReq?, markSent, hreqs, hfind]
  exact congrArg (Option.map _) hs

theorem outReq?_due (s : State) (i : Instr) (fn dst id : Nat) : (s.due i).outReq? fn dst id = s.outReq? fn dst id := by
  have hreqs : (s.due i).outReqs = s.outReqs := (Touches.due (ps := [.agenda]) (by decide) s i).keeps .outReqs (by decide)
  rw [State.outReq?, hreqs, State.outReq?]

theorem outReq?_transmit (a : OutReq) (hs : s.outReq? a.fn a.dst a.req.id = some q) :
    ∃ b, (transmit s a).outReq? a.fn a.dst a.req.id = some { a with sent := b } := by
  -- the port and the crossing become variables, whose comparison does not unfold them
  obtain ⟨f, hf⟩ : ∃ f, cross s = f := ⟨_, rfl⟩
  obtain ⟨o, ho⟩ : ∃ o, s.routePort a.dst = o := ⟨_, rfl⟩
  have hcross : ∀ p b n t, f p b n = some t → Touches [.ports] s t := fun _ _ _ _ h => touches_cross (hf ▸ h)
  have hsent : ∀ i, ((markSent a true s).due i).outReq? a.fn a.dst a.req.id = some { a with sent := true } := fun i =>
    (outReq?_due ..).trans (outReq?_markSent a true hs rfl)
  unfold transmit
  rw [hf, ho]
  split
  · exact ⟨true, hsent _⟩
  · split
    · exact ⟨true, hsent _⟩
    · split
      · exact ⟨true, hsent _⟩
      · split
        · exact ⟨false, outReq?_markSent a false hs rfl⟩
        · next t h =>
          exact ⟨true, (outReq?_due ..).trans (outReq?_markSent a true hs ((hcross _ _ _ _ h).keeps .outReqs (by decide)))⟩

section
variable {fn dst id : Nat} (hq : s.outReq? fn dst id = some q) (hsent : q.sent = true) (hdst : dst ≠ s.ident) (hwaits : answerWaits s q = false)
include hq hsent hdst hwaits

theorem resendTimeout_again (hattempt : q.req.attempt < 7) : ∃ t q', exec (.resendTimeout fn dst id) s = .next t ∧ SameMemory s t
    ∧ t.outReq? fn dst id = some q' ∧ q'.req.attempt = q.req.attempt + 1 ∧ q'.what = q.what := by
  let a : OutReq := { q with req := { q.req with attempt := q.req.attempt + 1, lowack := s.lowAck fn dst } }
  have hexec : exec (.resendTimeout fn dst id) s = .next (transmit s a) := by
    show execResendTimeout fn dst id s = _
    rw [execResendTimeout, hq]
    dsimp only
    rw [hwaits, if_neg (by simp [hsent, hdst]), if_neg (by decide), if_neg (by omega)]
  obtain ⟨rfl, rfl, rfl⟩ := outReq?_spec hq
  obtain ⟨b, hb⟩ := outReq?_transmit a hq
  exact ⟨_, _, hexec, (touches_transmit s a).sameMemory (by decide) (by decide) (by decide) (by decide), hb, rfl, rfl⟩

theorem resendTimeout_over (hattempt : 7 ≤ q.req.attempt) (horphan : q.orphan = true) : ∃ t, exec (.resendTimeout fn dst id) s = .next t ∧ SameMemory s t
    ∧ t.outReq? fn dst id = none ∧ (fn, dst, id) ∈ t.unack := by
  have hexec : exec (.resendTimeout fn dst id) s = .next { dropReq s fn dst id with unack := s.unack ++ [(fn, dst, id)] } := by
    show execResendTimeout fn dst id s = _
    rw [execResendTimeout, hq]
    dsimp only
    rw [hwaits, if_neg (by simp [hsent, hdst]), if_neg (by decide), if_pos (by omega), horphan, if_pos rfl]
    rfl
  refine ⟨_, hexec, ((touches_dropReq s fn dst id).trans (touches_absorbed _ s.absorbed _)).drop_sameMemory, outReq?_dropReq s fn dst id,
    List.mem_append_right _ (List.mem_singleton.2 rfl)⟩

end

/-! ## Ports and pool links (R385, R386, R389, R405) -/

theorem modPort_port {p : Port} (hp : s.ports[port]? = some p) (f : Port → Port) : (s.modPort port f).ports[port]? = some (f p) := by
  rw [State.ports_modPort, hp, Option.map_some, if_pos rfl]

theorem sameMemory_modPort (s : State) (port : Nat) (f : Port → Port) : SameMemory s (s.modPort port f) :=
  (Touches.ports (ps := [.ports]) (by decide) s _).sameMemory (by decide) (by decide) (by decide) (by decide)

theorem sendWaiting_none (port : Nat) (hsent : ∀ q ∈ s.outReqs, q.sent = true) (htransit : s.transit = []) : sendWaiting s port = s := by
  have hwaiting : (s.outReqs.filter fun r => !r.sent && s.routePort r.dst == some port) = [] :=
    List.filter_eq_nil_iff.2 fun q hq => by simp [hsent q hq]
  have hleave : leaveAll s = s := by
    rw [leaveAll, htransit, List.foldl_nil, ← htransit]
  rw [sendWaiting, hwaiting, List.foldl_nil, hleave]

theorem creditReportReceived_next {p : Port} (hp : s.ports[port]? = some p) (sent freed : Nat) (hsent : ∀ q ∈ s.outReqs, q.sent = true)
    (htransit : s.transit = []) : ∃ t, exec (.creditReportReceived port 0 sent freed) s = .next t ∧ SameMemory s t
      ∧ t.ports[port]? = some { p with req := p.req.report sent freed } := by
  have hexec : exec (.creditReportReceived port 0 sent freed) s
      = .next (sendWaiting (s.modPort port fun q => q.modChan false fun c => c.report sent freed) port) := rfl
  rw [hexec, sendWaiting_none (s := s.modPort port fun q => q.modChan false fun c => c.report sent freed) port hsent htransit]
  exact ⟨_, rfl, sameMemory_modPort _ _ _, modPort_port hp _⟩

theorem stepDown_spec (p : Port) : (p.rate = 112 → p.stepDown.rate = 100) ∧ (p.rate = 100 → p.stepDown.rate = 84) ∧ (p.rate = 84 → p.stepDown.rate = 56)
    ∧ (p.rate = 56 → p.stepDown.rate = 0) ∧ (p.rate ∈ [84, 100, 112] → p.stepDown.downs = min 255 (p.downs + 1)) := by
  unfold Port.stepDown rateBelow
  refine ⟨fun h => ?_, fun h => ?_, fun h => ?_, fun h => ?_, fun h => ?_⟩
  · simp [h]
  · simp [h]
  · simp [h]
  · simp [h]
  · rcases List.mem_cons.1 h with h | h
    · simp [h]
    · rcases List.mem_cons.1 h with h | h
      · simp [h]
      · simp [List.mem_singleton.1 h]

theorem touches_poolUp (s : State) (up : List Bool) : Touches [.poolUp] s { s with poolUp := up } := by
  refine ⟨fun p hp => ?_⟩
  cases p
  case poolUp => exact absurd (by decide) hp
  all_goals rfl

theorem poolLink_next (port : Nat) (up : Bool) (hport : port < s.poolUp.length) :
    SameMemory s { s with poolUp := s.poolUp.set port up } ∧ ({ s with poolUp := s.poolUp.set port up } : State).poolUp[port]? = some up :=
  ⟨(touches_poolUp ..).sameMemory (by decide) (by decide) (by decide) (by decide), by simp [hport]⟩

end Sys2Proof.Machine

section
open Sys2Proof Sys2Proof.Machine Sys2Proof.Claims

/-- Settles O54: requests that the filter lets through are performed in a state that differs in ports and caches alone; messages leave by the
credit that the port had before. -/
theorem fabricSteps : Obligations.FabricSteps := by
  unfold Obligations.FabricSteps
  intro s
  refine ⟨fun r hhere hid hlow => ?_, fun r hthere => ⟨fun hhops => ?_, fun hhops hroute => ?_⟩, fun r hthere => ?_, fun r hhere => ?_,
    fun fn dst id => ⟨fun hnone => ?_, fun q hq hsent hdst hwaits => ⟨?_, ?_⟩⟩, fun port p hp => ?_, fun port hport => ?_, fun line => ?_⟩
  · have hp : Passes s r := ⟨hhere, hid, hlow⟩
    intro known answer
    refine ⟨fun hnew hnone hkind => fabricRequest_stale hp hnew hkind hnone, fun h c hnew hh hfour hc => ⟨?_, ?_, ?_⟩, fun h hnew hh hother => ?_,
      fun e he hdone hread => ?_, fun e he hdone => ?_⟩
    · intro p hread hright hlen hwho hbytes
      exact fabricRequest_read hp hnew hh hfour hc hread hright hlen hwho fun i hi => by
        obtain ⟨hplace, hgood, hcrc⟩ := hbytes i hi
        exact ⟨hplace, hgood, hcrc⟩
    · intro b sp p hwrite hdata hwho hright hlen hland hsp hva
      obtain ⟨t, hexec, hrd, hanswer⟩ := fabricRequest_write hp hnew hh hfour hc hwrite hdata hwho hright hlen hland hva
      refine ⟨t, hexec, ?_, fun sq hsq i hi => ?_, hanswer⟩
      · rw [hrd, State.rd_wr, if_pos ⟨rfl, rfl⟩]
      · rw [hrd, State.rd_wr, if_neg]
        rintro ⟨hspace, rfl⟩
        refine hi (Prod.ext ?_ rfl)
        unfold spaceNo at hspace
        omega
    · exact fun hwrite hright => fabricRequest_denied hp hnew hh hfour hwrite hright
    · obtain ⟨hne, hdepart, hraise, hatomic⟩ := hother
      exact fabricRequest_other hp hnew hh hne hdepart hraise hatomic
    · have hident : (received s r).ident = s.ident := (received_touches s r).keeps .ident (by decide)
      refine ⟨_, fabricRequest_again hp he hdone hread, ?_, hident ▸ sendReply_answered (received_routes s r) hident ..⟩
      exact Touches.sameMemory (ps := receivedParts ++ answerParts)
        (((received_touches s r).mono (by decide)).trans ((touches_sendReply ..).mono (by decide))) (by decide) (by decide) (by decide) (by decide)
    · have htouch := received_touches s r
      exact ⟨_, fabricRequest_pending hp he hdone, htouch.sameMemory (by decide) (by decide) (by decide) (by decide), htouch.keeps .agenda (by decide)⟩
  · exact ⟨_, fabricRequest_refused hthere hhops, (touches_refused s r).sameMemory (by decide) (by decide) (by decide) (by decide),
      sendReply_answered (sameRoutes_freed ..) ((touches_freed_ports ..).keeps .ident (by decide)) ..⟩
  · exact ⟨_, fabricRequest_passed hthere hhops hroute, (touches_leave ..).sameMemory (by decide) (by decide) (by decide) (by decide),
      leaveAs_leaves (.refl s) ..⟩
  · exact ⟨_, fabricReply_passed hthere, (touches_leave ..).sameMemory (by decide) (by decide) (by decide) (by decide), leaveAs_leaves (.refl s) ..⟩
  · refine ⟨fabricReply_unknown hhere, fun q hq hwaits => ⟨fabricReply_orphan hhere hq hwaits, ?_⟩⟩
    intro k agent off u m horphan hwhat hdata hu hm hstarted hsent hgot hback hstatus ends
    obtain ⟨-, -, hid⟩ := outReq?_spec hq
    have hawaits : m.AwaitsLast off r := ⟨hstarted, hid ▸ hsent, hgot, hback, hstatus, hdata⟩
    exact ⟨fun hcode hst => fabricReply_ends hhere hq hwaits horphan hwhat hu hm hawaits (.inl ⟨hcode, hst, rfl⟩),
      fun hcode hsize => fabricReply_ends hhere hq hwaits horphan hwhat hu hm hawaits (.inr ⟨hcode, hsize, rfl⟩)⟩
  · show execResendTimeout fn dst id s = _
    rw [execResendTimeout, hnone]
  · exact resendTimeout_again hq hsent hdst hwaits
  · exact resendTimeout_over hq hsent hdst hwaits
  · intro now
    refine ⟨?_, ?_, ?_, ?_⟩
    · exact ⟨_, rfl, sameMemory_modPort _ _ _, _, modPort_port hp _, rfl, rfl⟩
    · exact ⟨_, rfl, sameMemory_modPort _ _ _, _, modPort_port hp _, rfl, rfl⟩
    · intro sent freed hsent htransit
      obtain ⟨t, hexec, hmem, hport⟩ := creditReportReceived_next hp sent freed hsent htransit
      refine ⟨t, hexec, hmem, _, hport, rfl, fun hbehind => ?_, fun hahead => if_pos hahead⟩
      have hreport : p.req.report sent freed = { p.req with peerFreed := freed % 2 ^ 32, peerSent := sent % 2 ^ 32 } := if_neg (Nat.not_le.2 hbehind)
      rw [hreport]
      exact ⟨rfl, rfl⟩
    · exact ⟨_, rfl, sameMemory_modPort _ _ _, _, modPort_port hp _, stepDown_spec p⟩
  · obtain ⟨hdown, hdown'⟩ := poolLink_next port false hport
    obtain ⟨hup, hup'⟩ := poolLink_next port true hport
    exact ⟨⟨_, rfl, hdown, hdown', rfl⟩, _, rfl, hup, hup', rfl⟩
  · refine ⟨_, rfl, (Touches.poolCache (ps := [.poolCache]) (by decide) s _).sameMemory (by decide) (by decide) (by decide) (by decide), fun x => ?_⟩
    simp

end
end

section
/-! PROOFS. The ordering point: resync, inbound writes and their pieces, and reads of the apertures (R376 to R378, R381 to R383). -/

namespace Sys2Proof.Machine
open Sys2Proof.Claims

variable {s t x : State} {fn seq q off n : Nat} {w : Inbound} {win : Option Window} {c : Ctx} {e : InFlight} {ps : List RoutePiece}

theorem State.func_modFunc_same (s : State) (fn : Nat) (f : Func → Func) : (s.modFunc fn f).func fn = f (s.func fn) := by
  rw [State.func_modFunc, if_pos rfl]

theorem touches_modFunc {ps : List Part} (hp : Part.funcs ∈ ps) (s : State) (fn : Nat) (f : Func → Func) : Touches ps s (s.modFunc fn f) :=
  .funcs hp s _

theorem sameMemory_modFunc (s : State) (fn : Nat) (f : Func → Func) : SameMemory s (s.modFunc fn f) :=
  (touches_modFunc (ps := [.funcs]) (by decide) s fn f).sameMemory (by decide) (by decide) (by decide) (by decide)

/-! ## Resync (R378) -/

/-- A stream that has been stopped, restarted at the next position of a ring offset. -/
def Func.resynced (off : Nat) (f : Func) : Func :=
  { f with stopped := false, frame := [], consumed := f.consumed + (off % 65536 + 65536 - f.consumed % 65536) % 65536 }

theorem resync_running (hstopped : (s.func fn).stopped = false) : exec (.resync fn off) s = .next s := by
  show execResync fn off s = _
  rw [execResync, resyncAt, hstopped]
  rfl

theorem resync_stopped (hstopped : (s.func fn).stopped = true) : exec (.resync fn off) s =
    .next (notice (s.modFunc fn (Func.resynced off)) fn 0x84 [((s.modFunc fn (Func.resynced off)).func fn).consumed]) := by
  show execResync fn off s = _
  rw [execResync, resyncAt, hstopped]
  rfl

theorem Func.resynced_consumed (f : Func) (off : Nat) : (f.resynced off).consumed % 65536 = off % 65536 ∧ f.consumed ≤ (f.resynced off).consumed
    ∧ (f.resynced off).consumed < f.consumed + 65536 := by
  unfold Func.resynced
  dsimp only
  omega

/-! ## Where a write goes (R381, R382) -/

theorem SameTables.cutPieces (h : SameTables s t) (va : Nat) (bs : List Byte) : cutPieces t c va bs = cutPieces s c va bs := by
  induction bs generalizing va with
  | nil => rfl
  | cons b bs ih =>
    unfold Machine.cutPieces
    rw [h.sysPlace, ih]

theorem SameTables.inboundPieces (h : SameTables s t) (hctx : ∀ id, t.ctx? id = s.ctx? id) (w : Inbound) (win : Option Window) :
    inboundPieces t w win = inboundPieces s w win := by
  unfold Machine.inboundPieces
  simp only [hctx, h.cutPieces]

theorem inboundPieces_modFunc (s : State) (fn : Nat) (f : Func → Func) (w : Inbound) (win : Option Window) :
    inboundPieces (s.modFunc fn f) w win = inboundPieces s w win :=
  ((touches_modFunc (ps := [.funcs]) (by decide) s fn f).tables (by decide)).inboundPieces (fun _ => rfl) w win

/-- The writes of a function once one of them has gone out in pieces. -/
def cutWrite (e : InFlight) (ps : List RoutePiece) (x : InFlight) : Option InFlight :=
  if x.seq != e.seq then some x else if ps.isEmpty then none else some { x with held := false, pieces := ps }

/-- The acknowledgements that a write's pieces are due. -/
def acksDue (s : State) (fn seq : Nat) (ps : List RoutePiece) : State := ps.foldl (fun s p => s.due (.routeAck fn seq p.route)) s

theorem releaseWrite_ok (h : inboundPieces s e.w e.win = .ok ps) :
    releaseWrite s fn e = acksDue (s.modFunc fn fun f => { f with inflight := f.inflight.filterMap (cutWrite e ps) }) fn e.seq ps := by
  unfold releaseWrite
  rw [h]
  rfl

theorem releaseWrite_error {code : Nat} (h : inboundPieces s e.w e.win = .error code) :
    releaseWrite s fn e = notice (s.modFunc fn fun f => { f with inflight := f.inflight.filter fun x => x.seq != e.seq }) fn 0x85 [e.w.off, code] := by
  unfold releaseWrite
  rw [h]
  rfl

theorem touches_acksDue (s : State) (fn seq : Nat) (ps : List RoutePiece) : Touches [.agenda] s (acksDue s fn seq ps) :=
  .foldl (fun s _ => .due (by decide) s _) _ _

theorem mem_acksDue {p : RoutePiece} (hp : p ∈ ps) (s : State) : .routeAck fn seq p.route ∈ (acksDue s fn seq ps).agenda := by
  unfold acksDue
  induction ps generalizing s with
  | nil => cases hp
  | cons y ys ih =>
    rcases List.mem_cons.1 hp with rfl | hp
    · have hkeeps : ∀ (ys : List RoutePiece) (s : State) (i : Instr), i ∈ s.agenda →
          i ∈ (ys.foldl (fun s p => s.due (.routeAck fn seq p.route)) s).agenda := fun ys => by
        induction ys with
        | nil => exact fun _ _ h => h
        | cons y ys ih => exact fun s i h => ih _ i (State.mem_due _ h)
      exact hkeeps ys _ _ (State.mem_due_self ..)
    · exact ih hp _

theorem filterMap_cutWrite_others {xs : List InFlight} (h : ∀ x ∈ xs, x.seq ≠ e.seq) : xs.filterMap (cutWrite e ps) = xs := by
  induction xs with
  | nil => rfl
  | cons x xs ih =>
    have hx : cutWrite e ps x = some x := if_pos (by simpa using h x (by simp))
    rw [List.filterMap_cons_some hx, ih fun y hy => h y (List.mem_cons_of_mem _ hy)]

theorem cutWrite_self (hps : ps ≠ []) : cutWrite e ps e = some { e with held := false, pieces := ps } := by
  unfold cutWrite
  rw [if_neg (by simp), if_neg (by simpa using hps)]

/-- A write goes out in the state in which its function's writes stand as `xs ++ e :: ys`. -/
theorem releaseWrite_inflight {xs ys : List InFlight} (hs : (s.func fn).inflight = xs ++ e :: ys) (hxs : ∀ x ∈ xs, x.seq ≠ e.seq)
    (hys : ∀ y ∈ ys, y.seq ≠ e.seq) (hpieces : inboundPieces s e.w e.win = .ok ps) (hps : ps ≠ []) :
    SameMemory s (releaseWrite s fn e) ∧ ((releaseWrite s fn e).func fn).inflight = xs ++ { e with held := false, pieces := ps } :: ys
      ∧ ∀ p ∈ ps, .routeAck fn e.seq p.route ∈ (releaseWrite s fn e).agenda := by
  have hout : (xs ++ e :: ys).filterMap (cutWrite e ps) = xs ++ { e with held := false, pieces := ps } :: ys := by
    rw [List.filterMap_append, filterMap_cutWrite_others hxs, List.filterMap_cons_some (cutWrite_self hps), filterMap_cutWrite_others hys]
  rw [releaseWrite_ok hpieces]
  have hdue := touches_acksDue (s.modFunc fn fun f => { f with inflight := f.inflight.filterMap (cutWrite e ps) }) fn e.seq ps
  refine ⟨?_, ?_, fun p hp => mem_acksDue hp _⟩
  · exact Touches.sameMemory (ps := [.agenda, .funcs]) (.last (hdue.mono (by decide)) (touches_modFunc (by decide) ..)) (by decide) (by decide)
      (by decide) (by decide)
  · rw [State.func_congr (hdue.keeps .funcs (by decide)), State.func_modFunc_same, hs, hout]

/-! ## Inbound writes (R381 to R383) -/

/-- A write as it comes to the ordering point. -/
def arriving (s : State) (w : Inbound) : InFlight :=
  { seq := (s.func w.fn).seq, w := w, held := mustHold (s.func w.fn) w,
    win := if w.msg then none else windowOf (s.func w.fn) w.off w.data.length, pieces := [] }

/-- The state in which it has come. -/
def arrived (s : State) (w : Inbound) : State := s.modFunc w.fn fun f => { f with seq := f.seq + 1, inflight := f.inflight ++ [arriving s w] }

theorem inboundWrite_disabled (h : (s.func w.fn).enabled = false) : exec (.inboundWrite w) s = .next s := by
  show execInboundWrite w s = _
  rw [execInboundWrite, h]
  rfl

theorem inboundWrite_eq (h : (s.func w.fn).enabled = true) (hdata : w.data ≠ []) : exec (.inboundWrite w) s =
    .next (if (arriving s w).held then arrived s w else releaseWrite (arrived s w) w.fn (arriving s w)) := by
  have hempty : w.data.isEmpty = false := by simpa using hdata
  show execInboundWrite w s = _
  rw [execInboundWrite, h, hempty]
  rfl

theorem arrived_inflight (s : State) (w : Inbound) : ((arrived s w).func w.fn).inflight = (s.func w.fn).inflight ++ [arriving s w] := by
  rw [arrived, State.func_modFunc_same]

section
variable (henabled : (s.func w.fn).enabled = true) (hdata : w.data ≠ []) (hseq : ∀ e ∈ (s.func w.fn).inflight, e.seq ≠ (s.func w.fn).seq)
include henabled hdata hseq

theorem inboundWrite_cut (hfree : mustHold (s.func w.fn) w = false) (hpieces : inboundPieces s w (arriving s w).win = .ok ps) (hps : ps ≠ []) :
    ∃ t, exec (.inboundWrite w) s = .next t ∧ SameMemory s t
      ∧ (t.func w.fn).inflight = (s.func w.fn).inflight ++ [{ arriving s w with held := false, pieces := ps }]
      ∧ ∀ p ∈ ps, .routeAck w.fn (s.func w.fn).seq p.route ∈ t.agenda := by
  have hexec := inboundWrite_eq henabled hdata
  have hheld : (arriving s w).held = false := hfree
  rw [hheld, if_neg (by decide)] at hexec
  obtain ⟨hmem, hinflight, hdue⟩ := releaseWrite_inflight (e := arriving s w) (ys := []) (arrived_inflight s w) hseq (by simp)
    ((inboundPieces_modFunc ..).trans hpieces) hps
  exact ⟨_, hexec, fun sp hsp a => (hmem sp hsp a).trans (sameMemory_modFunc _ _ _ sp hsp a), hinflight, hdue⟩

theorem inboundWrite_dropped {code : Nat} (hfree : mustHold (s.func w.fn) w = false) (hpieces : inboundPieces s w (arriving s w).win = .error code) :
    ∃ t, exec (.inboundWrite w) s = .next (notice t w.fn 0x85 [w.off, code]) ∧ SameMemory s t ∧ (t.func w.fn).inflight = (s.func w.fn).inflight := by
  have hexec := inboundWrite_eq henabled hdata
  have hheld : (arriving s w).held = false := hfree
  rw [hheld, if_neg (by decide),
    releaseWrite_error (s := arrived s w) (e := arriving s w) ((inboundPieces_modFunc ..).trans hpieces)] at hexec
  refine ⟨_, hexec, fun sp hsp a => (sameMemory_modFunc _ _ _ sp hsp a).trans (sameMemory_modFunc _ _ _ sp hsp a), ?_⟩
  have hothers : (s.func w.fn).inflight.filter (fun x => x.seq != (s.func w.fn).seq) = (s.func w.fn).inflight :=
    List.filter_eq_self.2 fun x hx => by simpa using hseq x hx
  rw [State.func_modFunc_same, arrived_inflight, List.filter_append]
  exact (congrArg (· ++ _) hothers).trans (by simp [arriving])

end

theorem inboundWrite_held (henabled : (s.func w.fn).enabled = true) (hdata : w.data ≠ []) (hheld : mustHold (s.func w.fn) w = true) :
    exec (.inboundWrite w) s = .next (arrived s w) := by
  have hexec := inboundWrite_eq henabled hdata
  have hhold : (arriving s w).held = true := hheld
  rwa [hhold, if_pos rfl] at hexec

/-! ## Pieces (R382, R399) -/

/-- A write without one of its pieces. -/
theorem InFlight.less_eq {p : RoutePiece} (hp : (e.pieces.find? fun p => p.route == q) = some p) : e.less q = { e with pieces := e.pieces.erase p } := by
  have herase : ∀ ps : List RoutePiece, (ps.find? fun p => p.route == q) = some p → (ps.eraseP fun p => p.route == q) = ps.erase p := fun ps => by
    induction ps with
    | nil => exact fun h => by cases h
    | cons y ys ih =>
      intro h
      rw [List.find?_cons] at h
      by_cases hy : (y.route == q) = true
      · rw [hy] at h
        cases h
        rw [List.eraseP_cons, hy, List.erase_cons_head]
        rfl
      · have hy : (y.route == q) = false := by simpa using hy
        rw [hy] at h
        have hne : (y == p) = false := by
          rw [beq_eq_false_iff_ne]
          rintro rfl
          have := List.find?_some h
          rw [hy] at this
          cases this
        rw [List.eraseP_cons, hy, List.erase_cons, hne]
        simp [ih h]
  rw [InFlight.less, herase _ hp]

/-- The writes of a function once a route has performed its piece of one of them. -/
def ackWrite (seq q : Nat) (x : InFlight) : Option InFlight :=
  if x.seq != seq then some x else if (x.less q).pieces.isEmpty then none else some (x.less q)

/-- The state in which a piece has been performed, and its acknowledgement counted. -/
def acked (s : State) (fn seq q : Nat) (e : InFlight) (p : RoutePiece) : State :=
  (performPiece s e p).modFunc fn fun f => { f with inflight := f.inflight.filterMap (ackWrite seq q) }

theorem routeAck_behind (hfind : ((s.func fn).inflight.find? fun e => e.seq == seq && e.by q) = some e)
    (hbehind : (s.func fn).inflight.any (fun x => x.seq < seq && x.by q) = true) :
    exec (.routeAck fn seq q) s = .next (s.due (.routeAck fn seq q)) := by
  show execRouteAck fn seq q s = _
  unfold execRouteAck
  dsimp only
  rw [hfind]
  dsimp only
  rw [hbehind, if_pos rfl]

theorem routeAck_performs {p : RoutePiece} (hfind : ((s.func fn).inflight.find? fun e => e.seq == seq && e.by q) = some e)
    (hfront : (s.func fn).inflight.any (fun x => x.seq < seq && x.by q) = false) (hp : (e.pieces.find? fun p => p.route == q) = some p) :
    exec (.routeAck fn seq q) s
      = .next (if (e.less q).by q then (acked s fn seq q e p).due (.routeAck fn seq q) else acked s fn seq q e p) := by
  show execRouteAck fn seq q s = _
  unfold execRouteAck
  dsimp only
  rw [hfind]
  dsimp only
  rw [hfront, if_neg (by decide), hp]
  rfl

/-- What stands of a write once a piece of it has been acknowledged. -/
def AckLeft (t : State) (fn seq : Nat) (e : InFlight) (p : RoutePiece) : Prop :=
  (e.pieces = [p] → ∀ x ∈ (t.func fn).inflight, x.seq ≠ seq) ∧ (e.pieces ≠ [p] → { e with pieces := e.pieces.erase p } ∈ (t.func fn).inflight)

theorem acked_left {p : RoutePiece} (he : e ∈ (s.func fn).inflight) (hseq : e.seq = seq) (honly : ∀ x ∈ (s.func fn).inflight, x.seq = seq → x = e)
    (hp : (e.pieces.find? fun p => p.route == q) = some p) (hin : ((performPiece s e p).func fn).inflight = (s.func fn).inflight) :
    AckLeft (acked s fn seq q e p) fn seq e p := by
  have hmem : p ∈ e.pieces := List.mem_of_find?_eq_some hp
  have hinflight : ((acked s fn seq q e p).func fn).inflight = (s.func fn).inflight.filterMap (ackWrite seq q) := by
    rw [acked, State.func_modFunc_same, hin]
  have hless := InFlight.less_eq hp
  refine ⟨fun hone x hx hx' => ?_, fun hmany => ?_⟩
  · rw [hinflight, List.mem_filterMap] at hx
    obtain ⟨y, hy, hack⟩ := hx
    unfold ackWrite at hack
    split at hack
    · next hne =>
      cases hack
      exact (by simpa using hne : x.seq ≠ seq) hx'
    · next hyseq =>
      have hye : y = e := honly y hy (by simpa using hyseq)
      rw [hye, hless, hone] at hack
      simp at hack
  · rw [hinflight, List.mem_filterMap]
    refine ⟨e, he, ?_⟩
    have hrest : e.pieces.erase p ≠ [] := fun hnil => by
      have hlen := List.length_erase_of_mem hmem
      rw [hnil, List.length_nil] at hlen
      have hlen1 : e.pieces.length = 1 := by
        have := List.length_pos_of_mem hmem
        omega
      obtain ⟨y, hy⟩ := List.length_eq_one_iff.1 hlen1
      rw [hy, List.mem_singleton] at hmem
      exact hmany (hmem ▸ hy)
    unfold ackWrite
    rw [if_neg (by simp [hseq]), hless, if_neg (by simpa using hrest)]

theorem AckLeft.due {p : RoutePiece} (h : AckLeft t fn seq e p) (i : Instr) : AckLeft (t.due i) fn seq e p := by
  have hfunc : (t.due i).func fn = t.func fn := State.func_congr ((Touches.due (ps := [.agenda]) (by decide) t i).keeps .funcs (by decide)) fn
  unfold AckLeft
  rw [hfunc]
  exact h

/-- What a performed piece leaves alone whether or not another piece of its route is due. -/
theorem routeAck_done {p : RoutePiece} (hfind : ((s.func fn).inflight.find? fun e => e.seq == seq && e.by q) = some e)
    (hfront : (s.func fn).inflight.any (fun x => x.seq < seq && x.by q) = false) (honly : ∀ x ∈ (s.func fn).inflight, x.seq = seq → x = e)
    (hp : (e.pieces.find? fun p => p.route == q) = some p) (hin : ((performPiece s e p).func fn).inflight = (s.func fn).inflight) :
    ∃ t, exec (.routeAck fn seq q) s = .next t ∧ Touches [.funcs, .agenda] (performPiece s e p) t ∧ AckLeft t fn seq e p
      ∧ (t.func fn).frame = ((performPiece s e p).func fn).frame := by
  have hexec := routeAck_performs hfind hfront hp
  have hseq : e.seq = seq := by
    have := List.find?_some hfind
    simp only [Bool.and_eq_true, beq_iff_eq] at this
    exact this.1
  have hleft := acked_left (List.mem_of_find?_eq_some hfind) hseq honly hp hin
  have htouch : Touches [.funcs, .agenda] (performPiece s e p) (acked s fn seq q e p) := touches_modFunc (by decide) ..
  have hframe : ((acked s fn seq q e p).func fn).frame = ((performPiece s e p).func fn).frame := by rw [acked, State.func_modFunc_same]
  split at hexec
  · have hdue : Touches [.agenda] (acked s fn seq q e p) ((acked s fn seq q e p).due (.routeAck fn seq q)) := .due (by decide) ..
    exact ⟨_, hexec, htouch.trans (hdue.mono (by decide)), hleft.due _, by rw [State.func_congr (hdue.keeps .funcs (by decide)), hframe]⟩
  · exact ⟨_, hexec, htouch, hleft, hframe⟩

theorem performPiece_message {p : RoutePiece} (hmsg : e.w.msg = true) (hfn : e.w.fn = fn) (hrun : (s.func fn).stopped = false)
    (hoff : e.w.off < 0x10000) (hat : e.w.off = ((s.func fn).consumed + (s.func fn).frame.length) % 65536) :
    performPiece s e p = s.modFunc fn fun f => { f with frame := f.frame ++ e.w.data.take (0x10000 - e.w.off) } := by
  unfold performPiece performMessage
  dsimp only
  rw [hmsg, if_pos rfl, hfn, if_neg (by omega), hrun, if_neg (by simp [← hat]; omega)]

/-- The state in which the bytes of some cells have been written. -/
def writeCells (s : State) (ys : List (Nat × Nat × Nat × Byte)) : State := ys.foldl (fun s y => s.wr y.1 y.2.1 y.2.2.2) s

theorem performCells_ordinary {ctx : Nat} (ys : List (Nat × Nat × Nat × Byte)) (hys : ∀ y ∈ ys, isPtr y.2.2.1 = false) (s : State) :
    performCells s ctx ys = writeCells s ys := by
  induction ys generalizing s with
  | nil => rfl
  | cons y ys ih =>
    obtain ⟨sp, a, va, b⟩ := y
    have hva : isPtr va = false := hys (sp, a, va, b) (by simp)
    rw [performCells, markDirty_ordinary hva, ih fun y hy => hys y (List.mem_cons_of_mem _ hy)]
    rfl

theorem touches_writeCells (s : State) (ys : List (Nat × Nat × Nat × Byte)) : Touches memoryParts s (writeCells s ys) :=
  .foldl (fun s (y : Nat × Nat × Nat × Byte) => (memOnly_wrBytes s y.1 y.2.1 [y.2.2.2]).touches (by decide)) _ _

theorem writeCells_other {sp a : Nat} (hsp : sp < 4) {ys : List (Nat × Nat × Nat × Byte)} (hys : ∀ y ∈ ys, y.1 < 4)
    (hout : ∀ y ∈ ys, y.1 ≠ sp ∨ y.2.1 ≠ a) (s : State) : (writeCells s ys).rd sp a = s.rd sp a := by
  unfold writeCells
  induction ys generalizing s with
  | nil => rfl
  | cons y ys ih =>
    rw [List.foldl_cons, ih (fun y hy => hys y (List.mem_cons_of_mem _ hy)) (fun y hy => hout y (List.mem_cons_of_mem _ hy)), State.rd_wr, if_neg]
    rintro ⟨hspace, rfl⟩
    exact (hout y (by simp)).elim (fun h => h ((spaceNo_eq (hys y (by simp)) hsp).1 hspace).symm) fun h => h rfl

theorem writeCells_at {y : Nat × Nat × Nat × Byte} {ys : List (Nat × Nat × Nat × Byte)} (hys : ∀ y ∈ ys, y.1 < 4) (hy : y ∈ ys)
    (honly : ∀ z ∈ ys, z.1 = y.1 → z.2.1 = y.2.1 → z = y) (s : State) : (writeCells s ys).rd y.1 y.2.1 = y.2.2.2 := by
  have hgeneral : ∀ zs : List (Nat × Nat × Nat × Byte), (∀ z ∈ zs, z ∈ ys) → ∀ s : State, y ∈ zs ∨ s.rd y.1 y.2.1 = y.2.2.2 →
      (writeCells s zs).rd y.1 y.2.1 = y.2.2.2 := fun zs => by
    unfold writeCells
    induction zs with
    | nil => exact fun _ s h => h.resolve_left (by simp)
    | cons z zs ih =>
      intro hsub s h
      refine ih (fun z hz => hsub z (List.mem_cons_of_mem _ hz)) _ ?_
      rw [State.rd_wr]
      by_cases hz : spaceNo y.1 = spaceNo z.1 ∧ y.2.1 = z.2.1
      · have hzy : z = y := honly z (hsub z (by simp)) ((spaceNo_eq (hys y hy) (hys z (hsub z (by simp)))).1 hz.1.symm) hz.2.symm
        rw [if_pos hz, hzy]
        exact .inr rfl
      · rw [if_neg hz]
        refine h.imp_left fun hin => ?_
        rcases List.mem_cons.1 hin with rfl | hin
        · exact absurd ⟨rfl, rfl⟩ hz
        · exact hin
  exact hgeneral ys (fun _ h => h) s (.inl hy)

theorem performPiece_cells {p : RoutePiece} {x : Window} (hmsg : e.w.msg = false) (hwin : e.win = some x) (hys : ∀ y ∈ p.cells, isPtr y.2.2.1 = false) :
    performPiece s e p = writeCells s p.cells := by
  unfold performPiece
  rw [hmsg, if_neg (by decide), hwin]
  exact performCells_ordinary p.cells hys s

/-! ## Held writes (R383) -/

theorem heldWriteRelease_next {rest : List InFlight} (hs : (s.func fn).inflight = e :: rest) (hheld : e.held = true) :
    exec (.heldWriteRelease fn e.seq) s = .next (releaseWrite s fn e) := by
  show execHeldWriteRelease fn e.seq s = _
  rw [execHeldWriteRelease, hs]
  dsimp only
  rw [hheld, if_pos (by simp)]

/-! ## Reads of the apertures (R375, R381, R383) -/

/-- The state in which a read has completed. -/
def completed (t s : State) (fn label st : Nat) (bs : List Byte) : State :=
  t.modFunc fn fun f => { f with completions := f.completions ++ [{ fn := fn, label := label, status := st, data := bs }],
                                 reads := (s.func fn).reads.filter fun r => r.label != label }

/-- A read that no earlier write holds. -/
def Unheld (s : State) (fn off n label : Nat) : Prop := (s.func fn).inflight.any (fun x => x.seq < ((s.func fn).readAt off n label).seq) = false

variable {label : Nat}

theorem inboundRead_held {rmw : Option HostAtomic} (henabled : (s.func fn).enabled = true)
    (hheld : (s.func fn).inflight.any (fun x => x.seq < ((s.func fn).readAt off n label).seq) = true) :
    exec (.inboundRead fn false off n { label := label, rmw := rmw }) s = .next ((s.modFunc fn fun f =>
      { f with reads := (s.func fn).reads.filter (fun r => r.label != label) ++ [(s.func fn).readAt off n label] }).due
        (.inboundRead fn false off n { label := label, rmw := rmw })) := by
  show execInboundRead fn false off n _ s = _
  unfold execInboundRead
  dsimp only
  rw [henabled, hheld, if_neg (by decide), if_pos (by decide)]

theorem inboundRead_message (henabled : (s.func fn).enabled = true) :
    exec (.inboundRead fn true off n { label := label, rmw := none }) s = .next (completed s s fn label 0 (List.replicate n 0xFF)) := by
  show execInboundRead fn true off n _ s = _
  unfold execInboundRead
  dsimp only
  rw [henabled, if_neg (by decide), if_neg (by simp)]
  rfl

theorem inboundRead_plain (henabled : (s.func fn).enabled = true) (hfree : Unheld s fn off n label) {st : Nat} {bs : List Byte}
    (hread : readAperture s false ((s.func fn).readAt off n label).win off n = (st, bs)) :
    exec (.inboundRead fn false off n { label := label, rmw := none }) s = .next (completed s s fn label st bs) := by
  show execInboundRead fn false off n _ s = _
  unfold execInboundRead
  dsimp only
  rw [henabled, hfree, if_neg (by decide), if_neg (by decide), hread]
  rfl

theorem inboundRead_atomic (henabled : (s.func fn).enabled = true) (hfree : Unheld s fn off n label) {a : HostAtomic} {st : Nat} {bs : List Byte}
    (hread : atomicAperture s ((s.func fn).readAt off n label).win off n a = (t, st, bs)) :
    exec (.inboundRead fn false off n { label := label, rmw := some a }) s = .next (completed t s fn label st bs) := by
  show execInboundRead fn false off n _ s = _
  unfold execInboundRead
  dsimp only
  rw [henabled, hfree, if_neg (by decide), if_neg (by decide), hread]
  rfl

theorem readAperture_none (s : State) (off n : Nat) : readAperture s false none off n = (1, []) := rfl

theorem readAperture_window {x : Window} {ps : List (Nat × Nat)} (hc : s.ctx? x.ctx = some c) (hrd : x.rd = true)
    (hps : ((List.range n).mapM fun i => sysLand s c (x.va + (off - x.off) + i) 1 false) = .ok ps)
    (hcrc : ∀ p ∈ ps, p.1 = 0 ∨ p.1 = 3 → Sparse.get false s.badCrc (crcKey p.1 p.2) = false) :
    readAperture s false (some x) off n = (0, ps.map fun p => s.rd p.1 p.2) := by
  have hgood : ps.any (fun p => (p.1 == 0 || p.1 == 3) && Sparse.get false s.badCrc (crcKey p.1 p.2)) = false := by
    rw [List.any_eq_false]
    intro p hp
    by_cases hsp : p.1 = 0 ∨ p.1 = 3
    · simp [hcrc p hp hsp]
    · simp_all
  unfold readAperture
  dsimp only
  rw [if_neg (by decide), hc]
  dsimp only
  rw [hrd, if_neg (by decide), hps]
  dsimp only
  rw [hgood, if_neg (by decide)]

theorem atomicAperture_window {x : Window} {a : HostAtomic} {sp p : Nat} (hc : s.ctx? x.ctx = some c) (hrd : x.rd = true) (hwr : x.wr = true)
    (hn : n ≠ 0) (halign : (x.va + (off - x.off)) % n = 0) (hva : isPtr (x.va + (off - x.off)) = false)
    (hland : sysLand s c (x.va + (off - x.off)) n true = .ok (sp, p)) (hgood : s.spoilt sp p n = false) :
    atomicAperture s (some x) off n a = (s.wrN sp p n (hostAtomicNew a n (s.rdN sp p n)), 0, s.rdBytes sp p n) := by
  unfold atomicAperture
  rw [Option.bind_some, hc, Option.map_some]
  dsimp only
  rw [hrd, hwr, if_neg (by simp [hn, halign]), hland]
  dsimp only
  rw [hgood, if_neg (by decide), markDirty_ordinary hva]

theorem hostAtomicNew_lt (a : HostAtomic) {old : Nat} (hold : old < 256 ^ n) : hostAtomicNew a n old < 256 ^ n := by
  have hmod : ∀ m, m % 256 ^ n < 256 ^ n := fun m => Nat.mod_lt _ (by positivity)
  unfold hostAtomicNew
  split
  · exact hmod _
  · split
    · exact hmod _
    · exact hold

end Sys2Proof.Machine
end

section
/-! PROOFS. What the cancel of launches and the reset of a function leave of requests, handles, launches and commands (R338, R367, R394). -/

namespace Sys2Proof.Machine
open Sys2Proof.Claims

variable {s t r : State} {k : UKey} {agent fn lid : Nat} {st : DWord} {l : Launch} {u v : Unit}

/-! ## What a cancel leaves of requests, handles and launches -/

/-- What a function has of handles and of its agents' requests. -/
def Func.agency (f : Func) : List (Nat × DWord) × List (Nat × DWord × Nat) × Nat × List Handle := (f.agent, f.agentDone, f.hgen, f.handles)

/-- From a state to another in which requests may be gone or orphaned, launches gone or cancelled, and handles and agents' requests stand. -/
structure Recedes (s t : State) : Prop where
  reqs : ∀ q ∈ t.outReqs, ∃ p ∈ s.outReqs, q.fn = p.fn ∧ (p.orphan = true → q.orphan = true)
  agency : ∀ fn, (t.func fn).agency = (s.func fn).agency
  launches : ∀ fn lid m, t.launch? fn lid = some m →
    (∃ l, s.launch? fn lid = some l ∧ m.state = l.state ∧ m.failed = l.failed) ∨ (m.state = .cancelled ∧ m.failed = true)

theorem recedes_of_fields (hreqs : t.outReqs = s.outReqs) (hfuncs : t.funcs = s.funcs) (hlaunches : t.launches = s.launches) : Recedes s t where
  reqs q hq := ⟨q, hreqs ▸ hq, rfl, id⟩
  agency fn := by rw [State.func_congr hfuncs]
  launches fn lid m hm := .inl ⟨m, by rwa [State.launch?_congr hlaunches] at hm, rfl, rfl⟩

theorem Touches.recedes {ps : List Part} (h : Touches ps s t) (hreqs : Part.outReqs ∉ ps) (hfuncs : Part.funcs ∉ ps) (hlaunches : Part.launches ∉ ps) :
    Recedes s t := recedes_of_fields (h.keeps .outReqs hreqs) (h.keeps .funcs hfuncs) (h.keeps .launches hlaunches)

theorem MemOnly.recedes (h : MemOnly s t) : Recedes s t := (h.touches (ps := memoryParts) (by decide)).recedes (by decide) (by decide) (by decide)

theorem Recedes.refl (s : State) : Recedes s s := recedes_of_fields rfl rfl rfl

theorem Recedes.trans (h : Recedes s t) (h' : Recedes t r) : Recedes s r where
  reqs q hq := by
    obtain ⟨p, hp, hfn, horphan⟩ := h'.reqs q hq
    obtain ⟨o, ho, hfn', horphan'⟩ := h.reqs p hp
    exact ⟨o, ho, hfn.trans hfn', horphan ∘ horphan'⟩
  agency fn := (h'.agency fn).trans (h.agency fn)
  launches fn lid m hm := by
    rcases h'.launches fn lid m hm with ⟨l, hl, hstate, hfailed⟩ | hm
    · rcases h.launches fn lid l hl with ⟨l', hl', hstate', hfailed'⟩ | hl'
      · exact .inl ⟨l', hl', hstate.trans hstate', hfailed.trans hfailed'⟩
      · exact .inr ⟨hstate.trans hl'.1, hfailed.trans hl'.2⟩
    · exact .inr hm

/-- The last change first, the ones before it after it. -/
theorem Recedes.last (h' : Recedes t r) (h : Recedes s t) : Recedes s r := h.trans h'

theorem Recedes.foldl {α : Type} {f : State → α → State} (hf : ∀ s x, Recedes s (f s x)) (xs : List α) (s : State) : Recedes s (xs.foldl f s) := by
  induction xs generalizing s with
  | nil => exact .refl s
  | cons x xs ih => exact (hf s x).trans (ih _)

theorem Recedes.ite {c : Prop} [Decidable c] (h : Recedes s t) (h' : Recedes s r) : Recedes s (if c then t else r) := by
  split
  · exact h
  · exact h'

theorem recedes_modUnit (s : State) (j : UKey) (f : Unit → Unit) : Recedes s (s.modUnit j f) := recedes_of_fields rfl rfl rfl

theorem recedes_modCore (s : State) (n : Nat) (f : Core → Core) : Recedes s (s.modCore n f) := recedes_of_fields rfl rfl rfl

theorem recedes_modDie (s : State) (n : Nat) (f : Die → Die) : Recedes s (s.modDie n f) := recedes_of_fields rfl rfl rfl

theorem recedes_due (s : State) (i : Instr) : Recedes s (s.due i) :=
  (Touches.due (ps := [.agenda]) (by decide) s i).recedes (by decide) (by decide) (by decide)

theorem recedes_modFunc (s : State) (n : Nat) (f : Func → Func) (hf : ∀ x, (f x).agency = x.agency) : Recedes s (s.modFunc n f) where
  reqs q hq := ⟨q, hq, rfl, id⟩
  agency fn := by
    rw [State.func_modFunc]
    split
    · next h => rw [hf, h]
    · rfl
  launches _ _ m hm := .inl ⟨m, hm, rfl, rfl⟩

theorem recedes_modLaunch (s : State) (fn lid : Nat) (f : Launch → Launch) (hname : ∀ l, (f l).fn = l.fn ∧ (f l).lid = l.lid)
    (hf : ∀ l, ((f l).state = l.state ∧ (f l).failed = l.failed) ∨ ((f l).state = .cancelled ∧ (f l).failed = true)) :
    Recedes s (s.modLaunch fn lid f) where
  reqs q hq := ⟨q, hq, rfl, id⟩
  agency _ := rfl
  launches fn' lid' m hm := by
    by_cases h : fn' = fn ∧ lid' = lid
    · rw [h.1, h.2, State.launch?_modLaunch s fn lid f hname, Option.map_eq_some_iff] at hm
      obtain ⟨l, hl, rfl⟩ := hm
      rw [h.1, h.2]
      exact (hf l).imp_left fun hkept => ⟨l, hl, hkept⟩
    · have hother : (s.modLaunch fn lid f).launch? fn' lid' = s.launch? fn' lid' :=
        find?_map_other (fun l : Launch => l.fn == fn && l.lid == lid) (fun l : Launch => l.fn == fn' && l.lid == lid') f (fun l hl => by
          simp only [Bool.and_eq_true, beq_iff_eq] at hl
          simp only [hname, hl, Bool.and_eq_false_iff, beq_eq_false_iff_ne]
          omega) s.launches
      exact .inl ⟨m, hother ▸ hm, rfl, rfl⟩

theorem recedes_filterLaunches (s : State) (fn lid : Nat) :
    Recedes s { s with launches := s.launches.filter fun x => !(x.fn == fn && x.lid == lid) } where
  reqs q hq := ⟨q, hq, rfl, id⟩
  agency _ := rfl
  launches fn' lid' m hm := by
    have hname := State.launch?_spec hm
    have hin := List.mem_filter.1 (List.mem_of_find?_eq_some hm)
    refine .inl ⟨m, ?_, rfl, rfl⟩
    rw [← hm]
    refine (find?_filter_sub (fun a ha => ?_) s.launches).symm
    have hne := hin.2
    simp only [hname, Bool.not_eq_true', Bool.and_eq_false_iff, beq_eq_false_iff_ne] at hne
    simp only [Bool.and_eq_true, beq_iff_eq] at ha
    simp only [ha, Bool.not_eq_true', Bool.and_eq_false_iff, beq_eq_false_iff_ne]
    exact hne

theorem recedes_orphan (s : State) (p : OutReq → Bool) : Recedes s (orphan s p) where
  reqs q hq := by
    obtain ⟨o, ho, hq⟩ := List.mem_filterMap.1 (show q ∈ s.outReqs.filterMap _ from hq)
    refine ⟨o, ho, ?_⟩
    split at hq
    · cases hq
      exact ⟨rfl, id⟩
    · split at hq
      · cases hq
        exact ⟨rfl, fun _ => rfl⟩
      · cases hq
  agency _ := rfl
  launches _ _ m hm := .inl ⟨m, hm, rfl, rfl⟩

/-! ## Records, signals and levels -/

theorem recedes_ringWrite (s : State) (va size pos : Nat) (bs : List Byte) : Recedes s (ringWrite s va size pos bs) := by
  induction bs generalizing s pos with
  | nil => exact .refl s
  | cons b bs ih => exact (MemOnly.recedes (State.wr_cases ..)).trans (ih ..)

theorem recedes_ringPump (s : State) (fn n : Nat) : Recedes s (ringPump s fn n) := by
  induction n generalizing s with
  | zero => exact .refl s
  | succ n ih =>
    unfold ringPump
    dsimp only
    split
    · exact .refl s
    · split
      · exact .refl s
      · exact .last (ih _) <| .last (recedes_modFunc _ _ _ fun _ => rfl) <| recedes_ringWrite ..

theorem recedes_sendRecord (s : State) (fn : Nat) (bs : List Byte) : Recedes s (sendRecord s fn bs) :=
  .last (recedes_ringPump ..) (recedes_modFunc _ _ _ fun _ => rfl)

theorem recedes_notice (s : State) (fn op : Nat) (fields : List Nat) : Recedes s (notice s fn op fields) := recedes_sendRecord ..

theorem recedes_reply (s : State) (x : Rpc) (code off : Nat) : Recedes s (reply s x code off) := recedes_sendRecord ..

theorem recedes_signalStep (s : State) (fn ctx va lid : Nat) (failed : Bool) (know : Know) : Recedes s (signalStep s fn ctx va lid failed know) := by
  unfold signalStep
  split
  · exact .refl s
  · split
    · exact recedes_notice ..
    · split
      · exact recedes_notice ..
      · dsimp only
        split
        · exact recedes_notice ..
        · split
          · exact recedes_notice ..
          · next m a _ _ _ =>
            have hwr := (memOnly_wrN s m a 8 (signalDown (s.rdN m a 8) 1 failed)).recedes
            exact .ite (.last ((touches_setHeld ..).recedes (by decide) (by decide) (by decide)) hwr) hwr

theorem recedes_dropLevel (s : State) (fn kind id : Nat) : Recedes s (s.dropLevel fn kind id) := recedes_of_fields rfl rfl rfl

theorem recedes_levelDown (s : State) (fn : Nat) (failed : Bool) (n kind id : Nat) : Recedes s (levelDown s fn failed n kind id) := by
  induction n generalizing s failed kind id with
  | zero => exact .refl s
  | succ n ih =>
    cases h : s.level? fn kind id with
    | none =>
      rw [levelDown_none h]
      exact .refl s
    | some p =>
      rw [levelDown_succ h]
      exact .ite (recedes_of_fields rfl rfl rfl) <| .last (ih ..) <| .last (recedes_dropLevel ..) <| recedes_signalStep ..

theorem recedes_forgetLaunch (s : State) (fn lid : Nat) : Recedes s (forgetLaunch s fn lid) := by
  unfold forgetLaunch
  split
  · exact .refl s
  · refine .ite (.refl s) ?_
    dsimp only
    exact .ite (recedes_filterLaunches ..) <| .last (recedes_levelDown ..) <| .last (recedes_signalStep ..) <| recedes_filterLaunches ..

/-! ## Commands, units and launches -/

theorem recedes_addEnergy (s : State) (k : UKey) (n : Nat) : Recedes s (addEnergy s k n) := recedes_modUnit ..

theorem recedes_spend (s : State) (die e est : Nat) : Recedes s (spend s die e est) := recedes_of_fields rfl rfl rfl

theorem recedes_settlePermit (s : State) (k : UKey) (core : Nat) (m : Cmd) : Recedes s (settlePermit s k core m) :=
  .ite (.last (recedes_spend ..) (recedes_addEnergy ..)) (.refl s)

theorem recedes_chargePass (s : State) (core : Nat) (p : Pass) : Recedes s (chargePass s core p) :=
  .ite (.refl s) <| .last (recedes_spend ..) <| .foldl (fun s (x : UKey × Nat) => recedes_addEnergy s x.1 _) _ _

theorem recedes_passEnd (s : State) (core : Nat) : Recedes s (passEnd s core) := by
  unfold passEnd
  refine .last (recedes_modDie ..) <| .last (recedes_modCore ..) ?_
  split
  · exact recedes_chargePass ..
  · exact .refl s

theorem recedes_leavePass (s : State) (core : Nat) (k : UKey) (agent : Nat) : Recedes s (leavePass s core k agent) := by
  unfold leavePass
  split
  · exact .refl s
  · exact .ite (.refl s) <| .ite (.last (recedes_passEnd ..) (recedes_modCore ..)) (recedes_modCore ..)

theorem recedes_leaveEngine (s : State) (k : UKey) (agent : Nat) : Recedes s (leaveEngine s k agent) := recedes_of_fields rfl rfl rfl

theorem recedes_copyPin (s : State) (ctx slot : Nat) (up : Bool) : Recedes s (copyPin s ctx slot up) := recedes_of_fields rfl rfl rfl

theorem recedes_dropCmd (s : State) (k : UKey) (agent : Nat) : Recedes s (dropCmd s k agent) := by
  unfold dropCmd
  split
  · exact .refl s
  · next u _ =>
    split
    · exact .refl s
    · exact .last (recedes_modUnit ..) <| .last (recedes_modDie ..) <| .last (recedes_modCore ..) <| .last (recedes_leaveEngine ..) <|
        .last (recedes_leavePass ..) <| .last (recedes_modUnit ..) <| .foldl (fun s p => recedes_copyPin s u.ctx p false) _ _

theorem recedes_cmdEnd (s : State) (k : UKey) (agent : Nat) (f : Cmd → Cmd) (st : DWord) : Recedes s (cmdEnd (s.modCmd k agent f) k agent st) :=
  .last (recedes_modUnit ..) (recedes_modUnit ..)

theorem recedes_cancelCmds (s : State) (k : UKey) : Recedes s (cancelCmds s k) := by
  unfold cancelCmds
  split
  · exact .refl s
  · next u _ =>
    exact .last (.foldl (fun s m => .ite (.last (recedes_dropCmd ..) (.ite (recedes_settlePermit ..) (.refl s))) (.ite (.refl s) (recedes_cmdEnd ..))) _ _)
      (recedes_orphan ..)

theorem recedes_modGrp (s : State) (k : UKey) (gid : Nat) (f : Group → Group) : Recedes s (s.modGrp k gid f) := recedes_modUnit ..

theorem recedes_stopSibling (s : State) (k : UKey) (gid src : Nat) : Recedes s (stopSibling s k gid src) := by
  rcases stopSibling_cases s k gid src with h | ⟨_, _, h⟩
  · rw [h]
    exact .refl s
  · exact h.recedes.last (recedes_modGrp ..)

theorem recedes_haltSibling (s : State) (k : UKey) (src : Nat) (g : Group) : Recedes s (haltSibling s k src g) :=
  .ite (.refl s) <| .ite (.last (recedes_stopSibling ..) (recedes_modGrp ..)) (.last (recedes_due ..) (recedes_modGrp ..))

theorem recedes_doomUnit (s : State) (k : UKey) (x : Trap) : Recedes s (doomUnit s k x) := by
  unfold doomUnit
  split
  · exact .refl s
  · refine .last (.foldl (fun s g => ?_) _ _) <| .last (recedes_cancelCmds ..) (recedes_modUnit ..)
    split
    · exact recedes_haltSibling ..
    · exact recedes_due ..
    · exact recedes_stopSibling ..

theorem recedes_sysWrite (s : State) (c : Ctx) (va n v : Nat) : Recedes s (sysWrite s c va n v) := (memOnly_sysWrite ..).recedes

theorem recedes_cancelSaved (s : State) (l : Launch) (v : Vac) : Recedes s (cancelSaved s l v) := by
  unfold cancelSaved
  split
  · exact .refl s
  · refine .last (.foldl (fun s n => ?_) _ _) (recedes_orphan ..)
    dsimp only
    split
    · exact .ite (.last (recedes_sysWrite ..) <| .last (recedes_sysWrite ..) <| recedes_sysWrite ..) (.refl s)
    · exact .refl s

/-- A launch as its cancel leaves it. -/
def Launch.cancelledAs (know : Know) (l : Launch) : Launch :=
  { l with state := .cancelled, failed := true, bound := false, ranges := [], resume := [], wake := [], early := [], taken := [], owes := true,
           know := know }

/-- What the units of a launch that were vacated knew, joined to what it knows. -/
def Launch.knownAtEnd (l : Launch) : Know :=
  l.resume.foldl (fun k v => match v.unit with | some u => joinKnow k (u.race.all u.key) | none => k) l.know

/-- The launches that run on the device, without one. -/
def State.offFront (s : State) (l : Launch) : State := { s with front := s.front.filter fun x => !(x.1 == l.fn && x.2.1 == l.lid) }

theorem finishLaunch_cancelled (s : State) (l : Launch) : finishLaunch s l .cancelled true =
    forgetLaunch ((((l.resume.foldl (fun s v => cancelSaved s l v) s).modLaunch l.fn l.lid (Launch.cancelledAs l.knownAtEnd)).offFront l).modFunc l.fn
      fun f => { f with history := ((l.lid, true) :: f.history).take 4096 }) l.fn l.lid := rfl

theorem recedes_offFront (s : State) (l : Launch) : Recedes s (s.offFront l) := recedes_of_fields rfl rfl rfl

theorem recedes_finishLaunch (s : State) (l : Launch) : Recedes s (finishLaunch s l .cancelled true) := by
  rw [finishLaunch_cancelled]
  exact .last (recedes_forgetLaunch ..) <| .last (recedes_modFunc _ _ _ fun _ => rfl) <| .last (recedes_offFront ..) <|
    .last (recedes_modLaunch _ _ _ _ (fun _ => ⟨rfl, rfl⟩) fun _ => .inr ⟨rfl, rfl⟩) <| .foldl (fun s v => recedes_cancelSaved s l v) _ _

theorem recedes_freePlanes (s : State) (core : Nat) : Recedes s (freePlanes s core) := by
  unfold freePlanes
  dsimp only
  split
  · exact .refl s
  · exact .ite (.refl s) (recedes_of_fields rfl rfl rfl)

theorem recedes_retireHistory (s : State) (ctx : Nat) : Recedes s (retireHistory s ctx) :=
  (retireHistory_touches s ctx).recedes (by decide) (by decide) (by decide)

/-- A unit under restore and the steps that are due of it, gone. -/
def State.offCore (s : State) (u : Unit) : State :=
  { s with units := s.units.filter fun x => x.key != u.key,
           agenda := s.agenda.filter fun i => !(match i with | .unitRestore k _ | .unitVacate k => k == u.key | _ => false) }

/-- A launch with an entry more on its resume list. -/
def Launch.resumed (v : Vac) (l : Launch) : Launch := { l with resume := l.resume ++ [v] }

/-- The state in which the interrupt state that a unit has gathered stands in its image. -/
def uiSaved (s : State) (u : Unit) (l : Launch) : State :=
  if u.ui == .start then s
  else
    let c := s.ctxOf u
    sysWriteBytes s c (c.arena + u.save + l.imgUnit + 0x1000) (fields 0x300 (uiFields 0 ((savedUi (imageRd s c u.save) l.imgUnit).merge u.ui l)))

theorem unplace_eq (s : State) (u : Unit) (l : Launch) : ∃ v, unplace s u l =
    retireHistory (freePlanes (((dropGroupWaits (uiSaved s u l) u.ctx u.key restoreGid).offCore u).modLaunch l.fn l.lid (Launch.resumed v)) u.core) u.ctx :=
  ⟨_, rfl⟩

theorem memOnly_uiSaved (s : State) (u : Unit) (l : Launch) : MemOnly s (uiSaved s u l) := by
  unfold uiSaved
  split
  · exact .refl s
  · exact memOnly_sysWriteBytes ..

theorem recedes_offCore (s : State) (u : Unit) : Recedes s (s.offCore u) := recedes_of_fields rfl rfl rfl

theorem recedes_dropGroupWaits (s : State) (ctx : Nat) (u : UKey) (gid : Nat) : Recedes s (dropGroupWaits s ctx u gid) :=
  recedes_of_fields rfl rfl rfl

theorem recedes_unplace (s : State) (u : Unit) (l : Launch) : Recedes s (unplace s u l) := by
  obtain ⟨v, hv⟩ := unplace_eq s u l
  rw [hv]
  exact .last (recedes_retireHistory ..) <| .last (recedes_freePlanes ..) <|
    .last (recedes_modLaunch _ _ _ _ (fun _ => ⟨rfl, rfl⟩) fun _ => .inl ⟨rfl, rfl⟩) <| .last (recedes_offCore ..) <|
    .last (recedes_dropGroupWaits ..) (memOnly_uiSaved ..).recedes

theorem recedes_cancelLaunch (s : State) (fn lid level : Nat) (rpc : Bool) : Recedes s (cancelLaunch s fn lid level rpc) := by
  unfold cancelLaunch
  split
  · exact .refl s
  · next l _ =>
    exact .ite (.refl s) <| .last (.foldl (fun s (u : Unit) => recedes_doomUnit s u.key _) _ _) <| .last (recedes_finishLaunch ..) <|
      .foldl (fun s (u : Unit) => recedes_unplace s u l) _ _

end Sys2Proof.Machine
end

section
/-! PROOFS. The reset of a function (R367, R394), and what the host port's steps do, together (R376 to R383). -/

namespace Sys2Proof.Machine
open Sys2Proof.Claims

variable {s t r : State} {j k : UKey} {a agent fn lid : Nat} {st : DWord} {l : Launch} {u v : Unit} {P Q : Cmd → Prop}

theorem foldl_keeps {α : Type} {I : State → Prop} {f : State → α → State} {xs : List α} (hf : ∀ s, ∀ x ∈ xs, I s → I (f s x)) (h : I s) :
    I (xs.foldl f s) := by
  induction xs generalizing s with
  | nil => exact h
  | cons x xs ih => exact ih (fun s y hy => hf s y (List.mem_cons_of_mem _ hy)) (hf s x (by simp) h)

/-- A fold one of whose steps brings about what every step keeps. -/
theorem foldl_reaches {α : Type} {I J : State → Prop} {f : State → α → State} {xs : List α} {x : α} (hx : x ∈ xs)
    (hI : ∀ s, ∀ y ∈ xs, I s → I (f s y)) (hJ : ∀ s, ∀ y ∈ xs, J s → J (f s y)) (hgo : ∀ s, I s → J (f s x)) (h : I s) : J (xs.foldl f s) := by
  induction xs generalizing s with
  | nil => cases hx
  | cons y ys ih =>
    rw [List.foldl_cons]
    rcases List.mem_cons.1 hx with heq | hx
    · subst heq
      exact foldl_keeps (fun s z hz => hJ s z (List.mem_cons_of_mem _ hz)) (hgo s h)
    · exact ih hx (fun s z hz => hI s z (List.mem_cons_of_mem _ hz)) (fun s z hz => hJ s z (List.mem_cons_of_mem _ hz)) (hI s y (by simp) h)

/-! ## Commands that stand -/

/-- A unit has a command of an agent, and each of that agent is as `P` says. -/
structure UnitBears (agent : Nat) (P : Cmd → Prop) (u : Unit) : Prop where
  found : (u.cmd? agent).isSome = true
  all : ∀ x ∈ u.cmds, x.1 = agent → P x.2

theorem UnitBears.of_cmds (h : UnitBears agent P u) (hcmds : v.cmds = u.cmds) : UnitBears agent P v :=
  ⟨by rw [Unit.cmd?, hcmds]; exact h.found, by rw [hcmds]; exact h.all⟩

theorem UnitBears.cmd (h : UnitBears agent P u) : ∃ m, u.cmd? agent = some m ∧ P m := by
  obtain ⟨m, hm⟩ := Option.isSome_iff_exists.1 h.found
  obtain ⟨x, hx, rfl⟩ := Option.map_eq_some_iff.1 hm
  exact ⟨_, hm, h.all x (List.mem_of_find?_eq_some hx) (by simpa using List.find?_some hx)⟩

/-- A unit that is under no restore has a command of an agent, and each of that agent is as `P` says. -/
structure Bears (k : UKey) (agent : Nat) (P : Cmd → Prop) (s : State) : Prop where
  unit : ∃ u, s.unit? k = some u ∧ UnitBears agent P u
  restored : ∀ x ∈ s.units, x.key = k → x.unrestored = false

/-- What `f` makes of each unit of a key is as it was, but that the commands of the agent are as `Q` says. -/
theorem Bears.modUnit (h : Bears k agent P s) (j : UKey) (f : Unit → Unit) (hkey : ∀ u, (f u).key = u.key)
    (hrestored : ∀ u, (f u).unrestored = u.unrestored) (hother : j ≠ k → ∀ m, P m → Q m) (hf : ∀ u, j = k → UnitBears agent P u → UnitBears agent Q (f u)) :
    Bears k agent Q (s.modUnit j f) where
  unit := by
    obtain ⟨u, hu, hbears⟩ := h.unit
    by_cases hj : j = k
    · exact ⟨f u, by rw [hj, State.unit?_modUnit f fun u h => (hkey u).trans h, hu]; rfl, hf u hj hbears⟩
    · refine ⟨u, by rw [State.unit?_modUnit_ne f (fun u h => (hkey u).trans h) (Ne.symm hj), hu], hbears.found, fun x hx hxa => ?_⟩
      exact hother hj _ (hbears.all x hx hxa)
  restored x hx hk := by
    obtain ⟨y, hy, rfl⟩ := List.mem_map.1 (show x ∈ s.units.map _ from hx)
    by_cases hj : (y.key == j) = true
    · rw [if_pos hj] at hk ⊢
      exact (hrestored y).trans (h.restored y hy ((hkey y).symm.trans hk))
    · rw [if_neg hj] at hk ⊢
      exact h.restored y hy hk

theorem Bears.of_units (h : Bears k agent P s) (hunits : t.units = s.units) : Bears k agent P t where
  unit := by
    obtain ⟨u, hu, hbears⟩ := h.unit
    exact ⟨u, (State.unit?_congr hunits k).trans hu, hbears⟩
  restored := by
    rw [hunits]
    exact h.restored

/-- A change of commands that makes of those `P` says some that `Q` says, with the commands of `agent` of `k` among the changed or `P` as `Q`. -/
theorem Bears.modCmd (h : Bears k agent P s) (j : UKey) (a : Nat) (f : Cmd → Cmd) (hf : ∀ m, P m → Q (if j = k ∧ a = agent then f m else m)) :
    Bears k agent Q (s.modCmd j a f) := by
  refine h.modUnit j (fun u => u.modCmd a f) (fun _ => rfl) (fun _ => rfl) (fun hj m hm => ?_) fun u hj hu => ⟨?_, fun x hx hxa => ?_⟩
  · have := hf m hm
    rwa [if_neg fun h => hj h.1] at this
  · by_cases ha : a = agent
    · rw [ha, Unit.cmd?_modCmd, Option.isSome_map]
      exact hu.found
    · have hkept : (u.modCmd a f).cmd? agent = u.cmd? agent := congrArg (Option.map Prod.snd)
        (find?_map_other (fun m : Nat × Cmd => m.1 == a) (fun m : Nat × Cmd => m.1 == agent) (fun m : Nat × Cmd => (m.1, f m.2))
          (fun m hm => by simpa [(by simpa using hm : m.1 = a)] using ha) u.cmds)
      rw [hkept]
      exact hu.found
  · obtain ⟨y, hy, rfl⟩ := List.mem_map.1 (show x ∈ u.cmds.map _ from hx)
    by_cases hya : y.1 = a
    · rw [if_pos (by simpa using hya)] at hxa ⊢
      have := hf y.2 (hu.all y hy hxa)
      rwa [if_pos ⟨hj, hya.symm.trans hxa⟩] at this
    · rw [if_neg (by simpa using hya)] at hxa ⊢
      have := hf y.2 (hu.all y hy hxa)
      rwa [if_neg fun h => hya (hxa.trans h.2.symm)] at this

/-! ## Changes that leave a unit's commands of an agent -/

/-- From a state to another in which the commands of an agent of a unit stand. -/
structure LeavesCmd (k : UKey) (agent : Nat) (s t : State) : Prop where
  keeps : ∀ P, Bears k agent P s → Bears k agent P t

theorem LeavesCmd.refl (s : State) : LeavesCmd k agent s s := ⟨fun _ h => h⟩

theorem leavesCmd_of_units (h : t.units = s.units) : LeavesCmd k agent s t := ⟨fun _ hs => hs.of_units h⟩

theorem Touches.leavesCmd {ps : List Part} (h : Touches ps s t) (hunits : Part.units ∉ ps) : LeavesCmd k agent s t :=
  leavesCmd_of_units (h.keeps .units hunits)

theorem MemOnly.leavesCmd (h : MemOnly s t) : LeavesCmd k agent s t := (h.touches (ps := memoryParts) (by decide)).leavesCmd (by decide)

/-- The last change first, the ones before it after it. -/
theorem LeavesCmd.last (h' : LeavesCmd k agent t r) (h : LeavesCmd k agent s t) : LeavesCmd k agent s r := ⟨fun P hs => h'.keeps P (h.keeps P hs)⟩

theorem LeavesCmd.foldl {α : Type} {f : State → α → State} (hf : ∀ s x, LeavesCmd k agent s (f s x)) (xs : List α) (s : State) :
    LeavesCmd k agent s (xs.foldl f s) := ⟨fun P hs => foldl_keeps (fun s x _ => (hf s x).keeps P) hs⟩

theorem LeavesCmd.ite {c : Prop} [Decidable c] (h : LeavesCmd k agent s t) (h' : LeavesCmd k agent s r) :
    LeavesCmd k agent s (if c then t else r) := by
  split
  · exact h
  · exact h'

theorem leavesCmd_modUnit (s : State) (j : UKey) (f : Unit → Unit) (hf : ∀ u, (f u).key = u.key ∧ (f u).unrestored = u.unrestored ∧ (f u).cmds = u.cmds) :
    LeavesCmd k agent s (s.modUnit j f) :=
  ⟨fun _ hs => hs.modUnit j f (fun u => (hf u).1) (fun u => (hf u).2.1) (fun _ _ h => h) fun u _ hu => hu.of_cmds (hf u).2.2⟩

theorem leavesCmd_modCore (s : State) (n : Nat) (f : Core → Core) : LeavesCmd k agent s (s.modCore n f) := leavesCmd_of_units rfl

theorem leavesCmd_modDie (s : State) (n : Nat) (f : Die → Die) : LeavesCmd k agent s (s.modDie n f) := leavesCmd_of_units rfl

theorem leavesCmd_spend (s : State) (die e est : Nat) : LeavesCmd k agent s (spend s die e est) := leavesCmd_of_units rfl

theorem leavesCmd_leaveEngine (s : State) (j : UKey) (a : Nat) : LeavesCmd k agent s (leaveEngine s j a) := leavesCmd_of_units rfl

theorem leavesCmd_copyPin (s : State) (ctx slot : Nat) (up : Bool) : LeavesCmd k agent s (copyPin s ctx slot up) := leavesCmd_of_units rfl

theorem leavesCmd_orphan (s : State) (p : OutReq → Bool) : LeavesCmd k agent s (orphan s p) := leavesCmd_of_units rfl

theorem leavesCmd_modGrp (s : State) (j : UKey) (gid : Nat) (f : Group → Group) : LeavesCmd k agent s (s.modGrp j gid f) :=
  leavesCmd_modUnit _ _ _ fun _ => ⟨rfl, rfl, rfl⟩

theorem leavesCmd_wakeUnit (s : State) (j : UKey) (p : Wait → Bool) : LeavesCmd k agent s (wakeUnit s j p) :=
  leavesCmd_modUnit _ _ _ fun _ => ⟨rfl, rfl, rfl⟩

theorem leavesCmd_addEnergy (s : State) (j : UKey) (n : Nat) : LeavesCmd k agent s (addEnergy s j n) :=
  leavesCmd_modUnit _ _ _ fun _ => ⟨rfl, rfl, rfl⟩

theorem leavesCmd_settlePermit (s : State) (j : UKey) (core : Nat) (m : Cmd) : LeavesCmd k agent s (settlePermit s j core m) :=
  .ite (.last (leavesCmd_spend ..) (leavesCmd_addEnergy ..)) (.refl s)

theorem leavesCmd_chargePass (s : State) (core : Nat) (p : Pass) : LeavesCmd k agent s (chargePass s core p) :=
  .ite (.refl s) <| .last (leavesCmd_spend ..) <| .foldl (fun s (x : UKey × Nat) => leavesCmd_addEnergy s x.1 _) _ _

theorem leavesCmd_passEnd (s : State) (core : Nat) : LeavesCmd k agent s (passEnd s core) := by
  unfold passEnd
  refine .last (leavesCmd_modDie ..) <| .last (leavesCmd_modCore ..) ?_
  split
  · exact leavesCmd_chargePass ..
  · exact .refl s

theorem leavesCmd_leavePass (s : State) (core : Nat) (j : UKey) (a : Nat) : LeavesCmd k agent s (leavePass s core j a) := by
  unfold leavePass
  split
  · exact .refl s
  · exact .ite (.refl s) <| .ite (.last (leavesCmd_passEnd ..) (leavesCmd_modCore ..)) (leavesCmd_modCore ..)

/-- A unit without the commands of an agent. -/
def Unit.withoutCmds (a : Nat) (u : Unit) : Unit := { u with cmds := u.cmds.filter fun x => x.1 != a }

theorem leavesCmd_withoutCmds (s : State) (hne : j = k → a ≠ agent) : LeavesCmd k agent s (s.modUnit j (Unit.withoutCmds a)) := ⟨fun P hs => by
  refine hs.modUnit j (Unit.withoutCmds a) (fun _ => rfl) (fun _ => rfl) (fun _ _ h => h) fun u hj hu => ⟨?_, fun x hx hxa => ?_⟩
  · have hkept : (u.withoutCmds a).cmd? agent = u.cmd? agent :=
      congrArg (Option.map Prod.snd) (find?_filter_sub (p := fun x : Nat × Cmd => x.1 == agent) (q := fun x => x.1 != a)
        (fun x hx => by simpa [(by simpa using hx : x.1 = agent)] using (hne hj).symm) u.cmds)
    rw [hkept]
    exact hu.found
  · exact hu.all x (List.mem_of_mem_filter (show x ∈ u.cmds.filter _ from hx)) hxa⟩

theorem leavesCmd_dropCmd (s : State) (hne : j = k → a ≠ agent) : LeavesCmd k agent s (dropCmd s j a) := by
  unfold dropCmd
  split
  · exact .refl s
  · next u _ =>
    split
    · exact .refl s
    · exact .last (leavesCmd_wakeUnit ..) <| .last (leavesCmd_modDie ..) <| .last (leavesCmd_modCore ..) <| .last (leavesCmd_leaveEngine ..) <|
        .last (leavesCmd_leavePass ..) <| .last (leavesCmd_withoutCmds _ hne) <| .foldl (fun s p => leavesCmd_copyPin s u.ctx p false) _ _

theorem leavesCmd_stopSibling (s : State) (j : UKey) (gid src : Nat) : LeavesCmd k agent s (stopSibling s j gid src) := by
  rcases stopSibling_cases s j gid src with h | ⟨_, _, h⟩
  · rw [h]
    exact .refl s
  · exact h.leavesCmd.last (leavesCmd_modGrp ..)

theorem leavesCmd_due (s : State) (i : Instr) : LeavesCmd k agent s (s.due i) :=
  (Touches.due (ps := [.agenda]) (by decide) s i).leavesCmd (by decide)

theorem leavesCmd_haltSibling (s : State) (j : UKey) (src : Nat) (g : Group) : LeavesCmd k agent s (haltSibling s j src g) :=
  .ite (.refl s) <| .ite (.last (leavesCmd_stopSibling ..) (leavesCmd_modGrp ..)) (.last (leavesCmd_due ..) (leavesCmd_modGrp ..))

/-! ## The cancel of a launch leaves a copy that is done (R338) -/

/-- A copy that has ended with a status. -/
def EndedAs (st : DWord) (m : Cmd) : Prop := m.copies = true ∧ m.state = .done ∧ m.status = st

theorem bears_cancelCmds (h : Bears k agent (EndedAs st) s) (j : UKey) : Bears k agent (EndedAs st) (cancelCmds s j) := by
  unfold cancelCmds
  split
  · exact h
  · next u hu =>
    refine foldl_keeps (fun s m hm hs => ?_) ((leavesCmd_orphan s (OutReq.ofUnit j)).keeps _ h)
    have hmine : j = k → m.1 = agent → EndedAs st m.2 := fun hj ha => by
      obtain ⟨v, hv, hbears⟩ := h.unit
      rw [← hj, hu] at hv
      cases hv
      exact hbears.all m hm ha
    by_cases hcase : j = k ∧ m.1 = agent
    · obtain ⟨hcopies, hdone, _⟩ := hmine hcase.1 hcase.2
      rw [hcopies, if_neg (by decide), if_pos hdone]
      exact hs
    · have hother : j = k → m.1 ≠ agent := fun hj ha => hcase ⟨hj, ha⟩
      have hdrop : ∀ s, LeavesCmd k agent s (dropCmd s j m.1) := fun s => leavesCmd_dropCmd s hother
      have hmod : ∀ (s : State) (f : Cmd → Cmd), Bears k agent (EndedAs st) s → Bears k agent (EndedAs st) (s.modCmd j m.1 f) := fun s f hs =>
        hs.modCmd j m.1 f fun x hx => by rwa [if_neg hcase]
      split
      · exact (LeavesCmd.last (hdrop _) (.ite (leavesCmd_settlePermit ..) (.refl s))).keeps _ hs
      · split
        · exact hs
        · exact hmod _ _ (hmod _ _ hs)

/-- A unit that has been told to halt for good. -/
def Unit.doomed (x : Trap) (u : Unit) : Unit := { u with halted := true, vacating := false, ending := some (causeWord x) }

theorem bears_doomUnit (h : Bears k agent (EndedAs st) s) (j : UKey) (x : Trap) : Bears k agent (EndedAs st) (doomUnit s j x) := by
  unfold doomUnit
  split
  · exact h
  · have hdoomed : LeavesCmd k agent s (s.modUnit j (Unit.doomed x)) := leavesCmd_modUnit _ _ _ fun _ => ⟨rfl, rfl, rfl⟩
    refine (LeavesCmd.foldl (fun s g => ?_) _ _).keeps _ (bears_cancelCmds (hdoomed.keeps _ h) j)
    split
    · exact leavesCmd_haltSibling ..
    · exact leavesCmd_due ..
    · exact leavesCmd_stopSibling ..

theorem cancelSaved_units (s : State) (l : Launch) (v : Vac) : (cancelSaved s l v).units = s.units := by
  unfold cancelSaved
  split
  · rfl
  · refine Touches.keeps (ps := .outReqs :: memoryParts) (.last (.foldl (fun s n => ?_) _ _) (.outReqs (by decide) s _)) .units (by decide)
    dsimp only
    have hw : ∀ (s : State) (c : Ctx) va n v, Touches (.outReqs :: memoryParts) s (sysWrite s c va n v) := fun s c va n v =>
      (memOnly_sysWrite s c va n v).touches (by decide)
    split
    · exact .ite (.last (hw ..) <| .last (hw ..) <| hw ..) (.refl _ s)
    · exact .refl _ s

theorem finishLaunch_units (s : State) (l : Launch) : (finishLaunch s l .cancelled true).units = s.units := by
  rw [finishLaunch_cancelled, forgetLaunch_units]
  exact foldl_keeps (I := fun t => t.units = s.units) (fun t v _ ht => (cancelSaved_units t l v).trans ht) rfl

theorem freePlanes_units (s : State) (core : Nat) : (freePlanes s core).units = s.units := by
  unfold freePlanes
  dsimp only
  split
  · rfl
  · split
    · rfl
    · rfl

theorem unplace_units (s : State) (u : Unit) (l : Launch) : (unplace s u l).units = s.units.filter fun x => x.key != u.key := by
  obtain ⟨v, hv⟩ := unplace_eq s u l
  rw [hv, (retireHistory_touches ..).keeps .units (by decide), freePlanes_units]
  exact congrArg (List.filter _) (((memOnly_uiSaved s u l).touches (ps := memoryParts) (by decide)).keeps .units (by decide))

theorem leavesCmd_unplace (s : State) (l : Launch) (hne : u.key ≠ k) : LeavesCmd k agent s (unplace s u l) := ⟨fun P h => by
  have hunits := unplace_units s u l
  obtain ⟨v, hv, hbears⟩ := h.unit
  refine ⟨⟨v, ?_, hbears⟩, fun x hx => h.restored x (List.mem_of_mem_filter (hunits ▸ hx))⟩
  rw [State.unit?, hunits, ← hv]
  exact find?_filter_sub (fun x hx => by simpa [(by simpa using hx : x.key = k)] using hne.symm) s.units⟩

theorem bears_unplaceAll (h : Bears k agent P s) (l : Launch) : Bears k agent P (unplaceAll s l) :=
  foldl_keeps (fun s u hu hs => (leavesCmd_unplace s l fun hk => by
    obtain ⟨hin, hunrestored⟩ := List.mem_filter.1 hu
    rw [h.restored u (List.mem_of_mem_filter hin) hk] at hunrestored
    cases hunrestored).keeps P hs) h

theorem bears_cancelLaunch (h : Bears k agent (EndedAs st) s) (fn lid level : Nat) (rpc : Bool) :
    Bears k agent (EndedAs st) (cancelLaunch s fn lid level rpc) := by
  unfold cancelLaunch
  split
  · exact h
  · next l _ =>
    split
    · exact h
    · exact foldl_keeps (fun s (u : Unit) _ hs => bears_doomUnit hs u.key _) ((bears_unplaceAll h l).of_units (finishLaunch_units ..))

/-! ## The cancel of a launch ends it (R338) -/

/-- A launch that is gone or cancelled. -/
def Ended (fn lid : Nat) (s : State) : Prop := ∀ m, s.launch? fn lid = some m → m.state = .cancelled ∧ m.failed = true

/-- A launch that is gone, cancelled, or can be. -/
def Ending (fn lid : Nat) (s : State) : Prop := ∀ m, s.launch? fn lid = some m → m.live = true ∨ (m.state = .cancelled ∧ m.failed = true)

theorem Recedes.ended (h : Recedes s t) (hs : Ended fn lid s) : Ended fn lid t := fun m hm => by
  rcases h.launches fn lid m hm with ⟨l, hl, hstate, hfailed⟩ | hm
  · rw [hstate, hfailed]
    exact hs l hl
  · exact hm

theorem Launch.live_congr {m : Launch} (h : m.state = l.state) : m.live = l.live := by rw [Launch.live, h, Launch.live]

theorem Recedes.ending (h : Recedes s t) (hs : Ending fn lid s) : Ending fn lid t := fun m hm => by
  rcases h.launches fn lid m hm with ⟨l, hl, hstate, hfailed⟩ | hm
  · rw [Launch.live_congr hstate, hstate, hfailed]
    exact hs l hl
  · exact .inr hm

theorem ended_finishLaunch (s : State) (l : Launch) : Ended l.fn l.lid (finishLaunch s l .cancelled true) := by
  rw [finishLaunch_cancelled]
  refine Recedes.ended (.last (recedes_forgetLaunch ..) <| .last (recedes_modFunc _ _ _ fun _ => rfl) <| recedes_offFront ..) fun m hm => ?_
  rw [State.launch?_modLaunch _ _ _ (Launch.cancelledAs l.knownAtEnd) fun _ => ⟨rfl, rfl⟩, Option.map_eq_some_iff] at hm
  obtain ⟨_, _, rfl⟩ := hm
  exact ⟨rfl, rfl⟩

theorem ended_cancelLaunch (h : Ending fn lid s) (level : Nat) (rpc : Bool) : Ended fn lid (cancelLaunch s fn lid level rpc) := by
  unfold cancelLaunch
  split
  · next hnone => exact fun m hm => absurd hm (by rw [hnone]; simp)
  · next l hl =>
    split
    · next hdead =>
      intro m hm
      rw [hl] at hm
      cases hm
      exact (h _ hl).resolve_left fun hlive => by simp [hlive] at hdead
    · obtain ⟨l', hl'⟩ : ∃ l', ((unplaceAll s l).launch? fn lid).getD l = l' := ⟨_, rfl⟩
      have hname : l'.fn = fn ∧ l'.lid = lid := by
        rw [← hl']
        cases hin : (unplaceAll s l).launch? fn lid with
        | none => exact State.launch?_spec hl
        | some m => exact State.launch?_spec hin
      dsimp only
      rw [hl']
      refine (Recedes.foldl (fun s (u : Unit) => recedes_doomUnit s u.key _) _ _).ended ?_
      obtain ⟨rfl, rfl⟩ := hname
      exact ended_finishLaunch _ l'

/-! ## The reset of a function (R367, R394) -/

/-- What is left of a request when a function is reset. -/
def OutReq.afterReset (fn : Nat) (q : OutReq) : Option OutReq :=
  if q.fn != fn then some q else if q.sent then some { q with orphan := true } else none

/-- The state in which a function's requests are orphaned or gone, and what it was answered is forgotten. -/
def requestsDropped (s : State) (fn : Nat) : State :=
  { s with outReqs := s.outReqs.filterMap (OutReq.afterReset fn), seen := s.seen.filter fun x => !(x.srcMod == s.ident && x.srcFn == fn) }

/-- The state in which the saved records of a function's vacated units have ended. -/
def savedReset (s : State) (fn : Nat) : State :=
  (s.launches.filter fun l => l.fn == fn).foldl (fun s l => l.resume.foldl (fun s v => resetSaved s l v) s) s

/-- A command of a unit ends because its function is reset. -/
def resetCmd (s : State) (k : UKey) (agent : Nat) : State := cmdEnd (s.modCmd k agent fun m => { m with sent := [] }) k agent (statusWord St.RESET 0)

/-- The commands of a unit that wait on the fabric end. -/
def resetCmds (s : State) (u : Unit) : State := (u.cmds.filter fun m => m.2.remote && m.2.state != .done).foldl (fun s m => resetCmd s u.key m.1) s

theorem resetFabric_eq (s : State) (fn : Nat) : resetFabric s fn = ((savedReset (requestsDropped s fn) fn).units.filter fun u => u.key.fn == fn).foldl
    resetCmds (savedReset (requestsDropped s fn) fn) := rfl

theorem memOnly_resetSaved (s : State) (l : Launch) (v : Vac) : MemOnly s (resetSaved s l v) := by
  unfold resetSaved
  split
  · exact .refl s
  · refine foldl_keeps (I := MemOnly s) (fun t n _ ht => ?_) (.refl s)
    dsimp only
    split
    · exact ht.trans <| (memOnly_sysWrite ..).trans <| (memOnly_sysWrite ..).trans <| memOnly_sysWrite ..
    · exact ht

theorem touches_savedReset (s : State) (fn : Nat) : Touches memoryParts s (savedReset s fn) :=
  .foldl (fun s (l : Launch) => .foldl (fun s v => (memOnly_resetSaved s l v).touches (by decide)) _ _) _ _

theorem recedes_resetFabric (s : State) (fn : Nat) : Recedes (requestsDropped s fn) (resetFabric s fn) := by
  rw [resetFabric_eq]
  refine .last (.foldl (fun s u => .foldl (fun s (m : Nat × Cmd) => ?_) _ _) _ _) ((touches_savedReset ..).recedes (by decide) (by decide) (by decide))
  exact recedes_cmdEnd ..

theorem touches_resetFabric (s : State) (fn : Nat) : Touches ([.outReqs, .seen, .units] ++ memoryParts) s (resetFabric s fn) := by
  have hdropped : Touches ([.outReqs, .seen, .units] ++ memoryParts) s (requestsDropped s fn) :=
    .last (.seen (by decide) { s with outReqs := s.outReqs.filterMap (OutReq.afterReset fn) } _) (.outReqs (by decide) s _)
  have hcmd : ∀ s k agent f, Touches ([.outReqs, .seen, .units] ++ memoryParts) s (s.modCmd k agent f) := fun s _ _ _ => .units (by decide) s _
  rw [resetFabric_eq]
  refine .last (.foldl (fun s u => .foldl (fun s (m : Nat × Cmd) => ?_) _ _) _ _) (.last ((touches_savedReset ..).mono (by decide)) hdropped)
  exact .last (hcmd ..) (hcmd ..)

theorem requestsDropped_orphans (s : State) (fn : Nat) : ∀ q ∈ (requestsDropped s fn).outReqs, q.fn = fn → q.orphan = true := by
  intro q hq hfn
  obtain ⟨p, _, hp⟩ := List.mem_filterMap.1 (show q ∈ s.outReqs.filterMap _ from hq)
  unfold OutReq.afterReset at hp
  split at hp
  · next hne =>
    cases hp
    simp [hfn] at hne
  · split at hp
    · cases hp
      rfl
    · cases hp

theorem bears_resetCmd (h : Bears k agent (EndedAs (statusWord St.RESET 0)) s) (j : UKey) (a : Nat) :
    Bears k agent (EndedAs (statusWord St.RESET 0)) (resetCmd s j a) := by
  refine (h.modCmd (Q := EndedAs (statusWord St.RESET 0)) j a (fun m => { m with sent := [] }) fun m hm => ?_).modCmd j a _ fun m hm => ?_
  · split
    · exact hm
    · exact hm
  · split
    · exact ⟨hm.1, rfl, rfl⟩
    · exact hm

/-- Copies stay copies, and those of the agent that is named have ended. -/
theorem bears_resetCmd_copies (h : Bears k agent (fun m => m.copies = true) s) (j : UKey) (a : Nat) :
    Bears k agent (fun m => m.copies = true) (resetCmd s j a) := by
  refine (h.modCmd (Q := fun m => m.copies = true) j a (fun m => { m with sent := [] }) fun m hm => ?_).modCmd j a _ fun m hm => ?_
  · split
    · exact hm
    · exact hm
  · split
    · exact hm
    · exact hm

theorem bears_resetCmd_self (h : Bears k agent (fun m => m.copies = true) s) :
    Bears k agent (EndedAs (statusWord St.RESET 0)) (resetCmd s k agent) := by
  refine (h.modCmd (Q := fun m => m.copies = true) k agent (fun m => { m with sent := [] }) fun m hm => ?_).modCmd k agent _ fun m hm => ?_
  · rw [if_pos ⟨rfl, rfl⟩]
    exact hm
  · rw [if_pos ⟨rfl, rfl⟩]
    exact ⟨hm, rfl, rfl⟩

/-- A copy that waits on the fabric, of a unit of the function, has ended. -/
theorem bears_resetFabric {m : Cmd} (hu : s.unit? k = some u) (hfn : k.fn = fn) (hrestored : ∀ x ∈ s.units, x.key = k → x.unrestored = false)
    (hm : u.cmd? agent = some m) (hall : ∀ x ∈ u.cmds, x.1 = agent → x.2 = m) (hremote : m.remote = true) (hcopies : m.copies = true)
    (hstate : m.state ≠ .done) : Bears k agent (EndedAs (statusWord St.RESET 0)) (resetFabric s fn) := by
  have hunits : (savedReset (requestsDropped s fn) fn).units = s.units := (touches_savedReset ..).keeps .units (by decide)
  have hstart : Bears k agent (fun m => m.copies = true) (savedReset (requestsDropped s fn) fn) :=
    Bears.of_units ⟨⟨u, hu, by rw [hm]; rfl, fun x hx ha => by rw [hall x hx ha]; exact hcopies⟩, hrestored⟩ hunits
  have hkey : u.key = k := by simpa using List.find?_some hu
  have hin : u ∈ (savedReset (requestsDropped s fn) fn).units.filter fun u => u.key.fn == fn :=
    List.mem_filter.2 ⟨hunits ▸ List.mem_of_find?_eq_some hu, by simp [hkey, hfn]⟩
  obtain ⟨x, hx, hxm⟩ := Option.map_eq_some_iff.1 hm
  have hagent : x.1 = agent := by simpa using List.find?_some hx
  have hxin : x ∈ u.cmds.filter fun m => m.2.remote && m.2.state != .done :=
    List.mem_filter.2 ⟨List.mem_of_find?_eq_some hx, by simp [hxm, hremote, hstate]⟩
  rw [resetFabric_eq]
  refine foldl_reaches (I := Bears k agent fun m => m.copies = true) hin (fun s v _ hs => foldl_keeps (fun s y _ hs => bears_resetCmd_copies hs v.key y.1) hs)
    (fun s v _ hs => foldl_keeps (fun s y _ hs => bears_resetCmd hs v.key y.1) hs) (fun s hs => ?_) hstart
  refine foldl_reaches (I := Bears k agent fun m => m.copies = true) hxin (fun s y _ hs => bears_resetCmd_copies hs u.key y.1) (fun s y _ hs => bears_resetCmd hs u.key y.1) (fun s hs => ?_) hs
  rw [hkey, hagent]
  exact bears_resetCmd_self hs

/-- The state in which the launches of a function are cancelled. -/
def launchesCancelled (s : State) (fn : Nat) : State :=
  (s.launches.filter fun l => l.fn == fn && l.live).foldl (fun s l => cancelLaunch s fn l.lid 0 true) s

theorem recedes_launchesCancelled (s : State) (fn : Nat) : Recedes s (launchesCancelled s fn) :=
  .foldl (fun s (l : Launch) => recedes_cancelLaunch s fn l.lid 0 true) _ _

theorem bears_launchesCancelled (h : Bears k agent (EndedAs st) s) (fn : Nat) : Bears k agent (EndedAs st) (launchesCancelled s fn) :=
  foldl_keeps (fun _ (l : Launch) _ hs => bears_cancelLaunch hs fn l.lid 0 true) h

theorem ended_launchesCancelled (hl : s.launch? fn l.lid = some l) (hlive : l.live = true) : Ended fn l.lid (launchesCancelled s fn) := by
  have hin : l ∈ s.launches.filter fun l => l.fn == fn && l.live :=
    List.mem_filter.2 ⟨List.mem_of_find?_eq_some hl, by simp [(State.launch?_spec hl).1, hlive]⟩
  refine foldl_reaches (I := Ending fn l.lid) hin (fun s (l : Launch) _ hs => (recedes_cancelLaunch s fn l.lid 0 true).ending hs)
    (fun s (l : Launch) _ hs => (recedes_cancelLaunch s fn l.lid 0 true).ended hs) (fun s hs => ended_cancelLaunch hs 0 true) fun m hm => ?_
  rw [hl] at hm
  cases hm
  exact .inl hlive

/-- The notices of a function's handles, whose number has moved on. -/
def handleNotices (s : State) (fn : Nat) : State :=
  ((s.func fn).handles.filter fun h => h.kind != 0).foldl (fun s h => notice s fn opResetNotice [h.hid, h.cookie.toNat]) s

/-- A function that has been closed. -/
def Func.closed (f : Func) : Func := { f with opened := false, frame := [], stopped := false }

/-- The parts that records to functions, and withdrawn steps, change. -/
def toldParts : List Part := [.host, .marks, .badCrc, .relMem, .funcs, .agenda]

theorem touches_reply (s : State) (x : Rpc) (code off : Nat) : Touches toldParts s (reply s x code off) := (recorded_sendRecord ..).touches (by decide)

theorem touches_notice (s : State) (fn op : Nat) (fields : List Nat) : Touches toldParts s (notice s fn op fields) :=
  (recorded_sendRecord ..).touches (by decide)

/-- The request of a function that a step that is due answers. -/
def rpcOfFn (fn : Nat) (i : Instr) : Option Rpc := match rpcOf i with | some r => if r.fn = fn then some r else none | none => none

/-- A raise whose decision answers a function's request. -/
def raiseOfFn (fn : Nat) (i : Instr) : Bool :=
  match i with | .raiseDecision q => (match q.reply with | some x => x.1 == fn | none => false) | _ => false

/-- Where the reply of such a raise goes. -/
def raiseReply (fn : Nat) (i : Instr) : Option (Nat × Nat × Nat) :=
  match i with | .raiseDecision q => if raiseOfFn fn i then q.reply else none | _ => none

/-- The state in which a function's own requests have been answered with RESET. -/
def requestsAnswered (s : State) (fn : Nat) : State :=
  (s.agenda.filterMap (raiseReply fn)).foldl
    (fun s x => reply s { fn := fn, tag := x.2.1, chan := x.2.2, frame := mkFrame x.2.1 x.2.2 0x0B [] } rRESET 0)
    ((s.agenda.filterMap (rpcOfFn fn)).foldl (fun s r => reply s r rRESET 0)
      { s with agenda := s.agenda.filter fun i => (rpcOfFn fn i).isNone && !raiseOfFn fn i })

theorem recedes_requestsAnswered (s : State) (fn : Nat) : Recedes s (requestsAnswered s fn) :=
  .last (.foldl (fun s (_ : Nat × Nat × Nat) => recedes_reply s _ _ _) _ _) <|
    .last (.foldl (fun s (x : Rpc) => recedes_reply s x _ _) _ _) (recedes_of_fields rfl rfl rfl)

theorem touches_requestsAnswered (s : State) (fn : Nat) : Touches toldParts s (requestsAnswered s fn) :=
  .last (.foldl (fun s (_ : Nat × Nat × Nat) => touches_reply s _ _ _) _ _) <|
    .last (.foldl (fun s (x : Rpc) => touches_reply s x _ _) _ _) (.agenda (by decide) s _)

/-- The state in which a function owes no answer any more. -/
def allAnswered (s : State) (fn : Nat) : State := requestsAnswered (launchesCancelled (resetFabric s fn) fn) fn

/-- The state in which its handles have another number. -/
def handlesAdvanced (s : State) (fn : Nat) : State := (allAnswered s fn).modFunc fn Func.advanceHandles

/-- The state in which a function has been reset. -/
def functionReset (s : State) (fn : Nat) : State := (handleNotices (handlesAdvanced s fn) fn).modFunc fn Func.closed

theorem functionReset_next (hlo : 1 ≤ fn) (hhi : fn < 32) : exec (.functionReset fn) s = .next (functionReset s fn) := by
  have hgo : (decide (fn = 0) || decide (32 ≤ fn)) = false := by simp; omega
  show execFunctionReset fn s = _
  unfold execFunctionReset
  rw [hgo, if_neg (by decide)]
  rfl

theorem recedes_handleNotices (s : State) (fn : Nat) : Recedes s (handleNotices s fn) :=
  .foldl (fun s (_ : Handle) => recedes_notice s fn _ _) _ _

theorem touches_handleNotices (s : State) (fn : Nat) : Touches toldParts s (handleNotices s fn) :=
  .foldl (fun s (_ : Handle) => touches_notice s fn _ _) _ _

theorem completed_rd (t s : State) (fn label st : Nat) (bs : List Byte) (sp a : Nat) : (completed t s fn label st bs).rd sp a = t.rd sp a := rfl

theorem recedes_allAnswered (s : State) (fn : Nat) : Recedes (requestsDropped s fn) (allAnswered s fn) :=
  .last (recedes_requestsAnswered ..) <| .last (recedes_launchesCancelled ..) <| recedes_resetFabric ..

theorem functionReset_func (s : State) (fn : Nat) : (functionReset s fn).func fn = ((handleNotices (handlesAdvanced s fn) fn).func fn).closed := by
  rw [functionReset, State.func_modFunc_same]

theorem handlesAdvanced_agency (s : State) (fn : Nat) : ((handlesAdvanced s fn).func fn).agency = (s.func fn).advanceHandles.agency := by
  have hagency : ((allAnswered s fn).func fn).agency = (s.func fn).agency := (recedes_allAnswered s fn).agency fn
  simp only [Func.agency, Prod.mk.injEq] at hagency
  obtain ⟨hagent, hdone, hgen, hhandles⟩ := hagency
  rw [handlesAdvanced, State.func_modFunc_same]
  simp only [Func.agency, Func.advanceHandles, hagent, hdone, hgen, hhandles]

theorem Func.closed_agency (f : Func) : f.closed.agency = f.agency := rfl

theorem functionReset_agency (s : State) (fn : Nat) : ((functionReset s fn).func fn).agency = (s.func fn).advanceHandles.agency := by
  rw [functionReset_func, Func.closed_agency]
  exact ((recedes_handleNotices (handlesAdvanced s fn) fn).agency fn).trans (handlesAdvanced_agency s fn)

theorem allAnswered_units (s : State) (fn : Nat) : (allAnswered s fn).units = (launchesCancelled (resetFabric s fn) fn).units :=
  (touches_requestsAnswered (launchesCancelled (resetFabric s fn) fn) fn).keeps .units (by decide)

theorem touches_functionReset (s : State) (fn : Nat) : Touches toldParts (allAnswered s fn) (functionReset s fn) :=
  .last (touches_modFunc (by decide) (handleNotices (handlesAdvanced s fn) fn) fn Func.closed) <|
    .last (touches_handleNotices (handlesAdvanced s fn) fn) (touches_modFunc (by decide) (allAnswered s fn) fn Func.advanceHandles)

theorem functionReset_orphans (s : State) (fn : Nat) : ∀ q ∈ (functionReset s fn).outReqs, q.fn = fn → q.orphan = true := by
  intro q hq hfn
  have hkept : (functionReset s fn).outReqs = (allAnswered s fn).outReqs := (touches_functionReset s fn).keeps .outReqs (by decide)
  rw [hkept] at hq
  obtain ⟨p, hp, hpfn, horphan⟩ := (recedes_allAnswered s fn).reqs q hq
  exact horphan (requestsDropped_orphans s fn p hp (hpfn.symm.trans hfn))

theorem functionReset_ended (hl : s.launch? fn l.lid = some l) (hlive : l.live = true) : Ended fn l.lid (functionReset s fn) := by
  have hkept : (resetFabric s fn).launches = s.launches := (touches_resetFabric s fn).keeps .launches (by decide)
  have hsame : (functionReset s fn).launches = (allAnswered s fn).launches := (touches_functionReset s fn).keeps .launches (by decide)
  have hended := ended_launchesCancelled ((State.launch?_congr hkept fn l.lid).trans hl) hlive
  have hanswered : Ended fn l.lid (allAnswered s fn) := (recedes_requestsAnswered (launchesCancelled (resetFabric s fn) fn) fn).ended hended
  exact fun m hm => hanswered m ((State.launch?_congr hsame fn l.lid).symm.trans hm)

theorem functionReset_bears (h : Bears k agent (EndedAs st) (resetFabric s fn)) : Bears k agent (EndedAs st) (functionReset s fn) := by
  have hsame : (functionReset s fn).units = (allAnswered s fn).units := (touches_functionReset s fn).keeps .units (by decide)
  exact (bears_launchesCancelled h fn).of_units (hsame.trans (allAnswered_units s fn))

end Sys2Proof.Machine
end
section
open Sys2Proof Sys2Proof.Machine Sys2Proof.Claims

/-- Settles O53: an atomic takes a read that no write holds; a piece is let go by its route's order, and its bytes land one cell after another;
the reset ends a function's commands before the cancel of its launches, which leaves a copy that is done, and orphaned requests, as they are. -/
theorem hostPortSteps : Obligations.HostPortSteps := by
  unfold Obligations.HostPortSteps
  intro s fn f
  refine ⟨fun off => ⟨resync_running, fun hstopped => ?_⟩, fun w hw => ?_, fun seq q e hfind => ⟨routeAck_behind hfind, fun hfront hfn honly p hp => ?_⟩,
    fun e rest ps hs hheld hrest hpieces hps => ?_, fun off n label henabled => ⟨inboundRead_message henabled, fun rmw => inboundRead_held henabled, fun hfree => ?_⟩,
    fun hlo hhi => ?_⟩
  · refine ⟨_, resync_stopped hstopped, sameMemory_modFunc _ _ _, ?_⟩
    rw [State.func_modFunc_same]
    exact ⟨rfl, rfl, Func.resynced_consumed _ off⟩
  · subst hw
    refine ⟨inboundWrite_disabled, fun henabled hdata hseq => ?_⟩
    intro win
    refine ⟨fun hwait hbusy => ?_, fun hfree => ?_⟩
    · have hheld : mustHold (s.func w.fn) w = true := by
        rw [mustHold, hwait]
        simpa using hbusy
      rw [inboundWrite_held henabled hdata hheld, arrived, arriving, hheld]
      rfl
    · have hgo : mustHold (s.func w.fn) w = false := by
        rw [mustHold]
        rcases hfree with hpass | hidle
        · rw [hpass, Bool.false_and]
        · rw [show (s.func w.fn).inflight = [] from hidle, List.isEmpty_nil, Bool.not_true, Bool.and_false]
      refine ⟨fun ps hps hne => ?_, fun code hcode => inboundWrite_dropped henabled hdata hseq hgo hcode⟩
      exact inboundWrite_cut henabled hdata hseq hgo hps hne
  · intro after
    have hdone := routeAck_done hfind hfront honly hp
    refine ⟨fun hmsg hrun hoff hat => ?_, fun x hmsg hwin hys => ?_⟩
    · have hpiece := performPiece_message (p := p) hmsg hfn hrun hoff hat
      obtain ⟨t, ht, htouch, hleft, hframe⟩ := hdone (by rw [hpiece, State.func_modFunc_same])
      refine ⟨t, ht, ?_, ?_, hleft⟩
      · rw [hpiece] at htouch
        exact (Touches.last htouch (touches_modFunc (by decide) ..)).sameMemory (by decide) (by decide) (by decide) (by decide)
      · rw [hframe, hpiece, State.func_modFunc_same]
    · have hpiece := performPiece_cells (s := s) hmsg hwin fun y hy => (hys y hy).2
      have hspace : ∀ y ∈ p.cells, y.1 < 4 := fun y hy => (hys y hy).1
      obtain ⟨t, ht, htouch, hleft, _⟩ := hdone (by rw [hpiece, State.func_congr ((touches_writeCells ..).keeps .funcs (by decide))])
      have hrd : ∀ sp a, t.rd sp a = (writeCells s p.cells).rd sp a := by
        rw [← hpiece]
        exact htouch.rd (by decide) (by decide) (by decide) (by decide)
      refine ⟨t, ht, hleft, fun sp hsp a hout => ?_, fun y hy hone => ?_⟩
      · rw [hrd, writeCells_other hsp hspace hout]
      · rw [hrd, writeCells_at hspace hy hone]
  · obtain ⟨hmem, hin, hdue⟩ := releaseWrite_inflight (xs := []) hs (by simp) hrest hpieces hps
    exact ⟨_, heldWriteRelease_next hs hheld, hmem, hin, hdue⟩
  · refine ⟨fun hwin => ?_, fun x c ps hwin hc hrd hps hcrc => ?_, fun x c m p a hwin hc hrd hwr hn halign hva hland hm hgood => ?_⟩
    · exact inboundRead_plain henabled hfree (by rw [hwin, readAperture_none])
    · exact inboundRead_plain henabled hfree (by rw [hwin, readAperture_window hc hrd hps hcrc])
    · have hexec := inboundRead_atomic (label := label) henabled hfree
        (by rw [hwin, atomicAperture_window (a := a) hc hrd hwr hn halign hva hland hgood])
      refine ⟨_, hexec, ?_, ?_, fun sp hsp i hi => ?_⟩
      · rw [completed, State.func_modFunc_same, State.func_congr (((memOnly_wrN ..).touches (ps := memoryParts) (by decide)).keeps .funcs (by decide))]
      · have hbound : hostAtomicNew a n (s.rdN m p n) < 2 ^ (8 * n) := by
          have h256 : (2 : Nat) ^ (8 * n) = 256 ^ n := by rw [Nat.pow_mul]
          rw [h256]
          exact hostAtomicNew_lt a (h256 ▸ s.rdN_lt m p n)
        rw [State.rdN_congr fun i _ => completed_rd ..]
        exact (rdN_wrN_same s { sp := m, a := p, pte := none, va := 0 } _).trans (Nat.mod_eq_of_lt hbound)
      · rw [completed_rd]
        exact rd_wrN_misses (n := n) (q := { sp := m, a := p, pte := none, va := 0 }) hm hsp hi _
  · have hagency := functionReset_agency s fn
    simp only [Func.agency, Prod.mk.injEq] at hagency
    obtain ⟨hagent, hdone, hgen, hhandles⟩ := hagency
    refine ⟨_, functionReset_next hlo hhi, ?_, ?_, ?_, hagent, hdone, hgen, hhandles, ?_, functionReset_orphans s fn,
      fun l hl hlive => functionReset_ended hl hlive⟩
    · rw [functionReset_func]; rfl
    · rw [functionReset_func]; rfl
    · rw [functionReset_func]; rfl
    intro u agent m hu hfn hrestored hm hall hremote hcopies hstate
    have hbears := functionReset_bears (bears_resetFabric hu hfn hrestored hm hall hremote hcopies hstate)
    obtain ⟨v, hv, hvbears⟩ := hbears.unit
    obtain ⟨m', hm', _, hmdone, hmstatus⟩ := hvbears.cmd
    exact ⟨v, m', hv, hm', hmdone, hmstatus⟩

end

section
/-! PROOFS. The pieces that engines move leave every unit its commands (R173, R183, R189, R195, R197). -/

namespace Sys2Proof.Machine
open Sys2Proof.Claims

variable {s t r : State} {k : UKey} {u v : Unit} {agent : Nat} {m : Cmd}

/-! ## Units whose commands stay -/

/-- From a state to another that has every unit of the first, with its commands. -/
structure CmdsStay (s t : State) : Prop where
  unit : ∀ k u, s.unit? k = some u → ∃ v, t.unit? k = some v ∧ v.cmds = u.cmds

theorem cmdsStay_of_units (h : t.units = s.units) : CmdsStay s t := ⟨fun k u hu => ⟨u, (State.unit?_congr h k).trans hu, rfl⟩⟩

theorem CmdsStay.refl (s : State) : CmdsStay s s := cmdsStay_of_units rfl

theorem CmdsStay.trans (h : CmdsStay s t) (h' : CmdsStay t r) : CmdsStay s r := ⟨fun k u hu => by
  obtain ⟨v, hv, huv⟩ := h.unit k u hu
  obtain ⟨w, hw, hvw⟩ := h'.unit k v hv
  exact ⟨w, hw, hvw.trans huv⟩⟩

/-- The last change first, the ones before it after it. -/
theorem CmdsStay.last (h' : CmdsStay t r) (h : CmdsStay s t) : CmdsStay s r := h.trans h'

theorem CmdsStay.ite {c : Prop} [Decidable c] (h : CmdsStay s t) (h' : CmdsStay s r) : CmdsStay s (if c then t else r) := by
  split
  · exact h
  · exact h'

theorem Touches.cmdsStay {ps : List Part} (h : Touches ps s t) (hunits : Part.units ∉ ps) : CmdsStay s t := cmdsStay_of_units (h.keeps .units hunits)

theorem RaceOnly.cmdsStay (h : RaceOnly s t) : CmdsStay s t := ⟨fun k u hu => by
  obtain ⟨x, hx⟩ := h.unit k u hu
  exact ⟨_, hx, rfl⟩⟩

theorem cmdsStay_modUnit (s : State) (j : UKey) (f : Unit → Unit) (hf : ∀ u, (f u).key = u.key ∧ (f u).cmds = u.cmds) : CmdsStay s (s.modUnit j f) :=
  ⟨fun k u hu => by
    by_cases hj : k = j
    · subst hj
      exact ⟨f u, unit?_modUnit_of hu f fun u h => (hf u).1.trans h, (hf u).2⟩
    · exact ⟨u, (State.unit?_modUnit_ne f (fun u h => (hf u).1.trans h) hj).trans hu, rfl⟩⟩

theorem cmdsStay_modGrp (s : State) (j : UKey) (gid : Nat) (f : Group → Group) : CmdsStay s (s.modGrp j gid f) :=
  cmdsStay_modUnit _ _ _ fun _ => ⟨rfl, rfl⟩

/-! ## Stores at the supervisor's own places (R355 to R362) -/

theorem cmdsStay_setCore (s : State) (n : Nat) (c : Core) : CmdsStay s (s.setCore n c) := cmdsStay_of_units rfl

theorem postNow_units (s : State) (u : Unit) (g : Group) : (postNow s u g).units = s.units := by
  unfold postNow
  dsimp only
  split
  · rfl
  · rfl

theorem mailPump_units (s : State) (n : Nat) : (mailPump s n).units = s.units := by
  unfold mailPump
  dsimp only
  split
  · split
    · rfl
    · split
      · split
        · exact postNow_units ..
        · rfl
      · rfl
  · split
    · split
      · rfl
      · rfl
    · rfl

theorem cmdsStay_windowWriteByte (s : State) (core slot o : Nat) (b : Byte) : CmdsStay s (windowWriteByte s core slot o b) := by
  unfold windowWriteByte
  split
  · exact .ite (.refl s) <| .ite (cmdsStay_modUnit _ _ _ fun _ => ⟨rfl, rfl⟩) (cmdsStay_modGrp ..)
  · exact .refl s

theorem cmdsStay_windowWrite (s : State) (core slot o : Nat) (bs : List Byte) : CmdsStay s (windowWrite s core slot o bs) := by
  induction bs generalizing s o with
  | nil => exact .refl s
  | cons b bs ih => exact (cmdsStay_windowWriteByte ..).trans (ih ..)

theorem cmdsStay_windowQfree (s : State) (core slot mask : Nat) : CmdsStay s (windowQfree s core slot mask) := by
  unfold windowQfree
  split
  · exact .ite (cmdsStay_modUnit _ _ _ fun _ => ⟨rfl, rfl⟩) (.refl s)
  · exact .refl s

theorem cmdsStay_ackReport (s : State) (core idx : Nat) : CmdsStay s (ackReport s core idx) :=
  .ite (.last (cmdsStay_of_units (mailPump_units ..)) (cmdsStay_setCore ..)) (.refl s)

theorem cmdsStay_superWrite (s : State) (core off n x : Nat) : CmdsStay s (superWrite s core off n x) := by
  unfold superWrite
  refine .ite (.ite (cmdsStay_ackReport ..) (.refl s)) <| .ite (cmdsStay_of_units rfl) ?_
  split
  · exact .ite (cmdsStay_windowQfree ..) (cmdsStay_windowWrite ..)
  · exact .refl s

theorem cmdsStay_store (s : State) (core sp a n x : Nat) : CmdsStay s (s.store core sp a n x) :=
  .ite (cmdsStay_superWrite ..) (((memOnly_wrN s sp a n x).touches (ps := memoryParts) (by decide)).cmdsStay (by decide))

theorem cmdsStay_markDirty (s : State) (ctx va : Nat) : CmdsStay s (markDirty s ctx va) := by
  unfold markDirty
  split
  · exact .refl s
  · split
    · exact .refl s
    · exact .ite (.refl s) (cmdsStay_of_units (modRes_units ..))

theorem cmdsStay_engNote (s : State) (k : UKey) (agent : Nat) (p : Place) (n : Nat) (att : Att) : CmdsStay s (engNote s k agent p n att) :=
  (raceOnly_engNote ..).cmdsStay

/-! ## Pieces -/

theorem cmdsStay_rowIndex {idx : Option Nat} {i : Nat} {y : State × Nat} (h : rowIndex s u agent m idx i = .ok y) : CmdsStay s y.1 := by
  have hread : ∀ j, (gatherIndex s u agent m j >>= fun x => pure (engNote s u.key agent x.2 4 {}, x.1)) = .ok y → CmdsStay s y.1 := by
    intro j hj
    cases hg : gatherIndex s u agent m j with
    | error e =>
      rw [hg] at hj
      cases hj
    | ok x =>
      rw [hg] at hj
      cases hj
      exact cmdsStay_engNote ..
  unfold rowIndex at h
  split at h
  · exact hread _ h
  · split at h
    · exact hread _ h
    · cases h
      exact .refl s
  · cases h
    exact .refl s

theorem cmdsStay_carryCrc (s0 s : State) (m : Cmd) (idx i : Nat) (p q : Place) : CmdsStay s (carryCrc s0 s m idx i p q) := by
  unfold carryCrc
  exact .ite (cmdsStay_of_units rfl) (.refl s)

theorem cmdsStay_aheadGo (s0 s : State) (u : Unit) (agent : Nat) (m : Cmd) (idx n i : Nat) : CmdsStay s (aheadGo s0 u agent m idx n i s).1 := by
  induction n generalizing s i with
  | zero => exact .refl s
  | succ n ih =>
    unfold aheadGo
    dsimp only
    split
    · exact .refl s
    · split
      · exact .refl s
      · split
        · exact .refl s
        · exact (cmdsStay_engNote ..).trans (ih ..)

/-- The state in which a byte of a copy stands where it goes. -/
def byteMoved (s0 s : State) (u : Unit) (agent : Nat) (m : Cmd) (idx i v : Nat) (p q : Place) : State :=
  engNote (engNote (carryCrc s0 (markDirty (s.store u.core q.sp q.a 1 v) u.ctx q.va) m idx i p q) u.key agent p 1 {}) u.key agent q 1
    { write := true }

/-- One byte of a copy. -/
def moveStep (s0 : State) (u : Unit) (agent : Nat) (m : Cmd) (i : Nat) (idx : Option Nat) (held : List Byte) (s : State) :
    Except EStop (State × Nat) := do
  let (s, idx) ← rowIndex s u agent m idx i
  let p ← engPlace s u agent m.spaces.1 m.av.toNat (m.byteAt idx i).1 1 {} true
  if blockBad s m idx p (m.byteAt idx i).1 then .error (.status St.ECC false)
  let q ← engPlace s u agent m.spaces.2 m.dv.toNat (m.byteAt idx i).2 1 { write := true } false
  if crcFails s p q then .error (.status St.CHECKVAL false)
  return (byteMoved s0 s u agent m idx i (match held with | x :: _ => x.toNat | [] => copyByte s0 s u.core p) p q, idx)

theorem moveGo_succ (s0 s : State) (u : Unit) (agent : Nat) (m : Cmd) (n i : Nat) (idx : Option Nat) (held : List Byte) :
    moveGo s0 u agent m (n + 1) i idx held s = match moveStep s0 u agent m i idx held s with
      | .error e => ({ s := s, n := 0, stop := some e }, idx)
      | .ok (s, idx) =>
        let (r, idx) := moveGo s0 u agent m n (i + 1) (some idx) held.tail s
        ({ r with n := r.n + 1 }, idx) := rfl

theorem moveStep_ok {s0 : State} {i : Nat} {idx : Option Nat} {held : List Byte} {y : State × Nat} (h : moveStep s0 u agent m i idx held s = .ok y) :
    ∃ x v p q, rowIndex s u agent m idx i = .ok (x, y.2) ∧ y.1 = byteMoved s0 x u agent m y.2 i v p q := by
  unfold moveStep at h
  cases hrow : rowIndex s u agent m idx i with
  | error e =>
    rw [hrow] at h
    cases h
  | ok z =>
    obtain ⟨x, idx'⟩ := z
    rw [hrow] at h
    simp only [bind, Except.bind] at h
    cases hp : engPlace x u agent m.spaces.1 m.av.toNat (m.byteAt idx' i).1 1 {} true with
    | error e =>
      rw [hp] at h
      cases h
    | ok p =>
      rw [hp] at h
      dsimp only at h
      split at h
      · cases h
      · cases hq : engPlace x u agent m.spaces.2 m.dv.toNat (m.byteAt idx' i).2 1 { write := true } false with
        | error e =>
          rw [hq] at h
          cases h
        | ok q =>
          rw [hq] at h
          dsimp only [pure, Except.pure] at h
          split at h
          · cases h
          · cases h
            exact ⟨_, _, _, _, rfl, rfl⟩

theorem cmdsStay_byteMoved (s0 s : State) (u : Unit) (agent : Nat) (m : Cmd) (idx i x : Nat) (p q : Place) :
    CmdsStay s (byteMoved s0 s u agent m idx i x p q) :=
  .last (cmdsStay_engNote ..) <| .last (cmdsStay_engNote ..) <| .last (cmdsStay_carryCrc ..) <| .last (cmdsStay_markDirty ..) <| cmdsStay_store ..

theorem cmdsStay_moveGo (s0 s : State) (u : Unit) (agent : Nat) (m : Cmd) (n i : Nat) (idx : Option Nat) (held : List Byte) :
    CmdsStay s (moveGo s0 u agent m n i idx held s).1.s := by
  induction n generalizing s i idx held with
  | zero => exact .refl s
  | succ n ih =>
    rw [moveGo_succ]
    split
    · exact .refl s
    · next x y hstep =>
      obtain ⟨z, v, p, q, hrow, hx⟩ := moveStep_ok hstep
      dsimp only at hx ⊢
      refine CmdsStay.trans ?_ (ih ..)
      rw [hx]
      exact (cmdsStay_rowIndex hrow).trans (cmdsStay_byteMoved ..)

theorem cmdsStay_pieceCopy (s : State) (u : Unit) (agent : Nat) (m : Cmd) :
    ∃ t f, CmdsStay s t ∧ (pieceCopy s u agent m).s = t.modCmd u.key agent f := by
  unfold pieceCopy
  dsimp only
  refine ⟨_, _, ?_, rfl⟩
  split
  · exact (cmdsStay_moveGo ..).trans (cmdsStay_aheadGo ..)
  · exact cmdsStay_moveGo ..

/-- The state in which an element of a reduction stands. -/
def elementReduced (s : State) (u : Unit) (agent : Nat) (o : Op) (p q : Place) : State :=
  engNote (engNote (keepHeld s (markDirty (s.store u.core q.sp q.a (credEs o)
    (credNew o (s.load u.core q.sp q.a (credEs o)) (s.load u.core p.sp p.a (credEs o)))) u.ctx q.va) q.sp q.a (credEs o)) u.key agent p (credEs o) {})
    u.key agent q (credEs o) credAtt

/-- One element of a reduction. -/
def reduceStep (u : Unit) (agent : Nat) (m : Cmd) (o : Op) (i : Nat) (s : State) : Except EStop State := do
  let p ← engPlace s u agent m.spaces.1 m.av.toNat i (credEs o) {} true
  if blockBad s m 0 p i then .error (.status St.ECC false)
  let q ← engPlace s u agent m.spaces.2 m.dv.toNat i (credEs o) credAtt true
  if noAtomic q then .error (.status St.NOATOMIC false)
  if targetBad s m.total q i then .error (.status St.ECC false)
  if crcFails s p q then .error (.status St.CHECKVAL false)
  return elementReduced s u agent o p q

theorem reduceGo_succ (u : Unit) (agent : Nat) (m : Cmd) (o : Op) (n i : Nat) (s : State) :
    reduceGo u agent m o (n + 1) i s = match reduceStep u agent m o i s with
      | .error e => { s := s, n := 0, stop := some e }
      | .ok s => { reduceGo u agent m o n (i + credEs o) s with n := (reduceGo u agent m o n (i + credEs o) s).n + credEs o } := rfl

theorem reduceStep_ok {o : Op} {i : Nat} (h : reduceStep u agent m o i s = .ok t) : ∃ p q, t = elementReduced s u agent o p q := by
  unfold reduceStep at h
  cases hp : engPlace s u agent m.spaces.1 m.av.toNat i (credEs o) {} true with
  | error e =>
    rw [hp] at h
    cases h
  | ok p =>
    rw [hp] at h
    simp only [bind, Except.bind] at h
    split at h
    · cases h
    · cases hq : engPlace s u agent m.spaces.2 m.dv.toNat i (credEs o) credAtt true with
      | error e =>
        rw [hq] at h
        cases h
      | ok q =>
        rw [hq] at h
        dsimp only [pure, Except.pure] at h
        split at h
        · cases h
        · split at h
          · cases h
          · split at h
            · cases h
            · cases h
              exact ⟨p, q, rfl⟩

theorem touches_keepHeld (s0 s : State) (sp a n : Nat) : Touches [.relMem] s (keepHeld s0 s sp a n) := by
  unfold keepHeld
  exact .ite (.refl _ s) (touches_setHeld ..)

theorem cmdsStay_elementReduced (s : State) (u : Unit) (agent : Nat) (o : Op) (p q : Place) : CmdsStay s (elementReduced s u agent o p q) :=
  .last (cmdsStay_engNote ..) <| .last (cmdsStay_engNote ..) <| .last ((touches_keepHeld ..).cmdsStay (by decide)) <|
    .last (cmdsStay_markDirty ..) <| cmdsStay_store ..

theorem cmdsStay_reduceGo (u : Unit) (agent : Nat) (m : Cmd) (o : Op) (n i : Nat) (s : State) : CmdsStay s (reduceGo u agent m o n i s).s := by
  induction n generalizing s i with
  | zero => exact .refl s
  | succ n ih =>
    rw [reduceGo_succ]
    split
    · exact .refl s
    · next y hstep =>
      obtain ⟨p, q, rfl⟩ := reduceStep_ok hstep
      exact (cmdsStay_elementReduced ..).trans (ih ..)

theorem cmdsStay_engReadWords (s : State) (u : Unit) (agent : Nat) (vault : Bool) (base : Nat) (off : Int) (n : Nat) :
    CmdsStay s (engReadWords s u agent vault base off n).1 := by
  induction n generalizing s off with
  | zero => exact .refl s
  | succ n ih =>
    unfold engReadWords
    split
    · exact .refl s
    · exact (cmdsStay_engNote ..).trans (ih ..)

theorem cmdsStay_engWriteWords (s : State) (u : Unit) (agent : Nat) (vault : Bool) (base : Nat) (off : Int) (ws : List Nat) :
    CmdsStay s (engWriteWords s u agent vault base off ws).s := by
  induction ws generalizing s off with
  | nil => exact .refl s
  | cons w ws ih =>
    unfold engWriteWords
    split
    · exact .refl s
    · exact (CmdsStay.last (cmdsStay_engNote ..) <| .last (cmdsStay_markDirty ..) <| cmdsStay_store ..).trans (ih ..)

theorem setAccWords_cmds (u : Unit) (slot i : Nat) (ws : List Nat) :
    (u.setAccWords slot i ws).key = u.key ∧ (u.setAccWords slot i ws).cmds = u.cmds := by
  induction ws generalizing u i with
  | nil => exact ⟨rfl, rfl⟩
  | cons w ws ih => exact ih ..

theorem setAccTags_cmds (u : Unit) (slots : List Nat) (x : Tag) :
    (slots.foldl (fun u k => u.setAccTag k x) u).key = u.key ∧ (slots.foldl (fun u k => u.setAccTag k x) u).cmds = u.cmds := by
  induction slots generalizing u with
  | nil => exact ⟨rfl, rfl⟩
  | cons k slots ih => exact ih ..

theorem cmdsStay_pieceAccld (s : State) (u : Unit) (agent : Nat) (m : Cmd) (o : Op) (x : ModX) : CmdsStay s (pieceAccld s u agent m o x).s := by
  unfold pieceAccld
  dsimp only
  split
  · exact cmdsStay_engReadWords ..
  · refine .last (cmdsStay_modUnit _ _ _ fun u => ?_) (cmdsStay_engReadWords ..)
    obtain ⟨hkey, hcmds⟩ := setAccTags_cmds (u.setAccWords (o.imm % 128) 0
      (engReadWords s _ agent (x.f 38 38 == 1) m.av.toNat 0 (512 * (moveSlots o (x.f 37 36 == 3)).length)).2.1) (moveSlots o (x.f 37 36 == 3))
      (accKind (x.f 37 36))
    obtain ⟨hkey', hcmds'⟩ := setAccWords_cmds u (o.imm % 128) 0
      (engReadWords s _ agent (x.f 38 38 == 1) m.av.toNat 0 (512 * (moveSlots o (x.f 37 36 == 3)).length)).2.1
    exact ⟨hkey.trans hkey', hcmds.trans hcmds'⟩

theorem cmdsStay_modCore (s : State) (n : Nat) (f : Core → Core) : CmdsStay s (s.modCore n f) := cmdsStay_of_units rfl

theorem cmdsStay_pieceLdpl (s : State) (u : Unit) (agent : Nat) (m : Cmd) (o : Op) (x : ModX) : CmdsStay s (pieceLdpl s u agent m o x).s := by
  unfold pieceLdpl
  dsimp only
  exact .last (cmdsStay_modCore ..) (cmdsStay_engReadWords ..)

/-! ## A command outlives its pieces -/

/-- A unit and a command of it. -/
def HasCmd (s : State) (k : UKey) (agent : Nat) : Prop := ∃ u m, s.unit? k = some u ∧ u.cmd? agent = some m

theorem HasCmd.stays (h : HasCmd s k agent) (hst : CmdsStay s t) : HasCmd t k agent := by
  obtain ⟨u, m, hu, hm⟩ := h
  obtain ⟨v, hv, hcmds⟩ := hst.unit k u hu
  exact ⟨v, m, hv, by rw [Unit.cmd?, hcmds]; exact hm⟩

/-- What a change of a command makes of it. -/
theorem modCmd_found (hu : s.unit? k = some u) (hm : u.cmd? agent = some m) (f : Cmd → Cmd) :
    ∃ v, (s.modCmd k agent f).unit? k = some v ∧ v.cmd? agent = some (f m) :=
  ⟨u.modCmd agent f, unit?_modUnit_of hu (fun v => v.modCmd agent f) fun _ h => h, by rw [u.cmd?_modCmd, hm]; rfl⟩

theorem HasCmd.modCmd (h : HasCmd s k agent) (f : Cmd → Cmd) : HasCmd (s.modCmd k agent f) k agent := by
  obtain ⟨u, m, hu, hm⟩ := h
  obtain ⟨v, hv, hm'⟩ := modCmd_found hu hm f
  exact ⟨v, _, hv, hm'⟩

/-- A piece leaves the command it is of. -/
theorem found_localPiece (h : HasCmd s u.key agent) (m : Cmd) : HasCmd (localPiece s u agent m).s u.key agent := by
  unfold localPiece
  split
  · exact h.stays (cmdsStay_pieceLdpl ..)
  · exact h.stays (cmdsStay_pieceAccld ..)
  · exact h.stays (cmdsStay_engWriteWords ..)
  · exact h.stays (cmdsStay_reduceGo ..)
  · obtain ⟨t, f, ht, hpiece⟩ := cmdsStay_pieceCopy s u agent m
    rw [hpiece]
    exact (h.stays ht).modCmd f

end Sys2Proof.Machine
end

section
/-! PROOFS. What a piece of a copy and of a reduction leaves in memory (R174, R195, R197, R283). -/

namespace Sys2Proof.Machine
open Sys2Proof.Claims

variable {s t r x y : State} {k : UKey} {u v : Unit} {agent : Nat} {m : Cmd} {lo hi n i : Nat} {p q : Nat → Place} {val : Nat → Nat} {keep : Prop}

/-! ## States in the middle of a piece -/

/-- The fields that the pieces of an engine may change. -/
def engineParts : List Part := memoryParts ++ [.units, .owned, .engines]

/-- The fields that race detection changes. -/
def raceParts : List Part := [.units, .owned, .relMem]

/-- A state in the middle of a piece that has been written at `dst` so far. -/
structure InPiece (s x : State) (dst : Nat → Nat → Prop) : Prop where
  touches : Touches engineParts s x
  races : RaceOnly s x
  marks : ∀ e ∈ x.marks, e ∈ s.marks
  rd : ∀ sp < 4, ∀ a, ¬ dst sp a → x.rd sp a = s.rd sp a

theorem eq_of_touches (h : Touches engineParts s x) :
    x = { s with hbm := x.hbm, pool := x.pool, host := x.host, vaults := x.vaults, marks := x.marks, badCrc := x.badCrc, units := x.units,
                 relMem := x.relMem, owned := x.owned, engines := x.engines } := by
  cases x
  rw [State.mk.injEq]
  exact ⟨rfl, rfl, rfl, rfl, rfl, rfl, rfl, h.keeps .cores (by decide), h.keeps .dies (by decide), h.keeps .ctxs (by decide),
    h.keeps .sections (by decide), h.keeps .launches (by decide), h.keeps .levels (by decide), h.keeps .funcs (by decide),
    h.keeps .quanta (by decide), h.keeps .quantaNext (by decide), h.keeps .slice (by decide), h.keeps .quantaRun (by decide),
    h.keeps .tenant (by decide), h.keeps .front (by decide), h.keeps .pools (by decide), h.keeps .poolUp (by decide), rfl,
    h.keeps .poolCache (by decide), h.keeps .ports (by decide), h.keeps .routes (by decide), h.keeps .ident (by decide),
    h.keeps .phasing (by decide), h.keeps .outReqs (by decide), h.keeps .nextId (by decide), h.keeps .unack (by decide),
    h.keeps .transit (by decide), h.keeps .seen (by decide), h.keeps .lowack (by decide), h.keeps .absorbed (by decide), rfl, rfl,
    h.keeps .limit (by decide), h.keeps .emergency (by decide), h.keeps .stretched (by decide), h.keeps .emergencyAt (by decide),
    h.keeps .emergencies (by decide), h.keeps .energy (by decide), h.keeps .hbmC (by decide), h.keeps .hbmU (by decide),
    h.keeps .banks (by decide), h.keeps .active (by decide), h.keeps .rollback (by decide), h.keeps .loading (by decide),
    h.keeps .loadNew (by decide), h.keeps .switching (by decide), h.keeps .capGen (by decide), h.keeps .powered (by decide),
    h.keeps .onTick (by decide), h.keeps .booted (by decide), h.keeps .cur (by decide), h.keeps .second (by decide), h.keeps .pair (by decide),
    h.keeps .grown (by decide), h.keeps .agenda (by decide), h.keeps .tick (by decide)⟩

theorem RaceOnly.vaultOwned (h : RaceOnly s t) (ctx v off : Nat) : vaultOwned t ctx v off = vaultOwned s ctx v off := by
  unfold Machine.vaultOwned
  have hunits := h.units
  generalize s.units = us, t.units = vs at hunits
  induction hunits with
  | nil => rfl
  | cons hx _ ih =>
    obtain ⟨r, rfl⟩ := hx
    rw [List.any_cons, List.any_cons, ih]

theorem InPiece.midway {dst to_ : Nat → Nat → Prop} (h : InPiece s x dst) (hsub : ∀ sp a, dst sp a → to_ sp a) : Midway s x to_ :=
  ⟨eq_of_touches h.touches, h.marks, h.races.vaultOwned, fun sp hsp a ha => h.rd sp hsp a fun hd => ha (hsub sp a hd)⟩

/-- The bytes that the parts of a piece before part `i` are written at. -/
def Written (q : Nat → Place) (n lo i sp a : Nat) : Prop := ∃ j, lo ≤ j ∧ j < i ∧ (q j).sp = sp ∧ (q j).a ≤ a ∧ a < (q j).a + n

/-- A piece of which the parts before part `i` have been written: those that are written once hold the value they are to have. -/
structure Progressed (keep : Prop) (s x : State) (n lo i hi : Nat) (p q : Nat → Place) (val : Nat → Nat) : Prop where
  piece : InPiece s x (Written q n lo i)
  crc : keep → ∀ key, Sparse.get false x.badCrc key = true → Sparse.get false s.badCrc key = true
  done : ∀ j, lo ≤ j → j < i → Solo lo hi n p q j → x.rdN (q j).sp (q j).a n = val j

/-- Every part of a piece lies in a memory. -/
def InMemory (lo hi : Nat) (p q : Nat → Place) : Prop := ∀ j, lo ≤ j → j < hi → (p j).sp < 4 ∧ (q j).sp < 4

theorem progressed_start (h : Touches [.engines] s x) : Progressed keep s x n lo lo hi p q val where
  piece := ⟨h.mono (by decide), raceOnly_of_units (h.keeps .units (by decide)), fun e he => h.keeps .marks (by decide) ▸ he,
    fun sp _ a _ => h.rd (by decide) (by decide) (by decide) (by decide) sp a⟩
  crc _ key hkey := by
    rwa [h.keeps .badCrc (by decide)] at hkey
  done j hlo hj := absurd hj (by omega)

theorem not_written (h : ∀ j, lo ≤ j → j < i → Apart n (p i) (q j)) {b : Nat} (hb : b < n) : ¬ Written q n lo i (p i).sp ((p i).a + b) := by
  rintro ⟨j, hlo, hj, hsp, hle, hlt⟩
  obtain hne | hbelow | habove := h j hlo hj
  · exact hne hsp.symm
  · omega
  · omega

/-- A part that is written once still finds what it reads. -/
theorem Progressed.source (h : Progressed keep s x n lo i hi p q val) (hin : InMemory lo hi p q) (hlo : lo ≤ i) (hi' : i < hi)
    (hsolo : Solo lo hi n p q i) : x.rdN (p i).sp (p i).a n = s.rdN (p i).sp (p i).a n :=
  State.rdN_congr fun b hb => h.piece.rd _ (hin i hlo hi').1 _ (not_written (fun j hj hji => (hsolo j hj (by omega)).1) hb)

/-- A part that is written once still finds what it writes over. -/
theorem Progressed.target (h : Progressed keep s x n lo i hi p q val) (hin : InMemory lo hi p q) (hlo : lo ≤ i) (hi' : i < hi)
    (hsolo : Solo lo hi n p q i) : x.rdN (q i).sp (q i).a n = s.rdN (q i).sp (q i).a n :=
  State.rdN_congr fun b hb => h.piece.rd _ (hin i hlo hi').2 _ (not_written (p := q) (fun j hj hji => (hsolo j hj (by omega)).2 (by omega)) hb)

/-! ## What a write leaves of marks and check values -/

theorem mem_of_mem_setDefault {α : Type} [DecidableEq α] {d : α} {l : Sparse α} {key : Nat} {e : Nat × α} (h : e ∈ Sparse.set d l key d) : e ∈ l := by
  rw [Sparse.set, if_pos rfl] at h
  exact List.mem_of_mem_filter h

theorem setSpace_marks (s : State) (sp : Nat) (z : Sparse Byte) : (s.setSpace sp z).marks = s.marks ∧ (s.setSpace sp z).badCrc = s.badCrc := by
  unfold State.setSpace
  split
  · exact ⟨rfl, rfl⟩
  · split
    · exact ⟨rfl, rfl⟩
    · split
      · exact ⟨rfl, rfl⟩
      · exact ⟨rfl, rfl⟩

theorem marks_wrN {sp a w : Nat} {e : Nat × Bool} (h : e ∈ (s.wrN sp a n w).marks) : e ∈ s.marks := by
  induction n generalizing s a w with
  | zero => exact h
  | succ n ih =>
    have hin : e ∈ Sparse.set false (s.setSpace sp (Sparse.set unwritten (s.space sp) a (BitVec.ofNat 8 w))).marks (markKey sp a) false := ih h
    rw [(setSpace_marks ..).1] at hin
    exact mem_of_mem_setDefault hin

theorem badCrc_wrN {sp a w key : Nat} (h : Sparse.get false (s.wrN sp a n w).badCrc key = true) : Sparse.get false s.badCrc key = true := by
  induction n generalizing s a w with
  | zero => exact h
  | succ n ih =>
    have hin : Sparse.get false (Sparse.set false (s.setSpace sp (Sparse.set unwritten (s.space sp) a (BitVec.ofNat 8 w))).badCrc (crcKey sp a) false) key
        = true := ih h
    rw [(setSpace_marks ..).2, Sparse.get_set] at hin
    split at hin
    · cases hin
    · exact hin

/-- Part `i` has been written, and what the write leaves to race detection and check values follows. -/
theorem Progressed.step {w : Nat} (h : Progressed keep s x n lo i hi p q val) (hin : InMemory lo hi p q) (hlo : lo ≤ i) (hi' : i < hi)
    (hval : Solo lo hi n p q i → w % 2 ^ (8 * n) = val i) (ht : Touches (.badCrc :: raceParts) (x.wrN (q i).sp (q i).a n w) y)
    (hr : RaceOnly (x.wrN (q i).sp (q i).a n w) y) (hcrc : keep → y.badCrc = (x.wrN (q i).sp (q i).a n w).badCrc) :
    Progressed keep s y n lo (i + 1) hi p q val := by
  have hwr := (memOnly_wrN x (q i).sp (q i).a n w).touches (ps := memoryParts) (by decide)
  have hrd : ∀ sp a, y.rd sp a = (x.wrN (q i).sp (q i).a n w).rd sp a := ht.rd (by decide) (by decide) (by decide) (by decide)
  have hother : ∀ sp < 4, ∀ a, (q i).misses n sp a → y.rd sp a = x.rd sp a := fun sp hsp a hmiss =>
    (hrd sp a).trans (rd_wrN_misses (hin i hlo hi').2 hsp hmiss w)
  refine ⟨⟨h.piece.touches.trans ((hwr.mono (by decide)).trans (ht.mono (by decide))),
    h.piece.races.trans ((raceOnly_of_units (hwr.keeps .units (by decide))).trans hr), fun e he => ?_, fun sp hsp a hnot => ?_⟩,
    fun hkeep key hkey => ?_, fun j hj hji hsolo => ?_⟩
  · rw [ht.keeps .marks (by decide)] at he
    exact h.piece.marks e (marks_wrN he)
  · rw [hother sp hsp a ?_]
    · exact h.piece.rd sp hsp a fun ⟨j, hj, hji, hat⟩ => hnot ⟨j, hj, by omega, hat⟩
    · by_contra hhit
      simp only [Place.misses, not_or, not_lt, not_le, not_not] at hhit
      exact hnot ⟨i, hlo, by omega, hhit.1.symm, hhit.2.1, hhit.2.2⟩
  · rw [hcrc hkeep] at hkey
    exact h.crc hkeep key (badCrc_wrN hkey)
  · by_cases hlast : j = i
    · subst hlast
      rw [State.rdN_congr fun b _ => hrd ..]
      exact (rdN_wrN_same x (q j) w).trans (hval hsolo)
    · rw [State.rdN_congr fun b hb => hother _ (hin j hj (by omega)).2 _ (misses_of_apart ?_ hb)]
      · exact h.done j hj (by omega) hsolo
      · obtain hne | hbelow | habove := (hsolo i hlo hi').2 (Ne.symm hlast)
        · exact .inl (Ne.symm hne)
        · exact .inr (.inr hbelow)
        · exact .inr (.inl habove)

/-! ## What race detection leaves alone -/

theorem touches_takeOwnership (s : State) (k : UKey) (a : Access) : Touches raceParts s (takeOwnership s k a) := by
  unfold takeOwnership
  exact .ite (.owned (by decide) s _) (.refl _ s)

theorem touches_noteAccess (hu : s.unit? k = some u) (agent : Nat) (a : Access) : Touches raceParts s (noteAccess s k agent a) := by
  unfold noteAccess
  refine .last (touches_takeOwnership ..) ?_
  rw [hu, if_pos (by rfl)]
  exact .units (by decide) s _

theorem touches_passClocks (s : State) (u : Unit) (agent : Nat) (p : Place) (n : Nat) (att : Att) : Touches raceParts s (passClocks s u agent p n att) := by
  unfold passClocks
  refine .ite (.refl _ s) ?_
  dsimp only
  have hread : Touches raceParts s (if (!att.write || att.rmw) && att.strong then withRace s u.key fun _ => Race.reads s u agent p n att else s) :=
    .ite ((touches_withRace ..).mono (by decide)) (.refl _ s)
  generalize (if (!att.write || att.rmw) && att.strong then withRace s u.key fun _ => Race.reads s u agent p n att else s) = t at hread
  refine .last (.ite (.refl _ t) ?_) hread
  split
  · exact .refl _ t
  · have hleft : ∀ left, Touches raceParts t (if List.isEmpty left then t else setHeld t p.sp p.a n left) := fun left =>
      .ite (.refl _ t) ((touches_setHeld ..).mono (by decide))
    exact .ite (.last ((touches_withRace ..).mono (by decide)) (hleft _)) (hleft _)

theorem touches_engNote (s : State) (k : UKey) (agent : Nat) (p : Place) (n : Nat) (att : Att) : Touches raceParts s (engNote s k agent p n att) := by
  unfold engNote notePlace
  split
  · exact .refl _ s
  · next u hu =>
    refine .ite (.refl _ s) ?_
    dsimp only
    have hnote : Touches raceParts s (if checks s u && checkedPlace p.sp p.pte then noteAccess s k (engineAgent agent) (p.access n att) else s) :=
      .ite (touches_noteAccess hu ..) (.refl _ s)
    have hclock := hnote.trans (touches_passClocks _ u (engineAgent agent) p n att)
    generalize passClocks _ u (engineAgent agent) p n att = t at hclock
    have hlearn : ∀ c : Bool, ∀ f : Race → Race, Touches raceParts s (if c then withRace t k f else t) := fun c f =>
      .ite (.last ((touches_withRace ..).mono (by decide)) hclock) hclock
    exact .ite (.last (.owned (by decide) _ _) (hlearn _ _)) (hlearn _ _)

/-- What the checks of a part say of the state in the middle of the piece. -/
theorem blockBad_mono (ht : Touches engineParts s x) (hmarks : ∀ e ∈ x.marks, e ∈ s.marks) {idx : Nat} {z : Place} {a : Int} (h : blockBad s m idx z a = false) :
    blockBad x m idx z a = false := by
  unfold blockBad at h ⊢
  rw [ht.keeps .tick (by decide)]
  rw [Bool.or_eq_false_iff] at h ⊢
  refine ⟨?_, h.2⟩
  have hall := h.1
  rw [List.any_eq_false] at hall ⊢
  exact fun e he => hall e (hmarks e he)

theorem spoilt_mono (ht : Touches engineParts s x) (hmarks : ∀ e ∈ x.marks, e ∈ s.marks) {sp a n : Nat} (h : s.spoilt sp a n = false) :
    x.spoilt sp a n = false := by
  unfold State.spoilt at h ⊢
  rw [ht.keeps .tick (by decide)]
  rw [Bool.or_eq_false_iff] at h ⊢
  refine ⟨?_, h.2⟩
  have hall := h.1
  unfold State.marked at hall ⊢
  rw [List.any_eq_false] at hall ⊢
  exact fun e he => hall e (hmarks e he)

theorem crcFails_mono {a b : Place} (h : crcFails s a b = false) (hcrc : ∀ key, Sparse.get false x.badCrc key = true → Sparse.get false s.badCrc key = true) :
    crcFails x a b = false := by
  unfold crcFails at h ⊢
  rw [Bool.and_eq_false_iff] at h ⊢
  refine h.imp_right fun hbad => ?_
  rw [Bool.eq_false_iff] at hbad ⊢
  exact fun hx => hbad (hcrc _ hx)

/-- A page that a write would not mark anew. -/
theorem marksNothing_of_markDirty {ctx va : Nat} (h : markDirty s ctx va = s) : MarksNothing s ctx va := by
  intro hptr y hy
  obtain ⟨z, hz, _, hmarked⟩ := markDirty_marks hy va
  rw [h, hy] at hz
  cases hz
  by_cases hkind : (y.slotRes (ptrSlot va)).kind = 1
  · exact .inr (hmarked hptr hkind)
  · exact .inl hkind

end Sys2Proof.Machine
end

section
/-! PROOFS. A piece of a copy and a piece of a reduction, from its first part to its last (R174, R195, R197, R283). -/

namespace Sys2Proof.Machine
open Sys2Proof.Claims

variable {s s0 t r x y : State} {k : UKey} {u v : Unit} {agent : Nat} {m : Cmd} {lo hi n i : Nat} {p q : Nat → Place} {keep : Prop}

/-! ## Copies -/

/-- A copy that reads no index and whose bytes lie where its descriptor says (R195). -/
def FlatCopy (m : Cmd) : Prop := ∃ o x, m.ins = .cpy o x ∨ m.ins = .cpyt o x ∨ m.ins = .sfill o x

theorem rowIndex_flat (h : FlatCopy m) (idx : Option Nat) : rowIndex x u agent m idx i = .ok (x, 0) := by
  obtain ⟨o, z, hins | hins | hins⟩ := h
  all_goals
    unfold rowIndex
    rw [hins]

theorem localPiece_flat (h : FlatCopy m) : localPiece s u agent m = pieceCopy s u agent m := by
  obtain ⟨o, z, hins | hins | hins⟩ := h
  all_goals
    unfold localPiece
    rw [hins]

theorem Lie.inMemory {att : Att} {reads : Bool} (h : Lie s u agent m lo hi n att reads p q) : InMemory lo hi p q :=
  fun j hlo hj => ⟨(h.2 j hlo hj).1, (h.2 j hlo hj).2.1⟩

theorem Lie.places {att : Att} {reads : Bool} {val : Nat → Nat} (h : Lie s u agent m lo hi n att reads p q)
    (hx : Progressed keep s x n lo i hi p q val) (hlo : lo ≤ i) (hi' : i < hi) :
    engPlace x u agent m.spaces.1 m.av.toNat (m.byteAt 0 (i * n)).1 n {} true = .ok (p i)
      ∧ engPlace x u agent m.spaces.2 m.dv.toNat (m.byteAt 0 (i * n)).2 n att reads = .ok (q i) :=
  h.1 x (hx.piece.midway fun _ _ ⟨j, hj, hji, hat⟩ => ⟨j, hj, by omega, hat⟩) i hlo hi'

theorem Lie.block {att : Att} {reads : Bool} {val : Nat → Nat} (h : Lie s u agent m lo hi n att reads p q)
    (hx : Progressed keep s x n lo i hi p q val) (hlo : lo ≤ i) (hi' : i < hi) : blockBad x m 0 (p i) (m.byteAt 0 (i * n)).1 = false :=
  blockBad_mono hx.piece.touches hx.piece.marks (h.2 i hlo hi').2.2.1

theorem Lie.crc {att : Att} {reads : Bool} {val : Nat → Nat} (h : Lie s u agent m lo hi n att reads p q)
    (hx : Progressed keep s x n lo i hi p q val) (hlo : lo ≤ i) (hi' : i < hi) (hkeep : keep ∨ (q i).sp % 3 = 0) : crcFails x (p i) (q i) = false := by
  obtain ⟨_, hq, _, hcrc, _⟩ := h.2 i hlo hi'
  obtain hkeep | hspace := hkeep
  · exact crcFails_mono hcrc (hx.crc hkeep)
  · have hno : ((q i).sp == 1 || (q i).sp == 2) = false := by
      rw [Bool.or_eq_false_iff, beq_eq_false_iff_ne, beq_eq_false_iff_ne]
      omega
    rw [crcFails, hno, Bool.false_and, Bool.false_and]

theorem Lie.plain {att : Att} {reads : Bool} {val : Nat → Nat} (h : Lie s u agent m lo hi n att reads p q)
    (hx : Progressed keep s x n lo i hi p q val) (hlo : lo ≤ i) (hi' : i < hi) : PlainAt x u.ctx (q i) := by
  obtain ⟨_, hq, _, _, hmarks⟩ := h.2 i hlo hi'
  exact PlainAt.congr ⟨hq, marksNothing_of_markDirty hmarks⟩ (hx.piece.touches.keeps .ctxs (by decide))

theorem touches_carryCrc (s0 s : State) (m : Cmd) (idx i : Nat) (a b : Place) : Touches [.badCrc] s (carryCrc s0 s m idx i a b) := by
  unfold carryCrc
  dsimp only
  split
  · refine ⟨fun part hpart => ?_⟩
    cases part
    case badCrc => exact absurd (by decide) hpart
    all_goals rfl
  · exact .refl _ s

theorem carryCrc_outside (s0 s : State) (m : Cmd) (idx i : Nat) {a b : Place} (h : b.sp % 3 ≠ 0) : carryCrc s0 s m idx i a b = s := by
  unfold carryCrc
  dsimp only
  rw [if_neg]
  simp [h]

/-- Where a part of a copy goes, and what goes there. -/
theorem byteMoved_facts (hplain : PlainAt x u.ctx (q i)) (w : Nat) :
    Touches (.badCrc :: raceParts) (x.wrN (q i).sp (q i).a 1 w) (byteMoved s0 x u agent m 0 i w (p i) (q i))
      ∧ RaceOnly (x.wrN (q i).sp (q i).a 1 w) (byteMoved s0 x u agent m 0 i w (p i) (q i))
      ∧ ((q i).sp % 3 ≠ 0 → (byteMoved s0 x u agent m 0 i w (p i) (q i)).badCrc = (x.wrN (q i).sp (q i).a 1 w).badCrc) := by
  unfold byteMoved
  rw [store_plain hplain]
  obtain ⟨z, hz⟩ : ∃ z, x.wrN (q i).sp (q i).a 1 w = z := ⟨_, rfl⟩
  rw [hz]
  refine ⟨?_, ?_, fun hspace => ?_⟩
  · exact .last ((touches_engNote ..).mono (by decide)) <| .last ((touches_engNote ..).mono (by decide)) ((touches_carryCrc ..).mono (by decide))
  · exact .last (raceOnly_engNote ..) <| .last (raceOnly_engNote ..) (raceOnly_of_units ((touches_carryCrc ..).keeps .units (by decide)))
  · rw [carryCrc_outside s0 z m 0 i hspace, (touches_engNote ..).keeps .badCrc (by decide), (touches_engNote ..).keeps .badCrc (by decide)]

/-- A byte as a copy reads it is the byte that stood there, where the piece does not write it. -/
theorem copyByte_eq {w core : Nat} {a : Place} (ha : a.sp < 4) (h0 : s0.rdN a.sp a.a 1 = w) (h : x.rdN a.sp a.a 1 = w) : copyByte s0 x core a = w := by
  have hload : ∀ z : State, z.load core a.sp a.a 1 = z.rdN a.sp a.a 1 := fun z => if_neg (by omega)
  unfold copyByte
  rw [hload, hload, h0, h, ite_self]

section
variable (hflat : FlatCopy m) (hlie : Lie s u agent m lo hi 1 { write := true } false p q)
  (hspaces : ∀ j, lo ≤ j → j < hi → (keep ∧ (q j).sp % 3 ≠ 0) ∨ (¬ keep ∧ (q j).sp % 3 = 0))
  (hs0 : Touches [.engines] s s0)
include hflat hlie hspaces hs0

theorem moveStep_progress (hx : Progressed keep s x 1 lo i hi p q fun j => s.rdN (p j).sp (p j).a 1) (hlo : lo ≤ i) (hi' : i < hi) (idx : Option Nat) :
    ∃ y, moveStep s0 u agent m i idx [] x = .ok (y, 0) ∧ Progressed keep s y 1 lo (i + 1) hi p q fun j => s.rdN (p j).sp (p j).a 1 := by
  obtain ⟨hp, hq⟩ := Lie.places hlie hx hlo hi'
  have hblock := Lie.block hlie hx hlo hi'
  rw [Nat.mul_one] at hp hq hblock
  have hcrc := Lie.crc hlie hx hlo hi' ((hspaces i hlo hi').imp And.left And.right)
  have hin := Lie.inMemory hlie
  obtain ⟨htouch, hraces, hkept⟩ := byteMoved_facts (s0 := s0) (agent := agent) (m := m) (i := i) (p := p) (Lie.plain hlie hx hlo hi') (copyByte s0 x u.core (p i))
  refine ⟨byteMoved s0 x u agent m 0 i (copyByte s0 x u.core (p i)) (p i) (q i), ?_, hx.step hin hlo hi' (fun hsolo => ?_) htouch hraces fun hkeep => ?_⟩
  · unfold moveStep
    rw [rowIndex_flat hflat]
    simp only [bind, Except.bind]
    rw [hp]
    dsimp only
    rw [hblock, if_neg (by decide), hq]
    dsimp only
    rw [hcrc, if_neg (by decide)]
    rfl
  · have hold := State.rdN_congr (n := 1) fun b _ => hs0.rd (by decide) (by decide) (by decide) (by decide) (p i).sp ((p i).a + b)
    rw [copyByte_eq (hin i hlo hi').1 hold (hx.source hin hlo hi' hsolo)]
    exact Nat.mod_eq_of_lt (s.rdN_lt ..)
  · exact hkept (((hspaces i hlo hi').resolve_right fun h => h.1 hkeep).2)

theorem moveGo_progress (hx : Progressed keep s x 1 lo i hi p q fun j => s.rdN (p j).sp (p j).a 1) (hlo : lo ≤ i) (n : Nat) (hn : i + n = hi)
    (idx : Option Nat) : ∃ y idx', moveGo s0 u agent m n i idx [] x = ({ s := y, n := n, stop := none }, idx')
      ∧ Progressed keep s y 1 lo hi hi p q fun j => s.rdN (p j).sp (p j).a 1 := by
  induction n generalizing i idx x with
  | zero =>
    obtain rfl : i = hi := by omega
    exact ⟨x, idx, rfl, hx⟩
  | succ n ih =>
    obtain ⟨y, hstep, hy⟩ := moveStep_progress hflat hlie hspaces hs0 hx hlo (by omega) idx
    obtain ⟨z, idx', hgo, hz⟩ := ih hy (by omega) (by omega) (some 0)
    refine ⟨z, idx', ?_, hz⟩
    rw [moveGo_succ, hstep]
    dsimp only
    rw [List.tail_nil, hgo]

end

/-! ## Bytes read ahead -/

theorem aheadGo_quiet (s0 x : State) (u : Unit) (agent : Nat) (m : Cmd) (idx n i : Nat) :
    Touches raceParts x (aheadGo s0 u agent m idx n i x).1 ∧ RaceOnly x (aheadGo s0 u agent m idx n i x).1 := by
  induction n generalizing x i with
  | zero => exact ⟨.refl _ x, .refl x⟩
  | succ n ih =>
    unfold aheadGo
    dsimp only
    split
    · exact ⟨.refl _ x, .refl x⟩
    · split
      · exact ⟨.refl _ x, .refl x⟩
      · split
        · exact ⟨.refl _ x, .refl x⟩
        · exact ⟨(touches_engNote ..).trans (ih ..).1, (raceOnly_engNote ..).trans (ih ..).2⟩

/-! ## Reductions -/

theorem elementReduced_facts {o : Op} {a b : Place} (hplain : PlainAt x u.ctx b) :
    let w := credNew o (x.load u.core b.sp b.a (credEs o)) (x.load u.core a.sp a.a (credEs o))
    Touches (.badCrc :: raceParts) (x.wrN b.sp b.a (credEs o) w) (elementReduced x u agent o a b)
      ∧ RaceOnly (x.wrN b.sp b.a (credEs o) w) (elementReduced x u agent o a b)
      ∧ (elementReduced x u agent o a b).badCrc = (x.wrN b.sp b.a (credEs o) w).badCrc := by
  intro w
  unfold elementReduced
  rw [store_plain hplain]
  obtain ⟨z, hz⟩ : ∃ z, x.wrN b.sp b.a (credEs o) w = z := ⟨_, rfl⟩
  rw [hz]
  refine ⟨?_, ?_, ?_⟩
  · exact .last ((touches_engNote ..).mono (by decide)) <| .last ((touches_engNote ..).mono (by decide)) ((touches_keepHeld ..).mono (by decide))
  · exact .last (raceOnly_engNote ..) <| .last (raceOnly_engNote ..) (raceOnly_of_units ((touches_keepHeld ..).keeps .units (by decide)))
  · rw [(touches_engNote ..).keeps .badCrc (by decide), (touches_engNote ..).keeps .badCrc (by decide), (touches_keepHeld ..).keeps .badCrc (by decide)]

/-- What a reduction leaves at its element `j`. -/
def reducedTo (s : State) (o : Op) (p q : Nat → Place) (j : Nat) : Nat :=
  credNew o (s.rdN (q j).sp (q j).a (credEs o)) (s.rdN (p j).sp (p j).a (credEs o)) % 2 ^ (8 * credEs o)

section
variable {o : Op} {z : ModX} (hins : m.ins = .cred o z) (hlie : Lie s u agent m lo hi (credEs o) credAtt true p q)
  (htargets : ∀ j, lo ≤ j → j < hi → noAtomic (q j) = false ∧ targetBad s m.total (q j) (credEs o * j) = false)
include hins hlie htargets

theorem reduceStep_progress (hx : Progressed True s x (credEs o) lo i hi p q (reducedTo s o p q)) (hlo : lo ≤ i) (hi' : i < hi) :
    ∃ y, reduceStep u agent m o (i * credEs o) x = .ok y ∧ Progressed True s y (credEs o) lo (i + 1) hi p q (reducedTo s o p q) := by
  obtain ⟨hp, hq⟩ := Lie.places hlie hx hlo hi'
  have hblock := Lie.block hlie hx hlo hi'
  have hbyte : m.byteAt 0 (i * credEs o) = (((i * credEs o : Nat) : Int), ((i * credEs o : Nat) : Int)) := by
    unfold Cmd.byteAt
    rw [hins]
  rw [hbyte] at hp hq hblock
  have hcrc := Lie.crc hlie hx hlo hi' (.inl trivial)
  have hin := Lie.inMemory hlie
  obtain ⟨hatomic, htarget⟩ := htargets i hlo hi'
  have htarget' : targetBad x m.total (q i) (i * credEs o) = false := by
    rw [Nat.mul_comm]
    exact spoilt_mono hx.piece.touches hx.piece.marks htarget
  have hload : ∀ a : Place, a.sp < 4 → x.load u.core a.sp a.a (credEs o) = x.rdN a.sp a.a (credEs o) := fun a ha => if_neg (by omega)
  obtain ⟨htouch, hraces, hkept⟩ := elementReduced_facts (agent := agent) (o := o) (a := p i) (Lie.plain hlie hx hlo hi')
  refine ⟨elementReduced x u agent o (p i) (q i), ?_, hx.step hin hlo hi' (fun hsolo => ?_) htouch hraces fun _ => hkept⟩
  · unfold reduceStep
    simp only [bind, Except.bind]
    rw [hp]
    dsimp only
    rw [hblock, if_neg (by decide), hq]
    dsimp only
    rw [hatomic, htarget', hcrc, if_neg (by decide), if_neg (by decide), if_neg (by decide)]
    rfl
  · rw [hload _ (hin i hlo hi').1, hload _ (hin i hlo hi').2, hx.source hin hlo hi' hsolo, hx.target hin hlo hi' hsolo]
    rfl

theorem reduceGo_progress (hx : Progressed True s x (credEs o) lo i hi p q (reducedTo s o p q)) (hlo : lo ≤ i) (n : Nat) (hn : i + n = hi) :
    ∃ y, reduceGo u agent m o n (i * credEs o) x = { s := y, n := n * credEs o, stop := none }
      ∧ Progressed True s y (credEs o) lo hi hi p q (reducedTo s o p q) := by
  induction n generalizing i x with
  | zero =>
    obtain rfl : i = hi := by omega
    exact ⟨x, by rw [Nat.zero_mul]; rfl, hx⟩
  | succ n ih =>
    obtain ⟨y, hstep, hy⟩ := reduceStep_progress hins hlie htargets hx hlo (by omega)
    obtain ⟨w, hgo, hw⟩ := ih hy (by omega) (by omega)
    refine ⟨w, ?_, hw⟩
    rw [reduceGo_succ, hstep]
    dsimp only
    rw [← Nat.succ_mul, hgo, Nat.succ_mul]

end

end Sys2Proof.Machine
end

section
/-! PROOFS. The steps of copies: pieces, completions, fills, ordered contributions and late replies (R173 to R175, R195 to R198, R280 to R291). -/

namespace Sys2Proof.Machine
open Sys2Proof.Claims

variable {s t r x y : State} {k : UKey} {u v : Unit} {agent : Nat} {m : Cmd} {l : Launch} {i : Instr} {fn lid n : Nat}

/-! ## When an engine comes to a command (R173, R198, R283) -/

/-- A step that may move a piece of a command: its engine's, or its stream's sequencer's. -/
def PieceTurn (s : State) (k : UKey) (u : Unit) (agent : Nat) (m : Cmd) (i : Instr) : Prop :=
  i = .copyPiece (.cmd k agent) ∧ m.stream = none
    ∨ ∃ l n, i = .orderedReductionApply k.fn k.lid n ∧ s.launch? k.fn k.lid = some l ∧ holder s l n (l.ostream n).next = some (u, agent, m)

theorem copyPiece_unit_none (hu : s.unit? k = none) (agent : Nat) : exec (.copyPiece (.cmd k agent)) s = .next s := by
  show execCopyPiece (.cmd k agent) s = _
  unfold execCopyPiece
  dsimp only
  rw [hu]

theorem copyPiece_cmd_none (hu : s.unit? k = some u) (hm : u.cmd? agent = none) : exec (.copyPiece (.cmd k agent)) s = .next s := by
  show execCopyPiece (.cmd k agent) s = _
  unfold execCopyPiece
  dsimp only
  rw [hu]
  dsimp only
  rw [hm]

theorem copyPiece_eq (hu : s.unit? k = some u) (hm : u.cmd? agent = some m) : exec (.copyPiece (.cmd k agent)) s =
    if movable s u agent m && m.stream.isNone && engineTurn s k agent then enginePiece s u agent m else .next s := by
  show execCopyPiece (.cmd k agent) s = _
  unfold execCopyPiece
  dsimp only
  rw [hu]
  dsimp only
  rw [hm]

theorem orderedApply_holder (hl : s.launch? fn lid = some l) (hh : holder s l n (l.ostream n).next = some (u, agent, m)) :
    exec (.orderedReductionApply fn lid n) s = if !movable s u agent m then .next s
      else if !onEngine s u.key agent then .next (queueOn s u.core u.key agent m)
      else if engineTurn s u.key agent then enginePiece s u agent m else .next s := by
  show execOrderedReductionApply fn lid n s = _
  unfold execOrderedReductionApply
  rw [hl]
  dsimp only
  rw [hh]

theorem holder_stream {idx : Nat} (h : holder s l n idx = some (u, agent, m)) : m.stream = some n := by
  obtain ⟨v, _, hv⟩ := List.exists_of_findSome?_eq_some h
  split at hv
  · obtain ⟨c, hc, heq⟩ := Option.map_eq_some_iff.1 hv
    have hstream := List.find?_some hc
    simp only [Bool.and_eq_true, beq_iff_eq] at hstream
    cases heq
    exact hstream.1
  · cases hv

theorem onEngine_of_turn (h : engineTurn s k agent = true) : onEngine s k agent = true := by
  unfold engineTurn at h
  dsimp only at h
  rw [List.any_eq_true] at h
  obtain ⟨e, he, hfind⟩ := h
  rw [onEngine, List.any_eq_true]
  exact ⟨e, he, List.contains_iff_mem.2 (List.mem_of_find?_eq_some (by simpa using hfind))⟩

section
variable (hu : s.unit? k = some u) (hm : u.cmd? agent = some m) (hi : PieceTurn s k u agent m i)
include hu hm hi

theorem pieceTurn_waits (h : movable s u agent m = false ∨ (engineTurn s k agent = false ∧ (m.stream = none ∨ onEngine s k agent = true))) :
    exec i s = .next s := by
  have hkey : u.key = k := by simpa using List.find?_some hu
  obtain ⟨rfl, hstream⟩ | ⟨l, n, rfl, hl, hh⟩ := hi
  · rw [copyPiece_eq hu hm]
    refine if_neg ?_
    obtain h | ⟨h, _⟩ := h <;> simp [h]
  · rw [orderedApply_holder hl hh, hkey]
    obtain h | ⟨h, hon⟩ := h
    · rw [h]
      rfl
    · rw [h, hon.resolve_left (by rw [holder_stream hh]; simp), if_neg (by simp : ¬ (!true) = true), if_neg (by simp : ¬ false = true), ite_self]

theorem pieceTurn_moves (hmove : movable s u agent m = true) (hturn : engineTurn s k agent = true) : exec i s = enginePiece s u agent m := by
  have hkey : u.key = k := by simpa using List.find?_some hu
  obtain ⟨rfl, hstream⟩ | ⟨l, n, rfl, hl, hh⟩ := hi
  · rw [copyPiece_eq hu hm, hmove, hstream, hturn]
    rfl
  · rw [orderedApply_holder hl hh, hkey, hmove, hturn, onEngine_of_turn hturn]
    rfl

end

/-! ## One piece -/

theorem enginePiece_flush (hvac : u.vacating = true) (hback : m.back ≠ []) : enginePiece s u agent m = flushBack (nextTurn s u.key agent) u agent m := by
  have hheld : m.back.isEmpty = false := by simpa using hback
  rw [enginePiece, cmdPiece, hvac, hheld]
  rfl

theorem enginePiece_local (hback : m.back = []) (hsent : m.sent = []) (hremote : m.remote = false) (hplain : ∀ o x, m.ins ≠ .cpyz o x) :
    enginePiece s u agent m = pieceDone (nextTurn s u.key agent) m u.key agent (localPiece (nextTurn s u.key agent) u agent m) := by
  have hnone : m.nextGot = none := by rw [Cmd.nextGot, hsent]; rfl
  unfold enginePiece cmdPiece
  rw [hback, hnone, hremote, List.isEmpty_nil, Bool.not_true, Bool.and_false, if_neg (by decide), if_neg (by decide), if_neg (by decide)]
  split
  · next o x hins => exact absurd hins (hplain o x)
  · rfl

theorem touches_nextTurn (s : State) (k : UKey) (agent : Nat) : Touches [.engines] s (nextTurn s k agent) := .engines (by decide) s _

theorem modCmd_rd (s : State) (k : UKey) (agent : Nat) (f : Cmd → Cmd) (sp a : Nat) : (s.modCmd k agent f).rd sp a = s.rd sp a := rfl

/-- What a command has come to with a piece that has not stopped. -/
def advanced (m : Cmd) (to_ : Nat) (c : Cmd) : Prop :=
  c.prog = to_ ∧ (m.total ≤ to_ → c.state = .done ∧ c.status = statusWord 0 m.okDetail)

theorem pieceDone_next {z : Piece} {c : Cmd} (hstop : z.stop = none) (hu : z.s.unit? k = some u) (hm : u.cmd? agent = some c) :
    ∃ t v c', pieceDone s m k agent z = .next t ∧ t.unit? k = some v ∧ v.cmd? agent = some c' ∧ (∀ sp a, t.rd sp a = z.s.rd sp a)
      ∧ advanced m (m.prog + z.n) c' ∧ (m.prog + z.n < m.total → c'.state = c.state) := by
  obtain ⟨v, hv, hc⟩ := modCmd_found hu hm fun m' => { m' with prog := m.prog + z.n }
  unfold pieceDone
  rw [hstop]
  dsimp only
  split
  · next hend =>
    obtain ⟨w, hw, hc'⟩ := modCmd_found hv hc fun m' => { m' with state := .done, status := statusWord St.OK m.okDetail }
    exact ⟨_, w, _, rfl, hw, hc', fun _ _ => rfl, ⟨rfl, fun _ => ⟨rfl, rfl⟩⟩, fun h => by omega⟩
  · next hgoes => exact ⟨_, v, _, rfl, hv, hc, fun _ _ => rfl, ⟨rfl, fun h => absurd h hgoes⟩, fun _ => rfl⟩

theorem Cmd.le_cut (h : m.prog ≤ m.total) : m.prog ≤ m.cut m.prog := by
  have htop : m.prog ≤ min m.total (m.prog + pieceBytes) := by unfold pieceBytes; omega
  unfold Cmd.cut
  dsimp only
  split
  · exact htop
  · split
    · unfold Cmd.edge
      have hnext : m.prog < pieceBytes * (m.prog / pieceBytes + 1) := by
        unfold pieceBytes
        omega
      have hunit : ∀ q, q ≤ (([q, q + 1, q + 2].find? m.unitStart).getD (q + 3)) := fun q => by
        cases hfind : [q, q + 1, q + 2].find? m.unitStart with
        | none => exact Nat.le_add_right _ _
        | some y =>
          have hmem := List.mem_of_find?_eq_some hfind
          simp only [List.mem_cons, List.not_mem_nil, or_false] at hmem
          show q ≤ y
          omega
      exact le_min h (hnext.le.trans (hunit _))
    · rename_i htotal _
      cases hfind : [min m.total (m.prog + pieceBytes), min m.total (m.prog + pieceBytes) - 1, min m.total (m.prog + pieceBytes) - 2,
          min m.total (m.prog + pieceBytes) - 3].find? fun q => m.prog < q && m.unitStart q with
      | none => exact htop
      | some y =>
        have hlt := List.find?_some hfind
        simp only [Bool.and_eq_true, decide_eq_true_eq] at hlt
        exact hlt.1.le

/-! ## A piece of a copy, and of a reduction -/

theorem modCmd_id (s : State) (k : UKey) (agent : Nat) : s.modCmd k agent id = s := by
  have hcmds : ∀ u : Unit, u.modCmd agent id = u := fun u => by
    have hmap : (u.cmds.map fun m => if m.1 == agent then (m.1, id m.2) else m) = u.cmds := by
      refine (List.map_congr_left fun m _ => ?_).trans (List.map_id _)
      split
      · rfl
      · rfl
    rw [Unit.modCmd, hmap]
  have hunits : (s.units.map fun u => if u.key == k then u.modCmd agent id else u) = s.units := by
    refine (List.map_congr_left fun u _ => ?_).trans (List.map_id _)
    rw [hcmds, ite_self]
    rfl
  rw [State.modCmd, State.modUnit, hunits]

section
variable (hu : s.unit? k = some u) (hm : u.cmd? agent = some m) (hback : m.back = []) (hsent : m.sent = []) (hremote : m.remote = false)
include hu hm hback hsent hremote

theorem enginePiece_stands (hplain : ∀ o x, m.ins ≠ .cpyz o x) (hstop : (localPiece (nextTurn s k agent) u agent m).stop = none) :
    ∃ t u' m', enginePiece s u agent m = .next t ∧ t.unit? k = some u' ∧ u'.cmd? agent = some m'
      ∧ SameMemory (localPiece (nextTurn s k agent) u agent m).s t ∧ advanced m (m.prog + (localPiece (nextTurn s k agent) u agent m).n) m' := by
  have hkey : u.key = k := by simpa using List.find?_some hu
  subst hkey
  have hfound : HasCmd (nextTurn s u.key agent) u.key agent := ⟨u, m, (State.unit?_congr ((touches_nextTurn ..).keeps .units (by decide)) _).trans hu, hm⟩
  obtain ⟨v, c, hv, hc⟩ := found_localPiece hfound m
  obtain ⟨t, w, c', ht, hw, hc', hrd, hadv, _⟩ := pieceDone_next (s := nextTurn s u.key agent) (m := m) hstop hv hc
  exact ⟨t, w, c', (enginePiece_local hback hsent hremote hplain).trans ht, hw, hc', fun sp _ a => hrd sp a, hadv⟩

/-- A piece whose parts have all been written ends with its command's progress at the end of it. -/
theorem enginePiece_progress {p q : Nat → Place} {lo hi w to_ : Nat} {val : Nat → Nat} {keep : Prop} {z : State} {f : Cmd → Cmd}
    (hplain : ∀ o x, m.ins ≠ .cpyz o x) (hpiece : localPiece (nextTurn s k agent) u agent m = { s := z.modCmd k agent f, n := to_ - m.prog, stop := none })
    (hto : m.prog ≤ to_) (hstate : (f m).state = m.state) (hraces : RaceOnly s y) (hz : RaceOnly y z) (htouch : Touches raceParts y z)
    (hy : Progressed keep s y w lo hi hi p q val) :
    ∃ t, enginePiece s u agent m = .next t ∧ (∃ u' m', t.unit? k = some u' ∧ u'.cmd? agent = some m' ∧ advanced m to_ m' ∧ (to_ < m.total → m'.state = m.state))
      ∧ OnlyAt s t lo hi w q ∧ ∀ j, lo ≤ j → j < hi → Solo lo hi w p q j → t.rdN (q j).sp (q j).a w = val j := by
  have hkey : u.key = k := by simpa using List.find?_some hu
  subst hkey
  obtain ⟨race, hunit⟩ := (hraces.trans hz).unit _ u hu
  obtain ⟨v, hv, hc⟩ := modCmd_found hunit (show Unit.cmd? _ agent = some m from hm) f
  obtain ⟨t, u', m', ht, hu', hm', hrd, hadv, hgoes⟩ := pieceDone_next (s := nextTurn s u.key agent) (m := m)
    (z := { s := z.modCmd u.key agent f, n := to_ - m.prog, stop := none }) rfl hv hc
  have hat : m.prog + (to_ - m.prog) = to_ := by omega
  have hsame : ∀ sp a, t.rd sp a = y.rd sp a := fun sp a =>
    (hrd sp a).trans (htouch.rd (by decide) (by decide) (by decide) (by decide) sp a)
  dsimp only at hadv hgoes
  rw [hat] at hadv hgoes
  refine ⟨t, (enginePiece_local hback hsent hremote hplain).trans (by rw [hpiece]; exact ht),
    ⟨u', m', hu', hm', hadv, fun hlt => (hgoes hlt).trans hstate⟩, fun sp hsp a hout => ?_, fun j hj hjh hsolo => ?_⟩
  · rw [hsame]
    refine hy.piece.rd sp hsp a fun ⟨j, hj, hjh, hspace, hle, hlt⟩ => ?_
    have := hout j hj hjh hspace
    omega
  · rw [State.rdN_congr fun b _ => hsame ..]
    exact hy.done j hj hjh hsolo

theorem copyPiece_moves {p q : Nat → Place} (hflat : FlatCopy m) (hprog : m.prog ≤ m.total) (hahead : m.ahead = [])
    (hlie : Lie s u agent m m.prog (m.cut m.prog) 1 { write := true } false p q)
    (hspaces : ∀ j, m.prog ≤ j → j < m.cut m.prog → ((q j).sp % 3 = 0 ↔ (q m.prog).sp % 3 = 0)) :
    ∃ t, enginePiece s u agent m = .next t
      ∧ (∃ u' m', t.unit? k = some u' ∧ u'.cmd? agent = some m' ∧ advanced m (m.cut m.prog) m' ∧ (m.cut m.prog < m.total → m'.state = m.state))
      ∧ OnlyAt s t m.prog (m.cut m.prog) 1 q
      ∧ ∀ j, m.prog ≤ j → j < m.cut m.prog → Solo m.prog (m.cut m.prog) 1 p q j → t.rdN (q j).sp (q j).a 1 = s.rdN (p j).sp (p j).a 1 := by
  have hcut := Cmd.le_cut hprog
  have hkey : u.key = k := by simpa using List.find?_some hu
  subst hkey
  have hstart := touches_nextTurn s u.key agent
  have hkinds : ∀ j, m.prog ≤ j → j < m.cut m.prog →
      ((q m.prog).sp % 3 ≠ 0 ∧ (q j).sp % 3 ≠ 0) ∨ (¬ (q m.prog).sp % 3 ≠ 0 ∧ (q j).sp % 3 = 0) := fun j hj hjh => by
    have := hspaces j hj hjh
    omega
  obtain ⟨y, idx, hgo, hy⟩ := moveGo_progress (s0 := nextTurn s u.key agent) hflat hlie hkinds hstart (progressed_start hstart) le_rfl
    (m.cut m.prog - m.prog) (by omega) (m.vec.head?.map (·.toNat))
  obtain ⟨htouch, hraces⟩ := aheadGo_quiet (nextTurn s u.key agent) y u agent m (idx.getD 0) 3 (m.cut m.prog)
  have hpiece : localPiece (nextTurn s u.key agent) u agent m =
      { s := (aheadGo (nextTurn s u.key agent) u agent m (idx.getD 0) 3 (m.cut m.prog) y).1.modCmd u.key agent fun c =>
          { c with vec := c.kept idx, ahead := (aheadGo (nextTurn s u.key agent) u agent m (idx.getD 0) 3 (m.cut m.prog) y).2 },
        n := m.cut m.prog - m.prog, stop := none } := by
    rw [localPiece_flat hflat, pieceCopy, hahead, hgo]
    rfl
  have hplain : ∀ o x, m.ins ≠ .cpyz o x := fun o x hins => by
    obtain ⟨_, _, h | h | h⟩ := hflat
    all_goals
      rw [hins] at h
      cases h
  exact enginePiece_progress hu hm hback hsent hremote hplain hpiece hcut rfl hy.piece.races hraces htouch hy

theorem credPiece_moves {o : Op} {x : ModX} {p q : Nat → Place} (hins : m.ins = .cred o x)
    (halign : m.prog % credEs o = 0)
    (hlie : Lie s u agent m (m.prog / credEs o) (m.prog / credEs o + (m.cut m.prog - m.prog) / credEs o) (credEs o) credAtt true p q)
    (htargets : ∀ j, m.prog / credEs o ≤ j → j < m.prog / credEs o + (m.cut m.prog - m.prog) / credEs o →
      noAtomic (q j) = false ∧ targetBad s m.total (q j) (credEs o * j) = false) :
    let hi := m.prog / credEs o + (m.cut m.prog - m.prog) / credEs o
    ∃ t, enginePiece s u agent m = .next t
      ∧ (∃ u' m', t.unit? k = some u' ∧ u'.cmd? agent = some m' ∧ advanced m (credEs o * hi) m' ∧ (credEs o * hi < m.total → m'.state = m.state))
      ∧ OnlyAt s t (m.prog / credEs o) hi (credEs o) q
      ∧ ∀ j, m.prog / credEs o ≤ j → j < hi → Solo (m.prog / credEs o) hi (credEs o) p q j →
        t.rdN (q j).sp (q j).a (credEs o) = reducedTo s o p q j := by
  intro hi
  have hkey : u.key = k := by simpa using List.find?_some hu
  subst hkey
  have hstart := touches_nextTurn s u.key agent
  have hfirst : m.prog / credEs o * credEs o = m.prog := Nat.div_mul_cancel (Nat.dvd_of_mod_eq_zero halign)
  obtain ⟨y, hgo, hy⟩ := reduceGo_progress hins hlie htargets (progressed_start hstart) le_rfl ((m.cut m.prog - m.prog) / credEs o) rfl
  rw [hfirst] at hgo
  have hend : credEs o * hi - m.prog = (m.cut m.prog - m.prog) / credEs o * credEs o := by
    show credEs o * (m.prog / credEs o + _) - m.prog = _
    rw [Nat.mul_add, Nat.mul_comm (credEs o) (m.prog / credEs o), hfirst, Nat.add_sub_cancel_left, Nat.mul_comm]
  have hto : m.prog ≤ credEs o * hi := by
    show m.prog ≤ credEs o * (m.prog / credEs o + _)
    rw [Nat.mul_add, Nat.mul_comm (credEs o) (m.prog / credEs o), hfirst]
    exact Nat.le_add_right _ _
  have hpiece : localPiece (nextTurn s u.key agent) u agent m = { s := y.modCmd u.key agent id, n := credEs o * hi - m.prog, stop := none } := by
    rw [modCmd_id, hend, ← hgo]
    unfold localPiece
    rw [hins]
    rfl
  have hplain : ∀ o x, m.ins ≠ .cpyz o x := fun o x h => by
    rw [hins] at h
    cases h
  exact enginePiece_progress hu hm hback hsent hremote hplain hpiece hto rfl hy.piece.races (.refl y) (.refl _ y) hy

end

/-! ## Completions (R280, R289) -/

/-- A unit with another's tags, streams, place and commands. -/
structure TagsAs (u v : Unit) : Prop where
  ready : v.ready = u.ready
  pend : v.pend = u.pend
  tstat : v.tstat = u.tstat
  sq : v.sq = u.sq
  seat : v.core = u.core ∧ v.vault = u.vault
  cmds : v.cmds = u.cmds

theorem TagsAs.trans {w : Unit} (h : TagsAs u v) (h' : TagsAs v w) : TagsAs u w :=
  ⟨h'.ready.trans h.ready, h'.pend.trans h.pend, h'.tstat.trans h.tstat, h'.sq.trans h.sq, ⟨h'.seat.1.trans h.seat.1, h'.seat.2.trans h.seat.2⟩,
    h'.cmds.trans h.cmds⟩

/-- From a state to another that has every unit of the first, with its tags, streams and commands. -/
structure TagsStay (s t : State) : Prop where
  unit : ∀ k u, s.unit? k = some u → ∃ v, t.unit? k = some v ∧ TagsAs u v

theorem tagsStay_of_units (h : t.units = s.units) : TagsStay s t :=
  ⟨fun k u hu => ⟨u, (State.unit?_congr h k).trans hu, rfl, rfl, rfl, rfl, ⟨rfl, rfl⟩, rfl⟩⟩

theorem TagsStay.refl (s : State) : TagsStay s s := tagsStay_of_units rfl

/-- The last change first, the ones before it after it. -/
theorem TagsStay.last (h' : TagsStay t r) (h : TagsStay s t) : TagsStay s r := ⟨fun k u hu => by
  obtain ⟨v, hv, huv⟩ := h.unit k u hu
  obtain ⟨w, hw, hvw⟩ := h'.unit k v hv
  exact ⟨w, hw, huv.trans hvw⟩⟩

theorem TagsStay.foldl {α : Type} {f : State → α → State} (hf : ∀ s x, TagsStay s (f s x)) (xs : List α) (s : State) : TagsStay s (xs.foldl f s) :=
  foldl_keeps (I := TagsStay s) (fun t x _ h => (hf t x).last h) (.refl s)

theorem TagsStay.ite {c : Prop} [Decidable c] (h : TagsStay s t) (h' : TagsStay s r) : TagsStay s (if c then t else r) := by
  split
  · exact h
  · exact h'

theorem tagsStay_modUnit (s : State) (j : UKey) (f : Unit → Unit) (hkey : ∀ u, (f u).key = u.key) (hf : ∀ u, TagsAs u (f u)) : TagsStay s (s.modUnit j f) :=
  ⟨fun k u hu => by
    by_cases hj : k = j
    · subst hj
      exact ⟨f u, unit?_modUnit_of hu f fun u h => (hkey u).trans h, hf u⟩
    · exact ⟨u, (State.unit?_modUnit_ne f (fun u h => (hkey u).trans h) hj).trans hu, rfl, rfl, rfl, rfl, ⟨rfl, rfl⟩, rfl⟩⟩

theorem RaceOnly.tagsStay (h : RaceOnly s t) : TagsStay s t := ⟨fun k u hu => by
  obtain ⟨x, hx⟩ := h.unit k u hu
  exact ⟨_, hx, rfl, rfl, rfl, rfl, ⟨rfl, rfl⟩, rfl⟩⟩

theorem tagsStay_addEnergy (s : State) (k : UKey) (n : Nat) : TagsStay s (addEnergy s k n) :=
  tagsStay_modUnit _ _ _ (fun _ => rfl) fun _ => ⟨rfl, rfl, rfl, rfl, ⟨rfl, rfl⟩, rfl⟩

theorem tagsStay_wakeUnit (s : State) (k : UKey) (p : Wait → Bool) : TagsStay s (wakeUnit s k p) :=
  tagsStay_modUnit _ _ _ (fun _ => rfl) fun _ => ⟨rfl, rfl, rfl, rfl, ⟨rfl, rfl⟩, rfl⟩

theorem tagsStay_spend (s : State) (die e est : Nat) : TagsStay s (spend s die e est) := tagsStay_of_units rfl

theorem tagsStay_modCore (s : State) (n : Nat) (f : Core → Core) : TagsStay s (s.modCore n f) := tagsStay_of_units rfl

theorem tagsStay_modDie (s : State) (n : Nat) (f : Die → Die) : TagsStay s (s.modDie n f) := tagsStay_of_units rfl

theorem tagsStay_leaveEngine (s : State) (k : UKey) (agent : Nat) : TagsStay s (leaveEngine s k agent) := tagsStay_of_units rfl

theorem tagsStay_copyPin (s : State) (ctx slot : Nat) (up : Bool) : TagsStay s (copyPin s ctx slot up) := tagsStay_of_units rfl

theorem tagsStay_chargeEnd (s : State) (k : UKey) (die est : Nat) : TagsStay s (chargeEnd s k die est) :=
  .last (tagsStay_spend ..) (tagsStay_addEnergy ..)

theorem tagsStay_chargePass (s : State) (core : Nat) (p : Pass) : TagsStay s (chargePass s core p) :=
  .ite (.refl s) <| .last (tagsStay_spend ..) <| .foldl (fun s (x : UKey × Nat) => tagsStay_addEnergy s x.1 _) _ _

theorem tagsStay_passEnd (s : State) (core : Nat) : TagsStay s (passEnd s core) := by
  unfold passEnd
  refine .last (tagsStay_modDie ..) <| .last (tagsStay_modCore ..) ?_
  split
  · exact tagsStay_chargePass ..
  · exact .refl s

theorem tagsStay_leavePass (s : State) (core : Nat) (k : UKey) (agent : Nat) : TagsStay s (leavePass s core k agent) := by
  unfold leavePass
  split
  · exact .refl s
  · exact .ite (.refl s) <| .ite (.last (tagsStay_passEnd ..) (tagsStay_modCore ..)) (tagsStay_modCore ..)

theorem withoutCmds_cmd (a : Nat) (u : Unit) : (u.withoutCmds a).cmd? a = none := by
  have hnone : ((u.cmds.filter fun x => x.1 != a).find? fun x => x.1 == a) = none := by
    rw [List.find?_eq_none]
    intro x hx
    have := (List.mem_filter.1 hx).2
    simpa using this
  rw [Unit.cmd?, Unit.withoutCmds, hnone]
  rfl

/-- A command that is taken away leaves its unit its tags and streams. -/
theorem dropCmd_gone (hu : s.unit? k = some u) (hm : u.cmd? agent = some m) : ∃ v, (dropCmd s k agent).unit? k = some v
    ∧ v.ready = u.ready ∧ v.pend = u.pend ∧ v.tstat = u.tstat ∧ v.sq = u.sq ∧ v.cmd? agent = none := by
  unfold dropCmd
  rw [hu]
  dsimp only
  rw [hm]
  dsimp only
  obtain ⟨w, hw, hkept⟩ := (TagsStay.foldl (fun s p => tagsStay_copyPin s u.ctx p false) m.pins s).unit k u hu
  have hgone := unit?_modUnit_of hw (Unit.withoutCmds agent) fun _ h => h
  obtain ⟨v, hv, hlast⟩ := (TagsStay.last (tagsStay_wakeUnit ..) <| .last (tagsStay_modDie ..) <| .last (tagsStay_modCore ..) <|
    .last (tagsStay_leaveEngine ..) <| tagsStay_leavePass ..).unit k _ hgone
  exact ⟨v, hv, hlast.ready.trans hkept.ready, hlast.pend.trans hkept.pend, hlast.tstat.trans hkept.tstat, hlast.sq.trans hkept.sq,
    by rw [Unit.cmd?, hlast.cmds]; exact withoutCmds_cmd agent w⟩

theorem commandComplete_nothing (h : (s.unit? k).bind (fun u => (u.cmd? agent).map fun m => (u, m)) = none) :
    exec (.commandComplete k agent) s = .next s := by
  show execCommandComplete k agent s = _
  rw [execCommandComplete, tagEnd, h]

theorem fillEnd_nothing (h : (s.unit? k).bind (fun u => (u.cmd? agent).map fun m => (u, m)) = none) : exec (.fillEnd k agent) s = .next s := by
  show execFillEnd k agent s = _
  rw [execFillEnd, slotEnd, h]

theorem found_eq (hu : s.unit? k = some u) (hm : u.cmd? agent = some m) : (s.unit? k).bind (fun u => (u.cmd? agent).map fun m => (u, m)) = some (u, m) := by
  rw [hu, Option.bind_some, hm]
  rfl

theorem lost_eq (hu : s.unit? k = some u) (hm : u.cmd? agent = none) : (s.unit? k).bind (fun u => (u.cmd? agent).map fun m => (u, m)) = none := by
  rw [hu, Option.bind_some, hm]
  rfl

section
variable (hu : s.unit? k = some u) (hm : u.cmd? agent = some m)
include hu hm

theorem commandComplete_idle (h : m.tag = none ∨ m.state ≠ .done) : exec (.commandComplete k agent) s = .next s := by
  show execCommandComplete k agent s = _
  rw [execCommandComplete, tagEnd, found_eq hu hm]
  dsimp only
  obtain h | h := h
  · rw [h]
  · split
    · rfl
    · rw [if_pos (by simpa using h)]

theorem fillEnd_idle (h : m.fill = none ∨ m.state ≠ .done) : exec (.fillEnd k agent) s = .next s := by
  show execFillEnd k agent s = _
  rw [execFillEnd, slotEnd, found_eq hu hm]
  dsimp only
  obtain h | h := h
  · rw [h]
  · split
    · rfl
    · rw [if_pos (by simpa using h)]

omit hm in
/-- The state in which what a command spent is charged at its end. -/
theorem charged_facts (m : Cmd) : ∃ x v, chargeEnd s k (dieOf u.core) (if m.asked = 0 then 0 else m.estimate) = x ∧ x.unit? k = some v ∧ TagsAs u v
    ∧ SameMemory s x ∧ x.launches = s.launches := by
  obtain ⟨v, hv, huv⟩ := (tagsStay_chargeEnd s k (dieOf u.core) (if m.asked = 0 then 0 else m.estimate)).unit k u hu
  exact ⟨_, v, rfl, hv, huv, (leaves_chargeEnd ..).sameMemory, (leaves_chargeEnd ..).touches.keeps .launches (by decide)⟩

theorem commandComplete_ready {t0 : Nat} (htag : m.tag = some t0) (hlt : t0 < 64) (hdone : m.state = .done) :
    ∃ t u', exec (.commandComplete k agent) s = .next t ∧ t.unit? k = some u' ∧ SameMemory s t ∧ u'.cmd? agent = none
      ∧ u'.ready.getLsbD t0 = true ∧ u'.pend.getLsbD t0 = false ∧ Sparse.get 0 u'.tstat t0 = m.status := by
  obtain ⟨x, v, hx, hv, huv, hmem, _⟩ := charged_facts hu m
  have htagged := unit?_modUnit_of hv (fun v => v.tagReady t0 m.status) fun _ h => h
  have hmem' : SameMemory x (x.modUnit k fun u => u.tagReady t0 m.status) := fun _ _ _ => rfl
  obtain ⟨y, hy⟩ : ∃ y, (x.modUnit k fun u => u.tagReady t0 m.status) = y := ⟨_, rfl⟩
  rw [hy] at htagged hmem'
  obtain ⟨w, hw, hvw⟩ := (raceOnly_withRace y k fun r => r.release k (engineAgent agent) (keyTag t0)).tagsStay.unit k _ htagged
  have hmem'' := (leaves_withRace y k fun r => r.release k (engineAgent agent) (keyTag t0)).sameMemory
  obtain ⟨z, hz⟩ : ∃ z, (withRace y k fun r => r.release k (engineAgent agent) (keyTag t0)) = z := ⟨_, rfl⟩
  rw [hz] at hw hmem''
  have hwm : w.cmd? agent = some m := by
    rw [Unit.cmd?, hvw.cmds]
    show (v.cmds.find? _).map _ = _
    rw [huv.cmds]
    exact hm
  obtain ⟨u', hu', hready, hpend, hstat, _, hgone⟩ := dropCmd_gone hw hwm
  refine ⟨dropCmd z k agent, u', ?_, hu', fun sp hsp a => ?_, hgone, ?_, ?_, ?_⟩
  · show execCommandComplete k agent s = _
    rw [execCommandComplete, tagEnd, found_eq hu hm]
    dsimp only
    rw [htag]
    dsimp only
    rw [hdone, if_neg (by decide), hx, hy, hz]
  · rw [(leaves_dropCmd z k agent).sameMemory sp hsp a, hmem'' sp hsp a, hmem' sp hsp a, hmem sp hsp a]
  · rw [hready, hvw.ready]
    show (v.ready ||| BitVec.ofNat 64 (2 ^ t0)).getLsbD t0 = true
    rw [BitVec.getLsbD_or, getLsbD_pow hlt, Bool.or_true]
  · rw [hpend, hvw.pend]
    show (v.pend &&& ~~~BitVec.ofNat 64 (2 ^ t0)).getLsbD t0 = false
    rw [BitVec.getLsbD_and, BitVec.getLsbD_not, getLsbD_pow hlt, Bool.not_true, Bool.and_false, Bool.and_false]
  · rw [hstat, hvw.tstat]
    exact Sparse.get_set_same

/-- The write of a failed fill's status, and what it leaves to race detection. -/
def statusWritten (x : State) (k : UKey) (agent a : Nat) (w : DWord) : State :=
  cmdNote (x.wrN 3 a 8 w.toNat) k agent { sp := 3, a := a, pte := none, va := 0 } 8 { write := true }

omit hu hm in
theorem statusWritten_facts (hv : x.unit? k = some v) (agent a : Nat) (w : DWord) :
    Touches raceParts (x.wrN 3 a 8 w.toNat) (statusWritten x k agent a w) ∧ RaceOnly (x.wrN 3 a 8 w.toNat) (statusWritten x k agent a w) := by
  have hv' : (x.wrN 3 a 8 w.toNat).unit? k = some v :=
    (State.unit?_congr (((memOnly_wrN x 3 a 8 w.toNat).touches (ps := memoryParts) (by decide)).keeps .units (by decide)) k).trans hv
  unfold statusWritten cmdNote
  rw [hv']
  exact ⟨touches_engNote .., raceOnly_engNote ..⟩

omit hm in
theorem not_refused (hchecks : checks s u = false) (agent : Nat) (p : Place) (n : Nat) (att : Att) : cmdRefused s k agent p n att = false := by
  unfold cmdRefused
  rw [hu]
  dsimp only [Option.or]
  rw [hchecks, Bool.false_and, Bool.and_false]

end

/-- The place of the slot that a fill fills. -/
def slotPlace (u : Unit) (n slot : Nat) : Nat := vaultKey (vaultNo u.core) (u.vault + (u.stream n).base + slot * (u.stream n).slotb * 64)

section
variable (hu : s.unit? k = some u) (hm : u.cmd? agent = some m) {slot : Nat} (hfill : m.fill = some (n, slot)) (hdone : m.state = .done)
include hu hm hfill hdone

/-- How a fill ends, with what is written of its status in the state `x`. -/
theorem fillEnd_done : ∃ x t u', exec (.fillEnd k agent) s = .next t ∧ t.unit? k = some u' ∧ u'.cmd? agent = none
    ∧ u'.stream n = (u.stream n).fillDone slot (decide (statusCode m.status ≠ 0)) ∧ (∀ sp < 4, ∀ a, t.rd sp a = x.rd sp a)
    ∧ (statusCode m.status = 0 → SameMemory s x)
    ∧ (statusCode m.status ≠ 0 → checks s u = false → x.rdN 3 (slotPlace u n slot) 8 = m.status.toNat
      ∧ ∀ sp < 4, ∀ i, sp ≠ 3 ∨ i < slotPlace u n slot ∨ slotPlace u n slot + 8 ≤ i → x.rd sp i = s.rd sp i) := by
  obtain ⟨x0, v0, hx0, hv0, huv0, hmem0, hlaunches⟩ := charged_facts hu m
  obtain ⟨hwt, hwr⟩ := statusWritten_facts hv0 agent (slotPlace u n slot) m.status
  have hwrite := memOnly_wrN x0 3 (slotPlace u n slot) 8 m.status.toNat
  obtain ⟨x, hx⟩ : ∃ x, (if (statusCode m.status != 0 && !cmdRefused x0 k agent { sp := 3, a := slotPlace u n slot, pte := none, va := 0 } 8 { write := true })
      then statusWritten x0 k agent (slotPlace u n slot) m.status else x0) = x := ⟨_, rfl⟩
  have hstay : TagsStay x0 x := hx ▸ .ite (.last hwr.tagsStay (tagsStay_of_units ((hwrite.touches (ps := memoryParts) (by decide)).keeps .units (by decide))))
    (.refl x0)
  obtain ⟨v, hv, huv⟩ := hstay.unit k v0 hv0
  have hset := unit?_modUnit_of hv (fun w => w.setStream n ((w.stream n).fillDone slot (statusCode m.status != 0))) fun _ h => h
  obtain ⟨y, hy⟩ : ∃ y, (x.modUnit k fun w => w.setStream n ((w.stream n).fillDone slot (statusCode m.status != 0))) = y := ⟨_, rfl⟩
  have hmemy : ∀ sp a, y.rd sp a = x.rd sp a := fun _ _ => hy ▸ rfl
  rw [hy] at hset
  obtain ⟨w, hw, hvw⟩ := (raceOnly_withRace y k fun r => r.release k (engineAgent agent) (keyFill n slot)).tagsStay.unit k _ hset
  have hmemz := (leaves_withRace y k fun r => r.release k (engineAgent agent) (keyFill n slot)).sameMemory
  obtain ⟨z, hz⟩ : ∃ z, (withRace y k fun r => r.release k (engineAgent agent) (keyFill n slot)) = z := ⟨_, rfl⟩
  rw [hz] at hw hmemz
  have hwm : w.cmd? agent = some m := by
    rw [Unit.cmd?, hvw.cmds]
    show (v.cmds.find? _).map _ = _
    rw [huv.cmds, huv0.cmds]
    exact hm
  obtain ⟨u', hu', _, _, _, hsq, hgone⟩ := dropCmd_gone hw hwm
  refine ⟨x, dropCmd z k agent, u', ?_, hu', hgone, ?_, fun sp hsp a => ?_, fun hok => ?_, fun hbad hchecks => ?_⟩
  · show execFillEnd k agent s = _
    rw [execFillEnd, slotEnd, found_eq hu hm]
    dsimp only
    rw [hfill]
    dsimp only
    rw [hdone, if_neg (by decide), hx0, ← hz, ← hy, ← hx]
    rfl
  · rw [Unit.stream, hsq, hvw.sq]
    refine Sparse.get_set_same.trans ?_
    rw [Unit.stream, huv.sq, huv0.sq]
    by_cases hcode : statusCode m.status = 0
    · rw [hcode]; rfl
    · rw [decide_eq_true hcode, bne_iff_ne.2 hcode]; rfl
  · rw [(leaves_dropCmd z k agent).sameMemory sp hsp a, hmemz sp hsp a, hmemy]
  · rw [hok, if_neg (by simp)] at hx
    exact hx ▸ hmem0
  · have hkey : v0.key = u.key := by
      have h1 : v0.key = k := by simpa using List.find?_some hv0
      have h2 : u.key = k := by simpa using List.find?_some hu
      rw [h1, h2]
    have hchecks0 : checks x0 v0 = false := by
      rw [checks, launchOf, hkey, State.launch?_congr hlaunches]
      exact hchecks
    rw [not_refused hv0 hchecks0, if_pos (by simp [hbad])] at hx
    have hrd : ∀ sp a, x.rd sp a = (x0.wrN 3 (slotPlace u n slot) 8 m.status.toNat).rd sp a := by
      rw [← hx]
      exact hwt.rd (by decide) (by decide) (by decide) (by decide)
    refine ⟨?_, fun sp hsp a hout => ?_⟩
    · rw [State.rdN_congr fun b _ => hrd ..]
      exact (rdN_wrN_same x0 { sp := 3, a := slotPlace u n slot, pte := none, va := 0 } _).trans (Nat.mod_eq_of_lt m.status.isLt)
    · rw [hrd, ← hmem0 sp hsp a]
      exact rd_wrN_misses (q := { sp := 3, a := slotPlace u n slot, pte := none, va := 0 }) (n := 8) (show 3 < 4 by decide) hsp hout _

end

/-! ## Ordered contributions and late replies (R198, R291, R370) -/

theorem orderedApply_none (hl : s.launch? fn lid = none) : exec (.orderedReductionApply fn lid n) s = .next s := by
  show execOrderedReductionApply fn lid n s = _
  rw [execOrderedReductionApply, hl]

/-- A launch one of whose streams has passed on to the next index. -/
def Launch.passed (n : Nat) (st : OStream) (l : Launch) : Launch :=
  { l with streams := Sparse.set .start l.streams n { st with next := st.next + 1 } }

theorem orderedApply_passes (hl : s.launch? fn lid = some l) (hh : holder s l n (l.ostream n).next = none) (hpass : passable s l n = true) :
    ∃ t l', exec (.orderedReductionApply fn lid n) s = .next t ∧ t.launch? fn lid = some l' ∧ SameMemory s t
      ∧ l'.ostream n = { l.ostream n with next := (l.ostream n).next + 1 } := by
  refine ⟨s.modLaunch fn lid (Launch.passed n (l.ostream n)), l.passed n (l.ostream n), ?_, ?_, fun _ _ _ => rfl, Sparse.get_set_same⟩
  · show execOrderedReductionApply fn lid n s = _
    unfold execOrderedReductionApply
    rw [hl]
    dsimp only
    rw [hh]
    dsimp only
    rw [hpass, if_pos rfl]
    rfl
  · rw [State.launch?_modLaunch s fn lid (Launch.passed n (l.ostream n)) fun _ => ⟨rfl, rfl⟩, hl]
    rfl

theorem orderedApply_stays (hl : s.launch? fn lid = some l) (hh : holder s l n (l.ostream n).next = none) (hpass : passable s l n = false) :
    exec (.orderedReductionApply fn lid n) s = .next s := by
  show execOrderedReductionApply fn lid n s = _
  unfold execOrderedReductionApply
  rw [hl]
  dsimp only
  rw [hh]
  dsimp only
  rw [hpass, if_neg (by decide)]

/-- A part of a table of fields. -/
theorem fields_part (fs : List (Nat × Nat × Nat)) {size off len : Nat} (rest : List Byte) (h : off + len ≤ size) :
    natOfBytes (((fields size fs ++ rest).drop off).take len) = getBytes (fs.foldl (fun t x => putBytes t x.1 x.2.1 x.2.2) []) off len := by
  have hlist : ((fields size fs ++ rest).drop off).take len = Sparse.getList 0 (fs.foldl (fun t x => putBytes t x.1 x.2.1 x.2.2) []) off len := by
    refine List.ext_getElem (by simp [fields, Sparse.getList]; omega) fun i hi hi' => ?_
    have hlen : i < len := by simpa [Sparse.getList] using hi'
    rw [List.getElem_take, List.getElem_drop, List.getElem_append_left (by simp [fields, Sparse.getList]; omega)]
    simp [fields, Sparse.getList]
  rw [hlist, getBytes]

/-- What a late reply writes of itself. -/
def lateRecord (r : LateReply) : List Byte :=
  fields 16 [(0, 4, 2 ^ 31 + r.gid * 2 ^ 24 + r.d), (4, 4, r.mask.toNat), (8, 1, r.ty.code)] ++ r.vals.flatMap fun v => bytesOfNat 8 v.toNat

theorem lateRecord_fields (r : LateReply) : natOfBytes ((lateRecord r).take 4) = (2 ^ 31 + r.gid * 2 ^ 24 + r.d) % 2 ^ 32
    ∧ natOfBytes (((lateRecord r).drop 4).take 4) = r.mask.toNat ∧ natOfBytes (((lateRecord r).drop 8).take 1) = r.ty.code % 256
    ∧ (lateRecord r).drop 16 = r.vals.flatMap fun v => bytesOfNat 8 v.toNat := by
  refine ⟨?_, ?_, ?_, ?_⟩
  · rw [← List.drop_zero (l := lateRecord r)]
    refine (fields_part _ _ (by decide)).trans ?_
    dsimp only [List.foldl_cons, List.foldl_nil]
    rw [getBytes_putBytes_apart (by decide), getBytes_putBytes_apart (by decide), getBytes_putBytes_same]
  · refine (fields_part _ _ (by decide)).trans ?_
    dsimp only [List.foldl_cons, List.foldl_nil]
    rw [getBytes_putBytes_apart (by decide), getBytes_putBytes_same]
    exact Nat.mod_eq_of_lt r.mask.isLt
  · refine (fields_part _ _ (by decide)).trans ?_
    dsimp only [List.foldl_cons, List.foldl_nil]
    rw [getBytes_putBytes_same]
    rfl
  · exact List.drop_left' (by simp [fields, Sparse.getList])

section
variable {c : Ctx} {w : Vac} {z : LateReply}

theorem lateReply_launch_none (hl : s.launch? k.fn k.lid = none) : exec (.lateReply k z) s = .next s := by
  show execLateReply k z s = _
  rw [execLateReply, hl]

theorem lateReply_nowhere (hl : s.launch? k.fn k.lid = some l) (h : s.ctx? l.ctx = none ∨ (l.resume.find? fun v => v.idx == k.idx) = none) :
    exec (.lateReply k z) s = .next s := by
  show execLateReply k z s = _
  unfold execLateReply
  rw [hl]
  dsimp only
  obtain h | h := h
  · rw [h]
  · rw [h]
    split
    · next heq => cases heq
    · rfl

/-- The place of an entry for late replies in a unit's image. -/
def lateAt (c : Ctx) (l : Launch) (w : Vac) (i : Nat) : Nat := c.arena + w.save + l.imgLate + 272 * i

/-- Whether such an entry is taken. -/
def lateTaken (s : State) (c : Ctx) (l : Launch) (w : Vac) (i : Nat) : Bool := ((sysRead s c (lateAt c l w i) 4).getD 0).testBit 31

variable (hl : s.launch? k.fn k.lid = some l) (hc : s.ctx? l.ctx = some c) (hw : (l.resume.find? fun v => v.idx == k.idx) = some w)
include hl hc hw

theorem lateReply_eq : exec (.lateReply k z) s = match (List.range (4 * l.g)).find? fun i => !lateTaken s c l w i with
    | none => .next s
    | some i => .next (sysWriteBytes s c (lateAt c l w i) (lateRecord z)) := by
  show execLateReply k z s = _
  unfold execLateReply
  rw [hl]
  dsimp only
  rw [hc, hw]
  rfl

theorem lateReply_full (h : ∀ j < 4 * l.g, lateTaken s c l w j = true) : exec (.lateReply k z) s = .next s := by
  have hfull : ((List.range (4 * l.g)).find? fun i => !lateTaken s c l w i) = none := by
    rw [List.find?_eq_none]
    intro i hi
    rw [h i (List.mem_range.1 hi)]
    decide
  rw [lateReply_eq hl hc hw, hfull]

theorem lateReply_first {i : Nat} (hi : i < 4 * l.g) (hfree : lateTaken s c l w i = false) (hbefore : ∀ j < i, lateTaken s c l w j = true) :
    exec (.lateReply k z) s = .next (sysWriteBytes s c (lateAt c l w i) (lateRecord z)) := by
  have hfirst : ((List.range (4 * l.g)).find? fun i => !lateTaken s c l w i) = some i :=
    List.find?_range_eq_some.2 ⟨by rw [hfree]; rfl, List.mem_range.2 hi, fun j hj => by rw [hbefore j hj]; rfl⟩
  rw [lateReply_eq hl hc hw, hfirst]

end

end Sys2Proof.Machine
end
section
open Sys2Proof Sys2Proof.Machine Sys2Proof.Claims

/-- Settles O45: every part of a piece finds its places in each state in the middle of the piece, so the parts are written one after another,
and a part that is written once reads what stood there before; a command's end leaves its unit its tags and streams. -/
theorem copySteps : Obligations.CopySteps := by
  unfold Obligations.CopySteps
  refine ⟨fun s k hu agent => ⟨copyPiece_unit_none hu agent, commandComplete_nothing (by rw [hu]; rfl), fillEnd_nothing (by rw [hu]; rfl)⟩,
    fun s k u agent hu hm => ⟨copyPiece_cmd_none hu hm, commandComplete_nothing (lost_eq hu hm), fillEnd_nothing (lost_eq hu hm)⟩,
    fun s c n => ⟨rfl, rfl⟩, fun s k u agent m hu hm => ?_, fun s fn lid n => ⟨orderedApply_none, fun l hl hh => ⟨orderedApply_passes hl hh,
      orderedApply_stays hl hh⟩⟩, fun s k r => ⟨lateReply_launch_none, fun l hl => ⟨lateReply_nowhere hl, fun c v hc hv => ?_⟩⟩⟩
  · intro cmd turn
    have hkey : u.key = k := by simpa using List.find?_some hu
    refine ⟨fun i hi => pieceTurn_waits hu hm hi, fun l n hl hh hmove hoff => ?_, fun i hi hmove hturn hvac hback => ?_,
      fun i hi hmove hturn hremote hprog hback hsent => ⟨fun p hp hplain hstop => ?_, fun p q hflat hahead _ hlie hspaces => ?_, fun o x p q hins _ => ?_⟩,
      fun t0 htag hlt hdone => commandComplete_ready hu hm htag hlt hdone, commandComplete_idle hu hm, fun n slot hfill hdone => ?_, fillEnd_idle hu hm⟩
    · rw [orderedApply_holder hl hh, hkey, hmove, hoff]
      rfl
    · rw [pieceTurn_moves hu hm hi hmove hturn, enginePiece_flush hvac hback, hkey]
    · subst hp
      obtain ⟨t, u', m', ht, hu', hm', hmem, hprog', hend⟩ := enginePiece_stands hu hm hback hsent hremote hplain hstop
      exact ⟨t, u', m', (pieceTurn_moves hu hm hi hmove hturn).trans ht, hu', hm', hmem, hprog', hend⟩
    · obtain ⟨t, ht, ⟨u', m', hu', hm', hadv, hgoes⟩, honly, hdone⟩ := copyPiece_moves hu hm hback hsent hremote hflat hprog hahead hlie hspaces
      refine ⟨t, (pieceTurn_moves hu hm hi hmove hturn).trans ht, ⟨u', m', hu', hm', hadv.1, hgoes, hadv.2⟩, honly, fun j hj hjh hsolo => ?_⟩
      have hbyte := hdone j hj hjh hsolo
      simpa [State.rdN, BitVec.toNat_inj] using hbyte
    · intro es lo hi' halign hlie htargets
      obtain ⟨t, ht, ⟨u', m', hu', hm', hadv, hgoes⟩, honly, hdone⟩ := credPiece_moves hu hm hback hsent hremote hins halign hlie htargets
      refine ⟨t, (pieceTurn_moves hu hm hi hmove hturn).trans ht, ⟨u', m', hu', hm', hadv.1, hgoes, hadv.2⟩, honly, fun j hj hjh hsolo => ?_⟩
      have hpow : (2 : Nat) ^ (8 * credEs o) = 256 ^ credEs o := by rw [Nat.pow_mul]
      rw [← hpow]
      exact hdone j hj hjh hsolo
    · intro a
      obtain ⟨x, t, u', ht, hu', hgone, hstream, hrd, hok, hbad⟩ := fillEnd_done hu hm hfill hdone
      refine ⟨t, u', ht, hu', hgone, hstream, fun hcode sp hsp b => (hrd sp hsp b).trans (hok hcode sp hsp b), fun hcode hchecks => ?_⟩
      obtain ⟨hnum, hother⟩ := hbad hcode hchecks
      refine ⟨?_, fun sp hsp b hout => (hrd sp hsp b).trans (hother sp hsp b hout)⟩
      exact (State.rdN_congr fun b _ => hrd 3 (by decide) _).trans hnum
  · intro area taken
    refine ⟨fun hfull => lateReply_full hl hc hv hfull, fun i hi hfree hbefore => ?_⟩
    exact ⟨lateRecord r, lateReply_first hl hc hv hi hfree hbefore, lateRecord_fields r⟩

end

section
/-! PROOFS. A window that a table lists twice outlives its withdrawal, which refutes the statement about the operations of a function (R381). -/

namespace Sys2Proof.Counter
open Sys2Proof.Machine Sys2Proof.Claims

/-- A window of 64 KiB at the start of the aperture. -/
def wideWindow (left : Option Nat) : Machine.Window :=
  { off := 0, size := 65536, ctx := 0, va := 0, rd := true, wr := true, left := left }

/-- An open function with room in its ring. Its table lists window 0 twice, and the entry listed first leaves with the next record. -/
def twiceListed : Func := { Func.start with opened := true, ringSz := 65536, windows := [(0, wideWindow (some 1)), (0, wideWindow none)] }

def twiceListedState : State := { State.reset with funcs := [(0, twiceListed)] }

/-- A WINDOW frame that withdraws window 0. -/
def withdrawal : Rpc := { fn := 0, tag := 0, chan := 0, frame := [], vals := [0, 0] }

/-- The windows of function 0 in the state that a step answers. -/
def windowsAfter (o : Host.Outcome State Machine.Fault Machine.Refusal) : Sparse Machine.Window :=
  match o with
  | .next t => (t.func 0).windows
  | _ => []

/-- The withdrawal's own reply takes the leaving entry away, and the other one is granted again. -/
theorem windowsAfter_withdrawal : windowsAfter (exec (.windowRpc withdrawal) twiceListedState) = [(0, wideWindow none)] := by decide

end Sys2Proof.Counter
end

section
open Sys2Proof Sys2Proof.Machine Sys2Proof.Claims Sys2Proof.Counter

/-- Refutes O50: where the table of a function lists a window twice and the first entry is leaving, the reply to a withdrawal of that window
takes the first entry away, and the window is neither gone nor leaving. -/
theorem not_functionRpcs : ¬ Obligations.FunctionRpcs := by
  unfold Obligations.FunctionRpcs
  intro h
  obtain ⟨-, -, hopen⟩ := h twiceListedState withdrawal
  obtain ⟨-, -, -, -, hgone, -⟩ := hopen (by decide)
  obtain ⟨t, ht, hleft⟩ := hgone (by decide) (by decide) (by decide)
  have hwin : (t.func 0).windows = [(0, wideWindow none)] := by
    have h := windowsAfter_withdrawal
    rwa [ht] at h
  have hfn : withdrawal.fn = 0 := rfl
  have hfield : withdrawal.field 0 = 0 := rfl
  simp only [hfn, hfield, hwin] at hleft
  exact absurd hleft (by decide)

end

section
/-! PROOFS. Units that are made to leave their cores (R345), and slices of the device (R347 to R349). -/

namespace Sys2Proof.Machine
open Sys2Proof.Claims

variable {s t : State} {j k : UKey} {u : Unit} {us : List Unit} {i i' : Instr}

/-! ## One unit -/

/-- What VACATE makes of a unit. -/
def Unit.goes (u : Unit) : Unit := { u with vacating := true }

/-- A state in which no unit of a key is to be restored. -/
def State.unrestore (s : State) (k : UKey) : State :=
  { s with agenda := s.agenda.filter fun i => match i with | .unitRestore j _ => j != k | _ => true }

/-- One unit of a list that is vacated. -/
def sendOff (s : State) (u : Unit) : State := if isSuper u.key || u.ending.isSome then s else sendAway s u

theorem vacateAll_eq (s : State) (us : List Unit) : vacateAll s us = us.foldl sendOff s := rfl

theorem sendAway_unrestored (h : u.unrestored = true) : sendAway s u = (s.unrestore u.key).due (.unitVacate u.key) := by
  unfold sendAway
  rw [if_pos h]
  rfl

theorem sendAway_vacating (h : u.unrestored = false) (hv : u.vacating = true) : sendAway s u = s := by
  unfold sendAway
  rw [if_neg (by simp [h]), if_pos hv]

theorem sendAway_staying (h : u.unrestored = false) (hv : u.vacating = false) : sendAway s u = vacate s u.key := by
  unfold sendAway
  rw [if_neg (by simp [h]), if_neg (by simp [hv])]

/-- A unit goes back in its turn, stays as it is, or is to be vacated. -/
theorem sendAway_cases (s : State) (u : Unit) :
    sendAway s u = (s.unrestore u.key).due (.unitVacate u.key) ∨ sendAway s u = s ∨ sendAway s u = vacate s u.key := by
  cases h : u.unrestored with
  | true => exact .inl (sendAway_unrestored h)
  | false => cases hv : u.vacating with
    | true => exact .inr (.inl (sendAway_vacating h hv))
    | false => exact .inr (.inr (sendAway_staying h hv))

theorem sendOff_leaves (hsuper : isSuper u.key = false) (hend : u.ending = none) : sendOff s u = sendAway s u := by
  unfold sendOff
  rw [if_neg (by simp [hsuper, hend])]

theorem sendOff_cases (s : State) (u : Unit) : sendOff s u = s ∨ sendOff s u = sendAway s u := by
  unfold sendOff
  split
  · exact .inl rfl
  · exact .inr rfl

/-! ## What it changes -/

/-- The fields that a unit's leaving may change. -/
def vacateParts : List Part := [.units, .agenda]

theorem touches_vacate (s : State) (k : UKey) : Touches vacateParts s (vacate s k) := .last (.due (by decide) ..) <| touches_modUnit (by decide) ..

theorem touches_sendAway (s : State) (u : Unit) : Touches vacateParts s (sendAway s u) := by
  rcases sendAway_cases s u with h | h | h <;> rw [h]
  · exact .last (.due (by decide) ..) <| .agenda (by decide) ..
  · exact .refl ..
  · exact touches_vacate ..

theorem touches_sendOff (s : State) (u : Unit) : Touches vacateParts s (sendOff s u) := by
  rcases sendOff_cases s u with h | h <;> rw [h]
  · exact .refl ..
  · exact touches_sendAway ..

theorem touches_vacateAll (s : State) (us : List Unit) : Touches vacateParts s (vacateAll s us) := .foldl touches_sendOff us s

theorem vacateAll_sameMemory (s : State) (us : List Unit) : SameMemory s (vacateAll s us) :=
  (touches_vacateAll s us).sameMemory (by decide) (by decide) (by decide) (by decide)

/-! ## Units that leave -/

theorem Unit.goes_goes (u : Unit) : u.goes.goes = u.goes := rfl

theorem unit?_vacate_same (s : State) (k : UKey) : (vacate s k).unit? k = (s.unit? k).map Unit.goes :=
  (State.unit?_congr (Touches.keeps (.due (ps := [.agenda]) (by decide) ..) .units (by decide)) k).trans (State.unit?_modUnit _ fun _ h => h)

theorem unit?_vacate (s : State) (j k : UKey) : (vacate s j).unit? k = s.unit? k ∨ (vacate s j).unit? k = (s.unit? k).map Unit.goes := by
  by_cases h : k = j
  · exact .inr (h ▸ unit?_vacate_same s k)
  · exact .inl ((State.unit?_congr (Touches.keeps (.due (ps := [.agenda]) (by decide) ..) .units (by decide)) k).trans
      (State.unit?_modUnit_ne _ (fun _ h => h) h))

theorem unit?_sendAway (s : State) (u : Unit) (k : UKey) :
    (sendAway s u).unit? k = s.unit? k ∨ (sendAway s u).unit? k = (s.unit? k).map Unit.goes := by
  rcases sendAway_cases s u with h | h | h <;> rw [h]
  · exact .inl (State.unit?_congr (Touches.keeps (.due (ps := [.agenda]) (by decide) ..) .units (by decide)) k)
  · exact .inl rfl
  · exact unit?_vacate ..

theorem unit?_sendOff (s : State) (u : Unit) (k : UKey) : (sendOff s u).unit? k = s.unit? k ∨ (sendOff s u).unit? k = (s.unit? k).map Unit.goes := by
  rcases sendOff_cases s u with h | h <;> rw [h]
  · exact .inl rfl
  · exact unit?_sendAway ..

/-- A unit is on its way from its core. -/
def Vacates (k : UKey) (s : State) : Prop := ∃ u, s.unit? k = some u ∧ u.vacating = true

theorem Vacates.sendOff (h : Vacates k s) (u : Unit) : Vacates k (sendOff s u) := by
  obtain ⟨v, hv, hgoes⟩ := h
  rcases unit?_sendOff s u k with h | h
  · exact ⟨v, h.trans hv, hgoes⟩
  · exact ⟨v.goes, by rw [h, hv]; rfl, rfl⟩

theorem found_sendOff (h : ∃ v, s.unit? k = some v) (u : Unit) : ∃ v, (sendOff s u).unit? k = some v := by
  obtain ⟨v, hv⟩ := h
  rcases unit?_sendOff s u k with h | h
  · exact ⟨v, h.trans hv⟩
  · exact ⟨v.goes, by rw [h, hv]; rfl⟩

/-! ## The steps that are due -/

theorem mem_unrestore (h : i ∈ s.agenda) (hi : ∀ j c, i ≠ .unitRestore j c) (k : UKey) : i ∈ (s.unrestore k).agenda := by
  refine List.mem_filter.2 ⟨h, ?_⟩
  split
  · exact absurd rfl (hi _ _)
  · rfl

theorem mem_sendAway (h : i ∈ s.agenda) (hi : ∀ j c, i ≠ .unitRestore j c) (u : Unit) : i ∈ (sendAway s u).agenda := by
  rcases sendAway_cases s u with hs | hs | hs <;> rw [hs]
  · exact State.mem_due _ (mem_unrestore h hi _)
  · exact h
  · exact State.mem_due _ h

theorem mem_sendOff (h : i ∈ s.agenda) (hi : ∀ j c, i ≠ .unitRestore j c) (u : Unit) : i ∈ (sendOff s u).agenda := by
  rcases sendOff_cases s u with hs | hs <;> rw [hs]
  · exact h
  · exact mem_sendAway h hi u

theorem mem_of_mem_due (h : i ∈ (s.due i').agenda) : i ∈ s.agenda ∨ i = i' := by
  unfold State.due at h
  split at h
  · exact .inl h
  · exact (List.mem_append.1 h).imp_right List.mem_singleton.1

/-- No step is added but the vacating of the unit. -/
theorem mem_of_mem_sendAway (h : i ∈ (sendAway s u).agenda) : i ∈ s.agenda ∨ i = .unitVacate u.key := by
  rcases sendAway_cases s u with hs | hs | hs <;> rw [hs] at h
  · exact (mem_of_mem_due h).imp_left fun h => (List.mem_filter.1 h).1
  · exact .inl h
  · exact mem_of_mem_due (s := s.modUnit u.key Unit.goes) h

theorem sentBack_kept (h : SentBack s k) (u : Unit) : SentBack (sendAway s u) k := by
  refine ⟨mem_sendAway h.1 (by simp) u, fun c hc => ?_⟩
  rcases mem_of_mem_sendAway hc with hc | hc
  · exact h.2 c hc
  · cases hc

theorem sentBack_kept_sendOff (h : SentBack s k) (u : Unit) : SentBack (sendOff s u) k := by
  rcases sendOff_cases s u with hs | hs <;> rw [hs]
  · exact h
  · exact sentBack_kept h u

theorem sentBack_sendAway (s : State) (h : u.unrestored = true) : SentBack (sendAway s u) u.key := by
  rw [sendAway_unrestored h]
  refine ⟨State.mem_due_self .., fun c hc => ?_⟩
  rcases mem_of_mem_due hc with hc | hc
  · simpa using (List.mem_filter.1 hc).2
  · cases hc

/-! ## All of a list -/

/-- A unit of the list that is restored leaves: it is vacating, and its step is due where it was not on its way before. -/
theorem vacateAll_vacates (hmem : u ∈ us) (hu : s.unit? u.key = some u) (hsuper : isSuper u.key = false) (hend : u.ending = none)
    (hrest : u.unrestored = false) :
    ∃ v, (vacateAll s us).unit? u.key = some v ∧ v.vacating = true ∧ (u.vacating = false → .unitVacate u.key ∈ (vacateAll s us).agenda) := by
  rw [vacateAll_eq]
  cases hv : u.vacating with
  | true =>
    obtain ⟨v, hfound, hgoes⟩ := foldl_keeps (I := Vacates u.key) (fun s x _ h => h.sendOff x) (⟨u, hu, hv⟩ : Vacates u.key s) (xs := us)
    exact ⟨v, hfound, hgoes, by simp⟩
  | false =>
    obtain ⟨⟨v, hfound, hgoes⟩, hdue⟩ := foldl_reaches (I := fun s => ∃ v, s.unit? u.key = some v)
      (J := fun s => Vacates u.key s ∧ .unitVacate u.key ∈ s.agenda) (f := sendOff) hmem (fun s x _ h => found_sendOff h x)
      (fun s x _ h => ⟨h.1.sendOff x, mem_sendOff h.2 (by simp) x⟩)
      (fun s ⟨v, hv'⟩ => by
        rw [sendOff_leaves hsuper hend, sendAway_staying hrest hv]
        exact ⟨⟨v.goes, by rw [unit?_vacate_same, hv']; rfl, rfl⟩, State.mem_due_self ..⟩) ⟨u, hu⟩
    exact ⟨v, hfound, hgoes, fun _ => hdue⟩

/-- A unit of the list that was placed and not restored goes back. -/
theorem vacateAll_sentBack (hmem : u ∈ us) (hsuper : isSuper u.key = false) (hend : u.ending = none) (hrest : u.unrestored = true) :
    SentBack (vacateAll s us) u.key := by
  rw [vacateAll_eq]
  exact foldl_reaches (I := fun _ => True) (J := fun s => SentBack s u.key) (f := sendOff) hmem (fun _ _ _ h => h) (fun s x _ h => sentBack_kept_sendOff h x)
    (fun s _ => by
      rw [sendOff_leaves hsuper hend]
      exact sentBack_sendAway s hrest) trivial

/-! ## Slices -/

/-- The table that is in force once a slice ends. -/
def State.tableToCome (s : State) : State := match s.quantaNext with | some q => { s with quanta := q, quantaNext := none } | none => s

/-- The state as a slice begins, before units leave. -/
def State.slicedAt (s : State) (n : Nat) (fn : Option Nat) : State := { s.tableToCome with slice := n, quantaRun := 0, tenant := fn }

theorem tableToCome_quanta (s : State) : s.tableToCome.quanta = s.quantaNext.getD s.quanta ∧ s.tableToCome.quantaNext = none := by
  unfold State.tableToCome
  cases h : s.quantaNext <;> simp [h]

/-- The table to come changes no field but its own. -/
theorem tableToCome_work (s : State) : s.tableToCome.units = s.units ∧ s.tableToCome.funcs = s.funcs ∧ s.tableToCome.launches = s.launches
    ∧ s.tableToCome.slice = s.slice := by
  unfold State.tableToCome
  cases s.quantaNext <;> exact ⟨rfl, rfl, rfl, rfl⟩

theorem slicedAt_sameMemory (s : State) (n : Nat) (fn : Option Nat) : SameMemory s (s.slicedAt n fn) :=
  sameMemory_of_rd fun sp a => by
    unfold State.slicedAt State.tableToCome
    cases s.quantaNext <;> rfl

theorem Quantum.ok_congr (h : t.funcs = s.funcs) : Quantum.ok t = Quantum.ok s := by
  funext q
  unfold Quantum.ok
  rw [State.func_congr h]

theorem hasWork_congr (hunits : t.units = s.units) (hlaunches : t.launches = s.launches) (fn : Nat) : hasWork t fn = hasWork s fn := by
  unfold hasWork
  rw [hunits, hlaunches]

/-- The entry that stands `i` places after the next one of a table takes part, and its function has work. -/
def Takes (s : State) (qs : List Quantum) (i : Nat) (q : Quantum) : Prop :=
  qs[(s.slice + 1 + i) % qs.length]? = some q ∧ Quantum.ok s q = true ∧ hasWork s q.fn = true

theorem findSome?_range {α : Type} {f : Nat → Option α} {n i : Nat} {b : α} (hi : i < n) (h : f i = some b) (hbefore : ∀ m < i, f m = none) :
    (List.range n).findSome? f = some b := by
  induction n with
  | zero => omega
  | succ n ih =>
    rw [List.range_succ, List.findSome?_append]
    by_cases hin : i < n
    · rw [ih hin, Option.some_or]
    · have : i = n := by omega
      rw [List.findSome?_eq_none_iff.2 fun m hm => hbefore m (by have := List.mem_range.1 hm; omega), Option.none_or, ← this]
      simp [h]

/-- What `nextSlice` finds at one place. -/
theorem nextSlice_place (s : State) (qs : List Quantum) (i : Nat) :
    (match qs[(s.slice + 1 + i) % qs.length]? with
      | some q => if q.ok s && hasWork s q.fn then some ((s.slice + 1 + i) % qs.length, q) else none
      | none => none) = none ↔ ∀ q, ¬ Takes s qs i q := by
  unfold Takes
  cases qs[(s.slice + 1 + i) % qs.length]? with
  | none => simp
  | some q => cases h : Quantum.ok s q <;> cases h' : hasWork s q.fn <;> simp [h, h']

theorem nextSlice_first {qs : List Quantum} {q : Quantum} {n : Nat} (hn : n < qs.length) (h : Takes s qs n q)
    (hbefore : ∀ m < n, ∀ x, ¬ Takes s qs m x) : nextSlice s qs s.slice = some ((s.slice + 1 + n) % qs.length, q) := by
  obtain ⟨hget, hok, hwork⟩ := h
  exact findSome?_range hn (by dsimp only; rw [hget]; simp [hok, hwork]) fun m hm => (nextSlice_place s qs m).2 (hbefore m hm)

theorem nextSlice_none {qs : List Quantum} (h : ∀ n q, n < qs.length → ¬ Takes s qs n q) : nextSlice s qs s.slice = none :=
  List.findSome?_eq_none_iff.2 fun n hn => (nextSlice_place s qs n).2 fun q => h n q (List.mem_range.1 hn)

theorem takes_tableToCome (s : State) : Takes s.tableToCome = Takes s := by
  obtain ⟨hunits, hfuncs, hlaunches, hslice⟩ := tableToCome_work s
  funext qs i q
  unfold Takes
  rw [hslice, Quantum.ok_congr hfuncs, hasWork_congr hunits hlaunches]

theorem any_ok_tableToCome (s : State) : s.tableToCome.quanta.any (Quantum.ok s.tableToCome) = (s.quantaNext.getD s.quanta).any (Quantum.ok s) := by
  rw [(tableToCome_quanta s).1, Quantum.ok_congr (tableToCome_work s).2.1]

theorem endSlice_unfold (s : State) : endSlice s =
    if !(s.quantaNext.getD s.quanta).any (Quantum.ok s) then vacateAll (s.slicedAt 0 (some 0)) (s.tableToCome.units.filter fun u => u.key.fn != 0)
    else match nextSlice s.tableToCome s.tableToCome.quanta s.tableToCome.slice with
      | none => vacateAll (s.slicedAt s.tableToCome.slice none) s.tableToCome.units
      | some (n, q) => vacateAll (s.slicedAt n (some q.fn)) (s.tableToCome.units.filter fun u => u.key.fn != q.fn) := by
  rw [← any_ok_tableToCome]
  rfl

/-- Without a valid entry the device goes to function 0. -/
theorem endSlice_default (h : ∀ q ∈ s.quantaNext.getD s.quanta, Quantum.ok s q = false) :
    endSlice s = vacateAll (s.slicedAt 0 (some 0)) (s.units.filter fun u => u.key.fn != 0) := by
  rw [endSlice_unfold, if_pos (by simpa using h), (tableToCome_work s).1]

/-- The first entry that takes part and has work follows. -/
theorem endSlice_next {q : Quantum} {n : Nat} (hn : n < (s.quantaNext.getD s.quanta).length) (h : Takes s (s.quantaNext.getD s.quanta) n q)
    (hbefore : ∀ m < n, ∀ x, ¬ Takes s (s.quantaNext.getD s.quanta) m x) :
    endSlice s = vacateAll (s.slicedAt ((s.slice + 1 + n) % (s.quantaNext.getD s.quanta).length) (some q.fn)) (s.units.filter fun u => u.key.fn != q.fn) := by
  have hany : (s.quantaNext.getD s.quanta).any (Quantum.ok s) = true :=
    List.any_eq_true.2 ⟨q, List.mem_of_getElem? h.1, h.2.1⟩
  have hnext := nextSlice_first (s := s.tableToCome) hn (by rwa [takes_tableToCome]) (by rwa [takes_tableToCome])
  rw [endSlice_unfold, if_neg (by simp [hany]), (tableToCome_quanta s).1, hnext, (tableToCome_work s).1, (tableToCome_work s).2.2.2]

/-- With valid entries and none whose function has work, nobody has the device. -/
theorem endSlice_idle (hany : (s.quantaNext.getD s.quanta).any (Quantum.ok s) = true)
    (h : ∀ n q, n < (s.quantaNext.getD s.quanta).length → ¬ Takes s (s.quantaNext.getD s.quanta) n q) :
    endSlice s = vacateAll (s.slicedAt s.slice none) s.units := by
  have hnext := nextSlice_none (s := s.tableToCome) (by rwa [takes_tableToCome])
  rw [endSlice_unfold, if_neg (by simp [hany]), (tableToCome_quanta s).1, hnext, (tableToCome_work s).1, (tableToCome_work s).2.2.2]

/-- However a slice ends, the table to come is in force, and units leave. -/
theorem endSlice_shape (s : State) : ∃ n fn us, endSlice s = vacateAll (s.slicedAt n fn) us := by
  rw [endSlice_unfold]
  obtain ⟨x, hx⟩ : ∃ x, nextSlice s.tableToCome s.tableToCome.quanta s.tableToCome.slice = x := ⟨_, rfl⟩
  rw [hx]
  split
  · exact ⟨_, _, _, rfl⟩
  · cases x with
    | none => exact ⟨_, _, _, rfl⟩
    | some y => exact ⟨_, _, _, rfl⟩

end Sys2Proof.Machine
end

section
/-! PROOFS. What stands before every operation of the host (R379, R380), and the operations of the physical function on the module (R347, R380,
R386, R388, R401 to R404, R406, R409, R411, R414). -/

namespace Sys2Proof.Machine
open Sys2Proof.Claims

variable {s t : State} {r : Rpc} {op n : Nat} {body : State → State}

/-! ## Before an operation (R379, R380) -/

theorem rpc_closed (h : (s.func r.fn).opened = false) (hop : op ≠ 1) : rpc s r op body = .next (reply s r rPRIV 0) := by
  unfold rpc
  rw [if_pos (by simp [h, hop])]

theorem rpc_private (h : (s.func r.fn).opened = true) (hop : pfOnly op = true) (hfn : r.fn ≠ 0) : rpc s r op body = .next (reply s r rPRIV 0) := by
  unfold rpc
  rw [if_neg (by simp [h]), if_pos (by simp [hop, hfn])]

theorem rpc_open (h : (s.func r.fn).opened = true) (hop : pfOnly op = false ∨ r.fn = 0) : rpc s r op body = .next (body s) := by
  unfold rpc
  rw [if_neg (by simp [h]), if_neg (by rcases hop with hop | hop <;> simp [hop])]

theorem firstBad_foldl (cs : List (Nat × Bool)) (b : Option Nat) (h : ∀ c ∈ cs, c.2 = false) :
    cs.foldl (fun b c => if c.2 && (match b with | some x => c.1 < x | none => true) then some c.1 else b) b = b := by
  induction cs with
  | nil => rfl
  | cons c cs ih =>
    rw [List.foldl_cons, if_neg (by simp [h c (by simp)])]
    exact ih fun x hx => h x (List.mem_cons_of_mem _ hx)

/-- A request whose fields all hold is not refused. -/
theorem firstBad_none {cs : List (Nat × Bool)} (h : ∀ c ∈ cs, c.2 = false) : firstBad cs = none := firstBad_foldl cs none h

/-! ## The quantum table (R347) -/

/-- The table that a QTABLE frame carries. -/
def quantaIn (r : Rpc) : List Quantum := (List.range 32).map fun i => quantumOf (bits (r.field 0) (64 * i + 63) (64 * i))

theorem qtableRpc_later (hopen : (s.func r.fn).opened = true) (hfn : r.fn = 0) (hany : s.quanta.any (Quantum.ok s) = true) (htenant : s.tenant ≠ none) :
    exec (.qtableRpc r) s = .next (reply { s with quantaNext := some (quantaIn r) } r 0 0) := by
  show execQtableRpc r s = _
  unfold execQtableRpc
  have hsome : s.tenant.isSome = true := Option.isSome_iff_ne_none.2 htenant
  rw [rpc_open hopen (.inr hfn)]
  dsimp only
  rw [if_pos (by simp [hany, hsome])]
  rfl

/-- A table that takes force at once: the slice before its first entry ends. -/
theorem qtableRpc_now (hopen : (s.func r.fn).opened = true) (hfn : r.fn = 0) (h : s.quanta.any (Quantum.ok s) = false ∨ s.tenant = none) :
    exec (.qtableRpc r) s = .next (reply (endSlice { s with quantaNext := some (quantaIn r), slice := 31 }) r 0 0) := by
  show execQtableRpc r s = _
  unfold execQtableRpc
  rw [rpc_open hopen (.inr hfn)]
  dsimp only
  rw [if_neg (by rcases h with h | h <;> simp [h])]
  rfl

theorem endSlice_table (s : State) : SameMemory s (endSlice s) ∧ (endSlice s).quanta = s.quantaNext.getD s.quanta ∧ (endSlice s).quantaNext = none := by
  obtain ⟨n, fn, us, h⟩ := endSlice_shape s
  have hunits := touches_vacateAll (s.slicedAt n fn) us
  rw [h]
  exact ⟨sameMemory_of_rd fun sp a => (hunits.rd (by decide) (by decide) (by decide) (by decide) sp a).trans (by
      unfold State.slicedAt State.tableToCome
      cases s.quantaNext <;> rfl),
    (hunits.keeps .quanta (by decide)).trans (tableToCome_quanta s).1, (hunits.keeps .quantaNext (by decide)).trans (tableToCome_quanta s).2⟩

theorem endSlice_default_tenant (h : ∀ q ∈ s.quantaNext.getD s.quanta, Quantum.ok s q = false) : (endSlice s).tenant = some 0 := by
  rw [endSlice_default h]
  exact (touches_vacateAll ..).keeps .tenant (by decide)

/-! ## A reconfiguration (R388, R393) -/

/-- The routing table that a PHASE frame carries. -/
def routesIn (r : Rpc) : Sparse Nat :=
  (List.range (r.field 2)).foldl (fun t i => Sparse.set 0 t i (bits (r.field 1) (32 * i + 31) (32 * i))) []

theorem get_foldl_set (f : Nat → Nat) (m : Sparse Nat) (n i : Nat) :
    Sparse.get 0 ((List.range n).foldl (fun t i => Sparse.set 0 t i (f i)) m) i = if i < n then f i else Sparse.get 0 m i := by
  induction n with
  | zero => rfl
  | succ n ih =>
    rw [List.range_succ, List.foldl_append, List.foldl_cons, List.foldl_nil, Sparse.get_set, ih]
    by_cases h : i = n
    · rw [if_pos h, if_pos (by omega), h]
    · rw [if_neg h]
      exact if_congr (by omega) rfl rfl

/-- The state as requests start again, before any goes out. -/
def State.rephased (s : State) (routes : Sparse Nat) : State :=
  { s with phasing := false, routes := routes, ports := s.ports.map fun p => { p with rate := 112 } }

/-- All ports stand at full rate. -/
def FullRate (s : State) : Prop := ∀ p ∈ s.ports, p.rate = 112

theorem fullRate_modPort (h : FullRate s) (p : Nat) (f : Port → Port) (hf : ∀ q, (f q).rate = q.rate) : FullRate (s.modPort p f) := by
  intro q hq
  obtain ⟨⟨x, i⟩, hx, rfl⟩ := List.mem_map.1 (show q ∈ s.ports.zipIdx.map _ from hq)
  have hrate := h x (List.fst_mem_of_mem_zipIdx hx)
  dsimp only
  split
  · rw [hf, hrate]
  · exact hrate

theorem modChan_rate (rep : Bool) (f : Chan → Chan) (q : Port) : (q.modChan rep f).rate = q.rate := by cases rep <;> rfl

theorem fullRate_freed (h : FullRate s) (port : Option Nat) (rep : Bool) (n : Nat) : FullRate (freed s port rep n) := by
  unfold freed
  split
  · exact h
  · exact fullRate_modPort h _ _ (modChan_rate _ _)

theorem fullRate_cross (h : FullRate s) {p n : Nat} {rep : Bool} (hcross : cross s p rep n = some t) : FullRate t := by
  unfold cross at hcross
  split at hcross
  · exact nomatch hcross
  · cases hcross
    exact fullRate_modPort h _ _ (modChan_rate _ _)

theorem fullRate_leaveAs (h : FullRate s) (msg : FabMsg) (dst : Nat) (port : Option Nat) (rep : Bool) (n : Nat) :
    FullRate (leaveAs s msg dst port rep n) := by
  obtain ⟨f, hf⟩ : ∃ f, cross s = f := ⟨_, rfl⟩
  obtain ⟨o, ho⟩ : ∃ o, s.routePort dst = o := ⟨_, rfl⟩
  have hcross : ∀ p b n t, f p b n = some t → FullRate t := fun _ _ _ _ hx => fullRate_cross h (hf ▸ hx)
  unfold leaveAs
  rw [hf, ho]
  cases o with
  | none => exact h
  | some p =>
    rw [Option.bind_some]
    split
    · next hx => exact fullRate_freed (hcross _ _ _ _ hx) _ _ _
    · exact h

theorem fullRate_leave (h : FullRate s) (msg : FabMsg) : FullRate (leave s msg) := by
  cases msg with
  | req r => exact leave_req s r ▸ fullRate_leaveAs h _ _ _ _ _
  | rep r => exact leave_rep s r ▸ fullRate_leaveAs h _ _ _ _ _

theorem fullRate_of_ports (h : FullRate s) (hports : t.ports = s.ports) : FullRate t := fun p hp => h p (hports ▸ hp)

theorem fullRate_due (h : FullRate s) (i : Instr) : FullRate (s.due i) :=
  fullRate_of_ports h ((Touches.due (ps := [.agenda]) (by decide) s i).keeps .ports (by decide))

theorem fullRate_transmit (h : FullRate s) (q : OutReq) : FullRate (transmit s q) := by
  obtain ⟨f, hf⟩ : ∃ f, cross s = f := ⟨_, rfl⟩
  obtain ⟨o, ho⟩ : ∃ o, s.routePort q.dst = o := ⟨_, rfl⟩
  have hcross : ∀ p b n t, f p b n = some t → FullRate t := fun _ _ _ _ hx => fullRate_cross h (hf ▸ hx)
  have hmark : ∀ t, FullRate t → ∀ b, FullRate (markSent q b t) := fun _ ht _ => ht
  unfold transmit
  rw [hf, ho]
  split
  · exact fullRate_due (hmark s h true) _
  · split
    · exact fullRate_due (hmark s h true) _
    · split
      · exact fullRate_due (hmark s h true) _
      · split
        · exact hmark s h false
        · next hx => exact fullRate_due (hmark _ (hcross _ _ _ _ hx) true) _

/-- What goes out again once a reconfiguration has ended. -/
def restarted (s : State) (routes : Sparse Nat) : State :=
  ((s.rephased routes).outReqs.filter fun q => !q.sent).foldl transmit (leaveAll (s.rephased routes))

theorem fullRate_restarted (s : State) (routes : Sparse Nat) : FullRate (restarted s routes) := by
  have hstart : FullRate (s.rephased routes) := fun p hp => by
    obtain ⟨q, -, rfl⟩ := List.mem_map.1 (show p ∈ s.ports.map _ from hp)
    rfl
  exact foldl_keeps (I := FullRate) (fun s q _ h => fullRate_transmit h q) (foldl_keeps (I := FullRate) (fun s m _ h => fullRate_leave h m) hstart)

/-- The fields that requests and messages may change as they go out. -/
def restartParts : List Part := [.outReqs, .nextId, .ports, .agenda, .transit]

theorem touches_restarted (s : State) (routes : Sparse Nat) : Touches restartParts (s.rephased routes) (restarted s routes) :=
  .last (.foldl (fun s q => (touches_transmit s q).mono (by decide)) ..) <|
    .last (.foldl (fun s m => (touches_leave s m).mono (by decide)) ..) <| .transit (by decide) ..

theorem phaseRpc_ends (hopen : (s.func r.fn).opened = true) (hfn : r.fn = 0) (h : r.field 0 ≠ 0) :
    exec (.phaseRpc r) s = .next (reply (restarted s (routesIn r)) r 0 0) := by
  show execPhaseRpc r s = _
  unfold execPhaseRpc
  rw [rpc_open hopen (.inr hfn)]
  dsimp only
  rw [if_neg h]
  rfl

/-- The state as a reconfiguration begins. -/
def State.phased (s : State) : State := { s with phasing := true }

theorem phaseRpc_begins (hopen : (s.func r.fn).opened = true) (hfn : r.fn = 0) (h : r.field 0 = 0) :
    exec (.phaseRpc r) s = .next (if s.outReqs.all (fun q => q.dst = s.ident) then reply s.phased r 0 0 else s.phased.due (.phaseRpc r)) := by
  show execPhaseRpc r s = _
  unfold execPhaseRpc
  rw [rpc_open hopen (.inr hfn)]
  dsimp only
  rw [if_pos h]
  rfl

/-! ## The pool (R386) -/

/-- The 64 entries of the range table. -/
def State.poolTable (s : State) : List PoolRange := (List.range 64).map fun j => s.pools.getD j PoolRange.none

theorem poolTable_getD (s : State) (hn : n < 64) : s.poolTable.getD n PoolRange.none = s.pools.getD n PoolRange.none := by
  rw [List.getD_eq_getElem?_getD, State.poolTable, List.getElem?_map, List.getElem?_range hn]
  rfl

/-- Entries of a range table that are not another one do not cover its range. -/
theorem poolTable_apart (s : State) (i : Nat) (p : PoolRange)
    (h : ∀ j < 64, j ≠ i → let q := s.pools.getD j PoolRange.none; q.valid = false ∨ q.base + q.size ≤ p.base ∨ p.base + p.size ≤ q.base) :
    (s.poolTable.zipIdx.any fun (q, j) => j != i && q.valid && q.base < p.base + p.size && p.base < q.base + q.size) = false := by
  rw [List.any_eq_false]
  rintro ⟨q, j⟩ hmem
  have hget := List.mem_zipIdx_iff_getElem?.1 hmem
  have hj : j < 64 := by
    have := (List.getElem?_eq_some_iff.1 hget).1
    simpa [State.poolTable] using this
  have hq : q = s.pools.getD j PoolRange.none := by
    rw [← poolTable_getD s hj, List.getD_eq_getElem?_getD, hget, Option.getD_some]
  by_cases hji : j = i
  · simp [hji]
  · rcases hq ▸ h j hj hji with h | h | h
    · simp [h]
    · simp; omega
    · simp; omega

theorem poolrangeRpc_next (hopen : (s.func r.fn).opened = true) (hfn : r.fn = 0) (hi : r.field 0 < 64)
    (hbase : (poolRangeOf (r.field 1)).base % 2 ^ 28 = 0) (hsize : (poolRangeOf (r.field 1)).size % 2 ^ 28 = 0)
    (hhpa : (poolRangeOf (r.field 1)).hpa % 2 ^ 28 = 0) (hzero : bits (r.field 1) 252 224 = 0)
    (hapart : ∀ j < 64, j ≠ r.field 0 → let q := s.pools.getD j PoolRange.none
      q.valid = false ∨ q.base + q.size ≤ (poolRangeOf (r.field 1)).base ∨ (poolRangeOf (r.field 1)).base + (poolRangeOf (r.field 1)).size ≤ q.base) :
    exec (.poolrangeRpc r) s = .next (reply { s with pools := s.poolTable.set (r.field 0) (poolRangeOf (r.field 1)) } r 0 0) := by
  have hlaps := poolTable_apart s (r.field 0) (poolRangeOf (r.field 1)) hapart
  show execPoolrangeRpc r s = _
  unfold execPoolrangeRpc
  rw [rpc_open hopen (.inr hfn)]
  dsimp only
  obtain ⟨laps, hlap⟩ : ∃ b, (((List.range 64).map fun j => s.pools.getD j PoolRange.none).zipIdx.any fun (q, j) =>
    j != r.field 0 && q.valid && q.base < (poolRangeOf (r.field 1)).base + (poolRangeOf (r.field 1)).size
      && (poolRangeOf (r.field 1)).base < q.base + q.size) = b := ⟨_, rfl⟩
  have hfalse : laps = false := hlap.symm.trans hlaps
  rw [hlap, hfalse, firstBad_none (by
    intro c hc
    simp only [List.mem_cons, List.not_mem_nil, or_false] at hc
    rcases hc with rfl | rfl
    · simpa using hi
    · simpa [hzero] using And.intro (And.intro hbase hsize) hhpa)]
  rfl

/-! ## Fences of cores (R404) -/

/-- The state with the fence of a core set or cleared. -/
def State.fenced (s : State) (d c : Nat) (set : Bool) : State :=
  s.modDie d fun x => { x with fence := if set then x.fence ||| BitVec.ofNat 64 (2 ^ c) else x.fence &&& ~~~BitVec.ofNat 64 (2 ^ c) }

theorem ofNat_two_pow_getLsbD {c : Nat} (hc : c < 64) (k : Nat) : (BitVec.ofNat 64 (2 ^ c)).getLsbD k = (k == c) := by
  rw [BitVec.getLsbD_ofNat, Nat.testBit_two_pow]
  by_cases h : c = k
  · simp [h]; omega
  · simp [h, Ne.symm h]

theorem fenced_fence (s : State) (d : Nat) {c : Nat} (hc : c < 64) (set : Bool) (k : Nat) :
    ((s.fenced d c set).die d).fence.getLsbD k = if set then ((s.die d).fence.getLsbD k || k == c) else ((s.die d).fence.getLsbD k && k != c) := by
  rw [State.fenced, State.die_modDie]
  cases set with
  | true =>
    show ((s.die d).fence ||| BitVec.ofNat 64 (2 ^ c)).getLsbD k = _
    rw [BitVec.getLsbD_or, ofNat_two_pow_getLsbD hc]
    rfl
  | false =>
    show ((s.die d).fence &&& ~~~BitVec.ofNat 64 (2 ^ c)).getLsbD k = _
    rw [BitVec.getLsbD_and, BitVec.getLsbD_not, ofNat_two_pow_getLsbD hc]
    by_cases hk : k < 64
    · simp [hk, bne]
    · simp [BitVec.getLsbD_of_ge _ _ (Nat.le_of_not_lt hk)]

theorem coresetRpc_next (hopen : (s.func r.fn).opened = true) (hfn : r.fn = 0) (hdie : r.field 0 < 8) (hcore : r.field 1 < 64) (hop : r.field 2 < 2) :
    let f := s.fenced (r.field 0) (r.field 1) (r.field 2 = 0)
    let t := if r.field 2 = 0 then vacateAll f (userUnits f (64 * r.field 0 + r.field 1)) else f
    exec (.coresetRpc r) s = .next (replyVals t r [(t.die (r.field 0)).fence.toNat]) := by
  show execCoresetRpc r s = _
  unfold execCoresetRpc
  rw [rpc_open hopen (.inr hfn)]
  dsimp only
  rw [firstBad_none (by
    intro c hc
    simp only [List.mem_cons, List.not_mem_nil, or_false] at hc
    rcases hc with rfl | rfl | rfl
    · simpa
    · simpa
    · simp
      omega)]
  simp only [State.fenced, decide_eq_true_eq]

/-! ## Firmware (R409 to R411) -/

theorem State.rd_wrBytes_outside (s : State) (sp a : Nat) (bs : List Byte) {c : Nat} (hc : c < a) : (s.wrBytes sp a bs).rd sp c = s.rd sp c := by
  induction bs generalizing s a with
  | nil => rfl
  | cons b bs ih =>
    rw [State.wrBytes, ih (s.wr sp a b) (a + 1) (by omega), State.rd_wr, if_neg (by omega)]

theorem State.rdBytes_wrBytes (s : State) (sp a : Nat) (bs : List Byte) : (s.wrBytes sp a bs).rdBytes sp a bs.length = bs := by
  induction bs generalizing s a with
  | nil => rfl
  | cons b bs ih =>
    have htail := ih (s.wr sp a b) (a + 1)
    have hhead : ((s.wr sp a b).wrBytes sp (a + 1) bs).rd sp a = b := by
      rw [State.rd_wrBytes_outside _ _ _ _ (Nat.lt_succ_self a), State.rd_wr, if_pos ⟨rfl, rfl⟩]
    rw [State.rdBytes] at htail ⊢
    rw [List.length_cons, List.range_succ_eq_map, List.map_cons, List.map_map]
    refine congrArg₂ List.cons hhead (Eq.trans (List.map_congr_left fun i _ => ?_) htail)
    show _ = ((s.wr sp a b).wrBytes sp (a + 1) bs).rd sp (a + 1 + i)
    rw [Function.comp, Nat.succ_eq_add_one, Nat.add_comm i 1, ← Nat.add_assoc]
    rfl

/-- A switch of firmware begins. -/
def State.switched (s : State) (r : Rpc) : State := publish { s with switching := some (r.fn, r.tag, r.chan), loadNew := true } (1 - s.active)

theorem switched_facts (s : State) (r : Rpc) : let list := capBytes 0 (capEntries s (1 - s.active))
    (s.switched r).switching = some (r.fn, r.tag, r.chan) ∧ (s.switched r).active = s.active ∧ (s.switched r).capGen = s.capGen + 1
      ∧ (s.switched r).rdBytes 0 (capabilityAddr (s.capGen + 1)) list.length = list ∧ capabilityAddr (s.capGen + 1) % 16 = 0 := by
  have hpublish := memOnly_wrBytes { s with switching := some (r.fn, r.tag, r.chan), loadNew := true, capGen := s.capGen + 1 } 0
    (capabilityAddr (s.capGen + 1)) (capBytes 0 (capEntries s (1 - s.active)))
  have htouch := hpublish.touches (ps := memoryParts) (by decide)
  refine ⟨htouch.keeps .switching (by decide), htouch.keeps .active (by decide), htouch.keeps .capGen (by decide), State.rdBytes_wrBytes .., ?_⟩
  rw [capabilityAddr]
  omega

theorem fwswitchRpc_next (hopen : (s.func r.fn).opened = true) (hfn : r.fn = 0) (h : s.switching = none) :
    exec (.fwswitchRpc r) s = .next (if (s.bank (1 - s.active)).valid s.rollback then s.switched r else reply s r 1 0) := by
  show execFwswitchRpc r s = _
  unfold execFwswitchRpc
  rw [rpc_open hopen (.inr hfn), if_neg (by simp [h])]
  cases (s.bank (1 - s.active)).valid s.rollback <;> rfl

theorem fwloadRpc_next (hopen : (s.func r.fn).opened = true) (hfn : r.fn = 0) (h : s.switching = none) (hn : r.field 1 ≤ 4032) :
    let ps := (if s.loadNew then [] else s.loading) ++ [(r.field 0, bytesOfNat (r.field 1) (r.field 2))]
    exec (.fwloadRpc r) s = .next (replyVals
      { s with loading := ps, loadNew := false, banks := s.banks.set (1 - s.active) { image := assemble ps } } r [bytesHeld ps]) := by
  show execFwloadRpc r s = _
  unfold execFwloadRpc
  rw [rpc_open hopen (.inr hfn)]
  dsimp only
  rw [if_neg (by simp [h]), if_neg (by omega)]

theorem fwcommitRpc_next (hopen : (s.func r.fn).opened = true) (hfn : r.fn = 0) : exec (.fwcommitRpc r) s = .next
    (if (s.bank s.active).svn < s.rollback then reply s r 1 0 else replyVals { s with rollback := (s.bank s.active).svn } r [(s.bank s.active).svn]) := by
  show execFwcommitRpc r s = _
  unfold execFwcommitRpc
  rw [rpc_open hopen (.inr hfn)]
  rfl

theorem padTo_length (n : Nat) (bs : List Byte) : (padTo n bs).length = n := by
  rw [padTo, List.length_take, List.length_append, List.length_replicate]
  omega

/-! ## Telemetry and power (R403, R406) -/

theorem telemetryRpc_next (hopen : (s.func r.fn).opened = true) : exec (.telemetryRpc r) s = .next
    (if 8 < r.field 0 then reply s r 1 (r.offset 0) else reply s r 0 0 (if r.field 0 = 0 then modulePage s else diePage s (r.field 0 - 1))) := by
  show execTelemetryRpc r s = _
  unfold execTelemetryRpc
  rw [rpc_open hopen (.inl rfl)]
  rfl

theorem powerRpc_next (hopen : (s.func r.fn).opened = true) (hfn : r.fn = 0) : exec (.powerRpc r) s = .next
    (if r.field 0 < 800 || 3200 < r.field 0 then reply s r 1 (r.offset 0) else replyVals { s with limit := r.field 0 } r [r.field 0]) := by
  show execPowerRpc r s = _
  unfold execPowerRpc
  rw [rpc_open hopen (.inr hfn)]
  rfl

theorem quoteRpc_next (hopen : (s.func r.fn).opened = true) :
    let q := quoteBody s (bytesOfNat 32 (r.field 0))
    exec (.quoteRpc r) s = .next (reply s r 0 0 (q ++ sm2Sign q ++ Config.certChain.flatMap fun c => bytesOfNat 4 c.length ++ c)) := by
  show execQuoteRpc r s = _
  unfold execQuoteRpc
  rw [rpc_open hopen (.inl rfl)]
  rfl

end Sys2Proof.Machine
end

section
open Sys2Proof Sys2Proof.Machine Sys2Proof.Claims

/-- Settles O52: each operation by its own equation; what leaves a core or goes out again by the folds' lemmas. -/
theorem moduleRpcs : Obligations.ModuleRpcs := by
  unfold Obligations.ModuleRpcs
  intro s r hopen a
  refine ⟨fun hfn i hi => ?_, fun h0 => ?_, fun hlo hhi => ?_, fun hhi => ?_, ⟨quoteRpc_next hopen, padTo_length _ _⟩, fun hfn =>
    ⟨⟨fun hany htenant => qtableRpc_later hopen hfn hany htenant, fun h => ?_⟩, fun hi hbase hsize hhpa hzero hapart => ?_, fun h0 hsent => ?_,
      fun h0 hwaits => ?_, fun h0 => ?_, fun hlo hhi => ?_, fun h => ?_, fun hdie hcore => ⟨fun hop => ?_, fun hop => ?_⟩,
      fun hswitch hn => fwloadRpc_next hopen hfn hswitch hn, fun hswitch => ⟨fwswitchRpc_next hopen hfn hswitch, switched_facts s r⟩,
      fun h => ?_, fun h => ?_⟩⟩
  · simp only [List.mem_cons, List.not_mem_nil, or_false] at hi
    rcases hi with rfl | rfl | rfl | rfl | rfl | rfl | rfl | rfl
    · exact (show execQtableRpc r s = rpc s r 0x08 _ from rfl).trans (rpc_private hopen rfl hfn)
    · exact (show execPoolrangeRpc r s = rpc s r 0x0F _ from rfl).trans (rpc_private hopen rfl hfn)
    · exact (show execPhaseRpc r s = rpc s r 0x10 _ from rfl).trans (rpc_private hopen rfl hfn)
    · exact (show execPowerRpc r s = rpc s r 0x13 _ from rfl).trans (rpc_private hopen rfl hfn)
    · exact (show execFwloadRpc r s = rpc s r 0x14 _ from rfl).trans (rpc_private hopen rfl hfn)
    · exact (show execFwswitchRpc r s = rpc s r 0x15 _ from rfl).trans (rpc_private hopen rfl hfn)
    · exact (show execFwcommitRpc r s = rpc s r 0x16 _ from rfl).trans (rpc_private hopen rfl hfn)
    · exact (show execCoresetRpc r s = rpc s r 0x18 _ from rfl).trans (rpc_private hopen rfl hfn)
  · rw [telemetryRpc_next hopen, if_neg (by rw [show r.field 0 = 0 from h0]; decide), if_pos h0]
  · rw [telemetryRpc_next hopen, if_neg (Nat.not_lt.2 hhi), if_neg (Nat.one_le_iff_ne_zero.1 hlo)]
  · rw [telemetryRpc_next hopen, if_pos hhi]
  · obtain ⟨hmem, hquanta, hnext⟩ := endSlice_table { s with quantaNext := some (quantaIn r), slice := 31 }
    exact ⟨_, qtableRpc_now hopen hfn h, hmem, hquanta, hnext, fun hnone => endSlice_default_tenant hnone⟩
  · refine ⟨_, poolrangeRpc_next hopen hfn hi hbase hsize hhpa hzero hapart, sameMemory_of_rd fun _ _ => rfl, ?_, fun j hj hne => ?_⟩
    · show (s.poolTable.set (r.field 0) _).getD (r.field 0) _ = _
      rw [List.getD_eq_getElem?_getD, List.getElem?_set_self (by simpa [State.poolTable] using hi), Option.getD_some]
    · show (s.poolTable.set (r.field 0) _).getD j _ = _
      rw [List.getD_eq_getElem?_getD, List.getElem?_set_ne (Ne.symm hne), ← List.getD_eq_getElem?_getD]
      exact poolTable_getD s hj
  · rw [phaseRpc_begins hopen hfn h0, if_pos (by simpa using hsent)]
    rfl
  · rw [phaseRpc_begins hopen hfn h0, if_neg (by simpa using hwaits)]
    rfl
  · have htouch := touches_restarted s (routesIn r)
    refine ⟨_, phaseRpc_ends hopen hfn h0, htouch.sameMemory (by decide) (by decide) (by decide) (by decide), htouch.keeps .phasing (by decide),
      fun i hi => ?_, fullRate_restarted s _⟩
    rw [show (restarted s (routesIn r)).routes = routesIn r from htouch.keeps .routes (by decide), routesIn,
      get_foldl_set fun i => bits (r.field 1) (32 * i + 31) (32 * i), if_pos hi]
  · rw [powerRpc_next hopen hfn, if_neg (by
      have hlo : 800 ≤ r.field 0 := hlo
      have hhi : r.field 0 ≤ 3200 := hhi
      simp only [Bool.or_eq_true, decide_eq_true_eq]
      omega)]
  · rw [powerRpc_next hopen hfn, if_pos (by simpa using h)]
  · have htouch := touches_vacateAll (s.fenced (r.field 0) (r.field 1) true) (userUnits (s.fenced (r.field 0) (r.field 1) true) (64 * r.field 0 + r.field 1))
    have hexec := coresetRpc_next hopen hfn hdie hcore (by rw [show r.field 2 = 0 from hop]; decide)
    simp only [show r.field 2 = 0 from hop, decide_true, if_true] at hexec
    refine ⟨_, hexec, htouch.sameMemory (by decide) (by decide) (by decide) (by decide), fun k => ?_, fun u hu hunit hend => ⟨fun hrest => ?_, fun hrest => ?_⟩⟩
    · rw [State.die_congr (htouch.keeps .dies (by decide))]
      exact (fenced_fence s _ hcore true k).trans (if_pos rfl)
    · have hsuper : isSuper u.key = false := by simpa using (List.mem_filter.1 hu).2 |> fun h => (Bool.and_eq_true_iff.1 h).2
      obtain ⟨v, hv, hgoes, -⟩ := vacateAll_vacates (s := s.fenced (r.field 0) (r.field 1) true) hu hunit hsuper hend hrest
      exact ⟨v, hv, hgoes⟩
    · have hsuper : isSuper u.key = false := by simpa using (List.mem_filter.1 hu).2 |> fun h => (Bool.and_eq_true_iff.1 h).2
      exact vacateAll_sentBack hu hsuper hend hrest
  · have hexec := coresetRpc_next hopen hfn hdie hcore (by rw [show r.field 2 = 1 from hop]; decide)
    simp only [show r.field 2 = 1 from hop, one_ne_zero, decide_false, if_false] at hexec
    refine ⟨_, hexec, sameMemory_of_rd fun _ _ => rfl, rfl, fun k => ?_⟩
    rw [fenced_fence s _ hcore]
    rfl
  · rw [fwcommitRpc_next hopen hfn, if_neg (Nat.not_lt.2 h)]
  · rw [fwcommitRpc_next hopen hfn, if_pos h]

end

section
/-! PROOFS. What the end of a launch makes of its units, and what it leaves of every other: whether they are halted, leave, wait for their
restoring, or end (R338, R345). -/

namespace Sys2Proof.Machine
open Sys2Proof.Claims

variable {s t r : State} {j k : UKey} {u v : Unit} {l : Launch}

/-- Whether a unit is halted, leaves its core, waits for its restoring, or ends. -/
def Unit.fate (u : Unit) : Bool × Bool × Bool × Option DWord := (u.halted, u.vacating, u.unrestored, u.ending)

/-- From a state to another in which each unit, but those of the keys that `P` excepts, has the fate it had, each core its bank of firmware and
each die its count of machine checks. -/
structure FatesStay (P : UKey → Prop) (s t : State) : Prop where
  same : ∀ k, ¬ P k → (t.unit? k).map Unit.fate = (s.unit? k).map Unit.fate
  bank : ∀ n, (t.core n).bank = (s.core n).bank
  mchecks : ∀ n, (t.die n).mchecks = (s.die n).mchecks

variable {P : UKey → Prop}

theorem fatesStay_of_fields (hunits : t.units = s.units) (hcores : t.cores = s.cores) (hdies : t.dies = s.dies) : FatesStay P s t where
  same k _ := by rw [State.unit?_congr hunits]
  bank n := by rw [State.core_congr hcores]
  mchecks n := by rw [State.die_congr hdies]

theorem FatesStay.refl (s : State) : FatesStay P s s := fatesStay_of_fields rfl rfl rfl

/-- The last change first, the ones before it after it. -/
theorem FatesStay.last (h' : FatesStay P t r) (h : FatesStay P s t) : FatesStay P s r where
  same k hk := (h'.same k hk).trans (h.same k hk)
  bank n := (h'.bank n).trans (h.bank n)
  mchecks n := (h'.mchecks n).trans (h.mchecks n)

theorem FatesStay.foldl {α : Type} {f : State → α → State} (hf : ∀ s x, FatesStay P s (f s x)) (xs : List α) (s : State) :
    FatesStay P s (xs.foldl f s) := by
  induction xs generalizing s with
  | nil => exact .refl s
  | cons x xs ih => exact (ih _).last (hf s x)

theorem FatesStay.ite {c : Prop} [Decidable c] (h : FatesStay P s t) (h' : FatesStay P s r) : FatesStay P s (if c then t else r) := by
  split
  · exact h
  · exact h'

theorem Touches.fatesStay {ps : List Part} (h : Touches ps s t) (hunits : Part.units ∉ ps) (hcores : Part.cores ∉ ps) (hdies : Part.dies ∉ ps) :
    FatesStay P s t := fatesStay_of_fields (h.keeps .units hunits) (h.keeps .cores hcores) (h.keeps .dies hdies)

theorem MemOnly.fatesStay (h : MemOnly s t) : FatesStay P s t :=
  (h.touches (ps := memoryParts) (by decide)).fatesStay (by decide) (by decide) (by decide)

theorem FatesStay.found (h : FatesStay P s t) (hk : ¬ P k) (hu : s.unit? k = some u) : ∃ v, t.unit? k = some v ∧ v.fate = u.fate := by
  have hsame := h.same k hk
  rw [hu] at hsame
  exact Option.map_eq_some_iff.1 hsame

theorem FatesStay.none (h : FatesStay P s t) (hk : ¬ P k) (hu : s.unit? k = none) : t.unit? k = none := by
  have hsame := h.same k hk
  rw [hu] at hsame
  exact Option.map_eq_none_iff.1 hsame

theorem fatesStay_units (s : State) (us : List Unit) (h : ∀ k, ¬ P k → (us.find? fun u => u.key == k).map Unit.fate = (s.unit? k).map Unit.fate) :
    FatesStay P s { s with units := us } := ⟨h, fun _ => rfl, fun _ => rfl⟩

theorem fatesStay_modUnit (s : State) (j : UKey) (f : Unit → Unit) (hf : ∀ u, (f u).key = u.key ∧ (f u).fate = u.fate) : FatesStay P s (s.modUnit j f) :=
  fatesStay_units s _ fun k _ => by
    show ((s.modUnit j f).unit? k).map _ = _
    by_cases hk : k = j
    · rw [hk, State.unit?_modUnit f fun u h => (hf u).1.trans h, Option.map_map]
      exact congrArg (Option.map · (s.unit? j)) (funext fun u => (hf u).2)
    · rw [State.unit?_modUnit_ne f (fun u h => (hf u).1.trans h) hk]

/-- A change of the units of one key leaves the others. -/
theorem fatesStay_modUnit_else (s : State) (j : UKey) (f : Unit → Unit) (hf : ∀ u, (f u).key = u.key) : FatesStay (· = j) s (s.modUnit j f) :=
  fatesStay_units s _ fun _ hk => congrArg (Option.map _) (State.unit?_modUnit_ne f (fun u h => (hf u).trans h) hk)

/-! ## The helpers of a unit's end -/

theorem fatesStay_setCore (s : State) (n : Nat) (c : Core) (hc : c.bank = (s.core n).bank) : FatesStay P s (s.setCore n c) where
  same _ _ := rfl
  bank m := by
    by_cases hm : m = n
    · rw [hm, State.core_setCore, hc]
    · rw [State.core, State.setCore, Sparse.get_set_ne hm, State.core]
  mchecks _ := rfl

theorem fatesStay_modCore (s : State) (n : Nat) (f : Core → Core) (hf : ∀ c, (f c).bank = c.bank) : FatesStay P s (s.modCore n f) :=
  fatesStay_setCore s n _ (hf _)

theorem fatesStay_modDie (s : State) (n : Nat) (f : Die → Die) (hf : ∀ d, (f d).mchecks = d.mchecks) : FatesStay P s (s.modDie n f) where
  same _ _ := rfl
  bank _ := rfl
  mchecks m := die_modDie_keeps s n m f Die.mchecks hf

theorem fatesStay_spend (s : State) (die e est : Nat) : FatesStay P s (spend s die e est) :=
  FatesStay.last (fatesStay_modDie { s with energy := s.energy + BitVec.ofNat 64 e } die _ fun _ => rfl) (fatesStay_of_fields rfl rfl rfl)

theorem fatesStay_leaveEngine (s : State) (j : UKey) (a : Nat) : FatesStay P s (leaveEngine s j a) := fatesStay_of_fields rfl rfl rfl

theorem fatesStay_copyPin (s : State) (ctx slot : Nat) (up : Bool) : FatesStay P s (copyPin s ctx slot up) := fatesStay_of_fields rfl rfl rfl

theorem fatesStay_orphan (s : State) (p : OutReq → Bool) : FatesStay P s (orphan s p) := fatesStay_of_fields rfl rfl rfl

theorem fatesStay_dropGroupWaits (s : State) (ctx : Nat) (j : UKey) (gid : Nat) : FatesStay P s (dropGroupWaits s ctx j gid) := fatesStay_of_fields rfl rfl rfl

theorem fatesStay_due (s : State) (i : Instr) : FatesStay P s (s.due i) := (Touches.due (ps := [.agenda]) (by decide) s i).fatesStay (by decide) (by decide) (by decide)

theorem fatesStay_modGrp (s : State) (j : UKey) (gid : Nat) (f : Group → Group) : FatesStay P s (s.modGrp j gid f) :=
  fatesStay_modUnit _ _ _ fun _ => ⟨rfl, rfl⟩

theorem fatesStay_modCmd (s : State) (j : UKey) (a : Nat) (f : Cmd → Cmd) : FatesStay P s (s.modCmd j a f) :=
  fatesStay_modUnit _ _ _ fun _ => ⟨rfl, rfl⟩

theorem fatesStay_cmdEnd (s : State) (j : UKey) (a : Nat) (st : DWord) : FatesStay P s (cmdEnd s j a st) := fatesStay_modCmd ..

theorem fatesStay_wakeUnit (s : State) (j : UKey) (p : Wait → Bool) : FatesStay P s (wakeUnit s j p) := fatesStay_modUnit _ _ _ fun _ => ⟨rfl, rfl⟩

theorem fatesStay_addEnergy (s : State) (j : UKey) (n : Nat) : FatesStay P s (addEnergy s j n) := fatesStay_modUnit _ _ _ fun _ => ⟨rfl, rfl⟩

theorem fatesStay_settlePermit (s : State) (j : UKey) (core : Nat) (m : Cmd) : FatesStay P s (settlePermit s j core m) :=
  .ite (.last (fatesStay_spend ..) (fatesStay_addEnergy ..)) (.refl s)

theorem fatesStay_chargePass (s : State) (core : Nat) (p : Pass) : FatesStay P s (chargePass s core p) :=
  .ite (.refl s) <| .last (fatesStay_spend ..) <| .foldl (fun s (x : UKey × Nat) => fatesStay_addEnergy s x.1 _) _ _

theorem fatesStay_passEnd (s : State) (core : Nat) : FatesStay P s (passEnd s core) := by
  unfold passEnd
  refine .last (fatesStay_modDie _ _ _ fun _ => rfl) <| .last (fatesStay_modCore _ _ _ fun _ => rfl) ?_
  split
  · exact fatesStay_chargePass ..
  · exact .refl s

theorem fatesStay_leavePass (s : State) (core : Nat) (j : UKey) (a : Nat) : FatesStay P s (leavePass s core j a) := by
  unfold leavePass
  split
  · exact .refl s
  · exact .ite (.refl s) <| .ite (.last (fatesStay_passEnd ..) (fatesStay_modCore _ _ _ fun _ => rfl)) (fatesStay_modCore _ _ _ fun _ => rfl)

theorem fatesStay_withoutCmds (s : State) (j : UKey) (a : Nat) : FatesStay P s (s.modUnit j (Unit.withoutCmds a)) :=
  fatesStay_modUnit _ _ _ fun _ => ⟨rfl, rfl⟩

theorem fatesStay_dropCmd (s : State) (j : UKey) (a : Nat) : FatesStay P s (dropCmd s j a) := by
  unfold dropCmd
  split
  · exact .refl s
  · next u _ =>
    split
    · exact .refl s
    · exact .last (fatesStay_wakeUnit ..) <| .last (fatesStay_modDie _ _ _ fun _ => rfl) <| .last (fatesStay_modCore _ _ _ fun _ => rfl) <| .last (fatesStay_leaveEngine ..) <|
        .last (fatesStay_leavePass ..) <| .last (fatesStay_withoutCmds ..) <| .foldl (fun s p => fatesStay_copyPin s u.ctx p false) _ _

theorem fatesStay_stopSibling (s : State) (j : UKey) (gid src : Nat) : FatesStay P s (stopSibling s j gid src) := by
  rcases stopSibling_cases s j gid src with h | ⟨_, _, h⟩
  · rw [h]
    exact .refl s
  · exact h.fatesStay.last (fatesStay_modGrp ..)

theorem fatesStay_haltSibling (s : State) (j : UKey) (src : Nat) (g : Group) : FatesStay P s (haltSibling s j src g) :=
  .ite (.refl s) <| .ite (.last (fatesStay_stopSibling ..) (fatesStay_modGrp ..)) (.last (fatesStay_due ..) (fatesStay_modGrp ..))

theorem fatesStay_cancelCmds (s : State) (j : UKey) : FatesStay P s (cancelCmds s j) := by
  unfold cancelCmds
  split
  · exact .refl s
  · exact .last (.foldl (fun s m => .ite (.last (fatesStay_dropCmd ..) (.ite (fatesStay_settlePermit ..) (.refl s))) <| .ite (.refl s) <|
      .last (fatesStay_cmdEnd ..) (fatesStay_modCmd ..)) _ _) (fatesStay_orphan ..)

/-! ## Units of a launch that ends (R338) -/

theorem fatesStay_haltGroups (s : State) (j : UKey) (gs : List Group) : FatesStay P s (gs.foldl (fun s g =>
    match g.run with
    | .running => haltSibling s j 0 g
    | .skid _ _ => s.due (.sibhalt j g.gid)
    | .stopped => stopSibling s j g.gid 0) s) :=
  .foldl (fun s g => by
    split
    · exact fatesStay_haltSibling ..
    · exact fatesStay_due ..
    · exact fatesStay_stopSibling ..) _ _

/-- What a doomed unit has come to beside its fate is another matter. -/
theorem doomUnit_fates (hu : s.unit? j = some u) (x : Trap) : FatesStay P (s.modUnit j (Unit.doomed x)) (doomUnit s j x) := by
  unfold doomUnit
  rw [hu]
  exact .last (fatesStay_haltGroups ..) (fatesStay_cancelCmds ..)

theorem doomUnit_gone (hu : s.unit? j = none) (x : Trap) : doomUnit s j x = s := by
  unfold doomUnit
  rw [hu]

/-- A unit is halted, and ends with a cause. -/
def Doomed (k : UKey) (cause : DWord) (s : State) : Prop := ∃ u, s.unit? k = some u ∧ u.halted = true ∧ u.ending = some cause

theorem FatesStay.doomed {cause : DWord} (h : FatesStay P s t) (hk : ¬ P k) (hs : Doomed k cause s) : Doomed k cause t := by
  obtain ⟨u, hu, hhalt, hend⟩ := hs
  obtain ⟨v, hv, hfate⟩ := h.found hk hu
  simp only [Unit.fate, Prod.mk.injEq] at hfate
  exact ⟨v, hv, hfate.1.trans hhalt, hfate.2.2.2.trans hend⟩

theorem doomed_modUnit (h : ∃ u, s.unit? k = some u) (x : Trap) : Doomed k (causeWord x) (s.modUnit k (Unit.doomed x)) := by
  obtain ⟨u, hu⟩ := h
  exact ⟨u.doomed x, by rw [State.unit?_modUnit (Unit.doomed x) fun _ h => h, hu]; rfl, rfl, rfl⟩

theorem doomed_doomUnit_self (h : ∃ u, s.unit? k = some u) (x : Trap) : Doomed k (causeWord x) (doomUnit s k x) := by
  obtain ⟨u, hu⟩ := h
  exact (doomUnit_fates (P := fun _ => False) hu x).doomed (fun h => h) (doomed_modUnit ⟨u, hu⟩ x)

theorem fatesStay_doomUnit_else (s : State) (j : UKey) (x : Trap) : FatesStay (· = j) s (doomUnit s j x) := by
  cases hu : s.unit? j with
  | none =>
    rw [doomUnit_gone hu]
    exact .refl s
  | some u => exact .last (doomUnit_fates hu x) (fatesStay_modUnit_else s j _ fun _ => rfl)

theorem found_doomUnit (h : ∃ u, s.unit? k = some u) (j : UKey) (x : Trap) : ∃ u, (doomUnit s j x).unit? k = some u := by
  by_cases hk : k = j
  · subst hk
    obtain ⟨u, hu, -⟩ := doomed_doomUnit_self h x
    exact ⟨u, hu⟩
  · obtain ⟨u, hu⟩ := h
    obtain ⟨v, hv, -⟩ := (fatesStay_doomUnit_else s j x).found hk hu
    exact ⟨v, hv⟩

theorem doomed_doomUnit {x : Trap} (h : Doomed k (causeWord x) s) (j : UKey) : Doomed k (causeWord x) (doomUnit s j x) := by
  by_cases hk : k = j
  · subst hk
    obtain ⟨u, hu, -⟩ := h
    exact doomed_doomUnit_self ⟨u, hu⟩ x
  · exact (fatesStay_doomUnit_else s j x).doomed hk h

/-- Units that are told to halt for good do. -/
theorem doomed_all {us : List Unit} (hmem : u ∈ us) (hu : ∃ v, s.unit? u.key = some v) (x : Trap) :
    Doomed u.key (causeWord x) (us.foldl (fun s u => doomUnit s u.key x) s) :=
  foldl_reaches (I := fun s => ∃ v, s.unit? u.key = some v) (J := Doomed u.key (causeWord x)) (f := fun s (u : Unit) => doomUnit s u.key x) hmem
    (fun _ y _ h => found_doomUnit h y.key x) (fun _ y _ h => doomed_doomUnit h y.key) (fun _ h => doomed_doomUnit_self h x) hu

theorem gone_doomUnit (h : s.unit? k = none) (j : UKey) (x : Trap) : (doomUnit s j x).unit? k = none := by
  by_cases hk : k = j
  · subst hk
    rw [doomUnit_gone h]
    exact h
  · exact (fatesStay_doomUnit_else s j x).none hk h

theorem gone_all (us : List Unit) (h : s.unit? k = none) (x : Trap) : (us.foldl (fun s u => doomUnit s u.key x) s).unit? k = none :=
  foldl_keeps (I := fun s => s.unit? k = none) (fun _ y _ h => gone_doomUnit h y.key x) h

/-! ## Units that are placed and not restored (R346) -/

theorem unplaceAll_units (s : State) (l : Launch) (k : UKey) : ((unplaceAll s l).units.find? fun u => u.key == k) =
    if (unitsOf s l).any (fun u => u.unrestored && u.key == k) then none else s.unit? k := by
  unfold unplaceAll
  generalize hus : (unitsOf s l).filter (·.unrestored) = us
  have hany : (unitsOf s l).any (fun u => u.unrestored && u.key == k) = us.any (fun u => u.key == k) := by
    rw [← hus, List.any_filter]
  rw [hany]
  clear hus hany
  induction us generalizing s with
  | nil => rfl
  | cons u us ih =>
    rw [List.foldl_cons, ih, List.any_cons]
    by_cases hk : u.key = k
    · have hgone : (unplace s u l).unit? k = none := by
        rw [State.unit?, unplace_units, ← hk]
        exact List.find?_eq_none.2 fun x hx => by simpa using (List.mem_filter.1 hx).2
      simp [hk, hgone]
    · have hkept : (unplace s u l).unit? k = s.unit? k := by
        rw [State.unit?, unplace_units]
        exact find?_filter_sub (fun x hx => by simpa [(by simpa using hx : x.key = k)] using Ne.symm hk) s.units
      simp [hk, hkept]

theorem unplaceAll_gone (hu : u ∈ unitsOf s l) (h : u.unrestored = true) : (unplaceAll s l).unit? u.key = none :=
  (unplaceAll_units s l u.key).trans (if_pos (List.any_eq_true.2 ⟨u, hu, by simp [h]⟩))

theorem unplaceAll_kept (h : ∀ x ∈ unitsOf s l, x.key = k → x.unrestored = false) : (unplaceAll s l).unit? k = s.unit? k :=
  (unplaceAll_units s l k).trans (if_neg (by
    intro hany
    obtain ⟨x, hx, hrest⟩ := List.any_eq_true.1 hany
    simp only [Bool.and_eq_true, beq_iff_eq] at hrest
    rw [h x hx hrest.2] at hrest
    exact absurd hrest.1 (by decide)))

theorem unit?_of_mem_unitsOf (hu : u ∈ unitsOf s l) : ∃ v, s.unit? u.key = some v ∧ v.key = u.key := by
  obtain ⟨hmem, -⟩ := List.mem_filter.1 hu
  cases hfound : s.unit? u.key with
  | none => exact absurd (List.find?_eq_none.1 hfound u hmem) (by simp)
  | some v => exact ⟨v, rfl, by simpa using List.find?_some hfound⟩

theorem mem_unitsOf_of_unit? (hv : s.unit? k = some v) (hk : k.fn = l.fn ∧ k.lid = l.lid) : ∃ w ∈ unitsOf s l, w.key = k := by
  have hkey : v.key = k := by simpa using List.find?_some hv
  exact ⟨v, List.mem_filter.2 ⟨List.mem_of_find?_eq_some hv, by simp [hkey, hk]⟩, hkey⟩

theorem unitsOf_key (hu : u ∈ unitsOf s l) : u.key.fn = l.fn ∧ u.key.lid = l.lid := by
  have h := (List.mem_filter.1 hu).2
  simpa using h

end Sys2Proof.Machine
end

section
/-! PROOFS. Operations of the host on launches and levels: LAUNCH, LEVEL, CANCEL, QUIESCE and ADOPT (R333 to R340, R415, R416). -/

namespace Sys2Proof.Machine
open Sys2Proof.Claims

variable {s t : State} {r : Rpc} {k : UKey} {u : Unit} {l m x : Launch} {c : Ctx} {fn lid level : Nat} {rpc : Bool}

/-! ## CANCEL (R338) -/

theorem cancelLaunch_eq (hm : s.launch? fn lid = some m) (hlive : m.live = true) : ∃ l', l'.fn = m.fn ∧ l'.lid = m.lid ∧ cancelLaunch s fn lid level rpc =
    (unitsOf (unplaceAll s m) l').foldl (fun s u => doomUnit s u.key { code := C.CANCEL, detail := level + rpc.toNat * 4 })
      (finishLaunch (unplaceAll s m) l' .cancelled true) := by
  obtain ⟨hfn, hlid⟩ := State.launch?_spec hm
  refine ⟨((unplaceAll s m).launch? fn lid).getD m, ?_, ?_, ?_⟩
  · cases hin : (unplaceAll s m).launch? fn lid with
    | none => rfl
    | some y => exact (State.launch?_spec hin).1.trans hfn.symm
  · cases hin : (unplaceAll s m).launch? fn lid with
    | none => rfl
    | some y => exact (State.launch?_spec hin).2.trans hlid.symm
  · unfold cancelLaunch
    rw [hm]
    dsimp only
    rw [if_neg (by simp [hlive])]

theorem cancelLaunch_gone (hm : s.launch? fn lid = some m) (hlive : m.live = true) (hu : u ∈ unitsOf s m) (hrest : u.unrestored = true) :
    (cancelLaunch s fn lid level rpc).unit? u.key = none := by
  obtain ⟨l', -, -, heq⟩ := cancelLaunch_eq (level := level) (rpc := rpc) hm hlive
  rw [heq]
  exact gone_all _ ((State.unit?_congr (finishLaunch_units ..) u.key).trans (unplaceAll_gone hu hrest)) _

theorem cancelLaunch_doomed (hm : s.launch? fn lid = some m) (hlive : m.live = true) (hu : u ∈ unitsOf s m)
    (hrest : ∀ y ∈ unitsOf s m, y.key = u.key → y.unrestored = false) :
    Doomed u.key (causeWord { code := C.CANCEL, detail := level + rpc.toNat * 4 }) (cancelLaunch s fn lid level rpc) := by
  obtain ⟨l', hfn, hlid, heq⟩ := cancelLaunch_eq (level := level) (rpc := rpc) hm hlive
  obtain ⟨v, hv, -⟩ := unit?_of_mem_unitsOf hu
  have hkept : (unplaceAll s m).unit? u.key = some v := (unplaceAll_kept hrest).trans hv
  obtain ⟨w, hw, hwkey⟩ := mem_unitsOf_of_unit? (l := l') hkept ⟨(unitsOf_key hu).1.trans hfn.symm, (unitsOf_key hu).2.trans hlid.symm⟩
  rw [heq, ← hwkey]
  exact doomed_all hw ⟨v, hwkey ▸ (State.unit?_congr (finishLaunch_units ..) u.key).trans hkept⟩ _

theorem cancelRpc_next (hopen : (s.func r.fn).opened = true) (h0 : r.field 0 = 0) :
    exec (.cancelRpc r) s = .next (reply (cancelLaunch s r.fn (r.field 1) 0 true) r 0 0) := by
  show execCancelRpc r s = _
  unfold execCancelRpc
  rw [rpc_open hopen (.inl rfl)]
  dsimp only
  rw [if_neg (by omega), if_pos h0]
  rfl

/-! ## LAUNCH and LEVEL (R333 to R336) -/

/-- The packet of a LAUNCH frame. -/
def launchIn (r : Rpc) : Launch := Launch.parse r.fn (r.bytes 16 4) fun off n => r.bytes (32 + off) n

/-- A launch enters the bench, and its lowest level receives a member. -/
def State.entered (s : State) (l : Launch) : State := memberIn { s with launches := s.launches ++ [l] } l.fn l.lowest.1 l.lowest.2

theorem launchRpc_next (hopen : (s.func r.fn).opened = true) (hctx : (ownCtx s r.fn (launchIn r).ctx).isSome = true) (hzero : r.bytes 20 12 = 0)
    (hchecks : ∀ y ∈ packetChecks s (launchIn r) (fun off n => r.bytes (32 + off) n), y.2 = false) :
    exec (.launchRpc r) s = .next (if 4096 ≤ inBench s r.fn then reply s r 6 0 else reply (s.entered ((launchIn r).seen s)) r 0 0) := by
  show execLaunchRpc r s = _
  unfold execLaunchRpc
  rw [rpc_open hopen (.inl rfl)]
  dsimp only
  have hnone : (ownCtx s r.fn (launchIn r).ctx).isNone = false := by rw [← Option.not_isSome, hctx]; rfl
  rw [firstBad_none (by
    intro y hy
    rcases List.mem_append.1 hy with hy | hy
    · simp only [List.mem_cons, List.not_mem_nil, or_false] at hy
      rcases hy with rfl | rfl
      · exact hnone
      · simp [hzero]
    · obtain ⟨z, hz, rfl⟩ := List.mem_map.1 hy
      exact hchecks z hz)]
  rfl

/-- The level that a LEVEL frame makes. -/
def levelIn (r : Rpc) : Level :=
  { fn := r.fn, kind := r.field 0, id := r.field 1, m := r.field 2, got := 0, counter := r.field 2, signal := r.field 3, ctx := r.field 5,
    parent := r.field 4, failed := false, cancelled := false }

/-- A level is made, and the one above it receives a member. -/
def State.levelMade (s : State) (p : Level) : State :=
  { memberIn s p.fn (p.kind + 1) p.parent with levels := (memberIn s p.fn (p.kind + 1) p.parent).levels ++ [p] }

theorem levelRpc_next (hopen : (s.func r.fn).opened = true) (hkind : 1 ≤ r.field 0 ∧ r.field 0 ≤ 3) (hid : r.field 1 ≠ 0 ∧ r.field 1 < 2 ^ 48)
    (hnew : s.level? r.fn (r.field 0) (r.field 1) = none) (hm : r.field 2 ≠ 0 ∧ r.field 2 < 2 ^ 32) (hsignal : r.field 3 % 8 = 0) (hparent : r.field 4 = 0)
    (hctx : r.field 3 = 0 ∨ (ownCtx s r.fn (r.field 5)).isSome = true) (hroom : (s.levels.filter fun l => l.fn == r.fn).length < 4096) :
    exec (.levelRpc r) s = .next (reply (s.levelMade (levelIn r)) r 0 0) := by
  show execLevelRpc r s = _
  unfold execLevelRpc
  rw [rpc_open hopen (.inl rfl)]
  dsimp only
  obtain ⟨hkind1, hkind3⟩ := hkind
  obtain ⟨hid0, hid48⟩ := hid
  obtain ⟨hm0, hm32⟩ := hm
  rw [firstBad_none (by
    intro y hy
    simp only [List.mem_cons, List.not_mem_nil, or_false] at hy
    rcases hy with rfl | rfl | rfl | rfl | rfl | rfl
    · simp only [Bool.or_eq_false_iff, decide_eq_false_iff_not]
      exact ⟨⟨by omega, by omega⟩, by omega⟩
    · simp only [Bool.or_eq_false_iff, decide_eq_false_iff_not, hnew, Option.isSome_none, and_true]
      exact ⟨hid0, Nat.not_le.2 hid48⟩
    · simp only [Bool.or_eq_false_iff, decide_eq_false_iff_not]
      exact ⟨hm0, Nat.not_le.2 hm32⟩
    · simp [hsignal]
    · simp [hparent]
    · rcases hctx with h | h
      · simp [h]
      · rw [← Option.not_isSome, h]
        simp)]
  rfl

theorem levelMade_level {p : Level} (hnew : s.level? p.fn p.kind p.id = none) : (s.levelMade p).level? p.fn p.kind p.id = some p := by
  have hnone : (memberIn s p.fn (p.kind + 1) p.parent).level? p.fn p.kind p.id = none := by
    refine level?_none_iff.2 fun q hq => ?_
    obtain ⟨q', hq', rfl⟩ := List.mem_map.1 (show q ∈ s.levels.map _ from hq)
    have := level?_none_iff.1 hnew q' hq'
    split <;> exact this
  rw [State.level?] at hnone ⊢
  rw [State.levelMade, List.find?_append, hnone, Option.none_or, List.find?_singleton, if_pos (by simp)]

/-! ## QUIESCE (R415) -/

/-- A launch that is held. -/
def Launch.asHeld (l : Launch) : Launch := { l with held := true }

/-- The state in which a launch is held and its units leave. -/
def quiesced (s : State) (m : Launch) : State := vacateAll (s.modLaunch m.fn m.lid Launch.asHeld) (unitsOf s m)

theorem quiesced_launch (hm : s.launch? m.fn m.lid = some m) : (quiesced s m).launch? m.fn m.lid = some m.asHeld := by
  rw [quiesced, State.launch?_congr ((touches_vacateAll ..).keeps .launches (by decide)), State.launch?_modLaunch _ _ _ Launch.asHeld fun _ => ⟨rfl, rfl⟩, hm]
  rfl

theorem quiesced_ctx (s : State) (m : Launch) (id : Nat) : (quiesced s m).ctx? id = s.ctx? id :=
  State.ctx?_congr ((touches_vacateAll ..).keeps .ctxs (by decide)) id

theorem quiesceRpc_next (hopen : (s.func r.fn).opened = true) (hm : s.launch? r.fn (r.field 0) = some m) (hlive : m.live = true) (hrecord : m.record = none)
    (hranges : m.unissued.length ≤ 16) (hctx : s.ctx? m.ctx = some c) : exec (.quiesceRpc r) s =
      .next (if quiesceWaits (quiesced s m) m.asHeld then (quiesced s m).due (.quiesceRpc r) else writeRecord (quiesced s m) r m.asHeld c) := by
  obtain ⟨hfn, hlid⟩ := State.launch?_spec hm
  have hl : (quiesced s m).launch? r.fn (r.field 0) = some m.asHeld := by
    rw [← hfn, ← hlid] at hm ⊢
    exact quiesced_launch hm
  have hc : (quiesced s m).ctx? m.asHeld.ctx = some c := (quiesced_ctx ..).trans hctx
  obtain ⟨q, hq⟩ : ∃ q, quiesced s m = q := ⟨_, rfl⟩
  have hq' : vacateAll (s.modLaunch m.fn m.lid fun l => { l with held := true }) (unitsOf (s.modLaunch m.fn m.lid fun l => { l with held := true }) m) = q := hq
  rw [hq] at hl hc ⊢
  show execQuiesceRpc r s = _
  unfold execQuiesceRpc
  rw [rpc_open hopen (.inl rfl), hm]
  dsimp only
  rw [if_neg (by simp [hlive, hrecord]), if_neg (by omega), hq', hl]
  simp only [Option.bind_some, hc, Option.map_some]

theorem quiesced_waits (hne : unitsOf s m ≠ []) : quiesceWaits (quiesced s m) m.asHeld = true := by
  obtain ⟨u, hu⟩ := List.exists_mem_of_ne_nil _ hne
  obtain ⟨v, hv, -⟩ := unit?_of_mem_unitsOf hu
  have hfound : ∃ w, (quiesced s m).unit? u.key = some w :=
    foldl_keeps (I := fun s => ∃ w, s.unit? u.key = some w) (f := sendOff) (fun s y _ h => found_sendOff h y) ⟨v, hv⟩
  obtain ⟨w, hw⟩ := hfound
  obtain ⟨y, hy, -⟩ := mem_unitsOf_of_unit? (l := m.asHeld) hw (unitsOf_key hu)
  have hsome : (unitsOf (quiesced s m) m.asHeld).isEmpty = false := by simpa using List.ne_nil_of_mem hy
  rw [quiesceWaits, hsome]
  rfl

theorem launch?_modLaunch_any (s : State) (fn lid : Nat) (f : Launch → Launch) (hf : ∀ l, (f l).fn = l.fn ∧ (f l).lid = l.lid) (a b : Nat) :
    (s.modLaunch fn lid f).launch? a b = (s.launch? a b).map fun l => if l.fn == fn && l.lid == lid then f l else l := by
  rw [State.launch?, State.launch?, State.modLaunch, List.find?_map]
  congr 2
  funext l
  simp only [Function.comp]
  split <;> simp [hf]

/-- The size of the image of a unit's launch. -/
def imageOf (o : Option Launch) : Nat := match o with | some l => l.image | none => 0

theorem heldSaves_eq (s : State) (ctx : Nat) : heldSaves s ctx =
    (s.units.filterMap fun u => if u.ctx = ctx && !isSuper u.key then some (u.save, imageOf (launchOf s u)) else none)
      ++ (s.launches.filter fun l => l.ctx == ctx).flatMap fun l => l.resume.map (fun v => (v.save, v.size)) ++ l.record.toList := rfl

theorem imageOf_asHeld (s : State) (fn lid : Nat) (u : Unit) : imageOf (launchOf (s.modLaunch fn lid Launch.asHeld) u) = imageOf (launchOf s u) := by
  rw [launchOf, launch?_modLaunch_any _ _ _ Launch.asHeld fun _ => ⟨rfl, rfl⟩, launchOf]
  cases s.launch? u.key.fn u.key.lid with
  | none => rfl
  | some l =>
    rw [Option.map_some]
    split <;> rfl

/-- Holding a launch moves no save slot. -/
theorem heldSaves_asHeld (s : State) (fn lid ctx : Nat) : heldSaves (s.modLaunch fn lid Launch.asHeld) ctx = heldSaves s ctx := by
  rw [heldSaves_eq, heldSaves_eq]
  refine congrArg₂ (· ++ ·) (congrArg (List.filterMap · s.units) (funext fun u => by rw [imageOf_asHeld])) ?_
  show List.flatMap _ ((s.launches.map _).filter _) = _
  induction s.launches with
  | nil => rfl
  | cons y ys ih =>
    rw [List.map_cons, List.filter_cons, List.filter_cons]
    have hsame : ∀ z : Launch, (z.asHeld.ctx == ctx) = (z.ctx == ctx) := fun _ => rfl
    by_cases hy : (y.fn == fn && y.lid == lid) = true
    · rw [if_pos hy, hsame]
      split
      · rw [List.flatMap_cons, List.flatMap_cons, ih]
        rfl
      · exact ih
    · rw [if_neg hy]
      split
      · rw [List.flatMap_cons, List.flatMap_cons, ih]
      · exact ih

/-- A launch whose record stands in the arena. -/
def Launch.recorded (o size : Nat) (l : Launch) : Launch := { l with record := some (o, size) }

theorem writeRecord_at {o : Nat} (h : lowestFit (heldSaves s l.ctx) (up256 (recordBytes l c.arena).length) c.arenaN = some o) :
    writeRecord s r l c = replyVals ((sysWriteBytes s c (c.arena + o) (recordBytes l c.arena)).modLaunch l.fn l.lid
      (Launch.recorded o (up256 (recordBytes l c.arena).length))) r [c.arena + o] := by
  unfold writeRecord
  dsimp only
  rw [h]
  rfl

theorem recorded_launch {o size : Nat} {bs : List Byte} {va : Nat} (hl : s.launch? l.fn l.lid = some l) :
    ((sysWriteBytes s c va bs).modLaunch l.fn l.lid (Launch.recorded o size)).launch? l.fn l.lid = some (l.recorded o size) := by
  have hmem := (memOnly_sysWriteBytes s c va bs).touches (ps := memoryParts) (by decide)
  rw [State.launch?_modLaunch _ _ _ (Launch.recorded o size) fun _ => ⟨rfl, rfl⟩, State.launch?_congr (hmem.keeps .launches (by decide)), hl]
  rfl

/-- Where nothing of the launch is on its way, holding it is all that is done before its record is written. -/
theorem quiesced_still (h : quiesceWaits s m = false) : quiesced s m = s.modLaunch m.fn m.lid Launch.asHeld := by
  have hnone : unitsOf s m = [] := by
    have h' : (unitsOf s m).isEmpty = true := by
      unfold quiesceWaits at h
      simp only [Bool.or_eq_false_iff] at h
      simpa using h.1.1
    exact List.isEmpty_iff.1 h'
  rw [quiesced, hnone]
  rfl

theorem quiesceWaits_asHeld (s : State) (m : Launch) : quiesceWaits (s.modLaunch m.fn m.lid Launch.asHeld) m.asHeld = quiesceWaits s m := rfl

/-! ## ADOPT (R416) -/

/-- A held launch as it goes on. -/
def Launch.goesOn (l : Launch) : Launch := { l with held := false, record := none, state := .active }

theorem resumeHeld_facts (hx : ∃ y, s.launch? fn lid = some y) (hname : x.fn = fn ∧ x.lid = lid) :
    SameMemory s (resumeHeld s x) ∧ (resumeHeld s x).launch? fn lid = some x.goesOn
      ∧ (x.localptr = true → ∀ y, (resumeHeld s x).ctx? x.ctx = some y → y.localptr = true) := by
  obtain ⟨rfl, rfl⟩ := hname
  obtain ⟨y, hy⟩ := hx
  obtain ⟨a, ha⟩ : ∃ a, s.modLaunch x.fn x.lid (fun _ => x.goesOn) = a := ⟨_, rfl⟩
  obtain ⟨b, hb⟩ : ∃ b, (if x.localptr then a.modCtx x.ctx fun c => { c with localptr := true } else a) = b := ⟨_, rfl⟩
  have hlast : Touches [.agenda] b (resumeHeld s x) := by
    subst hb ha
    exact .ite (.refl ..) (.due (by decide) ..)
  have hctx : Touches [.ctxs] a b := by
    subst hb
    exact .ite (.ctxs (by decide) ..) (.refl ..)
  have hmem : SameMemory s a := by
    subst ha
    exact sameMemory_of_rd fun _ _ => rfl
  refine ⟨fun sp hsp n => ?_, ?_, fun hlocal z hz => ?_⟩
  · rw [hlast.rd (by decide) (by decide) (by decide) (by decide), hctx.rd (by decide) (by decide) (by decide) (by decide), hmem sp hsp n]
  · rw [State.launch?_congr (hlast.keeps .launches (by decide)), State.launch?_congr (hctx.keeps .launches (by decide)), ← ha]
    exact State.launch?_setLaunch hy ⟨rfl, rfl⟩
  · rw [State.ctx?_congr (hlast.keeps .ctxs (by decide)), ← hb, if_pos hlocal, State.ctx?_modCtx a x.ctx (fun c => { c with localptr := true }) fun _ => ⟨rfl, rfl⟩] at hz
    obtain ⟨w, -, rfl⟩ := Option.map_eq_some_iff.1 hz
    rfl

/-- The packet of an ADOPT frame, and the held launch that it names. -/
def adoptIn (r : Rpc) : Launch := Launch.parse r.fn (r.field 0) (adoptField r)
def heldOf (s : State) (p : Launch) : Option Launch := s.launches.find? fun x => x.fn == p.fn && x.lid == p.lid && x.held && x.record.isSome

theorem heldOf_spec (h : heldOf s l = some x) : x.fn = l.fn ∧ x.lid = l.lid ∧ ∃ y, s.launch? l.fn l.lid = some y := by
  have hx := List.find?_some h
  simp only [Bool.and_eq_true, beq_iff_eq] at hx
  obtain ⟨⟨⟨hfn, hlid⟩, -⟩, -⟩ := hx
  refine ⟨hfn, hlid, Option.isSome_iff_exists.1 (List.find?_isSome.2 ⟨x, List.mem_of_find?_eq_some h, by simp [hfn, hlid]⟩)⟩

theorem bindEndpoint_name {q : Launch} (h : bindEndpoint s x = some q) : q.fn = x.fn ∧ q.lid = x.lid ∧ q.n = x.n := by
  unfold bindEndpoint at h
  split at h
  · cases h
    exact ⟨rfl, rfl, rfl⟩
  · obtain ⟨c, -, h⟩ := Option.bind_eq_some_iff.1 h
    by_cases hin : inHbm s c x.endpoint = true
    · rw [if_pos hin] at h
      obtain ⟨y, -, h⟩ := Option.bind_eq_some_iff.1 h
      dsimp only at h
      split at h
      · cases h
        exact ⟨rfl, rfl, rfl⟩
      · exact nomatch h
    · rw [if_neg hin] at h
      exact nomatch h

/-- A launch with its first arguments and the ranges of the dies. -/
def Launch.begun (pre : List Word) (l : Launch) : Launch := { l with pre := pre, ranges := startRanges l.n }

/-- How a held launch of the frame's packet is answered. -/
theorem adoptRpc_held {o : Nat × Nat} (hopen : (s.func r.fn).opened = true) (hc : ownCtx s r.fn (adoptIn r).ctx = some c)
    (hx : heldOf s (adoptIn r) = some x) (hshape : x.shape = (adoptIn r).shape) (hctx : x.ctx = (adoptIn r).ctx) (hrecord : x.record = some o)
    (hva : c.arena + o.1 = r.field 2) : exec (.adoptRpc r) s = .next (
      if !heldImagesOk s c x then refuse s r (r.offset 2)
      else if x.state = .active then replyOk (resumeHeld s x) r
      else match bindEndpoint s x with
        | none => refuse s r (r.offset 1 + 32)
        | some x => match readArgs s x with
          | none => refuse s r (r.offset 1 + 40)
          | some pre => replyOk (resumeHeld s (x.begun pre)) r) := by
  have hx' : (s.launches.find? fun x => x.fn == (Launch.parse r.fn (r.field 0) (adoptField r)).fn && x.lid == (Launch.parse r.fn (r.field 0) (adoptField r)).lid
    && x.held && x.record.isSome) = some x := hx
  show execAdoptRpc r s = _
  unfold execAdoptRpc
  rw [rpc_open hopen (.inl rfl)]
  dsimp only
  rw [show Launch.parse r.fn (r.field 0) (adoptField r) = adoptIn r from rfl] at hx' ⊢
  rw [hc]
  dsimp only
  rw [hx']
  dsimp only
  rw [if_pos (by simp [hshape, hctx, hrecord, hva])]
  rfl

/-- How a record without a launch is answered. -/
theorem adoptRpc_new (hopen : (s.func r.fn).opened = true) (hc : ownCtx s r.fn (adoptIn r).ctx = some c) (hx : heldOf s (adoptIn r) = none)
    (hchecks : ∀ y ∈ packetChecks s (adoptIn r) (adoptField r), y.2 = false) (hroom : inBench s r.fn < 4096) :
    let rd : Rd := fun off n => (sysRead s c (r.field 2 + off) n).getD 0
    exec (.adoptRpc r) s = .next (
      if rd 0 8 != (adoptIn r).lid || !countsAll rd (adoptIn r).n then refuse s r (r.offset 2)
      else match adoptUnits s c (adoptIn r) rd, bindEndpoint s (adoptIn r) with
        | none, _ => refuse s r (r.offset 2)
        | _, none => refuse s r (r.offset 1 + 32)
        | some vs, some l => match readArgs s l with
          | none => refuse s r (r.offset 1 + 40)
          | some pre => adopt s r (adopted s l rd vs pre)) := by
  have hx' : (s.launches.find? fun x => x.fn == (Launch.parse r.fn (r.field 0) (adoptField r)).fn && x.lid == (Launch.parse r.fn (r.field 0) (adoptField r)).lid
    && x.held && x.record.isSome) = none := hx
  show execAdoptRpc r s = _
  unfold execAdoptRpc
  rw [rpc_open hopen (.inl rfl)]
  dsimp only
  rw [show Launch.parse r.fn (r.field 0) (adoptField r) = adoptIn r from rfl] at hx' ⊢
  rw [hc]
  dsimp only
  rw [hx']
  dsimp only
  rw [firstBad_none hchecks]
  dsimp only
  rw [if_neg (Nat.not_le.2 hroom)] <;> rfl

/-- An adopted launch that is not over before it begins stands in the bench. -/
theorem adopt_launches (h : l.counter ≠ 0) : ∃ t, adopt s r l = reply t r 0 0 ∧ SameMemory s t ∧ t.launches = s.launches ++ [l] := by
  obtain ⟨a, ha⟩ : ∃ a, s.entered l = a := ⟨_, rfl⟩
  obtain ⟨b, hb⟩ : ∃ b, (if l.localptr then a.modCtx l.ctx fun c => { c with localptr := true } else a) = b := ⟨_, rfl⟩
  obtain ⟨d, hd⟩ : ∃ d, (if l.budget = 0 then b else b.due (.watchdog l.fn l.lid)) = d := ⟨_, rfl⟩
  have hall : Touches [.ctxs, .agenda] a d := by
    subst hd hb
    exact .last (.ite (.refl ..) (.due (by decide) ..)) (.ite (.ctxs (by decide) ..) (.refl ..))
  refine ⟨d, ?_, sameMemory_of_rd fun sp n => ?_, ?_⟩
  · unfold adopt
    dsimp only
    rw [if_neg h, show memberIn { s with launches := s.launches ++ [l] } l.fn l.lowest.1 l.lowest.2 = a from ha, hb, hd]
    rfl
  · rw [hall.rd (by decide) (by decide) (by decide) (by decide), ← ha]
    rfl
  · rw [show d.launches = a.launches from hall.keeps .launches (by decide), ← ha]
    rfl

end Sys2Proof.Machine
end

section
open Sys2Proof Sys2Proof.Machine Sys2Proof.Claims

/-- Settles O51: each operation by its own equation, and what CANCEL does to units by the folds' lemmas. -/
theorem benchRpcs : Obligations.BenchRpcs := by
  unfold Obligations.BenchRpcs
  intro s r hopen a l
  refine ⟨fun hctx hzero hchecks => ⟨fun hroom => ?_, fun hfull => ?_⟩, fun hlo hhi hid0 hid48 hnew hm0 hm32 hsignal hparent hctx hroom => ?_,
    fun h0 => ⟨fun hnone => ?_, fun m hm hlive => ?_⟩, fun m hm hlive hrecord hranges => ⟨fun hne ⟨c, hc⟩ => ?_, fun c o hwaits hc hfit => ?_⟩, ?_⟩
  · exact ⟨_, (launchRpc_next hopen hctx hzero hchecks).trans (congrArg _ (if_neg (Nat.not_le.2 hroom))), sameMemory_of_rd fun _ _ => rfl, rfl⟩
  · exact (launchRpc_next hopen hctx hzero hchecks).trans (congrArg _ (if_pos hfull))
  · exact ⟨_, levelIn r, levelRpc_next hopen ⟨hlo, hhi⟩ ⟨hid0, hid48⟩ hnew ⟨hm0, hm32⟩ hsignal hparent hctx hroom, sameMemory_of_rd fun _ _ => rfl,
      levelMade_level hnew, rfl, rfl, rfl, rfl, rfl, rfl, rfl⟩
  · rw [cancelRpc_next hopen h0, cancelLaunch, show s.launch? r.fn (r.field 1) = none from hnone]
  · refine ⟨_, cancelRpc_next hopen h0, ended_cancelLaunch (fun m' hm' => .inl ?_) 0 true, fun u hu => ⟨fun hrest => ?_, fun hrest => ?_⟩⟩
    · rw [show s.launch? r.fn (r.field 1) = some m from hm] at hm'
      cases hm'
      exact hlive
    · exact cancelLaunch_doomed hm hlive hu hrest
    · exact cancelLaunch_gone hm hlive hu hrest
  · obtain ⟨hfn, hlid⟩ := State.launch?_spec hm
    have hl := quiesced_launch (s := s) (m := m) (by rw [hfn, hlid]; exact hm)
    rw [hfn, hlid] at hl
    refine ⟨_, m.asHeld, (quiesceRpc_next hopen hm hlive hrecord hranges hc).trans (congrArg _ (if_pos (quiesced_waits hne))), State.mem_due_self ..,
      (State.launch?_congr (Touches.keeps (.due (ps := [.agenda]) (by decide) ..) .launches (by decide)) ..).trans hl, rfl⟩
  · obtain ⟨hfn, hlid⟩ := State.launch?_spec hm
    have hm' : s.launch? m.fn m.lid = some m := by
      rw [hfn, hlid]
      exact hm
    have hl := quiesced_launch hm'
    have hgoes : quiesceWaits (quiesced s m) m.asHeld = false := by
      rw [quiesced_still hwaits, quiesceWaits_asHeld, hwaits]
    have hfit' : lowestFit (heldSaves (quiesced s m) m.asHeld.ctx) (up256 (recordBytes m.asHeld c.arena).length) c.arenaN = some o := by
      rw [quiesced_still hwaits, heldSaves_asHeld]
      exact hfit
    have hrec := recorded_launch (c := c) (o := o) (size := up256 (recordBytes m.asHeld c.arena).length) (bs := recordBytes m.asHeld c.arena)
      (va := c.arena + o) (l := m.asHeld) hl
    rw [show m.asHeld.fn = r.fn from hfn, show m.asHeld.lid = a 0 from hlid] at hrec
    refine ⟨_, _, (quiesceRpc_next hopen hm hlive hrecord hranges hc).trans (congrArg _ ((if_neg (by simp [hgoes])).trans (writeRecord_at hfit'))),
      (by rw [show m.asHeld.fn = r.fn from hfn, show m.asHeld.lid = a 0 from hlid]; exact hrec), rfl, rfl⟩
  · intro p held c hc rd
    refine ⟨fun x o hheld hshape hctx hrecord hva => ?_, ?_, fun vs q pre hnone hchecks hroom hid hcounts hunits hbind hargs hcount => ?_⟩
    · have hexec := adoptRpc_held hopen hc hheld hshape hctx hrecord hva
      obtain ⟨hfn, hlid, hfound⟩ := heldOf_spec hheld
      intro goes
      refine ⟨fun hbad => ?_, fun hok hactive => ?_, fun q pre hok hinactive hbind hargs => ?_⟩
      · exact hexec.trans (congrArg _ (if_pos (by simp [hbad])))
      · obtain ⟨hmem, hl, hlocal⟩ := resumeHeld_facts hfound ⟨hfn, hlid⟩
        exact ⟨_, hexec.trans (congrArg _ ((if_neg (by simp [hok])).trans (if_pos hactive))), hmem, hl, hlocal⟩
      · obtain ⟨hqfn, hqlid, -⟩ := bindEndpoint_name hbind
        obtain ⟨hmem, hl, hlocal⟩ := resumeHeld_facts (x := q.begun pre) hfound ⟨hqfn.trans hfn, hqlid.trans hlid⟩
        refine ⟨_, hexec.trans (congrArg _ ((if_neg (by simp [hok])).trans ((if_neg hinactive).trans ?_))), hmem, hl, hlocal⟩
        rw [hbind]
        dsimp only
        rw [hargs]
        rfl
    · intro counted hnone hchecks hroom hbad
      refine (adoptRpc_new hopen hc hnone hchecks hroom).trans (congrArg _ (if_pos ?_))
      rcases hbad with hid | hcount
      · exact Bool.or_eq_true_iff.2 (.inl (bne_iff_ne.2 hid))
      · exact Bool.or_eq_true_iff.2 (.inr (congrArg (!·) (beq_eq_false_iff_ne.2 hcount) : (!_) = true))
    · have hexec := adoptRpc_new hopen hc hnone hchecks hroom
      obtain ⟨t, ht, hmem, hlaunches⟩ := adopt_launches (s := s) (r := r) hcount
      refine ⟨t, hexec.trans (congrArg _ ((if_neg ?_).trans ?_)), hmem, hlaunches⟩
      · rw [Bool.or_eq_true_iff, bne_iff_ne, Bool.not_eq_true']
        rintro (hne | hfalse)
        · exact hne hid
        · exact absurd (hfalse.symm.trans hcounts) (by decide)
      · rw [show adoptUnits s c (adoptIn r) (fun off n => (sysRead s c (r.field 2 + off) n).getD 0) = some vs from hunits,
          show bindEndpoint s (adoptIn r) = some q from hbind]
        dsimp only
        rw [hargs]
        exact ht

end

section
/-! PROOFS. What the supervisor writes: halt windows byte by byte, core reports, store-fault records and its admission port (R355 to R362). -/

namespace Sys2Proof.Machine
open Sys2Proof.Claims

variable {s t : State} {u : Unit} {g h : Group} {core slot : Nat} {c : Ctx}

/-! ## Bytes of a number -/

/-- Bit `j` of a number with byte `i` replaced. -/
theorem setByte_testBit (x i j : Nat) (b : Byte) : (setByte x i b).testBit j = if j / 8 = i then b.getLsbD (j % 8) else x.testBit j := by
  have hpow : ∀ n, 256 ^ n = 2 ^ (8 * n) := fun n => by rw [show (256 : Nat) = 2 ^ 8 from rfl, ← pow_mul]
  have hlow : x % 2 ^ (8 * i) < 2 ^ (8 * i) := Nat.mod_lt _ (by positivity)
  have hb : b.toNat < 2 ^ 8 := b.isLt
  have hshape : setByte x i b = 2 ^ (8 * i) * (2 ^ 8 * (x / 2 ^ (8 * (i + 1))) + b.toNat) + x % 2 ^ (8 * i) := by
    rw [setByte, hpow, hpow, show 8 * (i + 1) = 8 * i + 8 by ring, pow_add]
    ring
  rw [hshape, Nat.testBit_two_pow_mul_add _ hlow]
  by_cases hj : j < 8 * i
  · rw [if_pos hj, if_neg (by omega), Nat.testBit_mod_two_pow, decide_eq_true hj, Bool.true_and]
  · rw [if_neg hj, Nat.testBit_two_pow_mul_add _ hb]
    by_cases hin : j - 8 * i < 8
    · rw [if_pos hin, if_pos (by omega), BitVec.getLsbD, show j - 8 * i = j % 8 by omega]
    · rw [if_neg hin, if_neg (by omega), Nat.testBit_div_two_pow]
      congr 1
      omega

/-- A register of which byte `i` is written, where a mask says what can stand in it. -/
def maskByte {w : Nat} (mask e : BitVec w) (i : Nat) (b : Byte) : BitVec w := BitVec.ofNat w (setByte e.toNat i b) &&& mask

def maskBytes {w : Nat} (mask e : BitVec w) (i : Nat) : List Byte → BitVec w
  | [] => e
  | b :: bs => maskBytes mask (maskByte mask e i b) (i + 1) bs

theorem maskByte_getLsbD {w : Nat} (mask e : BitVec w) (i j : Nat) (b : Byte) :
    (maskByte mask e i b).getLsbD j = ((if j / 8 = i then decide (j < w) && b.getLsbD (j % 8) else e.getLsbD j) && mask.getLsbD j) := by
  rw [maskByte, BitVec.getLsbD_and, BitVec.getLsbD_ofNat, setByte_testBit]
  split
  · rfl
  · by_cases hj : j < w
    · rw [decide_eq_true hj, Bool.true_and]
      rfl
    · rw [decide_eq_false hj, Bool.false_and, BitVec.getLsbD_of_ge e j (Nat.le_of_not_lt hj)]

theorem maskBytes_below {w : Nat} (mask e : BitVec w) (i j : Nat) (bs : List Byte) (hj : j / 8 < i) (he : e.getLsbD j = true → mask.getLsbD j = true) :
    (maskBytes mask e i bs).getLsbD j = e.getLsbD j := by
  induction bs generalizing e i with
  | nil => rfl
  | cons b bs ih =>
    have hbit : (maskByte mask e i b).getLsbD j = e.getLsbD j := by
      rw [maskByte_getLsbD, if_neg (by omega)]
      cases hb : e.getLsbD j with
      | false => rfl
      | true => rw [he hb]; rfl
    rw [maskBytes, ih _ _ (by omega) (by rwa [hbit]), hbit]

theorem maskBytes_written {w : Nat} (mask e : BitVec w) (i j : Nat) (bs : List Byte) (hw : j < w) (hlo : i ≤ j / 8) (hhi : j / 8 < i + bs.length) :
    (maskBytes mask e i bs).getLsbD j = ((bs.getD (j / 8 - i) 0).getLsbD (j % 8) && mask.getLsbD j) := by
  induction bs generalizing e i with
  | nil => simp at hhi; omega
  | cons b bs ih =>
    rw [maskBytes]
    by_cases hj : j / 8 = i
    · have hbit : (maskByte mask e i b).getLsbD j = (b.getLsbD (j % 8) && mask.getLsbD j) := by
        rw [maskByte_getLsbD, if_pos hj, decide_eq_true hw, Bool.true_and]
      rw [maskBytes_below _ _ _ _ _ (by omega) (fun h => by rw [hbit] at h; exact (Bool.and_eq_true_iff.1 h).2), hbit, hj, Nat.sub_self]
      rfl
    · rw [ih _ _ (by omega) (by rw [List.length_cons] at hhi; omega), show j / 8 - i = j / 8 - (i + 1) + 1 by omega]
      rfl

theorem bytesOfNat_getD (n v q : Nat) (hq : q < n) : (bytesOfNat n v).getD q 0 = BitVec.ofNat 8 (v / 256 ^ q) := by
  induction n generalizing v q with
  | zero => omega
  | succ n ih =>
    cases q with
    | zero => simp [bytesOfNat]
    | succ q =>
      rw [bytesOfNat, List.getD_cons_succ, ih _ _ (by omega), Nat.div_div_eq_div_mul, pow_succ, Nat.mul_comm]

/-- A register all of whose bytes are written. -/
theorem maskBytes_all {w n : Nat} (mask e : BitVec w) (v : Nat) (hw : w = 8 * n) : maskBytes mask e 0 (bytesOfNat n v) = BitVec.ofNat w v &&& mask := by
  refine BitVec.eq_of_getLsbD_eq fun j hj => ?_
  rw [maskBytes_written _ _ _ _ _ hj (Nat.zero_le _) (by rw [bytesOfNat_length]; omega), Nat.sub_zero, bytesOfNat_getD _ _ _ (by omega),
    BitVec.getLsbD_and, BitVec.getLsbD_ofNat, BitVec.getLsbD_ofNat, show (256 : Nat) ^ (j / 8) = 2 ^ (8 * (j / 8)) by rw [show (256 : Nat) = 2 ^ 8 from rfl, ← pow_mul],
    Nat.testBit_div_two_pow, decide_eq_true hj, decide_eq_true (Nat.mod_lt _ (by decide)), show j % 8 + 8 * (j / 8) = j from Nat.mod_add_div j 8]

/-! ## A group in its slot (R355, R361) -/

/-- A live group stands in a slot of a core, its unit and itself the first that their names find, and its window is open. -/
structure Seated (s : State) (core slot : Nat) (u : Unit) (g : Group) : Prop where
  slot : slotGroup? s core slot = some (u, g)
  unit : s.unit? u.key = some u
  grp : u.grp? g.gid = some g
  opened : windowOpen u g = true

/-- What a change of a group leaves of where it stands. -/
def KeepsSeat (f : Group → Group) : Prop := ∀ g, (f g).live = g.live ∧ (f g).gid = g.gid ∧ (f g).slot = g.slot ∧ (f g).run = g.run ∧ (f g).scall = g.scall

theorem find?_grps_modGrp {gs : List Group} {slot : Nat} {f : Group → Group} (hf : KeepsSeat f)
    (hslot : gs.find? (fun x => x.live && x.slot == slot) = some g) (hgid : gs.find? (fun x => x.live && x.gid == g.gid) = some g) :
    (gs.map fun x => if x.live && x.gid == g.gid then f x else x).find? (fun x => x.live && x.slot == slot) = some (f g) := by
  have hg : (g.live && g.slot == slot) = true := List.find?_some (p := fun x : Group => x.live && x.slot == slot) hslot
  induction gs with
  | nil => cases hslot
  | cons x xs ih =>
    rw [List.map_cons, List.find?_cons]
    rw [List.find?_cons] at hslot hgid
    by_cases hx : (x.live && x.gid == g.gid) = true
    · rw [hx] at hgid
      cases hgid
      rw [if_pos hx, (hf g).1, (hf g).2.2.1, hg]
    · rw [if_neg hx]
      rw [Bool.eq_false_iff.2 hx] at hgid
      cases hp : x.live && x.slot == slot with
      | true =>
        rw [hp] at hslot
        cases hslot
        exact absurd (by simpa using (Bool.and_eq_true_iff.1 hp).1) hx
      | false =>
        rw [hp] at hslot
        exact ih hslot hgid

/-- The group that a unit has in a slot. -/
def Unit.inSlot (slot : Nat) (u : Unit) : Option (Unit × Group) := (u.grps.find? fun g => g.live && g.slot == slot).map (u, ·)

theorem slotGroup?_eq (s : State) (core slot : Nat) : slotGroup? s core slot = (s.units.filter fun u => u.core == core).findSome? (Unit.inSlot slot) := rfl

theorem inSlot_unit {x : Unit} {y : Unit × Group} (h : x.inSlot slot = some y) : y.1 = x := by
  obtain ⟨z, -, rfl⟩ := Option.map_eq_some_iff.1 h
  rfl

theorem inSlot_modGrp {f : Group → Group} (hf : KeepsSeat f) (hin : u.inSlot slot = some (u, g)) (hgrp : u.grp? g.gid = some g) :
    (u.modGrp g.gid f).inSlot slot = some (u.modGrp g.gid f, f g) := by
  obtain ⟨g', hg', heq⟩ := Option.map_eq_some_iff.1 hin
  cases heq
  rw [Unit.inSlot, Unit.modGrp, find?_grps_modGrp hf hg' hgrp]
  rfl

/-- The units of a key, with a group of theirs changed. -/
def changeIn (u : Unit) (g : Group) (f : Group → Group) (x : Unit) : Unit := if x.key == u.key then x.modGrp g.gid f else x

theorem slotGroup?_modGrp {us : List Unit} {f : Group → Group} (hf : KeepsSeat f)
    (hslot : (us.filter fun x => x.core == core).findSome? (Unit.inSlot slot) = some (u, g)) (hunit : us.find? (fun x => x.key == u.key) = some u)
    (hgrp : u.grp? g.gid = some g) :
    ((us.map (changeIn u g f)).filter fun x => x.core == core).findSome? (Unit.inSlot slot) = some (u.modGrp g.gid f, f g) := by
  have hu : u.core = core ∧ u.inSlot slot = some (u, g) := by
    obtain ⟨x, hx, hin⟩ := List.exists_of_findSome?_eq_some hslot
    have := inSlot_unit hin
    subst this
    exact ⟨by simpa using (List.mem_filter.1 hx).2, hin⟩
  induction us with
  | nil => cases hunit
  | cons x xs ih =>
    rw [List.find?_cons] at hunit
    by_cases hx : (x.key == u.key) = true
    · rw [hx] at hunit
      cases hunit
      have hchange : changeIn u g f u = u.modGrp g.gid f := if_pos (by simp)
      have hcore : ((u.modGrp g.gid f).core == core) = true := beq_iff_eq.2 hu.1
      rw [List.map_cons, hchange, List.filter_cons_of_pos (p := fun x : Unit => x.core == core) hcore, List.findSome?_cons, inSlot_modGrp hf hu.2 hgrp]
    · have hchange : changeIn u g f x = x := if_neg hx
      rw [Bool.eq_false_iff.2 hx] at hunit
      rw [List.map_cons, hchange]
      by_cases hcore : (x.core == core) = true
      · rw [List.filter_cons_of_pos (p := fun x : Unit => x.core == core) hcore, List.findSome?_cons] at hslot ⊢
        cases hin : x.inSlot slot with
        | some y =>
          rw [hin] at hslot
          cases hslot
          have := inSlot_unit hin
          exact absurd (beq_iff_eq.2 (congrArg Unit.key this).symm) hx
        | none =>
          rw [hin] at hslot
          exact ih hslot hunit
      · rw [List.filter_cons_of_neg (p := fun x : Unit => x.core == core) hcore] at hslot ⊢
        exact ih hslot hunit

theorem modGrp_units (s : State) (u : Unit) (g : Group) (f : Group → Group) : (s.modGrp u.key g.gid f).units = s.units.map (changeIn u g f) := rfl

theorem Seated.modGrp {f : Group → Group} (hs : Seated s core slot u g) (hf : KeepsSeat f) :
    Seated (s.modGrp u.key g.gid f) core slot (u.modGrp g.gid f) (f g) := by
  have hkey : (u.modGrp g.gid f).key = u.key := rfl
  refine ⟨?_, ?_, ?_, ?_⟩
  · rw [slotGroup?_eq, modGrp_units]
    exact slotGroup?_modGrp hf hs.slot hs.unit hs.grp
  · have hunit := State.unit?_modUnit (s := s) (k := u.key) (fun u => u.modGrp g.gid f) fun _ h => h
    rw [hs.unit] at hunit
    exact hunit
  · rw [(hf g).2.1]
    have hgrp := find?_map_self (fun x : Group => x.live && x.gid == g.gid) f (fun x hx => by rwa [(hf x).1, (hf x).2.1]) u.grps
    exact hgrp.trans (congrArg (Option.map f) hs.grp)
  · have hopen := hs.opened
    unfold windowOpen at hopen ⊢
    rw [(hf g).2.2.2.1, (hf g).2.2.2.2]
    exact hopen

/-! ## Bytes written into a window (R361) -/

theorem windowWriteByte_closed (hslot : slotGroup? s core slot = some (u, g)) (h : windowOpen u g = false) (o : Nat) (b : Byte) :
    windowWriteByte s core slot o b = s := by
  unfold windowWriteByte
  rw [hslot]
  dsimp only
  rw [if_pos (by simp [h])]

theorem windowWrite_closed (hslot : slotGroup? s core slot = some (u, g)) (h : windowOpen u g = false) (o : Nat) (bs : List Byte) :
    windowWrite s core slot o bs = s := by
  induction bs generalizing o with
  | nil => rfl
  | cons b bs ih =>
    rw [windowWrite, windowWriteByte_closed hslot h]
    exact ih _

theorem windowWriteByte_seated (hs : Seated s core slot u g) {o : Nat} (ho : o < 0x8900) (b : Byte) :
    windowWriteByte s core slot o b = s.modGrp u.key g.gid fun g => setGroupByte g o b := by
  unfold windowWriteByte
  rw [hs.slot]
  dsimp only
  rw [if_neg (by simp [hs.opened]), if_neg (by simp; omega)]

/-- A group after bytes have been written from an offset of its block on. -/
def writtenGroup (g : Group) (o : Nat) : List Byte → Group
  | [] => g
  | b :: bs => writtenGroup (setGroupByte g o b) (o + 1) bs

/-- Bytes written where each leaves the group in its seat. -/
theorem windowWrite_seated (hs : Seated s core slot u g) {o : Nat} {bs : List Byte} (ho : o + bs.length ≤ 0x8900)
    (hseat : ∀ i < bs.length, ∀ b, KeepsSeat fun g => setGroupByte g (o + i) b) :
    ∃ v, Seated (windowWrite s core slot o bs) core slot v (writtenGroup g o bs) ∧ v.key = u.key ∧ (writtenGroup g o bs).gid = g.gid
      ∧ SameMemory s (windowWrite s core slot o bs) := by
  induction bs generalizing s u g o with
  | nil => exact ⟨u, hs, rfl, rfl, sameMemory_refl s⟩
  | cons b bs ih =>
    rw [List.length_cons] at ho hseat
    have hfirst : KeepsSeat fun g => setGroupByte g o b := hseat 0 (by omega) b
    obtain ⟨v, hv, hkey, hgid, hmem⟩ := ih (hs.modGrp hfirst) (o := o + 1) (by omega) fun i hi b => by
      have := hseat (i + 1) (by omega) b
      rwa [show o + (i + 1) = o + 1 + i by omega] at this
    rw [windowWrite, windowWriteByte_seated hs (by omega), writtenGroup]
    exact ⟨v, hv, hkey, hgid.trans (hfirst g).2.1, fun sp hsp a => hmem sp hsp a⟩

/-! ## A register and EPC (R30, R361) -/

theorem setGroupByte_S (g : Group) {r i : Nat} (hr : r < 128) (hi : i < 4) (b : Byte) :
    setGroupByte g (0x8000 + 4 * r + i) b = g.setS r (maskByte (BitVec.allOnes 32) (g.getS r) i b) := by
  unfold setGroupByte
  dsimp only
  rw [if_neg (by omega), if_pos (by omega), show (0x8000 + 4 * r + i - 0x8000) / 4 = r by omega, show (0x8000 + 4 * r + i) % 4 = i by omega, maskByte,
    BitVec.and_allOnes]

theorem keepsSeat_setS {r i : Nat} (hr : r < 128) (hi : i < 4) (b : Byte) : KeepsSeat fun g => setGroupByte g (0x8000 + 4 * r + i) b := fun g => by
  dsimp only
  rw [setGroupByte_S g hr hi]
  exact ⟨rfl, rfl, rfl, rfl, rfl⟩

/-- Two groups that differ in one uniform register alone. -/
structure OnlyS (r : Nat) (g h : Group) : Prop where
  other : ∀ q, q ≠ r → h.getS q = g.getS q
  rest : h.v = g.v ∧ h.m = g.m ∧ h.p = g.p ∧ h.st = g.st ∧ h.ents = g.ents ∧ h.epc = g.epc

theorem getS_setS (g : Group) (r q : Nat) (w : Word) : (g.setS r w).getS q = if q = r then w else g.getS q := Sparse.get_set

theorem writtenGroup_S (g : Group) {r : Nat} (hr : r < 128) (i : Nat) (bs : List Byte) (hi : i + bs.length ≤ 4) :
    (writtenGroup g (0x8000 + 4 * r + i) bs).getS r = maskBytes (BitVec.allOnes 32) (g.getS r) i bs
      ∧ OnlyS r g (writtenGroup g (0x8000 + 4 * r + i) bs) := by
  induction bs generalizing g i with
  | nil => exact ⟨rfl, fun _ _ => rfl, rfl, rfl, rfl, rfl, rfl, rfl⟩
  | cons b bs ih =>
    rw [List.length_cons] at hi
    obtain ⟨hreg, honly⟩ := ih (g.setS r (maskByte (BitVec.allOnes 32) (g.getS r) i b)) (i + 1) (by omega)
    rw [writtenGroup, setGroupByte_S g hr (by omega), maskBytes]
    rw [getS_setS, if_pos rfl] at hreg
    exact ⟨hreg, fun q hq => (honly.other q hq).trans (by rw [getS_setS, if_neg hq]), honly.rest⟩

/-- What can stand in EPC. -/
def epcMask : DWord := 0x00FFFFFFFFFFFFFC

theorem setGroupByte_epc (g : Group) {i : Nat} (hi : i < 8) (b : Byte) :
    setGroupByte g (0x8618 + i) b = { g with epc := maskByte epcMask g.epc i b, cont := none } := by
  unfold setGroupByte
  dsimp only
  rw [if_neg (by omega), if_neg (by omega), if_neg (by omega), if_neg (by omega), if_neg (by simp; omega), if_neg (by simp; omega),
    if_neg (by simp; omega), if_pos (by simp; omega), show (0x8618 + i - 0x8600) / 8 = 3 by omega, show (0x8618 + i) % 8 = i by omega]
  rfl

theorem keepsSeat_epc {i : Nat} (hi : i < 8) (b : Byte) : KeepsSeat fun g => setGroupByte g (0x8618 + i) b := fun g => by
  dsimp only
  rw [setGroupByte_epc g hi]
  exact ⟨rfl, rfl, rfl, rfl, rfl⟩

theorem writtenGroup_epc (g : Group) (i : Nat) (bs : List Byte) (hi : i + bs.length ≤ 8) :
    (writtenGroup g (0x8618 + i) bs).epc = maskBytes epcMask g.epc i bs ∧ (writtenGroup g (0x8618 + i) bs).cause = g.cause
      ∧ (writtenGroup g (0x8618 + i) bs).s = g.s ∧ (writtenGroup g (0x8618 + i) bs).v = g.v := by
  induction bs generalizing g i with
  | nil => exact ⟨rfl, rfl, rfl, rfl⟩
  | cons b bs ih =>
    rw [List.length_cons] at hi
    have hrest := ih { g with epc := maskByte epcMask g.epc i b, cont := none } (i + 1) (by omega)
    rw [writtenGroup, setGroupByte_epc g (by omega), maskBytes]
    exact hrest

theorem Seated.becomes {v : Unit} (hs : Seated t core slot v h) (hkey : v.key = u.key) (hgid : h.gid = g.gid) : Becomes t u.key g h :=
  ⟨v, hkey ▸ hs.unit, hgid ▸ hs.grp⟩

theorem registerWrite_S (hs : Seated s core slot u g) {r : Nat} (hr : r < 128) (x : DWord) :
    ∃ t h, exec (.registerWrite core slot (0x8000 + 4 * r) 4 x) s = .next t ∧ SameMemory s t ∧ Becomes t u.key g h
      ∧ h.getS r = BitVec.ofNat 32 x.toNat ∧ OnlyS r g h := by
  obtain ⟨v, hv, hkey, hgid, hmem⟩ := windowWrite_seated hs (o := 0x8000 + 4 * r) (bs := bytesOfNat 4 x.toNat) (by rw [bytesOfNat_length]; omega)
    fun i hi b => keepsSeat_setS hr (by rwa [bytesOfNat_length] at hi) b
  obtain ⟨hreg, honly⟩ := writtenGroup_S g hr 0 (bytesOfNat 4 x.toNat) (by rw [bytesOfNat_length])
  rw [Nat.add_zero, maskBytes_all (n := 4) _ _ _ rfl, BitVec.and_allOnes] at hreg
  exact ⟨_, _, rfl, hmem, hv.becomes hkey hgid, hreg, honly⟩

theorem registerWrite_epc (hs : Seated s core slot u g) (x : DWord) :
    ∃ t h, exec (.registerWrite core slot 0x8618 8 x) s = .next t ∧ SameMemory s t ∧ Becomes t u.key g h
      ∧ h.epc = x &&& epcMask ∧ h.cause = g.cause ∧ h.s = g.s ∧ h.v = g.v := by
  obtain ⟨v, hv, hkey, hgid, hmem⟩ := windowWrite_seated hs (o := 0x8618) (bs := bytesOfNat 8 x.toNat) (by rw [bytesOfNat_length]; decide)
    fun i hi b => keepsSeat_epc (by rwa [bytesOfNat_length] at hi) b
  obtain ⟨hepc, hrest⟩ := writtenGroup_epc g 0 (bytesOfNat 8 x.toNat) (by rw [bytesOfNat_length])
  rw [Nat.add_zero, maskBytes_all (n := 8) _ _ _ rfl, BitVec.ofNat_toNat, BitVec.setWidth_eq] at hepc
  exact ⟨_, _, rfl, hmem, hv.becomes hkey hgid, hepc, hrest⟩

/-! ## Reports and records (R357, R361) -/

theorem coreReportAck_posted {n : Nat} (hwait : (s.core core).mwait = []) (hreports : (s.core core).reports = []) (hkind : mailKind (s.core core) n = 3) :
    exec (.coreReportAck core n) s = .next (s.setCore core (mailClear (s.core core) n)) := by
  show Host.Outcome.next (ackReport s core n) = _
  unfold ackReport
  dsimp only
  rw [if_pos hkind, mailPump, State.core_setCore]
  dsimp only
  rw [show (mailClear (s.core core) n).mwait = [] from hwait, show (mailClear (s.core core) n).reports = [] from hreports]

theorem coreReportAck_other {n : Nat} (hkind : mailKind (s.core core) n ≠ 3) : exec (.coreReportAck core n) s = .next s := by
  show Host.Outcome.next (ackReport s core n) = _
  unfold ackReport
  dsimp only
  rw [if_neg hkind]

theorem qfree_next {k : UKey} (hu : s.unit? k = some u) (mask : Nat) :
    ∃ t, exec (.qfree k mask) s = .next t ∧ SameMemory s t ∧ t.unit? k = some (freeRecords u mask) := by
  refine ⟨_, rfl, sameMemory_of_rd fun _ _ => rfl, ?_⟩
  rw [State.unit?_modUnit (fun u => freeRecords u mask) fun _ h => h, hu]
  rfl

theorem mem_freeRecords (u : Unit) (mask : Nat) (r : Nat × StoreFault) : r ∈ (freeRecords u mask).sfq ↔ r ∈ u.sfq ∧ mask.testBit r.1 = false := by
  simp [freeRecords, List.mem_filter]

end Sys2Proof.Machine
end

section
/-! PROOFS. Machine checks, the admission port, and the replacement of a supervisor (R362, R366, R411), and the supervisor's side together. -/

namespace Sys2Proof.Machine
open Sys2Proof.Claims

variable {s t r : State} {j k : UKey} {u v y : Unit} {core : Nat} {lost : List UKey} {c : Ctx} {P : UKey → Prop} {i : Instr}

/-! ## What the end of a unit leaves of the others -/

theorem mailPost_bank (c : Core) (bs : List Byte) : (mailPost c bs).bank = c.bank := by
  unfold mailPost
  split <;> rfl

theorem fatesStay_postNow (s : State) (u : Unit) (g : Group) : FatesStay P s (postNow s u g) := by
  unfold postNow
  dsimp only
  split
  · exact fatesStay_setCore _ _ _ (mailPost_bank ..)
  · exact fatesStay_setCore _ _ _ rfl

theorem fatesStay_mailPump (s : State) (n : Nat) : FatesStay P s (mailPump s n) := by
  unfold mailPump
  dsimp only
  split
  · split
    · exact .refl s
    · split
      · split
        · exact .last (fatesStay_postNow ..) (fatesStay_setCore _ _ _ rfl)
        · exact fatesStay_setCore _ _ _ rfl
      · exact fatesStay_setCore _ _ _ rfl
  · split
    · split
      · exact .refl s
      · exact fatesStay_setCore _ _ _ (mailPost_bank ..)
    · exact .refl s

theorem mailClears_bank (is : List Nat) (c : Core) : (is.foldl mailClear c).bank = c.bank := by
  induction is generalizing c with
  | nil => rfl
  | cons i is ih => exact ih _

theorem fatesStay_withdrawMail (s : State) (core : Nat) (slots : List Nat) : FatesStay P s (withdrawMail s core slots) :=
  .last (fatesStay_mailPump ..) (fatesStay_setCore _ _ _ (mailClears_bank ..))

theorem fatesStay_freePlanes (s : State) (core : Nat) : FatesStay P s (freePlanes s core) := by
  unfold freePlanes
  dsimp only
  split
  · exact .refl s
  · split
    · exact .refl s
    · exact fatesStay_setCore _ _ _ rfl

theorem fatesStay_endOwnership (s : State) (k : UKey) : FatesStay P s (endOwnership s k) := fatesStay_of_fields rfl rfl rfl

theorem fatesStay_stripped (s : State) (u : Unit) : FatesStay P s (stripped s u) :=
  .last (fatesStay_endOwnership ..) <| .last (fatesStay_withdrawMail ..) <| .last (.foldl (fun s (g : Group) => fatesStay_dropGroupWaits s u.ctx u.key g.gid) _ _) <|
    .last (fatesStay_dropGroupWaits ..) <| .last (fatesStay_orphan ..) <|
    .foldl (fun s (m : Nat × Cmd) => .last (fatesStay_dropCmd _ u.key m.1) (fatesStay_settlePermit s u.key u.core m.2)) _ _

/-- A state without the units of a key. -/
def State.withoutUnit (s : State) (k : UKey) : State := { s with units := s.units.filter fun x => x.key != k }

theorem fatesStay_withoutUnit (s : State) (j : UKey) : FatesStay (· = j) s (s.withoutUnit j) :=
  fatesStay_units s _ fun _ hk => by rw [find?_filter_ne hk]; rfl

theorem fatesStay_removeUnit (s : State) (u : Unit) : FatesStay (· = u.key) s (removeUnit s u) := by
  rw [removeUnit_eq]
  exact .last (fatesStay_freePlanes ..) <| .last (fatesStay_withoutUnit _ u.key) <| .last (fatesStay_stripped ..) <|
    (learnt_touches s u).fatesStay (by decide) (by decide) (by decide)

/-- The fields that the count of an ended unit may change. -/
def countParts : List Part := signalParts ++ [.launches, .front]

theorem touches_forgetLaunch (s : State) (fn lid : Nat) : Touches countParts s (forgetLaunch s fn lid) := by
  unfold forgetLaunch
  split
  · exact .refl ..
  · split
    · exact .refl ..
    · dsimp only
      split
      · exact .launches (by decide) ..
      · exact .last ((levelDown_stays ..).1.mono (by decide)) <| .last ((signalStep_stays ..).1.mono (by decide)) <| .launches (by decide) ..

theorem touches_countEnd (s : State) (k : UKey) (failed : Bool) : Touches countParts s (countEnd s k failed) := by
  cases hl : s.launch? k.fn k.lid with
  | none =>
    unfold countEnd
    rw [hl]
    exact .refl ..
  | some l =>
    by_cases hact : l.state = .active
    · rw [countEnd_active hl hact]
      split
      · obtain ⟨know, h⟩ := finishLaunch_completed (s.modLaunch k.fn k.lid fun _ => l.oneLess k failed) (l.oneLess k failed) (l.failed || failed)
        rw [h]
        exact .last (touches_forgetLaunch ..) <| .last ((closedState_touches ..).mono (by decide)) <| .launches (by decide) ..
      · exact .launches (by decide) ..
    · rw [countEnd_inactive hl hact]
      exact touches_forgetLaunch ..

/-- A unit ends as failed. -/
def unitLost (s : State) (u : Unit) : State := retireHistory (countEnd (removeUnit s u) u.key true) u.ctx

theorem touches_unitLost (s : State) (u : Unit) : Touches (.ctxs :: countParts) (removeUnit s u) (unitLost s u) :=
  .last ((retireHistory_touches ..).mono (by decide)) ((touches_countEnd ..).mono (by decide))

theorem fatesStay_unitLost (s : State) (u : Unit) : FatesStay (· = u.key) s (unitLost s u) :=
  .last ((touches_unitLost s u).fatesStay (by decide) (by decide) (by decide)) (fatesStay_removeUnit s u)

theorem unitLost_gone (s : State) (u : Unit) : (unitLost s u).unit? u.key = none :=
  (State.unit?_congr ((touches_unitLost s u).keeps .units (by decide)) u.key).trans (removeUnit_unit s u)

theorem unitLost_none (u : Unit) (h : s.unit? k = none) : (unitLost s u).unit? k = none := by
  by_cases hk : k = u.key
  · rw [hk]
    exact unitLost_gone s u
  · exact (fatesStay_unitLost s u).none hk h

theorem unitLost_agenda (s : State) (u : Unit) : (unitLost s u).agenda = s.agenda := by
  rw [(touches_unitLost s u).keeps .agenda (by decide), (leaves_removeUnit s u).touches.keeps .agenda (by decide), (learnt_touches s u).keeps .agenda (by decide)]

theorem unitLost_banks (s : State) (u : Unit) : (unitLost s u).banks = s.banks := by
  rw [(touches_unitLost s u).keeps .banks (by decide), (leaves_removeUnit s u).touches.keeps .banks (by decide), (learnt_touches s u).keeps .banks (by decide)]

/-! ## A machine check of one unit (R366) -/

/-- A unit that a machine check halts: an scall of it is issued again. -/
def Unit.checked (u : Unit) : Unit := { u with halted := true, grps := u.grps.map Group.checked }

/-- What a machine check does to one unit. -/
def checkUnit (lost : List UKey) (s : State) (u : Unit) : State :=
  if u.ending.isSome then s
  else if lost.contains u.key then unitLost s u
  else if u.unrestored then sendAway s u
  else vacate (s.modUnit u.key Unit.checked) u.key

theorem fatesStay_vacate (s : State) (j : UKey) : FatesStay (· = j) s (vacate s j) := .last (fatesStay_due ..) (fatesStay_modUnit_else s j _ fun _ => rfl)

theorem fatesStay_sendAway (s : State) (u : Unit) : FatesStay (· = u.key) s (sendAway s u) := by
  rcases sendAway_cases s u with h | h | h <;> rw [h]
  · exact .last (fatesStay_due ..) (fatesStay_of_fields rfl rfl rfl)
  · exact .refl s
  · exact fatesStay_vacate ..

theorem fatesStay_checkUnit (lost : List UKey) (s : State) (u : Unit) : FatesStay (· = u.key) s (checkUnit lost s u) :=
  .ite (.refl s) <| .ite (fatesStay_unitLost s u) <| .ite (fatesStay_sendAway s u) <|
    .last (fatesStay_vacate ..) (fatesStay_modUnit_else s u.key _ fun _ => rfl)

theorem checkUnit_banks (lost : List UKey) (s : State) (u : Unit) : (checkUnit lost s u).banks = s.banks := by
  unfold checkUnit
  split
  · rfl
  · split
    · exact unitLost_banks s u
    · split
      · exact (touches_sendAway s u).keeps .banks (by decide)
      · exact (touches_vacate ..).keeps .banks (by decide)

theorem mem_checkUnit (lost : List UKey) (u : Unit) (h : i ∈ s.agenda) (hi : ∀ j c, i ≠ .unitRestore j c) : i ∈ (checkUnit lost s u).agenda := by
  unfold checkUnit
  split
  · exact h
  · split
    · rwa [unitLost_agenda]
    · split
      · exact mem_sendAway h hi u
      · exact State.mem_due (s := (s.modUnit u.key Unit.checked).modUnit u.key Unit.goes) _ h

theorem mem_of_mem_checkUnit (h : i ∈ (checkUnit lost s u).agenda) : i ∈ s.agenda ∨ i = .unitVacate u.key := by
  unfold checkUnit at h
  split at h
  · exact .inl h
  · split at h
    · rw [unitLost_agenda] at h
      exact .inl h
    · split at h
      · exact mem_of_mem_sendAway h
      · exact mem_of_mem_due (s := (s.modUnit u.key Unit.checked).modUnit u.key Unit.goes) h

theorem checkUnit_none (lost : List UKey) (u : Unit) (h : s.unit? k = none) : (checkUnit lost s u).unit? k = none := by
  by_cases hk : k = u.key
  · subst hk
    unfold checkUnit
    split
    · exact h
    · split
      · exact unitLost_gone s u
      · split
        · rcases unit?_sendAway s u u.key with hs | hs <;> rw [hs, h]
          rfl
        · rw [unit?_vacate_same, State.unit?_modUnit Unit.checked fun _ h => h, h]
          rfl
  · exact (fatesStay_checkUnit lost s u).none hk h

/-- A unit that a machine check halts: it leaves its core, and its step is due. -/
def HaltedOut (k : UKey) (s : State) : Prop :=
  (∃ v, s.unit? k = some v ∧ v.halted = true ∧ v.vacating = true) ∧ .unitVacate k ∈ s.agenda

theorem found_checkUnit (hk : k ∉ lost) (h : ∃ v, s.unit? k = some v) (u : Unit) : ∃ v, (checkUnit lost s u).unit? k = some v := by
  obtain ⟨v, hv⟩ := h
  by_cases hku : k = u.key
  · subst hku
    unfold checkUnit
    rw [if_neg (c := lost.contains u.key = true) (by simpa using hk)]
    split
    · exact ⟨v, hv⟩
    · split
      · rcases unit?_sendAway s u u.key with hs | hs <;> rw [hs, hv]
        · exact ⟨v, rfl⟩
        · exact ⟨v.goes, rfl⟩
      · rw [unit?_vacate_same, State.unit?_modUnit Unit.checked fun _ h => h, hv]
        exact ⟨v.checked.goes, rfl⟩
  · obtain ⟨w, hw, -⟩ := (fatesStay_checkUnit lost s u).found hku hv
    exact ⟨w, hw⟩

theorem haltedOut_checkUnit (hk : k ∉ lost) (h : HaltedOut k s) (u : Unit) : HaltedOut k (checkUnit lost s u) := by
  obtain ⟨⟨v, hv, hhalt, hvac⟩, hdue⟩ := h
  refine ⟨?_, mem_checkUnit lost u hdue (by simp)⟩
  by_cases hku : k = u.key
  · subst hku
    unfold checkUnit
    rw [if_neg (c := lost.contains u.key = true) (by simpa using hk)]
    split
    · exact ⟨v, hv, hhalt, hvac⟩
    · split
      · rcases unit?_sendAway s u u.key with hs | hs <;> rw [hs, hv]
        · exact ⟨v, rfl, hhalt, hvac⟩
        · exact ⟨v.goes, rfl, hhalt, rfl⟩
      · rw [unit?_vacate_same, State.unit?_modUnit Unit.checked fun _ h => h, hv]
        exact ⟨v.checked.goes, rfl, rfl, rfl⟩
  · obtain ⟨w, hw, hfate⟩ := (fatesStay_checkUnit lost s u).found hku hv
    simp only [Unit.fate, Prod.mk.injEq] at hfate
    exact ⟨w, hw, hfate.1.trans hhalt, hfate.2.1.trans hvac⟩

theorem haltedOut_checkUnit_self (hend : u.ending = none) (hk : u.key ∉ lost) (hrest : u.unrestored = false) (h : ∃ v, s.unit? u.key = some v) :
    HaltedOut u.key (checkUnit lost s u) := by
  obtain ⟨v, hv⟩ := h
  unfold checkUnit
  rw [if_neg (by simp [hend]), if_neg (by simpa using hk), if_neg (by simp [hrest])]
  refine ⟨⟨v.checked.goes, ?_, rfl, rfl⟩, State.mem_due_self ..⟩
  rw [unit?_vacate_same, State.unit?_modUnit Unit.checked fun _ h => h, hv]
  rfl

theorem sentBack_checkUnit (h : SentBack s k) (u : Unit) : SentBack (checkUnit lost s u) k := by
  refine ⟨mem_checkUnit lost u h.1 (by simp), fun c hc => ?_⟩
  rcases mem_of_mem_checkUnit hc with hc | hc
  · exact h.2 c hc
  · cases hc

theorem sentBack_checkUnit_self (s : State) (hend : u.ending = none) (hk : u.key ∉ lost) (hrest : u.unrestored = true) :
    SentBack (checkUnit lost s u) u.key := by
  unfold checkUnit
  rw [if_neg (by simp [hend]), if_neg (by simpa using hk), if_pos hrest]
  exact sentBack_sendAway s hrest

/-! ## The machine check (R366) -/

/-- The units of a core after its machine check. -/
def unitsChecked (s : State) (core : Nat) (lost : List UKey) : State := (userUnits s core).foldl (checkUnit lost) (withdrawMail s core (List.range 63))

/-- The mailbox and the port of a core, emptied. -/
def Core.emptied (c : Core) : Core := { c with mbox := [], mpos := 0, morder := [], mwait := [], hold := [], port := [], portBusy := false }

theorem machineCheck_shape (s : State) (core : Nat) (lost : List UKey) : ∃ (gone : List Nat) (fs : List Nat), machineCheck s core lost =
    placeSuper ((notice ((unitsChecked s core lost).modDie (dieOf core) fun d => { d with mchecks := d.mchecks + 1, sramU := d.sramU + gone.length }) 0 opMcheck
      fs).modCore core Core.emptied) core := ⟨_, _, rfl⟩

theorem touches_notice_told (s : State) (fn op : Nat) (fs : List Nat) : Touches [.host, .marks, .badCrc, .relMem, .funcs] s (notice s fn op fs) :=
  (recorded_sendRecord ..).touches (by decide)

theorem fatesStay_unitsChecked (s : State) (core : Nat) (lost : List UKey) : FatesStay (fun _ => True) s (unitsChecked s core lost) := by
  refine .last (.foldl (fun s u => ?_) _ _) (fatesStay_withdrawMail ..)
  have h := fatesStay_checkUnit lost s u
  exact ⟨fun _ hk => absurd trivial hk, h.bank, h.mchecks⟩

theorem unitsChecked_banks (s : State) (core : Nat) (lost : List UKey) : (unitsChecked s core lost).banks = s.banks :=
  foldl_keeps (I := fun t => t.banks = s.banks) (fun t u _ h => (checkUnit_banks lost t u).trans h)
    ((leaves_withdrawMail s core (List.range 63)).touches.keeps .banks (by decide))

/-- What follows the units of a machine check leaves them and what is due alone. -/
theorem machineCheck_facts (s : State) (core : Nat) (lost : List UKey) : let t := machineCheck s core lost
    t.unit? (superKey core) = some (superUnit (s.superImage core) core) ∧ (t.core core).mbox = [] ∧ (t.core core).morder = []
      ∧ (t.die (core / 64)).mchecks = (s.die (core / 64)).mchecks + 1 ∧ t.agenda = (unitsChecked s core lost).agenda
      ∧ ∀ k, k ≠ superKey core → t.unit? k = (unitsChecked s core lost).unit? k := by
  intro t
  obtain ⟨gone, fs, hshape⟩ := machineCheck_shape s core lost
  obtain ⟨a, ha⟩ : ∃ a, (unitsChecked s core lost).modDie (dieOf core) (fun d => { d with mchecks := d.mchecks + 1, sramU := d.sramU + gone.length }) = a := ⟨_, rfl⟩
  obtain ⟨b, hb⟩ : ∃ b, notice a 0 opMcheck fs = b := ⟨_, rfl⟩
  have ht : t = placeSuper (b.modCore core Core.emptied) core := by
    rw [← hb, ← ha]
    exact hshape
  have htouch : Touches [.host, .marks, .badCrc, .relMem, .funcs] a b := hb ▸ touches_notice_told ..
  have hfates := fatesStay_unitsChecked s core lost
  have hcore : ∀ n, b.core n = (unitsChecked s core lost).core n := fun n => by
    rw [State.core_congr (htouch.keeps .cores (by decide)), ← ha]
    rfl
  have hbank : ((b.modCore core Core.emptied).core core).bank = (s.core core).bank := by
    rw [State.core_modCore]
    show (b.core core).bank = _
    rw [hcore, hfates.bank]
  have hbanks : b.banks = s.banks := by
    rw [htouch.keeps .banks (by decide), ← ha]
    exact unitsChecked_banks s core lost
  have himage : (b.modCore core Core.emptied).superImage core = s.superImage core := by
    unfold State.superImage State.bank
    rw [hbank, show (b.modCore core Core.emptied).banks = s.banks from hbanks]
  rw [ht]
  refine ⟨by rw [placeSuper_unit, himage], ?_, ?_, ?_, ?_, fun k hk => ?_⟩
  · show ((b.modCore core Core.emptied).core core).mbox = []
    rw [State.core_modCore]
    rfl
  · show ((b.modCore core Core.emptied).core core).morder = []
    rw [State.core_modCore]
    rfl
  · show (b.die (core / 64)).mchecks = _
    rw [State.die_congr (htouch.keeps .dies (by decide)), ← ha, show core / 64 = dieOf core from rfl, State.die_modDie]
    exact congrArg (· + 1) (hfates.mchecks (dieOf core))
  · show b.agenda = _
    rw [htouch.keeps .agenda (by decide), ← ha]
    rfl
  · rw [placeSuper_unit_ne _ hk]
    show b.unit? k = _
    rw [State.unit?_congr (htouch.keeps .units (by decide)), ← ha]
    rfl

theorem mem_userUnits (hu : u ∈ s.units) (hcore : u.core = core) (hsuper : isSuper u.key = false) : u ∈ userUnits s core :=
  List.mem_filter.2 ⟨hu, by simp [hcore, hsuper]⟩

theorem ne_superKey (hsuper : isSuper u.key = false) (core : Nat) : u.key ≠ superKey core := fun h => by
  rw [h] at hsuper
  exact absurd hsuper (by simp [isSuper, superKey])

theorem withdrawMail_found (hu : s.unit? k = some u) (core : Nat) (slots : List Nat) : ∃ v, (withdrawMail s core slots).unit? k = some v := by
  obtain ⟨v, hv, -⟩ := (fatesStay_withdrawMail (P := fun _ => False) s core slots).found (fun h => h) hu
  exact ⟨v, hv⟩

theorem unitsChecked_lost (hu : u ∈ userUnits s core) (hend : u.ending = none) (hlost : u.key ∈ lost) : (unitsChecked s core lost).unit? u.key = none :=
  foldl_reaches (I := fun _ => True) (J := fun s => s.unit? u.key = none) hu (fun _ _ _ h => h) (fun _ y _ h => checkUnit_none lost y h)
    (fun s _ => by
      unfold checkUnit
      rw [if_neg (by simp [hend]), if_pos (by simpa using hlost)]
      exact unitLost_gone s u) trivial

theorem unitsChecked_halted (hu : u ∈ userUnits s core) (hunit : s.unit? u.key = some u) (hend : u.ending = none) (hlost : u.key ∉ lost)
    (hrest : u.unrestored = false) : HaltedOut u.key (unitsChecked s core lost) :=
  foldl_reaches (I := fun s => ∃ v, s.unit? u.key = some v) (J := HaltedOut u.key) hu (fun _ y _ h => found_checkUnit hlost h y)
    (fun _ y _ h => haltedOut_checkUnit hlost h y) (fun _ h => haltedOut_checkUnit_self hend hlost hrest h) (withdrawMail_found hunit _ _)

theorem unitsChecked_sentBack (hu : u ∈ userUnits s core) (hend : u.ending = none) (hlost : u.key ∉ lost) (hrest : u.unrestored = true) :
    SentBack (unitsChecked s core lost) u.key :=
  foldl_reaches (I := fun _ => True) (J := fun s => SentBack s u.key) hu (fun _ _ _ h => h) (fun _ y _ h => sentBack_checkUnit h y)
    (fun s _ => sentBack_checkUnit_self s hend hlost hrest) trivial

/-! ## The admission port (R254, R362) -/

/-- A core whose admission port is asked. -/
def Core.asked (k : Core) : Core := { k with portBusy := true, port := putBytes (putBytes k.port 32 8 0) 40 8 0 }

/-- The wait that an admission port stands for. -/
def portWait (core n : Nat) : AdmWait :=
  { u := superKey core, gid := 0, pc := BitVec.ofNat 64 (nameOff n), lane := 0, kind := nameKind n, gen := nameGen n, res := 0, inc := 0, slot := 0,
    extent := 0, estat := 0, detail := 0 }

theorem admissionPortGo_eq (hbusy : (s.core core).portBusy = false) (hc : servicedCtx s core = some c) :
    exec (.admissionPortGo core) s = match slotKind false (getBytes (s.core core).port 0 16) with
      | .null => .next (portResult (s.modCore core Core.asked) core 0 0 0 0)
      | .loc _ | .bad => .next (portResult (s.modCore core Core.asked) core 0 C.NAMEFMT 0 0)
      | .name n => match askName c n with
        | .fail code detail => .next (portResult (s.modCore core Core.asked) core 0 code 0 detail)
        | .have slot r => .next (portAnswer (s.modCore core Core.asked) core { portWait core n with res := 1, inc := r.inc, slot := slot, extent := r.extent })
        | .join => .next (joinAdmission (s.modCore core Core.asked) c.id (nameKey n) (portWait core n)) := by
  show execAdmissionPortGo core s = _
  unfold execAdmissionPortGo
  rw [if_neg (by simp [hbusy]), hc]
  dsimp only
  -- the kind and the answer become variables, whose comparison does not unfold them
  obtain ⟨kind, hkind⟩ : ∃ kind, slotKind false (getBytes (s.core core).port 0 16) = kind := ⟨_, rfl⟩
  rw [hkind]
  cases kind with
  | null => rfl
  | loc x => rfl
  | bad => rfl
  | name n =>
    dsimp only
    obtain ⟨ask, hask⟩ : ∃ ask, askName c n = ask := ⟨_, rfl⟩
    rw [hask]
    cases ask <;> rfl

/-- What a port that is answered holds. -/
theorem portResult_port (s : State) (core res : Nat) : SameMemory s (portResult s core res 0 0 0) ∧ ((portResult s core res 0 0 0).core core).portBusy = false
    ∧ getBytes ((portResult s core res 0 0 0).core core).port 32 8 = res % 2 ^ 64 ∧ getBytes ((portResult s core res 0 0 0).core core).port 40 8 = 2 ^ 63 := by
  have hcore : (portResult s core res 0 0 0).core core =
      { s.core core with portBusy := false, port := putBytes (putBytes (s.core core).port 32 8 res) 40 8 (2 ^ 63 + 0 % 2 ^ 32 * 2 ^ 16 + 0 * 2 ^ 8 + 0) } :=
    State.core_modCore ..
  rw [hcore]
  refine ⟨sameMemory_of_rd fun _ _ => rfl, rfl, ?_, ?_⟩
  · exact (getBytes_putBytes_apart (by decide)).trans (getBytes_putBytes_same ..)
  · exact (getBytes_putBytes_same ..).trans (by decide)

theorem portAnswer_have (s : State) (core slot : Nat) {n : Nat} {r : Res} (hext : nameOff n ≤ r.extent) :
    portAnswer s core { portWait core n with res := 1, inc := r.inc, slot := slot, extent := r.extent }
      = portResult s core (mkPtr r.inc slot (nameOff n)) 0 0 0 := by
  have hoff : (BitVec.ofNat 64 (nameOff n)).toNat = nameOff n := by
    rw [BitVec.toNat_ofNat, Nat.mod_eq_of_lt]
    exact Nat.lt_trans (Nat.mod_lt _ (by decide)) (by decide)
  unfold portAnswer portWait
  dsimp only
  rw [hoff, if_pos rfl, if_neg (Nat.not_lt.2 hext)]

theorem joinAdmission_new {key : Nat} {w : AdmWait} (hc : s.ctx? c.id = some c) (hnew : (c.adms.all fun a => a.key != key) = true) :
    ∃ t : State, joinAdmission s c.id key w = t.due (.admission c.id key) ∧ t.cores = s.cores ∧ ∀ sp a, t.rd sp a = s.rd sp a := by
  have hnone : (c.adms.find? fun a => a.key == key && a.active) = none := List.find?_eq_none.2 fun a ha => by
    have := List.all_eq_true.1 hnew a ha
    simp at this
    simp [this]
  unfold joinAdmission
  rw [hc]
  dsimp only
  rw [hnone]
  exact ⟨_, rfl, rfl, fun _ _ => rfl⟩

/-! ## The replacement of a supervisor (R411) -/

theorem switchEnd_facts (s : State) : (switchEnd s).units = s.units ∧ (switchEnd s).cores = s.cores := by
  unfold switchEnd
  split
  · exact ⟨rfl, rfl⟩
  · split
    · next fn tag chan _ _ =>
      have h := touches_reply { s with active := switchBank s, switching := none } { fn := fn, tag := tag, chan := chan, frame := mkFrame tag chan 0x15 [] } rOK 0
      exact ⟨h.keeps .units (by decide), h.keeps .cores (by decide)⟩
    · exact ⟨rfl, rfl⟩

/-- A core with the firmware of another bank. -/
def Core.fromBank (n : Nat) (c : Core) : Core := { c with bank := n }

theorem supervisorReplace_next (h : replaceable s core = true) : ∃ t, exec (.supervisorReplace core) s = .next t
    ∧ t.unit? (superKey core) = some (superUnit (s.bank (1 - s.active)).image core) ∧ (t.core core).bank = 1 - s.active := by
  obtain ⟨a, ha⟩ : ∃ a, s.modCore core (Core.fromBank (1 - s.active)) = a := ⟨_, rfl⟩
  obtain ⟨hunits, hcores⟩ := switchEnd_facts (placeSuper a core)
  have hcore : a.core core = (s.core core).fromBank (1 - s.active) := by
    rw [← ha, State.core_modCore]
  have hbanks : a.banks = s.banks := ha ▸ rfl
  have hexec : exec (.supervisorReplace core) s = .next (switchEnd (placeSuper a core)) := by
    rw [← ha]
    exact congrArg Host.Outcome.next (if_pos h)
  refine ⟨_, hexec, ?_, ?_⟩
  · rw [State.unit?_congr hunits, placeSuper_unit, State.superImage, hcore, State.bank, hbanks]
    rfl
  · rw [State.core_congr hcores]
    show (a.core core).bank = _
    rw [hcore]
    rfl

end Sys2Proof.Machine
end

section
open Sys2Proof Sys2Proof.Machine Sys2Proof.Claims

/-- Settles O49: a machine check by what each of its units comes to, a write into a halt window byte by byte, the others by their equations. -/
theorem supervisorSteps : Obligations.SupervisorSteps := by
  unfold Obligations.SupervisorSteps
  intro s core
  refine ⟨fun lost => ?_, fun n _ hwait hreports => ⟨fun hkind => ?_, coreReportAck_other⟩, fun k u mask hu => ?_, fun slot u g x hslot hunit hgrp =>
    ⟨fun hclosed off n => ?_, fun hopen => ⟨fun r hr => ?_, ?_⟩⟩, fun c hbusy hc => ?_, supervisorReplace_next, fun h => ?_⟩
  · obtain ⟨hsuper, hmbox, hmorder, hchecks, hagenda, hunits⟩ := machineCheck_facts s core lost
    refine ⟨_, rfl, hsuper, hmbox, hmorder, hchecks, fun u hu hunit hcore hnot hend => ?_⟩
    have hmem := mem_userUnits hu hcore hnot
    rw [hunits _ (ne_superKey hnot core)]
    refine ⟨fun hlost => unitsChecked_lost hmem hend hlost, fun hlost hrest => ?_, fun hlost hrest => ?_⟩
    · obtain ⟨⟨v, hv, hhalt, hvac⟩, hdue⟩ := unitsChecked_halted hmem hunit hend hlost hrest
      exact ⟨v, hv, hhalt, hvac, hagenda ▸ hdue⟩
    · rw [SentBack, hagenda]
      exact unitsChecked_sentBack hmem hend hlost hrest
  · refine ⟨_, coreReportAck_posted hwait hreports hkind, sameMemory_of_rd fun _ _ => rfl, ?_, ?_⟩
    · rw [State.core_setCore]
      exact mailClear_head ..
    · rw [State.core_setCore]
      rfl
  · obtain ⟨t, ht, hmem, hu'⟩ := qfree_next hu mask
    exact ⟨t, _, ht, hmem, hu', rfl, mem_freeRecords u mask⟩
  · exact congrArg Host.Outcome.next (windowWrite_closed hslot hclosed ..)
  · obtain ⟨t, h, ht, hmem, hbecomes, hreg, honly⟩ := registerWrite_S ⟨hslot, hunit, hgrp, hopen⟩ hr x
    exact ⟨t, h, ht, hmem, hbecomes, hreg, honly.other, honly.rest⟩
  · exact registerWrite_epc ⟨hslot, hunit, hgrp, hopen⟩ x
  · have hexec := admissionPortGo_eq hbusy hc
    intro name
    refine ⟨fun hnull => ?_, fun n slot r hname hask hext => ?_, fun n hname hask hctx hnew => ?_⟩
    · obtain ⟨hmem, hfree, hres, hstat⟩ := portResult_port (s.modCore core Core.asked) core 0
      rw [show slotKind false (getBytes (s.core core).port 0 16) = .null from hnull] at hexec
      exact ⟨_, hexec, fun sp hsp a => hmem sp hsp a, hfree, hres, hstat⟩
    · obtain ⟨hmem, hfree, hres, hstat⟩ := portResult_port (s.modCore core Core.asked) core (mkPtr r.inc slot (nameOff n))
      rw [show slotKind false (getBytes (s.core core).port 0 16) = .name n from hname] at hexec
      dsimp only at hexec
      rw [hask] at hexec
      dsimp only at hexec
      rw [portAnswer_have _ _ _ hext] at hexec
      exact ⟨_, hexec, fun sp hsp a => hmem sp hsp a, hfree, hres, hstat⟩
    · obtain ⟨t, ht, hcores, hrd⟩ := joinAdmission_new (s := s.modCore core Core.asked) (w := portWait core n) hctx hnew
      rw [show slotKind false (getBytes (s.core core).port 0 16) = .name n from hname] at hexec
      dsimp only at hexec
      rw [hask] at hexec
      dsimp only at hexec
      rw [ht] at hexec
      have hdue : Touches [.agenda] t (t.due (.admission c.id (nameKey n))) := .due (by decide) ..
      refine ⟨_, hexec, sameMemory_of_rd fun sp a => ?_, ?_, State.mem_due_self ..⟩
      · rw [hdue.rd (by decide) (by decide) (by decide) (by decide), hrd]
        rfl
      · rw [State.core_congr (hdue.keeps .cores (by decide)), State.core_congr hcores, State.core_modCore]
        rfl
  · exact congrArg Host.Outcome.next (if_neg (by simp [h]))

end

section
/-! PROOFS. The watchdog of a launch, and the units that it takes off their cores (R234, R339, R345, R346). -/

namespace Sys2Proof.Machine
open Sys2Proof.Claims

variable {s t : State} {k : UKey} {u : Unit} {l m : Launch} {v : Vac} {fn lid : Nat}

/-! ## A unit that is not restored goes back -/

/-- `unplace_eq`, with the entry of the resume list. -/
theorem unplace_entry (s : State) (u : Unit) (l : Launch) : ∃ v : Vac, v.idx = u.key.idx ∧ v.save = u.save ∧ unplace s u l =
    retireHistory (freePlanes (((dropGroupWaits (uiSaved s u l) u.ctx u.key restoreGid).offCore u).modLaunch l.fn l.lid (Launch.resumed v)) u.core) u.ctx := by
  refine ⟨_, ?_, ?_, rfl⟩
  · rfl
  · rfl

theorem launches_retired (s : State) (core ctx : Nat) : (retireHistory (freePlanes s core) ctx).launches = s.launches :=
  ((retireHistory_touches ..).keeps .launches (by decide)).trans ((leaves_freePlanes ..).touches.keeps .launches (by decide))

/-- The launch has an entry for the unit at the end of its resume list. -/
theorem launch?_unplace (hm : s.launch? l.fn l.lid = some m) (u : Unit) : ∃ v : Vac, v.idx = u.key.idx ∧ v.save = u.save
    ∧ (unplace s u l).launch? l.fn l.lid = some (m.resumed v) := by
  obtain ⟨v, hidx, hsave, heq⟩ := unplace_entry s u l
  refine ⟨v, hidx, hsave, ?_⟩
  have hsaved : (uiSaved s u l).launches = s.launches := ((memOnly_uiSaved s u l).touches (ps := memoryParts) (by decide)).keeps .launches (by decide)
  rw [heq, State.launch?_congr (launches_retired ..), State.launch?_modLaunch _ _ _ (Launch.resumed v) fun _ => ⟨rfl, rfl⟩,
    State.launch?_congr (show ((dropGroupWaits (uiSaved s u l) u.ctx u.key restoreGid).offCore u).launches = s.launches from hsaved), hm]
  rfl

theorem unit?_unplace (s : State) (u : Unit) (l : Launch) : (unplace s u l).unit? u.key = none := by
  rw [State.unit?, unplace_units]
  exact List.find?_eq_none.2 fun x hx => by simpa using (List.mem_filter.1 hx).2

theorem launch?_unplaceAll (hm : s.launch? l.fn l.lid = some m) : ∃ m', (unplaceAll s l).launch? l.fn l.lid = some m' :=
  foldl_keeps (I := fun s => ∃ m', s.launch? l.fn l.lid = some m') (fun s u _ ⟨m, hm⟩ => by
    obtain ⟨v, -, -, hv⟩ := launch?_unplace hm u
    exact ⟨_, hv⟩) ⟨m, hm⟩

/-! ## A launch whose units are still on their cores stands when it is cancelled -/

theorem launch?_cancelSaved (s : State) (l : Launch) (v : Vac) : (cancelSaved s l v).launches = s.launches := by
  unfold cancelSaved
  split
  · rfl
  · refine Touches.keeps (ps := .outReqs :: memoryParts) (.last (.foldl (fun s n => ?_) _ _) (.outReqs (by decide) s _)) .launches (by decide)
    dsimp only
    have hw : ∀ (s : State) (c : Ctx) va n v, Touches (.outReqs :: memoryParts) s (sysWrite s c va n v) := fun s c va n v =>
      (memOnly_sysWrite s c va n v).touches (by decide)
    split
    · exact .ite (.last (hw ..) <| .last (hw ..) <| hw ..) (.refl _ s)
    · exact .refl _ s

theorem forgetLaunch_held (hm : s.launch? fn lid = some m) (hu : u ∈ unitsOf s m) : forgetLaunch s fn lid = s := by
  have hne : (unitsOf s m).isEmpty = false := by simpa using List.ne_nil_of_mem hu
  unfold forgetLaunch
  rw [hm]
  dsimp only
  rw [if_pos (by simp [hne])]

theorem launch?_finishLaunch (hm : s.launch? l.fn l.lid = some m) (hu : u ∈ unitsOf s l) :
    (finishLaunch s l .cancelled true).launch? l.fn l.lid = some (m.cancelledAs l.knownAtEnd) := by
  obtain ⟨x, hx⟩ : ∃ x, l.resume.foldl (fun s v => cancelSaved s l v) s = x := ⟨_, rfl⟩
  have hlaunches : x.launches = s.launches := hx ▸ foldl_keeps (I := fun t => t.launches = s.launches) (fun t v _ ht => (launch?_cancelSaved t l v).trans ht) rfl
  have hunits : x.units = s.units := hx ▸ foldl_keeps (I := fun t => t.units = s.units) (fun t v _ ht => (cancelSaved_units t l v).trans ht) rfl
  rw [finishLaunch_cancelled, hx]
  have hkept : (((x.modLaunch l.fn l.lid (Launch.cancelledAs l.knownAtEnd)).offFront l).modFunc l.fn
      fun f => { f with history := ((l.lid, true) :: f.history).take 4096 }).launch? l.fn l.lid = some (m.cancelledAs l.knownAtEnd) := by
    refine (State.launch?_congr rfl _ _).trans ((State.launch?_modLaunch x _ _ (Launch.cancelledAs l.knownAtEnd) fun _ => ⟨rfl, rfl⟩).trans ?_)
    rw [State.launch?_congr hlaunches, hm]
    rfl
  obtain ⟨hfn, hlid⟩ := State.launch?_spec hm
  rw [forgetLaunch_held (u := u) hkept ?_]
  · exact hkept
  · rw [unitsOf] at hu ⊢
    show u ∈ x.units.filter _
    rw [hunits]
    simpa [Launch.cancelledAs, hfn, hlid] using hu

/-! ## What a unit's doom leaves alike -/

/-- The fields that change where units are told to halt for good. -/
def doomParts : List Part := .agenda :: leavingParts ++ memoryParts

theorem touches_stopSibling (s : State) (k : UKey) (gid src : Nat) : Touches doomParts s (stopSibling s k gid src) := by
  rcases stopSibling_cases s k gid src with h | ⟨h, -, hmem⟩
  · rw [h]
    exact .refl ..
  · exact .last (hmem.touches (by decide)) (touches_modUnit (by decide) ..)

theorem touches_haltSibling (s : State) (k : UKey) (src : Nat) (g : Group) : Touches doomParts s (haltSibling s k src g) :=
  .ite (.refl ..) <| .ite (.last (touches_stopSibling ..) (touches_modUnit (by decide) ..)) (.last (.due (by decide) ..) (touches_modUnit (by decide) ..))

theorem touches_cancelCmds (s : State) (k : UKey) : Touches doomParts s (cancelCmds s k) := by
  have hsub : leavingParts ⊆ doomParts := by decide
  unfold cancelCmds
  split
  · exact .refl ..
  · refine .last (.foldl (fun s m => ?_) _ _) ((leaves_orphan ..).touches.mono hsub)
    split
    · refine .last ((leaves_dropCmd ..).touches.mono hsub) ?_
      exact .ite ((leaves_settlePermit ..).touches.mono hsub) (.refl ..)
    · split
      · exact .refl ..
      · exact .last (touches_modUnit (by decide) ..) (touches_modUnit (by decide) ..)

theorem touches_doomUnit (s : State) (k : UKey) (x : Trap) : Touches doomParts s (doomUnit s k x) := by
  unfold doomUnit
  split
  · exact .refl ..
  · refine .last (.foldl (fun s g => ?_) _ _) <| .last (touches_cancelCmds ..) (touches_modUnit (by decide) ..)
    split
    · exact touches_haltSibling ..
    · exact .due (by decide) ..
    · exact touches_stopSibling ..

/-! ## The watchdog -/

theorem memOnly_recordVacated (s : State) (l : Launch) (v : Vac) : MemOnly s (recordVacated s l v) := by
  unfold recordVacated
  split
  · exact .refl s
  · exact foldl_keeps (I := fun t => MemOnly s t) (fun _ _ _ h => h.trans (memOnly_sysWriteBytes ..)) (.refl s)

theorem memOnly_recordsVacated (s : State) (l : Launch) (vs : List Vac) : MemOnly s (vs.foldl (fun s v => recordVacated s l v) s) :=
  foldl_keeps (I := fun t => MemOnly s t) (fun _ _ _ h => h.trans (memOnly_recordVacated ..)) (.refl s)

/-- The launch as the watchdog's step reads it again, and the state with the records of its vacated units. -/
def State.barked (s : State) (l m : Launch) : State := m.resume.foldl (fun s v => recordVacated s m v) (unplaceAll s l)

theorem watchdog_waits (hl : s.launch? fn lid = some l) (hactive : l.state = .active) (h : l.held = true ∨ s.owner ≠ some fn) :
    exec (.watchdog fn lid) s = .next (s.due (.watchdog fn lid)) := by
  show execWatchdog fn lid s = _
  unfold execWatchdog
  rw [hl]
  dsimp only
  rw [if_neg (by simp [hactive]), if_pos (by simpa using h)]

theorem watchdog_bites (hl : s.launch? l.fn l.lid = some l) (hactive : l.state = .active) (hheld : l.held = false) (howner : s.owner = some l.fn) :
    ∃ m, (unplaceAll s l).launch? l.fn l.lid = some m ∧ m.fn = l.fn ∧ m.lid = l.lid ∧ exec (.watchdog l.fn l.lid) s =
      .next ((unitsOf (unplaceAll s l) m).foldl (fun s u => doomUnit s u.key { code := C.WATCHDOG }) (finishLaunch (s.barked l m) m .cancelled true)) := by
  obtain ⟨m, hm⟩ := launch?_unplaceAll hl
  obtain ⟨hfn, hlid⟩ := State.launch?_spec hm
  refine ⟨m, hm, hfn, hlid, ?_⟩
  show execWatchdog l.fn l.lid s = _
  unfold execWatchdog
  rw [hl]
  dsimp only
  rw [if_neg (by simp [hactive]), if_neg (by simp [hheld, howner]), hm]
  rfl

theorem barked_units (s : State) (l m : Launch) : (s.barked l m).units = (unplaceAll s l).units :=
  ((memOnly_recordsVacated ..).touches (ps := memoryParts) (by decide)).keeps .units (by decide)

theorem barked_launches (s : State) (l m : Launch) : (s.barked l m).launches = (unplaceAll s l).launches :=
  ((memOnly_recordsVacated ..).touches (ps := memoryParts) (by decide)).keeps .launches (by decide)

/-- A unit that is not restored is gone once the watchdog of its launch has run out. -/
theorem watchdog_gone (hu : u ∈ unitsOf s l) (hrest : u.unrestored = true) (m : Launch) (us : List Unit) (x : Trap) :
    (us.foldl (fun s u => doomUnit s u.key x) (finishLaunch (s.barked l m) m .cancelled true)).unit? u.key = none :=
  gone_all us ((State.unit?_congr ((finishLaunch_units ..).trans (barked_units s l m)) u.key).trans (unplaceAll_gone hu hrest)) x

/-- A unit that is restored is told to halt, and its launch stands as cancelled. -/
theorem watchdog_dooms (hm : (unplaceAll s l).launch? m.fn m.lid = some m) (hname : m.fn = l.fn ∧ m.lid = l.lid) (hu : u ∈ unitsOf s l)
    (hrest : ∀ y ∈ unitsOf s l, y.key = u.key → y.unrestored = false) (x : Trap) :
    Doomed u.key (causeWord x) ((unitsOf (unplaceAll s l) m).foldl (fun s u => doomUnit s u.key x) (finishLaunch (s.barked l m) m .cancelled true))
      ∧ ((unitsOf (unplaceAll s l) m).foldl (fun s u => doomUnit s u.key x) (finishLaunch (s.barked l m) m .cancelled true)).launch? m.fn m.lid
        = some (m.cancelledAs m.knownAtEnd) := by
  obtain ⟨v, hv, -⟩ := unit?_of_mem_unitsOf hu
  have hkept : (unplaceAll s l).unit? u.key = some v := (unplaceAll_kept hrest).trans hv
  obtain ⟨w, hw, hwkey⟩ := mem_unitsOf_of_unit? (l := m) hkept ⟨(unitsOf_key hu).1.trans hname.1.symm, (unitsOf_key hu).2.trans hname.2.symm⟩
  have hunits := (finishLaunch_units (s.barked l m) m).trans (barked_units s l m)
  refine ⟨?_, ?_⟩
  · rw [← hwkey]
    exact doomed_all hw ⟨v, hwkey ▸ (State.unit?_congr hunits u.key).trans hkept⟩ x
  · have hfold := Touches.foldl (fun s (u : Unit) => touches_doomUnit s u.key x) (unitsOf (unplaceAll s l) m) (finishLaunch (s.barked l m) m .cancelled true)
    rw [State.launch?_congr (hfold.keeps .launches (by decide))]
    refine launch?_finishLaunch (u := w) ((State.launch?_congr (barked_launches s l m) _ _).trans hm) ?_
    rw [unitsOf, barked_units]
    exact hw

end Sys2Proof.Machine
end

section
/-! PROOFS. Units that are placed on a core: a fresh one, and one that was vacated (R19, R23, R25, R342 to R346). -/

namespace Sys2Proof.Machine
open Sys2Proof.Claims

variable {s t : State} {k : UKey} {u : Unit} {l m : Launch} {v : Vac} {c : Ctx} {core fn lid n : Nat}

/-! ## The lowest place (R343, R368) -/

/-- Whether a size fits at a place among held runs. -/
def fitsAt (held : List (Nat × Nat)) (size limit o : Nat) : Bool := o + size ≤ limit && held.all fun h => o + size ≤ h.1 || h.1 + h.2 ≤ o

/-- The lower of a place and one that fits. -/
def lower (held : List (Nat × Nat)) (size limit : Nat) (b : Option Nat) (o : Nat) : Option Nat :=
  if fitsAt held size limit o && (match b with | some x => o < x | none => true) then some o else b

theorem lowestFit_eq (held : List (Nat × Nat)) (size limit : Nat) :
    lowestFit held size limit = (0 :: held.map fun h => h.1 + h.2).foldl (lower held size limit) none := rfl

theorem isSome_lower (held : List (Nat × Nat)) (size limit : Nat) (b : Option Nat) (o : Nat) :
    (lower held size limit b o).isSome = (b.isSome || fitsAt held size limit o) := by
  unfold lower
  cases b with
  | none => cases h : fitsAt held size limit o <;> simp
  | some x =>
    dsimp only
    split <;> rfl

theorem isSome_foldl_lower (held : List (Nat × Nat)) (size limit : Nat) (os : List Nat) (b : Option Nat) :
    (os.foldl (lower held size limit) b).isSome = (b.isSome || os.any (fitsAt held size limit)) := by
  induction os generalizing b with
  | nil => simp
  | cons o os ih => rw [List.foldl_cons, ih, isSome_lower, List.any_cons, Bool.or_assoc]

theorem fitsAt_iff {held : List (Nat × Nat)} {size limit o : Nat} :
    fitsAt held size limit o = true ↔ o + size ≤ limit ∧ ∀ h ∈ held, o + size ≤ h.1 ∨ h.1 + h.2 ≤ o := by
  simp [fitsAt]

/-- Where a size fits at all, it fits at 0 or where a run ends: at the highest of these not above. -/
theorem fits_at_end {held : List (Nat × Nat)} {size limit o : Nat} (h : fitsAt held size limit o = true) :
    ∃ e ∈ 0 :: held.map (fun h => h.1 + h.2), fitsAt held size limit e = true := by
  obtain ⟨hlimit, hapart⟩ := fitsAt_iff.1 h
  obtain ⟨e, he, hmax⟩ : ∃ e ∈ 0 :: held.map (fun h => h.1 + h.2), e ≤ o ∧ ∀ x ∈ held, x.1 + x.2 ≤ o → x.1 + x.2 ≤ e := by
    clear h hlimit hapart
    induction held with
    | nil => exact ⟨0, by simp, by omega, by simp⟩
    | cons y ys ih =>
      obtain ⟨e, he, hle, hmax⟩ := ih
      by_cases hy : y.1 + y.2 ≤ o ∧ e < y.1 + y.2
      · refine ⟨y.1 + y.2, by simp, hy.1, fun x hx hxo => ?_⟩
        rcases List.mem_cons.1 hx with rfl | hx
        · exact Nat.le_refl _
        · exact Nat.le_of_lt (Nat.lt_of_le_of_lt (hmax x hx hxo) hy.2)
      · refine ⟨e, ?_, hle, fun x hx hxo => ?_⟩
        · rcases List.mem_cons.1 he with rfl | he
          · simp
          · exact List.mem_cons_of_mem _ (List.mem_cons_of_mem _ he)
        · rcases List.mem_cons.1 hx with rfl | hx
          · omega
          · exact hmax x hx hxo
  refine ⟨e, he, fitsAt_iff.2 ⟨by omega, fun x hx => ?_⟩⟩
  rcases hapart x hx with hx' | hx'
  · exact .inl (by omega)
  · exact .inr (hmax.2 x hx hx')

/-- A size that fits among runs fits among fewer of them. -/
theorem lowestFit_isSome_mono {held held' : List (Nat × Nat)} {size limit : Nat} (hsub : ∀ x ∈ held', x ∈ held)
    (h : (lowestFit held size limit).isSome = true) : (lowestFit held' size limit).isSome = true := by
  rw [lowestFit_eq, isSome_foldl_lower, Option.isSome_none, Bool.false_or] at h ⊢
  obtain ⟨o, -, ho⟩ := List.any_eq_true.1 h
  obtain ⟨hlimit, hapart⟩ := fitsAt_iff.1 ho
  obtain ⟨e, he, hfits⟩ := fits_at_end (fitsAt_iff.2 ⟨hlimit, fun x hx => hapart x (hsub x hx)⟩ : fitsAt held' size limit o = true)
  exact List.any_eq_true.2 ⟨e, he, hfits⟩

/-! ## A ticket is taken (R342) -/

/-- A ticket takes nothing but the fresh indices. -/
theorem ticket_takes {die i : Nat} (h : l.ticket die = some (i, m)) : ∃ r w e, m = { l with ranges := r, wake := w, early := e } := by
  unfold Launch.ticket at h
  split at h
  · cases h
    exact ⟨_, _, _, rfl⟩
  · dsimp only at h
    split at h
    · cases h
      exact ⟨_, _, _, rfl⟩
    · split at h
      · exact nomatch h
      · cases h
        exact ⟨_, _, _, rfl⟩

/-- A state in which every launch of a name is one and the same. -/
def State.withLaunch (s : State) (l : Launch) : State := s.modLaunch l.fn l.lid fun _ => l

theorem launch?_withLaunch_other (s : State) {l : Launch} {a b : Nat} (h : ¬ (a = l.fn ∧ b = l.lid)) : (s.withLaunch l).launch? a b = s.launch? a b :=
  find?_map_other (fun x : Launch => x.fn == l.fn && x.lid == l.lid) (fun x : Launch => x.fn == a && x.lid == b) (fun _ => l) (fun x hx => by
    obtain ⟨hfn, hlid⟩ : x.fn = l.fn ∧ x.lid = l.lid := by simpa using hx
    have hno : (l.fn == a && l.lid == b) = false := by
      simp only [Bool.and_eq_false_iff, beq_eq_false_iff_ne]
      by_cases hfn' : l.fn = a
      · exact .inr fun hlid' => h ⟨hfn'.symm, hlid'.symm⟩
      · exact .inl hfn'
    exact ⟨by rwa [hfn, hlid], hno⟩) s.launches

theorem launch?_withLaunch (hl : s.launch? m.fn m.lid = some l) : (s.withLaunch m).launch? m.fn m.lid = some m := State.launch?_setLaunch hl ⟨rfl, rfl⟩

/-- No save slot is held that was not before. -/
theorem heldSaves_withLaunch (hl : s.launch? m.fn m.lid = some l) (himage : m.image = l.image) (hresume : m.resume = l.resume) (hrecord : m.record = l.record)
    (hctx : m.ctx = l.ctx) : ∀ x ∈ heldSaves (s.withLaunch m) n, x ∈ heldSaves s n := by
  have himages : ∀ u, imageOf (launchOf (s.withLaunch m) u) = imageOf (launchOf s u) := fun u => by
    by_cases hu : u.key.fn = m.fn ∧ u.key.lid = m.lid
    · rw [launchOf, launchOf, hu.1, hu.2, launch?_withLaunch hl, hl]
      exact himage
    · rw [launchOf, launch?_withLaunch_other s hu, launchOf]
  intro x hx
  rw [heldSaves_eq] at hx ⊢
  rcases List.mem_append.1 hx with hx | hx
  · refine List.mem_append_left _ ?_
    simp only [himages] at hx
    exact hx
  · refine List.mem_append_right _ ?_
    obtain ⟨y, hy, hxy⟩ := List.mem_flatMap.1 hx
    obtain ⟨hy, hyctx⟩ := List.mem_filter.1 hy
    obtain ⟨z, hz, rfl⟩ := List.mem_map.1 (show y ∈ s.launches.map _ from hy)
    split at hxy
    · next hname =>
      rw [if_pos hname, hctx] at hyctx
      rw [hresume, hrecord] at hxy
      exact List.mem_flatMap.2 ⟨l, List.mem_filter.2 ⟨List.mem_of_find?_eq_some hl, hyctx⟩, hxy⟩
    · next hname =>
      rw [if_neg hname] at hyctx
      exact List.mem_flatMap.2 ⟨z, List.mem_filter.2 ⟨hz, hyctx⟩, hxy⟩

theorem saveFit_withLaunch (hl : s.launch? m.fn m.lid = some l) (himage : m.image = l.image) (hresume : m.resume = l.resume) (hrecord : m.record = l.record)
    (hctx : m.ctx = l.ctx) (h : (saveFit s l).isSome = true) : ∃ o, saveFit (s.withLaunch m) m = some o := by
  refine Option.isSome_iff_exists.1 ?_
  unfold saveFit at h ⊢
  rw [hctx, State.ctx?_congr (show (s.withLaunch m).ctxs = s.ctxs from rfl)]
  cases hc : s.ctx? l.ctx with
  | none => rw [hc] at h; exact nomatch h
  | some c =>
    rw [hc] at h
    dsimp only at h ⊢
    rw [himage]
    exact lowestFit_isSome_mono (heldSaves_withLaunch hl himage hresume hrecord hctx) h

/-! ## What placing changes -/

theorem touches_clearVault (s : State) (lo hi : Nat) : Touches memoryParts s (clearVault s lo hi) := by
  refine ⟨fun p hp => ?_⟩
  cases p
  case vaults | marks | badCrc | relMem => exact absurd (by decide) hp
  all_goals rfl

theorem memOnly_epWrite (s : State) (l : Launch) (off n v : Nat) : MemOnly s (epWrite s l off n v) := by
  unfold epWrite
  split
  · exact memOnly_sysWrite ..
  · exact .refl s

theorem memOnly_payWrite (s : State) (l : Launch) (v x : Nat) : MemOnly s (payWrite s l v x) := by
  unfold payWrite
  split
  · exact memOnly_sysWrite ..
  · exact .refl s

/-- A unit with other interrupt state. -/
def Unit.withUi (i : IntState) (u : Unit) : Unit := { u with ui := i }

/-- A unit joined by what its endpoint block holds. -/
def Unit.flushed (l : Launch) (items : List (Nat × Nat × Nat)) (u : Unit) : Unit := u.withUi (items.foldl (fun i (v, n, p) => i.raise l v n p) u.ui)

/-- What the endpoint block of a launch holds, by pending vector: its count and its payload. -/
def pendingItems (s : State) (l : Launch) : List (Nat × Nat × Nat) :=
  ((List.range 64).filter fun v => (epRead s l 32 8).testBit v).map fun v => (v, epRead s l (128 + 2 * v) 2, payRead s l v)

theorem flushBlock_cases (s : State) (l : Launch) : flushBlock s l = s
    ∨ MemOnly ((unitsOf s l).foldl (fun t u => t.modUnit u.key (Unit.flushed l (pendingItems s l))) s) (flushBlock s l) := by
  unfold flushBlock
  dsimp only
  split
  · exact .inl rfl
  · refine .inr ?_
    exact foldl_keeps (I := fun t => MemOnly _ t) (fun t v _ h => (h.trans (memOnly_epWrite ..)).trans (memOnly_payWrite ..)) (memOnly_epWrite ..)

theorem flushBlock_unbound (h : l.bound = false) : flushBlock s l = s := by
  unfold flushBlock
  dsimp only
  rw [if_pos (by simp [h])]

theorem touches_flushBlock (s : State) (l : Launch) : Touches (.units :: memoryParts) s (flushBlock s l) := by
  rcases flushBlock_cases s l with h | h
  · rw [h]
    exact .refl ..
  · exact .last (h.touches (by decide)) (.foldl (fun s u => touches_modUnit (by decide) ..) _ _)

/-- A unit that differs in its interrupt state alone. -/
def FoundBut (k : UKey) (u : Unit) (s : State) : Prop := ∃ i, s.unit? k = some (u.withUi i)

theorem foundBut_flush (h : FoundBut k u s) (j : UKey) (items : List (Nat × Nat × Nat)) : FoundBut k u (s.modUnit j (Unit.flushed l items)) := by
  obtain ⟨i, hi⟩ := h
  by_cases hj : k = j
  · subst hj
    exact ⟨_, by rw [State.unit?_modUnit (Unit.flushed l items) fun _ h => h, hi]; rfl⟩
  · exact ⟨i, (State.unit?_modUnit_ne (Unit.flushed l items) (fun _ h => h) hj).trans hi⟩

theorem unit?_flushBlock (h : s.unit? k = some u) (l : Launch) : FoundBut k u (flushBlock s l) := by
  have hu : FoundBut k u s := ⟨u.ui, h⟩
  rcases flushBlock_cases s l with heq | hmem
  · rw [heq]
    exact hu
  · obtain ⟨i, hi⟩ := foldl_keeps (I := FoundBut k u) (f := fun t x => t.modUnit x.key (Unit.flushed l (pendingItems s l)))
      (xs := unitsOf s l) (fun t x _ ht => foundBut_flush ht x.key _) hu
    exact ⟨i, (State.unit?_congr ((hmem.touches (ps := memoryParts) (by decide)).keeps .units (by decide)) k).trans hi⟩

theorem touches_takePlanes (s : State) (core : Nat) (l : Launch) : Touches [.cores] s (takePlanes s core l) := by
  unfold takePlanes
  exact .ite (.refl ..) (touches_modCore (by decide) ..)

/-- A unit is found once it stands behind units of other keys. -/
theorem unit?_appended (h : s.unit? u.key = none) : (s.units ++ [u]).find? (fun x => x.key == u.key) = some u := by
  rw [List.find?_append, show s.units.find? (fun x => x.key == u.key) = none from h, Option.none_or, List.find?_singleton, if_pos (by simp)]

/-! ## A fresh unit -/

/-- The unit of a fresh ticket with its groups. -/
def freshUnit (s : State) (core : Nat) (l : Launch) (idx vault save : Nat) : Unit :=
  { newUnit l idx core vault save with grps := (nextSlots (usedSlots s core) l.g).zipIdx.map fun (x, gid) => startGroup l gid x }

/-- The vault of a unit as it starts. -/
def vaultReady (s : State) (core : Nat) (l : Launch) (v : Nat) : State :=
  (clearVault s (vaultKey (vaultNo core) v) (vaultKey (vaultNo core) v + l.b + l.c)).wrBytes 3 (vaultKey (vaultNo core) v)
    (((s.sections.find? fun x => x.1 == (l.ctx, l.entry)).map (·.2.take l.b)).getD [])

theorem startUnit_eq {v sv idx : Nat} (hv : vaultFit s core (l.b + l.c) = some v) (hs : saveFit s l = some sv) : startUnit s core l idx =
    flushBlock (takePlanes { vaultReady s core l v with units := (vaultReady s core l v).units ++ [freshUnit s core l idx v sv] } core l) l := by
  unfold startUnit
  rw [hv, hs]
  rfl

theorem vaultReady_units (s : State) (core : Nat) (l : Launch) (v : Nat) : (vaultReady s core l v).units = s.units :=
  (Touches.last ((memOnly_wrBytes ..).touches (by decide)) (touches_clearVault ..)).keeps .units (by decide)

theorem freshUnit_gids (s : State) (core : Nat) (l : Launch) (idx v sv : Nat) :
    (freshUnit s core l idx v sv).grps.map (·.gid) = List.range (nextSlots (usedSlots s core) l.g).length := by
  unfold freshUnit
  rw [List.map_map, show ((fun g : Group => g.gid) ∘ fun x : Nat × Nat => startGroup l x.2 x.1) = Prod.snd from rfl, List.zipIdx_map_snd, List.range_eq_range']

theorem freshUnit_ents {idx v sv : Nat} {g : Group} (hg : g ∈ (freshUnit s core l idx v sv).grps) :
    g.ents = [Entry.new (BitVec.ofNat 64 l.entry) 128 (BitVec.allOnes 32)] := by
  obtain ⟨x, -, rfl⟩ := List.mem_map.1 hg
  rfl

end Sys2Proof.Machine
end

section
/-! PROOFS. What cores are served, first tickets, and units that yield or make room (R233, R335, R342 to R346). -/

namespace Sys2Proof.Machine
open Sys2Proof.Claims

variable {s t : State} {k : UKey} {u old : Unit} {l m : Launch} {v : Vac} {c : Ctx} {core fn lid n a : Nat}

/-! ## A vacated unit is placed (R25, R346) -/

/-- The image that a vacated unit is placed from. -/
def placedRd (s : State) (l : Launch) (v : Vac) : Rd := match s.ctx? l.ctx with | some c => imageRd s c v.save | none => fun _ _ => 0

/-- The unit that a vacated unit stood as, where it is known. -/
def placedUnit (s : State) (core : Nat) (v : Vac) (a : Nat) (old : Unit) : Unit :=
  let live := old.grps.filter (·.live)
  { old with core := core, vault := a, save := v.save,
             grps := (live.zip (nextSlots (usedSlots s core) live.length)).map fun (g, x) => { g with slot := x },
             cmds := old.cmds.map fun m => (m.1, { m.2 with pins := [] }), vacating := true, unrestored := true }

/-- A launch whose vacated unit of an index has been placed. -/
def Launch.placedBack (idx : Nat) (l : Launch) : Launch := { l with resume := l.resume.filter (·.idx != idx) }

/-- The state in which a unit stands on its core, without its planes. -/
def State.seated (s : State) (core : Nat) (l : Launch) (v : Vac) (a : Nat) (u : Unit) : State :=
  let x := clearVault s (vaultKey (vaultNo core) a) (vaultKey (vaultNo core) a + l.b + l.c)
  let y := (takePlanes { x with units := x.units ++ [u] } core l).modLaunch l.fn l.lid (Launch.placedBack v.idx)
  { y with front := y.front.filter (· != (l.fn, l.lid, v.idx)) }

theorem placeVacated_eq (ha : vaultFit s core (l.b + l.c) = some a) : ∃ u : Unit,
    (∀ old, v.unit = some old → u.key = old.key ∧ u.core = core ∧ u.vault = a ∧ u.vacating = true ∧ u.unrestored = true)
    ∧ placeVacated s core l v = (if (s.core core).holder.isNone && l.a != 0 then loadPlanes (s.seated core l v a u) (placedRd s l v) l core
        else s.seated core l v a u).due (.unitRestore u.key core) := by
  cases hold : v.unit with
  | none =>
    refine ⟨placedUnit s core v a { newUnit l v.idx core a v.save with
      grps := (List.range l.g).map fun n => adoptedGroup l ((placedRd s l v).gidOf l.g n) }, by simp, ?_⟩
    unfold placeVacated
    rw [ha]
    dsimp only
    rw [hold]
    rfl
  | some old =>
    refine ⟨placedUnit s core v a old, fun old' hold' => ?_, ?_⟩
    · cases hold'
      exact ⟨rfl, rfl, rfl, rfl, rfl⟩
    · unfold placeVacated
      rw [ha]
      dsimp only
      rw [hold]
      rfl

theorem seated_units (s : State) (core : Nat) (l : Launch) (v : Vac) (a : Nat) (u : Unit) : (s.seated core l v a u).units = s.units ++ [u] :=
  Touches.keeps (touches_takePlanes ..) .units (by decide)

theorem seated_launch (hl : s.launch? l.fn l.lid = some m) (core : Nat) (v : Vac) (a : Nat) (u : Unit) :
    (s.seated core l v a u).launch? l.fn l.lid = some (m.placedBack v.idx) := by
  obtain ⟨x, hx⟩ : ∃ x, clearVault s (vaultKey (vaultNo core) a) (vaultKey (vaultNo core) a + l.b + l.c) = x := ⟨_, rfl⟩
  have hlaunches : x.launches = s.launches := hx ▸ rfl
  have hplanes : (takePlanes { x with units := x.units ++ [u] } core l).launches = s.launches :=
    (Touches.keeps (touches_takePlanes ..) .launches (by decide)).trans hlaunches
  refine (State.launch?_congr ?_ _ _).trans ((State.launch?_modLaunch (takePlanes { x with units := x.units ++ [u] } core l) _ _
    (Launch.placedBack v.idx) fun _ => ⟨rfl, rfl⟩).trans ?_)
  · rw [State.seated, hx]
  · rw [State.launch?_congr hplanes, hl]
    rfl

theorem takePlanes_holder (s : State) (core : Nat) (h : l.a ≠ 0) : ((takePlanes s core l).core core).holder = some (l.fn, l.lid) := by
  rw [takePlanes, if_neg h, State.core_modCore]

theorem seated_core (s : State) (core : Nat) (v : Vac) (a : Nat) (u : Unit) (ha : l.a ≠ 0) :
    ((s.seated core l v a u).core core).holder = some (l.fn, l.lid) := by
  exact (congrArg Core.holder (State.core_congr (t := s.seated core l v a u) (s := takePlanes _ core l) rfl core)).trans (takePlanes_holder _ core ha)

/-- A core with the planes of an image. -/
def Core.withPlanes (words : Sparse Word) (tags : Sparse Tag) (c : Core) : Core := { c with plane := words, planet := tags, planeq := tags }

theorem Core.plane_withPlanes (words : Sparse Word) (tags : Sparse Tag) (c : Core) :
    (c.withPlanes words tags).plane = words ∧ (c.withPlanes words tags).holder = c.holder := ⟨rfl, rfl⟩

theorem loadPlanes_eq (s : State) (rd : Rd) (l : Launch) (core : Nat) :
    ∃ tags, loadPlanes s rd l core = s.modCore core (Core.withPlanes (rd.words l.imgPlanes (4 * planeWords)) tags) := ⟨_, rfl⟩

theorem touches_loadPlanes (s : State) (rd : Rd) (l : Launch) (core : Nat) : Touches [.cores] s (loadPlanes s rd l core) := by
  obtain ⟨tags, h⟩ := loadPlanes_eq s rd l core
  rw [h]
  exact touches_modCore (by decide) ..

/-- A word of an image's table. -/
theorem Rd.get_words (rd : Rd) {off n w : Nat} (h : w < n) : Sparse.get 0 (rd.words off n) w = BitVec.ofNat 32 (rd (off + 4 * w) 4) := by
  rw [Rd.words, Sparse.get_setList, if_pos (Nat.zero_le w), Nat.sub_zero, List.getElem?_map, List.getElem?_range h]
  rfl

theorem placeVacated_facts (hl : s.launch? l.fn l.lid = some l) (ha : vaultFit s core (l.b + l.c) = some a) : ∃ u : Unit,
    (∀ old, v.unit = some old → u.key = old.key ∧ u.core = core ∧ u.vault = a ∧ u.vacating = true ∧ u.unrestored = true)
    ∧ .unitRestore u.key core ∈ (placeVacated s core l v).agenda
    ∧ (placeVacated s core l v).units = s.units ++ [u]
    ∧ (placeVacated s core l v).launch? l.fn l.lid = some (l.placedBack v.idx)
    ∧ (l.a ≠ 0 → (s.core core).holder = none → ((placeVacated s core l v).core core).holder = some (l.fn, l.lid)
      ∧ ∀ w < 4 * planeWords, Sparse.get 0 ((placeVacated s core l v).core core).plane w = BitVec.ofNat 32 (placedRd s l v (l.imgPlanes + 4 * w) 4)) := by
  obtain ⟨u, hu, heq⟩ := placeVacated_eq (v := v) ha
  obtain ⟨x, hx⟩ : ∃ x, s.seated core l v a u = x := ⟨_, rfl⟩
  have hunits : x.units = s.units ++ [u] := hx ▸ seated_units ..
  have hlaunch : x.launch? l.fn l.lid = some (l.placedBack v.idx) := hx ▸ seated_launch hl ..
  have hholder : l.a ≠ 0 → (x.core core).holder = some (l.fn, l.lid) := fun h => hx ▸ seated_core s core v a u h
  obtain ⟨y, hy⟩ : ∃ y, (if (s.core core).holder.isNone && l.a != 0 then loadPlanes x (placedRd s l v) l core else x) = y := ⟨_, rfl⟩
  have hxy : Touches [.cores] x y := hy ▸ .ite (touches_loadPlanes ..) (.refl ..)
  rw [hx, hy] at heq
  have hdue : Touches [.agenda] y (placeVacated s core l v) := heq ▸ .due (by decide) ..
  refine ⟨u, hu, heq ▸ State.mem_due_self .., (hdue.keeps .units (by decide)).trans ((hxy.keeps .units (by decide)).trans hunits),
    (State.launch?_congr ((hdue.keeps .launches (by decide)).trans (hxy.keeps .launches (by decide))) _ _).trans hlaunch, fun hla hfree => ?_⟩
  rw [State.core_congr (hdue.keeps .cores (by decide)), ← hy, if_pos (by simp [hfree, hla])]
  obtain ⟨tags, htags⟩ := loadPlanes_eq x (placedRd s l v) l core
  rw [htags, State.core_modCore]
  obtain ⟨hplane, hkept⟩ := Core.plane_withPlanes ((placedRd s l v).words l.imgPlanes (4 * planeWords)) tags (x.core core)
  rw [hplane, hkept]
  exact ⟨hholder hla, fun w hw => Rd.get_words _ hw⟩

/-! ## A core asks for work -/

theorem workRequest_eq (h : ∀ u ∈ userUnits s core, buildable s u = none) : exec (.workRequest core) s = match serve s core with
    | none => .next s
    | some (.restore fn lid v) => match s.launch? fn lid with | none => .next s | some l => .next (placeVacated s core l v)
    | some (.fresh fn lid) => match s.launch? fn lid with
      | none => .next s
      | some l =>
        if l.state = .ready then .next (s.due (.firstTicket fn lid))
        else match l.ticket (dieOf core) with
          | none => .next s
          | some (i, l) => .next (startUnit (s.modLaunch fn lid fun _ => l) core l i) := by
  show execWorkRequest core s = _
  unfold execWorkRequest
  have hnone : ((userUnits s core).any fun u => (buildable s u).isSome) = false := by
    rw [List.any_eq_false]
    intro u hu
    simp [h u hu]
  rw [hnone, if_neg (by decide)] <;> rfl

theorem workRequest_ready (h : ∀ u ∈ userUnits s core, buildable s u = none) (hl : s.launch? l.fn l.lid = some l)
    (hserve : serve s core = some (.fresh l.fn l.lid)) (hready : l.state = .ready) :
    exec (.workRequest core) s = .next (s.due (.firstTicket l.fn l.lid)) := by
  rw [workRequest_eq h, hserve]
  dsimp only
  rw [hl]
  dsimp only
  rw [if_pos hready]

theorem workRequest_restore (h : ∀ u ∈ userUnits s core, buildable s u = none) (hl : s.launch? l.fn l.lid = some l)
    (hserve : serve s core = some (.restore l.fn l.lid v)) : exec (.workRequest core) s = .next (placeVacated s core l v) := by
  rw [workRequest_eq h, hserve]
  dsimp only
  rw [hl]

theorem workRequest_fresh {i : Nat} (h : ∀ u ∈ userUnits s core, buildable s u = none) (hl : s.launch? l.fn l.lid = some l)
    (hserve : serve s core = some (.fresh l.fn l.lid)) (hactive : l.state = .active) (hticket : l.ticket (core / 64) = some (i, m)) :
    exec (.workRequest core) s = .next (startUnit (s.modLaunch l.fn l.lid fun _ => m) core m i) := by
  rw [workRequest_eq h, hserve]
  dsimp only
  rw [hl]
  dsimp only
  rw [if_neg (by simp [hactive]), show l.ticket (dieOf core) = some (i, m) from hticket]

/-- A fresh unit stands on the core that asked, at the place its vault fits. -/
theorem workRequest_places {i : Nat} (h : ∀ u ∈ userUnits s core, buildable s u = none) (hl : s.launch? l.fn l.lid = some l)
    (hserve : serve s core = some (.fresh l.fn l.lid)) (hactive : l.state = .active) (hticket : l.ticket (core / 64) = some (i, m))
    (ha : vaultFit s core (l.b + l.c) = some a) (hsave : (saveFit s l).isSome = true)
    (hnew : s.unit? { fn := l.fn, lid := l.lid, idx := i } = none) : ∃ t sv ui, exec (.workRequest core) s = .next t
      ∧ t.unit? { fn := l.fn, lid := l.lid, idx := i } = some ((freshUnit s core l i a sv).withUi ui) := by
  obtain ⟨r, w, e, hm⟩ := ticket_takes hticket
  have hfn : m.fn = l.fn := hm ▸ rfl
  have hlid : m.lid = l.lid := hm ▸ rfl
  have hx : s.modLaunch l.fn l.lid (fun _ => m) = s.withLaunch m := by rw [State.withLaunch, hfn, hlid]
  obtain ⟨sv, hsv⟩ := saveFit_withLaunch (m := m) (hfn ▸ hlid ▸ hl) (hm ▸ rfl) (hm ▸ rfl) (hm ▸ rfl) (hm ▸ rfl) hsave
  have hv : vaultFit (s.withLaunch m) core (m.b + m.c) = some a := by
    rw [hm]
    exact ha
  rw [workRequest_fresh h hl hserve hactive hticket, hx, startUnit_eq hv hsv]
  have hunit : freshUnit (s.withLaunch m) core m i a sv = freshUnit s core l i a sv := by
    rw [hm]
    rfl
  rw [hunit]
  obtain ⟨x, hready⟩ : ∃ x, vaultReady (s.withLaunch m) core m a = x := ⟨_, rfl⟩
  have hunits : x.units = s.units := hready ▸ vaultReady_units ..
  rw [hready]
  have hfound : (takePlanes { x with units := x.units ++ [freshUnit s core l i a sv] } core m).unit? { fn := l.fn, lid := l.lid, idx := i }
      = some (freshUnit s core l i a sv) := by
    rw [State.unit?, (touches_takePlanes ..).keeps .units (by decide), hunits]
    exact unit?_appended (u := freshUnit s core l i a sv) hnew
  obtain ⟨ui, hui⟩ := unit?_flushBlock hfound m
  exact ⟨_, sv, ui, rfl, hui⟩

/-! ## The first ticket (R335, R339, R342) -/

/-- A launch as its first ticket makes it active. -/
def Launch.activated (pre : List Word) (l : Launch) : Launch := { l with state := .active, pre := pre, ranges := startRanges l.n }

theorem bindEndpoint_none (h : l.endpoint = 0) : bindEndpoint s l = some l := by
  unfold bindEndpoint
  rw [if_pos h]

theorem firstTicket_facts {pre : List Word} (hl : s.launch? l.fn l.lid = some l) (hready : l.state = .ready) (hheld : l.held = false) (h0 : l.endpoint = 0)
    (hpre : readArgs s l = some pre) : ∃ t, exec (.firstTicket l.fn l.lid) s = .next t ∧ SameMemory s t
      ∧ t.launch? l.fn l.lid = some (l.activated pre) := by
  obtain ⟨x, hx⟩ : ∃ x, s.modLaunch l.fn l.lid (fun _ => l.activated pre) = x := ⟨_, rfl⟩
  have hlaunch : x.launch? l.fn l.lid = some (l.activated pre) := hx ▸ State.launch?_setLaunch hl ⟨rfl, rfl⟩
  obtain ⟨y, hy⟩ : ∃ y, (if l.localptr then x.modCtx l.ctx fun c => { c with localptr := true } else x) = y := ⟨_, rfl⟩
  have hxy : Touches [.ctxs] x y := hy ▸ .ite (.ctxs (by decide) ..) (.refl ..)
  obtain ⟨z, hz⟩ : ∃ z, (if l.budget = 0 then y else y.due (.watchdog l.fn l.lid)) = z := ⟨_, rfl⟩
  have hyz : Touches [.agenda] y z := hz ▸ .ite (.refl ..) (.due (by decide) ..)
  refine ⟨z, ?_, sameMemory_of_rd fun sp n => ?_, ?_⟩
  · show execFirstTicket l.fn l.lid s = _
    unfold execFirstTicket
    rw [hl]
    dsimp only
    rw [if_neg (by simp [hready, hheld]), bindEndpoint_none h0]
    dsimp only
    rw [hpre]
    dsimp only
    rw [show s.modLaunch l.fn l.lid (fun _ => { l with state := .active, pre := pre, ranges := startRanges l.n }) = x from hx, hy, hz]
  · rw [hyz.rd (by decide) (by decide) (by decide) (by decide), hxy.rd (by decide) (by decide) (by decide) (by decide), ← hx]
    rfl
  · rw [State.launch?_congr (hyz.keeps .launches (by decide)), State.launch?_congr (hxy.keeps .launches (by decide)), hlaunch]

/-! ## Cores that yield or are taken (R233, R344) -/

/-- A launch that has taken a core more. -/
def Launch.takes (core : Nat) (l : Launch) : Launch := { l with taken := l.taken ++ [core] }

theorem spatial_eq (hl : s.launch? l.fn l.lid = some l) (hvictim : nextVictim s l = some core) : exec (.spatialPreemption l.fn l.lid) s =
    .next (vacateAll (s.modLaunch l.fn l.lid (Launch.takes core)) (userUnits s core)) := by
  show execSpatialPreemption l.fn l.lid s = _
  unfold execSpatialPreemption
  rw [hl]
  dsimp only
  rw [hvictim]
  rfl

theorem spatial_launch (hl : s.launch? l.fn l.lid = some l) (core : Nat) (us : List Unit) :
    (vacateAll (s.modLaunch l.fn l.lid (Launch.takes core)) us).launch? l.fn l.lid = some (l.takes core) := by
  rw [State.launch?_congr ((touches_vacateAll ..).keeps .launches (by decide)), State.launch?_modLaunch _ _ _ (Launch.takes core) fun _ => ⟨rfl, rfl⟩, hl]
  rfl

/-- The units of a core that yield. -/
def yielders (s : State) (core : Nat) : List Unit := (userUnits s core).filter fun u => (yielding s core).contains u.ctx && u.grps.any (·.live)

theorem yieldCore_eq (s : State) (core : Nat) : exec (.yieldCore core) s = .next (vacateAll s (yielders s core)) := rfl

theorem unrestored_of_not_restoring (hu : s.unit? u.key = some u) (h : restoring s u.key = false) : u.unrestored = false := by
  rw [restoring, hu] at h
  exact h

end Sys2Proof.Machine
end

section
/-! PROOFS. A unit is saved and leaves its core (R345). -/

namespace Sys2Proof.Machine
open Sys2Proof.Claims

variable {s t : State} {k : UKey} {u w : Unit} {l m : Launch} {v : Vac} {n : Nat}

/-! ## The save slot of a unit that stops -/

/-- A unit that has a save slot. -/
def Saves (k : UKey) (n : Nat) (s : State) : Prop := ∃ u, s.unit? k = some u ∧ u.save = n

theorem Saves.of_units (h : Saves k n s) (hunits : t.units = s.units) : Saves k n t := by
  obtain ⟨u, hu, hsave⟩ := h
  exact ⟨u, (State.unit?_congr hunits k).trans hu, hsave⟩

theorem Saves.modUnit (h : Saves k n s) (j : UKey) (f : Unit → Unit) (hf : ∀ u, (f u).key = u.key ∧ (f u).save = u.save) : Saves k n (s.modUnit j f) := by
  obtain ⟨u, hu, hsave⟩ := h
  by_cases hj : k = j
  · subst hj
    exact ⟨f u, by rw [State.unit?_modUnit f fun u h => (hf u).1.trans h, hu]; rfl, (hf u).2.trans hsave⟩
  · exact ⟨u, (State.unit?_modUnit_ne f (fun u h => (hf u).1.trans h) hj).trans hu, hsave⟩

theorem Saves.stopSibling (h : Saves k n s) (j : UKey) (gid src : Nat) : Saves k n (stopSibling s j gid src) := by
  rcases stopSibling_cases s j gid src with heq | ⟨g, -, hmem⟩
  · rwa [heq]
  · exact (h.modUnit j (fun u => u.modGrp gid fun _ => g) fun _ => ⟨rfl, rfl⟩).of_units ((hmem.touches (ps := memoryParts) (by decide)).keeps .units (by decide))

/-- What a group in its skid becomes before its unit is saved. -/
def skidStopped (k : UKey) (s : State) (g : Group) : State := match g.run with | .skid _ src => stopSibling s k g.gid src | _ => s

theorem Saves.skidStopped (h : Saves k n s) (j : UKey) (g : Group) : Saves k n (skidStopped j s g) := by
  unfold Machine.skidStopped
  split
  · exact h.stopSibling ..
  · exact h

theorem touches_skidStopped (s : State) (j : UKey) (g : Group) : Touches doomParts s (skidStopped j s g) := by
  unfold skidStopped
  split
  · exact touches_stopSibling ..
  · exact .refl ..

/-- A unit as it is saved: an scall is issued again, and waits begin anew. -/
def Unit.rewaiting (u : Unit) : Unit :=
  { u with grps := u.grps.map fun g =>
    let g := { g.checked with cont := none }
    { g with ents := g.ents.map Entry.rewait } }

theorem stopForSave_eq (s : State) (u : Unit) : stopForSave s u =
    (withdrawMail ((u.grps.filter (·.live)).foldl (skidStopped u.key) s) u.core ((u.grps.filter (·.live)).map (·.slot))).modUnit u.key Unit.rewaiting := rfl

theorem withdrawMail_units (s : State) (core : Nat) (slots : List Nat) : (withdrawMail s core slots).units = s.units := mailPump_units ..

theorem saves_stopForSave (h : Saves k n s) (u : Unit) : Saves k n (stopForSave s u) := by
  rw [stopForSave_eq]
  refine Saves.modUnit (Saves.of_units ?_ (withdrawMail_units ..)) _ Unit.rewaiting fun _ => ⟨rfl, rfl⟩
  exact foldl_keeps (I := Saves k n) (fun s g _ h => h.skidStopped ..) h

theorem stopForSave_launches (s : State) (u : Unit) : (stopForSave s u).launches = s.launches := by
  rw [stopForSave_eq]
  exact ((leaves_withdrawMail ..).touches.keeps .launches (by decide)).trans
    ((Touches.foldl (fun s g => touches_skidStopped s u.key g) _ _).keeps .launches (by decide))

/-! ## It leaves -/

/-- The commands and waits of a unit end as it is taken off its core. -/
def savedOff (s : State) (u : Unit) : State :=
  let s := u.cmds.foldl (fun s m => dropCmd (settlePermit s u.key u.core m.2) u.key m.1) s
  let s := (u.grps.filter (·.live)).foldl (fun s g => dropGroupWaits s u.ctx u.key g.gid) s
  endOwnership s u.key

theorem touches_savedOff (s : State) (u : Unit) : Touches leavingParts s (savedOff s u) :=
  .last (leaves_endOwnership ..).touches <| .last (.foldl (fun s (g : Group) => (leaves_dropGroupWaits s u.ctx u.key g.gid).touches) _ _) <|
    .foldl (fun s (m : Nat × Cmd) => .last (leaves_dropCmd _ u.key m.1).touches (leaves_settlePermit s u.key u.core m.2).touches) _ _

theorem saveUnit_eq (hw : (stopForSave s u).unit? u.key = some w) : ∃ x v, MemOnly (stopForSave s u) x ∧ v.idx = w.key.idx ∧ v.save = w.save ∧ saveUnit s u l =
    retireHistory ((freePlanes ((savedOff x w).withoutUnit w.key) w.core).modLaunch l.fn l.lid (Launch.resumed v)) w.ctx := by
  obtain ⟨y, hy⟩ : ∃ y, stopForSave s u = y := ⟨_, rfl⟩
  unfold saveUnit
  rw [hy] at hw ⊢
  dsimp only
  rw [hw]
  refine ⟨_, _, ?_, ?_, ?_, rfl⟩
  · exact memOnly_sysWriteBytes ..
  · rfl
  · rfl

theorem saveUnit_facts (hu : s.unit? u.key = some u) (hl : s.launch? l.fn l.lid = some l) : (saveUnit s u l).unit? u.key = none
    ∧ ∃ v : Vac, v.idx = u.key.idx ∧ v.save = u.save ∧ (saveUnit s u l).launch? l.fn l.lid = some (l.resumed v) := by
  obtain ⟨w, hw, hsave⟩ := saves_stopForSave (k := u.key) (n := u.save) ⟨u, hu, rfl⟩ u
  have hkey : w.key = u.key := by simpa using List.find?_some hw
  obtain ⟨x, v, hmem, hidx, hvsave, heq⟩ := saveUnit_eq (l := l) hw
  have hretire := fun y => retireHistory_touches y w.ctx
  have hx : x.launches = s.launches := ((hmem.touches (ps := memoryParts) (by decide)).keeps .launches (by decide)).trans (stopForSave_launches ..)
  obtain ⟨y, hy⟩ : ∃ y, (savedOff x w).withoutUnit w.key = y := ⟨_, rfl⟩
  have hyl : y.launches = s.launches := by
    rw [← hy]
    exact ((touches_savedOff x w).keeps .launches (by decide)).trans hx
  rw [hy] at heq
  refine ⟨?_, v, by rw [hidx, hkey], hvsave.trans hsave, ?_⟩
  · rw [heq, State.unit?_congr ((hretire _).keeps .units (by decide)), State.unit?, show ((freePlanes y w.core).modLaunch l.fn l.lid (Launch.resumed v)).units
      = y.units from freePlanes_units .., ← hy, ← hkey]
    exact List.find?_eq_none.2 fun z hz => by simpa using (List.mem_filter.1 hz).2
  · rw [heq, State.launch?_congr ((hretire _).keeps .launches (by decide)), State.launch?_modLaunch _ _ _ (Launch.resumed v) fun _ => ⟨rfl, rfl⟩,
      State.launch?_congr (((leaves_freePlanes ..).touches.keeps .launches (by decide)).trans hyl), hl]
    rfl

/-! ## UNIT_VACATE -/

theorem unitVacate_eq (hu : s.unit? u.key = some u) (hl : launchOf s u = some l) (hsuper : isSuper u.key = false) (hgoes : u.vacating = true) :
    exec (.unitVacate u.key) s =
      if u.unrestored then .next (if lowerLeaves s u then s.due (.unitVacate u.key) else unplace s u l)
      else if unitDone u || u.ending.isSome then .next (s.modUnit u.key fun u => { u with vacating := false })
      else if saveWaits s u then .next (s.due (.unitVacate u.key))
      else .next (saveUnit s u l) := by
  show execUnitVacate u.key s = _
  unfold execUnitVacate
  rw [hu]
  dsimp only
  rw [hl]
  dsimp only
  rw [if_neg (by simp [hsuper, hgoes])]

end Sys2Proof.Machine
end

section
/-! PROOFS. The groups of a unit that comes back: their registers, tags and frontiers as the image holds them (R346, R369, R370). -/

namespace Sys2Proof.Machine
open Sys2Proof.Claims

variable {g h : Group} {rd : Rd} {l : Launch} {ws : List AdmWait} {r n : Nat}

/-! ## Tables of an image -/

/-- The tag that a register of an image comes back with. -/
def Rd.tagAt (rd : Rd) (off map r : Nat) : Tag :=
  let t := (tagOf (rd.nibble off r)).getD .raw
  if t = .name && rd.mark map r then .ptr else t

theorem Rd.get_tags (rd : Rd) (off map : Nat) (hr : r < n) : Sparse.get .raw (rd.tags off map n) r = rd.tagAt off map r := by
  rw [Rd.tags, Sparse.get_setList, if_pos (Nat.zero_le r), Nat.sub_zero, List.getElem?_map, List.getElem?_range hr]
  rfl

theorem Rd.tagAt_unmarked {off map : Nat} (h : rd.mark map r = false) : rd.tagAt off map r = (tagOf (rd.nibble off r)).getD .raw := by
  unfold Rd.tagAt
  dsimp only
  rw [if_neg (by simp [h])]

theorem tagOf_ptr {x : Nat} (h : tagOf x = some .ptr) : x = Tag.ptr.code := by
  unfold tagOf at h
  split at h <;> cases h
  rfl

theorem Rd.tagAt_ne_ptr {off map : Nat} (h : rd.mark map r = false) (hcode : rd.nibble off r ≠ Tag.ptr.code) : rd.tagAt off map r ≠ .ptr := by
  rw [Rd.tagAt_unmarked h]
  intro hptr
  cases htag : tagOf (rd.nibble off r) with
  | none => rw [htag] at hptr; exact absurd hptr (by decide)
  | some t =>
    rw [htag] at hptr
    exact hcode (tagOf_ptr (htag.trans (congrArg some hptr)))

/-! ## A group from its block -/

/-- Whether a group has a block of its own in an image. -/
def Group.inImage (g : Group) (rd : Rd) (l : Launch) : Bool := rd.blockOf l.g g.gid < l.g && (g.gid < l.g || g.ents.isEmpty)

theorem blockOf_low (h : g.gid < l.g) : rd.blockOf l.g g.gid = g.gid := if_pos h

theorem inImage_low (h : g.gid < l.g) : g.inImage rd l = true := by
  rw [Group.inImage, blockOf_low h]
  simp [h]

/-- What a special register of the block leaves as it is. -/
theorem setBlockSpr_keeps (g : Group) (k x : Nat) : (setBlockSpr g k x).live = g.live ∧ (setBlockSpr g k x).gid = g.gid ∧ (setBlockSpr g k x).fault = g.fault
    ∧ (setBlockSpr g k x).grant = g.grant := by
  unfold setBlockSpr
  split <;> exact ⟨rfl, rfl, rfl, rfl⟩

/-- A group with its special registers as a block holds them. -/
def sprsBack (rd : Rd) (b : Nat) (g : Group) : Group := (List.range 5).foldl (fun g k => setBlockSpr g k (rd (b + 0x8600 + 8 * k) 8)) g

theorem sprsBack_keeps (rd : Rd) (b : Nat) (g : Group) : (sprsBack rd b g).live = g.live ∧ (sprsBack rd b g).gid = g.gid
    ∧ (sprsBack rd b g).fault = g.fault ∧ (sprsBack rd b g).grant = g.grant := by
  unfold sprsBack
  refine List.foldlRecOn (List.range 5) _ (motive := fun h : Group => h.live = g.live ∧ h.gid = g.gid ∧ h.fault = g.fault ∧ h.grant = g.grant)
    ⟨rfl, rfl, rfl, rfl⟩ fun h ⟨hlive, hgid, hfault, hgrant⟩ k _ => ?_
  obtain ⟨hlive', hgid', hfault', hgrant'⟩ := setBlockSpr_keeps h k (rd (b + 0x8600 + 8 * k) 8)
  exact ⟨hlive'.trans hlive, hgid'.trans hgid, hfault'.trans hfault, hgrant'.trans hgrant⟩

/-- What a group's frontier is after a block has been read: that of the block, or its own where the block is at fault. -/
def Group.frontierOr (g : Group) : Except Nat (List Entry × Nat) → List Entry × Nat
  | .ok r => r
  | .error _ => (g.ents, g.liven)

/-- The entries of a group with a block of an image. -/
def frontierBack (rd : Rd) (b : Nat) (g : Group) : List Entry × Nat := g.frontierOr (parseFrontier (rd (b + 0x8400) 264) g.grant (BitVec.allOnes 32))

/-- What `loadGroup` makes of a group whose registers an image holds in a block. -/
structure LoadedFrom (rd : Rd) (b : Nat) (g h : Group) : Prop where
  live : h.live = g.live
  gid : h.gid = g.gid
  grant : h.grant = g.grant
  v : h.v = rd.words b (32 * g.grant)
  s : h.s = rd.words (b + 0x8000) 128
  m : h.m = rd.words (b + 0x8200) 32
  p : h.p = rd.words (b + 0x8280) 7
  vt : h.vt = rd.tags (b + 0x8300) (b + 0x8D00) g.grant
  st : h.st = rd.tags (b + 0x8380) (b + 0x8D20) 128
  front : (h.ents, h.liven) = frontierBack rd b g

theorem LoadedFrom.refault {b : Nat} (hl : LoadedFrom rd b g h) : LoadedFrom rd b g h.refault := by
  unfold Group.refault
  split
  · exact ⟨hl.live, hl.gid, hl.grant, hl.v, hl.s, hl.m, hl.p, hl.vt, hl.st, hl.front⟩
  · exact hl

theorem loadGroup_from (rd : Rd) (l : Launch) (g : Group) :
    LoadedFrom rd (imgGroup (rd.blockOf l.g g.gid)) g (loadGroup rd l g) ∧ (g.ents ≠ [] → (loadGroup rd l g).fault = g.fault) := by
  obtain ⟨b, hb⟩ : ∃ b, imgGroup (rd.blockOf l.g g.gid) = b := ⟨_, rfl⟩
  obtain ⟨q, hq⟩ : ∃ q, sprsBack rd b g = q := ⟨_, rfl⟩
  obtain ⟨hlive, hgid, hfault, hgrant⟩ := sprsBack_keeps rd b g
  rw [hq] at hlive hgid hfault hgrant
  obtain ⟨x, hx⟩ : ∃ x, parseFrontier (rd (b + 0x8400) 264) g.grant (BitVec.allOnes 32) = x := ⟨_, rfl⟩
  obtain ⟨y, hy⟩ : ∃ y, frontierBack rd b g = y := ⟨_, rfl⟩
  have hback : y = g.frontierOr x := by rw [← hy, frontierBack, hx]
  unfold loadGroup
  rw [hb]
  extract_lets b' z inh park d q' tid
  have hq' : q' = q := hq
  clear_value q'
  subst hq'
  rw [show parseFrontier (rd (b' + 0x8400) 264) g.grant (BitVec.allOnes 32) = x from hx]
  dsimp only
  by_cases hnone : g.ents.isEmpty = true
  · rw [if_pos hnone]
    refine ⟨LoadedFrom.refault ⟨hlive, hgid, hgrant, rfl, rfl, rfl, rfl, rfl, rfl, ?_⟩, fun hne => absurd (by simpa using hnone) hne⟩
    rw [hy, hback]
    cases x <;> rfl
  · rw [if_neg hnone]
    refine ⟨⟨hlive, hgid, hgrant, rfl, rfl, rfl, rfl, rfl, rfl, ?_⟩, fun _ => hfault⟩
    rw [hy, hback]
    cases x <;> rfl

/-! ## Pointers are swizzled -/

/-- Two groups that agree in everything but vector and scalar registers and their tags. -/
def RegsBut (g h : Group) : Prop := ∃ v vt s st, h = { g with v := v, vt := vt, s := s, st := st }

theorem RegsBut.refl (g : Group) : RegsBut g g := ⟨g.v, g.vt, g.s, g.st, rfl⟩

theorem RegsBut.trans {i : Group} (hg : RegsBut g h) (hh : RegsBut h i) : RegsBut g i := by
  obtain ⟨_, _, _, _, rfl⟩ := hg
  obtain ⟨v, vt, s, st, rfl⟩ := hh
  exact ⟨v, vt, s, st, rfl⟩

/-- A vector register stands in two groups alike, with its tag. -/
def SameV (r : Nat) (g h : Group) : Prop := h.vtag r = g.vtag r ∧ ∀ ln < 32, h.getV r ln = g.getV r ln

/-- A scalar register stands in two groups alike, with its tag. -/
def SameS (r : Nat) (g h : Group) : Prop := h.stag r = g.stag r ∧ h.getS r = g.getS r

theorem SameV.trans {i : Group} (hg : SameV r g h) (hh : SameV r h i) : SameV r g i :=
  ⟨hh.1.trans hg.1, fun ln hln => (hh.2 ln hln).trans (hg.2 ln hln)⟩

theorem SameS.trans {i : Group} (hg : SameS r g h) (hh : SameS r h i) : SameS r g i := ⟨hh.1.trans hg.1, hh.2.trans hg.2⟩

/-- What a step of the swizzling of the vector pairs leaves as it is. -/
structure VStep (g h : Group) (k : Nat) : Prop where
  regs : RegsBut g h
  others : ∀ r, r ≠ 2 * k → r ≠ 2 * k + 1 → SameV r g h
  scalars : ∀ r, SameS r g h

theorem vStep_refl (g : Group) (k : Nat) : VStep g g k := ⟨.refl g, fun _ _ _ => ⟨rfl, fun _ _ => rfl⟩, fun _ => ⟨rfl, rfl⟩⟩

theorem VStep.trans {i : Group} {k : Nat} (hg : VStep g h k) (hh : VStep h i k) : VStep g i k :=
  ⟨hg.regs.trans hh.regs, fun r hr hr' => (hg.others r hr hr').trans (hh.others r hr hr'), fun r => (hg.scalars r).trans (hh.scalars r)⟩

theorem vStep_setPairV (g : Group) (k x : Nat) {ln : Nat} (hln : ln < 32) : VStep g (g.setPairV k ln x) k where
  regs := ⟨_, _, _, _, rfl⟩
  others r hr hr' := ⟨rfl, fun m hm => by
    unfold Group.setPairV Group.setV Group.getV
    dsimp only
    rw [Sparse.get_set_ne (by omega), Sparse.get_set_ne (by omega)]⟩
  scalars _ := ⟨rfl, rfl⟩

theorem vStep_retag (g : Group) (k : Nat) (t t' : Tag) : VStep g ((g.setVtag (2 * k) t).setVtag (2 * k + 1) t') k where
  regs := ⟨_, _, _, _, rfl⟩
  others r hr hr' := ⟨by
    unfold Group.setVtag Group.vtag
    dsimp only
    rw [Sparse.get_set_ne hr', Sparse.get_set_ne hr], fun _ _ => rfl⟩
  scalars _ := ⟨rfl, rfl⟩

/-- A vector pair as its pointers come back, or RAW where one cannot. -/
def swizzleV (ws : List AdmWait) (g : Group) (k : Nat) : Group :=
  if (List.range 32).all fun l => (swizzled ws (g.pairV k l)).isSome then
    (List.range 32).foldl (fun g l => g.setPairV k l ((swizzled ws (g.pairV k l)).getD 0)) g
  else (g.setVtag (2 * k) .raw).setVtag (2 * k + 1) .raw

theorem vStep_swizzleV (ws : List AdmWait) (g : Group) (k : Nat) : VStep g (swizzleV ws g k) k := by
  unfold swizzleV
  split
  · exact List.foldlRecOn (List.range 32) _ (motive := fun h => VStep g h k) (vStep_refl g k) fun h hh ln hln =>
      hh.trans (vStep_setPairV h k _ (List.mem_range.1 hln))
  · exact vStep_retag ..

/-- A scalar pair as its pointer comes back, or RAW where it cannot. -/
def swizzleS (ws : List AdmWait) (g : Group) (k : Nat) : Group :=
  match swizzled ws (g.pairS k) with
  | some p => g.setPairS k p
  | none => (g.setStag (2 * k) .raw).setStag (2 * k + 1) .raw

/-- What a step of the swizzling of the scalar pairs leaves as it is. -/
structure SStep (g h : Group) (k : Nat) : Prop where
  regs : RegsBut g h
  others : ∀ r, r ≠ 2 * k → r ≠ 2 * k + 1 → SameS r g h
  vectors : ∀ r, SameV r g h

theorem sStep_swizzleS (ws : List AdmWait) (g : Group) (k : Nat) : SStep g (swizzleS ws g k) k := by
  unfold swizzleS
  split
  · refine ⟨⟨_, _, _, _, rfl⟩, fun r hr hr' => ⟨rfl, ?_⟩, fun _ => ⟨rfl, fun _ _ => rfl⟩⟩
    unfold Group.setPairS Group.setS Group.getS
    dsimp only
    rw [Sparse.get_set_ne hr', Sparse.get_set_ne hr]
  · refine ⟨⟨_, _, _, _, rfl⟩, fun r hr hr' => ⟨?_, rfl⟩, fun _ => ⟨rfl, fun _ _ => rfl⟩⟩
    unfold Group.setStag Group.stag
    dsimp only
    rw [Sparse.get_set_ne hr', Sparse.get_set_ne hr]

theorem swizzle_eq (g : Group) (ws : List AdmWait) :
    g.swizzle ws = (g.vPairs.foldl (swizzleV ws) g).sPairs.foldl (swizzleS ws) (g.vPairs.foldl (swizzleV ws) g) := rfl

theorem mem_vPairs {k : Nat} (h : k ∈ g.vPairs) : g.vtag (2 * k) = .ptr ∧ g.vtag (2 * k + 1) = .ptr := by
  simpa [Group.ptrV] using (List.mem_filter.1 h).2

theorem mem_sPairs {k : Nat} (h : k ∈ g.sPairs) : g.stag (2 * k) = .ptr ∧ g.stag (2 * k + 1) = .ptr := by
  simpa [Group.ptrS] using (List.mem_filter.1 h).2

theorem swizzledV_keeps (ws : List AdmWait) (g : Group) : RegsBut g (g.vPairs.foldl (swizzleV ws) g)
    ∧ (∀ r, g.vtag r ≠ .ptr → SameV r g (g.vPairs.foldl (swizzleV ws) g)) ∧ ∀ r, SameS r g (g.vPairs.foldl (swizzleV ws) g) := by
  refine List.foldlRecOn g.vPairs _ (motive := fun h => RegsBut g h ∧ (∀ r, g.vtag r ≠ .ptr → SameV r g h) ∧ ∀ r, SameS r g h)
    ⟨.refl g, fun _ _ => ⟨rfl, fun _ _ => rfl⟩, fun _ => ⟨rfl, rfl⟩⟩ fun h ⟨hregs, hv, hs⟩ k hk => ?_
  obtain ⟨hlow, hhigh⟩ := mem_vPairs hk
  have hstep := vStep_swizzleV ws h k
  refine ⟨hregs.trans hstep.regs, fun r hr => (hv r hr).trans (hstep.others r ?_ ?_), fun r => (hs r).trans (hstep.scalars r)⟩
  · rintro rfl
    exact hr hlow
  · rintro rfl
    exact hr hhigh

theorem swizzledS_keeps (ws : List AdmWait) (g : Group) : RegsBut g (g.sPairs.foldl (swizzleS ws) g)
    ∧ (∀ r, g.stag r ≠ .ptr → SameS r g (g.sPairs.foldl (swizzleS ws) g)) ∧ ∀ r, SameV r g (g.sPairs.foldl (swizzleS ws) g) := by
  refine List.foldlRecOn g.sPairs _ (motive := fun h => RegsBut g h ∧ (∀ r, g.stag r ≠ .ptr → SameS r g h) ∧ ∀ r, SameV r g h)
    ⟨.refl g, fun _ _ => ⟨rfl, rfl⟩, fun _ => ⟨rfl, fun _ _ => rfl⟩⟩ fun h ⟨hregs, hs, hv⟩ k hk => ?_
  obtain ⟨hlow, hhigh⟩ := mem_sPairs hk
  have hstep := sStep_swizzleS ws h k
  refine ⟨hregs.trans hstep.regs, fun r hr => (hs r hr).trans (hstep.others r ?_ ?_), fun r => (hv r).trans (hstep.vectors r)⟩
  · rintro rfl
    exact hr hlow
  · rintro rfl
    exact hr hhigh

/-- A group that is swizzled keeps everything but its pairs of pointers. -/
theorem swizzle_keeps (g : Group) (ws : List AdmWait) : RegsBut g (g.swizzle ws) ∧ (∀ r, g.vtag r ≠ .ptr → SameV r g (g.swizzle ws))
    ∧ ∀ r, g.stag r ≠ .ptr → SameS r g (g.swizzle ws) := by
  rw [swizzle_eq]
  obtain ⟨x, hx⟩ : ∃ x, g.vPairs.foldl (swizzleV ws) g = x := ⟨_, rfl⟩
  have hfirst := swizzledV_keeps ws g
  rw [hx] at hfirst ⊢
  obtain ⟨hregs, hv, hs⟩ := hfirst
  obtain ⟨hregs', hs', hv'⟩ := swizzledS_keeps ws x
  refine ⟨hregs.trans hregs', fun r hr => (hv r hr).trans (hv' r), fun r hr => (hs r).trans (hs' r ?_)⟩
  rw [(hs r).1]
  exact hr

/-! ## Without names to bring in -/

theorem swizzled_nil_or (x : Nat) : (swizzled [] x).isSome = true ∨ 0 < bits x 63 40 := by
  unfold swizzled
  dsimp only
  by_cases h : bits x 63 40 = 0
  · rw [if_pos h]
    exact .inl rfl
  · exact .inr (Nat.pos_of_ne_zero h)

theorem lowestFailed_nil (xs : List Nat) : lowestFailed [] xs = none := by
  unfold lowestFailed
  refine List.foldlRecOn xs _ (motive := fun b => b = none) rfl fun b hb x _ => ?_
  dsimp only
  rw [if_pos ?_]
  · exact hb
  · rcases swizzled_nil_or x with h | h
    · simp [h]
    · simp [h]

/-! ## What a group comes back with -/

/-- What a group of a unit is once the unit is restored. -/
def Group.restored (g : Group) (rd : Rd) (l : Launch) (ws : List AdmWait) (run : Run) : Group :=
  { (if g.inImage rd l then loadGroup rd l g else g).swizzle ws with run := run }

theorem loadedOrNot_keeps (rd : Rd) (l : Launch) (g : Group) : (if g.inImage rd l then loadGroup rd l g else g).live = g.live
    ∧ (if g.inImage rd l then loadGroup rd l g else g).gid = g.gid
    ∧ (g.ents ≠ [] → (if g.inImage rd l then loadGroup rd l g else g).fault = g.fault) := by
  split
  · obtain ⟨hfrom, hfault⟩ := loadGroup_from rd l g
    exact ⟨hfrom.live, hfrom.gid, hfault⟩
  · exact ⟨rfl, rfl, fun _ => rfl⟩

theorem restored_name (g : Group) (rd : Rd) (l : Launch) (ws : List AdmWait) (run : Run) :
    (g.restored rd l ws run).live = g.live ∧ (g.restored rd l ws run).gid = g.gid := by
  obtain ⟨hlive, hgid, -⟩ := loadedOrNot_keeps rd l g
  obtain ⟨x, hx⟩ : ∃ x, (if g.inImage rd l then loadGroup rd l g else g) = x := ⟨_, rfl⟩
  obtain ⟨⟨v, vt, s, st, hregs⟩, -⟩ := swizzle_keeps x ws
  rw [Group.restored, hx, hregs]
  rw [hx] at hlive hgid
  exact ⟨hlive, hgid⟩

/-- A group whose gid has a block stands as its block says, but for pairs of pointers. -/
theorem restored_facts (h : g.gid < l.g) (ws : List AdmWait) (run : Run) : let b := imgGroup g.gid
    (g.restored rd l ws run).run = run
    ∧ (∀ es n, parseFrontier (rd (b + 0x8400) 264) g.grant (BitVec.allOnes 32) = .ok (es, n) →
      (g.restored rd l ws run).ents = es ∧ (g.restored rd l ws run).liven = n)
    ∧ (∀ r < 32, (g.restored rd l ws run).getM r = BitVec.ofNat 32 (rd (b + 0x8200 + 4 * r) 4))
    ∧ (∀ r < 7, Sparse.get 0 (g.restored rd l ws run).p r = BitVec.ofNat 32 (rd (b + 0x8280 + 4 * r) 4))
    ∧ (∀ r < g.grant, rd.mark (b + 0x8D00) r = false → rd.nibble (b + 0x8300) r ≠ Tag.ptr.code →
      (g.restored rd l ws run).vtag r = (tagOf (rd.nibble (b + 0x8300) r)).getD .raw
      ∧ ∀ ln < 32, (g.restored rd l ws run).getV r ln = BitVec.ofNat 32 (rd (b + 4 * (32 * r + ln)) 4))
    ∧ (∀ r < 128, rd.mark (b + 0x8D20) r = false → rd.nibble (b + 0x8380) r ≠ Tag.ptr.code →
      (g.restored rd l ws run).stag r = (tagOf (rd.nibble (b + 0x8380) r)).getD .raw
      ∧ (g.restored rd l ws run).getS r = BitVec.ofNat 32 (rd (b + 0x8000 + 4 * r) 4)) := by
  intro b
  obtain ⟨hfrom, -⟩ := loadGroup_from rd l g
  rw [blockOf_low h] at hfrom
  obtain ⟨x, hx⟩ : ∃ x, loadGroup rd l g = x := ⟨_, rfl⟩
  obtain ⟨⟨v, vt, s, st, hregs⟩, hv, hs⟩ := swizzle_keeps x ws
  have hrest : g.restored rd l ws run = { x.swizzle ws with run := run } := by rw [Group.restored, if_pos (inImage_low h), hx]
  rw [hx] at hfrom
  have hvtag : ∀ r < g.grant, x.vtag r = rd.tagAt (b + 0x8300) (b + 0x8D00) r := fun r hr => by rw [Group.vtag, hfrom.vt, Rd.get_tags _ _ _ hr]
  have hstag : ∀ r < 128, x.stag r = rd.tagAt (b + 0x8380) (b + 0x8D20) r := fun r hr => by rw [Group.stag, hfrom.st, Rd.get_tags _ _ _ hr]
  refine ⟨by rw [hrest], fun es n hes => ?_, fun r hr => ?_, fun r hr => ?_, fun r hr hmark hcode => ?_, fun r hr hmark hcode => ?_⟩
  · have hfront := hfrom.front
    rw [frontierBack, hes] at hfront
    rw [hrest, hregs]
    exact Prod.mk.inj (hfront : _ = (es, n))
  · rw [hrest, hregs, Group.getM]
    exact (congrArg (Sparse.get 0 · r) hfrom.m).trans (Rd.get_words rd hr)
  · rw [hrest, hregs]
    exact (congrArg (Sparse.get 0 · r) hfrom.p).trans (Rd.get_words rd hr)
  · have hne : x.vtag r ≠ .ptr := hvtag r hr ▸ Rd.tagAt_ne_ptr hmark hcode
    obtain ⟨htag, hval⟩ := hv r hne
    rw [hrest]
    refine ⟨htag.trans ((hvtag r hr).trans (Rd.tagAt_unmarked hmark)), fun ln hln => (hval ln hln).trans ?_⟩
    rw [Group.getV, hfrom.v]
    exact Rd.get_words rd (by omega)
  · have hne : x.stag r ≠ .ptr := hstag r hr ▸ Rd.tagAt_ne_ptr hmark hcode
    obtain ⟨htag, hval⟩ := hs r hne
    rw [hrest]
    refine ⟨htag.trans ((hstag r hr).trans (Rd.tagAt_unmarked hmark)), hval.trans ?_⟩
    rw [Group.getS, hfrom.s]
    exact Rd.get_words rd hr

end Sys2Proof.Machine
end

section
/-! PROOFS. A unit is restored from its image (R346, R370 to R372). -/

namespace Sys2Proof.Machine
open Sys2Proof.Claims

variable {s t : State} {k : UKey} {u : Unit} {l : Launch} {c : Ctx} {rd : Rd} {ws : List AdmWait} {n : Nat}

/-! ## The unit that comes back -/

/-- The groups of a unit that its image or the machine still knows, as they are before their pointers are swizzled. -/
def Unit.loadedGroups (u : Unit) (rd : Rd) (l : Launch) : List Group :=
  (u.grps.filter fun g => g.live && !(g.inImage rd l && g.ents.isEmpty && rd.gone (rd.blockOf l.g g.gid))).map fun g =>
    if g.inImage rd l then loadGroup rd l g else g

/-- A unit as it is restored, before the late replies of its image and its commands. -/
def Unit.restored (u : Unit) (s : State) (rd : Rd) (l : Launch) (ws : List AdmWait) : Unit :=
  let halted := u.halted || (u.loadedGroups rd l).any (·.fault)
  let u1 := loadUnit rd l (s.clk u.core) u
  { u1 with grps := (u.loadedGroups rd l).map fun g => { g.swizzle ws with run := if halted then .stopped else .running }, halted := halted,
            unrestored := false, off := u1.off.map fun r => r.swizzle ws, cmds := [], race := if s.tracks then u.race.resume u.key else u.race }

/-- A unit that vacates no more. -/
def Unit.stays (u : Unit) : Unit := { u with vacating := false }

/-- The state in which a unit stands as its image holds it, with its vault. -/
def State.unitBack (s : State) (u : Unit) (rd : Rd) (l : Launch) (ws : List AdmWait) : State :=
  (s.setUnit (lateReplies rd l (u.restored s rd l ws))).wrBytes 3 (vaultKey (vaultNo u.core) u.vault) (bytesOfNat l.b (rd l.imgVault l.b))

/-- The commands of an image come back. -/
def cmdsBack (x s : State) (u : Unit) (rd : Rd) (l : Launch) (ws : List AdmWait) : State :=
  (List.range 32).foldl (fun x n => match loadCmd rd l { loadUnit rd l (s.clk u.core) u with cmds := u.cmds } n with
    | some (st, m) => restoreCmd x u.key u.core ws n st m
    | none => x) x

/-- The groups that hold a name whose admission has failed. -/
def Unit.nameTraps (u : Unit) (rd : Rd) (l : Launch) (ws : List AdmWait) : List (Nat × Nat) :=
  (u.loadedGroups rd l).filterMap fun g => (lowestFailed ws g.pointers).map fun i => (g.gid, i)

/-- A restored unit is joined by its endpoint block, and is not vacating any more. -/
def settled (s : State) (u : Unit) (l : Launch) : State := flushBlock ((dropGroupWaits s u.ctx u.key restoreGid).modUnit u.key Unit.stays) l

theorem restoreUnit_eq (s : State) (u : Unit) (l : Launch) (rd : Rd) (ws : List AdmWait) : restoreUnit s u l rd ws =
    let y := (u.nameTraps rd l ws).foldl (fun s t => nameTrap s u.key ws t.1 t.2) (repost (settled (cmdsBack (s.unitBack u rd l ws) s u rd l ws) u l) u.key)
    if y.owner = some u.key.fn && !(y.die (dieOf u.core)).fence.getLsbD (u.core % 64) then y else vacate y u.key := rfl

/-! ## An image without late replies and without commands -/

theorem lateReplies_none (u : Unit) (h : ∀ i < 4 * l.g, (rd (l.imgLate + 272 * i) 4).testBit 31 = false) : lateReplies rd l u = u := by
  unfold lateReplies
  refine List.foldlRecOn (List.range (4 * l.g)) _ (motive := fun v => v = u) rfl fun v hv i hi => ?_
  dsimp only
  rw [if_neg (by simp [h i (List.mem_range.1 hi)]), hv]

theorem loadCmd_none (u : Unit) (h : rd (l.imgCmds + 1024 * n + 12) 1 = 0) : loadCmd rd l u n = none := by
  unfold loadCmd
  dsimp only
  rw [if_pos (by simp [h])]

theorem cmdsBack_none (x s : State) (u : Unit) (h : ∀ n < 32, rd (l.imgCmds + 1024 * n + 12) 1 = 0) : cmdsBack x s u rd l ws = x := by
  unfold cmdsBack
  refine List.foldlRecOn (List.range 32) _ (motive := fun y => y = x) rfl fun y hy n hn => ?_
  dsimp only
  rw [loadCmd_none _ (h n (List.mem_range.1 hn))]
  exact hy

theorem nameTraps_nil (u : Unit) (rd : Rd) (l : Launch) : u.nameTraps rd l [] = [] :=
  List.filterMap_eq_nil_iff.2 fun g _ => by rw [lowestFailed_nil]; rfl

/-! ## Its groups -/

/-- Every live group of a unit still has entries and no fault. -/
def Unit.sound (u : Unit) : Prop := ∀ g ∈ u.grps, g.live = true → g.fault = false ∧ g.ents ≠ []

theorem loadedGroups_sound (h : u.sound) : u.loadedGroups rd l = (u.grps.filter (·.live)).map fun g => if g.inImage rd l then loadGroup rd l g else g := by
  unfold Unit.loadedGroups
  congr 1
  refine List.filter_congr fun g hg => ?_
  cases hlive : g.live with
  | false => rfl
  | true =>
    have hents : g.ents.isEmpty = false := by simpa using (h g hg hlive).2
    simp [hents]

theorem loadedGroups_faultless (h : u.sound) : (u.loadedGroups rd l).any (·.fault) = false := by
  rw [loadedGroups_sound h, List.any_eq_false]
  intro x hx
  obtain ⟨g, hg, rfl⟩ := List.mem_map.1 hx
  obtain ⟨hmem, hlive⟩ := List.mem_filter.1 hg
  obtain ⟨hfault, hents⟩ := h g hmem hlive
  rw [(loadedOrNot_keeps rd l g).2.2 hents, hfault]
  decide

theorem restored_grps (h : u.sound) (hhalt : u.halted = false) (s : State) (rd : Rd) (l : Launch) (ws : List AdmWait) :
    (u.restored s rd l ws).grps = (u.grps.filter (·.live)).map (fun g => g.restored rd l ws .running) ∧ (u.restored s rd l ws).halted = false := by
  have hno : (u.halted || (u.loadedGroups rd l).any (·.fault)) = false := by rw [hhalt, loadedGroups_faultless h, Bool.or_false]
  unfold Unit.restored
  dsimp only
  rw [hno]
  refine ⟨?_, rfl⟩
  rw [loadedGroups_sound h, List.map_map]
  rfl

theorem find?_restored (gs : List Group) (rd : Rd) (l : Launch) (ws : List AdmWait) (gid : Nat) :
    (((gs.filter (·.live)).map fun g => g.restored rd l ws .running).find? fun g => g.live && g.gid == gid)
      = (gs.find? fun g => g.live && g.gid == gid).map fun g => g.restored rd l ws .running := by
  have hname : ((fun g : Group => g.live && g.gid == gid) ∘ fun g : Group => g.restored rd l ws .running) = fun g => g.live && g.gid == gid := by
    funext g
    obtain ⟨hlive, hgid⟩ := restored_name g rd l ws .running
    simp only [Function.comp, hlive, hgid]
  rw [List.find?_map, hname, find?_filter_sub (fun g hg => (Bool.and_eq_true_iff.1 hg).1)]

theorem restored_grp? (h : u.sound) (hhalt : u.halted = false) (s : State) {g : Group} {gid : Nat} (hg : u.grp? gid = some g) :
    (u.restored s rd l ws).grp? gid = some (g.restored rd l ws .running) := by
  unfold Unit.grp? at hg ⊢
  rw [(restored_grps h hhalt ..).1, find?_restored, hg]
  rfl

/-! ## Its own state -/

theorem foldl_set_get {α : Type} [DecidableEq α] (d : α) (f : Nat → α) (m : Sparse α) (n i : Nat) :
    Sparse.get d ((List.range n).foldl (fun t i => Sparse.set d t i (f i)) m) i = if i < n then f i else Sparse.get d m i := by
  induction n with
  | zero => rfl
  | succ n ih =>
    rw [List.range_succ, List.foldl_append, List.foldl_cons, List.foldl_nil, Sparse.get_set, ih]
    by_cases h : i = n
    · rw [if_pos h, if_pos (by omega), h]
    · rw [if_neg h]
      by_cases h' : i < n
      · rw [if_pos h', if_pos (by omega)]
      · rw [if_neg h', if_neg (by omega)]

/-- What stands in a restored unit of the parts that the unit section and the accumulators hold. -/
theorem restored_parts (u : Unit) (s : State) (rd : Rd) (l : Launch) (ws : List AdmWait) :
    (u.restored s rd l ws).key = u.key ∧ (u.restored s rd l ws).core = u.core ∧ (u.restored s rd l ws).unrestored = false
    ∧ (u.restored s rd l ws).cmds = []
    ∧ (u.restored s rd l ws).ready = BitVec.ofNat 64 (rd (l.imgUnit + 0xC40) 8) ∧ (u.restored s rd l ws).uimask = BitVec.ofNat 64 (rd (l.imgUnit + 0xC48) 8)
    ∧ (u.restored s rd l ws).energy = BitVec.ofNat 64 (rd 40 8) := ⟨rfl, rfl, rfl, rfl, rfl, rfl, rfl⟩

theorem restored_bar (u : Unit) (s : State) {b : Nat} (hb : b < 16) : (u.restored s rd l ws).bar b = loadBar (rd (l.imgUnit + 32 * b) 32) :=
  (foldl_set_get (Bar.start 0) (fun b => loadBar (rd (l.imgUnit + 32 * b) 32)) [] 16 b).trans (if_pos hb)

theorem restored_acc (u : Unit) (s : State) {w : Nat} (hw : w < 512 * l.a) :
    Sparse.get 0 (u.restored s rd l ws).acc w = BitVec.ofNat 32 (rd (l.imgAcc + 4 * w) 4) := Rd.get_words rd hw

/-! ## The step -/

theorem repost_running {v : Unit} (hv : s.unit? k = some v) (h : v.halted = false) : repost s k = s := by
  unfold repost
  rw [hv]
  dsimp only
  rw [if_pos (by simp [h])]

/-- The fields that may stand otherwise once a unit has come back. -/
def backParts : List Part := [.units, .ctxs] ++ memoryParts

theorem touches_unitBack (s : State) (u : Unit) (rd : Rd) (l : Launch) (ws : List AdmWait) : Touches backParts s (s.unitBack u rd l ws) :=
  .last ((memOnly_wrBytes ..).touches (by decide)) (touches_modUnit (by decide) ..)

theorem touches_settled (s : State) (u : Unit) (l : Launch) : Touches backParts s (settled s u l) :=
  .last ((touches_flushBlock ..).mono (by decide)) <| .last (touches_modUnit (by decide) ..) (.ctxs (by decide) ..)

theorem owner_congr (h : Touches backParts s t) : t.owner = s.owner := by
  have hfuncs : t.funcs = s.funcs := h.keeps .funcs (by decide)
  have hquanta : t.quanta = s.quanta := h.keeps .quanta (by decide)
  have htenant : t.tenant = s.tenant := h.keeps .tenant (by decide)
  unfold State.owner
  rw [Quantum.ok_congr hfuncs, hquanta, htenant]

/-- A restored unit stands in its place, joined by what its endpoint block holds. -/
theorem settled_unit (hu : s.unit? u.key = some u) (hlate : lateReplies rd l (u.restored s rd l ws) = u.restored s rd l ws) :
    FoundBut u.key (u.restored s rd l ws).stays (settled (s.unitBack u rd l ws) u l) := by
  obtain ⟨v, hv⟩ : ∃ v, u.restored s rd l ws = v := ⟨_, rfl⟩
  have hkey : v.key = u.key := hv ▸ rfl
  rw [hv] at hlate ⊢
  have hback : (s.unitBack u rd l ws).unit? u.key = some v := by
    refine (State.unit?_congr (((memOnly_wrBytes ..).touches (ps := memoryParts) (by decide)).keeps .units (by decide)) _).trans ?_
    rw [hv, hlate, State.setUnit, hkey, State.unit?_modUnit (fun _ => v) fun _ _ => hkey, hu]
    rfl
  refine unit?_flushBlock ?_ l
  refine (State.unit?_modUnit Unit.stays fun _ h => h).trans ?_
  rw [State.unit?_congr (s := s.unitBack u rd l ws) (t := dropGroupWaits (s.unitBack u rd l ws) u.ctx u.key restoreGid) rfl, hback]
  rfl

theorem restoreUnit_settled (hu : s.unit? u.key = some u) (hsound : u.sound) (hhalt : u.halted = false)
    (hlate : ∀ i < 4 * l.g, (rd (l.imgLate + 272 * i) 4).testBit 31 = false) (hcmds : ∀ n < 32, rd (l.imgCmds + 1024 * n + 12) 1 = 0)
    (howner : s.owner = some u.key.fn) (hfence : (s.die (dieOf u.core)).fence.getLsbD (u.core % 64) = false) :
    restoreUnit s u l rd [] = settled (s.unitBack u rd l []) u l
      ∧ FoundBut u.key (u.restored s rd l []).stays (settled (s.unitBack u rd l []) u l) := by
  have hlate' := lateReplies_none (u.restored s rd l []) hlate
  obtain ⟨i, hi⟩ := settled_unit hu hlate'
  obtain ⟨y, hy⟩ : ∃ y, settled (s.unitBack u rd l []) u l = y := ⟨_, rfl⟩
  have htouch : Touches backParts s y := hy ▸ (touches_settled ..).last (touches_unitBack ..)
  rw [hy] at hi ⊢
  refine ⟨?_, i, hi⟩
  have hrun : (Unit.withUi i (u.restored s rd l []).stays).halted = false := (restored_grps hsound hhalt s rd l []).2
  rw [restoreUnit_eq, cmdsBack_none _ _ _ hcmds, hy, nameTraps_nil, repost_running hi hrun]
  dsimp only
  rw [List.foldl_nil, owner_congr htouch, State.die_congr (htouch.keeps .dies (by decide)), if_pos (by simp [howner, hfence])]

theorem settled_vault (hbound : l.bound = false) (s : State) (u : Unit) (rd : Rd) (ws : List AdmWait) :
    (settled (s.unitBack u rd l ws) u l).rdBytes 3 (vaultKey (vaultNo u.core) u.vault) l.b = bytesOfNat l.b (rd l.imgVault l.b) := by
  have hread := State.rdBytes_wrBytes (s.setUnit (lateReplies rd l (u.restored s rd l ws))) 3 (vaultKey (vaultNo u.core) u.vault)
    (bytesOfNat l.b (rd l.imgVault l.b))
  rw [bytesOfNat_length] at hread
  rw [settled, flushBlock_unbound hbound]
  exact hread

/-! ## UNIT_RESTORE -/

theorem unitRestore_eq {core : Nat} (hu : s.unit? u.key = some u) (hl : launchOf s u = some l) (hc : s.ctx? u.ctx = some c) (hvac : u.vacating = true)
    (hrest : u.unrestored = true) (hend : u.ending = none) (hcore : u.core = core)
    (hbad : badImage (imageRd s c u.save) l u.key.idx (u.inBlock (imageRd s c u.save) l) = none) (hnames : imageRd s c u.save 36 4 ≤ 1) :
    exec (.unitRestore u.key core) s = .next (restoreUnit s u l (imageRd s c u.save) []) := by
  obtain ⟨rd, hrd⟩ : ∃ rd, imageRd s c u.save = rd := ⟨_, rfl⟩
  rw [hrd] at hbad hnames ⊢
  show execUnitRestore u.key core s = _
  unfold execUnitRestore
  rw [hu]
  dsimp only
  rw [hl, hc]
  dsimp only
  rw [if_neg (by simp [hvac, hrest, hend, hcore]), hrd, hbad]
  dsimp only
  rw [Nat.sub_eq_zero_of_le hnames]
  rfl

end Sys2Proof.Machine
end

section
/-! PROOFS. Slices end or go on (R347 to R349). -/

namespace Sys2Proof.Machine
open Sys2Proof.Claims

variable {s t : State} {u : Unit} {l : Launch} {c : Ctx} {fn : Option Nat} {n core : Nat}

theorem slicedAt_units (s : State) (n : Nat) (fn : Option Nat) : (s.slicedAt n fn).units = s.units := (tableToCome_work s).1

theorem slicedAt_fields (s : State) (n : Nat) (fn : Option Nat) : (s.slicedAt n fn).tenant = fn ∧ (s.slicedAt n fn).slice = n
    ∧ (s.slicedAt n fn).quantaRun = 0 ∧ (s.slicedAt n fn).quanta = s.quantaNext.getD s.quanta ∧ (s.slicedAt n fn).quantaNext = none :=
  ⟨rfl, rfl, rfl, tableToCome_quanta s⟩

/-- The units that leave as a slice begins. -/
def LeavesTo (s t : State) (fn : Option Nat) : Prop := ∀ u ∈ s.units, s.unit? u.key = some u → some u.key.fn ≠ fn → isSuper u.key = false → u.ending = none →
  (u.vacating = false → u.unrestored = false → ∃ u', t.unit? u.key = some u' ∧ u'.vacating = true ∧ .unitVacate u.key ∈ t.agenda)
  ∧ (u.unrestored = true → SentBack t u.key)

/-- What stands once a slice has begun: memory as it was, the table to come, and the units of other functions on their way. -/
theorem slice_begun (s : State) (n : Nat) (fn : Option Nat) {us : List Unit} (hus : ∀ u ∈ s.units, some u.key.fn ≠ fn → u ∈ us) :
    let t := vacateAll (s.slicedAt n fn) us
    SameMemory s t ∧ t.tenant = fn ∧ t.slice = n ∧ t.quantaRun = 0 ∧ t.quanta = s.quantaNext.getD s.quanta ∧ t.quantaNext = none ∧ LeavesTo s t fn := by
  intro t
  obtain ⟨x, hx⟩ : ∃ x, s.slicedAt n fn = x := ⟨_, rfl⟩
  have hmem : SameMemory s x := hx ▸ slicedAt_sameMemory s n fn
  have hunits : x.units = s.units := hx ▸ slicedAt_units ..
  obtain ⟨htenant, hslice, hrun, hquanta, hnext⟩ := slicedAt_fields s n fn
  rw [hx] at htenant hslice hrun hquanta hnext
  have ht : t = vacateAll x us := congrArg (vacateAll · us) hx
  rw [ht]
  have htouch := touches_vacateAll x us
  refine ⟨fun sp hsp a => (vacateAll_sameMemory x us sp hsp a).trans (hmem sp hsp a), (htouch.keeps .tenant (by decide)).trans htenant,
    (htouch.keeps .slice (by decide)).trans hslice, (htouch.keeps .quantaRun (by decide)).trans hrun, (htouch.keeps .quanta (by decide)).trans hquanta,
    (htouch.keeps .quantaNext (by decide)).trans hnext, fun u hu hunit hfn hsuper hend => ⟨fun hvac hrest => ?_, fun hrest => ?_⟩⟩
  · obtain ⟨v, hv, hgoes, hdue⟩ := vacateAll_vacates (s := x) (hus u hu hfn) ((State.unit?_congr hunits _).trans hunit) hsuper hend hrest
    exact ⟨v, hv, hgoes, hdue hvac⟩
  · exact vacateAll_sentBack (hus u hu hfn) hsuper hend hrest

theorem sliceEnd_goes {a : Nat} {q : Quantum} (htenant : s.tenant = some a) (hq : s.quanta[s.slice]? = some q) (hok : Quantum.ok s q = true) (hfn : q.fn = a)
    (hgoes : switchGoes s = false) (hrun : s.quantaRun + 1 < q.weight) (hwork : hasWork s a = true) :
    exec .sliceEnd s = .next { s with quantaRun := s.quantaRun + 1 } := by
  have hany : s.quanta.any (Quantum.ok s) = true := List.any_eq_true.2 ⟨q, List.mem_of_getElem? hq, hok⟩
  show execSliceEnd s = _
  unfold execSliceEnd
  rw [if_neg (by simp [hany, hgoes]), htenant, hq]
  dsimp only
  rw [if_pos (by simp [hok, hfn, hrun, hwork])]

theorem sliceEnd_waits (hgoes : switchGoes s = true) : exec .sliceEnd s = .next s := by
  show execSliceEnd s = _
  unfold execSliceEnd
  rw [if_pos (by simp [hgoes])]

theorem sliceEnd_ends (hover : ∀ a q, s.tenant = some a → s.quanta[s.slice]? = some q →
      Quantum.ok s q = false ∨ q.fn ≠ a ∨ q.weight ≤ s.quantaRun + 1 ∨ hasWork s a = false)
    (htable : s.quantaNext ≠ none ∨ s.quanta.any (Quantum.ok s) = true) (hgoes : switchGoes s = false) : exec .sliceEnd s = .next (endSlice s) := by
  show execSliceEnd s = _
  unfold execSliceEnd
  rw [if_neg ?_]
  · split
    · next a q htenant hq =>
      rw [if_neg ?_]
      rcases hover a q htenant hq with h | h | h | h
      · simp [h]
      · simp [h]
      · simp [Nat.not_lt.2 h]
      · simp [h]
    · rfl
  · rcases htable with h | h
    · simp [h, hgoes]
    · simp [h, hgoes]

/-- The words of a core's planes. -/
theorem planeWords_four : 4 * planeWords = 65536 := by decide

/-! ## The watchdog -/

theorem causeWord_watchdog : causeWord { code := C.WATCHDOG } = 0x13 := by decide

/-- A unit of a launch whose watchdog runs out: it is told to halt, or is off its core at once. -/
theorem watchdog_unit (hl : s.launch? l.fn l.lid = some l) (hactive : l.state = .active) (hheld : l.held = false) (howner : s.owner = some l.fn)
    (hu : u ∈ unitsOf s l) : ∃ t, exec (.watchdog l.fn l.lid) s = .next t
      ∧ ((∀ x ∈ unitsOf s l, x.key = u.key → x.unrestored = false) → (∃ u', t.unit? u.key = some u' ∧ u'.halted = true ∧ u'.ending = some 0x13)
        ∧ ∃ l', t.launch? l.fn l.lid = some l' ∧ l'.state = .cancelled ∧ l'.failed = true ∧ l'.owes = true)
      ∧ (u.unrestored = true → t.unit? u.key = none) := by
  obtain ⟨m, hm, hfn, hlid, heq⟩ := watchdog_bites hl hactive hheld howner
  refine ⟨_, heq, fun hrest => ?_, fun hrest => watchdog_gone hu hrest ..⟩
  obtain ⟨hdoomed, hlaunch⟩ := watchdog_dooms (by rw [hfn, hlid]; exact hm) ⟨hfn, hlid⟩ hu hrest { code := C.WATCHDOG }
  rw [hfn, hlid] at hlaunch
  rw [← causeWord_watchdog]
  exact ⟨hdoomed, _, hlaunch, rfl, rfl, rfl⟩

/-! ## A restored unit -/

/-- Neither its interrupt state nor its leaving bears on a unit's barriers and groups. -/
theorem joined_bar (i : IntState) (u : Unit) (b : Nat) : (Unit.withUi i u.stays).bar b = u.bar b := rfl

theorem joined_grp? (i : IntState) (u : Unit) (gid : Nat) : (Unit.withUi i u.stays).grp? gid = u.grp? gid := rfl

/-- What `BenchSteps` says of a unit that a restoration has brought back. -/
theorem restored_says (hu : s.unit? u.key = some u) (hl : launchOf s u = some l) (hcore : u.core = core) (rd : Rd) (hhalt : u.halted = false)
    (hsound : ∀ g ∈ u.grps, g.live = true → g.fault = false ∧ g.ents ≠ [])
    (hlate : ∀ i < 4 * l.g, (rd (l.imgLate + 272 * i) 4).testBit 31 = false) (hcmds : ∀ n < 32, rd (l.imgCmds + 1024 * n + 12) 1 = 0)
    (howner : s.owner = some l.fn) (hfence : (s.die (dieOf core)).fence.getLsbD (core % 64) = false) :
    ∃ i, (restoreUnit s u l rd []).unit? u.key = some (Unit.withUi i (u.restored s rd l []).stays)
      ∧ (l.bound = false → (restoreUnit s u l rd []).rdBytes 3 (vaultKey (vaultNo core) u.vault) l.b = bytesOfNat l.b (rd l.imgVault l.b)) := by
  subst hcore
  obtain ⟨hname, -⟩ := State.launch?_spec hl
  obtain ⟨heq, i, hi⟩ := restoreUnit_settled hu hsound hhalt hlate hcmds (howner.trans (congrArg some hname)) hfence
  rw [heq]
  exact ⟨i, hi, fun hbound => settled_vault hbound s u rd []⟩

end Sys2Proof.Machine
end
section
open Sys2Proof Sys2Proof.Machine Sys2Proof.Claims

/-- Settles O48: each step by its own equation; units that leave by the lemmas of `vacateAll`, placed and restored units by what stands in them. -/
theorem benchSteps : Obligations.BenchSteps := by
  unfold Obligations.BenchSteps
  intro s l core hl now
  refine ⟨fun hactive => ⟨watchdog_waits hl hactive, fun hheld howner u hu => watchdog_unit hl hactive hheld howner hu⟩,
    fun u hmem hu hcore hsuper hvac hend hrest => ⟨fun hctx hlive => ?_, fun hvictim => ?_⟩, fun u hmem hu hcore hsuper hend hrest hvictim => ?_,
    fun hjoin => ⟨workRequest_ready hjoin hl, fun i l' v sv hserve hactive hticket hv hsv hnew => ?_, fun v a hserve ha => ?_⟩,
    fun pre hready hheld h0 hpre => ?_, fun u hu hlaunch hsuper hvac hrest => ?_, fun u hu hlaunch hsuper hvac hrest => ?_,
    ?_, fun a q htenant hq hok hfn => sliceEnd_goes htenant hq hok hfn, sliceEnd_waits, ?_⟩
  · have hin : u ∈ yielders s core := List.mem_filter.2 ⟨mem_userUnits hmem hcore hsuper, by simpa [hctx] using hlive⟩
    obtain ⟨v, hv, hgoes, hdue⟩ := vacateAll_vacates hin hu hsuper hend (unrestored_of_not_restoring hu hrest)
    exact ⟨_, v, yieldCore_eq .., hv, hgoes, hdue hvac, vacateAll_sameMemory _ _⟩
  · obtain ⟨v, hv, hgoes, hdue⟩ := vacateAll_vacates (s := s.modLaunch l.fn l.lid (Launch.takes core)) (mem_userUnits hmem hcore hsuper) hu hsuper hend
      (unrestored_of_not_restoring hu hrest)
    exact ⟨_, v, spatial_eq hl hvictim, hv, hgoes, hdue hvac, _, spatial_launch hl .., rfl⟩
  · exact ⟨_, spatial_eq hl hvictim, vacateAll_sentBack (mem_userUnits hmem hcore hsuper) hsuper hend hrest⟩
  · obtain ⟨t, sv', ui, hexec, hunit⟩ := workRequest_places hjoin hl hserve hactive hticket hv (by rw [hsv]; rfl) hnew
    exact ⟨t, _, hexec, hunit, rfl, rfl, rfl, rfl, freshUnit_gids s core l i v sv',
      fun g hg => freshUnit_ents (idx := i) (v := v) (sv := sv') hg⟩
  · obtain ⟨u, hunit, hdue, hunits, hlaunch, hplanes⟩ := placeVacated_facts (v := v) hl ha
    refine ⟨_, workRequest_restore hjoin hl hserve, ⟨_, hlaunch, fun w hw => by simpa using (List.mem_filter.1 hw).2⟩, fun old hold hnew => ?_⟩
    obtain ⟨hkey, hcore, hvault, hgoes, hunrestored⟩ := hunit old hold
    refine ⟨hkey ▸ hdue, ⟨u, ?_, hcore, hvault, hgoes, hunrestored⟩, fun c hla hfree hc => ?_⟩
    · rw [State.unit?, hunits, ← hkey]
      exact unit?_appended (hkey ▸ hnew)
    · have hrd : placedRd s l v = imageRd s c v.save := by rw [placedRd, hc]
      rw [hrd] at hplanes
      obtain ⟨hholder, hwords⟩ := hplanes hla hfree
      refine ⟨hholder, fun w hw => hwords w ?_⟩
      rw [planeWords_four]
      exact hw
  · obtain ⟨t, hexec, hsame, hlaunch⟩ := firstTicket_facts hl hready hheld h0 hpre
    exact ⟨t, hexec, hsame, _, hlaunch, rfl, rfl, rfl⟩
  · have hrest' := unrestored_of_not_restoring hu hrest
    rw [unitVacate_eq hu hlaunch hsuper hvac, if_neg (by simp [hrest'])]
    refine ⟨fun hdone => if_pos ?_, fun hdone hend hwaits => ?_, fun hdone hend hwaits => ?_⟩
    · rcases hdone with h | h
      · simp [h]
      · simp [Option.isSome_iff_ne_none.2 h]
    · rw [if_neg (by simp [hdone, hend]), if_pos hwaits]
    · rw [if_neg (by simp [hdone, hend]), if_neg (by simp [hwaits])]
      obtain ⟨hgone, v, hidx, hsave, hresumed⟩ := saveUnit_facts hu hl
      exact ⟨_, rfl, hgone, _, hresumed, v, by simp [Launch.resumed], hidx, hsave⟩
  · rw [unitVacate_eq hu hlaunch hsuper hvac, if_pos hrest]
    refine ⟨fun hlower => by rw [if_pos hlower], fun hlower => ?_⟩
    rw [if_neg (by simp [hlower])]
    obtain ⟨v, hidx, hsave, hresumed⟩ := launch?_unplace hl u
    exact ⟨_, rfl, unit?_unplace .., _, hresumed, v, rfl, hidx, hsave⟩
  · intro u c hu hlaunch hc hvac hrest hend hcore rd hbad hnames
    have hexec := unitRestore_eq hu hlaunch hc hvac hrest hend hcore hbad hnames
    refine ⟨hexec, fun hhalt hsound hlate hcmds howner hfence => ?_⟩
    obtain ⟨i, hi, hvault⟩ := restored_says hu hlaunch hcore rd hhalt hsound hlate hcmds howner hfence
    refine ⟨_, _, hexec, hi, rfl, rfl, hcore, rfl, rfl, rfl, rfl,
      fun b hb => (joined_bar i _ b).trans (restored_bar u s hb), fun w hw => restored_acc (rd := rd) (l := l) (ws := []) u s hw, hvault, fun g hg hgid => ?_⟩
    intro b
    have hfound := (joined_grp? i (u.restored s rd l []) g.gid).trans (restored_grp? hsound hhalt s hg)
    obtain ⟨hrun, hfront, hmasks, hpreds, hvectors, hscalars⟩ := restored_facts hgid (rd := rd) [] .running
    exact ⟨g.restored rd l [] .running, hfound, hrun, hfront, hmasks, hpreds, hvectors, hscalars⟩
  · intro qs takes leave hover htable hgoes
    have hexec := sliceEnd_ends hover htable hgoes
    refine ⟨fun i q hi htakes hbefore => ?_, fun hnone => ?_, fun hany hnone => ?_⟩
    · obtain ⟨hsame, htenant, hslice, hrun, hquanta, hnext, hleave⟩ := slice_begun s ((s.slice + 1 + i) % qs.length) (some q.fn)
        (us := s.units.filter fun u => u.key.fn != q.fn) fun u hu hfn => List.mem_filter.2 ⟨hu, by simpa using hfn⟩
      exact ⟨_, hexec.trans (congrArg _ (endSlice_next hi htakes hbefore)), hsame, htenant, hslice, hrun, hquanta, hnext, hleave⟩
    · obtain ⟨hsame, htenant, -, -, hquanta, -, hleave⟩ := slice_begun s 0 (some 0)
        (us := s.units.filter fun u => u.key.fn != 0) fun u hu hfn => List.mem_filter.2 ⟨hu, by simpa using hfn⟩
      exact ⟨_, hexec.trans (congrArg _ (endSlice_default hnone)), hsame, htenant, hquanta, hleave⟩
    · obtain ⟨hsame, htenant, -, -, hquanta, -, hleave⟩ := slice_begun s s.slice none (us := s.units) fun u hu _ => hu
      exact ⟨_, hexec.trans (congrArg _ (endSlice_idle hany hnone)), hsame, htenant, hquanta, hleave⟩
end

section
/-! PROOFS. Memories and their marks stay canonical (R4, R9): what it means of each form in which a function of the model answers a state,
and how branches, folds and binds keep it. -/

namespace Sys2Proof.Machine

variable {s : State}

/-! ## Answers that hold a state -/

/-- A stop whose state, if it holds one, is canonical. -/
def Stop.Canonical : Stop → Prop
  | .doneTrap s _ | .trapWith s _ | .waitWith s _ => s.memWf
  | _ => True

/-- An answer that has a property, or a stop that is canonical. -/
def ExcAll {α : Type} (P : α → Prop) : Exc α → Prop
  | .ok a => P a
  | .error e => e.Canonical

/-- An answer without a state, or a stop that is canonical. -/
def Plain {α : Type} (x : Exc α) : Prop := ExcAll (fun _ => True) x

/-- An outcome whose next state is canonical. -/
def Canonical (out : Host.Outcome State Fault Refusal) : Prop := ∀ t, out = .next t → t.memWf

/-- Every state of an optional one is canonical. -/
def OptAll {α : Type} (P : α → Prop) (o : Option α) : Prop := ∀ a, o = some a → P a

/-- Every state of an answer of a kind of its own is canonical. -/
def OkAll {ε α : Type} (P : α → Prop) (x : Except ε α) : Prop := ∀ a, x = .ok a → P a

/-- A state with something else is canonical. -/
def FstWf {α : Type} (p : State × α) : Prop := p.1.memWf

theorem FstWf.of_eq {α : Type} {p : State × α} {x : α} (h : FstWf p) (hp : p = (s, x)) : s.memWf := by
  subst hp
  exact h

/-- A piece with something else is canonical. -/
def Piece.memWf (p : Piece) : Prop := p.s.memWf

/-- The state that a plan runs on is canonical. -/
def Plan.memWf : Plan → Prop
  | .idle => True
  | .trap s => s.memWf
  | .run _ s => s.memWf

/-- The state that a piece of a compression or decompression comes to is canonical. -/
def ZEnd.memWf : ZEnd → Prop
  | .word s _ => s.memWf
  | .more s _ _ _ _ => s.memWf
  | _ => True

/-! ## Branches and folds -/

theorem holds_ite {α : Type} {P : α → Prop} {c : Prop} [Decidable c] {a b : α} (ha : P a) (hb : P b) : P (if c then a else b) := by
  split
  · exact ha
  · exact hb

theorem holds_foldl {α β : Type} {P : α → Prop} {f : α → β → α} {a : α} {xs : List β} (hf : ∀ a, P a → ∀ x, P (f a x)) (ha : P a) :
    P (xs.foldl f a) := by
  induction xs generalizing a with
  | nil => exact ha
  | cons x xs ih => exact ih (hf a ha x)

/-! ## Marks -/

theorem State.memWf_badCrc {k : Nat} {b : Bool} (h : s.memWf) : State.memWf { s with badCrc := Sparse.set false s.badCrc k b } := by
  obtain ⟨hh, hp, ho, hv, hm, hc⟩ := h
  exact ⟨hh, hp, ho, hv, hm, Sparse.set_wf hc⟩

/-! ## Optional states -/

section
variable {ε α : Type} {P : α → Prop}

theorem optAll_none : OptAll P none := fun _ h => by cases h

theorem optAll_some {a : α} (h : P a) : OptAll P (some a) := fun _ ha => by cases ha; exact h

theorem optAll_getD {o : Option α} {a : α} (ho : OptAll P o) (ha : P a) : P (o.getD a) := by
  cases o with
  | none => exact ha
  | some b => exact ho b rfl

theorem okAll_ok {a : α} (h : P a) : OkAll (ε := ε) P (.ok a) := fun _ ha => by cases ha; exact h

theorem okAll_error {e : ε} : OkAll P (.error e) := fun _ h => by cases h

variable {β : Type} {Q : β → Prop}

theorem okAll_bind {x : Except ε α} {f : α → Except ε β} (hx : OkAll P x) (hf : ∀ a, P a → OkAll Q (f a)) : OkAll Q (x >>= f) := by
  cases x with
  | ok a => exact hf a (hx a rfl)
  | error e => exact okAll_error

theorem okAll_read {x : Except ε α} {f : α → Except ε β} (hf : ∀ a, OkAll Q (f a)) : OkAll Q (x >>= f) :=
  okAll_bind (P := fun _ => True) (fun _ _ => trivial) fun a _ => hf a

/-- A check that is made in some cases only. -/
theorem okAll_guard {p : Prop} [Decidable p] {x : Except ε PUnit} {f : PUnit → Except ε β} (hf : ∀ a, OkAll Q (f a)) :
    OkAll Q (if p then x >>= f else f ⟨⟩) := holds_ite (okAll_read hf) (hf ⟨⟩)

end

/-! ## Outcomes -/

theorem canonical_next (h : s.memWf) : Canonical (.next s) := fun _ ht => by cases ht; exact h

theorem canonical_fault {f : Fault} : Canonical (.fault f) := fun _ ht => by cases ht

theorem canonical_refused {r : Refusal} : Canonical (.refused r) := fun _ ht => by cases ht

/-! ## Answers that may stop -/

section
variable {α β : Type} {P : α → Prop} {Q : β → Prop}

theorem excAll_ok {a : α} (h : P a) : ExcAll P (.ok a) := h

theorem excAll_pure {a : α} (h : P a) : ExcAll P (pure a) := h

theorem excAll_trap {x : Trap} : ExcAll P (.error (.trap x)) := trivial

theorem excAll_stop {x : Trap} : ExcAll P (stop x) := trivial

theorem excAll_doneTrap {x : Trap} (h : s.memWf) : ExcAll P (.error (.doneTrap s x)) := h

theorem excAll_waitWith {w : Wait} (h : s.memWf) : ExcAll P (.error (.waitWith s w)) := h

theorem excAll_bind {x : Exc α} {f : α → Exc β} (hx : ExcAll P x) (hf : ∀ a, P a → ExcAll Q (f a)) : ExcAll Q (x >>= f) := by
  cases x with
  | ok a => exact hf a hx
  | error e => exact hx

theorem plain_bind {x : Exc α} {f : α → Exc β} (hx : Plain x) (hf : ∀ a, ExcAll Q (f a)) : ExcAll Q (x >>= f) := excAll_bind hx fun a _ => hf a

/-- A check that a word makes in some cases only. -/
theorem plain_guard {p : Prop} [Decidable p] {x : Exc PUnit} {f : PUnit → Exc β} (hx : Plain x) (hf : ∀ a, ExcAll Q (f a)) :
    ExcAll Q (if p then x >>= f else f ⟨⟩) := holds_ite (plain_bind hx hf) (hf ⟨⟩)

/-- A read that a word makes in some cases only, for its check alone. -/
theorem plain_guard_read {p : Prop} [Decidable p] {x : Exc α} {y : Exc β} (hx : Plain x) (hy : ExcAll Q y) :
    ExcAll Q (if p then x >>= (fun _ => y) else y) := holds_ite (plain_bind hx fun _ => hy) hy

theorem excAll_map {x : Exc α} {f : α → β} (hx : ExcAll P x) (hf : ∀ a, P a → Q (f a)) : ExcAll Q (f <$> x) := by
  cases x with
  | ok a => exact hf a hx
  | error e => exact hx

end

/-! ## Words -/

theorem view_canonical {n : Nat} {c : Cx} (h : s.memWf) (hc : view? s n = some c) : c.s.memWf := by
  obtain ⟨hs, -⟩ := view?_spec hc
  rw [hs]
  exact h

end Sys2Proof.Machine
end

section
/-! PROOFS. Canonical memory in what plans a step and in what every step does at its end (R4, R9). -/

namespace Sys2Proof.Machine

/-! ## Groups, cores and the mailbox -/

theorem State.modUnit_memWf {s k f} (h : s.memWf) : (State.modUnit s k f).memWf := by
  unfold State.modUnit
  exact h

theorem mirrorRec_memWf {s k gid} (h : s.memWf) : (mirrorRec s k gid).memWf := by
  unfold mirrorRec
  split
  · exact h
  · split
    · exact h
    · exact sysWriteBytes_memWf h ..

theorem State.due_memWf {s i} (h : s.memWf) : (State.due s i).memWf := by
  unfold State.due
  exact holds_ite h h

theorem State.setCore_memWf {s c v} (h : s.memWf) : (State.setCore s c v).memWf := by
  unfold State.setCore
  exact h

theorem postNow_memWf {s u g} (h : s.memWf) : (postNow s u g).memWf := by
  unfold postNow
  exact holds_ite (State.setCore_memWf h) (State.setCore_memWf h)

theorem mailPump_memWf {s core} (h : s.memWf) : (mailPump s core).memWf := by
  unfold mailPump
  dsimp only
  split
  · refine holds_ite h ?_
    split
    · exact holds_ite (postNow_memWf (State.setCore_memWf h)) (State.setCore_memWf h)
    · exact State.setCore_memWf h
  · split
    · exact holds_ite h (State.setCore_memWf h)
    · exact h

theorem State.modCore_memWf {s c f} (h : s.memWf) : (State.modCore s c f).memWf := by
  unfold State.modCore
  exact State.setCore_memWf h

theorem postSlots_memWf {s core slots} (h : s.memWf) : (postSlots s core slots).memWf := by
  unfold postSlots
  exact holds_foldl (fun _ h _ => mailPump_memWf h) (State.modCore_memWf h)

theorem postFault_memWf {s u g} (h : s.memWf) : (postFault s u g).memWf := by
  unfold postFault
  dsimp only
  split
  · exact postSlots_memWf (State.setCore_memWf h)
  · exact holds_ite (State.setCore_memWf h) (postNow_memWf h)

theorem State.modGrp_memWf {s k gid f} (h : s.memWf) : (State.modGrp s k gid f).memWf := by
  unfold State.modGrp
  exact State.modUnit_memWf h

theorem stopSibling_memWf {s k gid src} (h : s.memWf) : (stopSibling s k gid src).memWf := by
  unfold stopSibling
  split
  · exact h
  · split
    · exact h
    · exact holds_ite (State.modGrp_memWf h) (mirrorRec_memWf (State.modGrp_memWf h))

theorem haltSibling_memWf {s k src g} (h : s.memWf) : (haltSibling s k src g).memWf := by
  unfold haltSibling
  exact holds_ite h (holds_ite (stopSibling_memWf (State.modGrp_memWf h)) (State.due_memWf (State.modGrp_memWf h)))

theorem broadcastHalt_memWf {s u src gid} (h : s.memWf) : (broadcastHalt s u src gid).memWf := by
  unfold broadcastHalt
  exact holds_foldl (fun _ h _ => haltSibling_memWf h) h

theorem takeFault_memWf {s k gid word pc t extra issuing} (h : s.memWf) : (takeFault s k gid word pc t extra issuing).memWf := by
  unfold takeFault
  split
  · exact h
  · split
    · exact h
    · dsimp only
      refine holds_ite (State.due_memWf (mirrorRec_memWf (State.modUnit_memWf h))) ?_
      exact postFault_memWf (broadcastHalt_memWf (mirrorRec_memWf (State.modUnit_memWf h)))

theorem fetchFault_memWf {s k gid ent word e t} (h : s.memWf) : (fetchFault s k gid ent word e t).memWf := by
  unfold fetchFault
  exact takeFault_memWf (State.modGrp_memWf h)

/-! ## The plan of a step -/

theorem State.modDie_memWf {s d f} (h : s.memWf) : (State.modDie s d f).memWf := by
  unfold State.modDie
  exact h

theorem spend_memWf {s die e est} (h : s.memWf) : (spend s die e est).memWf := by
  unfold spend
  exact State.modDie_memWf h

theorem addEnergy_memWf {s k n} (h : s.memWf) : (addEnergy s k n).memWf := by
  unfold addEnergy
  exact State.modUnit_memWf h

theorem chargeEnd_memWf {s k die est} (h : s.memWf) : (chargeEnd s k die est).memWf := by
  unfold chargeEnd
  exact spend_memWf (addEnergy_memWf h)

theorem withRace_memWf {s k f} (h : s.memWf) : (withRace s k f).memWf := by
  unfold withRace
  exact holds_ite (State.modUnit_memWf h) h

theorem joinRegs_memWf {s k g w i} (h : s.memWf) : (joinRegs s k g w i).memWf := by
  unfold joinRegs
  exact holds_ite h (withRace_memWf h)

theorem missAt_memWf {s core ctx va} (h : s.memWf) : (missAt s core ctx va).memWf := by
  unfold missAt
  exact holds_ite h (State.due_memWf h)

theorem wordFetched_memWf {s u pc} (h : s.memWf) : (wordFetched s u pc).memWf := by
  unfold wordFetched
  exact missAt_memWf (missAt_memWf h)

theorem issueWord_planWf {s k gid ent} (h : s.memWf) : (issueWord s k gid ent).memWf := by
  unfold issueWord
  split
  · exact trivial
  · split
    · exact trivial
    · split
      · exact trivial
      · split
        · exact fetchFault_memWf h
        · split
          · exact fetchFault_memWf h
          · refine holds_ite (State.modGrp_memWf h) ?_
            extract_lets s1
            have h1 : s1.memWf := chargeEnd_memWf (joinRegs_memWf (wordFetched_memWf h))
            exact h1

theorem noteSelected_memWf {s u g} (h : s.memWf) : (noteSelected s u g).memWf := by
  unfold noteSelected
  exact holds_ite (State.modCore_memWf h) (State.modCore_memWf h)

theorem opportunity_memWf {s u g b} (h : s.memWf) : (opportunity s u g b).memWf := by
  unfold opportunity
  extract_lets run ents s1
  have h1 : s1.memWf := State.modGrp_memWf (noteSelected_memWf h)
  exact h1

theorem issueGroup_planWf {s k gid} (h : s.memWf) : (issueGroup s k gid).memWf := by
  unfold issueGroup
  split
  · exact trivial
  · split
    · exact trivial
    · split
      · exact trivial
      · exact issueWord_planWf (opportunity_memWf h)

theorem carry_planWf {s x} (h : s.memWf) : (carry s x).memWf := by
  unfold carry
  split
  · split
    · exact h
    · exact trivial
  · exact issueGroup_planWf h

theorem plan_planWf {s} (h : s.memWf) : (plan s).memWf := by
  unfold plan
  split
  · exact issueWord_planWf h
  · dsimp only
    split
    · exact trivial
    · exact carry_planWf h
    · exact carry_planWf h

/-! ## What a step brings due -/

theorem rejoinTrap_memWf {s u g} (h : s.memWf) : (rejoinTrap s u g).memWf := by
  unfold rejoinTrap
  split
  · exact h
  · exact takeFault_memWf h

theorem State.dueIf_memWf {s b i} (h : s.memWf) : (State.dueIf s b i).memWf := by
  unfold State.dueIf
  exact holds_ite (State.due_memWf h) h

theorem settleGroup_memWf {s k gid} (h : s.memWf) : (settleGroup s k gid).memWf := by
  unfold settleGroup
  split
  · exact h
  · split
    · exact h
    · refine holds_ite (State.due_memWf h) ?_
      refine holds_ite h ?_
      refine holds_ite (holds_ite (rejoinTrap_memWf h) h) ?_
      dsimp only
      refine holds_ite ?_ (State.dueIf_memWf (State.dueIf_memWf (State.dueIf_memWf (State.dueIf_memWf h))))
      exact rejoinTrap_memWf (State.dueIf_memWf (State.dueIf_memWf (State.dueIf_memWf (State.dueIf_memWf h))))

theorem settleCmd_memWf {s u agent m} (h : s.memWf) : (settleCmd s u agent m).memWf := by
  unfold settleCmd
  exact State.dueIf_memWf (State.dueIf_memWf (State.dueIf_memWf (State.dueIf_memWf (State.dueIf_memWf h))))

theorem settleUnit_memWf {s k} (h : s.memWf) : (settleUnit s k).memWf := by
  unfold settleUnit
  refine holds_ite h ?_
  split
  · exact h
  · dsimp only
    split
    · exact holds_foldl (fun _ h _ => settleGroup_memWf h) h
    · refine State.dueIf_memWf ?_
      exact State.dueIf_memWf (holds_foldl (fun _ h1 _ => settleCmd_memWf h1) (holds_foldl (fun _ h2 _ => settleGroup_memWf h2) h))

theorem releaseHeld_memWf {s core} (h : s.memWf) : (releaseHeld s core).memWf := by
  unfold releaseHeld
  exact holds_ite h (postSlots_memWf (State.setCore_memWf h))

theorem settleCore_memWf {s core} (h : s.memWf) : (settleCore s core).memWf := by
  unfold settleCore
  dsimp only
  split
  · exact State.dueIf_memWf (holds_foldl (fun _ h _ => State.dueIf_memWf h) (releaseHeld_memWf h))
  · exact State.dueIf_memWf (holds_foldl (fun _ h1 _ => State.dueIf_memWf h1) (releaseHeld_memWf h))

theorem settleNames_memWf {s} (h : s.memWf) : (settleNames s).memWf := by
  unfold settleNames
  exact holds_foldl (fun _ h _ => holds_foldl (fun _ h1 _ => State.due_memWf h1) h) h

/-! ## Launches, levels and signals -/

theorem orphan_memWf {s p} (h : s.memWf) : (orphan s p).memWf := by
  unfold orphan
  exact h

theorem cancelSaved_memWf {s l v} (h : s.memWf) : (cancelSaved s l v).memWf := by
  unfold cancelSaved
  split
  · exact h
  · dsimp only
    refine holds_foldl (fun _ h _ => ?_) (orphan_memWf h)
    split
    · exact holds_ite (sysWrite_memWf (sysWrite_memWf (sysWrite_memWf h ..) ..) ..) h
    · exact h

theorem State.modLaunch_memWf {s fn lid f} (h : s.memWf) : (State.modLaunch s fn lid f).memWf := by
  unfold State.modLaunch
  exact h

theorem State.modLevel_memWf {s fn kind id f} (h : s.memWf) : (State.modLevel s fn kind id f).memWf := by
  unfold State.modLevel
  exact h

theorem State.modFunc_memWf {s f g} (h : s.memWf) : (State.modFunc s f g).memWf := by
  unfold State.modFunc
  exact h

theorem ringWrite_memWf {s va size pos bs} (h : s.memWf) : (ringWrite s va size pos bs).memWf := by
  induction bs generalizing s pos with
  | nil => exact h
  | cons b bs ih => exact ih (State.wr_memWf h ..)

theorem ringPump_memWf {s fn n} (h : s.memWf) : (ringPump s fn n).memWf := by
  induction n generalizing s with
  | zero => exact h
  | succ n ih =>
    unfold ringPump
    dsimp only
    split
    · exact h
    · exact holds_ite h (ih (State.modFunc_memWf (ringWrite_memWf h)))

theorem sendRecord_memWf {s fn r} (h : s.memWf) : (sendRecord s fn r).memWf := by
  unfold sendRecord
  exact ringPump_memWf (State.modFunc_memWf h)

theorem notice_memWf {s fn op fields} (h : s.memWf) : (notice s fn op fields).memWf := by
  unfold notice
  exact sendRecord_memWf h

theorem resolveOrd_plain {c spec l va n} : Plain (resolveOrd c spec l va n) := by
  unfold resolveOrd
  refine holds_ite trivial ?_
  refine holds_ite excAll_stop ?_
  dsimp only
  refine holds_ite ?_ (holds_ite excAll_stop excAll_stop)
  exact holds_ite trivial (holds_ite excAll_stop (holds_ite trivial (holds_ite trivial (holds_ite trivial trivial))))

theorem setHeld_memWf {s sp a n rs} (h : s.memWf) : (setHeld s sp a n rs).memWf := by
  unfold setHeld
  exact h

theorem signalStep_memWf {s fn ctx va lid failed know} (h : s.memWf) : (signalStep s fn ctx va lid failed know).memWf := by
  unfold signalStep
  refine holds_ite h ?_
  split
  · exact notice_memWf h
  · split
    · exact notice_memWf h
    · exact holds_ite (notice_memWf h) (holds_ite (notice_memWf h) (holds_ite (setHeld_memWf (State.wrN_memWf h ..)) (State.wrN_memWf h ..)))

theorem levelDown_memWf {s fn failed n kind id} (h : s.memWf) : (levelDown s fn failed n kind id).memWf := by
  induction n generalizing s failed kind id with
  | zero => exact h
  | succ n ih =>
    unfold levelDown
    split
    · exact h
    · dsimp only
      refine holds_ite (State.modLevel_memWf h) (ih ?_)
      exact signalStep_memWf h

theorem forgetLaunch_memWf {s fn lid} (h : s.memWf) : (forgetLaunch s fn lid).memWf := by
  unfold forgetLaunch
  split
  · exact h
  · exact holds_ite h (holds_ite h (levelDown_memWf (signalStep_memWf h)))

theorem finishLaunch_memWf {s l st failed} (h : s.memWf) : (finishLaunch s l st failed).memWf := by
  unfold finishLaunch
  extract_lets s1 know s2 s3
  have h1 : s1.memWf := holds_ite (holds_foldl (fun _ h _ => cancelSaved_memWf h) h) h
  have h2 : s2.memWf := State.modLaunch_memWf h1
  have h3 : s3.memWf := h2
  exact forgetLaunch_memWf (State.modFunc_memWf h3)

theorem readyUp_memWf {s n} (h : s.memWf) : (readyUp s n).memWf := by
  induction n generalizing s with
  | zero => exact h
  | succ n ih =>
    unfold readyUp
    split
    · exact h
    · exact holds_ite (ih (finishLaunch_memWf h)) (ih (State.modLaunch_memWf h))

theorem returnCores_memWf {s} (h : s.memWf) : (returnCores s).memWf := by
  unfold returnCores
  exact holds_ite h h

theorem settleBench_memWf {s} (h : s.memWf) : (settleBench s).memWf := by
  unfold settleBench
  dsimp only
  refine State.dueIf_memWf ?_
  refine holds_ite ?_ ?_
  · refine holds_foldl (fun _ h _ => State.dueIf_memWf h) ?_
    refine holds_foldl (fun _ h1 _ => holds_foldl (fun _ h2 _ => State.dueIf_memWf h2) h1) ?_
    refine holds_ite ?_ (returnCores_memWf (holds_ite (readyUp_memWf h) h))
    split
    · exact State.due_memWf (returnCores_memWf (holds_ite (readyUp_memWf h) h))
    · exact holds_foldl (fun _ h3 _ => State.dueIf_memWf h3) (returnCores_memWf (holds_ite (readyUp_memWf h) h))
  · refine holds_foldl (fun _ h4 _ => holds_foldl (fun _ h5 _ => State.dueIf_memWf h5) h4) ?_
    refine holds_ite ?_ (returnCores_memWf (holds_ite (readyUp_memWf h) h))
    split
    · exact State.due_memWf (returnCores_memWf (holds_ite (readyUp_memWf h) h))
    · exact holds_foldl (fun _ h6 _ => State.dueIf_memWf h6) (returnCores_memWf (holds_ite (readyUp_memWf h) h))

theorem settleDies_memWf {s} (h : s.memWf) : (settleDies s).memWf := by
  unfold settleDies
  exact holds_foldl (fun _ h _ => State.dueIf_memWf h) h

/-! ## Functions and their rings -/

theorem State.dueAgain_memWf {s i} (h : s.memWf) : (State.dueAgain s i).memWf := by
  unfold State.dueAgain
  exact h

theorem reply_memWf {s r code off result} (h : s.memWf) : (reply s r code off result).memWf := by
  unfold reply
  exact sendRecord_memWf h

theorem refuse_memWf {s r off} (h : s.memWf) : (refuse s r off).memWf := by
  unfold refuse
  exact reply_memWf h

theorem startRpc_memWf {s r} (h : s.memWf) : (startRpc s r).memWf := by
  unfold startRpc
  split
  · exact State.dueAgain_memWf h
  · exact holds_ite (refuse_memWf h) (reply_memWf h)

theorem consumeFrame_memWf {s fn} (h : s.memWf) : (consumeFrame s fn).memWf := by
  unfold consumeFrame
  dsimp only
  refine holds_ite h ?_
  exact holds_ite (State.modFunc_memWf h) (holds_ite (startRpc_memWf (State.modFunc_memWf h)) (reply_memWf (State.modFunc_memWf h)))

theorem settleFunc_memWf {s fn} (h : s.memWf) : (settleFunc s fn).memWf := by
  unfold settleFunc
  dsimp only
  split
  · exact State.dueIf_memWf (consumeFrame_memWf h)
  · exact consumeFrame_memWf h

theorem settlePorts_memWf {s} (h : s.memWf) : (settlePorts s).memWf := by
  unfold settlePorts
  exact holds_foldl (fun _ h _ => State.dueIf_memWf (State.dueIf_memWf h)) h

theorem resolveVault_plain {s u l base disp n align write} : Plain (resolveVault s u l base disp n align write) := by
  unfold resolveVault
  dsimp only
  refine holds_ite excAll_stop ?_
  exact holds_ite excAll_stop (holds_ite (holds_ite excAll_stop trivial) (holds_ite excAll_stop (holds_ite trivial excAll_stop)))

theorem ptrWrap_excAll {α} {P : α → Prop} {o l} : ExcAll P (ptrWrap o l) := excAll_stop

theorem Cx.locate_plain {c base vault l off n align write} : Plain (Cx.locate c base vault l off n align write) := by
  unfold Cx.locate
  exact holds_ite resolveVault_plain (holds_ite ptrWrap_excAll (holds_ite excAll_stop resolveOrd_plain))

theorem Cx.spot_plain {c base vault l off n align write} : Plain (Cx.spot c base vault l off n align write) := by
  unfold Cx.spot
  exact plain_bind Cx.locate_plain (fun _ => trivial)

theorem settleSwitch_memWf {s} (h : s.memWf) : (settleSwitch s).memWf := by
  unfold settleSwitch
  exact holds_ite h (holds_foldl (fun _ h _ => State.dueIf_memWf h) h)

theorem settle_memWf {s} (h : s.memWf) : (settle s).memWf := by
  unfold settle
  dsimp only
  refine settleSwitch_memWf ?_
  refine holds_foldl (fun _ h _ => settleFunc_memWf h) ?_
  refine settlePorts_memWf ?_
  refine settleNames_memWf ?_
  refine settleBench_memWf ?_
  exact settleDies_memWf (holds_foldl (fun _ h1 _ => settleCore_memWf h1) (holds_foldl (fun _ h2 _ => settleUnit_memWf h2) h))

theorem tock_memWf {s} (h : s.memWf) : (tock s).memWf := by
  unfold tock
  exact h

/-! ## The end of a cycle -/

theorem growFrontier_plain {u g es} : Plain (growFrontier u g es) := by
  unfold growFrontier
  exact holds_ite trivial (holds_ite excAll_stop (holds_ite excAll_stop (holds_ite trivial (holds_ite trivial trivial))))

theorem cutFrontier_memWf {s u g keep rs} (h : s.memWf) : (cutFrontier s u g keep rs).memWf := by
  unfold cutFrontier
  exact State.modUnit_memWf h

theorem unissue_memWf {s k gid ent word g0 stop} (h : s.memWf) : (unissue s k gid ent word g0 stop).memWf := by
  unfold unissue
  dsimp only
  split
  · exact takeFault_memWf (State.modGrp_memWf h)
  · exact State.modGrp_memWf h
  · exact State.modGrp_memWf h

theorem endCycle_memWf {s k gid first} (h : s.memWf) : (endCycle s k gid first).memWf := by
  unfold endCycle
  dsimp only
  split
  · exact h
  · split
    · exact cutFrontier_memWf h
    · exact unissue_memWf h
    · exact cutFrontier_memWf h

end Sys2Proof.Machine
end

section
/-! PROOFS. Canonical memory in the words of family A: they write registers alone (R4, R9, R96 to R127). -/

namespace Sys2Proof.Machine

/-! ## A word by what its body answers -/

theorem advance_memWf {c s} (hs : s.memWf) : (advance c s).memWf := by
  unfold advance
  exact State.modGrp_memWf hs

theorem takeTrap_memWf {c s t extra} (hs : s.memWf) : (takeTrap c s t extra).memWf := by
  unfold takeTrap
  exact takeFault_memWf (State.modGrp_memWf hs)

theorem enterWait_memWf {c s w} (hs : s.memWf) : (enterWait c s w).memWf := by
  unfold enterWait
  exact State.modGrp_memWf hs

theorem finish_canonical {c r} (h : c.s.memWf) (hr : ExcAll State.memWf r) : Canonical (finish c r) := by
  unfold finish
  split
  · exact canonical_next (advance_memWf hr)
  · exact canonical_next (takeTrap_memWf h)
  · exact canonical_next (takeTrap_memWf (advance_memWf hr))
  · exact canonical_next (takeTrap_memWf hr)
  · exact canonical_next (enterWait_memWf h)
  · exact canonical_next (enterWait_memWf hr)
  · exact canonical_fault

theorem word_canonical {s o body} (h : s.memWf) (hbody : ∀ c, c.s.memWf → ExcAll State.memWf (body c)) : Canonical (word s o body) := by
  unfold word
  split
  · exact canonical_next h
  · rename_i _ eh
    have hc := view_canonical h eh
    exact holds_ite (canonical_next (advance_memWf h)) (finish_canonical hc (hbody _ hc))

/-! ## Checks of operands -/

theorem Cx.format_excAll {α} {P : α → Prop} {c o l k} : ExcAll P (Cx.format c o l k) := excAll_stop

theorem Cx.tag_plain {c o n} : Plain (Cx.tag c o n) := by
  unfold Cx.tag
  exact holds_ite trivial Cx.format_excAll

theorem Cx.need_plain {c o n ok} : Plain (Cx.need c o n ok) := by
  unfold Cx.need
  exact plain_bind Cx.tag_plain (fun _ => holds_ite trivial Cx.format_excAll)

theorem Cx.ptrCase_plain {c o sub ta tb} : Plain (Cx.ptrCase c o sub ta tb) := by
  unfold Cx.ptrCase
  refine holds_ite ?_ ?_
  · exact holds_ite trivial Cx.format_excAll
  · exact holds_ite trivial (holds_ite (holds_ite Cx.format_excAll trivial) trivial)

theorem collect_plain {α} {xs : List (Nat × Exc α)} (hx : ∀ x ∈ xs, Plain x.2) : Plain (collect xs) := by
  induction xs with
  | nil => trivial
  | cons x xs ih =>
    obtain ⟨l, v | v⟩ := x
    · exact hx _ (List.mem_cons_self ..)
    · exact plain_bind (ih fun y hy => hx y (List.mem_cons_of_mem _ hy)) (fun _ => trivial)

theorem mapLanes_plain {α} {f : Nat → Exc α} {ls} (hf : ∀ l, Plain (f l)) : Plain (mapLanes f ls) := by
  have all : ∀ x ∈ ls.map fun l => (l, f l), Plain x.2 := fun x hx => by
    obtain ⟨l, -, rfl⟩ := List.mem_map.mp hx
    exact hf l
  unfold mapLanes
  exact plain_bind (collect_plain fun x hx => all x (List.mem_filter.mp hx).1) (fun _ => collect_plain all)

/-! ## Integer and bit words -/

theorem Cx.put_memWf {c g} (h : c.s.memWf) : (Cx.put c g).memWf := by
  unfold Cx.put
  exact State.modGrp_memWf h

theorem Cx.emit_memWf {c d n tag r} (h : c.s.memWf) : (Cx.emit c d n tag r).memWf := by
  unfold Cx.emit
  exact Cx.put_memWf h

theorem Cx.addPtr_excAll {c o a sub} (h : c.s.memWf) : ExcAll State.memWf (Cx.addPtr c o a sub) := by
  unfold Cx.addPtr
  refine plain_bind Cx.need_plain (fun _ => ?_)
  dsimp only
  refine holds_ite ?_ ?_
  · refine plain_bind trivial (fun _ => ?_)
    refine plain_bind Cx.ptrCase_plain (fun _ => ?_)
    refine plain_bind ?_ (fun _ => excAll_ok (Cx.emit_memWf h))
    refine mapLanes_plain (fun _ => ?_)
    split
    · exact holds_ite trivial ptrWrap_excAll
    · exact holds_ite Cx.format_excAll trivial
  · refine plain_bind Cx.need_plain (fun _ => ?_)
    refine plain_bind Cx.ptrCase_plain (fun _ => ?_)
    refine plain_bind ?_ (fun _ => excAll_ok (Cx.emit_memWf h))
    refine mapLanes_plain (fun _ => ?_)
    split
    · exact holds_ite trivial ptrWrap_excAll
    · exact holds_ite Cx.format_excAll trivial

theorem Cx.needB_plain {c o a n ok} : Plain (Cx.needB c o a n ok) := by
  unfold Cx.needB
  exact holds_ite (plain_bind Cx.need_plain (fun _ => trivial)) trivial

theorem Cx.pure_memWf {c d n tag f} (h : c.s.memWf) : (Cx.pure c d n tag f).memWf := by
  unfold Cx.pure
  exact Cx.emit_memWf h

theorem intBin_canonical {o a f s} (h : s.memWf) : Canonical (intBin o a f s) := by
  unfold intBin
  refine word_canonical h (fun _ h => ?_)
  exact plain_bind Cx.need_plain (fun _ => plain_bind Cx.needB_plain (fun _ => excAll_ok (Cx.pure_memWf h)))

theorem addSub_canonical {o a sub s} (h : s.memWf) : Canonical (addSub o a sub s) := by
  unfold addSub
  exact holds_ite (word_canonical h (fun _ h => Cx.addPtr_excAll h)) (intBin_canonical h)

theorem execIadd_canonical {o a s} (h : s.memWf) : Canonical (execIadd o a s) := by
  unfold execIadd
  exact addSub_canonical h

theorem execIsub_canonical {o a s} (h : s.memWf) : Canonical (execIsub o a s) := by
  unfold execIsub
  exact addSub_canonical h

theorem execImul_canonical {o a s} (h : s.memWf) : Canonical (execImul o a s) := by
  unfold execImul
  exact intBin_canonical h

theorem execImad_canonical {o a s} (h : s.memWf) : Canonical (execImad o a s) := by
  unfold execImad
  refine word_canonical h (fun _ h => ?_)
  dsimp only
  refine plain_bind Cx.need_plain (fun _ => ?_)
  exact plain_bind Cx.need_plain (fun _ => plain_bind Cx.need_plain (fun _ => excAll_ok (Cx.pure_memWf h)))

theorem execIdiv_canonical {o a s} (h : s.memWf) : Canonical (execIdiv o a s) := by
  unfold execIdiv
  exact intBin_canonical h

theorem execIrem_canonical {o a s} (h : s.memWf) : Canonical (execIrem o a s) := by
  unfold execIrem
  exact intBin_canonical h

theorem execIabs_canonical {o a s} (h : s.memWf) : Canonical (execIabs o a s) := by
  unfold execIabs
  exact word_canonical h (fun _ h => plain_bind Cx.need_plain (fun _ => excAll_ok (Cx.pure_memWf h)))

theorem execImin_canonical {o a s} (h : s.memWf) : Canonical (execImin o a s) := by
  unfold execImin
  exact intBin_canonical h

theorem execImax_canonical {o a s} (h : s.memWf) : Canonical (execImax o a s) := by
  unfold execImax
  exact intBin_canonical h

theorem Cx.any_plain {c o n} : Plain (Cx.any c o n) := by
  unfold Cx.any
  exact Cx.tag_plain

theorem bitBin_canonical {o a f s} (h : s.memWf) : Canonical (bitBin o a f s) := by
  unfold bitBin
  refine word_canonical h (fun _ h => ?_)
  dsimp only
  refine plain_bind Cx.any_plain (fun _ => ?_)
  exact holds_ite (plain_bind Cx.any_plain (fun _ => excAll_ok (Cx.pure_memWf h))) (excAll_ok (Cx.pure_memWf h))

theorem execAndB_canonical {o a s} (h : s.memWf) : Canonical (execAndB o a s) := by
  unfold execAndB
  exact bitBin_canonical h

theorem execOrB_canonical {o a s} (h : s.memWf) : Canonical (execOrB o a s) := by
  unfold execOrB
  exact bitBin_canonical h

theorem execXorB_canonical {o a s} (h : s.memWf) : Canonical (execXorB o a s) := by
  unfold execXorB
  exact bitBin_canonical h

theorem bitCtl_canonical {o a tag f s} (h : s.memWf) : Canonical (bitCtl o a tag f s) := by
  unfold bitCtl
  exact word_canonical h (fun _ h => plain_bind Cx.any_plain (fun _ => excAll_ok (Cx.pure_memWf h)))

theorem execShl_canonical {o a s} (h : s.memWf) : Canonical (execShl o a s) := by
  unfold execShl
  exact bitCtl_canonical h

theorem execShr_canonical {o a s} (h : s.memWf) : Canonical (execShr o a s) := by
  unfold execShr
  exact bitCtl_canonical h

theorem execRot_canonical {o a s} (h : s.memWf) : Canonical (execRot o a s) := by
  unfold execRot
  exact bitCtl_canonical h

theorem execBfx_canonical {o a s} (h : s.memWf) : Canonical (execBfx o a s) := by
  unfold execBfx
  exact bitCtl_canonical h

theorem execBfi_canonical {o a s} (h : s.memWf) : Canonical (execBfi o a s) := by
  unfold execBfi
  refine word_canonical h (fun _ h => ?_)
  exact plain_bind Cx.any_plain (fun _ => plain_bind Cx.any_plain (fun _ => excAll_ok (Cx.pure_memWf h)))

theorem countBits_canonical {o a f s} (h : s.memWf) : Canonical (countBits o a f s) := by
  unfold countBits
  exact word_canonical h (fun _ h => plain_bind Cx.any_plain (fun _ => excAll_ok (Cx.pure_memWf h)))

theorem execPopc_canonical {o a s} (h : s.memWf) : Canonical (execPopc o a s) := by
  unfold execPopc
  exact countBits_canonical h

theorem execClz_canonical {o a s} (h : s.memWf) : Canonical (execClz o a s) := by
  unfold execClz
  exact countBits_canonical h

theorem execBrev_canonical {o a s} (h : s.memWf) : Canonical (execBrev o a s) := by
  unfold execBrev
  exact word_canonical h (fun _ h => plain_bind Cx.any_plain (fun _ => excAll_ok (Cx.pure_memWf h)))

/-! ## Comparison, selection and moves -/

theorem execIcmp_canonical {o a s} (h : s.memWf) : Canonical (execIcmp o a s) := by
  unfold execIcmp
  refine word_canonical h (fun _ h => ?_)
  dsimp only
  refine holds_ite ?_ (plain_bind Cx.need_plain (fun _ => plain_bind Cx.needB_plain (fun _ => excAll_ok (Cx.pure_memWf h))))
  refine plain_bind Cx.any_plain (fun _ => ?_)
  exact holds_ite (plain_bind Cx.any_plain (fun _ => excAll_ok (Cx.pure_memWf h))) (excAll_ok (Cx.pure_memWf h))

theorem execSel_canonical {o a s} (h : s.memWf) : Canonical (execSel o a s) := by
  unfold execSel
  refine word_canonical h (fun _ h => ?_)
  dsimp only
  refine plain_bind Cx.any_plain (fun _ => ?_)
  exact plain_bind Cx.any_plain (fun _ => holds_ite Cx.format_excAll (excAll_ok (Cx.pure_memWf h)))

theorem execMov_canonical {o a s} (h : s.memWf) : Canonical (execMov o a s) := by
  unfold execMov
  exact word_canonical h (fun _ h => plain_bind Cx.any_plain (fun _ => excAll_ok (Cx.put_memWf h)))

theorem execMovRetag_canonical {o a s} (h : s.memWf) : Canonical (execMovRetag o a s) := by
  unfold execMovRetag
  exact word_canonical h (fun _ h => plain_bind Cx.tag_plain (fun _ => excAll_ok (Cx.put_memWf h)))

theorem execMovi_canonical {o a s} (h : s.memWf) : Canonical (execMovi o a s) := by
  unfold execMovi
  exact word_canonical h (fun _ h => excAll_ok (Cx.put_memWf h))

/-! ## Floating-point words -/

theorem flBin_canonical {o a f s} (h : s.memWf) : Canonical (flBin o a f s) := by
  unfold flBin
  refine word_canonical h (fun _ h => ?_)
  exact plain_bind Cx.need_plain (fun _ => plain_bind Cx.needB_plain (fun _ => excAll_ok (Cx.pure_memWf h)))

theorem flArith2_canonical {o a f s} (h : s.memWf) : Canonical (flArith2 o a f s) := by
  unfold flArith2
  exact flBin_canonical h

theorem execFadd_canonical {o a s} (h : s.memWf) : Canonical (execFadd o a s) := by
  unfold execFadd
  exact flArith2_canonical h

theorem execFsub_canonical {o a s} (h : s.memWf) : Canonical (execFsub o a s) := by
  unfold execFsub
  exact flArith2_canonical h

theorem execFmul_canonical {o a s} (h : s.memWf) : Canonical (execFmul o a s) := by
  unfold execFmul
  exact flArith2_canonical h

theorem execFfma_canonical {o a s} (h : s.memWf) : Canonical (execFfma o a s) := by
  unfold execFfma
  refine word_canonical h (fun _ h => ?_)
  dsimp only
  refine plain_bind Cx.need_plain (fun _ => ?_)
  exact plain_bind Cx.need_plain (fun _ => plain_bind Cx.need_plain (fun _ => excAll_ok (Cx.pure_memWf h)))

theorem execFmin_canonical {o a s} (h : s.memWf) : Canonical (execFmin o a s) := by
  unfold execFmin
  exact flBin_canonical h

theorem execFmax_canonical {o a s} (h : s.memWf) : Canonical (execFmax o a s) := by
  unfold execFmax
  exact flBin_canonical h

theorem execFcmp_canonical {o a s} (h : s.memWf) : Canonical (execFcmp o a s) := by
  unfold execFcmp
  refine word_canonical h (fun _ h => ?_)
  exact plain_bind Cx.need_plain (fun _ => plain_bind Cx.needB_plain (fun _ => excAll_ok (Cx.pure_memWf h)))

theorem flUn_canonical {o t n tag f s} (h : s.memWf) : Canonical (flUn o t n tag f s) := by
  unfold flUn
  exact word_canonical h (fun _ h => plain_bind Cx.need_plain (fun _ => excAll_ok (Cx.pure_memWf h)))

theorem execFclass_canonical {o a s} (h : s.memWf) : Canonical (execFclass o a s) := by
  unfold execFclass
  exact flUn_canonical h

theorem execFdiv_canonical {o a s} (h : s.memWf) : Canonical (execFdiv o a s) := by
  unfold execFdiv
  exact flArith2_canonical h

theorem flFunc_canonical {o a t f s} (h : s.memWf) : Canonical (flFunc o a t f s) := by
  unfold flFunc
  exact flUn_canonical h

theorem execFsqrt_canonical {o a s} (h : s.memWf) : Canonical (execFsqrt o a s) := by
  unfold execFsqrt
  exact flFunc_canonical h

theorem execFrsqrt_canonical {o a s} (h : s.memWf) : Canonical (execFrsqrt o a s) := by
  unfold execFrsqrt
  exact flFunc_canonical h

theorem execFrcp_canonical {o a s} (h : s.memWf) : Canonical (execFrcp o a s) := by
  unfold execFrcp
  exact flFunc_canonical h

theorem execFexp2_canonical {o a s} (h : s.memWf) : Canonical (execFexp2 o a s) := by
  unfold execFexp2
  exact flFunc_canonical h

theorem execFlog2_canonical {o a s} (h : s.memWf) : Canonical (execFlog2 o a s) := by
  unfold execFlog2
  exact flFunc_canonical h

theorem execFsinpi_canonical {o a s} (h : s.memWf) : Canonical (execFsinpi o a s) := by
  unfold execFsinpi
  exact flFunc_canonical h

theorem execFcospi_canonical {o a s} (h : s.memWf) : Canonical (execFcospi o a s) := by
  unfold execFcospi
  exact flFunc_canonical h

theorem execFrnd_canonical {o a s} (h : s.memWf) : Canonical (execFrnd o a s) := by
  unfold execFrnd
  exact flUn_canonical h

theorem execFscale_canonical {o a s} (h : s.memWf) : Canonical (execFscale o a s) := by
  unfold execFscale
  refine word_canonical h (fun _ h => ?_)
  exact plain_bind Cx.need_plain (fun _ => plain_bind Cx.needB_plain (fun _ => excAll_ok (Cx.pure_memWf h)))

theorem execFgetexp_canonical {o a s} (h : s.memWf) : Canonical (execFgetexp o a s) := by
  unfold execFgetexp
  exact flUn_canonical h

theorem execCvt_canonical {o a s} (h : s.memWf) : Canonical (execCvt o a s) := by
  unfold execCvt
  refine word_canonical h (fun _ h => ?_)
  dsimp only
  refine plain_bind Cx.need_plain (fun _ => ?_)
  refine holds_ite (plain_bind Cx.need_plain (fun _ => excAll_ok (Cx.pure_memWf h))) ?_
  exact holds_ite (excAll_ok (Cx.pure_memWf h)) (excAll_ok (Cx.pure_memWf h))

/-! ## Blocks, lanes and predicates -/

theorem Cx.needRange_plain {c o ok n} : Plain (Cx.needRange c o ok n) := by
  induction n with
  | zero => trivial
  | succ n ih => exact plain_bind ih (fun _ => plain_bind Cx.need_plain (fun _ => trivial))

theorem execDxpack_canonical {o a s} (h : s.memWf) : Canonical (execDxpack o a s) := by
  unfold execDxpack
  refine word_canonical h (fun _ h => ?_)
  split
  exact plain_bind Cx.needRange_plain (fun _ => excAll_ok (Cx.put_memWf h))

theorem execDxunpack_canonical {o a s} (h : s.memWf) : Canonical (execDxunpack o a s) := by
  unfold execDxunpack
  refine word_canonical h (fun _ h => ?_)
  split
  exact plain_bind Cx.needRange_plain (fun _ => excAll_ok (Cx.put_memWf h))

theorem execFgsum_canonical {o a s} (h : s.memWf) : Canonical (execFgsum o a s) := by
  unfold execFgsum
  exact word_canonical h (fun _ h => plain_bind Cx.need_plain (fun _ => excAll_ok (Cx.put_memWf h)))

theorem execFdot2_canonical {o a s} (h : s.memWf) : Canonical (execFdot2 o a s) := by
  unfold execFdot2
  refine word_canonical h (fun _ h => ?_)
  dsimp only
  refine plain_bind Cx.need_plain (fun _ => ?_)
  refine plain_bind Cx.need_plain (fun _ => ?_)
  exact holds_ite (plain_bind Cx.need_plain (fun _ => excAll_ok (Cx.pure_memWf h))) (excAll_ok (Cx.pure_memWf h))

theorem execShfl_canonical {o a s} (h : s.memWf) : Canonical (execShfl o a s) := by
  unfold execShfl
  exact word_canonical h (fun _ h => plain_bind Cx.any_plain (fun _ => excAll_ok (Cx.pure_memWf h)))

theorem execBallot_canonical {o _a s} (h : s.memWf) : Canonical (execBallot o _a s) := by
  unfold execBallot
  exact word_canonical h (fun _ h => excAll_ok (Cx.put_memWf h))

theorem execVote_canonical {o _a s} (h : s.memWf) : Canonical (execVote o _a s) := by
  unfold execVote
  exact word_canonical h (fun _ h => excAll_ok (Cx.put_memWf h))

theorem Cx.reduceTag_plain {c o a} : Plain (Cx.reduceTag c o a) := by
  unfold Cx.reduceTag
  exact holds_ite (plain_bind Cx.any_plain (fun _ => trivial)) (plain_bind Cx.need_plain (fun _ => trivial))

theorem execGred_canonical {o a s} (h : s.memWf) : Canonical (execGred o a s) := by
  unfold execGred
  exact word_canonical h (fun _ h => plain_bind Cx.reduceTag_plain (fun _ => excAll_ok (Cx.put_memWf h)))

theorem execGscan_canonical {o a s} (h : s.memWf) : Canonical (execGscan o a s) := by
  unfold execGscan
  exact word_canonical h (fun _ h => plain_bind Cx.reduceTag_plain (fun _ => excAll_ok (Cx.pure_memWf h)))

theorem execPlop_canonical {o _a s} (h : s.memWf) : Canonical (execPlop o _a s) := by
  unfold execPlop
  exact word_canonical h (fun _ h => excAll_ok (Cx.put_memWf h))

theorem execP2m_canonical {o _a s} (h : s.memWf) : Canonical (execP2m o _a s) := by
  unfold execP2m
  exact word_canonical h (fun _ h => excAll_ok (Cx.put_memWf h))

theorem execM2p_canonical {o _a s} (h : s.memWf) : Canonical (execM2p o _a s) := by
  unfold execM2p
  exact word_canonical h (fun _ h => excAll_ok (Cx.put_memWf h))

theorem execNop_canonical {o _a s} (h : s.memWf) : Canonical (execNop o _a s) := by
  unfold execNop
  exact word_canonical h (fun _ h => excAll_ok h)

end Sys2Proof.Machine
end

section
/-! PROOFS. Canonical memory in the words of family B: a store goes through the memory's own write (R4, R9, R128 to R165). -/

namespace Sys2Proof.Machine

/-! ## Control words -/

theorem finishCtl_canonical {c r} (h : c.s.memWf) (hr : ExcAll State.memWf r) : Canonical (finishCtl c r) := by
  unfold finishCtl
  split
  · exact canonical_next hr
  · exact canonical_next (takeTrap_memWf h)
  · exact canonical_next (takeTrap_memWf (advance_memWf hr))
  · exact canonical_next (takeTrap_memWf hr)
  · exact canonical_next (enterWait_memWf h)
  · exact canonical_next (enterWait_memWf hr)
  · exact canonical_fault

theorem wordCtl_canonical {s o body} (h : s.memWf) (hbody : ∀ c, c.s.memWf → ExcAll State.memWf (body c)) : Canonical (wordCtl s o body) := by
  unfold wordCtl
  split
  · exact canonical_next h
  · rename_i _ eh
    have hc := view_canonical h eh
    exact holds_ite (canonical_next (advance_memWf h)) (finishCtl_canonical hc (hbody _ hc))

theorem setFrontier_excAll {c g es} (h : c.s.memWf) : ExcAll State.memWf (setFrontier c g es) := by
  unfold setFrontier
  exact plain_bind growFrontier_plain (fun _ => excAll_ok (State.modUnit_memWf (holds_ite h h)))

theorem Cx.branch_excAll {c g pc prio} (h : c.s.memWf) : ExcAll State.memWf (Cx.branch c g pc prio) := by
  unfold Cx.branch
  exact setFrontier_excAll h

theorem execBra_canonical {o b s} (h : s.memWf) : Canonical (execBra o b s) := by
  unfold execBra
  exact wordCtl_canonical h (fun _ h => Cx.branch_excAll h)

theorem Cx.branchTo_excAll {c o prio} (h : c.s.memWf) : ExcAll State.memWf (Cx.branchTo c o prio) := by
  unfold Cx.branchTo
  refine plain_bind Cx.need_plain (fun _ => ?_)
  split
  · exact excAll_stop
  · exact holds_ite (setFrontier_excAll h) (Cx.branch_excAll h)

theorem execBrx_canonical {o b s} (h : s.memWf) : Canonical (execBrx o b s) := by
  unfold execBrx
  exact wordCtl_canonical h (fun _ h => Cx.branchTo_excAll h)

theorem execCall_canonical {o b s} (h : s.memWf) : Canonical (execCall o b s) := by
  unfold execCall
  exact wordCtl_canonical h (fun _ h => Cx.branch_excAll h)

theorem execRet_canonical {o x s} (h : s.memWf) : Canonical (execRet o x s) := by
  unfold execRet
  exact wordCtl_canonical h (fun _ h => Cx.branchTo_excAll h)

theorem Cx.drain_plain {c} : Plain (Cx.drain c) := by
  unfold Cx.drain
  exact holds_ite trivial (holds_ite trivial excAll_stop)

theorem Cx.endLanes_plain {c} : Plain (Cx.endLanes c) := by
  unfold Cx.endLanes
  exact holds_ite (plain_bind Cx.drain_plain (fun _ => trivial)) trivial

theorem execExitL_canonical {o _x s} (h : s.memWf) : Canonical (execExitL o _x s) := by
  unfold execExitL
  exact wordCtl_canonical h (fun _ h => plain_bind Cx.endLanes_plain (fun _ => excAll_ok (Cx.put_memWf h)))

theorem Cx.regroup_excAll {c n} (h : c.s.memWf) : ExcAll State.memWf (Cx.regroup c n) := by
  unfold Cx.regroup
  exact holds_ite (excAll_ok (advance_memWf h)) (plain_bind Cx.endLanes_plain (fun _ => excAll_ok (State.modUnit_memWf h)))

theorem execRgrp_canonical {o _x s} (h : s.memWf) : Canonical (execRgrp o _x s) := by
  unfold execRgrp
  exact wordCtl_canonical h (fun _ h => Cx.regroup_excAll h)

theorem execRgrpSet_canonical {o _x s} (h : s.memWf) : Canonical (execRgrpSet o _x s) := by
  unfold execRgrpSet
  exact word_canonical h (fun _ h => excAll_ok (Cx.put_memWf h))

theorem execRejoin_canonical {o _x s} (h : s.memWf) : Canonical (execRejoin o _x s) := by
  unfold execRejoin
  exact wordCtl_canonical h (fun _ h => setFrontier_excAll h)

theorem execSetprio_canonical {o b s} (h : s.memWf) : Canonical (execSetprio o b s) := by
  unfold execSetprio
  exact wordCtl_canonical h (fun _ h => Cx.branch_excAll h)

/-! ## Checks of addresses -/

theorem Cx.needBase_plain {c base vault} : Plain (Cx.needBase c base vault) := by
  unfold Cx.needBase
  exact holds_ite Cx.need_plain Cx.need_plain

theorem Cx.sysScope_plain {c ordered scope} : Plain (Cx.sysScope c ordered scope) := by
  unfold Cx.sysScope
  exact holds_ite (holds_ite excAll_stop trivial) trivial

theorem Cx.raceRow_plain {c _lane sp n t} : Plain (Cx.raceRow c _lane sp n t) := by
  unfold Cx.raceRow
  refine holds_ite trivial ?_
  split
  · exact trivial
  · refine holds_ite trivial ?_
    split
    · exact trivial
    · exact excAll_stop

theorem Cx.check_plain {c base vault l off n align t} : Plain (Cx.check c base vault l off n align t) := by
  unfold Cx.check
  exact plain_bind Cx.spot_plain (fun _ => plain_bind Cx.raceRow_plain (fun _ => trivial))

theorem noHole_plain {ps} : Plain (noHole ps) := by
  unfold noHole
  split
  · exact trivial
  · exact trivial

theorem Cx.placesPrecise_plain {c sps n write reads} : Plain (Cx.placesPrecise c sps n write reads) := by
  unfold Cx.placesPrecise
  split
  split
  · exact excAll_stop
  · exact plain_bind noHole_plain (fun _ => trivial)

/-! ## What an access notes -/

theorem keepHeld_memWf {s0 s sp a n} (hs : s.memWf) : (keepHeld s0 s sp a n).memWf := by
  unfold keepHeld
  exact holds_ite hs (setHeld_memWf hs)

theorem takeOwnership_memWf {s k a} (h : s.memWf) : (takeOwnership s k a).memWf := by
  unfold takeOwnership
  split
  · obtain ⟨hh, hp, ho, hv, hm, hc⟩ := h
    exact ⟨hh, hp, ho, hv, hm, hc⟩
  · exact h

theorem State.modVac_memWf {s k f} (h : s.memWf) : (State.modVac s k f).memWf := by
  unfold State.modVac
  exact State.modLaunch_memWf h

theorem noteAccess_memWf {s k agent a} (h : s.memWf) : (noteAccess s k agent a).memWf := by
  unfold noteAccess
  exact takeOwnership_memWf (holds_ite (State.modUnit_memWf h) (State.modVac_memWf h))

theorem passClocks_memWf {s u agent p n t} (h : s.memWf) : (passClocks s u agent p n t).memWf := by
  unfold passClocks
  refine holds_ite h ?_
  dsimp only
  refine holds_ite (holds_ite (withRace_memWf h) h) ?_
  split
  · exact holds_ite (withRace_memWf h) h
  · refine holds_ite ?_ (holds_ite (holds_ite (withRace_memWf h) h) (setHeld_memWf (holds_ite (withRace_memWf h) h)))
    exact withRace_memWf (holds_ite (holds_ite (withRace_memWf h) h) (setHeld_memWf (holds_ite (withRace_memWf h) h)))

theorem endOwnership_memWf {s k} (h : s.memWf) : (endOwnership s k).memWf := by
  unfold endOwnership
  exact h

theorem notePlace_memWf {s k agent p n t} (h : s.memWf) : (notePlace s k agent p n t).memWf := by
  unfold notePlace
  split
  · exact h
  · refine holds_ite h ?_
    dsimp only
    refine holds_ite ?_ ?_
    · refine endOwnership_memWf ?_
      refine holds_ite ?_ (passClocks_memWf (holds_ite (noteAccess_memWf h) h))
      exact withRace_memWf (passClocks_memWf (holds_ite (noteAccess_memWf h) h))
    · refine holds_ite ?_ (passClocks_memWf (holds_ite (noteAccess_memWf h) h))
      exact withRace_memWf (passClocks_memWf (holds_ite (noteAccess_memWf h) h))

theorem missWalk_memWf {s core ctx p} (h : s.memWf) : (missWalk s core ctx p).memWf := by
  unfold missWalk
  exact holds_ite h (missAt_memWf h)

theorem poolLine_memWf {s p} (h : s.memWf) : (poolLine s p).memWf := by
  unfold poolLine
  exact holds_ite h h

theorem Cx.noteAll_memWf {c s ps n t} (hs : s.memWf) : (Cx.noteAll c s ps n t).memWf := by
  unfold Cx.noteAll
  dsimp only
  refine holds_foldl (fun _ h _ => notePlace_memWf (missWalk_memWf (poolLine_memWf h))) ?_
  exact holds_ite (holds_foldl (fun _ h1 _ => keepHeld_memWf h1) hs) hs

theorem Cx.endLoad_memWf {c d t ps fl att} (h : c.s.memWf) : (Cx.endLoad c d t ps fl att).memWf := by
  unfold Cx.endLoad
  exact Cx.noteAll_memWf (Cx.put_memWf h)

theorem execLd_canonical {o m s} (h : s.memWf) : Canonical (execLd o m s) := by
  unfold execLd
  refine word_canonical h (fun _ h => ?_)
  dsimp only
  refine plain_bind Cx.needBase_plain (fun _ => ?_)
  refine plain_bind Cx.need_plain (fun _ => ?_)
  refine plain_bind Cx.sysScope_plain (fun _ => ?_)
  refine plain_bind (mapLanes_plain (fun _ => Cx.check_plain)) (fun _ => ?_)
  exact plain_bind Cx.placesPrecise_plain (fun _ => excAll_ok (Cx.endLoad_memWf h))

/-! ## Loads and stores -/

theorem Cx.dataTag_plain {c d t} : Plain (Cx.dataTag c d t) := by
  unfold Cx.dataTag
  exact plain_bind Cx.tag_plain (fun _ => holds_ite (holds_ite trivial Cx.format_excAll) (holds_ite trivial Cx.format_excAll))

theorem mirrorSlot_memWf {s ctx slot} (h : s.memWf) : (mirrorSlot s ctx slot).memWf := by
  unfold mirrorSlot
  split
  · exact sysWrite_memWf h ..
  · exact h

theorem State.modCtx_memWf {s c f} (h : s.memWf) : (State.modCtx s c f).memWf := by
  unfold State.modCtx
  exact h

theorem modRes_memWf {s ctx slot f} (h : s.memWf) : (modRes s ctx slot f).memWf := by
  unfold modRes
  exact mirrorSlot_memWf (State.modCtx_memWf h)

theorem markDirty_memWf {s ctx va} (h : s.memWf) : (markDirty s ctx va).memWf := by
  unfold markDirty
  refine holds_ite h ?_
  split
  · exact h
  · exact holds_ite h (modRes_memWf h)

theorem ackReport_memWf {s core idx} (h : s.memWf) : (ackReport s core idx).memWf := by
  unfold ackReport
  exact holds_ite (mailPump_memWf (State.setCore_memWf h)) h

theorem windowQfree_memWf {s core slot mask} (h : s.memWf) : (windowQfree s core slot mask).memWf := by
  unfold windowQfree
  split
  · exact holds_ite (State.modUnit_memWf h) h
  · exact h

theorem windowWriteByte_memWf {s core slot o b} (h : s.memWf) : (windowWriteByte s core slot o b).memWf := by
  unfold windowWriteByte
  split
  · exact holds_ite h (holds_ite (State.modUnit_memWf h) (State.modGrp_memWf h))
  · exact h

theorem windowWrite_memWf {s core slot o bs} (h : s.memWf) : (windowWrite s core slot o bs).memWf := by
  induction bs generalizing s o with
  | nil => exact h
  | cons b bs ih => exact ih (windowWriteByte_memWf h)

theorem superWrite_memWf {s core off n v} (h : s.memWf) : (superWrite s core off n v).memWf := by
  unfold superWrite
  refine holds_ite (holds_ite (ackReport_memWf h) h) ?_
  refine holds_ite (State.modCore_memWf h) ?_
  split
  · exact holds_ite (windowQfree_memWf h) (windowWrite_memWf h)
  · exact h

theorem State.store_memWf {s core sp a n v} (h : s.memWf) : (State.store s core sp a n v).memWf := by
  unfold State.store
  exact holds_ite (superWrite_memWf h) (State.wrN_memWf h ..)

theorem storeAll_memWf {s core ctx n val ps} (h : s.memWf) : (storeAll s core ctx n val ps).memWf := by
  induction ps generalizing s with
  | nil => exact h
  | cons p ps ih => exact ih (markDirty_memWf (State.store_memWf h))

theorem Cx.queue_memWf {c s r} (hs : s.memWf) : (Cx.queue c s r).memWf := by
  unfold Cx.queue
  split
  · exact State.dueAgain_memWf hs
  · exact hs

theorem Cx.endStore_excAll {c sps n val ordered fl att} (h : c.s.memWf) : ExcAll State.memWf (Cx.endStore c sps n val ordered fl att) := by
  unfold Cx.endStore
  split
  refine plain_bind noHole_plain (fun _ => ?_)
  dsimp only
  refine excAll_ok ?_
  refine Cx.noteAll_memWf ?_
  exact Cx.queue_memWf (holds_ite (State.due_memWf (storeAll_memWf (Cx.put_memWf h))) (storeAll_memWf (Cx.put_memWf h)))

theorem execSt_canonical {o m s} (h : s.memWf) : Canonical (execSt o m s) := by
  unfold execSt
  refine word_canonical h fun _ h => ?_
  refine plain_guard Cx.drain_plain fun _ => ?_
  refine plain_bind Cx.needBase_plain fun _ => ?_
  refine plain_bind Cx.need_plain fun _ => ?_
  refine plain_bind Cx.dataTag_plain fun _ => ?_
  refine plain_bind Cx.sysScope_plain fun _ => ?_
  exact plain_bind (mapLanes_plain fun _ => Cx.check_plain) fun _ => Cx.endStore_excAll h

theorem Cx.needIndex_plain {c o g} : Plain (Cx.needIndex c o g) := by
  unfold Cx.needIndex
  exact holds_ite (plain_bind Cx.need_plain (fun _ => trivial)) (plain_bind Cx.need_plain (fun _ => trivial))

theorem execGld_canonical {o g s} (h : s.memWf) : Canonical (execGld o g s) := by
  unfold execGld
  refine word_canonical h (fun _ h => ?_)
  dsimp only
  refine plain_bind Cx.needBase_plain (fun _ => ?_)
  refine plain_bind Cx.needIndex_plain (fun _ => ?_)
  refine plain_bind (mapLanes_plain (fun _ => Cx.check_plain)) (fun _ => ?_)
  exact plain_bind Cx.placesPrecise_plain (fun _ => excAll_ok (Cx.endLoad_memWf h))

theorem execGst_canonical {o g s} (h : s.memWf) : Canonical (execGst o g s) := by
  unfold execGst
  refine word_canonical h (fun _ h => ?_)
  dsimp only
  refine plain_bind Cx.needBase_plain (fun _ => ?_)
  refine plain_bind Cx.needIndex_plain (fun _ => ?_)
  exact plain_bind Cx.dataTag_plain (fun _ => plain_bind (mapLanes_plain (fun _ => Cx.check_plain)) (fun _ => Cx.endStore_excAll h))

theorem execCst_canonical {o m s} (h : s.memWf) : Canonical (execCst o m s) := by
  unfold execCst
  refine word_canonical h (fun _ h => ?_)
  dsimp only
  refine plain_bind Cx.needBase_plain (fun _ => ?_)
  exact plain_bind Cx.dataTag_plain (fun _ => plain_bind (mapLanes_plain (fun _ => Cx.check_plain)) (fun _ => Cx.endStore_excAll h))

theorem execXld_canonical {o m s} (h : s.memWf) : Canonical (execXld o m s) := by
  unfold execXld
  refine word_canonical h (fun _ h => ?_)
  dsimp only
  refine plain_bind Cx.needBase_plain (fun _ => ?_)
  refine plain_bind (mapLanes_plain (fun _ => Cx.check_plain)) (fun _ => ?_)
  exact plain_bind Cx.placesPrecise_plain (fun _ => excAll_ok (Cx.endLoad_memWf h))

/-! ## Atomics, waits and fences -/

theorem rmwAll_fstWf {s core ctx fn t x y ps} (h : s.memWf) : FstWf (rmwAll s core ctx fn t x y ps) := by
  induction ps generalizing s with
  | nil => exact h
  | cons p ps ih => exact ih (markDirty_memWf (State.store_memWf h))

theorem execAtom_canonical {o m s} (h : s.memWf) : Canonical (execAtom o m s) := by
  unfold execAtom
  refine word_canonical h fun _ h => ?_
  refine plain_guard Cx.drain_plain fun _ => ?_
  refine plain_bind Cx.needBase_plain fun _ => ?_
  refine plain_bind Cx.need_plain fun _ => ?_
  refine plain_bind Cx.dataTag_plain fun _ => ?_
  refine plain_guard Cx.dataTag_plain fun _ => ?_
  refine plain_bind Cx.sysScope_plain fun _ => ?_
  refine plain_bind (mapLanes_plain fun _ => Cx.check_plain) fun _ => ?_
  exact plain_bind Cx.placesPrecise_plain fun _ => excAll_ok (Cx.noteAll_memWf (State.modGrp_memWf (rmwAll_fstWf h)))

theorem execRed_canonical {o m s} (h : s.memWf) : Canonical (execRed o m s) := by
  unfold execRed
  refine word_canonical h fun _ h => ?_
  refine plain_guard Cx.drain_plain fun _ => ?_
  refine plain_bind Cx.needBase_plain fun _ => ?_
  refine plain_bind Cx.need_plain fun _ => ?_
  refine plain_bind Cx.dataTag_plain fun _ => ?_
  refine plain_bind Cx.sysScope_plain fun _ => ?_
  refine plain_bind (mapLanes_plain fun _ => Cx.check_plain) fun _ => ?_
  exact plain_bind noHole_plain fun _ => excAll_ok (Cx.noteAll_memWf (Cx.queue_memWf (rmwAll_fstWf (Cx.put_memWf h))))

theorem Cx.waitvBody_excAll {c o m} (h : c.s.memWf) : ExcAll State.memWf (Cx.waitvBody c o m) := by
  unfold Cx.waitvBody
  dsimp only
  refine plain_bind Cx.needBase_plain (fun _ => ?_)
  refine plain_bind Cx.need_plain (fun _ => ?_)
  refine holds_ite ?_ ?_
  · refine plain_bind Cx.any_plain (fun _ => ?_)
    refine plain_bind Cx.sysScope_plain (fun _ => ?_)
    refine plain_bind (mapLanes_plain (fun _ => Cx.check_plain)) (fun _ => ?_)
    exact plain_bind Cx.placesPrecise_plain (fun _ => holds_ite (excAll_ok (Cx.noteAll_memWf (Cx.put_memWf h))) trivial)
  · refine plain_bind Cx.need_plain (fun _ => ?_)
    refine plain_bind Cx.sysScope_plain (fun _ => ?_)
    refine plain_bind (mapLanes_plain (fun _ => Cx.check_plain)) (fun _ => ?_)
    exact plain_bind Cx.placesPrecise_plain (fun _ => holds_ite (excAll_ok (Cx.noteAll_memWf (Cx.put_memWf h))) trivial)

theorem execWaitv_canonical {o m s} (h : s.memWf) : Canonical (execWaitv o m s) := by
  unfold execWaitv
  exact word_canonical h (fun _ h => Cx.waitvBody_excAll h)

theorem execFence_canonical {o x s} (h : s.memWf) : Canonical (execFence o x s) := by
  unfold execFence
  refine word_canonical h (fun _ h => ?_)
  dsimp only
  refine plain_bind Cx.drain_plain (fun _ => ?_)
  refine plain_bind Cx.sysScope_plain (fun _ => ?_)
  exact excAll_ok (holds_ite (endOwnership_memWf (withRace_memWf (Cx.put_memWf h))) (withRace_memWf (Cx.put_memWf h)))

theorem execSdrain_canonical {o _x s} (h : s.memWf) : Canonical (execSdrain o _x s) := by
  unfold execSdrain
  exact word_canonical h (fun _ h => plain_bind Cx.drain_plain (fun _ => excAll_ok h))

theorem execPf_canonical {o _m s} (h : s.memWf) : Canonical (execPf o _m s) := by
  unfold execPf
  exact word_canonical h (fun _ h => plain_bind Cx.needBase_plain (fun _ => plain_bind Cx.need_plain (fun _ => excAll_ok h)))

/-! ## Tiles -/

theorem execTld_canonical {o m s} (h : s.memWf) : Canonical (execTld o m s) := by
  unfold execTld
  refine word_canonical h (fun _ h => ?_)
  dsimp only
  refine plain_bind Cx.needBase_plain (fun _ => ?_)
  refine plain_bind Cx.sysScope_plain (fun _ => ?_)
  refine plain_bind (mapLanes_plain (fun _ => Cx.check_plain)) (fun _ => ?_)
  refine plain_bind Cx.placesPrecise_plain (fun _ => ?_)
  split
  · exact excAll_ok h
  · exact excAll_ok (Cx.noteAll_memWf (Cx.put_memWf h))

theorem inRowOrder_plain {α β} {ra rb} {a : Exc α} {b : Exc β} (ha : Plain a) (hb : Plain b) : Plain (inRowOrder ra rb a b) := by
  unfold inRowOrder
  split
  · exact holds_ite excAll_stop excAll_stop
  · exact excAll_stop
  · exact plain_bind ha fun _ => plain_bind hb fun _ => trivial

theorem Cx.tilePair_plain {c o vault body ver} : Plain (Cx.tilePair c o vault body ver) := by
  unfold Cx.tilePair
  exact inRowOrder_plain Cx.check_plain Cx.check_plain

theorem Cx.versionPlaces_plain {c v write} : Plain (Cx.versionPlaces c v write) := by
  unfold Cx.versionPlaces
  refine holds_ite ?_ Cx.placesPrecise_plain
  exact excAll_map (inRowOrder_plain Cx.placesPrecise_plain Cx.placesPrecise_plain) fun _ _ => trivial

theorem Cx.pairPlaces_plain {c t v write} : Plain (Cx.pairPlaces c t v write) := by
  unfold Cx.pairPlaces
  exact inRowOrder_plain Cx.placesPrecise_plain Cx.versionPlaces_plain

theorem execTldVer_canonical {o m s} (h : s.memWf) : Canonical (execTldVer o m s) := by
  unfold execTldVer
  refine word_canonical h (fun _ h => ?_)
  dsimp only
  refine plain_bind Cx.needBase_plain (fun _ => ?_)
  refine plain_bind Cx.needBase_plain (fun _ => ?_)
  refine plain_bind Cx.sysScope_plain (fun _ => ?_)
  refine plain_bind Cx.tilePair_plain (fun _ => ?_)
  refine plain_bind Cx.pairPlaces_plain (fun _ => ?_)
  split
  · exact excAll_ok (Cx.noteAll_memWf (Cx.noteAll_memWf (Cx.put_memWf h)))
  · exact excAll_ok h

theorem storeWords_memWf {s core sp a ws} (h : s.memWf) : (storeWords s core sp a ws).memWf := by
  induction ws generalizing s a with
  | nil => exact h
  | cons w ws ih => exact ih (State.store_memWf h)

theorem execTst_canonical {o m s} (h : s.memWf) : Canonical (execTst o m s) := by
  unfold execTst
  refine word_canonical h fun _ h => ?_
  refine plain_guard Cx.drain_plain fun _ => ?_
  refine plain_bind Cx.needBase_plain fun _ => ?_
  refine plain_bind Cx.needRange_plain fun _ => ?_
  refine plain_bind Cx.sysScope_plain fun _ => ?_
  refine plain_bind (mapLanes_plain fun _ => Cx.check_plain) fun _ => ?_
  refine plain_bind noHole_plain fun _ => ?_
  exact excAll_ok (Cx.noteAll_memWf (Cx.queue_memWf (holds_foldl (fun _ h _ => markDirty_memWf (storeWords_memWf h)) (Cx.put_memWf h))))

theorem Cx.tstAllBody_excAll {c o m} (h : c.s.memWf) : ExcAll State.memWf (Cx.tstAllBody c o m) := by
  unfold Cx.tstAllBody
  dsimp only
  refine plain_bind Cx.drain_plain (fun _ => ?_)
  refine plain_bind Cx.needBase_plain (fun _ => ?_)
  refine plain_bind Cx.needBase_plain (fun _ => ?_)
  refine plain_bind Cx.needRange_plain (fun _ => ?_)
  refine plain_bind Cx.sysScope_plain (fun _ => ?_)
  refine plain_bind Cx.tilePair_plain (fun _ => ?_)
  refine plain_bind Cx.pairPlaces_plain (fun _ => ?_)
  split
  · refine holds_ite trivial ?_
    refine holds_ite (Cx.noteAll_memWf (markDirty_memWf (State.store_memWf h))) ?_
    refine excAll_ok ?_
    refine Cx.noteAll_memWf ?_
    exact Cx.noteAll_memWf (markDirty_memWf (State.store_memWf (markDirty_memWf (storeWords_memWf (Cx.put_memWf h)))))
  · exact excAll_ok h

theorem execTstAll_canonical {o m s} (h : s.memWf) : Canonical (execTstAll o m s) := by
  unfold execTstAll
  exact word_canonical h (fun _ h => Cx.tstAllBody_excAll h)

/-! ## Names -/

theorem dropWaits_memWf {s ctx u gid pc} (h : s.memWf) : (dropWaits s ctx u gid pc).memWf := by
  unfold dropWaits
  exact State.modCtx_memWf h

theorem joinAdmission_memWf {s ctx key w} (h : s.memWf) : (joinAdmission s ctx key w).memWf := by
  unfold joinAdmission
  split
  · exact h
  · split
    · exact State.modCtx_memWf h
    · exact State.due_memWf (State.modCtx_memWf h)

theorem Cx.ldnEnd_excAll {c o tag rs finish} (h : c.s.memWf) (hfinish : ∀ s, s.memWf → (finish s).memWf) :
    ExcAll State.memWf (Cx.ldnEnd c o tag rs finish) := by
  unfold Cx.ldnEnd
  split
  · exact dropWaits_memWf h
  · split
    · dsimp only
      refine holds_foldl (fun _ h _ => ?_) h
      split
      · exact joinAdmission_memWf h
      · exact h
    · exact excAll_ok (hfinish _ (State.modGrp_memWf (dropWaits_memWf h)))

theorem execLdn_canonical {o x s} (h : s.memWf) : Canonical (execLdn o x s) := by
  unfold execLdn
  refine word_canonical h (fun _ h => ?_)
  dsimp only
  refine plain_bind Cx.needBase_plain (fun _ => ?_)
  refine plain_bind Cx.need_plain (fun _ => ?_)
  refine plain_bind Cx.sysScope_plain (fun _ => ?_)
  refine plain_bind (mapLanes_plain (fun _ => Cx.check_plain)) (fun _ => ?_)
  refine plain_bind Cx.placesPrecise_plain (fun _ => ?_)
  split
  · exact excAll_stop
  · exact Cx.ldnEnd_excAll h (fun _ h1 => Cx.noteAll_memWf (State.modGrp_memWf h1))

theorem Cx.stnTag_plain {c d t l} : Plain (Cx.stnTag c d t l) := by
  unfold Cx.stnTag
  exact holds_ite trivial (holds_ite trivial Cx.format_excAll)

theorem Cx.stnValue_plain {c d t l} : Plain (Cx.stnValue c d t l) := by
  unfold Cx.stnValue
  dsimp only
  refine holds_ite trivial ?_
  exact holds_ite Cx.format_excAll (holds_ite (holds_ite excAll_stop trivial) (plain_bind resolveOrd_plain (fun _ => excAll_stop)))

theorem execStn_canonical {o x s} (h : s.memWf) : Canonical (execStn o x s) := by
  unfold execStn
  refine word_canonical h fun _ h => ?_
  refine plain_guard Cx.drain_plain fun _ => ?_
  refine plain_bind Cx.needBase_plain fun _ => ?_
  refine plain_bind Cx.need_plain fun _ => ?_
  refine plain_bind Cx.tag_plain fun _ => ?_
  refine plain_bind (mapLanes_plain fun _ => Cx.stnTag_plain) fun _ => ?_
  refine plain_bind Cx.sysScope_plain fun _ => ?_
  refine plain_bind (mapLanes_plain fun _ => Cx.check_plain) fun _ => ?_
  exact plain_bind (mapLanes_plain fun _ => Cx.stnValue_plain) fun _ => Cx.endStore_excAll h

theorem Cx.needPtr_plain {c o} : Plain (Cx.needPtr c o) := by
  unfold Cx.needPtr
  exact plain_bind Cx.tag_plain (fun _ => holds_ite trivial Cx.format_excAll)

theorem Cx.nameAt_plain {c o l} : Plain (Cx.nameAt c o l) := by
  rw [Cx.nameAt_eq]
  cases pointerName c.ctx (c.val o 2 l) with
  | none => exact excAll_trap
  | some n => trivial

theorem execPeq_canonical {o _x s} (h : s.memWf) : Canonical (execPeq o _x s) := by
  unfold execPeq
  refine word_canonical h (fun _ h => ?_)
  refine plain_bind Cx.needPtr_plain (fun _ => ?_)
  refine plain_bind Cx.needPtr_plain (fun _ => ?_)
  dsimp only
  refine plain_bind ?_ (fun _ => excAll_ok (Cx.put_memWf h))
  exact mapLanes_plain (fun _ => plain_bind Cx.nameAt_plain (fun _ => plain_bind Cx.nameAt_plain (fun _ => trivial)))

theorem execPname_canonical {o _x s} (h : s.memWf) : Canonical (execPname o _x s) := by
  unfold execPname
  refine word_canonical h (fun _ h => ?_)
  refine plain_bind Cx.needPtr_plain (fun _ => ?_)
  exact plain_bind (mapLanes_plain (fun _ => Cx.nameAt_plain)) (fun _ => excAll_ok (Cx.put_memWf h))

theorem Cx.pinSlot_plain {c o l} : Plain (Cx.pinSlot c o l) := by
  unfold Cx.pinSlot
  exact holds_ite excAll_stop (plain_bind resolveOrd_plain (fun _ => holds_ite trivial excAll_stop))

theorem pinCounts_plain {c up acc ls} : Plain (pinCounts c up acc ls) := by
  induction ls generalizing acc with
  | nil => trivial
  | cons x ls ih =>
    unfold pinCounts
    exact holds_ite excAll_stop ih

theorem Cx.changePins_excAll {c o up} (h : c.s.memWf) : ExcAll State.memWf (Cx.changePins c o up) := by
  unfold Cx.changePins
  refine plain_bind Cx.needPtr_plain (fun _ => ?_)
  refine plain_bind (mapLanes_plain (fun _ => Cx.pinSlot_plain)) (fun _ => ?_)
  exact plain_bind pinCounts_plain (fun _ => excAll_ok (holds_foldl (fun _ h _ => modRes_memWf h) h))

theorem execNpin_canonical {o _x s} (h : s.memWf) : Canonical (execNpin o _x s) := by
  unfold execNpin
  exact word_canonical h (fun _ h => Cx.changePins_excAll h)

theorem execNunpin_canonical {o _x s} (h : s.memWf) : Canonical (execNunpin o _x s) := by
  unfold execNunpin
  exact word_canonical h (fun _ h => Cx.changePins_excAll h)

end Sys2Proof.Machine
end

section
/-! PROOFS. Canonical memory in the words of family C: engines, synchronization and the system (R4, R9, R166 to R206). -/

namespace Sys2Proof.Machine

/-! ## Matrix words -/

theorem Cx.agent_plain {c} : Plain (Cx.agent c) := by
  unfold Cx.agent
  split
  · exact trivial
  · exact trivial

theorem Cx.tagFree_plain {c t} : Plain (Cx.tagFree c t) := by
  unfold Cx.tagFree
  exact holds_ite excAll_stop trivial

theorem Cx.checkRange_plain {c base vault off n align write} : Plain (Cx.checkRange c base vault off n align write) := by
  unfold Cx.checkRange
  exact plain_bind Cx.locate_plain (fun _ => holds_ite (plain_bind Cx.locate_plain (fun _ => trivial)) trivial)

theorem copyPin_memWf {s ctx slot up} (h : s.memWf) : (copyPin s ctx slot up).memWf := by
  unfold copyPin
  exact State.modCtx_memWf h

theorem Cx.fork_memWf {c agent m} (h : c.s.memWf) : (Cx.fork c agent m).memWf := by
  unfold Cx.fork
  exact withRace_memWf (State.modUnit_memWf (holds_foldl (fun _ h _ => copyPin_memWf h) h))

theorem Cx.bounds_excAll {α} {P : α → Prop} {c} : ExcAll P (Cx.bounds c) := excAll_stop

theorem execLdpl_canonical {o x s} (h : s.memWf) : Canonical (execLdpl o x s) := by
  unfold execLdpl
  refine word_canonical h (fun _ h => ?_)
  refine plain_bind Cx.agent_plain (fun _ => ?_)
  dsimp only
  refine plain_bind Cx.needBase_plain (fun _ => ?_)
  refine plain_bind Cx.tagFree_plain (fun _ => ?_)
  refine holds_ite ?_ (plain_bind Cx.checkRange_plain (fun _ => excAll_ok (State.modCore_memWf (Cx.fork_memWf h))))
  refine plain_bind Cx.bounds_excAll (fun _ => ?_)
  exact plain_bind Cx.checkRange_plain (fun _ => excAll_ok (State.modCore_memWf (Cx.fork_memWf h)))

theorem execPlswap_canonical {o x s} (h : s.memWf) : Canonical (execPlswap o x s) := by
  unfold execPlswap
  refine word_canonical h (fun _ h => ?_)
  dsimp only
  refine holds_ite ?_ (excAll_ok (State.modCore_memWf (withRace_memWf h)))
  exact plain_bind Cx.bounds_excAll (fun _ => excAll_ok (State.modCore_memWf (withRace_memWf h)))

theorem Cx.tagsSettled_plain {c slots} : Plain (Cx.tagsSettled c slots) := by
  unfold Cx.tagsSettled
  exact holds_ite trivial trivial

theorem slotFormat_excAll {α} {P : α → Prop} {u slot} : ExcAll P (slotFormat u slot) := excAll_stop

theorem needSlots_plain {u ok slots} : Plain (needSlots u ok slots) := by
  unfold needSlots
  split
  · exact slotFormat_excAll
  · exact trivial

theorem Cx.haveSlots_plain {c slots} : Plain (Cx.haveSlots c slots) := by
  unfold Cx.haveSlots
  exact holds_ite Cx.bounds_excAll trivial

theorem execMmq_canonical {o x s} (h : s.memWf) : Canonical (execMmq o x s) := by
  unfold execMmq
  refine word_canonical h fun _ h => ?_
  refine plain_bind Cx.agent_plain fun _ => ?_
  refine plain_bind Cx.tagsSettled_plain fun _ => ?_
  refine plain_bind Cx.need_plain fun _ => ?_
  refine plain_bind Cx.need_plain fun _ => ?_
  refine plain_guard excAll_stop fun _ => ?_
  refine plain_bind needSlots_plain fun _ => ?_
  refine plain_bind Cx.haveSlots_plain fun _ => ?_
  refine plain_bind (mapLanes_plain fun _ => resolveVault_plain) fun _ => ?_
  exact excAll_ok (State.modCore_memWf (withRace_memWf (Cx.fork_memWf h)))

theorem Cx.slotsFree_plain {c rd wr} : Plain (Cx.slotsFree c rd wr) := by
  unfold Cx.slotsFree
  exact holds_ite trivial trivial

theorem execAccrd_canonical {o x s} (h : s.memWf) : Canonical (execAccrd o x s) := by
  unfold execAccrd
  refine word_canonical h (fun _ h => ?_)
  exact plain_bind Cx.slotsFree_plain (fun _ => plain_bind Cx.haveSlots_plain (fun _ => excAll_ok (Cx.put_memWf h)))

theorem Cx.moveTag_plain {c a n ok} : Plain (Cx.moveTag c a n ok) := by
  unfold Cx.moveTag
  dsimp only
  split
  · exact excAll_stop
  · exact trivial

theorem State.setUnit_memWf {s u} (h : s.memWf) : (State.setUnit s u).memWf := by
  unfold State.setUnit
  exact State.modUnit_memWf h

theorem Cx.putU_memWf {c u} (h : c.s.memWf) : (Cx.putU c u).memWf := by
  unfold Cx.putU
  exact State.setUnit_memWf h

theorem execAccwr_canonical {o x s} (h : s.memWf) : Canonical (execAccwr o x s) := by
  unfold execAccwr
  refine word_canonical h (fun _ h => ?_)
  dsimp only
  refine plain_bind Cx.slotsFree_plain (fun _ => ?_)
  refine plain_bind Cx.moveTag_plain (fun _ => ?_)
  exact plain_bind needSlots_plain (fun _ => plain_bind Cx.haveSlots_plain (fun _ => excAll_ok (Cx.putU_memWf h)))

theorem execAcczero_canonical {o _x s} (h : s.memWf) : Canonical (execAcczero o _x s) := by
  unfold execAcczero
  refine word_canonical h (fun _ h => ?_)
  exact plain_bind Cx.slotsFree_plain (fun _ => plain_bind Cx.haveSlots_plain (fun _ => excAll_ok (Cx.putU_memWf h)))

theorem Cx.accMove_excAll {c i o x load} (h : c.s.memWf) : ExcAll State.memWf (Cx.accMove c i o x load) := by
  unfold Cx.accMove
  refine plain_bind Cx.agent_plain fun _ => ?_
  refine plain_guard Cx.tagsSettled_plain fun _ => ?_
  refine plain_bind Cx.needBase_plain fun _ => ?_
  refine plain_guard needSlots_plain fun _ => ?_
  refine plain_bind Cx.tagFree_plain fun _ => ?_
  refine plain_bind Cx.haveSlots_plain fun _ => ?_
  exact plain_bind Cx.checkRange_plain fun _ => excAll_ok (Cx.fork_memWf h)

theorem execAccld_canonical {o x s} (h : s.memWf) : Canonical (execAccld o x s) := by
  unfold execAccld
  exact word_canonical h (fun _ h => Cx.accMove_excAll h)

theorem execAccst_canonical {o x s} (h : s.memWf) : Canonical (execAccst o x s) := by
  unfold execAccst
  exact word_canonical h (fun _ h => Cx.accMove_excAll h)

/-! ## Factor words -/

theorem Cx.facFork_excAll {c i o x agent others f} (h : c.s.memWf) : ExcAll State.memWf (Cx.facFork c i o x agent others f) := by
  unfold Cx.facFork
  refine plain_bind Cx.haveSlots_plain (fun _ => ?_)
  dsimp only
  refine holds_ite ?_ (excAll_ok (State.modCore_memWf (Cx.fork_memWf h)))
  exact plain_bind Cx.bounds_excAll (fun _ => excAll_ok (State.modCore_memWf (Cx.fork_memWf h)))

theorem execTrchol_canonical {o x s} (h : s.memWf) : Canonical (execTrchol o x s) := by
  unfold execTrchol
  refine word_canonical h (fun _ h => ?_)
  refine plain_bind Cx.agent_plain (fun _ => ?_)
  exact plain_bind Cx.tagsSettled_plain (fun _ => plain_bind needSlots_plain (fun _ => Cx.facFork_excAll h))

theorem Cx.needTile_plain {c o x} : Plain (Cx.needTile c o x) := by
  unfold Cx.needTile
  exact plain_bind needSlots_plain (fun _ => holds_ite slotFormat_excAll trivial)

theorem Cx.needVec_plain {c a x n} : Plain (Cx.needVec c a x n) := by
  induction n with
  | zero => trivial
  | succ n ih => exact plain_bind ih fun _ => plain_bind Cx.need_plain fun _ => trivial

theorem execTrupd_canonical {o x s} (h : s.memWf) : Canonical (execTrupd o x s) := by
  unfold execTrupd
  refine word_canonical h (fun _ h => ?_)
  refine plain_bind Cx.agent_plain (fun _ => ?_)
  refine plain_bind Cx.tagsSettled_plain (fun _ => ?_)
  exact plain_bind Cx.needTile_plain (fun _ => plain_bind Cx.needVec_plain (fun _ => Cx.facFork_excAll h))

theorem execTrupd8_canonical {o x s} (h : s.memWf) : Canonical (execTrupd8 o x s) := by
  unfold execTrupd8
  refine word_canonical h (fun _ h => ?_)
  refine plain_bind Cx.agent_plain (fun _ => ?_)
  refine plain_bind Cx.tagsSettled_plain (fun _ => ?_)
  exact plain_bind Cx.needTile_plain (fun _ => plain_bind needSlots_plain (fun _ => Cx.facFork_excAll h))

theorem execTrdwd_canonical {o x s} (h : s.memWf) : Canonical (execTrdwd o x s) := by
  unfold execTrdwd
  refine word_canonical h (fun _ h => ?_)
  refine plain_bind Cx.agent_plain (fun _ => ?_)
  refine plain_bind Cx.tagsSettled_plain (fun _ => ?_)
  exact plain_bind Cx.needTile_plain (fun _ => plain_bind Cx.needVec_plain (fun _ => Cx.facFork_excAll h))

theorem execTrsolve_canonical {o x s} (h : s.memWf) : Canonical (execTrsolve o x s) := by
  unfold execTrsolve
  refine word_canonical h (fun _ h => ?_)
  refine plain_bind Cx.agent_plain (fun _ => ?_)
  refine plain_bind Cx.tagsSettled_plain (fun _ => ?_)
  exact plain_bind Cx.needTile_plain (fun _ => plain_bind Cx.needVec_plain (fun _ => Cx.facFork_excAll h))

theorem execTrscale_canonical {o x s} (h : s.memWf) : Canonical (execTrscale o x s) := by
  unfold execTrscale
  refine word_canonical h (fun _ h => ?_)
  refine plain_bind Cx.agent_plain (fun _ => ?_)
  refine plain_bind Cx.tagsSettled_plain (fun _ => ?_)
  exact plain_bind Cx.needTile_plain (fun _ => plain_bind Cx.need_plain (fun _ => Cx.facFork_excAll h))

/-! ## Copies and streams -/

theorem Cx.producer_plain {c} : Plain (Cx.producer c) := by
  unfold Cx.producer
  split
  · exact holds_ite trivial excAll_stop
  · exact excAll_stop

theorem Cx.copyAgent_plain {c} : Plain (Cx.copyAgent c) := by
  unfold Cx.copyAgent
  exact plain_bind Cx.agent_plain (fun _ => plain_bind Cx.producer_plain (fun _ => trivial))

theorem Cx.length_plain {c o} : Plain (Cx.length c o) := by
  unfold Cx.length
  exact holds_ite trivial (holds_ite (plain_bind Cx.need_plain (fun _ => trivial)) (plain_bind Cx.need_plain (fun _ => trivial)))

theorem Cx.needDesc_plain {c o} : Plain (Cx.needDesc c o) := by
  unfold Cx.needDesc
  exact Cx.needRange_plain

theorem execCpy_canonical {o x s} (h : s.memWf) : Canonical (execCpy o x s) := by
  unfold execCpy
  refine word_canonical h fun _ h => ?_
  refine plain_bind Cx.copyAgent_plain fun _ => ?_
  refine plain_bind Cx.needBase_plain fun _ => ?_
  refine plain_bind Cx.needBase_plain fun _ => ?_
  refine holds_ite ?_ ?_
  · refine plain_bind Cx.length_plain fun _ => plain_bind Cx.tagFree_plain fun _ => ?_
    exact plain_bind Cx.checkRange_plain fun _ => plain_bind Cx.checkRange_plain fun _ => excAll_ok (Cx.fork_memWf h)
  · refine plain_bind Cx.needDesc_plain fun _ => plain_bind Cx.tagFree_plain fun _ => plain_guard Cx.bounds_excAll fun _ => ?_
    exact plain_bind Cx.checkRange_plain fun _ => plain_bind Cx.checkRange_plain fun _ => excAll_ok (Cx.fork_memWf h)

theorem execCpyg_canonical {o x s} (h : s.memWf) : Canonical (execCpyg o x s) := by
  unfold execCpyg
  refine word_canonical h fun _ h => ?_
  refine plain_bind Cx.copyAgent_plain fun _ => ?_
  refine plain_bind Cx.needBase_plain fun _ => ?_
  refine plain_bind Cx.needBase_plain fun _ => ?_
  refine plain_bind Cx.needDesc_plain fun _ => ?_
  refine plain_bind Cx.tagFree_plain fun _ => ?_
  refine plain_guard Cx.bounds_excAll fun _ => ?_
  split
  · exact Cx.bounds_excAll
  · refine plain_guard Cx.bounds_excAll fun _ => ?_
    exact plain_bind Cx.checkRange_plain fun _ => plain_bind Cx.checkRange_plain fun _ => excAll_ok (Cx.fork_memWf h)

theorem execCpyt_canonical {o x s} (h : s.memWf) : Canonical (execCpyt o x s) := by
  unfold execCpyt
  refine word_canonical h fun _ h => ?_
  refine plain_bind Cx.copyAgent_plain fun _ => ?_
  refine plain_bind Cx.needBase_plain fun _ => ?_
  refine plain_bind Cx.needBase_plain fun _ => ?_
  refine plain_bind Cx.needDesc_plain fun _ => ?_
  refine plain_bind Cx.tagFree_plain fun _ => ?_
  refine plain_guard Cx.bounds_excAll fun _ => ?_
  refine plain_guard excAll_stop fun _ => ?_
  exact plain_bind Cx.checkRange_plain fun _ => plain_bind Cx.checkRange_plain fun _ => excAll_ok (Cx.fork_memWf h)

theorem execCpyr_canonical {o x s} (h : s.memWf) : Canonical (execCpyr o x s) := by
  unfold execCpyr
  refine word_canonical h (fun _ h => ?_)
  refine plain_bind Cx.copyAgent_plain (fun _ => ?_)
  dsimp only
  refine plain_bind Cx.needBase_plain (fun _ => ?_)
  refine plain_bind Cx.length_plain (fun _ => ?_)
  exact plain_bind Cx.tagFree_plain (fun _ => plain_bind Cx.checkRange_plain (fun _ => excAll_ok (Cx.fork_memWf h)))

theorem execCred_canonical {o x s} (h : s.memWf) : Canonical (execCred o x s) := by
  unfold execCred
  refine word_canonical h fun _ h => ?_
  refine plain_bind Cx.copyAgent_plain fun _ => ?_
  refine plain_guard_read Cx.needBase_plain ?_
  refine plain_bind Cx.needBase_plain fun _ => ?_
  refine plain_bind Cx.length_plain fun _ => ?_
  refine plain_bind Cx.tagFree_plain fun _ => ?_
  refine plain_guard excAll_stop fun _ => ?_
  refine plain_bind Cx.checkRange_plain fun _ => ?_
  refine holds_ite ?_ ?_
  · exact plain_guard excAll_stop fun _ => excAll_ok (Cx.fork_memWf h)
  · exact plain_bind Cx.checkRange_plain fun _ => excAll_ok (Cx.fork_memWf h)

theorem execCpyz_canonical {o x s} (h : s.memWf) : Canonical (execCpyz o x s) := by
  unfold execCpyz
  refine word_canonical h (fun _ h => ?_)
  refine plain_bind Cx.copyAgent_plain (fun _ => ?_)
  dsimp only
  refine plain_bind Cx.needBase_plain (fun _ => ?_)
  refine plain_bind Cx.needBase_plain (fun _ => ?_)
  refine plain_bind Cx.needDesc_plain (fun _ => ?_)
  refine plain_bind Cx.tagFree_plain (fun _ => ?_)
  refine holds_ite ?_ (plain_bind Cx.checkRange_plain (fun _ => plain_bind Cx.checkRange_plain (fun _ => excAll_ok (Cx.fork_memWf h))))
  refine plain_bind Cx.bounds_excAll (fun _ => ?_)
  exact plain_bind Cx.checkRange_plain (fun _ => plain_bind Cx.checkRange_plain (fun _ => excAll_ok (Cx.fork_memWf h)))

theorem execRatom_canonical {o x s} (h : s.memWf) : Canonical (execRatom o x s) := by
  unfold execRatom
  refine word_canonical h (fun _ h => ?_)
  refine plain_bind Cx.copyAgent_plain (fun _ => ?_)
  dsimp only
  refine plain_bind Cx.needBase_plain (fun _ => ?_)
  refine plain_bind Cx.dataTag_plain (fun _ => ?_)
  refine holds_ite ?_ (plain_bind Cx.tagFree_plain (fun _ => plain_bind Cx.checkRange_plain (fun _ => excAll_ok (Cx.fork_memWf h))))
  refine plain_bind Cx.dataTag_plain (fun _ => ?_)
  exact plain_bind Cx.tagFree_plain (fun _ => plain_bind Cx.checkRange_plain (fun _ => excAll_ok (Cx.fork_memWf h)))

theorem Cx.bound_plain {c q} : Plain (Cx.bound c q) := by
  unfold Cx.bound
  exact holds_ite trivial Cx.bounds_excAll

theorem execSfill_canonical {o x s} (h : s.memWf) : Canonical (execSfill o x s) := by
  unfold execSfill
  refine word_canonical h (fun _ h => ?_)
  refine plain_bind Cx.copyAgent_plain (fun _ => ?_)
  dsimp only
  refine plain_bind Cx.needBase_plain (fun _ => ?_)
  refine plain_bind Cx.bound_plain (fun _ => ?_)
  refine holds_ite ?_ (plain_bind Cx.checkRange_plain (fun _ => excAll_ok (withRace_memWf (State.modUnit_memWf (Cx.fork_memWf h)))))
  refine plain_bind trivial (fun _ => ?_)
  exact plain_bind Cx.checkRange_plain (fun _ => excAll_ok (withRace_memWf (State.modUnit_memWf (Cx.fork_memWf h))))

theorem execSpop_canonical {o x s} (h : s.memWf) : Canonical (execSpop o x s) := by
  unfold execSpop
  refine word_canonical h (fun _ h => ?_)
  dsimp only
  refine plain_bind Cx.bound_plain (fun _ => ?_)
  refine holds_ite ?_ (excAll_ok (withRace_memWf (State.modUnit_memWf (Cx.put_memWf h))))
  exact plain_bind trivial (fun _ => excAll_ok (withRace_memWf (State.modUnit_memWf (Cx.put_memWf h))))

theorem execSfree_canonical {o x s} (h : s.memWf) : Canonical (execSfree o x s) := by
  unfold execSfree
  refine word_canonical h (fun _ h => ?_)
  dsimp only
  refine plain_bind Cx.bound_plain (fun _ => ?_)
  refine holds_ite ?_ (excAll_ok (withRace_memWf (Cx.putU_memWf h)))
  exact plain_bind Cx.bounds_excAll (fun _ => excAll_ok (withRace_memWf (Cx.putU_memWf h)))

theorem execSfreeInit_canonical {o x s} (h : s.memWf) : Canonical (execSfreeInit o x s) := by
  unfold execSfreeInit
  refine word_canonical h (fun _ h => ?_)
  dsimp only
  refine plain_bind Cx.need_plain (fun _ => ?_)
  refine plain_bind Cx.need_plain (fun _ => ?_)
  exact holds_ite (plain_bind Cx.bounds_excAll (fun _ => excAll_ok (Cx.putU_memWf h))) (excAll_ok (Cx.putU_memWf h))

/-! ## Tags, barriers and signals -/

theorem Cx.join_memWf {c s ts} (hs : s.memWf) : (Cx.join c s ts).memWf := by
  unfold Cx.join
  exact withRace_memWf hs

theorem execTagw_canonical {o _x s} (h : s.memWf) : Canonical (execTagw o _x s) := by
  unfold execTagw
  exact word_canonical h (fun _ h => plain_bind Cx.need_plain (fun _ => holds_ite (excAll_ok (Cx.join_memWf h)) trivial))

theorem execTagff_canonical {o _x s} (h : s.memWf) : Canonical (execTagff o _x s) := by
  unfold execTagff
  exact word_canonical h (fun _ h => plain_bind Cx.need_plain (fun _ => excAll_ok (Cx.join_memWf (Cx.put_memWf h))))

theorem execTagst_canonical {o _x s} (h : s.memWf) : Canonical (execTagst o _x s) := by
  unfold execTagst
  refine word_canonical h (fun _ h => ?_)
  refine plain_bind Cx.need_plain (fun _ => ?_)
  dsimp only
  refine holds_ite ?_ ?_
  · refine plain_bind Cx.bounds_excAll (fun _ => ?_)
    refine holds_ite ?_ (excAll_ok (Cx.join_memWf (Cx.put_memWf h)))
    exact plain_bind trivial (fun _ => excAll_ok (Cx.join_memWf (Cx.put_memWf h)))
  · refine holds_ite ?_ (excAll_ok (Cx.join_memWf (Cx.put_memWf h)))
    exact plain_bind trivial (fun _ => excAll_ok (Cx.join_memWf (Cx.put_memWf h)))

theorem Cx.scalarOrImm_plain {c o imm} : Plain (Cx.scalarOrImm c o imm) := by
  unfold Cx.scalarOrImm
  exact plain_bind Cx.need_plain (fun _ => trivial)

theorem execBini_canonical {o x s} (h : s.memWf) : Canonical (execBini o x s) := by
  unfold execBini
  refine word_canonical h fun _ _ => ?_
  refine plain_bind Cx.scalarOrImm_plain fun _ => ?_
  refine plain_bind Cx.need_plain fun _ => ?_
  exact plain_guard Cx.bounds_excAll fun _ => excAll_ok (State.modUnit_memWf h)

theorem arrive_memWf {s k bo agent status trapf} (h : s.memWf) : (arrive s k bo agent status trapf).memWf := by
  unfold arrive
  split
  · exact h
  · exact withRace_memWf (State.modUnit_memWf h)

theorem groupArrives_memWf {s c bo} (h : s.memWf) : (groupArrives s c bo).memWf := by
  unfold groupArrives
  exact arrive_memWf (State.modGrp_memWf h)

theorem execBarv_canonical {o x s} (h : s.memWf) : Canonical (execBarv o x s) := by
  unfold execBarv
  exact word_canonical h (fun _ h => excAll_ok (groupArrives_memWf h))

theorem Cx.barwDone_excAll {c o bo target s} (h : s.memWf) : ExcAll State.memWf (Cx.barwDone c o bo target s) := by
  unfold Cx.barwDone
  split
  · exact h
  · have ht := fun f r => withRace_memWf (k := c.u.key) (f := r) (State.modGrp_memWf (k := c.u.key) (gid := c.g.gid) (f := f) h)
    exact holds_ite (excAll_doneTrap (ht _ _)) (excAll_ok (ht _ _))

theorem Cx.barwStart_plain {c} : Plain (Cx.barwStart c) := by
  unfold Cx.barwStart
  exact plain_bind Cx.drain_plain (fun _ => holds_ite excAll_stop trivial)

theorem Cx.barwWait_canonical {c o bo s} (h : c.s.memWf) (hs : s.memWf) : Canonical (Cx.barwWait c o bo s) := by
  unfold Cx.barwWait
  split
  · exact canonical_next hs
  · exact holds_ite (finish_canonical h (Cx.barwDone_excAll hs)) (canonical_next (enterWait_memWf hs))

theorem execBarw_canonical {o x s} (h : s.memWf) : Canonical (execBarw o x s) := by
  unfold execBarw
  split
  · exact canonical_next h
  · rename_i c hc
    have hv := view_canonical h hc
    refine holds_ite (canonical_next (advance_memWf h)) ?_
    split
    · exact holds_ite (finish_canonical hv (Cx.barwDone_excAll h)) (canonical_next h)
    · split
      · rename_i e he
        have hstart : Plain c.barwStart := Cx.barwStart_plain
        rw [he] at hstart
        exact finish_canonical hv hstart
      · exact holds_ite (Cx.barwWait_canonical hv (groupArrives_memWf h)) (Cx.barwWait_canonical hv h)

theorem Cx.amount_plain {c o x} : Plain (Cx.amount c o x) := by
  unfold Cx.amount
  exact holds_ite (plain_bind Cx.need_plain (fun _ => trivial)) Cx.scalarOrImm_plain

theorem execSigdec_canonical {o x s} (h : s.memWf) : Canonical (execSigdec o x s) := by
  unfold execSigdec
  refine word_canonical h fun _ h => ?_
  refine plain_bind Cx.drain_plain fun _ => ?_
  refine plain_bind Cx.needBase_plain fun _ => ?_
  refine plain_bind Cx.amount_plain fun _ => ?_
  refine plain_bind Cx.sysScope_plain fun _ => ?_
  refine plain_bind Cx.check_plain fun _ => ?_
  refine plain_bind Cx.placesPrecise_plain fun _ => ?_
  split
  · exact excAll_ok h
  · exact plain_guard excAll_stop fun _ => excAll_ok (Cx.noteAll_memWf (markDirty_memWf (State.store_memWf (Cx.put_memWf h))))

/-! ## User interrupts -/

/-- `endpointAt` is unfolded as a function and its address made opaque, or the kernel would evaluate tests on a pair's value. -/
theorem Cx.endpointAt_plain {c a} : Plain (Cx.endpointAt c a) := by
  generalize hf : Cx.endpointAt = f
  delta Cx.endpointAt at hf
  subst hf
  beta_reduce
  extract_lets va perm
  clear_value va
  split
  · rename_i e he
    have hr : Plain (resolveOrd c.ctx a.code c.l0 va 256) := resolveOrd_plain
    rw [he] at hr
    exact hr
  · refine holds_ite excAll_stop ?_
    split
    · exact excAll_stop
    · exact holds_ite excAll_stop trivial
  · exact excAll_stop

theorem Cx.raiseArgs_plain {c o} : Plain (Cx.raiseArgs c o) := by
  unfold Cx.raiseArgs
  refine plain_bind Cx.need_plain fun _ => ?_
  refine plain_bind Cx.scalarOrImm_plain fun _ => ?_
  refine plain_bind Cx.tag_plain fun _ => ?_
  refine plain_guard Cx.format_excAll fun _ => ?_
  refine plain_guard Cx.bounds_excAll fun _ => ?_
  refine plain_guard excAll_stop fun _ => ?_
  exact plain_bind Cx.endpointAt_plain fun _ => trivial

theorem execUiraise_canonical {o _x s} (h : s.memWf) : Canonical (execUiraise o _x s) := by
  unfold execUiraise
  refine word_canonical h fun _ _ => ?_
  refine plain_bind Cx.raiseArgs_plain fun _ => ?_
  have raised := fun u r i => State.dueAgain_memWf (i := i) (endOwnership_memWf (k := u) (withRace_memWf (k := u) (f := r) h))
  exact holds_ite (excAll_waitWith (raised _ _ _)) (excAll_ok (raised _ _ _))

theorem Cx.handler_plain {c} : Plain (Cx.handler c) := by
  unfold Cx.handler
  split
  · exact holds_ite trivial excAll_stop
  · exact excAll_stop

theorem execUiwait_canonical {o _x s} (h : s.memWf) : Canonical (execUiwait o _x s) := by
  unfold execUiwait
  exact word_canonical h (fun _ h => plain_bind Cx.handler_plain (fun _ => holds_ite (excAll_ok h) trivial))

theorem epWrite_memWf {s l off n v} (h : s.memWf) : (epWrite s l off n v).memWf := by
  unfold epWrite
  split
  · exact sysWrite_memWf h ..
  · exact h

theorem payWrite_memWf {s l v x} (h : s.memWf) : (payWrite s l v x).memWf := by
  unfold payWrite
  split
  · exact sysWrite_memWf h ..
  · exact h

theorem takeVector_fstWf {s u} (h : s.memWf) : FstWf (takeVector s u) := by
  unfold takeVector
  split
  · exact holds_ite (State.modUnit_memWf h) (payWrite_memWf (epWrite_memWf (epWrite_memWf h)))
  · exact h

theorem execUitake_canonical {o _x s} (h : s.memWf) : Canonical (execUitake o _x s) := by
  unfold execUitake
  refine word_canonical h (fun _ h => ?_)
  refine plain_bind Cx.handler_plain (fun _ => ?_)
  split
  rename_i _ _ _ _ eh1
  have h1 := ((takeVector_fstWf h) : FstWf _).of_eq eh1
  exact excAll_ok (holds_ite (State.modGrp_memWf h1) (withRace_memWf (State.modGrp_memWf h1)))

theorem execUimask_canonical {o _x s} (h : s.memWf) : Canonical (execUimask o _x s) := by
  unfold execUimask
  exact word_canonical h (fun _ h => excAll_ok (Cx.put_memWf h))

theorem execUiret_canonical {o _x s} (h : s.memWf) : Canonical (execUiret o _x s) := by
  unfold execUiret
  refine wordCtl_canonical h (fun _ h => ?_)
  refine plain_bind Cx.handler_plain (fun _ => ?_)
  exact holds_ite (plain_bind excAll_stop (fun _ => setFrontier_excAll h)) (setFrontier_excAll h)

/-! ## Calls and special registers -/

theorem Cx.callEdge_memWf {c s} (hs : s.memWf) : (Cx.callEdge c s).memWf := by
  unfold Cx.callEdge
  split
  · exact hs
  · exact withRace_memWf (State.modCore_memWf hs)

theorem sendAgent_memWf {s fn svc h4} (h : s.memWf) : (sendAgent s fn svc h4).memWf := by
  unfold sendAgent
  exact sendRecord_memWf (State.modFunc_memWf h)

theorem agentRequest_memWf {s u svc} (h : s.memWf) : (agentRequest s u svc).memWf := by
  unfold agentRequest
  dsimp only
  split
  · exact h
  · refine holds_ite (sendAgent_memWf (State.modFunc_memWf h)) ?_
    split
    · exact sendAgent_memWf h
    · exact h

theorem execScall_canonical {o _x s} (h : s.memWf) : Canonical (execScall o _x s) := by
  unfold execScall
  refine word_canonical h (fun _ h => ?_)
  refine plain_bind Cx.drain_plain (fun _ => ?_)
  refine plain_bind Cx.needBase_plain (fun _ => ?_)
  refine plain_bind Cx.check_plain (fun _ => ?_)
  refine plain_bind Cx.placesPrecise_plain (fun _ => ?_)
  exact holds_ite trivial (agentRequest_memWf (Cx.noteAll_memWf (State.modCore_memWf (Cx.callEdge_memWf (Cx.put_memWf h)))))

theorem execTrapSw_canonical {o _x s} (h : s.memWf) : Canonical (execTrapSw o _x s) := by
  unfold execTrapSw
  exact word_canonical h (fun _ h => h)

theorem Cx.sprPriv_plain {c n} : Plain (Cx.sprPriv c n) := by
  unfold Cx.sprPriv
  exact holds_ite excAll_stop trivial

theorem execSprd_canonical {o _x s} (h : s.memWf) : Canonical (execSprd o _x s) := by
  unfold execSprd
  refine word_canonical h fun _ h => ?_
  refine plain_bind Cx.sprPriv_plain fun _ => ?_
  refine excAll_pure (holds_ite ?_ ?_)
  · exact Cx.join_memWf (Cx.put_memWf h)
  · exact Cx.put_memWf h

theorem writeUimask_memWf {s k v} (h : s.memWf) : (writeUimask s k v).memWf := by
  unfold writeUimask
  dsimp only
  split
  · exact State.modUnit_memWf h
  · split
    · exact holds_ite (epWrite_memWf (State.modLaunch_memWf (State.modUnit_memWf h))) (State.modUnit_memWf h)
    · exact State.modUnit_memWf h

theorem sprWrite_memWf {s u g n v} (h : s.memWf) : (sprWrite s u g n v).memWf := by
  unfold sprWrite
  exact holds_ite (writeUimask_memWf h) (State.modGrp_memWf h)

theorem execSpwr_canonical {o _x s} (h : s.memWf) : Canonical (execSpwr o _x s) := by
  unfold execSpwr
  refine word_canonical h fun _ h => ?_
  refine plain_bind Cx.sprPriv_plain fun _ => ?_
  refine plain_guard excAll_stop fun _ => ?_
  refine plain_bind Cx.tag_plain fun _ => ?_
  exact plain_guard Cx.format_excAll fun _ => excAll_pure (sprWrite_memWf h)

theorem execBrk_canonical {o _x s} (h : s.memWf) : Canonical (execBrk o _x s) := by
  unfold execBrk
  exact word_canonical h (fun _ h => excAll_stop)

/-! ## The end of a group and the answer of a fault -/

theorem withdrawMail_memWf {s core slots} (h : s.memWf) : (withdrawMail s core slots).memWf := by
  unfold withdrawMail
  exact mailPump_memWf (State.setCore_memWf h)

theorem dropGroupWaits_memWf {s ctx u gid} (h : s.memWf) : (dropGroupWaits s ctx u gid).memWf := by
  unfold dropGroupWaits
  exact State.modCtx_memWf h

theorem endGroup_memWf {s k gid} (h : s.memWf) : (endGroup s k gid).memWf := by
  unfold endGroup
  split
  · exact h
  · split
    · exact h
    · dsimp only
      refine State.modUnit_memWf ?_
      refine dropGroupWaits_memWf ?_
      refine holds_foldl (fun _ h _ => ?_) h
      split
      · exact h
      · exact holds_ite (State.modUnit_memWf h) (withRace_memWf (State.modUnit_memWf h))

theorem failUnit_memWf {s k} (h : s.memWf) : (failUnit s k).memWf := by
  unfold failUnit
  split
  · exact h
  · exact State.modUnit_memWf (holds_foldl (fun _ h _ => endGroup_memWf h) (withdrawMail_memWf h))

theorem takeSeconds_memWf {s k} (h : s.memWf) : (takeSeconds s k).memWf := by
  unfold takeSeconds
  split
  · exact h
  · exact holds_foldl (fun _ h _ => takeFault_memWf h) h

theorem restartUnit_optAll {s k} (h : s.memWf) : OptAll State.memWf (restartUnit s k) := by
  unfold restartUnit
  split
  · exact optAll_some h
  · refine holds_ite ?_ (optAll_some h)
    split
    · exact optAll_none
    · exact optAll_some (takeSeconds_memWf (State.modUnit_memWf h))

theorem restartOrFail_memWf {s k} (h : s.memWf) : (restartOrFail s k).memWf := by
  unfold restartOrFail
  exact optAll_getD (restartUnit_optAll h) (failUnit_memWf h)

theorem answerEntry_memWf {s u g scall fn} (h : s.memWf) : (answerEntry s u g scall fn).memWf := by
  unfold answerEntry
  dsimp only
  refine holds_ite (failUnit_memWf h) ?_
  refine holds_ite (holds_ite (endGroup_memWf h) (restartOrFail_memWf (endGroup_memWf h))) ?_
  refine holds_ite ?_ (restartOrFail_memWf (State.modGrp_memWf h))
  split
  · exact State.modGrp_memWf h
  · exact failUnit_memWf h

theorem Cx.answerEdge_memWf {c s k gid} (hs : s.memWf) : (Cx.answerEdge c s k gid).memWf := by
  unfold Cx.answerEdge
  exact withRace_memWf (withRace_memWf hs)

theorem execSret_canonical {o _x s} (h : s.memWf) : Canonical (execSret o _x s) := by
  unfold execSret
  refine word_canonical h fun _ h => ?_
  refine plain_guard excAll_stop fun _ => ?_
  dsimp only
  split
  · exact Cx.bounds_excAll
  · refine plain_guard Cx.bounds_excAll fun _ => ?_
    refine excAll_ok (mailPump_memWf ?_)
    split
    · exact answerEntry_memWf (holds_ite (Cx.answerEdge_memWf (State.setCore_memWf h)) (State.setCore_memWf h))
    · exact State.setCore_memWf h

/-! ## The end of a launch -/

theorem mirrorHist_memWf {s ctx slot inc} (h : s.memWf) : (mirrorHist s ctx slot inc).memWf := by
  unfold mirrorHist
  split
  · exact sysWrite_memWf h ..
  · exact h

theorem retireHistory_memWf {s ctx} (h : s.memWf) : (retireHistory s ctx).memWf := by
  unfold retireHistory
  split
  · exact h
  · exact holds_ite h (holds_foldl (fun _ h _ => mirrorHist_memWf h) (State.modCtx_memWf h))

theorem freePlanes_memWf {s core} (h : s.memWf) : (freePlanes s core).memWf := by
  unfold freePlanes
  dsimp only
  split
  · exact h
  · exact holds_ite h (State.setCore_memWf h)

theorem unplace_memWf {s u l} (h : s.memWf) : (unplace s u l).memWf := by
  unfold unplace
  extract_lets c rd mine x s1 v s2 s3
  have h1 : s1.memWf := holds_ite h (sysWriteBytes_memWf h ..)
  have h2 : s2.memWf := dropGroupWaits_memWf h1
  have h3 : s3.memWf := h2
  exact retireHistory_memWf (freePlanes_memWf (State.modLaunch_memWf h3))

theorem unplaceAll_memWf {s l} (h : s.memWf) : (unplaceAll s l).memWf := by
  unfold unplaceAll
  exact holds_foldl (fun _ h _ => unplace_memWf h) h

theorem leaveEngine_memWf {s k agent} (h : s.memWf) : (leaveEngine s k agent).memWf := by
  unfold leaveEngine
  exact h

theorem chargePass_memWf {s core p} (h : s.memWf) : (chargePass s core p).memWf := by
  unfold chargePass
  exact holds_ite h (spend_memWf (holds_foldl (fun _ h _ => addEnergy_memWf h) h))

theorem passEnd_memWf {s core} (h : s.memWf) : (passEnd s core).memWf := by
  unfold passEnd
  dsimp only
  refine State.modDie_memWf ?_
  refine State.modCore_memWf ?_
  split
  · exact chargePass_memWf h
  · exact h

theorem leavePass_memWf {s core k agent} (h : s.memWf) : (leavePass s core k agent).memWf := by
  unfold leavePass
  split
  · exact h
  · exact holds_ite h (holds_ite (passEnd_memWf (State.modCore_memWf h)) (State.modCore_memWf h))

theorem wakeUnit_memWf {s k p} (h : s.memWf) : (wakeUnit s k p).memWf := by
  unfold wakeUnit
  exact State.modUnit_memWf h

theorem dropCmd_memWf {s k agent} (h : s.memWf) : (dropCmd s k agent).memWf := by
  unfold dropCmd
  split
  · exact h
  · split
    · exact h
    · dsimp only
      refine wakeUnit_memWf ?_
      refine State.modDie_memWf ?_
      exact State.modCore_memWf (leaveEngine_memWf (leavePass_memWf (State.modUnit_memWf (holds_foldl (fun _ h _ => copyPin_memWf h) h))))

theorem settlePermit_memWf {s k core m} (h : s.memWf) : (settlePermit s k core m).memWf := by
  unfold settlePermit
  exact holds_ite (chargeEnd_memWf h) h

theorem State.modCmd_memWf {s k agent f} (h : s.memWf) : (State.modCmd s k agent f).memWf := by
  unfold State.modCmd
  exact State.modUnit_memWf h

theorem cmdEnd_memWf {s k agent st} (h : s.memWf) : (cmdEnd s k agent st).memWf := by
  unfold cmdEnd
  exact State.modCmd_memWf h

theorem cancelCmds_memWf {s k} (h : s.memWf) : (cancelCmds s k).memWf := by
  unfold cancelCmds
  split
  · exact h
  · dsimp only
    refine holds_foldl (fun _ h _ => ?_) (orphan_memWf h)
    exact holds_ite (dropCmd_memWf (holds_ite (settlePermit_memWf h) h)) (holds_ite h (cmdEnd_memWf (State.modCmd_memWf h)))

theorem doomUnit_memWf {s k t} (h : s.memWf) : (doomUnit s k t).memWf := by
  unfold doomUnit
  split
  · exact h
  · dsimp only
    refine holds_foldl (fun _ h _ => ?_) (cancelCmds_memWf (State.modUnit_memWf h))
    split
    · exact haltSibling_memWf h
    · exact State.due_memWf h
    · exact stopSibling_memWf h

theorem cancelLaunch_memWf {s fn lid level rpc} (h : s.memWf) : (cancelLaunch s fn lid level rpc).memWf := by
  unfold cancelLaunch
  split
  · exact h
  · exact holds_ite h (holds_foldl (fun _ h _ => doomUnit_memWf h) (finishLaunch_memWf (unplaceAll_memWf h)))

theorem levelClose_memWf {s l} (h : s.memWf) : (levelClose s l).memWf := by
  unfold levelClose
  split
  · exact holds_ite (levelDown_memWf (State.modLevel_memWf h)) h
  · exact h

theorem cancelLevel_memWf {s fn kind id rpc} (h : s.memWf) : (cancelLevel s fn kind id rpc).memWf := by
  unfold cancelLevel
  refine holds_ite h ?_
  exact holds_foldl (fun _ h _ => holds_foldl (fun _ h1 _ => levelClose_memWf h1) h) (holds_foldl (fun _ h2 _ => cancelLaunch_memWf h2) h)

theorem cancelNamed_memWf {s l level} (h : s.memWf) : (cancelNamed s l level).memWf := by
  unfold cancelNamed
  exact holds_ite (cancelLaunch_memWf h) (cancelLevel_memWf h)

theorem execCancel_canonical {o _x s} (h : s.memWf) : Canonical (execCancel o _x s) := by
  unfold execCancel
  refine word_canonical h (fun _ h => ?_)
  refine excAll_ok ?_
  split
  · exact cancelNamed_memWf h
  · exact h

theorem execHvy_canonical {o _x s} (h : s.memWf) : Canonical (execHvy o _x s) := by
  unfold execHvy
  refine word_canonical h (fun _ h => ?_)
  exact holds_ite (plain_bind Cx.bounds_excAll (fun _ => excAll_ok (State.modUnit_memWf h))) (excAll_ok (State.modUnit_memWf h))

theorem execUimaskWrite_canonical {k v s} (h : s.memWf) : Canonical (execUimaskWrite k v s) := by
  unfold execUimaskWrite
  exact canonical_next (writeUimask_memWf h)

theorem execRegisterWrite_canonical {core slot off size v s} (h : s.memWf) : Canonical (execRegisterWrite core slot off size v s) := by
  unfold execRegisterWrite
  exact canonical_next (windowWrite_memWf h)

end Sys2Proof.Machine
end

section
/-! PROOFS. Canonical memory in the steps of groups, units, engines and copies (R4, R9). -/

namespace Sys2Proof.Machine

/-! ## Groups and units -/

theorem impreciseFault_memWf {s k gid t status} (h : s.memWf) : (impreciseFault s k gid t status).memWf := by
  unfold impreciseFault
  split
  · exact h
  · split
    · exact h
    · exact holds_ite (mirrorRec_memWf (State.modGrp_memWf h)) (takeFault_memWf h)

theorem queueFull_memWf {s u g r} (h : s.memWf) : (queueFull s u g r).memWf := by
  unfold queueFull
  exact holds_ite (impreciseFault_memWf h) (takeFault_memWf h)

theorem execStoreFaultRecord_canonical {k r s} (h : s.memWf) : Canonical (execStoreFaultRecord k r s) := by
  unfold execStoreFaultRecord
  split
  · exact canonical_next h
  · split
    · exact canonical_next (State.modUnit_memWf h)
    · split
      · exact canonical_next (queueFull_memWf h)
      · exact canonical_next h

theorem execSibhalt_canonical {k gid s} (h : s.memWf) : Canonical (execSibhalt k gid s) := by
  unfold execSibhalt
  split
  · exact canonical_next h
  · split
    · exact canonical_next (stopSibling_memWf h)
    · exact canonical_next h

theorem execRejoinWaitComplete_canonical {k gid s} (h : s.memWf) : Canonical (execRejoinWaitComplete k gid s) := by
  unfold execRejoinWaitComplete
  split
  · exact canonical_next h
  · refine holds_ite (canonical_next h) ?_
    split
    · exact canonical_next h
    · exact canonical_next (State.modGrp_memWf h)

theorem execOffcutStallRelease_canonical {k gid s} (h : s.memWf) : Canonical (execOffcutStallRelease k gid s) := by
  unfold execOffcutStallRelease
  exact canonical_next (State.modGrp_memWf h)

theorem execJoinerBuild_canonical {k s} (h : s.memWf) : Canonical (execJoinerBuild k s) := by
  unfold execJoinerBuild
  split
  · exact canonical_next h
  · split
    · exact canonical_next (withRace_memWf (State.modUnit_memWf h))
    · exact canonical_next h

theorem rereadEntry_canonical {s k gid i} (h : s.memWf) : Canonical (rereadEntry s k gid i) := by
  unfold rereadEntry
  split
  · exact canonical_next h
  · split
    · exact canonical_next (takeFault_memWf h)
    · dsimp only
      split
      · exact canonical_next (takeFault_memWf h)
      · exact word_canonical h (fun _ h => Cx.waitvBody_excAll h)
      · exact word_canonical h (fun _ h1 => Cx.tstAllBody_excAll h1)
      · exact canonical_next (State.modGrp_memWf h)

theorem rereadAll_canonical {s k gid ws} (h : s.memWf) : Canonical (rereadAll s k gid ws) := by
  induction ws generalizing s with
  | nil => exact canonical_next h
  | cons w ws ih =>
    unfold rereadAll
    split
    · exact canonical_next h
    · refine holds_ite (canonical_next h) ?_
      split
      · exact ih h
      · rename_i i _
        have hr := rereadEntry_canonical (k := k) (gid := gid) (i := i) h
        split
        · rename_i t ht
          exact ih (hr t ht)
        · exact hr

theorem execWaitvReread_canonical {k gid s} (h : s.memWf) : Canonical (execWaitvReread k gid s) := by
  unfold execWaitvReread
  split
  · exact canonical_next h
  · exact holds_ite (canonical_next h) (rereadAll_canonical h)

theorem wakeCtx_memWf {s ctx p} (h : s.memWf) : (wakeCtx s ctx p).memWf := by
  unfold wakeCtx
  exact h

theorem execFillWaitEnd_canonical {ctx slot s} (h : s.memWf) : Canonical (execFillWaitEnd ctx slot s) := by
  unfold execFillWaitEnd
  exact canonical_next (wakeCtx_memWf h)

theorem execGroupEnd_canonical {k gid s} (h : s.memWf) : Canonical (execGroupEnd k gid s) := by
  unfold execGroupEnd
  split
  · exact canonical_next h
  · exact canonical_next (holds_ite (endGroup_memWf h) h)

theorem countEnd_memWf {s k failed} (h : s.memWf) : (countEnd s k failed).memWf := by
  unfold countEnd
  split
  · exact h
  · exact holds_ite (forgetLaunch_memWf h) (holds_ite (finishLaunch_memWf (State.modLaunch_memWf h)) (State.modLaunch_memWf h))

theorem removeUnit_memWf {s u} (h : s.memWf) : (removeUnit s u).memWf := by
  unfold removeUnit
  extract_lets s1 s2 s3 s4 s5 s6 s7
  have h1 : s1.memWf := holds_ite (State.modLaunch_memWf h) h
  have h2 : s2.memWf := holds_foldl (fun _ h _ => dropCmd_memWf (settlePermit_memWf h)) h1
  have h4 : s4.memWf := holds_foldl (fun _ h _ => dropGroupWaits_memWf h) (dropGroupWaits_memWf (orphan_memWf h2))
  have h6 : s6.memWf := endOwnership_memWf (withdrawMail_memWf h4)
  have h7 : s7.memWf := h6
  exact freePlanes_memWf h7

theorem execUnitEnd_canonical {k s} (h : s.memWf) : Canonical (execUnitEnd k s) := by
  unfold execUnitEnd
  split
  · exact canonical_next h
  · exact holds_ite (canonical_next h) (canonical_next (retireHistory_memWf (countEnd_memWf (removeUnit_memWf h))))

/-! ## Engines -/

theorem queueOn_memWf {s core k agent m} (h : s.memWf) : (queueOn s core k agent m).memWf := by
  unfold queueOn
  split
  · exact h
  · exact h

theorem debit_memWf {s die est} (h : s.memWf) : (debit s die est).memWf := by
  unfold debit
  exact State.modDie_memWf h

theorem begin_memWf {s k agent} (h : s.memWf) : (begin s k agent).memWf := by
  unfold begin
  exact State.modUnit_memWf h

theorem askPermit_memWf {s k agent est} (h : s.memWf) : (askPermit s k agent est).memWf := by
  unfold askPermit
  split
  · exact h
  · exact holds_ite (debit_memWf (begin_memWf (State.modCmd_memWf h))) (State.modDie_memWf (State.modCmd_memWf h))

theorem contribute_memWf {s u agent m n} (h : s.memWf) : (contribute s u agent m n).memWf := by
  unfold contribute
  dsimp only
  split
  · exact h
  · refine holds_ite (State.modCmd_memWf (State.modLaunch_memWf h)) ?_
    refine holds_ite (cmdEnd_memWf h) ?_
    exact holds_ite (State.modCmd_memWf (State.modLaunch_memWf h)) (cmdEnd_memWf (State.modCmd_memWf (State.modLaunch_memWf h)))

theorem execEngineCommandStart_canonical {k agent s} (h : s.memWf) : Canonical (execEngineCommandStart k agent s) := by
  unfold execEngineCommandStart
  split
  · exact canonical_next h
  · split
    · exact canonical_next h
    · refine holds_ite (canonical_next h) ?_
      dsimp only
      split
      · exact canonical_next (State.modCmd_memWf h)
      · refine canonical_next ?_
        split
        · refine holds_ite ?_ ?_
          · refine holds_ite (askPermit_memWf (holds_ite (State.modCmd_memWf h) (queueOn_memWf (State.modCmd_memWf h)))) ?_
            exact State.modCmd_memWf (holds_ite (State.modCmd_memWf h) (queueOn_memWf (State.modCmd_memWf h)))
          · refine contribute_memWf ?_
            refine holds_ite (askPermit_memWf (holds_ite (State.modCmd_memWf h) (queueOn_memWf (State.modCmd_memWf h)))) ?_
            exact State.modCmd_memWf (holds_ite (State.modCmd_memWf h) (queueOn_memWf (State.modCmd_memWf h)))
        · refine holds_ite (askPermit_memWf (holds_ite (State.modCmd_memWf h) (queueOn_memWf (State.modCmd_memWf h)))) ?_
          exact State.modCmd_memWf (holds_ite (State.modCmd_memWf h) (queueOn_memWf (State.modCmd_memWf h)))

theorem permitOps_memWf {s ops} (h : s.memWf) : (permitOps s ops).memWf := by
  unfold permitOps
  exact holds_foldl (fun _ h _ => State.modCmd_memWf h) h

theorem execMatrixPassOpen_canonical {core s} (h : s.memWf) : Canonical (execMatrixPassOpen core s) := by
  unfold execMatrixPassOpen
  split
  · split
    · exact canonical_next h
    · dsimp only
      refine holds_ite ?_ (canonical_next (State.modDie_memWf (State.modCore_memWf h)))
      exact canonical_next (debit_memWf (permitOps_memWf (State.modCore_memWf h)))
  · exact canonical_next h

theorem cmdArrive_memWf {s k agent st} (h : s.memWf) : (cmdArrive s k agent st).memWf := by
  unfold cmdArrive
  split
  · exact h
  · split
    · exact h
    · dsimp only
      refine dropCmd_memWf ?_
      split
      · exact arrive_memWf h
      · exact h

theorem mmqEnd_memWf {s k agent m} (h : s.memWf) : (mmqEnd s k agent m).memWf := by
  unfold mmqEnd
  exact holds_ite (impreciseFault_memWf (cmdArrive_memWf h)) (cmdArrive_memWf h)

theorem quarterDone_memWf {s core x st} (h : s.memWf) : (quarterDone s core x st).memWf := by
  unfold quarterDone
  dsimp only
  split
  · refine holds_ite ?_ ?_
    · refine passEnd_memWf ?_
      split
      · refine holds_ite ?_ (wakeUnit_memWf (State.modCore_memWf (State.modCmd_memWf h)))
        exact mmqEnd_memWf (wakeUnit_memWf (State.modCore_memWf (State.modCmd_memWf h)))
      · exact wakeUnit_memWf (State.modCore_memWf (State.modCmd_memWf h))
    · split
      · refine holds_ite ?_ (wakeUnit_memWf (State.modCore_memWf (State.modCmd_memWf h)))
        exact mmqEnd_memWf (wakeUnit_memWf (State.modCore_memWf (State.modCmd_memWf h)))
      · exact wakeUnit_memWf (State.modCore_memWf (State.modCmd_memWf h))
  · split
    · refine holds_ite ?_ (wakeUnit_memWf (State.modCore_memWf (State.modCmd_memWf h)))
      exact mmqEnd_memWf (wakeUnit_memWf (State.modCore_memWf (State.modCmd_memWf h)))
    · exact wakeUnit_memWf (State.modCore_memWf (State.modCmd_memWf h))

theorem engNote_memWf {s k agent p n att} (h : s.memWf) : (engNote s k agent p n att).memWf := by
  unfold engNote
  exact notePlace_memWf h

theorem execQuarterOperationCommit_canonical {core mismatch s} (h : s.memWf) : Canonical (execQuarterOperationCommit core mismatch s) := by
  unfold execQuarterOperationCommit
  dsimp only
  split
  · exact canonical_next h
  · refine holds_ite (canonical_next h) ?_
    split
    · exact canonical_next (passEnd_memWf h)
    · split
      · exact canonical_next (quarterDone_memWf h)
      · split
        · exact canonical_next (quarterDone_memWf h)
        · split
          · split
            · exact canonical_fault
            · refine holds_ite (canonical_next (State.dueAgain_memWf h)) ?_
              refine canonical_next ?_
              refine quarterDone_memWf ?_
              split
              · exact holds_ite (State.modUnit_memWf (holds_foldl (fun _ h _ => engNote_memWf h) h)) (holds_foldl (fun _ h1 _ => engNote_memWf h1) h)
              · exact h
          · exact canonical_next (quarterDone_memWf h)

theorem execPlswapExchange_canonical {core plane s} (h : s.memWf) : Canonical (execPlswapExchange core plane s) := by
  unfold execPlswapExchange
  exact holds_ite (canonical_next (State.modCore_memWf h)) (canonical_next h)

theorem execFactorCommandCommit_canonical {k agent s} (h : s.memWf) : Canonical (execFactorCommandCommit k agent s) := by
  unfold execFactorCommandCommit
  split
  · exact canonical_next h
  · split
    · exact canonical_next h
    · refine holds_ite (canonical_next h) ?_
      dsimp only
      split
      · exact canonical_next (cmdArrive_memWf (State.modGrp_memWf (withRace_memWf (chargeEnd_memWf h))))
      · exact canonical_next (cmdArrive_memWf (State.modUnit_memWf (chargeEnd_memWf h)))
      · exact canonical_next (cmdArrive_memWf (chargeEnd_memWf h))
      · exact canonical_next (chargeEnd_memWf h)

theorem addWait_memWf {s k} (h : s.memWf) : (addWait s k).memWf := by
  unfold addWait
  dsimp only
  refine State.modUnit_memWf ?_
  split
  · exact State.modDie_memWf h
  · exact h

theorem grant_memWf {s die r} (h : s.memWf) : (grant s die r).memWf := by
  unfold grant
  dsimp only
  refine holds_ite ?_ (addWait_memWf (begin_memWf (debit_memWf (State.modDie_memWf h))))
  split
  · exact debit_memWf (State.modDie_memWf h)
  · exact holds_foldl (fun _ h _ => addWait_memWf h) (permitOps_memWf (State.modCore_memWf (debit_memWf (State.modDie_memWf h))))

theorem execPermitGrant_canonical {die s} (h : s.memWf) : Canonical (execPermitGrant die s) := by
  unfold execPermitGrant
  split
  · exact canonical_next (grant_memWf h)
  · exact canonical_next h

theorem execEnergyIntervalCredit_canonical {die s} (h : s.memWf) : Canonical (execEnergyIntervalCredit die s) := by
  unfold execEnergyIntervalCredit
  exact holds_ite (canonical_next h) (canonical_next (State.due_memWf (State.modDie_memWf h)))

/-! ## Requests that leave, and fetches -/

theorem State.modPort_memWf {s p f} (h : s.memWf) : (State.modPort s p f).memWf := by
  unfold State.modPort
  exact h

theorem cross_optAll {s p rep n} (h : s.memWf) : OptAll State.memWf (cross s p rep n) := by
  unfold cross
  exact holds_ite optAll_none (optAll_some (State.modPort_memWf h))

theorem transmit_memWf {s r} (h : s.memWf) : (transmit s r).memWf := by
  -- the port and the crossing become variables, whose comparison does not unfold them
  obtain ⟨f, hf⟩ : ∃ f, cross s = f := ⟨_, rfl⟩
  obtain ⟨o, ho⟩ : ∃ o, s.routePort r.dst = o := ⟨_, rfl⟩
  have hcross : ∀ p b n t, f p b n = some t → t.memWf := fun _ _ _ t ht => cross_optAll h t (hf ▸ ht)
  have hmark : ∀ b t, t.memWf → (markSent r b t).memWf := fun _ _ ht => ht
  unfold transmit
  rw [hf, ho]
  split
  · exact State.due_memWf (hmark true s h)
  · split
    · exact State.due_memWf (hmark true s h)
    · split
      · exact State.due_memWf (hmark true s h)
      · split
        · exact hmark false s h
        · next t ht => exact State.due_memWf (hmark true t (hcross _ _ _ t ht))

theorem sendReq_memWf {s dst r what} (h : s.memWf) : (sendReq s dst r what).memWf := by
  unfold sendReq
  exact transmit_memWf h

theorem dropFetch_memWf {s ctx slot} (h : s.memWf) : (dropFetch s ctx slot).memWf := by
  unfold dropFetch
  exact h

theorem decideWaits_memWf {s ctx key f} (h : s.memWf) : (decideWaits s ctx key f).memWf := by
  unfold decideWaits
  exact State.modCtx_memWf h

theorem readmit_memWf {s ctx} (h : s.memWf) : (readmit s ctx).memWf := by
  unfold readmit
  split
  · exact h
  · exact holds_foldl (fun _ h _ => State.due_memWf h) h

theorem portResult_memWf {s core res code estat detail} (h : s.memWf) : (portResult s core res code estat detail).memWf := by
  unfold portResult
  exact State.modCore_memWf h

theorem portAnswer_memWf {s core w} (h : s.memWf) : (portAnswer s core w).memWf := by
  unfold portAnswer
  exact holds_ite (holds_ite (portResult_memWf h) (portResult_memWf h)) (portResult_memWf h)

theorem wakeDecided_memWf {s ctx key} (h : s.memWf) : (wakeDecided s ctx key).memWf := by
  unfold wakeDecided
  split
  · exact wakeCtx_memWf h
  · exact wakeCtx_memWf (State.modCtx_memWf (holds_foldl (fun _ h _ => portAnswer_memWf h) h))

theorem endAdmission_memWf {s ctx key} (h : s.memWf) : (endAdmission s ctx key).memWf := by
  unfold endAdmission
  exact State.modCtx_memWf (wakeDecided_memWf (State.modCtx_memWf h))

theorem failAdmission_memWf {s ctx key code estat detail} (h : s.memWf) : (failAdmission s ctx key code estat detail).memWf := by
  unfold failAdmission
  split
  · exact h
  · dsimp only
    refine readmit_memWf ?_
    refine endAdmission_memWf ?_
    refine decideWaits_memWf ?_
    split
    · exact h
    · exact State.modCtx_memWf (modRes_memWf (dropFetch_memWf h))

theorem fetchFail_memWf {s c slot code} (h : s.memWf) : (fetchFail s c slot code).memWf := by
  unfold fetchFail
  exact holds_ite (failAdmission_memWf h) (State.due_memWf (holds_foldl (fun _ h _ => takeFault_memWf h) h))

theorem fetched_memWf {s c slot bs} (h : s.memWf) : (fetched s c slot bs).memWf := by
  unfold fetched
  dsimp only
  refine holds_ite h ?_
  refine holds_ite (fetchFail_memWf h) ?_
  refine holds_ite ?_ ?_
  · refine State.due_memWf ?_
    refine holds_ite ?_ (holds_ite (State.due_memWf (modRes_memWf (sysWriteBytes_memWf h ..))) (modRes_memWf (sysWriteBytes_memWf h ..)))
    exact State.due_memWf (holds_ite (State.due_memWf (modRes_memWf (sysWriteBytes_memWf h ..))) (modRes_memWf (sysWriteBytes_memWf h ..)))
  · refine holds_ite ?_ (holds_ite (State.due_memWf (modRes_memWf (sysWriteBytes_memWf h ..))) (modRes_memWf (sysWriteBytes_memWf h ..)))
    exact State.due_memWf (holds_ite (State.due_memWf (modRes_memWf (sysWriteBytes_memWf h ..))) (modRes_memWf (sysWriteBytes_memWf h ..)))

theorem spoil_memWf {s bad ps} (h : s.memWf) : (spoil s bad ps).memWf := by
  unfold spoil
  refine holds_foldl (fun _ h _ => ?_) h
  split
  · exact holds_ite (State.memWf_badCrc h) h
  · exact h

theorem fetchedWith_memWf {s c slot bs bad} (h : s.memWf) : (fetchedWith s c slot bs bad).memWf := by
  unfold fetchedWith
  exact holds_ite (fetched_memWf h) (spoil_memWf (fetched_memWf h))

theorem fetchNext_memWf {s ctx slot} (h : s.memWf) : (fetchNext s ctx slot).memWf := by
  unfold fetchNext
  split
  · exact h
  · dsimp only
    refine holds_ite h ?_
    refine holds_ite (holds_ite (State.due_memWf h) (sendReq_memWf h)) ?_
    split
    · exact fetchFail_memWf h
    · exact holds_ite (fetchFail_memWf h) (fetchedWith_memWf h)

/-! ## Objects that are written back -/

theorem coreReport_memWf {s core ctx key st} (h : s.memWf) : (coreReport s core ctx key st).memWf := by
  unfold coreReport
  exact mailPump_memWf (State.setCore_memWf h)

theorem backFail_memWf {s c slot code off} (h : s.memWf) : (backFail s c slot code off).memWf := by
  unfold backFail
  exact coreReport_memWf (modRes_memWf h)

theorem backDone_memWf {s ctx slot} (h : s.memWf) : (backDone s ctx slot).memWf := by
  unfold backDone
  exact State.due_memWf (modRes_memWf h)

theorem backNext_memWf {s ctx slot} (h : s.memWf) : (backNext s ctx slot).memWf := by
  unfold backNext
  split
  · exact h
  · dsimp only
    refine holds_ite h ?_
    split
    · exact modRes_memWf h
    · split
      · exact backFail_memWf h
      · refine holds_ite (backFail_memWf h) ?_
        refine holds_ite (backFail_memWf h) ?_
        refine holds_ite (holds_ite (State.due_memWf h) (sendReq_memWf h)) ?_
        split
        · exact backFail_memWf h
        · exact backDone_memWf (spoil_memWf (State.wrBytes_memWf h ..))

/-! ## Bytes that an engine moves -/

theorem engPutBytes_pieceWf {s u agent vault base off bs} (h : s.memWf) : (engPutBytes s u agent vault base off bs).memWf := by
  induction bs generalizing s off with
  | nil => exact h
  | cons b bs ih =>
    unfold engPutBytes
    split
    · exact h
    · exact ih (engNote_memWf (markDirty_memWf (State.store_memWf h)))

theorem remoteEnd_memWf {s k agent} (h : s.memWf) : (remoteEnd s k agent).memWf := by
  unfold remoteEnd
  split
  · exact h
  · exact holds_ite (cmdEnd_memWf h) h

theorem flushBack_canonical {s u agent m} (h : s.memWf) : Canonical (flushBack s u agent m) := by
  unfold flushBack
  split
  dsimp only
  split
  · exact canonical_next (State.modCmd_memWf (engPutBytes_pieceWf h))
  · exact canonical_next h
  · exact canonical_fault
  · exact canonical_next (holds_ite (remoteEnd_memWf (State.modCmd_memWf (engPutBytes_pieceWf h))) (cmdEnd_memWf (engPutBytes_pieceWf h)))

theorem pieceData_pieceWf {s u agent m off bs bad} (h : s.memWf) : (pieceData s u agent m off bs bad).memWf := by
  unfold pieceData
  exact holds_ite (engPutBytes_pieceWf h) (spoil_memWf (engPutBytes_pieceWf h))

theorem takeGot_memWf {k agent n s} (h : s.memWf) : (takeGot k agent n s).memWf := by
  induction n generalizing s with
  | zero => exact h
  | succ n ih =>
    unfold takeGot
    split
    · exact h
    · rename_i u m g _
      dsimp only
      split
      · exact h
      · exact ih (State.modCmd_memWf (pieceData_pieceWf h))
      · exact ih (State.modCmd_memWf (pieceData_pieceWf h))

theorem engBytes_fstWf {s u agent m off n held} (h : s.memWf) : FstWf (engBytes s u agent m off n held) := by
  induction n generalizing s off held with
  | zero => exact h
  | succ n ih =>
    cases held with
    | cons x held => exact ih h
    | nil =>
      unfold engBytes
      split
      · exact h
      · exact holds_ite h (ih (engNote_memWf h))

theorem readLocal_fstWf {s u agent m off n} (h : s.memWf) : FstWf (readLocal s u agent m off n) := by
  unfold readLocal
  exact engBytes_fstWf h

theorem sendPiece_memWf {s u agent m dst n data bad} (h : s.memWf) : (sendPiece s u agent m dst n data bad).memWf := by
  unfold sendPiece
  exact sendReq_memWf (State.modCmd_memWf h)

theorem aheadGo_fstWf {s0 u agent m idx n i s} (h : s.memWf) : FstWf (aheadGo s0 u agent m idx n i s) := by
  induction n generalizing s i with
  | zero => exact h
  | succ n ih =>
    unfold aheadGo
    refine holds_ite h ?_
    split
    · exact h
    · exact holds_ite h (ih (engNote_memWf h))

theorem pieceOut_memWf {s u agent m dst n} (h : s.memWf) : (pieceOut s u agent m dst n).memWf := by
  unfold pieceOut
  have ht : (readLocal s u agent m m.prog n).1.memWf := readLocal_fstWf h
  dsimp only
  split
  · exact h
  · exact remoteEnd_memWf (State.modCmd_memWf (holds_ite ht (sendPiece_memWf ht)))
  · exact sendPiece_memWf (State.modCmd_memWf (aheadGo_fstWf ht))

/-! ## Pieces of commands -/

theorem pieceRemote_memWf {s u agent m} (h : s.memWf) : (pieceRemote s u agent m).memWf := by
  unfold pieceRemote
  dsimp only
  refine holds_ite (remoteEnd_memWf h) ?_
  refine holds_ite h ?_
  refine holds_ite (remoteEnd_memWf h) ?_
  split
  · exact sendPiece_memWf h
  · exact sendPiece_memWf h
  · exact pieceOut_memWf h

theorem engBlock_fstWf {s u agent m es cnt inp held} (h : s.memWf) : FstWf (engBlock s u agent m es cnt inp held) := by
  unfold engBlock
  have ha : (engBytes s u agent m inp 4 held).1.memWf := engBytes_fstWf h
  dsimp only
  refine holds_ite ha (holds_ite ?_ ?_)
  · exact engBytes_fstWf ha
  · exact engBytes_fstWf (engBytes_fstWf ha)

theorem pieceDone_canonical {s0 m k agent p} (h : s0.memWf) (hp : p.memWf) : Canonical (pieceDone s0 m k agent p) := by
  unfold pieceDone
  dsimp only
  split
  · exact canonical_next (holds_ite (cmdEnd_memWf (State.modCmd_memWf hp)) (State.modCmd_memWf hp))
  · exact canonical_next h
  · exact canonical_fault
  · exact canonical_next (cmdEnd_memWf hp)

theorem engReadWords_fstWf {s u agent vault base off n} (h : s.memWf) : FstWf (engReadWords s u agent vault base off n) := by
  induction n generalizing s off with
  | zero => exact h
  | succ n ih =>
    unfold engReadWords
    split
    · exact h
    · exact ih (engNote_memWf h)

theorem pieceLdpl_pieceWf {s u agent m o x} (h : s.memWf) : (pieceLdpl s u agent m o x).memWf := by
  unfold pieceLdpl
  exact State.modCore_memWf (engReadWords_fstWf h)

theorem pieceAccld_pieceWf {s u agent m o x} (h : s.memWf) : (pieceAccld s u agent m o x).memWf := by
  unfold pieceAccld
  dsimp only
  split
  · exact engReadWords_fstWf h
  · exact State.modUnit_memWf (engReadWords_fstWf h)

theorem engWriteWords_pieceWf {s u agent vault base off ws} (h : s.memWf) : (engWriteWords s u agent vault base off ws).memWf := by
  induction ws generalizing s off with
  | nil => exact h
  | cons w ws ih =>
    unfold engWriteWords
    split
    · exact h
    · exact ih (engNote_memWf (markDirty_memWf (State.store_memWf h)))

theorem pieceAccst_pieceWf {s u agent m o x} (h : s.memWf) : (pieceAccst s u agent m o x).memWf := by
  unfold pieceAccst
  exact engWriteWords_pieceWf h

theorem reduceGo_pieceWf {u agent m o n i s} (h : s.memWf) : (reduceGo u agent m o n i s).memWf := by
  induction n generalizing s i with
  | zero => exact h
  | succ n ih =>
    unfold reduceGo
    extract_lets es step
    have hstep : OkAll State.memWf step := by
      refine okAll_read fun _ => okAll_guard fun _ => okAll_read fun _ => okAll_guard fun _ => okAll_guard fun _ => okAll_guard fun _ => ?_
      exact okAll_ok (engNote_memWf (engNote_memWf (keepHeld_memWf (markDirty_memWf (State.store_memWf h)))))
    clear_value step
    cases step with
    | error e => exact h
    | ok t => exact ih (hstep t rfl)

theorem pieceCred_pieceWf {s u agent m o} (h : s.memWf) : (pieceCred s u agent m o).memWf := by
  unfold pieceCred
  exact reduceGo_pieceWf h

theorem rowIndex_okAll {s u agent m idx i} (h : s.memWf) : OkAll FstWf (rowIndex s u agent m idx i) := by
  have noted {k : Nat} : OkAll FstWf (gatherIndex s u agent m k >>= fun x => (.ok (engNote s u.key agent x.2 4 {}, x.1) : Except EStop _)) :=
    okAll_read fun _ => okAll_ok (engNote_memWf h)
  unfold rowIndex
  split
  · exact noted
  · exact holds_ite noted (okAll_ok h)
  · exact okAll_ok h

theorem carryCrc_memWf {s0 s m idx i src dst} (h : s.memWf) : (carryCrc s0 s m idx i src dst).memWf := by
  unfold carryCrc
  exact holds_ite (State.memWf_badCrc h) h

theorem moveGo_pieceWf {s0 u agent m n i idx held s} (h : s.memWf) : (moveGo s0 u agent m n i idx held s).1.memWf := by
  induction n generalizing s i idx held with
  | zero => exact h
  | succ n ih =>
    unfold moveGo
    extract_lets step
    have hstep : OkAll FstWf step := by
      refine okAll_bind (rowIndex_okAll h) fun r hr => okAll_read fun _ => okAll_guard fun _ => okAll_read fun _ => okAll_guard fun _ => ?_
      exact okAll_ok (engNote_memWf (engNote_memWf (carryCrc_memWf (markDirty_memWf (State.store_memWf hr)))))
    clear_value step
    cases step with
    | error e => exact h
    | ok t => exact ih (hstep t rfl)

theorem pieceCopy_pieceWf {s u agent m} (h : s.memWf) : (pieceCopy s u agent m).memWf := by
  unfold pieceCopy
  have hr := moveGo_pieceWf (s0 := s) (u := u) (agent := agent) (m := m) (n := m.cut m.prog - m.prog) (i := m.prog)
    (idx := m.vec.head?.map (·.toNat)) (held := m.ahead) h
  exact State.modCmd_memWf (holds_ite (P := FstWf) (aheadGo_fstWf hr) hr)

theorem localPiece_pieceWf {s u agent m} (h : s.memWf) : (localPiece s u agent m).memWf := by
  unfold localPiece
  split
  · exact pieceLdpl_pieceWf h
  · exact pieceAccld_pieceWf h
  · exact pieceAccst_pieceWf h
  · exact pieceCred_pieceWf h
  · exact pieceCopy_pieceWf h

/-! ## Compression and decompression -/

theorem ZEnd.of_memWf {s e off} (h : s.memWf) : (ZEnd.of s e off).memWf := by
  unfold ZEnd.of
  split
  · trivial
  · trivial
  · exact h

theorem zPut_memWf {s u agent m off back bs last next} (h : s.memWf) (hnext : ∀ s bs, s.memWf → (next s bs).memWf) :
    (zPut s u agent m off back bs last next).memWf := by
  unfold zPut
  dsimp only
  split
  · exact ZEnd.of_memWf (engPutBytes_pieceWf h)
  · exact hnext _ _ (engPutBytes_pieceWf h)

theorem zStop_memWf {s u agent m off back e} (h : s.memWf) (he : e.memWf) : (zStop s u agent m off back e).memWf := by
  unfold zStop
  split
  · exact zPut_memWf h fun _ _ h => h
  · exact he

theorem encGo_memWf {u agent m f64 dry n pos prev out held back s} (h : s.memWf) : (encGo u agent m f64 dry n pos prev out held back s).memWf := by
  induction n generalizing pos prev out held back s with
  | zero =>
    unfold encGo
    refine holds_ite h ?_
    exact aheadGo_fstWf (s0 := s) (u := u) (agent := agent) (m := m) (idx := 0) (n := 3) (i := pos * zBytes f64) h
  | succ n ih =>
    unfold encGo
    refine holds_ite h ?_
    have hb : ∀ off k, (engBytes s u agent m off k held).1.memWf := fun _ _ => engBytes_fstWf h
    dsimp only
    split
    · exact zStop_memWf (hb _ _) (ZEnd.of_memWf (hb _ _))
    · refine holds_ite (ih (hb _ _)) ?_
      split
      · exact zStop_memWf (hb _ _) (hb _ _)
      · exact zPut_memWf (hb _ _) fun _ _ h => ih h

theorem cpyzEncode_memWf {s u agent m f64} (h : s.memWf) : (cpyzEncode s u agent m f64).memWf := by
  unfold cpyzEncode
  split
  · exact encGo_memWf h
  · exact holds_ite (encGo_memWf h) (zPut_memWf h fun _ _ h => encGo_memWf h)

theorem ZEnd.short_memWf {s e off} (h : s.memWf) : (ZEnd.short s e off).memWf := by
  unfold ZEnd.short
  split
  · exact holds_ite h (ZEnd.of_memWf h)
  · exact ZEnd.of_memWf h

theorem decGo_memWf {u agent m f64 dry n pos prev inp held back s} (h : s.memWf) : (decGo u agent m f64 dry n pos prev inp held back s).memWf := by
  induction n generalizing pos prev inp held back s with
  | zero =>
    unfold decGo
    refine holds_ite h ?_
    exact aheadGo_fstWf (s0 := s) (u := u) (agent := agent) (m := m) (idx := 0) (n := 3) (i := inp) h
  | succ n ih =>
    unfold decGo
    refine holds_ite h ?_
    have hb : ∀ es cnt, (engBlock s u agent m es cnt inp held).1.memWf := fun _ _ => engBlock_fstWf h
    dsimp only
    split
    · exact zStop_memWf (hb _ _) (ZEnd.short_memWf (hb _ _))
    · refine holds_ite (zStop_memWf (hb _ _) h) (holds_ite (ih (hb _ _)) ?_)
      split
      · exact zStop_memWf (hb _ _) (hb _ _)
      · exact zPut_memWf (hb _ _) fun _ _ h => holds_ite h (ih h)

theorem cpyzDecode_memWf {s u agent m f64} (h : s.memWf) : (cpyzDecode s u agent m f64).memWf := by
  unfold cpyzDecode
  split
  · exact decGo_memWf h
  · refine holds_ite (decGo_memWf h) ?_
    have hb := engBytes_fstWf (s := s) (u := u) (agent := agent) (m := m) (off := 0) (n := 16) (held := []) h
    split
    · rename_i t _ _ ht
      exact ZEnd.short_memWf (hb.of_eq ht)
    · rename_i t _ ht
      have h1 := hb.of_eq ht
      exact holds_ite h1 (decGo_memWf h1)

/-! ## Turns and ends of commands -/

theorem cmdPiece_canonical {s u agent m} (h : s.memWf) : Canonical (cmdPiece s u agent m) := by
  unfold cmdPiece
  refine holds_ite (flushBack_canonical h) ?_
  refine holds_ite (canonical_next (remoteEnd_memWf (takeGot_memWf h))) ?_
  refine holds_ite ?_ ?_
  · split
    · exact canonical_fault
    · exact canonical_next (pieceRemote_memWf h)
  · split
    · rename_i o x _
      have hz : ZEnd.memWf (if o.fn = 0 then cpyzEncode s u agent m (x.f 36 36 == 1) else cpyzDecode s u agent m (x.f 36 36 == 1)) :=
        holds_ite (cpyzEncode_memWf h) (cpyzDecode_memWf h)
      split
      · rename_i t _ ht
        rw [ht] at hz
        exact canonical_next (cmdEnd_memWf hz)
      · rename_i t _ _ _ _ ht
        rw [ht] at hz
        exact canonical_next (State.modCmd_memWf hz)
      · exact canonical_next h
      · exact canonical_fault
    · exact pieceDone_canonical h (localPiece_pieceWf h)

theorem nextTurn_memWf {s k agent} (h : s.memWf) : (nextTurn s k agent).memWf := by
  unfold nextTurn
  exact h

theorem enginePiece_canonical {s u agent m} (h : s.memWf) : Canonical (enginePiece s u agent m) := by
  unfold enginePiece
  exact cmdPiece_canonical (nextTurn_memWf h)

theorem execCopyPiece_canonical {r s} (h : s.memWf) : Canonical (execCopyPiece r s) := by
  unfold execCopyPiece
  split
  · exact canonical_next (fetchNext_memWf h)
  · exact canonical_next (backNext_memWf h)
  · split
    · exact canonical_next h
    · split
      · exact canonical_next h
      · exact holds_ite (enginePiece_canonical h) (canonical_next h)

theorem tagEnd_memWf {s k agent} (h : s.memWf) : (tagEnd s k agent).memWf := by
  unfold tagEnd
  split
  · exact h
  · split
    · exact h
    · exact holds_ite h (dropCmd_memWf (withRace_memWf (State.modUnit_memWf (chargeEnd_memWf h))))

theorem execCommandComplete_canonical {k agent s} (h : s.memWf) : Canonical (execCommandComplete k agent s) := by
  unfold execCommandComplete
  exact canonical_next (tagEnd_memWf h)

theorem cmdNote_memWf {s k agent p n att} (h : s.memWf) : (cmdNote s k agent p n att).memWf := by
  unfold cmdNote
  split
  · exact notePlace_memWf h
  · split
    · exact holds_ite (noteAccess_memWf h) h
    · exact h

theorem slotEnd_memWf {s k agent} (h : s.memWf) : (slotEnd s k agent).memWf := by
  unfold slotEnd
  split
  · exact h
  · split
    · exact h
    · refine holds_ite h ?_
      dsimp only
      refine dropCmd_memWf ?_
      exact withRace_memWf (State.modUnit_memWf (holds_ite (cmdNote_memWf (State.wrN_memWf (chargeEnd_memWf h) ..)) (chargeEnd_memWf h)))

theorem execFillEnd_canonical {k agent s} (h : s.memWf) : Canonical (execFillEnd k agent s) := by
  unfold execFillEnd
  exact canonical_next (slotEnd_memWf h)

theorem execOrderedReductionApply_canonical {fn lid stream s} (h : s.memWf) : Canonical (execOrderedReductionApply fn lid stream s) := by
  unfold execOrderedReductionApply
  split
  · exact canonical_next h
  · dsimp only
    split
    · refine holds_ite (canonical_next h) ?_
      exact holds_ite (canonical_next (queueOn_memWf h)) (holds_ite (enginePiece_canonical h) (canonical_next h))
    · exact holds_ite (canonical_next (State.modLaunch_memWf h)) (canonical_next h)

theorem execLateReply_canonical {k r s} (h : s.memWf) : Canonical (execLateReply k r s) := by
  unfold execLateReply
  split
  · exact canonical_next h
  · split
    · dsimp only
      split
      · exact canonical_next h
      · exact canonical_next (sysWriteBytes_memWf h ..)
    · exact canonical_next h

end Sys2Proof.Machine
end

section
/-! PROOFS. Canonical memory in the steps of residency, raises and the bench (R4, R9). -/

namespace Sys2Proof.Machine

/-! ## Admissions and ownership -/

theorem execPageWalk_canonical {core ctx va s} (h : s.memWf) : Canonical (execPageWalk core ctx va s) := by
  unfold execPageWalk
  split
  · exact canonical_next h
  · split
    · exact canonical_next h
    · split
      · exact canonical_next h
      · exact canonical_next (State.modCore_memWf h)

theorem placeObject_memWf {s c key slot} (h : s.memWf) : (placeObject s c key slot).memWf := by
  unfold placeObject
  dsimp only
  split
  · exact State.due_memWf (modRes_memWf (State.modCtx_memWf h))
  · refine holds_ite h ?_
    split
    · exact State.due_memWf h
    · exact failAdmission_memWf h

theorem compareLanes_memWf {s ctx key e} (h : s.memWf) : (compareLanes s ctx key e).memWf := by
  unfold compareLanes
  exact wakeDecided_memWf (decideWaits_memWf h)

theorem takeOwner_okAll {s c r} (h : s.memWf) : OkAll State.memWf (takeOwner s c r) := by
  unfold takeOwner
  split
  · exact okAll_ok h
  · exact holds_ite (okAll_ok h) (holds_ite (okAll_ok (sysWrite_memWf h ..)) okAll_error)

theorem owned_memWf {s ctx key slot} (h : s.memWf) : (owned s ctx key slot).memWf := by
  unfold owned
  dsimp only
  split
  · exact placeObject_memWf (State.modCtx_memWf h)
  · exact State.modCtx_memWf h

theorem askDepart_memWf {s c key owner} (h : s.memWf) : (askDepart s c key owner).memWf := by
  unfold askDepart
  exact holds_ite h (holds_ite (State.due_memWf (State.modCtx_memWf h)) (holds_ite h (sendReq_memWf (State.modCtx_memWf h))))

theorem admitSlot_memWf {s c key slot e} (h : s.memWf) : (admitSlot s c key slot e).memWf := by
  unfold admitSlot
  dsimp only
  split
  · exact State.modCtx_memWf (modRes_memWf h)
  · refine holds_ite ?_ ?_
    · split
      · exact State.due_memWf (State.modCtx_memWf (modRes_memWf h))
      · exact failAdmission_memWf (State.modCtx_memWf (modRes_memWf h))
    · refine holds_ite ?_ (placeObject_memWf (State.modCtx_memWf (modRes_memWf h)))
      split
      · rename_i _ eh
        have h := (takeOwner_okAll (State.modCtx_memWf (modRes_memWf h))) _ eh
        exact owned_memWf h
      · exact State.due_memWf (askDepart_memWf (State.modCtx_memWf (modRes_memWf h)))

theorem admitKey_memWf {s ctx key} (h : s.memWf) : (admitKey s ctx key).memWf := by
  unfold admitKey
  split
  · exact h
  · split
    · exact h
    · split
      · exact holds_ite h (placeObject_memWf h)
      · refine holds_ite h ?_
        split
        · exact failAdmission_memWf h
        · exact State.due_memWf (State.modCtx_memWf h)
        · refine holds_ite (failAdmission_memWf h) ?_
          dsimp only
          split
          · exact compareLanes_memWf h
          · refine holds_ite (endAdmission_memWf (compareLanes_memWf h)) ?_
            refine holds_ite (failAdmission_memWf (compareLanes_memWf h)) ?_
            split
            · exact failAdmission_memWf (compareLanes_memWf h)
            · exact admitSlot_memWf (compareLanes_memWf h)

theorem execAdmission_canonical {ctx key s} (h : s.memWf) : Canonical (execAdmission ctx key s) := by
  unfold execAdmission
  exact canonical_next (admitKey_memWf h)

theorem execDirectoryBusyReread_canonical {ctx key s} (h : s.memWf) : Canonical (execDirectoryBusyReread ctx key s) := by
  unfold execDirectoryBusyReread
  exact canonical_next (admitKey_memWf h)

theorem execOwnershipReread_canonical {ctx slot s} (h : s.memWf) : Canonical (execOwnershipReread ctx slot s) := by
  unfold execOwnershipReread
  split
  · exact canonical_next h
  · dsimp only
    refine holds_ite (canonical_next h) ?_
    split
    · rename_i _ eh
      have h := (takeOwner_okAll h) _ eh
      exact canonical_next (owned_memWf h)
    · exact canonical_next (State.due_memWf (askDepart_memWf h))

theorem cacheAdd_memWf {s core ctx key slot r} (h : s.memWf) : (cacheAdd s core ctx key slot r).memWf := by
  unfold cacheAdd
  exact State.modDie_memWf h

theorem execAdmissionResident_canonical {ctx slot s} (h : s.memWf) : Canonical (execAdmissionResident ctx slot s) := by
  unfold execAdmissionResident
  split
  · exact canonical_next h
  · dsimp only
    refine holds_ite (canonical_next h) ?_
    refine canonical_next ?_
    refine State.due_memWf ?_
    exact endAdmission_memWf (holds_foldl (fun _ h _ => cacheAdd_memWf h) (decideWaits_memWf (State.modCtx_memWf (modRes_memWf h))))

/-! ## Departures -/

theorem execDepartRequest_canonical {ctx key s} (h : s.memWf) : Canonical (execDepartRequest ctx key s) := by
  unfold execDepartRequest
  split
  · exact canonical_next h
  · exact holds_ite (canonical_next h) (canonical_next (State.due_memWf (holds_ite (State.due_memWf h) h)))

theorem cacheDrop_memWf {s ctx slot} (h : s.memWf) : (cacheDrop s ctx slot).memWf := by
  unfold cacheDrop
  exact h

theorem execDeparture_canonical {ctx slot forced s} (h : s.memWf) : Canonical (execDeparture ctx slot forced s) := by
  unfold execDeparture
  split
  · exact canonical_next h
  · dsimp only
    refine holds_ite (canonical_next (State.due_memWf h)) ?_
    refine holds_ite (canonical_next (readmit_memWf h)) ?_
    refine holds_ite (canonical_next (holds_ite (modRes_memWf h) (cacheDrop_memWf (modRes_memWf h)))) ?_
    refine canonical_next ?_
    refine holds_foldl (fun _ h _ => holds_foldl (fun _ h1 _ => cmdEnd_memWf h1) h) ?_
    exact holds_ite (modRes_memWf h) (cacheDrop_memWf (modRes_memWf h))

theorem freeOwner_memWf {s c r} (h : s.memWf) : (freeOwner s c r).memWf := by
  unfold freeOwner
  split
  · exact holds_ite (sysWrite_memWf h ..) h
  · exact h

theorem departed_memWf {s c slot} (h : s.memWf) : (departed s c slot).memWf := by
  unfold departed
  dsimp only
  refine readmit_memWf ?_
  refine retireHistory_memWf ?_
  refine wakeCtx_memWf ?_
  refine modRes_memWf ?_
  refine holds_ite ?_ (mirrorHist_memWf (dropFetch_memWf (State.modCtx_memWf h)))
  exact freeOwner_memWf (mirrorHist_memWf (dropFetch_memWf (State.modCtx_memWf h)))

theorem execDepartureComplete_canonical {ctx slot s} (h : s.memWf) : Canonical (execDepartureComplete ctx slot s) := by
  unfold execDepartureComplete
  split
  · exact canonical_next h
  · exact holds_ite (canonical_next h) (holds_ite (canonical_next (State.due_memWf (modRes_memWf h))) (canonical_next (departed_memWf h)))

/-! ## Raises -/

theorem blockRaise_memWf {s l v p} (h : s.memWf) : (blockRaise s l v p).memWf := by
  unfold blockRaise
  exact payWrite_memWf (epWrite_memWf (epWrite_memWf h))

theorem raiseTarget_memWf {s l v p} (h : s.memWf) : (raiseTarget s l v p).memWf := by
  unfold raiseTarget
  exact holds_ite (holds_foldl (fun _ h _ => State.modUnit_memWf h) h) (blockRaise_memWf h)

theorem wakeTarget_memWf {s l} (h : s.memWf) : (wakeTarget s l).memWf := by
  unfold wakeTarget
  exact holds_ite (State.modLaunch_memWf h) h

theorem decideRaise_fstWf {s r} (h : s.memWf) : FstWf (decideRaise s r) := by
  unfold decideRaise
  split
  · exact h
  · refine holds_ite (epWrite_memWf h) ?_
    dsimp only
    refine holds_ite ?_ (epWrite_memWf (holds_ite (raiseTarget_memWf h) (State.modLaunch_memWf (raiseTarget_memWf h))))
    exact wakeTarget_memWf (epWrite_memWf (holds_ite (raiseTarget_memWf h) (State.modLaunch_memWf (raiseTarget_memWf h))))

theorem raiseReturns_memWf {s k gid mark res} (h : s.memWf) : (raiseReturns s k gid mark res).memWf := by
  unfold raiseReturns
  split
  · exact h
  · split
    · exact h
    · split
      · exact h
      · dsimp only
        refine holds_ite (State.modGrp_memWf h) ?_
        exact holds_ite (impreciseFault_memWf (State.modGrp_memWf h)) (takeFault_memWf (State.modGrp_memWf h))

theorem freed_memWf {s port rep n} (h : s.memWf) : (freed s port rep n).memWf := by
  unfold freed
  split
  · exact h
  · exact State.modPort_memWf h

theorem leave_memWf {s m} (h : s.memWf) : (leave s m).memWf := by
  have crossed {dst port rep n t} (ht : ((s.routePort dst).bind fun p => cross s p rep (flits n)) = some t) : (freed t port rep n).memWf := by
    obtain ⟨p, -, hp⟩ := Option.bind_eq_some_iff.mp ht
    exact freed_memWf (cross_optAll h t hp)
  cases m with
  | req r =>
    unfold leave
    dsimp only
    split
    · next t ht => exact crossed ht
    · exact h
  | rep r =>
    unfold leave
    dsimp only
    split
    · next t ht => exact crossed ht
    · exact h

theorem sendReply_memWf {s from_ srcMod srcFn id code data race bad} (h : s.memWf) : (sendReply s from_ srcMod srcFn id code data race bad).memWf := by
  unfold sendReply
  exact holds_ite (State.due_memWf h) (leave_memWf h)

theorem State.setSeen_memWf {s x} (h : s.memWf) : (State.setSeen s x).memWf := by
  unfold State.setSeen
  exact h

theorem fabAnswer_memWf {s srcMod srcFn id code data race bad} (h : s.memWf) : (fabAnswer s srcMod srcFn id code data race bad).memWf := by
  unfold fabAnswer
  exact sendReply_memWf (State.setSeen_memWf h)

theorem execRaiseDecision_canonical {r s} (h : s.memWf) : Canonical (execRaiseDecision r s) := by
  unfold execRaiseDecision
  extract_lets r'
  have hd : FstWf (decideRaise s r') := decideRaise_fstWf h
  split
  rename_i t res ht
  have ht := hd.of_eq ht
  extract_lets t1 t2
  have h1 : t1.memWf := by
    simp only [t1]
    split
    · exact raiseReturns_memWf ht
    · exact ht
  have h2 : t2.memWf := by
    simp only [t2]
    split
    · exact reply_memWf h1
    · exact h1
  split
  · exact canonical_next (fabAnswer_memWf h2)
  · exact canonical_next h2

theorem divert_memWf {s u g hpc} (h : s.memWf) : (divert s u g hpc).memWf := by
  unfold divert
  split
  · exact h
  · exact State.modGrp_memWf h

theorem execUserInterruptEntry_canonical {k s} (h : s.memWf) : Canonical (execUserInterruptEntry k s) := by
  unfold execUserInterruptEntry
  split
  · exact canonical_next h
  · split
    · exact canonical_next h
    · split
      · exact canonical_next (divert_memWf h)
      · exact canonical_next h

/-! ## Vacating and placing -/

theorem recordVacated_memWf {s l v} (h : s.memWf) : (recordVacated s l v).memWf := by
  unfold recordVacated
  split
  · exact h
  · exact holds_foldl (fun _ h _ => sysWriteBytes_memWf h ..) h

theorem execWatchdog_canonical {fn lid s} (h : s.memWf) : Canonical (execWatchdog fn lid s) := by
  unfold execWatchdog
  split
  · exact canonical_next h
  · refine holds_ite (canonical_next h) ?_
    refine holds_ite (canonical_next (State.due_memWf h)) ?_
    dsimp only
    refine canonical_next ?_
    refine holds_foldl (fun _ h _ => doomUnit_memWf h) ?_
    exact finishLaunch_memWf (holds_foldl (fun _ h1 _ => recordVacated_memWf h1) (unplaceAll_memWf h))

theorem vacate_memWf {s k} (h : s.memWf) : (vacate s k).memWf := by
  unfold vacate
  exact State.due_memWf (State.modUnit_memWf h)

theorem sendAway_memWf {s u} (h : s.memWf) : (sendAway s u).memWf := by
  unfold sendAway
  exact holds_ite (State.due_memWf h) (holds_ite h (vacate_memWf h))

theorem vacateAll_memWf {s us} (h : s.memWf) : (vacateAll s us).memWf := by
  unfold vacateAll
  exact holds_foldl (fun _ h _ => holds_ite h (sendAway_memWf h)) h

theorem execYieldCore_canonical {core s} (h : s.memWf) : Canonical (execYieldCore core s) := by
  unfold execYieldCore
  exact canonical_next (vacateAll_memWf h)

theorem clearVault_memWf {s lo hi} (h : s.memWf) : (clearVault s lo hi).memWf := by
  obtain ⟨hh, hp, ho, hv, hm, hc⟩ := h
  exact ⟨hh, hp, ho, Sparse.clear_wf hv, Sparse.clear_wf hm, Sparse.clear_wf hc⟩

theorem takePlanes_memWf {s core l} (h : s.memWf) : (takePlanes s core l).memWf := by
  unfold takePlanes
  exact holds_ite h (State.modCore_memWf h)

theorem loadPlanes_memWf {s rd l core} (h : s.memWf) : (loadPlanes s rd l core).memWf := by
  unfold loadPlanes
  exact State.modCore_memWf h

theorem placeVacated_memWf {s core l v} (h : s.memWf) : (placeVacated s core l v).memWf := by
  unfold placeVacated
  split
  · exact h
  · extract_lets rd fresh old live gs lo s1 cmds free u s2 s3 s4 s5
    have h2 : s2.memWf := takePlanes_memWf (clearVault_memWf h)
    have h3 : s3.memWf := State.modLaunch_memWf h2
    have h4 : s4.memWf := h3
    exact State.due_memWf (holds_ite (loadPlanes_memWf h4) h4)

theorem flushBlock_memWf {s l} (h : s.memWf) : (flushBlock s l).memWf := by
  unfold flushBlock
  dsimp only
  refine holds_ite h ?_
  exact holds_foldl (fun _ h _ => payWrite_memWf (epWrite_memWf h)) (epWrite_memWf (holds_foldl (fun _ h1 _ => State.modUnit_memWf h1) h))

theorem startUnit_memWf {s core l idx} (h : s.memWf) : (startUnit s core l idx).memWf := by
  unfold startUnit
  split
  · exact flushBlock_memWf (takePlanes_memWf (State.wrBytes_memWf (clearVault_memWf h) ..))
  · exact h

theorem execWorkRequest_canonical {core s} (h : s.memWf) : Canonical (execWorkRequest core s) := by
  unfold execWorkRequest
  refine holds_ite (canonical_next h) ?_
  split
  · exact canonical_next h
  · split
    · exact canonical_next h
    · exact canonical_next (placeVacated_memWf h)
  · split
    · exact canonical_next h
    · refine holds_ite (canonical_next (State.due_memWf h)) ?_
      split
      · exact canonical_next h
      · exact canonical_next (startUnit_memWf (State.modLaunch_memWf h))

theorem execFirstTicket_canonical {fn lid s} (h : s.memWf) : Canonical (execFirstTicket fn lid s) := by
  unfold execFirstTicket
  split
  · exact canonical_next h
  · refine holds_ite (canonical_next h) ?_
    split
    · exact canonical_next (finishLaunch_memWf h)
    · split
      · exact canonical_next (finishLaunch_memWf h)
      · dsimp only
        refine canonical_next ?_
        refine holds_ite (holds_ite (State.modCtx_memWf (State.modLaunch_memWf h)) (State.modLaunch_memWf h)) ?_
        exact State.due_memWf (holds_ite (State.modCtx_memWf (State.modLaunch_memWf h)) (State.modLaunch_memWf h))

theorem execSpatialPreemption_canonical {fn lid s} (h : s.memWf) : Canonical (execSpatialPreemption fn lid s) := by
  unfold execSpatialPreemption
  split
  · exact canonical_next h
  · split
    · exact canonical_next h
    · exact canonical_next (vacateAll_memWf (State.modLaunch_memWf h))

theorem stopForSave_memWf {s u} (h : s.memWf) : (stopForSave s u).memWf := by
  unfold stopForSave
  dsimp only
  refine State.modUnit_memWf ?_
  refine withdrawMail_memWf ?_
  refine holds_foldl (fun _ h _ => ?_) h
  split
  · exact stopSibling_memWf h
  · exact h

theorem saveUnit_memWf {s u l} (h : s.memWf) : (saveUnit s u l).memWf := by
  unfold saveUnit
  extract_lets s1
  have h1 : s1.memWf := stopForSave_memWf h
  split
  · exact h1
  · extract_lets c table d s2 v s3 s4 s5 s6
    have h2 : s2.memWf := sysWriteBytes_memWf h1 ..
    have h3 : s3.memWf := holds_foldl (fun _ h _ => dropCmd_memWf (settlePermit_memWf h)) h2
    have h4 : s4.memWf := holds_foldl (fun _ h _ => dropGroupWaits_memWf h) h3
    have h5 : s5.memWf := endOwnership_memWf h4
    exact retireHistory_memWf (State.modLaunch_memWf (freePlanes_memWf h5))

theorem execUnitVacate_canonical {k s} (h : s.memWf) : Canonical (execUnitVacate k s) := by
  unfold execUnitVacate
  split
  · exact canonical_next h
  · split
    · exact canonical_next h
    · refine holds_ite (canonical_next h) ?_
      refine holds_ite (canonical_next (holds_ite (State.due_memWf h) (unplace_memWf h))) ?_
      refine holds_ite (canonical_next (State.modUnit_memWf h)) ?_
      exact holds_ite (canonical_next (State.due_memWf h)) (canonical_next (saveUnit_memWf h))

/-! ## Restoring -/

theorem imageError_memWf {s u off} (h : s.memWf) : (imageError s u off).memWf := by
  unfold imageError
  exact retireHistory_memWf (countEnd_memWf (removeUnit_memWf (notice_memWf h)))

theorem addCmd_memWf {s k agent m} (h : s.memWf) : (addCmd s k agent m).memWf := by
  unfold addCmd
  exact State.modUnit_memWf h

theorem endRestored_memWf {s k agent m st} (h : s.memWf) : (endRestored s k agent m st).memWf := by
  unfold endRestored
  exact holds_ite (tagEnd_memWf (addCmd_memWf h)) (holds_ite (slotEnd_memWf (addCmd_memWf h)) (cmdArrive_memWf (addCmd_memWf h)))

theorem requeue_memWf {s k core agent m} (h : s.memWf) : (requeue s k core agent m).memWf := by
  unfold requeue
  split
  · exact State.modCore_memWf h
  · exact State.modCore_memWf h
  · exact holds_ite (State.modCore_memWf h) h

theorem restoreCmd_memWf {s k core ws agent st m} (h : s.memWf) : (restoreCmd s k core ws agent st m).memWf := by
  unfold restoreCmd
  refine holds_ite (endRestored_memWf h) ?_
  refine holds_ite (endRestored_memWf h) ?_
  dsimp only
  refine requeue_memWf ?_
  refine addCmd_memWf ?_
  refine holds_foldl (fun _ h _ => ?_) h
  split
  · exact copyPin_memWf h
  · exact h

theorem nameTrap_memWf {s k ws gid i} (h : s.memWf) : (nameTrap s k ws gid i).memWf := by
  unfold nameTrap
  split
  · exact takeFault_memWf h
  · exact h

theorem repost_memWf {s k} (h : s.memWf) : (repost s k).memWf := by
  unfold repost
  split
  · exact h
  · exact holds_ite h (holds_ite (restartOrFail_memWf h) (holds_foldl (fun _ h _ => postFault_memWf h) h))

theorem restoreUnit_memWf {s u l rd ws} (h : s.memWf) : (restoreUnit s u l rd ws).memWf := by
  unfold restoreUnit
  dsimp only
  refine holds_ite ?_ ?_
  · refine holds_foldl (fun _ h _ => nameTrap_memWf h) ?_
    refine repost_memWf ?_
    refine flushBlock_memWf ?_
    refine State.modUnit_memWf ?_
    refine dropGroupWaits_memWf ?_
    refine holds_foldl (fun _ h1 _ => ?_) (State.wrBytes_memWf (State.setUnit_memWf h) ..)
    split
    · exact restoreCmd_memWf h1
    · exact h1
  · refine vacate_memWf ?_
    refine holds_foldl (fun _ h2 _ => nameTrap_memWf h2) ?_
    refine repost_memWf ?_
    refine flushBlock_memWf ?_
    refine State.modUnit_memWf ?_
    refine dropGroupWaits_memWf ?_
    refine holds_foldl (fun _ h3 _ => ?_) (State.wrBytes_memWf (State.setUnit_memWf h) ..)
    split
    · exact restoreCmd_memWf h3
    · exact h3

theorem keepWait_memWf {s ctx key w} (h : s.memWf) : (keepWait s ctx key w).memWf := by
  unfold keepWait
  exact State.modCtx_memWf h

theorem askEntry_memWf {s c k i n} (h : s.memWf) : (askEntry s c k i n).memWf := by
  unfold askEntry
  dsimp only
  split
  · exact keepWait_memWf h
  · exact keepWait_memWf h
  · exact joinAdmission_memWf h

theorem execUnitRestore_canonical {k core s} (h : s.memWf) : Canonical (execUnitRestore k core s) := by
  unfold execUnitRestore
  split
  · exact canonical_next h
  · split
    · refine holds_ite (canonical_next h) ?_
      dsimp only
      split
      · exact canonical_next (imageError_memWf h)
      · split
        · exact canonical_next (restoreUnit_memWf h)
        · exact canonical_next (State.due_memWf (askEntry_memWf h))
        · exact canonical_next (State.due_memWf h)
    · exact canonical_next h

/-! ## Slices -/

theorem switchTo_memWf {s fn} (h : s.memWf) : (switchTo s fn).memWf := by
  unfold switchTo
  exact vacateAll_memWf h

theorem endSlice_memWf {s} (h : s.memWf) : (endSlice s).memWf := by
  unfold endSlice
  dsimp only
  refine holds_ite ?_ ?_
  · refine switchTo_memWf ?_
    split
    · exact h
    · exact h
  · split
    · refine vacateAll_memWf ?_
      split
      · exact h
      · exact h
    · refine switchTo_memWf ?_
      split
      · exact h
      · exact h

theorem execSliceEnd_canonical {s} (h : s.memWf) : Canonical (execSliceEnd s) := by
  unfold execSliceEnd
  refine holds_ite (canonical_next h) ?_
  split
  · exact holds_ite (canonical_next h) (canonical_next (endSlice_memWf h))
  · exact canonical_next (endSlice_memWf h)

end Sys2Proof.Machine
end

section
/-! PROOFS. Canonical memory in the steps of supervisors and in the operations of functions (R4, R9). -/

namespace Sys2Proof.Machine

/-! ## Supervisors -/

theorem placeSuper_memWf {s core} (h : s.memWf) : (placeSuper s core).memWf := by
  unfold placeSuper
  exact h

theorem machineCheck_memWf {s core lost} (h : s.memWf) : (machineCheck s core lost).memWf := by
  unfold machineCheck
  dsimp only
  refine placeSuper_memWf ?_
  refine State.modCore_memWf ?_
  refine notice_memWf ?_
  refine State.modDie_memWf ?_
  refine holds_foldl (fun _ h _ => ?_) (withdrawMail_memWf h)
  refine holds_ite h ?_
  refine holds_ite (retireHistory_memWf (countEnd_memWf (removeUnit_memWf h))) ?_
  exact holds_ite (sendAway_memWf h) (vacate_memWf (State.modUnit_memWf h))

theorem execMachineCheck_canonical {core lost s} (h : s.memWf) : Canonical (execMachineCheck core lost s) := by
  unfold execMachineCheck
  exact canonical_next (machineCheck_memWf h)

theorem execCoreReportAck_canonical {core idx s} (h : s.memWf) : Canonical (execCoreReportAck core idx s) := by
  unfold execCoreReportAck
  exact canonical_next (ackReport_memWf h)

theorem execQfree_canonical {k mask s} (h : s.memWf) : Canonical (execQfree k mask s) := by
  unfold execQfree
  exact canonical_next (State.modUnit_memWf h)

theorem execAdmissionPortGo_canonical {core s} (h : s.memWf) : Canonical (execAdmissionPortGo core s) := by
  unfold execAdmissionPortGo
  refine holds_ite (canonical_next h) ?_
  split
  · exact canonical_next h
  · dsimp only
    split
    · exact canonical_next (portResult_memWf (State.modCore_memWf h))
    · exact canonical_next (portResult_memWf (State.modCore_memWf h))
    · exact canonical_next (portResult_memWf (State.modCore_memWf h))
    · split
      · exact canonical_next (portResult_memWf (State.modCore_memWf h))
      · exact canonical_next (portAnswer_memWf (State.modCore_memWf h))
      · exact canonical_next (joinAdmission_memWf (State.modCore_memWf h))

theorem replyOk_memWf {s r} (h : s.memWf) : (replyOk s r).memWf := by
  unfold replyOk
  exact reply_memWf h

theorem switchEnd_memWf {s} (h : s.memWf) : (switchEnd s).memWf := by
  unfold switchEnd
  split
  · exact h
  · exact holds_ite (replyOk_memWf h) h

theorem execSupervisorReplace_canonical {core s} (h : s.memWf) : Canonical (execSupervisorReplace core s) := by
  unfold execSupervisorReplace
  exact canonical_next (holds_ite (switchEnd_memWf (placeSuper_memWf (State.modCore_memWf h))) h)

/-! ## Operations of a function -/

theorem rpc_canonical {s r op body} (h : s.memWf) (hbody : ∀ s, s.memWf → (body s).memWf) : Canonical (rpc s r op body) := by
  unfold rpc
  exact holds_ite (canonical_next (reply_memWf h)) (holds_ite (canonical_next (reply_memWf h)) (canonical_next (hbody s h)))

theorem execOpenRpc_canonical {r s} (h : s.memWf) : Canonical (execOpenRpc r s) := by
  unfold execOpenRpc
  refine rpc_canonical h (fun _ h => ?_)
  dsimp only
  split
  · exact refuse_memWf h
  · exact replyOk_memWf (State.modFunc_memWf h)

theorem execRackRpc_canonical {r s} (h : s.memWf) : Canonical (execRackRpc r s) := by
  unfold execRackRpc
  exact holds_ite (canonical_next (reply_memWf h)) (canonical_next (ringPump_memWf (State.modFunc_memWf h)))

theorem replyVals_memWf {s r vals} (h : s.memWf) : (replyVals s r vals).memWf := by
  unfold replyVals
  exact reply_memWf h

theorem execCapsRpc_canonical {r s} (h : s.memWf) : Canonical (execCapsRpc r s) := by
  unfold execCapsRpc
  refine rpc_canonical h (fun _ h => ?_)
  split
  · exact replyVals_memWf h
  · exact refuse_memWf h

theorem execContextRpc_canonical {r s} (h : s.memWf) : Canonical (execContextRpc r s) := by
  unfold execContextRpc
  refine rpc_canonical h (fun _ h => ?_)
  dsimp only
  split
  · exact refuse_memWf h
  · exact replyOk_memWf h

theorem discardHeld_memWf {s ctx} (h : s.memWf) : (discardHeld s ctx).memWf := by
  unfold discardHeld
  exact h

theorem tearDown_memWf {s c} (h : s.memWf) : (tearDown s c).memWf := by
  unfold tearDown
  exact holds_foldl (fun _ h _ => State.due_memWf h) (holds_foldl (fun _ h1 _ => cancelLaunch_memWf h1) (discardHeld_memWf h))

theorem execContextTeardown_canonical {r s} (h : s.memWf) : Canonical (execContextTeardown r s) := by
  unfold execContextTeardown
  refine rpc_canonical h (fun _ h => ?_)
  split
  · exact refuse_memWf h
  · refine holds_ite ?_ (State.due_memWf (tearDown_memWf h))
    exact replyOk_memWf (holds_foldl (fun _ h1 _ => holds_ite (State.modCore_memWf h1) h1) (State.modCtx_memWf h))

theorem memberIn_memWf {s fn kind id} (h : s.memWf) : (memberIn s fn kind id).memWf := by
  unfold memberIn
  exact State.modLevel_memWf h

theorem execLaunchRpc_canonical {r s} (h : s.memWf) : Canonical (execLaunchRpc r s) := by
  unfold execLaunchRpc
  refine rpc_canonical h (fun _ h => ?_)
  dsimp only
  split
  · exact refuse_memWf h
  · exact holds_ite (reply_memWf h) (replyOk_memWf (memberIn_memWf h))

theorem execLevelRpc_canonical {r s} (h : s.memWf) : Canonical (execLevelRpc r s) := by
  unfold execLevelRpc
  refine rpc_canonical h (fun _ h => ?_)
  dsimp only
  split
  · exact refuse_memWf h
  · have h1 := memberIn_memWf (fn := r.fn) (kind := r.field 0 + 1) (id := r.field 4) h
    exact replyOk_memWf h1

theorem execCancelRpc_canonical {r s} (h : s.memWf) : Canonical (execCancelRpc r s) := by
  unfold execCancelRpc
  refine rpc_canonical h (fun _ h => ?_)
  exact holds_ite (refuse_memWf h) (holds_ite (replyOk_memWf (cancelLaunch_memWf h)) (replyOk_memWf (cancelLevel_memWf h)))

theorem execQtableRpc_canonical {r s} (h : s.memWf) : Canonical (execQtableRpc r s) := by
  unfold execQtableRpc
  exact rpc_canonical h (fun _ h => replyOk_memWf (holds_ite h (endSlice_memWf h)))

theorem execTlbiRpc_canonical {r s} (h : s.memWf) : Canonical (execTlbiRpc r s) := by
  unfold execTlbiRpc
  refine rpc_canonical h (fun _ h => ?_)
  split
  · exact refuse_memWf h
  · exact replyOk_memWf (holds_foldl (fun _ h1 _ => holds_ite h1 (State.modCore_memWf h1)) h)

theorem execDepartRpc_canonical {r s} (h : s.memWf) : Canonical (execDepartRpc r s) := by
  unfold execDepartRpc
  refine rpc_canonical h (fun _ h => ?_)
  split
  · exact refuse_memWf h
  · exact replyOk_memWf (State.due_memWf h)

theorem execRaiseRpc_canonical {r s} (h : s.memWf) : Canonical (execRaiseRpc r s) := by
  unfold execRaiseRpc
  refine rpc_canonical h (fun _ h => ?_)
  dsimp only
  split
  · exact reply_memWf h
  · exact holds_ite (reply_memWf h) (holds_ite (refuse_memWf h) (State.dueAgain_memWf h))

theorem execWindowRpc_canonical {r s} (h : s.memWf) : Canonical (execWindowRpc r s) := by
  unfold execWindowRpc
  refine rpc_canonical h (fun _ h => ?_)
  dsimp only
  refine holds_ite (holds_ite (refuse_memWf h) (replyOk_memWf (State.modFunc_memWf h))) ?_
  split
  · exact refuse_memWf h
  · exact replyOk_memWf (State.modFunc_memWf h)

theorem execHandleRpc_canonical {r s} (h : s.memWf) : Canonical (execHandleRpc r s) := by
  unfold execHandleRpc
  refine rpc_canonical h (fun _ h => ?_)
  dsimp only
  split
  · exact refuse_memWf h
  · exact reply_memWf (State.modFunc_memWf h)

theorem execRevokeRpc_canonical {r s} (h : s.memWf) : Canonical (execRevokeRpc r s) := by
  unfold execRevokeRpc
  exact rpc_canonical h (fun _ h => holds_ite (State.due_memWf h) (holds_ite (reply_memWf h) (replyOk_memWf (State.modFunc_memWf h))))

theorem execPoolrangeRpc_canonical {r s} (h : s.memWf) : Canonical (execPoolrangeRpc r s) := by
  unfold execPoolrangeRpc
  refine rpc_canonical h (fun _ h => ?_)
  dsimp only
  split
  · exact refuse_memWf h
  · exact replyOk_memWf h

theorem leaveAll_memWf {s} (h : s.memWf) : (leaveAll s).memWf := by
  unfold leaveAll
  exact holds_foldl (fun _ h _ => leave_memWf h) h

theorem execPhaseRpc_canonical {r s} (h : s.memWf) : Canonical (execPhaseRpc r s) := by
  unfold execPhaseRpc
  refine rpc_canonical h (fun _ h => ?_)
  refine holds_ite (holds_ite (replyOk_memWf h) (State.due_memWf h)) ?_
  exact replyOk_memWf (holds_foldl (fun _ h1 _ => transmit_memWf h1) (leaveAll_memWf h))

theorem execAgentReplyRpc_canonical {r s} (h : s.memWf) : Canonical (execAgentReplyRpc r s) := by
  unfold execAgentReplyRpc
  exact rpc_canonical h (fun _ h => holds_ite (reply_memWf h) (holds_ite (replyOk_memWf (State.modFunc_memWf h)) (refuse_memWf h)))

theorem execTelemetryRpc_canonical {r s} (h : s.memWf) : Canonical (execTelemetryRpc r s) := by
  unfold execTelemetryRpc
  exact rpc_canonical h (fun _ h => holds_ite (refuse_memWf h) (reply_memWf h))

theorem execPowerRpc_canonical {r s} (h : s.memWf) : Canonical (execPowerRpc r s) := by
  unfold execPowerRpc
  exact rpc_canonical h (fun _ h => holds_ite (refuse_memWf h) (replyVals_memWf h))

theorem execFwloadRpc_canonical {r s} (h : s.memWf) : Canonical (execFwloadRpc r s) := by
  unfold execFwloadRpc
  exact rpc_canonical h (fun _ h => holds_ite (reply_memWf h) (holds_ite (refuse_memWf h) (replyVals_memWf h)))

/-! ## Firmware, fences and held launches -/

theorem publish_memWf {s active} (h : s.memWf) : (publish s active).memWf := by
  unfold publish
  extract_lets s1
  have h1 : s1.memWf := h
  exact State.wrBytes_memWf h1 _ _ _

theorem execFwswitchRpc_canonical {r s} (h : s.memWf) : Canonical (execFwswitchRpc r s) := by
  unfold execFwswitchRpc
  exact rpc_canonical h (fun _ h => holds_ite (reply_memWf h) (holds_ite (refuse_memWf h) (publish_memWf h)))

theorem execFwcommitRpc_canonical {r s} (h : s.memWf) : Canonical (execFwcommitRpc r s) := by
  unfold execFwcommitRpc
  exact rpc_canonical h (fun _ h => holds_ite (refuse_memWf h) (replyVals_memWf h))

theorem execQuoteRpc_canonical {r s} (h : s.memWf) : Canonical (execQuoteRpc r s) := by
  unfold execQuoteRpc
  exact rpc_canonical h (fun _ h => reply_memWf h)

theorem execCoresetRpc_canonical {r s} (h : s.memWf) : Canonical (execCoresetRpc r s) := by
  unfold execCoresetRpc
  refine rpc_canonical h (fun _ h => ?_)
  dsimp only
  split
  · exact refuse_memWf h
  · exact replyVals_memWf (holds_ite (vacateAll_memWf (State.modDie_memWf h)) (State.modDie_memWf h))

theorem writeRecord_memWf {s r l c} (h : s.memWf) : (writeRecord s r l c).memWf := by
  unfold writeRecord
  dsimp only
  split
  · exact reply_memWf (State.modLaunch_memWf h)
  · exact replyVals_memWf (State.modLaunch_memWf (sysWriteBytes_memWf h ..))

theorem execQuiesceRpc_canonical {r s} (h : s.memWf) : Canonical (execQuiesceRpc r s) := by
  unfold execQuiesceRpc
  refine rpc_canonical h (fun _ h => ?_)
  split
  · exact refuse_memWf h
  · refine holds_ite (refuse_memWf h) ?_
    refine holds_ite (reply_memWf (State.modLaunch_memWf h)) ?_
    dsimp only
    split
    · exact refuse_memWf (vacateAll_memWf (State.modLaunch_memWf h))
    · refine holds_ite (State.due_memWf (vacateAll_memWf (State.modLaunch_memWf h))) ?_
      exact writeRecord_memWf (vacateAll_memWf (State.modLaunch_memWf h))

theorem resumeHeld_memWf {s x} (h : s.memWf) : (resumeHeld s x).memWf := by
  unfold resumeHeld
  dsimp only
  refine holds_ite (holds_ite (State.modCtx_memWf (State.modLaunch_memWf h)) (State.modLaunch_memWf h)) ?_
  exact State.due_memWf (holds_ite (State.modCtx_memWf (State.modLaunch_memWf h)) (State.modLaunch_memWf h))

theorem adopt_memWf {s r l} (h : s.memWf) : (adopt s r l).memWf := by
  unfold adopt
  dsimp only
  refine replyOk_memWf ?_
  refine holds_ite ?_ ?_
  · refine finishLaunch_memWf ?_
    refine holds_ite (holds_ite (State.modCtx_memWf (memberIn_memWf h)) (memberIn_memWf h)) ?_
    exact State.due_memWf (holds_ite (State.modCtx_memWf (memberIn_memWf h)) (memberIn_memWf h))
  · refine holds_ite (holds_ite (State.modCtx_memWf (memberIn_memWf h)) (memberIn_memWf h)) ?_
    exact State.due_memWf (holds_ite (State.modCtx_memWf (memberIn_memWf h)) (memberIn_memWf h))

theorem execAdoptRpc_canonical {r s} (h : s.memWf) : Canonical (execAdoptRpc r s) := by
  unfold execAdoptRpc
  refine rpc_canonical h (fun _ h => ?_)
  dsimp only
  split
  · exact refuse_memWf h
  · split
    · refine holds_ite ?_ (refuse_memWf h)
      refine holds_ite (refuse_memWf h) ?_
      refine holds_ite (replyOk_memWf (resumeHeld_memWf h)) ?_
      split
      · exact refuse_memWf h
      · split
        · exact refuse_memWf h
        · exact replyOk_memWf (resumeHeld_memWf h)
    · split
      · exact refuse_memWf h
      · refine holds_ite (reply_memWf h) ?_
        refine holds_ite (refuse_memWf h) ?_
        split
        · exact refuse_memWf h
        · exact refuse_memWf h
        · split
          · exact refuse_memWf h
          · exact adopt_memWf h

end Sys2Proof.Machine
end

section
/-! PROOFS. Canonical memory in the host port, the fabric and the power supply (R4, R9). -/

namespace Sys2Proof.Machine

/-! ## The host port -/

theorem resyncAt_memWf {s fn off} (h : s.memWf) : (resyncAt s fn off).memWf := by
  unfold resyncAt
  exact holds_ite h (notice_memWf (State.modFunc_memWf h))

theorem execResync_canonical {fn off s} (h : s.memWf) : Canonical (execResync fn off s) := by
  unfold execResync
  exact canonical_next (resyncAt_memWf h)

theorem releaseWrite_memWf {s fn e} (h : s.memWf) : (releaseWrite s fn e).memWf := by
  unfold releaseWrite
  split
  · exact notice_memWf (State.modFunc_memWf h)
  · exact holds_foldl (fun _ h _ => State.due_memWf h) (State.modFunc_memWf h)

theorem execInboundWrite_canonical {w s} (h : s.memWf) : Canonical (execInboundWrite w s) := by
  unfold execInboundWrite
  exact holds_ite (canonical_next h) (canonical_next (holds_ite (State.modFunc_memWf h) (releaseWrite_memWf (State.modFunc_memWf h))))

theorem atomicAperture_fstWf {s win off n a} (h : s.memWf) : FstWf (atomicAperture s win off n a) := by
  unfold atomicAperture
  split
  · exact h
  · dsimp only
    refine holds_ite h ?_
    split
    · exact h
    · exact holds_ite h (markDirty_memWf (State.wrN_memWf h ..))

theorem execInboundRead_canonical {fn msg off size q s} (h : s.memWf) : Canonical (execInboundRead fn msg off size q s) := by
  unfold execInboundRead
  dsimp only
  refine holds_ite (canonical_next h) ?_
  refine holds_ite (canonical_next (State.due_memWf (State.modFunc_memWf h))) ?_
  split
  · exact canonical_next (State.modFunc_memWf (atomicAperture_fstWf h))
  · exact canonical_next (State.modFunc_memWf h)

theorem performMessage_memWf {s w} (h : s.memWf) : (performMessage s w).memWf := by
  unfold performMessage
  exact holds_ite (holds_ite (resyncAt_memWf h) h) (holds_ite h (State.modFunc_memWf h))

theorem performCells_memWf {s ctx cs} (h : s.memWf) : (performCells s ctx cs).memWf := by
  induction cs generalizing s with
  | nil => exact h
  | cons c cs ih => exact ih (markDirty_memWf (State.wr_memWf h ..))

theorem performPiece_memWf {s e p} (h : s.memWf) : (performPiece s e p).memWf := by
  unfold performPiece
  refine holds_ite (performMessage_memWf h) ?_
  split
  · exact h
  · exact performCells_memWf h

theorem execRouteAck_canonical {fn seq route s} (h : s.memWf) : Canonical (execRouteAck fn seq route s) := by
  unfold execRouteAck
  dsimp only
  split
  · exact canonical_next h
  · refine holds_ite (canonical_next (State.due_memWf h)) ?_
    refine canonical_next ?_
    refine holds_ite ?_ ?_
    · refine State.due_memWf ?_
      refine State.modFunc_memWf ?_
      split
      · exact performPiece_memWf h
      · exact h
    · refine State.modFunc_memWf ?_
      split
      · exact performPiece_memWf h
      · exact h

theorem execHeldWriteRelease_canonical {fn seq s} (h : s.memWf) : Canonical (execHeldWriteRelease fn seq s) := by
  unfold execHeldWriteRelease
  split
  · exact canonical_next (holds_ite (releaseWrite_memWf h) h)
  · exact canonical_next h

theorem resetSaved_memWf {s l v} (h : s.memWf) : (resetSaved s l v).memWf := by
  unfold resetSaved
  split
  · exact h
  · exact holds_foldl (fun _ h _ => holds_ite (sysWrite_memWf (sysWrite_memWf (sysWrite_memWf h ..) ..) ..) h) h

theorem resetFabric_memWf {s fn} (h : s.memWf) : (resetFabric s fn).memWf := by
  unfold resetFabric
  dsimp only
  refine holds_foldl (fun _ h _ => holds_foldl (fun _ h1 _ => cmdEnd_memWf (State.modCmd_memWf h1)) h) ?_
  exact holds_foldl (fun _ h2 _ => holds_foldl (fun _ h3 _ => resetSaved_memWf h3) h2) h

theorem execFunctionReset_canonical {fn s} (h : s.memWf) : Canonical (execFunctionReset fn s) := by
  unfold execFunctionReset
  refine holds_ite (canonical_next h) ?_
  dsimp only
  refine canonical_next ?_
  refine State.modFunc_memWf ?_
  refine holds_foldl (fun _ h _ => notice_memWf h) ?_
  refine State.modFunc_memWf ?_
  refine holds_foldl (fun _ h1 _ => reply_memWf h1) ?_
  exact holds_foldl (fun _ h2 _ => reply_memWf h2) (holds_foldl (fun _ h3 _ => cancelLaunch_memWf h3) (resetFabric_memWf h))

/-! ## Requests that are served -/

theorem Who.note_memWf {w s p n att} (h : s.memWf) : (Who.note w s p n att).memWf := by
  unfold Who.note
  split
  · exact cmdNote_memWf h
  · exact h

theorem serveRead_fstWf {w out c rest va n s} (h : s.memWf) : FstWf (serveRead w out c rest va n s) := by
  induction n generalizing s va with
  | zero => exact h
  | succ n ih =>
    unfold serveRead
    split
    · exact h
    · exact holds_ite h (holds_ite h (ih (Who.note_memWf h)))

theorem serveWrite_fstWf {w c va bs s} (h : s.memWf) : FstWf (serveWrite w c va bs s) := by
  induction bs generalizing s va with
  | nil => exact h
  | cons b bs ih =>
    unfold serveWrite
    split
    · exact h
    · exact ih (Who.note_memWf (markDirty_memWf (State.wr_memWf h ..)))

theorem serveReduce_okAll {w c rest es f va xs s} (h : s.memWf) : OkAll State.memWf (serveReduce w c rest es f va xs s) := by
  induction xs generalizing s va with
  | nil => exact okAll_ok h
  | cons x xs ih =>
    unfold serveReduce
    refine okAll_read fun _ => okAll_guard fun _ => okAll_guard fun _ => ?_
    exact ih (Who.note_memWf (keepHeld_memWf (markDirty_memWf (State.wrN_memWf h ..))))

theorem serveAtomic_okAll {w c fn ty va x y s} (h : s.memWf) : OkAll FstWf (serveAtomic w c fn ty va x y s) := by
  unfold serveAtomic
  refine okAll_read fun _ => okAll_guard fun _ => okAll_ok ?_
  exact Who.note_memWf (keepHeld_memWf (markDirty_memWf (State.wrN_memWf h ..)))

theorem Who.raises_memWf {w s} (h : s.memWf) : (Who.raises w s).2.memWf := by
  unfold Who.raises
  split
  · exact h
  · split
    · exact holds_ite (P := fun x : Know × State => x.2.memWf) (withRace_memWf h) h
    · exact h

theorem performMem_memWf {s h r} (hs : s.memWf) : (performMem s h r).s.memWf := by
  unfold performMem
  have refused {c : Prop} [Decidable c] {a b : Done} (ha : a.s.memWf) (hb : b.s.memWf) : (if c then a else b).s.memWf :=
    holds_ite (P := fun d : Done => d.s.memWf) ha hb
  dsimp only
  refine refused hs (refused hs (refused hs ?_))
  split
  · exact hs
  · rename_i c _
    split
    · split
      · exact serveRead_fstWf hs
      · exact serveRead_fstWf hs
    · split
      · rename_i ht
        exact spoil_memWf ((serveWrite_fstWf hs).of_eq ht)
      · exact hs
    · split
      · rename_i t ht
        exact serveReduce_okAll hs t ht
      · exact hs
    · refine refused hs ?_
      split
      · rename_i t old ht
        exact serveAtomic_okAll hs (t, old) ht
      · exact hs
    · exact hs
    · exact hs

theorem performReq_memWf {s r} (h : s.memWf) : (performReq s r).memWf := by
  unfold performReq
  dsimp only
  split
  · exact fabAnswer_memWf (State.due_memWf h)
  · split
    · exact fabAnswer_memWf h
    · refine holds_ite ?_ (fabAnswer_memWf (performMem_memWf h))
      split
      · exact State.dueAgain_memWf (State.setSeen_memWf (Who.raises_memWf h))
      · exact fabAnswer_memWf h
      · exact fabAnswer_memWf h
      · exact fabAnswer_memWf h

theorem serveReq_memWf {s r} (h : s.memWf) : (serveReq s r).memWf := by
  unfold serveReq
  dsimp only
  refine holds_ite h ?_
  split
  · exact performReq_memWf h
  · refine holds_ite h ?_
    split
    · exact performReq_memWf h
    · exact sendReply_memWf h

theorem passOn_memWf {s r} (h : s.memWf) : (passOn s r).memWf := by
  unfold passOn
  exact holds_ite (sendReply_memWf (freed_memWf h)) (leave_memWf h)

theorem execFabricRequest_canonical {r s} (h : s.memWf) : Canonical (execFabricRequest r s) := by
  unfold execFabricRequest
  exact holds_ite (canonical_next (serveReq_memWf (freed_memWf h))) (canonical_next (passOn_memWf h))

theorem lateAnswer_memWf {s r} (h : s.memWf) : (lateAnswer s r).memWf := by
  unfold lateAnswer
  exact h

theorem dropReq_memWf {s fn dst id} (h : s.memWf) : (dropReq s fn dst id).memWf := by
  unfold dropReq
  exact h

/-! ## Replies of a unit that is off its core -/

theorem vacatedPut_fstWf {s k agent c l v u m off bs} (h : s.memWf) : FstWf (vacatedPut s k agent c l v u m off bs) := by
  unfold vacatedPut
  refine holds_ite (sysWriteBytes_memWf (holds_foldl (fun _ h _ => cmdNote_memWf h) h) ..) ?_
  exact serveWrite_fstWf h

theorem vacatedTake_fstWf {k agent c l v u n p} (h : FstWf p) : FstWf (vacatedTake k agent c l v u n p) := by
  induction n generalizing p with
  | zero => exact h
  | succ n ih =>
    obtain ⟨s, m⟩ := p
    unfold vacatedTake
    split
    · exact h
    · exact ih (vacatedPut_fstWf h)

theorem vacatedRecord_memWf {s c l v agent m} (h : s.memWf) : (vacatedRecord s c l v agent m).memWf := by
  unfold vacatedRecord
  dsimp only
  refine holds_ite ?_ (holds_ite (sysWrite_memWf (sysWrite_memWf h ..) ..) (sysWrite_memWf h ..))
  exact sysWrite_memWf (sysWrite_memWf (holds_ite (sysWrite_memWf (sysWrite_memWf h ..) ..) (sysWrite_memWf h ..)) ..) ..

theorem vacatedAnswer_memWf {s k agent off r} (h : s.memWf) : (vacatedAnswer s k agent off r).memWf := by
  unfold vacatedAnswer
  split
  · exact h
  · split
    · exact h
    · split
      · refine vacatedRecord_memWf (State.modVac_memWf (vacatedTake_fstWf ?_))
        split
        · exact holds_ite (P := FstWf) h (vacatedPut_fstWf h)
        · exact h
      · exact h

theorem pieceAnswered_memWf {s k agent off r} (h : s.memWf) : (pieceAnswered s k agent off r).memWf := by
  unfold pieceAnswered
  split
  · exact vacatedAnswer_memWf h
  · split
    · exact h
    · dsimp only
      refine remoteEnd_memWf ?_
      split
      · split
        · exact State.modCmd_memWf (pieceData_pieceWf (State.modCmd_memWf h))
        · exact pieceData_pieceWf (State.modCmd_memWf h)
      · exact takeGot_memWf (State.modCmd_memWf h)
      · exact State.modCmd_memWf h

theorem fetchAnswered_memWf {s ctx slot code data crcBad} (h : s.memWf) : (fetchAnswered s ctx slot code data crcBad).memWf := by
  unfold fetchAnswered
  split
  · exact h
  · exact holds_ite (fetchFail_memWf h) (fetchedWith_memWf h)

theorem backAnswered_memWf {s ctx slot code} (h : s.memWf) : (backAnswered s ctx slot code).memWf := by
  unfold backAnswered
  split
  · exact h
  · exact holds_ite (backDone_memWf h) (backFail_memWf h)

/-! ## Replies, resends and credits -/

theorem answered_memWf {s q r} (h : s.memWf) : (answered s q r).memWf := by
  unfold answered
  split
  · exact pieceAnswered_memWf h
  · exact fetchAnswered_memWf h
  · exact backAnswered_memWf h
  · exact h

theorem execFabricReply_canonical {r s} (h : s.memWf) : Canonical (execFabricReply r s) := by
  unfold execFabricReply
  refine holds_ite (canonical_next (leave_memWf h)) ?_
  split
  · exact canonical_next (lateAnswer_memWf (freed_memWf h))
  · refine holds_ite (canonical_next (State.due_memWf h)) ?_
    extract_lets s1
    have h1 : s1.memWf := dropReq_memWf (freed_memWf h)
    exact holds_ite (canonical_next h1) (canonical_next (answered_memWf h1))

theorem execResendTimeout_canonical {fn dst id s} (h : s.memWf) : Canonical (execResendTimeout fn dst id s) := by
  unfold execResendTimeout
  split
  · exact canonical_next h
  · refine holds_ite (canonical_next h) ?_
    refine holds_ite (canonical_next (State.due_memWf h)) ?_
    refine holds_ite ?_ (canonical_next (transmit_memWf h))
    extract_lets s1 s2
    have h1 : s1.memWf := dropReq_memWf h
    have h2 : s2.memWf := h1
    exact holds_ite (canonical_next h2) (canonical_next (answered_memWf h2))

theorem execCreditReport_canonical {port chan s} (h : s.memWf) : Canonical (execCreditReport port chan s) := by
  unfold execCreditReport
  exact canonical_next (State.modPort_memWf h)

theorem sendWaiting_memWf {s port} (h : s.memWf) : (sendWaiting s port).memWf := by
  unfold sendWaiting
  exact holds_foldl (fun _ h _ => transmit_memWf h) (leaveAll_memWf h)

theorem execCreditReportReceived_canonical {port chan sent freed s} (h : s.memWf) : Canonical (execCreditReportReceived port chan sent freed s) := by
  unfold execCreditReportReceived
  exact canonical_next (sendWaiting_memWf (State.modPort_memWf h))

/-! ## Links, scrubbing and power -/

theorem execRateStepDown_canonical {port s} (h : s.memWf) : Canonical (execRateStepDown port s) := by
  unfold execRateStepDown
  exact canonical_next (State.modPort_memWf h)

theorem execPoolLinkDown_canonical {port s} (h : s.memWf) : Canonical (execPoolLinkDown port s) := by
  unfold execPoolLinkDown
  exact canonical_next h

theorem execEmergencyEvent_canonical {s} (h : s.memWf) : Canonical (execEmergencyEvent s) := by
  unfold execEmergencyEvent
  exact canonical_next h

theorem execEmergencyClear_canonical {s} (h : s.memWf) : Canonical (execEmergencyClear s) := by
  unfold execEmergencyClear
  exact canonical_next (holds_ite h h)

theorem execPatrolScrub_canonical {addr size bad corrected s} (h : s.memWf) : Canonical (execPatrolScrub addr size bad corrected s) := by
  unfold execPatrolScrub
  extract_lets new s1
  have h1 : s1.memWf := by
    obtain ⟨hh, hp, ho, hv, hm, hc⟩ := h
    exact ⟨hh, hp, ho, hv, holds_foldl (P := fun m => Sparse.wf false m = true) (fun _ h _ => Sparse.set_wf h) hm, hc⟩
  exact holds_ite (canonical_next h1) (canonical_next (State.modDie_memWf h1))

theorem boot_memWf {s b} (h : s.memWf) : (boot s b).memWf := by
  unfold boot
  dsimp only
  refine holds_foldl (fun _ h _ => State.due_memWf h) ?_
  refine publish_memWf ?_
  exact holds_foldl (fun _ h1 _ => placeSuper_memWf (State.modCore_memWf h1)) (holds_foldl (fun _ h2 _ => State.modFunc_memWf h2) h)

theorem execPowerOn_canonical {s} (h : s.memWf) : Canonical (execPowerOn s) := by
  unfold execPowerOn
  refine holds_ite (canonical_next h) ?_
  split
  · exact canonical_next (boot_memWf h)
  · exact canonical_next h

theorem execPoolLinkUp_canonical {port s} (h : s.memWf) : Canonical (execPoolLinkUp port s) := by
  unfold execPoolLinkUp
  exact canonical_next h

theorem execPowerLoss_canonical {s} (h : s.memWf) : Canonical (execPowerLoss s) := by
  obtain ⟨hh, hp, ho, hv, hm, hc⟩ := h
  obtain ⟨rh, rp, ro, rv, rm, rc⟩ := State.reset_memWf
  exact canonical_next ⟨rh, hp, ho, rv, rm, rc⟩

theorem execPoolBackInvalidate_canonical {line s} (h : s.memWf) : Canonical (execPoolBackInvalidate line s) := by
  unfold execPoolBackInvalidate
  exact canonical_next h

end Sys2Proof.Machine
end

section
/-! PROOFS. Canonical memory in every step (R4, R9). -/

namespace Sys2Proof.Machine

/-! ## Every instruction -/

theorem exec_canonical {i s} (h : s.memWf) : Canonical (exec i s) := by
  unfold exec
  split
  · exact execIadd_canonical h
  · exact execIsub_canonical h
  · exact execImul_canonical h
  · exact execImad_canonical h
  · exact execIdiv_canonical h
  · exact execIrem_canonical h
  · exact execIabs_canonical h
  · exact execImin_canonical h
  · exact execImax_canonical h
  · exact execAndB_canonical h
  · exact execOrB_canonical h
  · exact execXorB_canonical h
  · exact execShl_canonical h
  · exact execShr_canonical h
  · exact execRot_canonical h
  · exact execBfx_canonical h
  · exact execBfi_canonical h
  · exact execPopc_canonical h
  · exact execClz_canonical h
  · exact execBrev_canonical h
  · exact execIcmp_canonical h
  · exact execSel_canonical h
  · exact execMov_canonical h
  · exact execMovRetag_canonical h
  · exact execMovi_canonical h
  · exact execFadd_canonical h
  · exact execFsub_canonical h
  · exact execFmul_canonical h
  · exact execFfma_canonical h
  · exact execFmin_canonical h
  · exact execFmax_canonical h
  · exact execFcmp_canonical h
  · exact execFclass_canonical h
  · exact execFdiv_canonical h
  · exact execFsqrt_canonical h
  · exact execFrsqrt_canonical h
  · exact execFrcp_canonical h
  · exact execFexp2_canonical h
  · exact execFlog2_canonical h
  · exact execFsinpi_canonical h
  · exact execFcospi_canonical h
  · exact execFrnd_canonical h
  · exact execFscale_canonical h
  · exact execFgetexp_canonical h
  · exact execCvt_canonical h
  · exact execDxpack_canonical h
  · exact execDxunpack_canonical h
  · exact execFgsum_canonical h
  · exact execFdot2_canonical h
  · exact execShfl_canonical h
  · exact execBallot_canonical h
  · exact execVote_canonical h
  · exact execGred_canonical h
  · exact execGscan_canonical h
  · exact execPlop_canonical h
  · exact execP2m_canonical h
  · exact execM2p_canonical h
  · exact execNop_canonical h
  · exact execBra_canonical h
  · exact execBrx_canonical h
  · exact execCall_canonical h
  · exact execRet_canonical h
  · exact execExitL_canonical h
  · exact execRgrp_canonical h
  · exact execRgrpSet_canonical h
  · exact execRejoin_canonical h
  · exact execSetprio_canonical h
  · exact execLd_canonical h
  · exact execSt_canonical h
  · exact execGld_canonical h
  · exact execGst_canonical h
  · exact execCst_canonical h
  · exact execXld_canonical h
  · exact execAtom_canonical h
  · exact execRed_canonical h
  · exact execWaitv_canonical h
  · exact execFence_canonical h
  · exact execSdrain_canonical h
  · exact execPf_canonical h
  · exact execTld_canonical h
  · exact execTldVer_canonical h
  · exact execTst_canonical h
  · exact execTstAll_canonical h
  · exact execLdn_canonical h
  · exact execStn_canonical h
  · exact execPeq_canonical h
  · exact execPname_canonical h
  · exact execNpin_canonical h
  · exact execNunpin_canonical h
  · exact execLdpl_canonical h
  · exact execPlswap_canonical h
  · exact execMmq_canonical h
  · exact execAccrd_canonical h
  · exact execAccwr_canonical h
  · exact execAcczero_canonical h
  · exact execAccld_canonical h
  · exact execAccst_canonical h
  · exact execTrchol_canonical h
  · exact execTrupd_canonical h
  · exact execTrupd8_canonical h
  · exact execTrdwd_canonical h
  · exact execTrsolve_canonical h
  · exact execTrscale_canonical h
  · exact execCpy_canonical h
  · exact execCpyg_canonical h
  · exact execCpyt_canonical h
  · exact execCpyr_canonical h
  · exact execCred_canonical h
  · exact execCpyz_canonical h
  · exact execRatom_canonical h
  · exact execSfill_canonical h
  · exact execSpop_canonical h
  · exact execSfree_canonical h
  · exact execSfreeInit_canonical h
  · exact execTagw_canonical h
  · exact execTagff_canonical h
  · exact execTagst_canonical h
  · exact execBini_canonical h
  · exact execBarv_canonical h
  · exact execBarw_canonical h
  · exact execSigdec_canonical h
  · exact execUiraise_canonical h
  · exact execUiwait_canonical h
  · exact execUitake_canonical h
  · exact execUimask_canonical h
  · exact execUiret_canonical h
  · exact execScall_canonical h
  · exact execTrapSw_canonical h
  · exact execSprd_canonical h
  · exact execSpwr_canonical h
  · exact execBrk_canonical h
  · exact execSret_canonical h
  · exact execCancel_canonical h
  · exact execHvy_canonical h
  · exact execUimaskWrite_canonical h
  · exact execRegisterWrite_canonical h
  · exact execStoreFaultRecord_canonical h
  · exact execSibhalt_canonical h
  · exact execRejoinWaitComplete_canonical h
  · exact execOffcutStallRelease_canonical h
  · exact execJoinerBuild_canonical h
  · exact execWaitvReread_canonical h
  · exact execFillWaitEnd_canonical h
  · exact execGroupEnd_canonical h
  · exact execUnitEnd_canonical h
  · exact execEngineCommandStart_canonical h
  · exact execMatrixPassOpen_canonical h
  · exact execQuarterOperationCommit_canonical h
  · exact execPlswapExchange_canonical h
  · exact execFactorCommandCommit_canonical h
  · exact execPermitGrant_canonical h
  · exact execEnergyIntervalCredit_canonical h
  · exact execCopyPiece_canonical h
  · exact execCommandComplete_canonical h
  · exact execFillEnd_canonical h
  · exact execOrderedReductionApply_canonical h
  · exact execLateReply_canonical h
  · exact execPageWalk_canonical h
  · exact execAdmission_canonical h
  · exact execDirectoryBusyReread_canonical h
  · exact execOwnershipReread_canonical h
  · exact execAdmissionResident_canonical h
  · exact execDepartRequest_canonical h
  · exact execDeparture_canonical h
  · exact execDepartureComplete_canonical h
  · exact execRaiseDecision_canonical h
  · exact execUserInterruptEntry_canonical h
  · exact execWatchdog_canonical h
  · exact execYieldCore_canonical h
  · exact execWorkRequest_canonical h
  · exact execFirstTicket_canonical h
  · exact execSpatialPreemption_canonical h
  · exact execUnitVacate_canonical h
  · exact execUnitRestore_canonical h
  · exact execSliceEnd_canonical h
  · exact execMachineCheck_canonical h
  · exact execCoreReportAck_canonical h
  · exact execQfree_canonical h
  · exact execAdmissionPortGo_canonical h
  · exact execSupervisorReplace_canonical h
  · exact execOpenRpc_canonical h
  · exact execRackRpc_canonical h
  · exact execCapsRpc_canonical h
  · exact execContextRpc_canonical h
  · exact execContextTeardown_canonical h
  · exact execLaunchRpc_canonical h
  · exact execLevelRpc_canonical h
  · exact execCancelRpc_canonical h
  · exact execQtableRpc_canonical h
  · exact execTlbiRpc_canonical h
  · exact execDepartRpc_canonical h
  · exact execRaiseRpc_canonical h
  · exact execWindowRpc_canonical h
  · exact execHandleRpc_canonical h
  · exact execRevokeRpc_canonical h
  · exact execPoolrangeRpc_canonical h
  · exact execPhaseRpc_canonical h
  · exact execAgentReplyRpc_canonical h
  · exact execTelemetryRpc_canonical h
  · exact execPowerRpc_canonical h
  · exact execFwloadRpc_canonical h
  · exact execFwswitchRpc_canonical h
  · exact execFwcommitRpc_canonical h
  · exact execQuoteRpc_canonical h
  · exact execCoresetRpc_canonical h
  · exact execQuiesceRpc_canonical h
  · exact execAdoptRpc_canonical h
  · exact execResync_canonical h
  · exact execInboundWrite_canonical h
  · exact execInboundRead_canonical h
  · exact execRouteAck_canonical h
  · exact execHeldWriteRelease_canonical h
  · exact execFunctionReset_canonical h
  · exact execFabricRequest_canonical h
  · exact execFabricReply_canonical h
  · exact execResendTimeout_canonical h
  · exact execCreditReport_canonical h
  · exact execCreditReportReceived_canonical h
  · exact execRateStepDown_canonical h
  · exact execPoolLinkDown_canonical h
  · exact execEmergencyEvent_canonical h
  · exact execEmergencyClear_canonical h
  · exact execPatrolScrub_canonical h
  · exact execPowerOn_canonical h
  · exact execPoolLinkUp_canonical h
  · exact execPowerLoss_canonical h
  · exact execPoolBackInvalidate_canonical h

/-! ## A step -/

theorem cycleEnd_memWf {s} (h : s.memWf) : (cycleEnd s).memWf := by
  unfold cycleEnd
  split
  · exact h
  · exact holds_ite (endCycle_memWf h) (holds_ite h (endCycle_memWf h))

theorem closeStep_memWf {s} (h : s.memWf) : (closeStep s).memWf := by
  unfold closeStep
  exact settle_memWf (tock_memWf (cycleEnd_memWf h))

theorem close_canonical {x} (h : Canonical x) : Canonical (close x) := by
  cases x with
  | next s => exact canonical_next (closeStep_memWf (h s rfl))
  | fault f => exact canonical_fault
  | refused r => exact canonical_refused

theorem step_canonical {s} (h : s.memWf) : Canonical (step s) := by
  have hp : (plan s).memWf := plan_planWf h
  unfold step
  split
  · exact canonical_next (closeStep_memWf h)
  · rename_i t ht
    rw [ht] at hp
    exact canonical_next (closeStep_memWf hp)
  · rename_i i t ht
    rw [ht] at hp
    exact close_canonical (exec_canonical hp)

end Sys2Proof.Machine
end

section
open Sys2Proof Sys2Proof.Machine

/-- Settles O59: memories and the tables of their marks change only by the memory's own write, by marks that are set or cleared and by the
loss of power, each of which keeps the canonical form; every function of the model that answers a state is made of these, and so is a step. -/
theorem stepKeepsMemWf : Obligations.StepKeepsMemWf := by
  unfold Obligations.StepKeepsMemWf
  intro s t h hstep
  exact step_canonical h t hstep

end
